-- ==== Sys2Proof/Word.lean ====
section
/-!
DEFINITION. The word types of the Karulrix Esvik: bytes, words, record payloads, the tag word's fields and
the names of cells and queues (R12, R64, R226).
-/

namespace Sys2Proof

/-- A byte of memory. -/
abbrev Byte := BitVec 8

/-- A 32-bit word: a sequencer control word, a cell operation word. -/
abbrev Word32 := BitVec 32

/-- A 64-bit double-word: a `g` register, an address, a parameter register. -/
abbrev Word64 := BitVec 64

/-- The 64-byte payload of a record (R65). -/
abbrev Payload := BitVec 512

/-- The fields of the tag word (R226). `flags` is FLAGS, tag bits [59:52]: bit 7 NARROWED, 6 MERGED, 5 REPLAYED,
4 POISON, 3 SAT, 2 LATE; bits 1 and 0 are reserved. -/
structure Tag where
  kind   : BitVec 4
  flags  : BitVec 8
  domain : BitVec 4
  weight : BitVec 16
  nest   : BitVec 4
  seq    : BitVec 28
  deriving DecidableEq, Repr

/-- The name of a cell: the fields of the cell address of R12 with NODE 0; `n` is the cell number, 8 × CY + CX. -/
structure CellId where
  die : BitVec 3
  y   : BitVec 4
  x   : BitVec 4
  n   : BitVec 6
  deriving DecidableEq, Repr

/-- The name of a queue (R227): a cell inlet queue, the queue behind a sequencer outlet port, or a software
queue, named by its context and the virtual address of its descriptor. -/
inductive QRef where
  | cell (c : CellId) (q : BitVec 3)
  | out  (sq : BitVec 7) (port : BitVec 6)
  | soft (ctx : BitVec 9) (addr : Word64)
  deriving DecidableEq, Repr

/-- The name of a tile invocation (R32): the region's serial number in the model, the section, and the tile's
serial number within the section. The model's own name, used to find what a discard removes (R395). -/
structure Inv where
  region : Nat
  sec    : Nat
  tile   : Nat
  deriving DecidableEq, Repr

/-- One unit that a queue, a link or a port carries: a record, or a vector of two records sharing one tag word
(R67). `inv` is the model's own mark of the tile invocation that produced it, and `more` marks any others: a result of operands of
several invocations belongs to each, and a token stands for each of those that were aligned into it (R36, R286). -/
structure Item where
  tag  : Tag
  v0   : Payload
  v1   : Option Payload
  inv  : Option Inv
  more : List Inv := []
  deriving DecidableEq, Repr

/-- The invocations that a unit belongs to. -/
def Item.invs (u : Item) : List Inv := u.inv.toList ++ u.more

/-- A unit that belongs to further invocations. -/
def Item.withInvs (u : Item) (is : List Inv) : Item :=
  match is.foldl (fun l i => if i ∈ u.invs ∨ i ∈ l then l else l ++ [i]) [] with
  | [] => u
  | i :: rest => match u.inv with
    | some _ => { u with more := u.more ++ i :: rest }
    | none => { u with inv := some i, more := u.more ++ rest }

/-- The link formats of R64, in the order of their codes 0x0 to 0xD. -/
inductive Fmt where
  | raw | i8 | i32 | i64 | f32 | bf16 | f16 | e4m3 | e5m2 | sd2 | sd3 | sd4 | sdp | kv
  deriving DecidableEq, Repr

/-- The twelve cell kinds, in the order of their KIND codes 0x0 to 0xB (R112). -/
inductive CellKind where
  | arith | copy | join | steer | reorder | accum | memport | addrgen | window | matrix | online | convert
  deriving DecidableEq, Repr

end Sys2Proof
end

