-- ==== Sys2Proof/Syntax.lean ====
section
/-!
DEFINITION. The syntax: one constructor of `Instr` for each row of spec/opcode_table.json. The encoded rows carry the
fields of their words (R101, R111, R116, R119); the rows without an encoding carry the names of what takes the step
(a sequencer, a cell, a die's engine) and what the outside supplies to it (a packet, a host write).
-/

namespace Sys2Proof

/-- Who acquires an ORDER entry (R308, R310): a memport, or a sequencer. -/
inductive Acquirer where
  | cell (c : CellId)
  | seq  (q : BitVec 7)
  deriving DecidableEq, Repr

/-- A link with the states of R352: an Ethernet port of the die (port 2d or 2d + 1), or the bridge edge
0 west, 1 east, 2 north, 3 south. -/
inductive LinkName where
  | eth    (odd : Bool)
  | bridge (edge : BitVec 2)
  deriving DecidableEq, Repr

/-- What a frame may use that a port does not support (R353): what the table's last column names, or anything that the table does not. -/
inductive Unsupported where
  | creditFlow | ipFragment | rod | uud | receiverCredit | atomic | tagged | rendezvous | other
  deriving DecidableEq, Repr

/-- What a received Ethernet frame is to the port (R353): its length, whether it is a pause frame, what it uses that is not supported,
and the answer to a PEER read or write that it carries (R361). -/
structure EthFrame where
  bytes     : Nat
  pause     : Bool
  uses      : List Unsupported
  /-- a reply to the PEER request at place `peerReq` of the accesses issued: the 64 bytes read, or none for a refusal -/
  peerReq   : Option Nat
  peerData  : Option Payload
  deriving DecidableEq, Repr

/-- An arriving WRITE packet (R357). -/
structure WritePacket where
  conn    : BitVec 12
  handle  : BitVec 32
  roff    : Word64
  offset  : Word64
  data    : List Byte
  msg     : Nat
  idx     : Nat
  /-- the length of the whole message, and whether its sender set NOTIFY -/
  len     : Nat
  notify  : Bool
  deriving DecidableEq, Repr

/-- An arriving SEND packet (R357): 8 to 128 bytes for a channel of the registration's context. -/
structure SendPacket where
  conn    : BitVec 12
  handle  : BitVec 32
  chan    : BitVec 6
  data    : List Byte
  msg     : Nat
  notify  : Bool
  deriving DecidableEq, Repr

/-- How a message ended at the sender (R359): the peer's verdict, the bytes placed or acknowledged, and the packets
sent again. `data` holds what a READ brought. -/
structure MessageEnd where
  refused : Bool
  bytes   : Word64
  retx    : BitVec 32
  data    : List Byte
  deriving DecidableEq, Repr

/-- A slice and the memport whose writes it counts (R348). -/
structure CountPlace where
  slice : BitVec 7
  cell  : CellId
  deriving DecidableEq, Repr

/-- What the congestion control of a connection measured (R360), and the packets sent again on a negative acknowledgement (R353) since it
last did. -/
structure LinkMeasure where
  cwnd : Word64
  infl : Word64
  ecnf : BitVec 16
  rtt  : BitVec 32
  resent : BitVec 32
  deriving DecidableEq, Repr

/-- What the ECC of a line of stacked memory shows as the line is accessed or scrubbed (R403). -/
inductive ScrubResult where
  | clean | corrected | uncorrectable
  deriving DecidableEq, Repr

/-- Where a storage error was met (R404): a cell store, a clean line of a sequencer cache, or a dirty line of one,
named by its physical line number. -/
inductive EccSite where
  | cellStore (c : CellId)
  | seqClean  (q : BitVec 7)
  | seqDirty  (q : BitVec 7) (line : Nat)
  deriving DecidableEq, Repr

/-- A row-manager cache error (R405). -/
inductive RmCacheError where
  | correctable
  | cleanLine
  | tenantDirty (line : Nat)
  | osDirty
  deriving DecidableEq, Repr

/-- The steps of the Esvik: one constructor for each row of spec/opcode_table.json. -/
inductive Instr where
  /-- `ADD` (R132): Sequencer adds two registers with wrap. -/
  | add (d : BitVec 5) (a : BitVec 5) (b : BitVec 5) (g : BitVec 3) (s : BitVec 1)
  /-- `SUB` (R132): Sequencer subtracts gB from gA. -/
  | sub (d : BitVec 5) (a : BitVec 5) (b : BitVec 5) (g : BitVec 3) (s : BitVec 1)
  /-- `AND` (R132): Sequencer bitwise AND of two registers. -/
  | and (d : BitVec 5) (a : BitVec 5) (b : BitVec 5) (g : BitVec 3) (s : BitVec 1)
  /-- `OR` (R132): Sequencer bitwise OR of two registers. -/
  | or (d : BitVec 5) (a : BitVec 5) (b : BitVec 5) (g : BitVec 3) (s : BitVec 1)
  /-- `XOR` (R132): Sequencer bitwise XOR of two registers. -/
  | xor (d : BitVec 5) (a : BitVec 5) (b : BitVec 5) (g : BitVec 3) (s : BitVec 1)
  /-- `SHL` (R132): Sequencer shifts gA left by gB[5:0]. -/
  | shl (d : BitVec 5) (a : BitVec 5) (b : BitVec 5) (g : BitVec 3) (s : BitVec 1)
  /-- `SHR` (R132): Sequencer logical right shift. -/
  | shr (d : BitVec 5) (a : BitVec 5) (b : BitVec 5) (g : BitVec 3) (s : BitVec 1)
  /-- `SAR` (R132): Sequencer arithmetic right shift. -/
  | sar (d : BitVec 5) (a : BitVec 5) (b : BitVec 5) (g : BitVec 3) (s : BitVec 1)
  /-- `MUL` (R132): Sequencer low 64 bits of the product. -/
  | mul (d : BitVec 5) (a : BitVec 5) (b : BitVec 5) (g : BitVec 3) (s : BitVec 1)
  /-- `MULH` (R132): Sequencer high 64 bits of the signed product. -/
  | mulh (d : BitVec 5) (a : BitVec 5) (b : BitVec 5) (g : BitVec 3) (s : BitVec 1)
  /-- `DIV` (R132): Sequencer signed division, all ones on division by zero. -/
  | div (d : BitVec 5) (a : BitVec 5) (b : BitVec 5) (g : BitVec 3) (s : BitVec 1)
  /-- `REM` (R132): Sequencer signed remainder. -/
  | rem (d : BitVec 5) (a : BitVec 5) (b : BitVec 5) (g : BitVec 3) (s : BitVec 1)
  /-- `MIN` (R132): Sequencer signed minimum. -/
  | min (d : BitVec 5) (a : BitVec 5) (b : BitVec 5) (g : BitVec 3) (s : BitVec 1)
  /-- `MAX` (R132): Sequencer signed maximum. -/
  | max (d : BitVec 5) (a : BitVec 5) (b : BitVec 5) (g : BitVec 3) (s : BitVec 1)
  /-- `CLZ` (R132): Sequencer counts leading zeros of gA. -/
  | clz (d : BitVec 5) (a : BitVec 5) (g : BitVec 3) (s : BitVec 1)
  /-- `POPC` (R132): Sequencer counts one bits of gA. -/
  | popc (d : BitVec 5) (a : BitVec 5) (g : BitVec 3) (s : BitVec 1)
  /-- `ADDS` (R137): Sequencer adds gB scaled by the access width to gA. -/
  | adds (d : BitVec 5) (a : BitVec 5) (b : BitVec 5) (g : BitVec 3) (s : BitVec 1) (w : BitVec 2)
  /-- `BFX` (R137): Sequencer extracts a bit field. -/
  | bfx (d : BitVec 5) (a : BitVec 5) (b : BitVec 5) (g : BitVec 3) (s : BitVec 1)
  /-- `BFI` (R137): Sequencer inserts a bit field into gD. -/
  | bfi (d : BitVec 5) (a : BitVec 5) (b : BitVec 5) (g : BitVec 3) (s : BitVec 1)
  /-- `MAD` (R137): Sequencer multiply-accumulate into gD. -/
  | mad (d : BitVec 5) (a : BitVec 5) (b : BitVec 5) (g : BitVec 3) (s : BitVec 1)
  /-- `CRC` (R138): Sequencer folds bytes of gB into a CRC-32C. -/
  | crc (d : BitVec 5) (a : BitVec 5) (b : BitVec 5) (g : BitVec 3) (s : BitVec 1) (w : BitVec 2)
  /-- `CMPEQ` (R135): Sequencer sets a predicate on equality. -/
  | cmpeq (d : BitVec 3) (a : BitVec 5) (b : BitVec 5) (g : BitVec 3) (s : BitVec 1)
  /-- `CMPNE` (R135): Sequencer sets a predicate on inequality. -/
  | cmpne (d : BitVec 3) (a : BitVec 5) (b : BitVec 5) (g : BitVec 3) (s : BitVec 1)
  /-- `CMPLT` (R135): Sequencer sets a predicate on signed less-than. -/
  | cmplt (d : BitVec 3) (a : BitVec 5) (b : BitVec 5) (g : BitVec 3) (s : BitVec 1)
  /-- `CMPGE` (R135): Sequencer sets a predicate on signed greater-or-equal. -/
  | cmpge (d : BitVec 3) (a : BitVec 5) (b : BitVec 5) (g : BitVec 3) (s : BitVec 1)
  /-- `CMPLTU` (R135): Sequencer sets a predicate on unsigned less-than. -/
  | cmpltu (d : BitVec 3) (a : BitVec 5) (b : BitVec 5) (g : BitVec 3) (s : BitVec 1)
  /-- `CMPGEU` (R135): Sequencer sets a predicate on unsigned greater-or-equal. -/
  | cmpgeu (d : BitVec 3) (a : BitVec 5) (b : BitVec 5) (g : BitVec 3) (s : BitVec 1)
  /-- `SEL` (R136): Sequencer selects gA or gB by predicate pK. -/
  | sel (d : BitVec 5) (a : BitVec 5) (b : BitVec 5) (g : BitVec 3) (s : BitVec 1) (k : BitVec 3)
  /-- `JR` (R140): Sequencer jumps to the address in gA. -/
  | jr (a : BitVec 5) (g : BitVec 3) (s : BitVec 1)
  /-- `RET` (R140): Sequencer jumps to g31. -/
  | ret (g : BitVec 3) (s : BitVec 1)
  /-- `PGPROBE` (R338): Sequencer translates an address without faulting and reports the entry. -/
  | pgprobe (d : BitVec 5) (a : BitVec 5) (g : BitVec 3) (s : BitVec 1)
  /-- `SIGV` (R371): Sequencer asks the security controller to verify an LMS signature. -/
  | sigv (d : BitVec 5) (a : BitVec 5) (b : BitVec 5) (g : BitVec 3) (s : BitVec 1)
  /-- `KEYH` (R370): Sequencer describes a key handle of its context. -/
  | keyh (d : BitVec 5) (a : BitVec 5) (g : BitVec 3) (s : BitVec 1)
  /-- `LIH` (R134): Sequencer shifts a 21-bit immediate into gD. -/
  | lih (d : BitVec 5) (i : BitVec 21)
  /-- `ADDI` (R133): Sequencer adds a sign-extended immediate. -/
  | addi (d : BitVec 5) (a : BitVec 5) (g : BitVec 3) (i : BitVec 13)
  /-- `ANDI` (R133): Sequencer AND with a sign-extended immediate. -/
  | andi (d : BitVec 5) (a : BitVec 5) (g : BitVec 3) (i : BitVec 13)
  /-- `ORI` (R133): Sequencer OR with a sign-extended immediate. -/
  | ori (d : BitVec 5) (a : BitVec 5) (g : BitVec 3) (i : BitVec 13)
  /-- `XORI` (R133): Sequencer XOR with a sign-extended immediate. -/
  | xori (d : BitVec 5) (a : BitVec 5) (g : BitVec 3) (i : BitVec 13)
  /-- `SHLI` (R133): Sequencer left shift by an immediate amount. -/
  | shli (d : BitVec 5) (a : BitVec 5) (g : BitVec 3) (n : BitVec 6)
  /-- `SHRI` (R133): Sequencer logical right shift by an immediate amount. -/
  | shri (d : BitVec 5) (a : BitVec 5) (g : BitVec 3) (n : BitVec 6)
  /-- `SARI` (R133): Sequencer arithmetic right shift by an immediate amount. -/
  | sari (d : BitVec 5) (a : BitVec 5) (g : BitVec 3) (n : BitVec 6)
  /-- `LOOP` (R141): Sequencer decrements a count and branches while it is non-zero. -/
  | loop (d : BitVec 5) (g : BitVec 3) (i : BitVec 13)
  /-- `BR` (R139): Sequencer branches by displacement. -/
  | br (g : BitVec 3) (s : BitVec 1) (d : BitVec 22)
  /-- `BRP` (R139): Sequencer branches by displacement, predicted taken. -/
  | brp (g : BitVec 3) (s : BitVec 1) (d : BitVec 22)
  /-- `CALL` (R139): Sequencer writes g31 and branches. -/
  | call (g : BitVec 3) (s : BitVec 1) (d : BitVec 22)
  /-- `LD` (R143): Sequencer loads width bytes, zero-extended. -/
  | ld (d : BitVec 5) (a : BitVec 5) (g : BitVec 3) (o : BitVec 2) (c : BitVec 3) (w : BitVec 2) (e : BitVec 6)
  /-- `ST` (R143): Sequencer stores the low width bytes of a register. -/
  | st (d : BitVec 5) (a : BitVec 5) (g : BitVec 3) (o : BitVec 2) (c : BitVec 3) (w : BitVec 2) (e : BitVec 6)
  /-- `LDM` (R144): Sequencer loads a list of double-words. -/
  | ldm (d : BitVec 5) (a : BitVec 5) (g : BitVec 3) (o : BitVec 2) (c : BitVec 3) (n : BitVec 4)
  /-- `STM` (R144): Sequencer stores a list of double-words. -/
  | stm (d : BitVec 5) (a : BitVec 5) (g : BitVec 3) (o : BitVec 2) (c : BitVec 3) (n : BitVec 4)
  /-- `AMOSWAP` (R145): Sequencer atomic swap at the memory slice. -/
  | amoswap (d : BitVec 5) (a : BitVec 5) (g : BitVec 3) (o : BitVec 2) (c : BitVec 3) (w : BitVec 2)
  /-- `AMOADD` (R145): Sequencer atomic add. -/
  | amoadd (d : BitVec 5) (a : BitVec 5) (g : BitVec 3) (o : BitVec 2) (c : BitVec 3) (w : BitVec 2)
  /-- `AMOAND` (R145): Sequencer atomic AND. -/
  | amoand (d : BitVec 5) (a : BitVec 5) (g : BitVec 3) (o : BitVec 2) (c : BitVec 3) (w : BitVec 2)
  /-- `AMOOR` (R145): Sequencer atomic OR. -/
  | amoor (d : BitVec 5) (a : BitVec 5) (g : BitVec 3) (o : BitVec 2) (c : BitVec 3) (w : BitVec 2)
  /-- `AMOXOR` (R145): Sequencer atomic XOR. -/
  | amoxor (d : BitVec 5) (a : BitVec 5) (g : BitVec 3) (o : BitVec 2) (c : BitVec 3) (w : BitVec 2)
  /-- `AMOMIN` (R145): Sequencer atomic signed minimum. -/
  | amomin (d : BitVec 5) (a : BitVec 5) (g : BitVec 3) (o : BitVec 2) (c : BitVec 3) (w : BitVec 2)
  /-- `AMOMAX` (R145): Sequencer atomic signed maximum. -/
  | amomax (d : BitVec 5) (a : BitVec 5) (g : BitVec 3) (o : BitVec 2) (c : BitVec 3) (w : BitVec 2)
  /-- `AMOMINU` (R145): Sequencer atomic unsigned minimum. -/
  | amominu (d : BitVec 5) (a : BitVec 5) (g : BitVec 3) (o : BitVec 2) (c : BitVec 3) (w : BitVec 2)
  /-- `AMOMAXU` (R145): Sequencer atomic unsigned maximum. -/
  | amomaxu (d : BitVec 5) (a : BitVec 5) (g : BitVec 3) (o : BitVec 2) (c : BitVec 3) (w : BitVec 2)
  /-- `CAS` (R146): Sequencer compare-and-swap at the memory slice. -/
  | cas (d : BitVec 5) (a : BitVec 5) (g : BitVec 3) (o : BitVec 2) (c : BitVec 3) (w : BitVec 2)
  /-- `NOP` (R160): Sequencer does nothing. -/
  | nop (q : BitVec 3)
  /-- `HALT` (R160): Sequencer ends the control program; sections admit no more tiles. -/
  | halt (q : BitVec 3)
  /-- `YIELD` (R385): Sequencer starts a pending pre-emption or sets the YIELD flag. -/
  | yield (q : BitVec 3)
  /-- `TRAP` (R384): Sequencer takes a software trap with a code. -/
  | trap (c : BitVec 6) (q : BitVec 3)
  /-- `RTE` (R384): Sequencer returns from a trap handler to TEPC. -/
  | rte (q : BitVec 3)
  /-- `SYSR` (R384): Sequencer reads a control register. -/
  | sysr (d : BitVec 5) (r : BitVec 6) (q : BitVec 3)
  /-- `SYSW` (R386): Sequencer writes a control register. -/
  | sysw (a : BitVec 5) (r : BitVec 6) (q : BitVec 3)
  /-- `GET` (R154): Sequencer pops one unit from an outlet port, waiting on that port. -/
  | get (d : BitVec 5) (n : BitVec 6) (q : BitVec 3) (c : BitVec 4)
  /-- `PEEK_INLET` (R155): Sequencer reads the free-slot count of an inlet queue. -/
  | peekInlet (d : BitVec 5) (n : BitVec 6) (q : BitVec 3)
  /-- `PEEK_OUTLET` (R155): Sequencer reads the tag word of an outlet queue's head. -/
  | peekOutlet (d : BitVec 5) (n : BitVec 6) (q : BitVec 3)
  /-- `ACCZ` (R156): Sequencer clears an accumulator. -/
  | accz (n : BitVec 4) (q : BitVec 3)
  /-- `ACCR` (R156): Sequencer reads accumulator lanes, waiting while it is attached. -/
  | accr (d : BitVec 5) (n : BitVec 4) (q : BitVec 3) (c : BitVec 4)
  /-- `SCMD_STOP` (R157): Sequencer stops an accumulator. -/
  | scmdStop (a : BitVec 5) (n : BitVec 4) (q : BitVec 3)
  /-- `SCMD_ADD_I32` (R157): Attaches an accumulator summing i32 lanes into i64. -/
  | scmdAddI32 (a : BitVec 5) (n : BitVec 4) (q : BitVec 3)
  /-- `SCMD_ADD_I64` (R157): Attaches an accumulator summing i64 lanes. -/
  | scmdAddI64 (a : BitVec 5) (n : BitVec 4) (q : BitVec 3)
  /-- `SCMD_ADD_F32` (R157): Attaches an accumulator summing f32 lanes. -/
  | scmdAddF32 (a : BitVec 5) (n : BitVec 4) (q : BitVec 3)
  /-- `SCMD_WADD_I32` (R157): Attaches an accumulator summing weighted i32 lanes. -/
  | scmdWaddI32 (a : BitVec 5) (n : BitVec 4) (q : BitVec 3)
  /-- `SCMD_WADD_F32` (R157): Attaches an accumulator summing weighted f32 lanes. -/
  | scmdWaddF32 (a : BitVec 5) (n : BitVec 4) (q : BitVec 3)
  /-- `SCMD_MAX_I32` (R157): Attaches an accumulator keeping signed i32 maxima. -/
  | scmdMaxI32 (a : BitVec 5) (n : BitVec 4) (q : BitVec 3)
  /-- `SCMD_MIN_I32` (R157): Attaches an accumulator keeping signed i32 minima. -/
  | scmdMinI32 (a : BitVec 5) (n : BitVec 4) (q : BitVec 3)
  /-- `SCMD_MAX_F32` (R157): Attaches an accumulator keeping f32 maxima. -/
  | scmdMaxF32 (a : BitVec 5) (n : BitVec 4) (q : BitVec 3)
  /-- `SCMD_MIN_F32` (R157): Attaches an accumulator keeping f32 minima. -/
  | scmdMinF32 (a : BitVec 5) (n : BitVec 4) (q : BitVec 3)
  /-- `SCMD_COUNT` (R157): Attaches an accumulator counting records, weights, poison, late and gaps. -/
  | scmdCount (a : BitVec 5) (n : BitVec 4) (q : BitVec 3)
  /-- `SCMD_KEY_ADD` (R157): Attaches an accumulator summing kv values by key mod 16. -/
  | scmdKeyAdd (a : BitVec 5) (n : BitVec 4) (q : BitVec 3)
  /-- `SCMD_KEY_WADD` (R157): Attaches an accumulator summing weighted kv values by key mod 16. -/
  | scmdKeyWadd (a : BitVec 5) (n : BitVec 4) (q : BitVec 3)
  /-- `SCMD_OR` (R157): Attaches an accumulator ORing i64 lanes. -/
  | scmdOr (a : BitVec 5) (n : BitVec 4) (q : BitVec 3)
  /-- `SCMD_XOR` (R157): Attaches an accumulator XORing i64 lanes. -/
  | scmdXor (a : BitVec 5) (n : BitVec 4) (q : BitVec 3)
  /-- `SCMD_COPY` (R157): Attaches an accumulator keeping the latest record's dwords. -/
  | scmdCopy (a : BitVec 5) (n : BitVec 4) (q : BitVec 3)
  /-- `ARM` (R158): Sequencer gives a section its tile count and sets its credits. -/
  | arm (a : BitVec 5) (s : BitVec 6) (q : BitVec 3)
  /-- `LAUNCH` (R159): Sequencer releases at .pkg and hands a launch descriptor to the launch engine. -/
  | launch (a : BitVec 5) (q : BitVec 3)
  /-- `RECV` (R303): Sequencer pops one unit from a channel, waiting on it, then acquires. -/
  | recv (d : BitVec 5) (c : BitVec 6) (q : BitVec 3) (n : BitVec 4)
  /-- `PUT` (R152): Sequencer offers one unit to an inlet queue and reports the outcome in p7. -/
  | put (a : BitVec 5) (n : BitVec 6) (q : BitVec 3) (c : BitVec 4)
  /-- `SEND` (R303): Sequencer releases and offers one unit to a channel at its owning slice. -/
  | send (a : BitVec 5) (c : BitVec 6) (q : BitVec 3) (n : BitVec 4)
  /-- `QBIND` (R252): Sequencer binds an inlet port to a queue and loads its policy. -/
  | qbind (a : BitVec 5) (n : BitVec 6) (q : BitVec 3)
  /-- `QSTAT_INLET` (R253): Sequencer reads an inlet queue's status. -/
  | qstatInlet (d : BitVec 5) (n : BitVec 6) (q : BitVec 3)
  /-- `QSTAT_OUTLET` (R253): Sequencer reads an outlet queue's status. -/
  | qstatOutlet (d : BitVec 5) (n : BitVec 6) (q : BitVec 3)
  /-- `QGAP_INLET` (R254): Sequencer reads and clears an inlet queue's loss counts. -/
  | qgapInlet (d : BitVec 5) (n : BitVec 6) (q : BitVec 3)
  /-- `QGAP_OUTLET` (R254): Sequencer reads and clears an outlet queue's loss counts. -/
  | qgapOutlet (d : BitVec 5) (n : BitVec 6) (q : BitVec 3)
  /-- `QDRAIN_INLET` (R255): Sequencer moves an inlet queue to DRAINING. -/
  | qdrainInlet (n : BitVec 6) (q : BitVec 3)
  /-- `QDRAIN_OUTLET` (R255): Sequencer moves an outlet queue to DRAINING. -/
  | qdrainOutlet (n : BitVec 6) (q : BitVec 3)
  /-- `CFGLD` (R274): Sequencer starts fetching a block record into the shadows. -/
  | cfgld (a : BitVec 5) (q : BitVec 3)
  /-- `CFGCHK` (R275): Sequencer waits for outstanding fetches and reads the configuration status. -/
  | cfgchk (d : BitVec 5) (q : BitVec 3)
  /-- `CFGFLIP` (R276): Sequencer checks the staged configuration and sends the capo. -/
  | cfgflip (q : BitVec 3)
  /-- `CFGABORT` (R277): Sequencer discards every shadow of the region. -/
  | cfgabort (q : BitVec 3)
  /-- `GRUN` (R291): Sequencer starts a group. -/
  | grun (n : BitVec 6) (q : BitVec 3)
  /-- `GWAIT` (R292): Sequencer waits until a group is not RUNNING. -/
  | gwait (n : BitVec 6) (q : BitVec 3)
  /-- `GSTAT` (R293): Sequencer reads a group's status. -/
  | gstat (d : BitVec 5) (n : BitVec 6) (q : BitVec 3)
  /-- `FENCE` (R150): Sequencer orders earlier accesses before later ones at a scope. -/
  | fence (q : BitVec 3) (c : BitVec 3)
  /-- `BARI` (R298): Sequencer initialises a barrier OPEN with EXPECT. -/
  | bari (a : BitVec 5) (q : BitVec 3) (c : BitVec 3)
  /-- `BARA` (R298): Sequencer releases and arrives at a barrier. -/
  | bara (a : BitVec 5) (q : BitVec 3) (c : BitVec 3)
  /-- `BARW` (R298): Sequencer waits for its barrier phase to complete, then acquires. -/
  | barw (a : BitVec 5) (q : BitVec 3) (c : BitVec 3)
  /-- `BART` (R298): Sequencer tests whether its barrier phase has completed. -/
  | bart (a : BitVec 5) (k : BitVec 3) (q : BitVec 3) (c : BitVec 3)
  /-- `STATF` (R100): Sequencer writes the region's statistics table to memory and clears it. -/
  | statf (a : BitVec 5) (q : BitVec 3)
  /-- `RETUNE` (R337): Sequencer drops translations of a page and retunes its region's pins. -/
  | retune (a : BitVec 5) (q : BitVec 3)
  /-- `ARITH_ADD` (R167): Arith node adds two records lane by lane. -/
  | arithAdd (a : BitVec 6) (b : BitVec 6) (m : BitVec 2) (r : BitVec 3) (v : BitVec 1) (p : BitVec 4)
  /-- `ARITH_SUB` (R167): Arith node subtracts lane by lane. -/
  | arithSub (a : BitVec 6) (b : BitVec 6) (m : BitVec 2) (r : BitVec 3) (v : BitVec 1) (p : BitVec 4)
  /-- `ARITH_MUL` (R167): Arith node multiplies lane by lane. -/
  | arithMul (a : BitVec 6) (b : BitVec 6) (m : BitVec 2) (r : BitVec 3) (v : BitVec 1) (p : BitVec 4)
  /-- `ARITH_FMA` (R167): Arith node computes a times a scalar plus b with one rounding. -/
  | arithFma (a : BitVec 6) (b : BitVec 6) (m : BitVec 2) (r : BitVec 3) (v : BitVec 1) (p : BitVec 4)
  /-- `ARITH_MIN` (R167): Arith node lane-wise minimum. -/
  | arithMin (a : BitVec 6) (b : BitVec 6) (m : BitVec 2) (o : BitVec 8)
  /-- `ARITH_MAX` (R167): Arith node lane-wise maximum. -/
  | arithMax (a : BitVec 6) (b : BitVec 6) (m : BitVec 2) (o : BitVec 8)
  /-- `ARITH_ABS` (R167): Arith node lane-wise absolute value. -/
  | arithAbs (a : BitVec 6) (b : BitVec 6) (m : BitVec 2) (o : BitVec 8)
  /-- `ARITH_NEG` (R167): Arith node lane-wise negation. -/
  | arithNeg (a : BitVec 6) (b : BitVec 6) (m : BitVec 2) (o : BitVec 8)
  /-- `ARITH_AND` (R167): Arith node bitwise AND. -/
  | arithAnd (a : BitVec 6) (b : BitVec 6) (m : BitVec 2) (o : BitVec 8)
  /-- `ARITH_OR` (R167): Arith node bitwise OR. -/
  | arithOr (a : BitVec 6) (b : BitVec 6) (m : BitVec 2) (o : BitVec 8)
  /-- `ARITH_XOR` (R167): Arith node bitwise XOR. -/
  | arithXor (a : BitVec 6) (b : BitVec 6) (m : BitVec 2) (o : BitVec 8)
  /-- `ARITH_SHL` (R167): Arith node lane-wise left shift. -/
  | arithShl (a : BitVec 6) (b : BitVec 6) (m : BitVec 2) (o : BitVec 8)
  /-- `ARITH_SHR_LOGICAL` (R167): Arith node lane-wise logical right shift. -/
  | arithShrLogical (a : BitVec 6) (b : BitVec 6) (m : BitVec 2) (o : BitVec 7)
  /-- `ARITH_SHR_ARITHMETIC` (R167): Arith node lane-wise arithmetic right shift. -/
  | arithShrArithmetic (a : BitVec 6) (b : BitVec 6) (m : BitVec 2) (o : BitVec 7)
  /-- `ARITH_CMP_EQ` (R169): Arith node writes a lane mask of equal lanes. -/
  | arithCmpEq (a : BitVec 6) (b : BitVec 6) (m : BitVec 2) (o : BitVec 5)
  /-- `ARITH_CMP_NE` (R169): Arith node writes a lane mask of unequal lanes. -/
  | arithCmpNe (a : BitVec 6) (b : BitVec 6) (m : BitVec 2) (o : BitVec 5)
  /-- `ARITH_CMP_LT` (R169): Arith node writes a lane mask of signed less-than lanes. -/
  | arithCmpLt (a : BitVec 6) (b : BitVec 6) (m : BitVec 2) (o : BitVec 5)
  /-- `ARITH_CMP_GE` (R169): Arith node writes a lane mask of signed greater-or-equal lanes. -/
  | arithCmpGe (a : BitVec 6) (b : BitVec 6) (m : BitVec 2) (o : BitVec 5)
  /-- `ARITH_CMP_LTU` (R169): Arith node writes a lane mask of unsigned less-than lanes. -/
  | arithCmpLtu (a : BitVec 6) (b : BitVec 6) (m : BitVec 2) (o : BitVec 5)
  /-- `ARITH_CMP_GEU` (R169): Arith node writes a lane mask of unsigned greater-or-equal lanes. -/
  | arithCmpGeu (a : BitVec 6) (b : BitVec 6) (m : BitVec 2) (o : BitVec 5)
  /-- `ARITH_SEL` (R167): Arith node selects lanes of a or b by the p mask. -/
  | arithSel (a : BitVec 6) (b : BitVec 6) (m : BitVec 2) (o : BitVec 8)
  /-- `ARITH_SAT` (R169): Arith node clamps lanes to bounds from a parameter register. -/
  | arithSat (a : BitVec 6) (b : BitVec 6) (m : BitVec 2) (o : BitVec 8)
  /-- `COPY` (R170): Copy node delivers a record unchanged to two targets. -/
  | copy (a : BitVec 6) (b : BitVec 6) (m : BitVec 2) (o : BitVec 8)
  /-- `GATE` (R171): Carry gate passes loop entries and back-edge records under the loop test. -/
  | gate (a : BitVec 6) (b : BitVec 6) (m : BitVec 2) (o : BitVec 8)
  /-- `JCMP` (R175): Join node compares key heads and acts by its action table. -/
  | jcmp (a : BitVec 6) (b : BitVec 6) (m : BitVec 2) (o : BitVec 8)
  /-- `ISECT` (R177): Join node emits combined records of equal keys. -/
  | isect (a : BitVec 6) (b : BitVec 6) (m : BitVec 2) (o : BitVec 8)
  /-- `UNION` (R177): Join node emits every key of both streams, combining equal keys. -/
  | unionKeys (a : BitVec 6) (b : BitVec 6) (m : BitVec 2) (o : BitVec 8)
  /-- `DIFF` (R177): Join node emits keys of a absent from b. -/
  | diff (a : BitVec 6) (b : BitVec 6) (m : BitVec 2) (o : BitVec 8)
  /-- `JWIN` (R178): Join node joins matching windows of two unsorted streams. -/
  | jwin (a : BitVec 6) (b : BitVec 6) (m : BitVec 2) (o : BitVec 8)
  /-- `STP` (R173): Steer node routes a record by a predicate bit. -/
  | stp (a : BitVec 6) (b : BitVec 6) (m : BitVec 2) (o : BitVec 8)
  /-- `STK` (R173): Steer node routes a record by key range. -/
  | stk (a : BitVec 6) (b : BitVec 6) (m : BitVec 2) (o : BitVec 8)
  /-- `STH` (R173): Steer node routes a record by key hash. -/
  | sth (a : BitVec 6) (b : BitVec 6) (m : BitVec 2) (o : BitVec 8)
  /-- `STT` (R173): Steer node routes a record by table lookup. -/
  | stt (a : BitVec 6) (b : BitVec 6) (m : BitVec 2) (o : BitVec 8)
  /-- `RORD` (R179): Reorder node restores ascending SEQ order within a window. -/
  | rord (a : BitVec 6) (b : BitVec 6) (m : BitVec 2) (o : BitVec 8)
  /-- `RREL` (R180): Reorder node that also releases up to a bound given at c. -/
  | rrel (a : BitVec 6) (b : BitVec 6) (m : BitVec 2) (o : BitVec 8)
  /-- `AINS` (R219): Fretboard update adds on hit, inserts on miss, spills when full. -/
  | ains (a : BitVec 6) (b : BitVec 6) (m : BitVec 2) (o : BitVec 8)
  /-- `AMAX` (R219): Fretboard update keeps the larger value. -/
  | amax (a : BitVec 6) (b : BitVec 6) (m : BitVec 2) (o : BitVec 8)
  /-- `AMIN` (R219): Fretboard update keeps the smaller value. -/
  | amin (a : BitVec 6) (b : BitVec 6) (m : BitVec 2) (o : BitVec 8)
  /-- `ALOOK` (R222): Fretboard lookup without writing. -/
  | alook (a : BitVec 6) (b : BitVec 6) (m : BitVec 2) (o : BitVec 8)
  /-- `ADRAIN` (R223): Fretboard drain emits every valid entry, a gap marker if lossy, and an EOD. -/
  | adrain (a : BitVec 6) (b : BitVec 6) (m : BitVec 2) (o : BitVec 8)
  /-- `ASPILL` (R224): Fretboard emits its entries as update records and clears. -/
  | aspill (a : BitVec 6) (b : BitVec 6) (m : BitVec 2) (o : BitVec 8)
  /-- `ACLR` (R224): Fretboard clears its table and loss count. -/
  | aclr (a : BitVec 6) (b : BitVec 6) (m : BitVec 2) (o : BitVec 8)
  /-- `MRD` (R201): Memport reads one unit at an address. -/
  | mrd (a : BitVec 6) (b : BitVec 6) (m : BitVec 2) (o : BitVec 8)
  /-- `MWR` (R201): Memport holds a store until the tile's EOT. -/
  | mwr (a : BitVec 6) (b : BitVec 6) (m : BitVec 2) (o : BitVec 8)
  /-- `MAMO` (R204): Memport applies an atomic at once and journals it. -/
  | mamo (a : BitVec 6) (b : BitVec 6) (m : BitVec 2) (o : BitVec 8)
  /-- `MSCT` (R201): Memport atomic scatter keyed by kv address. -/
  | msct (a : BitVec 6) (b : BitVec 6) (m : BitVec 2) (o : BitVec 8)
  /-- `MGAT` (R201): Memport gather keyed by kv address. -/
  | mgat (a : BitVec 6) (b : BitVec 6) (m : BitVec 2) (o : BitVec 8)
  /-- `AGEN` (R196): Addrgen source emits one tile of an affine address nest. -/
  | agen (a : BitVec 6) (b : BitVec 6) (m : BitVec 2) (o : BitVec 8)
  /-- `AGBASE` (R199): Addrgen node writes a new base into a parameter register. -/
  | agbase (a : BitVec 6) (b : BitVec 6) (m : BitVec 2) (o : BitVec 8)
  /-- `AGRE` (R199): Addrgen node re-latches page pins on a trigger. -/
  | agre (a : BitVec 6) (b : BitVec 6) (m : BitVec 2) (o : BitVec 8)
  /-- `WIN` (R182): Window node closes a window and reduces or lists it. -/
  | win (a : BitVec 6) (b : BitVec 6) (m : BitVec 2) (o : BitVec 8)
  /-- `WFLUSH` (R183): Window node that also closes partial windows at a segment end. -/
  | wflush (a : BitVec 6) (b : BitVec 6) (m : BitVec 2) (o : BitVec 8)
  /-- `MMA` (R211): Matrix cell accumulates one K step. -/
  | mma (a : BitVec 6) (b : BitVec 6) (m : BitVec 2) (o : BitVec 8)
  /-- `MMAS` (R211): Matrix cell accumulates one K step applying scale words. -/
  | mmas (a : BitVec 6) (b : BitVec 6) (m : BitVec 2) (o : BitVec 8)
  /-- `MDRN` (R213): Matrix cell drains accumulators, checks checksums and clears. -/
  | mdrn (a : BitVec 6) (b : BitVec 6) (m : BitVec 2) (o : BitVec 8)
  /-- `MZERO` (R213): Matrix cell clears accumulators without emitting. -/
  | mzero (a : BitVec 6) (b : BitVec 6) (m : BitVec 2) (o : BitVec 8)
  /-- `OADD` (R185): Online node adds signed-digit planes. -/
  | oadd (a : BitVec 6) (b : BitVec 6) (m : BitVec 2) (o : BitVec 8)
  /-- `OMUL` (R185): Online node multiplies signed-digit planes. -/
  | omul (a : BitVec 6) (b : BitVec 6) (m : BitVec 2) (o : BitVec 8)
  /-- `OMAC` (R185): Online node multiply-accumulates signed-digit planes. -/
  | omac (a : BitVec 6) (b : BitVec 6) (m : BitVec 2) (o : BitVec 8)
  /-- `OCUT` (R187): Online node cuts elements to K planes. -/
  | ocut (a : BitVec 6) (b : BitVec 6) (m : BitVec 2) (o : BitVec 8)
  /-- `OCONV` (R188): Online node converts between conventional vectors and digit planes. -/
  | oconv (a : BitVec 6) (b : BitVec 6) (m : BitVec 2) (r : BitVec 3) (v : BitVec 1) (p : BitVec 4)
  /-- `CVT` (R189): Convert node converts a record to a wider lane count. -/
  | cvt (a : BitVec 6) (b : BitVec 6) (m : BitVec 2) (r : BitVec 3) (v : BitVec 1) (p : BitVec 4)
  /-- `RSC` (R189): Convert node rescales a record or a vector's scale. -/
  | rsc (a : BitVec 6) (b : BitVec 6) (m : BitVec 2) (r : BitVec 3) (v : BitVec 1) (p : BitVec 4)
  /-- `PACK` (R190): Convert node packs source records into a container. -/
  | pack (a : BitVec 6) (b : BitVec 6) (m : BitVec 2) (r : BitVec 3) (v : BitVec 1) (p : BitVec 4)
  /-- `UNPACK` (R191): Convert node splits a unit into parts. -/
  | unpack (a : BitVec 6) (b : BitVec 6) (m : BitVec 2) (o : BitVec 8)
  /-- `STAT` (R192): Convert node passes a unit and counts its special lanes. -/
  | stat (a : BitVec 6) (b : BitVec 6) (m : BitVec 2) (o : BitVec 8)
  /-- `IMM` (R418): Policy loads an 8-bit immediate. -/
  | polImm (d : BitVec 3) (v : BitVec 8)
  /-- `FLD` (R418): Policy reads a candidate-table field. -/
  | polFld (d : BitVec 3) (f : BitVec 5)
  /-- `SLD` (R418): Policy reads a partition-state field. -/
  | polSld (d : BitVec 3) (f : BitVec 5)
  /-- `PLUS` (R418): Policy adds two registers. -/
  | polPlus (d : BitVec 3) (s : BitVec 3)
  /-- `MINUS` (R418): Policy subtracts two registers. -/
  | polMinus (d : BitVec 3) (s : BitVec 3)
  /-- `LOW` (R418): Policy signed minimum. -/
  | polLow (d : BitVec 3) (s : BitVec 3)
  /-- `HIGH` (R418): Policy signed maximum. -/
  | polHigh (d : BitVec 3) (s : BitVec 3)
  /-- `BAND` (R418): Policy bitwise AND. -/
  | polBand (d : BitVec 3) (s : BitVec 3)
  /-- `BOR` (R418): Policy bitwise OR. -/
  | polBor (d : BitVec 3) (s : BitVec 3)
  /-- `LSL` (R418): Policy left shift. -/
  | polLsl (d : BitVec 3) (n : BitVec 5)
  /-- `LSR` (R418): Policy logical right shift. -/
  | polLsr (d : BitVec 3) (n : BitVec 5)
  /-- `TEST_EQ` (R418): Policy sets T on equality. -/
  | polTestEq (d : BitVec 3) (s : BitVec 3)
  /-- `TEST_NE` (R418): Policy sets T on inequality. -/
  | polTestNe (d : BitVec 3) (s : BitVec 3)
  /-- `TEST_LT` (R418): Policy sets T on signed less-than. -/
  | polTestLt (d : BitVec 3) (s : BitVec 3)
  /-- `TEST_GE` (R418): Policy sets T on signed greater-or-equal. -/
  | polTestGe (d : BitVec 3) (s : BitVec 3)
  /-- `TEST_LTU` (R418): Policy sets T on unsigned less-than. -/
  | polTestLtu (d : BitVec 3) (s : BitVec 3)
  /-- `TEST_GEU` (R418): Policy sets T on unsigned greater-or-equal. -/
  | polTestGeu (d : BitVec 3) (s : BitVec 3)
  /-- `SKIP` (R418): Policy skips forward when T holds. -/
  | polSkip (d : BitVec 8)
  /-- `JUMP` (R418): Policy jumps forward. -/
  | polJump (d : BitVec 8)
  /-- `EACH` (R418): Policy starts a loop over unvetoed rows. -/
  | polEach
  /-- `NEXT` (R418): Policy moves to the next row or leaves the loop. -/
  | polNext (d : BitVec 8)
  /-- `PICK` (R418): Policy selects the current row if its score is higher. -/
  | polPick (d : BitVec 3)
  /-- `DECIDE` (R418): Policy ends with the selected row. -/
  | polDecide
  /-- `VETO` (R418): Policy vetoes the current row. -/
  | polVeto
  /-- `STOP` (R418): Policy ends deciding NONE. -/
  | polStop
  /-- `KCMD` (R429): Row manager releases and submits a descriptor to an engine queue for a ticket. -/
  | kcmd (b : BitVec 5) (a : BitVec 5) (d : BitVec 5)
  /-- `KFENCE` (R430): Row manager waits for a ticket and acquires its effects. -/
  | kfence (a : BitVec 5)
  /-- `KPOLL` (R431): Row manager reads a ticket's state without waiting. -/
  | kpoll (a : BitVec 5) (d : BitVec 5)
  /-- `KQST` (R432): Row manager reads an engine queue's free entries. -/
  | kqst (b : BitVec 5) (d : BitVec 5)
  /-- `KHALT_HALT` (R433): Row manager halts its own row. -/
  | khaltHalt (a : BitVec 5)
  /-- `KHALT_RESUME` (R433): Row manager resumes its own halted row. -/
  | khaltResume (a : BitVec 5)
  /-- `KPEEK` (R434): Row manager reads one drain-chain item. -/
  | kpeek (a : BitVec 5) (d : BitVec 5)
  /-- `KREPLAY` (R435): Row manager replays one unit into a queue of its halted row. -/
  | kreplay (b : BitVec 5) (a : BitVec 5)
  /-- `KBBX` (R436): Row manager reads one double-word of the black-box recorder. -/
  | kbbx (a : BitVec 5) (d : BitVec 5)
  /-- `WORD_NOT_AN_INSTRUCTION` (R109): The sequencer fetches a word that decodes to no instruction and traps with the first applicable decode cause, even under a false guard. -/
  | wordNotAnInstruction (w : Word32)
  /-- `ILLEGAL_INSTRUCTION_EXCEPTION` (R120): A row-manager word in custom-0 or custom-1 with funct3 0b100 to 0b111, non-zero funct7 or a non-zero field marked 0 raises the base illegal-instruction exception. -/
  | illegalInstructionException (w : Word32)
  /-- `GET_COMPLETE` (R154): A waiting get pops the unit that has arrived at its port. -/
  | getComplete (q : BitVec 7)
  /-- `ACCR_COMPLETE` (R156): A waiting accr reads its accumulator once it detaches. -/
  | accrComplete (q : BitVec 7)
  /-- `RECV_COMPLETE` (R303): A waiting recv pops the unit that has arrived on its channel. -/
  | recvComplete (q : BitVec 7)
  /-- `BARW_COMPLETE` (R298): A waiting barw returns when its phase completes. -/
  | barwComplete (q : BitVec 7)
  /-- `GWAIT_COMPLETE` (R292): A waiting gwait returns when its group leaves RUNNING. -/
  | gwaitComplete (q : BitVec 7)
  /-- `CFGCHK_COMPLETE` (R275): A waiting cfgchk returns once no fetch is outstanding. -/
  | cfgchkComplete (q : BitVec 7)
  /-- `BACK_OFF_END` (R153): A put or send delayed by its port's or channel's back-off proceeds once 64 cycles have passed since the failure. -/
  | backOffEnd (q : BitVec 7)
  /-- `TOKEN_FORWARD` (R23): A node handles a control token heading its inlets. -/
  | tokenForward (c : CellId) (k : BitVec 3)
  /-- `CELL_FLIP` (R270): A cell flips to its shadow once the capo has passed all its inlets. -/
  | cellFlip (c : CellId)
  /-- `CELL_MUTE` (R375): A cell acts on the mute, emits it and saves its state. -/
  | cellMute (c : CellId)
  /-- `PULSE_ARRIVAL` (R28): A pulse reaches an input and is counted or discarded. -/
  | pulseArrival (k : Nat)
  /-- `TILE_ADMIT` (R285): A section admits its next tile once every condition holds. -/
  | tileAdmit (r : Nat) (sec : BitVec 6)
  /-- `TILE_END` (R286): A tile's EOT has passed every sink and its stores have performed. -/
  | tileEnd (r : Nat) (sec : BitVec 6)
  /-- `QUEUE_OFFER` (R238): A queue decides the fate of an arriving unit. -/
  | queueOffer (src dst : CellId)
  /-- `LEAVE_SHEDDING` (R231): Queue leaves SHEDDING at the end of a cycle with low occupancy. -/
  | leaveShedding (q : QRef)
  /-- `SPILL_REPLAY` (R244): Spill engine moves the oldest ring unit back into the queue. -/
  | spillReplay (q : QRef)
  /-- `QUEUE_CLOSED` (R231): A draining queue that has emptied becomes CLOSED. -/
  | queueClosed (q : QRef)
  /-- `ACCUMULATOR_TAKE` (R157): An attached accumulator takes a unit that reaches its outlet. -/
  | accumulatorTake (q : BitVec 7) (n : BitVec 4)
  /-- `SWITCH_CONVERT` (R91): A switch converts a record or vector arriving on an EXT inlet. -/
  | switchConvert (c : CellId) (inlet : BitVec 5)
  /-- `MEMPORT_READ_RETURN` (R202): A memport read returns and leaves in request order. -/
  | memportReadReturn (c : CellId)
  /-- `ATOMIC_PERFORM` (R204): A memport atomic performs at its slice. -/
  | atomicPerform (c : CellId) (k : Nat)
  /-- `HELD_STORE_RELEASE` (R203): At EOT a memport releases its held stores and emits ORDER. -/
  | heldStoreRelease (c : CellId)
  /-- `MEMPORT_ORDER` (R308): A memport acquires an ORDER token and appends its release. -/
  | memportOrder (c : CellId)
  /-- `PHASE_OPEN` (R308): A memport's phase opens once its earlier release is complete. -/
  | phaseOpen (c : CellId)
  /-- `LAST_PULSE` (R208): A memport sends LAST when its tile has ended. -/
  | lastPulse (c : CellId)
  /-- `SLICE_ACCESS` (R305): A memory slice performs one access, its number paired with a line in which ECC finds an error, if any. -/
  | sliceAccess (k : Nat × Option (Nat × ScrubResult))
  /-- `SLICE_COUNT_RETURN` (R348): A slice returns a write count to its source. -/
  | sliceCountReturn (c : CountPlace) (ph : BitVec 2)
  /-- `ORDER_QUERY` (R349): An acquirer queries a memport for a release. -/
  | orderQuery (a : Acquirer) (k : Nat)
  /-- `ORDER_QUERY_ANSWER` (R349): A memport answers a query once the release is complete. -/
  | orderQueryAnswer (k : Nat)
  /-- `DISPATCH_LOAD_COMPLETE` (R266): Configuration 0 is staged and flipped, or the kernel is refused. -/
  | dispatchLoadComplete (r : Nat)
  /-- `CONFIG_FETCH_COMPLETE` (R274): The engine finishes fetching and checking a block record. -/
  | configFetchComplete (r : Nat) (k : Nat)
  /-- `FREEZE_LINE_ARRIVAL` (R389): The freeze line reaches a cell, which stops and records its skid. -/
  | freezeLineArrival (c : CellId) (skid : BitVec 4)
  /-- `HARP_GRANT` (R342): A harp output grants the waiting packet with least slack. -/
  | harpGrant (d : BitVec 3) (out : BitVec 9) (elapsed : Nat)
  /-- `EGRESS_OFFER` (R346): A unit enters the egress buffer or is dropped with a marker. -/
  | egressOffer (c : CellId) (so : BitVec 5)
  /-- `CUT_COMPLETE` (R378): After every cell has acted and 31 cycles more, the cut completes. -/
  | cutComplete (r : Nat)
  /-- `STAT_ADDER_MERGE` (R97): A block adder merges the COUNT tokens it holds. -/
  | statAdderMerge (r : Nat) (x y : BitVec 4)
  /-- `STAT_ROOT_ADD` (R209): Root memport adds a COUNT token into memory. -/
  | statRootAdd (r : Nat)
  /-- `SCHEDULER_DECISION` (R414): Scheduler serves a pending decision and commits its outcome. -/
  | schedulerDecision (d : BitVec 3)
  /-- `LAUNCH_DESCRIPTOR` (R410): Launch engine checks a launch and queues or refuses it. -/
  | launchDescriptor (d : BitVec 3)
  /-- `CREATE` (R368): Context is created with its import key pair and seal key. -/
  | create (d : BitVec 3)
  /-- `CONTEXT_LOAD` (R366): Context gets its page-table root, signature policy and quotas. -/
  | contextLoad (d : BitVec 3)
  /-- `FORM` (R413): Scheduler forms a partition from a block mask. -/
  | form (d : BitVec 3)
  /-- `ASSIGN` (R413): Scheduler assigns or removes a context in a partition. -/
  | assign (d : BitVec 3)
  /-- `KFENCE_COMPLETE` (R430): A waiting kfence returns once its ticket completes. -/
  | kfenceComplete (m : BitVec 10)
  /-- `CONTEXT_PREEMPT` (R373): Context's regions are cut by mute and saved. -/
  | contextPreempt (d : BitVec 3)
  /-- `CONTEXT_RESUME` (R381): Saved regions are opened, restored and released; `ecc` is a line in which the reading finds an error. -/
  | contextResume (d : BitVec 3) (ecc : Option (Nat × ScrubResult))
  /-- `TERMINATE` (R363): Context is ended, its regions freed and its slots cleared. -/
  | terminate (d : BitVec 3)
  /-- `SETBUDGET` (R372): Context quotas change from the next period boundary. -/
  | setbudget (d : BitVec 3)
  /-- `DISSOLVE` (R413): Scheduler dissolves an empty partition. -/
  | dissolve (d : BitVec 3)
  /-- `POLICY` (R422): Scheduler checks a policy program into the shadow slot. -/
  | policy (d : BitVec 3)
  /-- `INVALIDATION` (R333): Transfer engine drops translations of a range and retunes regions. -/
  | invalidation (d : BitVec 3)
  /-- `TRANSFER_COPY` (R428): Transfer engine copies and re-encrypts a physical range. -/
  | transferCopy (d : BitVec 3)
  /-- `CONN` (R356): Transport opens a connection to a peer. -/
  | conn (d : BitVec 3)
  /-- `CLOSE` (R356): Transport closes a connection. -/
  | close (d : BitVec 3)
  /-- `TRANSPORT_WRITE` (R354): Transport sends a Write message. -/
  | transportWrite (d : BitVec 3)
  /-- `TRANSPORT_READ` (R354): Transport sends a Read message. -/
  | transportRead (d : BitVec 3)
  /-- `TRANSPORT_SEND` (R354): Transport sends an untagged Send into a peer channel. -/
  | transportSend (d : BitVec 3)
  /-- `REG` (R354): Transport registers a memory range under a remote handle. -/
  | reg (d : BitVec 3)
  /-- `DEREG` (R354): Transport removes a registration. -/
  | dereg (d : BitVec 3)
  /-- `RECOVER_RERUN` (R396): Frozen region discards invocations at fault and resumes. -/
  | recoverRerun (d : BitVec 3)
  /-- `RECOVER_RESUME` (R393): Frozen region resumes with nothing discarded. -/
  | recoverResume (d : BitVec 3)
  /-- `RECOVER_DELIVER` (R397): Lead sequencer alone takes RegionFault. -/
  | recoverDeliver (d : BitVec 3)
  /-- `RECOVER_END` (R393): Kernel retires and its region is freed. -/
  | recoverEnd (d : BitVec 3)
  /-- `LINK_ENABLE` (R352): A link starts training. -/
  | linkEnable (d : BitVec 3)
  /-- `LINK_DISABLE` (R352): A link goes DOWN. -/
  | linkDisable (d : BitVec 3)
  /-- `WATCH` (R401): Management sets a region's watchdog threshold. -/
  | watch (d : BitVec 3)
  /-- `REMOTE` (R402): Management sets a region's remote-request limit. -/
  | remote (d : BitVec 3)
  /-- `QUOTA` (R437): Management sets the scrubbing, refresh or telemetry quota. -/
  | quota (d : BitVec 3)
  /-- `LATEEN` (R343): Management sets a region's late-event enable. -/
  | lateen (d : BitVec 3)
  /-- `MGMT_RESET` (R406): Management requests a full warm reset. -/
  | mgmtReset (d : BitVec 3)
  /-- `PEERTAB` (R355): Management sets the die's peer address table. -/
  | peertab (d : BitVec 3)
  /-- `HOSTRING_OPEN` (R441): Management opens a host command ring. -/
  | hostringOpen (d : BitVec 3)
  /-- `HOSTRING_CLOSE` (R441): Management closes a host command ring. -/
  | hostringClose (d : BitVec 3)
  /-- `HOST_RING_TAIL_WRITE` (R441): Host writes a ring's TAIL to append entries. -/
  | hostRingTailWrite (e : BitVec 3) (d : BitVec 3) (tail : Word32)
  /-- `HOST_RING_ENTRY_TAKE` (R441): Device takes a ring entry once its engine queue has room. -/
  | hostRingEntryTake (e : BitVec 3) (d : BitVec 3)
  /-- `HOST_BAR_WRITE` (R441): Host writes a BAR location with no behaviour of its own. -/
  | hostBarWrite (bar2 : Bool) (off : BitVec 24) (v : Word32)
  /-- `FUNCTION_READY` (R443): A function sets its ready-map bit. -/
  | functionReady (d : BitVec 3) (bit : BitVec 8)
  /-- `PAGE_WALK` (R327): A walker completes a page-table walk. -/
  | pageWalk (d : BitVec 3) (ctx : BitVec 9) (va : Word64)
  /-- `RETUNE_COMPLETE` (R334): A region's retune completes. -/
  | retuneComplete (r : Nat)
  /-- `BRIDGE_FRAME_RECEIVE` (R351): A bridge frame is checked and resent on CRC failure. -/
  | bridgeFrameReceive (d : BitVec 3) (edge : BitVec 2) (crcOk : Bool)
  /-- `BRIDGE_RETRY_EXHAUSTION` (R351): Eight failed retries put the bridge in FAULT. -/
  | bridgeRetryExhaustion (d : BitVec 3) (edge : BitVec 2)
  /-- `LINK_TRAINED` (R352): A training link goes UP. -/
  | linkTrained (d : BitVec 3) (l : LinkName)
  /-- `LINK_TRAINING_TIMEOUT` (R352): Training fails after 10 ms. -/
  | linkTrainingTimeout (d : BitVec 3) (l : LinkName)
  /-- `LINK_FAULT` (R352): An UP link loses alignment or exceeds its FEC threshold. -/
  | linkFault (d : BitVec 3) (l : LinkName)
  /-- `ETHERNET_FRAME_RECEIVE` (R353): An Ethernet frame arrives; unsupported features are dropped. -/
  | ethernetFrameReceive (d : BitVec 3) (port : Bool) (f : EthFrame)
  /-- `TRANSPORT_WRITE_PACKET` (R357): An arriving WRITE packet is placed. -/
  | transportWritePacket (d : BitVec 3) (p : WritePacket)
  /-- `TRANSPORT_SEND_PACKET` (R357): An arriving SEND packet is offered to a channel. -/
  | transportSendPacket (d : BitVec 3) (p : SendPacket)
  /-- `CONNECTION_ANSWER` (R356): The peer answers and the connection is ESTABLISHED. -/
  | connectionAnswer (d : BitVec 3) (conn : BitVec 12)
  /-- `RETRANSMISSION_TIMEOUT` (R356): A packet is sent again; after 16 failures the connection errs. -/
  | retransmissionTimeout (d : BitVec 3) (conn : BitVec 12) (pkt : Nat)
  /-- `MESSAGE_COMPLETION` (R359): A message completes with barrier arrival and completion record. -/
  | messageCompletion (d : BitVec 3) (k : Nat) (m : MessageEnd)
  /-- `STATUS_BLOCK_UPDATE` (R360): Engine rewrites a connection's status block. -/
  | statusBlockUpdate (d : BitVec 3) (conn : BitVec 12) (m : LinkMeasure)
  /-- `SUBMIT_RING_NOTIFY` (R358): A write to a submit ring's TAIL makes the engine read slots. -/
  | submitRingNotify (d : BitVec 3) (conn : BitVec 12)
  /-- `WATCHDOG_EXPIRY` (R401): The watchdog reaches its threshold and raises fault 0x1A. -/
  | watchdogExpiry (r : Nat)
  /-- `REMOTE_TIMEOUT` (R402): A remote request ages out and raises fault 0x1B. -/
  | remoteTimeout (a : Acquirer)
  /-- `PATROL_SCRUB` (R403): Patrol scrubbing reads and corrects a line. -/
  | patrolScrub (line : Nat) (found : ScrubResult)
  /-- `CELL_STORE_ECC_ERROR` (R404): A SECDED error in a cell store or sequencer cache is handled. -/
  | cellStoreEccError (at_ : EccSite) (double : Bool)
  /-- `ROW_MANAGER_CACHE_ERROR` (R405): A row-manager cache error is corrected or escalated. -/
  | rowManagerCacheError (m : BitVec 10) (e : RmCacheError)
  /-- `POLICY_STEP_OVERRUN` (R419): A 257th policy word abandons the program for the fallback. -/
  | policyStepOverrun (d : BitVec 3)
  /-- `BUDGET_PERIOD` (R372): Budget arbiter refills flit and firing counts. -/
  | budgetPeriod (d : BitVec 3)
  /-- `SCHEDULER_PERIOD` (R414): Period boundary makes a pre-empt decision pending. -/
  | schedulerPeriod (d : BitVec 3)
  /-- `ISLAND_WAKE` (R444): An island returns to ON after 4,096 cycles. -/
  | islandWake (i : BitVec 10)
  /-- `FREQUENCY_STEP` (R445): Power or temperature over limit lowers fabric frequency. -/
  | frequencyStep (i : BitVec 10) (thermal : Bool)
  /-- `THERMAL_STOP` (R445): An island above 105 C stops and its regions freeze. -/
  | thermalStop (i : BitVec 10)
  /-- `SIGV_VERDICT` (R371): The security controller returns its verdict and a waiting sigv writes gD. -/
  | sigvVerdict (q : BitVec 7)
  /-- `KEYH_REPLY` (R370): The security controller answers a keyh request and the waiting instruction writes gD. -/
  | keyhReply (q : BitVec 7)
  /-- `ISLAND_LEAVES_ON` (R444): A fabric island none of whose blocks is in a region leaves ON for RET or OFF. -/
  | islandLeavesOn (i : BitVec 10) (off : Bool)
  /-- `ATTEST` (R439): Security controller writes a signed attestation report. -/
  | attest
  /-- `IMPORT` (R438): Security controller unwraps a key blob into a slot. -/
  | importKey
  /-- `DROP` (R438): Security controller clears a key slot. -/
  | drop
  /-- `POWER_ON` (R406): Module powers on into its reset state. -/
  | powerOn
  /-- `WARM_RESET` (R406): Module resets everything but fuse maps and black-box records. -/
  | warmReset
  /-- `HOST_HOT_RESET` (R407): Host hot reset resets the PCIe function or the whole module. -/
  | hostHotReset
  /-- `INSTRUCTION_FETCH_FAULT` (R140): A sequencer fetch from a page that is not mapped executable, or that holds a poisoned line, faults with TEPC at the target. -/
  | instructionFetchFault
  /-- `POWER_OFF` (R408): The module loses power, and the black-box records and every other state are lost. -/
  | powerOff
  /-- `HOST_LINK_UP` (R407): The PCIe link comes UP again after a self-hosted hot reset, and accesses to HOST pages stop faulting. -/
  | hostLinkUp
  /-- `RESIDENT_OS_START` (R440): The resident OS starts, the module becomes self-hosted, and host commands reach only the rings opened with HOSTRING. -/
  | residentOsStart
  deriving DecidableEq, Repr

end Sys2Proof
end

