-- ==== Sys2Proof/WellFormed.lean ====
section
/-!
DEFINITION. Which instructions are well formed: what an encoding's fields may hold together (R106, R108, R109 item 4), what
a cell accepts of a word by the word alone (R57, R113, the mask classes of the operator chapters), and what the policy check
accepts of one word (R118).
-/

namespace Sys2Proof

/-- The well-formedness of one instruction. The rows that are not listed admit every value of their fields. -/
def Instr.wf : Instr → Bool
  | .ld _ _ _ o c _ _ => (o == 0 || o == 1) && c ≤ 5
  | .st _ _ _ o c _ _ => (o == 0 || o == 2) && c ≤ 5
  | .ldm d _ _ o c n => (o == 0 || o == 1) && c ≤ 5 && d.toNat + n.toNat ≤ 31
  | .stm d _ _ o c n => (o == 0 || o == 2) && c ≤ 5 && d.toNat + n.toNat ≤ 31
  | .amoswap _ _ _ _ c w => (w == 2 || w == 3) && c ≤ 5
  | .amoadd _ _ _ _ c w => (w == 2 || w == 3) && c ≤ 5
  | .amoand _ _ _ _ c w => (w == 2 || w == 3) && c ≤ 5
  | .amoor _ _ _ _ c w => (w == 2 || w == 3) && c ≤ 5
  | .amoxor _ _ _ _ c w => (w == 2 || w == 3) && c ≤ 5
  | .amomin _ _ _ _ c w => (w == 2 || w == 3) && c ≤ 5
  | .amomax _ _ _ _ c w => (w == 2 || w == 3) && c ≤ 5
  | .amominu _ _ _ _ c w => (w == 2 || w == 3) && c ≤ 5
  | .amomaxu _ _ _ _ c w => (w == 2 || w == 3) && c ≤ 5
  | .cas d _ _ _ c w => (w == 2 || w == 3) && c ≤ 5 && d != 31
  | .sysr _ r _ => r ≤ 10
  | .sysw _ r _ => r ≤ 10
  | .get d _ _ c => d.toNat + c.toNat ≤ 31
  | .accr d _ _ c => d.toNat + c.toNat ≤ 31
  | .recv d _ _ n => d.toNat + n.toNat ≤ 31
  | .put a _ _ c => a.toNat + c.toNat ≤ 31
  | .send a _ _ n => a.toNat + n.toNat ≤ 31
  | .fence _ c => c ≤ 5
  | .bara _ _ c => c ≤ 5
  | .barw _ _ c => c ≤ 5
  | .bart _ _ _ c => c ≤ 5
  | .bari a _ c => c ≤ 5 && a != 31
  | .arithAdd a b _ r _ _ => (a != b || a == 63) && r ≤ 4
  | .arithSub a b _ r _ _ => (a != b || a == 63) && r ≤ 4
  | .arithMul a b _ r _ _ => (a != b || a == 63) && r ≤ 4
  | .arithFma a b _ r _ _ => (a != b || a == 63) && r ≤ 4
  | .arithMin a b _ _ => (a != b || a == 63)
  | .arithMax a b _ _ => (a != b || a == 63)
  | .arithAbs a b _ _ => (a != b || a == 63)
  | .arithNeg a b _ _ => (a != b || a == 63)
  | .arithAnd a b _ _ => (a != b || a == 63)
  | .arithOr a b _ _ => (a != b || a == 63)
  | .arithXor a b _ _ => (a != b || a == 63)
  | .arithShl a b _ _ => (a != b || a == 63)
  | .arithShrLogical a b _ _ => (a != b || a == 63)
  | .arithShrArithmetic a b _ _ => (a != b || a == 63)
  | .arithCmpEq a b _ _ => (a != b || a == 63)
  | .arithCmpNe a b _ _ => (a != b || a == 63)
  | .arithCmpLt a b _ _ => (a != b || a == 63)
  | .arithCmpGe a b _ _ => (a != b || a == 63)
  | .arithCmpLtu a b _ _ => (a != b || a == 63)
  | .arithCmpGeu a b _ _ => (a != b || a == 63)
  | .arithSel a b m _ => (a != b || a == 63) && (m == 0 || m == 2)
  | .arithSat a b _ _ => (a != b || a == 63)
  | .copy a b m _ => (a != b || a == 63) && (m == 0 || m == 2)
  | .gate a b m _ => (a != b || a == 63) && m == 0
  | .jcmp a b m _ => (a != b || a == 63) && m == 0
  | .isect a b m _ => (a != b || a == 63) && m == 0
  | .unionKeys a b m _ => (a != b || a == 63) && m == 0
  | .diff a b m _ => (a != b || a == 63) && m == 0
  | .jwin a b m _ => (a != b || a == 63) && m == 0
  | .stp a b m _ => (a != b || a == 63) && (m == 0 || m == 2)
  | .stk a b _ _ => (a != b || a == 63)
  | .sth a b _ _ => (a != b || a == 63)
  | .stt a b _ _ => (a != b || a == 63)
  | .rord a b m _ => (a != b || a == 63) && m == 0
  | .rrel a b m _ => (a != b || a == 63) && m == 0
  | .ains a b m _ => (a != b || a == 63) && m == 0
  | .amax a b m _ => (a != b || a == 63) && m == 0
  | .amin a b m _ => (a != b || a == 63) && m == 0
  | .alook a b m _ => (a != b || a == 63) && m == 0
  | .adrain a b m _ => (a != b || a == 63) && m == 2
  | .aspill a b m _ => (a != b || a == 63) && m == 2
  | .aclr a b m _ => (a != b || a == 63) && m == 2
  | .mrd a b m _ => (a != b || a == 63) && (m == 0 || m == 2)
  | .mwr a b _ _ => (a != b || a == 63)
  | .mamo a b m _ => (a != b || a == 63) && (m == 0 || m == 2)
  | .msct a b m _ => (a != b || a == 63) && (m == 0 || m == 2)
  | .mgat a b m _ => (a != b || a == 63) && (m == 0 || m == 2)
  | .agen a b m _ => (a != b || a == 63) && (m == 0 || m == 2)
  | .agbase a b m _ => (a != b || a == 63) && m == 0
  | .agre a b m _ => (a != b || a == 63) && m == 2
  | .win a b m _ => (a != b || a == 63) && m == 0
  | .wflush a b m _ => (a != b || a == 63) && m == 0
  | .mma a b _ _ => (a != b || a == 63)
  | .mmas a b _ _ => (a != b || a == 63)
  | .mdrn a b m _ => (a != b || a == 63) && m == 2
  | .mzero a b m _ => (a != b || a == 63) && m == 2
  | .oadd a b m _ => (a != b || a == 63) && m == 0
  | .omul a b m _ => (a != b || a == 63) && m == 0
  | .omac a b m _ => (a != b || a == 63) && m == 0
  | .ocut a b m _ => (a != b || a == 63) && m == 0
  | .oconv a b m r _ _ => (a != b || a == 63) && m == 0 && r ≤ 4
  | .cvt a b m r _ _ => (a != b || a == 63) && (m == 0 || m == 2) && r ≤ 4
  | .rsc a b m r _ _ => (a != b || a == 63) && (m == 0 || m == 2) && r ≤ 4
  | .pack a b m r _ _ => (a != b || a == 63) && (m == 0 || m == 2) && r ≤ 4
  | .unpack a b m _ => (a != b || a == 63) && (m == 0 || m == 2)
  | .stat a b m _ => (a != b || a == 63) && (m == 0 || m == 2)
  | .polFld _ f => f ≤ 15
  | .polSld _ f => f ≤ 10
  | .polSkip d => d != 0
  | .polJump d => d != 0
  | .polNext d => d != 0
  | _ => true

end Sys2Proof
end

