-- ==== Sys2Proof/Decode.lean ====
section
/-!
DEFINITION. The decoders of the five encoded sets (R101 to R120) and the encoder. Each decoder is total; a word that is
no instruction is rejected with the cause the spec gives it.
-/

namespace Sys2Proof

/-- Why a word is no sequencer instruction (R109), in the order in which the causes are tried. -/
inductive DecodeCause where
  | illegalInstruction
  | unassignedEncoding
  | reservedField
  | reservedEncoding
  deriving DecidableEq, Repr

/-- Field [lo + n − 1 : lo] of a word read as a number (R6). -/
def fld (w lo n : Nat) : Nat := w / 2 ^ lo % 2 ^ n

/-- The same field as a bit vector. -/
def fbv (w lo n : Nat) : BitVec n := BitVec.ofNat n (w / 2 ^ lo)

/-- Items 3 and 4 of R109: a non-zero reserved field, then a reserved encoding. -/
def gate (reserved : Bool) (i : Instr) : Except DecodeCause Instr :=
  if reserved then .error .reservedField
  else if i.wf then .ok i
  else .error .reservedEncoding

/-- Major 0x01, by func (R104). -/
def decodeAlu (w : Nat) : Except DecodeCause Instr :=
  match fld w 0 7 with
  | 0x00 => gate (false) (.add (fbv w 21 5) (fbv w 16 5) (fbv w 11 5) (fbv w 8 3) (fbv w 7 1))
  | 0x01 => gate (false) (.sub (fbv w 21 5) (fbv w 16 5) (fbv w 11 5) (fbv w 8 3) (fbv w 7 1))
  | 0x02 => gate (false) (.and (fbv w 21 5) (fbv w 16 5) (fbv w 11 5) (fbv w 8 3) (fbv w 7 1))
  | 0x03 => gate (false) (.or (fbv w 21 5) (fbv w 16 5) (fbv w 11 5) (fbv w 8 3) (fbv w 7 1))
  | 0x04 => gate (false) (.xor (fbv w 21 5) (fbv w 16 5) (fbv w 11 5) (fbv w 8 3) (fbv w 7 1))
  | 0x05 => gate (false) (.shl (fbv w 21 5) (fbv w 16 5) (fbv w 11 5) (fbv w 8 3) (fbv w 7 1))
  | 0x06 => gate (false) (.shr (fbv w 21 5) (fbv w 16 5) (fbv w 11 5) (fbv w 8 3) (fbv w 7 1))
  | 0x07 => gate (false) (.sar (fbv w 21 5) (fbv w 16 5) (fbv w 11 5) (fbv w 8 3) (fbv w 7 1))
  | 0x08 => gate (false) (.mul (fbv w 21 5) (fbv w 16 5) (fbv w 11 5) (fbv w 8 3) (fbv w 7 1))
  | 0x09 => gate (false) (.mulh (fbv w 21 5) (fbv w 16 5) (fbv w 11 5) (fbv w 8 3) (fbv w 7 1))
  | 0x0A => gate (false) (.div (fbv w 21 5) (fbv w 16 5) (fbv w 11 5) (fbv w 8 3) (fbv w 7 1))
  | 0x0B => gate (false) (.rem (fbv w 21 5) (fbv w 16 5) (fbv w 11 5) (fbv w 8 3) (fbv w 7 1))
  | 0x0C => gate (false) (.min (fbv w 21 5) (fbv w 16 5) (fbv w 11 5) (fbv w 8 3) (fbv w 7 1))
  | 0x0D => gate (false) (.max (fbv w 21 5) (fbv w 16 5) (fbv w 11 5) (fbv w 8 3) (fbv w 7 1))
  | 0x0E => gate (fld w 11 5 != 0) (.clz (fbv w 21 5) (fbv w 16 5) (fbv w 8 3) (fbv w 7 1))
  | 0x0F => gate (fld w 11 5 != 0) (.popc (fbv w 21 5) (fbv w 16 5) (fbv w 8 3) (fbv w 7 1))
  | 0x10 | 0x11 | 0x12 | 0x13 => gate (false) (.adds (fbv w 21 5) (fbv w 16 5) (fbv w 11 5) (fbv w 8 3) (fbv w 7 1) (fbv w 0 2))
  | 0x14 => gate (false) (.bfx (fbv w 21 5) (fbv w 16 5) (fbv w 11 5) (fbv w 8 3) (fbv w 7 1))
  | 0x15 => gate (false) (.bfi (fbv w 21 5) (fbv w 16 5) (fbv w 11 5) (fbv w 8 3) (fbv w 7 1))
  | 0x16 => gate (false) (.mad (fbv w 21 5) (fbv w 16 5) (fbv w 11 5) (fbv w 8 3) (fbv w 7 1))
  | 0x18 | 0x19 | 0x1A | 0x1B => gate (false) (.crc (fbv w 21 5) (fbv w 16 5) (fbv w 11 5) (fbv w 8 3) (fbv w 7 1) (fbv w 0 2))
  | 0x20 => gate (fld w 24 2 != 0) (.cmpeq (fbv w 21 3) (fbv w 16 5) (fbv w 11 5) (fbv w 8 3) (fbv w 7 1))
  | 0x21 => gate (fld w 24 2 != 0) (.cmpne (fbv w 21 3) (fbv w 16 5) (fbv w 11 5) (fbv w 8 3) (fbv w 7 1))
  | 0x22 => gate (fld w 24 2 != 0) (.cmplt (fbv w 21 3) (fbv w 16 5) (fbv w 11 5) (fbv w 8 3) (fbv w 7 1))
  | 0x23 => gate (fld w 24 2 != 0) (.cmpge (fbv w 21 3) (fbv w 16 5) (fbv w 11 5) (fbv w 8 3) (fbv w 7 1))
  | 0x24 => gate (fld w 24 2 != 0) (.cmpltu (fbv w 21 3) (fbv w 16 5) (fbv w 11 5) (fbv w 8 3) (fbv w 7 1))
  | 0x25 => gate (fld w 24 2 != 0) (.cmpgeu (fbv w 21 3) (fbv w 16 5) (fbv w 11 5) (fbv w 8 3) (fbv w 7 1))
  | 0x30 | 0x31 | 0x32 | 0x33 | 0x34 | 0x35 | 0x36 | 0x37 => gate (false) (.sel (fbv w 21 5) (fbv w 16 5) (fbv w 11 5) (fbv w 8 3) (fbv w 7 1) (fbv w 0 3))
  | _ => .error .unassignedEncoding

/-- Major 0x03, by func (R105). -/
def decodeJump (w : Nat) : Except DecodeCause Instr :=
  match fld w 0 7 with
  | 0x00 => gate (fld w 11 5 != 0 || fld w 21 5 != 0) (.jr (fbv w 16 5) (fbv w 8 3) (fbv w 7 1))
  | 0x01 => gate (fld w 11 15 != 0) (.ret (fbv w 8 3) (fbv w 7 1))
  | 0x02 => gate (fld w 11 5 != 0) (.pgprobe (fbv w 21 5) (fbv w 16 5) (fbv w 8 3) (fbv w 7 1))
  | 0x03 => gate (false) (.sigv (fbv w 21 5) (fbv w 16 5) (fbv w 11 5) (fbv w 8 3) (fbv w 7 1))
  | 0x04 => gate (fld w 11 5 != 0) (.keyh (fbv w 21 5) (fbv w 16 5) (fbv w 8 3) (fbv w 7 1))
  | _ => .error .unassignedEncoding

/-- Major 0x1C, by sub-operation (R107). -/
def decodeAmo (w : Nat) : Except DecodeCause Instr :=
  match fld w 0 6 with
  | 0x00 => gate (false) (.amoswap (fbv w 21 5) (fbv w 16 5) (fbv w 13 3) (fbv w 11 2) (fbv w 8 3) (fbv w 6 2))
  | 0x01 => gate (false) (.amoadd (fbv w 21 5) (fbv w 16 5) (fbv w 13 3) (fbv w 11 2) (fbv w 8 3) (fbv w 6 2))
  | 0x02 => gate (false) (.amoand (fbv w 21 5) (fbv w 16 5) (fbv w 13 3) (fbv w 11 2) (fbv w 8 3) (fbv w 6 2))
  | 0x03 => gate (false) (.amoor (fbv w 21 5) (fbv w 16 5) (fbv w 13 3) (fbv w 11 2) (fbv w 8 3) (fbv w 6 2))
  | 0x04 => gate (false) (.amoxor (fbv w 21 5) (fbv w 16 5) (fbv w 13 3) (fbv w 11 2) (fbv w 8 3) (fbv w 6 2))
  | 0x05 => gate (false) (.amomin (fbv w 21 5) (fbv w 16 5) (fbv w 13 3) (fbv w 11 2) (fbv w 8 3) (fbv w 6 2))
  | 0x06 => gate (false) (.amomax (fbv w 21 5) (fbv w 16 5) (fbv w 13 3) (fbv w 11 2) (fbv w 8 3) (fbv w 6 2))
  | 0x07 => gate (false) (.amominu (fbv w 21 5) (fbv w 16 5) (fbv w 13 3) (fbv w 11 2) (fbv w 8 3) (fbv w 6 2))
  | 0x08 => gate (false) (.amomaxu (fbv w 21 5) (fbv w 16 5) (fbv w 13 3) (fbv w 11 2) (fbv w 8 3) (fbv w 6 2))
  | _ => .error .unassignedEncoding

/-- Func 0x14, by command (R157). -/
def decodeScmd (w : Nat) : Except DecodeCause Instr :=
  match fld w 8 4 with
  | 0x0 => gate (fld w 19 2 != 0) (.scmdStop (fbv w 21 5) (fbv w 15 4) (fbv w 12 3))
  | 0x1 => gate (fld w 19 2 != 0) (.scmdAddI32 (fbv w 21 5) (fbv w 15 4) (fbv w 12 3))
  | 0x2 => gate (fld w 19 2 != 0) (.scmdAddI64 (fbv w 21 5) (fbv w 15 4) (fbv w 12 3))
  | 0x3 => gate (fld w 19 2 != 0) (.scmdAddF32 (fbv w 21 5) (fbv w 15 4) (fbv w 12 3))
  | 0x4 => gate (fld w 19 2 != 0) (.scmdWaddI32 (fbv w 21 5) (fbv w 15 4) (fbv w 12 3))
  | 0x5 => gate (fld w 19 2 != 0) (.scmdWaddF32 (fbv w 21 5) (fbv w 15 4) (fbv w 12 3))
  | 0x6 => gate (fld w 19 2 != 0) (.scmdMaxI32 (fbv w 21 5) (fbv w 15 4) (fbv w 12 3))
  | 0x7 => gate (fld w 19 2 != 0) (.scmdMinI32 (fbv w 21 5) (fbv w 15 4) (fbv w 12 3))
  | 0x8 => gate (fld w 19 2 != 0) (.scmdMaxF32 (fbv w 21 5) (fbv w 15 4) (fbv w 12 3))
  | 0x9 => gate (fld w 19 2 != 0) (.scmdMinF32 (fbv w 21 5) (fbv w 15 4) (fbv w 12 3))
  | 0xA => gate (fld w 19 2 != 0) (.scmdCount (fbv w 21 5) (fbv w 15 4) (fbv w 12 3))
  | 0xB => gate (fld w 19 2 != 0) (.scmdKeyAdd (fbv w 21 5) (fbv w 15 4) (fbv w 12 3))
  | 0xC => gate (fld w 19 2 != 0) (.scmdKeyWadd (fbv w 21 5) (fbv w 15 4) (fbv w 12 3))
  | 0xD => gate (fld w 19 2 != 0) (.scmdOr (fbv w 21 5) (fbv w 15 4) (fbv w 12 3))
  | 0xE => gate (fld w 19 2 != 0) (.scmdXor (fbv w 21 5) (fbv w 15 4) (fbv w 12 3))
  | 0xF => gate (fld w 19 2 != 0) (.scmdCopy (fbv w 21 5) (fbv w 15 4) (fbv w 12 3))
  | _ => .error .unassignedEncoding

/-- A form that takes a port either way (R108): [11:8] is 0 for an inlet and 1 for an outlet, and the other codes are
reserved encodings. -/
def eitherWay (w : Nat) (reserved : Bool) (inlet outlet : Instr) : Except DecodeCause Instr :=
  if reserved then .error .reservedField
  else if fld w 8 4 = 0 then .ok inlet
  else if fld w 8 4 = 1 then .ok outlet
  else .error .reservedEncoding

/-- Major 0x2E, by func (R108). -/
def decodePort (w : Nat) : Except DecodeCause Instr :=
  match fld w 0 8 with
  | 0x00 => gate (fld w 8 4 != 0 || fld w 15 11 != 0) (.nop (fbv w 12 3))
  | 0x01 => gate (fld w 8 4 != 0 || fld w 15 11 != 0) (.halt (fbv w 12 3))
  | 0x02 => gate (fld w 8 4 != 0 || fld w 15 11 != 0) (.yield (fbv w 12 3))
  | 0x03 => gate (fld w 8 4 != 0 || fld w 21 5 != 0) (.trap (fbv w 15 6) (fbv w 12 3))
  | 0x04 => gate (fld w 8 4 != 0 || fld w 15 11 != 0) (.rte (fbv w 12 3))
  | 0x05 => if 10 < fld w 15 6 then .error .unassignedEncoding
      else gate (fld w 8 4 != 0) (.sysr (fbv w 21 5) (fbv w 15 6) (fbv w 12 3))
  | 0x06 => if 10 < fld w 15 6 then .error .unassignedEncoding
      else gate (fld w 8 4 != 0) (.sysw (fbv w 21 5) (fbv w 15 6) (fbv w 12 3))
  | 0x10 => gate (false) (.get (fbv w 21 5) (fbv w 15 6) (fbv w 12 3) (fbv w 8 4))
  | 0x11 => eitherWay w (false) (.peekInlet (fbv w 21 5) (fbv w 15 6) (fbv w 12 3)) (.peekOutlet (fbv w 21 5) (fbv w 15 6) (fbv w 12 3))
  | 0x12 => gate (fld w 8 4 != 0 || fld w 19 7 != 0) (.accz (fbv w 15 4) (fbv w 12 3))
  | 0x13 => gate (fld w 19 2 != 0) (.accr (fbv w 21 5) (fbv w 15 4) (fbv w 12 3) (fbv w 8 4))
  | 0x14 => decodeScmd w
  | 0x15 => gate (fld w 8 4 != 0) (.arm (fbv w 21 5) (fbv w 15 6) (fbv w 12 3))
  | 0x16 => gate (fld w 8 4 != 0 || fld w 15 6 != 0) (.launch (fbv w 21 5) (fbv w 12 3))
  | 0x17 => gate (false) (.recv (fbv w 21 5) (fbv w 15 6) (fbv w 12 3) (fbv w 8 4))
  | 0x18 => gate (false) (.put (fbv w 21 5) (fbv w 15 6) (fbv w 12 3) (fbv w 8 4))
  | 0x19 => gate (false) (.send (fbv w 21 5) (fbv w 15 6) (fbv w 12 3) (fbv w 8 4))
  | 0x20 => gate (fld w 8 4 != 0) (.qbind (fbv w 21 5) (fbv w 15 6) (fbv w 12 3))
  | 0x21 => eitherWay w (false) (.qstatInlet (fbv w 21 5) (fbv w 15 6) (fbv w 12 3)) (.qstatOutlet (fbv w 21 5) (fbv w 15 6) (fbv w 12 3))
  | 0x22 => eitherWay w (false) (.qgapInlet (fbv w 21 5) (fbv w 15 6) (fbv w 12 3)) (.qgapOutlet (fbv w 21 5) (fbv w 15 6) (fbv w 12 3))
  | 0x23 => eitherWay w (fld w 21 5 != 0) (.qdrainInlet (fbv w 15 6) (fbv w 12 3)) (.qdrainOutlet (fbv w 15 6) (fbv w 12 3))
  | 0x28 => gate (fld w 8 4 != 0 || fld w 15 6 != 0) (.cfgld (fbv w 21 5) (fbv w 12 3))
  | 0x29 => gate (fld w 8 4 != 0 || fld w 15 6 != 0) (.cfgchk (fbv w 21 5) (fbv w 12 3))
  | 0x2A => gate (fld w 8 4 != 0 || fld w 15 11 != 0) (.cfgflip (fbv w 12 3))
  | 0x2B => gate (fld w 8 4 != 0 || fld w 15 11 != 0) (.cfgabort (fbv w 12 3))
  | 0x30 => gate (fld w 8 4 != 0 || fld w 21 5 != 0) (.grun (fbv w 15 6) (fbv w 12 3))
  | 0x31 => gate (fld w 8 4 != 0 || fld w 21 5 != 0) (.gwait (fbv w 15 6) (fbv w 12 3))
  | 0x32 => gate (fld w 8 4 != 0) (.gstat (fbv w 21 5) (fbv w 15 6) (fbv w 12 3))
  | 0x38 => gate (fld w 11 1 != 0 || fld w 15 11 != 0) (.fence (fbv w 12 3) (fbv w 8 3))
  | 0x39 => gate (fld w 11 1 != 0 || fld w 15 6 != 0) (.bari (fbv w 21 5) (fbv w 12 3) (fbv w 8 3))
  | 0x3A => gate (fld w 11 1 != 0 || fld w 15 6 != 0) (.bara (fbv w 21 5) (fbv w 12 3) (fbv w 8 3))
  | 0x3B => gate (fld w 11 1 != 0 || fld w 15 6 != 0) (.barw (fbv w 21 5) (fbv w 12 3) (fbv w 8 3))
  | 0x3C => gate (fld w 11 1 != 0 || fld w 18 3 != 0) (.bart (fbv w 21 5) (fbv w 15 3) (fbv w 12 3) (fbv w 8 3))
  | 0x40 => gate (fld w 8 4 != 0 || fld w 15 6 != 0) (.statf (fbv w 21 5) (fbv w 12 3))
  | 0x41 => gate (fld w 8 4 != 0 || fld w 15 6 != 0) (.retune (fbv w 21 5) (fbv w 12 3))
  | _ => .error .unassignedEncoding

/-- The sequencer decoder (R101 to R110): the instruction of a 32-bit word, or the first cause of R109 that applies
(DESIGN CHOICE, log entry 35). -/
def decodeSeq (w : Nat) : Except DecodeCause Instr :=
  match fld w 26 6 with
  | 0x00 => .error .illegalInstruction
  | 0x01 => decodeAlu w
  | 0x03 => decodeJump w
  | 0x04 => gate (false) (.lih (fbv w 21 5) (fbv w 0 21))
  | 0x08 => gate (false) (.addi (fbv w 21 5) (fbv w 16 5) (fbv w 13 3) (fbv w 0 13))
  | 0x09 => gate (false) (.andi (fbv w 21 5) (fbv w 16 5) (fbv w 13 3) (fbv w 0 13))
  | 0x0A => gate (false) (.ori (fbv w 21 5) (fbv w 16 5) (fbv w 13 3) (fbv w 0 13))
  | 0x0B => gate (false) (.xori (fbv w 21 5) (fbv w 16 5) (fbv w 13 3) (fbv w 0 13))
  | 0x0C => gate (fld w 6 7 != 0) (.shli (fbv w 21 5) (fbv w 16 5) (fbv w 13 3) (fbv w 0 6))
  | 0x0D => gate (fld w 6 7 != 0) (.shri (fbv w 21 5) (fbv w 16 5) (fbv w 13 3) (fbv w 0 6))
  | 0x0E => gate (fld w 6 7 != 0) (.sari (fbv w 21 5) (fbv w 16 5) (fbv w 13 3) (fbv w 0 6))
  | 0x0F => gate (fld w 16 5 != 0) (.loop (fbv w 21 5) (fbv w 13 3) (fbv w 0 13))
  | 0x10 => gate (false) (.br (fbv w 23 3) (fbv w 22 1) (fbv w 0 22))
  | 0x11 => gate (false) (.brp (fbv w 23 3) (fbv w 22 1) (fbv w 0 22))
  | 0x12 => gate (false) (.call (fbv w 23 3) (fbv w 22 1) (fbv w 0 22))
  | 0x18 => gate (false) (.ld (fbv w 21 5) (fbv w 16 5) (fbv w 13 3) (fbv w 11 2) (fbv w 8 3) (fbv w 6 2) (fbv w 0 6))
  | 0x19 => gate (false) (.st (fbv w 21 5) (fbv w 16 5) (fbv w 13 3) (fbv w 11 2) (fbv w 8 3) (fbv w 6 2) (fbv w 0 6))
  | 0x1A => if fld w 0 2 != 0 then .error .reservedField
      else if fld w 6 2 != 3 then .error .reservedEncoding
      else gate false (.ldm (fbv w 21 5) (fbv w 16 5) (fbv w 13 3) (fbv w 11 2) (fbv w 8 3) (fbv w 2 4))
  | 0x1B => if fld w 0 2 != 0 then .error .reservedField
      else if fld w 6 2 != 3 then .error .reservedEncoding
      else gate false (.stm (fbv w 21 5) (fbv w 16 5) (fbv w 13 3) (fbv w 11 2) (fbv w 8 3) (fbv w 2 4))
  | 0x1C => decodeAmo w
  | 0x1D => gate (fld w 0 6 != 0) (.cas (fbv w 21 5) (fbv w 16 5) (fbv w 13 3) (fbv w 11 2) (fbv w 8 3) (fbv w 6 2))
  | 0x2E => decodePort w
  | 0x3F => .error .illegalInstruction
  | _ => .error .unassignedEncoding

/-- Why a cell operation word names no function (R113). -/
inductive NodeReject where
  | kindReserved
  | funcUnassigned
  deriving DecidableEq, Repr

/-- The functions of KIND 0x0 (R112). -/
def decodeArith (w : Nat) : Option Instr :=
  match fld w 22 6 with
  | 0x00 => some (.arithAdd (fbv w 16 6) (fbv w 10 6) (fbv w 8 2) (fbv w 5 3) (fbv w 4 1) (fbv w 0 4))
  | 0x01 => some (.arithSub (fbv w 16 6) (fbv w 10 6) (fbv w 8 2) (fbv w 5 3) (fbv w 4 1) (fbv w 0 4))
  | 0x02 => some (.arithMul (fbv w 16 6) (fbv w 10 6) (fbv w 8 2) (fbv w 5 3) (fbv w 4 1) (fbv w 0 4))
  | 0x03 => some (.arithFma (fbv w 16 6) (fbv w 10 6) (fbv w 8 2) (fbv w 5 3) (fbv w 4 1) (fbv w 0 4))
  | 0x04 => some (.arithMin (fbv w 16 6) (fbv w 10 6) (fbv w 8 2) (fbv w 0 8))
  | 0x05 => some (.arithMax (fbv w 16 6) (fbv w 10 6) (fbv w 8 2) (fbv w 0 8))
  | 0x06 => some (.arithAbs (fbv w 16 6) (fbv w 10 6) (fbv w 8 2) (fbv w 0 8))
  | 0x07 => some (.arithNeg (fbv w 16 6) (fbv w 10 6) (fbv w 8 2) (fbv w 0 8))
  | 0x08 => some (.arithAnd (fbv w 16 6) (fbv w 10 6) (fbv w 8 2) (fbv w 0 8))
  | 0x09 => some (.arithOr (fbv w 16 6) (fbv w 10 6) (fbv w 8 2) (fbv w 0 8))
  | 0x0A => some (.arithXor (fbv w 16 6) (fbv w 10 6) (fbv w 8 2) (fbv w 0 8))
  | 0x0B => some (.arithShl (fbv w 16 6) (fbv w 10 6) (fbv w 8 2) (fbv w 0 8))
  | 0x0C => if fld w 0 1 = 0 then some (.arithShrLogical (fbv w 16 6) (fbv w 10 6) (fbv w 8 2) (fbv w 1 7)) else some (.arithShrArithmetic (fbv w 16 6) (fbv w 10 6) (fbv w 8 2) (fbv w 1 7))
  | 0x0D => match fld w 0 3 with
    | 0 => some (.arithCmpEq (fbv w 16 6) (fbv w 10 6) (fbv w 8 2) (fbv w 3 5))
    | 1 => some (.arithCmpNe (fbv w 16 6) (fbv w 10 6) (fbv w 8 2) (fbv w 3 5))
    | 2 => some (.arithCmpLt (fbv w 16 6) (fbv w 10 6) (fbv w 8 2) (fbv w 3 5))
    | 3 => some (.arithCmpGe (fbv w 16 6) (fbv w 10 6) (fbv w 8 2) (fbv w 3 5))
    | 4 => some (.arithCmpLtu (fbv w 16 6) (fbv w 10 6) (fbv w 8 2) (fbv w 3 5))
    | _ => some (.arithCmpGeu (fbv w 16 6) (fbv w 10 6) (fbv w 8 2) (fbv w 3 5))
  | 0x0E => some (.arithSel (fbv w 16 6) (fbv w 10 6) (fbv w 8 2) (fbv w 0 8))
  | 0x0F => some (.arithSat (fbv w 16 6) (fbv w 10 6) (fbv w 8 2) (fbv w 0 8))
  | _ => none

/-- The functions of KIND 0x1 (R112). -/
def decodeCopy (w : Nat) : Option Instr :=
  match fld w 22 6 with
  | 0x00 => some (.copy (fbv w 16 6) (fbv w 10 6) (fbv w 8 2) (fbv w 0 8))
  | 0x01 => some (.gate (fbv w 16 6) (fbv w 10 6) (fbv w 8 2) (fbv w 0 8))
  | _ => none

/-- The functions of KIND 0x2 (R112). -/
def decodeJoin (w : Nat) : Option Instr :=
  match fld w 22 6 with
  | 0x00 => some (.jcmp (fbv w 16 6) (fbv w 10 6) (fbv w 8 2) (fbv w 0 8))
  | 0x01 => some (.isect (fbv w 16 6) (fbv w 10 6) (fbv w 8 2) (fbv w 0 8))
  | 0x02 => some (.unionKeys (fbv w 16 6) (fbv w 10 6) (fbv w 8 2) (fbv w 0 8))
  | 0x03 => some (.diff (fbv w 16 6) (fbv w 10 6) (fbv w 8 2) (fbv w 0 8))
  | 0x04 => some (.jwin (fbv w 16 6) (fbv w 10 6) (fbv w 8 2) (fbv w 0 8))
  | _ => none

/-- The functions of KIND 0x3 (R112). -/
def decodeSteer (w : Nat) : Option Instr :=
  match fld w 22 6 with
  | 0x00 => some (.stp (fbv w 16 6) (fbv w 10 6) (fbv w 8 2) (fbv w 0 8))
  | 0x01 => some (.stk (fbv w 16 6) (fbv w 10 6) (fbv w 8 2) (fbv w 0 8))
  | 0x02 => some (.sth (fbv w 16 6) (fbv w 10 6) (fbv w 8 2) (fbv w 0 8))
  | 0x03 => some (.stt (fbv w 16 6) (fbv w 10 6) (fbv w 8 2) (fbv w 0 8))
  | _ => none

/-- The functions of KIND 0x4 (R112). -/
def decodeReorder (w : Nat) : Option Instr :=
  match fld w 22 6 with
  | 0x00 => some (.rord (fbv w 16 6) (fbv w 10 6) (fbv w 8 2) (fbv w 0 8))
  | 0x01 => some (.rrel (fbv w 16 6) (fbv w 10 6) (fbv w 8 2) (fbv w 0 8))
  | _ => none

/-- The functions of KIND 0x5 (R112). -/
def decodeAccum (w : Nat) : Option Instr :=
  match fld w 22 6 with
  | 0x00 => some (.ains (fbv w 16 6) (fbv w 10 6) (fbv w 8 2) (fbv w 0 8))
  | 0x01 => some (.amax (fbv w 16 6) (fbv w 10 6) (fbv w 8 2) (fbv w 0 8))
  | 0x02 => some (.amin (fbv w 16 6) (fbv w 10 6) (fbv w 8 2) (fbv w 0 8))
  | 0x03 => some (.alook (fbv w 16 6) (fbv w 10 6) (fbv w 8 2) (fbv w 0 8))
  | 0x04 => some (.adrain (fbv w 16 6) (fbv w 10 6) (fbv w 8 2) (fbv w 0 8))
  | 0x05 => some (.aspill (fbv w 16 6) (fbv w 10 6) (fbv w 8 2) (fbv w 0 8))
  | 0x06 => some (.aclr (fbv w 16 6) (fbv w 10 6) (fbv w 8 2) (fbv w 0 8))
  | _ => none

/-- The functions of KIND 0x6 (R112). -/
def decodeMemport (w : Nat) : Option Instr :=
  match fld w 22 6 with
  | 0x00 => some (.mrd (fbv w 16 6) (fbv w 10 6) (fbv w 8 2) (fbv w 0 8))
  | 0x01 => some (.mwr (fbv w 16 6) (fbv w 10 6) (fbv w 8 2) (fbv w 0 8))
  | 0x02 => some (.mamo (fbv w 16 6) (fbv w 10 6) (fbv w 8 2) (fbv w 0 8))
  | 0x03 => some (.msct (fbv w 16 6) (fbv w 10 6) (fbv w 8 2) (fbv w 0 8))
  | 0x04 => some (.mgat (fbv w 16 6) (fbv w 10 6) (fbv w 8 2) (fbv w 0 8))
  | _ => none

/-- The functions of KIND 0x7 (R112). -/
def decodeAddrgen (w : Nat) : Option Instr :=
  match fld w 22 6 with
  | 0x00 => some (.agen (fbv w 16 6) (fbv w 10 6) (fbv w 8 2) (fbv w 0 8))
  | 0x01 => some (.agbase (fbv w 16 6) (fbv w 10 6) (fbv w 8 2) (fbv w 0 8))
  | 0x02 => some (.agre (fbv w 16 6) (fbv w 10 6) (fbv w 8 2) (fbv w 0 8))
  | _ => none

/-- The functions of KIND 0x8 (R112). -/
def decodeWindow (w : Nat) : Option Instr :=
  match fld w 22 6 with
  | 0x00 => some (.win (fbv w 16 6) (fbv w 10 6) (fbv w 8 2) (fbv w 0 8))
  | 0x01 => some (.wflush (fbv w 16 6) (fbv w 10 6) (fbv w 8 2) (fbv w 0 8))
  | _ => none

/-- The functions of KIND 0x9 (R112). -/
def decodeMatrix (w : Nat) : Option Instr :=
  match fld w 22 6 with
  | 0x00 => some (.mma (fbv w 16 6) (fbv w 10 6) (fbv w 8 2) (fbv w 0 8))
  | 0x01 => some (.mmas (fbv w 16 6) (fbv w 10 6) (fbv w 8 2) (fbv w 0 8))
  | 0x02 => some (.mdrn (fbv w 16 6) (fbv w 10 6) (fbv w 8 2) (fbv w 0 8))
  | 0x03 => some (.mzero (fbv w 16 6) (fbv w 10 6) (fbv w 8 2) (fbv w 0 8))
  | _ => none

/-- The functions of KIND 0xA (R112). -/
def decodeOnline (w : Nat) : Option Instr :=
  match fld w 22 6 with
  | 0x00 => some (.oadd (fbv w 16 6) (fbv w 10 6) (fbv w 8 2) (fbv w 0 8))
  | 0x01 => some (.omul (fbv w 16 6) (fbv w 10 6) (fbv w 8 2) (fbv w 0 8))
  | 0x02 => some (.omac (fbv w 16 6) (fbv w 10 6) (fbv w 8 2) (fbv w 0 8))
  | 0x03 => some (.ocut (fbv w 16 6) (fbv w 10 6) (fbv w 8 2) (fbv w 0 8))
  | 0x04 => some (.oconv (fbv w 16 6) (fbv w 10 6) (fbv w 8 2) (fbv w 5 3) (fbv w 4 1) (fbv w 0 4))
  | _ => none

/-- The functions of KIND 0xB (R112). -/
def decodeConvert (w : Nat) : Option Instr :=
  match fld w 22 6 with
  | 0x00 => some (.cvt (fbv w 16 6) (fbv w 10 6) (fbv w 8 2) (fbv w 5 3) (fbv w 4 1) (fbv w 0 4))
  | 0x01 => some (.rsc (fbv w 16 6) (fbv w 10 6) (fbv w 8 2) (fbv w 5 3) (fbv w 4 1) (fbv w 0 4))
  | 0x02 => some (.pack (fbv w 16 6) (fbv w 10 6) (fbv w 8 2) (fbv w 5 3) (fbv w 4 1) (fbv w 0 4))
  | 0x03 => some (.unpack (fbv w 16 6) (fbv w 10 6) (fbv w 8 2) (fbv w 0 8))
  | 0x04 => some (.stat (fbv w 16 6) (fbv w 10 6) (fbv w 8 2) (fbv w 0 8))
  | _ => none

/-- The function of a cell operation word (R111, R112). MOD codes 6 and 7 of `cmp` are no form of the word's own: a
firing raises the parameter fault for them (R167), so the word reads as the last row and keeps its MOD in the cell
(DESIGN CHOICE, log entry 35). -/
def decodeNode (w : Nat) : Except NodeReject Instr :=
  let found := match fld w 28 4 with
    | 0x0 => decodeArith w
    | 0x1 => decodeCopy w
    | 0x2 => decodeJoin w
    | 0x3 => decodeSteer w
    | 0x4 => decodeReorder w
    | 0x5 => decodeAccum w
    | 0x6 => decodeMemport w
    | 0x7 => decodeAddrgen w
    | 0x8 => decodeWindow w
    | 0x9 => decodeMatrix w
    | 0xA => decodeOnline w
    | 0xB => decodeConvert w
    | _ => none
  match found with
  | some i => .ok i
  | none => if 12 ≤ fld w 28 4 then .error .kindReserved else .error .funcUnassigned

/-- Why a policy word is rejected (R118). -/
inductive PolicyReject where
  | opcodeUnassigned
  | reservedField
  | operand
  deriving DecidableEq, Repr

/-- A policy word whose opcode is assigned: its reserved field, then its operand (R116, R118). -/
def policyGate (reserved : Bool) (i : Instr) : Except PolicyReject Instr :=
  if reserved then .error .reservedField
  else if i.wf then .ok i
  else .error .operand

/-- The policy decoder (R116, R117). -/
def decodePolicy (w : Nat) : Except PolicyReject Instr :=
  match fld w 11 5 with
  | 0x01 => policyGate (false) (.polImm (fbv w 8 3) (fbv w 0 8))
  | 0x02 => policyGate (fld w 5 3 != 0) (.polFld (fbv w 8 3) (fbv w 0 5))
  | 0x03 => policyGate (fld w 5 3 != 0) (.polSld (fbv w 8 3) (fbv w 0 5))
  | 0x04 => policyGate (fld w 0 5 != 0) (.polPlus (fbv w 8 3) (fbv w 5 3))
  | 0x05 => policyGate (fld w 0 5 != 0) (.polMinus (fbv w 8 3) (fbv w 5 3))
  | 0x06 => policyGate (fld w 0 5 != 0) (.polLow (fbv w 8 3) (fbv w 5 3))
  | 0x07 => policyGate (fld w 0 5 != 0) (.polHigh (fbv w 8 3) (fbv w 5 3))
  | 0x08 => policyGate (fld w 0 5 != 0) (.polBand (fbv w 8 3) (fbv w 5 3))
  | 0x09 => policyGate (fld w 0 5 != 0) (.polBor (fbv w 8 3) (fbv w 5 3))
  | 0x0A => policyGate (fld w 5 3 != 0) (.polLsl (fbv w 8 3) (fbv w 0 5))
  | 0x0B => policyGate (fld w 5 3 != 0) (.polLsr (fbv w 8 3) (fbv w 0 5))
  | 0x0C => if fld w 0 2 != 0 then .error .reservedField else match fld w 2 3 with
    | 0 => .ok (.polTestEq (fbv w 8 3) (fbv w 5 3))
    | 1 => .ok (.polTestNe (fbv w 8 3) (fbv w 5 3))
    | 2 => .ok (.polTestLt (fbv w 8 3) (fbv w 5 3))
    | 3 => .ok (.polTestGe (fbv w 8 3) (fbv w 5 3))
    | 4 => .ok (.polTestLtu (fbv w 8 3) (fbv w 5 3))
    | 5 => .ok (.polTestGeu (fbv w 8 3) (fbv w 5 3))
    | _ => .error .operand
  | 0x10 => policyGate (fld w 8 3 != 0) (.polSkip (fbv w 0 8))
  | 0x11 => policyGate (fld w 8 3 != 0) (.polJump (fbv w 0 8))
  | 0x12 => policyGate (fld w 0 11 != 0) (.polEach)
  | 0x13 => policyGate (fld w 8 3 != 0) (.polNext (fbv w 0 8))
  | 0x18 => policyGate (fld w 0 8 != 0) (.polPick (fbv w 8 3))
  | 0x19 => policyGate (fld w 0 11 != 0) (.polDecide)
  | 0x1A => policyGate (fld w 0 11 != 0) (.polVeto)
  | 0x1B => policyGate (fld w 0 11 != 0) (.polStop)
  | _ => .error .opcodeUnassigned

/-- What a 32-bit word is to a row manager (R119, R120): a command form, a word that raises the illegal-instruction
exception, or a word of the RV64GC base. `khalt` is one word for a halt and a resume, which rs1 tells apart. -/
inductive RmWord where
  | command (i : Instr)
  | illegal
  | base
  deriving DecidableEq, Repr

/-- A command form whose register fields marked 0 are zero (R120). -/
def rmGate (reserved : Bool) (i : Instr) : RmWord :=
  if reserved then .illegal else .command i

/-- The row-manager command decoder (R119, R120). -/
def decodeRm (w : Nat) : RmWord :=
  if fld w 0 7 = 0x0B then
    match fld w 12 3 with
    | 0 => rmGate (fld w 25 7 != 0) (.kcmd (fbv w 20 5) (fbv w 15 5) (fbv w 7 5))
    | 1 => rmGate (fld w 7 5 != 0 || fld w 20 12 != 0) (.kfence (fbv w 15 5))
    | 2 => rmGate (fld w 20 12 != 0) (.kpoll (fbv w 15 5) (fbv w 7 5))
    | 3 => rmGate (fld w 15 5 != 0 || fld w 25 7 != 0) (.kqst (fbv w 20 5) (fbv w 7 5))
    | _ => .illegal
  else if fld w 0 7 = 0x2B then
    match fld w 12 3 with
    | 0 => rmGate (fld w 7 5 != 0 || fld w 20 12 != 0) (.khaltHalt (fbv w 15 5))
    | 1 => rmGate (fld w 20 12 != 0) (.kpeek (fbv w 15 5) (fbv w 7 5))
    | 2 => rmGate (fld w 7 5 != 0 || fld w 25 7 != 0) (.kreplay (fbv w 20 5) (fbv w 15 5))
    | 3 => rmGate (fld w 20 12 != 0) (.kbbx (fbv w 15 5) (fbv w 7 5))
    | _ => .illegal
  else .base

/-- The number that four bytes hold, least significant byte first (R62). -/
def bytesToNat : List Byte → Nat
  | [] => 0
  | b :: bs => b.toNat + 256 * bytesToNat bs

/-- The `n` bytes of a number, least significant byte first (R62). -/
def natToBytes : Nat → Nat → List Byte
  | 0, _ => []
  | n + 1, w => BitVec.ofNat 8 w :: natToBytes n (w / 256)

/-- The encoded sets of this spec, and which of them a word of a given width is tried in. -/
inductive InstrSet where
  | sequencer | rowManager | node | policy
  deriving DecidableEq, Repr

/-- Words of the five sets are decoded in different places (the sequencer's fetch, a cell's load, a policy's load, a
row manager's fetch), and one 32-bit pattern may be a word of several sets. Asked for a pattern alone, the sequencer's
reading is tried first, then the row manager's, then the cell's (DESIGN CHOICE, log entry 12). -/
def setOfWord (nbits w : Nat) : Option (InstrSet × Instr) :=
  if nbits = 32 then
    match decodeSeq w with
    | .ok i => some (.sequencer, i)
    | .error _ =>
      match decodeRm w with
      | .command i => some (.rowManager, i)
      | _ =>
        match decodeNode w with
        | .ok i => some (.node, i)
        | .error _ => none
  else if nbits = 16 then
    match decodePolicy w with
    | .ok i => some (.policy, i)
    | .error _ => none
  else none

/-- The instruction the decoders read from a word whose bits are numbered as spec/opcode_table.json numbers them: the
word is laid out as bytes, least significant first, and read back (DESIGN CHOICE, log entry 12). -/
def decodeTableWord (nbits w : Nat) : Option Instr :=
  (setOfWord nbits (bytesToNat (natToBytes (nbits / 8) w))).map Prod.snd

/-- A word with the given fixed bits and fields, each field a bit position and a value. -/
def place (fixed : Nat) : List (Nat × Nat) → Nat
  | [] => fixed
  | (lo, v) :: fs => place (fixed + v * 2 ^ lo) fs

/-- The word of a register or immediate form of the sequencer, if the instruction is one. -/
def encodeAlu : Instr → Option Nat
  | .add d a b g s => some (place 0x04000000 [(21, d.toNat), (16, a.toNat), (11, b.toNat), (8, g.toNat), (7, s.toNat)])
  | .sub d a b g s => some (place 0x04000001 [(21, d.toNat), (16, a.toNat), (11, b.toNat), (8, g.toNat), (7, s.toNat)])
  | .and d a b g s => some (place 0x04000002 [(21, d.toNat), (16, a.toNat), (11, b.toNat), (8, g.toNat), (7, s.toNat)])
  | .or d a b g s => some (place 0x04000003 [(21, d.toNat), (16, a.toNat), (11, b.toNat), (8, g.toNat), (7, s.toNat)])
  | .xor d a b g s => some (place 0x04000004 [(21, d.toNat), (16, a.toNat), (11, b.toNat), (8, g.toNat), (7, s.toNat)])
  | .shl d a b g s => some (place 0x04000005 [(21, d.toNat), (16, a.toNat), (11, b.toNat), (8, g.toNat), (7, s.toNat)])
  | .shr d a b g s => some (place 0x04000006 [(21, d.toNat), (16, a.toNat), (11, b.toNat), (8, g.toNat), (7, s.toNat)])
  | .sar d a b g s => some (place 0x04000007 [(21, d.toNat), (16, a.toNat), (11, b.toNat), (8, g.toNat), (7, s.toNat)])
  | .mul d a b g s => some (place 0x04000008 [(21, d.toNat), (16, a.toNat), (11, b.toNat), (8, g.toNat), (7, s.toNat)])
  | .mulh d a b g s => some (place 0x04000009 [(21, d.toNat), (16, a.toNat), (11, b.toNat), (8, g.toNat), (7, s.toNat)])
  | .div d a b g s => some (place 0x0400000A [(21, d.toNat), (16, a.toNat), (11, b.toNat), (8, g.toNat), (7, s.toNat)])
  | .rem d a b g s => some (place 0x0400000B [(21, d.toNat), (16, a.toNat), (11, b.toNat), (8, g.toNat), (7, s.toNat)])
  | .min d a b g s => some (place 0x0400000C [(21, d.toNat), (16, a.toNat), (11, b.toNat), (8, g.toNat), (7, s.toNat)])
  | .max d a b g s => some (place 0x0400000D [(21, d.toNat), (16, a.toNat), (11, b.toNat), (8, g.toNat), (7, s.toNat)])
  | .clz d a g s => some (place 0x0400000E [(21, d.toNat), (16, a.toNat), (8, g.toNat), (7, s.toNat)])
  | .popc d a g s => some (place 0x0400000F [(21, d.toNat), (16, a.toNat), (8, g.toNat), (7, s.toNat)])
  | .adds d a b g s w => some (place 0x04000010 [(21, d.toNat), (16, a.toNat), (11, b.toNat), (8, g.toNat), (7, s.toNat), (0, w.toNat)])
  | .bfx d a b g s => some (place 0x04000014 [(21, d.toNat), (16, a.toNat), (11, b.toNat), (8, g.toNat), (7, s.toNat)])
  | .bfi d a b g s => some (place 0x04000015 [(21, d.toNat), (16, a.toNat), (11, b.toNat), (8, g.toNat), (7, s.toNat)])
  | .mad d a b g s => some (place 0x04000016 [(21, d.toNat), (16, a.toNat), (11, b.toNat), (8, g.toNat), (7, s.toNat)])
  | .crc d a b g s w => some (place 0x04000018 [(21, d.toNat), (16, a.toNat), (11, b.toNat), (8, g.toNat), (7, s.toNat), (0, w.toNat)])
  | .cmpeq d a b g s => some (place 0x04000020 [(21, d.toNat), (16, a.toNat), (11, b.toNat), (8, g.toNat), (7, s.toNat)])
  | .cmpne d a b g s => some (place 0x04000021 [(21, d.toNat), (16, a.toNat), (11, b.toNat), (8, g.toNat), (7, s.toNat)])
  | .cmplt d a b g s => some (place 0x04000022 [(21, d.toNat), (16, a.toNat), (11, b.toNat), (8, g.toNat), (7, s.toNat)])
  | .cmpge d a b g s => some (place 0x04000023 [(21, d.toNat), (16, a.toNat), (11, b.toNat), (8, g.toNat), (7, s.toNat)])
  | .cmpltu d a b g s => some (place 0x04000024 [(21, d.toNat), (16, a.toNat), (11, b.toNat), (8, g.toNat), (7, s.toNat)])
  | .cmpgeu d a b g s => some (place 0x04000025 [(21, d.toNat), (16, a.toNat), (11, b.toNat), (8, g.toNat), (7, s.toNat)])
  | .sel d a b g s k => some (place 0x04000030 [(21, d.toNat), (16, a.toNat), (11, b.toNat), (8, g.toNat), (7, s.toNat), (0, k.toNat)])
  | .jr a g s => some (place 0x0C000000 [(16, a.toNat), (8, g.toNat), (7, s.toNat)])
  | .ret g s => some (place 0x0C000001 [(8, g.toNat), (7, s.toNat)])
  | .pgprobe d a g s => some (place 0x0C000002 [(21, d.toNat), (16, a.toNat), (8, g.toNat), (7, s.toNat)])
  | .sigv d a b g s => some (place 0x0C000003 [(21, d.toNat), (16, a.toNat), (11, b.toNat), (8, g.toNat), (7, s.toNat)])
  | .keyh d a g s => some (place 0x0C000004 [(21, d.toNat), (16, a.toNat), (8, g.toNat), (7, s.toNat)])
  | .lih d i => some (place 0x10000000 [(21, d.toNat), (0, i.toNat)])
  | .addi d a g i => some (place 0x20000000 [(21, d.toNat), (16, a.toNat), (13, g.toNat), (0, i.toNat)])
  | .andi d a g i => some (place 0x24000000 [(21, d.toNat), (16, a.toNat), (13, g.toNat), (0, i.toNat)])
  | .ori d a g i => some (place 0x28000000 [(21, d.toNat), (16, a.toNat), (13, g.toNat), (0, i.toNat)])
  | .xori d a g i => some (place 0x2C000000 [(21, d.toNat), (16, a.toNat), (13, g.toNat), (0, i.toNat)])
  | .shli d a g n => some (place 0x30000000 [(21, d.toNat), (16, a.toNat), (13, g.toNat), (0, n.toNat)])
  | .shri d a g n => some (place 0x34000000 [(21, d.toNat), (16, a.toNat), (13, g.toNat), (0, n.toNat)])
  | .sari d a g n => some (place 0x38000000 [(21, d.toNat), (16, a.toNat), (13, g.toNat), (0, n.toNat)])
  | .loop d g i => some (place 0x3C000000 [(21, d.toNat), (13, g.toNat), (0, i.toNat)])
  | .br g s d => some (place 0x40000000 [(23, g.toNat), (22, s.toNat), (0, d.toNat)])
  | .brp g s d => some (place 0x44000000 [(23, g.toNat), (22, s.toNat), (0, d.toNat)])
  | .call g s d => some (place 0x48000000 [(23, g.toNat), (22, s.toNat), (0, d.toNat)])
  | _ => none

/-- The word of a memory form of the sequencer, if the instruction is one. -/
def encodeMem : Instr → Option Nat
  | .ld d a g o c w e => some (place 0x60000000 [(21, d.toNat), (16, a.toNat), (13, g.toNat), (11, o.toNat), (8, c.toNat), (6, w.toNat), (0, e.toNat)])
  | .st d a g o c w e => some (place 0x64000000 [(21, d.toNat), (16, a.toNat), (13, g.toNat), (11, o.toNat), (8, c.toNat), (6, w.toNat), (0, e.toNat)])
  | .ldm d a g o c n => some (place 0x680000C0 [(21, d.toNat), (16, a.toNat), (13, g.toNat), (11, o.toNat), (8, c.toNat), (2, n.toNat)])
  | .stm d a g o c n => some (place 0x6C0000C0 [(21, d.toNat), (16, a.toNat), (13, g.toNat), (11, o.toNat), (8, c.toNat), (2, n.toNat)])
  | .amoswap d a g o c w => some (place 0x70000000 [(21, d.toNat), (16, a.toNat), (13, g.toNat), (11, o.toNat), (8, c.toNat), (6, w.toNat)])
  | .amoadd d a g o c w => some (place 0x70000001 [(21, d.toNat), (16, a.toNat), (13, g.toNat), (11, o.toNat), (8, c.toNat), (6, w.toNat)])
  | .amoand d a g o c w => some (place 0x70000002 [(21, d.toNat), (16, a.toNat), (13, g.toNat), (11, o.toNat), (8, c.toNat), (6, w.toNat)])
  | .amoor d a g o c w => some (place 0x70000003 [(21, d.toNat), (16, a.toNat), (13, g.toNat), (11, o.toNat), (8, c.toNat), (6, w.toNat)])
  | .amoxor d a g o c w => some (place 0x70000004 [(21, d.toNat), (16, a.toNat), (13, g.toNat), (11, o.toNat), (8, c.toNat), (6, w.toNat)])
  | .amomin d a g o c w => some (place 0x70000005 [(21, d.toNat), (16, a.toNat), (13, g.toNat), (11, o.toNat), (8, c.toNat), (6, w.toNat)])
  | .amomax d a g o c w => some (place 0x70000006 [(21, d.toNat), (16, a.toNat), (13, g.toNat), (11, o.toNat), (8, c.toNat), (6, w.toNat)])
  | .amominu d a g o c w => some (place 0x70000007 [(21, d.toNat), (16, a.toNat), (13, g.toNat), (11, o.toNat), (8, c.toNat), (6, w.toNat)])
  | .amomaxu d a g o c w => some (place 0x70000008 [(21, d.toNat), (16, a.toNat), (13, g.toNat), (11, o.toNat), (8, c.toNat), (6, w.toNat)])
  | .cas d a g o c w => some (place 0x74000000 [(21, d.toNat), (16, a.toNat), (13, g.toNat), (11, o.toNat), (8, c.toNat), (6, w.toNat)])
  | _ => none

/-- The word of a form of major 0x2E, if the instruction is one. -/
def encodePort : Instr → Option Nat
  | .nop q => some (place 0xB8000000 [(12, q.toNat)])
  | .halt q => some (place 0xB8000001 [(12, q.toNat)])
  | .yield q => some (place 0xB8000002 [(12, q.toNat)])
  | .trap c q => some (place 0xB8000003 [(15, c.toNat), (12, q.toNat)])
  | .rte q => some (place 0xB8000004 [(12, q.toNat)])
  | .sysr d r q => some (place 0xB8000005 [(21, d.toNat), (15, r.toNat), (12, q.toNat)])
  | .sysw a r q => some (place 0xB8000006 [(21, a.toNat), (15, r.toNat), (12, q.toNat)])
  | .get d n q c => some (place 0xB8000010 [(21, d.toNat), (15, n.toNat), (12, q.toNat), (8, c.toNat)])
  | .peekInlet d n q => some (place 0xB8000011 [(21, d.toNat), (15, n.toNat), (12, q.toNat)])
  | .peekOutlet d n q => some (place 0xB8000111 [(21, d.toNat), (15, n.toNat), (12, q.toNat)])
  | .accz n q => some (place 0xB8000012 [(15, n.toNat), (12, q.toNat)])
  | .accr d n q c => some (place 0xB8000013 [(21, d.toNat), (15, n.toNat), (12, q.toNat), (8, c.toNat)])
  | .scmdStop a n q => some (place 0xB8000014 [(21, a.toNat), (15, n.toNat), (12, q.toNat)])
  | .scmdAddI32 a n q => some (place 0xB8000114 [(21, a.toNat), (15, n.toNat), (12, q.toNat)])
  | .scmdAddI64 a n q => some (place 0xB8000214 [(21, a.toNat), (15, n.toNat), (12, q.toNat)])
  | .scmdAddF32 a n q => some (place 0xB8000314 [(21, a.toNat), (15, n.toNat), (12, q.toNat)])
  | .scmdWaddI32 a n q => some (place 0xB8000414 [(21, a.toNat), (15, n.toNat), (12, q.toNat)])
  | .scmdWaddF32 a n q => some (place 0xB8000514 [(21, a.toNat), (15, n.toNat), (12, q.toNat)])
  | .scmdMaxI32 a n q => some (place 0xB8000614 [(21, a.toNat), (15, n.toNat), (12, q.toNat)])
  | .scmdMinI32 a n q => some (place 0xB8000714 [(21, a.toNat), (15, n.toNat), (12, q.toNat)])
  | .scmdMaxF32 a n q => some (place 0xB8000814 [(21, a.toNat), (15, n.toNat), (12, q.toNat)])
  | .scmdMinF32 a n q => some (place 0xB8000914 [(21, a.toNat), (15, n.toNat), (12, q.toNat)])
  | .scmdCount a n q => some (place 0xB8000A14 [(21, a.toNat), (15, n.toNat), (12, q.toNat)])
  | .scmdKeyAdd a n q => some (place 0xB8000B14 [(21, a.toNat), (15, n.toNat), (12, q.toNat)])
  | .scmdKeyWadd a n q => some (place 0xB8000C14 [(21, a.toNat), (15, n.toNat), (12, q.toNat)])
  | .scmdOr a n q => some (place 0xB8000D14 [(21, a.toNat), (15, n.toNat), (12, q.toNat)])
  | .scmdXor a n q => some (place 0xB8000E14 [(21, a.toNat), (15, n.toNat), (12, q.toNat)])
  | .scmdCopy a n q => some (place 0xB8000F14 [(21, a.toNat), (15, n.toNat), (12, q.toNat)])
  | .arm a s q => some (place 0xB8000015 [(21, a.toNat), (15, s.toNat), (12, q.toNat)])
  | .launch a q => some (place 0xB8000016 [(21, a.toNat), (12, q.toNat)])
  | .recv d c q n => some (place 0xB8000017 [(21, d.toNat), (15, c.toNat), (12, q.toNat), (8, n.toNat)])
  | .put a n q c => some (place 0xB8000018 [(21, a.toNat), (15, n.toNat), (12, q.toNat), (8, c.toNat)])
  | .send a c q n => some (place 0xB8000019 [(21, a.toNat), (15, c.toNat), (12, q.toNat), (8, n.toNat)])
  | .qbind a n q => some (place 0xB8000020 [(21, a.toNat), (15, n.toNat), (12, q.toNat)])
  | .qstatInlet d n q => some (place 0xB8000021 [(21, d.toNat), (15, n.toNat), (12, q.toNat)])
  | .qstatOutlet d n q => some (place 0xB8000121 [(21, d.toNat), (15, n.toNat), (12, q.toNat)])
  | .qgapInlet d n q => some (place 0xB8000022 [(21, d.toNat), (15, n.toNat), (12, q.toNat)])
  | .qgapOutlet d n q => some (place 0xB8000122 [(21, d.toNat), (15, n.toNat), (12, q.toNat)])
  | .qdrainInlet n q => some (place 0xB8000023 [(15, n.toNat), (12, q.toNat)])
  | .qdrainOutlet n q => some (place 0xB8000123 [(15, n.toNat), (12, q.toNat)])
  | .cfgld a q => some (place 0xB8000028 [(21, a.toNat), (12, q.toNat)])
  | .cfgchk d q => some (place 0xB8000029 [(21, d.toNat), (12, q.toNat)])
  | .cfgflip q => some (place 0xB800002A [(12, q.toNat)])
  | .cfgabort q => some (place 0xB800002B [(12, q.toNat)])
  | .grun n q => some (place 0xB8000030 [(15, n.toNat), (12, q.toNat)])
  | .gwait n q => some (place 0xB8000031 [(15, n.toNat), (12, q.toNat)])
  | .gstat d n q => some (place 0xB8000032 [(21, d.toNat), (15, n.toNat), (12, q.toNat)])
  | .fence q c => some (place 0xB8000038 [(12, q.toNat), (8, c.toNat)])
  | .bari a q c => some (place 0xB8000039 [(21, a.toNat), (12, q.toNat), (8, c.toNat)])
  | .bara a q c => some (place 0xB800003A [(21, a.toNat), (12, q.toNat), (8, c.toNat)])
  | .barw a q c => some (place 0xB800003B [(21, a.toNat), (12, q.toNat), (8, c.toNat)])
  | .bart a k q c => some (place 0xB800003C [(21, a.toNat), (15, k.toNat), (12, q.toNat), (8, c.toNat)])
  | .statf a q => some (place 0xB8000040 [(21, a.toNat), (12, q.toNat)])
  | .retune a q => some (place 0xB8000041 [(21, a.toNat), (12, q.toNat)])
  | _ => none

/-- The word of a cell operation word (R111), if the instruction is one. -/
def encodeNode : Instr → Option Nat
  | .arithAdd a b m r v p => some (place 0x00000000 [(16, a.toNat), (10, b.toNat), (8, m.toNat), (5, r.toNat), (4, v.toNat), (0, p.toNat)])
  | .arithSub a b m r v p => some (place 0x00400000 [(16, a.toNat), (10, b.toNat), (8, m.toNat), (5, r.toNat), (4, v.toNat), (0, p.toNat)])
  | .arithMul a b m r v p => some (place 0x00800000 [(16, a.toNat), (10, b.toNat), (8, m.toNat), (5, r.toNat), (4, v.toNat), (0, p.toNat)])
  | .arithFma a b m r v p => some (place 0x00C00000 [(16, a.toNat), (10, b.toNat), (8, m.toNat), (5, r.toNat), (4, v.toNat), (0, p.toNat)])
  | .arithMin a b m o => some (place 0x01000000 [(16, a.toNat), (10, b.toNat), (8, m.toNat), (0, o.toNat)])
  | .arithMax a b m o => some (place 0x01400000 [(16, a.toNat), (10, b.toNat), (8, m.toNat), (0, o.toNat)])
  | .arithAbs a b m o => some (place 0x01800000 [(16, a.toNat), (10, b.toNat), (8, m.toNat), (0, o.toNat)])
  | .arithNeg a b m o => some (place 0x01C00000 [(16, a.toNat), (10, b.toNat), (8, m.toNat), (0, o.toNat)])
  | .arithAnd a b m o => some (place 0x02000000 [(16, a.toNat), (10, b.toNat), (8, m.toNat), (0, o.toNat)])
  | .arithOr a b m o => some (place 0x02400000 [(16, a.toNat), (10, b.toNat), (8, m.toNat), (0, o.toNat)])
  | .arithXor a b m o => some (place 0x02800000 [(16, a.toNat), (10, b.toNat), (8, m.toNat), (0, o.toNat)])
  | .arithShl a b m o => some (place 0x02C00000 [(16, a.toNat), (10, b.toNat), (8, m.toNat), (0, o.toNat)])
  | .arithShrLogical a b m o => some (place 0x03000000 [(16, a.toNat), (10, b.toNat), (8, m.toNat), (1, o.toNat)])
  | .arithShrArithmetic a b m o => some (place 0x03000001 [(16, a.toNat), (10, b.toNat), (8, m.toNat), (1, o.toNat)])
  | .arithCmpEq a b m o => some (place 0x03400000 [(16, a.toNat), (10, b.toNat), (8, m.toNat), (3, o.toNat)])
  | .arithCmpNe a b m o => some (place 0x03400001 [(16, a.toNat), (10, b.toNat), (8, m.toNat), (3, o.toNat)])
  | .arithCmpLt a b m o => some (place 0x03400002 [(16, a.toNat), (10, b.toNat), (8, m.toNat), (3, o.toNat)])
  | .arithCmpGe a b m o => some (place 0x03400003 [(16, a.toNat), (10, b.toNat), (8, m.toNat), (3, o.toNat)])
  | .arithCmpLtu a b m o => some (place 0x03400004 [(16, a.toNat), (10, b.toNat), (8, m.toNat), (3, o.toNat)])
  | .arithCmpGeu a b m o => some (place 0x03400005 [(16, a.toNat), (10, b.toNat), (8, m.toNat), (3, o.toNat)])
  | .arithSel a b m o => some (place 0x03800000 [(16, a.toNat), (10, b.toNat), (8, m.toNat), (0, o.toNat)])
  | .arithSat a b m o => some (place 0x03C00000 [(16, a.toNat), (10, b.toNat), (8, m.toNat), (0, o.toNat)])
  | .copy a b m o => some (place 0x10000000 [(16, a.toNat), (10, b.toNat), (8, m.toNat), (0, o.toNat)])
  | .gate a b m o => some (place 0x10400000 [(16, a.toNat), (10, b.toNat), (8, m.toNat), (0, o.toNat)])
  | .jcmp a b m o => some (place 0x20000000 [(16, a.toNat), (10, b.toNat), (8, m.toNat), (0, o.toNat)])
  | .isect a b m o => some (place 0x20400000 [(16, a.toNat), (10, b.toNat), (8, m.toNat), (0, o.toNat)])
  | .unionKeys a b m o => some (place 0x20800000 [(16, a.toNat), (10, b.toNat), (8, m.toNat), (0, o.toNat)])
  | .diff a b m o => some (place 0x20C00000 [(16, a.toNat), (10, b.toNat), (8, m.toNat), (0, o.toNat)])
  | .jwin a b m o => some (place 0x21000000 [(16, a.toNat), (10, b.toNat), (8, m.toNat), (0, o.toNat)])
  | .stp a b m o => some (place 0x30000000 [(16, a.toNat), (10, b.toNat), (8, m.toNat), (0, o.toNat)])
  | .stk a b m o => some (place 0x30400000 [(16, a.toNat), (10, b.toNat), (8, m.toNat), (0, o.toNat)])
  | .sth a b m o => some (place 0x30800000 [(16, a.toNat), (10, b.toNat), (8, m.toNat), (0, o.toNat)])
  | .stt a b m o => some (place 0x30C00000 [(16, a.toNat), (10, b.toNat), (8, m.toNat), (0, o.toNat)])
  | .rord a b m o => some (place 0x40000000 [(16, a.toNat), (10, b.toNat), (8, m.toNat), (0, o.toNat)])
  | .rrel a b m o => some (place 0x40400000 [(16, a.toNat), (10, b.toNat), (8, m.toNat), (0, o.toNat)])
  | .ains a b m o => some (place 0x50000000 [(16, a.toNat), (10, b.toNat), (8, m.toNat), (0, o.toNat)])
  | .amax a b m o => some (place 0x50400000 [(16, a.toNat), (10, b.toNat), (8, m.toNat), (0, o.toNat)])
  | .amin a b m o => some (place 0x50800000 [(16, a.toNat), (10, b.toNat), (8, m.toNat), (0, o.toNat)])
  | .alook a b m o => some (place 0x50C00000 [(16, a.toNat), (10, b.toNat), (8, m.toNat), (0, o.toNat)])
  | .adrain a b m o => some (place 0x51000000 [(16, a.toNat), (10, b.toNat), (8, m.toNat), (0, o.toNat)])
  | .aspill a b m o => some (place 0x51400000 [(16, a.toNat), (10, b.toNat), (8, m.toNat), (0, o.toNat)])
  | .aclr a b m o => some (place 0x51800000 [(16, a.toNat), (10, b.toNat), (8, m.toNat), (0, o.toNat)])
  | .mrd a b m o => some (place 0x60000000 [(16, a.toNat), (10, b.toNat), (8, m.toNat), (0, o.toNat)])
  | .mwr a b m o => some (place 0x60400000 [(16, a.toNat), (10, b.toNat), (8, m.toNat), (0, o.toNat)])
  | .mamo a b m o => some (place 0x60800000 [(16, a.toNat), (10, b.toNat), (8, m.toNat), (0, o.toNat)])
  | .msct a b m o => some (place 0x60C00000 [(16, a.toNat), (10, b.toNat), (8, m.toNat), (0, o.toNat)])
  | .mgat a b m o => some (place 0x61000000 [(16, a.toNat), (10, b.toNat), (8, m.toNat), (0, o.toNat)])
  | .agen a b m o => some (place 0x70000000 [(16, a.toNat), (10, b.toNat), (8, m.toNat), (0, o.toNat)])
  | .agbase a b m o => some (place 0x70400000 [(16, a.toNat), (10, b.toNat), (8, m.toNat), (0, o.toNat)])
  | .agre a b m o => some (place 0x70800000 [(16, a.toNat), (10, b.toNat), (8, m.toNat), (0, o.toNat)])
  | .win a b m o => some (place 0x80000000 [(16, a.toNat), (10, b.toNat), (8, m.toNat), (0, o.toNat)])
  | .wflush a b m o => some (place 0x80400000 [(16, a.toNat), (10, b.toNat), (8, m.toNat), (0, o.toNat)])
  | .mma a b m o => some (place 0x90000000 [(16, a.toNat), (10, b.toNat), (8, m.toNat), (0, o.toNat)])
  | .mmas a b m o => some (place 0x90400000 [(16, a.toNat), (10, b.toNat), (8, m.toNat), (0, o.toNat)])
  | .mdrn a b m o => some (place 0x90800000 [(16, a.toNat), (10, b.toNat), (8, m.toNat), (0, o.toNat)])
  | .mzero a b m o => some (place 0x90C00000 [(16, a.toNat), (10, b.toNat), (8, m.toNat), (0, o.toNat)])
  | .oadd a b m o => some (place 0xA0000000 [(16, a.toNat), (10, b.toNat), (8, m.toNat), (0, o.toNat)])
  | .omul a b m o => some (place 0xA0400000 [(16, a.toNat), (10, b.toNat), (8, m.toNat), (0, o.toNat)])
  | .omac a b m o => some (place 0xA0800000 [(16, a.toNat), (10, b.toNat), (8, m.toNat), (0, o.toNat)])
  | .ocut a b m o => some (place 0xA0C00000 [(16, a.toNat), (10, b.toNat), (8, m.toNat), (0, o.toNat)])
  | .oconv a b m r v p => some (place 0xA1000000 [(16, a.toNat), (10, b.toNat), (8, m.toNat), (5, r.toNat), (4, v.toNat), (0, p.toNat)])
  | .cvt a b m r v p => some (place 0xB0000000 [(16, a.toNat), (10, b.toNat), (8, m.toNat), (5, r.toNat), (4, v.toNat), (0, p.toNat)])
  | .rsc a b m r v p => some (place 0xB0400000 [(16, a.toNat), (10, b.toNat), (8, m.toNat), (5, r.toNat), (4, v.toNat), (0, p.toNat)])
  | .pack a b m r v p => some (place 0xB0800000 [(16, a.toNat), (10, b.toNat), (8, m.toNat), (5, r.toNat), (4, v.toNat), (0, p.toNat)])
  | .unpack a b m o => some (place 0xB0C00000 [(16, a.toNat), (10, b.toNat), (8, m.toNat), (0, o.toNat)])
  | .stat a b m o => some (place 0xB1000000 [(16, a.toNat), (10, b.toNat), (8, m.toNat), (0, o.toNat)])
  | _ => none

/-- The word of a policy word (R116), if the instruction is one. -/
def encodePolicy : Instr → Option Nat
  | .polImm d v => some (place 0x0800 [(8, d.toNat), (0, v.toNat)])
  | .polFld d f => some (place 0x1000 [(8, d.toNat), (0, f.toNat)])
  | .polSld d f => some (place 0x1800 [(8, d.toNat), (0, f.toNat)])
  | .polPlus d s => some (place 0x2000 [(8, d.toNat), (5, s.toNat)])
  | .polMinus d s => some (place 0x2800 [(8, d.toNat), (5, s.toNat)])
  | .polLow d s => some (place 0x3000 [(8, d.toNat), (5, s.toNat)])
  | .polHigh d s => some (place 0x3800 [(8, d.toNat), (5, s.toNat)])
  | .polBand d s => some (place 0x4000 [(8, d.toNat), (5, s.toNat)])
  | .polBor d s => some (place 0x4800 [(8, d.toNat), (5, s.toNat)])
  | .polLsl d n => some (place 0x5000 [(8, d.toNat), (0, n.toNat)])
  | .polLsr d n => some (place 0x5800 [(8, d.toNat), (0, n.toNat)])
  | .polTestEq d s => some (place 0x6000 [(8, d.toNat), (5, s.toNat)])
  | .polTestNe d s => some (place 0x6004 [(8, d.toNat), (5, s.toNat)])
  | .polTestLt d s => some (place 0x6008 [(8, d.toNat), (5, s.toNat)])
  | .polTestGe d s => some (place 0x600C [(8, d.toNat), (5, s.toNat)])
  | .polTestLtu d s => some (place 0x6010 [(8, d.toNat), (5, s.toNat)])
  | .polTestGeu d s => some (place 0x6014 [(8, d.toNat), (5, s.toNat)])
  | .polSkip d => some (place 0x8000 [(0, d.toNat)])
  | .polJump d => some (place 0x8800 [(0, d.toNat)])
  | .polEach => some (place 0x9000 [])
  | .polNext d => some (place 0x9800 [(0, d.toNat)])
  | .polPick d => some (place 0xC000 [(8, d.toNat)])
  | .polDecide => some (place 0xC800 [])
  | .polVeto => some (place 0xD000 [])
  | .polStop => some (place 0xD800 [])
  | _ => none

/-- The word of a row-manager command form (R119), if the instruction is one. -/
def encodeRm : Instr → Option Nat
  | .kcmd b a d => some (place 0x0000000B [(20, b.toNat), (15, a.toNat), (7, d.toNat)])
  | .kfence a => some (place 0x0000100B [(15, a.toNat)])
  | .kpoll a d => some (place 0x0000200B [(15, a.toNat), (7, d.toNat)])
  | .kqst b d => some (place 0x0000300B [(20, b.toNat), (7, d.toNat)])
  | .khaltHalt a => some (place 0x0000002B [(15, a.toNat)])
  | .khaltResume a => some (place 0x0000002B [(15, a.toNat)])
  | .kpeek a d => some (place 0x0000102B [(15, a.toNat), (7, d.toNat)])
  | .kreplay b a => some (place 0x0000202B [(20, b.toNat), (15, a.toNat)])
  | .kbbx a d => some (place 0x0000302B [(15, a.toNat), (7, d.toNat)])
  | _ => none

/-- The word of an encoded instruction, written from the encoding tables (R101 to R119); `none` for the rows that have
no encoding (DESIGN CHOICE, log entry 35). -/
def encode (i : Instr) : Option Nat :=
  (encodeAlu i).orElse fun _ => (encodeMem i).orElse fun _ => (encodePort i).orElse fun _ =>
    (encodeNode i).orElse fun _ => (encodePolicy i).orElse fun _ => encodeRm i

end Sys2Proof
end

