-- ==== Sys2Proof/Config.lean ====
section
/-!
DEFINITION. What an implementation fixes, and the free values: constants with no body, of which nothing can be proved but
what holds whatever they are. Each is named in the assumption log.
-/

namespace Sys2Proof.Config

/-- What a byte of stacked memory that nothing has written reads as (the spec gives no power-on contents; DESIGN CHOICE, log entry 1). -/
def coldByte : Byte := 0

/-- Byte `i` of the key that the security controller made inside itself with a serial number: its bits are random (R367, R368; DESIGN
CHOICE, log entry 2). -/
opaque madeKey (n i : Nat) : Byte

/-- The length in bytes of the device identity's HSS signatures (R439; DESIGN CHOICE, log entry 3): SIGLEN holds it, and a report with it fits a buffer whose
length R438 can name. -/
opaque hssSigLen : BitVec 31

/-- Byte `i` of the HSS signature of the device identity over a report (R439; DESIGN CHOICE, log entry 3). -/
opaque hssSign (report : List Byte) (i : Nat) : Byte

/-- The import public key, 97 bytes, of the key pair with this serial number (R368, R439; DESIGN CHOICE, log entry 3). -/
opaque importPub (pair : Nat) (i : Nat) : Byte

/-- Byte `i` of the hash of the security controller's firmware (R439; DESIGN CHOICE, log entry 3). -/
opaque fwHash (i : Nat) : Byte

/-- Byte `i` of the device identity's HSS public key (R439; DESIGN CHOICE, log entry 3). -/
opaque idPub (i : Nat) : Byte

/-- The key that a wrapped blob holds under the import pair with this serial number, or none where the blob does not unwrap
(R368; DESIGN CHOICE, log entry 3). -/
opaque unwrapKey (pair : Nat) (blob : List Byte) : Option (List Byte)

/-- Byte `i` of the sealed image, or of the header of images, that the device wrote with a serial number: AES-256-GCM under a context's seal key,
in a layout of the device's own (R379; DESIGN CHOICE, log entry 65). -/
opaque imageByte (serial i : Nat) : Byte

/-- The result of a rescale that overflows under `.ieee` between integers of one width, for which R84 has no row (DESIGN CHOICE, log
entry 4): from the width and the exact value. -/
opaque rescaleOverflow (bits : Nat) (x : Int) : Nat

/-- A value that the spec leaves open after an operation that goes on, by a serial number that the machine advances (DESIGN CHOICE, log
entry 5). -/
opaque freeValue (n : Nat) : Word64

/-- The island of the 544 that holds a block (R444 gives no map; DESIGN CHOICE, log entry 6). -/
opaque islandOf (die block : Nat) : Fin 544

/-- The island that serves a function of a die, by its bit of the ready map (R444 gives no map; DESIGN CHOICE, log entry 6). -/
opaque islandServing (die bit : Nat) : Fin 544

/-- SUMMARY of the event of a frequency step with its cause, temperature or power (R445 gives no code; DESIGN CHOICE, log entry 5). -/
opaque stepCause (thermal : Bool) : Word64

/-- The slice of its die, of 16, that holds a line (R339 gives no map of addresses to slices; DESIGN CHOICE, log entry 137). -/
opaque sliceIn (line : Nat) : BitVec 4

/-- QID in the markers of the queue behind outlet port `port` of a sequencer, for which R246 names no value (DESIGN CHOICE, log entry 8). -/
opaque outletQid (sq port : Nat) : Word32

end Sys2Proof.Config
end

