-- ==== Sys2Proof/Machine/Formats.lean ====
section
/-!
DEFINITION. Number formats, scales and rounding (R64 to R85): reading a lane as an exact value, rounding an exact value into a
format, overflow, the scale word, signed digits, and the lanes of a payload or row.
-/

namespace Sys2Proof

/-! ### Rounding -/

/-- The rounding modes of R82. -/
inductive RoundMode where
  | rne | rz | rdn | rup | rna
  deriving DecidableEq, Repr

/-- The mode of an RND code (R82); codes 5 to 7 are rejected before they are read (R57, R90). -/
def RoundMode.ofCode (r : Nat) : RoundMode :=
  match r with
  | 0 => .rne
  | 1 => .rz
  | 2 => .rdn
  | 3 => .rup
  | _ => .rna

/-- The integer magnitude that the value `n / d`, negative when `neg`, rounds to (R82). `d` is positive. -/
def roundMag (mode : RoundMode) (neg : Bool) (n d : Nat) : Nat :=
  let q := n / d
  let r := n % d
  let up : Bool := match mode with
    | .rne => if 2 * r = d then q % 2 == 1 else decide (d < 2 * r)
    | .rz => false
    | .rdn => neg && decide (0 < r)
    | .rup => !neg && decide (0 < r)
    | .rna => decide (d ≤ 2 * r)
  if up then q + 1 else q

/-- `n / d × 2^e` as a quotient of natural numbers. -/
def ratio (n d : Nat) (e : Int) : Nat × Nat :=
  if 0 ≤ e then (n * 2 ^ e.toNat, d) else (n, d * 2 ^ (-e).toNat)

/-- An exact value: NaN, an infinity, or `(−1)^neg × m × 2^e`; a zero keeps its sign. -/
inductive FVal where
  | nan
  | inf (neg : Bool)
  | fin (neg : Bool) (m : Nat) (e : Int)
  deriving DecidableEq, Repr

/-- An integer as an exact value. -/
def FVal.ofInt (x : Int) : FVal := .fin (decide (x < 0)) x.natAbs 0

/-- A value times 2^k, exactly. -/
def FVal.shift (k : Int) : FVal → FVal
  | .fin s m e => .fin s m (e + k)
  | x => x

/-! ### Floating-point formats -/

/-- The fields of a floating-point format (R69). `ieee` is false for `e4m3`, which has no infinities (R71). -/
structure FloatFmt where
  ebits : Nat
  fbits : Nat
  bias  : Nat
  ieee  : Bool
  deriving DecidableEq, Repr

def FloatFmt.f32 : FloatFmt := ⟨8, 23, 127, true⟩
def FloatFmt.f16 : FloatFmt := ⟨5, 10, 15, true⟩
def FloatFmt.bf16 : FloatFmt := ⟨8, 7, 127, true⟩
def FloatFmt.e4m3 : FloatFmt := ⟨4, 3, 7, false⟩
def FloatFmt.e5m2 : FloatFmt := ⟨5, 2, 15, true⟩

/-- The sign bit's weight. -/
def FloatFmt.signBit (f : FloatFmt) : Nat := 2 ^ (f.ebits + f.fbits)

/-- The canonical NaN (R72). -/
def FloatFmt.nanCode (f : FloatFmt) : Nat :=
  if f.ieee then (2 ^ f.ebits - 1) * 2 ^ f.fbits + 2 ^ (f.fbits - 1) else 2 ^ (f.ebits + f.fbits) - 1

/-- The code of an infinity (R70); `e4m3` has none and its NaN stands in its place (R84). -/
def FloatFmt.infCode (f : FloatFmt) (neg : Bool) : Nat :=
  if f.ieee then (2 ^ f.ebits - 1) * 2 ^ f.fbits + (if neg then f.signBit else 0) else f.nanCode

/-- The exponent field and significand of the largest finite value (R69, R71). -/
def FloatFmt.top (f : FloatFmt) : Nat × Nat :=
  if f.ieee then (2 ^ f.ebits - 2, 2 ^ (f.fbits + 1) - 1) else (2 ^ f.ebits - 1, 2 ^ (f.fbits + 1) - 2)

/-- The code of the largest finite value (R69). -/
def FloatFmt.maxCode (f : FloatFmt) (neg : Bool) : Nat :=
  f.top.1 * 2 ^ f.fbits + (f.top.2 - 2 ^ f.fbits) + (if neg then f.signBit else 0)

/-- The exact value of a code (R69 to R71, R73). -/
def FloatFmt.read (f : FloatFmt) (c : Nat) : FVal :=
  let s := decide (c / f.signBit % 2 = 1)
  let e := c / 2 ^ f.fbits % 2 ^ f.ebits
  let m := c % 2 ^ f.fbits
  if f.ieee && e == 2 ^ f.ebits - 1 then
    if m = 0 then .inf s else .nan
  else if !f.ieee && e == 2 ^ f.ebits - 1 && m == 2 ^ f.fbits - 1 then .nan
  else if e = 0 then .fin s m (1 - (f.bias : Int) - f.fbits)
  else .fin s (2 ^ f.fbits + m) ((e : Int) - f.bias - f.fbits)

/-- The least integer exponent `l` with `n / d < 2^(l+1)`, for positive `n` and `d`. -/
def floorLog (n d : Nat) : Int :=
  let l : Int := (Nat.log2 n : Int) - Nat.log2 d
  let (a, b) := ratio d 1 l
  if a ≤ n * b then l else l - 1

/-- A rounded result: its code, and whether it overflowed under R83. -/
structure Rounded where
  code : Nat
  tooBig : Bool
  deriving DecidableEq, Repr

/-- The code of the finite value `k × 2^q`, where `k` is a rounded significand (R69). -/
def FloatFmt.codeOf (f : FloatFmt) (neg : Bool) (k : Nat) (q : Int) : Nat :=
  let sign := if neg then f.signBit else 0
  if k < 2 ^ f.fbits then sign + k
  else if k = 2 ^ (f.fbits + 1) then sign + (q + 1 + f.fbits + f.bias).toNat * 2 ^ f.fbits
  else sign + (q + f.fbits + f.bias).toNat * 2 ^ f.fbits + (k - 2 ^ f.fbits)

/-- The value `n / d × 2^e` rounded into a format (R82, R83); the code of an overflowed result is left to R84. -/
def FloatFmt.round (f : FloatFmt) (mode : RoundMode) (neg : Bool) (n d : Nat) (e : Int) : Rounded :=
  if n = 0 then ⟨if neg then f.signBit else 0, false⟩
  else
    let (a, b) := ratio n d e
    let q := max (floorLog a b) (1 - (f.bias : Int)) - f.fbits
    let (c, g) := ratio a b (-q)
    let k := roundMag mode neg c g
    let qTop := (f.top.1 : Int) - f.bias - f.fbits
    if qTop < q ∨ (q = qTop ∧ f.top.2 < k) then ⟨f.maxCode neg, true⟩
    else ⟨f.codeOf neg k q, false⟩

/-- The result of a conversion or rounding operation: its code; `sat`, the flag FLAGS.SAT; `over`, the condition of the SAT
counter of R93; `nan`, a NaN source; `zero`, a finite non-zero source with the result zero (FTZ). -/
structure Conv where
  code : Nat
  sat  : Bool
  tooBig : Bool
  nan  : Bool
  zero : Bool
  deriving DecidableEq, Repr

/-- Whether the IEEE 754 result of an overflow is an infinity, by rounding mode (R84). -/
def overflowsToInf (mode : RoundMode) (neg : Bool) : Bool :=
  match mode with
  | .rne | .rna => true
  | .rz => false
  | .rdn => neg
  | .rup => !neg

/-- An exact value into a float format under a rounding and an overflow mode (R82 to R84). -/
def FloatFmt.conv (f : FloatFmt) (mode : RoundMode) (ieee : Bool) : FVal → Conv
  | .nan => ⟨f.nanCode, false, false, true, false⟩
  | .inf s => if ieee then ⟨f.infCode s, false, !f.ieee, false, false⟩ else ⟨f.maxCode s, true, true, false, false⟩
  | .fin s m e =>
    let r := f.round mode s m 1 e
    if r.tooBig then
      if ieee then ⟨if overflowsToInf mode s then f.infCode s else f.maxCode s, false, true, false, false⟩
      else ⟨f.maxCode s, true, true, false, false⟩
    else ⟨r.code, false, false, false, decide (m ≠ 0) && decide (r.code % f.signBit = 0)⟩

/-! ### Integers -/

/-- The two's-complement value of the low `w` bits of a code (R74). -/
def toSigned (w c : Nat) : Int :=
  if 2 ^ (w - 1) ≤ c % 2 ^ w then (c % 2 ^ w : Nat) - (2 ^ w : Nat) else (c % 2 ^ w : Nat)

/-- The low `w` bits of an integer, as a code (R74). -/
def ofSigned (w : Nat) (x : Int) : Nat := (x % (2 ^ w : Nat)).toNat

/-- The least and greatest values of a `w`-bit integer (R74). -/
def intMin (w : Nat) : Int := -(2 ^ (w - 1) : Nat)
def intMax (w : Nat) : Int := (2 ^ (w - 1) : Nat) - 1

/-- Saturation to `w` bits and whether it clamped (R74). -/
def clampInt (w : Nat) (x : Int) : Int × Bool :=
  if x < intMin w then (intMin w, true) else if intMax w < x then (intMax w, true) else (x, false)

/-- The integer an exact finite value rounds to (R82). -/
def roundInt (mode : RoundMode) (s : Bool) (m : Nat) (e : Int) : Int :=
  let (a, b) := ratio m 1 e
  let k := roundMag mode s a b
  if s then -(k : Int) else k

/-- An exact value into a `w`-bit integer (R84). `src` is the width of an integer source, none for a float source
(DESIGN CHOICE, log entry 4). -/
def intConv (w : Nat) (src : Option Nat) (mode : RoundMode) (ieee : Bool) : FVal → Conv
  | .nan => ⟨if ieee then ofSigned w (intMin w) else 0, false, false, true, false⟩
  | .inf s =>
    if ieee then ⟨ofSigned w (intMin w), false, true, false, false⟩
    else ⟨ofSigned w (if s then intMin w else intMax w), true, true, false, false⟩
  | .fin s m e =>
    let x := roundInt mode s m e
    let (y, tooBig) := clampInt w x
    if tooBig then
      if ieee then
        match src with
        | none => ⟨ofSigned w (intMin w), false, true, false, false⟩
        | some b => ⟨if w < b then ofSigned w x else Config.rescaleOverflow w x % 2 ^ w, false, true, false, false⟩
      else ⟨ofSigned w y, true, true, false, false⟩
    else ⟨ofSigned w x, false, false, false, decide (m ≠ 0) && decide (x = 0)⟩

/-! ### Formats on links -/

/-- The format of a link-format code (R64); codes 0xE and 0xF are reserved. -/
def Fmt.ofCode (c : Nat) : Option Fmt :=
  match c with
  | 0x0 => some .raw
  | 0x1 => some .i8
  | 0x2 => some .i32
  | 0x3 => some .i64
  | 0x4 => some .f32
  | 0x5 => some .bf16
  | 0x6 => some .f16
  | 0x7 => some .e4m3
  | 0x8 => some .e5m2
  | 0x9 => some .sd2
  | 0xA => some .sd3
  | 0xB => some .sd4
  | 0xC => some .sdp
  | 0xD => some .kv
  | _ => none

/-- The float format of a link format, if it is one. -/
def Fmt.float : Fmt → Option FloatFmt
  | .f32 => some .f32
  | .bf16 => some .bf16
  | .f16 => some .f16
  | .e4m3 => some .e4m3
  | .e5m2 => some .e5m2
  | _ => none

/-- The width of an integer link format, if it is one. -/
def Fmt.int : Fmt → Option Nat
  | .i8 => some 8
  | .i32 => some 32
  | .i64 => some 64
  | _ => none

/-- The signed-digit formats (R75). -/
def Fmt.isSd : Fmt → Bool
  | .sd2 | .sd3 | .sd4 | .sdp => true
  | _ => false

/-- The digits a signed-digit link carries at most: 2 to 4 by name, and 8 for `sdp` (R64). -/
def Fmt.sdLen : Fmt → Nat
  | .sd2 => 2
  | .sd3 => 3
  | .sd4 => 4
  | _ => 8

/-- Bits per lane (R65, R67); `raw` and `kv` are read as 64-bit lanes where a function reads lanes of them (R167). -/
def Fmt.laneBits : Fmt → Nat
  | .i8 | .e4m3 | .e5m2 => 8
  | .bf16 | .f16 => 16
  | .i32 | .f32 => 32
  | .sd2 | .sd3 | .sd4 | .sdp => 3
  | .i64 | .raw | .kv => 64

/-- Lanes of a record (R65). -/
def Fmt.recLanes (f : Fmt) : Nat := 512 / f.laneBits

/-- Lanes of a vector row (R67). -/
def Fmt.rowLanes (f : Fmt) : Nat := 768 / f.laneBits

/-- Whether a vector of this format carries a meaningful scale word (R64). -/
def Fmt.scaled : Fmt → Bool
  | .i8 | .e4m3 | .e5m2 | .sd2 | .sd3 | .sd4 | .sdp => true
  | _ => false

/-- The exact value of a lane code; integers and floats alike, other formats as unsigned bits. -/
def Fmt.read (f : Fmt) (c : Nat) : FVal :=
  match f.float with
  | some g => g.read c
  | none =>
    match f.int with
    | some w => .ofInt (toSigned w c)
    | none => .fin false c 0

/-- Convert of R91 for one lane: the value times 2^shift, exactly, and one rounding into the target. -/
def convertLane (src dst : Fmt) (mode : RoundMode) (ieee : Bool) (x : FVal) : Conv :=
  match dst.float with
  | some g => g.conv mode ieee x
  | none =>
    match dst.int with
    | some w => intConv w src.int mode ieee x
    | none => match x with
      | .fin _ m _ => ⟨m, false, false, false, false⟩
      | _ => ⟨0, false, false, false, false⟩

/-! ### Lanes -/

/-- Lane `i` of `w` bits (R65). -/
def laneAt (w : Nat) (p : Nat) (i : Nat) : Nat := p / 2 ^ (w * i) % 2 ^ w

/-- The first `n` lanes of `w` bits. -/
def lanes (w n p : Nat) : List Nat := (List.range n).map (laneAt w p)

/-- Lanes of `w` bits laid side by side, lane 0 lowest. -/
def packLanes (w : Nat) : List Nat → Nat
  | [] => 0
  | x :: xs => x % 2 ^ w + 2 ^ w * packLanes w xs

/-- A 512-bit payload of lanes. -/
def payloadOf (w : Nat) (xs : List Nat) : Payload := BitVec.ofNat 512 (packLanes w xs)

/-! ### Exact arithmetic -/

/-- The integer `m × 2^(e − lo)` of a finite value, for `lo ≤ e`. -/
def alignInt (s : Bool) (m : Nat) (e lo : Int) : Int :=
  let k : Int := m * 2 ^ (e - lo).toNat
  if s then -k else k

/-- The exact sum (R168). An exact zero is −0 only when both operands are −0, or when it comes of cancellation under `.rdn`
(IEEE 754; PRESUMED, log entry 7). -/
def FVal.add (mode : RoundMode) : FVal → FVal → FVal
  | .nan, _ => .nan
  | _, .nan => .nan
  | .inf s, .inf t => if s = t then .inf s else .nan
  | .inf s, _ => .inf s
  | _, .inf t => .inf t
  | .fin s m e, .fin t n f =>
    let lo := min e f
    let x := alignInt s m e lo + alignInt t n f lo
    if x = 0 then .fin (if m = 0 ∧ n = 0 ∧ s = t then s else decide (mode = .rdn)) 0 lo
    else .fin (decide (x < 0)) x.natAbs lo

/-- The exact product; 0 × ∞ is NaN (R168). -/
def FVal.mul : FVal → FVal → FVal
  | .nan, _ => .nan
  | _, .nan => .nan
  | .inf s, .inf t => .inf (s != t)
  | .inf s, .fin t n _ => if n = 0 then .nan else .inf (s != t)
  | .fin s m _, .inf t => if m = 0 then .nan else .inf (s != t)
  | .fin s m e, .fin t n f => .fin (s != t) (m * n) (e + f)

/-- The value with its sign inverted. -/
def FVal.neg : FVal → FVal
  | .nan => .nan
  | .inf s => .inf (!s)
  | .fin s m e => .fin (!s) m e

/-- The value with its sign cleared. -/
def FVal.abs : FVal → FVal
  | .nan => .nan
  | .inf _ => .inf false
  | .fin _ m e => .fin false m e

/-- x < y over the numbers and infinities; −0 and +0 compare equal; false for a NaN (R169). -/
def FVal.lt : FVal → FVal → Bool
  | .nan, _ => false
  | _, .nan => false
  | .inf s, .inf t => s && !t
  | .inf s, .fin .. => s
  | .fin .., .inf t => !t
  | .fin s m e, .fin t n f =>
    let lo := min e f
    decide (alignInt s m e lo < alignInt t n f lo)

/-- x = y over the numbers and infinities (R169). -/
def FVal.eq : FVal → FVal → Bool
  | .nan, _ => false
  | _, .nan => false
  | .inf s, .inf t => s == t
  | .inf _, .fin .. => false
  | .fin .., .inf _ => false
  | .fin s m e, .fin t n f =>
    let lo := min e f
    decide (alignInt s m e lo = alignInt t n f lo)

/-- Whether the value is a NaN. -/
def FVal.isNan : FVal → Bool
  | .nan => true
  | _ => false

/-- Whether the value is an infinity. -/
def FVal.isInf : FVal → Bool
  | .inf _ => true
  | _ => false

/-- The sign of a value; false for a NaN. -/
def FVal.signed : FVal → Bool
  | .nan => false
  | .inf s => s
  | .fin s _ _ => s

/-- x is below y in the order of `min` and `max`: −0 below +0 (R168). -/
def FVal.below (x y : FVal) : Bool := x.lt y || (x.eq y && x.signed && !y.signed)

/-! ### The scale word -/

/-- What a scale word says (R80): zero, poison, or the value `m × 2^e`. -/
inductive ScaleVal where
  | zero
  | poison
  | value (m : Nat) (e : Int)
  deriving DecidableEq, Repr

/-- The signed exponent of a scale word. -/
def scaleE (w : Nat) : Int := toSigned 8 (w / 2 ^ 24)

/-- A scale word read under R80. -/
def readScale (w : Nat) : ScaleVal :=
  if scaleE w = -128 then (if w % 2 ^ 24 = 0 then .zero else .poison)
  else .value (2 ^ 24 + w % 2 ^ 24) (scaleE w - 24)

/-- The poison scale word the device writes (R403). -/
def poisonScale : Nat := 0x80000001

/-- The zero scale word (R80). -/
def zeroScale : Nat := 0x80000000

/-- A scale word of a given exponent and fraction, or poison where the exponent leaves −127 to 127 (R91, R186). -/
def scaleOf (e : Int) (m : Nat) : Nat :=
  if e < -127 ∨ 127 < e then poisonScale else ofSigned 8 e * 2 ^ 24 + m % 2 ^ 24

/-- The value of a scale as an exact value; NaN for poison. -/
def ScaleVal.toF : ScaleVal → FVal
  | .zero => .fin false 0 0
  | .poison => .nan
  | .value m e => .fin false m e

/-- The product of two scale words, rounded to the scale format under `.rne` (R186); zero wins over a number, and poison over
all but a zero. -/
def scaleMul (a b : Nat) : Nat :=
  match readScale a, readScale b with
  | .zero, _ => zeroScale
  | _, .zero => zeroScale
  | .poison, _ => poisonScale
  | _, .poison => poisonScale
  | .value m e, .value n f =>
    let k := roundMag .rne false (m * n) (2 ^ (if m * n < 2 ^ 49 then 24 else 25))
    let up : Int := if m * n < 2 ^ 49 then 24 else 25
    if k = 2 ^ 25 then scaleOf (e + f + up + 25) 0
    else scaleOf (e + f + up + 24) (k - 2 ^ 24)

/-! ### Signed digits -/

/-- The digit of a code (R75); `none` is the cut code. -/
def digitOf (c : Nat) : Option Int :=
  match c % 8 with
  | 0 => some 0
  | 1 => some 1
  | 2 => some 2
  | 3 => some 3
  | 4 => none
  | 5 => some (-3)
  | 6 => some (-2)
  | _ => some (-1)

/-- The code of a digit (R75). -/
def digitCode (d : Int) : Nat := (d % 8).toNat

/-- The `k` sign-magnitude digits of N, most significant first (R78). -/
def sdDigits (k : Nat) (n : Int) : List Int :=
  (List.range k).map fun i =>
    let d : Int := (n.natAbs / 4 ^ (k - 1 - i) % 4 : Nat)
    if n < 0 then -d else d

/-- An exact value into `k` signed digits (R85): N, and the flags of R84. -/
def sdConv (k : Nat) (mode : RoundMode) (x : FVal) : Int × Conv :=
  let lim : Int := (4 ^ k : Nat) - 1
  match x with
  | .nan => (0, ⟨0, false, false, true, false⟩)
  | .inf s => (if s then -lim else lim, ⟨0, true, true, false, false⟩)
  | .fin s m e =>
    let n := roundInt mode s m (e + 2 * k)
    if n < -lim then (-lim, ⟨0, true, true, false, false⟩)
    else if lim < n then (lim, ⟨0, true, true, false, false⟩)
    else (n, ⟨0, false, false, false, decide (m ≠ 0) && decide (n = 0)⟩)

/-- The value of a lane's digits times 4^k, for the digits d1 to dk at hand; a cut ends the lane (R76). -/
def sdValue (k : Nat) : List Nat → Int
  | [] => 0
  | c :: cs =>
    match k, digitOf c with
    | 0, _ => 0
    | _, none => 0
    | k + 1, some d => d * (4 ^ k : Nat) + sdValue k cs

/-! ### Hashes and checks -/

/-- KH64 of a key with a salt, before the top bits are taken (R173, R218, R241). -/
def kh64 (key salt : Nat) : Nat := (key * 0x9E3779B97F4A7C15 % 2 ^ 64) ^^^ salt

/-- One bit of the reflected Castagnoli CRC (R138). -/
def crcBit (c : Nat) (b : Bool) : Nat :=
  if (decide (c % 2 = 1)) != b then (c / 2) ^^^ 0x82F63B78 else c / 2

/-- `n` bits of a number, least significant first, folded into a CRC (R138). -/
def crcBits : Nat → Nat → Nat → Nat
  | 0, c, _ => c
  | n + 1, c, x => crcBits n (crcBit c (decide (x % 2 = 1))) (x / 2)

/-- A byte string folded into a CRC (R138). -/
def crcBytes (c : Nat) : List Byte → Nat
  | [] => c
  | b :: bs => crcBytes (crcBits 8 c b.toNat) bs

/-- CRC-32C with its initial and final inversion (R261). -/
def crc32c (bs : List Byte) : Nat := crcBytes 0xFFFFFFFF bs ^^^ 0xFFFFFFFF

/-- min(x, 2^w − 1) (R254, R95). -/
def satNat (w x : Nat) : Nat := min x (2 ^ w - 1)

end Sys2Proof
end

