-- ==== Sys2Proof/Machine/Crypto.lean ====
section
/-!
DEFINITION. The ciphers and hashes that the spec names by their standards: AES-256-XTS (R326), SHA-256 (R370) and the verification of LMS
signatures (R265, R371).
-/

namespace Sys2Proof

/-- The big-endian word of four bytes. -/
def beNat (bs : List Byte) : Nat := bytesToNat bs.reverse

/-- A number as `n` big-endian bytes. -/
def natToBe (n v : Nat) : List Byte := (natToBytes n v).reverse

/-! ### Keys (R367) -/

/-- A key of the security controller: the one that it made itself with a serial number, or the bytes that an import gave. -/
inductive Key where
  | made  (n : Nat)
  | given (bs : List Byte)
  deriving DecidableEq, Repr

/-- The bytes of a key (DESIGN CHOICE, log entry 2). -/
def Key.bytes : Key → List Byte
  | .made n => (List.range 64).map (Config.madeKey n)
  | .given bs => bs

/-! ### AES-256 (PRESUMED, log entry 2) -/

/-- A byte times x in the field of AES. -/
def aesX (b : Byte) : Byte := (b <<< 1) ^^^ (if b.getLsbD 7 then 0x1B else 0)

/-- The product of two bytes in the field of AES. -/
def aesMul (a b : Byte) : Byte :=
  ((List.range 8).foldl (fun (r : Byte × Byte) i => (if b.getLsbD i then r.1 ^^^ r.2 else r.1, aesX r.2)) (0, a)).1

/-- The inverse of a byte in the field of AES: its power 254. -/
def aesInv (a : Byte) : Byte :=
  ((List.range 7).foldl (fun (r : Byte × Byte) _ => let q := aesMul r.2 r.2; (aesMul r.1 q, q)) (1, a)).1

/-- The substitution of a byte, and its inverse. -/
def aesSub (a : Byte) : Byte :=
  let b := aesInv a
  b ^^^ b.rotateLeft 1 ^^^ b.rotateLeft 2 ^^^ b.rotateLeft 3 ^^^ b.rotateLeft 4 ^^^ 0x63

def aesUnsub (c : Byte) : Byte := aesInv (c.rotateLeft 1 ^^^ c.rotateLeft 3 ^^^ c.rotateLeft 6 ^^^ 0x05)

/-- Two byte strings, byte by byte. -/
def xorBytes (a b : List Byte) : List Byte := List.zipWith (· ^^^ ·) a b

/-- Word `i` of a key schedule from the words before it, the latest first. -/
def aesNextWord (i : Nat) (ws : List (List Byte)) : List Byte :=
  let t := ws.headD []
  let rcon : Byte := (List.range (i / 8 - 1)).foldl (fun b _ => aesX b) 1
  let u := if i % 8 = 0 then xorBytes ((t.drop 1 ++ t.take 1).map aesSub) [rcon, 0, 0, 0] else if i % 8 = 4 then t.map aesSub else t
  xorBytes (ws.getD 7 []) u

/-- The 15 round keys of a 32-byte key. -/
def aesRoundKeys (key : List Byte) : List (List Byte) :=
  let start := (List.range 8).map (fun i => (key.drop (4 * i)).take 4)
  let ws := ((List.range 52).foldl (fun ws i => aesNextWord (i + 8) ws :: ws) start.reverse).reverse
  (List.range 15).map (fun i => ((ws.drop (4 * i)).take 4).flatten)

/-- The bytes of a block moved by rows: byte 4c + r comes from column c + k · r. -/
def aesShift (k : Nat) (b : List Byte) : List Byte := (List.range 16).map (fun i => b.getD ((i + 4 * k * (i % 4)) % 16) 0)

/-- The columns of a block times the circulant matrix with first row `m`. -/
def aesMix (m : List Byte) (b : List Byte) : List Byte :=
  (List.range 16).map (fun i => (List.range 4).foldl (fun x j => x ^^^ aesMul (m.getD ((j + 4 - i % 4) % 4) 0) (b.getD (i / 4 * 4 + j) 0)) 0)

/-- A block enciphered under a 32-byte key. -/
def aesEncrypt (key block : List Byte) : List Byte :=
  let ks := aesRoundKeys key
  let round (b k : List Byte) : List Byte := xorBytes (aesMix [2, 3, 1, 1] (aesShift 1 (b.map aesSub))) k
  xorBytes (aesShift 1 ((((ks.drop 1).take 13).foldl round (xorBytes block (ks.headD []))).map aesSub)) (ks.getD 14 [])

/-- A block deciphered under a 32-byte key. -/
def aesDecrypt (key block : List Byte) : List Byte :=
  let ks := aesRoundKeys key
  let round (b k : List Byte) : List Byte := aesMix [14, 11, 13, 9] (xorBytes ((aesShift 3 b).map aesUnsub) k)
  xorBytes ((aesShift 3 ((((ks.drop 1).take 13).reverse).foldl round (xorBytes block (ks.getD 14 [])))).map aesUnsub) (ks.headD [])

/-! ### XTS (R326; PRESUMED, log entry 2) -/

/-- The mask of block `j` of a data unit: its tweak enciphered, times α^j. -/
def xtsMask (key : List Byte) (tweak j : Nat) : List Byte :=
  let t := bytesToNat (aesEncrypt ((key.drop 32).take 32) (natToBytes 16 tweak))
  let alpha (x : Nat) : Nat := (2 * x % 2 ^ 128) ^^^ (if 2 ^ 127 ≤ x then 0x87 else 0)
  natToBytes 16 ((List.range j).foldl (fun x _ => alpha x) t)

/-- Block `j` of a line enciphered, and deciphered, under a 64-byte key. -/
def xtsEncrypt (key : List Byte) (tweak j : Nat) (block : List Byte) : List Byte :=
  let m := xtsMask key tweak j
  xorBytes (aesEncrypt (key.take 32) (xorBytes block m)) m

def xtsDecrypt (key : List Byte) (tweak j : Nat) (block : List Byte) : List Byte :=
  let m := xtsMask key tweak j
  xorBytes (aesDecrypt (key.take 32) (xorBytes block m)) m

/-- The 16 bytes of the block at a physical address, as they read under key `kr` where they were written as `plain` under key `kw`
(R326). -/
def readUnder (kw kr : Key) (pa : Nat) (plain : List Byte) : List Byte :=
  xtsDecrypt kr.bytes (pa / 64) (pa / 16 % 4) (xtsEncrypt kw.bytes (pa / 64) (pa / 16 % 4) plain)

/-! ### SHA-256 (PRESUMED, log entry 3) -/

/-- The round constants. -/
def shaK : List Word32 :=
  [0x428A2F98, 0x71374491, 0xB5C0FBCF, 0xE9B5DBA5, 0x3956C25B, 0x59F111F1, 0x923F82A4, 0xAB1C5ED5]
  ++ [0xD807AA98, 0x12835B01, 0x243185BE, 0x550C7DC3, 0x72BE5D74, 0x80DEB1FE, 0x9BDC06A7, 0xC19BF174]
  ++ [0xE49B69C1, 0xEFBE4786, 0x0FC19DC6, 0x240CA1CC, 0x2DE92C6F, 0x4A7484AA, 0x5CB0A9DC, 0x76F988DA]
  ++ [0x983E5152, 0xA831C66D, 0xB00327C8, 0xBF597FC7, 0xC6E00BF3, 0xD5A79147, 0x06CA6351, 0x14292967]
  ++ [0x27B70A85, 0x2E1B2138, 0x4D2C6DFC, 0x53380D13, 0x650A7354, 0x766A0ABB, 0x81C2C92E, 0x92722C85]
  ++ [0xA2BFE8A1, 0xA81A664B, 0xC24B8B70, 0xC76C51A3, 0xD192E819, 0xD6990624, 0xF40E3585, 0x106AA070]
  ++ [0x19A4C116, 0x1E376C08, 0x2748774C, 0x34B0BCB5, 0x391C0CB3, 0x4ED8AA4A, 0x5B9CCA4F, 0x682E6FF3]
  ++ [0x748F82EE, 0x78A5636F, 0x84C87814, 0x8CC70208, 0x90BEFFFA, 0xA4506CEB, 0xBEF9A3F7, 0xC67178F2]

/-- The hash before the first block. -/
def shaStart : List Word32 :=
  [0x6A09E667, 0xBB67AE85, 0x3C6EF372, 0xA54FF53A, 0x510E527F, 0x9B05688C, 0x1F83D9AB, 0x5BE0CD19]

/-- The 64 words of the schedule of a block. -/
def shaSchedule (block : List Byte) : List Word32 :=
  let start : List Word32 := (List.range 16).map (fun i => BitVec.ofNat 32 (beNat ((block.drop (4 * i)).take 4)))
  let s0 (x : Word32) : Word32 := x.rotateRight 7 ^^^ x.rotateRight 18 ^^^ (x >>> 3)
  let s1 (x : Word32) : Word32 := x.rotateRight 17 ^^^ x.rotateRight 19 ^^^ (x >>> 10)
  ((List.range 48).foldl (fun ws _ => (s1 (ws.getD 1 0) + ws.getD 6 0 + s0 (ws.getD 14 0) + ws.getD 15 0) :: ws) start.reverse).reverse

/-- One round on the eight working words. -/
def shaRound (h : List Word32) (kw : Word32) : List Word32 := match h with
  | [a, b, c, d, e, f, g, x] =>
    let t1 := x + (e.rotateRight 6 ^^^ e.rotateRight 11 ^^^ e.rotateRight 25) + ((e &&& f) ^^^ (~~~e &&& g)) + kw
    let t2 := (a.rotateRight 2 ^^^ a.rotateRight 13 ^^^ a.rotateRight 22) + ((a &&& b) ^^^ (a &&& c) ^^^ (b &&& c))
    [t1 + t2, a, b, c, d + t1, e, f, g]
  | _ => h

/-- The hash after a block. -/
def shaBlock (h : List Word32) (block : List Byte) : List Word32 :=
  List.zipWith (· + ·) h ((List.zipWith (· + ·) shaK (shaSchedule block)).foldl shaRound h)

/-- SHA-256 of a byte string: 32 bytes (PRESUMED, log entry 3). -/
def sha256 (msg : List Byte) : List Byte :=
  let pad := msg ++ [0x80] ++ List.replicate ((119 - msg.length % 64) % 64) 0 ++ natToBe 8 (8 * msg.length)
  let blocks := (List.range (pad.length / 64)).map (fun i => (pad.drop (64 * i)).take 64)
  ((blocks.foldl shaBlock shaStart).map (fun w => natToBe 4 w.toNat)).flatten

/-! ### LMS_SHA256_M32 with LMOTS_SHA256_N32_W8 (R367; PRESUMED, log entry 3) -/

/-- The 34 digits that a one-time signature signs: the hash and its checksum. -/
def lmotsDigits (hash : List Byte) : List Byte := hash ++ natToBe 2 ((hash.map (fun b => 255 - b.toNat)).sum)

/-- The one-time public key that a one-time signature of a message names, from the key's identifier and leaf number. -/
def lmotsKey (id : List Byte) (q : Nat) (msg sig : List Byte) : List Byte :=
  let head := id ++ natToBe 4 q
  let digits := lmotsDigits (sha256 (head ++ [0x81, 0x81] ++ (sig.drop 4).take 32 ++ msg))
  let chain (i : Nat) : List Byte :=
    let a := (digits.getD i 0).toNat
    (List.range (255 - a)).foldl (fun x j => sha256 (head ++ natToBe 2 i ++ natToBe 1 (a + j) ++ x)) ((sig.drop (36 + 32 * i)).take 32)
  sha256 (head ++ [0x80, 0x80] ++ ((List.range 34).map chain).flatten)

/-- The root of the tree above a node, along the path of a signature. -/
def lmsRoot (id : List Byte) : List (List Byte) → Nat → List Byte → List Byte
  | [], _, x => x
  | p :: ps, node, x =>
    lmsRoot id ps (node / 2) (sha256 (id ++ natToBe 4 (node / 2) ++ [0x83, 0x83] ++ (if node % 2 = 1 then p ++ x else x ++ p)))

/-- Whether a signature of a type with tree height `h` over a message verifies under a public key of 56 bytes (PRESUMED, log entry 3). -/
def lmsVerify (h : Nat) (pub msg sig : List Byte) : Bool :=
  let id := (pub.drop 8).take 16
  let q := beNat (sig.take 4)
  let leaf := sha256 (id ++ natToBe 4 (2 ^ h + q) ++ [0x82, 0x82] ++ lmotsKey id q msg ((sig.drop 4).take 1124))
  let path := (List.range h).map (fun i => (sig.drop (1132 + 32 * i)).take 32)
  lmsRoot id path (2 ^ h + q) leaf == (pub.drop 24).take 32

end Sys2Proof
end

