-- ==== Sys2Proof/Machine/State.lean ====
section
/-!
DEFINITION. The state of the module as plain data: memory, sequencers, cells and their queues, regions, contexts, dies with
their engines, schedulers, links and recorders, row managers, the security controller, the host port; and whose turn it is.
-/

namespace Sys2Proof.Machine

/-! ### Queues (R227 to R235) -/

/-- The states of R231, by the codes of R253; FROZEN is the flag `frozen` of the queue. -/
inductive QState where
  | unbound | bound | flowing | shedding | draining | closed
  deriving DecidableEq, Repr

/-- A unit in a queue: in data slots, or in a reserve entry (R230). -/
structure QEntry where
  item : Item
  slot : Bool
  deriving DecidableEq, Repr

/-- A unit that stands behind the spill ring's oldest unit: in ring entries where `kept` is none; else in a reserve entry (`some
false`) or in data slots (`some true`), since the ring was full when it came (R230). -/
structure RingUnit where
  item : Item
  kept : Option Bool
  deriving DecidableEq, Repr

/-- A queue. `entries` are the units that stand ahead of the spill ring's oldest unit, oldest first; `ring` that unit and those behind
it, and `ringHead` its ring entry (R230, R244); `sampC` and `sampPend` the counter and pending list of SAMPLE (R240); `epN`, `epLo`, `epHi` what the
leave marker of the episode reports (R248), and `sampInvs` and `epInvs` the invocations of the units that they count (R395). -/
structure Queue where
  state    : QState
  frozen   : Bool
  entries  : List QEntry
  ring     : List RingUnit
  ringHead : Nat
  qctl     : Word64
  qpar     : Word64
  qring    : Word64
  kv       : Bool
  circ     : Bool
  sampC    : Nat
  sampPend : List (BitVec 28)
  lost     : BitVec 32
  comp     : BitVec 32
  epis     : BitVec 16
  disc     : Bool
  epN      : Nat
  epLo     : BitVec 28
  epHi     : BitVec 28
  sampInvs : List Inv := []
  epInvs   : List Inv := []
  deriving DecidableEq, Repr

/-- An unbound queue with nothing in it. -/
def Queue.reset : Queue :=
  { state := .unbound, frozen := false, entries := [], ring := [], ringHead := 0, qctl := 0, qpar := 0, qring := 0,
    kv := false, circ := false, sampC := 0, sampPend := [], lost := 0, comp := 0, epis := 0, disc := false,
    epN := 0, epLo := 0, epHi := 0 }

/-! ### Cells (R17 to R29, R166, R269) -/

/-- The three queue parameter registers of R233 to R235. -/
structure QCfg where
  qctl  : Word64
  qpar  : Word64
  qring : Word64
  deriving DecidableEq, Repr

/-- The extension word of an EXT switch word (R90). -/
structure ExtWord where
  src   : Fmt
  rnd   : BitVec 3
  ieee  : Bool
  shift : BitVec 8
  deriving DecidableEq, Repr

/-- A switch word with its extension word (R114). -/
structure SwWord where
  typ    : BitVec 2
  inlet  : BitVec 5
  outlet : BitVec 5
  fmt    : Fmt
  ext    : Option ExtWord
  deriving DecidableEq, Repr

/-- A pulse entry (R264): the far end is a region-relative block, a cell and a pulse input. -/
structure PulseEntry where
  po   : BitVec 3
  dx   : BitVec 4
  dy   : BitVec 4
  cell : BitVec 6
  pin  : BitVec 3
  kind : BitVec 2
  deriving DecidableEq, Repr

/-- A link entry (R264) without its source cell, which holds it. -/
structure LinkEntry where
  so   : BitVec 5
  dx   : BitVec 4
  dy   : BitVec 4
  cell : BitVec 6
  dq   : BitVec 3
  deriving DecidableEq, Repr

/-- A configuration of a cell (R263, R269). Position x (a 0, b 1, p 2, c 3) of slot k is entry 4k + x of `bind`: an inlet
queue, or none for a latch. -/
structure CellConfig where
  nodes  : Vector (Option Word32) 8
  bind   : Vector (Option (BitVec 3)) 32
  qcfg   : Vector (Option QCfg) 8
  prm    : Vector Word64 16
  sw     : List SwWord
  pulses : List PulseEntry
  links  : List LinkEntry
  keep   : Bool
  deriving DecidableEq, Repr

/-- The empty configuration (R263). -/
def CellConfig.reset : CellConfig :=
  { nodes := Vector.replicate 8 none, bind := Vector.replicate 32 none, qcfg := Vector.replicate 8 none,
    prm := Vector.replicate 16 0, sw := [], pulses := [], links := [], keep := false }

/-- A gap marker's counts: units lost, and the first and last SEQ. -/
structure GapSum where
  lost  : Nat
  first : BitVec 28
  last  : BitVec 28
  deriving DecidableEq, Repr

/-- A marker a window cell has taken in (R182): after how many DATA records of the segment it came, and whether a marker
already emitted reports it (R183). -/
structure WinMark where
  pos      : Nat
  gap      : GapSum
  reported : Bool
  deriving DecidableEq, Repr

/-- The state a node holds between firings (R166). `idle` is the state after load: for a gate it is FIRST. -/
inductive NodeState where
  | idle
  /-- a gate in state CARRY (R171) -/
  | carry
  /-- the replay buffer, the head's place in it, whether a mark is set at its start, and the last keys (R174, R175) -/
  | join (buf : List Item) (pos : Nat) (mark : Bool) (prevA prevB : Option Word64)
  /-- the window of b, whether it is complete, and what did not fit (R178) -/
  | jwin (buf : List Item) (closed : Bool) (dropped : Option GapSum)
  /-- NEXT, the held records, and the pending gap as its first SEQ and length (R179) -/
  | reorder (next : BitVec 28) (held : List Item) (gap : Option (BitVec 28 × Nat))
  /-- the delay line with the position of its first record, and the markers taken in (R181 to R183) -/
  | window (line : List Item) (base : Nat) (marks : List WinMark)
  /-- the planes of each operand's element so far and whether it has ended (R184) -/
  | online (pa pb pc : List Item) (endA endB endC : Bool)
  /-- the records placed in the open container (R190) -/
  | pack (held : List Item)
  deriving DecidableEq, Repr

/-- An entry of a fretboard (R216). -/
structure FbEntry where
  key      : Word64
  value    : Word32
  wsum     : BitVec 24
  sat      : Bool
  poison   : Bool
  narrowed : Bool
  merged   : Bool
  deriving DecidableEq, Repr

/-- A fretboard: its VALID entries by slot, the loss count with the least and greatest SEQ of the losses (R221, R223), and
the undo log of the running invocation with the loss count it began with (R225). -/
structure Fretboard where
  present  : Bool
  logn     : Nat
  vt       : Bool
  entries  : List (Nat × FbEntry)
  loss     : Word32
  lossSpan : Option (BitVec 28 × BitVec 28)
  undo     : List (Nat × Option FbEntry)
  undoLoss : Option (Word32 × Option (BitVec 28 × BitVec 28))
  undoFull : Bool
  deriving DecidableEq, Repr

/-- The state at power-on (DESIGN CHOICE, log entry 9). -/
def Fretboard.reset : Fretboard :=
  { present := false, logn := 6, vt := false, entries := [], loss := 0, lossSpan := none, undo := [], undoLoss := none,
    undoFull := false }

/-- The accumulators of a matrix cell (R212, R213): C[i][j] at index 8i + j, the checksum row and column, the lanes that
saturated, the flag set, the loss count with the least and greatest SEQ of its markers, whether the accumulators are integers, the
invocation that last cleared them, the one that began the sums, those that have added to them, the latest first, and
the one whose rerun a mismatch asked for (R215). -/
structure MatrixSt where
  acc      : Vector Word32 64
  cr       : Vector Word64 8
  cc       : Vector Word64 8
  sat      : BitVec 64
  flags    : BitVec 8
  loss     : Word32
  lossSpan : Option (BitVec 28 × BitVec 28)
  isInt    : Bool
  cleared  : Option Inv
  began    : Option Inv
  added    : List Inv
  asked    : Option Inv
  deriving DecidableEq, Repr

/-- The state at power-on (DESIGN CHOICE, log entry 9). -/
def MatrixSt.reset : MatrixSt :=
  { acc := Vector.replicate 64 0, cr := Vector.replicate 8 0, cc := Vector.replicate 8 0, sat := 0, flags := 0, loss := 0,
    lossSpan := none, isInt := false, cleared := none, began := none, added := [], asked := none }

/-- An ORDER entry (R307): the release (source, phase, count) of R306. -/
structure OrderEntry where
  src   : CellId
  ph    : BitVec 2
  count : Nat
  deriving DecidableEq, Repr

/-- What a memport read makes of the bytes it reads (R201, R207). -/
inductive ReadForm where
  | record
  /-- UNIT 1: the format of the link, the scale word, PLANES and PLANE, and whether SP24 expands -/
  | row (f : Fmt) (scale : Nat) (planes plane : Nat) (sp24 : Bool)
  | image
  /-- `mgat` of a word, four or eight bytes -/
  | word (w64 : Bool)
  /-- the old value of a `mamo` -/
  | old (w64 : Bool)
  deriving DecidableEq, Repr

/-- What a memport serves with an access, as a fault of it reports (R197, R331, R391): the node, the unit and its IVEC. -/
structure Served where
  slot : BitVec 3
  item : Item
  ivec : Word64
  deriving DecidableEq, Repr

/-- A result that a memport owes, in the order of the records that caused it (R202): a token in its place, or a read in one part, or in
one for each of two pages, with the held bytes that lie over it and the parts that memory has answered, by their offset. -/
structure MpOut where
  slot   : BitVec 3
  item   : Item
  token  : Bool
  form   : ReadForm
  va     : Word64
  ivec   : Word64
  heldBytes   : List (Nat × Byte)
  parts  : Nat
  got    : List (Nat × List Byte)
  poison : Bool
  id     : Nat
  deriving DecidableEq, Repr

/-- The bytes of a read, once every part is known. -/
def MpOut.val (o : MpOut) : Option (List Byte) :=
  if o.got.length < o.parts then none
  else some (match o.got with
    | [(i, x), (j, y)] => if j < i then y ++ x else x ++ y
    | l => l.flatMap Prod.snd)

/-- A held store (R203): its bytes by physical address, the key of their page, the poison mark it writes (R403), the places it takes of
512, and the access that it serves. -/
structure HeldStore where
  bytes  : List (Nat × Byte)
  key    : Key
  poison : Bool
  places : Nat
  va     : Word64
  inv    : Option Inv
  served : Served
  deriving DecidableEq, Repr

/-- An atomic in flight (R204, R205); `id` names the result it fills and `idx` its update index, and `born` is the cycle of its issue (R402). -/
structure AtomReq where
  slot    : BitVec 3
  item    : Item
  va      : Word64
  ivec    : Word64
  inv     : Option Inv
  idx     : Nat
  pa      : Nat
  key     : Key
  op      : BitVec 5
  w64     : Bool
  operand : Word64
  ret     : Bool
  skip    : Bool
  ph      : BitVec 2
  id      : Nat
  slack   : BitVec 12 := 0xFFF
  since   : Nat := 0
  late    : Bool := false
  born    : Nat := 0
  deriving DecidableEq, Repr

/-- A scatter journal (R205): the invocation, the indices whose bit is set with the addresses under the CRC, rising, the index of the
next update of this run, and the addresses that a rerun has brought, in order. -/
structure Journal where
  inv     : Option Inv
  bits    : List (Nat × Word64)
  next    : Nat
  again   : List Word64
  rerun   : Bool
  deriving DecidableEq, Repr

/-- The state of a memport (R202 to R208, R306, R308). `planeN` counts for each node the vectors read since the last segment end;
`lastDue` lists the invocations whose LAST pulse is due, with the pulse output, and whether it waits for their writes; `ordered` is what the
last ORDER was met with, as a fault of its queries reports it. -/
structure Memport where
  outs     : List MpOut
  held     : List HeldStore
  atoms    : List AtomReq
  journals : List Journal
  ph       : BitVec 2
  issued   : Vector Nat 4
  acked    : Vector Nat 4
  isOpen   : Vector Bool 4
  closed   : Vector Nat 4
  acquires : List OrderEntry
  planeN   : Vector Nat 8
  lastDue  : List (Option Inv × BitVec 3 × Bool)
  ordered  : Option Served := none
  deriving DecidableEq, Repr

/-- The state at power-on (DESIGN CHOICE, log entry 9). -/
def Memport.reset : Memport :=
  { outs := [], held := [], atoms := [], journals := [], ph := 0, issued := Vector.replicate 4 0,
    acked := Vector.replicate 4 0, isOpen := Vector.replicate 4 true, closed := Vector.replicate 4 0, acquires := [],
    planeN := Vector.replicate 8 0, lastDue := [] }

/-- A credit count of an `agen` source for one consumer queue (R38): the queue, named by the cell and the pulse output that
sends its FREE, the count, and the tiles started for which no FREE has been taken. -/
structure Credit where
  src   : CellId
  q     : BitVec 3
  count : Int
  owed  : Nat
  deriving DecidableEq, Repr

/-- A tile that an `agen` node has begun: its invocation, and the SEQ, the outer counters and the parameters it began with (R197). -/
structure AgTile where
  inv   : Inv
  seq   : BitVec 28
  outer : List Nat
  par   : Vector Word64 16
  deriving DecidableEq, Repr

/-- The state of an `agen` node (R196, R197): AgSeq and the outer counters of its next tile, the admitted tiles it has not
emitted, the parameters it read at the start of the tile under way (R199), credit counts, a RETUNE to emit, a latch to make at the
next tile, records of the tile under way that have been emitted, and the tiles that have begun and not ended. -/
structure AgenSt where
  seq     : BitVec 28
  outer   : List Nat
  due     : List Inv
  par     : Option (Vector Word64 16)
  credits : List Credit
  retune  : Bool
  relatch : Bool
  pos     : Nat
  begun   : List AgTile
  deriving DecidableEq, Repr

/-- The state at power-on (DESIGN CHOICE, log entry 9). -/
def AgenSt.reset : AgenSt :=
  { seq := 0, outer := [], due := [], par := none, credits := [], retune := false, relatch := false, pos := 0, begun := [] }

/-- A cached translation (R327): the context, the page's virtual base and size code (0 4 KiB, 1 2 MiB, 2 1 GiB), the leaf. -/
structure TlbEntry where
  ctx  : BitVec 9
  base : Nat
  size : BitVec 2
  pte  : Word64
  deriving DecidableEq, Repr

/-- The counts a converter keeps for its tile (R93 to R95): the converter is the EXT path of switch inlet `site`, or the node in
slot `site` − 32. `inv` is the invocation counted. -/
structure ConvCount where
  site   : BitVec 6
  inv    : Option Inv
  tensor : BitVec 16
  sat    : Nat
  ftz    : Nat
  nan    : Nat
  narrow : Nat
  /-- the plane that the element under way has come to, where the converter passes signed digits; 0 before its first -/
  plane  : Nat
  deriving DecidableEq, Repr

/-- A COUNT token on the statistics network (R96). -/
structure CountTok where
  sat    : Nat
  ftz    : Nat
  nan    : Nat
  narrow : Nat
  tiles  : Nat
  tensor : BitVec 16
  deriving DecidableEq, Repr

/-- A cell's fault register (R391). -/
structure FaultReg where
  code    : BitVec 6
  valid   : Bool
  primary : Bool
  skid    : BitVec 4
  norerun : Bool
  access  : BitVec 2
  node    : BitVec 3
  queue   : BitVec 3
  pe      : BitVec 6
  addr    : Word64
  ivec    : Word64
  seq     : BitVec 28
  kind    : BitVec 4
  fseq    : Word32
  inv     : Option Inv
  deriving DecidableEq, Repr

/-- The state at power-on (DESIGN CHOICE, log entry 9). -/
def FaultReg.reset : FaultReg :=
  { code := 0, valid := false, primary := false, skid := 0, norerun := false, access := 0, node := 0, queue := 0, pe := 0,
    addr := 0, ivec := 0, seq := 0, kind := 0, fseq := 0, inv := none }

/-- A pulse received and not yet taken (R28): its kind, the cell that sent it and its output. -/
structure PulseIn where
  kind : BitVec 2
  src  : CellId
  po   : BitVec 3
  deriving DecidableEq, Repr

/-- A cell (R17). Latch x of slot k is entry 4k + x of `latches`, present when not none. `cur` is the invocation each node is
in and `ckpt` the node state after the EOI that began it (R166); `stopped` is set when the freeze line has reached the cell
(R389), `muted` when it has acted on a mute (R375), `flipped` when it has flipped and the region's flip is not complete. `due` lists the results that a node has produced and that wait for a
latch to empty (R164), and `swIn` the units that have arrived on EXT inlets of the switch and wait for their conversion (R91). -/
structure Cell where
  active  : CellConfig
  shadow  : Option CellConfig
  queues  : Vector Queue 8
  latches : Vector (Option Item) 32
  last    : BitVec 3
  pin     : Vector (List PulseIn) 8
  nst     : Vector NodeState 8
  ckpt    : Vector NodeState 8
  cur     : Vector (Option Inv) 8
  due     : Vector (List (BitVec 6 × Item)) 8
  swIn    : List (BitVec 5 × Item)
  fb      : Fretboard
  mx      : MatrixSt
  mp      : Memport
  ag      : Vector AgenSt 8
  pins    : List TlbEntry
  conv    : List ConvCount
  stat    : List CountTok
  fault   : FaultReg
  epoch   : Bool
  flipped : Bool
  stopped : Bool
  muted   : Bool
  deriving DecidableEq, Repr

/-- A cell with nothing loaded; "last issued" is n7 (R22) (DESIGN CHOICE, log entry 9). -/
def Cell.reset : Cell :=
  { active := CellConfig.reset, shadow := none, queues := Vector.replicate 8 Queue.reset,
    latches := Vector.replicate 32 none, last := 7, pin := Vector.replicate 8 [], nst := Vector.replicate 8 .idle,
    ckpt := Vector.replicate 8 .idle, cur := Vector.replicate 8 none, due := Vector.replicate 8 [], swIn := [], fb := Fretboard.reset, mx := MatrixSt.reset,
    mp := Memport.reset, ag := Vector.replicate 8 AgenSt.reset, pins := [], conv := [], stat := [],
    fault := FaultReg.reset, epoch := false, flipped := false, stopped := false, muted := false }

/-! ### Sequencers (R121 to R131) -/

/-- An accumulator (R156, R157): its sixteen lanes, and its attachment as an outlet and a command. -/
structure Acc where
  lanes  : Vector Word64 16
  attach : Option (BitVec 6 × BitVec 4)
  deriving DecidableEq, Repr

/-- The state at power-on (DESIGN CHOICE, log entry 9). -/
def Acc.reset : Acc := { lanes := Vector.replicate 16 0, attach := none }

/-- What a sequencer waits on (R131). The program counter stays at the waiting instruction. -/
inductive SeqWait where
  | none
  | get (d : BitVec 5) (n : BitVec 6) (c : BitVec 4)
  | accr (d : BitVec 5) (n : BitVec 4) (c : BitVec 4)
  | recv (d : BitVec 5) (c : BitVec 6) (n : BitVec 4)
  | barw (a : Word64) (scope : BitVec 3)
  | gwait (n : BitVec 6)
  | cfgchk (d : BitVec 5)
  | cfgabort
  | cfgld
  | put (n : BitVec 6)
  | send (c : BitVec 6)
  | sigv (d : BitVec 5) (a b : Word64)
  | keyh (d : BitVec 5) (a : Word64)
  /-- an access that follows an acquired ORDER (R310), or a 17th outstanding access (R128) -/
  | memory
  /-- an access that has issued, held at a bridge that is not UP (R352, R400) -/
  | bridge
  deriving DecidableEq, Repr

/-- Whether a sequencer runs: no kernel; a control program; stopped by freeze or pre-emption (R131); a handler entered
under R397 while the cells stay FROZEN; after `halt`. -/
inductive SeqRun where
  | idle | running | stopped | handler | halted
  deriving DecidableEq, Repr

/-- A sequencer. KSTAT and ACCSTAT are held as their fields (R124, R125); CTXID and SEQID follow from `ctx` and the
sequencer's number. `held` is the address of an instruction that waits on a request, with the cycle in which it began to wait (R402). -/
structure Seq where
  g        : Vector Word64 32
  p        : Vector Bool 8
  pc       : Word64
  tvec     : Word64
  tcause   : Word64
  tval     : Word64
  tepc     : Word64
  ptag     : Word64
  tscratch : Word64
  cycle    : Word64
  cmode    : Bool
  resumed  : Bool
  intrap   : Bool
  disc     : Bool
  sections : BitVec 8
  ctx      : BitVec 9
  accSat   : BitVec 16
  accPois  : BitVec 16
  accs     : Vector Acc 16
  putSeq   : Vector (BitVec 28) 64
  tmpl     : Vector Tag 64
  backoff  : Vector Word64 64
  inPort   : Vector (Option (CellId × BitVec 3)) 64
  outPort  : Vector (Option Queue) 64
  chanMap  : Vector Word64 64
  sendSeq  : Vector (BitVec 28) 64
  chBack   : Vector Word64 64
  arv      : Option (Word64 × Word32)
  run      : SeqRun
  wait     : SeqWait
  region   : Option Nat
  tlb      : List TlbEntry
  acq      : List OrderEntry
  held     : Option (Word64 × Nat) := none
  deriving DecidableEq, Repr

/-- The template of an inlet at kernel load (R152). -/
def Tag.template : Tag := { kind := 0, flags := 0, domain := 0, weight := 1, nest := 0, seq := 0 }

/-- A sequencer with no kernel (DESIGN CHOICE, log entry 9). -/
def Seq.reset : Seq :=
  { g := Vector.replicate 32 0, p := #v[true, false, false, false, false, false, false, false], pc := 0, tvec := 0,
    tcause := 0, tval := 0, tepc := 0, ptag := 0, tscratch := 0, cycle := 0, cmode := false, resumed := false,
    intrap := false, disc := false, sections := 0, ctx := 0, accSat := 0, accPois := 0,
    accs := Vector.replicate 16 Acc.reset, putSeq := Vector.replicate 64 0, tmpl := Vector.replicate 64 Tag.template,
    backoff := Vector.replicate 64 0, inPort := Vector.replicate 64 none, outPort := Vector.replicate 64 none,
    chanMap := Vector.replicate 64 0, sendSeq := Vector.replicate 64 0, chBack := Vector.replicate 64 0, arv := none,
    run := .idle, wait := .none, region := none, tlb := [], acq := [] }

/-! ### Regions and kernels (R32 to R38, R266, R282 to R289) -/

/-- A node named by logical block, cell and slot (R283). -/
structure NodeRef where
  lx   : BitVec 4
  ly   : BitVec 4
  cell : BitVec 6
  slot : BitVec 3
  deriving DecidableEq, Repr

/-- An admitted tile that has not ended: its serial, its index in the run, and the sinks its EOT has passed (R286). -/
structure OpenTile where
  tile  : Nat
  idx   : Nat
  sinks : List NodeRef
  deriving DecidableEq, Repr

/-- A section (R283, R285): LEFT, the open tiles (INFL of them), END, the tile index, whether it is running and whether a
tile ended in this run. -/
structure Section where
  parent  : BitVec 7
  ord     : BitVec 6
  sources : List NodeRef
  sinks   : List NodeRef
  left    : Nat
  tiles   : List OpenTile
  ended   : Nat
  idx     : Nat
  running : Bool
  serial  : Nat
  deriving DecidableEq, Repr

/-- The states of a group (R287). -/
inductive GState where
  | idle | running | done
  deriving DecidableEq, Repr

/-- A group (R282, R293). -/
structure Group where
  typ    : BitVec 2
  parent : BitVec 7
  ord    : BitVec 6
  state  : GState
  child  : BitVec 6
  runs   : BitVec 16
  tiles  : BitVec 24
  deriving DecidableEq, Repr

/-- The states of a kernel (R266); IMAGE is a launch still queued. -/
inductive KState where
  | loading | resident | active | frozen | saved | retired | refused
  deriving DecidableEq, Repr

/-- STATE of the configuration status (R273). -/
inductive CfgState where
  | empty | loading | staged | crcFail | fetchFault | rejected | flipping
  deriving DecidableEq, Repr

/-- The configuration status of a region (R273). -/
structure CfgStatus where
  state   : CfgState
  epoch   : Bool
  sigFail : Bool
  issued  : BitVec 9
  loaded  : BitVec 9
  fbx     : BitVec 4
  fby     : BitVec 4
  cause   : BitVec 3
  fcell   : BitVec 6
  fnode   : BitVec 3
  deriving DecidableEq, Repr

def CfgStatus.reset : CfgStatus :=
  { state := .empty, epoch := false, sigFail := false, issued := 0, loaded := 0, fbx := 0, fby := 0, cause := 0,
    fcell := 0, fnode := 0 }

/-- A `cfgld` fetch outstanding (R274): its address, and the cycle of its issue (R402). -/
structure Fetch where
  addr : Word64
  born : Nat := 0
  deriving DecidableEq, Repr

/-- One placed block (R268): logical and region-relative placed coordinates. -/
structure Placed where
  lx : BitVec 4
  ly : BitVec 4
  px : BitVec 4
  py : BitVec 4
  deriving DecidableEq, Repr

/-- Where a descriptor lies: at a physical address, or at a virtual address of a context. -/
inductive DescAddr where
  | phys (pa : Word64)
  | virt (ctx : BitVec 9) (va : Word64)
  deriving DecidableEq, Repr

/-- The caller's fields of a launch descriptor (R409), with the logical size, the relocation flag and the lead block of its image's
header (R260). `age` is the `age` of R416. -/
structure Launch where
  desc   : DescAddr
  ctx    : BitVec 9
  part   : BitVec 4
  prio   : BitVec 4
  cmode  : Bool
  slack  : BitVec 12
  image  : Word64
  args   : Word64
  chans  : Word64
  stat   : Word64
  tag    : Word32
  width  : Nat
  height : Nat
  reloc  : Bool
  leadLx : BitVec 4
  leadLy : BitVec 4
  age    : Nat
  deriving DecidableEq, Repr

/-- An entry of the region's statistics table (R98, R99). -/
structure StatEntry where
  tensor : BitVec 16
  sat    : Nat
  ftz    : Nat
  nan    : Nat
  narrow : Nat
  tiles  : Nat
  deriving DecidableEq, Repr

/-- How far a pre-emption of a region is (R373, R378, R380): none; cutting, with the command that asked (none for a decision);
cut complete but the save area faulted. -/
inductive CutState where
  | none
  | cutting (byCommand : Bool)
  | saveFault
  deriving DecidableEq, Repr

/-- A retune of a region in progress (R334 to R336): by token, by cut, or waiting for a flip or an earlier retune. `inval`
names the invalidation that waits for it; `inPlace` the first serial number after it began in a FROZEN region. -/
structure Retune where
  byToken : Bool
  started : Bool
  inval   : Option Nat
  inPlace : Option Nat := none
  deriving DecidableEq, Repr

/-- The save image of a region (R379): the save area's base, where the image lies, the serial numbers of its sealed bytes and of those of the
header that lists it, and the context's seal key under which it was sealed; its cells by region-relative block and cell number, and its lead
sequencer (DESIGN CHOICE, log entry 65). -/
structure SaveImage where
  base  : Word64
  at_   : Word64
  bytes : Nat
  head  : Nat
  key   : Option Key
  cells : List ((BitVec 4 × BitVec 4 × BitVec 6) × Cell)
  seq   : Seq
  deriving DecidableEq, Repr

/-- A region (R34) with the kernel it holds. `x`, `y`, `w`, `h` are its placed rectangle; `lead` its lead sequencer and
`leadX`, `leadY` the die's block coordinates of the lead block. `delivered` says that DELIVER has been applied to the
fault (R397); `discards` counts the discards in a row of an invocation, and `norerun` lists those that cannot be rerun (R393, R395).
`tried` lists the blocks that the `cfgld`s of this configuration have named and `lostLoad` says that the fetch of one has faulted (R274, R278);
`reprobe` says that the next `pgprobe` looks past what is cached (R338); `fcycle` is the cycle in which a freeze began (R390). -/
structure Region where
  serial   : Nat
  die      : BitVec 3
  x        : BitVec 4
  y        : BitVec 4
  w        : Nat
  h        : Nat
  lead     : BitVec 7
  leadX    : BitVec 4
  leadY    : BitVec 4
  launch   : Launch
  kstate   : KState
  map      : List Placed
  cfg      : CfgStatus
  fetches  : List Fetch
  named    : List Placed
  tried    : List (BitVec 4 × BitVec 4)
  lostLoad : Bool
  reprobe  : Bool
  sections : List Section
  groups   : List Group
  statRoot : Option CellId
  toks     : List ((BitVec 4 × BitVec 4) × CountTok)
  rootToks : List CountTok
  stats    : List StatEntry
  slack    : BitVec 12
  late     : Word32
  lateEn   : Bool
  wdog     : Nat
  wdogLog  : Nat
  remLog   : Nat
  freezing : Bool
  summary  : Option Word64
  fclass   : Nat
  delivered : Bool
  retunes  : List Retune
  run      : Nat
  yielded  : Bool
  cut      : CutState
  image    : Option SaveImage
  age      : Nat
  safe     : Bool
  faultAt  : Word64
  discards : List (Inv × Nat)
  norerun  : List Inv
  fcycle   : Nat := 0
  deriving DecidableEq, Repr

/-! ### Contexts and keys (R363 to R372) -/

/-- The states of a context (R363). -/
inductive CState where
  | freed | created | loaded | running | preempting | saved | resuming | frozen | terminating
  deriving DecidableEq, Repr

/-- A context command in progress on the launch engine (R364): its OP, the descriptor, the dies, the save base and the ticket. -/
structure CtxCmd where
  op     : BitVec 8
  desc   : DescAddr
  dies   : BitVec 8
  base   : Word64
  ticket : Option (BitVec 10 × Word64)
  deriving DecidableEq, Repr

/-- A descriptor on an engine queue: where it lies, the ticket that waits for it, and the die that its selector named (none
for a sequencer's `launch`), whose double-words are in `read` as the `launch` read them (R159). -/
structure QDesc where
  desc   : DescAddr
  ticket : Option (BitVec 10 × Word64)
  sel    : Option (BitVec 3)
  read   : List Word64
  deriving DecidableEq, Repr

/-- A context. `froze` is the state it froze in; `pair` the serial number of its import pair (R368); `waiting` the commands
that wait for the one in progress, with their dies (R364). -/
structure Ctx where
  state    : CState
  froze    : CState
  ptroot   : Word64
  reqsig   : Bool
  imgkeyh  : BitVec 9
  pair     : Nat
  saveBase : Option Word64
  cmd      : Option CtxCmd
  waiting  : List (BitVec 3 × QDesc)
  deriving DecidableEq, Repr

/-- The state at power-on (DESIGN CHOICE, log entry 9). -/
def Ctx.reset : Ctx :=
  { state := .freed, froze := .freed, ptroot := 0, reqsig := false, imgkeyh := 0, pair := 0, saveBase := none,
    cmd := none, waiting := [] }

/-- A key slot in use (R367): the context it is bound to (none for slot 0), the kind, the key, and the public
key's bytes for KIND 3. -/
structure KeySlot where
  handle : BitVec 9
  ctx    : Option (BitVec 9)
  kind   : BitVec 3
  key    : Key
  pub    : List Byte
  deriving DecidableEq, Repr

/-- A context's quotas and budgets on one die (R372), and the quotas that a SETBUDGET sets at the next boundary. -/
structure Budget where
  ctx   : BitVec 9
  qfl   : Word32
  qfi   : Word32
  next  : Option (Word32 × Word32)
  fl    : Int
  fi    : Int
  deriving DecidableEq, Repr

/-! ### Partitions and decisions (R413 to R422) -/

/-- A partition of a die: its blocks, contexts, policy and shadow slot, what is pending, and its counts (R414, R417). -/
structure Partition where
  num     : BitVec 4
  mask    : BitVec 256
  ctxs    : List (BitVec 9)
  policy  : Option (List (BitVec 16))
  shadow  : Option (List (BitVec 16))
  pendD   : Bool
  pendP   : Bool
  pendF   : List Nat
  dnum    : Word32
  fbcount : Word32
  deriving DecidableEq, Repr

/-- What a row of the candidate table stands for (R416). -/
inductive RowRef where
  | launch (ctx : BitVec 9)
  | saved (serial : Nat)
  | running (serial : Nat)
  | action (serial : Nat) (code : Nat)
  /-- a row of a context that has been terminated since (R415) -/
  | gone
  deriving DecidableEq, Repr

/-- A row of the candidate table: its sixteen fields and what it stands for. -/
structure Row where
  vals : Vector Word32 16
  ref  : RowRef
  deriving DecidableEq, Repr

/-- A decision in progress (R414 to R421): the snapshot with its free blocks, the program it began with, the program's state (R418),
how it ended (a row, or NONE), and the reserved row of R421: its row in a dispatch decision, its context in a pre-empt decision while
it lacks FITS. -/
structure Decision where
  part     : BitVec 4
  dkind    : Nat
  free     : BitVec 256
  rows     : List Row
  pstate   : Vector Word32 11
  prog     : List (BitVec 16)
  b        : Vector Word32 8
  t        : Bool
  cur      : Option Nat
  sel      : Option Nat
  score    : Word32
  veto     : List Nat
  steps    : Nat
  pc       : Nat
  ended    : Option (Option Nat)
  reserved : Option Nat
  deriving DecidableEq, Repr

/-! ### Engines, links and recorders -/

/-- An invalidation under way (R333): its serial, its descriptor and ticket. -/
structure Inval where
  serial : Nat
  desc   : DescAddr
  ticket : Option (BitVec 10 × Word64)
  deriving DecidableEq, Repr

/-- The states of a link (R352). -/
inductive LinkState where
  | down | training | up | fault
  deriving DecidableEq, Repr

/-- A link of a die: its state, its FEC threshold, the frame retries in a row of a bridge (R351). -/
structure Link where
  state : LinkState
  fec   : BitVec 24
  tries : Nat
  deriving DecidableEq, Repr

/-- The state at power-on (DESIGN CHOICE, log entry 9). -/
def Link.reset : Link := { state := .down, fec := 0, tries := 0 }

/-- A black-box event (R408). -/
structure BbEvent where
  eseq    : Word32
  typ     : BitVec 8
  ctx     : BitVec 9
  summary : Word64
  addr    : Word64
  aux     : Word64
  deriving DecidableEq, Repr

/-- A packet waiting at a crosspoint (R340, R342): its input and output ports, its unit with the source cell and the
destination queue, SLACK and RESID, the harp cycle at which it came to the crosspoint, LATE, whether it is a loss marker of the egress
(R346), and TYPE. A packet is a whole unit, so its last flit is its own. -/
structure Packet where
  inp   : BitVec 9
  outp  : BitVec 9
  src   : CellId
  dst   : CellId
  dq    : BitVec 3
  item  : Item
  slack : BitVec 12
  resid : BitVec 4
  since : Nat
  late  : Bool
  loss  : Bool
  typ   : BitVec 2 := 0
  deriving DecidableEq, Repr

/-- An entry of an egress buffer (R345, R346): its place in the order of arrival, the unit, whether it takes flit entries, and
whether it is, or has taken in, a loss marker of the egress. -/
structure EgEntry where
  stamp : Nat
  item  : Item
  slot  : Bool
  loss  : Bool
  deriving DecidableEq, Repr

/-- A block's egress buffer for one outlet (R345): units emitted and not yet offered to it, each with the number of its emission, and its
entries. -/
structure Egress where
  src     : CellId
  so      : BitVec 5
  dst     : CellId
  dq      : BitVec 3
  waiting : List (Nat × Item)
  entries : List EgEntry
  deriving DecidableEq, Repr

/-- The harp of a die: its cycle count, the waiting packets in order of arrival, the grants (output, input), oldest first, and the cycle
from which an output grants again, for packets and for the circuit that ends there (R342, R347) (DESIGN CHOICE, log entry 14). -/
structure Harp where
  now    : Nat
  wait   : List Packet
  grants : List (BitVec 9 × BitVec 9)
  busy   : List (BitVec 9 × Nat) := []
  cbusy  : List (BitVec 9 × Nat) := []
  deriving DecidableEq, Repr

/-- The states of a connection (R356). -/
inductive ConnState where
  | idle | opening | established | closing | error
  deriving DecidableEq, Repr

/-- A connection (R354 to R360). `fails` counts the failures in a row of its packets; `seen` lists the packets that have been placed,
by message and place, with their bytes (R357); `update` holds the double-words of its status block that an update under way has still to
write, with their places (R360). -/
structure Conn where
  num     : BitVec 12
  state   : ConnState
  ctx     : BitVec 9
  peer    : List Word64
  rudi    : Bool
  tss     : Bool
  keyh    : BitVec 9
  ports   : BitVec 2
  statblk : Word64
  subk    : Nat
  subring : Word64
  subHead : Word32
  defrh   : Word32
  cring   : Word64
  gen     : Word32
  update  : List (Nat × Word64)
  retx    : Word32
  tmo     : Word32
  ovwr    : Word32
  fails   : List (Nat × Nat)
  seen    : List (Nat × Nat × Nat)
  deriving DecidableEq, Repr

/-- A message that a connection has outstanding (R354, R359). -/
structure Msg where
  conn    : BitVec 12
  op      : BitVec 8
  user    : Word32
  bar     : Bool
  lva     : Word64
  roff    : Word64
  rh      : Word32
  len     : Word32
  baraddr : Word64
  notify  : Bool
  ticket  : Option (BitVec 10 × Word64)
  deriving DecidableEq, Repr

/-- A registration (R354): a range of a context's memory under a remote handle. -/
structure Registration where
  handle  : Word32
  ctx     : BitVec 9
  base    : Word64
  len     : Word32
  bar     : Word64
  cring   : Word64
  deriving DecidableEq, Repr

/-- A die. -/
structure Die where
  fuse     : BitVec 256
  ready    : BitVec 256
  service  : Bool
  parts    : List Partition
  launchq  : List (BitVec 9 × List Launch)
  engq     : Vector (List QDesc) 6
  invals   : List Inval
  peerTab  : Option (Word64 × Nat)
  eth      : Vector Link 2
  bridge   : Vector Link 4
  bb       : List BbEvent
  eseq     : Word32
  fseq     : Word32
  tlb      : List TlbEntry
  utlbs    : List (BitVec 8 × List TlbEntry)
  dec      : Option Decision
  rr       : BitVec 4
  budgets  : List Budget
  harp     : Harp
  egress   : List Egress
  conns    : List Conn
  msgs     : List Msg
  regs     : List Registration
  quotas   : Vector Word32 3
  scrubbed : Nat
  softErrs : Nat
  dropped  : Nat
  pauses   : Nat
  deriving DecidableEq, Repr

/-- The state at power-on (DESIGN CHOICE, log entry 9) (DESIGN CHOICE, log entry 120). -/
def Die.reset : Die :=
  { fuse := 0, ready := 0, service := true, parts := [], launchq := [], engq := Vector.replicate 6 [], invals := [],
    peerTab := none, eth := Vector.replicate 2 Link.reset, bridge := Vector.replicate 4 Link.reset, bb := [], eseq := 0,
    fseq := 0, tlb := [], utlbs := [], dec := none, rr := 15, budgets := [], harp := { now := 0, wait := [], grants := [] }, egress := [],
    conns := [], msgs := [], regs := [], quotas := Vector.replicate 3 0, scrubbed := 0, softErrs := 0, dropped := 0, pauses := 0 }

/-- The control and status registers of a row manager's base (R31, R120): the floating-point flags, rounding mode and unit state, the
interrupt enables, and the machine-level trap registers (PRESUMED, log entry 23). -/
structure RmCsr where
  fflags   : BitVec 5
  frm      : BitVec 3
  fs       : BitVec 2
  mie      : Bool
  mpie     : Bool
  mienable : Word64
  mtvec    : Word64
  mscratch : Word64
  mepc     : Word64
  mcause   : Word64
  mtval    : Word64
  minstret : Word64
  deriving DecidableEq, Repr

/-- The registers at power-on: interrupts disabled and mcause 0 as the base has them, the others 0 (PRESUMED, log entry 23). -/
def RmCsr.reset : RmCsr :=
  { fflags := 0, frm := 0, fs := 0, mie := false, mpie := false, mienable := 0, mtvec := 0, mscratch := 0, mepc := 0, mcause := 0,
    mtval := 0, minstret := 0 }

/-- A ticket of a command port (R429): its number, and whether its descriptor has completed. -/
structure Ticket where
  num  : Word64
  done : Bool
  deriving DecidableEq, Repr

/-- A row manager (R31, R429 to R436): the x and f registers, the program counter, the control and status registers and the reservation
of its base (the address, in whose line no other agent has stored since), the halt of its row, its tickets, and the ticket that a `kfence` waits for. -/
structure Rm where
  x      : Vector Word64 32
  f      : Vector Word64 32
  pc     : Word64
  csr    : RmCsr
  resv   : Option Word64
  halted : Bool
  tickets : List Ticket
  count  : BitVec 16
  wait   : Option Word64
  deriving DecidableEq, Repr

/-- The state at power-on (DESIGN CHOICE, log entry 9). -/
def Rm.reset : Rm :=
  { x := Vector.replicate 32 0, f := Vector.replicate 32 0, pc := 0, csr := RmCsr.reset, resv := none, halted := false, tickets := [],
    count := 0, wait := none }

/-- A host command ring (R441). -/
structure HostRing where
  tail    : Word32
  head    : Word32
  isOpen  : Bool
  entries : List (Nat × Word64)
  deriving DecidableEq, Repr

/-- The state at power-on (DESIGN CHOICE, log entry 9). -/
def HostRing.reset : HostRing := { tail := 0, head := 0, isOpen := false, entries := [] }

/-- The state of an island (R444). -/
inductive IslandState where
  | on | ret | off
  deriving DecidableEq, Repr

/-! ### Memory slices and the fabric in flight -/

/-- Who made a request to a slice. -/
inductive ReqSrc where
  | seq  (q : BitVec 7)
  | cell (c : CellId)
  deriving DecidableEq, Repr

/-- An access that has been issued and not yet performed at its slice (R305): a write with its bytes and phase, or a read of a
memport with the identity of the result it fills and its offset there. `va` is its virtual address and `served` what it serves, where a
fault needs them. `bound` is the widest scope at which a later access of its sequencer has been ordered behind it (R148, R149); `slack`,
`since` and `late` are those of its packet (R340 to R343), and `born` is the cycle of its issue (R402). -/
structure SliceReq where
  src    : ReqSrc
  ph     : BitVec 2
  write  : Bool
  va     : Word64
  pa     : Nat
  bytes  : List (Nat × Byte)
  len    : Nat
  key    : Key
  poison : Bool
  id     : Nat
  off    : Nat
  inv    : Option Inv
  served : Option Served
  bound  : BitVec 3 := 0
  slack  : BitVec 12 := 0xFFF
  since  : Nat := 0
  late   : Bool := false
  born   : Nat := 0
  deriving DecidableEq, Repr

/-- The count a slice holds of the writes it has performed for a source and phase (R348). -/
structure SliceCount where
  slice : BitVec 7
  src   : CellId
  ph    : BitVec 2
  n     : Nat
  deriving DecidableEq, Repr

/-- A unit on its way from a cell's outlet to an inlet queue (R319, R423); `loss` marks a loss marker of the egress (R346), and SLACK and
RESID are those that its last grant wrote (R342). -/
structure Wire where
  src  : CellId
  dst  : CellId
  dq   : BitVec 3
  item : Item
  loss : Bool
  slack : BitVec 12 := 0xFFF
  resid : BitVec 4 := 0
  deriving DecidableEq, Repr

/-- A pulse on its way (R28, R271). -/
structure PulseFlight where
  src   : CellId
  po    : BitVec 3
  dst   : CellId
  pin   : BitVec 3
  kind  : BitVec 2
  epoch : Bool
  deriving DecidableEq, Repr

/-- An ORDER query that has been sent and not answered (R349), with SLACK, the harp cycle at which it left, LATE (R341, R343), and the cycle of
its issue (R402). -/
structure Query where
  who   : Acquirer
  entry : OrderEntry
  slack : BitVec 12 := 0xFFF
  since : Nat := 0
  late  : Bool := false
  born  : Nat := 0
  deriving DecidableEq, Repr

/-- A software queue in use (R302): the context and the address of its descriptor, and what the owning slice holds of it. `cur` is
the slot entry of the oldest unit. -/
structure SoftQ where
  ctx  : BitVec 9
  addr : Word64
  pa   : Nat
  q    : Queue
  head : Word32
  cur  : Nat
  deriving DecidableEq, Repr

/-- Whose turn it is: a sequencer issues its next instruction; a cell issues the node that R22 picks; a die's
scheduler executes its next policy word; a row manager executes its next word; a step of the table that has no encoding is
taken; or `n` cycles pass at a sequencer (DESIGN CHOICE, log entries 10, 117). -/
inductive Turn where
  | seq (q : BitVec 7)
  | cell (c : CellId)
  | policy (d : BitVec 3)
  | rm (m : BitVec 10)
  | event (i : Instr)
  | tick (q : BitVec 7) (n : Nat)
  deriving DecidableEq, Repr

/-- The module. `mem` lists the bytes of physical memory that differ from what an unlisted address reads as; `lineKey` the key
under which each line was last written; `poison` the lines with the poison mark; `cseqs` how many records each completion ring of a
context has taken (R359); `turns` the turns to come; `seqTurn`,
`nodeTurn`, `polTurn`, `rmTurn` who executes the instruction now; `fresh` the serial number of the next region, key, request or
free value; `cyc` counts fabric cycles, and `acted` lists the agents that have acted in the one under way (DESIGN CHOICE, log entry 150). -/
structure State where
  mem      : List Host.Cell
  lineKey  : List (Nat × Key)
  poison   : List Nat
  pend     : List SliceReq
  counts   : List SliceCount
  seqs     : Vector Seq 128
  cells    : List (CellId × Cell)
  regions  : List Region
  dies     : Vector Die 8
  ctxs     : List (BitVec 9 × Ctx)
  slots    : List KeySlot
  rms      : List (BitVec 10 × Rm)
  wires    : List Wire
  pulses   : List PulseFlight
  queries  : List Query
  softqs   : List SoftQ
  rings    : List ((BitVec 3 × BitVec 3) × HostRing)
  cseqs    : List ((BitVec 9 × Word64) × Nat)
  islands  : List (Nat × IslandState)
  freqSteps : List (Nat × Nat)
  powered  : Bool
  selfHosted : Bool
  hostUp   : Bool
  turns    : List Turn
  seqTurn  : BitVec 7
  nodeTurn : CellId × BitVec 3
  polTurn  : BitVec 3
  rmTurn   : BitVec 10
  fresh    : Nat
  acted    : List Turn := []
  cyc      : Nat := 0
  deriving DecidableEq, Repr

/-- Why a step of the model stops with a fault. -/
inductive Fault where
  /-- An engine accesses a physical address outside every window that the spec lays out (R326, R361,
  R440, R442). Safe: the hardware's behaviour there is not stated. -/
  | noSuchAddress (pa : Nat)
  deriving DecidableEq, Repr

/-- Why a step of the model is refused. -/
inductive Refusal where
  /-- An arm of `exec` whose instruction has no meaning yet. Safe. -/
  | notModelled (mnemonic : String)
  /-- A turn asks for a word that no agent holds: an empty node slot, or no decision in progress. Safe. -/
  | nothingToRun
  deriving DecidableEq, Repr

/-- The module right after power-on: no kernel, no context, empty memory, every function not yet ready. Slot 0 holds the
resident OS's memory key, the key with serial number 0 (R367). The module is host-attached (R440), so every host ring is OPEN
but the security rings of dies 1 to 7 (R441) (DESIGN CHOICE, log entries 9, 117, 120). -/
def State.reset : State :=
  { mem := [], lineKey := [], poison := [], pend := [], counts := [], seqs := Vector.replicate 128 Seq.reset, cells := [],
    regions := [], dies := Vector.replicate 8 Die.reset, ctxs := [],
    slots := [{ handle := 0, ctx := none, kind := 1, key := .made 0, pub := [] }], rms := [], wires := [], pulses := [],
    queries := [], softqs := [], rings := [], cseqs := [], islands := [], freqSteps := [], powered := true, selfHosted := false,
    hostUp := true, turns := [], seqTurn := 0, nodeTurn := (⟨0, 0, 0, 0⟩, 0), polTurn := 0, rmTurn := 0, fresh := 1 }

end Sys2Proof.Machine
end

