-- ==== Sys2Proof/Machine/Queue.lean ====
section
/-!
DEFINITION. The queue (R226 to R256): what becomes of every unit offered to it, its policies, its markers, its states and its
status words. The functions here change a queue alone; who raises the fault they report is the caller's matter.
-/

namespace Sys2Proof

/-! ### Kinds, flags and fields of a unit -/

def kData   : BitVec 4 := 0
def kGap    : BitVec 4 := 1
def kEod    : BitVec 4 := 2
def kEot    : BitVec 4 := 3
def kEoi    : BitVec 4 := 4
def kCapo   : BitVec 4 := 5
def kMute   : BitVec 4 := 6
def kRetune : BitVec 4 := 7
def kOrder  : BitVec 4 := 8
def kCount  : BitVec 4 := 9

/-- FLAGS bits (R226). -/
def fNarrowed : BitVec 8 := 0x80
def fMerged   : BitVec 8 := 0x40
def fReplayed : BitVec 8 := 0x20
def fPoison   : BitVec 8 := 0x10
def fSat      : BitVec 8 := 0x08
def fLate     : BitVec 8 := 0x04

/-- Whether a flag is set. -/
def hasFlag (fs f : BitVec 8) : Bool := fs &&& f != 0

/-- FLAGS [7:2]: bits 1 and 0 are ignored by every consumer and written zero by every producer (R226). -/
def flagsOf (fs : BitVec 8) : BitVec 8 := fs &&& 0xFC

/-- A flag set where a condition holds. -/
def flagIf (b : Bool) (f : BitVec 8) : BitVec 8 := if b then f else 0

/-- A bit field of a word, [lo + n − 1 : lo]. -/
def bits {w : Nat} (x : BitVec w) (lo n : Nat) : BitVec n := x.extractLsb' lo n

/-- The tag word of R226. -/
def Tag.word (t : Tag) : Word64 :=
  t.kind ++ t.flags ++ t.domain ++ t.weight ++ t.nest ++ t.seq

/-- A tag from a tag word (R226). -/
def tagOfWord (w : Word64) : Tag :=
  { kind := bits w 60 4, flags := bits w 52 8, domain := bits w 48 4, weight := bits w 32 16, nest := bits w 28 4,
    seq := bits w 0 28 }

/-- Slots that a unit takes (R227). -/
def Item.slots (u : Item) : Nat := if u.v1.isSome then 2 else 1

/-- Whether a unit is DATA. -/
def Item.isData (u : Item) : Bool := u.tag.kind == kData

/-- The key of a `kv` record (R66). -/
def Item.key (u : Item) : Word64 := bits u.v0 0 64

/-- The value field of a `kv` record (R66). -/
def Item.value (u : Item) : Word32 := bits u.v0 64 32

/-- Payload double-word `i` of a unit: a pair counts as one unit of sixteen; zero beyond it (R154). -/
def Item.dword (u : Item) (i : Nat) : Word64 :=
  if i < 8 then bits u.v0 (64 * i) 64
  else match u.v1 with
    | some v => if i < 16 then bits v (64 * (i - 8)) 64 else 0
    | none => 0

/-- WEIGHT × n under saturation, with FLAGS.SAT where it clamps (R240). -/
def Tag.weigh (t : Tag) (n : Nat) : Tag :=
  let w := t.weight.toNat * n
  { t with weight := BitVec.ofNat 16 (min w 0xFFFF), flags := t.flags ||| flagIf (decide (0xFFFF < w)) fSat }

/-- The descriptor of a vector: bytes 36 to 39 of V1 (R67). -/
def Item.desc (u : Item) : Word32 := match u.v1 with
  | some v => bits v 288 32
  | none => 0

/-- The scale word of a vector: bytes 32 to 35 of V1 (R67). -/
def Item.scale (u : Item) : Word32 := match u.v1 with
  | some v => bits v 256 32
  | none => 0

/-- A vector with another scale word and descriptor. -/
def Item.withMeta (u : Item) (scale desc : Word32) : Item :=
  match u.v1 with
  | some v => { u with
    v1 := some (BitVec.ofNat 512 (v.toNat % 2 ^ 256 + scale.toNat * 2 ^ 256 + desc.toNat * 2 ^ 288
      + v.toNat / 2 ^ 320 * 2 ^ 320)) }
  | none => u

/-- PLANE and PLANES of a descriptor (R67). -/
def descPlane (d : Word32) : Nat := (bits d 0 4).toNat
def descPlanes (d : Word32) : Nat := (bits d 4 4).toNat

/-- A descriptor with another PLANES. -/
def descWithPlanes (d : Word32) (n : Nat) : Word32 :=
  BitVec.ofNat 32 (d.toNat % 16 + (n % 16) * 16 + d.toNat / 256 * 256)

end Sys2Proof

namespace Sys2Proof.Machine

/-! ### The queue's registers and counts -/

/-- Depth in slots (R233). -/
def Queue.depth (q : Queue) : Nat := 2 ^ (bits q.qctl 0 4).toNat

def Queue.high (q : Queue) : Nat := (bits q.qctl 4 11).toNat
def Queue.low (q : Queue) : Nat := (bits q.qctl 15 11).toNat
def Queue.pri (q : Queue) : Nat := (bits q.qctl 26 3).toNat
def Queue.fb (q : Queue) : Nat := (bits q.qctl 29 3).toNat
def Queue.trap (q : Queue) : Bool := q.qctl.getLsbD 32
def Queue.discardable (q : Queue) : Bool := q.qctl.getLsbD 33

/-- Whether SPILL is bound, as primary or fallback (R244). -/
def Queue.spills (q : Queue) : Bool := q.pri == 7 || q.fb == 7

/-- A unit in data slots takes its slots; one in the reserve takes none (R229). -/
def QEntry.slots (e : QEntry) : Nat := if e.slot then e.item.slots else 0

/-- Occupancy (R229). -/
def Queue.occ (q : Queue) : Nat :=
  (q.entries.map QEntry.slots).sum + (q.ring.map (fun u => if u.kept = some true then u.item.slots else 0)).sum

/-- The free-slot count (R229). -/
def Queue.free (q : Queue) : Nat := q.depth - q.occ

/-- Reserve entries in use (R230). -/
def Queue.tokens (q : Queue) : Nat :=
  (q.entries.filter (fun e => !e.slot)).length + (q.ring.filter (fun u => u.kept = some false)).length

/-- Entries of the ring, in use and free (R244). -/
def Queue.ringCap (q : Queue) : Nat := 2 ^ (bits q.qring 0 5).toNat
def Queue.ringUsed (q : Queue) : Nat := (q.ring.map (fun u => if u.kept.isNone then u.item.slots else 0)).sum
def Queue.ringFree (q : Queue) : Nat := q.ringCap - q.ringUsed

/-- The unit at the head: nothing is read from the ring (R244). -/
def Queue.head (q : Queue) : Option Item := (q.entries.head?).map QEntry.item

/-- The queue without its head. -/
def Queue.pop (q : Queue) : Queue := { q with entries := q.entries.tail }

/-- Live states of R231. -/
def Queue.live (q : Queue) : Bool := q.state != .unbound && q.state != .closed

/-! ### The registers' own rules (R233 to R236) -/

/-- R233 to R236 for a queue whose LOGD runs from `dMin` to `dMax`. `kvOk` says that MERGE and KSAMPLE may be bound, and
`sdOk` that NARROW may. -/
def qcfgOk (dMax : Nat) (kvOk sdOk : Bool) (c : QCfg) : Bool :=
  let d := (bits c.qctl 0 4).toNat
  let h := (bits c.qctl 4 11).toNat
  let l := (bits c.qctl 15 11).toNat
  let pri := (bits c.qctl 26 3).toNat
  let fb := (bits c.qctl 29 3).toNat
  let has (p : Nat) : Bool := pri == p || fb == p
  let field (p lo n lower upper : Nat) : Bool :=
    let v := c.qpar.toNat / 2 ^ lo % 2 ^ n
    if has p then decide (lower ≤ v ∧ v ≤ upper) else v == 0
  decide (2 ≤ d ∧ d ≤ dMax) && decide (1 ≤ h ∧ h ≤ 2 ^ d) && decide (l < h) && pri != 0 && fb != 0
    && (pri != fb || pri == 1) && bits c.qctl 34 30 == 0
    && field 3 0 8 1 255 && field 4 11 4 1 15 && field 5 15 2 0 3 && field 5 17 1 0 1 && field 6 18 3 2 7
    && field 4 32 32 0 0xFFFFFFFF && bits c.qpar 8 3 == 0 && bits c.qpar 21 11 == 0
    && (if has 7 then decide (6 ≤ (bits c.qring 0 5).toNat ∧ (bits c.qring 0 5).toNat ≤ 20) && bits c.qring 5 7 == 0
        else c.qring == 0)
    && (kvOk || !(has 4 || has 5)) && (sdOk || !has 6)

/-- A queue bound to a policy with its counters, pending list and ring indices cleared; the units in its slots and reserve stay
(R231, R252). -/
def Queue.bind (q : Queue) (c : QCfg) : Queue :=
  { Queue.reset with
    state := .bound, entries := q.entries, qctl := c.qctl, qpar := c.qpar, qring := c.qring, kv := q.kv, circ := q.circ }

/-! ### Gap markers (R246 to R248) -/

/-- The payload of a gap marker (R246). -/
def gapPayload (lost : Nat) (first last : BitVec 28) (cause : BitVec 4) (comp : Bool) (event : BitVec 2) (span : Bool)
    (qid : Word32) : Payload :=
  (qid ++ (0 : BitVec 24) ++ BitVec.ofBool span ++ event ++ BitVec.ofBool comp ++ cause ++ (0 : BitVec 4) ++ last
    ++ (0 : BitVec 4) ++ first ++ BitVec.ofNat 32 (satNat 32 lost) : BitVec 160).setWidth 512

/-- The fields of a gap marker's payload (R246). -/
def gapLost (p : Payload) : Nat := (bits p 0 32).toNat
def gapFirst (p : Payload) : BitVec 28 := bits p 32 28
def gapLast (p : Payload) : BitVec 28 := bits p 64 28
def gapCause (p : Payload) : BitVec 4 := bits p 96 4
def gapComp (p : Payload) : Bool := p.getLsbD 100
def gapEvent (p : Payload) : BitVec 2 := bits p 101 2
def gapSpan (p : Payload) : Bool := p.getLsbD 103
def gapQid (p : Payload) : Word32 := bits p 128 32

/-- A gap marker (R246). -/
def gapItem (lost : Nat) (first last : BitVec 28) (cause : BitVec 4) (comp : Bool) (event : BitVec 2) (span : Bool)
    (qid : Word32) (nest : BitVec 4) (inv : Option Inv) : Item :=
  { tag := { kind := kGap, flags := 0, domain := 0, weight := 0, nest := nest, seq := first },
    v0 := gapPayload lost first last cause comp event span qid, v1 := none, inv := inv }

def minSeq (a b : BitVec 28) : BitVec 28 := if a ≤ b then a else b
def maxSeq (a b : BitVec 28) : BitVec 28 := if a ≤ b then b else a

/-- The loss marker of one unit, which belongs to every invocation that the unit does (R246, R395). -/
def unitGap (cause : BitVec 4) (qid : Word32) (u : Item) : Item :=
  (gapItem 1 u.tag.seq u.tag.seq cause false 0 false qid u.tag.nest u.inv).withInvs u.invs

/-- A list of invocations with others, each once. -/
def addInvs (is js : List Inv) : List Inv := js.foldl (fun l j => if j ∈ l then l else l ++ [j]) is

/-- A marker folded into another (R247): LOST added, the least FIRST and greatest LAST, SPAN set, CAUSE mixed where the two
differ; it belongs to the invocations of both (R395). -/
def foldInto (m x : Item) : Item :=
  let first := minSeq (gapFirst m.v0) (gapFirst x.v0)
  let cause := if gapCause m.v0 = gapCause x.v0 then gapCause m.v0 else 0xF
  ({ m with
    tag := { m.tag with seq := first },
    v0 := gapPayload (gapLost m.v0 + gapLost x.v0) first (maxSeq (gapLast m.v0) (gapLast x.v0)) cause (gapComp m.v0)
      (gapEvent m.v0) true (gapQid m.v0) } : Item).withInvs x.invs

/-- The youngest marker of a list folded with `x`, the list given oldest first; none where there is no marker. -/
def foldYoungest (x : Item) : List QEntry → Option (List QEntry)
  | [] => none
  | e :: es =>
    match foldYoungest x es with
    | some es' => some (e :: es')
    | none => if e.item.tag.kind = kGap then some ({ e with item := foldInto e.item x } :: es) else none

/-- The same over the units of a ring and behind it. -/
def foldYoungestItem (x : Item) : List RingUnit → Option (List RingUnit)
  | [] => none
  | e :: es =>
    match foldYoungestItem x es with
    | some es' => some (e :: es')
    | none => if e.item.tag.kind = kGap then some ({ e with item := foldInto e.item x } :: es) else none

/-! ### What an offer gives -/

/-- The outcomes of R238, and `retry`: a ring access faulted, and the offer is to be made again (R244, R393). -/
inductive Outcome3 where
  | kept | compensated | lost | retry
  deriving DecidableEq, Repr

/-- A queue after an operation, the outcome, the code of the fault it raises (R392), if any, and how many DATA units DROPH removed. -/
structure Offered where
  q     : Queue
  out   : Outcome3
  fault : Option Nat
  gone  : Nat
  deriving DecidableEq, Repr

/-- The first of two faults. -/
def firstFault (a b : Option Nat) : Option Nat := match a with
  | some x => some x
  | none => b

/-- What a slot keeps of a record's payload: a `kv` queue stores bits [127:0] of DATA (R228). -/
def Queue.slotPayload (q : Queue) (data : Bool) (v : Payload) : Payload :=
  if q.kv && data then v &&& 0xFFFFFFFFFFFFFFFFFFFFFFFFFFFFFFFF else v

/-- A unit appended to the data slots, each of its records in a slot (R228). -/
def Queue.enqueue (q : Queue) (u : Item) : Queue :=
  { q with entries := q.entries ++
      [⟨{ u with v0 := q.slotPayload u.isData u.v0, v1 := u.v1.map (q.slotPayload u.isData) }, true⟩] }

/-- A unit appended to the spill ring (R244). -/
def Queue.toRing (q : Queue) (u : Item) : Queue := { q with ring := q.ring ++ [⟨u, none⟩] }

/-- The last place of R230 for a token that nothing can hold: a gap marker folds, any other token overflows. -/
def Queue.noPlace (q : Queue) (u : Item) : Queue × Option Nat :=
  if u.tag.kind = kGap then
    match foldYoungestItem u q.ring with
    | some r => ({ q with ring := r }, none)
    | none => match foldYoungest u q.entries with
      | some es => ({ q with entries := es }, none)
      | none => (q, some 0x14)
  else (q, some 0x14)

/-- A token at the tail of the stream, in a reserve entry or in a data slot (R230): behind the ring's units where it holds any. -/
def Queue.keep (q : Queue) (slot : Bool) (u : Item) : Queue :=
  if q.ring = [] then { q with entries := q.entries ++ [⟨u, slot⟩] } else { q with ring := q.ring ++ [⟨u, some slot⟩] }

/-- PlaceToken (R230). -/
def Queue.place (q : Queue) (u : Item) : Queue × Option Nat :=
  if q.ring ≠ [] ∧ 1 ≤ q.ringFree then (q.toRing u, none)
  else if q.tokens < 8 then (q.keep false u, none)
  else if 1 ≤ q.free then (q.keep true u, none)
  else q.noPlace u

/-- `n` units counted as uncompensated losses (R254). -/
def Queue.countLost (q : Queue) (n : Nat) : Queue := { q with lost := BitVec.ofNat 32 (satNat 32 (q.lost.toNat + n)) }

/-- One unit compensated or absorbed: the count of R254 and the episode of R248, with the unit's invocations (R395). -/
def Queue.epAdd (q : Queue) (s : BitVec 28) (is : List Inv) : Queue :=
  { q with
    epN := q.epN + 1, epInvs := addInvs q.epInvs is,
    epLo := if q.epN = 0 then s else minSeq q.epLo s,
    epHi := if q.epN = 0 then s else maxSeq q.epHi s }

def Queue.countComp (q : Queue) (n : Nat) : Queue := { q with comp := BitVec.ofNat 32 (satNat 32 (q.comp.toNat + n)) }

/-- Lose with cause DROPT: the count, and a loss marker at the tail (R238, R247). -/
def Queue.lose (q : Queue) (qid : Word32) (u : Item) : Queue × Option Nat :=
  (q.countLost 1).place (unitGap 1 qid u)

/-- MarkPendingLost (R240): one marker with cause SAMPLE for the pending units, and the counter resets. SPAN is set where the
SEQ values are not contiguous (R246). -/
def Queue.pendLost (q : Queue) (qid : Word32) (nest : BitVec 4) (inv : Option Inv) : Queue × Option Nat :=
  match q.sampPend with
  | [] => ({ q with sampC := 0, sampInvs := [] }, none)
  | first :: rest =>
    let last := rest.getLastD first
    let n := rest.length + 1
    let span := decide ((last - first).toNat + 1 ≠ n)
    let q1 := { q with sampC := 0, sampPend := [], sampInvs := [] }
    (q1.countLost n).place ((gapItem n first last 3 false 0 span qid nest inv).withInvs q.sampInvs)

/-- Entering SHEDDING (R231, R240, R248). -/
def Queue.enterShedding (q : Queue) (qid : Word32) (u : Item) : Queue × Option Nat :=
  let q1 := { q with
    state := .shedding, epis := if q.epis = 0xFFFF then q.epis else q.epis + 1, sampC := 0, sampPend := [], sampInvs := [], epN := 0,
    epLo := 0, epHi := 0, epInvs := [] }
  q1.place ((gapItem 0 u.tag.seq u.tag.seq (BitVec.ofNat 4 q.pri) false 1 false qid u.tag.nest u.inv).withInvs u.invs)

/-- Leaving SHEDDING for `to` (R231, R248): the pending-loss marker, if any, then the leave marker. No unit causes the pending-loss
marker placed here: its NEST is 0 (DESIGN CHOICE, log entry 141). Each marker belongs to the invocations of the units that it counts (R395). -/
def Queue.leave (q : Queue) (qid : Word32) (dest : QState) : Queue × Option Nat :=
  let (q1, f1) := q.pendLost qid 0 none
  let (q2, f2) := q1.place ((gapItem q1.epN q1.epLo q1.epHi (BitVec.ofNat 4 q.pri) true 2 false qid 0 none).withInvs q1.epInvs)
  ({ q2 with state := dest }, firstFault f1 f2)

/-! ### The policies (R239 to R244) -/

/-- What a policy makes of a unit; none where it cannot act. -/
abbrev Applied := Option Offered

/-- DROPT as a policy; a loss made as the fallback under TRAP faults (R245). -/
def Queue.applyDropt (q : Queue) (qid : Word32) (isFb : Bool) (u : Item) : Applied :=
  let (q1, f) := q.lose qid u
  some ⟨q1, .lost, firstFault f (if isFb && q.trap then some 0x15 else none), 0⟩

/-- The oldest DATA unit of a list, with what stands before and behind it. -/
def splitData : List QEntry → List QEntry → Option (List QEntry × QEntry × List QEntry)
  | _, [] => none
  | pre, e :: es => if e.item.isData then some (pre.reverse, e, es) else splitData (e :: pre) es

/-- Whether a marker extends the loss marker `m` (R247): equal CAUSE, COMP and NEST, and contiguous. -/
def extendsMarker (m x : Item) : Bool :=
  m.tag.kind == kGap && gapEvent m.v0 == 0 && gapCause m.v0 == gapCause x.v0 && gapComp m.v0 == gapComp x.v0
    && m.tag.nest == x.tag.nest && gapFirst x.v0 == gapLast m.v0 + 1

/-- `m` extended by `x`: LOST added, LAST replaced; its SPAN stays (R247). It belongs to the invocations of both (R395). -/
def extendMarker (m x : Item) : Item :=
  ({ m with
    v0 := gapPayload (gapLost m.v0 + gapLost x.v0) (gapFirst m.v0) (gapLast x.v0) (gapCause m.v0) (gapComp m.v0)
      (gapEvent m.v0) (gapSpan m.v0) (gapQid m.v0) } : Item).withInvs x.invs

/-- The last entry of a list, with the rest. -/
def splitLast (es : List QEntry) : Option (List QEntry × QEntry) :=
  match es.getLast? with
  | none => none
  | some e => some (es.dropLast, e)

/-- One unit removed by DROPH, with its marker in its place (R239, R247). -/
def Queue.drophOne (q : Queue) (qid : Word32) : Queue × Option Nat :=
  match splitData [] q.entries with
  | none => (q, none)
  | some (pre, e, post) =>
    let u := e.item
    let x := unitGap 2 qid u
    let q1 := q.countLost 1
    if q.tokens < 8 then ({ q1 with entries := pre ++ [⟨x, false⟩] ++ post }, none)
    else
      match splitLast pre with
      | some (pre', m) =>
        if extendsMarker m.item x then
          ({ q1 with entries := pre' ++ [{ m with item := extendMarker m.item x }] ++ post }, none)
        else Queue.noPlace { q1 with entries := pre ++ post } x
      | none => Queue.noPlace { q1 with entries := post } x

/-- Units removed until `s` slots are free, at most `n`. -/
def Queue.drophMany (qid : Word32) (s : Nat) : Nat → Queue → Queue × Option Nat
  | 0, q => (q, none)
  | n + 1, q =>
    if s ≤ q.free then (q, none)
    else
      let (q1, f1) := q.drophOne qid
      let (q2, f2) := drophMany qid s n q1
      (q2, firstFault f1 f2)

/-- DROPH (R239). -/
def Queue.applyDroph (q : Queue) (qid : Word32) (isFb : Bool) (u : Item) : Applied :=
  let held := ((q.entries.filter (fun e => e.item.isData)).map (fun e => e.item.slots)).sum
  if held < u.slots then none
  else
    let (q1, f) := drophMany qid u.slots u.slots q
    let count (x : Queue) : Nat := (x.entries.filter (fun e => e.item.isData)).length
    let removed := q.free < u.slots
    some ⟨q1.enqueue u, .kept, firstFault f (if isFb && q.trap && removed then some 0x15 else none), count q - count q1⟩

/-- SAMPLE (R240). Where the survivor is refused, the queue with its pending units marked lost goes to the fallback. -/
def Queue.applySample (q : Queue) (qid : Word32) (u : Item) : Applied × Queue × Option Nat :=
  let n := (bits q.qpar 0 8).toNat + 1
  if q.sampC + 1 < n then
    (some ⟨{ q with sampC := q.sampC + 1, sampPend := q.sampPend ++ [u.tag.seq], sampInvs := addInvs q.sampInvs u.invs },
      .compensated, none, 0⟩, q, none)
  else if u.slots ≤ q.free then
    let q1 := q.sampPend.foldl (fun x n => x.epAdd n q.sampInvs) { q with sampC := 0, sampPend := [], sampInvs := [] }
    (some ⟨(q1.countComp (n - 1)).enqueue { u with tag := u.tag.weigh n }, .kept, none, 0⟩, q, none)
  else
    let (q1, f) := q.pendLost qid u.tag.nest u.inv
    (none, q1, f)

/-- n(d) of R241. -/
def domainFactor (d : Nat) : Nat := 2 ^ ((d + 1) / 2)

/-- KSAMPLE (R241). -/
def Queue.applyKsample (q : Queue) (u : Item) : Applied :=
  let d := bits q.qpar 11 4
  let k := (d.toNat + 1) / 2
  if u.tag.domain ≠ 0 ∧ u.tag.domain ≠ d then none
  else if kh64 u.key.toNat ((bits q.qpar 32 32).toNat * 2 ^ 32) / 2 ^ (64 - k) ≠ 0 then
    some ⟨(q.countComp 1).epAdd u.tag.seq u.invs, .compensated, none, 0⟩
  else if q.free < u.slots then none
  else
    let t := if u.tag.domain = 0 then Tag.weigh { u.tag with domain := d } (domainFactor d.toNat) else u.tag
    some ⟨q.enqueue { u with tag := t }, .kept, none, 0⟩

/-- The value of R242's table for `f32`, as a code and SAT. -/
def mergeF32 (mop : Nat) (v1 v2 w1 w2 : Nat) : Nat × Bool :=
  let x := FloatFmt.f32.read v1
  let y := FloatFmt.f32.read v2
  let put (v : FVal) : Nat × Bool := let c := FloatFmt.f32.conv .rne false v; (c.code, c.sat)
  if x.isNan || y.isNan then (FloatFmt.f32.nanCode, false)
  else match mop with
    | 0 => put (x.add .rne y)
    | 1 => put (if y.below x then y else x)
    | 2 => put (if x.below y then y else x)
    | _ =>
      if w1 + w2 = 0 then put (x.add .rne y)
      else if x.isInf || y.isInf then
        let xi := x.isInf && w1 != 0
        let yi := y.isInf && w2 != 0
        if xi && yi then (if x = y then put x else (FloatFmt.f32.nanCode, false))
        else if xi then put x
        else if yi then put y
        else if x.isInf then put (if w2 = 0 then .fin false 0 0 else y)
        else put (if w1 = 0 then .fin false 0 0 else x)
      else
        match (x.mul (.fin false w1 0)).add .rne (y.mul (.fin false w2 0)) with
        | .fin s m e =>
          let r := FloatFmt.f32.round .rne s m (w1 + w2) e
          (r.code, r.tooBig)
        | v => put v

/-- The value of R242's table for `i32`: exact, rounded to nearest even, then saturated. -/
def mergeI32 (mop : Nat) (v1 v2 w1 w2 : Nat) : Nat × Bool :=
  let x := toSigned 32 v1
  let y := toSigned 32 v2
  let z : Int := match mop with
    | 0 => x + y
    | 1 => min x y
    | 2 => max x y
    | _ =>
      if w1 + w2 = 0 then x + y
      else
        let n : Int := x * w1 + y * w2
        let k : Int := roundMag .rne (decide (n < 0)) n.natAbs (w1 + w2)
        if n < 0 then -k else k
  let (r, s) := clampInt 32 z
  (ofSigned 32 r, s)

/-- Payload bits [95:64] replaced. -/
def setValue (p : Payload) (v : Nat) : Payload :=
  BitVec.ofNat 512 (p.toNat % 2 ^ 64 + (v % 2 ^ 32) * 2 ^ 64 + p.toNat / 2 ^ 96 * 2 ^ 96)

/-- u merged into the partner p (R242): the record belongs to the invocations of both (R395). -/
def mergeItems (q : Queue) (p u : Item) : Item :=
  let mop := (bits q.qpar 15 2).toNat
  let w1 := p.tag.weight.toNat
  let w2 := u.tag.weight.toNat
  let (v, s) := if q.qpar.getLsbD 17 then mergeI32 mop p.value.toNat u.value.toNat w1 w2
    else mergeF32 mop p.value.toNat u.value.toNat w1 w2
  let fl := flagsOf (p.tag.flags ||| u.tag.flags) ||| fMerged ||| flagIf (s || decide (0xFFFF < w1 + w2)) fSat
  ({ p with tag := { p.tag with weight := BitVec.ofNat 16 (min (w1 + w2) 0xFFFF), flags := fl }, v0 := setValue p.v0 v } : Item).withInvs
    u.invs

/-- u merged into the first partner among the `n` youngest DATA records; the list is youngest first. -/
def mergeFirst (q : Queue) (u : Item) : Nat → List QEntry → Option (List QEntry)
  | _, [] => none
  | n, e :: es =>
    if e.item.isData then
      match n with
      | 0 => none
      | n + 1 =>
        if e.item.v1.isNone && e.item.key == u.key && e.item.tag.domain == u.tag.domain then
          some ({ e with item := mergeItems q e.item u } :: es)
        else (mergeFirst q u n es).map (e :: ·)
    else (mergeFirst q u n es).map (e :: ·)

/-- MERGE (R242). -/
def Queue.applyMerge (q : Queue) (u : Item) : Applied :=
  if u.v1.isSome then none
  else match mergeFirst q u 8 q.entries.reverse with
    | some es => some ⟨(Queue.countComp { q with entries := es.reverse } 1).epAdd u.tag.seq u.invs, .kept, none, 0⟩
    | none => if 1 ≤ q.free then some ⟨q.enqueue u, .kept, none, 0⟩ else none

/-- NARROW (R243). -/
def Queue.applyNarrow (q : Queue) (u : Item) : Applied :=
  let nk := (bits q.qpar 18 3).toNat
  if nk < descPlane u.desc then some ⟨(q.countComp 1).epAdd u.tag.seq u.invs, .compensated, none, 0⟩
  else if q.free < 2 then none
  else
    let u' := if nk < descPlanes u.desc then
        { u.withMeta u.scale (descWithPlanes u.desc nk) with tag := { u.tag with flags := u.tag.flags ||| fNarrowed } }
      else u
    some ⟨q.enqueue u', .kept, none, 0⟩

/-- SPILL with the ring empty (R244). -/
def Queue.applySpill (q : Queue) (u : Item) : Applied :=
  if u.slots ≤ q.free then some ⟨q.enqueue u, .kept, none, 0⟩
  else if u.slots + 8 ≤ q.ringFree then some ⟨q.toRing u, .kept, none, 0⟩
  else none

/-- Apply (R239): the result of a policy, or none with the queue that the fallback receives. -/
def Queue.apply (q : Queue) (qid : Word32) (isFb : Bool) (pol : Nat) (u : Item) : Applied × Queue × Option Nat :=
  match pol with
  | 1 => (q.applyDropt qid isFb u, q, none)
  | 2 => (q.applyDroph qid isFb u, q, none)
  | 3 => q.applySample qid u
  | 4 => (q.applyKsample u, q, none)
  | 5 => (q.applyMerge u, q, none)
  | 6 => (q.applyNarrow u, q, none)
  | 7 => (q.applySpill u, q, none)
  | _ => (none, q, none)

/-- The final drop of R238: a loss marker with cause DROPT, and the fault of R245 under TRAP. -/
def Queue.finalDrop (q : Queue) (qid : Word32) (u : Item) (f : Option Nat) : Offered :=
  let (q1, f1) := q.lose qid u
  ⟨q1, .lost, firstFault f (firstFault f1 (if q.trap then some 0x15 else none)), 0⟩

/-- The policies in turn, then the final drop (R238). -/
def Queue.shed (q : Queue) (qid : Word32) (u : Item) (f0 : Option Nat) : Offered :=
  match q.apply qid false q.pri u with
  | (some r, _, _) => { r with fault := firstFault f0 r.fault }
  | (none, q1, f1) =>
    match q1.apply qid true q1.fb u with
    | (some r, _, _) => { r with fault := firstFault f0 (firstFault f1 r.fault) }
    | (none, q2, f2) => q2.finalDrop qid u (firstFault f0 (firstFault f1 f2))

/-- The offer of a token (R230, R238, R240). -/
def Queue.offerToken (q : Queue) (qid : Word32) (u : Item) : Offered :=
  if q.state = .closed then ⟨q, .lost, none, 0⟩
  else
    let ends := u.tag.kind = kEod ∨ u.tag.kind = kEot ∨ u.tag.kind = kEoi
    let (q1, f1) := if ends then q.pendLost qid u.tag.nest u.inv else (q, none)
    let (q2, f2) := q1.place u
    ⟨q2, .kept, firstFault f1 f2, 0⟩

/-- Offer (R238). `qid` is the queue's identity in its markers. A frozen queue places each arrival as in the state it froze in
(R390). -/
def Queue.arrive (q : Queue) (qid : Word32) (u : Item) : Offered :=
  if q.state = .unbound then ⟨{ q with entries := q.entries ++ [⟨u, false⟩] }, .lost, some 0x04, 0⟩
  else
    let q0 := if q.state = .bound then { q with state := .flowing } else q
    if !u.isData then q0.offerToken qid u
    else if q0.state = .closed then ⟨q0.countLost 1, .lost, none, 0⟩
    else if q0.state = .draining then
      let (q1, f) := q0.lose qid u
      ⟨q1, .lost, f, 0⟩
    else if q0.spills && q0.ring ≠ [] then
      if u.slots + 8 ≤ q0.ringFree then ⟨q0.toRing u, .kept, none, 0⟩
      else q0.finalDrop qid u none
    else if q0.state = .flowing then
      if u.slots ≤ q0.free then
        let q1 := q0.enqueue u
        if q1.high ≤ q1.occ then
          let (q2, f) := q1.enterShedding qid u
          ⟨q2, .kept, f, 0⟩
        else ⟨q1, .kept, none, 0⟩
      else
        let (q1, f) := q0.enterShedding qid u
        q1.shed qid u f
    else q0.shed qid u none

/-! ### The other changes of R231 -/

/-- Whether the queue leaves SHEDDING at the end of a cycle. -/
def Queue.canLeave (q : Queue) : Bool :=
  q.state == .shedding && decide (q.occ ≤ q.low) && q.ring == []

/-- A unit that arrives, and the test for leaving SHEDDING that ends its cycle (R232). -/
def Queue.offer (q : Queue) (qid : Word32) (u : Item) : Offered :=
  let r := q.arrive qid u
  if r.q.canLeave && !r.q.frozen then
    let (q1, f) := r.q.leave qid .flowing
    { r with q := q1, fault := firstFault r.fault f }
  else r

/-- The units at the front of `ring` that stand in reserve entries or data slots: no ring unit is ahead of them any more. -/
def Queue.settleRing (q : Queue) : Queue :=
  let ahead := q.ring.takeWhile (fun u => u.kept.isSome)
  { q with
    entries := q.entries ++ ahead.map (fun u => ⟨u.item, u.kept == some true⟩),
    ring := q.ring.dropWhile (fun u => u.kept.isSome) }

/-- `qdrain` (R231, R255). -/
def Queue.drain (q : Queue) (qid : Word32) : Queue × Option Nat :=
  match q.state with
  | .shedding => q.leave qid .draining
  | .bound | .flowing => ({ q with state := .draining }, none)
  | .draining | .closed | .unbound => (q, none)

/-- Whether a draining queue has emptied. -/
def Queue.canClose (q : Queue) : Bool :=
  q.state == .draining && q.entries == [] && q.ring == []

/-- One replay (R244): the oldest ring unit moves into the queue where Free covers it, with REPLAYED on DATA. -/
def Queue.replay (q : Queue) : Queue :=
  match q.ring with
  | [] => q
  | x :: rest =>
    let u := x.item
    let u' := if u.isData then { u with tag := { u.tag with flags := u.tag.flags ||| fReplayed } } else u
    let done := { q with ring := rest, ringHead := (q.ringHead + u.slots) % q.ringCap }
    if u.isData then
      if u.slots ≤ q.free then (done.enqueue u').settleRing else q
    else if q.tokens < 8 then Queue.settleRing { done with entries := q.entries ++ [⟨u', false⟩] }
    else if 1 ≤ q.free then Queue.settleRing { done with entries := q.entries ++ [⟨u', true⟩] }
    else q

/-- The state code of R253. -/
def Queue.stateCode (q : Queue) : BitVec 3 :=
  if q.frozen && q.live then 6
  else match q.state with
    | .unbound => 0
    | .bound => 1
    | .flowing => 2
    | .shedding => 3
    | .draining => 4
    | .closed => 5

/-- The status word of `qstat` (R253). -/
def Queue.status (q : Queue) : Word64 :=
  (0 : BitVec 16) ++ q.epis ++ (0 : BitVec 1) ++ BitVec.ofNat 4 q.tokens ++ BitVec.ofBool (decide (q.ring ≠ []))
    ++ BitVec.ofBool q.disc ++ q.stateCode ++ BitVec.ofNat 11 q.free ++ BitVec.ofNat 11 q.occ

/-- The result of `qgap` and the queue after it (R254). -/
def Queue.gap (q : Queue) : Word64 × Queue := (q.comp ++ q.lost, { q with lost := 0, comp := 0 })

/-- The queue with every unit that `p` picks removed (R395); its counters and its SHEDDING state stay. -/
def Queue.discard (q : Queue) (p : Item → Bool) : Queue :=
  Queue.settleRing { q with entries := q.entries.filter (fun e => !p e.item), ring := q.ring.filter (fun u => !p u.item) }

/-- The least and greatest SEQ of a list of units. -/
def seqSpan : List Item → Option (BitVec 28 × BitVec 28)
  | [] => none
  | u :: us => match seqSpan us with
    | none => some (u.tag.seq, u.tag.seq)
    | some (a, b) => some (minSeq a u.tag.seq, maxSeq b u.tag.seq)

/-- A queue saved and restored (R251): a discardable queue that is not UNBOUND comes back BOUND and empty, with a marker of cause 0xE
where it held DATA, or holding only the capo that it held (R280). The flag says that it resumed empty. -/
def Queue.resume (q : Queue) (qid : Word32) : Queue × Bool :=
  if q.discardable && q.state != .unbound then
    let us := q.entries.map QEntry.item ++ q.ring.map RingUnit.item
    let ds := us.filter Item.isData
    let q1 := { q.bind ⟨q.qctl, q.qpar, q.qring⟩ with disc := true, entries := [] }
    match us.find? (fun u => u.tag.kind = kCapo), seqSpan ds with
    | some u, _ => ({ q1 with entries := [⟨u, false⟩] }, true)
    | none, none => (q1, true)
    | none, some (a, b) =>
      ({ q1 with entries := [⟨gapItem ds.length a b 0xE false 0 (decide ((b - a).toNat + 1 ≠ ds.length)) qid 0 none, false⟩] },
        true)
  else (q, false)

end Sys2Proof.Machine
end

