-- ==== Sys2Proof/Machine/Memory.lean ====
section
/-!
DEFINITION. Physical memory: the canonical list of bytes, the key of each line, poison marks, and the accesses that have been
issued and not yet performed (R62, R305, R326, R403).
-/

namespace Sys2Proof.Machine

/-! ### The list of bytes -/

/-- The byte at an address; an unlisted address reads as `Config.coldByte` (DESIGN CHOICE, log entry 1). -/
def Memory.read : List Host.Cell → Nat → Byte
  | [], _ => Config.coldByte
  | (x, v) :: m, a => if a = x then v else if a < x then Config.coldByte else Memory.read m a

/-- A byte put before a list whose addresses are all greater: a byte that reads as an unlisted one is not listed. -/
def Memory.put (a : Nat) (b : Byte) (m : List Host.Cell) : List Host.Cell :=
  if b = Config.coldByte then m else (a, b) :: m

/-- A byte written; the list stays in its canonical form. -/
def Memory.write : List Host.Cell → Nat → Byte → List Host.Cell
  | [], a, b => Memory.put a b []
  | (x, v) :: m, a, b =>
    if a = x then Memory.put a b m
    else if a < x then Memory.put a b ((x, v) :: m)
    else (x, v) :: Memory.write m a b

/-- The canonical form above a bound: addresses strictly rising from at least `lo`, and no entry that reads as an unlisted
address does. -/
def Memory.wfFrom : Nat → List Host.Cell → Bool
  | _, [] => true
  | lo, (x, v) :: m => decide (lo ≤ x) && v != Config.coldByte && Memory.wfFrom (x + 1) m

/-- The canonical form (DESIGN CHOICE, log entry 1). -/
def Memory.wf (m : List Host.Cell) : Bool := Memory.wfFrom 0 m

/-- A byte string written at rising addresses. -/
def Memory.writeBytes : List Host.Cell → Nat → List Byte → List Host.Cell
  | m, _, [] => m
  | m, a, b :: bs => Memory.writeBytes (Memory.write m a b) (a + 1) bs

/-! ### The address space -/

/-- Stacked memory (R326). -/
def inStack (pa : Nat) : Bool := decide (pa < 2 ^ 40)

/-- The HOST window (R440). -/
def inHost (pa : Nat) : Bool := decide (2 ^ 48 ≤ pa ∧ pa < 2 ^ 50)

/-- The transport window (R361). -/
def inPeer (pa : Nat) : Bool := decide (2 ^ 50 ≤ pa ∧ pa < 2 ^ 51)

/-- The management block (R442). -/
def inMgmt (pa : Nat) : Bool := decide (2 ^ 51 ≤ pa ∧ pa < 2 ^ 51 + 0x8000)

/-- A 64-byte line's number. -/
def lineOf (pa : Nat) : Nat := pa / 64

/-- The value of a key in an association list. -/
def aget {α β : Type} [DecidableEq α] : List (α × β) → α → Option β
  | [], _ => none
  | (k, v) :: l, a => if a = k then some v else aget l a

/-- An association list with a key set. -/
def aset {α β : Type} [DecidableEq α] : List (α × β) → α → β → List (α × β)
  | [], a, b => [(a, b)]
  | (k, v) :: l, a, b => if a = k then (k, b) :: l else (k, v) :: aset l a b

/-- An association list without a key. -/
def adel {α β : Type} [DecidableEq α] (l : List (α × β)) (a : α) : List (α × β) := l.filter (fun p => p.1 ≠ a)

/-- A byte of the management block: the fuse map at 0x000 and the ready map at 0x040 of each die, and zero elsewhere (R442). -/
def State.mgmtByte (s : State) (off : Nat) : Byte :=
  let d := s.dies[off / 0x1000 % 8]'(Nat.mod_lt _ (by decide))
  let o := off % 0x1000
  if o < 32 then bits d.fuse (8 * o) 8
  else if 64 ≤ o ∧ o < 96 then bits d.ready (8 * (o - 64)) 8
  else 0

/-- The byte that an access under a key reads at a physical address (R326): in stacked memory the line's decryption under that
key, in the HOST window the byte as it stands (DESIGN CHOICE, log entry 1). -/
def State.byteAt (s : State) (key : Key) (pa : Nat) : Byte :=
  if inMgmt pa then s.mgmtByte (pa - 2 ^ 51)
  else if inStack pa then
    match aget s.lineKey (lineOf pa) with
    | none => Memory.read s.mem pa
    | some kw =>
      if kw = key then Memory.read s.mem pa
      else (readUnder kw key pa ((List.range 16).map (fun i => Memory.read s.mem (pa / 16 * 16 + i)))).getD (pa % 16) 0
  else Memory.read s.mem pa

/-- A byte string read under a key. -/
def State.bytesAt (s : State) (key : Key) (pa n : Nat) : List Byte := (List.range n).map (fun i => s.byteAt key (pa + i))

/-- A line brought under a key: a line last written under another keeps, under the new key, what that key reads (R326). -/
def State.rekey (s : State) (key : Key) (line : Nat) : State :=
  match aget s.lineKey line with
  | none => { s with lineKey := aset s.lineKey line key }
  | some kw =>
    if kw = key then s
    else { s with
      mem := Memory.writeBytes s.mem (64 * line) (s.bytesAt key (64 * line) 64),
      lineKey := aset s.lineKey line key }

/-- The lines that a byte range touches. -/
def linesOf (pa n : Nat) : List Nat :=
  if n = 0 then [] else (List.range (lineOf (pa + n - 1) - lineOf pa + 1)).map (· + lineOf pa)

/-- The poison marks after a write of a byte range: a write of a whole line clears its mark, a partial write keeps it (R403). -/
def State.clearPoison (s : State) (pa n : Nat) : State :=
  { s with poison := s.poison.filter (fun l => !(decide (pa ≤ 64 * l) && decide (64 * l + 64 ≤ pa + n))) }

/-- Whether two byte ranges meet. -/
def overlap (a n b m : Nat) : Bool := decide (a < b + m ∧ b < a + n)

/-- A row manager's reservation after a store to a byte range: one to its line ends it (PRESUMED, log entry 23). -/
def Rm.unreserve (r : Rm) (pa n : Nat) : Rm :=
  { r with resv := r.resv.filter (fun a => !overlap (64 * (a.toNat / 64)) 64 pa n) }

/-- One write of a byte string under a key, performed. -/
def State.putBytes (s : State) (key : Key) (pa : Nat) (bs : List Byte) : State :=
  let s1 := if inStack pa then (linesOf pa bs.length).foldl (fun s l => s.rekey key l) s else s
  ({ s1 with
    mem := Memory.writeBytes s1.mem pa bs,
    rms := s1.rms.map (fun p => (p.1, p.2.unreserve pa bs.length)) } : State).clearPoison pa bs.length

/-- A line marked poisoned (R403). -/
def State.setPoison (s : State) (line : Nat) : State :=
  if line ∈ s.poison then s else { s with poison := line :: s.poison }

/-- The lowest address of a range that lies in a poisoned line. -/
def State.poisonIn (s : State) (pa n : Nat) : Option Nat :=
  ((linesOf pa n).find? (fun l => decide (l ∈ s.poison))).map (fun l => max pa (64 * l))

/-- A little-endian number read. -/
def State.numAt (s : State) (key : Key) (pa n : Nat) : Nat := bytesToNat (s.bytesAt key pa n)

/-- A 64-bit double-word read. -/
def State.dwordAt (s : State) (key : Key) (pa : Nat) : Word64 := BitVec.ofNat 64 (s.numAt key pa 8)

/-- A number written as `n` bytes. -/
def State.putNum (s : State) (key : Key) (pa n v : Nat) : State := s.putBytes key pa (natToBytes n v)

/-! ### Issued accesses -/

/-- The byte that a request writes at an address, under the key of its page, if it writes there. -/
def SliceReq.byteFor (r : SliceReq) (pa : Nat) : Option Byte := if r.write then aget r.bytes pa else none

/-- Bytes with their addresses, as runs of adjoining addresses. -/
def runsOf : List (Nat × Byte) → List (Nat × List Byte)
  | [] => []
  | (a, b) :: rest => match runsOf rest with
    | (x, bs) :: rs => if x = a + 1 then (a, b :: bs) :: rs else (a, [b]) :: (x, bs) :: rs
    | [] => [(a, [b])]

/-- A byte string with its addresses. -/
def addressed (pa : Nat) (bs : List Byte) : List (Nat × Byte) := bs.mapIdx (fun i b => (pa + i, b))

/-- The slice that holds a physical address (DESIGN CHOICE, log entry 137). -/
def sliceOf (pa : Nat) : BitVec 7 := BitVec.ofNat 3 (pa / 2 ^ 37) ++ Config.sliceIn (pa / 64)

/-- A count that its slice returns to the source (R348). -/
def State.returnCount (s : State) (k : SliceCount) : State :=
  { s with
    counts := s.counts.erase k,
    cells := s.cells.map (fun p => if p.1 = k.src then
      (p.1, { p.2 with mp := { p.2.mp with acked := p.2.mp.acked.set k.ph.toNat (p.2.mp.acked[k.ph.toNat] + k.n) } }) else p) }

/-- One more write counted at a slice, for its source and phase (R306, R348). A new entry of a slice that holds 256 puts out its oldest,
and a count that reaches 64 goes back at once (DEDUCED, log entry 138). -/
def State.countWrite (s : State) (slice : BitVec 7) (c : CellId) (ph : BitVec 2) : State :=
  match s.counts.find? (fun x => x.src = c ∧ x.ph = ph ∧ x.slice = slice) with
  | some k =>
    let k1 := { k with n := k.n + 1 }
    let s1 : State := { s with counts := s.counts.map (fun x => if x = k then k1 else x) }
    if 64 ≤ k1.n then s1.returnCount k1 else s1
  | none =>
    let s1 := match s.counts.filter (fun x => x.slice = slice) with
      | [] => s
      | old :: rest => if 255 ≤ rest.length then s.returnCount old else s
    { s1 with counts := s1.counts ++ [⟨slice, c, ph, 1⟩] }

/-- A request that writes performed at its slice (R305): its bytes, the poison mark of an `mwr` of a poisoned record (R403),
and the slice's count for the source and phase (R306). -/
def State.performWrite (s : State) (r : SliceReq) : State :=
  let s1 := (runsOf r.bytes).foldl (fun s x => s.putBytes r.key x.1 x.2) s
  let s2 := if r.poison then (linesOf r.pa r.len).foldl State.setPoison s1 else s1
  match r.src with
  | .seq _ => s2
  | .cell c => s2.countWrite (sliceOf r.pa) c r.ph

/-- The writes that a sequencer has issued and that have not been performed. -/
def State.pendOf (s : State) (q : BitVec 7) : List SliceReq := s.pend.filter (fun r => r.src = .seq q)

/-- Requests taken out of those issued and performed, in their order. -/
def State.performAll (s : State) (rs : List SliceReq) : State :=
  rs.foldl State.performWrite { s with pend := s.pend.filter (fun r => decide (r ∉ rs)) }

/-- Every issued store of a sequencer performed, in program order (R148, R150) (DESIGN CHOICE, log entry 13). -/
def State.flush (s : State) (q : BitVec 7) : State :=
  (s.pendOf q).foldl State.performWrite { s with pend := s.pend.filter (fun r => r.src ≠ .seq q) }

/-- The issued stores of a sequencer up to the last that meets a byte range, performed: accesses to overlapping bytes are performed in
program order (R147). -/
def State.flushOver (s : State) (q : BitVec 7) (pa n : Nat) : State :=
  let mine := s.pendOf q
  let n1 := mine.length - (mine.reverse.takeWhile (fun r => !overlap r.pa r.len pa n)).length
  if n1 = 0 then s
  else (mine.take n1).foldl State.performWrite { s with pend := s.pend.filter (fun r => r.src ≠ .seq q) ++ mine.drop n1 }

/-- The byte a sequencer's load returns (R147): its own latest earlier store, or what the slice holds. A store under another key counts
as performed, for the load deciphers its whole block (R326). -/
def State.seqByte (s : State) (q : BitVec 7) (key : Key) (pa : Nat) : Byte :=
  let mine := s.pendOf q
  if mine.all (fun r => decide (r.key = key)) || !inStack pa then mine.foldl (fun b r => (r.byteFor pa).getD b) (s.byteAt key pa)
  else (mine.foldl State.performWrite s).byteAt key pa

/-- A number that a sequencer's load returns. -/
def State.seqNum (s : State) (q : BitVec 7) (key : Key) (pa n : Nat) : Nat :=
  bytesToNat ((List.range n).map (fun i => s.seqByte q key (pa + i)))

/-- A relaxed store of a sequencer issued (R147) (DESIGN CHOICE, log entry 13). -/
def State.issueStore (s : State) (q : BitVec 7) (key : Key) (pa : Nat) (bs : List Byte) : State :=
  { s with
    pend := s.pend ++ [{ born := s.cyc, src := .seq q, ph := 0, write := true, va := 0, pa := pa, bytes := addressed pa bs, len := bs.length, key := key,
                         poison := false, id := 0, off := 0, inv := none, served := none }] }

end Sys2Proof.Machine
end

