-- ==== Sys2Proof/Machine/Ops.lean ====
section
/-!
DEFINITION. The named operations over the machine: reading and writing its parts, translation, the black box, raising a fault,
taking a trap and returning from one.
-/

namespace Sys2Proof.Machine

/-- What a meaning answers. -/
abbrev Result := Host.Outcome State Fault Refusal

/-- A signed 40-bit count (R372) (DEDUCED, log entry 83). -/
def wrap40 (x : Int) : Int := (BitVec.ofInt 40 x).toInt

/-! ### Parts of the machine -/

def State.seq (s : State) (q : BitVec 7) : Seq := s.seqs[q.toNat]
def State.setSeq (s : State) (q : BitVec 7) (v : Seq) : State := { s with seqs := s.seqs.set q.toNat v }
def State.modSeq (s : State) (q : BitVec 7) (f : Seq → Seq) : State := s.setSeq q (f (s.seq q))

def State.die (s : State) (d : BitVec 3) : Die := s.dies[d.toNat]
def State.setDie (s : State) (d : BitVec 3) (v : Die) : State := { s with dies := s.dies.set d.toNat v }
def State.modDie (s : State) (d : BitVec 3) (f : Die → Die) : State := s.setDie d (f (s.die d))

/-- A cell; one that is not listed holds nothing. -/
def State.cell (s : State) (c : CellId) : Cell := (aget s.cells c).getD Cell.reset
def State.setCell (s : State) (c : CellId) (v : Cell) : State := { s with cells := aset s.cells c v }
def State.modCell (s : State) (c : CellId) (f : Cell → Cell) : State := s.setCell c (f (s.cell c))

def State.ctx (s : State) (n : BitVec 9) : Ctx := (aget s.ctxs n).getD Ctx.reset
def State.setCtx (s : State) (n : BitVec 9) (v : Ctx) : State := { s with ctxs := aset s.ctxs n v }

def State.rm (s : State) (m : BitVec 10) : Rm := (aget s.rms m).getD Rm.reset
def State.setRm (s : State) (m : BitVec 10) (v : Rm) : State := { s with rms := aset s.rms m v }

def State.region (s : State) (n : Nat) : Option Region := s.regions.find? (fun r => r.serial = n)
def State.setRegion (s : State) (r : Region) : State :=
  { s with regions := s.regions.map (fun x => if x.serial = r.serial then r else x) }
def State.modRegion (s : State) (n : Nat) (f : Region → Region) : State :=
  { s with regions := s.regions.map (fun x => if x.serial = n then f x else x) }

/-- Whether a region holds its blocks: not one that is saved, retired or refused. -/
def Region.placed (r : Region) : Bool :=
  match r.kstate with
  | .loading | .resident | .active | .frozen => true
  | .saved | .retired | .refused => false

/-- Whether a block of a die lies in a region's rectangle. -/
def Region.covers (r : Region) (d : BitVec 3) (x y : BitVec 4) : Bool :=
  r.die == d && decide (r.x.toNat ≤ x.toNat ∧ x.toNat < r.x.toNat + r.w) && decide (r.y.toNat ≤ y.toNat ∧ y.toNat < r.y.toNat + r.h)

def Region.hasCell (r : Region) (c : CellId) : Bool := r.covers c.die c.x c.y

/-- The region that holds a cell. -/
def State.regionOf (s : State) (c : CellId) : Option Region := s.regions.find? (fun r => r.placed && r.hasCell c)

/-- Whether a pre-emption cuts a region, and whether a retune does. -/
def Region.cutting (r : Region) : Bool := match r.cut with
  | .cutting _ => true
  | _ => false

def Region.retuneCuts (r : Region) : Bool := match r.retunes with
  | t :: _ => t.started && !t.byToken && r.kstate != .frozen
  | [] => false

/-- Whether a mute passes a region: a pre-emption or a retune by a cut. -/
def Region.muting (r : Region) : Bool := r.cutting || r.retuneCuts

/-- Whether a mute passes the region of a cell: its `agen` sources emit nothing behind it (R374). -/
def State.mutingAt (s : State) (c : CellId) : Bool := match s.regionOf c with
  | some r => r.muting
  | none => false

/-- The listed cells of a region. -/
def State.cellsOf (s : State) (r : Region) : List CellId := (s.cells.map Prod.fst).filter r.hasCell

/-- The cell of a region at region-relative placed block coordinates. -/
def Region.cellAt (r : Region) (px py : BitVec 4) (n : BitVec 6) : CellId := { die := r.die, y := r.y + py, x := r.x + px, n := n }

/-- The placed coordinates of a logical block (R268). -/
def Region.placeOf (r : Region) (lx ly : BitVec 4) : Option (BitVec 4 × BitVec 4) :=
  (r.map.find? (fun p => p.lx = lx ∧ p.ly = ly)).map (fun p => (p.px, p.py))

/-- The cell of a region at logical block coordinates. -/
def Region.logical (r : Region) (lx ly : BitVec 4) (n : BitVec 6) : Option CellId :=
  (r.placeOf lx ly).map (fun p => r.cellAt p.1 p.2 n)

/-- The north-west cell of the lead block (DEDUCED, log entry 134). -/
def Region.leadCell (r : Region) : CellId := { die := r.die, y := r.leadY, x := r.leadX, n := 0 }

/-- The region a sequencer runs, while it holds its blocks (DESIGN CHOICE, log entry 46). -/
def State.regionOfSeq (s : State) (q : BitVec 7) : Option Region :=
  match (s.seq q).region with
  | none => none
  | some n => s.region n

/-- The die of a sequencer, and the block number (R10, R30). -/
def seqDie (q : BitVec 7) : BitVec 3 := bits q 4 3
def blockNum (c : CellId) : BitVec 8 := c.y ++ c.x

/-- The sequencer of the quadrant of a block (R10, R30). -/
def seqOfBlock (d : BitVec 3) (x y : Nat) : BitVec 7 := BitVec.ofNat 7 (16 * d.toNat + 4 * (y / 4) + x / 4)

/-- The slack register of the region of a cell. -/
def State.slackOf (s : State) (c : CellId) : BitVec 12 := match s.regionOf c with
  | some r => r.slack
  | none => 0xFFF

/-- The cell address of R12. -/
def cellWord (c : CellId) (node : BitVec 3) : Word32 :=
  (0 : BitVec 9) ++ node ++ c.die ++ c.y ++ c.x ++ c.n ++ (0 : BitVec 3)

/-- A cell and a node from a cell address; none where a reserved bit is set (R12). -/
def cellOfWord (w : Word32) : Option (CellId × BitVec 3) :=
  if bits w 23 9 ≠ 0 ∨ bits w 0 3 ≠ 0 then none
  else some ({ die := bits w 17 3, y := bits w 13 4, x := bits w 9 4, n := bits w 3 6 }, bits w 20 3)

/-- The silicon pattern of R13, row by row from c0. -/
def cellKind (n : BitVec 6) : CellKind :=
  let row : List CellKind := match n.toNat / 8 with
    | 0 => [.memport, .arith, .copy, .arith, .arith, .copy, .arith, .memport]
    | 1 => [.memport, .join, .arith, .matrix, .matrix, .arith, .join, .steer]
    | 2 => [.memport, .online, .arith, .accum, .accum, .arith, .online, .convert]
    | 3 => [.addrgen, .steer, .copy, .window, .reorder, .copy, .steer, .convert]
    | 4 => [.addrgen, .convert, .copy, .reorder, .window, .copy, .online, .convert]
    | 5 => [.memport, .online, .arith, .accum, .accum, .arith, .online, .steer]
    | 6 => [.memport, .join, .arith, .matrix, .matrix, .arith, .join, .online]
    | _ => [.memport, .arith, .copy, .arith, .arith, .copy, .arith, .memport]
  row.getD (n.toNat % 8) .arith

/-- A free value of the model: the next serial number, and the state that has used it (DESIGN CHOICE, log entry 5)
(DESIGN CHOICE, log entry 117). -/
def State.freshNat (s : State) : Nat × State := (s.fresh, { s with fresh := s.fresh + 1 })

/-! ### Sequencer registers (R121, R124, R125) -/

def Seq.readG (sq : Seq) (r : BitVec 5) : Word64 := if r = 0 then 0 else sq.g[r.toNat]
def Seq.writeG (sq : Seq) (r : BitVec 5) (v : Word64) : Seq := if r = 0 then sq else { sq with g := sq.g.set r.toNat v }
def Seq.readP (sq : Seq) (k : BitVec 3) : Bool := if k = 0 then true else sq.p[k.toNat]
def Seq.writeP (sq : Seq) (k : BitVec 3) (v : Bool) : Seq := if k = 0 then sq else { sq with p := sq.p.set k.toNat v }

/-- KSTAT (R124). -/
def Seq.kstat (sq : Seq) : Word64 :=
  (0 : BitVec 48) ++ sq.sections ++ (0 : BitVec 4) ++ BitVec.ofBool sq.disc ++ BitVec.ofBool sq.intrap
    ++ BitVec.ofBool sq.resumed ++ BitVec.ofBool sq.cmode

/-- ATTACHED of ACCSTAT (R125). -/
def Seq.attached (sq : Seq) : BitVec 16 :=
  BitVec.ofNat 16 ((List.range 16).foldl (fun a i => if (sq.accs[i]?.getD Acc.reset).attach.isSome then a + 2 ^ i else a) 0)

/-- ACCSTAT (R125). -/
def Seq.accstat (sq : Seq) : Word64 := (0 : BitVec 16) ++ sq.attached ++ sq.accPois ++ sq.accSat

/-- The next instruction. -/
def Seq.advance (sq : Seq) : Seq := { sq with pc := sq.pc + 4 }

/-- The state in which the running sequencer goes on behind its instruction. -/
def State.goOn (s : State) (sq : Seq) : Result := .next (s.setSeq s.seqTurn sq.advance)

/-! ### The black box (R408) -/

/-- An event recorded: the last 1,024 are kept. -/
def State.event (s : State) (d : BitVec 3) (typ : BitVec 8) (ctx : BitVec 9) (summary addr aux : Word64) : State :=
  s.modDie d (fun x =>
    { x with
      bb := (⟨x.eseq, typ, ctx, summary, addr, aux⟩ :: x.bb).take 1024,
      eseq := x.eseq + 1 })

/-- An event of a type whose SUMMARY the spec leaves to the event: a free value (DESIGN CHOICE, log entry 5). -/
def State.note (s : State) (d : BitVec 3) (typ : BitVec 8) (ctx : BitVec 9) (addr aux : Word64) : State :=
  let (n, s1) := s.freshNat
  s1.event d typ ctx (Config.freeValue n) addr aux

/-- A soft error counted on a die, with its event (R393, R403, R408). -/
def State.softError (s : State) (d : BitVec 3) (ctx : BitVec 9) (addr : Word64) : State :=
  (s.modDie d (fun x => { x with softErrs := x.softErrs + 1 })).note d 3 ctx addr 0

/-- A context changed; a change of its state is an event of a die (R363, R408). -/
def State.moveCtx (s : State) (d : BitVec 3) (n : BitVec 9) (f : Ctx → Ctx) : State :=
  let old := s.ctx n
  let s1 := s.setCtx n (f old)
  if (f old).state = old.state then s1 else s1.note d 5 n 0 0

/-! ### Faults (R389 to R393) -/

inductive FaultClass where
  | a | r | s | k
  deriving DecidableEq, Repr

/-- The class of a fault code (R392). -/
def faultClass (code : Nat) : FaultClass :=
  match code with
  | 0x0B | 0x0C => .r
  | 0x11 => .a
  | 0x16 => .s
  | _ => .k

/-- The class as the summary codes it. -/
def FaultClass.code : FaultClass → BitVec 2
  | .a => 0
  | .r => 1
  | .s => 2
  | .k => 3

/-- The region fault summary of R391, from the cells that recorded a fault. -/
def State.faultSummary (s : State) (r : Region) : Option Word64 :=
  let valid := (s.cellsOf r).filter (fun c => (s.cell c).fault.valid)
  match valid.find? (fun c => (s.cell c).fault.primary) with
  | none => none
  | some c =>
    let f := (s.cell c).fault
    some (f.fseq ++ bits (cellWord c f.node) 0 23 ++ (faultClass f.code.toNat).code
      ++ BitVec.ofBool (decide (1 < valid.length)) ++ f.code)

/-- A wait that is a request, which no stop abandons (R131, R400). -/
def SeqWait.isRequest : SeqWait → Bool
  | .sigv .. | .keyh .. => true
  | _ => false

/-- Whether a cell's listed token is a mute. -/
def isMute (u : Item) : Bool := u.tag.kind == kMute

/-- Whether an invocation of a region cannot be rerun (R393, R395): it left the region, it has been discarded 16 times, a flip is in
progress, an undo log of it has overflowed, or a matrix cell holds sums of it that began before it. -/
def State.noRerun (s : State) (r : Region) (i : Inv) : Bool :=
  decide (i ∈ r.norerun) || r.cfg.state == .flipping || r.discards.any (fun p => decide (p.1 = i ∧ 16 ≤ p.2))
    || (s.cellsOf r).any (fun c =>
      let x := s.cell c
      (x.fb.undoFull && decide (some i ∈ x.cur.toList)) || (decide (i ∈ x.mx.added) && x.mx.began != some i))

/-- A queue without its mutes. -/
def Queue.unmute (q : Queue) : Queue := q.discard isMute

/-- The mutes of a region removed wherever they are, and its cells free to fire. -/
def State.unmute (s : State) (r : Region) : State :=
  let free (x : Cell) : Cell := { x with queues := x.queues.map Queue.unmute, muted := false }
  let s1 : State := { s with
    cells := s.cells.map (fun p => if r.hasCell p.1 then (p.1, free p.2) else p),
    wires := s.wires.filter (fun w => !(isMute w.item && r.hasCell w.dst)) }
  s1.modDie r.die (fun d => { d with
    egress := d.egress.map (fun e => if r.hasCell e.src then
        { e with waiting := e.waiting.filter (fun u => !isMute u.2), entries := e.entries.filter (fun x => !isMute x.item) } else e),
    harp := { d.harp with wait := d.harp.wait.filter (fun p => !(isMute p.item && r.hasCell p.src)) } })

/-- A pre-emption that a freeze stopped, in another region of its context: its mutes are removed, and its lead sequencer goes on (R363,
R380). -/
def State.abandonCut (s : State) (r : Region) : State :=
  if !r.cutting then s
  else
    let s1 := s.modRegion r.serial (fun r => { r with cut := .none })
    if r.retuneCuts || r.kstate == .loading then s1
    else (s1.unmute r).modSeq r.lead (fun sq => { sq with run := if sq.run = .stopped then .running else sq.run })

/-- The pre-emption of a context abandoned, as a region of it becomes FROZEN (R363, R380). -/
def State.abandonPreempt (s : State) (frozen : Region) : State :=
  if (s.ctx frozen.launch.ctx).state = .preempting then
    (s.regions.filter (fun r => r.launch.ctx = frozen.launch.ctx ∧ r.serial ≠ frozen.serial ∧ r.freezing = false)).foldl State.abandonCut s
  else s

/-- A region in which every listed cell has stopped, and whose lead sequencer has no access outstanding (R131), is FROZEN (R389, R231): its queues, its sequencer, its kernel and its context
with it. A pre-emption whose cut is not complete stops: its mutes are removed wherever they are, and its context has abandoned it (R363, R380). The
resident OS is asked
for a recovery action, or, in class A, none is needed (R393). -/
def State.freezeIfStopped (s : State) (serial : Nat) : State :=
  match s.region serial with
  | none => s
  | some r =>
    if r.freezing && (s.cellsOf r).all (fun c => (s.cell c).stopped) && (s.pendOf r.lead).isEmpty && !(s.seq r.lead).wait.isRequest then
      let cut := r.cutting
      let s0 := if cut && !r.retuneCuts then s.unmute r else s
      let freezeCell (x : Cell) : Cell :=
        { x with
          queues := x.queues.map (fun q => { q with frozen := true }),
          muted := false,
          fault := { x.fault with
            norerun := x.fault.norerun || ((x.fault.inv.map (s.noRerun r)).getD false) } }
      let s1 : State := { s0 with cells := s0.cells.map (fun p => if r.hasCell p.1 then (p.1, freezeCell p.2) else p) }
      let s2 := s1.modSeq r.lead (fun sq =>
        { sq with
          run := if sq.run = .running then .stopped else sq.run,
          outPort := sq.outPort.map (fun o => o.map (fun q => { q with frozen := true })) })
      let sum := s.faultSummary r
      let cls := faultClass ((sum.getD 0).toNat % 64)
      let s3 := s2.setRegion { r with
        kstate := .frozen, freezing := false, summary := sum, cut := if cut then .none else r.cut,
        fclass := cls.code.toNat, delivered := false }
      let s4 := (s3.abandonPreempt r).moveCtx r.die r.launch.ctx (fun cx =>
        if cx.state = .frozen then cx
        else { cx with state := .frozen, froze := if cx.state = .preempting then .running else cx.state })
      let s5 := s4.modDie r.die (fun d => { d with
        parts := d.parts.map (fun p => if p.num = r.launch.part ∧ cls ≠ .a then { p with pendF := p.pendF ++ [serial] } else p) })
      let at_ := ((s.cellsOf r).find? (fun c => (s.cell c).fault.primary)).map (fun c => (s.cell c).fault.addr)
      s5.event r.die 1 r.launch.ctx (sum.getD 0) (at_.getD 0) 0
    else s

/-- The place of a cell in the drain chain of its region (R394). -/
def Region.drainRank (r : Region) (c : CellId) : Nat := ((c.y - r.y).toNat * 16 + (c.x - r.x).toNat) * 64 + c.n.toNat

/-- The cell of a region that holds the primary fault. -/
def State.primaryOf (s : State) (r : Region) : Option CellId :=
  (s.cellsOf r).find? (fun c => (s.cell c).fault.valid && (s.cell c).fault.primary)

/-- Whether a fault that a cell records now is the region's primary one (R390): the first, or one of the same cycle that comes before it in
the drain chain. -/
def State.isPrimary (s : State) (r : Region) (c : CellId) : Bool :=
  if r.kstate == .frozen then false
  else if !r.freezing then true
  else r.fcycle == s.cyc && (match s.primaryOf r with
    | some p => decide (r.drainRank c < r.drainRank p)
    | none => true)

/-- The register of a region's primary fault, no longer the primary one. -/
def State.demote (s : State) (r : Region) : State := match s.primaryOf r with
  | some p => s.modCell p (fun x => { x with fault := { x.fault with primary := false } })
  | none => s

/-- A fault raised in a cell (R389, R391): its register, unless it already holds a fault, and the freeze of its region. The cell
itself stops at once, and fires no more; SKID counts what it has fired since the freeze began. In a FROZEN region the summary takes it in. -/
def State.raiseFault (s : State) (c : CellId) (f : FaultReg) : State :=
  let x := s.cell c
  let d := s.die c.die
  match s.regionOf c with
  | none => s.setCell c { x with fault := { f with valid := true, primary := true, fseq := d.fseq } }
  | some r =>
    let primary := !x.fault.valid && s.isPrimary r c
    let noRerun := f.norerun || ((f.inv.map (s.noRerun r)).getD false)
    let x1 := if x.fault.valid then x
      else { x with fault := { f with valid := true, primary := primary, skid := x.fault.skid, norerun := noRerun, fseq := d.fseq } }
    let s0 := if primary then s.demote r else s
    let s1 := (s0.setCell c { x1 with stopped := true }).setDie c.die { d with fseq := d.fseq + 1 }
    if r.kstate = .frozen then s1.modRegion r.serial (fun r => { r with summary := s1.faultSummary r })
    else
      (s1.modRegion r.serial (fun r => { r with freezing := true, fcycle := if r.freezing then r.fcycle else s.cyc })).freezeIfStopped r.serial

/-- A fault with a code alone. -/
def FaultReg.ofCode (code : Nat) : FaultReg := { FaultReg.reset with code := BitVec.ofNat 6 code }

/-- A fault of the lead sequencer: it names the lead block's north-west cell, and the sequencer stops (R303, R383, R391). -/
def State.seqFault (s : State) (q : BitVec 7) (code : Nat) (addr : Word64) : State :=
  let s1 := s.modSeq q (fun sq => { sq with run := .stopped })
  match s1.regionOfSeq q with
  | none => s1
  | some r => s1.raiseFault r.leadCell { FaultReg.ofCode code with addr := addr }

/-! ### Traps (R130, R383, R387) -/

/-- The causes of R387. -/
def tIllegal      : Nat := 1
def tUnassigned   : Nat := 2
def tReserved     : Nat := 3
def tReservedEnc  : Nat := 4
def tMisaligned   : Nat := 5
def tMisTarget    : Nat := 6
def tPageFault    : Nat := 7
def tAccessFault  : Nat := 8
def tPortUnbound  : Nat := 9
def tPortBusy     : Nat := 10
def tInvalid      : Nat := 11
def tNoSection    : Nat := 12
def tSectionBusy  : Nat := 13
def tNoGroup      : Nat := 14
def tGroupBusy    : Nat := 15
def tQueueBusy    : Nat := 16
def tConfigEmpty  : Nat := 17
def tConfigBusy   : Nat := 18
def tConfigFailed : Nat := 19
def tBarUnset     : Nat := 20
def tBarNoArrival : Nat := 21
def tRetuneBusy   : Nat := 22
def tStatMode     : Nat := 23
def tSoftware     : Nat := 24
def tIllegalRet   : Nat := 25
def tReadOnly     : Nat := 26
def tRegionFrozen : Nat := 27
def tPoison       : Nat := 28
def tRegionFault  : Nat := 29

/-- TakeTrap (R383, after R130): the registers, and the handler at TVEC; where the sequencer is in a trap already or TVEC is 0,
the kernel fault, whose dword 1 holds TVAL where the cause makes it an address. -/
def State.takeTrap (s : State) (q : BitVec 7) (cause : Nat) (val : Word64) : State :=
  let sq := s.seq q
  let sq1 := { sq with tepc := sq.pc, tcause := BitVec.ofNat 64 cause, tval := val, wait := .none }
  if sq.intrap || sq.tvec == 0 then
    (s.setSeq q sq1).seqFault q 0x1D (if cause = 5 ∨ cause = 7 ∨ cause = 8 ∨ cause = 28 then val else 0)
  else s.setSeq q { sq1 with intrap := true, pc := sq.tvec }

/-- The running sequencer traps. -/
def State.trap (s : State) (cause : Nat) (val : Word64) : Result := .next (s.takeTrap s.seqTurn cause val)

/-- The return from a trap (R384, R397): after `rte` in a handler of a FROZEN region, the sequencer waits for the OS's choice. -/
def State.trapReturn (s : State) (q : BitVec 7) : State :=
  let sq := s.seq q
  s.setSeq q { sq with pc := sq.tepc, intrap := false, run := if sq.run = .handler then .stopped else sq.run }

/-! ### Bridges (R9, R350 to R352) -/

/-- Whether flits pass from one place to another: every bridge on the way is UP, one of them is in FAULT, or one is neither. -/
inductive PathState where
  | up | broken | down
  deriving DecidableEq, Repr

/-- The bridges that a flit from one die to another crosses, as a die and its edge (0 west, 1 east, 2 north, 3 south): along the row
first, then between the rows. -/
def bridgeHops (a b : BitVec 3) : List (BitVec 3 × BitVec 2) :=
  let (ra, ca, rb, cb) := (a.toNat / 4, a.toNat % 4, b.toNat / 4, b.toNat % 4)
  let row : List (BitVec 3 × BitVec 2) :=
    if ca ≤ cb then (List.range (cb - ca)).map (fun i => (BitVec.ofNat 3 (4 * ra + ca + i), 1))
    else (List.range (ca - cb)).map (fun i => (BitVec.ofNat 3 (4 * ra + ca - i), 0))
  row ++ (if ra < rb then [(BitVec.ofNat 3 cb, 3)] else if rb < ra then [(BitVec.ofNat 3 (4 + cb), 2)] else [])

/-- The die at the other end of an edge. -/
def acrossEdge (d : BitVec 3) (e : BitVec 2) : Option (BitVec 3) :=
  let c := d.toNat % 4
  match e.toNat with
  | 0 => if c = 0 then none else some (d - 1)
  | 1 => if c = 3 then none else some (d + 1)
  | 2 => if d.toNat < 4 then none else some (d - 4)
  | _ => if d.toNat < 4 then some (d + 4) else none

/-- The states of a bridge at its two ends. -/
def State.bridgeEnds (s : State) (h : BitVec 3 × BitVec 2) : List LinkState :=
  [((s.die h.1).bridge[h.2.toNat]).state] ++ (match acrossEdge h.1 h.2 with
    | some d => [((s.die d).bridge[(h.2 ^^^ 1).toNat]).state]
    | none => [.down])

/-- The way between two dies, there and back. -/
def State.pathDies (s : State) (a b : BitVec 3) : PathState :=
  let ends := (bridgeHops a b ++ bridgeHops b a).flatMap s.bridgeEnds
  if ends.any (fun x => x == .fault) then .broken else if ends.all (fun x => x == .up) then .up else .down

/-- The die whose stacks hold a physical address (R326, R442): HOST, PEER and management addresses are reached from every die. -/
def homeDie (d : BitVec 3) (pa : Nat) : BitVec 3 := if inStack pa then BitVec.ofNat 3 (pa / 2 ^ 37) else d

/-- What the ECC of a line of stacked memory shows (R403): a single-symbol error is corrected and counted, any other poisons the line
(DEDUCED, log entry 107). -/
def State.eccAt (s : State) (line : Nat) : ScrubResult → State
  | .clean => s
  | .corrected => s.softError (homeDie 0 (64 * line)) 0 (BitVec.ofNat 64 (64 * line))
  | .uncorrectable => s.setPoison line

/-- What ECC shows of the line, if any, in which an access finds an error (R403) (DEDUCED, log entry 107). -/
def State.eccFound (s : State) : Option (Nat × ScrubResult) → State
  | some (line, found) => if inStack (64 * line) then s.eccAt line found else s
  | none => s

/-- The way from a die to a physical address (DEDUCED, log entry 105). -/
def State.pathTo (s : State) (d : BitVec 3) (pa : Nat) : PathState := s.pathDies d (homeDie d pa)

/-! ### Translation (R321 to R329) -/

def pteR (p : Word64) : Bool := p.getLsbD 1
def pteW (p : Word64) : Bool := p.getLsbD 2
def pteX (p : Word64) : Bool := p.getLsbD 3
def pteLeaf (p : Word64) : Bool := p.getLsbD 4
def pteHost (p : Word64) : Bool := p.getLsbD 5
def ptePeer (p : Word64) : Bool := p.getLsbD 6
def ptePa (p : Word64) : Nat := (bits p 12 40).toNat * 4096
def pteKeyh (p : Word64) : BitVec 9 := bits p 52 9

/-- The size in bytes of a page of a size code. -/
def pageBytes (size : BitVec 2) : Nat := 2 ^ (12 + 9 * size.toNat)

/-- Whether a valid entry at a level is malformed (R324). -/
def pteMalformed (level : Nat) (p : Word64) : Bool :=
  let size := 2 ^ (39 - 9 * level)
  bits p 7 5 != 0 || bits p 61 3 != 0 || (pteLeaf p && level == 0) || (!pteLeaf p && level == 3)
    || (!pteLeaf p && (pteR p || pteW p || pteX p || pteHost p || ptePeer p || pteKeyh p != 0))
    || (pteLeaf p &&
        (ptePa p % size != 0 || (pteW p && !pteR p) || (pteHost p && ptePeer p)
          || ((pteHost p || ptePeer p) && pteKeyh p != 0)
          || (!pteHost p && !ptePeer p && !inStack (ptePa p))
          || (pteHost p && !inHost (ptePa p)) || (ptePeer p && !inPeer (ptePa p))))

/-- How a walk ends: at a leaf, or at an invalid or malformed entry of a level. -/
inductive WalkEnd where
  | leaf (e : TlbEntry)
  | bad (level : Nat) (malformed : Bool)
  deriving DecidableEq, Repr

/-- The key with which slot 0 reads and writes (R326, R367). -/
def State.osKey (s : State) : Key := match s.slots.find? (fun k => k.handle = 0) with
  | some k => k.key
  | none => .made 0

/-- The walk from a level's table (R322, R327); `n` levels are left. -/
def State.walkFrom (s : State) (ctx : BitVec 9) (va : Word64) : Nat → Nat → Nat → WalkEnd
  | 0, level, _ => .bad level true
  | n + 1, level, table =>
    let shift := 39 - 9 * level
    let p := s.dwordAt s.osKey (table + 8 * (va.toNat / 2 ^ shift % 512))
    if !p.getLsbD 0 then .bad level false
    else if pteMalformed level p then .bad level true
    else if pteLeaf p then
      .leaf { ctx := ctx, base := va.toNat / 2 ^ shift * 2 ^ shift, size := BitVec.ofNat 2 (3 - level), pte := p }
    else s.walkFrom ctx va n (level + 1) (ptePa p)

/-- The walk of a context's page table (R322). -/
def State.walk (s : State) (ctx : BitVec 9) (va : Word64) : WalkEnd := s.walkFrom ctx va 4 0 (s.ctx ctx).ptroot.toNat

/-- The first way that is not UP, of two. -/
def PathState.both (a b : PathState) : PathState := if a = .up then b else a

/-- The ways from a die to the entries that a walk reads, as far as it comes (R327, R351, R352). -/
def State.walkWay (s : State) (d : BitVec 3) (va : Word64) : Nat → Nat → Nat → PathState
  | 0, _, _ => .up
  | n + 1, level, table =>
    let at_ := table + 8 * (va.toNat / 2 ^ (39 - 9 * level) % 512)
    (s.pathTo d at_).both (
      let p := s.dwordAt s.osKey at_
      if !p.getLsbD 0 || pteMalformed level p || pteLeaf p then .up else s.walkWay d va n (level + 1) (ptePa p))

/-- Whether a cached translation covers an address. -/
def TlbEntry.covers (e : TlbEntry) (ctx : BitVec 9) (va : Nat) : Bool :=
  e.ctx == ctx && decide (e.base ≤ va ∧ va < e.base + pageBytes e.size)

/-- A list of cached translations with one used most recently, at most `cap` of them (R327). -/
def tlbUse (cap : Nat) (e : TlbEntry) (l : List TlbEntry) : List TlbEntry := (e :: l.filter (fun x => x ≠ e)).take cap

/-- A lookup (R327): the translation or how the walk failed, and the two levels after it. -/
structure Lookup where
  found : WalkEnd
  l1    : List TlbEntry
  l2    : List TlbEntry
  deriving DecidableEq, Repr

/-- The lookup in a first-level list of `cap` entries, then in the die's last-level TLB, then by a walk, which fills both. A
failed walk fills neither (DEDUCED, log entry 44). -/
def State.lookup (s : State) (d : BitVec 3) (ctx : BitVec 9) (va : Word64) (cap : Nat) (l1 : List TlbEntry) : Lookup :=
  let l2 := (s.die d).tlb
  match l1.find? (fun e => e.covers ctx va.toNat) with
  | some e => ⟨.leaf e, tlbUse cap e l1, l2⟩
  | none =>
    match l2.find? (fun e => e.covers ctx va.toNat) with
    | some e => ⟨.leaf e, tlbUse cap e l1, tlbUse 8192 e l2⟩
    | none =>
      match s.walk ctx va with
      | .leaf e => ⟨.leaf e, tlbUse cap e l1, tlbUse 8192 e l2⟩
      | .bad n m => ⟨.bad n m, l1, l2⟩

/-- The way of a lookup: that of its walk, where neither level of the TLB holds the translation (R351, R352) (DEDUCED, log entry 105). -/
def State.lookupWay (s : State) (d : BitVec 3) (ctx : BitVec 9) (va : Word64) (l1 : List TlbEntry) : PathState :=
  if l1.any (fun e => e.covers ctx va.toNat) || (s.die d).tlb.any (fun e => e.covers ctx va.toNat) then .up
  else s.walkWay d va 4 0 (s.ctx ctx).ptroot.toNat

/-- The rights that an access needs (R325). -/
inductive Right where
  | r | w | rw | x
  deriving DecidableEq, Repr

def Right.ok (k : Right) (p : Word64) : Bool :=
  match k with
  | .r => pteR p
  | .w => pteW p
  | .rw => pteR p && pteW p
  | .x => pteX p

/-- Why an address is not translated: a page fault, an access fault, or a walk that a bridge holds up, or loses because it is in FAULT. -/
inductive XFault where
  | page | access | held | lost
  deriving DecidableEq, Repr

/-- A translated address: physical, with the key of its page. -/
structure Xlated where
  pa  : Nat
  key : Key
  deriving DecidableEq, Repr

/-- The key of a handle for a context: a KIND 1 slot bound to it (R326, R367, R369). -/
def State.keyFor (s : State) (ctx : BitVec 9) (h : BitVec 9) : Option Key :=
  (s.slots.find? (fun k => k.handle = h ∧ k.ctx = some ctx ∧ k.kind = 1)).map KeySlot.key

/-- The use of a translation (R325, R326, R361, R407): a HOST frame needs the link UP, and a PEER frame needs `peerOk`. -/
def State.useEntry (s : State) (ctx : BitVec 9) (right : Right) (peerOk : Bool) (va : Word64) (e : TlbEntry) :
    Except XFault Xlated :=
  let pa := ptePa e.pte + (va.toNat - e.base)
  if !right.ok e.pte then .error .access
  else if pteHost e.pte then (if s.hostUp then .ok ⟨pa, .made 0⟩ else .error .access)
  else if ptePeer e.pte then (if peerOk then .ok ⟨pa, .made 0⟩ else .error .access)
  else match s.keyFor ctx (pteKeyh e.pte) with
    | some k => .ok ⟨pa, k⟩
    | none => .error .access

/-- A list of cached translations without those of a page (R329). -/
def tlbDrop (ctx : BitVec 9) (va : Word64) (l : List TlbEntry) : List TlbEntry := l.filter (fun e => !e.covers ctx va.toNat)

/-- A sequencer's translation of an address (R142, R321, R327, R329), and the state after it. -/
def State.xlate (s : State) (q : BitVec 7) (right : Right) (va : Word64) : Except XFault Xlated × State :=
  let sq := s.seq q
  let d := seqDie q
  let put (l1 l2 : List TlbEntry) : State :=
    (s.setSeq q { sq with tlb := l1 }).modDie d (fun x => { x with tlb := l2 })
  if bits va 48 16 ≠ 0 then (.error .page, s)
  else match s.lookupWay d sq.ctx va sq.tlb with
  | .down => (.error .held, s)
  | .broken => (.error .lost, s)
  | .up =>
    let l := s.lookup d sq.ctx va 64 sq.tlb
    let drop : State := put (tlbDrop sq.ctx va l.l1) (tlbDrop sq.ctx va l.l2)
    match l.found with
    | .bad _ _ => (.error .page, drop)
    | .leaf e =>
      match s.useEntry sq.ctx right false va e with
      | .ok x => (.ok x, put l.l1 l.l2)
      | .error f => (.error f, drop)

/-- The trap cause of a translation fault (R142). -/
def XFault.cause : XFault → Nat
  | .page => tPageFault
  | _ => tAccessFault

/-- A sequencer that waits to issue its memory access again (R128, R352) (DEDUCED, log entry 105). -/
def State.holdAccess (s : State) (q : BitVec 7) : State := s.modSeq q (fun sq => { sq with wait := .bridge })

/-- What becomes of a sequencer whose address is not translated, from the state before the translation and that after it: its trap, a wait for
the bridge, or the fault of a request that is lost (R142, R351, R352). -/
def State.xtrap (s s1 : State) (q : BitVec 7) (f : XFault) (va : Word64) : State := match f with
  | .page | .access => s1.takeTrap q f.cause va
  | .held => s.holdAccess q
  | .lost => s1.seqFault q 0x19 0

/-! ### Whom a scope reaches (R149) -/

/-- An agent that accesses memory: a sequencer, a cell, or an engine or row manager of a die. -/
inductive Agent where
  | seq (q : BitVec 7)
  | cell (c : CellId)
  | die (d : BitVec 3)
  deriving DecidableEq, Repr

/-- The die of an agent. -/
def Agent.home : Agent → BitVec 3
  | .seq q => seqDie q
  | .cell c => c.die
  | .die d => d

/-- Whether a scope of a sequencer reaches an agent other than it (R149) (DEDUCED, log entry 139). -/
def State.reaches (s : State) (q : BitVec 7) (scope : BitVec 3) (a : Agent) : Bool :=
  let cell (pick : CellId → Bool) : Bool := match a, s.regionOfSeq q with
    | .cell c, some r => r.hasCell c && pick c
    | _, _ => false
  match scope.toNat with
  | 0 => false
  | 1 => cell (fun c => seqOfBlock c.die c.x.toNat c.y.toNat == q)
  | 2 => cell (fun _ => true)
  | 3 => a.home == seqDie q
  | _ => true

/-- Before an agent accesses memory, every issued store is performed that has been ordered, at a scope that reaches the agent, before a
later access of its sequencer (R148, R149) (DEDUCED, log entry 139). -/
def State.settle (s : State) (a : Agent) : State :=
  let due (r : SliceReq) : Bool := match r.src with
    | .seq q => a != .seq q && s.reaches q r.bound a && s.pathTo (seqDie q) r.pa == .up
    | .cell _ => false
  if s.pend.any due then s.performAll (s.pend.filter due) else s

/-- Whether every issued store of a sequencer can be performed now: none waits for a bridge (R352). -/
def State.storesCross (s : State) (q : BitVec 7) : Bool := (s.pendOf q).all (fun r => s.pathTo (seqDie q) r.pa == .up)

/-! ### Physical access of the engines (R326, R442) -/

/-- Whether an engine may reach a physical range: stacked memory, the HOST window or the management block. -/
def physOk (pa n : Nat) : Bool :=
  (inStack pa && inStack (pa + n - 1)) || (inHost pa && inHost (pa + n - 1)) || (inMgmt pa && inMgmt (pa + n - 1))

/-- An engine's translation of a context's address, which uses the die's last-level TLB (R325, R327) (DEDUCED, log entry 54). -/
def State.xlateEngine (s : State) (d : BitVec 3) (ctx : BitVec 9) (right : Right) (va : Word64) :
    Except XFault Xlated × State :=
  if bits va 48 16 ≠ 0 then (.error .page, s)
  else
    let l := s.lookup d ctx va 8192 (s.die d).tlb
    let put (l2 : List TlbEntry) : State := s.modDie d (fun x => { x with tlb := l2 })
    match l.found with
    | .bad _ _ => (.error .page, put (tlbDrop ctx va l.l1))
    | .leaf e =>
      match s.useEntry ctx right false va e with
      | .ok x => (.ok x, put l.l1)
      | .error f => (.error f, put (tlbDrop ctx va l.l1))

/-- The way of an engine, or of what reads for it, to an address of a context: that of the walk, and that to the page (R351, R352). -/
def State.engineWay (s : State) (d : BitVec 3) (ctx : BitVec 9) (va : Word64) : PathState :=
  (s.lookupWay d ctx va []).both (match (s.xlateEngine d ctx .r va).1 with
    | .ok x => s.pathTo d x.pa
    | .error _ => .up)

/-- Whether the way to each of `n` pages of a context from one on is UP. -/
def State.pagesUp (s : State) (d : BitVec 3) (ctx : BitVec 9) (page : Nat) : Nat → Bool
  | 0 => true
  | n + 1 => s.engineWay d ctx (BitVec.ofNat 64 (4096 * page)) == .up && s.pagesUp d ctx (page + 1) n

/-- Whether an engine's way to every page of a range of a context is UP (DEDUCED, log entry 105). -/
def State.rangeUp (s : State) (d : BitVec 3) (ctx : BitVec 9) (va n : Nat) : Bool :=
  n == 0 || decide (2 ^ 48 < va + n) || s.pagesUp d ctx (va / 4096) ((va + n - 1) / 4096 - va / 4096 + 1)

/-- Whether the way from a die to a physical range is UP (DEDUCED, log entry 105). -/
def State.physUp (s : State) (d : BitVec 3) (pa n : Nat) : Bool := s.pathTo d pa == .up && s.pathTo d (pa + n - 1) == .up

/-- The bytes of a context's range, or the fault and its address. The bytes of each line are reached by one translation; a range within a page
needs no other. -/
def State.engineBytes (s : State) (d : BitVec 3) (ctx : BitVec 9) : Nat → Word64 → Except (XFault × Word64) (List Byte)
  | 0, _ => .ok []
  | n + 1, va =>
    match (s.xlateEngine d ctx .r va).1 with
    | .error f => .error (f, va)
    | .ok x =>
      match State.engineBytes s d ctx n (va + 1) with
      | .error e => .error e
      | .ok bs => .ok (s.byteAt x.key x.pa :: bs)

/-- The bytes of a context's range as an engine reads them; it waits while a bridge on the way is not UP. -/
def State.engineRead (s : State) (d : BitVec 3) (ctx : BitVec 9) (n : Nat) (va : Word64) : Except (XFault × Word64) (List Byte) :=
  if s.rangeUp d ctx va.toNat n then s.engineBytes d ctx n va else .error (.held, va)

/-- Where an engine finds the bytes at a descriptor's address. -/
def State.descPa (s : State) (d : BitVec 3) (right : Right) (a : DescAddr) (off : Nat) : Except XFault Xlated × State :=
  match a with
  | .phys pa => (.ok ⟨pa.toNat + off, s.osKey⟩, s)
  | .virt ctx va => s.xlateEngine d ctx right (va + BitVec.ofNat 64 off)

/-- Double-word `i` of a descriptor, zero where it cannot be read (its readers check that first). -/
def State.descDword (s : State) (d : BitVec 3) (a : DescAddr) (i : Nat) : Word64 :=
  match (s.descPa d .r a (8 * i)).1 with
  | .ok x => s.dwordAt x.key x.pa
  | .error _ => 0

/-- A number written into a descriptor; a page that cannot be written takes nothing. -/
def State.putDesc (s : State) (d : BitVec 3) (a : DescAddr) (off n v : Nat) : State :=
  match s.descPa d .w a off with
  | (.ok x, s1) => s1.putNum x.key x.pa n v
  | (.error _, s1) => s1

end Sys2Proof.Machine
end

