-- ==== Sys2Proof/Machine/Flags.lean ====
section
/-!
DEFINITION. Every flag computation of the spec: the tag word of a result (R163, R249), the flags a conversion sets (R74, R81, R84),
and the counters of a converter (R93).
-/

namespace Sys2Proof.Machine

/-- The join output weight (R249): WEIGHT, DOMAIN and FLAGS.SAT of two records. -/
def joinWeight (x y : Tag) : BitVec 16 × BitVec 4 × BitVec 8 :=
  let exact := x.weight.toNat * y.weight.toNat
  let w :=
    if x.domain = y.domain ∧ x.domain ≠ 0 then
      let f := domainFactor x.domain.toNat
      let v := (exact + f / 2) / f
      if v = 0 ∧ exact ≠ 0 then 1 else v
    else exact
  (BitVec.ofNat 16 (min w 0xFFFF), if x.domain ≠ 0 then x.domain else y.domain, flagIf (decide (0xFFFF < w)) fSat)

/-- The tag of a result of one data operand (R163), with flags that the function sets. -/
def tag1 (x : Tag) (extra : BitVec 8) : Tag := { x with kind := kData, flags := flagsOf x.flags ||| extra }

/-- The tag of a result of two data operands, x being operand a (R163). -/
def tag2 (x y : Tag) (extra : BitVec 8) : Tag :=
  let (w, d, f) := joinWeight x y
  { kind := kData, flags := flagsOf (x.flags ||| y.flags) ||| f ||| extra, domain := d, weight := w, nest := x.nest,
    seq := x.seq }

/-- POISON of the record at p, which a function that uses p ORs in (R163). -/
def poisonOf (p : Option Item) : BitVec 8 := match p with
  | some u => u.tag.flags &&& fPoison
  | none => 0

/-- The flags of a list of lane conversions: SAT where a lane saturated (R74, R163). -/
def satFlag (cs : List Conv) : BitVec 8 := flagIf (cs.any Conv.sat) fSat

/-- The counts of a tile that a converter keeps: SAT, FTZ, NAN and NARROW (R93, R95). -/
structure Counts where
  sat    : Nat
  ftz    : Nat
  nan    : Nat
  narrow : Nat
  deriving DecidableEq, Repr

def Counts.zero : Counts := ⟨0, 0, 0, 0⟩

/-- The counters of a list of valid lanes: each lane counts in the first of NAN, SAT and FTZ that applies (R93). -/
def laneCounts (cs : List Conv) : Counts :=
  cs.foldl (fun a c =>
    if c.nan then { a with nan := a.nan + 1 }
    else if c.tooBig then { a with sat := a.sat + 1 }
    else if c.zero then { a with ftz := a.ftz + 1 }
    else a) Counts.zero

/-- Counts added, each saturating at 32 bits (R95). -/
def Counts.add (a b : Counts) : Counts :=
  ⟨satNat 32 (a.sat + b.sat), satNat 32 (a.ftz + b.ftz), satNat 32 (a.nan + b.nan), satNat 32 (a.narrow + b.narrow)⟩

/-- The payload of a COUNT token (R96). -/
def CountTok.payload (t : CountTok) : Payload :=
  BitVec.ofNat 512 (packLanes 32 [t.sat, t.ftz, t.nan, t.narrow, t.tiles, t.tensor.toNat])

/-- Two COUNT tokens added field by field, saturating; TENSOR stays where they agree and is 0xFFFF where they differ (R96). -/
def CountTok.add (a b : CountTok) : CountTok :=
  { sat := satNat 32 (a.sat + b.sat), ftz := satNat 32 (a.ftz + b.ftz), nan := satNat 32 (a.nan + b.nan),
    narrow := satNat 32 (a.narrow + b.narrow), tiles := satNat 32 (a.tiles + b.tiles),
    tensor := if a.tensor = b.tensor then a.tensor else 0xFFFF }

end Sys2Proof.Machine
end

