-- ==== Sys2Proof/Machine/Operands.lean ====
section
/-!
DEFINITION. Every operand form of the spec: the sequencer's guards, register lists and displacements (R49, R55, R102); the cell's
positions, targets, link formats and alignment test (R18 to R25, R29, R161).
-/

namespace Sys2Proof.Machine

/-! ### Sequencer operands -/

/-- A guard with its sense bit (R49, R102). -/
def Seq.guardHolds (sq : Seq) (k : BitVec 3) (sense : BitVec 1) : Bool := sq.readP k != (sense == 1)

/-- An instruction under its guard: a false guard only advances the program counter (R49, R128). -/
def guarded (s : State) (k : BitVec 3) (sense : BitVec 1) (body : Seq → Result) : Result :=
  let sq := s.seq s.seqTurn
  if sq.guardHolds k sense then body sq else s.goOn sq

/-- Register `d + i` of a list. -/
def listReg (d : BitVec 5) (i : Nat) : BitVec 5 := d + BitVec.ofNat 5 i

/-- The values of the registers `d` to `d + n` (R48). -/
def Seq.readList (sq : Seq) (d : BitVec 5) (n : Nat) : List Word64 :=
  (List.range (n + 1)).map (fun i => sq.readG (listReg d i))

/-- Values written to registers from `d` (R48), register `i` of the list first. -/
def Seq.writeList (sq : Seq) (d : BitVec 5) : List Word64 → Seq
  | [] => sq
  | v :: vs => (sq.writeG d v).writeList (d + 1) vs

/-- Bytes of a width code (R106). -/
def widthBytes (w : BitVec 2) : Nat := 2 ^ w.toNat

/-- A memory operand's byte address: base plus field [5:0] times the width (R55). -/
def effAddr (base : Word64) (e : BitVec 6) (w : BitVec 2) : Word64 := base + BitVec.ofNat 64 (e.toNat * widthBytes w)

/-- A word displacement from an address (R102, R139). -/
def branchTo {n : Nat} (pc : Word64) (disp : BitVec n) : Word64 := pc + disp.signExtend 64 * 4

/-- A unit made of register values (R152): up to eight dwords make one record; more make a pair under one tag. -/
def unitOf (tag : Tag) (vs : List Word64) : Item :=
  let pack (l : List Word64) : Payload := payloadOf 64 (l.map BitVec.toNat)
  if vs.length ≤ 8 then { tag := tag, v0 := pack vs, v1 := none, inv := none }
  else { tag := tag, v0 := pack (vs.take 8), v1 := some (pack (vs.drop 8)), inv := none }

/-! ### Positions and targets of a node (R18 to R20, R111) -/

/-- The four positions, by their codes (R56). -/
def posA : Nat := 0
def posB : Nat := 1
def posP : Nat := 2
def posC : Nat := 3

/-- A target field (R111). -/
inductive Target where
  | none
  | latch (slot : BitVec 3) (pos : BitVec 2)
  | outlet (n : BitVec 5)
  deriving DecidableEq, Repr

def targetOf (t : BitVec 6) : Target :=
  if t = 63 then .none
  else if t.getLsbD 5 then .outlet (bits t 0 5)
  else .latch (bits t 2 3) (bits t 0 2)

/-- The positions a node uses: its base set with those of its mask class (R19), in the order a, b, p, c (DEDUCED, log entry 114). -/
def usedPos (base : List Nat) (m : BitVec 2) : List Nat :=
  [posA, posB, posP, posC].filter (fun x => decide (x ∈ base) || (x == posP && m.getLsbD 0) || (x == posC && m.getLsbD 1))

/-- What a position is bound to (R18). -/
def Cell.bindOf (x : Cell) (k : BitVec 3) (p : Nat) : Option (BitVec 3) := (x.active.bind[4 * k.toNat + p]?).getD none

/-- The latch of a position. -/
def Cell.latchOf (x : Cell) (k : BitVec 3) (p : Nat) : Option Item := (x.latches[4 * k.toNat + p]?).getD none

/-- Whether a unit is a token that the cell acts on, not a node: it leaves a position without a value (R23, R270, R375). -/
def perCell (u : Item) : Bool := u.tag.kind == kCapo || u.tag.kind == kMute

/-- The value at a position: the head of its queue, or its latch (R18). -/
def Cell.valueAt (x : Cell) (k : BitVec 3) (p : Nat) : Option Item :=
  match x.bindOf k p with
  | some q => match x.queues[q.toNat].head with
    | some u => if perCell u then none else some u
    | none => none
  | none => x.latchOf k p

/-- The c triggers that pulses have brought to a node (R29). -/
def Cell.triggers (x : Cell) (k : BitVec 3) : List PulseIn := (x.pin[k.toNat]).filter (fun p => p.kind ≠ 2)

/-- The loaded word of a slot. -/
def Cell.word (x : Cell) (k : BitVec 3) : Option Word32 := x.active.nodes[k.toNat]

/-- The targets of a loaded word. -/
def wordTargets (w : Word32) : List Target := [targetOf (bits w 16 6), targetOf (bits w 10 6)]

/-- Whether some node of the cell fills a latch (R162). -/
def Cell.latchFed (x : Cell) (k : BitVec 3) (p : Nat) : Bool :=
  x.active.nodes.toList.any (fun w => match w with
    | some w => decide (Target.latch k (BitVec.ofNat 2 p) ∈ wordTargets w)
    | none => false)

/-- Whether a position takes part in alignment: a p or c that neither a queue nor a node of the cell feeds does not (R162). -/
def Cell.aligns (x : Cell) (k : BitVec 3) (p : Nat) : Bool :=
  decide (p < 2) || (x.bindOf k p).isSome || x.latchFed k p

/-- Whether a target is free to take a result: a latch is empty, or is one that this firing consumes (R21). -/
def Cell.targetFree (x : Cell) (k : BitVec 3) (used : List Nat) (t : BitVec 6) : Bool :=
  match targetOf t with
  | .latch s p => (x.latchOf s p.toNat).isNone || (s == k && decide (p.toNat ∈ used) && (x.bindOf s p.toNat).isNone)
  | _ => true

/-! ### The alignment test (R23 to R25) -/

/-- What the heads of a node's positions allow. -/
inductive Heads where
  | wait
  | data
  | gap (p : Nat)
  | token (kind : BitVec 4)
  | misaligned
  | badKind (p : Nat)
  deriving DecidableEq, Repr

/-- The aligned token kinds (R23). -/
def alignedKind (k : BitVec 4) : Bool := k == kEod || k == kEot || k == kEoi || k == kRetune || k == kOrder

/-- The fields of an ORDER token (R307). -/
def orderN (p : Payload) : Nat := (bits p 0 4).toNat
def orderEntry (p : Payload) (k : Nat) : Word64 := bits p (64 * k + 64) 64

/-- Whether an ORDER token's reserved bits are zero: bits [63:4] of dword 0, bits [35:34] of each entry, the entries at and above
N, and no more than seven entries in use (R307). -/
def orderOk (p : Payload) : Bool :=
  bits p 4 60 == 0 && decide (orderN p ≤ 7) &&
    (List.range 7).all (fun k => if k < orderN p then bits (orderEntry p k) 34 2 == 0 else orderEntry p k == 0)

/-- Whether a unit raises the token-kind fault where it heads an inlet (R25, R307). A COUNT never enters a data queue (R23), and
one that heads an inlet faults likewise. -/
def badToken (u : Item) : Bool := decide (9 ≤ u.tag.kind.toNat) || (u.tag.kind == kOrder && !orderOk u.v0)

/-- The alignment test over the positions a node uses, where those that `hide` names hold no value for now (R24, R43)
(DEDUCED, log entry 114). -/
def Cell.headsBut (x : Cell) (k : BitVec 3) (used : List Nat) (hide : Nat → Bool) : Heads :=
  let at_ (p : Nat) : Option Item := if hide p then none else x.valueAt k p
  let vals := (used.filter (x.aligns k)).map (fun p => (p, at_ p))
  match vals.find? (fun v => (v.2.map badToken).getD false) with
  | some v => .badKind v.1
  | none =>
    match vals.find? (fun v => match v.2 with | some u => u.tag.kind == kGap | none => false) with
    | some v => .gap v.1
    | none =>
      let kinds := vals.filterMap (fun v => v.2.map (fun u => u.tag.kind))
      let toks := kinds.filter alignedKind
      match toks with
      | t :: _ =>
        if kinds.all (fun y => y == t) then (if kinds.length = vals.length then .token t else .wait)
        else .misaligned
      | [] =>
        let held := used.all (fun p => (at_ p).isSome || (p == posC && !(x.triggers k).isEmpty))
        if held then .data else .wait

/-- The alignment test over the positions a node uses (R24) (DEDUCED, log entry 114). -/
def Cell.heads (x : Cell) (k : BitVec 3) (used : List Nat) : Heads := x.headsBut k used (fun _ => false)

/-! ### Link formats (R161, R317) -/

/-- The link that a switch word names at an outlet: its format, and whether it carries vectors (R114, R115). A TEE carries what
its path carries, and an EXT is a circuit where it names signed digits. -/
def CellConfig.route (cf : CellConfig) (o : BitVec 5) : Option (Fmt × Option Bool) :=
  match cf.sw.find? (fun w => w.outlet = o) with
  | none => none
  | some w =>
    let path := if w.typ = 1 then (cf.sw.find? (fun v => v.typ ≠ 1 ∧ v.inlet = w.inlet)).getD w else w
    some (w.fmt, if path.typ = 2 ∨ path.fmt.isSd then some true else if path.typ = 3 then none else some false)

/-- Who fills an inlet queue of a region: the source cell and outlet of the link entry that names it (R264). -/
def State.feeder (s : State) (r : Region) (c : CellId) (q : BitVec 3) : Option (CellId × BitVec 5) :=
  ((s.cellsOf r).findSome? (fun x =>
    ((s.cell x).active.links.find? (fun l => l.dq = q ∧ r.cellAt l.dx l.dy l.cell = c)).map (fun l => (x, l.so))))

/-- The targets that a loaded word can send to: its own two, and the outlets of a steer's class range (R172). -/
def CellConfig.reaches (cf : CellConfig) (w : Word32) : List Target :=
  let k := (bits ((cf.prm[(bits w 0 4).toNat]?).getD 0) 0 5).toNat
  wordTargets w ++ (match (bits w 28 4).toNat == 3 && (bits w 22 6).toNat != 0, targetOf (bits w 16 6) with
    | true, .outlet so => ((List.range k).filter (fun i => decide (0 < i ∧ so.toNat + i ≤ 30))).map (fun i =>
        .outlet (BitVec.ofNat 5 (so.toNat + i)))
    | _, _ => [])

/-- The format that the word of an outlet names for what a node puts there: FROM of an EXT word, else its own (R161). -/
def CellConfig.putFmt (cf : CellConfig) (o : BitVec 5) : Option Fmt :=
  (cf.sw.find? (fun w => w.outlet = o)).map (fun w => (w.ext.map ExtWord.src).getD w.fmt)

/-- The format that the route of a node's first outlet target names, if one does. -/
def CellConfig.resultRoute (cf : CellConfig) (w : Word32) : Option Fmt :=
  (wordTargets w).findSome? (fun t => match t with
    | .outlet o => cf.putFmt o
    | _ => none)

/-- The K-step node of a matrix cell: its slot, and whether it is an `mmas` (R211). -/
def CellConfig.kStep (cf : CellConfig) : Option (BitVec 3 × Bool) :=
  (List.range 8).findSome? (fun i => match cf.nodes[i]?.getD none with
    | some w => if bits w 28 4 == 9 && decide ((bits w 22 6).toNat ≤ 1) then some (BitVec.ofNat 3 i, (bits w 22 6).toNat == 1) else none
    | none => none)

/-- The format of a position of a node, or of a node's result where `p` is none, followed through latches and links from the
sources onward; `fuel` bounds the path, and what no path settles is `raw` (R161, R317). -/
def State.fmtAt (s : State) : Nat → CellId → BitVec 3 → Option Nat → Fmt
  | 0, _, _, _ => .raw
  | n + 1, c, k, some p =>
    let x := s.cell c
    match x.bindOf k p with
    | some q =>
      match s.regionOf c with
      | none => .raw
      | some r =>
        match s.feeder r c q with
        | none => .raw
        | some (src, so) =>
          let y := s.cell src
          match y.active.route so with
          | some (f, _) => f
          | none =>
            match (List.range 8).find? (fun j => match y.word (BitVec.ofNat 3 j) with
              | some w => decide (Target.outlet so ∈ y.active.reaches w)
              | none => false) with
            | some j => s.fmtAt n src (BitVec.ofNat 3 j) none
            | none => .raw
    | none =>
      match (List.range 8).find? (fun j => match x.word (BitVec.ofNat 3 j) with
        | some w => decide (Target.latch k (BitVec.ofNat 2 p) ∈ wordTargets w)
        | none => false) with
      | some j => s.fmtAt n c (BitVec.ofNat 3 j) none
      | none => .raw
  | n + 1, c, k, none =>
    let x := s.cell c
    match x.word k with
    | none => .raw
    | some w =>
      let func := (bits w 22 6).toNat
      match (bits w 28 4).toNat with
      | 0x0 => if func = 0x0D then .raw else s.fmtAt n c k (some posA)
      | 0x2 | 0x5 => .kv
      | 0x6 | 0x7 => (x.active.resultRoute w).getD .raw
      | 0x9 => match x.active.kStep with
        | some (j, scaled) => if !scaled && s.fmtAt n c j (some posA) == .i8 then .i32 else .f32
        | none => .f32
      | 0xA => if func = 0x04 then (x.active.resultRoute w).getD .sdp else .sdp
      | 0xB => if func = 0x01 ∨ func = 0x04 then s.fmtAt n c k (some posA) else (x.active.resultRoute w).getD .raw
      | _ => s.fmtAt n c k (some posA)

/-- The element format of a node: that of its operand a (R161). -/
def State.elemFmt (s : State) (c : CellId) (k : BitVec 3) : Fmt := s.fmtAt 64 c k (some posA)

/-- The format of the result route of a node (R161): the one its outlet's switch word names, else that of what it reads from memory, `raw`
(R257, R317), or the element format. -/
def State.resultFmt (s : State) (c : CellId) (k : BitVec 3) : Fmt :=
  match (s.cell c).word k with
  | none => .raw
  | some w => ((s.cell c).active.resultRoute w).getD (if bits w 28 4 = 6 then .raw else s.elemFmt c k)

/-- Parameter register `j`; none past the last. -/
def Cell.prm (x : Cell) (j : Nat) : Option Word64 := x.active.prm[j]?

end Sys2Proof.Machine
end

