-- ==== Sys2Proof/Machine/Fabric.lean ====
section
/-!
DEFINITION. The fabric's shared operations: offering a unit to a queue, switches and their converters, links, pulses, the
statistics of conversion, what a token does at any node, and the frame of a firing (R18 to R29, R41, R89 to R98, R163, R286).
-/

namespace Sys2Proof

/-! ### Rows of vectors (R67) -/

/-- The 768 bits of a vector's row. -/
def Item.row (u : Item) : Nat := match u.v1 with
  | some v => u.v0.toNat + v.toNat % 2 ^ 256 * 2 ^ 512
  | none => u.v0.toNat

/-- A vector with another row. -/
def Item.withRow (u : Item) (row : Nat) : Item := match u.v1 with
  | some v => { u with
    v0 := BitVec.ofNat 512 row,
    v1 := some (BitVec.ofNat 512 (row / 2 ^ 512 % 2 ^ 256 + v.toNat / 2 ^ 256 * 2 ^ 256)) }
  | none => { u with v0 := BitVec.ofNat 512 row }

/-- LAST of a descriptor (R68). -/
def descLast (d : Word32) : Nat := (bits d 8 8).toNat

/-- A vector of a row, a scale word and a descriptor under a tag. -/
def vectorOf (tag : Tag) (row : Nat) (scale desc : Word32) (inv : Option Inv) : Item :=
  { tag := tag, v0 := BitVec.ofNat 512 row,
    v1 := some (BitVec.ofNat 512 (row / 2 ^ 512 % 2 ^ 256 + scale.toNat * 2 ^ 256 + desc.toNat * 2 ^ 288)), inv := inv }

/-- A descriptor of its fields (R68). -/
def descOf (last planes plane : Nat) : Word32 := BitVec.ofNat 32 (plane % 16 + planes % 16 * 16 + last % 256 * 256)

/-- Whether a vector breaks R68: a non-zero reserved field of V1, or a descriptor outside its table for the format. A `raw` link names no
element format, so its vectors may be of any: LAST has no bound, and PLANES and PLANE are those of some format (DEDUCED, log entry 20). -/
def vectorBad (f : Fmt) (u : Item) : Bool := match u.v1 with
  | none => true
  | some v =>
    let d := u.desc
    let k := descPlanes d
    bits v 320 192 != 0 || bits d 16 16 != 0 || (f != .raw && decide (f.rowLanes ≤ descLast d))
      || (if f = .raw then k != 0 && !decide (2 ≤ k ∧ k ≤ 8 ∧ 1 ≤ descPlane d ∧ descPlane d ≤ k) || k == 0 && descPlane d != 0
          else if f.isSd then !(decide (2 ≤ k ∧ k ≤ f.sdLen) && decide (1 ≤ descPlane d ∧ descPlane d ≤ k))
          else k != 0 || descPlane d != 0)

end Sys2Proof

namespace Sys2Proof.Machine

/-! ### Spill rings (R244) -/

/-- The 128 bytes of a ring entry. -/
def ringEntry (t : Tag) (v : Payload) : List Byte := natToBytes 128 (v.toNat + t.word.toNat * 2 ^ 512)

/-- The virtual address of the ring entry `i` places behind the oldest. -/
def Queue.ringVa (q : Queue) (i : Nat) : Word64 :=
  (q.qring &&& 0xFFFFFFFFFFFFF000) + BitVec.ofNat 64 (128 * ((q.ringHead + i) % q.ringCap))

/-- The entries of a unit. -/
def ringParts (u : Item) : List (List Byte) :=
  ringEntry u.tag u.v0 :: (match u.v1 with
    | some v => [ringEntry u.tag v]
    | none => [])

/-- Whether the entries from place `i` for `n` entries can be accessed by a context. -/
def State.ringReach (s : State) (d : BitVec 3) (ctx : BitVec 9) (q : Queue) (i : Nat) : Nat → Bool
  | 0 => true
  | n + 1 =>
    (match s.engineWay d ctx (q.ringVa (i + n)), (s.xlateEngine d ctx .rw (q.ringVa (i + n))).1 with
      | .up, .ok _ => true
      | _, _ => false) && s.ringReach d ctx q i n

/-- The first of these entries that a context cannot access, or that a bridge keeps from it (R351, R352): the fault, its address, and the state
without the translations that the fault drops (R329). -/
def State.ringMiss (s : State) (d : BitVec 3) (ctx : BitVec 9) (q : Queue) : List Nat → Option (XFault × Word64 × State)
  | [] => none
  | i :: is => match s.engineWay d ctx (q.ringVa i), s.xlateEngine d ctx .rw (q.ringVa i) with
    | .down, _ => some (.held, q.ringVa i, s)
    | .broken, _ => some (.lost, q.ringVa i, s)
    | .up, (.error f, s1) => some (f, q.ringVa i, s1)
    | .up, (.ok _, _) => s.ringMiss d ctx q is

/-- The code of a spill access that fails: the link fault where a bridge has lost it (R351), else the queue-spill fault (R244); none where it
waits. -/
def XFault.spillCode : XFault → Option Nat
  | .held => none
  | .lost => some 0x19
  | _ => some 0x16

/-- Entries written at their places in a ring. -/
def State.ringWrite (s : State) (d : BitVec 3) (ctx : BitVec 9) (q : Queue) : List (Nat × List Byte) → State
  | [] => s
  | (i, bs) :: rest =>
    let s1 := match s.xlateEngine d ctx .rw (q.ringVa i) with
      | (.ok x, s1) => s1.putBytes x.key x.pa bs
      | (.error _, s1) => s1
    State.ringWrite s1 d ctx q rest

/-- The ring entries of a queue, oldest first. -/
def Queue.ringEntries (q : Queue) : List (List Byte) :=
  (q.ring.filter (fun u => u.kept.isNone)).flatMap (fun u => ringParts u.item)

/-- The ring entries that an offer or a marker has changed: each with its place. -/
def Queue.ringDirty (q after : Queue) : List (Nat × List Byte) :=
  if q.ring = after.ring then []
  else (after.ringEntries.zipIdx.filter (fun p => q.ringEntries[p.2]? != some p.1)).map (fun p => (p.2, p.1))

/-! ### Offering (R238) -/

/-- A queue changed, with the entries that this changes in its spill ring written to a context's memory; where one of them cannot be
accessed, the fault, its address, and the state with nothing written (R244). -/
def State.ringPut (s : State) (d : BitVec 3) (ctx : BitVec 9) (q after : Queue) : Except (XFault × Word64) Unit × State :=
  let dirty := q.ringDirty after
  match s.ringMiss d ctx q (dirty.map Prod.fst) with
  | some (f, va, s1) => (.error (f, va), s1)
  | none => (.ok (), s.ringWrite d ctx q dirty)

/-- An offer to a queue with its spill ring in a context's memory. Where the ring cannot be accessed the queue is as before: the offer
is to be made again (R244), and the fault comes with its address; so is one that waits for a bridge (R352). -/
def State.offerQ (s : State) (d : BitVec 3) (ctx : BitVec 9) (qid : Word32) (q : Queue) (u : Item) :
    Offered × Option (XFault × Word64) × State :=
  let r := q.offer qid u
  match s.ringPut d ctx q r.q with
  | (.ok _, s1) => (r, none, s1)
  | (.error f, s1) => (⟨q, .retry, f.1.spillCode, 0⟩, some f, s1)

/-- The context whose region holds a cell. -/
def State.ctxOfCell (s : State) (c : CellId) : BitVec 9 := match s.regionOf c with
  | some r => r.launch.ctx
  | none => 0

/-- A fault of a node, with the unit at fault. -/
def faultAt (code : Nat) (k : BitVec 3) (u : Option Item) : FaultReg :=
  let f := { FaultReg.ofCode code with node := k }
  match u with
  | none => f
  | some u => { f with seq := u.tag.seq, kind := u.tag.kind, inv := u.inv }

/-- The far end of a pulse entry (R264). -/
def State.farPulse (s : State) (c : CellId) (p : PulseEntry) : CellId := match s.regionOf c with
  | some r => r.cellAt p.dx p.dy p.cell
  | none => { c with n := p.cell }

/-- The pulses that an output drives (R27, R29, R264). -/
def State.sendPulse (s : State) (c : CellId) (po : BitVec 3) (kind : BitVec 2) : State :=
  let x := s.cell c
  let out := (x.active.pulses.filter (fun p => p.po = po ∧ p.kind = kind)).map (fun p =>
    ({ src := c, po := po, dst := s.farPulse c p, pin := p.pin, kind := kind, epoch := x.epoch } : PulseFlight))
  { s with pulses := s.pulses ++ out }

/-- The units of a queue in stream order. -/
def Queue.units (q : Queue) : List Item := q.entries.map QEntry.item ++ q.ring.map RingUnit.item

/-- How many of the EOTs among these units have no DATA of their tile ahead of them (R29); `data` says whether DATA has come since the
last EOT. -/
def freedEots : Bool → List Item → Nat
  | _, [] => 0
  | data, u :: us =>
    if u.isData then freedEots true us
    else if u.tag.kind = kEot then (if data then 0 else 1) + freedEots false us
    else freedEots data us

/-- `n` FREE pulses of an inlet queue (R29). -/
def State.sendFrees (s : State) (c : CellId) (k : BitVec 3) : Nat → State
  | 0 => s
  | n + 1 => (s.sendPulse c k 2).sendFrees c k n

/-- A unit that has come to head an inlet, where `before` headed it: the fault of a kind that no consumer accepts (R25, R307). -/
def State.newHead (s : State) (c : CellId) (k : BitVec 3) (before : Option Item) : State :=
  match (s.cell c).queues[k.toNat].head with
  | some u => if badToken u && before != some u then s.raiseFault c { faultAt 0x02 0 (some u) with queue := k } else s
  | none => s

/-- The heads of a cell's inlets looked at again, where `before` were its queues (R25). -/
def State.checkHeads (s : State) (c : CellId) (before : Vector Queue 8) : State :=
  (List.range 8).foldl (fun s i => s.newHead c (BitVec.ofNat 3 i) ((before[i]?.getD Queue.reset).head)) s

/-- A unit offered to a cell's inlet queue, the FREE pulse of an EOT that arrives behind no DATA, or that a drop leaves with none of its
tile ahead of it (R29), the fault of a kind that no consumer accepts (R25), and the faults of R238. -/
def State.offerCell (s : State) (c : CellId) (k : BitVec 3) (u : Item) : State × Outcome3 :=
  let q := (s.cell c).queues[k.toNat]
  let (r, miss, s1) := s.offerQ c.die (s.ctxOfCell c) (cellWord c k) q u
  let s2 := s1.modCell c (fun x => { x with queues := x.queues.set k.toNat r.q })
  let s3 := (s2.sendFrees c k (freedEots false r.q.units - freedEots false q.units)).newHead c k q.head
  let s4 := match r.fault with
    | none => s3
    | some code => s3.raiseFault c { faultAt code 0 (some u) with
      queue := k, access := if miss.isSome then 3 else 0, addr := (miss.map Prod.snd).getD 0 }
  (s4, r.out)

/-- The head of a cell's queue popped, with the FREE pulse of the tile's last DATA unit when its EOT is already queued (R29), and the
fault of a kind that no consumer accepts at the new head (R25). -/
def State.popQ (s : State) (c : CellId) (k : BitVec 3) : State :=
  let q := (s.cell c).queues[k.toNat]
  let s1 := s.modCell c (fun x => { x with queues := x.queues.set k.toNat q.pop })
  let isLast := (q.head.map Item.isData).getD false && decide (freedEots false q.units < freedEots false q.pop.units)
  (if isLast then s1.sendPulse c k 2 else s1).newHead c k none

/-- The queue behind an outlet port is offered a unit (R257, R258). A mute ends there (R375). Where its spill ring cannot be accessed,
the queue-spill fault is raised (R244) and the unit stays in the queue; the bytes of this ring, which belongs to the queue alone, are
not written to memory (DESIGN CHOICE, log entry 143). -/
def State.offerOut (s : State) (q : BitVec 7) (port : BitVec 6) (u : Item) : State :=
  let sq := s.seq q
  match sq.outPort[port.toNat] with
  | none => s
  | some x =>
    if isMute u then s
    else
      let r := x.offer (Config.outletQid q.toNat port.toNat) u
      let s1 := s.setSeq q { sq with outPort := sq.outPort.set port.toNat (some r.q) }
      let miss := s1.ringMiss (seqDie q) sq.ctx x ((x.ringDirty r.q).map Prod.fst)
      match s1.regionOfSeq q, miss.bind (fun m => m.1.spillCode.map (fun c => (c, m.2))), r.fault with
      | none, _, _ => s1
      | some g, some (code, va, s2), _ => s2.raiseFault g.leadCell { faultAt code 0 (some u) with access := 3, addr := va }
      | some g, none, some code => s1.raiseFault g.leadCell (faultAt code 0 (some u))
      | some _, none, none => s1

/-! ### Statistics of conversion (R93 to R98) -/

/-- The site of a node's converter (R93). -/
def nodeSite (k : BitVec 3) : BitVec 6 := 32 + k.setWidth 6

/-- A converter's counts of a tile grow (R93, R95) (DEDUCED, log entry 131). -/
def Cell.countConv (x : Cell) (site : BitVec 6) (tensor : BitVec 16) (inv : Option Inv) (n : Counts) : Cell :=
  let grow (e : ConvCount) : ConvCount :=
    let t := Counts.add ⟨e.sat, e.ftz, e.nan, e.narrow⟩ n
    { e with tensor := tensor, inv := inv, sat := t.sat, ftz := t.ftz, nan := t.nan, narrow := t.narrow }
  if x.conv.any (fun e => e.site == site) then
    { x with conv := x.conv.map (fun e => if e.site = site then grow e else e) }
  else { x with conv := x.conv ++ [grow ⟨site, inv, tensor, 0, 0, 0, 0, 0⟩] }

/-- The plane that the element at a converter has come to. -/
def Cell.planeAt (x : Cell) (site : BitVec 6) : Nat := ((x.conv.find? (fun e => e.site = site)).map ConvCount.plane).getD 0

/-- The plane of a converter's element set. -/
def Cell.setPlane (x : Cell) (site : BitVec 6) (n : Nat) : Cell :=
  { x with conv := x.conv.map (fun e => if e.site = site then { e with plane := n } else e) }

/-- The counts of a tile added to the statistics table (R98, R99): an entry per tensor, and the overflow entry 0xFFFF. -/
def statTableAdd (t : List StatEntry) (tensor : BitVec 16) (n : Counts) : List StatEntry :=
  let grow (e : StatEntry) : StatEntry :=
    { e with
      sat := satNat 32 (e.sat + n.sat), ftz := satNat 32 (e.ftz + n.ftz), nan := satNat 32 (e.nan + n.nan),
      narrow := satNat 32 (e.narrow + n.narrow), tiles := satNat 64 (e.tiles + 1) }
  let upTo := t.take 64
  if upTo.any (fun e => e.tensor == tensor) then upTo.map (fun e => if e.tensor = tensor then grow e else e) ++ t.drop 64
  else if t.length < 64 then t ++ [grow ⟨tensor, 0, 0, 0, 0, 0⟩]
  else upTo ++ (match t.drop 64 with
    | e :: es => grow e :: es
    | [] => [grow ⟨0xFFFF, 0, 0, 0, 0, 0⟩])

/-- A converter passes an EOT (R95, R98): its counts leave as a COUNT token, or in counter mode go to the table; then clear. -/
def State.convEot (s : State) (c : CellId) (site : BitVec 6) (tensor : BitVec 16) : State :=
  let x := s.cell c
  let n : Counts := match x.conv.find? (fun e => e.site = site) with
    | some e => ⟨e.sat, e.ftz, e.nan, e.narrow⟩
    | none => Counts.zero
  let s1 := s.setCell c { x with conv := x.conv.filter (fun e => e.site ≠ site) }
  match s.regionOf c with
  | some r =>
    if r.launch.cmode then s1.modRegion r.serial (fun g => { g with stats := statTableAdd g.stats tensor n })
    else s1.modCell c (fun x => { x with stat := x.stat ++ [⟨n.sat, n.ftz, n.nan, n.narrow, 1, tensor⟩] })
  | none => s1.modCell c (fun x => { x with stat := x.stat ++ [⟨n.sat, n.ftz, n.nan, n.narrow, 1, tensor⟩] })

/-! ### Switch converters (R89 to R93) -/

/-- What a conversion makes of a unit: the unit, or none where a plane is dropped, and the counts. -/
structure Converted where
  item   : Option Item
  counts : Counts
  deriving DecidableEq, Repr

/-- Every lane of a list converted under an extension word. -/
def convLanes (e : ExtWord) (dst : Fmt) (xs : List Nat) : List Conv :=
  xs.map (fun x => convertLane e.src dst (RoundMode.ofCode e.rnd.toNat) e.ieee ((e.src.read x).shift e.shift.toInt))

/-- A vector's conversion between scaled formats (R91): the shift moves precision between the lanes and the scale word. -/
def convScaled (e : ExtWord) (dst : Fmt) (u : Item) : Converted :=
  let w := dst.laneBits
  let cs := convLanes e dst (lanes w dst.rowLanes u.row)
  let valid := descLast u.desc + 1
  let sc := u.scale.toNat
  let u1 := u.withRow (packLanes w (cs.map Conv.code))
  let poisoned (v : Item) : Converted :=
    ⟨some { v with tag := { v.tag with flags := v.tag.flags ||| fPoison } }, { Counts.zero with nan := valid }⟩
  match readScale sc with
  | .zero => ⟨some u1, Counts.zero⟩
  | .poison => poisoned u1
  | .value _ _ =>
    let x := scaleE sc - e.shift.toInt
    if x < -127 ∨ 127 < x then poisoned (u1.withMeta (BitVec.ofNat 32 poisonScale) u.desc)
    else ⟨some (u1.withMeta (BitVec.ofNat 32 (scaleOf x (sc % 2 ^ 24))) u.desc), laneCounts (cs.take valid)⟩

/-- A signed-digit plane's conversion (R91): planes beyond the target are dropped. NARROW counts once an element, at the first
plane dropped; `before` is the plane that came before this one, at or above it where that one was of another element. Under a poison
scale every valid lane counts as NAN, and the plane carries POISON (R81, R93). -/
def convDigits (dst : Fmt) (before : Nat) (u : Item) : Converted :=
  let k := dst.sdLen
  let d := u.desc
  let poison := readScale u.scale.toNat == .poison
  let first := decide (before ≤ k) || decide (descPlane d ≤ before)
  if k < descPlane d then ⟨none, { Counts.zero with narrow := if first then 1 else 0 }⟩
  else ⟨some { u.withMeta u.scale (descWithPlanes d (min (descPlanes d) k)) with
      tag := { u.tag with flags := u.tag.flags ||| flagIf poison fPoison } },
    { Counts.zero with nan := if poison then descLast d + 1 else 0 }⟩

/-- Any other conversion (R89, R91): each lane of the record or row, or the value field of a `kv` record, which a SHIFT of 0 leaves as it
is. A vector's scale word is written as 0 (R81). -/
def convPlain (e : ExtWord) (dst : Fmt) (u : Item) : Converted :=
  if dst = .kv ∧ e.shift = 0 then ⟨some u, Counts.zero⟩
  else if dst = .kv then
    let c := FloatFmt.f32.conv (RoundMode.ofCode e.rnd.toNat) e.ieee ((FloatFmt.f32.read u.value.toNat).shift e.shift.toInt)
    ⟨some { u with v0 := setValue u.v0 c.code }, laneCounts [c]⟩
  else
    let w := dst.laneBits
    let n := if u.v1.isSome then dst.rowLanes else dst.recLanes
    let cs := convLanes e dst (lanes w n u.row)
    let v := u.withRow (packLanes w (cs.map Conv.code))
    ⟨some (if u.v1.isSome then v.withMeta 0 u.desc else v),
      laneCounts (if u.v1.isSome then cs.take (descLast u.desc + 1) else cs)⟩

/-- A DATA unit through a switch converter (R91). -/
def convUnit (e : ExtWord) (dst : Fmt) (before : Nat) (u : Item) : Converted :=
  if e.src.isSd && dst.isSd then convDigits dst before u
  else if u.v1.isSome && e.src.scaled && dst.scaled then convScaled e dst u
  else convPlain e dst u

/-- The tensor identifier of a cell's switch converters (R94). -/
def Cell.switchTensor (x : Cell) : BitVec 16 := bits (x.active.prm[15]) 48 16

/-- A unit passes the converter of an EXT word: the unit that leaves, if any, and the state with the counts (R91, R93, R95)
(DEDUCED, log entry 73). -/
def State.convertAt (s : State) (c : CellId) (w : SwWord) (e : ExtWord) (u : Item) : Option Item × State :=
  let x := s.cell c
  let site : BitVec 6 := w.inlet.setWidth 6
  if u.isData then
    let r := convUnit e w.fmt (x.planeAt site) u
    (r.item, s.setCell c ((x.countConv site x.switchTensor u.inv r.counts).setPlane site (if u.v1.isSome then descPlane u.desc else 0)))
  else if u.tag.kind = kEot then (some u, s.convEot c site x.switchTensor)
  else if u.tag.kind = kEod ∨ u.tag.kind = kEoi then (some u, s.setCell c (x.setPlane site 0))
  else (some u, s)

/-- Whether a converter cannot take a unit: a vector that breaks R68. -/
def convertBad (e : ExtWord) (u : Item) : Bool := u.isData && u.v1.isSome && vectorBad e.src u

/-- The row of a cell, by the row manager that serves it (R31). -/
def cellRow (c : CellId) : BitVec 10 := c.die ++ c.y ++ bits c.n 3 3

/-- Whether the row manager of a cell's row has halted it: no cell of it fires or emits (R31, R398). -/
def State.rowHalted (s : State) (c : CellId) : Bool := (s.rm (cellRow c)).halted

/-! ### Outlets (R18, R114, R257, R264, R345) -/

/-- The far end of a link entry. -/
def State.farCell (s : State) (c : CellId) (l : LinkEntry) : CellId := match s.regionOf c with
  | some r => r.cellAt l.dx l.dy l.cell
  | none => { c with n := l.cell }

/-- A unit put on a link: in its own block at once on the way, toward another block in the egress buffer's input, in the order
of emission (R319, R345). -/
def State.onLink (s : State) (c : CellId) (l : LinkEntry) (u : Item) : State :=
  let dst := s.farCell c l
  if dst.die = c.die ∧ dst.x = c.x ∧ dst.y = c.y then
    { s with wires := s.wires ++ [{ src := c, dst := dst, dq := l.dq, item := u, loss := false }] }
  else
    let (n, s0) := s.freshNat
    s0.modDie c.die (fun d =>
      let hit (e : Egress) : Bool := e.src == c && e.so == l.so && e.dst == dst && e.dq == l.dq
      if d.egress.any hit then
        { d with egress := d.egress.map (fun e => if hit e then { e with waiting := e.waiting ++ [(n, u)] } else e) }
      else
        { d with egress := d.egress ++ [{ src := c, so := l.so, dst := dst, dq := l.dq, waiting := [(n, u)], entries := [] }] })

/-- The outlet port that an outlet of a cell feeds (R257): so24 to so31 of c0 to c7 of blk(0, 0). -/
def State.portOf (s : State) (c : CellId) (so : BitVec 5) : Option (BitVec 7 × BitVec 6) :=
  match s.regionOf c with
  | none => none
  | some r =>
    if c.n < 8 ∧ 24 ≤ so ∧ r.logical 0 0 c.n = some c then
      some (r.lead, BitVec.ofNat 6 (8 * c.n.toNat + (so.toNat - 24)))
    else none

/-- A unit leaves the cell by one outlet: onto every link entry of it, and to the port behind it. What no link and no port takes
is discarded (R283). -/
def State.leaveBy (s : State) (c : CellId) (so : BitVec 5) (u : Item) : State :=
  let s1 := ((s.cell c).active.links.filter (fun l => l.so = so)).foldl (fun s l => s.onLink c l u) s
  match s.portOf c so with
  | some (q, p) => s1.offerOut q p u
  | none => s1

/-- The outlets that a path feeds: its own and every outlet that a TEE adds to it (R114, R115). -/
def CellConfig.pathOutlets (cf : CellConfig) (w : SwWord) : List (BitVec 5) :=
  w.outlet :: (cf.sw.filter (fun t => t.typ = 1 ∧ t.inlet = w.inlet)).map SwWord.outlet

/-- A unit leaves the cell by every outlet of a path. -/
def State.leavePath (s : State) (c : CellId) (w : SwWord) (u : Item) : State :=
  ((s.cell c).active.pathOutlets w).foldl (fun s o => s.leaveBy c o u) s

/-- A unit emitted on an outlet (R89, R115): it leaves by its path, or, where the path's word is an EXT, it has come to that inlet of
the switch. -/
def State.emitOutlet (s : State) (c : CellId) (so : BitVec 5) (u : Item) : State :=
  match (s.cell c).active.sw.find? (fun w => w.outlet = so ∧ w.typ ≠ 1) with
  | none => s.leaveBy c so u
  | some w =>
    if w.ext.isSome then s.modCell c (fun x => { x with swIn := x.swIn ++ [(w.inlet, u)] }) else s.leavePath c w u

/-- `SWITCH_CONVERT` (R91): the oldest unit that has come to an EXT inlet is converted, and leaves by the path, also in a halted row, where
a result in flight still enters its queue (R398). A vector that breaks R68 stays, and raises the vector-format fault (DEDUCED, log entry
73). -/
def execSwitchConvert (c : CellId) (inlet : BitVec 5) (s : State) : Host.Outcome State Fault Refusal :=
  let x := s.cell c
  match x.swIn.find? (fun p => p.1 = inlet), x.active.sw.find? (fun w => w.inlet = inlet ∧ w.ext.isSome = true) with
  | some p, some w =>
    let s1 := s.setCell c { x with swIn := x.swIn.erase p }
    match w.ext with
    | none => .next s1
    | some e =>
      if convertBad e p.2 then .next (if x.fault.valid then s else s.raiseFault c (faultAt 0x06 0 (some p.2)))
      else match s1.convertAt c w e p.2 with
        | (none, s2) => .next s2
        | (some u, s2) => .next (s2.leavePath c w u)
  | _, _ => .next s

/-- A result delivered to a target field (R20, R111) (DEDUCED, log entry 38). -/
def State.deliver (s : State) (c : CellId) (t : BitVec 6) (u : Item) : State :=
  match targetOf t with
  | .none => s
  | .latch k p => s.modCell c (fun x => { x with latches := x.latches.set (4 * k.toNat + p.toNat) (some u) (by omega) })
  | .outlet o => s.emitOutlet c o u

/-- Whether a target can take a result now: a latch that is empty, an outlet, or none (DEDUCED, log entry 38). -/
def Cell.canTake (x : Cell) (t : BitVec 6) : Bool := match targetOf t with
  | .latch k p => (x.latchOf k p.toNat).isNone
  | _ => true

/-- A list of a node's results delivered in order. One whose latch is occupied waits, and those behind it with it (R164)
(DEDUCED, log entry 38). -/
def State.deliverAll (s : State) (c : CellId) (k : BitVec 3) : List (BitVec 6 × Item) → State
  | [] => s
  | (t, u) :: rest =>
    if (s.cell c).canTake t then (s.deliver c t u).deliverAll c k rest
    else s.modCell c (fun x => { x with due := x.due.set k.toNat ((t, u) :: rest) })

/-! ### ORDER tokens (R307, R309) -/

/-- An ORDER token of a list of entries. -/
def orderItem (nest : BitVec 4) (es : List Word64) (inv : Option Inv) : Item :=
  { tag := { kind := kOrder, flags := 0, domain := 0, weight := 0, nest := nest, seq := 0 },
    v0 := payloadOf 64 (es.length :: es.map BitVec.toNat), v1 := none, inv := inv }

/-- The entries of an ORDER token. -/
def orderEntries (p : Payload) : List Word64 := (List.range (min (orderN p) 7)).map (orderEntry p)

/-- A release as an entry word (R307). -/
def OrderEntry.word (e : OrderEntry) : Word64 :=
  BitVec.ofNat 64 ((cellWord e.src 0).toNat + e.ph.toNat * 2 ^ 32 + e.count % 2 ^ 28 * 2 ^ 36)

/-- The release that an entry word names. -/
def orderOfWord (w : Word64) : OrderEntry :=
  { src := { die := bits w 17 3, y := bits w 13 4, x := bits w 9 4, n := bits w 3 6 }, ph := bits w 32 2,
    count := (bits w 36 28).toNat }

/-- The entries of several ORDER tokens, each kept once (R309). -/
def mergeEntries (us : List Item) : List Word64 :=
  (us.flatMap (fun u => orderEntries u.v0)).foldl (fun es e => if e ∈ es then es else es ++ [e]) []

/-! ### What an EOT or EOI does at a node (R29, R166, R286) -/

/-- The EOT of a tile has passed a sink (R286): the sink is added to what the open tile has passed. -/
def State.passSink (s : State) (c : CellId) (k : BitVec 3) (i : Option Inv) : State :=
  match i, s.regionOf c with
  | some i, some r =>
    let isHere (n : NodeRef) : Bool := n.slot == k && decide (r.logical n.lx n.ly n.cell = some c)
    let sec (j : Nat) (x : Section) : Section :=
      if j = i.sec then
        { x with tiles := x.tiles.map (fun t =>
            if t.tile = i.tile then { t with sinks := t.sinks ++ (x.sinks.filter isHere).filter (fun n => n ∉ t.sinks) } else t) }
      else x
    s.modRegion r.serial (fun g => { g with sections := g.sections.mapIdx sec })
  | _, _ => s

/-- A node has forwarded an EOT: LFIN, and the sink that the tile of each invocation has passed (R29, R286). -/
def State.passEot (s : State) (c : CellId) (k : BitVec 3) (is : List Inv) : State :=
  is.foldl (fun s i => s.passSink c k (some i)) (s.sendPulse c k 1)

/-- A node has consumed the EOI that begins an invocation: LSTART, the next invocation and the checkpoint of R166. -/
def State.beginInv (s : State) (c : CellId) (k : BitVec 3) (is : List Inv) : State :=
  (s.sendPulse c k 0).modCell c (fun x =>
    { x with
      cur := x.cur.set k.toNat (is.head?.map (fun i => { i with tile := i.tile + 1 })),
      ckpt := x.ckpt.set k.toNat x.nst[k.toNat] })

/-- What a token of some invocations does at a node that has consumed and forwarded it. -/
def State.afterToken (s : State) (c : CellId) (k : BitVec 3) (kind : BitVec 4) (is : List Inv) : State :=
  if kind = kEot then s.passEot c k is else if kind = kEoi then s.beginInv c k is else s

/-! ### The frame of a firing (R21, R23, R24) -/

/-- The node whose turn it is. -/
def State.here (s : State) : CellId × BitVec 3 := s.nodeTurn

/-- Whether the island of a block is ON (R444) (DEDUCED, log entry 111). -/
def State.islandOn (s : State) (c : CellId) : Bool :=
  s.islands.all (fun p => p.2 == .on || p.1 != (Config.islandOf c.die.toNat (blockNum c).toNat).val)

/-- Whether a cell may fire: it has not stopped, its row is not halted, its island is ON, and its kernel runs; while its region freezes, at
most ten times (R266, R389, R398, R444). -/
def State.cellRuns (s : State) (c : CellId) : Bool :=
  let x := s.cell c
  !x.stopped && !x.muted && !s.rowHalted c && s.islandOn c &&
    (match s.regionOf c with
      | none => true
      | some r => (r.kstate == .active || r.kstate == .resident) && !(r.freezing && decide (10 ≤ x.fault.skid.toNat)))

/-- One c trigger taken (R29). -/
def State.takeTrigger (s : State) (c : CellId) (k : BitVec 3) (p : Nat) : State :=
  if p ≠ posC then s
  else s.modCell c (fun x =>
    match x.triggers k with
    | [] => x
    | t :: _ => { x with pin := x.pin.set k.toNat ((x.pin[k.toNat]).erase t) })

/-- A queue popped or a latch cleared, or one c trigger taken (R21, R29). A value at c is taken before a trigger that a pulse has
brought (DESIGN CHOICE, log entry 122). -/
def State.take (s : State) (c : CellId) (k : BitVec 3) (p : Nat) : State :=
  let x := s.cell c
  match x.bindOf k p with
  | some q => match x.valueAt k p with
    | some _ => s.popQ c q
    | none => s.takeTrigger c k p
  | none =>
    match x.latchOf k p with
    | some _ => s.modCell c (fun x => { x with latches := x.latches.setIfInBounds (4 * k.toNat + p) none })
    | none => s.takeTrigger c k p

/-- One value consumed from every used position, and the node marked as the last issued (R21, R22). A node that has met no EOI
yet is in the invocation of the first DATA it consumes. -/
def State.consume (s : State) (c : CellId) (k : BitVec 3) (used : List Nat) : State :=
  let x := s.cell c
  let inv := used.findSome? (fun p => (x.valueAt k p).bind (fun u => if u.isData then u.inv else none))
  (used.foldl (fun s p => s.take c k p) s).modCell c (fun x =>
    { x with last := k, cur := if x.cur[k.toNat].isNone then x.cur.set k.toNat inv else x.cur })

/-- One token consumed from every position that takes part in alignment. -/
def State.consumeTokens (s : State) (c : CellId) (k : BitVec 3) (used : List Nat) : State :=
  s.consume c k (used.filter ((s.cell c).aligns k))

/-- The operands of a firing; a position that the node does not use has none. -/
structure Operands where
  a : Option Item
  b : Option Item
  p : Option Item
  c : Option Item
  deriving DecidableEq, Repr

def Cell.operands (x : Cell) (k : BitVec 3) (used : List Nat) : Operands :=
  let at_ (p : Nat) : Option Item := if p ∈ used then x.valueAt k p else none
  ⟨at_ posA, at_ posB, at_ posP, at_ posC⟩

/-- The lane mask at p: payload bits [63:0] (R18); every lane where the node does not use p. -/
def maskBit (p : Option Item) (i : Nat) : Bool := match p with
  | some u => if i < 64 then u.v0.getLsbD i else true
  | none => true

/-- A gap marker that heads a position forwarded (R23), as soon as every target is empty or is the latch that the marker leaves (R21)
(DEDUCED, log entry 121). -/
def State.forwardGap (s : State) (c : CellId) (k : BitVec 3) (ts : List (BitVec 6)) (p : Nat) : State :=
  match (s.cell c).valueAt k p with
  | none => s
  | some u => (s.consume c k [p]).deliverAll c k (ts.map (fun t => (t, u)))

/-- Aligned tokens as the one that leaves: the entries of ORDER tokens merged (R309), and the invocations of all. None where an ORDER
token would carry more than seven entries, or there is no token. -/
def mergeTokens (kind : BitVec 4) (toks : List Item) : Option Item := match toks with
  | [] => none
  | u :: _ =>
    let es := mergeEntries toks
    if kind = kOrder ∧ 7 < es.length then none
    else some ((if kind = kOrder then orderItem u.tag.nest es u.inv else u).withInvs (toks.flatMap Item.invs))

/-- The aligned tokens at the heads, forwarded to a list of targets behind what the node emits before them (R23, R309); `node` is what
becomes of the node. -/
def State.forwardTokenAfter (s : State) (c : CellId) (k : BitVec 3) (used : List Nat) (ts : List (BitVec 6)) (kind : BitVec 4)
    (node : State → State) (first : List (BitVec 6 × Item)) : State :=
  let x := s.cell c
  let toks := (used.filter (x.aligns k)).filterMap (x.valueAt k)
  match mergeTokens kind toks with
  | none => if toks.isEmpty then s else s.raiseFault c (faultAt 0x17 k toks.head?)
  | some v =>
    ((node (s.consumeTokens c k used)).deliverAll c k (first ++ ts.map (fun t => (t, v)))).afterToken c k kind v.invs

/-- The aligned tokens at the heads, forwarded to a list of targets (R23, R309). -/
def State.forwardToken (s : State) (c : CellId) (k : BitVec 3) (used : List Nat) (ts : List (BitVec 6)) (kind : BitVec 4) :
    State :=
  s.forwardTokenAfter c k used ts kind id []

/-- The turn of a node that may act: it has no result waiting for a latch, and its cell runs. A node that has one delivers what it
can, and does nothing else (R164). -/
def State.atNode (s : State) (act : CellId → BitVec 3 → Cell → State) : State :=
  let (c, k) := s.here
  let x := s.cell c
  if !s.cellRuns c then s
  else if x.due[k.toNat].isEmpty then act c k x
  else (s.modCell c (fun x => { x with due := x.due.set k.toNat [] })).deliverAll c k x.due[k.toNat]

/-- The fault of a token that no consumer accepts, at a position (R25, R307). -/
def State.tokenFault (s : State) (c : CellId) (k : BitVec 3) (p : Nat) : State :=
  let x := s.cell c
  s.raiseFault c { faultAt 0x02 k (x.valueAt k p) with queue := (x.bindOf k p).getD 0 }

/-- The alignment fault of a node: its unit is the first token among the positions (R24, R391) (DEDUCED, log entry 149). -/
def State.alignFault (s : State) (c : CellId) (k : BitVec 3) (used : List Nat) : State :=
  s.raiseFault c (faultAt 0x01 k ((used.filterMap ((s.cell c).valueAt k)).find? (fun u => !u.isData)))

/-- A firing or forwarding of the node whose turn it is (R21, R23, R24): `ts` are its targets, `fire` what it makes of DATA at
every used position, `post` what it does once it has forwarded a token. Where the node is not ready, nothing happens
(DEDUCED, log entry 149). -/
def State.nodeActWith (s : State) (used : List Nat) (ts : List (BitVec 6))
    (fire : CellId → BitVec 3 → Operands → State → State) (post : CellId → BitVec 3 → BitVec 4 → State → State) : State :=
  s.atNode (fun c k x =>
    match x.heads k used with
    | .wait => s
    | .misaligned => s.alignFault c k used
    | .badKind p => s.tokenFault c k p
    | .gap p => if ts.all (x.targetFree k [p]) then s.forwardGap c k ts p else s
    | .token kind => if ts.all (x.targetFree k (used.filter (x.aligns k))) then post c k kind (s.forwardToken c k used ts kind) else s
    | .data => if ts.all (x.targetFree k used) then fire c k (x.operands k used) s else s)

/-- The same for a node that does nothing more with a token. -/
def State.nodeAct (s : State) (used : List Nat) (ts : List (BitVec 6)) (fire : CellId → BitVec 3 → Operands → State → State) :
    State :=
  s.nodeActWith used ts fire (fun _ _ _ s => s)

/-- A firing that fails: the fault, and no other effect (R165). -/
def State.nodeFault (s : State) (c : CellId) (k : BitVec 3) (code : Nat) (u : Option Item) : State :=
  s.raiseFault c (faultAt code k u)

/-- The invocations of the values at some positions of a node. -/
def Cell.invsAt (x : Cell) (k : BitVec 3) (used : List Nat) : List Inv :=
  used.flatMap (fun p => ((x.valueAt k p).map Item.invs).getD [])

/-- An ordinary firing: its operands consumed, its results delivered. They belong to the invocation of every operand (R36). -/
def State.fireWith (s : State) (c : CellId) (k : BitVec 3) (used : List Nat) (outs : List (BitVec 6 × Item)) : State :=
  (s.consume c k used).deliverAll c k (outs.map (fun o => (o.1, o.2.withInvs ((s.cell c).invsAt k used))))

end Sys2Proof.Machine
end

