-- ==== Sys2Proof/Machine/Flow.lean ====
section
/-!
DEFINITION. The copy and steer cells and the carry gate (R170 to R173).
-/

namespace Sys2Proof.Machine

/-! ### Copy and the carry gate -/

/-- A unit with another NEST. -/
def withNest (u : Item) (n : BitVec 4) : Item := { u with tag := { u.tag with nest := n } }

/-- `COPY` (R170): NSET is MOD[4]. -/
def execCopy (a b : BitVec 6) (m : BitVec 2) (o : BitVec 8) (s : State) : Result :=
  let used := usedPos [posA] m
  .next (s.nodeAct used [a, b] (fun c k ops s =>
    match ops.a with
    | none => s
    | some u =>
      let v := if o.getLsbD 4 then withNest u (bits o 0 4) else u
      s.fireWith c k used [(a, v), (b, v)]))

/-- The state of a node replaced. -/
def State.setNode (s : State) (c : CellId) (k : BitVec 3) (n : NodeState) : State :=
  s.modCell c (fun x => { x with nst := x.nst.set k.toNat n })

/-- The decision at c of a gate: bit 0 of the payload, or, for a pulse, which has none, a free value (DESIGN CHOICE, log entry 5). -/
def gateBit (s : State) (x : Cell) (k : BitVec 3) : Option Bool × State :=
  match x.valueAt k posC with
  | some u => (some (u.v0.getLsbD 0), s)
  | none =>
    if (x.triggers k).isEmpty then (none, s)
    else let (n, s1) := s.freshNat; (some ((Config.freeValue n).getLsbD 0), s1)

/-- Whether a value is an aligned token. -/
def isAligned (u : Option Item) : Bool := (u.map (fun v => alignedKind v.tag.kind)).getD false

/-- `GATE` (R171). -/
def execGate (a b : BitVec 6) (_m : BitVec 2) (o : BitVec 8) (s : State) : Result :=
  .next (s.atNode (fun c k x =>
    let va := x.valueAt k posA
    let vb := x.valueAt k posB
    let vc := x.valueAt k posC
    let free (used : List Nat) : Bool := [a, b].all (x.targetFree k used)
    let pass (s : State) (u : Item) (used : List Nat) : State :=
      s.fireWith c k used [(a, withNest u (bits o 0 4)), (b, withNest u (bits o 0 4))]
    let bad := [(posA, va), (posB, vb), (posC, vc)].find? (fun v => (v.2.map badToken).getD false)
    let gap := [(posA, va), (posB, vb), (posC, vc)].find? (fun v => (v.2.map (fun u => u.tag.kind == kGap)).getD false)
    match bad, gap with
    | some v, _ => s.tokenFault c k v.1
    | none, some v => if free [v.1] then s.forwardGap c k [a, b] v.1 else s
    | none, none =>
      if isAligned vb || isAligned vc then s.nodeFault c k 0x01 none
      else if x.nst[k.toNat] = .carry then
        match gateBit s x k with
        | (some true, s1) =>
          match vb with
          | some u => if free [posB, posC] then pass s1 u [posC, posB] else s
          | none => s
        | (some false, s1) => if free [posC] then (s1.consume c k [posC]).setNode c k .idle else s
        | (none, _) => s
      else
        match va with
        | none => s
        | some u =>
          if !free [posA] then s
          else if u.isData then (pass s u [posA]).setNode c k .carry
          else s.forwardToken c k [posA] [a, b] u.tag.kind))

/-! ### Steer -/

/-- Outlet `n` as a target field (R111). -/
def outletTarget (n : Nat) : BitVec 6 := BitVec.ofNat 6 (32 + n % 32)

/-- A steer node: `ts` are the targets of its range and target B, or none where K is outside its range, a parameter fault
(DEDUCED, log entry 24). -/
def State.steerAct (s : State) (used : List Nat) (ts : Cell → Option (List (BitVec 6)))
    (fire : CellId → BitVec 3 → Operands → State → State) : State :=
  s.atNode (fun c k x =>
    match ts x with
    | some l => s.nodeAct used l fire
    | none =>
      match x.heads k used with
      | .wait => s
      | .misaligned => s.alignFault c k used
      | .badKind p => s.tokenFault c k p
      | .gap _ | .token _ | .data => s.nodeFault c k 0x05 (x.valueAt k posA))

/-- `STP` (R173). -/
def execStp (a b : BitVec 6) (m : BitVec 2) (o : BitVec 8) (s : State) : Result :=
  let used := usedPos [posA, posP] m
  .next (s.steerAct used (fun _ => some [a, b]) (fun c k ops s =>
    match ops.a with
    | none => s
    | some u => s.fireWith c k used [(if maskBit ops.p (bits o 0 6).toNat then a else b, u)]))

/-- K of a steer's class range (R172), where it is in range (DEDUCED, log entry 24). -/
def steerK (x : Cell) (a : BitVec 6) (j : Nat) : Option Nat :=
  let n := (bits a 0 5).toNat
  let k := (bits ((x.prm j).getD 0) 0 5).toNat
  if k = 0 ∨ 30 < n + k - 1 then none else some k

/-- The targets of a steer's range, and target B (R172). -/
def steerTargets (x : Cell) (a b : BitVec 6) (j : Nat) : Option (List (BitVec 6)) :=
  (steerK x a j).map (fun k => (List.range k).map (fun i => outletTarget ((bits a 0 5).toNat + i)) ++ [b])

/-- A record steered to a class, to target B where the class is none, or a parameter fault (R172, R173): a record whose p mask
is all zero goes to target B. -/
def steerClass (a b : BitVec 6) (m : BitVec 2) (o : BitVec 8) (choose : Cell → Nat → Nat → Item → Option (Option Nat))
    (s : State) : State :=
  let used := usedPos [posA] m
  let j := (bits o 0 4).toNat
  s.steerAct used (fun x => steerTargets x a b j) (fun c k ops s =>
    match ops.a with
    | none => s
    | some u =>
      let masked := decide (posP ∈ used) && (ops.p.map (fun p => bits p.v0 0 64 == 0)).getD false
      match choose (s.cell c) j ((steerK (s.cell c) a j).getD 0) u with
      | none => s.nodeFault c k 0x05 (some u)
      | some cl =>
        let t := if masked then b else match cl with
          | some i => outletTarget ((bits a 0 5).toNat + i)
          | none => b
        s.fireWith c k used [(t, u)])

/-- The key of a steer node (R173): payload bits [63:0]; of a vector, its SEQ (R362). -/
def steerKey (u : Item) : Nat := if u.v1.isSome then u.tag.seq.toNat else u.key.toNat

/-- Whether a list ascends strictly. -/
def ascends : List Nat → Bool
  | x :: y :: rest => decide (x < y) && ascends (y :: rest)
  | _ => true

/-- `STK` (R173): the largest class whose bound is at most the key. A key below every bound goes to target B, as the table of R173 has it
(DEDUCED, log entry 130). -/
def execStk (a b : BitVec 6) (m : BitVec 2) (o : BitVec 8) (s : State) : Result :=
  .next (steerClass a b m o (fun x j k u =>
    let bounds := (List.range k).map (fun i => ((x.prm (j + 1 + i)).getD 0).toNat)
    if 15 < j + k ∨ !ascends bounds then none
    else
      let n := (bounds.filter (fun y => decide (y ≤ steerKey u))).length
      some (if n = 0 then none else some (n - 1))) s)

/-- `STH` (R173): the class by hash. Register 16 does not exist, so j = 15 is a parameter fault (DESIGN CHOICE, log entry 21). -/
def execSth (a b : BitVec 6) (m : BitVec 2) (o : BitVec 8) (s : State) : Result :=
  .next (steerClass a b m o (fun x j k u =>
    (x.prm (j + 1)).map (fun salt => some (kh64 (steerKey u) salt.toNat / 2 ^ 32 * k / 2 ^ 32))) s)

/-- `STT` (R173): the class by table. -/
def execStt (a b : BitVec 6) (m : BitVec 2) (o : BitVec 8) (s : State) : Result :=
  .next (steerClass a b m o (fun x j k u =>
    if j = 15 then none
    else
      let e := steerKey u % (16 * (15 - j))
      let v := ((x.prm (j + 1 + e / 16)).getD 0).toNat / 2 ^ (4 * (e % 16)) % 16
      some (if k ≤ v then none else some v)) s)

end Sys2Proof.Machine
end

