-- ==== Sys2Proof/Machine/Join.lean ====
section
/-!
DEFINITION. The join cells (R174 to R178).
-/

namespace Sys2Proof

/-- The second field of a `kv` record (R66). -/
def Item.second (u : Item) : Word32 := bits u.v0 96 32

/-- A `kv` payload (R66). -/
def kvPayload (key value second : Nat) : Payload :=
  BitVec.ofNat 512 (key % 2 ^ 64 + value % 2 ^ 32 * 2 ^ 64 + second % 2 ^ 32 * 2 ^ 96)

end Sys2Proof

namespace Sys2Proof.Machine

/-! ### The action table (R175, R177) -/

/-- What becomes of b's head: reuse, pop or reset. -/
inductive BAct where
  | reuse | pop | reset
  deriving DecidableEq, Repr

/-- The actions of one relation. -/
structure JAct where
  popA : Bool
  b    : BAct
  emit : Bool
  deriving DecidableEq, Repr

/-- An action table; `marks` says that the function keeps `jcmp`'s mark and replay buffer. -/
structure JTable where
  lt    : JAct
  eq    : JAct
  gt    : JAct
  emode : Nat
  isInt : Bool
  marks : Bool
  deriving DecidableEq, Repr

/-- The code of b's action; 3 is a parameter fault. -/
def bactOf (c : BitVec 2) : Option BAct :=
  match c.toNat with
  | 0 => some .reuse
  | 1 => some .pop
  | 2 => some .reset
  | _ => none

/-- The table of `jcmp` in prm[j], or none for a parameter fault (R175, R176). -/
def jcmpTable (v : Word64) : Option JTable :=
  match bactOf (bits v 1 2), bactOf (bits v 5 2), bactOf (bits v 9 2) with
  | some l, some e, some g =>
    if 5 ≤ (bits v 12 3).toNat then none
    else some
      { lt := ⟨v.getLsbD 0, l, v.getLsbD 3⟩, eq := ⟨v.getLsbD 4, e, v.getLsbD 7⟩, gt := ⟨v.getLsbD 8, g, v.getLsbD 11⟩,
        emode := (bits v 12 3).toNat, isInt := v.getLsbD 15, marks := true }
  | _, _, _ => none

/-- A fixed table with the EMODE and VT of prm[j] (R177). None of its actions is a reset, and R446 gives these functions no store, so they
keep no mark and no replay buffer (DEDUCED, log entry 129). -/
def fixedTable (lt eq gt : JAct) (v : Word64) : Option JTable :=
  if 5 ≤ (bits v 12 3).toNat then none
  else some { lt := lt, eq := eq, gt := gt, emode := (bits v 12 3).toNat, isInt := v.getLsbD 15, marks := false }

/-! ### Emission (R176) -/

/-- The product or sum of two values in the VT type, and whether it saturated (DEDUCED, log entry 15). -/
def vtOp (isInt mul : Bool) (x y : Nat) : Nat × Bool :=
  if isInt then
    let a := toSigned 32 x
    let b := toSigned 32 y
    let (r, s) := clampInt 32 (if mul then a * b else a + b)
    (ofSigned 32 r, s)
  else
    let a := FloatFmt.f32.read x
    let b := FloatFmt.f32.read y
    let r := FloatFmt.f32.conv .rne false (if mul then a.mul b else a.add .rne b)
    (r.code, r.sat)

/-- The combined record of an EQ emission. -/
def combine (emode : Nat) (isInt : Bool) (a b : Item) : Item :=
  let mul := vtOp isInt true a.value.toNat b.value.toNat
  let add := vtOp isInt false a.value.toNat b.value.toNat
  let (p, sat) := match emode with
    | 0 => (kvPayload (a.second.toNat * 2 ^ 32 + b.second.toNat) mul.1 a.key.toNat, mul.2)
    | 1 => (kvPayload a.key.toNat mul.1 a.second.toNat, mul.2)
    | 2 => (kvPayload a.key.toNat add.1 a.second.toNat, add.2)
    | 3 => (kvPayload a.key.toNat a.value.toNat b.value.toNat, false)
    | _ => (a.v0, false)
  { a with tag := tag2 a.tag b.tag (flagIf sat fSat), v0 := p, v1 := none }.withInvs b.invs

/-! ### The sorted joins (R174, R175) -/

/-- A kind that ends a segment. -/
def endKind (k : BitVec 4) : Bool := k == kEod || k == kEot || k == kEoi

/-- The parts of a join node's state. -/
structure JState where
  buf   : List Item
  pos   : Nat
  mark  : Bool
  prevA : Option Word64
  prevB : Option Word64
  deriving DecidableEq, Repr

def JState.of : NodeState → JState
  | .join buf pos mark pa pb => ⟨buf, pos, mark, pa, pb⟩
  | _ => ⟨[], 0, false, none, none⟩

def JState.toNode (j : JState) : NodeState := .join j.buf j.pos j.mark j.prevA j.prevB

/-- The relation of two heads: an input at the end of its segment compares above every key. -/
inductive Rel where
  | lt | eq | gt
  deriving DecidableEq, Repr

def relOf (a b : Item) : Rel :=
  if a.isData then
    if !b.isData then .lt
    else if a.key < b.key then .lt
    else if a.key = b.key then .eq
    else .gt
  else .gt

/-- Whether a key lies below the previous one of its input (R174). -/
def outOfOrder (prev : Option Word64) (u : Item) : Bool :=
  u.isData && (match prev with
    | some p => decide (u.key < p)
    | none => false)

/-- b's head popped (R175): the state, whether its queue is popped, or none where the buffer overflows. `clear` is the clearing of
the mark by a GT firing. -/
def JState.popB (j : JState) (u : Item) (clear : Bool) : Option (JState × Bool) :=
  if j.mark then
    let inBuf := j.pos < j.buf.length
    if clear then some ({ j with buf := j.buf.drop (j.pos + 1), pos := 0, mark := false }, !inBuf)
    else if inBuf then some ({ j with pos := j.pos + 1 }, false)
    else if 256 ≤ j.buf.length then none
    else some ({ j with buf := j.buf ++ [u], pos := j.pos + 1 }, true)
  else if j.buf.isEmpty then some (j, true)
  else some ({ j with buf := j.buf.drop 1 }, false)

/-- The mark that an EQ firing sets (R175). -/
def JState.setMark (j : JState) (u : Item) : JState :=
  let keyAt : Option Word64 := match j.buf with
    | v :: _ => some v.key
    | [] => none
  if !j.mark then { j with mark := true }
  else if keyAt ≠ none ∧ keyAt ≠ some u.key then { j with buf := j.buf.drop j.pos, pos := 0 }
  else j

/-- One comparison of a sorted join whose heads are `a` and `b` (DEDUCED, log entry 129). -/
def joinStep (s : State) (c : CellId) (k : BitVec 3) (ts : List (BitVec 6)) (tab : JTable) (j : JState) (a b : Item) : State :=
  let x := s.cell c
  let r := relOf a b
  let act := match r with
    | .lt => tab.lt
    | .eq => tab.eq
    | .gt => tab.gt
  let j1 := if r = .eq ∧ tab.marks then j.setMark b else j
  let popsA := act.popA && a.isData
  let popsB := act.b == .pop && b.isData
  let resets := act.b == .reset && j1.mark && decide (0 < j1.pos)
  let fromQ := !(decide (j.pos < j.buf.length))
  if !ts.all (x.targetFree k ((if popsA then [posA] else []) ++ (if popsB && fromQ then [posB] else []))) then s
  else if outOfOrder j.prevA a || (fromQ && outOfOrder j.prevB b) then s.nodeFault c k 0x07 (some (if outOfOrder j.prevA a then a else b))
  else
    let popped : Option (JState × Bool) :=
      if popsB then j1.popB b (decide (r = .gt) && j1.mark)
      else if act.b = .reset ∧ j1.mark then some ({ j1 with pos := 0 }, false)
      else some (j1, false)
    match popped with
    | none => s.nodeFault c k 0x08 (some b)
    | some (j2, qpop) =>
      if !popsA && !popsB && !resets then s.nodeFault c k 0x09 (some a)
      else
        let j3 := { j2 with prevA := if popsA then some a.key else j2.prevA, prevB := if qpop then some b.key else j2.prevB }
        let out : List Item :=
          if !act.emit then []
          else match r with
            | .lt => [a]
            | .eq => [combine tab.emode tab.isInt a b]
            | .gt => [b]
        let used := (if popsA then [posA] else []) ++ (if qpop then [posB] else [])
        ((s.consume c k used).setNode c k j3.toNode).deliverAll c k (out.flatMap (fun u => ts.map (fun t => (t, u))))

/-- The heads of a join: what R174 makes of them. `vb` is b's head, from the buffer where it holds one. -/
def joinHeads (s : State) (c : CellId) (k : BitVec 3) (ts : List (BitVec 6)) (x : Cell) (va vb : Option Item)
    (clear : NodeState) (body : Item → Item → State) : State :=
  let qb := x.valueAt k posB
  let free (used : List Nat) : Bool := ts.all (x.targetFree k used)
  let isGap (u : Option Item) : Bool := (u.map (fun v => v.tag.kind == kGap)).getD false
  if (va.map badToken).getD false then s.tokenFault c k posA
  else if (qb.map badToken).getD false then s.tokenFault c k posB
  else if isGap va then (if free [posA] then s.forwardGap c k ts posA else s)
  else if isGap qb then (if free [posB] then s.forwardGap c k ts posB else s)
  else
    match va, vb with
    | some a, some b =>
      if a.isData && b.isData then body a b
      else if a.tag.kind = b.tag.kind then
        if !free [posA, posB] then s
        else s.forwardTokenAfter c k [posA, posB] ts a.tag.kind
          (fun s => if endKind a.tag.kind then s.setNode c k clear else s) []
      else if (a.isData && endKind b.tag.kind) || (endKind a.tag.kind && b.isData) then body a b
      else s.nodeFault c k 0x01 (some a)
    | _, _ => s

/-- A node of a sorted join. -/
def joinAct (a b : BitVec 6) (o : BitVec 8) (table : Word64 → Option JTable) (s : State) : State :=
  s.atNode (fun c k x =>
    let j := JState.of x.nst[k.toNat]
    let va := x.valueAt k posA
    let vb := if j.pos < j.buf.length then j.buf[j.pos]? else x.valueAt k posB
    joinHeads s c k [a, b] x va vb .idle (fun u v =>
      match table ((x.prm (bits o 0 4).toNat).getD 0) with
      | none => s.nodeFault c k 0x05 (some u)
      | some tab => joinStep s c k [a, b] tab j u v))

/-- `JCMP` (R175). -/
def execJcmp (a b : BitVec 6) (_m : BitVec 2) (o : BitVec 8) (s : State) : Result := .next (joinAct a b o jcmpTable s)

/-- `ISECT` (R177). -/
def execIsect (a b : BitVec 6) (_m : BitVec 2) (o : BitVec 8) (s : State) : Result :=
  .next (joinAct a b o (fixedTable ⟨true, .reuse, false⟩ ⟨true, .pop, true⟩ ⟨false, .pop, false⟩) s)

/-- `UNION` (R177). -/
def execUnionKeys (a b : BitVec 6) (_m : BitVec 2) (o : BitVec 8) (s : State) : Result :=
  .next (joinAct a b o (fixedTable ⟨true, .reuse, true⟩ ⟨true, .pop, true⟩ ⟨false, .pop, true⟩) s)

/-- `DIFF` (R177). -/
def execDiff (a b : BitVec 6) (_m : BitVec 2) (o : BitVec 8) (s : State) : Result :=
  .next (joinAct a b o (fixedTable ⟨true, .reuse, true⟩ ⟨true, .pop, false⟩ ⟨false, .pop, false⟩) s)

/-! ### Joins of windows (R178) -/

/-- The marker of a window whose buffer overflowed (DEDUCED, log entry 17); its NEST is that of the end token of a (DESIGN CHOICE, log
entry 148). -/
def overflowMarker (c : CellId) (g : GapSum) (nest : BitVec 4) (inv : Option Inv) : Item :=
  gapItem g.lost g.first g.last 0x8 false 0 false (cellWord c 0) nest inv

/-- One more record dropped (DEDUCED, log entry 17). -/
def GapSum.more (g : Option GapSum) (q : BitVec 28) : GapSum := match g with
  | none => ⟨1, q, q⟩
  | some g => { g with lost := g.lost + 1, last := q }

/-- `JWIN` (R178): b's window is read into the buffer first; then each record of a is joined with it. -/
def execJwin (a b : BitVec 6) (_m : BitVec 2) (o : BitVec 8) (s : State) : Result :=
  .next (s.atNode (fun c k x =>
    let (buf, closed, dropped) : List Item × Bool × Option GapSum := match x.nst[k.toNat] with
      | .jwin buf closed dropped => (buf, closed, dropped)
      | _ => ([], false, none)
    let va := x.valueAt k posA
    let vb := x.valueAt k posB
    let ts := [a, b]
    let isGap (u : Option Item) : Bool := (u.map (fun v => v.tag.kind == kGap)).getD false
    let free (used : List Nat) : Bool := ts.all (x.targetFree k used)
    if (va.map badToken).getD false then s.tokenFault c k posA
    else if (vb.map badToken).getD false then s.tokenFault c k posB
    else if isGap va then (if free [posA] then s.forwardGap c k ts posA else s)
    else if isGap vb then (if free [posB] then s.forwardGap c k ts posB else s)
    else
      match va, vb with
      | _, none => s
      | va, some v =>
        let aTok := isAligned va && !(va.map (fun u => endKind u.tag.kind)).getD false
        if v.isData then
          if closed || aTok then s.nodeFault c k 0x01 (some v)
          else
            let n : NodeState :=
              if buf.length < 256 then .jwin (buf ++ [v]) false dropped
              else .jwin buf false (some (GapSum.more dropped v.tag.seq))
            (s.consume c k [posB]).setNode c k n
        else
          match va with
          | none => s
          | some u =>
            if u.isData && endKind v.tag.kind then
              if !free [posA] then s else
              match fixedTable ⟨false, .reuse, false⟩ ⟨false, .reuse, false⟩ ⟨false, .reuse, false⟩
                  ((x.prm (bits o 0 4).toNat).getD 0) with
              | none => s.nodeFault c k 0x05 (some u)
              | some tab =>
                let out := (buf.filter (fun w => w.key == u.key)).map (combine tab.emode tab.isInt u)
                ((s.consume c k [posA]).setNode c k (.jwin buf true dropped)).deliverAll c k
                  (out.flatMap (fun r => ts.map (fun t => (t, r))))
            else if u.tag.kind = v.tag.kind then
              if !free [posA, posB] then s
              else if endKind u.tag.kind then
                let mk := match dropped with
                  | none => []
                  | some g => [overflowMarker c g u.tag.nest v.inv]
                s.forwardTokenAfter c k [posA, posB] ts u.tag.kind (fun s => s.setNode c k .idle)
                  (mk.flatMap (fun r => ts.map (fun t => (t, r))))
              else s.forwardToken c k [posA, posB] ts u.tag.kind
            else s.nodeFault c k 0x01 (some u)))

end Sys2Proof.Machine
end

