-- ==== Sys2Proof/Machine/Matrix.lean ====
section
/-!
DEFINITION. The matrix cells (R86, R210 to R215).
-/

namespace Sys2Proof.Machine

/-! ### Rows of one K step (R210, R211) -/

/-- The values of a row's lanes: `none` past LAST, where a lane is ignored (R68). Under `scaled`, each is its element times the scale
of its row (R81). -/
def rowValues (f : Fmt) (scaled : Bool) (u : Item) : List (Option FVal) :=
  let n := f.rowLanes
  let last := descLast u.desc
  let sc := readScale u.scale.toNat
  (List.range n).map (fun i =>
    if last < i then none
    else some (match scaled && f.scaled, sc with
      | true, .zero => .fin false 0 0
      | true, .poison => .nan
      | true, .value m e => (f.read (laneAt f.laneBits u.row i)).mul (.fin false m e)
      | false, _ => f.read (laneAt f.laneBits u.row i)))

/-- The digits of a plane as values, weighted by 4^−PLANE; a lane that a plane before it cut is zero (R76). -/
def planeValues (scaled : Bool) (first u : Item) (cut : Nat → Bool) : List (Option FVal) :=
  let last := descLast first.desc
  let sc := readScale first.scale.toNat
  (List.range 256).map (fun i =>
    if last < i then none
    else
      let d : FVal := match cut i, digitOf (laneAt 3 u.row i) with
        | false, some d => .fin (decide (d < 0)) d.natAbs (-(2 * descPlane u.desc : Nat) : Int)
        | _, _ => .fin false 0 0
      some (match scaled, sc with
        | true, .zero => .fin false 0 0
        | true, .poison => .nan
        | true, .value m e => d.mul (.fin false m e)
        | false, _ => d))

/-- Whether a plane of a list cuts a lane. -/
def cutBy (ps : List Item) (i : Nat) : Bool := ps.any (fun u => (digitOf (laneAt 3 u.row i)).isNone)

/-- The planes 1 to k of an element as values, k the PLANES of its first plane (DESIGN CHOICE, log entry 147); the digits of a plane that
was lost are zero (R77). -/
def elementValues (scaled : Bool) (ps : List Item) : List (List (Option FVal)) :=
  match ps with
  | [] => []
  | first :: _ => (List.range (descPlanes first.desc)).map (fun j =>
      match ps.find? (fun u => descPlane u.desc == j + 1) with
      | some u => planeValues scaled first u (cutBy (ps.filter (fun v => decide (descPlane v.desc ≤ j))))
      | none => (List.range 256).map (fun i => if descLast first.desc < i then none else some (.fin false 0 0)))

/-- The plane pairs of a step in their order: ascending x + y, then ascending x; at most `pp`, where that is not 0 (R211). -/
def planePairs (ka kb pp : Nat) : List (Nat × Nat) :=
  let all := (List.range (ka + kb - 1)).flatMap (fun t =>
    (List.range ka).filterMap (fun x => if x ≤ t ∧ t - x < kb then some (x, t - x) else none))
  if pp = 0 then all else all.take pp

/-- A pair of operands of one step: the lane values that meet, K ascending, and the length of a group (R86). -/
structure Meet where
  a   : List (Option FVal)
  b   : List (Option FVal)
  len : Nat
  deriving DecidableEq, Repr

/-- Two lane values multiplied; a lane that either side ignores adds nothing. -/
def mulLanes : Option FVal → Option FVal → FVal
  | some x, some y => x.mul y
  | _, _ => .fin false 0 0

/-- The exact sums of a step's groups, in order. -/
def groupSums (m : Meet) : List FVal :=
  let ps := (m.a.zip m.b).map (fun p => mulLanes p.1 p.2)
  (List.range (ps.length / m.len)).map (fun g =>
    ((ps.drop (g * m.len)).take m.len).foldl (fun a x => a.add .rne x) (.fin false 0 0))

/-- Lane-wise exact sums of several rows (R212) (DEDUCED, log entry 30). -/
def sumRows (rows : List (List (Option FVal))) : List (Option FVal) :=
  rows.foldl (fun a r =>
    if a.isEmpty then r
    else (a.zip r).map (fun p => match p.1, p.2 with
      | some x, some y => some (x.add .rne y)
      | some x, none => some x
      | none, y => y)) []

/-- An accumulator under way: its code, whether it saturated, and how many flushes it made. -/
structure AccStep where
  code : Nat
  sat  : Bool
  ftz  : Nat
  deriving DecidableEq, Repr

/-- One group added (R86). `wide` is the checksums' i64 (DEDUCED, log entry 30). -/
def accAdd (isInt wide : Bool) (a : AccStep) (g : FVal) : AccStep :=
  if isInt then
    let x : Int := match g with
      | .fin s m e => alignInt s m e 0
      | _ => 0
    if wide then { a with code := ofSigned 64 (toSigned 64 a.code + x) }
    else let (y, s) := clampInt 32 (toSigned 32 a.code + x); { a with code := ofSigned 32 y, sat := a.sat || s }
  else
    let r := FloatFmt.f32.conv .rne false ((FloatFmt.f32.read a.code).add .rne g)
    let tiny := decide (r.code % 2 ^ 31 ≠ 0 ∧ r.code % 2 ^ 31 < 2 ^ 23)
    { code := if tiny then r.code / 2 ^ 31 * 2 ^ 31 else r.code, sat := a.sat || r.sat, ftz := a.ftz + (if tiny then 1 else 0) }

/-- Every group of a step's meetings added to an accumulator. -/
def accMeet (isInt wide : Bool) (code : Nat) (ms : List Meet) : AccStep :=
  ms.foldl (fun a m => (groupSums m).foldl (accAdd isInt wide) a) ⟨code, false, 0⟩

/-- The operands of a step: for each row of A and of B, the list of its value vectors (one, or one per plane). -/
structure KStep where
  rowsA : List (List (List (Option FVal)))
  rowsB : List (List (List (Option FVal)))
  pairs : List (Nat × Nat)
  len   : Nat
  deriving DecidableEq, Repr

/-- The meetings of two rows (DESIGN CHOICE, log entry 147). -/
def KStep.meets (k : KStep) (a b : List (List (Option FVal))) : List Meet :=
  k.pairs.map (fun p => ⟨a.getD p.1 [], b.getD p.2 [], k.len⟩)

/-- The plane-wise sums of several rows. -/
def sumElements (n : Nat) (rows : List (List (List (Option FVal)))) : List (List (Option FVal)) :=
  (List.range n).map (fun x => sumRows (rows.map (fun r => r.getD x [])))

/-- One K step added to every PE and to the checksums (R212), and how many results were flushed (R73) (DEDUCED, log
entries 30, 131). -/
def MatrixSt.step (m : MatrixSt) (isInt : Bool) (k : KStep) : MatrixSt × Nat :=
  let pes := (List.range 64).map (fun n =>
    accMeet isInt false ((m.acc.toList.getD n 0).toNat) (k.meets (k.rowsA.getD (n / 8) []) (k.rowsB.getD (n % 8) [])))
  let na := ((k.rowsA.map List.length).foldl max 0)
  let nb := ((k.rowsB.map List.length).foldl max 0)
  let sa := sumElements na k.rowsA
  let sb := sumElements nb k.rowsB
  let cr := (List.range 8).map (fun j => (accMeet isInt true ((m.cr.toList.getD j 0).toNat) (k.meets sa (k.rowsB.getD j []))).code)
  let cc := (List.range 8).map (fun i => (accMeet isInt true ((m.cc.toList.getD i 0).toNat) (k.meets (k.rowsA.getD i []) sb)).code)
  ({ m with
    acc := Vector.ofFn (fun n => BitVec.ofNat 32 ((pes.getD n.val ⟨0, false, 0⟩).code)),
    cr := Vector.ofFn (fun j => BitVec.ofNat 64 (cr.getD j.val 0)),
    cc := Vector.ofFn (fun i => BitVec.ofNat 64 (cc.getD i.val 0)),
    sat := m.sat ||| BitVec.ofNat 64 (packLanes 1 (pes.map (fun p => if p.sat then 1 else 0))), isInt := isInt },
    (pes.map AccStep.ftz).sum)

/-! ### The banks (R210) -/

/-- What the leading entries of one queue of a bank give. -/
inductive BankHead where
  | wait
  | gap (at_ : Nat) (u : Item)
  | token (u : Item)
  | bad (u : Item)
  | mixed
  | rows (us : List Item)
  deriving DecidableEq, Repr

/-- The entries of a queue read for two rows, each one unit, or the planes of one element: `planes` are those left of the row under
way, `rows` the rows still to complete. -/
def bankRead (sd : Bool) : List Item → Nat → Nat → List Item → BankHead
  | [], _, _, _ => .wait
  | u :: us, at_, rows, acc =>
    if badToken u then .bad u
    else if perCell u then .wait
    else if u.tag.kind = kGap then .gap at_ u
    else if !u.isData then (if acc.isEmpty then .token u else .mixed)
    else
      let ends := !sd || decide (descPlane u.desc = descPlanes u.desc) || (match us with
        | v :: _ => v.isData && descPlane v.desc == 1
        | [] => false)
      let rows1 := if ends then rows - 1 else rows
      if rows1 = 0 then .rows (acc ++ [u]) else bankRead sd us (at_ + 1) rows1 (acc ++ [u])

/-- The units of a queue cut into its two rows. -/
def cutRows (sd : Bool) (us : List Item) : List Item × List Item :=
  match us with
  | [] => ([], [])
  | u :: rest =>
    if !sd then ([u], rest)
    else
      let r := rest.takeWhile (fun v => descPlane v.desc ≠ 1)
      (u :: r, rest.drop r.length)

/-- A marker taken in: its loss is counted, and it leaves the queue (R212). -/
def MatrixSt.lose (m : MatrixSt) (u : Item) : MatrixSt :=
  { m with
    loss := BitVec.ofNat 32 (satNat 32 (m.loss.toNat + gapLost u.v0)),
    lossSpan := some (match m.lossSpan with
      | none => (gapFirst u.v0, gapLast u.v0)
      | some (a, b) => (minSeq a (gapFirst u.v0), maxSeq b (gapLast u.v0))) }

/-- The cleared accumulators (R213). -/
def MatrixSt.clear (m : MatrixSt) (inv : Option Inv) : MatrixSt :=
  { MatrixSt.reset with isInt := m.isInt, cleared := inv, asked := m.asked }

/-- `n` units popped from a queue. -/
def State.popN (s : State) (c : CellId) (q : BitVec 3) : Nat → State
  | 0 => s
  | n + 1 => (s.popQ c q).popN c q n

/-- A K step (R210 to R212): `scaled` for `mmas`, which sums in `f32` whatever the format (R86) (DEDUCED, log entry 30). Its flushes are
counted for the tile as a converter's, under the tensor identifier of the cell's converters, and leave at the EOT (R73) (DEDUCED, log
entry 131). kA and kB are the PLANES of row 0 of each bank (DESIGN CHOICE, log entry 147). A poison scale of a scaled format, that of plane
1 of an element, sets POISON under `mmas` (R77, R81). -/
def matrixAct (scaled : Bool) (a b : BitVec 6) (m : BitVec 2) (o : BitVec 8) (s : State) : State :=
  let extra := usedPos [] m
  let ts := [a, b]
  s.atNode (fun c k x =>
    let fa := s.fmtAt 64 c k (some posA)
    let fb := s.fmtAt 64 c k (some posB)
    let sd := fa.isSd
    let heads := (List.range 8).map (fun i => (i, bankRead sd ((x.queues.toList.getD i Queue.reset).entries.map QEntry.item) 0 2 []))
    let al := extra.filter (x.aligns k)
    let more := al.map (fun p => (p, x.valueAt k p))
    match heads.find? (fun h => match h.2 with | .bad _ => true | _ => false) with
    | some (i, .bad u) => s.raiseFault c { faultAt 0x02 k (some u) with queue := BitVec.ofNat 3 i }
    | _ =>
    match more.find? (fun v => (v.2.map badToken).getD false) with
    | some v => s.tokenFault c k v.1
    | none =>
    match heads.find? (fun h => match h.2 with | .gap _ _ => true | _ => false) with
    | some (i, .gap at_ u) =>
      let q := x.queues.toList.getD i Queue.reset
      (s.setCell c { x with
        queues := x.queues.setIfInBounds i { q with entries := q.entries.eraseIdx at_ }, mx := x.mx.lose u, last := k }).checkHeads c x.queues
    | _ =>
    match more.find? (fun v => (v.2.map (fun u => u.tag.kind == kGap)).getD false) with
    | some v => if ts.all (x.targetFree k [v.1]) then s.forwardGap c k ts v.1 else s
    | none =>
      let vals := more.filterMap Prod.snd
      let toks := heads.filterMap (fun h => match h.2 with | .token u => some u | _ => none)
        ++ vals.filter (fun u => !u.isData)
      match toks with
      | t :: _ =>
        if heads.any (fun h => match h.2 with | .mixed | .rows _ => true | _ => false)
            || vals.any Item.isData || toks.any (fun u => u.tag.kind != t.tag.kind) then s.nodeFault c k 0x01 (some t)
        else if toks.length < 8 + al.length || !ts.all (x.targetFree k al) then s
        else match mergeTokens t.tag.kind toks with
          | none => s.raiseFault c (faultAt 0x17 k (some t))
          | some v =>
            let s1 := ((List.range 8).foldl (fun s i => s.popQ c (BitVec.ofNat 3 i)) s).consume c k al
            let s2 := (s1.deliverAll c k (ts.map (fun y => (y, v)))).afterToken c k t.tag.kind v.invs
            if t.tag.kind = kEot then s2.convEot c (nodeSite k) x.switchTensor else s2
      | [] =>
        if heads.any (fun h => match h.2 with | .mixed => true | _ => false) then s.nodeFault c k 0x01 none
        else
          let us := heads.map (fun h => match h.2 with | .rows us => us | _ => [])
          if us.any List.isEmpty || !ts.all (x.targetFree k extra)
              || !extra.all (fun p => (x.valueAt k p).isSome || (p == posC && !(x.triggers k).isEmpty)) then s
          else
            let pr := (x.prm (bits o 0 4).toNat).getD 0
            let pp := (bits pr 0 4).toNat
            let all := us.flatten
            if 64 < (bits pr 8 8).toNat then s.nodeFault c k 0x05 all.head?
            else match all.find? (fun u => !(match fa.isSd, u.v1 with
                | _, none => false
                | true, _ => !vectorBad .sdp u
                | false, _ => !vectorBad fa u)) with
            | some u => s.nodeFault c k 0x06 (some u)
            | none =>
              let half (q : Nat) : List Item × List Item := cutRows sd (us.getD q [])
              let row (bank i : Nat) : List Item :=
                let h := half (bank + i % 4)
                if i < 4 then h.1 else h.2
              let val (f : Fmt) (r : List Item) : List (List (Option FVal)) :=
                if sd then elementValues scaled r else r.map (rowValues f scaled)
              let ka := descPlanes ((row 0 0).head?.map Item.desc |>.getD 0)
              let kb := descPlanes ((row 4 0).head?.map Item.desc |>.getD 0)
              let pairs := if sd then planePairs ka kb pp else [(0, 0)]
              let skips := sd && decide (pairs.length < ka * kb)
              let step : KStep :=
                { rowsA := (List.range 8).map (fun i => val fa (row 0 i)), rowsB := (List.range 8).map (fun i => val fb (row 4 i)),
                  pairs := pairs, len := if sd then 64 else fa.rowLanes / 4 }
              let inv := all.findSome? Item.inv
              let poison := scaled && fa.scaled && (List.range 8).any (fun i =>
                [row 0 i, row 4 i].any (fun r => (r.head?.map (fun u => readScale u.scale.toNat == .poison)).getD false))
              let (mx1, ftz) := x.mx.step (fa == .i8 && !scaled) step
              let fl := all.foldl (fun z u => z ||| flagsOf u.tag.flags) (flagIf skips fNarrowed ||| flagIf poison fPoison)
              let mx2 : MatrixSt := { mx1 with
                flags := mx1.flags ||| fl, began := if mx1.began.isNone then inv else mx1.began,
                added := inv.toList ++ mx1.added.filter (fun i => inv != some i) }
              let s1 := (List.range 8).foldl (fun s i => s.popN c (BitVec.ofNat 3 i) (us.getD i []).length) s
              (s1.consume c k extra).modCell c (fun y =>
                let z := { y with mx := mx2, last := k, cur := if y.cur[k.toNat].isNone then y.cur.set k.toNat inv else y.cur }
                z.countConv (nodeSite k) x.switchTensor inv { Counts.zero with ftz := ftz }))

/-- `MMA` (R211). -/
def execMma (a b : BitVec 6) (m : BitVec 2) (o : BitVec 8) (s : State) : Result := .next (matrixAct false a b m o s)

/-- `MMAS` (R211). -/
def execMmas (a b : BitVec 6) (m : BitVec 2) (o : BitVec 8) (s : State) : Result := .next (matrixAct true a b m o s)

/-! ### The drain (R213 to R215) -/

/-- TOL of the cell's K-step node (R211): 0 where it loads none, and the first node's where it loads several (DESIGN CHOICE, log entry
132). -/
def Cell.tol (x : Cell) : Nat :=
  ((List.range 8).findSome? (fun i => match x.word (BitVec.ofNat 3 i) with
    | some w =>
      if bits w 28 4 == 9 && decide ((bits w 22 6).toNat ≤ 1) then
        some ((bits ((x.prm (bits w 0 4).toNat).getD 0) 8 8).toNat)
      else none
    | none => none)).getD 0

/-- Whether a checksum differs from the sum of its lanes beyond TOL (R214); `sat` says that a lane of it saturated. -/
def mismatch (isInt : Bool) (tol : Nat) (sum : Word64) (ls : List Word32) (sat : Bool) : Bool :=
  if sat then false
  else if isInt then decide ((ls.map (fun l => toSigned 32 l.toNat)).sum ≠ toSigned 64 sum.toNat)
  else
    let vs := ls.map (fun l => FloatFmt.f32.read l.toNat)
    let c := FloatFmt.f32.read sum.toNat
    if (c :: vs).any (fun v => v.isNan || v.isInf) then false
    else
      let s : FVal := vs.foldl (fun (a v : FVal) => a.add .rne v) (.fin false 0 0)
      let t : FVal := vs.foldl (fun (a v : FVal) => a.add .rne v.abs) c.abs
      (t.shift (-(tol : Int))).lt (s.add .rne c.neg).abs

/-- The first mismatching row and the first mismatching column (R214), or none where all agree. Where only one of the two mismatches the
other index is 0 (DESIGN CHOICE, log entry 132). -/
def MatrixSt.suspect (m : MatrixSt) (tol : Nat) : Option (Nat × Nat) :=
  if tol = 0 then none
  else
    let lane (i j : Nat) : Word32 := m.acc.toList.getD (8 * i + j) 0
    let satAt (i j : Nat) : Bool := m.sat.getLsbD (8 * i + j)
    let col (j : Nat) : Bool := mismatch m.isInt tol (m.cr.toList.getD j 0) ((List.range 8).map (fun i => lane i j))
      ((List.range 8).any (fun i => satAt i j))
    let rowM (i : Nat) : Bool := mismatch m.isInt tol (m.cc.toList.getD i 0) ((List.range 8).map (fun j => lane i j))
      ((List.range 8).any (fun j => satAt i j))
    let r := (List.range 8).find? rowM
    let c := (List.range 8).find? col
    if r.isNone ∧ c.isNone then none else some (r.getD 0, c.getD 0)

/-- The four records of a drain (R213) (DEDUCED, log entry 17). -/
def MatrixSt.records (m : MatrixSt) (seq : BitVec 28) (nest : BitVec 4) (inv : Option Inv) : List Item :=
  (List.range 4).map (fun n =>
    let sat := decide (m.sat.toNat / 2 ^ (16 * n) % 2 ^ 16 ≠ 0)
    { tag := { kind := kData, flags := m.flags ||| flagIf sat fSat, domain := 0, weight := 1, nest := nest, seq := seq },
      v0 := payloadOf 32 (((m.acc.toList.drop (16 * n)).take 16).map BitVec.toNat), v1 := none, inv := inv })

/-- The SEQ and NEST of a c trigger; a pulse has no tag, and brings free values (DESIGN CHOICE, log entry 5). -/
def triggerTag (s : State) (p : Option Item) : BitVec 28 × BitVec 4 × State := match p with
  | some u => (u.tag.seq, u.tag.nest, s)
  | none => let (n, s1) := s.freshNat; (bits (Config.freeValue n) 0 28, bits (Config.freeValue n) 28 4, s1)

/-- The invocation in which an `mdrn` or `mzero` acts: its own, that of the value at c, or, where a pulse triggers it, that of the cell's
other nodes or of the last step (DEDUCED, log entry 133). -/
def Cell.invNow (x : Cell) (k : BitVec 3) (u : Option Item) : Option Inv :=
  x.cur[k.toNat] <|> u.bind Item.inv <|> x.cur.toList.findSome? id <|> x.mx.added.head?

/-- `MDRN` (R213 to R215). A mismatch asks for a rerun where the accumulators were cleared in this invocation and no rerun of it has been
asked for; any other raises the uncorrectable fault (DESIGN CHOICE, log entry 133). -/
def execMdrn (a b : BitVec 6) (m : BitVec 2) (o : BitVec 8) (s : State) : Result :=
  let used := usedPos [posC] m
  .next (s.nodeAct used [a, b] (fun c k ops s =>
    let x := s.cell c
    let inv := x.invNow k ops.c
    match x.mx.suspect x.tol with
    | some (i, j) =>
      let s1 := s.softError c.die (s.ctxOfCell c) 0
      let rerun := inv.isSome && x.mx.cleared == inv && x.mx.asked != inv
      let f := { faultAt (if rerun then 0x11 else 0x12) k ops.c with
        pe := BitVec.ofNat 3 j ++ BitVec.ofNat 3 i, inv := inv }
      (s1.modCell c (fun y => { y with mx := { y.mx with asked := if rerun then inv else y.mx.asked } })).raiseFault c f
    | none =>
      let (seq, nest, s0) := triggerTag s ops.c
      let gap := if x.mx.loss = 0 then []
        else
          let (lo, hi) := x.mx.lossSpan.getD (0, 0)
          [gapItem x.mx.loss.toNat lo hi 0xB false 0 false (cellWord c 0) nest inv]
      let out := x.mx.records seq nest inv ++ gap
      let s1 := s0.consume c k used
      let s2 := if o.getLsbD 0 then s1 else s1.modCell c (fun y => { y with mx := y.mx.clear inv })
      s2.deliverAll c k (out.flatMap (fun u => [(a, u), (b, u)]))))

/-- `MZERO` (R213) (DEDUCED, log entry 133). -/
def execMzero (a b : BitVec 6) (m : BitVec 2) (_o : BitVec 8) (s : State) : Result :=
  let used := usedPos [posC] m
  .next (s.nodeAct used [a, b] (fun c k ops s =>
    let inv := (s.cell c).invNow k ops.c
    (s.consume c k used).modCell c (fun y => { y with mx := y.mx.clear inv })))

end Sys2Proof.Machine
end

