-- ==== Sys2Proof/Machine/Accum.lean ====
section
/-!
DEFINITION. The accum cells and their fretboard (R216 to R225, R424).
-/

namespace Sys2Proof.Machine

/-! ### Geometry (R217, R218) -/

/-- The geometry of a table. -/
structure Geo where
  logn  : Nat
  mix   : Bool
  isInt : Bool
  trap  : Bool
  shift : Nat
  base  : Word64
  deriving DecidableEq, Repr

/-- The register that the cell's update and lookup nodes name. -/
def Cell.geoReg (x : Cell) : Option Nat :=
  (List.range 8).findSome? (fun i => match x.word (BitVec.ofNat 3 i) with
    | some w => if bits w 28 4 == 5 && decide ((bits w 22 6).toNat ≤ 3) then some (bits w 0 4).toNat else none
    | none => none)

/-- The geometry in prm[j] and prm[j + 1], or none for a parameter fault; a cell without such a node has that of the table it holds. -/
def Cell.geo (x : Cell) : Option Geo := match x.geoReg with
  | none => some { logn := x.fb.logn, mix := false, isInt := x.fb.vt, trap := false, shift := 0, base := 0 }
  | some j =>
    let p := (x.prm j).getD 0
    let n := (bits p 0 4).toNat
    if j = 15 ∨ n < 6 ∨ 10 < n then none
    else some
      { logn := n, mix := p.getLsbD 4, isInt := p.getLsbD 5, trap := p.getLsbD 6, shift := (bits p 7 6).toNat,
        base := (x.prm (j + 1)).getD 0 }

/-- The home slot of a key (R218). -/
def Geo.home (g : Geo) (key : Word64) : Nat :=
  if g.mix then kh64 key.toNat g.base.toNat / 2 ^ (64 - g.logn)
  else (key - g.base).toNat / 2 ^ g.shift % 2 ^ g.logn

/-- The slots of a probe window, in order. -/
def Geo.window (g : Geo) (key : Word64) : List Nat := (List.range 8).map (fun i => (g.home key + i) % 2 ^ g.logn)

/-- The entry in a slot. -/
def Fretboard.at (f : Fretboard) (i : Nat) : Option FbEntry := aget f.entries i

/-- What a probe finds: a hit, a free slot, or neither. -/
inductive Probe where
  | hit (i : Nat) (e : FbEntry)
  | free (i : Nat)
  | full
  deriving DecidableEq, Repr

def Fretboard.probe (f : Fretboard) (g : Geo) (key : Word64) : Probe :=
  let w := g.window key
  match w.findSome? (fun i => match f.at i with
      | some e => if e.key = key then some (i, e) else none
      | none => none) with
  | some (i, e) => .hit i e
  | none => match w.find? (fun i => (f.at i).isNone) with
    | some i => .free i
    | none => .full

/-! ### Updates (R219 to R221, R225) -/

/-- A slot written: the first write of a slot in an invocation logs what it held, in 512 places (R225) (DEDUCED, log entry 32). -/
def Fretboard.write (f : Fretboard) (i : Nat) (e : FbEntry) : Fretboard :=
  let logged := f.undo.any (fun p => p.1 == i)
  { f with
    entries := aset f.entries i e,
    undo := if logged || decide (512 ≤ f.undo.length) then f.undo else f.undo ++ [(i, f.at i)],
    undoLoss := if f.undoLoss.isSome then f.undoLoss else some (f.loss, f.lossSpan),
    undoFull := f.undoFull || (!logged && decide (512 ≤ f.undo.length)) }

/-- Losses counted, with the least and greatest SEQ that they carry. -/
def Fretboard.lose (f : Fretboard) (n : Nat) (a b : BitVec 28) : Fretboard :=
  { f with
    loss := BitVec.ofNat 32 (satNat 32 (f.loss.toNat + n)),
    lossSpan := some (match f.lossSpan with
      | none => (a, b)
      | some (x, y) => (minSeq x a, maxSeq y b)),
    undoLoss := if f.undoLoss.isSome then f.undoLoss else some (f.loss, f.lossSpan) }

/-- The update functions. -/
inductive UpdFn where
  | add | max | min
  deriving DecidableEq, Repr

/-- An `f32` code with a NaN in its canonical form. -/
def canonF32 (x : Nat) : Nat := if (FloatFmt.f32.read x).isNan then FloatFmt.f32.nanCode else x

/-- v of an update (R219), and whether it saturated. -/
def updValue (isInt wmul : Bool) (u : Item) : Nat × Bool :=
  let x := u.value.toNat
  let w := u.tag.weight.toNat
  if !wmul then (if isInt then x else canonF32 x, false)
  else if isInt then
    let (r, s) := clampInt 32 (toSigned 32 x * w)
    (ofSigned 32 r, s)
  else
    let r := FloatFmt.f32.conv .rne false ((FloatFmt.f32.read x).mul (.fin false w 0))
    (r.code, r.sat)

/-- VALUE after a hit. -/
def updHit (fn : UpdFn) (isInt : Bool) (old v : Nat) : Nat × Bool :=
  if isInt then
    let a := toSigned 32 old
    let b := toSigned 32 v
    match fn with
    | .add => let (r, s) := clampInt 32 (a + b); (ofSigned 32 r, s)
    | .max => (if a < b then v else old, false)
    | .min => (if b < a then v else old, false)
  else
    let a := FloatFmt.f32.read old
    let b := FloatFmt.f32.read v
    match fn with
    | .add => let r := FloatFmt.f32.conv .rne false (a.add .rne b); (r.code, r.sat)
    | .max => (if a.isNan || b.isNan then FloatFmt.f32.nanCode else if a.below b then v else old, false)
    | .min => (if a.isNan || b.isNan then FloatFmt.f32.nanCode else if b.below a then v else old, false)

/-- The entry that an update leaves: the one it hit, or a new one. -/
def updEntry (fn : UpdFn) (isInt wmul : Bool) (old : Option FbEntry) (u : Item) : FbEntry :=
  let (v, s0) := updValue isInt wmul u
  let base : FbEntry := old.getD
    { key := u.key, value := 0, wsum := 0, sat := false, poison := false, narrowed := false, merged := false }
  let (x, s1) := if old.isSome then updHit fn isInt base.value.toNat v else (v, false)
  let w := base.wsum.toNat + u.tag.weight.toNat
  { base with
    value := BitVec.ofNat 32 x, wsum := BitVec.ofNat 24 (min w 0xFFFFFF),
    sat := base.sat || s0 || s1 || decide (0xFFFFFF < w), poison := base.poison || hasFlag u.tag.flags fPoison,
    narrowed := base.narrowed || hasFlag u.tag.flags fNarrowed, merged := base.merged || hasFlag u.tag.flags fMerged }

def State.modFb (s : State) (c : CellId) (f : Fretboard → Fretboard) : State := s.modCell c (fun x => { x with fb := f x.fb })

/-- The log cleared at an EOT (R225). -/
def Fretboard.clearLog (f : Fretboard) : Fretboard := { f with undo := [], undoLoss := none, undoFull := false }

/-- Whether an `adrain` of the cell has consumed its trigger and has still to emit a record or its EOD (R424). -/
def Cell.draining (x : Cell) : Bool :=
  (List.finRange 8).any (fun k => !x.due[k].isEmpty && ((x.word (BitVec.ofFin k)).map (fun w => bits w 22 10 == 0x144)).getD false)

/-- An update node (R219 to R221). It takes in no gap marker while a drain of its cell runs (R424). -/
def updateAct (fn : UpdFn) (a b : BitVec 6) (o : BitVec 8) (s : State) : State :=
  s.atNode (fun c k x =>
    match x.valueAt k posA with
    | none => s
    | some u =>
      if badToken u then s.tokenFault c k posA
      else if !(([a, b] : List (BitVec 6)).all (x.targetFree k [posA])) then s
      else if u.tag.kind = kGap then
        if x.draining then s
        else (s.consume c k [posA]).modFb c (fun f => f.lose (gapLost u.v0) (gapFirst u.v0) (gapLast u.v0))
      else if !u.isData then
        let s1 := s.forwardToken c k [posA] [a, b] u.tag.kind
        if u.tag.kind = kEot then s1.modFb c Fretboard.clearLog else s1
      else
        match x.geo with
        | none => s.nodeFault c k 0x05 (some u)
        | some g =>
          let f0 : Fretboard := { x.fb with present := true, logn := g.logn, vt := g.isInt }
          let put (i : Nat) (old : Option FbEntry) : State :=
            (s.consume c k [posA]).modFb c (fun _ => f0.write i (updEntry fn g.isInt (o.getLsbD 4) old u))
          match f0.probe g u.key with
          | .hit i e => put i (some e)
          | .free i => put i none
          | .full =>
            if targetOf b ≠ .none then s.fireWith c k [posA] [(b, u)]
            else if g.trap then s.nodeFault c k 0x13 (some u)
            else
              let s1 := (s.consume c k [posA]).modFb c (fun _ => f0.lose 1 u.tag.seq u.tag.seq)
              s1.deliverAll c k [(a, unitGap 0xC (cellWord c 0) u)])

/-- `AINS` (R219). -/
def execAins (a b : BitVec 6) (_m : BitVec 2) (o : BitVec 8) (s : State) : Result := .next (updateAct .add a b o s)

/-- `AMAX` (R219). -/
def execAmax (a b : BitVec 6) (_m : BitVec 2) (o : BitVec 8) (s : State) : Result := .next (updateAct .max a b o s)

/-- `AMIN` (R219). -/
def execAmin (a b : BitVec 6) (_m : BitVec 2) (o : BitVec 8) (s : State) : Result := .next (updateAct .min a b o s)

/-- `ALOOK` (R222). -/
def execAlook (a b : BitVec 6) (m : BitVec 2) (_o : BitVec 8) (s : State) : Result :=
  let used := usedPos [posA] m
  .next (s.nodeAct used [a, b] (fun c k ops s =>
    match ops.a with
    | none => s
    | some u =>
      let x := s.cell c
      match x.geo with
      | none => s.nodeFault c k 0x05 (some u)
      | some g => match x.fb.probe g u.key with
        | .hit _ e => s.fireWith c k used
          [(a, { u with v0 := kvPayload u.key.toNat e.value.toNat e.wsum.toNat })]
        | .free _ | .full => s.fireWith c k used [(b, u)]))

/-! ### Drains (R223, R224) -/

/-- The VALID entries in ascending slot order. -/
def Fretboard.ordered (f : Fretboard) : List (Nat × FbEntry) :=
  (List.range (2 ^ f.logn)).filterMap (fun i => (f.at i).map (fun e => (i, e)))

/-- FLAGS of a drained entry. -/
def FbEntry.flags (e : FbEntry) : BitVec 8 :=
  flagIf e.sat fSat ||| flagIf e.poison fPoison ||| flagIf e.narrowed fNarrowed ||| flagIf e.merged fMerged

/-- Every entry and the loss count cleared (DEDUCED, log entry 32). -/
def Fretboard.clear (f : Fretboard) : Fretboard := { f with entries := [], loss := 0, lossSpan := none }

/-- What a drain emits before it forwards its trigger (R223). -/
def drainOut (f : Fretboard) (c : CellId) (nest : BitVec 4) (inv : Option Inv) : List Item :=
  let recs := f.ordered.map (fun p =>
    ({ tag := { kind := kData, flags := p.2.flags, domain := 0, weight := 1, nest := nest, seq := BitVec.ofNat 28 p.1 },
       v0 := kvPayload p.2.key.toNat p.2.value.toNat p.2.wsum.toNat, v1 := none, inv := inv } : Item))
  let span := f.lossSpan.getD (0, 0)
  let gap := if f.loss = 0 then []
    else [gapItem f.loss.toNat span.1 span.2 0xD false 0 true (cellWord c 0) nest inv]
  recs ++ gap ++ [{ tag := { kind := kEod, flags := 0, domain := 0, weight := 0, nest := 0, seq := 0 }, v0 := 0, v1 := none,
                    inv := inv }]

/-- Whether MOD[3:0] of `adrain` selects a kind. -/
def drainSelects (o : BitVec 8) (kind : BitVec 4) : Bool :=
  (kind == kData && o.getLsbD 0) || (kind == kEod && o.getLsbD 1) || (kind == kEot && o.getLsbD 2) || (kind == kEoi && o.getLsbD 3)

/-- The value that heads c: a unit, or a pulse, which stands for DATA. -/
inductive CHead where
  | none
  | unit (u : Item)
  | pulse
  deriving DecidableEq, Repr

def Cell.cHead (x : Cell) (k : BitVec 3) : CHead := match x.valueAt k posC with
  | some u => .unit u
  | .none => if (x.triggers k).isEmpty then .none else .pulse

/-- A node that a c trigger drives: `act` makes of a trigger what is emitted before it is forwarded, and the state. `fires` says which
kinds are triggers. -/
def triggerAct (a b : BitVec 6) (fires : BitVec 4 → Bool) (act : CellId → Cell → Option Item → State → List (BitVec 6 × Item) × State)
    (s : State) : State :=
  let used := [posC]
  let ts := [a, b]
  s.atNode (fun c k x =>
    if !ts.all (x.targetFree k used) then s
    else match x.cHead k with
    | .none => s
    | .pulse =>
      if !fires kData then s.consume c k used
      else if x.geo.isNone then s.nodeFault c k 0x05 none
      else
        let (out, s1) := act c x none (s.consume c k used)
        s1.deliverAll c k out
    | .unit u =>
      if badToken u then s.tokenFault c k posC
      else if !fires u.tag.kind then
        (if u.isData then s.consume c k used
          else if u.tag.kind = kGap then s.forwardGap c k ts posC
          else s.forwardToken c k used ts u.tag.kind)
      else if x.geo.isNone then s.nodeFault c k 0x05 (some u)
      else
        let s0 := s.consume c k used
        let (out, s1) := act c x (some u) s0
        if u.isData then s1.deliverAll c k out
        else (s1.deliverAll c k (out ++ ts.map (fun t => (t, u)))).afterToken c k u.tag.kind u.invs)

/-- `ADRAIN` (R223). -/
def execAdrain (a b : BitVec 6) (_m : BitVec 2) (o : BitVec 8) (s : State) : Result :=
  .next (triggerAct a b (drainSelects o) (fun c x u s =>
    let (nest, s1) : BitVec 4 × State := match u with
      | some v => (v.tag.nest, s)
      | none => let (n, s1) := s.freshNat; (bits (Config.freeValue n) 28 4, s1)
    let out := drainOut x.fb c nest (u.bind Item.inv)
    (out.flatMap (fun v => [(a, v), (b, v)]), if o.getLsbD 4 then s1 else s1.modFb c Fretboard.clear)) s)

/-- A spilled entry as an update record (R224); the spec gives its SEQ, NEST and DOMAIN no value (DESIGN CHOICE, log entry 5)
(DESIGN CHOICE, log entry 33). -/
def spillRecord (n : Nat) (e : FbEntry) (inv : Option Inv) : Item :=
  let free := Config.freeValue n
  { tag := { kind := kData, flags := fMerged ||| flagIf (decide (0xFFFF < e.wsum.toNat)) fSat, domain := bits free 32 4,
             weight := BitVec.ofNat 16 (min e.wsum.toNat 0xFFFF), nest := bits free 28 4, seq := bits free 0 28 },
    v0 := kvPayload e.key.toNat e.value.toNat 0, v1 := none, inv := inv }

/-- `ASPILL` (R224): the loss count stays (DESIGN CHOICE, log entry 33). -/
def execAspill (a b : BitVec 6) (_m : BitVec 2) (_o : BitVec 8) (s : State) : Result :=
  .next (triggerAct a b (fun _ => true) (fun c x u s =>
    let es := x.fb.ordered.map Prod.snd
    let out := es.mapIdx (fun i e => (a, spillRecord (s.fresh + i) e (u.bind Item.inv)))
    (out, { s with fresh := s.fresh + es.length }.modFb c (fun f => { f with entries := [] }))) s)

/-- `ACLR` (R224). -/
def execAclr (a b : BitVec 6) (_m : BitVec 2) (_o : BitVec 8) (s : State) : Result :=
  .next (triggerAct a b (fun _ => true) (fun c _ _ s => ([], s.modFb c Fretboard.clear)) s)

end Sys2Proof.Machine
end

