-- ==== Sys2Proof/Machine/Addrgen.lean ====
section
/-!
DEFINITION. The addrgen cells (R194 to R199) and the credit of a source (R38, R39).
-/

namespace Sys2Proof.Machine

/-! ### The nest (R195) -/

/-- The parameters of an address nest. -/
structure Nest where
  base    : Word64
  levels  : Nat
  tile    : Nat
  slots   : Bool
  nest    : BitVec 4
  counts  : List Nat
  strides : List Int
  deriving DecidableEq, Repr

/-- The nest in prm[j] onward, or none for a parameter fault. -/
def nestOf (prm : Vector Word64 16) (j : Nat) : Option Nest :=
  let reg (i : Nat) : Word64 := (prm[i]?).getD 0
  let h := reg (j + 1)
  let l := (bits h 0 2).toNat + 1
  let t := (bits h 2 2).toNat + 1
  if 15 < j + 1 + l ∨ l < t then none
  else some
    { base := reg j, levels := l, tile := t, slots := h.getLsbD 4, nest := (bits h 5 3).setWidth 4,
      counts := (List.range l).map (fun i => (bits (reg (j + 2 + i)) 0 16).toNat + 1),
      strides := (List.range l).map (fun i => (bits (reg (j + 2 + i)) 16 48).toInt) }

/-- Records of a tile. -/
def Nest.records (n : Nest) : Nat := (n.counts.take n.tile).foldl (· * ·) 1

/-- The tile size of R38. -/
def Nest.tileSize (n : Nest) : Nat := n.records * (if n.slots then 2 else 1)

/-- The counters of a number in the mixed radix of some counts, innermost first. -/
def counters : List Nat → Nat → List Nat
  | [], _ => []
  | c :: cs, i => i % c :: counters cs (i / c)

/-- The outer counters advanced by one step; they wrap to zero after their last value. -/
def advance : List Nat → List Nat → List Nat
  | [], _ => []
  | c :: cs, is =>
    let i := is.headD 0
    if i + 1 < c then (i + 1) :: (List.range cs.length).map (fun m => is.tail.getD m 0) else 0 :: advance cs is.tail

/-- Every counter at record `pos` of a tile with these outer counters. -/
def Nest.at (n : Nest) (outer : List Nat) (pos : Nat) : List Nat :=
  counters (n.counts.take n.tile) pos ++ (List.range (n.levels - n.tile)).map (fun i => outer.getD i 0)

/-- The address at a list of counters, modulo 2^64 (R196). -/
def Nest.addr (n : Nest) (is : List Nat) : Word64 :=
  n.base + BitVec.ofInt 64 (((n.strides.zip is).map (fun p => p.1 * (p.2 : Int))).foldl (· + ·) 0)

/-- The levels whose EOD follows record `pos`: those that have just run out where the tile is not over. -/
def Nest.ends (n : Nest) (pos : Nat) : List Nat :=
  if pos + 1 = n.records then []
  else (List.range (n.tile - 1)).filter (fun k => (pos + 1) % ((n.counts.take (k + 1)).foldl (· * ·) 1) = 0)

/-- A token with nothing but its kind and payload (DEDUCED, log entry 25). -/
def bareToken (kind : BitVec 4) (p : Payload) (inv : Option Inv) : Item :=
  { tag := { kind := kind, flags := 0, domain := 0, weight := 0, nest := 0, seq := 0 }, v0 := p, v1 := none, inv := inv }

/-- Record `pos` of a tile (R194, R196). -/
def Nest.record (n : Nest) (seq : BitVec 28) (outer : List Nat) (pos : Nat) (inv : Inv) : Item :=
  let is := n.at outer pos
  { tag := { kind := kData, flags := 0, domain := 0, weight := 1, nest := n.nest, seq := seq + BitVec.ofNat 28 pos },
    v0 := BitVec.ofNat 512 ((n.addr is).toNat + packLanes 16 is * 2 ^ 64), v1 := none, inv := some inv }

/-! ### Pins (R198) -/

/-- The bounding interval of a nest, from the lowest address to the last byte of the highest. -/
def Nest.interval (n : Nest) : Int × Int :=
  let reach := (n.strides.zip n.counts).map (fun p => p.1 * ((p.2 : Int) - 1))
  let b : Int := n.base.toNat
  (b + (reach.map (fun x => min x 0)).foldl (· + ·) 0,
    b + (reach.map (fun x => max x 0)).foldl (· + ·) 0 + (if n.slots then 127 else 63))

/-- The pages from an address to the last of an interval pinned, lowest first, until 16 are pinned; a page that is not mapped is
passed over. Each step passes a page, and the address space holds 2^36. -/
def State.pinPages (s : State) (ctx : BitVec 9) (hi : Nat) : Nat → Nat → List TlbEntry → List TlbEntry
  | 0, _, pins => pins
  | n + 1, a, pins =>
    if hi < a ∨ 16 ≤ pins.length then pins
    else
      match pins.find? (fun e => e.covers ctx a) with
      | some e => s.pinPages ctx hi n (e.base + pageBytes e.size) pins
      | none =>
        match s.walk ctx (BitVec.ofNat 64 a) with
        | .leaf e => s.pinPages ctx hi n (e.base + pageBytes e.size) (pins ++ [e])
        | .bad level _ =>
          let size := 2 ^ (39 - 9 * level)
          s.pinPages ctx hi n ((a / size + 1) * size) pins

/-- Whether a word is `agen`'s. -/
def isAgen (w : Word32) : Bool := bits w 28 4 == 7 && bits w 22 6 == 0

/-- The nest of a slot that holds an `agen` node. -/
def Cell.nest (x : Cell) (k : BitVec 3) : Option Nest := match x.word k with
  | some w => if isAgen w then nestOf x.active.prm (bits w 0 4).toNat else none
  | none => none

/-- Every pin of a cell dropped and latched anew from the current tables. -/
def State.latchPins (s : State) (c : CellId) : State :=
  let x := s.cell c
  let ctx := s.ctxOfCell c
  let pins := (List.range 8).foldl (fun ps i => match x.nest (BitVec.ofNat 3 i) with
    | none => ps
    | some n =>
      let (lo, hi) := n.interval
      if hi < 0 then ps else s.pinPages ctx (min hi.toNat (2 ^ 48 - 1)) (2 ^ 36) lo.toNat ps) []
  s.setCell c { x with pins := pins }

/-! ### `agen` (R196, R197) -/

def Cell.setAg (x : Cell) (k : BitVec 3) (g : AgenSt) : Cell := { x with ag := x.ag.set k.toNat g }

/-- The parameters of a tile: those it began with on a rerun (R197), else the registers (R199). -/
def AgenSt.parOf (g : AgenSt) (i : Inv) (prm : Vector Word64 16) : Vector Word64 16 :=
  ((g.begun.find? (fun t => t.inv = i)).map AgTile.par).getD prm

/-- What a tile begins with: its own SEQ and outer counters on a rerun, else those of the node's next tile, which then move on. -/
def AgenSt.begin (g : AgenSt) (n : Nest) (i : Inv) : AgTile × AgenSt :=
  match g.begun.find? (fun t => t.inv = i) with
  | some t => (t, g)
  | none =>
    let t : AgTile := ⟨i, g.seq, g.outer, g.par.getD (Vector.replicate 16 0)⟩
    (t, { g with
      seq := g.seq + BitVec.ofNat 28 n.records, outer := advance (n.counts.drop n.tile) g.outer, begun := g.begun ++ [t] })

/-- Whether LEFT of the section of an invocation is 0. -/
def State.sectionDone (s : State) (i : Inv) : Bool := match s.region i.region with
  | some r => ((r.sections[i.sec]?).map (fun x => decide (x.left = 0))).getD true
  | none => true

/-- One record of the tile at the head, with the tokens that follow it (DEDUCED, log entry 25). -/
def agenEmit (s : State) (c : CellId) (k : BitVec 3) (ts : List (BitVec 6)) (n : Nest) (i : Inv) : State :=
  let (t, g) := (s.cell c).ag[k.toNat].begin n i
  let pos := g.pos
  let atEnd := decide (n.records ≤ pos + 1)
  let out := n.record t.seq t.outer pos i :: (n.ends pos).map (fun l => bareToken kEod (BitVec.ofNat 512 l) (some i))
    ++ (if atEnd then [bareToken kEot 0 (some i), bareToken kEoi 0 (some i)] else [])
  let g1 := if atEnd then { g with pos := 0, due := g.due.tail, par := none } else { g with pos := pos + 1 }
  let s1 := (s.modCell c (fun x => { x.setAg k g1 with last := k })).deliverAll c k
    (out.flatMap (fun u => ts.map (fun t => (t, u))))
  if !atEnd then s1
  else
    let s2 := if s.sectionDone i && g1.due.isEmpty then s1.sendPulse c k 1 else s1
    s2.passSink c k (some i)

/-- A RETUNE that passes an addrgen node re-latches its cell's pins (R23, R198). -/
def retunePins (c : CellId) (_k : BitVec 3) (kind : BitVec 4) (s : State) : State :=
  if kind = kRetune then s.latchPins c else s

/-- `AGEN` (R195 to R198): a RETUNE that is due leaves before the next tile; with `.xc` each tile waits for a trigger
(DEDUCED, log entry 39). -/
def execAgen (a b : BitVec 6) (m : BitVec 2) (o : BitVec 8) (s : State) : Result :=
  .next (s.atNode (fun c k x =>
    let ts := [a, b]
    let used := usedPos [] m
    let g := x.ag[k.toNat]
    let h := x.heads k used
    let trig := h == .data
    let free (us : List Nat) : Bool := ts.all (x.targetFree k us)
    if s.mutingAt c then s
    else match h with
    | .badKind p => s.tokenFault c k p
    | .misaligned => s.nodeFault c k 0x01 none
    | .gap p => if free [p] then s.forwardGap c k ts p else s
    | .token _ | .wait | .data =>
    if g.pos = 0 ∧ g.due = [] ∧ g.retune then
      if !free [] then s
      else ((s.modCell c (fun x => { x.setAg k { g with retune := false } with last := k })).latchPins c).deliverAll c k
        (ts.map (fun t => (t, bareToken kRetune 0 none)))
    else
      match g.par, g.due with
      | some p, i :: _ =>
        if !free [] then s
        else match nestOf p (bits o 0 4).toNat with
        | some n => agenEmit s c k ts n i
        | none => s.nodeFault c k 0x05 none
      | _, due =>
        match h with
        | .token kind =>
          if free (used.filter (x.aligns k)) then retunePins c k kind (s.forwardToken c k used ts kind) else s
        | _ =>
          match due with
          | [] => s
          | i :: _ =>
            let par := g.parOf i x.active.prm
            let again := g.begun.any (fun t => t.inv == i)
            if (!used.isEmpty && !trig) || !free used then s
            else
              match nestOf par (bits o 0 4).toNat with
              | none => s.nodeFault c k 0x05 none
              | some n =>
                let s1 := s.consume c k used
                let s2 := s1.modCell c (fun y => y.setAg k { g with par := some par, relatch := g.relatch && again })
                agenEmit (if g.relatch && !again then s2.latchPins c else s2) c k ts n i))

/-! ### `agbase` and `agre` (R199) -/

/-- Whether an `agen` node of a slot reads prm[j]. -/
def Cell.agReads (x : Cell) (k : BitVec 3) (j : Nat) : Bool := match x.word k with
  | some w =>
    let i := (bits w 0 4).toNat
    let l := (bits ((x.active.prm[i + 1]?).getD 0) 0 2).toNat + 1
    isAgen w && decide (i ≤ j ∧ j ≤ i + 1 + l)
  | none => false

/-- A parameter register written by `agbase`: the latch is made now, or at the next tile of a node that has one under way. -/
def State.writeBase (s : State) (c : CellId) (j : Nat) (v : Word64) : State :=
  let x := s.cell c
  let x1 : Cell := { x with active := { x.active with prm := x.active.prm.setIfInBounds j v } }
  let busy (i : Nat) : Bool := x.agReads (BitVec.ofNat 3 i) j && (match x.ag[i]? with
    | some g => g.par.isSome
    | none => false)
  if (List.range 8).any busy then
    s.setCell c { x1 with ag := x1.ag.mapIdx (fun i g => if busy i then { g with relatch := true } else g) }
  else (s.setCell c x1).latchPins c

/-- `AGBASE` (R199). -/
def execAgbase (a b : BitVec 6) (m : BitVec 2) (o : BitVec 8) (s : State) : Result :=
  let used := usedPos [posA] m
  .next (s.nodeActWith used [a, b] (fun c k ops s =>
    match ops.a with
    | none => s
    | some u => (s.consume c k used).writeBase c (bits o 0 4).toNat (bits u.v0 0 64)) retunePins)

/-- `AGRE` (R199). -/
def execAgre (a b : BitVec 6) (m : BitVec 2) (_o : BitVec 8) (s : State) : Result :=
  let used := usedPos [posC] m
  .next (s.nodeActWith used [a, b] (fun c k _ s => (s.consume c k used).latchPins c) retunePins)

/-! ### Credit (R38, R39) -/

/-- The consumer queues of a source: the FREE entries of its region that lead to it. -/
def State.consumers (s : State) (r : Region) (c : CellId) (k : BitVec 3) : List (CellId × BitVec 3) :=
  (s.cellsOf r).flatMap (fun y =>
    ((s.cell y).active.pulses.filter (fun p => p.kind = 2 ∧ p.pin = k ∧ s.farPulse y p = c)).map (fun p => (y, p.po)))

/-- The FREE pulses that have reached a source taken: each is a credit of the queue that sent it (DEDUCED, log entry 40). -/
def Cell.takeFrees (x : Cell) (k : BitVec 3) : Cell :=
  let g := x.ag[k.toNat]
  let frees := (x.pin[k.toNat]).filter (fun p => p.kind = 2)
  let grow (cr : Credit) : Credit :=
    let n := (frees.filter (fun p => p.src = cr.src ∧ p.po = cr.q)).length
    { cr with count := cr.count + n, owed := cr.owed - n }
  { x with
    ag := x.ag.set k.toNat { g with credits := g.credits.map grow },
    pin := x.pin.set k.toNat ((x.pin[k.toNat]).filter (fun p => p.kind ≠ 2)) }

/-- Whether every credit count of a source is at least 1 (R38). -/
def AgenSt.hasCredit (g : AgenSt) : Bool := g.credits.all (fun cr => decide (1 ≤ cr.count))

/-- A tile started at a source: one credit of every count is spent. -/
def AgenSt.start (g : AgenSt) (i : Inv) : AgenSt :=
  { g with
    credits := g.credits.map (fun cr => { cr with count := cr.count - 1, owed := cr.owed + 1 }), due := g.due ++ [i] }

/-- The credit counts that `arm` sets at a source, or none where a capacity is 0 (R39): the capacity less the tiles that have no FREE
taken, which is below 0 where more are owed than the new capacity (R38). A nest with a parameter fault, which its first tile raises, limits
nothing (DEDUCED, log entry 40). -/
def State.armCredits (s : State) (r : Region) (c : CellId) (k : BitVec 3) : Option (List Credit) :=
  let x := s.cell c
  let size := ((x.nest k).map Nest.tileSize).getD 1
  let old := x.ag[k.toNat].credits
  let mk (p : CellId × BitVec 3) : Option Credit :=
    let cap := (s.cell p.1).queues[p.2.toNat].depth / size
    let owed := ((old.find? (fun cr => cr.src = p.1 ∧ cr.q = p.2)).map Credit.owed).getD 0
    if cap = 0 then none else some { src := p.1, q := p.2, count := (cap : Int) - owed, owed := owed }
  let ps := s.consumers r c k
  let cs := ps.filterMap mk
  if cs.length = ps.length then some cs else none

end Sys2Proof.Machine
end

