-- ==== Sys2Proof/Machine/Arith.lean ====
section
/-!
DEFINITION. The arith cells (R161 to R169): lane by lane on one record a firing.
-/

namespace Sys2Proof.Machine

/-- The format an arith lane is computed in: `raw` and `kv` are read as eight 64-bit lanes (R167), as integers. -/
def laneFmt (f : Fmt) : Fmt := match f with
  | .raw | .kv => .i64
  | _ => f

/-- One lane's result: its code, and whether it saturated. -/
structure LaneOut where
  code : Nat
  sat  : Bool
  deriving DecidableEq, Repr

/-- A rounded arithmetic result of a format (R168): floats under R84; integers clamped, or their low bits kept. -/
def putLane (f : Fmt) (mode : RoundMode) (ieee : Bool) (v : FVal) (exact : Int) : LaneOut :=
  match f.float with
  | some g => let c := g.conv mode ieee v; ⟨c.code, c.sat⟩
  | none =>
    let w := f.laneBits
    if ieee then ⟨ofSigned w exact, false⟩ else let (y, s) := clampInt w exact; ⟨ofSigned w y, s⟩

/-- a + b, a − b, a × b and a × s + b in one lane (R167, R168). -/
def laneAdd (f : Fmt) (mode : RoundMode) (ieee : Bool) (x y : Nat) : LaneOut :=
  putLane f mode ieee ((f.read x).add mode (f.read y)) (toSigned f.laneBits x + toSigned f.laneBits y)
def laneSub (f : Fmt) (mode : RoundMode) (ieee : Bool) (x y : Nat) : LaneOut :=
  putLane f mode ieee ((f.read x).add mode (f.read y).neg) (toSigned f.laneBits x - toSigned f.laneBits y)
def laneMul (f : Fmt) (mode : RoundMode) (ieee : Bool) (x y : Nat) : LaneOut :=
  putLane f mode ieee ((f.read x).mul (f.read y)) (toSigned f.laneBits x * toSigned f.laneBits y)
def laneFma (f : Fmt) (mode : RoundMode) (ieee : Bool) (sc x y : Nat) : LaneOut :=
  putLane f mode ieee (((f.read x).mul (f.read sc)).add mode (f.read y))
    (toSigned f.laneBits x * toSigned f.laneBits sc + toSigned f.laneBits y)

/-- The smaller or larger of two lanes: −0 below +0; a NaN operand gives the canonical NaN (R168). -/
def laneMin (f : Fmt) (x y : Nat) : LaneOut :=
  match f.float with
  | some g =>
    if (g.read x).isNan || (g.read y).isNan then ⟨g.nanCode, false⟩
    else ⟨if (g.read y).below (g.read x) then y else x, false⟩
  | none => ⟨if toSigned f.laneBits y < toSigned f.laneBits x then y else x, false⟩
def laneMax (f : Fmt) (x y : Nat) : LaneOut :=
  match f.float with
  | some g =>
    if (g.read x).isNan || (g.read y).isNan then ⟨g.nanCode, false⟩
    else ⟨if (g.read x).below (g.read y) then y else x, false⟩
  | none => ⟨if toSigned f.laneBits x < toSigned f.laneBits y then y else x, false⟩

/-- The absolute value and the negation of a lane; the most negative integer clamps (R168). -/
def laneAbs (f : Fmt) (x : Nat) : LaneOut :=
  match f.float with
  | some g => if (g.read x).isNan then ⟨g.nanCode, false⟩ else ⟨x % g.signBit, false⟩
  | none => let (y, s) := clampInt f.laneBits (toSigned f.laneBits x).natAbs; ⟨ofSigned f.laneBits y, s⟩
def laneNeg (f : Fmt) (x : Nat) : LaneOut :=
  match f.float with
  | some g =>
    if (g.read x).isNan then ⟨g.nanCode, false⟩
    else ⟨if x / g.signBit % 2 = 1 then x % g.signBit else x % g.signBit + g.signBit, false⟩
  | none => let (y, s) := clampInt f.laneBits (-toSigned f.laneBits x); ⟨ofSigned f.laneBits y, s⟩

/-- The conditions of `cmp` (R169). -/
inductive CmpCond where
  | eq | ne | lt | ge | ltu | geu
  deriving DecidableEq, Repr

/-- Whether two lanes satisfy a condition: a NaN satisfies `ne` only, and on float lanes `ltu` and `geu` compare as `lt` and `ge`
(R168, R169). -/
def laneCmp (cond : CmpCond) (f : Fmt) (x y : Nat) : Bool :=
  match f.float with
  | some g =>
    let u := g.read x
    let v := g.read y
    let nan := u.isNan || v.isNan
    match cond with
    | .eq => u.eq v
    | .ne => nan || !u.eq v
    | .lt | .ltu => u.lt v
    | .ge | .geu => !nan && !u.lt v
  | none =>
    let u := toSigned f.laneBits x
    let v := toSigned f.laneBits y
    match cond with
    | .eq => x == y
    | .ne => x != y
    | .lt => decide (u < v)
    | .ge => decide (v ≤ u)
    | .ltu => decide (x < y)
    | .geu => decide (y ≤ x)

/-- A lane shifted (R167): left, right with zeros, or right with the sign. -/
def laneShl (f : Fmt) (x y : Nat) : LaneOut := ⟨x * 2 ^ (y % f.laneBits) % 2 ^ f.laneBits, false⟩
def laneShr (f : Fmt) (x y : Nat) : LaneOut := ⟨x / 2 ^ (y % f.laneBits), false⟩
def laneSar (f : Fmt) (x y : Nat) : LaneOut :=
  ⟨ofSigned f.laneBits (toSigned f.laneBits x / 2 ^ (y % f.laneBits)), false⟩

/-- The invocation of a result: that of the first operand that has one. -/
def invOf (x y : Option Item) : Option Inv := match x.bind Item.inv with
  | some i => some i
  | none => y.bind Item.inv

/-- A record of lane results under the p mask: a lane that p does not select is that of operand a (R162). -/
def laneRecord (f : Fmt) (ops : Operands) (fn : Nat → Nat → Nat → LaneOut) : List LaneOut :=
  let w := f.laneBits
  let pa := ((ops.a.map Item.v0).getD 0).toNat
  let pb := ((ops.b.map Item.v0).getD 0).toNat
  (List.range f.recLanes).map (fun i =>
    if maskBit ops.p i then fn i (laneAt w pa i) (laneAt w pb i) else ⟨laneAt w pa i, false⟩)

/-- The tag of an arith result of one or two data operands (R163). -/
def arithTag (two : Bool) (ops : Operands) (extra : BitVec 8) : Tag :=
  let fl := extra ||| poisonOf ops.p
  match ops.a, ops.b with
  | some a, some b => if two then tag2 a.tag b.tag fl else tag1 a.tag fl
  | some a, none => tag1 a.tag fl
  | none, _ => { Tag.template with flags := fl }

/-- A lane-wise arith firing. -/
def arithLanes (two : Bool) (base : List Nat) (a b : BitVec 6) (m : BitVec 2) (fn : Cell → Fmt → Nat → Nat → Nat → LaneOut)
    (s : State) : State :=
  let used := usedPos base m
  s.nodeAct used [a, b] (fun c k ops s =>
    let f := laneFmt (s.elemFmt c k)
    let ls := laneRecord f ops (fn (s.cell c) f)
    let u : Item :=
      { tag := arithTag two ops (flagIf (ls.any LaneOut.sat) fSat), v0 := payloadOf f.laneBits (ls.map LaneOut.code),
        v1 := none, inv := invOf ops.a ops.b }
    s.fireWith c k used [(a, u), (b, u)])

/-- A firing of `cmp` (R169): a mask of the lanes that satisfy the condition and that p selects. MOD 6 and 7 are a parameter
fault. -/
def arithCmp (cond : CmpCond) (a b : BitVec 6) (m : BitVec 2) (s : State) : State :=
  let used := usedPos [posA, posB] m
  s.nodeAct used [a, b] (fun c k ops s =>
    let x := s.cell c
    if 6 ≤ (bits ((x.word k).getD 0) 0 3).toNat then s.nodeFault c k 0x05 ops.a
    else
      let f := laneFmt (s.elemFmt c k)
      let w := f.laneBits
      let pa := ((ops.a.map Item.v0).getD 0).toNat
      let pb := ((ops.b.map Item.v0).getD 0).toNat
      let mask := packLanes 1 ((List.range f.recLanes).map (fun i =>
        if maskBit ops.p i && laneCmp cond f (laneAt w pa i) (laneAt w pb i) then 1 else 0))
      let u : Item :=
        { tag := arithTag true ops 0, v0 := BitVec.ofNat 512 mask, v1 := none, inv := invOf ops.a ops.b }
      s.fireWith c k used [(a, u), (b, u)])

/-- The bounds of `sat` from prm[j] (R169): none where they are a parameter fault. -/
def satBounds (f : Fmt) (x : Cell) (j : Nat) : Option (Nat × Nat) :=
  let w := f.laneBits
  let v := ((x.prm j).getD 0).toNat
  let pair : Option (Nat × Nat) :=
    if w = 64 then (x.prm (j + 1)).map (fun hi => (v, hi.toNat)) else some (v % 2 ^ w, v / 2 ^ w % 2 ^ w)
  match pair with
  | none => none
  | some (lo, hi) =>
    match f.float with
    | some g =>
      if (g.read lo).isNan || (g.read hi).isNan || (g.read hi).lt (g.read lo) then none else some (lo, hi)
    | none => if toSigned w hi < toSigned w lo then none else some (lo, hi)

/-- A lane clamped to bounds; a NaN lane gives the canonical NaN and is not counted as clamped (R169). -/
def laneSat (f : Fmt) (lo hi x : Nat) : LaneOut :=
  match f.float with
  | some g =>
    let v := g.read x
    if v.isNan then ⟨g.nanCode, false⟩
    else if v.lt (g.read lo) then ⟨lo, true⟩
    else if (g.read hi).lt v then ⟨hi, true⟩
    else ⟨x, false⟩
  | none =>
    let w := f.laneBits
    if toSigned w x < toSigned w lo then ⟨lo, true⟩
    else if toSigned w hi < toSigned w x then ⟨hi, true⟩
    else ⟨x, false⟩

/-- A firing of `sat` (R167, R169). -/
def arithClamp (a b : BitVec 6) (m : BitVec 2) (o : BitVec 8) (s : State) : State :=
  let used := usedPos [posA] m
  s.nodeAct used [a, b] (fun c k ops s =>
    let f := laneFmt (s.elemFmt c k)
    match satBounds f (s.cell c) (bits o 0 4).toNat with
    | none => s.nodeFault c k 0x05 ops.a
    | some (lo, hi) =>
      let ls := laneRecord f ops (fun _ x _ => laneSat f lo hi x)
      let u : Item :=
        { tag := arithTag false ops (flagIf (ls.any LaneOut.sat) fSat), v0 := payloadOf f.laneBits (ls.map LaneOut.code),
          v1 := none, inv := invOf ops.a none }
      s.fireWith c k used [(a, u), (b, u)])

/-- `ARITH_ADD` (R167). -/
def execArithAdd (a b : BitVec 6) (m : BitVec 2) (r : BitVec 3) (v : BitVec 1) (_p : BitVec 4) (s : State) : Result :=
  .next (arithLanes true [posA, posB] a b m (fun _ f _ x y => laneAdd f (RoundMode.ofCode r.toNat) (v == 1) x y) s)

/-- `ARITH_SUB` (R167). -/
def execArithSub (a b : BitVec 6) (m : BitVec 2) (r : BitVec 3) (v : BitVec 1) (_p : BitVec 4) (s : State) : Result :=
  .next (arithLanes true [posA, posB] a b m (fun _ f _ x y => laneSub f (RoundMode.ofCode r.toNat) (v == 1) x y) s)

/-- `ARITH_MUL` (R167). -/
def execArithMul (a b : BitVec 6) (m : BitVec 2) (r : BitVec 3) (v : BitVec 1) (_p : BitVec 4) (s : State) : Result :=
  .next (arithLanes true [posA, posB] a b m (fun _ f _ x y => laneMul f (RoundMode.ofCode r.toNat) (v == 1) x y) s)

/-- `ARITH_FMA` (R167): the scalar lies in the low lane-width bits of prm[PRM]. -/
def execArithFma (a b : BitVec 6) (m : BitVec 2) (r : BitVec 3) (v : BitVec 1) (p : BitVec 4) (s : State) : Result :=
  .next (arithLanes true [posA, posB] a b m (fun cl f _ x y =>
    laneFma f (RoundMode.ofCode r.toNat) (v == 1) (((cl.prm p.toNat).getD 0).toNat % 2 ^ f.laneBits) x y) s)

/-- `ARITH_MIN` (R167). -/
def execArithMin (a b : BitVec 6) (m : BitVec 2) (_o : BitVec 8) (s : State) : Result :=
  .next (arithLanes true [posA, posB] a b m (fun _ f _ x y => laneMin f x y) s)

/-- `ARITH_MAX` (R167). -/
def execArithMax (a b : BitVec 6) (m : BitVec 2) (_o : BitVec 8) (s : State) : Result :=
  .next (arithLanes true [posA, posB] a b m (fun _ f _ x y => laneMax f x y) s)

/-- `ARITH_ABS` (R167). -/
def execArithAbs (a b : BitVec 6) (m : BitVec 2) (_o : BitVec 8) (s : State) : Result :=
  .next (arithLanes false [posA] a b m (fun _ f _ x _ => laneAbs f x) s)

/-- `ARITH_NEG` (R167). -/
def execArithNeg (a b : BitVec 6) (m : BitVec 2) (_o : BitVec 8) (s : State) : Result :=
  .next (arithLanes false [posA] a b m (fun _ f _ x _ => laneNeg f x) s)

/-- `ARITH_AND` (R167). -/
def execArithAnd (a b : BitVec 6) (m : BitVec 2) (_o : BitVec 8) (s : State) : Result :=
  .next (arithLanes true [posA, posB] a b m (fun _ _ _ x y => ⟨x &&& y, false⟩) s)

/-- `ARITH_OR` (R167). -/
def execArithOr (a b : BitVec 6) (m : BitVec 2) (_o : BitVec 8) (s : State) : Result :=
  .next (arithLanes true [posA, posB] a b m (fun _ _ _ x y => ⟨x ||| y, false⟩) s)

/-- `ARITH_XOR` (R167). -/
def execArithXor (a b : BitVec 6) (m : BitVec 2) (_o : BitVec 8) (s : State) : Result :=
  .next (arithLanes true [posA, posB] a b m (fun _ _ _ x y => ⟨x ^^^ y, false⟩) s)

/-- `ARITH_SHL` (R167). -/
def execArithShl (a b : BitVec 6) (m : BitVec 2) (_o : BitVec 8) (s : State) : Result :=
  .next (arithLanes true [posA, posB] a b m (fun _ f _ x y => laneShl f x y) s)

/-- `ARITH_SHR_LOGICAL` (R167). -/
def execArithShrLogical (a b : BitVec 6) (m : BitVec 2) (_o : BitVec 7) (s : State) : Result :=
  .next (arithLanes true [posA, posB] a b m (fun _ f _ x y => laneShr f x y) s)

/-- `ARITH_SHR_ARITHMETIC` (R167). -/
def execArithShrArithmetic (a b : BitVec 6) (m : BitVec 2) (_o : BitVec 7) (s : State) : Result :=
  .next (arithLanes true [posA, posB] a b m (fun _ f _ x y => laneSar f x y) s)

/-- `ARITH_CMP_EQ` (R169). -/
def execArithCmpEq (a b : BitVec 6) (m : BitVec 2) (_o : BitVec 5) (s : State) : Result :=
  .next (arithCmp .eq a b m s)

/-- `ARITH_CMP_NE` (R169). -/
def execArithCmpNe (a b : BitVec 6) (m : BitVec 2) (_o : BitVec 5) (s : State) : Result :=
  .next (arithCmp .ne a b m s)

/-- `ARITH_CMP_LT` (R169). -/
def execArithCmpLt (a b : BitVec 6) (m : BitVec 2) (_o : BitVec 5) (s : State) : Result :=
  .next (arithCmp .lt a b m s)

/-- `ARITH_CMP_GE` (R169). -/
def execArithCmpGe (a b : BitVec 6) (m : BitVec 2) (_o : BitVec 5) (s : State) : Result :=
  .next (arithCmp .ge a b m s)

/-- `ARITH_CMP_LTU` (R169). -/
def execArithCmpLtu (a b : BitVec 6) (m : BitVec 2) (_o : BitVec 5) (s : State) : Result :=
  .next (arithCmp .ltu a b m s)

/-- `ARITH_CMP_GEU` (R169). -/
def execArithCmpGeu (a b : BitVec 6) (m : BitVec 2) (_o : BitVec 5) (s : State) : Result :=
  .next (arithCmp .geu a b m s)

/-- `ARITH_SEL` (R167): a where the p mask is 1, else b. -/
def execArithSel (a b : BitVec 6) (m : BitVec 2) (_o : BitVec 8) (s : State) : Result :=
  let used := usedPos [posA, posB, posP] m
  .next (s.nodeAct used [a, b] (fun c k ops s =>
    let f := laneFmt (s.elemFmt c k)
    let w := f.laneBits
    let pa := ((ops.a.map Item.v0).getD 0).toNat
    let pb := ((ops.b.map Item.v0).getD 0).toNat
    let ls := (List.range f.recLanes).map (fun i => if maskBit ops.p i then laneAt w pa i else laneAt w pb i)
    let u : Item := { tag := arithTag true ops 0, v0 := payloadOf w ls, v1 := none, inv := invOf ops.a ops.b }
    s.fireWith c k used [(a, u), (b, u)]))

/-- `ARITH_SAT` (R167, R169). -/
def execArithSat (a b : BitVec 6) (m : BitVec 2) (o : BitVec 8) (s : State) : Result :=
  .next (arithClamp a b m o s)

end Sys2Proof.Machine
end

