-- ==== Sys2Proof/Machine/Engine.lean ====
section
/-!
DEFINITION. The engine queues and their descriptors (R427, R443): taking the next one, its STATUS and its ticket.
-/

namespace Sys2Proof.Machine

/-- The ticket of a descriptor completed (R430) (DEDUCED, log entry 91). -/
def State.ticketDone (s : State) : Option (BitVec 10 × Word64) → State
  | none => s
  | some (m, t) =>
    let r := s.rm m
    s.setRm m { r with tickets := r.tickets.map (fun k => if k.num = t then { k with done := true } else k) }

/-- A descriptor completed: its STATUS of `n` bytes at byte `off`, then its ticket. -/
def State.complete (s : State) (d : BitVec 3) (q : QDesc) (off n v : Nat) : State :=
  (s.putDesc d q.desc off n v).ticketDone q.ticket

/-- The ready-map bit of an engine (R442) (DEDUCED, log entry 84). -/
def engineReady (e : Nat) : Nat := match e with
  | 0 | 1 => 215
  | 2 => 216
  | 3 => 217
  | 4 => 218
  | _ => 219

/-- The queue of an engine of a die. -/
def Die.queue (x : Die) (e : Fin 6) : List QDesc := x.engq[e]

/-- The first physical address of a descriptor that no window holds. -/
def QDesc.hole (q : QDesc) : Option Nat := match q.desc with
  | .phys pa => if physOk pa.toNat 64 then none else some pa.toNat
  | .virt _ _ => none

/-- Double-word `i` of a queued descriptor: as a `launch` read it (R159), or as it stands. -/
def State.wordOf (s : State) (d : BitVec 3) (q : QDesc) (i : Nat) : Word64 := if q.read.isEmpty then s.descDword d q.desc i else q.read.getD i 0

/-- An engine or a row manager of a die about to access memory. -/
def State.settleDie (s : State) (d : BitVec 3) : State := s.settle (.die d)

/-- Whether the way from an engine to its descriptor is UP (R352) (DEDUCED, log entry 105). -/
def State.descUp (s : State) (d : BitVec 3) (a : DescAddr) : Bool := match a with
  | .phys pa => s.pathTo d pa.toNat == .up
  | .virt ctx va => s.rangeUp d ctx va.toNat 64

/-- The engine of a die takes the descriptor at the head of its queue, where it is one that `mine` accepts; one that names a function
not ready completes with STATUS 2 at byte `off` (R443) (DEDUCED, log entry 84). One behind a bridge that is not UP waits (R352). -/
def State.serve (s : State) (d : BitVec 3) (e : Fin 6) (off : Nat) (mine : (Nat → Word64) → Bool)
    (body : QDesc → (Nat → Word64) → State → State) : Result :=
  match (s.die d).queue e with
  | [] => .next s
  | q :: rest =>
    match q.hole with
    | some pa => .fault (.noSuchAddress pa)
    | none =>
      let s0 := s.settleDie d
      let dw (i : Nat) : Word64 := s0.wordOf d q i
      if !s.descUp d q.desc || !mine dw then .next s
      else
        let s1 := s0.modDie d (fun x => { x with engq := x.engq.set e rest })
        if !(s1.die d).ready.getLsbD (engineReady e) then .next (s1.complete d q off 1 2) else .next (body q dw s1)

/-- A descriptor handed to an engine queue. -/
def State.enqueueDesc (s : State) (d : BitVec 3) (e : Fin 6) (q : QDesc) : State :=
  s.modDie d (fun x => { x with engq := x.engq.set e (x.engq[e] ++ [q]) })

/-- The lowest free slot of the security controller (DEDUCED, log entry 112). -/
def State.freeSlot (s : State) : Option (BitVec 9) :=
  ((List.range 512).find? (fun i => s.slots.all (fun k => k.handle.toNat != i))).map (BitVec.ofNat 9)

/-- OP of a descriptor: bits [7:0] of dword 0. -/
def descOp (dw : Nat → Word64) : Nat := (bits (dw 0) 0 8).toNat

/-- Whether a context is live: neither FREED nor TERMINATING. -/
def State.ctxLive (s : State) (n : BitVec 9) : Bool :=
  let c := (s.ctx n).state
  c != .freed && c != .terminating

/-- The region that a management descriptor or a command names by a cell address of its north-west block (R437). -/
def State.regionAt (s : State) (w : Word32) : Option Region := match cellOfWord w with
  | none => none
  | some (c, k) => if k = 0 ∧ c.n = 0 then s.regions.find? (fun r => r.placed && r.die == c.die && r.x == c.x && r.y == c.y) else none

end Sys2Proof.Machine
end

