-- ==== Sys2Proof/Machine/Online.lean ====
section
/-!
DEFINITION. The online cells (R184 to R188).
-/

namespace Sys2Proof.Machine

/-! ### Elements (R184) -/

/-- An operand of an online node: the planes of its element so far, and whether the element has ended. -/
structure Plane where
  held  : List Item
  ended : Bool
  deriving DecidableEq, Repr

/-- The plane that an element has come to (R77): 0 before its first. -/
def Plane.top (p : Plane) : Nat := p.held.foldl (fun a u => max a (descPlane u.desc)) 0

/-- The plane of a digit position, where it has not been lost. -/
def Plane.at (p : Plane) (j : Nat) : Option Item := p.held.find? (fun u => descPlane u.desc == j)

/-- Whether a head ends the element before it, unread: plane 1, or a token (DEDUCED, log entry 26). -/
def endsElement (p : Plane) (u : Item) : Bool :=
  !p.held.isEmpty && ((u.isData && descPlane u.desc == 1) || endTok u)
where
  /-- a token that ends a segment, or one that a segment's end stands before -/
  endTok (u : Item) : Bool := alignedKind u.tag.kind

/-- An operand that sees a head: ended where the head ends its element. -/
def Plane.see (p : Plane) (u : Option Item) : Plane := match u with
  | some u => if endsElement p u then { p with ended := true } else p
  | none => p

/-- A plane consumed. -/
def Plane.push (p : Plane) (u : Item) : Plane :=
  { held := p.held ++ [u], ended := p.ended || decide (descPlane u.desc = descPlanes u.desc) }

/-- The length that an operand's first plane announces. -/
def Plane.len (p : Plane) : Nat := match p.held with
  | u :: _ => descPlanes u.desc
  | [] => 0

/-- The digits of a lane from position `j` on, `n` of them: each that of its plane, a missing plane's zero, and from a cut on all zero
(R76, R77). -/
def Plane.digitsFrom (p : Plane) (lane : Nat) : Nat → Nat → List Int
  | _, 0 => []
  | j, n + 1 => match (p.at j).map (fun u => digitOf (laneAt 3 u.row lane)) with
    | some (some d) => d :: p.digitsFrom lane (j + 1) n
    | some none => List.replicate (n + 1) 0
    | none => 0 :: p.digitsFrom lane (j + 1) n

/-- The digits 1 to `n` of a lane. -/
def Plane.digits (p : Plane) (lane n : Nat) : List Int := p.digitsFrom lane 1 n

/-- A lane's digits 1 to `n` as an integer of weight 4^−n. -/
def Plane.value (p : Plane) (lane n : Nat) : Int := (p.digits lane n).foldl (fun a d => 4 * a + d) 0

/-! ### Digit selection (R185) -/

/-- The functions of R185. -/
inductive OnlineFn where
  | add | mul | mac
  deriving DecidableEq, Repr

/-- The length of the result before it is capped at 8. -/
def OnlineFn.len (f : OnlineFn) (x y w : Plane) : Nat := match f with
  | .add => max x.len y.len + 1
  | .mul => x.len + y.len
  | .mac => max (x.len + y.len) w.len + 1

/-- F of the operand digits 1 to `n`, as numerator and denominator. -/
def OnlineFn.eval (f : OnlineFn) (x y w : Plane) (lane n : Nat) : Int × Nat :=
  let a := x.value lane n
  let b := y.value lane n
  match f with
  | .add => (a + b, 2 * 4 ^ n)
  | .mul => (a * b, 16 ^ n)
  | .mac => (a * b + w.value lane n * 4 ^ n, 2 * 16 ^ n)

/-- The digits d1 to dj of a lane; the accumulator is the digits so far and Z at weight 4^−j. -/
def OnlineFn.select (f : OnlineFn) (x y w : Plane) (lane : Nat) : Nat → List Int × Int
  | 0 => ([], 0)
  | j + 1 =>
    let (ds, z) := f.select x y w lane j
    let (n, d) := f.eval x y w lane (j + 4)
    let v : Int := n * 4 ^ (j + 1) - 4 * z * d
    let m : Int := roundMag .rne (decide (v < 0)) v.natAbs d
    let r := if v < 0 then -m else m
    let dj := max (-3) (min 3 r)
    (ds ++ [dj], 4 * z + dj)

/-- Result planes that may be emitted: plane j once every operand that has not ended holds plane j + 3. -/
def emitted (k : Nat) (ps : List Plane) : Nat :=
  let open_ := ps.filter (fun p => !p.ended)
  if ps.any (fun p => p.held.isEmpty) then 0
  else open_.foldl (fun a p => min a (p.top - 3)) k

/-! ### The result (R185, R186) -/

/-- The result scale of an online node. -/
def OnlineFn.scale (f : OnlineFn) (a b w : Nat) : Nat :=
  let isZero (x : Nat) : Bool := readScale x == .zero
  let isPoison (x : Nat) : Bool := readScale x == .poison
  match f with
  | .add =>
    if isZero a || isZero b then zeroScale
    else if isPoison a || isPoison b || decide (a ≠ b) then poisonScale
    else scaleOf (scaleE a + 1) (a % 2 ^ 24)
  | .mul => scaleMul a b
  | .mac =>
    let p := scaleMul a b
    if isZero a || isZero b || isZero w then zeroScale
    else if isPoison p || isPoison w || decide (p ≠ w) then poisonScale
    else scaleOf (scaleE p + 1) (p % 2 ^ 24)

/-- The first plane of an operand. -/
def Plane.first (p : Plane) : Item := p.held.headD { tag := Tag.template, v0 := 0, v1 := some 0, inv := none }

/-- Result plane `j` of an element. -/
def OnlineFn.plane (f : OnlineFn) (x y w : Plane) (j : Nat) : Item :=
  let full := f.len x y w
  let k := min full 8
  let ops := if f = .mac then [x, y, w] else [x, y]
  let last := (ops.map (fun p => descLast p.first.desc)).foldl max 0
  let sc := f.scale x.first.scale.toNat y.first.scale.toNat w.first.scale.toNat
  let fl := flagIf (decide (8 < full)) fNarrowed ||| flagIf (readScale sc == .poison) fPoison
    ||| (if f = .mac then w.first.tag.flags &&& fPoison else 0)
  let row := packLanes 3 ((List.range (last + 1)).map (fun i => digitCode ((f.select x y w i j).1.getLastD 0)))
  vectorOf (tag2 x.first.tag y.first.tag fl) row (BitVec.ofNat 32 sc) (descOf last k j) x.first.inv

/-- The planes of an element from `lo` + 1 to `hi`. -/
def OnlineFn.planes (f : OnlineFn) (x y w : Plane) (lo hi : Nat) : List Item :=
  (List.range (hi - lo)).map (fun i => f.plane x y w (lo + i + 1))

/-! ### The nodes -/

/-- The three operands that an online node keeps. -/
def onlineOf : NodeState → Plane × Plane × Plane
  | .online pa pb pc ea eb ec => (⟨pa, ea⟩, ⟨pb, eb⟩, ⟨pc, ec⟩)
  | _ => (⟨[], false⟩, ⟨[], false⟩, ⟨[], false⟩)

def onlineNode (x y w : Plane) : NodeState := .online x.held y.held w.held x.ended y.ended w.ended

/-- The parts of an online turn that every function shares: `used` are the positions, and `ops` their operands. Where an element is
open, its unended operands are read; where none is, the heads pass R24 (DEDUCED, log entry 26). -/
def onlineRead (used : List Nat) (ts : List (BitVec 6)) (s : State) (c : CellId) (k : BitVec 3) (x : Cell)
    (post : State → BitVec 4 → State) (step : State → List (Nat × Plane) → State) (ops : List (Nat × Plane)) : State :=
  let busy := ops.any (fun p => !p.2.held.isEmpty)
  let vals := used.map (fun p => (p, x.valueAt k p))
  if !busy then
    match x.heads k used with
    | .wait => s
    | .misaligned => s.alignFault c k used
    | .badKind p => s.tokenFault c k p
    | .gap p => if ts.all (x.targetFree k [p]) then s.forwardGap c k ts p else s
    | .token kind => if !ts.all (x.targetFree k (used.filter (x.aligns k))) then s else post (s.forwardToken c k used ts kind) kind
    | .data => if ts.all (x.targetFree k used) then step s ops else s
  else
    match vals.find? (fun v => (v.2.map badToken).getD false) with
    | some v => s.tokenFault c k v.1
    | none =>
      match vals.find? (fun v => (v.2.map (fun u => u.tag.kind == kGap)).getD false) with
      | some v => if ts.all (x.targetFree k [v.1]) then s.forwardGap c k ts v.1 else s
      | none =>
        let seen := ops.map (fun p => (p.1, p.2.see (x.valueAt k p.1)))
        if seen.all (fun p => p.2.ended || (x.valueAt k p.1).isSome)
            && ts.all (x.targetFree k ((seen.filter (fun p => !p.2.ended)).map Prod.fst)) then step s seen
        else s

/-- The unended operands read one plane each: what is consumed, and the operands after it; none where a vector breaks R68. -/
def readPlanes (f : Fmt) (x : Cell) (k : BitVec 3) : List (Nat × Plane) → Option (List Nat × List (Nat × Plane))
  | [] => some ([], [])
  | (p, pl) :: rest =>
    match readPlanes f x k rest with
    | none => none
    | some (us, ps) =>
      if pl.ended then some (us, (p, pl) :: ps)
      else match x.valueAt k p with
        | none => some (us, (p, pl) :: ps)
        | some u => if vectorBad f u then none else some (p :: us, (p, pl.push u) :: ps)

/-- The plane of a position in a list. -/
def planeAt (ps : List (Nat × Plane)) (p : Nat) : Plane := ((ps.find? (fun q => q.1 == p)).map Prod.snd).getD ⟨[], false⟩

/-- A turn of `oadd`, `omul` or `omac` (R184, R185) (DESIGN CHOICE, log entry 5). -/
def onlineAct (f : OnlineFn) (a b : BitVec 6) (s : State) : State :=
  s.atNode (fun c k x =>
    let used := if f = .mac then [posA, posB, posC] else [posA, posB]
    let ts := [a, b]
    let (pa, pb, pc) := onlineOf x.nst[k.toNat]
    let ops := if f = .mac then [(posA, pa), (posB, pb), (posC, pc)] else [(posA, pa), (posB, pb)]
    onlineRead used ts s c k x (fun s _ => s) (fun s seen =>
      match readPlanes .sdp x k seen with
      | none => s.nodeFault c k 0x06 (x.valueAt k posA)
      | some (us, ps) =>
        let (qa, qb, qc) := (planeAt ps posA, planeAt ps posB, planeAt ps posC)
        let n := min (f.len qa qb qc) 8
        let before := emitted n (ops.map Prod.snd)
        let after := emitted n (ps.map Prod.snd)
        let is := ps.flatMap (fun p => p.2.held.flatMap Item.invs)
        let out := (f.planes qa qb qc before after).map (fun u => u.withInvs is)
        let done := ps.all (fun p => p.2.ended)
        let node := if done then NodeState.idle else onlineNode qa qb qc
        ((s.consume c k us).setNode c k node).deliverAll c k (out.flatMap (fun u => ts.map (fun t => (t, u))))) ops)

/-- `OADD` (R185). -/
def execOadd (a b : BitVec 6) (_m : BitVec 2) (_o : BitVec 8) (s : State) : Result := .next (onlineAct .add a b s)

/-- `OMUL` (R185). -/
def execOmul (a b : BitVec 6) (_m : BitVec 2) (_o : BitVec 8) (s : State) : Result := .next (onlineAct .mul a b s)

/-- `OMAC` (R185). -/
def execOmac (a b : BitVec 6) (_m : BitVec 2) (_o : BitVec 8) (s : State) : Result := .next (onlineAct .mac a b s)

/-- `OCUT` (R187): planes beyond K are dropped, and the others carry FLAGS.NARROWED where the element is longer than K
(DEDUCED, log entry 27). -/
def execOcut (a b : BitVec 6) (m : BitVec 2) (o : BitVec 8) (s : State) : Result :=
  let used := usedPos [posA] m
  .next (s.nodeAct used [a, b] (fun c k ops s =>
    match ops.a with
    | none => s
    | some u =>
      let n := (bits o 0 4).toNat
      if n < 2 ∨ 8 < n then s.nodeFault c k 0x05 (some u)
      else if vectorBad .sdp u then s.nodeFault c k 0x06 (some u)
      else if n < descPlane u.desc then s.consume c k used
      else
        let v := { u.withMeta u.scale (descWithPlanes u.desc (min (descPlanes u.desc) n)) with
          tag := { u.tag with flags := u.tag.flags ||| flagIf (decide (n < descPlanes u.desc)) fNarrowed } }
        s.fireWith c k used [(a, v), (b, v)]))

/-! ### Conversion to and from digits (R188) -/

/-- Whether |x| < 2^m. -/
def belowPow (x : FVal) (m : Nat) : Bool := (x.abs).lt (.fin false 1 m)

/-- The least m with every value below 2^m in magnitude. -/
def leastPow (xs : List FVal) : Nat → Nat → Nat
  | 0, m => m
  | n + 1, m => if xs.all (fun x => belowPow x m) then m else leastPow xs n (m + 1)

/-- A conventional vector as its digit planes: the planes, the counts, and the state where an infinite lane leaves m open (log
entry 5). A zero or poison scale is kept: under it every lane is zero, or a NaN, whatever its code (R81). Where E′ passes 127 the scale
becomes poison and the digits are those of the elements; the planes carry POISON and every lane counts as NAN (R81, R93, R188) (DEDUCED,
log entry 28). -/
def toDigits (s : State) (f : Fmt) (k : Nat) (mode : RoundMode) (u : Item) : List Item × Counts × State :=
  let last := descLast u.desc
  let xs := (lanes f.laneBits (last + 1) u.row).map f.read
  let nums := xs.filter (fun x => !x.isNan)
  let sc := if f.scaled then u.scale.toNat else 0
  let (m, s1) : Nat × State := match readScale sc with
    | .value _ _ => if nums.any FVal.isInf then let (n, s1) := s.freshNat; ((Config.freeValue n).toNat, s1) else (leastPow nums 128 0, s)
    | _ => (0, s)
  let (sc1, lane) : Nat × (FVal → FVal) := match readScale sc with
    | .zero => (sc, fun _ => .fin false 0 0)
    | .poison => (sc, fun _ => .nan)
    | .value _ _ =>
      (scaleOf (scaleE sc + m) (sc % 2 ^ 24), fun x => x.shift (-(m : Int)))
  let cs := xs.map (fun x => sdConv k mode (lane x))
  let beyond := readScale sc1 == .poison
  let poison := beyond || cs.any (fun r => r.2.nan)
  let fl := u.tag.flags ||| flagIf poison fPoison ||| satFlag (cs.map Prod.snd)
  let plane (j : Nat) : Item :=
    vectorOf { u.tag with flags := fl } (packLanes 3 (cs.map (fun r => digitCode ((sdDigits k r.1)[j]?.getD 0))))
      (BitVec.ofNat 32 sc1) (descOf last k (j + 1)) u.inv
  ((List.range k).map plane, if beyond then { Counts.zero with nan := last + 1 } else laneCounts (cs.map Prod.snd), s1)

/-- A lane under a poison scale (R81): the canonical NaN of a float format, else 0. -/
def poisonLane (dst : Fmt) : Conv := ⟨match dst.float with
  | some g => g.nanCode
  | none => 0, false, false, true, false⟩

/-- An element's planes as one conventional vector, and the counts. A lane past the target's row has no place in it; under a zero or
poison scale no digit is examined (R81). -/
def fromDigits (dst : Fmt) (mode : RoundMode) (ieee : Bool) (p : Plane) : Item × Counts :=
  let u := p.first
  let last := min (descLast u.desc) (dst.rowLanes - 1)
  let sc := u.scale.toNat
  let n := p.top
  let cs := (List.range (last + 1)).map (fun i =>
    let v := p.value i n
    let x : FVal := .fin (decide (v < 0)) v.natAbs (-(2 * n : Nat) : Int)
    match readScale sc with
    | .zero => convertLane .sdp dst mode ieee (.fin false 0 0)
    | .poison => poisonLane dst
    | .value m e => convertLane .sdp dst mode ieee (if dst.scaled then x else x.mul (.fin false m e)))
  let poison := readScale sc == .poison
  let fl := u.tag.flags ||| flagIf poison fPoison ||| satFlag cs
  (vectorOf { u.tag with flags := fl } (packLanes dst.laneBits (cs.map Conv.code)) (if dst.scaled then u.scale else 0)
    (descOf last 0 0) u.inv, laneCounts cs)

/-- `OCONV` (R188): from a conventional vector to digits, or from an element's digits to a vector in the format of the result route.
It counts as a converter, and its COUNT token leaves with the EOT (DEDUCED, log entry 28). -/
def execOconv (a b : BitVec 6) (_m : BitVec 2) (r : BitVec 3) (v : BitVec 1) (p : BitVec 4) (s : State) : Result :=
  .next (s.atNode (fun c k x =>
    let ts := [a, b]
    let f := s.elemFmt c k
    let pr := (x.prm p.toNat).getD 0
    let tensor := bits pr 16 16
    let mode := RoundMode.ofCode r.toNat
    let post (s : State) (kind : BitVec 4) : State := if kind = kEot then s.convEot c (nodeSite k) tensor else s
    let give (s : State) (us : List Nat) (node : NodeState) (n : Counts) (out : List Item) : State :=
      ((((s.consume c k us).setNode c k node).modCell c (fun y => y.countConv (nodeSite k) tensor ((x.valueAt k posA).bind Item.inv) n))).deliverAll c k
        (out.flatMap (fun u => ts.map (fun t => (t, u))))
    if f.isSd then
      let (pa, _, _) := onlineOf x.nst[k.toNat]
      onlineRead [posA] ts s c k x post (fun s seen =>
        match readPlanes f x k seen with
        | none => s.nodeFault c k 0x06 (x.valueAt k posA)
        | some (us, ps) =>
          let q := planeAt ps posA
          if q.ended then
            let (u, n) := fromDigits (s.resultFmt c k) mode (v == 1) q
            give s us .idle n [u]
          else (s.consume c k us).setNode c k (onlineNode q ⟨[], false⟩ ⟨[], false⟩)) [(posA, pa)]
    else
      s.nodeActWith [posA] ts (fun c k ops s =>
        match ops.a with
        | none => s
        | some u =>
          let n := (bits pr 0 4).toNat
          if n < 2 ∨ 8 < n then s.nodeFault c k 0x05 (some u)
          else if vectorBad f u then s.nodeFault c k 0x06 (some u)
          else
            let (out, cnt, s1) := toDigits s f n mode u
            give s1 [posA] .idle cnt out) (fun _ _ kind s => post s kind)))

end Sys2Proof.Machine
end

