-- ==== Sys2Proof/Machine/Convert.lean ====
section
/-!
DEFINITION. The convert cells (R189 to R193).
-/

namespace Sys2Proof.Machine

/-- A value divided by n × 2^f, exact to far more bits than any format holds: the last bit stands for the rest, so that it rounds as
the exact quotient does (R190). -/
def FVal.divBy (n : Nat) (f : Int) : FVal → FVal
  | .fin s m e =>
    let q := m * 2 ^ 512 / n
    .fin s (2 * q + (if m * 2 ^ 512 % n = 0 then 0 else 1)) (e - f - 513)
  | x => x

/-! ### What a convert node reads -/

/-- SHIFT, TENSOR and SCALE (R189). -/
def cvtShift (v : Word64) : Int := (bits v 0 8).toInt
def cvtTensor (v : Word64) : BitVec 16 := bits v 16 16
def cvtScale (v : Word64) : Nat := (bits v 32 32).toNat

/-- The scale word of a result of a format: that given where the format is scaled, else 0 (R81) (DESIGN CHOICE, log entry 145). -/
def scaleFor (f : Fmt) (sc : Nat) : Word32 := if f.scaled then BitVec.ofNat 32 sc else 0

/-- Whether SCALE is a number. -/
def scaleOk (v : Word64) : Bool := match readScale (cvtScale v) with
  | .value _ _ => true
  | _ => false

/-- Whether the route of a node's result carries vectors: the link type of its first outlet target. A latch takes records
(DEDUCED, log entry 38). -/
def CellConfig.resultVec (cf : CellConfig) (w : Word32) : Bool :=
  ((wordTargets w).findSome? (fun t => match t with
    | .outlet o => (cf.route o).bind Prod.snd
    | _ => none)).getD false

/-- The lanes of a unit in a format. -/
def unitLanes (f : Fmt) (u : Item) : List Nat :=
  lanes f.laneBits (if u.v1.isSome then f.rowLanes else f.recLanes) u.row

/-- How many lanes of a unit are valid. -/
def validLanes (f : Fmt) (u : Item) : Nat := if u.v1.isSome then descLast u.desc + 1 else f.recLanes

/-- A convert node: an EOT that leaves takes the tile's counts with it (R193). -/
def convertAct (a b : BitVec 6) (m : BitVec 2) (tensor : Cell → BitVec 16)
    (fire : CellId → BitVec 3 → Item → State → State) (s : State) : State :=
  let used := usedPos [posA] m
  s.nodeActWith used [a, b] (fun c k ops s => match ops.a with
    | none => s
    | some u =>
      if u.v1.isSome && vectorBad (s.elemFmt c k) u then s.nodeFault c k 0x06 (some u) else fire c k u s)
    (fun c k kind s => if kind = kEot then s.convEot c (nodeSite k) (tensor (s.cell c)) else s)

/-- A convert firing done: the counts, and what leaves on both targets. -/
def convertGive (s : State) (c : CellId) (k : BitVec 3) (used : List Nat) (a b : BitVec 6) (tensor : BitVec 16) (n : Counts)
    (out : List Item) : State :=
  let inv := ((s.cell c).valueAt k posA).bind Item.inv
  ((s.consume c k used).modCell c (fun y => y.countConv (nodeSite k) tensor inv n)).deliverAll c k
    (out.flatMap (fun u => [(a, u), (b, u)]))

/-- `CVT` (R189). -/
def execCvt (a b : BitVec 6) (m : BitVec 2) (r : BitVec 3) (v : BitVec 1) (p : BitVec 4) (s : State) : Result :=
  .next (convertAct a b m (fun x => cvtTensor ((x.prm p.toNat).getD 0)) (fun c k u s =>
    let pr := ((s.cell c).prm p.toNat).getD 0
    let src := s.elemFmt c k
    let dst := s.resultFmt c k
    let cs := (unitLanes src u).map (fun x =>
      convertLane src dst (RoundMode.ofCode r.toNat) (v == 1) ((src.read x).shift (cvtShift pr)))
    let out : Item :=
      { u with tag := { u.tag with flags := u.tag.flags ||| satFlag cs }, v0 := payloadOf dst.laneBits (cs.map Conv.code) }
    convertGive s c k (usedPos [posA] m) a b (cvtTensor pr) (laneCounts cs) [out]) s)

/-- `RSC` (R189): a record's lanes, or a vector's scale. -/
def execRsc (a b : BitVec 6) (m : BitVec 2) (r : BitVec 3) (v : BitVec 1) (p : BitVec 4) (s : State) : Result :=
  .next (convertAct a b m (fun x => cvtTensor ((x.prm p.toNat).getD 0)) (fun c k u s =>
    let pr := ((s.cell c).prm p.toNat).getD 0
    let f := s.elemFmt c k
    let used := usedPos [posA] m
    match u.v1 with
    | none =>
      let cs := (unitLanes f u).map (fun x =>
        convertLane f f (RoundMode.ofCode r.toNat) (v == 1) ((f.read x).shift (cvtShift pr)))
      let out : Item :=
        { u with tag := { u.tag with flags := u.tag.flags ||| satFlag cs }, v0 := payloadOf f.laneBits (cs.map Conv.code) }
      convertGive s c k used a b (cvtTensor pr) (laneCounts cs) [out]
    | some _ =>
      if !scaleOk pr then s.nodeFault c k 0x05 (some u)
      else
        let sc := u.scale.toNat
        let sc1 := match f.scaled, readScale sc with
          | true, .value _ _ => scaleOf (scaleE sc + cvtShift pr) (sc % 2 ^ 24)
          | _, _ => sc
        let poison := f.scaled && readScale sc1 == .poison
        let zero := f.scaled && readScale sc1 == .zero
        let nans := ((unitLanes f u).take (validLanes f u)).filter (fun x => (f.read x).isNan)
        let out := { u.withMeta (scaleFor f sc1) u.desc with
          tag := { u.tag with flags := u.tag.flags ||| flagIf poison fPoison } }
        convertGive s c k used a b (cvtTensor pr)
          { Counts.zero with nan := if poison then validLanes f u else if zero then 0 else nans.length } [out]) s)

/-! ### Pack (R190) -/

/-- The records held by the open container. -/
def packHeld (x : Cell) (k : BitVec 3) : List Item := match x.nst[k.toNat] with
  | .pack held => held
  | _ => []

/-- Close: the container of parts of `w` bits and `n` lanes each, as a record or as a vector. It belongs to the invocation of every
record that it holds (R36). A vector's lanes are divided by SCALE whatever its format (R190); its scale word is SCALE where the format is
scaled (R81) (DESIGN CHOICE, log entry 145). -/
def packClose (held : List Item) (w n : Nat) (vec : Bool) (scale : Word32) : List Item := match held with
  | [] => []
  | h :: _ =>
    let fl := held.foldl (fun a u => a ||| flagsOf u.tag.flags) 0
    let tag := { h.tag with flags := fl }
    let row := packLanes (w * n) (held.map (fun u => u.v0.toNat))
    let u : Item := if vec then vectorOf tag row scale (descOf (held.length * n - 1) 0 0) h.inv
      else { tag := tag, v0 := BitVec.ofNat 512 row, v1 := none, inv := h.inv }
    [u.withInvs (held.flatMap Item.invs)]

/-- `PACK` (R190) (DESIGN CHOICE, log entry 145). -/
def execPack (a b : BitVec 6) (m : BitVec 2) (r : BitVec 3) (v : BitVec 1) (p : BitVec 4) (s : State) : Result :=
  let used := usedPos [posA] m
  let ts := [a, b]
  .next (s.atNode (fun c k x =>
    let pr := (x.prm p.toNat).getD 0
    let src := s.elemFmt c k
    let dst := s.resultFmt c k
    let vec := x.active.resultVec ((x.word k).getD 0)
    let w := dst.laneBits
    let n := src.recLanes
    let cap := (if vec then dst.rowLanes else dst.recLanes) / n
    let held := packHeld x k
    let close (h : List Item) : List Item := packClose h w n vec (scaleFor dst (cvtScale pr))
    let all (us : List Item) : List (BitVec 6 × Item) := us.flatMap (fun u => [(a, u), (b, u)])
    match x.heads k used with
    | .wait => s
    | .misaligned => s.alignFault c k used
    | .badKind q => s.tokenFault c k q
    | .gap q => if ts.all (x.targetFree k [q]) then s.forwardGap c k ts q else s
    | .token kind =>
      if !ts.all (x.targetFree k (used.filter (x.aligns k))) then s
      else
        let s1 := s.forwardTokenAfter c k used ts kind (fun s => s.setNode c k .idle) (all (close held))
        if kind = kEot then s1.convEot c (nodeSite k) (cvtTensor pr) else s1
    | .data =>
      match x.valueAt k posA with
      | none => s
      | some u =>
        if !ts.all (x.targetFree k used) then s
        else if vec && !scaleOk pr then s.nodeFault c k 0x05 (some u)
        else
          let differs := match held with
            | h :: _ => h.tag.weight != u.tag.weight || h.tag.domain != u.tag.domain
            | [] => false
          let cs := (unitLanes src u).map (fun y =>
            let z := (src.read y).shift (cvtShift pr)
            let z := if vec then (match readScale (cvtScale pr) with
              | .value q e => FVal.divBy q e z
              | _ => z) else z
            convertLane src dst (RoundMode.ofCode r.toNat) (v == 1) z)
          let part : Item :=
            { u with tag := { u.tag with flags := u.tag.flags ||| satFlag cs }, v0 := payloadOf w (cs.map Conv.code) }
          let out1 := if differs then close held else []
          let h1 := (if differs then [] else held) ++ [part]
          let full := decide (cap ≤ h1.length)
          let out := if full then out1 ++ close h1 else out1
          let s1 := ((s.consume c k used).setNode c k (if full then .idle else .pack h1)).modCell c
            (fun y => y.countConv (nodeSite k) (cvtTensor pr) u.inv (laneCounts cs))
          s1.deliverAll c k (all out)))

/-! ### Unpack and stat (R191, R192) -/

/-- The lanes of a unit, each in the result format (R191): widened exactly, or, from a scaled vector, times the scale and rounded under
`.rne` and `.sat`. -/
def unpackLanes (src dst : Fmt) (u : Item) : List Conv :=
  (unitLanes src u).map (fun x =>
    if u.v1.isSome && src.scaled then
      match readScale u.scale.toNat with
      | .zero => convertLane src dst .rne false (.fin false 0 0)
      | .poison => poisonLane dst
      | .value m e => convertLane src dst .rne false ((src.read x).mul (.fin false m e))
    else convertLane src dst .rne true (src.read x))

/-- The parts of a unit (R191): the tag is the source's, with SAT and POISON where a lane of the part saturated or its vector's scale is
poison (R81, R163, R189). A part of a vector that holds no lane at or below LAST is not emitted (DEDUCED, log entry 29). -/
def unpackParts (src dst : Fmt) (u : Item) : List Item :=
  let n := dst.recLanes
  let cs := unpackLanes src dst u
  let poison := u.v1.isSome && src.scaled && readScale u.scale.toNat == .poison
  ((List.range (cs.length / n)).filter (fun i => u.v1.isNone || decide (i * n ≤ descLast u.desc))).map (fun i =>
    let part := (cs.drop (i * n)).take n
    { u with
      tag := { u.tag with flags := u.tag.flags ||| flagIf poison fPoison ||| satFlag part },
      v0 := payloadOf dst.laneBits (part.map Conv.code), v1 := none })

/-- `UNPACK` (R191). -/
def execUnpack (a b : BitVec 6) (m : BitVec 2) (o : BitVec 8) (s : State) : Result :=
  .next (convertAct a b m (fun x => cvtTensor ((x.prm (bits o 0 4).toNat).getD 0)) (fun c k u s =>
    let pr := ((s.cell c).prm (bits o 0 4).toNat).getD 0
    let src := s.elemFmt c k
    let dst := s.resultFmt c k
    convertGive s c k (usedPos [posA] m) a b (cvtTensor pr) (laneCounts ((unpackLanes src dst u).take (validLanes src u)))
      (unpackParts src dst u)) s)

/-- What `stat` counts in one lane (R192). -/
def statLane (f : Fmt) (x : Nat) : Counts :=
  match f.float with
  | some g =>
    match g.read x with
    | .nan => { Counts.zero with nan := 1 }
    | .inf _ => { Counts.zero with sat := 1 }
    | .fin _ m _ =>
      if x % g.signBit = g.maxCode false then { Counts.zero with sat := 1 }
      else if m ≠ 0 ∧ x % g.signBit < 2 ^ g.fbits then { Counts.zero with ftz := 1 }
      else Counts.zero
  | none => match f.int with
    | some w =>
      if toSigned w x = intMin w ∨ toSigned w x = intMax w then { Counts.zero with sat := 1 } else Counts.zero
    | none => Counts.zero

/-- What `stat` counts in a unit. -/
def statUnit (f : Fmt) (u : Item) : Counts :=
  let valid := (unitLanes f u).take (validLanes f u)
  let scaled := u.v1.isSome && f.scaled
  let n := match scaled, readScale u.scale.toNat with
    | true, .poison => { Counts.zero with nan := valid.length }
    | true, .zero => Counts.zero
    | _, _ => valid.foldl (fun t x => t.add (statLane f x)) Counts.zero
  { n with narrow := if hasFlag u.tag.flags fNarrowed then 1 else 0 }

/-- `STAT` (R192): passes each unit with its bits unchanged. -/
def execStat (a b : BitVec 6) (m : BitVec 2) (o : BitVec 8) (s : State) : Result :=
  .next (convertAct a b m (fun x => cvtTensor ((x.prm (bits o 0 4).toNat).getD 0)) (fun c k u s =>
    let pr := ((s.cell c).prm (bits o 0 4).toNat).getD 0
    convertGive s c k (usedPos [posA] m) a b (cvtTensor pr) (statUnit (s.elemFmt c k) u) [u]) s)

end Sys2Proof.Machine
end

