-- ==== Sys2Proof/Machine/SeqMem.lean ====
section
/-!
DEFINITION. The sequencer's loads, stores, atomics and fence (R142 to R150).
-/

namespace Sys2Proof.Machine

/-! ### Issue, order and scope -/

/-- The running sequencer waits, and its instruction issues again. -/
def State.waitOn (s : State) (w : SeqWait) : Result := .next (s.modSeq s.seqTurn (fun sq => { sq with wait := w }))

/-- Whether a memory access may issue: every ORDER that a `get` acquired has been answered (R310), and fewer than 16 accesses are
outstanding (R128). -/
def State.mayAccess (s : State) (sq : Seq) : Bool := sq.acq.isEmpty && decide ((s.pendOf s.seqTurn).length < 16)

/-- Whether a sequencer holds an access at a bridge that is not UP (R352, R400): it has issued, and has no answer. -/
def State.heldAtBridge (s : State) (q : BitVec 7) : Bool := (s.seq q).wait == .bridge

/-- Whether a memory access that releases at a scope may issue: its earlier stores can be performed (R148, R352). -/
def State.mayOrder (s : State) (o : BitVec 2) (c : BitVec 3) : Bool := !((o == 2 || o == 3) && decide (4 ≤ c.toNat)) || s.storesCross s.seqTurn

/-- Whether an instruction with several accesses may issue them all: room for each (R128) (DEDUCED, log entry 140). -/
def State.mayIssue (s : State) (sq : Seq) (n : Nat) : Bool := s.mayAccess sq && decide ((s.pendOf s.seqTurn).length + n ≤ 16)

/-- A memory access under its guard; one that may not issue waits, and issues again (DEDUCED, log entry 140). -/
def memAccess (s : State) (g : BitVec 3) (body : Seq → Result) : Result :=
  guarded s g 0 (fun sq =>
    if s.mayAccess sq then body sq else .next (s.setSeq s.seqTurn { sq with wait := .memory }))

/-- The earlier stores of a sequencer ordered, toward the agents that a scope reaches, before what follows (R148 to R150): at `.pkg` and
`.sys` they are performed now, at a narrower scope by the next access of an agent that it reaches (R149, R316). `.cel` reaches only the
sequencer itself, and orders nothing (DESIGN CHOICE, log entry 13; DEDUCED, log entry 139). -/
def State.order (s : State) (q : BitVec 7) (c : BitVec 3) : State :=
  if c = 0 then s
  else if 4 ≤ c.toNat then s.flush q
  else { s with pend := s.pend.map (fun r => if r.src = .seq q then { r with bound := if r.bound.toNat < c.toNat then c else r.bound } else r) }

/-- The release half of an order at a scope (R148) (DESIGN CHOICE, log entry 13; DEDUCED, log entry 139). -/
def State.releaseAt (s : State) (o : BitVec 2) (c : BitVec 3) : State := if o = 2 ∨ o = 3 then s.order s.seqTurn c else s

/-- The translations of a list of addresses, or the first fault with its address (R142, R144). -/
def State.xlateAll (s : State) (q : BitVec 7) (right : Right) : List Word64 → Except (XFault × Word64) (List Xlated) × State
  | [] => (.ok [], s)
  | va :: rest =>
    match s.xlate q right va with
    | (.error f, s1) => (.error (f, va), s1)
    | (.ok x, s1) =>
      match State.xlateAll s1 q right rest with
      | (.error e, s2) => (.error e, s2)
      | (.ok xs, s2) => (.ok (x :: xs), s2)

/-- The lowest poisoned address among accesses of `n` bytes (R403). -/
def State.poisonedAt (s : State) (n : Nat) : List (Word64 × Xlated) → Option Word64
  | [] => none
  | (va, x) :: rest =>
    match s.poisonIn x.pa n with
    | some pa => some (va + BitVec.ofNat 64 (pa - x.pa))
    | none => State.poisonedAt s n rest

/-- An aligned access of `n` bytes at a list of rising addresses: Misaligned, then the translation faults, then MemoryPoison for
one that reads; else what the body makes of the translations. An access to another die waits for the bridges on its way, and one in FAULT
freezes the region (R351, R352). -/
def State.accessAll (s : State) (right : Right) (n : Nat) (vas : List Word64) (body : State → List Xlated → Result) : Result :=
  match vas.find? (fun va => decide (va.toNat % n ≠ 0)) with
  | some va => s.trap tMisaligned va
  | none =>
    match s.xlateAll s.seqTurn right vas with
    | (.error (f, va), s1) => .next (s.xtrap s1 s.seqTurn f va)
    | (.ok xs, s1) =>
      let ways := xs.map (fun x => s.pathTo (seqDie s.seqTurn) x.pa)
      if ways.any (fun w => w == .broken) then .next (s1.seqFault s.seqTurn 0x19 0)
      else if ways.any (fun w => w == .down) then .next (s.setSeq s.seqTurn { s.seq s.seqTurn with wait := .bridge })
      else
        let s2 := s1.settle (.seq s.seqTurn)
        match if right = .w then none else s2.poisonedAt n (vas.zip xs) with
        | some va => s2.trap tPoison va
        | none => body s2 xs

/-- The running sequencer after an access: one register list written, and on to the next instruction. -/
def State.loaded (s : State) (d : BitVec 5) (vs : List Word64) : Result := s.goOn ((s.seq s.seqTurn).writeList d vs)

/-- Issues stores of a list of double-words or smaller at a list of translated addresses (R147). -/
def State.issueAll (s : State) (n : Nat) : List (Xlated × Word64) → State
  | [] => s
  | (x, v) :: rest => State.issueAll (s.issueStore s.seqTurn x.key x.pa (natToBytes n v.toNat)) n rest

/-! ### Loads and stores -/

/-- `LD` (R143) (DESIGN CHOICE, log entry 13). -/
def execLd (d a : BitVec 5) (g : BitVec 3) (_o : BitVec 2) (_c : BitVec 3) (w : BitVec 2) (e : BitVec 6) (s : State) : Result :=
  memAccess s g (fun sq =>
    s.accessAll .r (widthBytes w) [effAddr (sq.readG a) e w] (fun s1 xs =>
      s1.loaded d (xs.map (fun x => BitVec.ofNat 64 (s1.seqNum s1.seqTurn x.key x.pa (widthBytes w))))))

/-- `ST` (R143): `d` names the register stored. -/
def execSt (d a : BitVec 5) (g : BitVec 3) (o : BitVec 2) (c : BitVec 3) (w : BitVec 2) (e : BitVec 6) (s : State) : Result :=
  memAccess s g (fun sq =>
    if !s.mayOrder o c then s.waitOn .memory
    else s.accessAll .w (widthBytes w) [effAddr (sq.readG a) e w] (fun s1 xs =>
      ((s1.releaseAt o c).issueAll (widthBytes w) (xs.map (fun x => (x, sq.readG d)))).loaded 0 []))

/-- The addresses of a list of `n + 1` double-words (R144). -/
def listAddrs (base : Word64) (n : BitVec 4) : List Word64 :=
  (List.range (n.toNat + 1)).map (fun i => base + BitVec.ofNat 64 (8 * i))

/-- `LDM` (R144). -/
def execLdm (d a : BitVec 5) (g : BitVec 3) (_o : BitVec 2) (_c : BitVec 3) (n : BitVec 4) (s : State) : Result :=
  memAccess s g (fun sq =>
    s.accessAll .r 8 (listAddrs (sq.readG a) n) (fun s1 xs =>
      s1.loaded d (xs.map (fun x => BitVec.ofNat 64 (s1.seqNum s1.seqTurn x.key x.pa 8)))))

/-- `STM` (R144). -/
def execStm (d a : BitVec 5) (g : BitVec 3) (o : BitVec 2) (c : BitVec 3) (n : BitVec 4) (s : State) : Result :=
  memAccess s g (fun sq =>
    if !s.mayIssue sq (n.toNat + 1) || !s.mayOrder o c then s.waitOn .memory
    else s.accessAll .w 8 (listAddrs (sq.readG a) n) (fun s1 xs =>
      ((s1.releaseAt o c).issueAll 8 (xs.zip (sq.readList d n.toNat))).loaded 0 []))

/-! ### Atomics -/

/-- The read-modify-write of an atomic at a width of `w` bits (R145). -/
inductive AmoOp where
  | swap | add | and | or | xor | min | max | minu | maxu
  deriving DecidableEq, Repr

def AmoOp.apply (op : AmoOp) (w old v : Nat) : Nat :=
  let x := old % 2 ^ w
  let y := v % 2 ^ w
  match op with
  | .swap => y
  | .add => (x + y) % 2 ^ w
  | .and => x &&& y
  | .or => x ||| y
  | .xor => x ^^^ y
  | .min => if toSigned w x ≤ toSigned w y then x else y
  | .max => if toSigned w x ≤ toSigned w y then y else x
  | .minu => if x ≤ y then x else y
  | .maxu => if x ≤ y then y else x

/-- One indivisible access at the slice: `f` of the old value is written, where it gives one, and gD takes the old value. The
sequencer's earlier stores to the word have been performed by then (R147), and its order acts before it (R148). -/
def atomicAccess (s : State) (d a : BitVec 5) (g : BitVec 3) (o : BitVec 2) (c : BitVec 3) (w : BitVec 2) (f : Seq → Nat → Option Nat) :
    Result :=
  memAccess s g (fun sq =>
    if !s.mayOrder o c then s.waitOn .memory
    else s.accessAll .rw (widthBytes w) [sq.readG a] (fun s1 xs =>
      match xs with
      | [] => .next s1
      | x :: _ =>
        let s2 := (s1.releaseAt o c).flushOver s1.seqTurn x.pa (widthBytes w)
        let old := s2.numAt x.key x.pa (widthBytes w)
        let s3 := match f sq old with
          | some v => s2.putNum x.key x.pa (widthBytes w) v
          | none => s2
        s3.loaded d [BitVec.ofNat 64 old]))

/-- One atomic operation with gD as its operand. -/
def amoAccess (op : AmoOp) (s : State) (d a : BitVec 5) (g : BitVec 3) (o : BitVec 2) (c : BitVec 3) (w : BitVec 2) : Result :=
  atomicAccess s d a g o c w (fun sq old => some (op.apply (8 * widthBytes w) old (sq.readG d).toNat))

/-- `AMOSWAP` (R145). -/
def execAmoswap (d a : BitVec 5) (g : BitVec 3) (o : BitVec 2) (c : BitVec 3) (w : BitVec 2) (s : State) : Result :=
  amoAccess .swap s d a g o c w

/-- `AMOADD` (R145). -/
def execAmoadd (d a : BitVec 5) (g : BitVec 3) (o : BitVec 2) (c : BitVec 3) (w : BitVec 2) (s : State) : Result :=
  amoAccess .add s d a g o c w

/-- `AMOAND` (R145). -/
def execAmoand (d a : BitVec 5) (g : BitVec 3) (o : BitVec 2) (c : BitVec 3) (w : BitVec 2) (s : State) : Result :=
  amoAccess .and s d a g o c w

/-- `AMOOR` (R145). -/
def execAmoor (d a : BitVec 5) (g : BitVec 3) (o : BitVec 2) (c : BitVec 3) (w : BitVec 2) (s : State) : Result :=
  amoAccess .or s d a g o c w

/-- `AMOXOR` (R145). -/
def execAmoxor (d a : BitVec 5) (g : BitVec 3) (o : BitVec 2) (c : BitVec 3) (w : BitVec 2) (s : State) : Result :=
  amoAccess .xor s d a g o c w

/-- `AMOMIN` (R145). -/
def execAmomin (d a : BitVec 5) (g : BitVec 3) (o : BitVec 2) (c : BitVec 3) (w : BitVec 2) (s : State) : Result :=
  amoAccess .min s d a g o c w

/-- `AMOMAX` (R145). -/
def execAmomax (d a : BitVec 5) (g : BitVec 3) (o : BitVec 2) (c : BitVec 3) (w : BitVec 2) (s : State) : Result :=
  amoAccess .max s d a g o c w

/-- `AMOMINU` (R145). -/
def execAmominu (d a : BitVec 5) (g : BitVec 3) (o : BitVec 2) (c : BitVec 3) (w : BitVec 2) (s : State) : Result :=
  amoAccess .minu s d a g o c w

/-- `AMOMAXU` (R145). -/
def execAmomaxu (d a : BitVec 5) (g : BitVec 3) (o : BitVec 2) (c : BitVec 3) (w : BitVec 2) (s : State) : Result :=
  amoAccess .maxu s d a g o c w

/-- `CAS` (R146): gD + 1 is written where memory holds gD at the width. -/
def execCas (d a : BitVec 5) (g : BitVec 3) (o : BitVec 2) (c : BitVec 3) (w : BitVec 2) (s : State) : Result :=
  atomicAccess s d a g o c w (fun sq old =>
    if old = (sq.readG d).toNat % 2 ^ (8 * widthBytes w) then some ((sq.readG (d + 1)).toNat % 2 ^ (8 * widthBytes w)) else none)

/-- `FENCE` (R150). -/
def execFence (g : BitVec 3) (c : BitVec 3) (s : State) : Result :=
  guarded s g 0 (fun _ =>
    if !s.mayOrder 3 c then s.waitOn .memory
    else
      let s1 := s.releaseAt 3 c
      s1.loaded 0 [])

end Sys2Proof.Machine
end

