-- ==== Sys2Proof/Machine/Memport.lean ====
section
/-!
DEFINITION. The memports (R200 to R208), their translation (R206), and what they do for ordering (R306 to R309, R348, R349).
-/

namespace Sys2Proof.Machine

/-! ### Configuration (R200) -/

/-- The fields of a memport's parameter register. -/
structure MpPar where
  unit   : Nat
  sp24   : Bool
  lastp  : Bool
  po     : BitVec 3
  op     : BitVec 5
  ret    : Bool
  w64    : Bool
  planes : Nat
  scale  : Nat
  deriving DecidableEq, Repr

def mpParOf (v : Word64) : MpPar :=
  { unit := (bits v 0 2).toNat, sp24 := v.getLsbD 2, lastp := v.getLsbD 3, po := bits v 4 3, op := bits v 8 5,
    ret := v.getLsbD 13, w64 := v.getLsbD 14, planes := (bits v 16 4).toNat, scale := (bits v 32 32).toNat }

/-- The memport's parameters at a node: MOD[3:0] names the register. -/
def Cell.mpPar (x : Cell) (k : BitVec 3) : MpPar := mpParOf ((x.prm (bits ((x.word k).getD 0) 0 4).toNat).getD 0)

/-- The functions of R201. -/
inductive MpFn where
  | mrd | mwr | mamo | msct | mgat
  deriving DecidableEq, Repr

/-- The memport function of a word. -/
def mpFnOf (w : Word32) : Option MpFn :=
  if bits w 28 4 ≠ 6 then none
  else match (bits w 22 6).toNat with
    | 0 => some .mrd
    | 1 => some .mwr
    | 2 => some .mamo
    | 3 => some .msct
    | 4 => some .mgat
    | _ => none

/-- Whether a function writes. -/
def MpFn.writes : MpFn → Bool
  | .mwr | .mamo | .msct => true
  | .mrd | .mgat => false

/-! ### Translation (R198, R206) -/

/-- The die's micro-TLB of a block (DEDUCED, log entry 54). -/
def State.utlb (s : State) (c : CellId) : List TlbEntry := (aget (s.die c.die).utlbs (blockNum c)).getD []

/-- The pins of the cells of a block. -/
def State.blockPins (s : State) (c : CellId) : List TlbEntry :=
  (s.cells.filter (fun p => p.1.die = c.die ∧ p.1.x = c.x ∧ p.1.y = c.y)).flatMap (fun p => p.2.pins)

/-- The unpinned translations of a page dropped from a block's micro-TLB and its die's TLB (R329). -/
def State.dropPage (s : State) (c : CellId) (ctx : BitVec 9) (va : Word64) : State :=
  s.modDie c.die (fun d => { d with
    tlb := tlbDrop ctx va d.tlb, utlbs := aset d.utlbs (blockNum c) (tlbDrop ctx va ((aget d.utlbs (blockNum c)).getD [])) })

/-- Whether a connection still carries the PEER requests that it has: it is neither IDLE nor in ERROR (R356, R361). -/
def State.peerKeeps (s : State) (d : BitVec 3) (pa : Nat) : Bool :=
  ((s.die d).conns.find? (fun k => k.num == BitVec.ofNat 12 (pa / 2 ^ 38))).any (fun k => k.state != .idle && k.state != .error)

/-- Whether the connection of a PEER address sends requests: it is OPENING or ESTABLISHED (R356, R361). -/
def State.peerSends (s : State) (d : BitVec 3) (pa : Nat) : Bool :=
  ((s.die d).conns.find? (fun k => k.num == BitVec.ofNat 12 (pa / 2 ^ 38))).any (fun k => k.state == .opening || k.state == .established)

/-- A memport's translation: a pinned page always hits; any other goes through the block's micro-TLB, the die's TLB and a walk. A fault
drops the page's unpinned translations (R329). Only a record read or store may reach a PEER page (R361). -/
def State.xlateMp (s : State) (c : CellId) (right : Right) (peerOk : Bool) (va : Word64) : Except XFault Xlated × State :=
  let ctx := s.ctxOfCell c
  if bits va 48 16 ≠ 0 then (.error .page, s)
  else
    let pins := s.blockPins c
    match pins.find? (fun e => e.covers ctx va.toNat) with
    | some e => match s.useEntry ctx right peerOk va e with
      | .ok x => if inPeer x.pa && !s.peerSends c.die x.pa then (.error .access, s.dropPage c ctx va) else (.ok x, s)
      | .error f => (.error f, s.dropPage c ctx va)
    | none =>
      match s.lookupWay c.die ctx va (s.utlb c) with
      | .down => (.error .held, s)
      | .broken => (.error .lost, s)
      | .up =>
      let l := s.lookup c.die ctx va (64 - pins.length) (s.utlb c)
      let put (l1 l2 : List TlbEntry) : State :=
        s.modDie c.die (fun d => { d with tlb := l2, utlbs := aset d.utlbs (blockNum c) l1 })
      let drop : State := put (tlbDrop ctx va l.l1) (tlbDrop ctx va l.l2)
      match l.found with
      | .bad _ _ => (.error .page, drop)
      | .leaf e =>
        match s.useEntry ctx right peerOk va e with
        | .ok x => if inPeer x.pa && !s.peerSends c.die x.pa then (.error .access, drop) else (.ok x, put l.l1 l.l2)
        | .error f => (.error f, drop)

/-- The fault of a memport access (R331, R391). -/
def mpFault (code : Nat) (k : BitVec 3) (u : Item) (va : Word64) (access : BitVec 2) (ivec : Word64) : FaultReg :=
  { faultAt code k (some u) with access := access, addr := va, ivec := ivec }

/-- The bytes of a unit at an address as physical parts: one, or two where they cross a page (R206, R325); or the fault of a page, with the
address that it holds for. -/
def State.xlateSpan (s : State) (c : CellId) (right : Right) (peerOk : Bool) (va : Word64) (n : Nat) :
    Except (XFault × Word64) (List (Nat × Nat × Xlated)) × State :=
  let n1 := min n (4096 - va.toNat % 4096)
  match s.xlateMp c right peerOk va with
  | (.error f, s1) => (.error (f, va), s1)
  | (.ok x, s1) =>
    if n1 = n then (.ok [(0, n, x)], s1)
    else
      let va2 := va + BitVec.ofNat 64 n1
      match s1.xlateMp c right peerOk va2 with
      | (.error f, s2) => (.error (f, va2), s2)
      | (.ok y, s2) => (.ok [(0, n1, x), (n1, n - n1, y)], s2)

/-- The code of a translation fault (R206), or of a walk that is lost (R351). -/
def XFault.code : XFault → Nat
  | .page => 0x0B
  | .access => 0x0C
  | _ => 0x19

/-- A memport's cell after an access that is not translated, from the state before the translation and that after it: it waits for a bridge,
or records the fault (R206, R351, R352). -/
def State.mpMiss (s s1 : State) (c : CellId) (f : XFault) (r : FaultReg) : State := if f = .held then s else s1.raiseFault c r

/-- Flits that enter the harp from a block port of a region, counted against its context's budget while it is not FROZEN: FL is a signed
40-bit count (R372, R390) (DEDUCED, log entry 83). -/
def State.countFlits (s : State) (c : CellId) (n : Nat) : State := match s.regionOf c with
  | none => s
  | some r =>
    if r.kstate = .frozen then s
    else s.modDie c.die (fun d => { d with
      budgets := d.budgets.map (fun b => if b.ctx = r.launch.ctx ∧ b.qfl ≠ 0xFFFFFFFF then { b with fl := wrap40 (b.fl - n) } else b) })

/-- The flits of a request that carries `n` bytes: one for each 64 of them, and at least one (DEDUCED, log entry 83). -/
def reqFlits (n : Nat) : Nat := max 1 ((n + 63) / 64)

/-! ### What a memport waits for -/

/-- Whether a result is that of an `mrd` or `mgat`, not the old value of a `mamo`. -/
def MpOut.isRead (o : MpOut) : Bool := !o.token && (match o.form with
  | .old _ => false
  | _ => true)

/-- Reads outstanding (R202). -/
def Memport.reads (m : Memport) : Nat := (m.outs.filter (fun o => o.isRead && o.val.isNone)).length

/-- Writes of a memport that have been issued and not performed. -/
def State.writesOf (s : State) (c : CellId) : List SliceReq := s.pend.filter (fun r => r.src = .cell c ∧ r.write = true)

/-- Whether the memport has no access in flight that a RETUNE waits for (R334). -/
def State.mpQuiet (s : State) (c : CellId) : Bool :=
  let m := (s.cell c).mp
  (s.pend.filter (fun r => r.src = .cell c)).isEmpty && m.atoms.isEmpty && m.outs.all (fun o => o.token || o.val.isSome)

/-- Whether the memport has no access in flight that was issued before a serial number. -/
def State.mpQuietBefore (s : State) (c : CellId) (n : Nat) : Bool :=
  let m := (s.cell c).mp
  s.pend.all (fun r => r.src != .cell c || decide (n ≤ r.id)) && m.atoms.all (fun t => decide (n ≤ t.id))
    && m.outs.all (fun o => o.token || o.val.isSome || decide (n ≤ o.id))

/-- Whether a memport may issue a write: its phase is open (R308). -/
def Memport.mayWrite (m : Memport) : Bool := m.isOpen[m.ph.toNat]

/-- One more write issued in the current phase. -/
def Memport.countWrite (m : Memport) (n : Nat) : Memport :=
  { m with issued := m.issued.set m.ph.toNat (m.issued[m.ph.toNat] + n) }

/-! ### Results in order (R202) -/

/-- The lanes of a compressed row in their places, or none where an index pair breaks R207; `w` is the lane width. -/
def expand24 (w : Nat) (p : Nat) : Option Nat :=
  let groups := 768 / w / 4
  let idx := p / 2 ^ 384
  let parts := (List.range groups).map (fun g =>
    let i0 := idx / 2 ^ (4 * g) % 4
    let i1 := idx / 2 ^ (4 * g + 2) % 4
    let v (i : Nat) : Nat := if i = i0 then laneAt w p (2 * g) else if i = i1 then laneAt w p (2 * g + 1) else 0
    if i1 ≤ i0 then none else some [v 0, v 1, v 2, v 3])
  if parts.all Option.isSome then some (packLanes w (parts.flatMap (fun x => x.getD []))) else none

/-- The scale word that `mrd` writes into a row: SCALE (R201), or 0 for a format that R64 lists as unscaled (R81) (DESIGN CHOICE, log
entry 145). -/
def rowScale (f : Fmt) (scale : Nat) : Nat := if f.scaled || f == .raw then scale else 0

/-- The unit that a read makes of its bytes, or none for a memory-format fault (R201, R207). A poisoned read has a zero payload and,
in a vector, a poison scale (R403) (DESIGN CHOICE, log entry 145). -/
def readUnit (o : MpOut) (bs : List Byte) : Option Item :=
  let n := if o.poison then 0 else bytesToNat bs
  let tag := { o.item.tag with flags := o.item.tag.flags ||| flagIf o.poison fPoison }
  let rec_ (p : Payload) : Item := { o.item with tag := tag, v0 := p, v1 := none }
  match o.form with
  | .record => some (rec_ (BitVec.ofNat 512 n))
  | .old w64 => some (rec_ (BitVec.ofNat 512 (n % 2 ^ (if w64 then 64 else 32))))
  | .word w64 =>
    let p := o.item.v0
    some (rec_ (if o.poison then 0 else if w64 then
        kvPayload (bits p 0 64).toNat (n % 2 ^ 32) (n / 2 ^ 32)
      else kvPayload (bits p 0 64).toNat (n % 2 ^ 32) (bits p 96 32).toNat))
  | .image =>
    if o.poison then some ((vectorOf tag 0 (BitVec.ofNat 32 poisonScale) 0 o.item.inv).withInvs o.item.more)
    else some { o.item with tag := tag, v0 := BitVec.ofNat 512 n, v1 := some (BitVec.ofNat 512 (n / 2 ^ 512)) }
  | .row f scale planes plane sp24 =>
    let row : Option Nat := if sp24 && !o.poison then expand24 f.laneBits n else some n
    row.map (fun r => (vectorOf tag r (BitVec.ofNat 32 (if o.poison then poisonScale else rowScale f scale))
      (descOf (f.rowLanes - 1) planes plane) o.item.inv).withInvs o.item.more)

/-- Held bytes over the bytes read (R202). -/
def overlay (heldBytes : List (Nat × Byte)) (pa : Nat) (bs : List Byte) : List Byte :=
  bs.mapIdx (fun i b => (aget heldBytes (pa + i)).getD b)

/-- The targets of a loaded node. -/
def Cell.targets (x : Cell) (k : BitVec 3) : List (BitVec 6) := match x.word k with
  | some w => [bits w 16 6, bits w 10 6]
  | none => []

/-- The first result leaves, where it is known and its node has none waiting (R202, R208). -/
def State.mpEmit (s : State) (c : CellId) : State :=
  let x := s.cell c
  match x.mp.outs with
  | [] => s
  | o :: rest =>
    if !x.due[o.slot.toNat].isEmpty || !(x.targets o.slot).all (fun t => x.targetFree o.slot [] t) then s
    else
      let s1 := s.setCell c { x with mp := { x.mp with outs := rest } }
      let give (u : Item) : State := s1.deliverAll c o.slot ((x.targets o.slot).map (fun t => (t, u)))
      if o.token then
        if o.item.tag.kind = kEot then
          let s2 := (give o.item).passEot c o.slot o.item.invs
          let par := x.mpPar o.slot
          let writes := (((x.word o.slot).bind mpFnOf).map MpFn.writes).getD false
          if par.lastp then s2.modCell c (fun y => { y with mp := { y.mp with lastDue := y.mp.lastDue ++ [(o.item.inv, par.po, writes)] } })
          else s2
        else give o.item
      else match o.val with
        | none => s
        | some bs => match readUnit o bs with
          | some u => give u
          | none => s1.raiseFault c (mpFault 0x0D o.slot o.item o.va 0 o.ivec)

/-- Every token that heads the results leaves; `n` bounds them. -/
def State.mpDrain (c : CellId) : Nat → State → State
  | 0, s => s
  | n + 1, s => match (s.cell c).mp.outs with
    | o :: _ => if o.token then
        let s1 := s.mpEmit c
        if (s1.cell c).mp.outs.length < (s.cell c).mp.outs.length then State.mpDrain c n s1 else s1
      else s
    | [] => s

/-- A token put in its place among the results; it leaves at once where none is before it. -/
def State.mpToken (s : State) (c : CellId) (k : BitVec 3) (us : List Item) : State :=
  let mk (u : Item) : MpOut :=
    { slot := k, item := u, token := true, form := .record, va := 0, ivec := 0, heldBytes := [], parts := 0, got := [], poison := false,
      id := 0 }
  let s1 := s.modCell c (fun x => { x with mp := { x.mp with outs := x.mp.outs ++ us.map mk } })
  State.mpDrain c (s1.cell c).mp.outs.length s1

/-! ### Tokens (R203, R308, R309, R334) -/

/-- The release of the current phase as an ORDER entry. -/
def Memport.release (m : Memport) (c : CellId) : Word64 := (OrderEntry.mk c m.ph m.issued[m.ph.toNat]).word

/-- Close(PH) (R308). -/
def Memport.closePhase (m : Memport) : Memport :=
  { m with
    isOpen := m.isOpen.set m.ph.toNat false, closed := m.closed.set m.ph.toNat m.issued[m.ph.toNat], ph := m.ph + 1 }

/-- Whether a held store is released by an EOT at a node: it is of an invocation that the EOT ends, or, of none, that node's own (R203)
(DEDUCED, log entry 123). -/
def HeldStore.endsWith (h : HeldStore) (k : BitVec 3) (is : List Inv) : Bool := match h.inv with
  | some i => decide (i ∈ is) || (is.isEmpty && h.served.slot == k)
  | none => h.served.slot == k

/-- The held stores of the invocations that an EOT ends released, in the order of their first arrival, all tagged PH (R203, R308), with a
serial number above that of every atomic issued before (R204). -/
def State.releaseHeld (s : State) (c : CellId) (k : BitVec 3) (is : List Inv) : State :=
  let m := (s.cell c).mp
  let (n, s0) := s.freshNat
  let go := m.held.filter (fun h => h.endsWith k is)
  let reqs := go.map (fun h =>
    ({ src := .cell c, ph := m.ph, write := true, va := h.va, pa := (h.bytes.head?.map Prod.fst).getD 0, bytes := h.bytes,
       len := h.bytes.length, key := h.key, poison := h.poison, id := n, off := 0, inv := h.inv, served := some h.served,
       slack := s.slackOf c, since := (s.die c.die).harp.now, born := s.cyc } : SliceReq))
  { (s0.modCell c (fun x => { x with
      mp := { m.countWrite go.length with held := m.held.filter (fun h => !h.endsWith k is) } })).countFlits c
        ((go.map (fun h => reqFlits h.bytes.length)).sum) with pend := s.pend ++ reqs }

/-- An aligned token at a memport node whose heads hold it at every position (R23, R203, R308, R334). It takes its place among the results;
the EOI begins the node's next invocation as it is consumed (R29). -/
def mpOnToken (s : State) (c : CellId) (k : BitVec 3) (x : Cell) (fn : MpFn) (used : List Nat) (ts : List (BitVec 6))
    (kind : BitVec 4) : State :=
  let toks := (used.filter (x.aligns k)).filterMap (x.valueAt k)
  match toks with
  | [] => s
  | first :: _ =>
    let u := first.withInvs (toks.flatMap Item.invs)
    if kind = kRetune then (if s.mpQuiet c then (s.consumeTokens c k used).mpToken c k [u] else s)
    else if kind = kOrder then
      let es := mergeEntries toks
      let m := x.mp
      let own := decide (0 < m.issued[m.ph.toNat]) && m.isOpen[m.ph.toNat]
      if (own && decide (7 ≤ es.length)) || decide (7 < es.length) then s.raiseFault c (faultAt 0x17 k (some u))
      else
        let es1 := if own then es ++ [m.release c] else es
        let m1 := if own then m.closePhase else m
        let s1 := (s.consumeTokens c k used).modCell c (fun y =>
          { y with mp := { m1 with acquires := m1.acquires ++ es.map orderOfWord, ordered := some ⟨k, u, 0⟩ } })
        s1.mpToken c k [(orderItem u.tag.nest es1 u.inv).withInvs u.invs]
    else if kind = kEot ∧ fn.writes then
      if !x.mp.mayWrite then s
      else
        let s1 := (s.consumeTokens c k used).releaseHeld c k u.invs
        if ts.all (fun t => targetOf t == .none) then s1.mpToken c k [u]
        else
          let m := (s1.cell c).mp
          let ord := (orderItem u.tag.nest [m.release c] u.inv).withInvs u.invs
          (s1.modCell c (fun y => { y with mp := m.closePhase })).mpToken c k [u, ord]
    else
      let s1 := s.consumeTokens c k used
      let s2 := if endKind kind then s1.modCell c (fun y => { y with mp := { y.mp with planeN := y.mp.planeN.set k.toNat 0 } }) else s1
      (if kind = kEoi then s2.beginInv c k u.invs else s2).mpToken c k [u]

/-- Whether position a of a memport node holds no value for now: a reading node at 64 reads outstanding, and an atomic one at 32 atomics in
flight (R202, R204). -/
def Memport.full (m : Memport) (fn : MpFn) : Bool := match fn with
  | .mrd | .mgat => decide (64 ≤ m.reads)
  | .mamo | .msct => decide (32 ≤ m.atoms.length)
  | .mwr => false

/-- Whether a memport node's local targets allow it to act: a latch is empty, or is one that this turn consumes, and no result of the node
is still on its way to it (R21, R164). -/
def Cell.mpFree (x : Cell) (k : BitVec 3) (used : List Nat) (ts : List (BitVec 6)) : Bool :=
  ts.all (fun t => x.targetFree k used t && (match targetOf t with
    | .latch _ _ => x.mp.outs.all (fun o => o.slot != k)
    | _ => true))

/-- A memport node's turn: its markers and tokens, or a firing over DATA. -/
def State.mpAct (s : State) (fn : MpFn) (base : List Nat) (a b : BitVec 6) (m : BitVec 2)
    (fire : CellId → BitVec 3 → Cell → Operands → State → State) : State :=
  let used := usedPos base m
  let ts := [a, b]
  s.atNode (fun c k x =>
    match x.headsBut k used (fun p => x.mp.full fn && p == posA) with
    | .wait => s
    | .misaligned => s.alignFault c k used
    | .badKind p => s.tokenFault c k p
    | .gap p => match x.valueAt k p with
      | none => s
      | some u => if !x.mpFree k [p] ts then s
        else if p = posA then (s.consume c k [p]).mpToken c k [u]
        else s.forwardGap c k ts p
    | .token kind => if x.mpFree k (used.filter (x.aligns k)) ts then mpOnToken s c k x fn used ts kind else s
    | .data => if x.mpFree k used ts then fire c k x (x.operands k used) s else s)

/-! ### Reads (R201, R202) -/

/-- Whether a unit's form suits every outlet target: no record onto a CIRC link, no vector onto a ROUTE or TEE (R201). -/
def suits (x : Cell) (ts : List (BitVec 6)) (vec : Bool) : Bool :=
  ts.all (fun t => match targetOf t with
    | .outlet o => match (x.active.route o).bind Prod.snd with
      | some v => v == vec
      | none => true
    | _ => true)

/-- The held bytes of a memport in the lines of a range (R202). -/
def Memport.heldIn (m : Memport) (pa n : Nat) : List (Nat × Byte) :=
  (m.held.flatMap HeldStore.bytes).filter (fun p => decide (pa ≤ p.1 ∧ p.1 < pa + n))

/-- A fault of a memport node that serves an address record (R197, R391). -/
def State.mpNodeFault (s : State) (c : CellId) (k : BitVec 3) (code : Nat) (u : Item) (ivec : Word64) : State :=
  s.raiseFault c { faultAt code k (some u) with ivec := ivec }

/-- A read issued: its place among the results, and its request to the slice, one for each page. -/
def State.mpRead (s : State) (c : CellId) (k : BitVec 3) (used : List Nat) (u : Item) (form : ReadForm) (va ivec : Word64)
    (xs : List (Nat × Nat × Xlated)) : State :=
  let (id, s0) := s.freshNat
  let is := (s.cell c).invsAt k used
  let s1 := s0.consume c k used
  let m := (s1.cell c).mp
  let v := u.withInvs is
  let o : MpOut :=
    { slot := k, item := v, token := false, form := form, va := va, ivec := ivec,
      heldBytes := xs.flatMap (fun x => m.heldIn x.2.2.pa x.2.1), parts := xs.length, got := [], poison := false, id := id }
  let req (x : Nat × Nat × Xlated) : SliceReq :=
    { src := .cell c, ph := 0, write := false, va := va + BitVec.ofNat 64 x.1, pa := x.2.2.pa, bytes := [], len := x.2.1, key := x.2.2.key,
      poison := false, id := id, off := x.1, inv := v.inv, served := some ⟨k, v, ivec⟩,
      slack := s.slackOf c, since := (s.die c.die).harp.now, born := s.cyc }
  { (s1.modCell c (fun y => { y with mp := { y.mp with outs := y.mp.outs ++ [o] } })).countFlits c xs.length with
    pend := s1.pend ++ xs.map req }

/-- A read of `n` bytes at an address aligned to `al`, or its fault. -/
def State.mpTryRead (s : State) (c : CellId) (k : BitVec 3) (used : List Nat) (u : Item) (form : ReadForm) (va ivec : Word64)
    (n al : Nat) (peerOk : Bool) : State :=
  if va.toNat % al ≠ 0 then s.raiseFault c (mpFault 0x0A k u va 0 ivec)
  else match s.xlateSpan c .r peerOk va n with
    | (.error f, s1) => s.mpMiss s1 c f.1 (mpFault f.1.code k u f.2 0 ivec)
    | (.ok xs, s1) => s1.mpRead c k used u form va ivec xs

/-- Whether a read may be issued now: fewer than 64 are outstanding, and every release acquired is complete (R202, R308). -/
def Memport.mayRead (m : Memport) : Bool := decide (m.reads < 64) && m.acquires.isEmpty

/-- `MRD` (R201). SP24 of a format that is neither 8 nor 16 bits wide is a parameter fault (DESIGN CHOICE, log entry 124). -/
def execMrd (a b : BitVec 6) (m : BitVec 2) (_o : BitVec 8) (s : State) : Result :=
  let used := usedPos [posA] m
  .next (s.mpAct .mrd [posA] a b m (fun c k x ops s =>
    match ops.a with
    | none => s
    | some u =>
      let p := x.mpPar k
      let va := bits u.v0 0 64
      let ivec := bits u.v0 64 64
      let f := s.resultFmt c k
      if !x.mp.mayRead then s
      else if p.unit = 3 ∨ (p.sp24 = true ∧ (p.unit ≠ 1 ∨ (f.laneBits ≠ 8 ∧ f.laneBits ≠ 16)))
          ∨ (p.unit = 1 ∧ f.isSd = true ∧ ¬(2 ≤ p.planes ∧ p.planes ≤ 8)) ∨ suits x [a, b] (p.unit != 0) = false then
        s.mpNodeFault c k 0x05 u ivec
      else match p.unit with
        | 0 => s.mpTryRead c k used u .record va ivec 64 64 true
        | 1 =>
          let n := x.mp.planeN[k.toNat]
          let planes := if f.isSd then p.planes else 0
          let plane := if f.isSd then 1 + n % p.planes else 0
          let s1 := s.mpTryRead c k used u (.row f p.scale planes plane p.sp24) va ivec (if p.sp24 then 64 else 96)
            (if p.sp24 then 64 else 32) false
          if (s1.cell c).mp.outs.length = x.mp.outs.length then s1
          else s1.modCell c (fun y => { y with mp := { y.mp with planeN := y.mp.planeN.set k.toNat (n + 1) } })
        | _ => s.mpTryRead c k used u .image va ivec 128 128 false))

/-- `MGAT` (R201). A `kv` record has no IVEC: a fault reports 0 (DESIGN CHOICE, log entry 125). -/
def execMgat (a b : BitVec 6) (m : BitVec 2) (_o : BitVec 8) (s : State) : Result :=
  let used := usedPos [posA] m
  .next (s.mpAct .mgat [posA] a b m (fun c k x ops s =>
    match ops.a with
    | none => s
    | some u =>
      let p := x.mpPar k
      if !x.mp.mayRead then s
      else if 2 ≤ p.unit ∨ (p.sp24 = true ∧ p.unit ≠ 1) ∨ suits x [a, b] false = false then s.mpNodeFault c k 0x05 u 0
      else if p.unit = 0 then s.mpTryRead c k used u .record u.key 0 64 64 false
      else
        let n := if p.w64 then 8 else 4
        s.mpTryRead c k used u (.word p.w64) u.key 0 n n false))

/-! ### Stores (R201, R203, R207) -/

/-- Whether `x` is larger in magnitude than `y`: a NaN is larger than every number (R207). -/
def largerMag (f : Fmt) (x y : Nat) : Bool :=
  let u := (f.read x).abs
  let v := (f.read y).abs
  if v.isNan then false else u.isNan || v.lt u

/-- The offsets of the two lanes of a group that compaction keeps; on a tie the lower lane is kept. -/
def keepTwo (f : Fmt) (ls : List Nat) : Nat × Nat :=
  let wins (i j : Nat) : Bool :=
    let x := ls.getD i 0
    let y := ls.getD j 0
    if i < j then !largerMag f y x else largerMag f x y
  let kept := (List.range 4).filter (fun i => decide (2 ≤ ((List.range 4).filter (fun j => i ≠ j && wins i j)).length))
  (kept.headD 0, (kept.drop 1).headD 1)

/-- The 64 bytes of a compressed row, each with whether a lane mask lets it be written (R18, R201, R207). -/
def compact24 (f : Fmt) (mask : Nat → Bool) (row : Nat) : List (Byte × Bool) :=
  let w := f.laneBits
  let groups := 768 / w / 4
  let ks := (List.range groups).map (fun g => keepTwo f ((List.range 4).map (fun i => laneAt w row (4 * g + i))))
  let vals := ks.mapIdx (fun g p => [4 * g + p.1, 4 * g + p.2])
  let lanes24 := vals.flatten
  let n := packLanes w (lanes24.map (laneAt w row)) + packLanes 4 (ks.map (fun p => p.1 + 4 * p.2)) * 2 ^ 384
  (natToBytes 64 n).mapIdx (fun i b => (b, if i < 48 then mask (lanes24.getD (i * 8 / w) 0) else true))

/-- The bytes of a unit, each with whether a lane mask lets it be written: a byte is written where it holds a bit of a selected
lane (DEDUCED, log entry 34). -/
def maskedBytes (w n : Nat) (mask : Nat → Bool) (v : Nat) : List (Byte × Bool) :=
  (natToBytes n v).mapIdx (fun i b =>
    (b, (List.range ((8 * i + 7) / w - 8 * i / w + 1)).any (fun j => mask (8 * i / w + j))))

/-- A store put into the held-store buffer: its bytes replace those held already, in the place of a store of its own invocation, or as bytes
of its own that the other store no longer holds (DEDUCED, log entry 123). A store that only replaces bytes takes no place
(DESIGN CHOICE, log entry 126). -/
def Memport.hold (m : Memport) (h : HeldStore) : Memport :=
  let same (x : HeldStore) : Bool := x.inv == h.inv && (x.inv.isSome || x.served.slot == h.served.slot)
  let addrs := (m.held.filter same).flatMap (fun x => x.bytes.map Prod.fst)
  let heldBytes (x : HeldStore) : HeldStore :=
    if same x && x.bytes.any (fun p => (aget h.bytes p.1).isSome) then
      { x with
        bytes := x.bytes.map (fun p => (p.1, (aget h.bytes p.1).getD p.2)),
        poison := h.poison || (x.poison && !x.bytes.all (fun p => (aget h.bytes p.1).isSome)) }
    else { x with bytes := x.bytes.filter (fun p => (aget h.bytes p.1).isNone) }
  let fresh := h.bytes.filter (fun p => p.1 ∉ addrs)
  { m with held := (m.held.map heldBytes).filter (fun x => !x.bytes.isEmpty) ++ (if fresh.isEmpty then [] else [{ h with bytes := fresh }]) }

/-- The places taken: a record one, a vector row or image two, of 512 (R203) (DESIGN CHOICE, log entry 126). -/
def Memport.heldSize (m : Memport) : Nat := (m.held.map HeldStore.places).sum

/-- `MWR` (R201, R203): translated as it enters the buffer (R331). A mask covers the bytes of lanes alone: the scale word, the descriptor and
the zeros of an image, and the index bytes of a compressed row, are written whatever it says (DESIGN CHOICE, log entry 127)
(DEDUCED, log entry 34) (DEDUCED, log entry 123). -/
def execMwr (a b : BitVec 6) (m : BitVec 2) (_o : BitVec 8) (s : State) : Result :=
  let used := usedPos [posA, posB] m
  .next (s.mpAct .mwr [posA, posB] a b m (fun c k x ops s =>
    match ops.a, ops.b with
    | some u, some d =>
      let p := x.mpPar k
      let va := bits u.v0 0 64
      let ivec := bits u.v0 64 64
      let f := s.fmtAt 64 c k (some posB)
      let w := f.laneBits
      let mask := maskBit ops.p
      if p.unit = 3 ∨ (p.sp24 = true ∧ (p.unit ≠ 1 ∨ (w ≠ 8 ∧ w ≠ 16))) ∨ d.v1.isSome ≠ (p.unit != 0) then
        s.mpNodeFault c k 0x05 u ivec
      else if d.v1.isSome && vectorBad f d then s.mpNodeFault c k 0x06 d ivec
      else
        let al := if p.unit = 0 then 64 else if p.unit = 1 then (if p.sp24 then 64 else 32) else 128
        let bs : List (Byte × Bool) :=
          if p.unit = 0 then maskedBytes w 64 mask d.v0.toNat
          else if p.unit = 1 then (if p.sp24 then compact24 f mask d.row else maskedBytes w 96 mask d.row)
          else maskedBytes w 96 mask d.row ++ (natToBytes 32 (d.scale.toNat + d.desc.toNat * 2 ^ 32)).map (fun z => (z, true))
        if va.toNat % al ≠ 0 then s.raiseFault c (mpFault 0x0A k u va 1 ivec)
        else match s.xlateSpan c .w (p.unit == 0) va bs.length with
          | (.error e, s1) => s.mpMiss s1 c e.1 (mpFault e.1.code k u e.2 1 ivec)
          | (.ok ys, s1) =>
            let v := u.withInvs (x.invsAt k used)
            let part (y : Nat × Nat × Xlated) : HeldStore :=
              { bytes := (((bs.drop y.1).take y.2.1).mapIdx (fun i z => (y.2.2.pa + i, z))).filterMap
                  (fun z => if z.2.2 then some (z.1, z.2.1) else none),
                key := y.2.2.key, poison := hasFlag d.tag.flags fPoison,
                places := if y.1 ≠ 0 then 0 else if p.unit = 0 then 1 else 2, va := va + BitVec.ofNat 64 y.1, inv := v.inv,
                served := ⟨k, v, ivec⟩ }
            let m1 := ys.foldl (fun q y => q.hold (part y)) (s1.cell c).mp
            if 512 < m1.heldSize then s1.raiseFault c (mpFault 0x0E k u va 1 ivec)
            else (s1.consume c k used).modCell c (fun z => { z with mp := m1 })
    | _, _ => s))

/-! ### Atomics and the scatter journal (R204, R205) -/

/-- What the journal of an invocation makes of an update: no journal free, an overflow, a mismatch, or whether it is skipped, its index, and
the journals after it. -/
inductive JournalStep where
  | wait
  | overflow
  | mismatch
  | go (skip : Bool) (idx : Nat) (js : List Journal)
  deriving DecidableEq, Repr

/-- The CRC-32C of a journal over some addresses, in the order of their indices (R205). -/
def journalCrc (as : List Word64) : Nat := as.foldl (fun c a => crcBytes c (natToBytes 8 a.toNat)) 0xFFFFFFFF

/-- The update at an address takes the next index of its invocation; one of no invocation needs no journal. On a rerun, an index whose bit is
set is skipped, and at the last of them the CRCs are compared: the journal's, over the addresses of the updates applied, with that over the rerun's
addresses at the same indices (DEDUCED, log entries 36, 128). -/
def journalStep (js : List Journal) (inv : Option Inv) (va : Word64) : JournalStep :=
  if inv.isNone then .go false 0 js
  else
    let found := js.find? (fun j => j.inv = inv)
    if found.isNone && decide (8 ≤ js.length) then .wait
    else
      let j := found.getD { inv := inv, bits := [], next := 0, again := [], rerun := false }
      if 4096 ≤ j.next then .overflow
      else
        let skip := j.rerun && j.bits.any (fun p => p.1 == j.next)
        let again := if j.rerun then j.again ++ [va] else j.again
        let isLast := skip && j.bits.all (fun p => decide (p.1 ≤ j.next))
        if isLast && journalCrc (j.bits.map (fun p => again.getD p.1 0)) != journalCrc (j.bits.map Prod.snd) then .mismatch
        else .go skip j.next (js.filter (fun j => j.inv ≠ inv) ++ [{ j with next := j.next + 1, again := again }])

/-- An entry put at its place among rising indices. -/
def insertIdx (p : Nat × Word64) : List (Nat × Word64) → List (Nat × Word64)
  | [] => [p]
  | q :: qs => if p.1 < q.1 then p :: q :: qs else q :: insertIdx p qs

/-- The bit of an update set: it has been applied (R205) (DEDUCED, log entry 128). -/
def Memport.applied (m : Memport) (t : AtomReq) : Memport :=
  { m with journals := m.journals.map (fun j => if j.inv = t.inv ∧ t.inv.isSome then { j with bits := insertIdx (t.idx, t.va) j.bits } else j) }

/-- An update that has been counted in a phase and is lost to a fault, not applied: it is no write (R306) (DEDUCED, log entry 128). -/
def Memport.uncount (m : Memport) (t : AtomReq) : Memport :=
  if t.skip then m
  else if m.isOpen[t.ph.toNat] then { m with issued := m.issued.set t.ph.toNat (m.issued[t.ph.toNat] - 1) }
  else { m with closed := m.closed.set t.ph.toNat (m.closed[t.ph.toNat] - 1) }

/-- A `mamo` or `msct` firing over an address and an operand (R204, R205). The read half of a `mamo` waits for the releases acquired (R308). -/
def State.mpAtomic (s : State) (c : CellId) (k : BitVec 3) (used : List Nat) (u : Item) (p : MpPar) (fetches ret : Bool)
    (va ivec operand : Word64) : State :=
  let m := (s.cell c).mp
  let al := if p.w64 then 8 else 4
  if p.unit ≠ 0 ∨ 9 < p.op.toNat ∨ (p.op.toNat = 9 ∧ p.w64 = true) ∨ p.sp24 = true then s.mpNodeFault c k 0x05 u ivec
  else if 32 ≤ m.atoms.length || !m.mayWrite || (fetches && !m.acquires.isEmpty) then s
  else if va.toNat % al ≠ 0 then s.raiseFault c (mpFault 0x0A k u va 2 ivec)
  else match s.xlateMp c .rw false va with
    | (.error e, s1) => s.mpMiss s1 c e (mpFault e.code k u va 2 ivec)
    | (.ok y, s1) =>
      let v := u.withInvs ((s.cell c).invsAt k used)
      if m.atoms.any (fun t => t.pa / 8 = y.pa / 8) then s
      else match journalStep m.journals v.inv va with
        | .wait => s
        | .overflow => s1.raiseFault c (mpFault 0x10 k u va 2 ivec)
        | .mismatch => s1.raiseFault c (mpFault 0x0F k u va 2 ivec)
        | .go skip idx js =>
          let (id, s2) := s1.freshNat
          let s3 := s2.consume c k used
          let t : AtomReq :=
            { slot := k, item := v, va := va, ivec := ivec, inv := v.inv, idx := idx, pa := y.pa, key := y.key, op := p.op, w64 := p.w64,
              operand := operand, ret := ret, skip := skip, ph := m.ph, id := id, slack := s.slackOf c, since := (s.die c.die).harp.now,
              born := s.cyc }
          let o : MpOut :=
            { slot := k, item := v, token := false, form := .old p.w64, va := va, ivec := ivec, heldBytes := [], parts := 1, got := [],
              poison := false, id := id }
          (s3.countFlits c (if skip && !ret then 0 else 1)).modCell c (fun z =>
            let m1 := { z.mp with
              journals := js, atoms := if skip && !ret then z.mp.atoms else z.mp.atoms ++ [t],
              outs := if ret then z.mp.outs ++ [o] else z.mp.outs }
            { z with mp := if skip then m1 else m1.countWrite 1 })

/-- `MAMO` (R201, R204): the operand is lane 0 of b at the word's width. -/
def execMamo (a b : BitVec 6) (m : BitVec 2) (_o : BitVec 8) (s : State) : Result :=
  let used := usedPos [posA, posB] m
  .next (s.mpAct .mamo [posA, posB] a b m (fun c k x ops s =>
    match ops.a, ops.b with
    | some u, some d =>
      let p := x.mpPar k
      s.mpAtomic c k used u p true p.ret (bits u.v0 0 64) (bits u.v0 64 64) (bits d.v0 0 64)
    | _, _ => s))

/-- `MSCT` (R201, R204): the operand is the value, or second:value under W64 (DEDUCED, log entry 36). A `kv` record has no IVEC: a fault
reports 0 (DESIGN CHOICE, log entry 125). -/
def execMsct (a b : BitVec 6) (m : BitVec 2) (_o : BitVec 8) (s : State) : Result :=
  let used := usedPos [posA] m
  .next (s.mpAct .msct [posA] a b m (fun c k x ops s =>
    match ops.a with
    | none => s
    | some u =>
      let p := x.mpPar k
      s.mpAtomic c k used u p false false u.key 0 (u.second ++ u.value)))

/-! ### The events of a memport -/

/-- The fault of a poisoned word under an atomic (R403). -/
def AtomReq.poisonFault (t : AtomReq) : FaultReg := mpFault 0x0C t.slot t.item t.va 2 t.ivec

/-- The new value of a word under an atomic (R107, R200, R204): OP 9 adds in `f32`, under `.rne` with IEEE overflow. -/
def AtomReq.apply (t : AtomReq) (old : Nat) : Nat :=
  let w := if t.w64 then 64 else 32
  let op : Option AmoOp := match t.op.toNat with
    | 0 => some .swap
    | 1 => some .add
    | 2 => some .and
    | 3 => some .or
    | 4 => some .xor
    | 5 => some .min
    | 6 => some .max
    | 7 => some .minu
    | 8 => some .maxu
    | _ => none
  match op with
  | some op => op.apply w old t.operand.toNat
  | none => (FloatFmt.f32.conv .rne true ((FloatFmt.f32.read old).add .rne (FloatFmt.f32.read (t.operand.toNat % 2 ^ 32)))).code

/-- The bytes of an atomic's word. -/
def AtomReq.width (t : AtomReq) : Nat := if t.w64 then 8 else 4

/-- Whether atomic `k` of a memport may perform now: nothing that crosses the same bridges from it to the same slice is before it (R350). -/
def State.atomInOrder (s : State) (c : CellId) (k : Nat) (t : AtomReq) : Bool :=
  homeDie c.die t.pa == c.die
    || (((s.cell c).mp.atoms.take k).all (fun x => !(inStack x.pa && sliceOf x.pa == sliceOf t.pa))
      && s.pend.all (fun r => r.src != .cell c || decide (t.id ≤ r.id) || !(inStack r.pa && sliceOf r.pa == sliceOf t.pa)))

/-- A memport without its atomic `k`. -/
def State.dropAtom (s : State) (c : CellId) (k : Nat) (f : Memport → Memport) : State :=
  s.modCell c (fun x => { x with mp := f { x.mp with atoms := x.mp.atoms.eraseIdx k } })

/-- Atomic `k` of a memport, `t`, performed: its bit is set, and its result takes the old value. One that a rerun skips reads the word and
changes nothing (DEDUCED, log entry 128). On a poisoned word it is lost with an access fault, which drops the page's unpinned translations
(R329, R403). -/
def State.performAtom (s : State) (c : CellId) (k : Nat) (t : AtomReq) : State :=
  let n := t.width
  if (s.poisonIn t.pa n).isSome then
    ((s.dropAtom c k (fun q => q.uncount t)).dropPage c (s.ctxOfCell c) t.va).raiseFault c t.poisonFault
  else
    let old := s.numAt t.key t.pa n
    let s1 := if t.skip then s.dropAtom c k id
      else (s.dropAtom c k (fun q => q.applied t)).performWrite
        { src := .cell c, ph := t.ph, write := true, va := t.va, pa := t.pa, bytes := addressed t.pa (natToBytes n (t.apply old)),
          len := n, key := t.key, poison := false, id := 0, off := 0, inv := t.inv, served := none }
    let fill (o : MpOut) : MpOut := if o.id = t.id ∧ !o.token then { o with got := [(0, natToBytes n old)] } else o
    s1.modCell c (fun x => { x with mp := { x.mp with outs := x.mp.outs.map fill } })

/-- `ATOMIC_PERFORM` (R204, R205): atomic `k` in flight performs at its slice. One that has to cross a bridge waits for it, and is discarded
at one in FAULT (R351, R352) (DEDUCED, log entry 128). -/
def execAtomicPerform (c : CellId) (k : Nat) (s : State) : Result :=
  match (s.cell c).mp.atoms[k]? with
  | none => .next s
  | some t =>
    let path := s.pathTo c.die t.pa
    if path = .down ∨ !s.atomInOrder c k t then .next s
    else if path = .broken then
      .next ((s.dropAtom c k (fun q => q.uncount t)).raiseFault c (mpFault 0x19 t.slot t.item t.va 2 t.ivec))
    else .next ((s.settle (.cell c)).performAtom c k t)

/-- The die of a requester. -/
def ReqSrc.die : ReqSrc → BitVec 3
  | .seq q => seqDie q
  | .cell c => c.die

/-- The fault of a cell for a request of it that fails with a code (R351, R391, R402). -/
def SliceReq.fault (r : SliceReq) (code : Nat) : FaultReg :=
  let access : BitVec 2 := if r.write then 1 else 0
  match r.served with
  | some v => { mpFault code v.slot v.item r.va access v.ivec with inv := r.inv }
  | none => { FaultReg.ofCode code with access := access, addr := r.va, inv := r.inv }

/-- A request that its requester loses with a fault: it is discarded, and the fault is the requester's. An access fault drops the page's
unpinned translations (R329, R351, R361) (DEDUCED, log entry 103). -/
def State.loseReq (s : State) (r : SliceReq) (code : Nat) : State :=
  let s1 : State := { s with pend := s.pend.erase r }
  match r.src with
  | .seq q => s1.seqFault q code 0
  | .cell c =>
    (if code = 0x0C then s1.dropPage c (s1.ctxOfCell c) r.va else s1).raiseFault c (r.fault code)

/-- A result with the bytes that memory has answered to one part of its read, under the bytes held over them. -/
def MpOut.answer (o : MpOut) (r : SliceReq) (bs : List Byte) (poison : Bool) : MpOut :=
  if o.id = r.id ∧ !o.token then
    { o with got := o.got ++ [(r.off, overlay o.heldBytes r.pa bs)], poison := o.poison || poison }
  else o

/-- Whether a request may be performed now: no earlier one of its sequencer to a byte of it waits (R147), no atomic issued before a store was
released to a byte of it (R204), nor any that crosses the same bridges from the same source to the same slice (R350). -/
def State.inOrder (s : State) (k : Nat) (r : SliceReq) : Bool :=
  let far := homeDie r.src.die r.pa != r.src.die
  (s.pend.take k).all (fun x => x.src != r.src
    || ((match r.src with
        | .cell _ => true
        | .seq _ => !overlap x.pa x.len r.pa r.len)
      && !(far && inStack x.pa && sliceOf x.pa == sliceOf r.pa)))
  && (match r.src with
    | .seq _ => true
    | .cell c => (s.cell c).mp.atoms.all (fun t => decide (r.id ≤ t.id)
        || (!(r.write && overlap t.pa t.width r.pa r.len) && !(far && inStack t.pa && sliceOf t.pa == sliceOf r.pa))))

/-- The agent behind a request. -/
def ReqSrc.agent : ReqSrc → Agent
  | .seq q => .seq q
  | .cell c => .cell c

/-- `SLICE_ACCESS` (R305): request `k` performs at its slice. A read notes the bytes, or the poison of its lines; a request to a PEER
page is served by the peer (R361). A request toward another die waits for its bridges, and is discarded at one in FAULT (R351, R352).
Accesses of one sequencer to one location perform in program order (R147) (DESIGN CHOICE, log entry 13). The access, or one that an
instruction performs in its own step, may find a line whose ECC shows an error (R403) (DEDUCED, log entry 107). -/
def execSliceAccess (a : Nat × Option (Nat × ScrubResult)) (s0 : State) : Result :=
  let k := a.1
  let s := s0.eccFound a.2
  match s.pend[k]? with
  | none => .next s
  | some r =>
    let path := s.pathTo r.src.die r.pa
    if inPeer r.pa then .next (if s.peerKeeps r.src.die r.pa then s else s.loseReq r 0x0C)
    else if path = .down ∨ !s.inOrder k r then .next s
    else if path = .broken then .next (s.loseReq r 0x19)
    else
      let s1 := ({ s with pend := s.pend.eraseIdx k } : State).settle r.src.agent
      if r.write then .next (s1.performWrite r)
      else match r.src with
        | .seq _ => .next s1
        | .cell c =>
          let poison := (s1.poisonIn r.pa r.len).isSome
          .next (s1.modCell c (fun x => { x with
            mp := { x.mp with outs := x.mp.outs.map (fun o => o.answer r (s1.bytesAt r.key r.pa r.len) poison) } }))

/-- `MEMPORT_READ_RETURN` (R202): the first result leaves, if it is known, and the tokens behind it. In a FROZEN region (R390) and in a halted
row (R398) results still enter their queues. -/
def execMemportReadReturn (c : CellId) (s : State) : Result :=
  let s1 := s.mpEmit c
  .next (State.mpDrain c (s1.cell c).mp.outs.length s1)

/-- Whether slot `k` holds a memport node that a test picks, with a token of a kind at every head. -/
def Cell.mpHolds (x : Cell) (k : BitVec 3) (kind : BitVec 4) (pick : MpFn → Bool) : Bool := match x.word k with
  | none => false
  | some w => match mpFnOf w with
    | none => false
    | some fn =>
      let base := match fn with
        | .mwr | .mamo => [posA, posB]
        | _ => [posA]
      pick fn && x.heads k (usedPos base (bits w 8 2)) == .token kind

/-- `PHASE_OPEN` (R308, R348): the current phase opens once its earlier release is complete. -/
def execPhaseOpen (c : CellId) (s : State) : Result :=
  let m := (s.cell c).mp
  let p := m.ph.toNat
  if !m.isOpen[p] && decide (m.closed[p] ≤ m.acked[p]) then
    .next (s.modCell c (fun x => { x with mp := { m with
      isOpen := m.isOpen.set p true, issued := m.issued.set p 0, acked := m.acked.set p 0, closed := m.closed.set p 0 } }))
  else .next s

/-- Whether a LAST pulse may leave: a reading node's results have left; of a writing one, every held store and atomic of the invocation has
performed (R208). -/
def State.lastReady (s : State) (c : CellId) (p : Option Inv × BitVec 3 × Bool) : Bool :=
  !p.2.2 || (!(s.writesOf c).any (fun r => r.inv == p.1) && !(s.cell c).mp.atoms.any (fun t => t.inv == p.1)
    && !(s.cell c).mp.held.any (fun h => h.inv == p.1))

/-- `LAST_PULSE` (R208): the oldest LAST pulse that may leave. -/
def execLastPulse (c : CellId) (s : State) : Result :=
  let m := (s.cell c).mp
  match m.lastDue.find? (s.lastReady c) with
  | none => .next s
  | some p => .next ((s.modCell c (fun x => { x with mp := { m with lastDue := m.lastDue.erase p } })).sendPulse c p.2.1 3)

/-- `SLICE_COUNT_RETURN` (R306, R348): a slice's count of a source and phase goes to the source (DEDUCED, log entry 138). -/
def execSliceCountReturn (c : CountPlace) (ph : BitVec 2) (s : State) : Result :=
  match s.counts.find? (fun n => n.slice = c.slice ∧ n.src = c.cell ∧ n.ph = ph) with
  | none => .next s
  | some n => .next (s.returnCount n)

/-! ### Acquiring (R308, R310, R349) -/

/-- The releases that an acquirer awaits. -/
def State.acquiring (s : State) : Acquirer → List OrderEntry
  | .cell c => (s.cell c).mp.acquires
  | .seq q => (s.seq q).acq

/-- The die of an acquirer, and its region. -/
def acquirerDie : Acquirer → BitVec 3
  | .cell c => c.die
  | .seq q => seqDie q

def State.regionOfAcquirer (s : State) : Acquirer → Option Region
  | .cell c => s.regionOf c
  | .seq q => s.regionOfSeq q

/-- The slack that the query of an acquirer carries: that of the region of the ORDER token (R341). -/
def State.slackOfAcquirer (s : State) (a : Acquirer) : BitVec 12 := match s.regionOfAcquirer a with
  | some r => r.slack
  | none => 0xFFF

/-- The fault of a query of a memport, at the node and with the unit of the last ORDER that it met (R391). -/
def Memport.queryFault (m : Memport) (code : Nat) : FaultReg := match m.ordered with
  | some v => mpFault code v.slot v.item 0 0 v.ivec
  | none => FaultReg.ofCode code

/-- A fault at an acquirer for a query of it: a flit of it is discarded at a bridge, or no answer comes (R351, R402). -/
def State.acquirerFault (s : State) (code : Nat) : Acquirer → State
  | .cell c => s.raiseFault c ((s.cell c).mp.queryFault code)
  | .seq q => s.seqFault q code 0

/-- `ORDER_QUERY` (R349): the query for the `k`-th release of an acquirer leaves, once. At a bridge in FAULT it is discarded (R351). -/
def execOrderQuery (a : Acquirer) (k : Nat) (s : State) : Result :=
  match (s.acquiring a)[k]? with
  | none => .next s
  | some e =>
    if s.queries.any (fun q => q.who == a && q.entry == e) then .next s
    else if s.pathDies (acquirerDie a) e.src.die = .broken then .next (s.acquirerFault 0x19 a)
    else
      let s1 := match a with
        | .cell c => s.countFlits c 1
        | .seq _ => s
      .next { s1 with queries := s.queries ++
        [{ who := a, entry := e, slack := s.slackOfAcquirer a, since := (s.die (acquirerDie a)).harp.now, born := s.cyc }] }

/-- Whether the source of a release does not answer now: its region is FROZEN, or a saved region had its cell, unless the cell is the
acquirer's own region's (R349) (DESIGN CHOICE, log entry 70). -/
def State.answersLater (s : State) (who : Acquirer) (c : CellId) : Bool :=
  let saved := s.regions.any (fun r => r.kstate == .saved && r.hasCell c)
  match s.regionOf c with
  | some r => r.kstate == .frozen || (saved && ((s.regionOfAcquirer who).map (fun a => a.serial != r.serial)).getD true)
  | none => saved

/-- Whether a release is complete at its source: its phase is open again, or the slices have performed its writes (R349)
(DESIGN CHOICE, log entry 70). -/
def State.releaseDone (s : State) (q : Query) : Bool :=
  let m := (s.cell q.entry.src).mp
  !s.answersLater q.who q.entry.src && (m.isOpen[q.entry.ph.toNat] || decide (q.entry.count ≤ m.acked[q.entry.ph.toNat]))

/-- `ORDER_QUERY_ANSWER` (R349): query `k` is answered, and the release is complete for its acquirer. -/
def execOrderQueryAnswer (k : Nat) (s : State) : Result :=
  match s.queries[k]? with
  | none => .next s
  | some x =>
    let path := s.pathDies (acquirerDie x.who) x.entry.src.die
    if path = .broken then .next (({ s with queries := s.queries.eraseIdx k } : State).acquirerFault 0x19 x.who)
    else if !s.releaseDone x || path != .up then .next s
    else
      let s1 : State := { s with queries := s.queries.eraseIdx k }
      match x.who with
      | .cell c => .next (s1.modCell c (fun y => { y with mp := { y.mp with acquires := y.mp.acquires.erase x.entry } }))
      | .seq q => .next (s1.modSeq q (fun sq => { sq with acq := sq.acq.erase x.entry }))

end Sys2Proof.Machine
end

