-- ==== Sys2Proof/Machine/Load.lean ====
section
/-!
DEFINITION. The kernel image: block records and their checks at load, the checks over a whole region, and the controller tree
(R17, R20, R29, R57, R82, R89, R97, R113 to R115, R161, R172, R174, R210, R217, R228, R236, R260 to R268, R274, R282 to R284, R347,
R376, R446).
-/

namespace Sys2Proof.Machine

/-! ### Bytes of an image (R260, R261) -/

/-- The double-word at a byte offset; bytes past the end read as zero. -/
def dwAt (bs : List Byte) (off : Nat) : Nat := bytesToNat ((bs.drop off).take 8)

/-- Field [lo + n − 1 : lo] of a number. -/
def nfld (x lo n : Nat) : Nat := x / 2 ^ lo % 2 ^ n

/-- Whether every byte of a range is zero. -/
def zeroBytes (bs : List Byte) (off n : Nat) : Bool := ((bs.drop off).take n).all (· == 0)

/-- A length padded to a multiple of 8. -/
def pad8 (n : Nat) : Nat := (n + 7) / 8 * 8

/-- The numbers of the bits set in a mask of `n` bits, ascending. -/
def setBits (mask n : Nat) : List Nat := (List.range n).filter (fun i => mask.testBit i)

/-- A byte with the bits of some bit ranges (first bit, length) of its string read as zero; `i` is its place. -/
def maskByte (rs : List (Nat × Nat)) (i : Nat) (b : Byte) : Byte :=
  BitVec.ofNat 8 ((List.range 8).foldl (fun v j =>
    if rs.any (fun r => decide (r.1 ≤ 8 * i + j ∧ 8 * i + j < r.1 + r.2)) then v
    else v + (if b.getLsbD j then 2 ^ j else 0)) 0)

/-- CRC-32C of a string with some bit ranges read as zero (R261). -/
def crcWithout (rs : List (Nat × Nat)) (bs : List Byte) : Nat := crc32c (bs.mapIdx (maskByte rs))

/-! ### The status of a configuration (R273) -/

def CfgState.code : CfgState → BitVec 3
  | .empty => 0
  | .loading => 1
  | .staged => 2
  | .crcFail => 3
  | .fetchFault => 4
  | .rejected => 5
  | .flipping => 6

/-- The status word (DESIGN CHOICE, log entry 42). -/
def CfgStatus.word (c : CfgStatus) : Word64 :=
  (0 : BitVec 7) ++ c.fnode ++ c.fcell ++ (0 : BitVec 5) ++ c.cause ++ c.fby ++ c.fbx ++ (0 : BitVec 6) ++ c.loaded ++ c.issued
    ++ (0 : BitVec 3) ++ BitVec.ofBool c.sigFail ++ BitVec.ofBool c.epoch ++ c.state.code

/-- Why a record, or a configuration, is refused: the state and cause of R273, with a placed block, a cell and a slot. -/
structure LoadFail where
  state : CfgState
  cause : BitVec 3
  bx    : BitVec 4
  by_   : BitVec 4
  cell  : BitVec 6
  slot  : BitVec 3
  addr  : Word64
  held  : Bool := false
  deriving DecidableEq, Repr

def LoadFail.of (state : CfgState) (cause : BitVec 3) : LoadFail :=
  { state := state, cause := cause, bx := 0, by_ := 0, cell := 0, slot := 0, addr := 0 }

/-- A status that reports a failure. -/
def CfgStatus.fail (c : CfgStatus) (f : LoadFail) : CfgStatus :=
  { c with state := f.state, cause := f.cause, fbx := f.bx, fby := f.by_, fcell := f.cell, fnode := f.slot }

/-! ### Switch words (R89, R90, R114, R115) -/

/-- A link format of its code; 0xE and 0xF are reserved. -/
def fmtOfCode (n : Nat) : Option Fmt :=
  [Fmt.raw, .i8, .i32, .i64, .f32, .bf16, .f16, .e4m3, .e5m2, .sd2, .sd3, .sd4, .sdp, .kv][n]?

/-- The lane group of R89. -/
def laneGroup : Fmt → Nat
  | .raw => 0
  | .f32 | .i32 => 1
  | .bf16 | .f16 => 2
  | .i8 | .e4m3 | .e5m2 => 3
  | .i64 => 4
  | .kv => 5
  | .sd2 | .sd3 | .sd4 | .sdp => 6

/-- The extension word, or none where it is rejected (R89, R90). -/
def extOf (h : Nat) (dst : Fmt) : Option ExtWord :=
  match fmtOfCode (nfld h 12 4) with
  | none => none
  | some src =>
    let shift := BitVec.ofNat 8 h
    if src = .raw ∨ dst = .raw ∨ laneGroup src ≠ laneGroup dst ∨ 4 < nfld h 9 3 ∨ (src.isSd = true ∧ shift ≠ 0) then none
    else some { src := src, rnd := BitVec.ofNat 3 (nfld h 9 3), ieee := h.testBit 8, shift := shift }

/-- One switch word against those before it in the list, or none where it is rejected. -/
def swOf (done : List SwWord) (h : Nat) (ext : Option Nat) : Option SwWord :=
  match fmtOfCode (nfld h 0 4) with
  | none => none
  | some f =>
    let w : SwWord :=
      { typ := BitVec.ofNat 2 (nfld h 14 2), inlet := BitVec.ofNat 5 (nfld h 9 5), outlet := BitVec.ofNat 5 (nfld h 4 5), fmt := f,
        ext := none }
    let path := done.find? (fun v => v.typ ≠ 1 ∧ v.inlet = w.inlet)
    if done.any (fun v => v.outlet == w.outlet) then none
    else if w.typ = 1 then
      match path with
      | none => none
      | some v => if f.isSd ∨ v.fmt ≠ f then none else some w
    else if path.isSome ∨ (w.typ = 0 ∧ f.isSd = true) then none
    else match ext with
      | none => some w
      | some e => (extOf e f).map (fun x => { w with ext := some x })

/-- A list of switch halfwords decoded in order, or none where one is rejected (R115). -/
def swList : List SwWord → List Nat → Option (List SwWord)
  | done, [] => some done
  | done, h :: rest =>
    if nfld h 14 2 = 3 then
      match rest with
      | [] => none
      | e :: rest1 => match swOf done h (some e) with
        | none => none
        | some w => swList (done ++ [w]) rest1
    else match swOf done h none with
      | none => none
      | some w => swList (done ++ [w]) rest

/-! ### Block records (R262 to R264) -/

/-- The header of a block record. -/
structure RecHead where
  lbx   : BitVec 4
  lby   : BitVec 4
  pbx   : BitVec 4
  pby   : BitVec 4
  len   : Nat
  linkn : Nat
  mask  : Nat
  crc   : Nat
  deriving DecidableEq, Repr

/-- A record's header, or none where its MAGIC, reserved fields, LEN or LINKN break R262. -/
def recHead (bs : List Byte) : Option RecHead :=
  let a := dwAt bs 0
  if nfld a 0 16 ≠ 0x4B42 ∨ nfld a 32 16 = 0 ∨ 512 < nfld a 48 16 ∨ !zeroBytes bs 20 44 then none
  else some
    { lbx := BitVec.ofNat 4 (nfld a 16 4), lby := BitVec.ofNat 4 (nfld a 20 4), pbx := BitVec.ofNat 4 (nfld a 24 4),
      pby := BitVec.ofNat 4 (nfld a 28 4), len := nfld a 32 16, linkn := nfld a 48 16, mask := dwAt bs 8,
      crc := nfld (dwAt bs 16) 0 32 }

/-- A cell record as the walk finds it: its number, header, configuration but for the switch list, its switch halfwords, and the
offset of its pulse entries. -/
structure RawCell where
  n      : BitVec 6
  head   : Nat
  cf     : CellConfig
  sw     : List Nat
  pulseN : Nat
  pulseO : Nat
  deriving DecidableEq, Repr

/-- Entry `i` of the set bits of a mask: its place among them. -/
def placeOf (mask n i : Nat) : Option Nat := if mask.testBit i then some ((setBits mask n).filter (· < i)).length else none

/-- A pulse entry (R264). -/
def pulseOf (w : Nat) : PulseEntry :=
  { po := BitVec.ofNat 3 w, dx := BitVec.ofNat 4 (nfld w 4 4), dy := BitVec.ofNat 4 (nfld w 8 4), cell := BitVec.ofNat 6 (nfld w 12 6),
    pin := BitVec.ofNat 3 (nfld w 18 3), kind := BitVec.ofNat 2 (nfld w 21 2) }

/-- A link entry (R264): its source cell and the link. -/
def linkOf (w : Nat) : BitVec 6 × LinkEntry :=
  (BitVec.ofNat 6 w,
    { so := BitVec.ofNat 5 (nfld w 6 5), dx := BitVec.ofNat 4 (nfld w 11 4), dy := BitVec.ofNat 4 (nfld w 15 4),
      cell := BitVec.ofNat 6 (nfld w 19 6), dq := BitVec.ofNat 3 (nfld w 25 3) })

/-- The cell record at an offset, and the offset after it; none where it breaks R263 or passes the record's end. -/
def walkCell (bs : List Byte) (n off : Nat) : Option (RawCell × Nat) :=
  let h := dwAt bs off
  let nm := nfld h 16 8
  let qm := nfld h 24 8
  let pm := nfld h 32 16
  let swn := nfld h 48 7
  let pn := nfld h 55 4
  let words := (setBits nm 8).length
  let oN := off + 8
  let oB := oN + pad8 (4 * words)
  let oQ := oB + (if nm = 0 then 0 else 16)
  let oP := oQ + 24 * (setBits qm 8).length
  let oS := oP + 8 * (setBits pm 16).length
  let oU := oS + pad8 (2 * swn)
  let fin := oU + 8 * pn
  if bs.length < fin ∨ nfld h 0 6 ≠ n ∨ nfld h 11 5 ≠ 0 ∨ nfld h 59 5 ≠ 0 ∨ 64 < swn ∨ 8 < pn
      ∨ !zeroBytes bs (oN + 4 * words) (oB - (oN + 4 * words)) ∨ !zeroBytes bs (oS + 2 * swn) (oU - (oS + 2 * swn))
      ∨ (List.range pn).any (fun i => nfld (dwAt bs (oU + 8 * i)) 3 1 ≠ 0 || nfld (dwAt bs (oU + 8 * i)) 23 41 ≠ 0) then none
  else
    let bindAt (i : Nat) : Option (BitVec 3) :=
      let v := nfld (dwAt bs (oB + i / 16 * 8)) (4 * (i % 16)) 4
      if nm = 0 ∨ v < 8 then none else some (BitVec.ofNat 3 v)
    let q (i : Nat) : Option QCfg := (placeOf qm 8 i).map (fun j =>
      { qctl := BitVec.ofNat 64 (dwAt bs (oQ + 24 * j)), qpar := BitVec.ofNat 64 (dwAt bs (oQ + 24 * j + 8)),
        qring := BitVec.ofNat 64 (dwAt bs (oQ + 24 * j + 16)) })
    let cf : CellConfig :=
      { nodes := Vector.ofFn (fun i : Fin 8 => (placeOf nm 8 i).map (fun j => BitVec.ofNat 32 (dwAt bs (oN + 4 * j)))),
        bind := Vector.ofFn (fun i : Fin 32 => bindAt i), qcfg := Vector.ofFn (fun i : Fin 8 => q i),
        prm := Vector.ofFn (fun i : Fin 16 => BitVec.ofNat 64 (((placeOf pm 16 i).map (fun j => dwAt bs (oP + 8 * j))).getD 0)),
        sw := [], pulses := (List.range pn).map (fun i => pulseOf (dwAt bs (oU + 8 * i))), links := [], keep := h.testBit 10 }
    some ({ n := BitVec.ofNat 6 n, head := h, cf := cf, sw := (List.range swn).map (fun i => dwAt bs (oS + 2 * i) % 2 ^ 16),
            pulseN := pn, pulseO := oU }, fin)

/-- The cell records of a list of cell numbers, and the offset after them. -/
def walkCells (bs : List Byte) : List Nat → Nat → Option (List RawCell × Nat)
  | [], off => some ([], off)
  | n :: ns, off =>
    match walkCell bs n off with
    | none => none
    | some (c, off1) =>
      match walkCells bs ns off1 with
      | none => none
      | some (cs, off2) => some (c :: cs, off2)

/-- A record as the walk finds it: its cells, and its links with their source cells. `relocs` lists the bit ranges of R261. -/
structure BlockRec where
  head   : RecHead
  cells  : List RawCell
  links  : List (BitVec 6 × LinkEntry)
  relocs : List (Nat × Nat)
  deriving DecidableEq, Repr

/-- The walk of a record of LEN × 64 bytes, or none where it breaks R262 to R264. -/
def walkRec (h : RecHead) (bs : List Byte) : Option BlockRec :=
  match walkCells bs (setBits h.mask 64) 64 with
  | none => none
  | some (cs, off) =>
    let fin := off + 8 * h.linkn
    let ws := (List.range h.linkn).map (fun i => dwAt bs (off + 8 * i))
    if bs.length < fin ∨ ws.any (fun w => nfld w 28 36 ≠ 0) ∨ !zeroBytes bs fin (bs.length - fin) then none
    else some
      { head := h, cells := cs, links := ws.map linkOf,
        relocs := (24, 8) :: (List.range h.linkn).map (fun i => (8 * (off + 8 * i) + 11, 8))
          ++ cs.flatMap (fun c => (List.range c.pulseN).map (fun i => (8 * (c.pulseO + 8 * i) + 4, 8))) }

/-- Whether a record's CRC holds (R261). -/
def BlockRec.crcOk (r : BlockRec) (bs : List Byte) : Bool := crcWithout ((128, 32) :: r.relocs) bs == r.head.crc

/-- The configuration of every cell of a block (R263): a cell without a record has an empty one. The switch list of a record that
passes R115. -/
def BlockRec.config (r : BlockRec) (n : BitVec 6) : CellConfig :=
  let cf := match r.cells.find? (fun c => c.n = n) with
    | some c => { c.cf with sw := (swList [] c.sw).getD [] }
    | none => CellConfig.reset
  { cf with links := (r.links.filter (fun l => l.1 = n)).map Prod.snd }

/-! ### Formats over a set of configurations (R161, R228) -/

/-- Configurations of cells of a region; `whole` says that they are all that the region will hold, so that what fills no queue of
theirs is a port or nothing. -/
structure View where
  reg   : Region
  cells : List (CellId × CellConfig)
  whole : Bool
  deriving DecidableEq, Repr

def View.at (v : View) (c : CellId) : CellConfig := (aget v.cells c).getD CellConfig.reset

/-- The word of a slot. -/
def CellConfig.word (x : CellConfig) (k : BitVec 3) : Option Word32 := x.nodes[k.toNat]

def CellConfig.bindAt (x : CellConfig) (k p : Nat) : Option (BitVec 3) := (x.bind[4 * k + p]?).getD none

/-- The slot whose word names a target. -/
def CellConfig.targeting (x : CellConfig) (t : Target) : Option (BitVec 3) :=
  ((List.range 8).find? (fun j => match x.word (BitVec.ofNat 3 j) with
    | some w => decide (t ∈ x.reaches w)
    | none => false)).map (BitVec.ofNat 3)

/-- Who fills an inlet queue by a link entry: the source cell and outlet. -/
def View.feeder (v : View) (c : CellId) (q : BitVec 3) : Option (CellId × BitVec 5) :=
  v.cells.findSome? (fun p => (p.2.links.find? (fun l => l.dq = q ∧ v.reg.cellAt l.dx l.dy l.cell = c)).map (fun l => (p.1, l.so)))

/-- The format that a switch or EXT word names for the link that fills a queue, and whether that is a circuit. -/
def View.named (v : View) (c : CellId) (q : BitVec 3) : Option (Fmt × Option Bool) := match v.feeder c q with
  | none => none
  | some (src, so) => (v.at src).route so

/-- The format of a position of a node, or of its result where `p` is none, where the configurations fix one: a queue that no link
fills has that of a port, `raw` (R257) (DEDUCED, log entry 43). -/
def View.fmt (v : View) : Nat → CellId → BitVec 3 → Option Nat → Option Fmt
  | 0, _, _, _ => none
  | n + 1, c, k, some p =>
    let x := v.at c
    match x.bindAt k.toNat p with
    | some q =>
      match v.feeder c q with
      | none => if v.whole then some .raw else none
      | some (src, so) =>
        match (v.at src).route so with
        | some (f, _) => some f
        | none => match (v.at src).targeting (.outlet so) with
          | some j => v.fmt n src j none
          | none => none
    | none => match x.targeting (.latch k (BitVec.ofNat 2 p)) with
      | some j => v.fmt n c j none
      | none => none
  | n + 1, c, k, none =>
    match (v.at c).word k with
    | none => none
    | some w =>
      let named := (v.at c).resultRoute w
      let f := bits w 22 6
      match (bits w 28 4).toNat with
      | 0x0 => if f = 0x0D then some .raw else v.fmt n c k (some posA)
      | 0x2 | 0x5 => some .kv
      | 0x6 | 0x7 => some (named.getD .raw)
      | 0x9 => match (v.at c).kStep with
        | some (j, scaled) => (v.fmt n c j (some posA)).map (fun g => if !scaled && g == .i8 then .i32 else .f32)
        | none => some .f32
      | 0xA => some (if f = 4 then named.getD .sdp else .sdp)
      | 0xB => if f = 1 ∨ f = 4 then v.fmt n c k (some posA) else some (named.getD .raw)
      | _ => v.fmt n c k (some posA)

/-- Whether a function reads `kv` at a position. -/
def readsKv (w : Word32) (p : Nat) : Bool :=
  let f := (bits w 22 6).toNat
  match (bits w 28 4).toNat with
  | 0x2 => p == posA || p == posB
  | 0x5 => decide (f ≤ 3) && p == posA
  | 0x6 => (f == 3 || f == 4) && p == posA
  | _ => false

/-- The positions of a cell that a queue feeds: those bound to it, and in a matrix cell those bound to its bank (R210). -/
def CellConfig.readers (x : CellConfig) (n : BitVec 6) (q : BitVec 3) : List (BitVec 3 × Nat) :=
  let b := if cellKind n = .matrix then BitVec.ofNat 3 (q.toNat / 4 * 4) else q
  (List.range 32).filterMap (fun i =>
    if (x.bind[i]?).getD none = some b ∧ (x.word (BitVec.ofNat 3 (i / 4))).isSome then some (BitVec.ofNat 3 (i / 4), i % 4) else none)

/-- Whether a queue is a `kv` queue (R228). -/
def View.kvQueue (v : View) (c : CellId) (q : BitVec 3) : Bool :=
  let x := v.at c
  let pol (f : QCfg) (p : Nat) : Bool := (bits f.qctl 26 3).toNat == p || (bits f.qctl 29 3).toNat == p
  let wants := (x.readers c.n q).any (fun r => ((x.word r.1).map (fun w => readsKv w r.2)).getD false)
    || ((x.qcfg[q.toNat]).map (fun f => pol f 4 || pol f 5)).getD false
  match v.named c q with
  | some (f, _) => if f = .kv then true else if f = .raw then wants else false
  | none => wants

/-- Whether a circuit fills a queue. -/
def View.circQueue (v : View) (c : CellId) (q : BitVec 3) : Bool := ((v.named c q).map (fun f => f.2 == some true)).getD false

/-! ### The cell store (R228, R446) -/

/-- The store that a cell's functions use; `logn` is that of the table it holds. -/
def View.functionStore (v : View) (c : CellId) (logn : Nat) : Nat :=
  let x := v.at c
  let slots := setBits 255 8
  let prm (w : Word32) : Nat := ((x.prm[(bits w 0 4).toNat]?).getD 0).toNat
  let unit (k : Nat) : Nat := match x.bindAt k posA with
    | some q => if v.circQueue c q then 144 else 72
    | none => 72
  let node (k : Nat) : Nat := match x.word (BitVec.ofNat 3 k) with
    | none => 0
    | some w =>
      let f := (bits w 22 6).toNat
      match (bits w 28 4).toNat with
      | 0x2 => if f = 0 ∨ f = 4 then 6144 else 0
      | 0x4 => 2 ^ min (prm w % 16) 9 * unit k
      | 0x8 =>
        let inRange (a hi : Nat) : Nat := if 1 ≤ a ∧ a ≤ hi then a else hi
        let h := inRange (prm w % 256) 64
        let d := inRange (nfld (prm w) 16 8) 16
        min ((h - 1) * d + 1) 256 * unit k
      | 0xA => 4096
      | 0xB => if f = 2 then 144 else 0
      | _ => 0
  let any := slots.any (fun k => (x.word (BitVec.ofNat 3 k)).isSome)
  let cell : Nat := if !any then 0 else match cellKind c.n with
    | .memport => 41984
    | .matrix => 1024
    | .accum =>
      let geo := slots.findSome? (fun k => match x.word (BitVec.ofNat 3 k) with
        | some w => if bits w 28 4 == 5 && decide ((bits w 22 6).toNat ≤ 3) then some (prm w % 16) else none
        | none => none)
      let n := match geo with
        | some n => if 6 ≤ n ∧ n ≤ 10 then n else 10
        | none => logn
      2 ^ n * 16 + 12288
    | _ => 0
  cell + (slots.map node).sum

/-- The footprint of a cell's queues: the least that it may be, where a queue's link is not known yet. -/
def View.queueStore (v : View) (c : CellId) : Nat :=
  ((List.range 8).map (fun i => match (v.at c).qcfg[i]?.getD none with
    | none => 0
    | some f =>
      let q := BitVec.ofNat 3 i
      let kv := v.kvQueue c q || (!v.whole && (v.feeder c q).isNone)
      2 ^ (bits f.qctl 0 4).toNat * (if kv then 24 else 72) + 576)).sum

/-! ### What a cell rejects -/

/-- The positions that a loaded word uses (R19). -/
def wordUses (w : Word32) : List Nat :=
  let f := (bits w 22 6).toNat
  let base := match (bits w 28 4).toNat with
    | 0x0 => if f = 6 ∨ f = 7 ∨ f = 0x0F then [posA] else if f = 0x0E then [posA, posB, posP] else [posA, posB]
    | 0x1 => if f = 1 then [posA, posB, posC] else [posA]
    | 0x2 => [posA, posB]
    | 0x3 => if f = 0 then [posA, posP] else [posA]
    | 0x4 => if f = 1 then [posA, posC] else [posA]
    | 0x5 => if f ≤ 3 then [posA] else [posC]
    | 0x6 => if f = 1 ∨ f = 2 then [posA, posB] else [posA]
    | 0x7 => if f = 0 then [] else if f = 1 then [posA] else [posC]
    | 0x8 => [posA]
    | 0x9 => if f ≤ 1 then [posA, posB] else [posC]
    | 0xA => if f = 2 then [posA, posB, posC] else if f ≤ 1 then [posA, posB] else [posA]
    | _ => [posA]
  usedPos base (bits w 8 2)

/-- Whether a function takes a format at its data positions, as its table lists them (R161, R167, R188, R189, R201, R210). A `raw` link
joins a queue whose function takes `kv` alone (R89, R317) (DEDUCED, log entry 43). -/
def takesFmt (w : Word32) (f : Fmt) : Bool :=
  let fn := (bits w 22 6).toNat
  match (bits w 28 4).toNat with
  | 0x0 =>
    if fn = 8 ∨ fn = 9 ∨ fn = 10 ∨ fn = 14 then !f.isSd
    else if fn = 11 ∨ fn = 12 then f == .i8 || f == .i32 || f == .i64
    else !f.isSd && f != .e4m3 && f != .e5m2 && f != .kv && f != .raw
  | 0x2 => f == .kv || f == .raw
  | 0x5 => decide (3 < fn) || f == .kv || f == .raw
  | 0x6 => decide (fn < 3) || f == .kv || f == .raw
  | 0x9 => decide (1 < fn) || f.isSd || f == .e4m3 || f == .e5m2 || f == .i8 || f == .bf16 || f == .f16
  | 0xA => f.isSd || (fn == 4 && (f == .i8 || f == .e4m3 || f == .e5m2 || f == .bf16 || f == .f16))
  | 0xB => f != .raw && (if fn = 4 then f != .kv else f != .kv && (!f.isSd || fn == 1))
  | _ => true

/-- Whether two data positions may carry two formats (R161, R201, R210) (DEDUCED, log entry 43). -/
def sameFmt (kind : CellKind) (f g : Fmt) : Bool :=
  f == g || kind == .memport || kind == .join || (kind == .matrix && (f == .e4m3 || f == .e5m2) && (g == .e4m3 || g == .e5m2)) || (f.isSd && g.isSd && kind == .online)

/-- Whether the lane counts of a convert function's source and result are those of its condition at load (R189): `vin` and `vout` say that
they are vectors, where that is fixed. -/
def convertShape (fn : Nat) (src dst : Fmt) (vin vout : Option Bool) : Bool :=
  let l (f : Fmt) (v : Option Bool) : Nat := if v = some true then f.rowLanes else f.recLanes
  let ratio (a b : Nat) : Bool := a % b == 0 && decide (2 ≤ a / b)
  let lanesOk (f : Fmt) : Bool := !f.isSd && f != .raw && f != .kv
  match fn with
  | 0 => lanesOk dst && vin != some true && vout != some true && decide (src.recLanes ≤ dst.recLanes)
  | 2 => lanesOk dst && vin != some true && ratio (l dst vout) src.recLanes
  | 3 => lanesOk dst && vout != some true && ratio (l src vin) dst.recLanes && !(src.float.isSome && dst.int.isSome)
  | _ => true

/-- Whether a slot's word, bindings, targets and formats are ones that its cell accepts. A `raw` result joins any link, one whose EXT word names
another format in FROM included: R89 has `raw` join with no conversion, and wants FROM to name the upstream format (DEDUCED, log entry 43). -/
def View.nodeOk (v : View) (c : CellId) (k : BitVec 3) : Bool :=
  let x := v.at c
  match x.word k with
  | none => true
  | some w =>
    let kind := cellKind c.n
    let fn := (bits w 22 6).toNat
    let data := ([posA, posB] ++ (if kind == .online then [posC] else [])).filter (fun p => p ∈ wordUses w)
    let fmts := data.filterMap (fun p => v.fmt 64 c k (some p))
    let shape (p : Nat) : Option Bool := match x.bindAt k.toNat p with
      | some q => (v.named c q).bind Prod.snd
      | none => none
    let targets := wordTargets w
    let taken (t : Target) : Bool := match t with
      | .latch j p =>
        (x.bindAt j.toNat p.toNat).isSome || (x.word j).isNone
          || (List.range 8).any (fun i => decide (BitVec.ofNat 3 i ≠ k) && (match x.word (BitVec.ofNat 3 i) with
              | some y => decide (t ∈ wordTargets y)
              | none => false))
      | _ => false
    let circKv (so : BitVec 5) : Bool :=
      (kind == .copy || kind == .steer || kind == .reorder) && shape posA == some true
        && x.sw.any (fun y => y.outlet == so && (y.ext.map (fun e => e.src == .kv)).getD false)
    let carries (t : Target) : Bool := match t, v.fmt 64 c k none with
      | .outlet so, some f => !circKv so && (match x.putFmt so with
        | some g => g == f || g == .raw || f == .raw
        | none => true)
      | _, _ => true
    let out : Option Bool := targets.findSome? (fun t => match t with
      | .outlet so => (x.route so).bind Prod.snd
      | _ => none)
    let banks := ([0, 1, 2, 3] : List Nat).all (fun i =>
      ([0, 4] : List Nat).all (fun b => match v.named c (BitVec.ofNat 3 (b + i)), v.fmt 64 c k (some (if b = 0 then posA else posB)) with
        | some (f, vec), some g => f == g && vec != some false
        | _, _ => true))
    let decoded := match decodeNode w.toNat with
      | .ok i => i.wf
      | .error _ => false
    decoded && (bits w 28 4).toNat == (match kind with
        | .arith => 0 | .copy => 1 | .join => 2 | .steer => 3 | .reorder => 4 | .accum => 5
        | .memport => 6 | .addrgen => 7 | .window => 8 | .matrix => 9 | .online => 10 | .convert => 11)
      && !targets.any taken && (x.reaches w).all carries
      && fmts.all (takesFmt w)
      && fmts.all (fun f => fmts.all (sameFmt kind f))
      && (kind != .arith || [posA, posB, posP, posC].all (fun p => shape p != some true))
      && (kind != .join || data.all (fun p => (x.bindAt k.toNat p).isSome && shape p != some true))
      && (kind != .matrix || ([(posA, 0), (posB, 4)].all (fun p => match x.bindAt k.toNat p.1 with
          | some q => q.toNat == p.2
          | none => decide (p.1 ∉ data)) && data.all (fun p => shape p != some false)
          && (decide (1 < fn) || banks)))
      && (kind != .accum || decide (3 < fn) || shape posA != some true)
      && (kind != .memport || (shape posA != some true && (fn != 2 || shape posB != some true)))
      && (kind != .online || data.all (fun p => shape p != some false))
      && (kind != .convert || (match v.fmt 64 c k (some posA), v.fmt 64 c k none with
          | some f, some g => convertShape fn f g (shape posA) out
          | _, _ => true))
      && (kind != .steer || bits w 22 6 == 0 || (match targetOf (bits w 16 6) with
          | .outlet _ => true
          | _ => false))

/-- The geometry rule of R217; `held` says that the cell holds a table it keeps. -/
def CellConfig.geoOk (x : CellConfig) (held : Bool) : Bool :=
  let ws := (List.range 8).filterMap (fun i => x.word (BitVec.ofNat 3 i))
  let upd := ws.filter (fun w => bits w 28 4 == 5 && decide ((bits w 22 6).toNat ≤ 3))
  match upd with
  | [] => ws.all (fun w => bits w 28 4 != 5) || (x.keep && held)
  | w :: rest => rest.all (fun y => bits y 0 4 == bits w 0 4)

/-- Whether a queue's registers are ones that it accepts (R236). A queue that no link fills, as one filled by a port, is no signed-digit
circuit (DEDUCED, log entry 19). -/
def View.queueOk (v : View) (c : CellId) (q : Nat) : Bool := match (v.at c).qcfg[q]?.getD none with
  | none => true
  | some f =>
    let name := v.named c (BitVec.ofNat 3 q)
    let kvOk := match name with
      | some (g, _) => g == .kv || g == .raw
      | none => true
    let sdOk := match v.feeder c (BitVec.ofNat 3 q), name with
      | some _, some (g, _) => g.isSd
      | some _, none => false
      | none, _ => !v.whole
    qcfgOk 10 kvOk sdOk f

/-- The first cell, with its slot, that the whole region's configurations make one which is rejected at load: for a format, a queue or a
store that depends on a link from another block (R89, R161, R228, R236, R446); a rejection that no slot causes names slot 0
(DEDUCED, log entry 43). -/
def View.badCell (v : View) (logn : CellId → Nat) : Option (CellId × BitVec 3) :=
  v.cells.findSome? (fun p => match (List.range 8).find? (fun k => !v.nodeOk p.1 (BitVec.ofNat 3 k)) with
    | some k => some (p.1, BitVec.ofNat 3 k)
    | none =>
      if (List.range 8).all (v.queueOk p.1) && decide (v.queueStore p.1 + v.functionStore p.1 (logn p.1) ≤ 65536) then none
      else some (p.1, 0))

/-- Whether a pulse entry's near end is right (R29). -/
def CellConfig.pulseNear (x : CellConfig) (kind : CellKind) (p : PulseEntry) : Bool :=
  if p.kind = 0 ∨ p.kind = 1 then (x.word p.po).isSome
  else if p.kind = 2 then (x.qcfg[p.po.toNat]).isSome
  else kind == .memport

/-- Whether a pulse entry's far end is right (R29). -/
def CellConfig.pulseFar (x : CellConfig) (p : PulseEntry) : Bool := match x.word p.pin with
  | none => false
  | some w => if p.kind = 2 then isAgen w else decide (posC ∈ wordUses w)

/-- The first rejected cell of a block, in ascending order, with its slot; a rejection that no slot causes names slot 0. `logn` and
`held` tell of the fretboards as they stand. -/
def View.firstReject (v : View) (r : BlockRec) (logn : CellId → Nat) (held : CellId → Bool) : Option (BitVec 6 × BitVec 3) :=
  (List.range 64).findSome? (fun n =>
    let num := BitVec.ofNat 6 n
    let c := v.reg.cellAt r.head.pbx r.head.pby num
    let x := v.at c
    let raw := r.cells.find? (fun y => y.n = num)
    let local_ (p : PulseEntry) : Bool := p.dx == r.head.pbx && p.dy == r.head.pby
    let slot := (List.range 8).find? (fun k => !v.nodeOk c (BitVec.ofNat 3 k))
    let kindOk := match raw with
      | some y => nfld y.head 6 4 == (match cellKind num with
          | .arith => 0 | .copy => 1 | .join => 2 | .steer => 3 | .reorder => 4 | .accum => 5
          | .memport => 6 | .addrgen => 7 | .window => 8 | .matrix => 9 | .online => 10 | .convert => 11)
          && (swList [] y.sw).isSome
      | none => true
    let crossing := (r.links.filter (fun l => l.1 = num ∧ ¬(l.2.dx = r.head.pbx ∧ l.2.dy = r.head.pby))).any (fun l =>
      ((x.route l.2.so).map (fun f => f.2 == some true)).getD false
        && 1 < (r.links.filter (fun m => ¬(m.2.dx = r.head.pbx ∧ m.2.dy = r.head.pby)
          ∧ (((v.at (v.reg.cellAt r.head.pbx r.head.pby m.1)).route m.2.so).map (fun f => f.2 == some true)).getD false = true)).length)
    match slot with
    | some k => some (num, BitVec.ofNat 3 k)
    | none =>
      if kindOk && (List.range 8).all (v.queueOk c) && x.geoOk (held c) && !crossing
          && decide (v.queueStore c + v.functionStore c (logn c) ≤ 65536)
          && x.pulses.all (fun p => x.pulseNear (cellKind num) p
            && (!local_ p || (v.at (v.reg.cellAt p.dx p.dy p.cell)).pulseFar p)) then none
      else some (num, 0))

/-! ### A record read and checked (R274) -/

/-- Whether a block of a region is outside it, or fused off (R264). -/
def State.badBlock (s : State) (r : Region) (x y : BitVec 4) : Bool :=
  decide (r.w ≤ x.toNat ∨ r.h ≤ y.toNat) || (s.die r.die).fuse.getLsbD (16 * (r.y + y).toNat + (r.x + x).toNat)

/-- A fetch fault of a read (R278). -/
def LoadFail.ofRead (f : XFault) (a : Word64) : LoadFail :=
  { LoadFail.of .fetchFault (if f = .page then 2 else 3) with addr := a, held := f == .held }

/-- Bytes of a context's memory, or a fetch fault (R278) (DEDUCED, log entry 71); `held` says that a bridge on the way is not UP, and the fetch
waits (R352). -/
def State.imageBytes (s : State) (r : Region) (va : Word64) (n : Nat) : Except LoadFail (List Byte) :=
  (s.engineRead r.die r.launch.ctx n va).mapError (fun e => LoadFail.ofRead e.1 e.2)

/-- A failure in a block. -/
def LoadFail.in (f : LoadFail) (x y : BitVec 4) : LoadFail := { f with bx := x, by_ := y }

/-- The placed position of a logical block at dispatch (R268); none where the record's own coordinates stand, as for `cfgld`. -/
abbrev Placing := Option (BitVec 4 → BitVec 4 → Option (BitVec 4 × BitVec 4))

/-- A record's header with its placed block. -/
def RecHead.placed (pl : Placing) (h : RecHead) : Option RecHead := match pl with
  | none => some h
  | some f => (f h.lbx h.lby).map (fun p => { h with pbx := p.1, pby := p.2 })

/-- A list with every entry mapped, if each has an image. -/
def mapAll {α β : Type} (f : α → Option β) : List α → Option (List β)
  | [] => some []
  | x :: xs => match f x, mapAll f xs with
    | some y, some ys => some (y :: ys)
    | _, _ => none

/-- A record with its relocatable coordinates rewritten (R267, R268), or none where one names no placed block. -/
def BlockRec.relocated (pl : Placing) (h : RecHead) (r : BlockRec) : Option BlockRec := match pl with
  | none => some { r with head := h }
  | some f =>
    let links := mapAll (fun l => (f l.2.dx l.2.dy).map (fun p => (l.1, ({ l.2 with dx := p.1, dy := p.2 } : LinkEntry)))) r.links
    let cell (c : RawCell) : Option RawCell :=
      (mapAll (fun e => (f e.dx e.dy).map (fun p => ({ e with dx := p.1, dy := p.2 } : PulseEntry))) c.cf.pulses).map
        (fun ps => { c with cf := { c.cf with pulses := ps } })
    match links, mapAll cell r.cells with
    | some ls, some cs => some { r with head := h, links := ls, cells := cs }
    | _, _ => none

/-- FetchBlock up to the placing of the shadows (R274): the record at an address, checked in the order of the rule. `named` says
that a block is already named (DEDUCED, log entry 71). -/
def State.fetchBlock (s : State) (r : Region) (va : Word64) (pl : Placing) (named : BitVec 4 → BitVec 4 → Bool) :
    Except LoadFail BlockRec :=
  match s.imageBytes r va 64 with
  | .error f => .error f
  | .ok hb =>
    match recHead hb with
    | none =>
      let a := dwAt hb 0
      .error ((LoadFail.of .rejected 5).in (BitVec.ofNat 4 (nfld a 24 4)) (BitVec.ofNat 4 (nfld a 28 4)))
    | some h0 => match h0.placed pl with
      | none => .error ((LoadFail.of .rejected 6).in h0.pbx h0.pby)
      | some h =>
      let fail (st : CfgState) (c : BitVec 3) : Except LoadFail BlockRec := .error ((LoadFail.of st c).in h.pbx h.pby)
      if s.badBlock r h.pbx h.pby || named h.pbx h.pby then fail .rejected 6
      else match s.imageBytes r va (64 * h.len) with
        | .error f => .error (f.in h.pbx h.pby)
        | .ok bs => match walkRec h bs with
          | none => fail .rejected 5
          | some raw => match raw.relocated pl h with
            | none => if raw.crcOk bs then fail .rejected 6 else fail .crcFail 1
            | some rec_ =>
            if !raw.crcOk bs then fail .crcFail 1
            else if rec_.links.any (fun l => s.badBlock r l.2.dx l.2.dy)
                || rec_.cells.any (fun c => c.cf.pulses.any (fun p => s.badBlock r p.dx p.dy)) then fail .rejected 6
            else
              let others := (s.cellsOf r).filterMap (fun c =>
                if c.x = r.x + h.pbx ∧ c.y = r.y + h.pby then none else (s.cell c).shadow.map (fun f => (c, f)))
              let v : View := ⟨r, (List.range 64).map (fun n =>
                (r.cellAt h.pbx h.pby (BitVec.ofNat 6 n), rec_.config (BitVec.ofNat 6 n))) ++ others, decide (r.w * r.h = 1)⟩
              match v.firstReject rec_ (fun c => (s.cell c).fb.logn) (fun c => (s.cell c).fb.present) with
              | some (n, k) => .error { (LoadFail.of .rejected 4).in h.pbx h.pby with cell := n, slot := k }
              | none => .ok rec_

/-- The cells' shadows placed (R269). A cell of a block that no record has configured has flipped as often as the region, so that its epoch is
the region's, whether or not the state lists it (R270). -/
def State.placeShadows (s : State) (r : Region) (rec_ : BlockRec) : State :=
  (List.range 64).foldl (fun s n =>
    let c := r.cellAt rec_.head.pbx rec_.head.pby (BitVec.ofNat 6 n)
    let held := r.map.any (fun p => p.px == rec_.head.pbx && p.py == rec_.head.pby)
    s.modCell c (fun x =>
      { x with shadow := some (rec_.config (BitVec.ofNat 6 n)), epoch := if held then x.epoch else r.cfg.epoch })) s

/-- The block that the record at an address names (R274), where its header can be read. -/
def State.namesBlock (s : State) (r : Region) (va : Word64) : List (BitVec 4 × BitVec 4) := match s.imageBytes r va 64 with
  | .ok hb => ((recHead hb).map (fun h => (h.pbx, h.pby))).toList
  | .error _ => []

/-! ### Checks over the whole region (R29, R347, R376) -/

/-- The configurations that a region will hold after a flip: each shadow, and the active configuration of every other cell. -/
def State.stagedView (s : State) (r : Region) : View :=
  ⟨r, (s.cellsOf r).map (fun c => (c, (s.cell c).shadow.getD (s.cell c).active)), true⟩

/-- The first cell that the region's configurations after a flip make one which is rejected. -/
def State.stagedReject (s : State) (r : Region) : Option (CellId × BitVec 3) :=
  (s.stagedView r).badCell (fun c => (s.cell c).fb.logn)

/-- The outlets that take what a node sends to one outlet: it, and those that a TEE adds (R114, R115). -/
def CellConfig.outlets (x : CellConfig) (so : BitVec 5) : List (BitVec 5) :=
  match x.sw.find? (fun w => w.outlet = so ∧ w.typ ≠ 1) with
  | none => [so]
  | some w => so :: (x.sw.filter (fun t => t.typ = 1 ∧ t.inlet = w.inlet)).map SwWord.outlet

/-- The outlets that a word drives: a steer drives every outlet from its target A to so30 (R172). -/
def wordOutlets (w : Word32) : List (BitVec 5) :=
  let steer := bits w 28 4 == 3 && bits w 22 6 != 0
  (targetOf (bits w 16 6) :: [targetOf (bits w 10 6)]).flatMap (fun t => match t with
    | .outlet o =>
      if steer && decide (t = targetOf (bits w 16 6)) then ((List.range 31).filter (fun i => o.toNat ≤ i)).map (BitVec.ofNat 5) else [o]
    | _ => [])

/-- The nodes and positions that a node leads to (R376). -/
def View.edges (v : View) (c : CellId) (k : BitVec 3) : List ((CellId × BitVec 3) × Nat) :=
  let x := v.at c
  match x.word k with
  | none => []
  | some w =>
    (wordTargets w).filterMap (fun t => match t with
        | .latch j p => some ((c, j), p.toNat)
        | _ => none)
      ++ ((wordOutlets w).flatMap x.outlets).flatMap (fun so => (x.links.filter (fun l => l.so = so)).flatMap (fun l =>
          let far := v.reg.cellAt l.dx l.dy l.cell
          ((v.at far).readers far.n l.dq).map (fun r => ((far, r.1), r.2))))

/-- Whether a position closes a loop: b or c of a gate. -/
def View.isBackEdge (v : View) (y : CellId × BitVec 3) (p : Nat) : Bool := match (v.at y.1).word y.2 with
  | some w => bits w 28 4 == 1 && bits w 22 6 == 1 && (p == posB || p == posC)
  | none => false

/-- The nodes that still have a predecessor, after `n` rounds of taking away those that have none. -/
def pruneNodes (es : List ((CellId × BitVec 3) × (CellId × BitVec 3))) : Nat → List (CellId × BitVec 3) → List (CellId × BitVec 3)
  | 0, vs => vs
  | n + 1, vs => pruneNodes es n (vs.filter (fun y => es.any (fun e => e.2 == y && decide (e.1 ∈ vs))))

/-- Whether some cycle passes no gate at position b or c (R376). -/
def View.ungatedCycle (v : View) : Bool :=
  let ns := v.cells.flatMap (fun p => (List.range 8).filterMap (fun i =>
    if (p.2.word (BitVec.ofNat 3 i)).isSome then some (p.1, BitVec.ofNat 3 i) else none))
  let es := ns.flatMap (fun x => ((v.edges x.1 x.2).filter (fun y => !v.isBackEdge y.1 y.2)).map (fun y => (x, y.1)))
  !(pruneNodes es ns.length ns).isEmpty

/-- The first cell with a pulse entry whose far end, in another block, fails R29. -/
def View.badPulse (v : View) : Option CellId :=
  (v.cells.find? (fun p => p.2.pulses.any (fun e =>
    let far := v.reg.cellAt e.dx e.dy e.cell
    !(far.x == p.1.x && far.y == p.1.y) && !(v.at far).pulseFar e))).map Prod.fst

/-- The first cell of a block that more than one circuit enters from other blocks (R347). -/
def View.badCircuit (v : View) : Option CellId :=
  let ins := v.cells.flatMap (fun p => (p.2.links.filter (fun l => ((p.2.route l.so).map (fun f => f.2 == some true)).getD false)).filterMap
    (fun l =>
      let far := v.reg.cellAt l.dx l.dy l.cell
      if far.x = p.1.x ∧ far.y = p.1.y then none else some far))
  ins.find? (fun c => 1 < (ins.filter (fun d => d.x = c.x ∧ d.y = c.y)).length)

/-! ### The header and the tree (R260, R282 to R284) -/

/-- The image header. -/
structure ImageHead where
  w       : Nat
  h       : Nat
  leadX   : BitVec 4
  leadY   : BitVec 4
  reloc   : Bool
  signed  : Bool
  nconf   : Nat
  nsect   : Nat
  ngrp    : Nat
  root    : Option (BitVec 4 × BitVec 4 × BitVec 6)
  confOff : Nat
  treeOff : Nat
  treeLen : Nat
  ctrlOff : Nat
  sigOff  : Nat
  sigLen  : Nat
  hcrc    : Nat
  deriving DecidableEq, Repr

/-- The header's fields. -/
def imageHeadOf (bs : List Byte) : ImageHead :=
  let a := dwAt bs 0
  let b := dwAt bs 8
  { w := nfld a 32 4 + 1, h := nfld a 36 4 + 1, leadX := BitVec.ofNat 4 (nfld a 40 4), leadY := BitVec.ofNat 4 (nfld a 44 4),
    reloc := a.testBit 48, signed := a.testBit 49, nconf := nfld b 0 8, nsect := nfld b 8 8, ngrp := nfld b 16 8,
    root := if b.testBit 38 then some (BitVec.ofNat 4 (nfld b 24 4), BitVec.ofNat 4 (nfld b 28 4), BitVec.ofNat 6 (nfld b 32 6)) else none,
    confOff := nfld (dwAt bs 16) 0 32, treeOff := nfld (dwAt bs 24) 0 32, treeLen := nfld (dwAt bs 24) 32 32,
    ctrlOff := nfld (dwAt bs 32) 0 32, sigOff := nfld (dwAt bs 40) 0 32, sigLen := nfld (dwAt bs 40) 32 32,
    hcrc := nfld (dwAt bs 48) 0 32 }

/-- Whether a header's MAGIC, reserved fields and HCRC hold (R260, R371). -/
def imageHeadSealed (bs : List Byte) : Bool :=
  nfld (dwAt bs 0) 0 32 == 0x4B52494D && nfld (dwAt bs 0) 50 14 == 0 && nfld (dwAt bs 8) 39 25 == 0
    && nfld (dwAt bs 16) 32 32 == 0 && zeroBytes bs 52 12 && crc32c (bs.take 48) == (imageHeadOf bs).hcrc

/-- Whether a header is one of R260: its MAGIC, reserved fields and HCRC hold, and its ranges (DEDUCED, log entry 78). -/
def imageHeadOk (bs : List Byte) : Bool :=
  let h := imageHeadOf bs
  imageHeadSealed bs && decide (1 ≤ h.nconf ∧ h.nconf ≤ 16 ∧ h.nsect ≤ 64 ∧ h.ngrp ≤ 64)
    && h.confOff % 8 == 0 && h.ctrlOff % 4 == 0 && (h.signed || (h.sigOff == 0 && h.sigLen == 0))
    && decide (h.leadX.toNat < h.w ∧ h.leadY.toNat < h.h)

/-- The 32-bit word at a byte offset. -/
def wAt (bs : List Byte) (off : Nat) : Nat := bytesToNat ((bs.drop off).take 4)

/-- A group entry (R282); none where a reserved field is set or TYPE is 3. -/
def groupOf (v : Nat) : Option Group :=
  if nfld v 2 6 ≠ 0 ∨ v.testBit 15 ∨ nfld v 22 42 ≠ 0 ∨ nfld v 0 2 = 3 then none
  else some
    { typ := BitVec.ofNat 2 v, parent := BitVec.ofNat 7 (nfld v 8 7), ord := BitVec.ofNat 6 (nfld v 16 6), state := .idle, child := 0,
      runs := 0, tiles := 0 }

/-- A source or sink word (R283). -/
def nodeRefOf (v : Nat) : Option NodeRef :=
  if nfld v 17 15 ≠ 0 then none
  else some
    { lx := BitVec.ofNat 4 v, ly := BitVec.ofNat 4 (nfld v 4 4), cell := BitVec.ofNat 6 (nfld v 8 6), slot := BitVec.ofNat 3 (nfld v 14 3) }

/-- The section entries from an offset, and the offset after them. -/
def sectionsOf (bs : List Byte) : Nat → Nat → Option (List Section × Nat)
  | 0, off => some ([], off)
  | n + 1, off =>
    let h := dwAt bs off
    let ns := nfld h 16 3 + 1
    let nk := nfld h 20 4 + 1
    let src := (List.range ns).map (fun i => nodeRefOf (wAt bs (off + 8 + 4 * i)))
    let snk := (List.range nk).map (fun i => nodeRefOf (wAt bs (off + 8 + 4 * ns + 4 * i)))
    let body := 4 * (ns + nk)
    if h.testBit 7 ∨ nfld h 14 2 ≠ 0 ∨ h.testBit 19 ∨ nfld h 24 40 ≠ 0 ∨ bs.length < off + 8 + pad8 body
        ∨ (src ++ snk).any Option.isNone ∨ !zeroBytes bs (off + 8 + body) (pad8 body - body) then none
    else match sectionsOf bs n (off + 8 + pad8 body) with
      | none => none
      | some (ss, fin) =>
        some ({ parent := BitVec.ofNat 7 h, ord := BitVec.ofNat 6 (nfld h 8 6), sources := src.filterMap id, sinks := snk.filterMap id,
                left := 0, tiles := [], ended := 0, idx := 0, running := nfld h 0 7 = 0x7F, serial := 0 } :: ss, fin)

/-- The tree, or none where R284 refuses it; `word` gives the word of a named node of configuration 0. -/
def treeOf (bs : List Byte) (ngrp nsect : Nat) (word : NodeRef → Option Word32) : Option (List Group × List Section) :=
  let gs := (List.range ngrp).map (fun i => groupOf (dwAt bs (8 * i)))
  if bs.length < 8 * ngrp ∨ gs.any Option.isNone then none
  else
    let groups := gs.filterMap id
    match sectionsOf bs nsect (8 * ngrp) with
    | none => none
    | some (secs, fin) =>
      let parents := (List.range ngrp).map (BitVec.ofNat 7) ++ [0x7F]
      let kids (p : BitVec 7) : List (BitVec 6) :=
        (groups.filter (fun g => g.parent = p)).map Group.ord ++ (secs.filter (fun x => x.parent = p)).map Section.ord
      let ordered (os : List (BitVec 6)) : Bool := (List.range os.length).all (fun i => decide (i ∈ os.map BitVec.toNat))
      let gOk (i : Nat) (g : Group) : Bool :=
        (g.parent == 0x7F || decide (g.parent.toNat < i))
          && (g.typ != 1 || (groups.all (fun c => c.parent != BitVec.ofNat 7 i) && decide (2 ≤ (kids (BitVec.ofNat 7 i)).length)))
      let sOk (x : Section) : Bool :=
        (x.parent == 0x7F || decide (x.parent.toNat < ngrp))
          && x.sources.all (fun n => ((word n).map isAgen).getD false) && x.sinks.all (fun n => (word n).isSome)
      if fin ≠ bs.length ∨ !(groups.mapIdx gOk).all id ∨ !secs.all sOk ∨ !parents.all (fun p => ordered (kids p)) then none
      else some (groups, secs)

/-- Whether a node lies in a logical block. -/
def Region.nodeCell (r : Region) (n : NodeRef) : Option CellId := r.logical n.lx n.ly n.cell

end Sys2Proof.Machine
end

