-- ==== Sys2Proof/Machine/Reorder.lean ====
section
/-!
DEFINITION. The reorder cells (R179, R180).
-/

namespace Sys2Proof.Machine

/-! ### Sequence numbers -/

/-- The distance of a SEQ from NEXT, modulo 2^28. -/
def seqDist (next q : BitVec 28) : Nat := (q - next).toNat

/-- Whether a distance is behind NEXT. -/
def behind (d : Nat) : Bool := decide (2 ^ 27 ≤ d)

/-- The SEQ that places a unit: a marker's first lost SEQ (R179). -/
def placeSeq (u : Item) : BitVec 28 := if u.tag.kind = kGap then gapFirst u.v0 else u.tag.seq

/-- NEXT after a unit is released. -/
def nextAfter (u : Item) (next : BitVec 28) : BitVec 28 := if u.tag.kind = kGap then gapLast u.v0 + 1 else next + 1

/-- The marker of a run of `n` SEQ values from `first` (R179). -/
def skipMarker (c : CellId) (first : BitVec 28) (n : Nat) (nest : BitVec 4) (inv : Option Inv) : Item :=
  gapItem n first (first + BitVec.ofNat 28 (n - 1)) 0x9 false 0 false (cellWord c 0) nest inv

/-- A DATA unit emitted late; a marker as it is. -/
def lateItem (u : Item) : Item :=
  if u.isData then { u with tag := { u.tag with flags := u.tag.flags ||| fLate } } else u

/-! ### The reorder buffer -/

/-- The reorder buffer under way: NEXT, what is held, the pending gap, and what has been emitted, oldest first. -/
structure Reorder where
  next : BitVec 28
  held : List Item
  gap  : Option (BitVec 28 × Nat)
  out  : List Item
  deriving DecidableEq, Repr

/-- The pending gap grown by `n` values from NEXT, and NEXT past them. -/
def Reorder.skip (r : Reorder) (n : Nat) : Reorder :=
  if n = 0 then r
  else { r with
    next := r.next + BitVec.ofNat 28 n,
    gap := match r.gap with
      | some (f, m) => some (f, m + n)
      | none => some (r.next, n) }

/-- EmitPendingGap: the marker has the NEST of the unit after the gap (DESIGN CHOICE, log entry 148). -/
def Reorder.flushGap (r : Reorder) (c : CellId) (x : Item) : Reorder := match r.gap with
  | some (f, n) => { r with gap := none, out := r.out ++ [skipMarker c f n x.tag.nest x.inv] }
  | none => r

/-- Release of the unit in slot NEXT. -/
def Reorder.release (r : Reorder) (c : CellId) (y : Item) : Reorder :=
  let r1 := r.flushGap c y
  { r1 with next := nextAfter y r1.next, held := r1.held.erase y, out := r1.out ++ [y] }

/-- The unit in slot NEXT. -/
def Reorder.atNext (r : Reorder) : Option Item := r.held.find? (fun y => placeSeq y == r.next)

/-- `while slot NEXT is held: Release(slot NEXT)`; `n` bounds the releases. -/
def Reorder.run (c : CellId) : Nat → Reorder → Reorder
  | 0, r => r
  | n + 1, r => match r.atNext with
    | some y => Reorder.run c n (r.release c y)
    | none => r

/-- The forced advance of R179 for a unit that lies W or more ahead: NEXT goes to the next held unit, or to where the unit fits. -/
def Reorder.force (c : CellId) (w : Nat) (x : Item) : Nat → Reorder → Reorder
  | 0, r => r
  | n + 1, r =>
    let d := seqDist r.next (placeSeq x)
    if d < w ∨ behind d then r
    else
      match r.atNext with
      | some y => Reorder.force c w x n (r.release c y)
      | none =>
        let need := d - w + 1
        let ahead := (r.held.map (fun y => seqDist r.next (placeSeq y))).filter (fun e => !behind e && decide (0 < e))
        let step := ahead.foldl min need
        Reorder.force c w x n (r.skip step)

/-- A DATA unit or a marker taken in (R179). -/
def Reorder.take (r : Reorder) (c : CellId) (w : Nat) (x : Item) : Reorder :=
  let late (r : Reorder) : Reorder := { r with out := r.out ++ [lateItem x] }
  if behind (seqDist r.next (placeSeq x)) then late r
  else if r.held.any (fun y => placeSeq y == placeSeq x) then late r
  else
    let r1 := (r.force c w x (2 * w + 2)).flushGap c x
    if behind (seqDist r1.next (placeSeq x)) then late r1
    else Reorder.run c (w + 1) { r1 with held := r1.held ++ [x] }

/-- A unit put into a list that ascends by distance from NEXT; one behind NEXT comes first. -/
def insertByDist (next : BitVec 28) (u : Item) : List Item → List Item
  | [] => [u]
  | v :: vs =>
    if (placeSeq u - next).toInt < (placeSeq v - next).toInt then u :: v :: vs else v :: insertByDist next u vs

/-- The held units in ascending SEQ order. -/
def Reorder.ordered (r : Reorder) : List Item := r.held.foldl (fun l u => insertByDist r.next u l) []

/-- Units released in order, with a marker for each run of missing values between them. A held record that a released marker has passed
comes first, as it is (DESIGN CHOICE, log entry 148). -/
def Reorder.drain (c : CellId) : List Item → Reorder → Reorder
  | [], r => r
  | y :: ys, r =>
    let d := seqDist r.next (placeSeq y)
    let r1 := if behind d then { r with held := r.held.erase y, out := r.out ++ [y] }
      else ((r.skip d).release c y)
    Reorder.drain c ys r1

/-- A bound L of `rrel` (R180). -/
def Reorder.bound (r : Reorder) (c : CellId) (x : Item) (l : BitVec 28) : Reorder :=
  let d := seqDist r.next l
  if behind d then r
  else
    let ys := r.ordered.filter (fun y => decide (seqDist r.next (placeSeq y) < d))
    let r1 := Reorder.drain c ys r
    let e := seqDist r1.next l
    let r2 := if behind e then r1 else (r1.skip e).flushGap c x
    { r2 with next := l }

/-! ### The nodes -/

/-- The state of a reorder node: NEXT is loaded from prm[j] at configuration. -/
def reorderOf (x : Cell) (k : BitVec 3) (j : Nat) : Reorder := match x.nst[k.toNat] with
  | .reorder next held gap => ⟨next, held, gap, []⟩
  | _ => ⟨bits ((x.prm j).getD 0) 16 28, [], none, []⟩

/-- A reorder step done: the operands consumed, the node's state kept, what was emitted delivered to both targets. -/
def reorderPut (s : State) (c : CellId) (k : BitVec 3) (ts : List (BitVec 6)) (used : List Nat) (r : Reorder) : State :=
  ((s.consume c k used).setNode c k (.reorder r.next r.held r.gap)).deliverAll c k
    (r.out.flatMap (fun u => ts.map (fun t => (t, u))))

/-- An aligned token at a reorder node: an EOD, EOT or EOI releases all that is held first. -/
def reorderToken (s : State) (c : CellId) (k : BitVec 3) (ts : List (BitVec 6)) (used : List Nat) (r : Reorder) (u : Item) :
    State :=
  if u.tag.kind = kEod ∨ u.tag.kind = kEot ∨ u.tag.kind = kEoi then
    let r1 := Reorder.drain c r.ordered r
    s.forwardTokenAfter c k used ts u.tag.kind (fun s => s.setNode c k (.reorder r1.next r1.held r1.gap))
      (r1.out.flatMap (fun v => ts.map (fun t => (t, v))))
  else s.forwardToken c k used ts u.tag.kind

/-- log2 W of prm[j]; above 9 it is a parameter fault. -/
def reorderW (x : Cell) (j : Nat) : Nat := (bits ((x.prm j).getD 0) 0 4).toNat

/-- `RORD` (R179). -/
def execRord (a b : BitVec 6) (_m : BitVec 2) (o : BitVec 8) (s : State) : Result :=
  .next (s.atNode (fun c k x =>
    let j := (bits o 0 4).toNat
    match x.valueAt k posA with
    | none => s
    | some u =>
      if badToken u then s.tokenFault c k posA
      else if !(([a, b] : List (BitVec 6)).all (x.targetFree k [posA])) then s
      else if 9 < reorderW x j then s.nodeFault c k 0x05 (some u)
      else
        let r := reorderOf x k j
        if u.isData || u.tag.kind == kGap then reorderPut s c k [a, b] [posA] (r.take c (2 ^ reorderW x j) u)
        else reorderToken s c k [a, b] [posA] r u))

/-- The bound at c of an `rrel`; a pulse has no payload, and brings a free value (DESIGN CHOICE, log entry 5). -/
def boundAt (s : State) (x : Cell) (k : BitVec 3) : Option (BitVec 28) × State :=
  match x.valueAt k posC with
  | some v => (if v.isData then some (bits v.v0 0 28) else none, s)
  | none =>
    if (x.triggers k).isEmpty then (none, s)
    else let (n, s1) := s.freshNat; (some (bits (Config.freeValue n) 0 28), s1)

/-- `RREL` (R180): a value at a is served before one at c; an aligned token waits for its like at the other position. -/
def execRrel (a b : BitVec 6) (_m : BitVec 2) (o : BitVec 8) (s : State) : Result :=
  .next (s.atNode (fun c k x =>
    let j := (bits o 0 4).toNat
    let va := x.valueAt k posA
    let vc := x.valueAt k posC
    let ts := [a, b]
    let used := [posA, posC]
    let isGap (u : Option Item) : Bool := (u.map (fun v => v.tag.kind == kGap)).getD false
    let dataOrGap (u : Option Item) : Bool := (u.map (fun v => v.isData || v.tag.kind == kGap)).getD false
    if (va.map badToken).getD false then s.tokenFault c k posA
    else if (vc.map badToken).getD false then s.tokenFault c k posC
    else if isGap vc then (if ts.all (x.targetFree k [posC]) then s.forwardGap c k ts posC else s)
    else if 9 < reorderW x j then (if va.isSome || vc.isSome then s.nodeFault c k 0x05 va else s)
    else
      let r := reorderOf x k j
      let free (us : List Nat) : Bool := ts.all (x.targetFree k us)
      let onBound : State := match boundAt s x k with
        | (some l, s1) =>
          let base := (vc.getD { tag := Tag.template, v0 := 0, v1 := none, inv := none })
          if free [posC] then reorderPut s1 c k ts [posC] (r.bound c base l) else s
        | (none, _) => s
      match va with
      | none => onBound
      | some u =>
        if dataOrGap va then (if free [posA] then reorderPut s c k ts [posA] (r.take c (2 ^ reorderW x j) u) else s)
        else
          let token : State := if free (used.filter (x.aligns k)) then reorderToken s c k ts used r u else s
          match vc with
          | some v =>
            if v.isData then onBound
            else if v.tag.kind = u.tag.kind then token
            else s.nodeFault c k 0x01 (some u)
          | none => if x.aligns k posC then onBound else token))

end Sys2Proof.Machine
end

