-- ==== Sys2Proof/Machine/Window.lean ====
section
/-!
DEFINITION. The window cells (R181 to R183, R320).
-/

namespace Sys2Proof.Machine

/-- The parameters of a window node (R181). -/
structure WinPar where
  h  : Nat
  s  : Nat
  d  : Nat
  op : Nat
  deriving DecidableEq, Repr

/-- The span of a window. -/
def WinPar.span (p : WinPar) : Nat := (p.h - 1) * p.d + 1

/-- The parameters in a register, or none for a parameter fault; SUM, WSUM, MIN and MAX take `f32`, `i32` and `i64`, and OP on another
format is such a fault, since the parameter register is looked at when a firing reads it (R165) (DEDUCED, log entry 146). -/
def winPar (f : Fmt) (v : Word64) : Option WinPar :=
  let p : WinPar := ⟨(bits v 0 8).toNat, (bits v 8 8).toNat, (bits v 16 8).toNat, (bits v 24 3).toNat⟩
  let fmtOk := p.op == 4 || f == .f32 || f == .i32 || f == .i64
  if 1 ≤ p.h ∧ p.h ≤ 64 ∧ 1 ≤ p.s ∧ 1 ≤ p.d ∧ p.d ≤ 16 ∧ p.op ≤ 4 ∧ p.span ≤ 256 ∧ fmtOk then some p else none

/-- The state of a window node. -/
structure WinSt where
  line  : List Item
  base  : Nat
  marks : List WinMark
  deriving DecidableEq, Repr

def WinSt.of : NodeState → WinSt
  | .window line base marks => ⟨line, base, marks⟩
  | _ => ⟨[], 0, []⟩

/-- DATA records of the segment so far. -/
def WinSt.count (w : WinSt) : Nat := w.base + w.line.length

/-- The record at a position. -/
def WinSt.at (w : WinSt) (p : Nat) : Option Item := if p < w.base then none else w.line[p - w.base]?

/-- The members of window `n` that have arrived. -/
def WinSt.members (w : WinSt) (p : WinPar) (n : Nat) : List Item :=
  (List.range p.h).filterMap (fun k => w.at (n * p.s + k * p.d))

/-- Whether a marker that came after `m` records of the segment finds window `n` open (R182). -/
def openAt (p : WinPar) (n m : Nat) : Bool := decide (n * p.s < m) && decide (m ≤ n * p.s + (p.h - 1) * p.d)

/-- The windows that may be open after `m` records: those whose first position lies within a span of `m`. -/
def windowsNear (p : WinPar) (m : Nat) : List Nat :=
  (List.range (m / p.s + 1)).filter (fun n => openAt p n m)

/-- Whether a marker belongs to window `n` (R182). -/
def markIn (p : WinPar) (n : Nat) (k : WinMark) : Bool :=
  openAt p n k.pos || ((windowsNear p k.pos).isEmpty && decide (n = (k.pos + p.s - 1) / p.s))

/-- Counts of several markers as one. -/
def sumMarks : List WinMark → Option GapSum
  | [] => none
  | k :: ks => match sumMarks ks with
    | none => some k.gap
    | some g => some ⟨k.gap.lost + g.lost, minSeq k.gap.first g.first, maxSeq k.gap.last g.last⟩

/-- The marker of an incomplete window (R182) (DEDUCED, log entry 17). -/
def windowMarker (c : CellId) (g : GapSum) (nest : BitVec 4) (inv : Option Inv) : Item :=
  gapItem g.lost g.first g.last 0xA false 0 false (cellWord c 0) nest inv

/-- One lane of a reduction over the members' lanes with their weights, and whether it saturated: the float sums are rounded at
each add under `.rne`, the integer ones saturate (R182); a sum of one member is that member as a result (R72, R84), and the first
product of a WSUM is rounded to `f32` before the first add (DEDUCED, log entries 15, 16, 146). -/
def winLane (f : Fmt) (op : Nat) (xs : List (Nat × Nat)) : Nat × Bool :=
  match f.float with
  | some g =>
    let put (v : FVal) : Nat × Bool := let r := g.conv .rne false v; (r.code, r.sat)
    let val (x : Nat × Nat) : FVal := if op = 1 then (g.read x.1).mul (.fin false x.2 0) else g.read x.1
    match xs with
    | [] => (0, false)
    | x :: rest =>
      if op ≤ 1 then
        rest.foldl (fun a y => let r := put ((g.read a.1).add .rne (val y)); (r.1, a.2 || r.2))
          (put (val x))
      else
        (rest.foldl (fun a y =>
          if (g.read a).isNan || (g.read y.1).isNan then g.nanCode
          else if op = 2 then (if (g.read y.1).below (g.read a) then y.1 else a)
          else (if (g.read a).below (g.read y.1) then y.1 else a))
          (if (g.read x.1).isNan then g.nanCode else x.1), false)
  | none =>
    let w := f.laneBits
    let val (x : Nat × Nat) : Int := if op = 1 then toSigned w x.1 * x.2 else toSigned w x.1
    match xs with
    | [] => (0, false)
    | x :: rest =>
      if op ≤ 1 then
        let r := rest.foldl (fun (a : Int × Bool) y => let z := clampInt w (a.1 + val y); (z.1, a.2 || z.2)) (clampInt w (val x))
        (ofSigned w r.1, r.2)
      else
        (rest.foldl (fun a y =>
          if op = 2 then (if toSigned w y.1 < toSigned w a then y.1 else a)
          else (if toSigned w a < toSigned w y.1 then y.1 else a)) x.1, false)

/-- The EOD of level 0 that ends a listed window (R320). -/
def eodItem (level : Nat) (inv : Option Inv) : Item :=
  { tag := { kind := kEod, flags := 0, domain := 0, weight := 0, nest := 0, seq := 0 }, v0 := BitVec.ofNat 512 level,
    v1 := none, inv := inv }

/-- Whether lane `i` of a unit is one to read: a lane above the LAST of a vector is ignored (R68). -/
def laneValid (f : Fmt) (u : Item) (i : Nat) : Bool :=
  if u.v1.isSome then decide (i ≤ descLast u.desc) else decide (i < f.recLanes)

/-- The reduced row of a window's members, each lane over the members in which it is valid, and whether a lane saturated. A window of
vectors has the greatest LAST of its members (DESIGN CHOICE, log entry 146). -/
def windowRow (f : Fmt) (op : Nat) (ms : List Item) : Nat × Nat × Bool :=
  let last := (ms.map (fun u => if u.v1.isSome then descLast u.desc else f.recLanes - 1)).foldl max 0
  let rs := (List.range (last + 1)).map (fun i =>
    winLane f op ((ms.filter (fun u => laneValid f u i)).map (fun u => (laneAt f.laneBits u.row i, u.tag.weight.toNat))))
  (packLanes f.laneBits (rs.map Prod.fst), last, rs.any Prod.snd)

/-- What a window of these members emits: the reduced record, or the list; then the marker, if any; then the EOD of a list
(DEDUCED, log entry 146). -/
def windowOut (f : Fmt) (p : WinPar) (c : CellId) (ms : List Item) (mk : Option GapSum) : List Item :=
  match ms with
  | [] => []
  | m :: _ =>
    let gap := match mk with
      | none => []
      | some g => [windowMarker c g m.tag.nest m.inv]
    if p.op = 4 then ms ++ gap ++ [eodItem 0 m.inv]
    else
      let (row, last, sat) := windowRow f p.op ms
      let fl := ms.foldl (fun a u => a ||| flagsOf u.tag.flags) (flagIf sat fSat)
      let tag : Tag := { kind := kData, flags := fl, domain := 0, weight := 1, nest := m.tag.nest, seq := m.tag.seq }
      let u : Item := if ms.any (fun u => u.v1.isSome) then vectorOf tag row 0 (descOf last 0 0) m.inv
        else { tag := tag, v0 := BitVec.ofNat 512 row, v1 := none, inv := m.inv }
      u.withInvs (ms.flatMap Item.invs) :: gap

/-- A window closed: what it emits, and the markers it reports. -/
def WinSt.close (w : WinSt) (f : Fmt) (p : WinPar) (c : CellId) (n : Nat) : List Item × WinSt :=
  let out := windowOut f p c (w.members p n) (sumMarks (w.marks.filter (markIn p n)))
  (out, { w with marks := w.marks.map (fun k => if markIn p n k then { k with reported := true } else k) })

/-- A DATA record taken in: the line keeps the last span of records, and the window whose last member it is closes. -/
def WinSt.push (w : WinSt) (f : Fmt) (p : WinPar) (c : CellId) (u : Item) : List Item × WinSt :=
  let pos := w.count
  let line := w.line ++ [u]
  let drop := line.length - p.span
  let w1 : WinSt := { w with line := line.drop drop, base := w.base + drop }
  let off := (p.h - 1) * p.d
  if off ≤ pos ∧ (pos - off) % p.s = 0 then w1.close f p c ((pos - off) / p.s) else ([], w1)

/-- Every window that a segment end finds open, closed over the members it holds (R183). -/
def WinSt.closeAll (f : Fmt) (p : WinPar) (c : CellId) : List Nat → WinSt → List Item × WinSt
  | [], w => ([], w)
  | n :: ns, w =>
    let (o1, w1) := w.close f p c n
    let (o2, w2) := WinSt.closeAll f p c ns w1
    (o1 ++ o2, w2)

/-- A window node: `flush` closes the open windows at a segment end. -/
def windowAct (flush : Bool) (a b : BitVec 6) (o : BitVec 8) (s : State) : State :=
  s.atNode (fun c k x =>
    let ts := [a, b]
    let put (s : State) (w : WinSt) (out : List Item) : State :=
      ((s.consume c k [posA]).setNode c k (.window w.line w.base w.marks)).deliverAll c k
        (out.flatMap (fun v => ts.map (fun t => (t, v))))
    match x.valueAt k posA with
    | none => s
    | some u =>
      if badToken u then s.tokenFault c k posA
      else if !ts.all (x.targetFree k [posA]) then s
      else
        let f := s.elemFmt c k
        match winPar f ((x.prm (bits o 0 4).toNat).getD 0) with
        | none => s.nodeFault c k 0x05 (some u)
        | some p =>
          let w := WinSt.of x.nst[k.toNat]
          if u.isData && u.v1.isSome && vectorBad f u then s.nodeFault c k 0x06 (some u)
          else if u.isData then let r := w.push f p c u; put s r.2 r.1
          else if u.tag.kind = kGap then
            put s { w with
              marks := w.marks ++ [⟨w.count, ⟨gapLost u.v0, gapFirst u.v0, gapLast u.v0⟩, false⟩] } []
          else if u.tag.kind = kEod ∨ u.tag.kind = kEot ∨ u.tag.kind = kEoi then
            let r := if flush then WinSt.closeAll f p c (windowsNear p w.count) w else ([], w)
            let rest := (r.2.marks.filter (fun k => !k.reported)).map (fun k => windowMarker c k.gap u.tag.nest u.inv)
            s.forwardTokenAfter c k [posA] ts u.tag.kind (fun s => s.setNode c k .idle)
              ((r.1 ++ rest).flatMap (fun v => ts.map (fun t => (t, v))))
          else s.forwardToken c k [posA] ts u.tag.kind)

/-- `WIN` (R182). -/
def execWin (a b : BitVec 6) (_m : BitVec 2) (o : BitVec 8) (s : State) : Result := .next (windowAct false a b o s)

/-- `WFLUSH` (R183). -/
def execWflush (a b : BitVec 6) (_m : BitVec 2) (o : BitVec 8) (s : State) : Result := .next (windowAct true a b o s)

end Sys2Proof.Machine
end

