-- ==== Sys2Proof/Machine/Nodes.lean ====
section
/-!
DEFINITION. A loaded node run by its word: the turn of a control token at a node (R23), and whether a node is ready (R21).
-/

namespace Sys2Proof.Machine

/-- The meaning of a cell operation for the node whose turn it is; no other instruction is a node's. -/
def runNode (i : Instr) (s : State) : Result :=
  match i with
  | .arithAdd a b m r v p => execArithAdd a b m r v p s
  | .arithSub a b m r v p => execArithSub a b m r v p s
  | .arithMul a b m r v p => execArithMul a b m r v p s
  | .arithFma a b m r v p => execArithFma a b m r v p s
  | .arithMin a b m o => execArithMin a b m o s
  | .arithMax a b m o => execArithMax a b m o s
  | .arithAbs a b m o => execArithAbs a b m o s
  | .arithNeg a b m o => execArithNeg a b m o s
  | .arithAnd a b m o => execArithAnd a b m o s
  | .arithOr a b m o => execArithOr a b m o s
  | .arithXor a b m o => execArithXor a b m o s
  | .arithShl a b m o => execArithShl a b m o s
  | .arithShrLogical a b m o => execArithShrLogical a b m o s
  | .arithShrArithmetic a b m o => execArithShrArithmetic a b m o s
  | .arithCmpEq a b m o => execArithCmpEq a b m o s
  | .arithCmpNe a b m o => execArithCmpNe a b m o s
  | .arithCmpLt a b m o => execArithCmpLt a b m o s
  | .arithCmpGe a b m o => execArithCmpGe a b m o s
  | .arithCmpLtu a b m o => execArithCmpLtu a b m o s
  | .arithCmpGeu a b m o => execArithCmpGeu a b m o s
  | .arithSel a b m o => execArithSel a b m o s
  | .arithSat a b m o => execArithSat a b m o s
  | .copy a b m o => execCopy a b m o s
  | .gate a b m o => execGate a b m o s
  | .jcmp a b m o => execJcmp a b m o s
  | .isect a b m o => execIsect a b m o s
  | .unionKeys a b m o => execUnionKeys a b m o s
  | .diff a b m o => execDiff a b m o s
  | .jwin a b m o => execJwin a b m o s
  | .stp a b m o => execStp a b m o s
  | .stk a b m o => execStk a b m o s
  | .sth a b m o => execSth a b m o s
  | .stt a b m o => execStt a b m o s
  | .rord a b m o => execRord a b m o s
  | .rrel a b m o => execRrel a b m o s
  | .ains a b m o => execAins a b m o s
  | .amax a b m o => execAmax a b m o s
  | .amin a b m o => execAmin a b m o s
  | .alook a b m o => execAlook a b m o s
  | .adrain a b m o => execAdrain a b m o s
  | .aspill a b m o => execAspill a b m o s
  | .aclr a b m o => execAclr a b m o s
  | .mrd a b m o => execMrd a b m o s
  | .mwr a b m o => execMwr a b m o s
  | .mamo a b m o => execMamo a b m o s
  | .msct a b m o => execMsct a b m o s
  | .mgat a b m o => execMgat a b m o s
  | .agen a b m o => execAgen a b m o s
  | .agbase a b m o => execAgbase a b m o s
  | .agre a b m o => execAgre a b m o s
  | .win a b m o => execWin a b m o s
  | .wflush a b m o => execWflush a b m o s
  | .mma a b m o => execMma a b m o s
  | .mmas a b m o => execMmas a b m o s
  | .mdrn a b m o => execMdrn a b m o s
  | .mzero a b m o => execMzero a b m o s
  | .oadd a b m o => execOadd a b m o s
  | .omul a b m o => execOmul a b m o s
  | .omac a b m o => execOmac a b m o s
  | .ocut a b m o => execOcut a b m o s
  | .oconv a b m r v p => execOconv a b m r v p s
  | .cvt a b m r v p => execCvt a b m r v p s
  | .rsc a b m r v p => execRsc a b m r v p s
  | .pack a b m r v p => execPack a b m r v p s
  | .unpack a b m o => execUnpack a b m o s
  | .stat a b m o => execStat a b m o s
  | _ => .next s

/-- A node's turn. -/
def State.nodeTurnOf (s : State) (c : CellId) (k : BitVec 3) : Result := match (s.cell c).word k with
  | none => .next s
  | some w => match decodeNode w.toNat with
    | .ok i => runNode i { s with nodeTurn := (c, k) }
    | .error _ => .next s

/-- Whether a node's turn would change anything. -/
def State.nodeReady (s : State) (c : CellId) (k : BitVec 3) : Bool :=
  let b : State := { s with nodeTurn := (c, k) }
  match b.nodeTurnOf c k with
  | .next s1 => s1 != b
  | _ => false

/-- The slot that the search of R22 picks: the first ready one after the slot issued last. -/
def State.issueSlot (s : State) (c : CellId) : Option (BitVec 3) :=
  ((List.range 8).map (fun i => (s.cell c).last + 1 + BitVec.ofNat 3 i)).find? (s.nodeReady c)

/-- Whether a token or a marker heads a position that a node uses. -/
def Cell.tokenHeads (x : Cell) (k : BitVec 3) : Bool := match x.word k with
  | none => false
  | some w => (wordUses w).any (fun p => ((x.valueAt k p).map (fun u => !u.isData)).getD false)

/-- Whether the turn of a cell, which led from one state to another, was a firing (R21, R23): the node that the search picked delivered no
result that it owed, and took in neither a marker nor aligned tokens alone (DEDUCED, log entry 59). -/
def State.isFiring (before after : State) (c : CellId) : Bool :=
  let x := before.cell c
  match before.issueSlot c with
  | none => false
  | some k => match x.word k with
    | none => false
    | some w =>
      let heads := (wordUses w).filterMap (x.valueAt k)
      let banks := x.queues.toList.filterMap Queue.head
      let replays := match x.nst[k.toNat] with
        | .join buf pos _ _ _ => decide (pos < buf.length)
        | _ => false
      if !x.due[k.toNat].isEmpty || heads.any (fun u => u.tag.kind == kGap) then false
      else if bits w 28 4 = 9 ∧ (bits w 22 6).toNat ≤ 1 then
        decide (banks.length = 8) && banks.all Item.isData
          && (List.range 8).all (fun i =>
            let n (s : State) : Nat := ((s.cell c).queues[i]?.getD Queue.reset).entries.length
            decide (n after < n before))
      else heads.isEmpty || heads.any Item.isData || replays

/-- `TOKEN_FORWARD` (R23): a node handles the control token at the head of its inlets as its function states, when the cell's search
comes to its slot (R22). -/
def execTokenForward (c : CellId) (k : BitVec 3) (s : State) : Result :=
  if (s.cell c).tokenHeads k ∧ s.issueSlot c = some k then s.nodeTurnOf c k else .next s

/-- The turn of the memport node that the search of R22 picks, where a token of a kind is at all its heads. -/
def State.memportToken (s : State) (c : CellId) (kind : BitVec 4) (pick : MpFn → Bool) : Result := match s.issueSlot c with
  | none => .next s
  | some k => if (s.cell c).mpHolds k kind pick then s.nodeTurnOf c k else .next s

/-- `HELD_STORE_RELEASE` (R203, R308): an EOT at a writing node of the memport, when the cell's search comes to its slot (R22). -/
def execHeldStoreRelease (c : CellId) (s : State) : Result := s.memportToken c kEot MpFn.writes

/-- `MEMPORT_ORDER` (R308): an ORDER at a node of the memport, when the cell's search comes to its slot (R22). -/
def execMemportOrder (c : CellId) (s : State) : Result := s.memportToken c kOrder (fun _ => true)

end Sys2Proof.Machine
end

