-- ==== Sys2Proof/Machine/Cut.lean ====
section
/-!
DEFINITION. The mute: where it enters a region, when a cell acts on it, and how a cut ends (R335, R373 to R378).
-/

namespace Sys2Proof.Machine

/-- A mute. -/
def muteItem : Item := bareToken kMute 0 none

/-- Whether a port of the lead sequencer is bound to an inlet queue (DEDUCED, log entry 47). -/
def State.portFed (s : State) (r : Region) (c : CellId) (q : BitVec 3) : Bool :=
  (s.seq r.lead).inPort.toList.any (fun p => p == some (c, q))

/-- Whether a link or a port feeds an inlet queue (DEDUCED, log entry 47). -/
def State.isFed (s : State) (r : Region) (c : CellId) (q : BitVec 3) : Bool := (s.feeder r c q).isSome || s.portFed r c q

/-- The mute enters behind the units of each bound inlet port (R374). An `agen` source emits no further record
from then on, and a cell with no bound inlet queue needs none in a queue. -/
def State.enterMute (s : State) (r : Region) : State :=
  (s.seq r.lead).inPort.toList.foldl (fun s p => match p with
    | some (c, q) => (s.offerCell c q muteItem).1
    | none => s) s

/-- The inlet queues that a gate reads at b or c (R376). -/
def Cell.backEdge (x : Cell) (n : BitVec 6) (q : BitVec 3) : Bool :=
  let rs := x.active.readers n q
  rs.any (fun r => match x.word r.1 with
    | some w => bits w 28 4 == 1 && bits w 22 6 == 1 && (r.2 == posB || r.2 == posC)
    | none => false)

/-- The heads of a region's inlets looked at once mutes have left them (R25): a cell that holds a fault already records no other. -/
def State.checkUnmuted (s : State) (r : Region) : State :=
  (s.cellsOf r).foldl (fun s c => if (s.cell c).fault.valid then s else s.checkHeads c (Vector.replicate 8 Queue.reset)) s

/-- Whether a mute is in a queue. -/
def Queue.hasMute (q : Queue) : Bool := q.units.any isMute

/-- Whether every result in flight of a cell has left it (R91, R164, R202). -/
def Cell.drained (x : Cell) : Bool := x.due.toList.all List.isEmpty && x.mp.outs.isEmpty && x.swIn.isEmpty

/-- Whether the capo heads every bound inlet queue of a cell that takes one; a closed queue takes no capo (R270) (DEDUCED, log entry 47). -/
def Cell.capoPassed (x : Cell) : Bool :=
  (List.range 8).all (fun i => match x.queues[i]? with
    | some q => (x.active.qcfg[i]?.getD none).isNone || !q.live || ((q.head.map (fun u => u.tag.kind == kCapo)).getD false)
    | none => true)

/-- Whether a cell may act on the mute (R375, R377). One that the capo has come to flips first: a mute overtakes no capo (R280). An `agen`
source with a tile under way has not met it yet: it comes behind the last unit that the source emits (R270) (DEDUCED, log entry 47). -/
def State.canMute (s : State) (r : Region) (c : CellId) : Bool :=
  let x := s.cell c
  let has (i : Nat) : Bool :=
    let q := BitVec.ofNat 3 i
    (x.active.qcfg[i]?.getD none).isNone || x.backEdge c.n q || !s.isFed r c q || (x.queues[q.toNat]).hasMute
  let capoHere := x.capoPassed && x.ag.toList.all (fun g => g.due.isEmpty)
  !x.muted && (List.range 8).all has && !(r.cfg.state == .flipping && !x.flipped && capoHere) && x.drained && x.mp.atoms.isEmpty
    && (List.range 8).all (fun k => !s.nodeReady c (BitVec.ofNat 3 k))

/-- The outlets of a configuration: those that links, switch words or node targets name. -/
def CellConfig.allOutlets (x : CellConfig) : List (BitVec 5) :=
  let named (o : BitVec 5) : Bool := x.links.any (fun l => l.so == o) || x.sw.any (fun w => w.outlet == o)
    || (List.range 8).any (fun k => match x.word (BitVec.ofNat 3 k) with
        | some w => decide (o ∈ wordOutlets w)
        | none => false)
  ((List.range 32).map (BitVec.ofNat 5)).filter named

/-- A token emitted once on every outlet of a cell; no converter changes it (R91). -/
def State.emitAll (s : State) (c : CellId) (u : Item) : State :=
  ((s.cell c).active.allOutlets).foldl (fun s o => s.leaveBy c o u) s

/-- Whether a cell holds an `agen` node. -/
def Cell.hasAgen (x : Cell) : Bool := (List.range 8).any (fun k => ((x.word (BitVec.ofNat 3 k)).map isAgen).getD false)

/-- `CELL_MUTE` (R375): the cell emits one MUTE on every outlet and stops. As a retune's mute passes, an addrgen cell latches its pins
anew (R335). -/
def execCellMute (c : CellId) (s : State) : Result :=
  match s.regionOf c with
  | none => .next s
  | some r =>
    if !r.muting || !s.cellRuns c || !s.canMute r c then .next s
    else
      let s1 := s.emitAll c muteItem
      let s2 := if (s1.cell c).hasAgen && !r.cutting then s1.latchPins c else s1
      .next (s2.modCell c (fun x => { x with muted := true }))

/-- Every cell of a region that has something loaded. -/
def State.loadedCells (s : State) (r : Region) : List CellId := s.cellsOf r

/-- Whether every cell of a region has acted. -/
def State.allMuted (s : State) (r : Region) : Bool := (s.loadedCells r).all (fun c => (s.cell c).muted)

end Sys2Proof.Machine
end

