-- ==== Sys2Proof/Machine/Retune.lean ====
section
/-!
DEFINITION. Retunes and invalidations, and the page instructions (R327, R329, R332 to R338).
-/

namespace Sys2Proof.Machine

/-! ### A retune of a region (R334 to R336) -/

/-- Every addrgen cell of a region latches its pins anew (R198). -/
def State.latchRegion (s : State) (r : Region) : State :=
  ((s.cellsOf r).filter (fun c => (s.cell c).hasAgen)).foldl (fun s c => s.latchPins c) s

/-- The source nodes of a region's sections, each once. -/
def Region.sourceNodes (r : Region) : List (CellId × BitVec 3) :=
  ((r.sections.flatMap Section.sources).filterMap (fun n => (r.nodeCell n).map (fun c => (c, n.slot)))).eraseDups

/-- A held store on the pages that hold its address now (R315): each of its parts, or the fault of a page. A byte keeps its place in its
page. -/
def State.retuneStore (s : State) (c : CellId) (h : HeldStore) : Except (XFault × Word64) (List HeldStore) × State :=
  let at_ (a : Nat) : Nat := (BitVec.ofNat 12 a - bits h.va 0 12).toNat
  let n := (h.bytes.map (fun b => at_ b.1 + 1)).foldl max 1
  match s.xlateSpan c .w (h.places == 1) h.va n with
  | (.error e, s1) => (.error e, s1)
  | (.ok ys, s1) =>
    (.ok (ys.map (fun y =>
      { h with
        bytes := (h.bytes.filter (fun b => decide (y.1 ≤ at_ b.1 ∧ at_ b.1 < y.1 + y.2.1))).map (fun b => (y.2.2.pa + (at_ b.1 - y.1), b.2)),
        key := y.2.2.key, places := if y.1 = 0 then h.places else 0, va := h.va + BitVec.ofNat 64 y.1 })), s1)

/-- The held stores of a cell after a retune. One whose page faults now is lost with its tile (R206). -/
def State.retuneHeld (s : State) (c : CellId) : List HeldStore → State
  | [] => s
  | h :: rest => match s.retuneStore c h with
    | (.ok hs, s1) => (s1.modCell c (fun x => { x with mp := { x.mp with held := x.mp.held ++ hs } })).retuneHeld c rest
    | (.error e, s1) => (s1.raiseFault c (mpFault e.1.code h.served.slot h.served.item e.2 1 h.served.ivec)).retuneHeld c rest

/-- A region after a retune that no token carried: no held store of it keeps a frame of before (R315) (DEDUCED, log entry 136). -/
def State.retuneStores (s : State) (r : Region) : State :=
  (s.cellsOf r).foldl (fun s c =>
    let hs := (s.cell c).mp.held
    if hs.isEmpty then s
    else (s.modCell c (fun x => { x with mp := { x.mp with held := [] } })).retuneHeld c hs) s

/-- The first retune of a region begins where nothing holds it back: by token in a retune-safe region, else by a mute, at which the
lead sequencer stops (R335, R373). In a frozen region the pins, and the frames of held stores, are made anew at once (R315, R336). A region that
holds no blocks has completed (DEDUCED, log entry 45). -/
def State.startRetune (s : State) (n : Nat) : State :=
  match s.region n with
  | none => s
  | some r =>
    match r.retunes with
    | [] => s
    | t :: rest =>
      if t.started then s
      else if !r.placed then s.modRegion n (fun r => { r with retunes := [], reprobe := true })
      else if r.cfg.state = .flipping ∨ r.kstate = .loading ∨ r.cut ≠ .none ∨ r.freezing = true then s
      else
        let begin_ (byToken : Bool) (s : State) : State :=
          s.modRegion n (fun r => { r with retunes := { t with byToken := byToken, started := true } :: rest })
        if r.kstate = .frozen then
          let (serial, s1) := s.freshNat
          ((s1.modRegion n (fun r => { r with
            retunes := { t with byToken := true, started := true, inPlace := some serial } :: rest })).latchRegion r).retuneStores r
        else if r.safe then
          r.sourceNodes.foldl (fun s p => s.modCell p.1 (fun x => x.setAg p.2 { x.ag[p.2.toNat] with retune := true })) (begin_ true s)
        else
          ((begin_ false s).enterMute r).modSeq r.lead (fun sq =>
            { sq with run := if sq.run = .running then .stopped else sq.run })

/-- A retune asked of a region; `inval` names the invalidation that waits for it. -/
def State.addRetune (s : State) (n : Nat) (inval : Option Nat) : State :=
  (s.modRegion n (fun r => { r with
    retunes := r.retunes ++ [{ byToken := false, started := false, inval := inval }] })).startRetune n

/-- Whether a unit is a RETUNE. -/
def isRetune (u : Item) : Bool := u.tag.kind == kRetune

/-- Whether a cell still holds a RETUNE that a node has to pass, or has one to emit. -/
def Cell.hasRetune (x : Cell) (n : BitVec 6) : Bool :=
  (List.range 8).any (fun i => match x.queues[i]? with
      | some q => q.units.any isRetune && !(x.active.readers n (BitVec.ofNat 3 i)).isEmpty
      | none => false)
    || x.latches.toList.any (fun l => (l.map isRetune).getD false)
    || x.due.toList.any (fun l => l.any (fun p => isRetune p.2))
    || x.mp.outs.any (fun o => isRetune o.item) || x.swIn.any (fun p => isRetune p.2)
    || x.ag.toList.any (fun g => g.retune)

/-- Whether the RETUNE tokens of a region have left every node (R334). -/
def State.retunePassed (s : State) (r : Region) : Bool :=
  (s.cellsOf r).all (fun c => !(s.cell c).hasRetune c.n)
    && s.wires.all (fun w => !(isRetune w.item && r.hasCell w.dst))
    && (s.die r.die).egress.all (fun e => !r.hasCell e.src || (e.waiting.all (fun u => !isRetune u.2) && e.entries.all (fun x => !isRetune x.item)))
    && (s.die r.die).harp.wait.all (fun p => !(isRetune p.item && r.hasCell p.src))

/-- The invalidations of which every region has completed: STATUS 1 (R333). -/
def State.finishInvals (s : State) : State :=
  let busy (n : Nat) : Bool := s.regions.any (fun r => r.retunes.any (fun t => t.inval == some n))
  (List.range 8).foldl (fun s i =>
    let d := BitVec.ofNat 3 i
    let done := (s.die d).invals.filter (fun v => !busy v.serial)
    done.foldl (fun s v => s.complete d { desc := v.desc, ticket := v.ticket, sel := none, read := [] } 16 1 1)
      (s.modDie d (fun x => { x with invals := x.invals.filter (fun v => busy v.serial) }))) s

/-- The first retune of a region completed, and the next one begun (DEDUCED, log entry 45). The first `pgprobe` after it looks past what is
cached (R338). -/
def State.endRetune (s : State) (r : Region) : State :=
  ((s.modRegion r.serial (fun x => { x with retunes := x.retunes.tail, reprobe := true })).startRetune r.serial).finishInvals

/-- `RETUNE_COMPLETE` (R334 to R336). One begun in a FROZEN region ends when no access issued before it is in flight, also where the region
flows again by then (DEDUCED, log entry 45) (DEDUCED, log entry 136). -/
def execRetuneComplete (n : Nat) (s : State) : Result :=
  match s.region n with
  | none => .next s
  | some r =>
    match r.retunes with
    | [] => .next s
    | t :: _ =>
      let older (k : Nat) : Bool := (s.cellsOf r).all (fun c => s.mpQuietBefore c k)
      if !t.started then .next (s.startRetune n)
      else if (t.inPlace.map older) == some true then .next (s.endRetune r)
      else if t.inPlace.isSome then .next s
      else if r.kstate = .frozen then
        if (s.cellsOf r).all s.mpQuiet then
          .next ((((if t.byToken then s else (s.unmute r).checkUnmuted r).latchRegion r).retuneStores r).endRetune r)
        else .next s
      else if t.byToken then (if s.retunePassed r then .next (s.endRetune r) else .next s)
      else if s.allMuted r && r.cut == .none && (s.cellsOf r).all s.mpQuiet then
        let s1 := (s.unmute r).modSeq r.lead (fun sq => { sq with run := if sq.run = .stopped then .running else sq.run })
        .next (((s1.checkUnmuted r).retuneStores r).endRetune r)
      else .next s

/-! ### Invalidations (R332, R333) -/

/-- Whether a cached translation of a context overlaps a range. -/
def TlbEntry.overlaps (e : TlbEntry) (ctx : BitVec 9) (va n : Nat) : Bool := e.ctx == ctx && overlap e.base (pageBytes e.size) va n

/-- Every cached translation of a context over a range dropped on a die, pins apart. -/
def State.dropRange (s : State) (d : BitVec 3) (ctx : BitVec 9) (va n : Nat) : State :=
  let keep (l : List TlbEntry) : List TlbEntry := l.filter (fun e => !e.overlaps ctx va n)
  let s1 := s.modDie d (fun x => { x with tlb := keep x.tlb, utlbs := x.utlbs.map (fun u => (u.1, keep u.2)) })
  { s1 with seqs := s1.seqs.mapIdx (fun i sq => if seqDie (BitVec.ofNat 7 i) = d then { sq with tlb := keep sq.tlb } else sq) }

/-- Whether a cell of a region pins a page over a range. -/
def State.pinsRange (s : State) (r : Region) (va n : Nat) : Bool :=
  (s.cellsOf r).any (fun c => (s.cell c).pins.any (fun e => e.overlaps r.launch.ctx va n))

/-- `INVALIDATION` (R332, R333). -/
def execInvalidation (d : BitVec 3) (s : State) : Result :=
  s.serve d 2 16 (fun dw => bits (dw 3) 56 8 == 0) (fun q dw s =>
    let va := (dw 0).toNat
    let n4k := (bits (dw 1) 0 32).toNat
    let ctx := bits (dw 1) 32 9
    let dies := bits (dw 1) 48 8
    if va % 4096 ≠ 0 ∨ n4k = 0 ∨ bits (dw 1) 41 7 ≠ 0 ∨ bits (dw 1) 56 8 ≠ 0 ∨ bits (dw 2) 2 62 ≠ 0 ∨ bits (dw 3) 0 56 ≠ 0
        ∨ !s.ctxLive ctx then s.complete d q 16 1 2
    else
      let (serial, s1) := s.freshNat
      let named := ((List.range 8).map (BitVec.ofNat 3)).filter (fun x => dies.getLsbD x.toNat)
      let s2 := named.foldl (fun s x => s.dropRange x ctx va (4096 * n4k)) s1
      let hit := s2.regions.filter (fun r => r.launch.ctx = ctx ∧ r.placed = true ∧ r.die ∈ named ∧ s2.pinsRange r va (4096 * n4k) = true)
      let s3 := s2.modDie d (fun x => { x with invals := x.invals ++ [{ serial := serial, desc := q.desc, ticket := q.ticket }] })
      let s4 := hit.foldl (fun s r => s.addRetune r.serial (some serial)) s3
      s4.finishInvals)

/-! ### The page instructions (R337, R338) -/

/-- An instruction of R388: in a handler of a FROZEN region it traps with RegionFrozen
(DESIGN CHOICE, log entry 46; DEDUCED, log entry 119). -/
def regionGuarded (s : State) (g : BitVec 3) (val : Word64) (body : Seq → Result) : Result :=
  guarded s g 0 (fun sq => if sq.run = .handler then s.trap tRegionFrozen val else body sq)

/-- `RETUNE` (R337). A sequencer without a region has no pin to retune. -/
def execRetune (a : BitVec 5) (q : BitVec 3) (s : State) : Result :=
  regionGuarded s q 0 (fun sq =>
    let va := sq.readG a
    let r? := s.regionOfSeq s.seqTurn
    if bits va 48 16 ≠ 0 then s.trap tInvalid va
    else if ((r?.map (fun r => decide (4 ≤ r.retunes.length))).getD false) then s.trap tRetuneBusy va
    else if !s.storesCross s.seqTurn then s.waitOn .memory
    else
      let s1 := s.flush s.seqTurn
      let drop (l : List TlbEntry) : List TlbEntry := tlbDrop sq.ctx va l
      let s2 := s1.modSeq s.seqTurn (fun x => { x with tlb := drop x.tlb })
      let s3 := s2.modDie (seqDie s.seqTurn) (fun x => { x with
        tlb := drop x.tlb,
        utlbs := x.utlbs.map (fun u => match r? with
          | some r => if r.covers r.die (bits u.1 0 4) (bits u.1 4 4) then (u.1, drop u.2) else u
          | none => u) })
      let s4 := match r? with
        | some r => if s3.pinsRange r va.toNat 1 then
            s3.addRetune r.serial none
          else s3
        | none => s3
      s4.goOn (s4.seq s.seqTurn))

/-- The status word of `pgprobe` for a translation (DEDUCED, log entry 44). -/
def probeWord (found : WalkEnd) (latched retuning : Bool) : Word64 := match found with
  | .leaf e =>
    (0 : BitVec 42) ++ pteKeyh e.pte ++ (3 - e.size) ++ (0 : BitVec 1) ++ BitVec.ofBool retuning ++ BitVec.ofBool latched
      ++ BitVec.ofBool (ptePeer e.pte) ++ BitVec.ofBool (pteHost e.pte) ++ e.size ++ BitVec.ofBool (pteX e.pte)
      ++ BitVec.ofBool (pteW e.pte) ++ BitVec.ofBool (pteR e.pte) ++ (1 : BitVec 1)
  | .bad level malformed =>
    (0 : BitVec 51) ++ BitVec.ofNat 2 level ++ BitVec.ofBool malformed ++ BitVec.ofBool retuning ++ BitVec.ofBool latched
      ++ (0 : BitVec 8)

/-- `PGPROBE` (R338): the lookup and the walk of R327 are one step. The first one after a retune of its region walks (DEDUCED, log entry
44). -/
def execPgprobe (d a : BitVec 5) (q : BitVec 3) (sense : BitVec 1) (s : State) : Result :=
  guarded s q sense (fun sq =>
    let va := sq.readG a
    if bits va 48 16 ≠ 0 then s.goOn (sq.writeG d 0)
    else match s.lookupWay (seqDie s.seqTurn) sq.ctx va sq.tlb with
    | .down => s.waitOn .bridge
    | .broken => .next (s.seqFault s.seqTurn 0x19 0)
    | .up =>
      let anew := ((s.regionOfSeq s.seqTurn).map Region.reprobe).getD false
      let drop (l : List TlbEntry) : List TlbEntry := if anew then tlbDrop sq.ctx va l else l
      let s0 := s.modDie (seqDie s.seqTurn) (fun x => { x with tlb := drop x.tlb })
      let l := s0.lookup (seqDie s.seqTurn) sq.ctx va 64 (drop sq.tlb)
      let latched := match s.regionOfSeq s.seqTurn with
        | some r => s.pinsRange r va.toNat 1
        | none => false
      let retuning := match s.regionOfSeq s.seqTurn with
        | some r => !r.retunes.isEmpty
        | none => false
      let s1 := s.modDie (seqDie s.seqTurn) (fun x => { x with tlb := l.l2 })
      let s2 := match s.regionOfSeq s.seqTurn with
        | some r => if anew then s1.modRegion r.serial (fun r => { r with reprobe := false }) else s1
        | none => s1
      s2.goOn (({ sq with tlb := l.l1 } : Seq).writeG d (probeWord l.found latched retuning)))

/-- `PAGE_WALK` (R327, R329): a walk fills the die's last-level TLB; one that fails leaves no translation of the page there. -/
def execPageWalk (d : BitVec 3) (ctx : BitVec 9) (va : Word64) (s : State) : Result :=
  if bits va 48 16 ≠ 0 then .next s
  else .next (s.modDie d (fun x => { x with
    tlb := match s.walk ctx va with
      | .leaf e => tlbUse 8192 e x.tlb
      | .bad _ _ => tlbDrop ctx va x.tlb }))

end Sys2Proof.Machine
end

