-- ==== Sys2Proof/Machine/Flip.lean ====
section
/-!
DEFINITION. The capo, the flip of a cell and of a region, and the configuration instructions (R257, R258, R268 to R280, R294).
-/

namespace Sys2Proof.Machine

/-! ### What a cell must not hold (R270, R166) -/

/-- Whether a node holds state of R166 other than a reorder's NEXT and a gate in FIRST. -/
def NodeState.holds : NodeState → Bool
  | .idle => false
  | .carry => true
  | .join buf _ mark _ _ => !buf.isEmpty || mark
  | .jwin buf closed dropped => !buf.isEmpty || closed || dropped.isSome
  | .reorder _ held gap => !held.isEmpty || gap.isSome
  | .window line _ marks => !line.isEmpty || !marks.isEmpty
  | .online pa pb pc ea eb ec => !(pa ++ pb ++ pc).isEmpty || ea || eb || ec
  | .pack held => !held.isEmpty

/-- Whether a cell holds a half-matched operand, state, unreleased stores or atomics in flight. -/
def Cell.holdsState (x : Cell) : Bool :=
  x.latches.toList.any Option.isSome || x.nst.toList.any NodeState.holds || !x.mp.held.isEmpty || !x.mp.atoms.isEmpty

/-- A capo. -/
def capoItem : Item := bareToken kCapo 0 none

/-- Whether the capo has passed every bound inlet of a cell, and its last result has left it (DEDUCED, log entry 47). -/
def State.mayFlip (s : State) (c : CellId) : Bool :=
  let x := s.cell c
  !x.flipped && x.capoPassed && x.drained && x.ag.toList.all (fun g => g.due.isEmpty)
    && (List.range 8).all (fun k => !s.nodeReady c (BitVec.ofNat 3 k))

/-! ### The configuration taken over -/

/-- A queue at a flip (R231, R270), or none for the configuration fault. -/
def Queue.flip (q : Queue) (f : Option QCfg) (kv circ : Bool) : Option Queue := match f with
  | none => some { q with state := .unbound }
  | some f =>
    if q.state = .unbound ∨ bits q.qctl 0 4 ≠ bits f.qctl 0 4 ∨ q.kv ≠ kv ∨ q.circ ≠ circ then
      if q.units.isEmpty then some (Queue.bind { q with kv := kv, circ := circ } f) else none
    else some { q with qctl := f.qctl, qpar := f.qpar, qring := f.qring }

/-- The queue behind an outlet port (R258) (DESIGN CHOICE, log entry 8). -/
def outletQueue : Queue :=
  { Queue.reset with
    state := .bound, qctl := BitVec.ofNat 64 (6 + 64 * 2 ^ 4 + 32 * 2 ^ 15 + 2 ^ 26 + 2 ^ 29) }

/-- The placement map with the records named since EMPTY (R268). -/
def Region.newMap (r : Region) : List Placed :=
  (r.map.filter (fun p => r.named.all (fun n => !(n.px == p.px && n.py == p.py) && !(n.lx == p.lx && n.ly == p.ly)))) ++ r.named

/-- The ports of the lead sequencer that a cell of blk(0, 0) serves bound at its flip (R257, R318), also where the flip takes away only the
link that fed a queue of it. A queue behind an outlet that the new
configuration does not name keeps the units that it holds, the capo among them, for `get` (R272). -/
def State.bindPorts (s : State) (r : Region) (v : View) (c : CellId) : State :=
  let here := r.newMap.any (fun p => p.lx == 0 && p.ly == 0 && decide (r.cellAt p.px p.py c.n = c))
  if !here || !decide (c.n < 8) then s
  else
    let x := v.at c
    (List.range 8).foldl (fun s k =>
      let q := BitVec.ofNat 3 k
      let port := 8 * c.n.toNat + k
      s.modSeq r.lead (fun sq =>
        let old := sq.inPort[port]?.getD none
        let inp : Option (CellId × BitVec 3) :=
          if (x.qcfg[k]?.getD none).isSome ∧ (v.feeder c q).isNone then some (c, q)
          else if old = some (c, q) then none else old
        let named := BitVec.ofNat 5 (24 + k) ∈ x.sw.map SwWord.outlet
          ∨ (List.range 8).any (fun j => match x.word (BitVec.ofNat 3 j) with
              | some w => decide (BitVec.ofNat 5 (24 + k) ∈ wordOutlets w)
              | none => false)
        let was := sq.outPort[port]?.getD none
        let out : Option Queue := if named then some (was.getD outletQueue) else was
        { sq with inPort := sq.inPort.setIfInBounds port inp, outPort := sq.outPort.setIfInBounds port out })) s

/-- The fretboard of a cell after a flip: its update and lookup nodes give it their geometry (R217). -/
def Cell.withTable (x : Cell) : Cell := match x.geoReg, x.geo with
  | some _, some g => { x with fb := { x.fb with present := true, logn := g.logn, vt := g.isInt } }
  | _, _ => x

/-- A cell takes over its shadow (R270), or none for the configuration fault. A cell without one keeps what it has. -/
def State.applyShadow (s : State) (r : Region) (v : View) (c : CellId) : Option State :=
  let x := s.cell c
  match x.shadow with
  | none => some (s.bindPorts r v c)
  | some sh =>
    let qs := (List.range 8).map (fun i =>
      let q := BitVec.ofNat 3 i
      (x.queues[i]?.getD Queue.reset).flip (sh.qcfg[i]?.getD none) (v.kvQueue c q) (v.circQueue c q))
    if qs.any Option.isNone then none
    else
      let x1 : Cell := { x with
        active := sh, shadow := none,
        queues := Vector.ofFn (fun i : Fin 8 => ((qs[i.toNat]?).bind id).getD Queue.reset),
        nst := Vector.replicate 8 .idle, ckpt := Vector.replicate 8 .idle, cur := Vector.replicate 8 none,
        ag := Vector.replicate 8 AgenSt.reset, mp := { x.mp with planeN := Vector.replicate 8 0 },
        fb := if sh.keep then x.fb else Fretboard.reset, mx := if sh.keep then x.mx else MatrixSt.reset }
      some (((s.setCell c x1.withTable).bindPorts r v c).latchPins c)

/-- What every flip resets in a cell (R22, R270). -/
def Cell.afterFlip (x : Cell) : Cell := { x with last := 7, pin := Vector.replicate 8 [], epoch := !x.epoch, flipped := true }

/-- Whether a region is retune-safe (R334): at every node that reads two or more positions, each is fed from `agen` nodes only. A node that
a pulse alone triggers is fed from none. -/
def View.retuneSafe (v : View) : Bool :=
  let ns := v.cells.flatMap (fun p => (List.range 8).filterMap (fun i =>
    if (p.2.word (BitVec.ofNat 3 i)).isSome then some (p.1, BitVec.ofNat 3 i) else none))
  let es := ns.flatMap (fun x => (v.edges x.1 x.2).map (fun y => (x, y)))
  let reads (n : CellId × BitVec 3) : List Nat := match (v.at n.1).word n.2 with
    | some w => (wordUses w).filter (fun p => decide (p < 2) || ((v.at n.1).bindAt n.2.toNat p).isSome || es.any (fun e => e.2 == (n, p)))
    | none => []
  let source (n : CellId × BitVec 3) : Bool := match (v.at n.1).word n.2 with
    | some w => isAgen w
    | none => false
  let fedBy (clean : List (CellId × BitVec 3)) (n : CellId × BitVec 3) (p : Nat) : Bool :=
    let from_ := (es.filter (fun e => e.2 == (n, p))).map Prod.fst
    !from_.isEmpty && from_.all (fun x => decide (x ∈ clean))
  let round (clean : List (CellId × BitVec 3)) : List (CellId × BitVec 3) :=
    clean.filter (fun n => source n || (!(reads n).isEmpty && (reads n).all (fedBy clean n)))
  let clean := (List.range ns.length).foldl (fun c _ => round c) ns
  ns.all (fun n => decide ((reads n).length < 2) || (reads n).all (fedBy clean n))

/-- The block of the lead cell under a placement map (R268), as its die's coordinates: that in which the region was placed, where the map
names none. -/
def Region.leadAt (r : Region) (m : List Placed) : BitVec 4 × BitVec 4 :=
  match m.find? (fun p => p.lx == r.launch.leadLx && p.ly == r.launch.leadLy) with
  | some p => (r.x + p.px, r.y + p.py)
  | none => (r.leadX, r.leadY)

/-- The flip complete (R272, R294): the status is EMPTY, EPOCH changes, the map takes the records flipped in, and the lead block is read
through it; groups and sections are IDLE, and a retune that waited begins. The lead sequencer stays the one that runs the control program
(DEDUCED, log entry 134). -/
def State.completeFlip (s : State) (n : Nat) : State :=
  match s.region n with
  | none => s
  | some r =>
    if r.cfg.state = .flipping ∧ (s.cellsOf r).all (fun c => (s.cell c).flipped) = true then
      let s1 := (s.cellsOf r).foldl (fun s c => s.modCell c (fun x => { x with flipped := false })) s
      let safe := (s1.stagedView r).retuneSafe
      let s2 := s1.modRegion n (fun r => { r with
        cfg := { CfgStatus.reset with epoch := !r.cfg.epoch }, map := r.newMap, named := [], tried := [], lostLoad := false,
        leadX := (r.leadAt r.newMap).1, leadY := (r.leadAt r.newMap).2, safe := safe,
        groups := r.groups.map (fun g => { g with state := .idle, child := 0 }),
        sections := r.sections.map (fun x => { x with running := x.parent == 0x7F, idx := 0, ended := 0 }) })
      s2.startRetune n
    else s

/-- `CELL_FLIP` (R270, R279). -/
def execCellFlip (c : CellId) (s : State) : Result :=
  match s.regionOf c with
  | none => .next s
  | some r =>
    if r.cfg.state ≠ .flipping ∨ !s.cellRuns c ∨ !s.mayFlip c then .next s
    else if (s.cell c).holdsState then .next (s.raiseFault c (FaultReg.ofCode 0x04))
    else
      let s1 := s.emitAll c capoItem
      let popCapo (q : Queue) : Queue := if (q.head.map (fun u => u.tag.kind == kCapo)).getD false then q.pop else q
      let s2 := s1.modCell c (fun x => { x with queues := x.queues.map popCapo })
      match s2.applyShadow r (s2.stagedView r) c with
      | none => .next (s1.raiseFault c (FaultReg.ofCode 0x04))
      | some s3 => .next (((s3.modCell c Cell.afterFlip).checkHeads c (s.cell c).queues).completeFlip r.serial)

/-! ### The configuration instructions (R274 to R277) -/

def CfgState.failed : CfgState → Bool
  | .crcFail | .fetchFault | .rejected => true
  | _ => false

/-- Every shadow of a region discarded (DEDUCED, log entry 41). -/
def State.dropShadows (s : State) (r : Region) : State :=
  (s.cellsOf r).foldl (fun s c => s.modCell c (fun x => { x with shadow := none })) s

/-- The status of the running sequencer's region. -/
def State.cfgOf (s : State) : CfgStatus := match s.regionOfSeq s.seqTurn with
  | some r => r.cfg
  | none => CfgStatus.reset

/-- `CFGLD` (R274). Loading begins from EMPTY or from STAGED, which no longer holds. A sequencer without a region loads nothing
(DEDUCED, log entry 41). -/
def execCfgld (a : BitVec 5) (q : BitVec 3) (s : State) : Result :=
  regionGuarded s q 0 (fun sq =>
    let va := sq.readG a
    let st := s.cfgOf
    if va.toNat % 64 ≠ 0 then s.trap tMisaligned va
    else if st.state.failed then s.trap tConfigFailed st.word
    else if st.state = .flipping then s.trap tConfigBusy va
    else
      match s.regionOfSeq s.seqTurn with
      | none => s.goOn sq
      | some r =>
        if 16 ≤ r.fetches.length then s.waitOn .cfgld
        else if !s.storesCross s.seqTurn then s.waitOn .memory
        else
          let s1 := (s.flush s.seqTurn).modRegion r.serial (fun r => { r with
            fetches := r.fetches ++ [{ addr := va, born := s.cyc }],
            cfg := { r.cfg with state := .loading, issued := if r.cfg.issued < 256 then r.cfg.issued + 1 else r.cfg.issued } })
          s1.goOn sq)

/-- A `cfgchk` that waits no more. -/
def State.finishCfgchk (s : State) (q : BitVec 7) (d : BitVec 5) : State :=
  let sq := s.seq q
  let st := match s.regionOfSeq q with
    | some r => r.cfg
    | none => CfgStatus.reset
  s.setSeq q { (sq.writeG d st.word) with pc := sq.pc + 4, wait := .none }

/-- Whether a `cfgld` of a sequencer's region is outstanding. -/
def State.fetching (s : State) (q : BitVec 7) : Bool := match s.regionOfSeq q with
  | some r => !r.fetches.isEmpty
  | none => false

/-- `CFGCHK` (R275). -/
def execCfgchk (d : BitVec 5) (q : BitVec 3) (s : State) : Result :=
  regionGuarded s q 0 (fun _ =>
    if s.fetching s.seqTurn then s.waitOn (.cfgchk d) else .next (s.finishCfgchk s.seqTurn d))

/-- `CFGCHK_COMPLETE` (R275). -/
def execCfgchkComplete (q : BitVec 7) (s : State) : Result :=
  match (s.seq q).wait with
  | .cfgchk d => if s.fetching q || (s.seq q).run != .running then .next s else .next (s.finishCfgchk q d)
  | _ => .next s

/-- The capo sent (R276): behind the units of each bound inlet port, and to each bound inlet queue that nothing feeds. -/
def State.sendCapo (s : State) (r : Region) : State :=
  let s1 := (s.seq r.lead).inPort.toList.foldl (fun s p => match p with
    | some (c, q) => (s.offerCell c q capoItem).1
    | none => s) s
  (s1.cellsOf r).foldl (fun s c => (List.range 8).foldl (fun s i =>
    if ((s.cell c).active.qcfg[i]?.getD none).isSome ∧ s.isFed r c (BitVec.ofNat 3 i) = false then
      (s.offerCell c (BitVec.ofNat 3 i) capoItem).1
    else s) s) s1

/-- `CFGFLIP` (R276). -/
def execCfgflip (q : BitVec 3) (s : State) : Result :=
  regionGuarded s q 0 (fun _ =>
    let st := s.cfgOf
    match s.regionOfSeq s.seqTurn, st.state with
    | _, .empty => s.trap tConfigEmpty st.word
    | _, .loading => s.trap tConfigBusy st.word
    | _, .flipping => s.trap tConfigBusy st.word
    | some r, .staged =>
      match r.sections.findIdx? (fun x => decide (0 < x.left)) with
      | some i => s.trap tSectionBusy (BitVec.ofNat 64 i)
      | none =>
        let v := s.stagedView r
        let refuse (f : LoadFail) : Result :=
          let s1 := s.modRegion r.serial (fun r => { r with cfg := r.cfg.fail f })
          s1.trap tConfigFailed (r.cfg.fail f).word
        if v.ungatedCycle then refuse { LoadFail.of .rejected 7 with bx := r.cfg.fbx, by_ := r.cfg.fby, cell := r.cfg.fcell }
        else match (s.stagedReject r).orElse (fun _ => ((v.badPulse).orElse (fun _ => v.badCircuit)).map (fun c => (c, 0))) with
          | some (c, k) => refuse { LoadFail.of .rejected 4 with bx := c.x - r.x, by_ := c.y - r.y, cell := c.n, slot := k }
          | none =>
            let s1 := s.modRegion r.serial (fun r => { r with cfg := { r.cfg with state := .flipping } })
            let s2 := s1.sendCapo r
            s2.goOn (s2.seq s.seqTurn)
    | _, _ => s.trap tConfigFailed st.word)

/-- `CFGABORT` (R277). -/
def execCfgabort (q : BitVec 3) (s : State) : Result :=
  regionGuarded s q 0 (fun sq =>
    let st := s.cfgOf
    if st.state = .flipping then s.trap tConfigBusy st.word
    else if s.fetching s.seqTurn then s.waitOn .cfgabort
    else
      match s.regionOfSeq s.seqTurn with
      | none => s.goOn sq
      | some r =>
        if st.state = .empty then s.goOn sq
        else ((s.dropShadows r).modRegion r.serial (fun r => { r with
          cfg := { CfgStatus.reset with epoch := r.cfg.epoch }, named := [], tried := [], lostLoad := false })).goOn sq)

/-- `CONFIG_FETCH_COMPLETE` (R274, R278): the k-th fetch outstanding of a region ends. Only the first failure is recorded; after a fetch
fault no fetch writes a shadow. -/
def execConfigFetchComplete (n : Nat) (k : Nat) (s : State) : Result :=
  match s.region n with
  | none => .next s
  | some r =>
    match r.fetches[k]? with
    | none => .next s
    | some f => match s.engineWay r.die r.launch.ctx f.addr with
    | .down => .next s
    | .broken => .next ((s.modRegion n (fun r => { r with fetches := r.fetches.eraseIdx k })).raiseFault r.leadCell (FaultReg.ofCode 0x19))
    | .up =>
      let s0 := s.settleDie r.die
      let s1 := s0.modRegion n (fun r => { r with fetches := r.fetches.eraseIdx k, tried := r.tried ++ s0.namesBlock r f.addr })
      if r.lostLoad then .next s1
      else
        match s0.fetchBlock r f.addr none (fun x y => decide ((x, y) ∈ r.tried)) with
        | .error e =>
          if e.held then .next s else
          let s2 := s1.modRegion n (fun r => { r with
            cfg := if r.cfg.state.failed then r.cfg else r.cfg.fail e, lostLoad := e.state == .fetchFault })
          .next (if e.state = .fetchFault then (s2.dropShadows r).modRegion n (fun r => { r with faultAt := e.addr }) else s2)
        | .ok rec_ =>
          let p : Placed := ⟨rec_.head.lbx, rec_.head.lby, rec_.head.pbx, rec_.head.pby⟩
          .next ((s1.placeShadows r rec_).modRegion n (fun r =>
            let loaded := r.cfg.loaded + 1
            { r with
              named := r.named ++ [p],
              cfg := { r.cfg with
                loaded := loaded, state := if loaded = r.cfg.issued ∧ r.cfg.state.failed = false then .staged else r.cfg.state } }))

end Sys2Proof.Machine
end

