-- ==== Sys2Proof/Machine/SeqPort.lean ====
section
/-!
DEFINITION. The sequencer's ports, its accumulators and the queue instructions (R152 to R157, R252 to R255).
-/

namespace Sys2Proof.Machine

/-! ### Ports (R122, R257) -/

/-- The port numbers of R130. -/
def inVal (n : BitVec 6) : Word64 := n.setWidth 64
def outVal (n : BitVec 6) : Word64 := 64 + n.setWidth 64
def accVal (n : BitVec 4) : Word64 := 128 + n.setWidth 64

/-- The queue behind an inlet port, with its name. -/
def State.inlet (s : State) (q : BitVec 7) (n : BitVec 6) : Option ((CellId × BitVec 3) × Queue) :=
  ((s.seq q).inPort[n.toNat]).map (fun p => (p, (s.cell p.1).queues[p.2.toNat]))

/-- A port instruction under its guard, in a region that is not FROZEN, on a bound inlet (R122, R388) (DESIGN CHOICE, log entry 46). -/
def onInlet (s : State) (g : BitVec 3) (n : BitVec 6) (body : Seq → CellId → BitVec 3 → Queue → Result) : Result :=
  regionGuarded s g (inVal n) (fun sq => match s.inlet s.seqTurn n with
    | none => s.trap tPortUnbound (inVal n)
    | some (p, x) => body sq p.1 p.2 x)

/-- The same on a bound outlet. -/
def onOutlet (s : State) (g : BitVec 3) (n : BitVec 6) (body : Seq → Queue → Result) : Result :=
  regionGuarded s g (outVal n) (fun sq => match sq.outPort[n.toNat] with
    | none => s.trap tPortUnbound (outVal n)
    | some x => body sq x)

/-! ### `put` (R152, R153) -/

/-- The unit that a `put` offers: its values under the template, with the port's SEQ. -/
def Seq.putUnit (sq : Seq) (a : BitVec 5) (n : BitVec 6) (c : BitVec 4) : Item :=
  let t := sq.tmpl[n.toNat]
  unitOf { t with flags := flagsOf t.flags, seq := sq.putSeq[n.toNat] } (sq.readList a c.toNat)

/-- A sequencer after a `put`: the next SEQ, `p7`, and the back-off after a loss. -/
def Seq.afterPut (sq : Seq) (n : BitVec 6) (lost : Bool) : Seq :=
  let sq1 := { sq with putSeq := sq.putSeq.set n.toNat (sq.putSeq[n.toNat] + 1) }
  let sq2 := if lost then { sq1 with backoff := sq1.backoff.set n.toNat (sq1.cycle + 64) } else sq1
  sq2.writeP 7 (!lost)

/-- `PUT` (R152). Where a spill ring cannot be reached, the offer is made again after the freeze (R244, R393)
(DESIGN CHOICE, log entry 8). -/
def execPut (a : BitVec 5) (n : BitVec 6) (q : BitVec 3) (c : BitVec 4) (s : State) : Result :=
  onInlet s q n (fun sq cell k _ =>
    if sq.cycle < sq.backoff[n.toNat] then .next (s.setSeq s.seqTurn { sq with wait := .put n })
    else
      let (s1, out) := s.offerCell cell k (sq.putUnit a n c)
      if out = .retry then .next (s1.modSeq s.seqTurn (fun x => { x with run := .stopped }))
      else s1.goOn ((s1.seq s.seqTurn).afterPut n (out == .lost)))

/-- `BACK_OFF_END` (R153, R303): the delayed `put` or `send` proceeds. -/
def execBackOffEnd (q : BitVec 7) (s : State) : Result :=
  let sq := s.seq q
  let due (t : Word64) : Result := if t ≤ sq.cycle then .next (s.setSeq q { sq with wait := .none }) else .next s
  match sq.wait with
  | .put n => due sq.backoff[n.toNat]
  | .send c => due sq.chBack[c.toNat]
  | _ => .next s

/-! ### `get` and `peek` (R154, R155) -/

/-- The accumulator attached to an outlet. -/
def Seq.accOn (sq : Seq) (n : BitVec 6) : Option (Fin 16 × BitVec 4) :=
  (List.finRange 16).findSome? (fun i => match sq.accs[i].attach with
    | some (o, c) => if o = n then some (i, c) else none
    | none => none)

/-- A unit has left its region by the control program: its invocations cannot be rerun (R395). -/
def State.tookOut (s : State) (q : BitVec 7) (u : Item) : State := match (s.seq q).region with
  | some r => s.modRegion r (fun g => { g with norerun := addInvs g.norerun u.invs })
  | none => s

/-- The first `n` payload double-words of a unit. -/
def unitDwords (u : Item) (n : Nat) : List Word64 := (List.range n).map u.dword

/-- The head of an outlet popped into registers: PTAG, and the acquire of an ORDER token (R154, R310). -/
def State.popOut (s : State) (q : BitVec 7) (d : BitVec 5) (n : BitVec 6) (c : BitVec 4) (x : Queue) (u : Item) : State :=
  let sq := s.seq q
  let sq1 : Seq := { sq with
    outPort := sq.outPort.set n.toNat (some x.pop), ptag := u.tag.word, wait := .none, pc := sq.pc + 4,
    acq := if u.tag.kind = kOrder then sq.acq ++ (orderEntries u.v0).map orderOfWord else sq.acq }
  (s.setSeq q (sq1.writeList d (unitDwords u (c.toNat + 1)))).tookOut q u

/-- `GET` (R154). -/
def execGet (d : BitVec 5) (n : BitVec 6) (q : BitVec 3) (c : BitVec 4) (s : State) : Result :=
  onOutlet s q n (fun sq x =>
    if (sq.accOn n).isSome then s.trap tPortBusy (outVal n)
    else match x.head with
      | none => .next (s.setSeq s.seqTurn { sq with wait := .get d n c })
      | some u => .next (s.popOut s.seqTurn d n c x u))

/-- `GET_COMPLETE` (R154). -/
def execGetComplete (q : BitVec 7) (s : State) : Result :=
  let sq := s.seq q
  match sq.wait, sq.run with
  | .get d n c, .running => match sq.outPort[n.toNat] with
    | none => .next s
    | some x => match x.head with
      | none => .next s
      | some u => .next (s.popOut q d n c x u)
  | _, _ => .next s

/-- `PEEK_INLET` (R155). -/
def execPeekInlet (d : BitVec 5) (n : BitVec 6) (q : BitVec 3) (s : State) : Result :=
  onInlet s q n (fun sq _ _ x => s.goOn (sq.writeG d (BitVec.ofNat 64 x.free)))

/-- `PEEK_OUTLET` (R155). -/
def execPeekOutlet (d : BitVec 5) (n : BitVec 6) (q : BitVec 3) (s : State) : Result :=
  onOutlet s q n (fun sq x => s.goOn (sq.writeG d (match x.head with
    | some u => u.tag.word
    | none => 0xFFFFFFFFFFFFFFFF)))

/-! ### Accumulators (R156, R157) -/

/-- A lane with an exact sum saturated to `i64`, and whether it saturated. -/
def satLane (x : Word64) (y : Int) : Word64 × Bool :=
  let (v, sat) := clampInt 64 (x.toInt + y)
  (BitVec.ofInt 64 v, sat)

/-- A lane with an exact `f32` term added under `.rne.sat` (R157). -/
def addF32Lane (x : Word64) (y : FVal) : Word64 × Bool :=
  let c := FloatFmt.f32.conv .rne false ((FloatFmt.f32.read (bits x 0 32).toNat).add .rne y)
  (BitVec.ofNat 64 c.code, c.sat)

/-- The `f32` maximum or minimum of a lane and a record's lane; a NaN of the record leaves the lane as it is, and any other value leaves
0 in Li[63:32], as command 3 does (DESIGN CHOICE, log entry 51). -/
def extF32Lane (wantMax : Bool) (x : Word64) (y : Nat) : Word64 :=
  let a := FloatFmt.f32.read (bits x 0 32).toNat
  let b := FloatFmt.f32.read y
  let old : Word64 := (bits x 0 32).setWidth 64
  if b.isNan then x
  else if a.isNan then BitVec.ofNat 64 y
  else if wantMax then (if a.below b then BitVec.ofNat 64 y else old)
  else (if b.below a then BitVec.ofNat 64 y else old)

/-- Lanes from `f`, over the first `n`; the others stay. -/
def mapLanes (ls : Vector Word64 16) (n : Nat) (f : Nat → Word64 → Word64 × Bool) : Vector Word64 16 × Bool :=
  let out := ls.mapIdx (fun i x => if i < n then f i x else (x, false))
  (out.map Prod.fst, out.toList.any Prod.snd)

/-- One record added under a command (R157): the lanes, and whether one saturated (DEDUCED, log entry 50). -/
def accRecord (cmd : Nat) (t : Tag) (p : Payload) (ls : Vector Word64 16) : Vector Word64 16 × Bool :=
  let w : Int := t.weight.toNat
  let i32 (i : Nat) : Int := (bits p (32 * i) 32).toInt
  let i64 (i : Nat) : Word64 := bits p (64 * i) 64
  let f32 (i : Nat) : FVal := FloatFmt.f32.read (bits p (32 * i) 32).toNat
  let pure (f : Nat → Word64 → Word64) (i : Nat) (x : Word64) : Word64 × Bool := (f i x, false)
  match cmd with
  | 1 => mapLanes ls 16 (fun i x => satLane x (i32 i))
  | 2 => mapLanes ls 8 (fun i x => satLane x (i64 i).toInt)
  | 3 => mapLanes ls 16 (fun i x => addF32Lane x (f32 i))
  | 4 => mapLanes ls 16 (fun i x => satLane x (i32 i * w))
  | 5 => mapLanes ls 16 (fun i x => addF32Lane x ((f32 i).mul (.fin false t.weight.toNat 0)))
  | 6 => mapLanes ls 16 (pure (fun i x => if x.toInt < i32 i then BitVec.ofInt 64 (i32 i) else x))
  | 7 => mapLanes ls 16 (pure (fun i x => if i32 i < x.toInt then BitVec.ofInt 64 (i32 i) else x))
  | 8 => mapLanes ls 16 (pure (fun i x => extF32Lane true x (bits p (32 * i) 32).toNat))
  | 9 => mapLanes ls 16 (pure (fun i x => extF32Lane false x (bits p (32 * i) 32).toNat))
  | 10 => mapLanes ls 6 (pure (fun i x => match i with
      | 0 => x + 1
      | 1 => x + BitVec.ofNat 64 t.weight.toNat
      | 4 => if hasFlag t.flags fPoison then x + 1 else x
      | 5 => if hasFlag t.flags fLate then x + 1 else x
      | _ => x))
  | 11 => mapLanes ls 16 (fun i x => if i = (bits p 0 4).toNat then satLane x (bits p 64 32).toInt else (x, false))
  | 12 => mapLanes ls 16 (fun i x => if i = (bits p 0 4).toNat then satLane x ((bits p 64 32).toInt * w) else (x, false))
  | 13 => mapLanes ls 8 (pure (fun i x => x ||| i64 i))
  | 14 => mapLanes ls 8 (pure (fun i x => x ^^^ i64 i))
  | 15 => mapLanes ls 8 (pure (fun i _ => i64 i))
  | _ => (ls, false)

/-- The identity of a command's lanes. -/
def accIdentity (cmd : Nat) : Word64 := match cmd with
  | 6 => 0xFFFFFFFF80000000
  | 7 => 0x7FFFFFFF
  | 8 => 0xFF800000
  | 9 => 0x7F800000
  | _ => 0

/-- A bit of a status field set where a condition holds. -/
def orBit (b : Bool) (i : Fin 16) (v : BitVec 16) : BitVec 16 := if b then v ||| BitVec.ofNat 16 (2 ^ i.val) else v

/-- A unit taken by an attached accumulator (R157). A pair counts as two records in order. -/
def Seq.accTake (sq : Seq) (i : Fin 16) (cmd : BitVec 4) (u : Item) : Seq :=
  let a := sq.accs[i]
  if u.isData then
    let (l1, s1) := accRecord cmd.toNat u.tag u.v0 a.lanes
    let (l2, s2) := match u.v1 with
      | some v => accRecord cmd.toNat u.tag v l1
      | none => (l1, false)
    { sq with
      accs := sq.accs.set i { a with lanes := l2 },
      accSat := orBit (s1 || s2) i sq.accSat,
      accPois := orBit (hasFlag u.tag.flags fPoison) i sq.accPois }
  else if u.tag.kind = kGap then
    if cmd = 10 then
      let l := (a.lanes.set 2 (a.lanes[2] + BitVec.ofNat 64 (gapLost u.v0))).set 3 (a.lanes[3] + 1)
      { sq with accs := sq.accs.set i { a with lanes := l } }
    else sq
  else if u.tag.kind = kEoi then { sq with accs := sq.accs.set i { a with attach := none } }
  else sq

/-- An accumulator takes the head behind its outlet. -/
def State.accStep (s : State) (q : BitVec 7) (i : Fin 16) : State :=
  let sq := s.seq q
  match sq.accs[i].attach with
  | none => s
  | some (n, cmd) => match sq.outPort[n.toNat] with
    | none => s
    | some x => match x.head with
      | none => s
      | some u =>
        let sq1 := { sq with outPort := sq.outPort.set n.toNat (some x.pop) }
        (s.setSeq q (sq1.accTake i cmd u)).tookOut q u

/-- An accumulator takes units until none is left, it detaches, or `n` have been taken (DEDUCED, log entry 49). -/
def State.accAll (q : BitVec 7) (i : Fin 16) : Nat → State → State
  | 0, s => s
  | n + 1, s => State.accAll q i n (s.accStep q i)

/-- `ACCUMULATOR_TAKE` (R157): a unit that has reached the outlet; in a FROZEN region none is taken (DEDUCED, log entry 49). -/
def execAccumulatorTake (q : BitVec 7) (n : BitVec 4) (s : State) : Result :=
  let i : Fin 16 := ⟨n.toNat, n.isLt⟩
  let open_ : Bool := match (s.seq q).accs[i].attach with
    | some (o, _) => !(((s.seq q).outPort[o.toNat]).map Queue.frozen).getD false
    | none => false
  .next (if !open_ then s else s.accStep q i)

/-- `ACCZ` (R156). -/
def execAccz (n : BitVec 4) (q : BitVec 3) (s : State) : Result :=
  regionGuarded s q (accVal n) (fun sq =>
    let i : Fin 16 := ⟨n.toNat, n.isLt⟩
    if sq.accs[i].attach.isSome then s.trap tPortBusy (accVal n)
    else
      let clear (v : BitVec 16) : BitVec 16 := v &&& ~~~BitVec.ofNat 16 (2 ^ n.toNat)
      s.goOn { sq with
        accs := sq.accs.set i { sq.accs[i] with lanes := Vector.replicate 16 0 }, accSat := clear sq.accSat,
        accPois := clear sq.accPois })

/-- Lanes of an accumulator written to registers, behind the instruction (R156). -/
def Seq.accRead (sq : Seq) (d : BitVec 5) (n : BitVec 4) (c : BitVec 4) : Seq :=
  let i : Fin 16 := ⟨n.toNat, n.isLt⟩
  ({ sq with wait := .none, pc := sq.pc + 4 } : Seq).writeList d (sq.accs[i].lanes.toList.take (c.toNat + 1))

/-- `ACCR` (R156). -/
def execAccr (d : BitVec 5) (n : BitVec 4) (q : BitVec 3) (c : BitVec 4) (s : State) : Result :=
  regionGuarded s q (accVal n) (fun sq =>
    let i : Fin 16 := ⟨n.toNat, n.isLt⟩
    if sq.accs[i].attach.isSome then .next (s.setSeq s.seqTurn { sq with wait := .accr d n c })
    else .next (s.setSeq s.seqTurn (sq.accRead d n c)))

/-- `ACCR_COMPLETE` (R156). -/
def execAccrComplete (q : BitVec 7) (s : State) : Result :=
  let sq := s.seq q
  match sq.wait, sq.run with
  | .accr d n c, .running =>
    let i : Fin 16 := ⟨n.toNat, n.isLt⟩
    if sq.accs[i].attach.isSome then .next s else .next (s.setSeq q (sq.accRead d n c))
  | _, _ => .next s

/-- `SCMD_STOP` (R157). -/
def execScmdStop (_a : BitVec 5) (n : BitVec 4) (q : BitVec 3) (s : State) : Result :=
  regionGuarded s q (accVal n) (fun sq =>
    let i : Fin 16 := ⟨n.toNat, n.isLt⟩
    s.goOn { sq with accs := sq.accs.set i { sq.accs[i] with attach := none } })

/-- Commands 1 to 15 of `scmd` (R157): the accumulator attached, and every unit already behind the outlet taken (DEDUCED, log entry 49). -/
def attachAcc (cmd : BitVec 4) (a : BitVec 5) (n : BitVec 4) (q : BitVec 3) (s : State) : Result :=
  regionGuarded s q (accVal n) (fun sq =>
    let i : Fin 16 := ⟨n.toNat, n.isLt⟩
    let v := sq.readG a
    let o := bits v 0 6
    if bits v 6 2 ≠ 0 ∨ bits v 9 55 ≠ 0 then s.trap tInvalid v
    else if sq.accs[i].attach.isSome then s.trap tPortBusy (accVal n)
    else match sq.outPort[o.toNat] with
      | none => s.trap tPortUnbound (outVal o)
      | some x =>
        if (sq.accOn o).isSome then s.trap tPortBusy (outVal o)
        else
          let lanes := if v.getLsbD 8 then Vector.replicate 16 (accIdentity cmd.toNat) else sq.accs[i].lanes
          let sq1 := { sq with accs := sq.accs.set i { lanes := lanes, attach := some (o, cmd) } }
          let s1 := State.accAll s.seqTurn i x.entries.length (s.setSeq s.seqTurn sq1)
          s1.goOn (s1.seq s.seqTurn))

/-- `SCMD_ADD_I32` (R157). -/
def execScmdAddI32 (a : BitVec 5) (n : BitVec 4) (q : BitVec 3) (s : State) : Result := attachAcc 1 a n q s

/-- `SCMD_ADD_I64` (R157). -/
def execScmdAddI64 (a : BitVec 5) (n : BitVec 4) (q : BitVec 3) (s : State) : Result := attachAcc 2 a n q s

/-- `SCMD_ADD_F32` (R157). -/
def execScmdAddF32 (a : BitVec 5) (n : BitVec 4) (q : BitVec 3) (s : State) : Result := attachAcc 3 a n q s

/-- `SCMD_WADD_I32` (R157). -/
def execScmdWaddI32 (a : BitVec 5) (n : BitVec 4) (q : BitVec 3) (s : State) : Result := attachAcc 4 a n q s

/-- `SCMD_WADD_F32` (R157). -/
def execScmdWaddF32 (a : BitVec 5) (n : BitVec 4) (q : BitVec 3) (s : State) : Result := attachAcc 5 a n q s

/-- `SCMD_MAX_I32` (R157). -/
def execScmdMaxI32 (a : BitVec 5) (n : BitVec 4) (q : BitVec 3) (s : State) : Result := attachAcc 6 a n q s

/-- `SCMD_MIN_I32` (R157). -/
def execScmdMinI32 (a : BitVec 5) (n : BitVec 4) (q : BitVec 3) (s : State) : Result := attachAcc 7 a n q s

/-- `SCMD_MAX_F32` (R157). -/
def execScmdMaxF32 (a : BitVec 5) (n : BitVec 4) (q : BitVec 3) (s : State) : Result := attachAcc 8 a n q s

/-- `SCMD_MIN_F32` (R157). -/
def execScmdMinF32 (a : BitVec 5) (n : BitVec 4) (q : BitVec 3) (s : State) : Result := attachAcc 9 a n q s

/-- `SCMD_COUNT` (R157). -/
def execScmdCount (a : BitVec 5) (n : BitVec 4) (q : BitVec 3) (s : State) : Result := attachAcc 10 a n q s

/-- `SCMD_KEY_ADD` (R157). -/
def execScmdKeyAdd (a : BitVec 5) (n : BitVec 4) (q : BitVec 3) (s : State) : Result := attachAcc 11 a n q s

/-- `SCMD_KEY_WADD` (R157). -/
def execScmdKeyWadd (a : BitVec 5) (n : BitVec 4) (q : BitVec 3) (s : State) : Result := attachAcc 12 a n q s

/-- `SCMD_OR` (R157). -/
def execScmdOr (a : BitVec 5) (n : BitVec 4) (q : BitVec 3) (s : State) : Result := attachAcc 13 a n q s

/-- `SCMD_XOR` (R157). -/
def execScmdXor (a : BitVec 5) (n : BitVec 4) (q : BitVec 3) (s : State) : Result := attachAcc 14 a n q s

/-- `SCMD_COPY` (R157). -/
def execScmdCopy (a : BitVec 5) (n : BitVec 4) (q : BitVec 3) (s : State) : Result := attachAcc 15 a n q s

/-! ### The queue instructions (R252 to R255) -/

/-- The view of a region with one queue's registers as a binding block gives them. -/
def State.boundView (s : State) (r : Region) (c : CellId) (k : BitVec 3) (f : QCfg) : View :=
  ⟨r, (s.cellsOf r).map (fun x =>
    let cf := (s.cell x).active
    (x, if x = c then { cf with qcfg := cf.qcfg.set k.toNat (some f) } else cf)), true⟩

/-- Whether a template may be bound: DATA, EOD, EOT or EOI. -/
def templateOk (t : Tag) : Bool := t.kind == kData || t.kind == kEod || t.kind == kEot || t.kind == kEoi

/-- The binding of a port to a queue (R252). -/
def State.bindTo (s : State) (q : BitVec 7) (n : BitVec 6) (c : CellId) (k : BitVec 3) (f : QCfg) (kv circ : Bool) (t : Tag) :
    State :=
  let s1 := s.modCell c (fun x => { x with
    active := { x.active with qcfg := x.active.qcfg.set k.toNat (some f) },
    queues := x.queues.set k.toNat (Queue.bind { x.queues[k.toNat] with kv := kv, circ := circ } f) })
  s1.modSeq q (fun sq => { sq with
    inPort := (sq.inPort.map (fun p => if p = some (c, k) then none else p)).set n.toNat (some (c, k)),
    tmpl := sq.tmpl.set n.toNat { t with seq := 0 }, putSeq := sq.putSeq.set n.toNat t.seq, backoff := sq.backoff.set n.toNat 0 })

/-- `QBIND` (R252) (DESIGN CHOICE, log entry 57; DEDUCED, log entry 119). -/
def execQbind (a : BitVec 5) (n : BitVec 6) (q : BitVec 3) (s : State) : Result :=
  regionGuarded s q (inVal n) (fun sq =>
    let va := sq.readG a
    if va.toNat % 64 ≠ 0 then s.trap tMisaligned va
    else if s.cfgOf.state = .flipping then s.trap tConfigBusy va
    else if !s.mayAccess sq then s.waitOn .memory
    else s.accessAll .r 64 [va] (fun s1 xs =>
      match xs, s1.regionOfSeq s1.seqTurn with
      | x :: _, some r =>
        let dw (i : Nat) : Word64 := BitVec.ofNat 64 (s1.seqNum s1.seqTurn x.key (x.pa + 8 * i) 8)
        let f : QCfg := ⟨dw 1, dw 2, dw 3⟩
        let t := tagOfWord (dw 4)
        match cellOfWord (bits (dw 0) 0 32) with
        | none => s1.trap tInvalid va
        | some (c, k) =>
          let v := s1.boundView r c k f
          let qs := (s1.cell c).queues[k.toNat]
          if bits (dw 0) 32 32 ≠ 0 ∨ !r.hasCell c ∨ !v.queueOk c k.toNat
              ∨ 65536 < v.queueStore c + v.functionStore c (s1.cell c).fb.logn ∨ !templateOk t
              ∨ dw 5 ≠ 0 ∨ dw 6 ≠ 0 ∨ dw 7 ≠ 0 then s1.trap tInvalid va
          else if qs.frozen ∨ qs.state = .flowing ∨ qs.state = .shedding ∨ qs.state = .draining then s1.trap tQueueBusy va
          else
            let s2 := s1.bindTo s1.seqTurn n c k f (v.kvQueue c k) (v.circQueue c k) t
            s2.goOn (s2.seq s1.seqTurn)
      | _, _ => s1.trap tInvalid va))

/-- `QSTAT_INLET` (R253). -/
def execQstatInlet (d : BitVec 5) (n : BitVec 6) (q : BitVec 3) (s : State) : Result :=
  onInlet s q n (fun sq _ _ x => s.goOn (sq.writeG d x.status))

/-- `QSTAT_OUTLET` (R253). -/
def execQstatOutlet (d : BitVec 5) (n : BitVec 6) (q : BitVec 3) (s : State) : Result :=
  onOutlet s q n (fun sq x => s.goOn (sq.writeG d x.status))

/-- `QGAP_INLET` (R254). -/
def execQgapInlet (d : BitVec 5) (n : BitVec 6) (q : BitVec 3) (s : State) : Result :=
  onInlet s q n (fun sq c k x =>
    (s.modCell c (fun y => { y with queues := y.queues.set k.toNat x.gap.2 })).goOn (sq.writeG d x.gap.1))

/-- `QGAP_OUTLET` (R254). -/
def execQgapOutlet (d : BitVec 5) (n : BitVec 6) (q : BitVec 3) (s : State) : Result :=
  onOutlet s q n (fun sq x =>
    s.goOn (({ sq with outPort := sq.outPort.set n.toNat (some x.gap.2) } : Seq).writeG d x.gap.1))

/-- The faults that a change of state raises in a queue's cell. -/
def State.queueFault (s : State) (c : CellId) (k : BitVec 3) : Option Nat → State
  | none => s
  | some code => s.raiseFault c { faultAt code 0 none with queue := k }

/-- `QDRAIN_INLET` (R255). Where its markers must enter a spill ring that cannot be accessed, the queue-spill fault is raised, and the
instruction is issued again after the freeze (R244, R393) (DESIGN CHOICE, log entry 8). -/
def execQdrainInlet (n : BitVec 6) (q : BitVec 3) (s : State) : Result :=
  onInlet s q n (fun _ c k x =>
    if x.frozen ∧ x.live then s.trap tQueueBusy (inVal n)
    else
      let (x1, f) := x.drain (cellWord c k)
      match s.ringPut c.die (s.ctxOfCell c) x x1 with
      | (.error e, s1) => match e.1.spillCode with
        | none => .next (s.holdAccess s.seqTurn)
        | some code =>
          .next ((s1.raiseFault c { faultAt code 0 none with queue := k, access := 3, addr := e.2 }).modSeq s.seqTurn
            (fun y => { y with run := .stopped }))
      | (.ok _, s0) =>
        let s1 := (s0.modCell c (fun y => { y with queues := y.queues.set k.toNat x1 })).queueFault c k f
        s1.goOn (s1.seq s.seqTurn))

/-- `QDRAIN_OUTLET` (R255) (DESIGN CHOICE, log entries 8, 143). -/
def execQdrainOutlet (n : BitVec 6) (q : BitVec 3) (s : State) : Result :=
  onOutlet s q n (fun sq x =>
    if x.frozen ∧ x.live then s.trap tQueueBusy (outVal n)
    else
      let (x1, f) := x.drain (Config.outletQid s.seqTurn.toNat n.toNat)
      let s1 := s.setSeq s.seqTurn { sq with outPort := sq.outPort.set n.toNat (some x1) }
      let miss := s1.ringMiss (seqDie s.seqTurn) sq.ctx x ((x.ringDirty x1).map Prod.fst)
      let s2 := match s1.regionOfSeq s.seqTurn, miss.bind (fun m => m.1.spillCode.map (fun c => (c, m.2.1))), f with
        | some r, some (code, va), _ => s1.raiseFault r.leadCell { faultAt code 0 none with access := 3, addr := va }
        | some r, none, some code => s1.raiseFault r.leadCell (faultAt code 0 none)
        | _, _, _ => s1
      s2.goOn (s2.seq s.seqTurn))

end Sys2Proof.Machine
end

