-- ==== Sys2Proof/Machine/Groups.lean ====
section
/-!
DEFINITION. Sections and groups: `arm`, the group instructions, and how a group runs its children (R38, R39, R158, R285 to R294).
-/

namespace Sys2Proof.Machine

/-! ### Starting children (R287, R288) -/

/-- The children of a group that are groups, with their ORD. -/
def Region.childGroups (r : Region) (g : Nat) : List (Nat × BitVec 6) :=
  (r.groups.zipIdx.filter (fun p => p.1.parent = BitVec.ofNat 7 g)).map (fun p => (p.2, p.1.ord))

/-- A list with one entry changed. -/
def modNth {α : Type} (f : α → α) (i : Nat) (l : List α) : List α := l.mapIdx (fun j x => if j = i then f x else x)

/-- A section in a new run: LEFT stays. -/
def Section.newRun (x : Section) : Section := { x with running := true, ended := 0, idx := 0 }

/-- The section children of a group for which `p` holds of their ORD, started (DEDUCED, log entry 56). -/
def Region.startSections (r : Region) (g : Nat) (p : BitVec 6 → Bool) : Region :=
  { r with sections := r.sections.map (fun x => if x.parent = BitVec.ofNat 7 g ∧ p x.ord = true then x.newRun else x) }

/-- A group started in a new run, with the children that it starts at once; `n` bounds the depth of the tree
(DEDUCED, log entries 55, 56). -/
def startGroup : Nat → Nat → Region → Region
  | 0, _, r => r
  | n + 1, g, r =>
    let seq := ((r.groups[g]?).map (fun x => x.typ == 0)).getD true
    let first (o : BitVec 6) : Bool := !seq || o == 0
    let begin_ (x : Group) : Group :=
      { x with state := .running, child := 0, tiles := 0, runs := if x.runs = 0xFFFF then x.runs else x.runs + 1 }
    let r1 := ({ r with groups := modNth begin_ g r.groups } : Region).startSections g first
    ((r.childGroups g).filter (fun c => first c.2)).foldl (fun r c => startGroup n c.1 r) r1

/-- Child ORD `o` of a group started (DEDUCED, log entry 55). -/
def Region.startChild (r : Region) (g : Nat) (o : BitVec 6) : Region :=
  ((r.childGroups g).filter (fun c => c.2 = o)).foldl (fun r c => startGroup 64 c.1 r) (r.startSections g (· == o))

/-- Whether a section child is done. -/
def Section.isDone (x : Section) : Bool := x.running && decide (1 ≤ x.ended ∧ x.left = 0) && x.tiles.isEmpty

/-- Whether the children of a group for which `p` holds of their ORD are done. -/
def Region.childrenDone (r : Region) (g : Nat) (p : BitVec 6 → Bool) : Bool :=
  r.sections.all (fun x => x.parent != BitVec.ofNat 7 g || !p x.ord || x.isDone)
    && r.groups.all (fun x => x.parent != BitVec.ofNat 7 g || !p x.ord || x.state == .done)

/-- The number of children of a group. -/
def Region.childCount (r : Region) (g : Nat) : Nat :=
  (r.sections.filter (fun x => x.parent = BitVec.ofNat 7 g)).length + (r.childGroups g).length

/-- A group DONE: its section children stop running (DEDUCED, log entry 55). -/
def Region.finishGroup (r : Region) (g : Nat) : Region :=
  { r with
    groups := modNth (fun x => { x with state := .done }) g r.groups,
    sections := r.sections.map (fun x => if x.parent = BitVec.ofNat 7 g then { x with running := false } else x) }

/-- One move of a RUNNING group, where it can make one: the next child of a SEQ group, or DONE. -/
def Region.moveGroup (r : Region) (g : Nat) : Option Region := match r.groups[g]? with
  | none => none
  | some x =>
    if x.state ≠ .running then none
    else if x.typ = 0 then
      if r.childCount g = 0 then some (r.finishGroup g)
      else if !r.childrenDone g (· == x.child) then none
      else if r.childCount g ≤ x.child.toNat + 1 then some (r.finishGroup g)
      else some (({ r with groups := modNth (fun y => { y with child := y.child + 1 }) g r.groups } : Region).startChild g (x.child + 1))
    else if r.childrenDone g (fun _ => true) then some (r.finishGroup g) else none

/-- Every move that the groups of a region can make, at most `n` (DEDUCED, log entry 55). -/
def settleGroups : Nat → Region → Region
  | 0, r => r
  | n + 1, r => match (List.range r.groups.length).findSome? r.moveGroup with
    | none => r
    | some r1 => settleGroups n r1

/-- The ancestors of a parent code: a group, its parent, and so on. -/
def Region.ancestors (r : Region) : Nat → BitVec 7 → List Nat
  | 0, _ => []
  | n + 1, p => if p = 0x7F then [] else match r.groups[p.toNat]? with
    | none => []
    | some g => p.toNat :: r.ancestors n g.parent

/-! ### The group instructions (R291 to R293) -/

/-- A group instruction under its guard, on a group of the kernel (DESIGN CHOICE, log entry 46). -/
def onGroup (s : State) (g : BitVec 3) (n : BitVec 6) (body : Seq → Region → Group → Result) : Result :=
  regionGuarded s g (inVal n) (fun sq => match s.regionOfSeq s.seqTurn with
    | none => s.trap tNoGroup (inVal n)
    | some r => match r.groups[n.toNat]? with
      | none => s.trap tNoGroup (inVal n)
      | some x => body sq r x)

/-- `GRUN` (R291). -/
def execGrun (n : BitVec 6) (q : BitVec 3) (s : State) : Result :=
  onGroup s q n (fun sq r _ =>
    if r.cfg.state = .flipping then s.trap tConfigBusy (inVal n)
    else if (r.ancestors 65 (n.setWidth 7)).any (fun i => ((r.groups[i]?).map (fun g => g.state == .running)).getD false) then
      s.trap tGroupBusy (inVal n)
    else (s.setRegion (settleGroups 4096 (startGroup 64 n.toNat r))).goOn sq)

/-- `GWAIT` (R292). -/
def execGwait (n : BitVec 6) (q : BitVec 3) (s : State) : Result :=
  onGroup s q n (fun sq _ x => if x.state = .running then s.waitOn (.gwait n) else s.goOn sq)

/-- `GWAIT_COMPLETE` (R292). -/
def execGwaitComplete (q : BitVec 7) (s : State) : Result :=
  let sq := s.seq q
  match sq.wait, sq.run with
  | .gwait n, .running =>
    let busy : Bool := match s.regionOfSeq q with
      | some r => ((r.groups[n.toNat]?).map (fun g => g.state == .running)).getD false
      | none => false
    if busy then .next s else .next (s.setSeq q { sq with wait := .none, pc := sq.pc + 4 })
  | _, _ => .next s

def GState.code : GState → BitVec 2
  | .idle => 0
  | .running => 1
  | .done => 2

/-- The status word of R293. -/
def Group.status (g : Group) : Word64 :=
  (0 : BitVec 8) ++ g.tiles ++ g.runs ++ (0 : BitVec 6) ++ (if g.typ = 0 then g.child else 0) ++ g.typ ++ g.state.code

/-- `GSTAT` (R293). -/
def execGstat (d : BitVec 5) (n : BitVec 6) (q : BitVec 3) (s : State) : Result :=
  onGroup s q n (fun sq _ x => s.goOn (sq.writeG d x.status))

/-! ### `arm` (R38, R39, R158) -/

/-- The credit counts of a section's sources set and their AgSeq cleared (R196), or the source whose tile is larger than a queue. -/
def State.armSources (s : State) (r : Region) (x : Section) : Except CellId State :=
  let start : Except CellId State := .ok s
  (x.sources.filterMap (fun n => (r.nodeCell n).map (fun c => (c, n.slot)))).foldl (fun acc p =>
    match acc with
    | .error c => .error c
    | .ok s => match s.armCredits r p.1 p.2 with
      | none => .error p.1
      | some cs => .ok (s.modCell p.1 (fun y => y.setAg p.2 { y.ag[p.2.toNat] with credits := cs, seq := 0 }))) start

/-- `ARM` (R158). A tile larger than a queue gives the configuration fault of the source's cell (R39) (DESIGN CHOICE, log entry 57). -/
def execArm (a : BitVec 5) (sec : BitVec 6) (q : BitVec 3) (s : State) : Result :=
  regionGuarded s q (inVal sec) (fun sq =>
    let v := sq.readG a
    if bits v 24 40 ≠ 0 ∨ bits v 0 24 = 0 then s.trap tInvalid v
    else match s.regionOfSeq s.seqTurn with
      | none => s.trap tNoSection (inVal sec)
      | some r => match r.sections[sec.toNat]? with
        | none => s.trap tNoSection (inVal sec)
        | some x =>
          if r.cfg.state = .flipping then s.trap tConfigBusy v
          else if 0 < x.left then s.trap tSectionBusy (inVal sec)
          else match s.armSources r x with
            | .error c =>
            let s1 := s.raiseFault c (FaultReg.ofCode 0x04)
            s1.goOn (s1.seq s.seqTurn)
            | .ok s1 =>
              (s1.modRegion r.serial (fun r => { r with
                sections := modNth (fun y => { y with left := (bits v 0 24).toNat }) sec.toNat r.sections })).goOn sq)

end Sys2Proof.Machine
end

