-- ==== Sys2Proof/Machine/Barrier.lean ====
section
/-!
DEFINITION. The barrier and the channel (R295 to R303).
-/

namespace Sys2Proof.Machine

/-! ### Barriers (R295 to R298) -/

/-- The fields of a barrier (R295); its reserved bits stay in the number that holds it. -/
def barArrived (b : Nat) : Nat := b % 2 ^ 32
def barExpect (b : Nat) : Nat := b / 2 ^ 32 % 2 ^ 32
def barPhase (b : Nat) : Word32 := BitVec.ofNat 32 (b / 2 ^ 64)
def barOpen (b : Nat) : Bool := b / 2 ^ 96 % 4 == 1

/-- A barrier with other fields below its reserved bits. -/
def barWith (b arrived expect : Nat) (phase : Word32) (state : Nat) : Nat :=
  arrived % 2 ^ 32 + expect % 2 ^ 32 * 2 ^ 32 + phase.toNat * 2 ^ 64 + state % 4 * 2 ^ 96 + b / 2 ^ 98 * 2 ^ 98

/-- `bari` (R296). -/
def barInit (b : Nat) (expect : Nat) : Nat := barWith b 0 expect 0 1

/-- An arrival at an OPEN barrier (R296). -/
def barArrive (b : Nat) : Nat :=
  if barArrived b + 1 < barExpect b then barWith b (barArrived b + 1) (barExpect b) (barPhase b) 1
  else barWith b 0 (barExpect b) (barPhase b + 1) 1

/-- A barrier instruction under its guard: the access to its 16 bytes by sequencer `q`. An access to another die waits for the bridges on
its way, and one in FAULT freezes the region (R351, R352) (DESIGN CHOICE, log entry 52). The sequencer's earlier stores to those bytes
are performed before it (R147). -/
def State.atBarrier (s : State) (q : BitVec 7) (right : Right) (va : Word64) (body : State → Xlated → State) : State :=
  if va.toNat % 16 ≠ 0 then s.takeTrap q tMisaligned va
  else match s.xlate q right va with
    | (.error f, s1) => s.xtrap s1 q f va
    | (.ok x, s1) => match s.pathTo (seqDie q) x.pa with
      | .broken => s1.seqFault q 0x19 0
      | .down => s.holdAccess q
      | .up =>
        let s2 := (s1.settle (.seq q)).flushOver q x.pa 16
        match s2.poisonIn x.pa 16 with
        | some pa => s2.takeTrap q tPoison (va + BitVec.ofNat 64 (pa - x.pa))
        | none => body s2 x

/-- A sequencer behind its instruction. -/
def State.pass (s : State) (q : BitVec 7) (f : Seq → Seq) : State :=
  s.modSeq q (fun sq => f { sq with wait := .none, pc := sq.pc + 4 })

/-- A barrier instruction that may access memory now, and whose release at a scope, if it makes one, can be made. -/
def barGuarded (s : State) (g : BitVec 3) (release : BitVec 3) (body : Seq → State) : Result :=
  guarded s g 0 (fun sq => if s.mayAccess sq && s.mayOrder 3 release then .next (body sq) else s.waitOn .memory)

/-- `BARI` (R298) (DESIGN CHOICE, log entry 52). -/
def execBari (a : BitVec 5) (q : BitVec 3) (c : BitVec 3) (s : State) : Result :=
  barGuarded s q c (fun sq =>
    let e := sq.readG (a + 1)
    if e = 0 ∨ bits e 32 32 ≠ 0 then s.takeTrap s.seqTurn tInvalid e
    else s.atBarrier s.seqTurn .rw (sq.readG a) (fun s1 x =>
      let s2 := s1.releaseAt 3 c
      (s2.putNum x.key x.pa 16 (barInit (s2.numAt x.key x.pa 16) e.toNat)).pass s.seqTurn id))

/-- `BARA` (R298) (DESIGN CHOICE, log entry 52). -/
def execBara (a : BitVec 5) (q : BitVec 3) (c : BitVec 3) (s : State) : Result :=
  barGuarded s q c (fun sq =>
    let va := sq.readG a
    s.atBarrier s.seqTurn .rw va (fun s1 x =>
      let s2 := s1.releaseAt 3 c
      let b := s2.numAt x.key x.pa 16
      if !barOpen b then s2.takeTrap s.seqTurn tBarUnset va
      else (s2.putNum x.key x.pa 16 (barArrive b)).pass s.seqTurn (fun y => { y with arv := some (va, barPhase b) })))

/-- What `barw` and `bart` find: BarrierNoArrival, then at the barrier BarrierUnset, or whether the phase has completed (R298)
(DESIGN CHOICE, log entry 52). -/
def State.testBarrier (s : State) (q : BitVec 7) (va : Word64) (body : State → Bool → State) : State :=
  match (s.seq q).arv with
  | none => s.takeTrap q tBarNoArrival va
  | some (at_, ph) =>
    if at_ ≠ va then s.takeTrap q tBarNoArrival va
    else s.atBarrier q .r va (fun s1 x =>
      let b := s1.numAt x.key x.pa 16
      if !barOpen b then s1.takeTrap q tBarUnset va else body s1 (barPhase b != ph))

/-- `BARW` (R298) (DESIGN CHOICE, log entry 52). -/
def execBarw (a : BitVec 5) (q : BitVec 3) (c : BitVec 3) (s : State) : Result :=
  barGuarded s q 0 (fun sq =>
    s.testBarrier s.seqTurn (sq.readG a) (fun s1 done =>
      if done then s1.pass s.seqTurn id else s1.modSeq s.seqTurn (fun y => { y with wait := .barw (sq.readG a) c })))

/-- `BARW_COMPLETE` (R298). -/
def execBarwComplete (q : BitVec 7) (s : State) : Result :=
  let sq := s.seq q
  match sq.wait with
  | .barw va _ =>
    if sq.run = .running ∨ sq.run = .handler then
      .next (s.testBarrier q va (fun s1 done => if done then s1.pass q id else s1))
    else .next s
  | _ => .next s

/-- `BART` (R298) (DESIGN CHOICE, log entry 52). -/
def execBart (a : BitVec 5) (k : BitVec 3) (q : BitVec 3) (_c : BitVec 3) (s : State) : Result :=
  barGuarded s q 0 (fun sq =>
    s.testBarrier s.seqTurn (sq.readG a) (fun s1 done => s1.pass s.seqTurn (fun y => y.writeP k done)))

/-- An arrival that an engine makes at a barrier of a context (R300): whether it was taken, or its fault. A poisoned barrier takes none, and
the request ends as on an access fault (R403). -/
def State.engineArrive (s : State) (d : BitVec 3) (ctx : BitVec 9) (va : Word64) : Except XFault Bool × State :=
  match s.xlateEngine d ctx .rw va with
  | (.error f, s1) => (.error f, s1)
  | (.ok x, s1) =>
    let b := s1.numAt x.key x.pa 16
    if (s1.poisonIn x.pa 16).isSome then (.error .access, s1)
    else if barOpen b then (.ok true, s1.putNum x.key x.pa 16 (barArrive b)) else (.ok false, s1)

/-! ### Software queues (R302) -/

/-- The descriptor of a software queue. -/
structure SoftDesc where
  cfg   : QCfg
  slots : Word64
  head  : Word32
  qnum  : BitVec 31
  state : Nat
  scope : BitVec 3
  deriving DecidableEq, Repr

/-- A descriptor read through a function of its double-words, or none where R303 refuses it (DESIGN CHOICE, log entries 53, 115). -/
def softDescOf (dw : Nat → Word64) : Option SoftDesc :=
  let w := dw 5
  let f : QCfg := ⟨dw 0, dw 1, dw 2⟩
  let st := (bits w 32 3).toNat
  let sc := bits w 35 3
  if st = 0 ∨ st = 7 ∨ w.getLsbD 31 = true ∨ bits w 38 26 ≠ 0 ∨ sc < 3 ∨ 5 < sc ∨ qcfgOk 10 true false f = false then none
  else some { cfg := f, slots := dw 3, head := bits (dw 4) 0 32, qnum := bits w 0 31, state := st, scope := sc }

/-- QID of a software queue's markers (R246). -/
def SoftDesc.qid (x : SoftDesc) : Word32 := (1 : BitVec 1) ++ x.qnum

/-- A state of its code (R253). -/
def qstateOf (n : Nat) : QState := match n with
  | 0 => .unbound
  | 1 => .bound
  | 2 => .flowing
  | 3 => .shedding
  | 4 => .draining
  | 5 => .closed
  | _ => .flowing

/-- What the owning slice holds of a queue: what it held before of the descriptor at that physical address, by whichever virtual
address it was reached, or of the one that this virtual address led to (a descriptor whose page the OS has moved); or, where STATE is
BOUND or the slice holds nothing, the queue that the descriptor binds. -/
def State.softOf (s : State) (ctx : BitVec 9) (va : Word64) (pa : Nat) (x : SoftDesc) : SoftQ :=
  let fresh : SoftQ :=
    { ctx := ctx, addr := va, pa := pa, q := { Queue.reset.bind x.cfg with state := qstateOf x.state }, head := x.head, cur := 0 }
  if x.state = 1 then fresh
  else match s.softqs.find? (fun y => y.ctx = ctx ∧ y.pa = pa), s.softqs.find? (fun y => y.ctx = ctx ∧ y.addr = va) with
    | some y, _ => y
    | none, some y => { y with pa := pa }
    | none, none => fresh

/-- The units outside the ring, oldest first: those ahead of it, and those kept behind a full one (R230, R302). -/
def SoftQ.outside (y : SoftQ) : List Item :=
  y.q.entries.map QEntry.item ++ (y.q.ring.filter (fun u => u.kept.isSome)).map RingUnit.item

/-- The slot entries of the units outside the ring, oldest first (DESIGN CHOICE, log entry 53). -/
def SoftQ.entries (y : SoftQ) : List (List Byte) := y.outside.flatMap ringParts

/-- The virtual address of the `i`-th slot entry in use (DESIGN CHOICE, log entry 53). -/
def SoftDesc.slotVa (x : SoftDesc) (cur i : Nat) : Word64 :=
  x.slots + BitVec.ofNat 64 (128 * ((cur + i) % (2 ^ (bits x.cfg.qctl 0 4).toNat + 8)))

/-- The first fault among these slot entries, and the address (DESIGN CHOICE, log entry 115). -/
def State.slotFault (s : State) (d : BitVec 3) (ctx : BitVec 9) (x : SoftDesc) (cur : Nat) : List Nat → Option (XFault × Word64)
  | [] => none
  | i :: is => match s.engineWay d ctx (x.slotVa cur i), (s.xlateEngine d ctx .rw (x.slotVa cur i)).1 with
    | .down, _ => some (.held, x.slotVa cur i)
    | .broken, _ => some (.lost, x.slotVa cur i)
    | .up, .error f => some (f, x.slotVa cur i)
    | .up, .ok _ => s.slotFault d ctx x cur is

/-- The slot entries that a change of the queue changes, where the queue's first entry stays in its place: each with its index. -/
def SoftQ.dirty (y after : SoftQ) : List (Nat × List Byte) :=
  (after.entries.zipIdx.filter (fun p => y.entries[p.2]? != some p.1)).map (fun p => (p.2, p.1))

/-- Slot entries written (DESIGN CHOICE, log entry 53). -/
def State.slotWrite (s : State) (d : BitVec 3) (ctx : BitVec 9) (x : SoftDesc) (cur : Nat) : List (Nat × List Byte) → State
  | [] => s
  | (i, bs) :: rest =>
    let s1 := match s.xlateEngine d ctx .rw (x.slotVa cur i) with
      | (.ok y, s1) => s1.putBytes y.key y.pa bs
      | (.error _, s1) => s1
    State.slotWrite s1 d ctx x cur rest

/-- The slice's slot entries and descriptor written: HEAD, TAIL, STATE, and WORK, whose layout the spec does not give (DESIGN CHOICE, log entry 5). -/
def State.softPut (s : State) (d : BitVec 3) (at_ : Xlated) (x : SoftDesc) (dirty : List (Nat × List Byte)) (y : SoftQ) : State :=
  let (n, s0) := s.freshNat
  let s1 := s0.slotWrite d y.ctx x y.cur dirty
  let tail := y.head + BitVec.ofNat 32 y.outside.length
  let s2 := s1.putNum at_.key (at_.pa + 32) 8 (tail ++ y.head).toNat
  let w := s2.dwordAt at_.key (at_.pa + 40)
  let s3 := s2.putNum at_.key (at_.pa + 40) 8 (bits w 35 29 ++ y.q.stateCode ++ bits w 0 32).toNat
  let s4 := s3.putNum at_.key (at_.pa + 48) 8 (Config.freeValue n).toNat
  let s5 := s4.putNum at_.key (at_.pa + 56) 8 (Config.freeValue (n + 1)).toNat
  { s5 with
    fresh := n + 2,
    softqs := y :: s5.softqs.filter (fun z => !(z.ctx == y.ctx && (z.pa == y.pa || z.addr == y.addr))) }

/-- How an offer to a software queue ends: a fault of an access, a descriptor that R303 refuses, or the outcome with the code of the
fault it raises. -/
inductive SoftEnd where
  | fault (f : XFault) (va : Word64)
  | refused
  | done (out : Outcome3) (f : Option Nat)
  deriving DecidableEq, Repr

/-- An offer at the owning slice (R303). The units that DROPH removes count in HEAD, so that TAIL counts every unit that entered and
TAIL − HEAD the units held (R302) (DESIGN CHOICE, log entry 142). -/
def State.softOffer (s : State) (d : BitVec 3) (ctx : BitVec 9) (va : Word64) (at_ : Xlated) (u : Item) : SoftEnd × State :=
  match softDescOf (fun i => s.dwordAt at_.key (at_.pa + 8 * i)) with
  | none => (.refused, s)
  | some x =>
    let y := s.softOf ctx va at_.pa x
    let (r, miss, s1) := s.offerQ d ctx x.qid y.q u
    let y1 := { y with q := r.q, head := y.head + BitVec.ofNat 32 r.gone }
    let dirty := y.dirty y1
    match miss, s.slotFault d ctx x y.cur (dirty.map Prod.fst) with
    | some (f, a), _ => (.fault f a, s1)
    | none, some (f, a) => (.fault f a, (s.xlateEngine d ctx .rw a).2)
    | none, none => (.done r.out r.fault, s1.softPut d at_ x dirty y1)

/-! ### Channels (R301, R303) -/

/-- The descriptor address of a bound channel. -/
def Seq.channel (sq : Seq) (n : BitVec 6) : Option Word64 :=
  let va := sq.chanMap[n.toNat]
  if va = 0 ∨ va.toNat % 64 ≠ 0 then none else some va

/-- The value of a trap of a channel (R130). -/
def chanVal (n : BitVec 6) : Word64 := 192 + n.setWidth 64

/-- The tag of a unit that `send` makes. -/
def sendTag (seq : BitVec 28) : Tag := { kind := kData, flags := 0, domain := 0, weight := 1, nest := 0, seq := seq }

/-- `SEND` (R303, R352): release, offer, outcome, back-off, and the fault of a loss. -/
def execSend (a : BitVec 5) (c : BitVec 6) (q : BitVec 3) (n : BitVec 4) (s : State) : Result :=
  guarded s q 0 (fun sq =>
    match sq.channel c with
    | none => s.trap tPortUnbound (chanVal c)
    | some va =>
      if sq.cycle < sq.chBack[c.toNat] then s.waitOn (.send c)
      else if !s.mayAccess sq || !s.storesCross s.seqTurn then s.waitOn .memory
      else match s.xlate s.seqTurn .rw va with
        | (.error f, s1) => .next (s.xtrap s1 s.seqTurn f va)
        | (.ok x, s1) => match s.pathTo (seqDie s.seqTurn) x.pa with
        | .broken => .next (s1.seqFault s.seqTurn 0x19 0)
        | .down => .next (s.holdAccess s.seqTurn)
        | .up =>
          let s2 := (s1.settle (.seq s.seqTurn)).flush s.seqTurn
          match s2.softOffer (seqDie s.seqTurn) sq.ctx va x (unitOf (sendTag sq.sendSeq[c.toNat]) (sq.readList a n.toNat)) with
          | (.fault f at_, s3) => .next (s.xtrap s3 s.seqTurn f at_)
          | (.refused, s3) => s3.trap tInvalid va
          | (.done out f, s3) =>
            let lost := out == .lost
            let s4 := s3.pass s.seqTurn (fun y =>
              ({ y with
                sendSeq := y.sendSeq.set c.toNat (y.sendSeq[c.toNat] + 1),
                chBack := if lost then y.chBack.set c.toNat (y.cycle + 64) else y.chBack } : Seq).writeP 7 (!lost))
            match f with
            | none => .next s4
            | some code => .next (s4.seqFault s.seqTurn code va))

/-- An attempt of a sequencer to receive (R303, R352): a trap, a wait for a bridge, the unit taken, or none where the queue holds nothing. -/
def State.tryRecv (s : State) (q : BitVec 7) (d : BitVec 5) (c : BitVec 6) (n : BitVec 4) : Option State :=
  let sq := s.seq q
  match sq.channel c with
  | none => some (s.takeTrap q tPortUnbound (chanVal c))
  | some va => match s.xlate q .rw va with
    | (.error f, s1) => some (s.xtrap s1 q f va)
    | (.ok at_, s0) => match s.pathTo (seqDie q) at_.pa with
    | .broken => some (s0.seqFault q 0x19 0)
    | .down => some (s.holdAccess q)
    | .up =>
      let s1 := s0.settle (.seq q)
      match softDescOf (fun i => s1.seqNum q at_.key (at_.pa + 8 * i) 8 |> BitVec.ofNat 64) with
      | none => some (s1.takeTrap q tInvalid va)
      | some x =>
        let y := s1.softOf sq.ctx va at_.pa x
        match y.q.head with
        | none => none
        | some u => match s1.slotFault (seqDie q) sq.ctx x y.cur (List.range u.slots) with
          | some (f, a) => some (s.xtrap (s1.xlateEngine (seqDie q) sq.ctx .rw a).2 q f a)
          | none =>
            let y1 : SoftQ := { y with q := y.q.pop, head := y.head + 1, cur := (y.cur + u.slots) % (y.q.depth + 8) }
            let s2 := s1.softPut (seqDie q) at_ x [] y1
            some (s2.pass q (fun z => ({ z with ptag := u.tag.word } : Seq).writeList d (unitDwords u (n.toNat + 1))))

/-- `RECV` (R303). -/
def execRecv (d : BitVec 5) (c : BitVec 6) (q : BitVec 3) (n : BitVec 4) (s : State) : Result :=
  guarded s q 0 (fun sq =>
    if !s.mayAccess sq then s.waitOn .memory
    else match s.tryRecv s.seqTurn d c n with
      | some s1 => .next s1
      | none => s.waitOn (.recv d c n))

/-- `RECV_COMPLETE` (R303). -/
def execRecvComplete (q : BitVec 7) (s : State) : Result :=
  let sq := s.seq q
  match sq.wait with
  | .recv d c n =>
    if sq.run = .running ∨ sq.run = .handler then .next ((s.tryRecv q d c n).getD s) else .next s
  | _ => .next s

/-- A software queue changed by its slice between offers and pops: `f` gives the queue after it, where it changes
(DESIGN CHOICE, log entry 5). -/
def State.softChange (s : State) (ctx : BitVec 9) (va : Word64) (f : Word32 → State → BitVec 3 → Queue → Option Queue) : State :=
  match s.softqs.find? (fun y => y.ctx = ctx ∧ y.addr = va) with
  | none => s
  | some y =>
    let d : BitVec 3 := 0
    if s.engineWay d ctx va ≠ .up then s
    else match s.xlateEngine d ctx .rw va with
    | (.error _, s1) => s1
    | (.ok at_, s1) => match softDescOf (fun i => s1.dwordAt at_.key (at_.pa + 8 * i)) with
      | none => s1
      | some x =>
        if x.state = 1 then s1
        else match f x.qid s1 d y.q with
          | none => s1
          | some q =>
            let y1 := { y with q := q }
            let dirty := y.dirty y1
            match s1.slotFault d ctx x y1.cur (dirty.map Prod.fst) with
            | some (.held, _) | some (.lost, _) => s
            | some (_, a) => (s1.xlateEngine d ctx .rw a).2
            | none => s1.softPut d at_ x dirty y1

end Sys2Proof.Machine
end

