-- ==== Sys2Proof/Machine/Policy.lean ====
section
/-!
DEFINITION. The policy bytecode: the words of a scheduler's decision (R116 to R118, R418).
-/

namespace Sys2Proof.Machine

/-! ### The program's state (R418) -/

/-- A word executed by the decision in progress of the die whose turn it is: one step more, and what the word makes of the decision. A
decision that has ended, or that has executed 256 words, executes none. -/
def onDecision (s : State) (f : Decision → Decision) : Result :=
  match (s.die s.polTurn).dec with
  | none => .next s
  | some x =>
    if x.ended.isSome ∨ 256 ≤ x.steps then .next s
    else .next (s.modDie s.polTurn (fun d => { d with dec := some (f { x with steps := x.steps + 1 }) }))

/-- The decision behind its word. -/
def Decision.advance (x : Decision) : Decision := { x with pc := x.pc + 1 }

/-- A register written. -/
def Decision.put (x : Decision) (d : BitVec 3) (v : Word32) : Decision := { x.advance with b := x.b.set d.toNat v }

/-- A word that computes a register from it and another. -/
def polBinary (f : Word32 → Word32 → Word32) (d t : BitVec 3) (s : State) : Result :=
  onDecision s (fun x => x.put d (f x.b[d.toNat] x.b[t.toNat]))

/-- A `test`. -/
def polTest (f : Word32 → Word32 → Bool) (d t : BitVec 3) (s : State) : Result :=
  onDecision s (fun x => { x.advance with t := f x.b[d.toNat] x.b[t.toNat] })

/-- The lowest row from a number on that is not vetoed. -/
def Decision.rowFrom (x : Decision) (n : Nat) : Option Nat :=
  (List.range x.rows.length).find? (fun i => decide (n ≤ i) && decide (i ∉ x.veto))

/-! ### The words (R418) -/

/-- `IMM` (R418). -/
def execPolImm (d : BitVec 3) (v : BitVec 8) (s : State) : Result := onDecision s (fun x => x.put d (v.setWidth 32))

/-- `FLD` (R418): a field of CUR, or of SEL where CUR is none. -/
def execPolFld (d : BitVec 3) (f : BitVec 5) (s : State) : Result :=
  onDecision s (fun x =>
    let row := (x.cur.orElse (fun _ => x.sel)).bind (fun i => x.rows[i]?)
    x.put d ((row.bind (fun r => r.vals[f.toNat]?)).getD 0))

/-- `SLD` (R418). -/
def execPolSld (d : BitVec 3) (f : BitVec 5) (s : State) : Result := onDecision s (fun x => x.put d ((x.pstate[f.toNat]?).getD 0))

/-- `PLUS` (R418). -/
def execPolPlus (d t : BitVec 3) (s : State) : Result := polBinary (· + ·) d t s

/-- `MINUS` (R418). -/
def execPolMinus (d t : BitVec 3) (s : State) : Result := polBinary (· - ·) d t s

/-- `LOW` (R418). -/
def execPolLow (d t : BitVec 3) (s : State) : Result := polBinary (fun a b => if b.slt a then b else a) d t s

/-- `HIGH` (R418). -/
def execPolHigh (d t : BitVec 3) (s : State) : Result := polBinary (fun a b => if a.slt b then b else a) d t s

/-- `BAND` (R418). -/
def execPolBand (d t : BitVec 3) (s : State) : Result := polBinary (· &&& ·) d t s

/-- `BOR` (R418). -/
def execPolBor (d t : BitVec 3) (s : State) : Result := polBinary (· ||| ·) d t s

/-- `LSL` (R418). -/
def execPolLsl (d : BitVec 3) (n : BitVec 5) (s : State) : Result := onDecision s (fun x => x.put d (x.b[d.toNat] <<< n.toNat))

/-- `LSR` (R418). -/
def execPolLsr (d : BitVec 3) (n : BitVec 5) (s : State) : Result := onDecision s (fun x => x.put d (x.b[d.toNat] >>> n.toNat))

/-- `TEST_EQ` (R418). -/
def execPolTestEq (d t : BitVec 3) (s : State) : Result := polTest (fun a b => a == b) d t s

/-- `TEST_NE` (R418). -/
def execPolTestNe (d t : BitVec 3) (s : State) : Result := polTest (fun a b => a != b) d t s

/-- `TEST_LT` (R418). -/
def execPolTestLt (d t : BitVec 3) (s : State) : Result := polTest (fun a b => a.slt b) d t s

/-- `TEST_GE` (R418). -/
def execPolTestGe (d t : BitVec 3) (s : State) : Result := polTest (fun a b => !a.slt b) d t s

/-- `TEST_LTU` (R418). -/
def execPolTestLtu (d t : BitVec 3) (s : State) : Result := polTest (fun a b => a.ult b) d t s

/-- `TEST_GEU` (R418). -/
def execPolTestGeu (d t : BitVec 3) (s : State) : Result := polTest (fun a b => !a.ult b) d t s

/-- `SKIP` (R418). -/
def execPolSkip (n : BitVec 8) (s : State) : Result :=
  onDecision s (fun x => if x.t then { x with pc := x.pc + n.toNat } else x.advance)

/-- `JUMP` (R418). -/
def execPolJump (n : BitVec 8) (s : State) : Result := onDecision s (fun x => { x with pc := x.pc + n.toNat })

/-- Whether a word is `next`. -/
def isNextWord (w : BitVec 16) : Bool := bits w 11 5 == 0x13

/-- `EACH` (R418): the loop is passed over where no row is left. -/
def execPolEach (s : State) : Result :=
  onDecision s (fun x =>
    let out := match (x.prog.drop x.pc).findIdx? isNextWord with
      | some i => x.pc + i + 1
      | none => x.pc + 1
    match x.rowFrom 0 with
    | none => { x with cur := none, pc := out }
    | some i => { x.advance with cur := some i })

/-- `NEXT` (R418). -/
def execPolNext (n : BitVec 8) (s : State) : Result :=
  onDecision s (fun x =>
    match x.rowFrom ((x.cur.map (· + 1)).getD 0) with
    | some i => { x with cur := some i, pc := x.pc - n.toNat + 1 }
    | none => { x.advance with cur := none })

/-- `PICK` (R418). -/
def execPolPick (d : BitVec 3) (s : State) : Result :=
  onDecision s (fun x =>
    let v := x.b[d.toNat]
    if x.cur.isSome ∧ (x.sel.isNone ∨ x.score.slt v = true) then { x.advance with sel := x.cur, score := v } else x.advance)

/-- `DECIDE` (R418). -/
def execPolDecide (s : State) : Result := onDecision s (fun x => { x with ended := some x.sel })

/-- `VETO` (R418). -/
def execPolVeto (s : State) : Result :=
  onDecision s (fun x => match x.cur with
    | some i => { x.advance with
      veto := if i ∈ x.veto then x.veto else i :: x.veto, sel := if x.sel = some i then none else x.sel }
    | none => { x.advance with sel := none })

/-- `STOP` (R418). -/
def execPolStop (s : State) : Result := onDecision s (fun x => { x with ended := some none })

/-! ### The check of a program at its load (R118) -/

/-- The places of `each` and `next` words in order, as pairs, or none where they do not pair. -/
def loopsOf : List (Nat × Bool) → Option (List (Nat × Nat))
  | [] => some []
  | (i, true) :: (j, false) :: rest => (loopsOf rest).map (fun l => (i, j) :: l)
  | _ => none

/-- Whether a program passes the checks of R118 (DEDUCED, log entry 89). -/
def policyOk (ws : List (BitVec 16)) : Bool :=
  let ins := ws.map (fun w => decodePolicy w.toNat)
  let n := ws.length
  let marks := (ins.zipIdx).filterMap (fun p => match p.1 with
    | .ok .polEach => some (p.2, true)
    | .ok (.polNext _) => some (p.2, false)
    | _ => none)
  let clear (i j : Nat) : Bool := marks.all (fun m => !(decide (i < m.1) && decide (m.1 < j)))
  decide (1 ≤ n ∧ n ≤ 256)
    && (match ins.getLast? with
      | some (.ok .polStop) => true
      | _ => false)
    && match loopsOf marks with
      | none => false
      | some loops => (ins.zipIdx).all (fun p => match p.1 with
        | .error _ => false
        | .ok (.polSkip d) => d != 0 && decide (p.2 + d.toNat < n) && clear p.2 (p.2 + d.toNat)
        | .ok (.polJump d) => d != 0 && decide (p.2 + d.toNat < n) && clear p.2 (p.2 + d.toNat)
        | .ok (.polNext d) => d != 0 && loops.any (fun l => l.2 == p.2 && decide (l.1 + d.toNat = p.2))
        | .ok _ => true)

end Sys2Proof.Machine
end

