-- ==== Sys2Proof/Machine/Signature.lean ====
section
/-!
DEFINITION. Signatures and key handles: the signed message of an image, the verdict on an LMS signature, `sigv` and `keyh` (R265,
R369 to R371).
-/

namespace Sys2Proof.Machine

/-! ### The signed message of an image (R265) -/

/-- The bit ranges that placement may rewrite in `n` block records from an offset, or none where the walk fails. -/
def recordRelocs (bs : List Byte) : Nat → Nat → Option (List (Nat × Nat))
  | 0, _ => some []
  | n + 1, off =>
    match recHead ((bs.drop off).take 64) with
    | none => none
    | some h =>
      let rb := (bs.drop off).take (64 * h.len)
      if rb.length < 64 * h.len then none
      else match walkRec h rb with
        | none => none
        | some r => match recordRelocs bs n (off + 64 * h.len) with
          | none => none
          | some rest => some (r.relocs.map (fun x => (8 * off + x.1, x.2)) ++ rest)

/-- Entry `i` of the configuration table (R260): the offset and the number of its records, or none where it is malformed. -/
def confEntry (bs : List Byte) (confOff i : Nat) : Option (Nat × Nat) :=
  let off := confOff + 8 * i
  let e := dwAt bs off
  let n := nfld e 32 9
  if bs.length < off + 8 ∨ nfld e 0 32 % 64 ≠ 0 ∨ n = 0 ∨ 256 < n ∨ nfld e 41 23 ≠ 0 then none else some (nfld e 0 32, n)

/-- The message that an image's bytes before its signature form, or none where its walk fails. -/
def signedMessage (h : ImageHead) (bs : List Byte) : Option (List Byte) :=
  let parts := (List.range h.nconf).map (fun i => (confEntry bs h.confOff i).bind (fun e => recordRelocs bs e.2 e.1))
  if parts.any Option.isNone then none else some (bs.mapIdx (maskByte ((parts.filterMap id).flatten)))

/-- An image's message and signature as a context reads them; none where the header's MAGIC, a reserved field of it or HCRC does not hold,
the walk fails, or the image is not signed (R371). -/
def State.imageSigned (s : State) (d : BitVec 3) (ctx : BitVec 9) (va : Word64) :
    Except (XFault × Word64) (Option (List Byte × List Byte)) :=
  match s.engineRead d ctx 64 va with
  | .error e => .error e
  | .ok hb =>
    let h := imageHeadOf hb
    if imageHeadSealed hb = false ∨ h.signed = false then .ok none
    else match s.engineRead d ctx (h.sigOff + h.sigLen) va with
      | .error e => .error e
      | .ok bs => .ok ((signedMessage h (bs.take h.sigOff)).map (fun m => (m, bs.drop h.sigOff)))

/-! ### The verdict (R371) -/

/-- The big-endian word at a byte offset of a signature or of a public key; the type codes are those of RFC 8554. -/
def beWord (bs : List Byte) (off : Nat) : Nat := beNat ((bs.drop off).take 4)

/-- LMSTYPE of a type code: 1 H10, 2 H15, 3 H20; 0 for another (PRESUMED, log entry 63). -/
def lmsTypeOf (code : Nat) : Nat := if 6 ≤ code ∧ code ≤ 8 then code - 5 else 0

/-- The tree height and the length of a signature of a type (PRESUMED, log entry 63). -/
def lmsHeight (t : Nat) : Nat := 5 * (t + 1)
def lmsSigLen (t : Nat) : Nat := 1132 + 32 * lmsHeight t

/-- LMSTYPE of a public key, 0 where it is not one of R367: 56 bytes of a supported type (PRESUMED, log entry 63). -/
def lmsKeyType (pub : List Byte) : Nat := if pub.length = 56 ∧ beWord pub 4 = 4 then lmsTypeOf (beWord pub 0) else 0

/-- VERDICT, LMSTYPE and LEAF. -/
structure Verdict where
  code : Nat
  typ  : Nat
  leaf : Nat
  deriving DecidableEq, Repr

def Verdict.bare (code : Nat) : Verdict := { code := code, typ := 0, leaf := 0 }

/-- The verdict word. -/
def Verdict.word (v : Verdict) : Word64 := BitVec.ofNat 64 (v.code + v.typ * 2 ^ 4 + v.leaf * 2 ^ 32)

/-- The verdict on a signature of a message under a key, from verdict 2 on; `badLen` is the verdict of a length that is not the
type's. A length that holds no type is that of no type: verdict 4 in MODE 0, and in MODE 1, where only a supported type has a length to be
wrong, verdict 2 (PRESUMED, log entry 63; DEDUCED, log entry 64). -/
def lmsVerdict (pub msg sig : List Byte) (badLen : Nat) : Verdict :=
  let t := lmsTypeOf (beWord sig 1128)
  let q := beWord sig 0
  if sig.length < 1132 then .bare (if badLen = 4 then 4 else 2)
  else if beWord sig 4 ≠ 4 ∨ t = 0 then ⟨2, t, 0⟩
  else if sig.length ≠ lmsSigLen t then .bare badLen
  else if 2 ^ lmsHeight t ≤ q then ⟨2, t, 0⟩
  else if lmsKeyType pub = t ∧ lmsVerify (lmsHeight t) pub msg sig = true then ⟨0, t, q⟩
  else ⟨1, t, q⟩

/-- The slot of KIND 3 that a handle names for a context (R369). -/
def State.lmsSlot (s : State) (ctx h : BitVec 9) : Option KeySlot :=
  s.slots.find? (fun k => k.handle = h ∧ k.ctx = some ctx ∧ k.kind = 3)

/-- The request of MODE 1 as it reads: the message and the signature, or none for lengths beyond 2^32 − 1. -/
def State.sigRequest (s : State) (d : BitVec 3) (ctx : BitVec 9) (va : Word64) :
    Except (XFault × Word64) (Option (List Byte × List Byte)) :=
  match s.engineRead d ctx 32 va with
  | .error e => .error e
  | .ok req =>
    let dw (i : Nat) : Nat := dwAt req (8 * i)
    if 2 ^ 32 ≤ dw 1 ∨ 2 ^ 32 ≤ dw 3 then .ok none
    else match s.engineRead d ctx (dw 1) (BitVec.ofNat 64 (dw 0)) with
      | .error e => .error e
      | .ok msg => match s.engineRead d ctx (dw 3) (BitVec.ofNat 64 (dw 2)) with
        | .error e => .error e
        | .ok sig => .ok (some (msg, sig))

/-- The translations of a page dropped from a sequencer's TLB and its die's (R329). -/
def State.dropSeqPage (s : State) (q : BitVec 7) (va : Word64) : State :=
  let sq := s.seq q
  (s.setSeq q { sq with tlb := tlbDrop sq.ctx va sq.tlb }).modDie (seqDie q) (fun x => { x with tlb := tlbDrop sq.ctx va x.tlb })

/-- The verdict on what `sigv` names, or the fault of reading it (DEDUCED, log entries 64, 71). -/
def State.sigAnswer (s : State) (d : BitVec 3) (ctx : BitVec 9) (a b : Word64) : Except (XFault × Word64) Verdict :=
  let mode1 := b.getLsbD 9
  let badLen := if mode1 then 5 else 4
  match if mode1 then s.sigRequest d ctx a else s.imageSigned d ctx a with
  | .error e => .error e
  | .ok p => match s.lmsSlot ctx (bits b 0 9), p with
    | none, _ => .ok (.bare 3)
    | some _, none => .ok (.bare badLen)
    | some k, some (msg, sig) => .ok (lmsVerdict k.pub msg sig badLen)

/-- `SIGV` (R371): the request is read, and the instruction waits for the verdict. -/
def execSigv (d a b : BitVec 5) (g : BitVec 3) (sense : BitVec 1) (s : State) : Result :=
  guarded s g sense (fun sq =>
    let va := sq.readG a
    let h := sq.readG b
    if bits h 10 54 ≠ 0 then s.trap tInvalid h
    else if va.toNat % (if h.getLsbD 9 then 8 else 64) ≠ 0 then s.trap tMisaligned va
    else if !s.mayAccess sq || !s.storesCross s.seqTurn then s.waitOn .memory
    else
      let s1 := s.flush s.seqTurn
      match s1.sigAnswer (seqDie s.seqTurn) sq.ctx va h with
      | .error (f, x) => .next (s.xtrap (s1.dropSeqPage s.seqTurn x) s.seqTurn f x)
      | .ok _ => s1.waitOn (.sigv d va h))

/-- `SIGV_VERDICT` (R371): for the bytes as they stand when the controller reads them. The request completes before a stop takes
effect (R131). -/
def execSigvVerdict (q : BitVec 7) (s : State) : Result :=
  let sq := s.seq q
  match sq.wait with
  | .sigv d a b => match s.sigAnswer (seqDie q) sq.ctx a b with
    | .error (.held, _) => .next s
    | .error (f, x) => .next ((s.dropSeqPage q x).takeTrap q f.cause x)
    | .ok v => .next (s.pass q (fun y => y.writeG d v.word))
  | _ => .next s

/-! ### `keyh` (R370) -/

/-- `KEYH` (R370). -/
def execKeyh (d a : BitVec 5) (g : BitVec 3) (sense : BitVec 1) (s : State) : Result :=
  guarded s g sense (fun sq =>
    let v := sq.readG a
    if bits v 9 55 ≠ 0 then s.trap tInvalid v else s.waitOn (.keyh d v))

/-- The word that describes a slot to a context: zero for one that is empty, another context's, or of KIND 4. -/
def State.keyWord (s : State) (ctx h : BitVec 9) : Word64 :=
  match s.slots.find? (fun k => k.handle = h ∧ k.ctx = some ctx ∧ k.kind ≠ 4) with
  | none => 0
  | some k =>
    let lms := k.kind == 3
    BitVec.ofNat 64 (1 + k.kind.toNat * 2 + (if lms then lmsKeyType k.pub else 0) * 2 ^ 4
      + (if lms then bytesToNat ((sha256 k.pub).take 4) else 0) * 2 ^ 32)

/-- `KEYH_REPLY` (R370). -/
def execKeyhReply (q : BitVec 7) (s : State) : Result :=
  let sq := s.seq q
  match sq.wait with
  | .keyh d v => .next (s.pass q (fun y => y.writeG d (s.keyWord sq.ctx (bits v 0 9))))
  | _ => .next s

end Sys2Proof.Machine
end

