-- ==== Sys2Proof/Machine/Stats.lean ====
section
/-!
DEFINITION. The statistics network: the block adders and the root memport (R96, R97, R209).
-/

namespace Sys2Proof.Machine

/-! ### Adding tokens (R96) -/

/-- The sum of the tokens of a list, if it has one. -/
def sumTokens : List CountTok → Option CountTok
  | [] => none
  | t :: ts => some (ts.foldl CountTok.add t)

/-- The first entry of each key of a list, and what is left. -/
def takeHeads {α β : Type} [DecidableEq α] : List (α × β) → List α → List (α × β) × List (α × β)
  | [], _ => ([], [])
  | p :: ps, seen =>
    let (h, r) := takeHeads ps (p.1 :: seen)
    if p.1 ∈ seen then (h, p :: r) else (p :: h, r)

/-- A sum leaves its block's adder: toward the root block's adder, from it to the root memport, and to nowhere where the region has
no root. -/
def Region.sumOut (r : Region) (x y : BitVec 4) (t : CountTok) : Region := match r.statRoot with
  | none => r
  | some c =>
    if c.x = r.x + x ∧ c.y = r.y + y then { r with rootToks := r.rootToks ++ [t] } else { r with toks := r.toks ++ [((x, y), t)] }

/-- `STAT_ADDER_MERGE` (R97): the adder of a block of the region takes one token from each inlet that holds one, and emits the sum.
The root block's adder has an inlet for every other block. -/
def execStatAdderMerge (n : Nat) (x y : BitVec 4) (s : State) : Result :=
  match s.region n with
  | none => .next s
  | some r =>
    let here := (s.cellsOf r).filter (fun c => decide (c.x = r.x + x ∧ c.y = r.y + y))
    let own := here.filterMap (fun c => (s.cell c).stat.head?)
    let isRoot := (r.statRoot.map (fun c => c.x == r.x + x && c.y == r.y + y)).getD false
    let (heads, rest) := if isRoot then takeHeads r.toks [] else ([], r.toks)
    match sumTokens (own ++ heads.map Prod.snd) with
    | none => .next s
    | some t =>
      let s1 := here.foldl (fun s c => s.modCell c (fun z => { z with stat := z.stat.tail })) s
      .next (s1.setRegion (Region.sumOut { r with toks := rest } x y t))

/-! ### The root memport (R209) -/

/-- The fault of an update of the record at an address. -/
def rootFault (code : Nat) (va : Word64) : FaultReg := { FaultReg.ofCode code with access := 2, addr := va }

/-- A token added into the record that prm14 of the root names: one update at the slice; or its fault, and the state with the page's
translations dropped (R329); none while its walk waits for a bridge (R352). -/
def State.rootAdd (s : State) (c : CellId) (t : CountTok) : Except (Option FaultReg × State) State :=
  let va := (s.cell c).active.prm[14]
  if va = 0 then .ok s
  else if va.toNat % 64 ≠ 0 then .error (some (rootFault 0x0A va), s)
  else match s.xlateMp c .rw false va with
    | (.error .held, _) => .error (none, s)
    | (.error e, s1) => .error (some (rootFault e.code va), s1)
    | (.ok x, s1) =>
      if (s1.poisonIn x.pa 64).isSome then .error (some (rootFault 0x0C va), s1.dropPage c (s1.ctxOfCell c) va)
      else
        let f (off n v : Nat) (s : State) : State := s.putNum x.key (x.pa + off) 4 (satNat 32 (s.numAt x.key (x.pa + off) n + v))
        let s2 := f 16 4 t.tiles (f 12 4 t.narrow (f 8 4 t.nan (f 4 4 t.ftz (f 0 4 t.sat s1))))
        let old := s2.numAt x.key (x.pa + 20) 2
        .ok (s2.putNum x.key (x.pa + 20) 2
          (if old = 0 then t.tensor.toNat else if old = t.tensor.toNat then old else 0xFFFF))

/-- `STAT_ROOT_ADD` (R209): the oldest sum that has reached the root memport. -/
def execStatRootAdd (n : Nat) (s : State) : Result :=
  match s.region n with
  | none => .next s
  | some r => match r.rootToks, r.statRoot with
    | t :: rest, some c =>
      let s1 := s.setRegion { r with rootToks := rest }
      match s1.rootAdd c t with
      | .ok s2 => .next s2
      | .error (some f, s2) => .next (s2.raiseFault c f)
      | .error (none, _) => .next s
    | _, _ => .next s

/-- Every token of a region added at its root, as it ends: the network loses none (R97) (DEDUCED, log entry 66). -/
def State.settleStats (s : State) (r : Region) : State := match r.statRoot with
  | none => s
  | some c =>
    let toks := (s.cellsOf r).flatMap (fun x => (s.cell x).stat) ++ r.toks.map Prod.snd ++ r.rootToks
    toks.foldl (fun s t => match s.rootAdd c t with
      | .ok s1 => s1
      | .error (_, s1) => s1) s

end Sys2Proof.Machine
end

