-- ==== Sys2Proof/Machine/Kernel.lean ====
section
/-!
DEFINITION. The life of a region and its kernel: the launch status, the statistics table, what a discard removes, resuming, ending and
retiring, the freeze line, the cut of a pre-emption, and the states of a context that follow (R98 to R100, R160, R266, R286, R363,
R373 to R382, R389 to R397, R410).
-/

namespace Sys2Proof.Machine

/-! ### The launch descriptor and the statistics table (R98, R99, R410) -/

/-- RESULT and then STATUS written into a launch descriptor (R410). -/
def State.launchStatus (s : State) (d : BitVec 3) (a : DescAddr) (status : Nat) (result : Word64) : State :=
  (s.putDesc d a 48 8 result.toNat).putDesc d a 0 1 status

/-- The 32 bytes of a statistics entry (R99) (DESIGN CHOICE, log entry 42). -/
def statEntryBytes : Option StatEntry → List Byte
  | none => natToBytes 32 0
  | some e => natToBytes 32 (e.tensor.toNat + 2 ^ 16 + e.sat * 2 ^ 64 + e.ftz * 2 ^ 96 + e.nan * 2 ^ 128 + e.narrow * 2 ^ 160
      + e.tiles * 2 ^ 192)

/-- The entries of a table: 64 and the overflow entry. -/
def statEntries (t : List StatEntry) : List (List Byte) := (List.range 65).map (fun i => statEntryBytes t[i]?)

/-- The statistics table of a kernel in counter mode written at its statistics address, unless that is 0 (R98). An entry on a page that
cannot be written is not written (DEDUCED, log entry 66). -/
def State.writeStats (s : State) (r : Region) : State :=
  if !r.launch.cmode || r.launch.stat == 0 then s
  else (statEntries r.stats).zipIdx.foldl (fun s p =>
    match s.xlateEngine r.die r.launch.ctx .w (r.launch.stat + BitVec.ofNat 64 (32 * p.2)) with
    | (.ok x, s1) => s1.putBytes x.key x.pa p.1
    | (.error _, s1) => s1) s

/-! ### The parts of a region that are on their way -/

/-- Every write of a region's cells and of its lead sequencer that has been issued is performed, and the counts of its writes return. -/
def State.settleWrites (s : State) (r : Region) : State :=
  let mine (q : SliceReq) : Bool := match q.src with
    | .cell c => r.hasCell c
    | .seq n => n == r.lead
  let s1 := (s.pend.filter (fun q => mine q && q.write)).foldl State.performWrite
    { s with pend := s.pend.filter (fun q => !(mine q && q.write)) }
  let s2 := (s1.counts.filter (fun n => r.hasCell n.src)).foldl (fun s n => s.modCell n.src (fun x =>
    { x with mp := { x.mp with acked := x.mp.acked.set n.ph.toNat (x.mp.acked[n.ph.toNat] + n.n) } })) s1
  { s2 with counts := s2.counts.filter (fun n => !r.hasCell n.src) }

/-- Whether a query was sent by a cell or the lead sequencer of a region. -/
def Region.asks (r : Region) (a : Acquirer) : Bool := match a with
  | .cell c => r.hasCell c
  | .seq q => q == r.lead

/-- The units that a region has on links and in the harp, as far as `p` picks them, taken away. -/
def State.dropUnits (s : State) (r : Region) (p : Item → Bool) : State :=
  let s1 : State := { s with wires := s.wires.filter (fun w => !(r.hasCell w.dst && p w.item)) }
  s1.modDie r.die (fun d => { d with
    egress := d.egress.map (fun e => if r.hasCell e.src then
        { e with waiting := e.waiting.filter (fun u => !p u.2), entries := e.entries.filter (fun x => !p x.item) } else e),
    harp := { d.harp with wait := d.harp.wait.filter (fun k => !(r.hasCell k.src && p k.item)) } })

/-- Everything that a region has in flight taken away with its cells: they hold nothing afterwards. -/
def State.clearBlocks (s : State) (r : Region) : State :=
  let s1 := s.dropUnits r (fun _ => true)
  let s2 : State := { s1 with
    cells := s1.cells.filter (fun p => !r.hasCell p.1), pulses := s1.pulses.filter (fun p => !r.hasCell p.dst),
    pend := s1.pend.filter (fun q => match q.src with
      | .cell c => !r.hasCell c
      | .seq n => n != r.lead),
    counts := s1.counts.filter (fun n => !r.hasCell n.src), queries := s1.queries.filter (fun q => !r.asks q.who) }
  s2.modDie r.die (fun d => { d with egress := d.egress.filter (fun e => !r.hasCell e.src) })

/-- A sequencer that runs nothing: CYCLE and its cached translations stay (R126). -/
def Seq.released (sq : Seq) : Seq := { Seq.reset with cycle := sq.cycle, tlb := sq.tlb }

/-- A stopped sequencer issues again at its resume address (R131, R381, R396). -/
def Seq.restart (sq : Seq) : Seq :=
  if sq.run = .stopped ∨ sq.run = .handler then
    { sq with run := .running, wait := if sq.wait.isRequest then sq.wait else .none }
  else sq

/-! ### Discarding a tile invocation (R36, R395) -/

/-- Whether a unit belongs to one of a list of invocations. -/
def ofInvs (is : List Inv) (u : Item) : Bool := u.invs.any (fun i => decide (i ∈ is))

/-- A fretboard without the updates of the invocation that its undo log holds (R225) (DEDUCED, log entry 32). -/
def Fretboard.revert (f : Fretboard) : Fretboard :=
  let put (es : List (Nat × FbEntry)) (p : Nat × Option FbEntry) : List (Nat × FbEntry) := match p.2 with
    | some e => aset es p.1 e
    | none => adel es p.1
  let f1 : Fretboard := { f with entries := f.undo.foldl put f.entries }
  (match f.undoLoss with
    | some (n, span) => { f1 with loss := n, lossSpan := span }
    | none => f1).clearLog

/-- An `agen` node set to emit the discarded invocations again: the one under way is not finished, and they come in the order in
which they began, before those that it has not begun (DEDUCED, log entry 58). -/
def AgenSt.rerun (g : AgenSt) (is : List Inv) : AgenSt :=
  let again := (g.begun.map AgTile.inv).filter (fun i => decide (i ∈ is))
  let current := if g.par.isSome then g.due.head? else none
  match current with
  | some i =>
    if i ∈ is then { g with due := again ++ g.due.tail.filter (fun j => decide (j ∉ again)), par := none, pos := 0 }
    else { g with due := i :: (again ++ g.due.tail.filter (fun j => decide (j ∉ again))) }
  | none => { g with due := again ++ g.due.filter (fun j => decide (j ∉ again)) }

/-- A memport without the results, held stores and pulses of the discarded invocations; their journals begin a rerun (R203, R205). -/
def Memport.discard (m : Memport) (is : List Inv) : Memport :=
  let hit (i : Option Inv) : Bool := match i with
    | some i => decide (i ∈ is)
    | none => false
  { m with
    outs := m.outs.filter (fun o => !ofInvs is o.item),
    held := m.held.filter (fun h => !(hit h.inv || ofInvs is h.served.item)),
    journals := m.journals.map (fun j => if hit j.inv then { j with next := 0, again := [], rerun := true } else j),
    lastDue := m.lastDue.filter (fun p => !hit p.1) }

/-- A cell without what the discarded invocations put into it (DEDUCED, log entry 58). -/
def Cell.discard (x : Cell) (is : List Inv) : Cell :=
  let hit (i : Option Inv) : Bool := match i with
    | some i => decide (i ∈ is)
    | none => false
  let inCell := x.cur.toList.any hit
  { x with
    queues := x.queues.map (fun q => q.discard (ofInvs is)),
    latches := x.latches.map (fun l => if (l.map (ofInvs is)).getD false then none else l),
    due := x.due.map (fun l => l.filter (fun p => !ofInvs is p.2)), swIn := x.swIn.filter (fun p => !ofInvs is p.2),
    nst := Vector.ofFn (fun i : Fin 8 => if hit x.cur[i] then x.ckpt[i] else x.nst[i]),
    fb := if inCell then x.fb.revert else x.fb,
    mx := if hit x.mx.began then { MatrixSt.reset with isInt := x.mx.isInt, asked := x.mx.asked } else x.mx,
    mp := { x.mp.discard is with planeN := Vector.ofFn (fun i : Fin 8 => if hit x.cur[i] then 0 else x.mp.planeN[i]) }, ag := x.ag.map (fun g => g.rerun is), conv := x.conv.filter (fun e => !hit e.inv) }

/-- Every atomic of a cell that is in flight, performed, the oldest first; `n` bounds them. -/
def State.settleAtoms (c : CellId) : Nat → State → State
  | 0, s => s
  | n + 1, s => match (s.cell c).mp.atoms with
    | [] => s
    | t :: _ => State.settleAtoms c n ((s.settle (.cell c)).performAtom c 0 t)

/-- The atomics of a region's cells performed: those that have been issued stay applied (R395). -/
def State.settleRegionAtoms (s : State) (r : Region) : State :=
  (s.cellsOf r).foldl (fun s c => State.settleAtoms c (s.cell c).mp.atoms.length s) s

/-- The ring bytes of a cell's queues as they stand after a discard (R244). -/
def State.rewriteRings (s : State) (r : Region) (c : CellId) : State :=
  (s.cell c).queues.toList.foldl (fun s q => if q.ring.isEmpty then s
    else s.ringWrite r.die r.launch.ctx q (q.ringEntries.zipIdx.map (fun p => (p.2, p.1)))) s

/-- A discard counted (R393). -/
def bumpDiscards (l : List (Inv × Nat)) (i : Inv) : List (Inv × Nat) := aset l i ((aget l i).getD 0 + 1)

/-- The invocations discarded from a region (R395): they run again under R197, and no sink has seen their EOT (R286). -/
def State.discardInvs (s : State) (r : Region) (is : List Inv) : State :=
  let s1 := (s.settleRegionAtoms r).dropUnits r (ofInvs is)
  let s2 : State := { s1 with
    cells := s1.cells.map (fun p => if r.hasCell p.1 then (p.1, p.2.discard is) else p),
    pend := s1.pend.filter (fun q => q.write || !(match q.inv with
      | some i => decide (i ∈ is)
      | none => false)) }
  let s3 := s2.modSeq r.lead (fun sq => { sq with outPort := sq.outPort.map (fun o => o.map (fun q => q.discard (ofInvs is))) })
  let s4 := (s3.cellsOf r).foldl (fun s c => s.rewriteRings r c) s3
  s4.modRegion r.serial (fun g => { g with
    discards := is.foldl bumpDiscards g.discards,
    sections := g.sections.mapIdx (fun j x => { x with
      tiles := x.tiles.map (fun t => if ⟨g.serial, j, t.tile⟩ ∈ is then { t with sinks := [] } else t) }) })

/-- The invocations at fault of a region: those that the faulting cells name. -/
def State.faultInvs (s : State) (r : Region) : List Inv :=
  (((s.cellsOf r).filter (fun c => (s.cell c).fault.valid)).filterMap (fun c => (s.cell c).fault.inv)).eraseDups

/-- Whether NORERUN is set in a faulting cell (R391, R393). -/
def State.faultNoRerun (s : State) (r : Region) : Bool :=
  (s.cellsOf r).any (fun c => (s.cell c).fault.valid && (s.cell c).fault.norerun)

/-! ### What a context's state follows (R363, R364, R380) -/

/-- Commands put back at the head of their dies' launch engine queues, in their order (R364). -/
def State.requeue (s : State) (ws : List (BitVec 3 × QDesc)) : State :=
  ws.reverse.foldl (fun s w => s.modDie w.1 (fun x => { x with engq := x.engq.set 0 (w.2 :: x.engq[0]) })) s

/-- The command in progress of a context completed; the engine takes those that waited for it. -/
def State.finishCmd (s : State) (d : BitVec 3) (n : BitVec 9) (status : Nat) : State :=
  let c := s.ctx n
  match c.cmd with
  | none => s
  | some k =>
    ((s.setCtx n { c with cmd := none, waiting := [] }).complete d { desc := k.desc, ticket := k.ticket, sel := none, read := [] } 32 1 status).requeue
      c.waiting

/-- The regions of a context. -/
def State.regionsOf (s : State) (n : BitVec 9) : List Region := s.regions.filter (fun r => r.launch.ctx = n)

/-- A context whose regions have been cut: SAVED where it holds saved regions and no running one, else RUNNING (R363). -/
def State.afterCuts (s : State) (d : BitVec 3) (n : BitVec 9) : State :=
  let rs := s.regionsOf n
  let dest : CState := if rs.any (fun r => r.kstate == .saved) && !rs.any Region.placed then .saved else .running
  s.moveCtx d n (fun c => { c with state := dest })

/-- A PREEMPT command in progress completed, where every region of its dies has been cut (R363, R380, R416), or a pre-emption by a
decision (DEDUCED, log entry 61). -/
def State.settlePreempt (s : State) (d : BitVec 3) (n : BitVec 9) : State :=
  let c := s.ctx n
  let rs := s.regionsOf n
  if c.state ≠ .preempting then s
  else match c.cmd with
    | some k =>
      let mine := rs.filter (fun r => k.dies.getLsbD r.die.toNat && r.placed && r.cut != .none)
      if mine.any (fun r => r.cut ≠ .saveFault) then s
      else if !mine.isEmpty then s.finishCmd d n 3
      else ((s.setCtx n { c with saveBase := some k.base }).finishCmd d n 1).afterCuts d n
    | none => if rs.any (fun r => r.placed && r.cut != .none) then s else s.afterCuts d n

/-- A context none of whose regions is FROZEN any more returns to the state it froze in (R363); a PREEMPT that the freeze stopped
completes with STATUS 5 (R380) (DEDUCED, log entry 61). -/
def State.settleCtx (s : State) (d : BitVec 3) (n : BitVec 9) : State :=
  let c := s.ctx n
  if c.state = .frozen then
    if (s.regionsOf n).any (fun r => r.kstate == .frozen) then s
    else (s.moveCtx d n (fun c => { c with state := c.froze })).finishCmd d n 5
  else s.settlePreempt d n

/-! ### Resuming, ending and retiring (R266, R393, R396, R397, R412) -/

/-- A decision made pending for a partition (R414). -/
def State.pendDispatch (s : State) (d : BitVec 3) (p : BitVec 4) : State :=
  s.modDie d (fun x => { x with parts := x.parts.map (fun y => if y.num = p then { y with pendD := true } else y) })

/-- The kernel of a region ends and its region is freed: its issued writes, atomics and counts are performed, the statistics are written, and
the launch descriptor takes its status (DEDUCED, log entry 66). -/
def State.endRegion (s : State) (r : Region) (status : Nat) (result : Word64) : State :=
  let s1 := (if r.placed then ((s.settleRegionAtoms r).settleWrites r).settleStats r else s).writeStats r
  let s2 := if r.placed then (s1.clearBlocks r).modSeq r.lead Seq.released else s1
  let s3 : State := { s2 with regions := s2.regions.filter (fun x => x.serial ≠ r.serial) }
  let s4 := s3.modDie r.die (fun d => { d with
    parts := d.parts.map (fun p => if p.num = r.launch.part then { p with pendF := p.pendF.erase r.serial, pendD := true } else p) })
  ((s4.launchStatus r.die r.launch.desc status result).finishInvals).settleCtx r.die r.launch.ctx

/-- A kernel whose control program has ended retires when no admitted tile is left (R160, R266) (DEDUCED, log entry 66). -/
def State.tryRetire (s : State) (n : Nat) : State :=
  match s.region n with
  | none => s
  | some r =>
    if (s.seq r.lead).run = .halted ∧ (r.kstate = .active ∨ r.kstate = .resident) ∧ r.freezing = false
        ∧ r.sections.all (fun x => x.tiles.isEmpty) = true then
      s.endRegion r 6 0
    else s

/-- A frozen region flows again: its fault registers are clear, its cells and queues run, and its lead sequencer issues at its resume
address (R396). -/
def State.resumeRegion (s : State) (n : Nat) : State :=
  match s.region n with
  | none => s
  | some r =>
    let free (x : Cell) : Cell := { x with
      stopped := false, fault := FaultReg.reset, muted := false, queues := x.queues.map (fun q => { q with frozen := false }) }
    let s1 : State := { s with cells := s.cells.map (fun p => if r.hasCell p.1 then (p.1, free p.2) else p) }
    let s2 := s1.modSeq r.lead (fun sq =>
      { sq.restart with outPort := sq.outPort.map (fun o => o.map (fun q => { q with frozen := false })) })
    let s3 := s2.modRegion n (fun r => { r with
      kstate := .active, freezing := false, summary := none, fclass := 0, delivered := false })
    let s4 := s3.modDie r.die (fun d => { d with
      parts := d.parts.map (fun p => if p.num = r.launch.part then { p with pendF := p.pendF.erase n } else p) })
    (((s4.settleCtx r.die r.launch.ctx).startRetune n).completeFlip n).tryRetire n

/-- The event of a recovery action (R408). -/
def State.recoverEvent (s : State) (r : Region) (action : Nat) : State :=
  s.event r.die 8 r.launch.ctx (r.summary.getD 0) 0 (BitVec.ofNat 64 action)

/-- The recovery actions that a fault allows at this moment (R393, R397), as 1 RERUN, 2 RESUME, 3 DELIVER, 4 END
(DEDUCED, log entry 60). -/
def State.allowed (s : State) (r : Region) : List Nat :=
  let sq := s.seq r.lead
  let deliver := sq.tvec != 0 && !sq.intrap && sq.run != .halted
  let base := match r.fclass with
    | 1 => if s.faultNoRerun r then [] else [1]
    | 2 => [2]
    | _ => []
  if r.fclass = 0 then [] else base ++ (if deliver then [3] else []) ++ [4]

/-- RERUN (R393, R396) (DEDUCED, log entry 58). -/
def State.rerunRegion (s : State) (r : Region) : State := (s.discardInvs r (s.faultInvs r)).resumeRegion r.serial

/-- DELIVER (R397): the lead sequencer alone takes RegionFault. -/
def State.deliverFault (s : State) (r : Region) : State :=
  let s1 := s.modSeq r.lead (fun sq => { sq with run := .handler, wait := .none })
  (s1.takeTrap r.lead tRegionFault (r.summary.getD 0)).modRegion r.serial (fun r => { r with delivered := true })

/-- A recovery action applied to a FROZEN region, with its event (R393, R415). -/
def State.recover (s : State) (r : Region) (action : Nat) : State :=
  let s1 := s.recoverEvent r action
  match action with
  | 1 => s1.rerunRegion r
  | 2 => s1.resumeRegion r.serial
  | 3 => s1.deliverFault r
  | _ => s1.endRegion r 7 (r.summary.getD 0)

/-- A class A fault of a frozen region reruns at once, whatever NORERUN says, which bars class R alone (R393, R215)
(DEDUCED, log entry 60). -/
def State.autoRerun (s : State) (n : Nat) : State :=
  match s.region n with
  | none => s
  | some r =>
    if r.kstate = .frozen ∧ r.fclass = 0 then (s.recoverEvent r 0).rerunRegion r else s

/-! ### The freeze line (R389) -/

/-- A retune that waited for a region which was freezing begins (R336). -/
def State.beginRetune (s : State) (n : Nat) : State :=
  if ((s.region n).map (fun r => r.kstate == .frozen && r.retunes.any (fun t => !t.started))).getD false then s.startRetune n else s

/-- `FREEZE_LINE_ARRIVAL` (R389): the cell stops, where `skid` is what it has fired since the freeze began, and in the lead block the lead
sequencer stops. The last one makes the region FROZEN (DEDUCED, log entry 60). -/
def execFreezeLineArrival (c : CellId) (skid : BitVec 4) (s : State) : Result :=
  match s.regionOf c with
  | none => .next s
  | some r =>
    if r.kstate = .frozen then .next ((s.beginRetune r.serial).autoRerun r.serial)
    else if !r.freezing then .next s
    else if (s.cell c).stopped then .next (((s.freezeIfStopped r.serial).beginRetune r.serial).autoRerun r.serial)
    else if (s.cell c).fault.skid ≠ skid then .next s
    else
      let s1 := s.modCell c (fun x => { x with stopped := true })
      let s2 := if c.x = r.leadX ∧ c.y = r.leadY then
          s1.modSeq r.lead (fun sq => { sq with run := if sq.run = .running then .stopped else sq.run })
        else s1
      .next (((s2.freezeIfStopped r.serial).beginRetune r.serial).autoRerun r.serial)

/-! ### The cut of a pre-emption (R373 to R380) -/

/-- A pre-emption of a region begins (R373, R374): its lead sequencer stops, and the mute enters at every source. In a region that a
retune already mutes, or that is not loaded yet, no mute enters now. -/
def State.beginCut (s : State) (n : Nat) (byCommand : Bool) : State :=
  match s.region n with
  | none => s
  | some r =>
    let s1 := s.modRegion n (fun r => { r with cut := .cutting byCommand })
    if r.kstate = .loading ∨ r.muting = true then s1
    else (s1.modSeq r.lead (fun sq => { sq with run := if sq.run = .running then .stopped else sq.run })).enterMute r

/-- Whether a decision may still pre-empt a region: it runs, it is not cut already, and its context has a save area (R415)
(DEDUCED, log entry 86). -/
def State.mayCut (s : State) (r : Region) : Bool :=
  r.cut == .none && (r.kstate == .active || r.kstate == .resident) && !r.freezing && (s.ctx r.launch.ctx).saveBase.isSome

/-- The pre-emption that a decision made (R363): the context is PREEMPTING where the region is its last running one. -/
def State.cutByDecision (s : State) (r : Region) : State :=
  (s.beginCut r.serial false).moveCtx r.die r.launch.ctx (fun c =>
    if c.state = .running ∧ (s.regionsOf r.launch.ctx).any (fun x => x.placed && x.serial != r.serial && x.cut == .none) = false then
      { c with state := .preempting }
    else c)

/-- The size of a region's save image (R379). -/
def Region.saveSize (r : Region) : Nat := 65536 + 4456448 * r.map.length

/-- The first fault among the pages of a save area, from page `i` for `n` of them (DEDUCED, log entry 86). -/
def State.saveFault (s : State) (d : BitVec 3) (ctx : BitVec 9) (base : Word64) : Nat → Bool
  | 0 => false
  | n + 1 =>
    (match (s.xlateEngine d ctx .rw (base + BitVec.ofNat 64 (4096 * n))).1 with
      | .ok _ => false
      | .error _ => true) || s.saveFault d ctx base n

/-- The seal key of a context: its slot of KIND 4 (R367, R379). -/
def State.sealKey (s : State) (n : BitVec 9) : Option Key := (s.slots.find? (fun k => k.ctx = some n ∧ k.kind = 4)).map KeySlot.key

/-- The bytes of page `n` of a sealed image, or of the header (DESIGN CHOICE, log entry 65). -/
def sealedPage (serial n : Nat) : List Byte := (List.range 4096).map (fun i => Config.imageByte serial (4096 * n + i))

/-- The last `n` sealed pages from an address written, each through its page's key (R326, R379) (DESIGN CHOICE, log entry 65). -/
def State.writeSealed (s : State) (d : BitVec 3) (ctx : BitVec 9) (base : Word64) (serial : Nat) : Nat → State
  | 0 => s
  | n + 1 => match s.xlateEngine d ctx .rw (base + BitVec.ofNat 64 (4096 * n)) with
    | (.ok x, s1) => (s1.putBytes x.key x.pa (sealedPage serial n)).writeSealed d ctx base serial n
    | (.error _, s1) => s1.writeSealed d ctx base serial n

/-- Where the images that a context has saved in an area lie, with their sizes. -/
def State.savedIn (s : State) (n : BitVec 9) (base : Word64) : List (Nat × Nat) :=
  (s.regionsOf n).filterMap (fun r => if r.kstate ≠ .saved then none
    else r.image.bind (fun i => if i.base = base then some (i.at_.toNat, r.saveSize) else none))

/-- Where a save image of a size goes: the first place behind the header, or behind an image, where it meets none that is still saved
(DESIGN CHOICE, log entry 65). -/
def State.saveAt (s : State) (n : BitVec 9) (base : Word64) (size : Nat) : Word64 :=
  let used := s.savedIn n base
  let spots := (base.toNat + 4096) :: used.map (fun u => u.1 + u.2)
  BitVec.ofNat 64 (((spots.filter (fun a => used.all (fun u => !overlap a size u.1 u.2))).min?).getD (base.toNat + 4096))

/-- The images of a context in an area listed by a new header. -/
def State.rehead (s : State) (n : BitVec 9) (base : Word64) (head : Nat) : State :=
  { s with regions := s.regions.map (fun r =>
    if r.launch.ctx = n then { r with image := r.image.map (fun i => if i.base = base then { i with head := head } else i) } else r) }

/-- A region saved (R379): its cells and its lead sequencer leave their blocks for the image (DESIGN CHOICE, log entry 65). -/
def State.saveRegion (s : State) (r : Region) (base at_ : Word64) (bytes head : Nat) : State :=
  let s1 := s.settleWrites r
  let rel (c : CellId) : BitVec 4 × BitVec 4 × BitVec 6 := (c.x - r.x, c.y - r.y, c.n)
  let img : SaveImage :=
    { base := base, at_ := at_, bytes := bytes, head := head, key := s.sealKey r.launch.ctx,
      cells := (s1.cells.filter (fun p => r.hasCell p.1)).map (fun p => (rel p.1, p.2)), seq := s1.seq r.lead }
  let s2 := (s1.clearBlocks r).modSeq r.lead Seq.released
  let s3 := s2.modRegion r.serial (fun r => { r with
    kstate := .saved, cut := .none, image := some img, age := 0, run := 0, yielded := false, retunes := [],
    reprobe := r.reprobe || !r.retunes.isEmpty })
  ((s3.pendDispatch r.die r.launch.part).finishInvals).settleCtx r.die r.launch.ctx

/-- Whether nothing of a region is on its way: units, pulses, and requests of its lead sequencer
(DESIGN CHOICE, log entry 14; DEDUCED, log entry 67). -/
def State.quiet (s : State) (r : Region) : Bool :=
  s.wires.all (fun w => !r.hasCell w.dst) && s.pulses.all (fun p => !r.hasCell p.dst)
    && (s.die r.die).egress.all (fun e => !r.hasCell e.src || (e.waiting.isEmpty && e.entries.isEmpty))
    && (s.die r.die).harp.wait.all (fun k => !r.hasCell k.src) && !(s.seq r.lead).wait.isRequest

/-- `CUT_COMPLETE` (R378 to R380): every cell has acted, and what was on its way has arrived (DEDUCED, log entry 67). It waits for the bridges on
the way to the save area (R352). -/
def execCutComplete (n : Nat) (s : State) : Result :=
  match s.region n with
  | none => .next s
  | some r =>
    match r.cut with
    | .cutting _ =>
      if r.freezing || !(r.kstate == .active || r.kstate == .resident) || !r.fetches.isEmpty || !s.allMuted r || !s.quiet r then .next s
      else
        let c := s.ctx r.launch.ctx
        let base? := match c.cmd with
          | some k => some k.base
          | none => c.saveBase
        match base? with
        | none => .next ((s.modRegion n (fun r => { r with cut := .saveFault })).settleCtx r.die r.launch.ctx)
        | some base =>
          let at_ := s.saveAt r.launch.ctx base r.saveSize
          if !s.rangeUp r.die r.launch.ctx base.toNat 4096 || !s.rangeUp r.die r.launch.ctx at_.toNat r.saveSize then .next s
          else if s.saveFault r.die r.launch.ctx base 1 || s.saveFault r.die r.launch.ctx at_ (r.saveSize / 4096) then
            .next ((s.modRegion n (fun r => { r with cut := .saveFault })).settleCtx r.die r.launch.ctx)
          else
            let (head, s1) := s.freshNat
            let (bytes, s2) := s1.freshNat
            let s3 := (s2.writeSealed r.die r.launch.ctx base head 1).writeSealed r.die r.launch.ctx at_ bytes (r.saveSize / 4096)
            .next ((s3.rehead r.launch.ctx base head).saveRegion r base at_ bytes head)
    | _ => .next s

end Sys2Proof.Machine
end

