-- ==== Sys2Proof/Machine/Tiles.lean ====
section
/-!
DEFINITION. Pulses, the admission and the end of tiles, and what becomes of units and queues between firings (R28, R231, R238, R244,
R285 to R289, R346, R372).
-/

namespace Sys2Proof.Machine

/-! ### Pulses (R28, R271) -/

/-- `PULSE_ARRIVAL` (R28): pulse `k` on its way is counted, or discarded where it was sent under an earlier epoch. Pulses of one output
toward one input arrive in order. -/
def execPulseArrival (k : Nat) (s : State) : Result :=
  match s.pulses[k]? with
  | none => .next s
  | some p =>
    let before := (s.pulses.take k).any (fun x => x.src == p.src && x.po == p.po && x.dst == p.dst && x.pin == p.pin)
    if before then .next s
    else
      let s1 : State := { s with pulses := s.pulses.eraseIdx k }
      let x := s1.cell p.dst
      if x.epoch ≠ p.epoch then .next s1
      else if 0xFFFF ≤ (x.pin[p.pin.toNat]).length then .next (s1.raiseFault p.dst { FaultReg.ofCode 0x03 with node := p.pin })
      else
        let one : PulseIn := { kind := p.kind, src := p.src, po := p.po }
        .next (s1.setCell p.dst { x with pin := x.pin.set p.pin.toNat (x.pin[p.pin.toNat] ++ [one]) })

/-! ### Admission (R285, R289, R372) -/

/-- Whether the budget of a context on a die lets a tile in (R372) (DEDUCED, log entry 83). -/
def State.budgetOpen (s : State) (d : BitVec 3) (ctx : BitVec 9) : Bool := match (s.die d).budgets.find? (fun b => b.ctx = ctx) with
  | none => false
  | some b => (b.qfl == 0xFFFFFFFF || decide (0 < b.fl)) && (b.qfi == 0xFFFFFFFF || decide (0 < b.fi))

/-- END of the children of a group with an ORD (R289): tiles that a section has ended in its run. -/
def Region.endOf (r : Region) (g : BitVec 7) (o : Nat) : Nat :=
  ((r.sections.find? (fun x => x.parent = g ∧ x.ord.toNat = o)).map Section.ended).getD 0

/-- The gates of R289 for the next tile of a section. -/
def Region.gateOpen (r : Region) (x : Section) : Bool := match r.groups[x.parent.toNat]? with
  | none => true
  | some g =>
    if g.typ ≠ 1 then true
    else
      let k := x.ord.toNat
      let m := r.childCount x.parent.toNat - 1
      (k == 0 || decide (x.idx + 1 ≤ r.endOf x.parent (k - 1))) && (k == m || decide (x.idx ≤ r.endOf x.parent (k + 1) + 1))

/-- The source nodes of a section, with their cells. -/
def Region.sourcesOf (r : Region) (x : Section) : List (CellId × BitVec 3) :=
  x.sources.filterMap (fun n => (r.nodeCell n).map (fun c => (c, n.slot)))

/-- Whether a kernel admits tiles: its control program has not ended, and no freeze, mute or pre-emption is under way, one whose save area
faulted included (R160, R373, R380, R389) (DEDUCED, log entries 18, 39). -/
def State.admits (s : State) (r : Region) : Bool :=
  (r.kstate == .active || r.kstate == .resident) && !r.freezing && !r.muting && r.cut == .none && (s.seq r.lead).run != .halted

/-- `TILE_ADMIT` (R285): a section admits its next tile once every condition holds, and every source starts it in this one step: a source
that still emits its tile before this one cannot start it (R40), and a source that owes a RETUNE emits that first
(DEDUCED, log entries 18, 40). -/
def execTileAdmit (n : Nat) (sec : BitVec 6) (s : State) : Result :=
  match s.region n with
  | none => .next s
  | some r => match r.sections[sec.toNat]? with
    | none => .next s
    | some x =>
      let src := r.sourcesOf x
      let s1 := src.foldl (fun s p => s.modCell p.1 (fun y => y.takeFrees p.2)) s
      let ready (p : CellId × BitVec 3) : Bool := let g := (s1.cell p.1).ag[p.2.toNat]; g.hasCredit && !g.retune && g.due.isEmpty && (s1.cell p.1).due[p.2.toNat].isEmpty
      if x.left = 0 ∨ !x.running ∨ !s.admits r ∨ !r.gateOpen x ∨ !s.budgetOpen r.die r.launch.ctx ∨ !src.all ready then .next s
      else
        let inv : Inv := ⟨r.serial, sec.toNat, x.serial⟩
        let s2 := src.foldl (fun s p => (s.modCell p.1 (fun y => y.setAg p.2 (y.ag[p.2.toNat].start inv))).sendPulse p.1 p.2 0) s1
        let x1 : Section := { x with
          left := x.left - 1, idx := x.idx + 1, serial := x.serial + 1, tiles := x.tiles ++ [{ tile := x.serial, idx := x.idx, sinks := [] }] }
        .next (s2.modRegion n (fun r => { r with sections := modNth (fun _ => x1) sec.toNat r.sections }))

/-! ### The end of a tile (R286) -/

/-- Whether a memport sink has released the tile's stores and performed its atomics (R286). -/
def State.sinkDone (s : State) (r : Region) (i : Inv) (n : NodeRef) : Bool := match r.nodeCell n with
  | none => true
  | some c =>
    let m := (s.cell c).mp
    m.held.all (fun h => h.inv != some i) && m.atoms.all (fun t => t.inv != some i)

/-- What a tile leaves behind is forgotten: journals (R205), the tiles begun at its sources (R197), and its discards (R393). -/
def State.forgetTile (s : State) (r : Region) (i : Inv) : State :=
  let clear (x : Cell) : Cell := { x with
    mp := { x.mp with journals := x.mp.journals.filter (fun j => j.inv ≠ some i) },
    ag := x.ag.map (fun g => { g with begun := g.begun.filter (fun t => t.inv ≠ i) }) }
  { s with cells := s.cells.map (fun p => if r.hasCell p.1 then (p.1, clear p.2) else p) }

/-- A tile counted in the groups above its section that run (R293). -/
def Region.countTile (r : Region) (p : BitVec 7) : Region :=
  let up := r.ancestors 65 p
  { r with groups := r.groups.mapIdx (fun i g =>
      if i ∈ up ∧ g.state = .running then { g with tiles := if g.tiles = 0xFFFFFF then g.tiles else g.tiles + 1 } else g) }

/-- `TILE_END` (R286): the first open tile of a section whose EOT has passed every sink, and whose stores and atomics have performed,
ends; groups move on (R287), and a kernel whose control program has ended may retire (R160). -/
def execTileEnd (n : Nat) (sec : BitVec 6) (s : State) : Result :=
  match s.region n with
  | none => .next s
  | some r => match r.sections[sec.toNat]? with
    | none => .next s
    | some x =>
      let ended (t : OpenTile) : Bool :=
        x.sinks.all (fun k => decide (k ∈ t.sinks)) && x.sinks.all (s.sinkDone r ⟨r.serial, sec.toNat, t.tile⟩)
      if !(r.kstate == .active || r.kstate == .resident) then .next s
      else match x.tiles.find? ended with
        | none => .next s
        | some t =>
          let i : Inv := ⟨r.serial, sec.toNat, t.tile⟩
          let s1 := s.forgetTile r i
          let x1 : Section := { x with tiles := x.tiles.erase t, ended := x.ended + 1 }
          let r1 : Region := { r with
            sections := modNth (fun _ => x1) sec.toNat r.sections, discards := adel r.discards i,
            norerun := r.norerun.filter (fun j => j ≠ i) }
          .next ((s1.setRegion (settleGroups 4096 (r1.countTile x.parent))).tryRetire n)

/-! ### Units that arrive (R238, R346) -/

/-- `QUEUE_OFFER` (R238): the oldest unit on its way from one cell to another is offered to its queue. A marker of a loss at the egress
makes the queue fault under TRAP (R346); a ring that cannot be reached makes the unit wait (R244). -/
def execQueueOffer (src dst : CellId) (s : State) : Result :=
  match s.wires.find? (fun w => w.src = src ∧ w.dst = dst) with
  | none => .next s
  | some w =>
    let (s1, out) := s.offerCell dst w.dq w.item
    if out = .retry then .next s1
    else
      let s2 : State := { s1 with wires := s1.wires.erase w }
      let trap := w.loss && ((s2.cell dst).queues[w.dq.toNat]).trap
      .next (if trap then s2.raiseFault dst { faultAt 0x15 0 (some w.item) with queue := w.dq } else s2)

/-! ### Queues between offers and pops (R231, R244) -/

/-- A queue that is not frozen changed by `f`, which sees the queue's identity in its markers. -/
def State.changeQueue (s : State) (q : QRef) (f : Word32 → Queue → Option (Queue × Option Nat)) : State := match q with
  | .cell c k =>
    let x := s.cell c
    let qu := x.queues[k.toNat]
    if qu.frozen then s
    else match f (cellWord c k) qu with
      | none => s
      | some (qu1, fault) => (s.setCell c { x with queues := x.queues.set k.toNat qu1 }).queueFault c k fault
  | .out n port =>
    let sq := s.seq n
    match sq.outPort[port.toNat] with
    | none => s
    | some qu =>
      if qu.frozen then s
      else match f (Config.outletQid n.toNat port.toNat) qu with
        | none => s
        | some (qu1, fault) =>
          let s1 := s.setSeq n { sq with outPort := sq.outPort.set port.toNat (some qu1) }
          match s1.regionOfSeq n with
          | some r => s1.queueFault r.leadCell 0 fault
          | none => s1
  | .soft ctx va => s.softChange ctx va (fun qid _ _ qu => (f qid qu).map Prod.fst)

/-- The test that ends a cycle at a queue (R232) (DESIGN CHOICE, log entry 150). -/
def State.leaveTest (s : State) (q : QRef) : State :=
  s.changeQueue q (fun qid x => if x.canLeave then some (x.leave qid .flowing) else none)

/-- `LEAVE_SHEDDING` (R231, R248). -/
def execLeaveShedding (q : QRef) (s : State) : Result :=
  .next (s.leaveTest q)

/-- `QUEUE_CLOSED` (R231). -/
def execQueueClosed (q : QRef) (s : State) : Result :=
  .next (s.changeQueue q (fun _ x => if x.canClose then some ({ x with state := .closed }, none) else none))

/-- Where a queue's spill ring lies: the die and the context. -/
def State.ringHome (s : State) (q : QRef) : BitVec 3 × BitVec 9 := match q with
  | .cell c _ => (c.die, s.ctxOfCell c)
  | .out n _ => (seqDie n, (s.seq n).ctx)
  | .soft ctx _ => (0, ctx)

/-- The queue that a name stands for. -/
def State.queueAt (s : State) : QRef → Option Queue
  | .cell c k => some (s.cell c).queues[k.toNat]
  | .out n port => (s.seq n).outPort[port.toNat]
  | .soft ctx va => (s.softqs.find? (fun y => y.ctx = ctx ∧ y.addr = va)).map SoftQ.q

/-- `SPILL_REPLAY` (R244): the oldest unit of the ring moves back, where its entries can be read; else the queue-spill fault, or
a wait for a bridge (R352). -/
def execSpillReplay (q : QRef) (s : State) : Result :=
  match s.queueAt q with
  | none => .next s
  | some x => match x.ring with
    | [] => .next s
    | u :: _ =>
      let (d, ctx) := s.ringHome q
      let record (code : Nat) (k : BitVec 3) (va : Word64) : FaultReg :=
        { faultAt code 0 (some u.item) with queue := k, access := 3, addr := va }
      if s.ringReach d ctx x 0 u.item.slots then
        let s1 := s.changeQueue q (fun _ y => some (y.replay, none))
        .next (match q with
          | .cell c k => s1.newHead c k x.head
          | _ => s1)
      else if x.frozen then .next s
      else match (s.ringMiss d ctx x (List.range u.item.slots)).bind (fun m => m.1.spillCode.map (fun c => (c, m.2))), q with
        | some (code, va, s1), .cell c k => .next (s1.raiseFault c (record code k va))
        | some (code, va, s1), .out n _ => match s1.regionOfSeq n with
          | some r => .next (s1.raiseFault r.leadCell (record code 0 va))
          | none => .next s1
        | some (_, _, s1), .soft _ _ => .next s1
        | none, _ => .next s

end Sys2Proof.Machine
end

