-- ==== Sys2Proof/Machine/Harp.lean ====
section
/-!
DEFINITION. The egress buffers and the crosspoints of a die's harp, as far as units between blocks use them (R339 to R347, R372).
-/

namespace Sys2Proof.Machine

/-! ### Circuits (R347) -/

/-- Whether an outlet's route is a circuit. -/
def State.isCircuit (s : State) (c : CellId) (so : BitVec 5) : Bool :=
  (((s.cell c).active.route so).map (fun f => f.2 == some true)).getD false

/-- The port of a cell's block (R339). -/
def portOfCell (c : CellId) : BitVec 9 := (blockNum c).setWidth 9

/-- The circuits of a die that cross its harp, as source and destination port. -/
def State.circuits (s : State) (d : BitVec 3) : List (BitVec 9 × BitVec 9) :=
  (s.cells.filter (fun p => p.1.die = d)).flatMap (fun p =>
    (p.2.active.links.filter (fun l => s.isCircuit p.1 l.so)).filterMap (fun l =>
      let o := portOfCell (s.farCell p.1 l)
      if o = portOfCell p.1 then none else some (portOfCell p.1, o)))

/-! ### The egress (R345, R346) -/

/-- Flit entries in use, and token entries. -/
def Egress.flits (e : Egress) : Nat := ((e.entries.filter EgEntry.slot).map (fun x => x.item.slots)).sum
def Egress.tokens (e : Egress) : Nat := (e.entries.filter (fun x => !x.slot)).length

/-- A marker folded into the youngest marker of an egress, if it has one. -/
def foldEgress (x : Item) (loss : Bool) : List EgEntry → Option (List EgEntry)
  | [] => none
  | e :: es => match foldEgress x loss es with
    | some es1 => some (e :: es1)
    | none =>
      if e.item.tag.kind = kGap then some ({ e with item := foldInto e.item x, loss := e.loss || loss } :: es) else none

/-- A token placed in the token entries, or a marker folded where they are full; none where neither can be. -/
def Egress.placeToken (e : Egress) (stamp : Nat) (u : Item) (loss : Bool) : Option Egress :=
  if e.tokens < 4 then some { e with entries := e.entries ++ [⟨stamp, u, false, loss⟩] }
  else if u.tag.kind = kGap then (foldEgress u loss e.entries).map (fun es => { e with entries := es }) else none

/-- The loss marker of a DATA unit that an egress drops: it extends the youngest entry where it can. -/
def Egress.dropUnit (e : Egress) (stamp : Nat) (u : Item) : Option Egress :=
  let m := unitGap 1 (cellWord e.dst e.dq) u
  match e.entries.getLast? with
  | some y =>
    if extendsMarker y.item m then some { e with entries := e.entries.dropLast ++ [{ y with item := extendMarker y.item m, loss := true }] }
    else e.placeToken stamp m true
  | none => e.placeToken stamp m true

/-- A unit offered to the entries of an egress; none for the link-overflow fault (DEDUCED, log entry 75). -/
def Egress.offer (e : Egress) (stamp : Nat) (u : Item) : Option Egress :=
  if !u.isData then e.placeToken stamp u false
  else if u.slots ≤ 32 - e.flits then some { e with entries := e.entries ++ [⟨stamp, u, true, false⟩] }
  else e.dropUnit stamp u

/-! ### Into the crosspoints (R340, R341, R372) -/

/-- Whether a unit that the same cell emitted earlier toward the same cell has not yet left the crosspoints (R319, R345). -/
def Die.behind (x : Die) (e : Egress) : Bool := match e.entries with
  | [] => true
  | en :: _ =>
    x.egress.any (fun y => y.src == e.src && y.dst == e.dst && (y.entries.head?.map (fun z => decide (z.stamp < en.stamp))).getD false)
      || x.harp.wait.any (fun p => p.src == e.src && p.dst == e.dst)

/-- The entry that has waited longest among those egresses that `p` picks, with its egress (DEDUCED, log entry 75). -/
def oldestEntry (es : List Egress) (p : Egress → Bool) : Option (Egress × EgEntry) :=
  (es.filter p).foldl (fun best e => match e.entries with
    | [] => best
    | x :: _ => match best with
      | none => some (e, x)
      | some (_, y) => if x.stamp < y.stamp then some (e, x) else best) none

/-- The first entry of an egress taken (DEDUCED, log entry 75). -/
def State.popEgress (s : State) (d : BitVec 3) (e : Egress) : State :=
  s.modDie d (fun x => { x with
    egress := x.egress.map (fun y =>
      if y.src = e.src ∧ y.so = e.so ∧ y.dst = e.dst ∧ y.dq = e.dq then { y with entries := y.entries.tail } else y) })

/-- The head of an input moved to its crosspoint, where the input has none there: the stamp of R341. It resides there from `wait` harp cycles
on, when the flits before it have passed (DEDUCED, log entry 74). -/
def State.feedInput (s : State) (d : BitVec 3) (inp : BitVec 9) (wait : Nat) : State :=
  let x := s.die d
  if x.harp.wait.any (fun p => p.inp == inp) then s
  else match oldestEntry x.egress (fun e => portOfCell e.src == inp && !s.isCircuit e.src e.so && !x.behind e) with
    | none => s
    | some (e, en) =>
      let p : Packet :=
        { inp := inp, outp := portOfCell e.dst, src := e.src, dst := e.dst, dq := e.dq, item := en.item, slack := s.slackOf e.src,
          resid := 0, since := x.harp.now + wait, late := false, loss := en.loss }
      let s1 := s.popEgress d e
      (s1.modDie d (fun x => { x with harp := { x.harp with wait := x.harp.wait ++ [p] } })).countFlits e.src en.item.slots

/-- The egress of a cell whose first waiting unit was emitted first, of those toward one cell (R319). -/
def firstEmitted (es : List Egress) (src dst : CellId) : Option (Egress × Nat × Item × List (Nat × Item)) :=
  es.foldl (fun best e =>
    if e.src = src ∧ e.dst = dst then
      match e.waiting, best with
      | [], _ => best
      | (n, u) :: rest, none => some (e, n, u, rest)
      | (n, u) :: rest, some (_, m, _, _) => if n < m then some (e, n, u, rest) else best
    else best) none

/-- `EGRESS_OFFER` (R319, R345, R346): toward the cell for which an outlet has a unit waiting, the unit that was emitted first. It takes the
stamp of its arrival at the egress (DEDUCED, log entry 74). -/
def execEgressOffer (c : CellId) (so : BitVec 5) (s : State) : Result :=
  let es := (s.die c.die).egress
  match es.find? (fun e => e.src = c ∧ e.so = so ∧ e.waiting ≠ []) with
  | none => .next s
  | some e0 => match firstEmitted es c e0.dst with
    | none => .next s
    | some (e, _, u, rest) =>
      let (stamp, s1) := s.freshNat
      let put (e1 : Egress) : State := s1.modDie c.die (fun x => { x with
        egress := x.egress.map (fun y => if y.src = e.src ∧ y.so = e.so ∧ y.dst = e.dst ∧ y.dq = e.dq then e1 else y) })
      match Egress.offer { e with waiting := rest } stamp u with
      | some e1 => .next ((put e1).feedInput c.die (portOfCell c) 0)
      | none => .next ((put { e with waiting := rest }).raiseFault c (faultAt 0x18 0 (some u)))

/-! ### Arbitration (R342, R343) -/

/-- The effective slack of a packet, and its residence, in a harp cycle. -/
def Packet.effSlack (p : Packet) (now : Nat) : Nat :=
  if p.slack = 0xFFF then 0xFFF else p.slack.toNat - (p.resid.toNat + (now - p.since)) / 16

/-- A packet that has become late: the flag of a DATA record, and the count and event of its region (R343). -/
def State.lateEvent (s : State) (c : CellId) : State := match s.regionOf c with
  | none => s
  | some r =>
    let s1 := s.modRegion r.serial (fun r => { r with late := if r.late = 0xFFFFFFFF then r.late else r.late + 1 })
    if r.lateEn then s1.note r.die 2 r.launch.ctx 0 0 else s1

/-- Whether a request that left a die at a harp cycle, and crosses some bridges, has used its slack up: its packet waits at its destination's
port from then on, and each crossing adds 20 harp cycles (R342, R343, R350) (DEDUCED, log entry 144). -/
def slackGone (slack : BitVec 12) (crossings since now : Nat) : Bool :=
  slack != 0xFFF && decide (slack.toNat ≤ (now - since + 20 * crossings) / 16)

/-- The crossings between a die and the home of an address (R350). -/
def crossingsTo (d : BitVec 3) (pa : Nat) : Nat := (bridgeHops d (homeDie d pa)).length

/-- Whether a memory request of a die becomes late; one that waits for a peer is in no crosspoint (DEDUCED, log entry 144). -/
def SliceReq.isLate (r : SliceReq) (d : BitVec 3) (now : Nat) : Bool :=
  !r.late && r.src.die == d && !inPeer r.pa && slackGone r.slack (crossingsTo d r.pa) r.since now

/-- Whether an atomic of a memport of a die becomes late (DEDUCED, log entry 144). -/
def AtomReq.isLate (t : AtomReq) (d : BitVec 3) (now : Nat) : Bool := !t.late && slackGone t.slack (crossingsTo d t.pa) t.since now

/-- Whether a query of an acquirer of a die becomes late (R341) (DEDUCED, log entry 144). -/
def Query.isLate (q : Query) (d : BitVec 3) (now : Nat) : Bool :=
  !q.late && acquirerDie q.who == d && slackGone q.slack (bridgeHops d q.entry.src.die).length q.since now

/-- The late event of the region of an acquirer. -/
def State.lateOf (s : State) : Acquirer → State
  | .cell c => s.lateEvent c
  | .seq q => match s.regionOfSeq q with
    | some r => s.lateEvent r.leadCell
    | none => s

/-- Every waiting packet, and every request, whose effective slack has become 0 marked (DEDUCED, log entry 144). -/
def State.markLate (s : State) (d : BitVec 3) : State :=
  let h := (s.die d).harp
  let isLate (p : Packet) : Bool := !p.late && p.effSlack h.now == 0
  let mark (p : Packet) : Packet :=
    if isLate p then
      { p with
        late := true,
        item := if p.item.isData then { p.item with tag := { p.item.tag with flags := p.item.tag.flags ||| fLate } } else p.item }
    else p
  let s1 := s.modDie d (fun x => { x with harp := { x.harp with wait := x.harp.wait.map mark } })
  let s2 := (h.wait.filter isLate).foldl (fun s p => s.lateEvent p.src) s1
  let reqLate (r : SliceReq) : Bool := r.isLate d h.now
  let s3 : State := { s2 with pend := s2.pend.map (fun r => if reqLate r then { r with late := true } else r) }
  let s4 := (s2.pend.filter reqLate).foldl (fun s r => match r.src with
    | .cell c => s.lateEvent c
    | .seq _ => s) s3
  let atoms (x : Cell) : List AtomReq := x.mp.atoms.filter (fun t => t.isLate d h.now)
  let here := s4.cells.filter (fun p => p.1.die = d ∧ atoms p.2 ≠ [])
  let s5 := here.foldl (fun s p => (atoms p.2).foldl (fun s _ => s.lateEvent p.1)
    (s.modCell p.1 (fun x => { x with
      mp := { x.mp with atoms := x.mp.atoms.map (fun t => if t.isLate d h.now then { t with late := true } else t) } }))) s4
  let s6 : State := { s5 with queries := s5.queries.map (fun q => if q.isLate d h.now then { q with late := true } else q) }
  (s5.queries.filter (fun q => q.isLate d h.now)).foldl (fun s q => s.lateOf q.who) s6

/-- The place of an input in the grants of an output: an input never granted comes first, by its number. -/
def grantRank (gs : List (BitVec 9 × BitVec 9)) (out inp : BitVec 9) : Nat :=
  match (gs.filter (fun g => g.1 = out)).findIdx? (fun g => g.2 = inp) with
  | none => inp.toNat
  | some i => 512 + i

/-- The packet that an output grants: least effective slack, then the input granted longest ago. -/
def pickPacket (h : Harp) (out : BitVec 9) (ps : List Packet) : Option Packet :=
  let key (p : Packet) : Nat := p.effSlack h.now * 2048 + grantRank h.grants out p.inp
  ps.foldl (fun best p => match best with
    | none => some p
    | some b => if key p < key b then some p else best) none

/-- A unit delivered from the harp to its block, with the SLACK and RESID of its grant. -/
def State.arrive (s : State) (src dst : CellId) (dq : BitVec 3) (u : Item) (loss : Bool) (slack : BitVec 12) (resid : BitVec 4) : State :=
  { s with wires := s.wires ++ [{ src := src, dst := dst, dq := dq, item := u, loss := loss, slack := slack, resid := resid }] }

/-- What an output can pass in the harp cycle at hand. -/
inductive HarpPick where
  | none
  | circuit (e : Egress) (en : EgEntry)
  | packet (p : Packet)
  deriving DecidableEq, Repr

/-- What an output passes in a harp cycle (R342, R347): `cs` are the circuits of the die. In an even cycle the ports of a circuit are its own:
a circuit that ends at the output passes its next unit, and an input that sources one passes no packet. An output whose width the flits of
an earlier grant still use grants nothing. -/
def State.harpPick (s : State) (d : BitVec 3) (cs : List (BitVec 9 × BitVec 9)) (now : Nat) (out : BitVec 9) : HarpPick :=
  let x := s.die d
  let own := if now % 2 = 0 then cs else []
  let open_ (l : List (BitVec 9 × Nat)) : Bool := decide ((aget l out).getD 0 ≤ now)
  if own.any (fun p => p.2 == out) then
    match open_ x.harp.cbusy, oldestEntry x.egress (fun e => portOfCell e.dst == out && s.isCircuit e.src e.so && !x.behind e) with
    | true, some (e, en) => .circuit e en
    | _, _ => .none
  else if open_ x.harp.busy then
    match pickPacket { x.harp with now := now } out
        (x.harp.wait.filter (fun p => p.outp == out && decide (p.since ≤ now) && !own.any (fun c => c.1 == p.inp))) with
    | some p => .packet p
    | none => .none
  else .none

/-- The harp cycle after at most `n` cycles have passed: none passes while an output can still grant in it (R342). -/
def State.harpTime (s : State) (d : BitVec 3) (cs : List (BitVec 9 × BitVec 9)) : Nat → Nat → Nat
  | 0, now => now
  | n + 1, now =>
    if ((s.die d).harp.wait.map Packet.outp ++ cs.map Prod.snd).any (fun o => s.harpPick d cs now o != .none) then now
    else State.harpTime s d cs n (now + 1)

/-- `HARP_GRANT` (R342, R343, R347): harp cycles pass, `elapsed` of them or as many as pass before some output can grant, and an output grants
what it can in the cycle reached. A packet of two flits keeps its output for two cycles, or for two of those that a circuit leaves; a
circuit's vector takes two latched cycles. -/
def execHarpGrant (d : BitVec 3) (out : BitVec 9) (elapsed : Nat) (s : State) : Result :=
  let cs := s.circuits d
  let now := s.harpTime d cs elapsed (s.die d).harp.now
  let s0 := (s.modDie d (fun x => { x with harp := { x.harp with now := now } })).markLate d
  match s0.harpPick d cs now out with
  | .none => .next s0
  | .circuit e en =>
    let s1 := (s0.popEgress d e).modDie d (fun y => { y with
      harp := { y.harp with cbusy := aset y.harp.cbusy out (now + 2 * en.item.slots) } })
    .next ((s1.countFlits e.src en.item.slots).arrive e.src e.dst e.dq en.item en.loss 0xFFF 0)
  | .packet p =>
    let n := p.item.slots
    let shared := cs.any (fun c => c.2 == out || c.1 == p.inp)
    let s1 := s0.modDie d (fun y => { y with harp := { y.harp with
      wait := y.harp.wait.erase p, grants := y.harp.grants.filter (fun g => g ≠ (out, p.inp)) ++ [(out, p.inp)],
      busy := aset y.harp.busy out (now + (if shared then 2 * n - 1 else n)) } })
    let (slack, resid) : BitVec 12 × BitVec 4 := if p.slack = 0xFFF then (p.slack, p.resid)
      else (BitVec.ofNat 12 (p.effSlack now), p.resid + BitVec.ofNat 4 (now - p.since))
    .next ((s1.arrive p.src p.dst p.dq p.item p.loss slack resid).feedInput d p.inp n)

end Sys2Proof.Machine
end

