-- ==== Sys2Proof/Machine/Place.lean ====
section
/-!
DEFINITION. Placing an image in a region, and the load of configuration 0 by the dispatch path (R127, R257, R260, R265, R266, R268, R284,
R301, R409).
-/

namespace Sys2Proof.Machine

/-! ### Placement (R268) -/

/-- Whether a block of a die is fused off. -/
def State.fused (s : State) (d : BitVec 3) (x y : Nat) : Bool := (s.die d).fuse.getLsbD (16 * y + x)

/-- The columns of a rectangle's row that are not fused off, from the west, relative to the rectangle (DEDUCED, log entry 76). -/
def State.openCols (s : State) (d : BitVec 3) (x y w : Nat) : List Nat := (List.range w).filter (fun i => !s.fused d (x + i) y)

/-- Where a logical block lies in a rectangle of a die, relative to it: in its place where the image is not relocatable, else on its
row's (lx + 1)-th block that is not fused off (DEDUCED, log entry 76). -/
def State.placeIn (s : State) (d : BitVec 3) (x y w h lw lh : Nat) (reloc : Bool) (lx ly : BitVec 4) : Option (BitVec 4 × BitVec 4) :=
  if lw ≤ lx.toNat ∨ lh ≤ ly.toNat ∨ h ≤ ly.toNat then none
  else if reloc then ((s.openCols d x (y + ly.toNat) w)[lx.toNat]?).map (fun c => (BitVec.ofNat 4 c, ly))
  else if lx.toNat < w ∧ s.fused d (x + lx.toNat) (y + ly.toNat) = false then some (lx, ly) else none

/-- Whether an image fits a rectangle: it is as high, each row has room, and without relocation it is as wide and holds no fused-off
block (R16). -/
def State.placeOk (s : State) (d : BitVec 3) (x y w h lw lh : Nat) (reloc : Bool) : Bool :=
  h == lh && decide (x + w ≤ 16 ∧ y + h ≤ 16 ∧ lw ≤ w)
    && (List.range h).all (fun j => decide (lw ≤ (s.openCols d x (y + j) w).length))
    && (reloc || (w == lw && (List.range h).all (fun j => (s.openCols d x (y + j) w).length == w)))

/-- The placing of a region's launch. -/
def State.placing (s : State) (r : Region) (lx ly : BitVec 4) : Option (BitVec 4 × BitVec 4) :=
  s.placeIn r.die r.x.toNat r.y.toNat r.w r.h r.launch.width r.launch.height r.launch.reloc lx ly

/-! ### The load of configuration 0 (R266) -/

/-- A failure at load: the status word that RESULT takes, with SIGFAIL for a signature (DESIGN CHOICE, log entry 77). -/
def refusalWord (f : LoadFail) (sig : Bool) : Word64 := CfgStatus.word { CfgStatus.reset.fail f with sigFail := sig }

/-- A kernel refused at load (R266, R412): its region is freed, and the launch descriptor takes STATUS 4 (DESIGN CHOICE, log entry 77). -/
def State.refuseLoad (s : State) (r : Region) (word : Word64) : State :=
  let s1 := s.clearBlocks r
  let s2 : State := { s1 with regions := s1.regions.filter (fun x => x.serial ≠ r.serial) }
  let s3 := s2.modDie r.die (fun d => { d with
    parts := d.parts.map (fun p => if p.num = r.launch.part then { p with pendF := p.pendF.erase r.serial, pendD := true } else p) })
  ((s3.launchStatus r.die r.launch.desc 4 word).finishInvals).settleCtx r.die r.launch.ctx

/-- The signature of a region's image under its context's IMGKEYH, where the context requires one (R265, R365): whether it holds, or
the fault of reading it. -/
def State.signatureOk (s : State) (r : Region) : Except LoadFail Bool :=
  let cx := s.ctx r.launch.ctx
  if !cx.reqsig then .ok true
  else match s.imageSigned r.die r.launch.ctx r.launch.image with
    | .error (f, a) => .error (LoadFail.ofRead f a)
    | .ok none => .ok false
    | .ok (some (msg, sig)) => match s.lmsSlot r.launch.ctx cx.imgkeyh with
      | none => .ok false
      | some k => .ok ((lmsVerdict k.pub msg sig 2).code == 0)

/-- `n` block records from an address, each checked and its shadows placed. -/
def State.loadRecords (r : Region) : Nat → Word64 → State → List Placed → Except LoadFail (State × List Placed)
  | 0, _, s, done => .ok (s, done)
  | n + 1, va, s, done =>
    match s.fetchBlock r va (some (s.placing r)) (fun x y => done.any (fun p => p.px == x && p.py == y)) with
    | .error f => .error f
    | .ok rec_ =>
      let p : Placed := ⟨rec_.head.lbx, rec_.head.lby, rec_.head.pbx, rec_.head.pby⟩
      State.loadRecords r n (va + BitVec.ofNat 64 (64 * rec_.head.len)) (s.placeShadows r rec_) (done ++ [p])

/-- Double-words of a context's range, or a fetch fault (R409) (DEDUCED, log entry 118). -/
def State.loadDwords (s : State) (r : Region) (va : Word64) (n : Nat) : Except LoadFail (List Word64) :=
  (s.imageBytes r va (8 * n)).map (fun bs => (List.range n).map (fun i => BitVec.ofNat 64 (dwAt bs (8 * i))))

/-- A kernel's control program at its start (R127): the arguments in g1 to g8, the channel map, and the ports that the flip bound
(DEDUCED, log entry 118). -/
def Seq.start (sq : Seq) (r : Region) (pc : Word64) (sections : Nat) (args chans : List Word64) : Seq :=
  { Seq.reset with
    cycle := sq.cycle, tlb := sq.tlb, pc := pc, cmode := r.launch.cmode, sections := BitVec.ofNat 8 sections, ctx := r.launch.ctx,
    g := Vector.ofFn (fun i : Fin 32 => if 1 ≤ i.val ∧ i.val ≤ 8 then args.getD (i.val - 1) 0 else 0),
    chanMap := Vector.ofFn (fun i : Fin 64 => chans.getD i.val 0), inPort := sq.inPort, outPort := sq.outPort, run := .running,
    region := some r.serial }

/-- Every shadow of a region taken over at once (R266): nothing is in flight. -/
def State.dispatchFlip (s : State) (r : Region) (v : View) : Option State :=
  (s.cellsOf r).foldl (fun s? c => match s? with
    | none => none
    | some s => (s.applyShadow r v c).map (fun s1 => s1.modCell c (fun x => { x with last := 7, epoch := false }))) (some s)

/-- The checks and the load of R266, in its order: the region loaded and its sequencer started, or why it is refused; the flag says that
the signature failed (DEDUCED, log entries 78, 118). -/
def State.load0 (s : State) (r : Region) : Except (LoadFail × Bool) State := do
  let plain {α : Type} (e : Except LoadFail α) : Except (LoadFail × Bool) α := e.mapError (fun f => (f, false))
  let bad {α : Type} (c : BitVec 3) : Except (LoadFail × Bool) α := .error (LoadFail.of .rejected c, false)
  let hb ← plain (s.imageBytes r r.launch.image 64)
  let h := imageHeadOf hb
  if crc32c (hb.take 48) ≠ h.hcrc then .error (LoadFail.of .crcFail 1, false)
  else if !imageHeadOk hb then bad 5
  else
    let sigOk ← plain (s.signatureOk r)
    if !sigOk then .error (LoadFail.of .rejected 0, true)
    else if !s.placeOk r.die r.x.toNat r.y.toNat r.w r.h h.w h.h h.reloc || h.w != r.launch.width || h.reloc != r.launch.reloc then bad 6
    else
      let table ← plain (s.imageBytes r (r.launch.image + BitVec.ofNat 64 h.confOff) 8)
      match confEntry table 0 0 with
      | none => bad 5
      | some (off, n) =>
        let (s1, placed) ← plain (State.loadRecords r n (r.launch.image + BitVec.ofNat 64 off) s [])
        let r1 : Region := { r with map := placed, named := [], tried := [], lostLoad := false }
        let v := s1.stagedView r1
        let tree ← plain (s.imageBytes r (r.launch.image + BitVec.ofNat 64 h.treeOff) h.treeLen)
        match treeOf tree h.ngrp h.nsect (fun k => (r1.nodeCell k).bind (fun c => (v.at c).word k.slot)) with
        | none => bad 5
        | some (groups, secs) =>
          let root := h.root.bind (fun k => r1.logical k.1 k.2.1 k.2.2)
          let rootOk := match h.root with
            | none => true
            | some k => root.isSome && cellKind k.2.2 == .memport
          if !rootOk then bad 5
          else if v.ungatedCycle then bad 7
          else match (s1.stagedReject r1).orElse (fun _ => ((v.badPulse).orElse (fun _ => v.badCircuit)).map (fun c => (c, 0))) with
            | some (c, k) => .error ({ LoadFail.of .rejected 4 with bx := c.x - r.x, by_ := c.y - r.y, cell := c.n, slot := k }, false)
            | none =>
              let args ← plain (s.loadDwords r r.launch.args 8)
              let chans ← if r.launch.chans = 0 then .ok [] else plain (s.loadDwords r r.launch.chans 64)
              let r2 : Region := { r1 with
                groups := groups, sections := secs, statRoot := root, cfg := CfgStatus.reset, safe := v.retuneSafe, kstate := .resident }
              match (s1.setRegion r2).dispatchFlip r2 v with
              | none => bad 4
              | some s2 =>
                let pc := r.launch.image + BitVec.ofNat 64 h.ctrlOff
                .ok (s2.modSeq r.lead (fun sq => sq.start r2 pc h.nsect args chans))

/-- A pre-emption or a retune that came while the kernel was loading begins. -/
def State.afterLoad (s : State) (n : Nat) : State := match s.region n with
  | none => s
  | some r => match r.cut with
    | .cutting b => s.beginCut n b
    | _ => s.startRetune n

/-- `DISPATCH_LOAD_COMPLETE` (R266, R409). -/
def execDispatchLoadComplete (n : Nat) (s : State) : Result :=
  match s.region n with
  | none => .next s
  | some r =>
    if r.kstate ≠ .loading ∨ r.freezing = true then .next s
    else match s.load0 r with
      | .ok s1 => .next (s1.afterLoad n)
      | .error (f, sig) => .next (if f.held then s else s.refuseLoad r (refusalWord f sig))

end Sys2Proof.Machine
end

