-- ==== Sys2Proof/Machine/Resume.lean ====
section
/-!
DEFINITION. Free blocks and rectangles, and the resume of a saved region (R251, R268, R381, R382, R412).
-/

namespace Sys2Proof.Machine

/-! ### Free blocks and rectangles (R268, R381, R412) -/

/-- Whether a region of a die holds a block. -/
def State.taken (s : State) (d : BitVec 3) (n : Nat) : Bool :=
  s.regions.any (fun r => r.placed && r.covers d (BitVec.ofNat 4 n) (BitVec.ofNat 4 (n / 16)))

/-- A set of block numbers as a mask. -/
def maskOf (p : Nat → Bool) : BitVec 256 := BitVec.ofNat 256 ((List.range 256).foldl (fun a n => if p n then a + 2 ^ n else a) 0)

/-- The free blocks of a partition of a die. -/
def State.freeBlocks (s : State) (d : BitVec 3) (p : Partition) : BitVec 256 :=
  maskOf (fun n => p.mask.getLsbD n && !s.taken d n)

/-- The number of blocks in a mask. -/
def maskCount (m : BitVec 256) : Nat := ((List.range 256).filter (fun n => m.getLsbD n)).length

/-- Whether a sequencer leads no region that holds blocks (R30) (DEDUCED, log entry 153). -/
def State.leadFree (s : State) (q : BitVec 7) : Bool := s.regions.all (fun r => !r.placed || r.lead != q)

/-- Whether every block of a rectangle is in a set, or fused off. -/
def State.rectIn (s : State) (d : BitVec 3) (free : BitVec 256) (x y w h : Nat) : Bool :=
  (List.range h).all (fun j => (List.range w).all (fun i => free.getLsbD (16 * (y + j) + x + i) || s.fused d (x + i) (y + j)))

/-- The north-west corners of a die by block number (DEDUCED, log entry 76). -/
def corners : List (Nat × Nat) := (List.range 256).map (fun n => (n % 16, n / 16))

/-- A rectangle: its corner and its width. -/
structure Rect where
  x : Nat
  y : Nat
  w : Nat
  deriving DecidableEq, Repr

/-- The lead block of a launch in a rectangle; an image whose lead block lies outside its logical rectangle counts as leading from the first
block, and is refused at load (R266, R284) (DEDUCED, log entry 76). -/
def State.leadIn (s : State) (d : BitVec 3) (c : Rect) (l : Launch) : BitVec 4 × BitVec 4 :=
  (s.placeIn d c.x c.y c.w l.height l.width l.height l.reloc l.leadLx l.leadLy).getD (0, 0)

/-- The rectangle for a launch within a set of blocks: the lowest north-west block, then the narrowest. `lead` says that its lead
sequencer must be free: a sequencer runs one region (R30) (DEDUCED, log entry 76) (DEDUCED, log entry 153). -/
def State.findRect (s : State) (d : BitVec 3) (free : BitVec 256) (l : Launch) (lead : Bool) : Option Rect :=
  corners.findSome? (fun p =>
    ((List.range 17).find? (fun w =>
      s.placeOk d p.1 p.2 w l.height l.width l.height l.reloc && s.rectIn d free p.1 p.2 w l.height
        && (!lead || (let b := s.leadIn d ⟨p.1, p.2, w⟩ l; s.leadFree (seqOfBlock d (p.1 + b.1.toNat) (p.2 + b.2.toNat)))))).map
      (fun w => ⟨p.1, p.2, w⟩))

/-- The rectangle for a saved region within a set of blocks: its size, with the fused-off blocks in the same places, and its lead
sequencer free (DEDUCED, log entry 153). -/
def State.findSaved (s : State) (free : BitVec 256) (r : Region) : Option Rect :=
  (corners.find? (fun p =>
    decide (p.1 + r.w ≤ 16 ∧ p.2 + r.h ≤ 16) && s.rectIn r.die free p.1 p.2 r.w r.h
      && (List.range r.h).all (fun j => (List.range r.w).all (fun i =>
        s.fused r.die (p.1 + i) (p.2 + j) == s.fused r.die (r.x.toNat + i) (r.y.toNat + j)))
      && s.leadFree (seqOfBlock r.die (p.1 + (r.leadX - r.x).toNat) (p.2 + (r.leadY - r.y).toNat)))).map (fun p => ⟨p.1, p.2, r.w⟩)

/-! ### The seal (R379, R381) -/

/-- Whether the area of a saved image can be read, and every byte of it is as the device sealed it (DEDUCED, log entry 80). -/
inductive SealState where
  | sound | broken | unreadable
  deriving DecidableEq, Repr

/-- Two parts of an area together. -/
def SealState.both (a b : SealState) : SealState := match a, b with
  | .unreadable, _ | _, .unreadable => .unreadable
  | .broken, _ | _, .broken => .broken
  | .sound, .sound => .sound

/-- `n` pages from an address as an engine reads them, beside the bytes sealed with a serial number; a poisoned line cannot be read (R403)
(DEDUCED, log entry 80). -/
def State.sealAt (s : State) (d : BitVec 3) (ctx : BitVec 9) (va : Word64) (serial : Nat) : Nat → SealState
  | 0 => .sound
  | n + 1 =>
    match (s.xlateEngine d ctx .r (va + BitVec.ofNat 64 (4096 * n))).1 with
    | .error _ => .unreadable
    | .ok x =>
      let here : SealState :=
        if (s.poisonIn x.pa 4096).isSome then .unreadable
        else if s.bytesAt x.key x.pa 4096 = sealedPage serial n then .sound else .broken
      here.both (s.sealAt d ctx va serial n)

/-- The seal of a saved region's image: its header, its bytes, and the context's seal key (DEDUCED, log entry 80). -/
def State.sealOf (s : State) (r : Region) : SealState := match r.image with
  | none => .broken
  | some i =>
    ((s.sealAt r.die r.launch.ctx i.base i.head 1).both (s.sealAt r.die r.launch.ctx i.at_ i.bytes (r.saveSize / 4096))).both
      (if s.sealKey r.launch.ctx = i.key then .sound else .broken)

/-- Whether the ways to a save area, and to a region's image in it, are UP (R352). -/
def State.areaUp (s : State) (r : Region) (base : Word64) : Bool :=
  s.rangeUp r.die r.launch.ctx base.toNat 4096
    && (r.image.map (fun i => s.rangeUp r.die r.launch.ctx i.at_.toNat r.saveSize)).getD true

/-! ### Discardable state (R251, R382) -/

/-- The queues that feed a position of a node: the one bound to it, or those that feed the nodes of the cell whose results its latch takes
(DEDUCED, log entry 151). -/
def Cell.feeding (x : Cell) : Nat → BitVec 3 → Nat → List (BitVec 3)
  | 0, _, _ => []
  | n + 1, k, p => match x.bindOf k p with
    | some q => [q]
    | none => (List.range 8).flatMap (fun j => match x.word (BitVec.ofNat 3 j) with
      | some w =>
        if Target.latch k (BitVec.ofNat 2 p) ∈ wordTargets w then (List.range 4).flatMap (fun i => Cell.feeding x n (BitVec.ofNat 3 j) i)
        else []
      | none => [])

/-- Whether a cell's fretboard is discardable: every queue that feeds position a of an update node has DISC set
(DEDUCED, log entry 151). -/
def Cell.fbDiscards (x : Cell) : Bool :=
  let upd := (List.range 8).filter (fun k => match x.word (BitVec.ofNat 3 k) with
    | some w => bits w 28 4 == 5 && decide ((bits w 22 6).toNat ≤ 3)
    | none => false)
  let feed := upd.flatMap (fun k => x.feeding 8 (BitVec.ofNat 3 k) posA)
  x.fb.present && !feed.isEmpty && feed.all (fun q => x.queues[q.toNat].discardable)

/-- Whether a cell's accumulators are discardable: all eight bank queues have DISC set. -/
def Cell.mxDiscards (x : Cell) : Bool :=
  x.queues.toList.all (fun q => q.state != .unbound && q.discardable)
    && (List.range 8).any (fun k => ((x.word (BitVec.ofNat 3 k)).map (fun w => bits w 28 4 == 9)).getD false)

/-- A fretboard that resumes empty. -/
def Fretboard.resumeEmpty (f : Fretboard) : Fretboard :=
  let lost := satNat 32 ((f.entries.map (fun e => e.2.wsum.toNat)).sum)
  { f.clearLog with entries := [], loss := BitVec.ofNat 32 lost, lossSpan := none }

/-- Accumulators that resume zeroed. -/
def MatrixSt.resumeEmpty (m : MatrixSt) : MatrixSt :=
  { MatrixSt.reset with
    isInt := m.isInt, asked := m.asked, loss := if m.loss = 0xFFFFFFFF then m.loss else m.loss + 1, lossSpan := m.lossSpan }

/-- A cell's queues as they resume, and whether one resumed empty. -/
def Cell.resumeQueues (x : Cell) (c : CellId) : Vector Queue 8 × Bool :=
  let r := x.queues.mapIdx (fun i q => q.resume (cellWord c (BitVec.ofNat 3 i)))
  (r.map Prod.fst, r.toList.any Prod.snd)

/-! ### Resuming (R381) -/

/-- A cell of a region's old rectangle in its new one (DESIGN CHOICE, log entry 70). -/
def Region.shift (r : Region) (x y : BitVec 4) (c : CellId) : CellId :=
  if r.hasCell c then { c with x := c.x - r.x + x, y := c.y - r.y + y } else c

/-- A saved cell as it resumes at its new place, whether something of it resumed empty, and the invocations that cannot be rerun then
(DESIGN CHOICE, log entry 70). -/
def Cell.resumed (x : Cell) (c : CellId) (move : CellId → CellId) : Cell × Bool × List Inv :=
  let (qs, qd) := x.resumeQueues c
  let fd := x.fbDiscards
  let md := x.mxDiscards
  let y : Cell := { x with
    queues := qs.map Queue.unmute, muted := false, stopped := false, last := 7,
    fb := if fd then x.fb.resumeEmpty else x.fb, mx := if md then x.mx.resumeEmpty else x.mx,
    pin := x.pin.map (fun l => l.map (fun p => { p with src := move p.src })),
    ag := x.ag.map (fun g => { g with credits := g.credits.map (fun k => { k with src := move k.src }) }),
    mp := { x.mp with acquires := x.mp.acquires.map (fun e => { e with src := move e.src }) } }
  (y, qd || fd || md, if fd || md then (x.cur.toList.filterMap id).eraseDups else [])

/-- The queue behind an outlet port as it resumes. -/
def resumeOut (q : BitVec 7) (i : Nat) (o : Option Queue) : Option Queue × Bool := match o with
  | none => (none, false)
  | some x =>
    let (y, d) := x.resume (Config.outletQid q.toNat i)
    (some y.unmute, d)

/-- The end of a back-off of a saved sequencer, on the clock of the one that it resumes on: as many cycles are left of it
(DEDUCED, log entry 135). -/
def backoffLeft (saved here t : Word64) : Word64 := if t ≤ saved then 0 else here + (t - saved)

/-- A saved region restored in a rectangle (R381): its cells, its lead sequencer, its pins and the frames of its held stores (R315, R336); flow
starts (DEDUCED, log entry 136). -/
def State.restore (s : State) (r : Region) (img : SaveImage) (x y : BitVec 4) : State :=
  let move := r.shift x y
  let place (p : BitVec 4 × BitVec 4 × BitVec 6) : CellId := { die := r.die, y := y + p.2.1, x := x + p.1, n := p.2.2 }
  let cells := img.cells.map (fun p => (place p.1, p.2.resumed (place p.1) move))
  let q := seqOfBlock r.die (x + (r.leadX - r.x)).toNat (y + (r.leadY - r.y)).toNat
  let outs := img.seq.outPort.mapIdx (fun i o => resumeOut q i o)
  let disc := cells.any (fun p => p.2.2.1) || outs.toList.any Prod.snd
  let old := s.seq q
  let sq : Seq := { img.seq.restart with
    cycle := old.cycle, backoff := img.seq.backoff.map (backoffLeft img.seq.cycle old.cycle),
    chBack := img.seq.chBack.map (backoffLeft img.seq.cycle old.cycle), tlb := old.tlb, resumed := true, disc := img.seq.disc || disc,
    inPort := img.seq.inPort.map (fun p => p.map (fun n => (move n.1, n.2))), outPort := outs.map Prod.fst,
    acq := img.seq.acq.map (fun e => { e with src := move e.src }) }
  let s1 : State := { s with cells := s.cells ++ cells.map (fun p => (p.1, p.2.1)) }
  let s2 := s1.setSeq q sq
  let r1 : Region := { r with
    kstate := .active, x := x, y := y, lead := q, leadX := x + (r.leadX - r.x), leadY := y + (r.leadY - r.y), image := none,
    slack := r.launch.slack, run := 0, wdog := 0, statRoot := r.statRoot.map move,
    norerun := (cells.flatMap (fun p => p.2.2.2) ++ r.norerun).eraseDups }
  let s3 := s2.setRegion r1
  ((((s3.latchRegion r1).retuneStores r1).checkUnmuted r1).startRetune r.serial).tryRetire r.serial

end Sys2Proof.Machine
end

