-- ==== Sys2Proof/Machine/Scheduler.lean ====
section
/-!
DEFINITION. The scheduler's decisions: the candidate table, the fallback, the reserved row and the commit (R411 to R421).
-/

namespace Sys2Proof.Machine

/-! ### Rows (R416) -/

/-- A list put in order by insertion; equal entries keep theirs. -/
def insertBy {α : Type} (before : α → α → Bool) (x : α) : List α → List α
  | [] => [x]
  | y :: ys => if before x y then x :: y :: ys else y :: insertBy before x ys

def sortBy {α : Type} (before : α → α → Bool) (l : List α) : List α := l.reverse.foldl (fun acc x => insertBy (fun a b => !before b a) x acc) []

/-- A count of a budget as a field; 0x7FFF_FFFF for an unlimited quota. -/
def budgetField (quota : Word32) (v : Int) : Word32 :=
  if quota = 0xFFFFFFFF then 0x7FFFFFFF else BitVec.ofInt 32 (clampInt 32 v).1

/-- The fields `flbud` and `fibud` of a context on a die. -/
def State.budgetFields (s : State) (d : BitVec 3) (ctx : BitVec 9) : Word32 × Word32 :=
  match (s.die d).budgets.find? (fun b => b.ctx = ctx) with
  | some b => (budgetField b.qfl b.fl, budgetField b.qfi b.fi)
  | none => (0, 0)

/-- The flags of a row. -/
def rowFlags (fits yielded cmode saveOk aged : Bool) : Word32 :=
  (0 : BitVec 27) ++ BitVec.ofBool aged ++ BitVec.ofBool saveOk ++ BitVec.ofBool cmode ++ BitVec.ofBool yielded ++ BitVec.ofBool fits

/-- A row's fields; `index` is set when the table is complete. -/
def State.rowOf (s : State) (d : BitVec 3) (kind : Nat) (l : Launch) (age : Nat) (fits yielded : Bool) (run action fcode : Nat) :
    Vector Word32 16 :=
  let b := s.budgetFields d l.ctx
  let w (n : Nat) : Word32 := BitVec.ofNat 32 n
  #v[0, w kind, l.ctx.setWidth 32, l.prio.setWidth 32, w (min age 0xFFFF), w (l.width * l.height), w l.width, w l.height,
    l.slack.setWidth 32, b.1, b.2, rowFlags fits yielded l.cmode (s.ctx l.ctx).saveBase.isSome (decide (1024 ≤ age)),
    w (satNat 32 run), w action, w fcode, l.tag]

def Row.kind (r : Row) : Nat := r.vals[1].toNat
def Row.ctxOf (r : Row) : Nat := r.vals[2].toNat
def Row.prio (r : Row) : Nat := r.vals[3].toNat
def Row.age (r : Row) : Nat := r.vals[4].toNat
def Row.fits (r : Row) : Bool := r.vals[11].getLsbD 0
def Row.saveOk (r : Row) : Bool := r.vals[11].getLsbD 3
def Row.aged (r : Row) : Bool := r.vals[11].getLsbD 4
def Row.run (r : Row) : Nat := r.vals[12].toNat

/-- A table of at most 32 rows with their numbers. -/
def numberRows (rs : List Row) : List Row := (rs.take 32).mapIdx (fun i r => { r with vals := r.vals.set 0 (BitVec.ofNat 32 i) })

/-- The launch queue of a context on a die (R411). -/
def Die.launchQueue (x : Die) (ctx : BitVec 9) : List Launch := (aget x.launchq ctx).getD []

/-- The saved regions of a partition of a die. -/
def State.savedOf (s : State) (d : BitVec 3) (p : Partition) : List Region :=
  s.regions.filter (fun r => r.die == d && r.kstate == .saved && r.launch.part == p.num && decide (r.launch.ctx ∈ p.ctxs))

/-- The candidates of a dispatch decision in the order of the table (R414, R416). -/
def State.candidates (s : State) (d : BitVec 3) (p : Partition) (free : BitVec 256) : List Row :=
  let heads := (p.ctxs.filter s.ctxLive).filterMap (fun n => match ((s.die d).launchQueue n).head? with
    | some l => if l.part = p.num then
        some (Row.mk (s.rowOf d 0 l l.age (s.findRect d free l true).isSome false 0 0 0) (.launch n))
      else none
    | none => none)
  let saved := (s.savedOf d p).map (fun r =>
    Row.mk (s.rowOf d 1 r.launch r.age (s.findSaved free r).isSome false 0 0 0) (.saved r.serial))
  let before (a b : Row) : Bool :=
    if a.kind ≠ b.kind then decide (b.kind < a.kind) else if a.age ≠ b.age then decide (b.age < a.age) else decide (a.ctxOf < b.ctxOf)
  sortBy before (saved ++ heads)

/-- The running regions of a partition of a die. -/
def State.runningOf (s : State) (d : BitVec 3) (p : Partition) : List Region :=
  s.regions.filter (fun r => r.die == d && r.launch.part == p.num && (r.kstate == .active || r.kstate == .resident) && !r.freezing
    && r.cut == .none)

/-- The rows of a pre-empt decision. -/
def State.preemptRows (s : State) (d : BitVec 3) (p : Partition) : List Row :=
  let block (r : Region) : Nat := 16 * r.y.toNat + r.x.toNat
  let rs := sortBy (fun a b => decide (block a < block b)) (s.runningOf d p)
  let rows := rs.map (fun r => Row.mk (s.rowOf d 2 r.launch 0 false r.yielded r.run 0 0) (.running r.serial))
  numberRows (sortBy (fun a b => if a.run ≠ b.run then decide (b.run < a.run) else decide (a.ctxOf < b.ctxOf)) rows)

/-- The rows of a fault decision: one for each action that the region allows (R393, R397) (DEDUCED, log entry 79). -/
def State.faultRows (s : State) (d : BitVec 3) (r : Region) : List Row :=
  numberRows ((s.allowed r).map (fun a =>
    Row.mk (s.rowOf d 3 r.launch 0 false false 0 a ((r.summary.getD 0).toNat % 64)) (.action r.serial a)))

/-! ### The fallback (R420, R421) -/

/-- The row that ranks first: highest `prio`, then greatest `age`, then lowest number. -/
def bestRow (rs : List Row) (p : Row → Bool) : Option Nat :=
  (rs.zipIdx.filter (fun x => p x.1)).foldl (fun best x => match best with
    | none => some x.2
    | some i => match rs[i]? with
      | none => some x.2
      | some y => if y.prio < x.1.prio ∨ (y.prio = x.1.prio ∧ y.age < x.1.age) then some x.2 else best) none

/-- What the fallback decides (R420). -/
def fallback (dkind : Nat) (rows : List Row) : Option Nat := if dkind = 0 then bestRow rows Row.fits else none

/-- The running region that a reserved row pre-empts (R421): with SAVEOK and the greatest `run`, of other contexts first. -/
def victim (rows : List Row) (ctx : Nat) : Option Nat :=
  let pick (p : Row → Bool) : Option Nat :=
    (rows.zipIdx.filter (fun x => x.1.saveOk && p x.1)).foldl (fun best x => match best with
      | none => some x.2
      | some i => match rows[i]? with
        | none => some x.2
        | some y => if y.run < x.1.run then some x.2 else best) none
  (pick (fun r => r.ctxOf != ctx)).orElse (fun _ => pick (fun _ => true))

/-! ### The start of a decision (R414, R416, R417, R422) -/

/-- The frozen regions that wait for a fault decision. -/
def State.faultsOf (s : State) (p : Partition) : List Nat :=
  p.pendF.filter (fun n => ((s.region n).map (fun r => r.kstate == .frozen)).getD false)

/-- The partition that is served next: round-robin, starting after the one served last. -/
def State.nextPart (s : State) (d : BitVec 3) : Option Partition :=
  let x := s.die d
  (List.range 16).findSome? (fun i =>
    (x.parts.find? (fun p => p.num = x.rr + 1 + BitVec.ofNat 4 i)).bind (fun p =>
      if p.pendD || p.pendP || !(s.faultsOf p).isEmpty then some p else none))

/-- A partition changed. -/
def State.modPart (s : State) (d : BitVec 3) (n : BitVec 4) (f : Partition → Partition) : State :=
  s.modDie d (fun x => { x with parts := x.parts.map (fun p => if p.num = n then f p else p) })

/-- A decision begun for a partition: the shadow program becomes the running one, and one snapshot is taken. -/
def State.beginDecision (s : State) (d : BitVec 3) (p : Partition) : State :=
  let faults := s.faultsOf p
  let dkind := if !faults.isEmpty then 2 else if p.pendD then 0 else 1
  let policy := p.shadow.orElse (fun _ => p.policy)
  let free := s.freeBlocks d p
  let all := s.candidates d p free
  let drows := numberRows all
  let rows := match dkind, faults with
    | 2, n :: _ => ((s.region n).map (s.faultRows d)).getD []
    | 0, _ => drows
    | _, _ => s.preemptRows d p
  let need := if dkind = 1 then (bestRow all (fun r => !r.fits)).bind (fun i => all[i]?) else none
  let aged := bestRow drows Row.aged
  let reserved := match dkind with
    | 0 => aged
    | 1 => (aged.bind (fun i => drows[i]?)).bind (fun r => if r.fits then none else some r.ctxOf)
    | _ => none
  let w (n : Nat) : Word32 := BitVec.ofNat 32 n
  let x : Decision :=
    { part := p.num, dkind := dkind, free := free, rows := rows,
      pstate := #v[w dkind, w rows.length, w (maskCount free), w (maskCount p.mask), w (s.runningOf d p).length,
        ((need.map (fun r => r.vals[5])).getD 0), ((need.map (fun r => r.vals[3])).getD 0), p.dnum, p.fbcount, w p.num.toNat,
        w d.toNat],
      prog := policy.getD [], b := Vector.replicate 8 0, t := false, cur := none, sel := none, score := 0, veto := [], steps := 0,
      pc := 0, ended := if policy.isSome then none else some (fallback dkind rows), reserved := reserved }
  let s1 := s.modPart d p.num (fun y => { y with
    policy := policy, shadow := none, pendF := if dkind = 2 then faults.tail else faults,
    pendD := if dkind = 0 then false else y.pendD, pendP := if dkind = 1 then false else y.pendP })
  let s2 : State := { s1 with
    regions := s1.regions.map (fun r => if r.die = d ∧ r.launch.part = p.num then { r with yielded := false } else r) }
  s2.modDie d (fun y => { y with rr := p.num, dec := some x })

/-! ### The commit (R412, R415, R421) -/

/-- A region for a launch in a rectangle (R266, R412): it is LOADING, with the watchdog and request limits of R401 and R402. -/
def Region.forLaunch (serial : Nat) (d : BitVec 3) (c : Rect) (l : Launch) (leadX leadY : Nat) : Region :=
  { serial := serial, die := d, x := BitVec.ofNat 4 c.x, y := BitVec.ofNat 4 c.y, w := c.w, h := l.height,
    lead := seqOfBlock d leadX leadY, leadX := BitVec.ofNat 4 leadX, leadY := BitVec.ofNat 4 leadY, launch := l, kstate := .loading,
    map := [], cfg := CfgStatus.reset, fetches := [], named := [], tried := [], lostLoad := false, reprobe := false, sections := [], groups := [], statRoot := none, toks := [],
    rootToks := [], stats := [], slack := l.slack, late := 0, lateEn := false, wdog := 0, wdogLog := 20, remLog := 26,
    freezing := false, summary := none, fclass := 0, delivered := false, retunes := [], run := 0, yielded := false, cut := .none,
    image := none, age := 0, safe := false, faultAt := 0, discards := [], norerun := [] }

/-- The head of a context's launch queue dispatched (R411, R412), where it still fits (DEDUCED, log entry 68). -/
def State.commitLaunch (s : State) (d : BitVec 3) (x : Decision) (n : BitVec 9) : State :=
  match (s.die d).launchQueue n with
  | [] => s
  | l :: rest =>
    if l.part ≠ x.part ∨ s.ctxLive n = false then s
    else match s.findRect d x.free l true with
      | none => s
      | some c =>
        let b := s.leadIn d c l
        let (serial, s1) := s.freshNat
        let r := Region.forLaunch serial d c l (c.x + b.1.toNat) (c.y + b.2.toNat)
        let next := match rest with
          | [] => []
          | h :: t => { h with age := 0 } :: t
        let s2 : State := { s1 with regions := s1.regions ++ [r] }
        let s3 := s2.modDie d (fun y => { y with
          launchq := if next.isEmpty then adel y.launchq n else aset y.launchq n next })
        (s3.putDesc d l.desc 0 1 5).moveCtx d n (fun k => { k with
          state := if k.state = .loaded ∨ k.state = .saved then .running else k.state })

/-- A saved region resumed by a decision from its context's save area (R381, R412): where its image does not open there, nothing happens
(DEDUCED, log entry 68). -/
def State.commitResume (s : State) (d : BitVec 3) (x : Decision) (serial : Nat) : State :=
  match s.region serial with
  | none => s
  | some r => match r.image with
    | none => s
    | some img =>
      let st := (s.ctx r.launch.ctx).state
      if r.kstate ≠ .saved ∨ s.areaUp r img.base = false ∨ s.sealOf r ≠ .sound ∨ (s.ctx r.launch.ctx).saveBase ≠ some img.base then s
      else match s.findSaved x.free r with
        | none => s
        | some c =>
          let s1 := if st = .saved then s.moveCtx d r.launch.ctx (fun k => { k with state := .resuming }) else s
          let s2 := s1.restore r img (BitVec.ofNat 4 c.x) (BitVec.ofNat 4 c.y)
          s2.moveCtx d r.launch.ctx (fun k => if k.state = .resuming then { k with state := .running } else k)

/-- Whether a selected running region is pre-empted, or has begun to be (R385, R415). -/
def State.cuttable (s : State) (i : Option Row) : Bool := match i.map Row.ref with
  | some (.running n) => ((s.region n).map (fun r => r.cut != .none || (s.mayCut r && (s.ctx r.launch.ctx).state == .running))).getD false
  | _ => false

/-- The selection that commits: R421 puts the reserved row in the place of another, and a victim in the place of none; a selection that is not
valid any more is none (R415). -/
def State.selection (s : State) (x : Decision) (r : Option Nat) : Option Nat := match x.dkind, x.reserved with
  | 0, some i => if ((x.rows[i]?).map Row.fits).getD false then some i else none
  | 1, some ctx => if s.cuttable (r.bind (fun i => x.rows[i]?)) then r else victim x.rows ctx
  | _, _ => r

/-- A selected row acted on; one that is no longer valid is NONE (R415). -/
def State.commitRow (s : State) (d : BitVec 3) (x : Decision) (row : Row) : State := match row.ref with
  | .launch n => if row.fits then s.commitLaunch d x n else s
  | .saved n => if row.fits then s.commitResume d x n else s
  | .running n => match s.region n with
    | none => s
    | some r => if s.mayCut r && (s.ctx r.launch.ctx).state == .running then s.cutByDecision r else s
  | .action n a => match s.region n with
    | none => s
    | some r => if r.kstate = .frozen ∧ a ∈ s.allowed r then s.recover r a else s
  | .gone => s

/-- The age of every candidate of a partition one more: its dispatch decision is complete (R416). -/
def State.ageRows (s : State) (d : BitVec 3) (p : BitVec 4) : State :=
  let up (n : Nat) : Nat := min (n + 1) 0xFFFF
  let s1 := s.modDie d (fun x => { x with
    launchq := x.launchq.map (fun q => (q.1, match q.2 with
      | [] => []
      | l :: rest => (if l.part = p then { l with age := up l.age } else l) :: rest)) })
  { s1 with regions := s1.regions.map (fun r => if r.die = d ∧ r.launch.part = p ∧ r.kstate = .saved then { r with age := up r.age } else r) }

/-- The blocks of a decision's snapshot that are free still: a RESUME command may have taken some (R412). -/
def State.stillFree (s : State) (d : BitVec 3) (x : Decision) : BitVec 256 := match (s.die d).parts.find? (fun p => p.num = x.part) with
  | none => 0
  | some p => x.free &&& s.freeBlocks d p

/-- A decision committed. -/
def State.commitDecision (s : State) (d : BitVec 3) (x0 : Decision) (r : Option Nat) : State :=
  let x := { x0 with free := s.stillFree d x0 }
  let s1 := (s.modDie d (fun y => { y with dec := none })).modPart d x.part (fun p => { p with dnum := p.dnum + 1 })
  let s2 := if x.dkind = 0 then s1.ageRows d x.part else s1
  match (s.selection x r).bind (fun i => x.rows[i]?) with
  | none => s2
  | some row => s2.commitRow d x row

/-- `SCHEDULER_DECISION` (R414): the next pending decision begins, or the one in progress commits once it has ended. -/
def execSchedulerDecision (d : BitVec 3) (s : State) : Result :=
  let x := s.die d
  if !x.ready.getLsbD 215 then .next s
  else match x.dec with
    | some y => match y.ended with
      | none => .next s
      | some r => .next (s.commitDecision d y r)
    | none => match s.nextPart d with
      | none => .next s
      | some p => .next (s.beginDecision d p)

/-- `POLICY_STEP_OVERRUN` (R419): a program that would execute a 257th word is abandoned for the fallback. -/
def execPolicyStepOverrun (d : BitVec 3) (s : State) : Result :=
  match (s.die d).dec with
  | none => .next s
  | some x =>
    if x.ended.isSome ∨ x.steps < 256 then .next s
    else
      let s1 := s.modPart d x.part (fun p => { p with fbcount := if p.fbcount = 0xFFFFFFFF then p.fbcount else p.fbcount + 1 })
      .next (s1.modDie d (fun y => { y with dec := some { x with ended := some (fallback x.dkind x.rows) } }))

/-- `SCHEDULER_PERIOD` (R414, R416): a period boundary: a pre-empt decision becomes pending where some dispatch candidate lacks FITS,
and `run` of every running region grows. -/
def execSchedulerPeriod (d : BitVec 3) (s : State) : Result :=
  let lacks (p : Partition) : Bool := (s.candidates d p (s.freeBlocks d p)).any (fun r => !r.fits)
  let s1 := s.modDie d (fun x => { x with parts := x.parts.map (fun p => if lacks p then { p with pendP := true } else p) })
  let runs (r : Region) : Bool := r.die == d && (r.kstate == .active || r.kstate == .resident)
  .next { s1 with regions := s1.regions.map (fun r => if runs r then { r with run := satNat 32 (r.run + 1) } else r) }

/-- `BUDGET_PERIOD` (R372): the quotas that a SETBUDGET gave take hold, and the counts are refilled; the scrubbing quota counts anew
(DEDUCED, log entries 83, 107). -/
def execBudgetPeriod (d : BitVec 3) (s : State) : Result :=
  let refill (b : Budget) : Budget :=
    let q := b.next.getD (b.qfl, b.qfi)
    { b with
      qfl := q.1, qfi := q.2, next := none, fl := min (b.fl + q.1.toNat) q.1.toNat, fi := min (b.fi + q.2.toNat) q.2.toNat }
  .next (s.modDie d (fun x => { x with budgets := x.budgets.map refill, scrubbed := 0 }))

end Sys2Proof.Machine
end

