-- ==== Sys2Proof/Machine/Context.lean ====
section
/-!
DEFINITION. The launch engine and the scheduler's engine: launch descriptors, context commands and partition descriptors (R363 to R366,
R372, R380, R381, R409 to R413, R422).
-/

namespace Sys2Proof.Machine

/-! ### Launches (R409 to R411) -/

/-- Whether the reserved fields of a launch descriptor are zero and its addresses aligned (R410). -/
def launchDescOk (dw : Nat → Word64) : Bool :=
  bits (dw 0) 29 3 == 0 && bits (dw 0) 44 20 == 0 && bits (dw 5) 32 32 == 0 && dw 7 == 0
    && (dw 1).toNat % 64 == 0 && (dw 2).toNat % 64 == 0 && (dw 4).toNat % 64 == 0

/-- The launch of a descriptor and of the header of its image. -/
def launchOf (desc : DescAddr) (dw : Nat → Word64) (h : ImageHead) : Launch :=
  { desc := desc, ctx := bits (dw 0) 8 9, part := bits (dw 0) 20 4, prio := bits (dw 0) 24 4, cmode := (dw 0).getLsbD 28,
    slack := bits (dw 0) 32 12, image := dw 1, args := dw 2, chans := dw 3, stat := dw 4, tag := bits (dw 5) 0 32, width := h.w,
    height := h.h, reloc := h.reloc, leadLx := h.leadX, leadLy := h.leadY, age := 0 }

/-- The launch that a descriptor asks for, or none where R410 refuses it as invalid (DESIGN CHOICE, log entry 72). -/
def State.launchAsked (s : State) (q : QDesc) (dw : Nat → Word64) : Option Launch :=
  let ctx : BitVec 9 := bits (dw 0) 8 9
  let die : BitVec 3 := bits (dw 0) 17 3
  let own : Bool := match q.desc with
    | .virt n _ => n == ctx
    | .phys _ => true
  let st := (s.ctx ctx).state
  if !launchDescOk dw || !own || !(st == .loaded || st == .running) || (q.sel.getD die) != die then none
  else match (s.die die).parts.find? (fun p => p.num = bits (dw 0) 20 4) with
    | none => none
    | some p =>
      if ctx ∉ p.ctxs then none
      else match s.engineRead die ctx 64 (dw 1) with
        | .error _ => none
        | .ok hb =>
          let l := launchOf q.desc dw (imageHeadOf hb)
          if dwAt hb 0 % 2 ^ 32 = 0x4B52494D ∧ (s.findRect die p.mask l false).isSome then some l else none

/-- `LAUNCH_DESCRIPTOR` (R410, R411): the launch joins the queue of its context on its die, or is refused (DEDUCED, log entry 84). -/
def execLaunchDescriptor (d : BitVec 3) (s : State) : Result :=
  s.serve d 0 0 (fun dw => descOp dw == 0 && s.rangeUp (bits (dw 0) 17 3) (bits (dw 0) 8 9) (dw 1).toNat 64) (fun q dw s =>
    let die : BitVec 3 := bits (dw 0) 17 3
    let answer (v : Nat) (s : State) : State := (s.putDesc d q.desc 48 8 0).complete d q 0 1 v
    if !(s.die die).ready.getLsbD 215 then answer 2 s
    else match s.launchAsked q dw with
      | none => answer 3 s
      | some l =>
        let old := (s.die die).launchQueue l.ctx
        if 16 ≤ old.length then answer 2 s
        else
          let s1 := answer 1 s
          (s1.modDie die (fun x => { x with launchq := aset x.launchq l.ctx (old ++ [l]) })).pendDispatch die l.part)

/-! ### Context descriptors (R364, R365) -/

/-- Whether a context descriptor keeps to the table of R365. -/
def ctxDescOk (dw : Nat → Word64) : Bool :=
  let op := descOp dw
  let dies := op == 2 || op == 3 || op == 4 || op == 6
  decide (1 ≤ op ∧ op ≤ 6) && bits (dw 0) 17 7 == 0 && bits (dw 0) 42 22 == 0 && (dies || bits (dw 0) 24 8 == 0)
    && (op == 2 || bits (dw 0) 32 10 == 0) && ((dw 0).getLsbD 32 || bits (dw 0) 33 9 == 0)
    && (if op == 2 then bits (dw 1) 0 12 == 0 && bits (dw 1) 52 12 == 0 else dw 1 == 0)
    && (if op == 3 || op == 4 then (dw 2).toNat % 4096 == 0 else dw 2 == 0) && (op == 2 || op == 6 || dw 3 == 0)
    && bits (dw 4) 8 56 == 0 && dw 5 == 0 && dw 6 == 0 && dw 7 == 0

/-- The dies that a descriptor names. -/
def diesOf (dw : Nat → Word64) : BitVec 8 := bits (dw 0) 24 8

/-- The dies of a mask. -/
def namedDies (m : BitVec 8) : List (BitVec 3) := ((List.range 8).map (BitVec.ofNat 3)).filter (fun d => m.getLsbD d.toNat)

/-- A dispatch decision pending for every partition that has a context (R414). -/
def State.pendContext (s : State) (n : BitVec 9) : State :=
  (namedDies 0xFF).foldl (fun s d => s.modDie d (fun x => { x with
    parts := x.parts.map (fun p => if n ∈ p.ctxs then { p with pendD := true } else p) })) s

/-- The launch engine of a die takes a context descriptor whose OP `mine` accepts: it is refused where it breaks the table
or names a die whose launch engine is not ready (R443), and waits while another command of its context is in progress, which a TERMINATE
abandons with STATUS 5 (R364). A RESUME refused makes a dispatch decision pending (R414). -/
def State.serveCtx (s : State) (d : BitVec 3) (mine : Nat → Bool) (body : QDesc → (Nat → Word64) → BitVec 9 → State → State) : Result :=
  s.serve d 0 32 (fun dw => descOp dw != 0 && mine (descOp dw)) (fun q dw s =>
    let n : BitVec 9 := bits (dw 0) 8 9
    let c := s.ctx n
    if !ctxDescOk dw || (namedDies (diesOf dw)).any (fun x => !(s.die x).ready.getLsbD 215) then
      (if descOp dw = 4 then s.pendContext n else s).complete d q 32 1 2
    else if c.cmd.isSome then
      if descOp dw = 5 then body q dw n (s.finishCmd d n 5) else s.setCtx n { c with waiting := c.waiting ++ [(d, q)] }
    else body q dw n s)

/-- Whether a region is on a die of a mask. -/
def Region.on (r : Region) (m : BitVec 8) : Bool := m.getLsbD r.die.toNat

/-- The budget of a context on a die changed; one that is not there begins with nothing (R372) (DEDUCED, log entry 83). -/
def Die.modBudget (x : Die) (ctx : BitVec 9) (f : Budget → Budget) : Die :=
  if x.budgets.any (fun b => b.ctx == ctx) then { x with budgets := x.budgets.map (fun b => if b.ctx = ctx then f b else b) }
  else { x with budgets := x.budgets ++ [f { ctx := ctx, qfl := 0, qfi := 0, next := none, fl := 0, fi := 0 }] }

/-- `CREATE` (R367, R368): the controller makes the context's import pair and its seal key, which takes a slot of KIND 4; where none is free
it refuses (DEDUCED, log entry 112). An OP that is none of R365 is refused here (DESIGN CHOICE, log entry 48). -/
def execCreate (d : BitVec 3) (s : State) : Result :=
  s.serveCtx d (fun op => op == 1 || decide (6 < op)) (fun q _ n s =>
    match s.freeSlot with
    | none => s.complete d q 32 1 2
    | some h =>
      if (s.ctx n).state ≠ .freed then s.complete d q 32 1 2
      else
        let (k, s1) := s.freshNat
        let (m, s2) := s1.freshNat
        let s3 : State := { s2 with slots := s2.slots ++ [{ handle := h, ctx := some n, kind := 4, key := .made m, pub := [] }] }
        (s3.moveCtx d n (fun _ => { Ctx.reset with state := .created, pair := k })).complete d q 32 1 1)

/-- `CONTEXT_LOAD` (R366): page-table root, signature policy, and quotas with full budgets on the dies named. An IMGKEYH that is no KIND
3 slot of the context refuses it (R369) (DEDUCED, log entry 85). -/
def execContextLoad (d : BitVec 3) (s : State) : Result :=
  s.serveCtx d (fun op => op == 2) (fun q dw n s =>
    let c := s.ctx n
    let h : BitVec 9 := bits (dw 0) 33 9
    let req := (dw 0).getLsbD 32
    if c.state ≠ .created ∨ (req = true ∧ (s.lmsSlot n h).isNone = true) then s.complete d q 32 1 2
    else
      let fl : Word32 := bits (dw 3) 0 32
      let fi : Word32 := bits (dw 3) 32 32
      let full (b : Budget) : Budget := { b with qfl := fl, qfi := fi, next := none, fl := fl.toNat, fi := fi.toNat }
      let s1 := (namedDies (diesOf dw)).foldl (fun s x => s.modDie x (fun y => y.modBudget n full)) s
      let c1 : Ctx := { c with state := .loaded, ptroot := dw 1, reqsig := req, imgkeyh := h }
      (s1.moveCtx d n (fun _ => c1)).complete d q 32 1 1)

/-- `SETBUDGET` (R372): the quotas of the dies named change at their next period boundaries (DEDUCED, log entry 83). -/
def execSetbudget (d : BitVec 3) (s : State) : Result :=
  s.serveCtx d (fun op => op == 6) (fun q dw n s =>
    if !s.ctxLive n then s.complete d q 32 1 2
    else
      let next (b : Budget) : Budget := { b with next := some (bits (dw 3) 0 32, bits (dw 3) 32 32) }
      ((namedDies (diesOf dw)).foldl (fun s x => s.modDie x (fun y => y.modBudget n next)) s).complete d q 32 1 1)

/-! ### PREEMPT and RESUME (R373 to R381) -/

/-- The cut of a region for a PREEMPT command: one that stands at a save-area fault is tried again, and one that a decision began is the
command's now (R363, R380). -/
def State.cutByCommand (s : State) (r : Region) : State := match r.cut with
  | .none => s.beginCut r.serial true
  | _ => s.modRegion r.serial (fun r => { r with cut := .cutting true })

/-- `CONTEXT_PREEMPT` (R363, R373): every region of the context on the dies named is cut (DEDUCED, log entry 86). -/
def execContextPreempt (d : BitVec 3) (s : State) : Result :=
  s.serveCtx d (fun op => op == 3) (fun q dw n s =>
    let c := s.ctx n
    let again := c.state == .preempting && (s.regionsOf n).any (fun r => r.cut == .saveFault)
    if !(c.state == .running || again) then s.complete d q 32 1 2
    else
      let k : CtxCmd := { op := 3, desc := q.desc, dies := diesOf dw, base := dw 2, ticket := q.ticket }
      let s1 := s.moveCtx d n (fun c => { c with state := .preempting, cmd := some k })
      let mine := (s1.regionsOf n).filter (fun r => r.placed && r.on (diesOf dw))
      (mine.foldl State.cutByCommand s1).settlePreempt d n)

/-- The status with which RESUME finds a saved region's image, before its place: 1 it opens, 3 its area cannot be read, 4 it does not open
(R381). -/
def State.imageStatus (s : State) (r : Region) (base : Word64) : Nat :=
  let same := (r.image.map (fun i => i.base == base)).getD false
  if !same then
    match s.sealAt r.die r.launch.ctx base 0 1 with
    | .unreadable => 3
    | _ => 4
  else match s.sealOf r with
    | .unreadable => 3
    | .broken => 4
    | .sound => 1

/-- The saved regions of a list restored one after another, or none where one of them fits no rectangle of its partition. -/
def State.restoreAll : List Region → State → Option State
  | [], s => some s
  | r :: rs, s => match r.image, (s.die r.die).parts.find? (fun p => p.num = r.launch.part) with
    | some img, some p => match s.findSaved (s.freeBlocks r.die p) r with
      | none => none
      | some c => State.restoreAll rs (s.restore r img (BitVec.ofNat 4 c.x) (BitVec.ofNat 4 c.y))
    | _, _ => none

/-- `CONTEXT_RESUME` (R381): the saved regions on the dies named are opened, restored and released, or none of them is. While a decision is in
progress on one of those dies the command waits, for no block is allocated then (R419) (DEDUCED, log entries 62, 87). The reading of the images
may find a line whose ECC shows an error (R403) (DEDUCED, log entry 107). -/
def execContextResume (d : BitVec 3) (ecc : Option (Nat × ScrubResult)) (s0 : State) : Result :=
  s0.serveCtx d (fun op => op == 4) (fun q dw n s1 =>
    if (s1.ctx n).state ≠ .saved then (s1.pendContext n).complete d q 32 1 2
    else if (namedDies (diesOf dw)).any (fun x => (s1.die x).dec.isSome) then s0
    else
      let mine := (s1.regionsOf n).filter (fun r => r.kstate == .saved && r.on (diesOf dw))
      if mine.any (fun r => !s1.areaUp r (dw 2)) then s0 else
      let s := s1.eccFound ecc
      let codes := mine.map (fun r => s.imageStatus r (dw 2))
      let fail (v : Nat) : State := (s.pendContext n).complete d q 32 1 v
      match codes.find? (fun v => v != 1) with
      | some v => fail v
      | none =>
        let s1 := s.moveCtx d n (fun c => if mine.isEmpty then c else { c with state := .resuming })
        match State.restoreAll mine s1 with
        | none => fail 6
        | some s2 =>
          let s3 := s2.moveCtx d n (fun c =>
            { c with saveBase := some (dw 2), state := if c.state = .resuming then .running else c.state })
          (s3.pendContext n).complete d q 32 1 1)

/-! ### TERMINATE (R363, R369, R412) -/

/-- The launches of a context that are queued on a die take STATUS 8 (DEDUCED, log entry 88). -/
def State.dropLaunches (s : State) (d : BitVec 3) (n : BitVec 9) : State :=
  (((s.die d).launchQueue n).foldl (fun s l => s.launchStatus d l.desc 8 0) s).modDie d (fun x => { x with launchq := adel x.launchq n })

/-- The rows of a context in a decision stand for nothing any more; the snapshot that the program reads stays (R415, R416). -/
def Decision.forget (x : Decision) (n : BitVec 9) : Decision :=
  { x with rows := x.rows.map (fun r => if r.vals[2] = n.setWidth 32 then { r with ref := .gone } else r) }

/-- A context ended: its regions, its queued launches, its queues, connections and registrations, its budgets, and its key slots
(DEDUCED, log entries 62, 81, 88). -/
def State.terminate (s : State) (d : BitVec 3) (n : BitVec 9) : State :=
  let s1 := (s.finishCmd d n 5).moveCtx d n (fun c => { c with state := .terminating })
  let s2 := (s1.regionsOf n).foldl (fun s r => s.endRegion r 8 0) s1
  let s3 := (namedDies 0xFF).foldl (fun s x => s.dropLaunches x n) s2
  let theirs (x : Die) (m : Msg) : Bool := x.conns.any (fun c => c.ctx == n && c.num == m.conn)
  let clean (x : Die) : Die := { x with
    budgets := x.budgets.filter (fun b => b.ctx != n), conns := x.conns.filter (fun c => c.ctx != n),
    msgs := x.msgs.filter (fun m => !theirs x m), regs := x.regs.filter (fun g => g.ctx != n), dec := x.dec.map (fun y => y.forget n) }
  let s4 := (namedDies 0xFF).foldl (fun s x =>
    (((s.die x).msgs.filter (theirs (s.die x))).foldl (fun s m => s.ticketDone m.ticket) s).modDie x clean) s3
  let s5 : State := { s4 with
    cseqs := s4.cseqs.filter (fun k => k.1.1 != n), softqs := s4.softqs.filter (fun y => y.ctx != n), slots := s4.slots.filter (fun k => k.ctx != some n) }
  s5.moveCtx d n (fun _ => Ctx.reset)

/-- `TERMINATE` (R363) (DEDUCED, log entry 62). -/
def execTerminate (d : BitVec 3) (s : State) : Result :=
  s.serveCtx d (fun op => op == 5) (fun q _ n s =>
    if !s.ctxLive n then s.complete d q 32 1 2 else (s.terminate d n).complete d q 32 1 1)

/-! ### Partition descriptors (R413, R422) -/

/-- The scheduler's engine takes a partition descriptor whose OP `mine` accepts; `body` answers its STATUS and the state. One that breaks
the table, or whose selector names another die, is refused (DEDUCED, log entry 89). While the way to the memory that it names is not UP, it waits
(R352). -/
def State.servePart (s : State) (d : BitVec 3) (mine : Nat → Bool) (size : (Nat → Word64) → Nat)
    (body : (Nat → Word64) → BitVec 4 → Option Partition → State → Nat × State) : Result :=
  s.serve d 1 56 (fun dw => mine (descOp dw) && (size dw == 0 || s.physUp d (dw 1).toNat (size dw))) (fun q dw s =>
    let die : BitVec 3 := bits (dw 0) 12 3
    let n : BitVec 4 := bits (dw 0) 8 4
    let ok := decide (1 ≤ descOp dw ∧ descOp dw ≤ 4) && bits (dw 0) 15 49 == 0 && bits (dw 2) 9 7 == 0 && bits (dw 2) 17 8 == 0
      && bits (dw 2) 34 30 == 0 && dw 3 == 0 && dw 4 == 0 && dw 5 == 0 && dw 6 == 0 && bits (dw 7) 8 56 == 0
    if !ok || die != d || (q.sel.getD d) != d then s.complete d q 56 1 2
    else
      let (v, s1) := body dw n ((s.die d).parts.find? (fun p => p.num = n)) s
      s1.complete d q 56 1 v)

/-- Bytes that the resident OS hands to an engine by a physical address, or none for a read fault (R403). -/
def State.osRead (s : State) (pa n : Nat) : Option (List Byte) :=
  if physOk pa n = true ∧ (s.poisonIn pa n).isNone = true then some (s.bytesAt s.osKey pa n) else none

/-- `FORM` (R413): a partition of the blocks of a mask. An OP that is none of R413 is refused here
(DESIGN CHOICE, log entry 48; DEDUCED, log entry 89). -/
def execForm (d : BitVec 3) (s : State) : Result :=
  s.servePart d (fun op => op == 1 || op == 0 || decide (4 < op)) (fun _ => 32) (fun dw n p? s =>
    match p?, s.osRead (dw 1).toNat 32 with
    | none, some bs =>
      let mask : BitVec 256 := BitVec.ofNat 256 (bytesToNat bs)
      let x := s.die d
      if mask &&& x.fuse ≠ 0 ∨ x.parts.any (fun p => p.mask &&& mask != 0) = true then (2, s)
      else
        let p : Partition :=
          { num := n, mask := mask, ctxs := [], policy := none, shadow := none, pendD := false, pendP := false, pendF := [], dnum := 0,
            fbcount := 0 }
        (1, s.modDie d (fun x => { x with parts := x.parts ++ [p] }))
    | _, _ => (2, s))

/-- Whether a region or a queued launch of a partition of a die is one of those that `p` picks by context. -/
def State.partBusy (s : State) (d : BitVec 3) (n : BitVec 4) (p : BitVec 9 → Bool) : Bool :=
  s.regions.any (fun r => r.die == d && r.launch.part == n && p r.launch.ctx)
    || (s.die d).launchq.any (fun q => p q.1 && q.2.any (fun l => l.part == n))

/-- `DISSOLVE` (R413). -/
def execDissolve (d : BitVec 3) (s : State) : Result :=
  s.servePart d (fun op => op == 2) (fun _ => 0) (fun _ n p? s =>
    match p? with
    | none => (2, s)
    | some _ =>
      if s.partBusy d n (fun _ => true) then (4, s)
      else (1, s.modDie d (fun x => { x with parts := x.parts.filter (fun p => p.num != n) })))

/-- `ASSIGN` (R413): a context assigned to a partition, or removed from it; a dispatch decision becomes pending (R414)
(DEDUCED, log entry 90). -/
def execAssign (d : BitVec 3) (s : State) : Result :=
  s.servePart d (fun op => op == 3) (fun _ => 0) (fun dw n p? s =>
    let ctx : BitVec 9 := bits (dw 2) 0 9
    match p? with
    | none => (2, s)
    | some _ =>
      if !s.ctxLive ctx then (2, s)
      else if (dw 2).getLsbD 16 then
        if s.partBusy d n (fun c => c == ctx) then (4, s)
        else (1, s.modPart d n (fun p => { p with ctxs := p.ctxs.filter (fun c => c != ctx), pendD := true }))
      else (1, s.modPart d n (fun p => { p with ctxs := if ctx ∈ p.ctxs then p.ctxs else p.ctxs ++ [ctx], pendD := true })))

/-- `POLICY` (R422): a program checked into the partition's shadow slot. A LEN that the table of R413 does not have, 0 or 257 to 511, breaks the
table: STATUS 2, and the shadow stays as it is, where R118 would reject such a program with STATUS 3 (DEDUCED, log entry 89). -/
def execPolicy (d : BitVec 3) (s : State) : Result :=
  s.servePart d (fun op => op == 4) (fun dw => 2 * (bits (dw 2) 25 9).toNat) (fun dw n p? s =>
    let len := (bits (dw 2) 25 9).toNat
    let va := (dw 1).toNat
    if p?.isNone ∨ len = 0 ∨ 256 < len ∨ va % 2 ≠ 0 then (2, s)
    else match s.osRead va (2 * len) with
      | none => (2, s)
      | some bs =>
        let ws : List (BitVec 16) := (List.range len).map (fun i => BitVec.ofNat 16 (bytesToNat ((bs.drop (2 * i)).take 2)))
        if policyOk ws then (1, s.modPart d n (fun p => { p with shadow := some ws }))
        else (3, s.modPart d n (fun p => { p with shadow := none })))

end Sys2Proof.Machine
end

