-- ==== Sys2Proof/Machine/RvDecode.lean ====
section
/-!
DEFINITION. The decoder of a row manager's base, RV64GC (R31, R120). The spec names the base and leaves its encodings to the RISC-V
architecture: this file and Riscv.lean follow its unprivileged and machine-level parts (PRESUMED, log entry 23).
-/

namespace Sys2Proof.Machine

/-! ### The instructions, as the base architecture groups them -/

/-- The integer operations of I and M. -/
inductive RvAlu where
  | add | sub | sll | slt | sltu | xor | srl | sra | or | and | mul | mulh | mulhsu | mulhu | div | divu | rem | remu
  deriving DecidableEq, Repr

/-- The read-modify-write operations of A. -/
inductive RvAmo where
  | swap | add | xor | and | or | min | max | minu | maxu
  deriving DecidableEq, Repr

/-- The integer types of the conversions of F and D. -/
inductive RvInt where
  | w | wu | l | lu
  deriving DecidableEq, Repr

/-- The operations of F and D on registers; `fma` negates the product and the addend where its flags say so. -/
inductive RvFop where
  | fma (negProd negAdd : Bool)
  | add | sub | mul | div | sqrt
  | sgnj | sgnjn | sgnjx | min | max | eq | lt | le | cls
  | toInt (t : RvInt)
  | ofInt (t : RvInt)
  | cvt
  | toX | ofX
  deriving DecidableEq, Repr

/-- How a CSR instruction writes. -/
inductive RvCsrOp where
  | write | set | clear
  deriving DecidableEq, Repr

/-- An instruction of the base. Immediates are sign-extended; `size` counts bytes; `dbl` picks D over F. -/
inductive Rv where
  | lui (d : BitVec 5) (v : Word64)
  | auipc (d : BitVec 5) (v : Word64)
  | jal (d : BitVec 5) (off : Word64)
  | jalr (d a : BitVec 5) (off : Word64)
  | branch (cond : BitVec 3) (a b : BitVec 5) (off : Word64)
  | load (size : Nat) (signed : Bool) (d a : BitVec 5) (off : Word64)
  | store (size : Nat) (a b : BitVec 5) (off : Word64)
  | opImm (o : RvAlu) (word : Bool) (d a : BitVec 5) (v : Word64)
  | op (o : RvAlu) (word : Bool) (d a b : BitVec 5)
  | fence
  | ecall | ebreak | mret | wfi
  | csr (o : RvCsrOp) (imm : Bool) (d a : BitVec 5) (n : BitVec 12)
  | lr (size : Nat) (d a : BitVec 5)
  | sc (size : Nat) (d a b : BitVec 5)
  | amo (o : RvAmo) (size : Nat) (d a b : BitVec 5)
  | fload (dbl : Bool) (d a : BitVec 5) (off : Word64)
  | fstore (dbl : Bool) (a b : BitVec 5) (off : Word64)
  | fop (o : RvFop) (dbl : Bool) (rm : BitVec 3) (d a b c : BitVec 5)
  deriving DecidableEq, Repr

/-! ### Immediates -/

/-- The low `n` bits of a number sign-extended. -/
def sext (n v : Nat) : Word64 := BitVec.ofInt 64 (if v % 2 ^ n < 2 ^ (n - 1) then (v % 2 ^ n : Nat) else (v % 2 ^ n : Nat) - (2 ^ n : Nat))

/-- The immediates of the I, S, B, U and J formats. -/
def rvImmI (w : Nat) : Word64 := sext 12 (fld w 20 12)
def rvImmS (w : Nat) : Word64 := sext 12 (fld w 7 5 + fld w 25 7 * 2 ^ 5)
def rvImmB (w : Nat) : Word64 := sext 13 (fld w 8 4 * 2 + fld w 25 6 * 2 ^ 5 + fld w 7 1 * 2 ^ 11 + fld w 31 1 * 2 ^ 12)
def rvImmU (w : Nat) : Word64 := sext 32 (fld w 12 20 * 2 ^ 12)
def rvImmJ (w : Nat) : Word64 := sext 21 (fld w 21 10 * 2 + fld w 20 1 * 2 ^ 11 + fld w 12 8 * 2 ^ 12 + fld w 31 1 * 2 ^ 20)

/-! ### The 32-bit encodings -/

/-- The operation of an R-type or I-type ALU word, by funct3, for funct7 of 0. -/
def rvAlu0 (f : Nat) : RvAlu := match f with
  | 0 => .add
  | 1 => .sll
  | 2 => .slt
  | 3 => .sltu
  | 4 => .xor
  | 5 => .srl
  | 6 => .or
  | _ => .and

/-- The operation of M, by funct3. -/
def rvMul (f : Nat) : RvAlu := match f with
  | 0 => .mul
  | 1 => .mulh
  | 2 => .mulhsu
  | 3 => .mulhu
  | 4 => .div
  | 5 => .divu
  | 6 => .rem
  | _ => .remu

/-- A word of opcode OP or OP-32. -/
def rvOp (word : Bool) (w : Nat) : Option Rv :=
  let f := fld w 12 3
  let mk (o : RvAlu) : Option Rv := some (.op o word (fbv w 7 5) (fbv w 15 5) (fbv w 20 5))
  match fld w 25 7 with
  | 0x00 => if word ∧ f ≠ 0 ∧ f ≠ 1 ∧ f ≠ 5 then none else mk (rvAlu0 f)
  | 0x01 => if word ∧ 1 ≤ f ∧ f ≤ 3 then none else mk (rvMul f)
  | 0x20 => if f = 0 then mk .sub else if f = 5 then mk .sra else none
  | _ => none

/-- A word of opcode OP-IMM or OP-IMM-32: a shift holds its amount in 6 bits, or in 5 for the 32-bit forms. -/
def rvOpImm (word : Bool) (w : Nat) : Option Rv :=
  let f := fld w 12 3
  let mk (o : RvAlu) (v : Word64) : Option Rv := some (.opImm o word (fbv w 7 5) (fbv w 15 5) v)
  let n := if word then 5 else 6
  let amount : Word64 := BitVec.ofNat 64 (fld w 20 n)
  let top := fld w 20 12 / 2 ^ n * 2 ^ n
  match f with
  | 1 => if top = 0 then mk .sll amount else none
  | 5 => if top = 0 then mk .srl amount else if top = 0x400 then mk .sra amount else none
  | _ => if word ∧ f ≠ 0 then none else mk (rvAlu0 f) (rvImmI w)

/-- A word of opcode AMO. -/
def rvAmoOp (w : Nat) : Option Rv :=
  let mk (size : Nat) : Option Rv :=
    let d : BitVec 5 := fbv w 7 5
    let a : BitVec 5 := fbv w 15 5
    let b : BitVec 5 := fbv w 20 5
    match fld w 27 5 with
    | 0x02 => if b = 0 then some (.lr size d a) else none
    | 0x03 => some (.sc size d a b)
    | 0x01 => some (.amo .swap size d a b)
    | 0x00 => some (.amo .add size d a b)
    | 0x04 => some (.amo .xor size d a b)
    | 0x0C => some (.amo .and size d a b)
    | 0x08 => some (.amo .or size d a b)
    | 0x10 => some (.amo .min size d a b)
    | 0x14 => some (.amo .max size d a b)
    | 0x18 => some (.amo .minu size d a b)
    | 0x1C => some (.amo .maxu size d a b)
    | _ => none
  match fld w 12 3 with
  | 2 => mk 4
  | 3 => mk 8
  | _ => none

/-- A word of opcode SYSTEM. -/
def rvSystem (w : Nat) : Option Rv :=
  let mk (o : RvCsrOp) (imm : Bool) : Option Rv := some (.csr o imm (fbv w 7 5) (fbv w 15 5) (fbv w 20 12))
  match fld w 12 3 with
  | 0 => match w / 2 ^ 7 % 2 ^ 25 with
    | 0x0000000 => some .ecall
    | 0x0002000 => some .ebreak
    | 0x0604000 => some .mret
    | 0x020A000 => some .wfi
    | _ => none
  | 1 => mk .write false
  | 2 => mk .set false
  | 3 => mk .clear false
  | 5 => mk .write true
  | 6 => mk .set true
  | 7 => mk .clear true
  | _ => none

/-- The integer type of a conversion. -/
def rvIntOf (n : Nat) : Option RvInt := match n with
  | 0 => some .w
  | 1 => some .wu
  | 2 => some .l
  | 3 => some .lu
  | _ => none

/-- A word of opcode OP-FP. -/
def rvOpFp (w : Nat) : Option Rv :=
  let f := fld w 12 3
  let b := fld w 20 5
  let fmt := fld w 25 2
  if 1 < fmt then none
  else
    let mk (o : RvFop) : Option Rv := some (.fop o (fmt == 1) (fbv w 12 3) (fbv w 7 5) (fbv w 15 5) (fbv w 20 5) 0)
    match fld w 27 5 with
    | 0x00 => mk .add
    | 0x01 => mk .sub
    | 0x02 => mk .mul
    | 0x03 => mk .div
    | 0x0B => if b = 0 then mk .sqrt else none
    | 0x04 => match f with
      | 0 => mk .sgnj
      | 1 => mk .sgnjn
      | 2 => mk .sgnjx
      | _ => none
    | 0x05 => match f with
      | 0 => mk .min
      | 1 => mk .max
      | _ => none
    | 0x08 => if b + fmt = 1 then mk .cvt else none
    | 0x14 => match f with
      | 0 => mk .le
      | 1 => mk .lt
      | 2 => mk .eq
      | _ => none
    | 0x18 => (rvIntOf b).bind (fun t => mk (.toInt t))
    | 0x1A => (rvIntOf b).bind (fun t => mk (.ofInt t))
    | 0x1C => if b ≠ 0 then none else if f = 0 then mk .toX else if f = 1 then mk .cls else none
    | 0x1E => if b = 0 ∧ f = 0 then mk .ofX else none
    | _ => none

/-- A fused multiply-add word. -/
def rvFma (negProd negAdd : Bool) (w : Nat) : Option Rv :=
  if 1 < fld w 25 2 then none
  else some (.fop (.fma negProd negAdd) (fld w 25 2 == 1) (fbv w 12 3) (fbv w 7 5) (fbv w 15 5) (fbv w 20 5) (fbv w 27 5))

/-- A 32-bit word of the base; none where it is illegal. -/
def rvDecode32 (w : Nat) : Option Rv :=
  let d : BitVec 5 := fbv w 7 5
  let a : BitVec 5 := fbv w 15 5
  let b : BitVec 5 := fbv w 20 5
  let f := fld w 12 3
  match fld w 0 7 with
  | 0x37 => some (.lui d (rvImmU w))
  | 0x17 => some (.auipc d (rvImmU w))
  | 0x6F => some (.jal d (rvImmJ w))
  | 0x67 => if f = 0 then some (.jalr d a (rvImmI w)) else none
  | 0x63 => if f = 2 ∨ f = 3 then none else some (.branch (fbv w 12 3) a b (rvImmB w))
  | 0x03 => if f = 7 then none else some (.load (2 ^ (f % 4)) (decide (f < 4)) d a (rvImmI w))
  | 0x23 => if 3 < f then none else some (.store (2 ^ f) a b (rvImmS w))
  | 0x13 => rvOpImm false w
  | 0x1B => rvOpImm true w
  | 0x33 => rvOp false w
  | 0x3B => rvOp true w
  | 0x0F => if f ≤ 1 then some .fence else none
  | 0x73 => rvSystem w
  | 0x2F => rvAmoOp w
  | 0x07 => if f = 2 ∨ f = 3 then some (.fload (f == 3) d a (rvImmI w)) else none
  | 0x27 => if f = 2 ∨ f = 3 then some (.fstore (f == 3) a b (rvImmS w)) else none
  | 0x43 => rvFma false false w
  | 0x47 => rvFma false true w
  | 0x4B => rvFma true false w
  | 0x4F => rvFma true true w
  | 0x53 => rvOpFp w
  | _ => none

/-! ### The 16-bit encodings (C) -/

/-- A register field of three bits: x8 to x15, or f8 to f15. -/
def rvc (w lo : Nat) : BitVec 5 := BitVec.ofNat 5 (8 + fld w lo 3)

/-- The signed 6-bit immediate of quadrant 1. -/
def rvcImm (w : Nat) : Nat := fld w 2 5 + fld w 12 1 * 2 ^ 5

/-- The offset of a word or a double-word access in quadrant 0. -/
def rvcOffW (w : Nat) : Word64 := BitVec.ofNat 64 (fld w 10 3 * 2 ^ 3 + fld w 6 1 * 2 ^ 2 + fld w 5 1 * 2 ^ 6)
def rvcOffD (w : Nat) : Word64 := BitVec.ofNat 64 (fld w 10 3 * 2 ^ 3 + fld w 5 2 * 2 ^ 6)

/-- The offset of a load or a store by the stack pointer in quadrant 2. -/
def rvcLoadW (w : Nat) : Word64 := BitVec.ofNat 64 (fld w 12 1 * 2 ^ 5 + fld w 4 3 * 2 ^ 2 + fld w 2 2 * 2 ^ 6)
def rvcLoadD (w : Nat) : Word64 := BitVec.ofNat 64 (fld w 12 1 * 2 ^ 5 + fld w 5 2 * 2 ^ 3 + fld w 2 3 * 2 ^ 6)
def rvcStoreW (w : Nat) : Word64 := BitVec.ofNat 64 (fld w 9 4 * 2 ^ 2 + fld w 7 2 * 2 ^ 6)
def rvcStoreD (w : Nat) : Word64 := BitVec.ofNat 64 (fld w 10 3 * 2 ^ 3 + fld w 7 3 * 2 ^ 6)

/-- The offset of C.J, and of C.BEQZ and C.BNEZ. -/
def rvcJump (w : Nat) : Word64 :=
  sext 12 (fld w 3 3 * 2 + fld w 11 1 * 2 ^ 4 + fld w 2 1 * 2 ^ 5 + fld w 7 1 * 2 ^ 6 + fld w 6 1 * 2 ^ 7 + fld w 9 2 * 2 ^ 8
    + fld w 8 1 * 2 ^ 10 + fld w 12 1 * 2 ^ 11)
def rvcBranch (w : Nat) : Word64 :=
  sext 9 (fld w 3 2 * 2 + fld w 10 2 * 2 ^ 3 + fld w 2 1 * 2 ^ 5 + fld w 5 2 * 2 ^ 6 + fld w 12 1 * 2 ^ 8)

/-- Quadrant 0. -/
def rvc0 (w : Nat) : Option Rv :=
  let a := rvc w 7
  let d := rvc w 2
  match fld w 13 3 with
  | 0 =>
    let v := fld w 6 1 * 2 ^ 2 + fld w 5 1 * 2 ^ 3 + fld w 11 2 * 2 ^ 4 + fld w 7 4 * 2 ^ 6
    if v = 0 then none else some (.opImm .add false d 2 (BitVec.ofNat 64 v))
  | 1 => some (.fload true d a (rvcOffD w))
  | 2 => some (.load 4 true d a (rvcOffW w))
  | 3 => some (.load 8 true d a (rvcOffD w))
  | 5 => some (.fstore true a d (rvcOffD w))
  | 6 => some (.store 4 a d (rvcOffW w))
  | 7 => some (.store 8 a d (rvcOffD w))
  | _ => none

/-- Quadrant 1. -/
def rvc1 (w : Nat) : Option Rv :=
  let d : BitVec 5 := fbv w 7 5
  let x := rvc w 7
  let v := sext 6 (rvcImm w)
  match fld w 13 3 with
  | 0 => some (.opImm .add false d d v)
  | 1 => if d = 0 then none else some (.opImm .add true d d v)
  | 2 => some (.opImm .add false d 0 v)
  | 3 =>
    if d = 2 then
      let n := fld w 6 1 * 2 ^ 4 + fld w 2 1 * 2 ^ 5 + fld w 5 1 * 2 ^ 6 + fld w 3 2 * 2 ^ 7 + fld w 12 1 * 2 ^ 9
      if n = 0 then none else some (.opImm .add false 2 2 (sext 10 n))
    else if rvcImm w = 0 then none else some (.lui d (sext 18 (rvcImm w * 2 ^ 12)))
  | 4 => match fld w 10 2 with
    | 0 => some (.opImm .srl false x x (BitVec.ofNat 64 (rvcImm w)))
    | 1 => some (.opImm .sra false x x (BitVec.ofNat 64 (rvcImm w)))
    | 2 => some (.opImm .and false x x v)
    | _ =>
      let y := rvc w 2
      match fld w 12 1, fld w 5 2 with
      | 0, 0 => some (.op .sub false x x y)
      | 0, 1 => some (.op .xor false x x y)
      | 0, 2 => some (.op .or false x x y)
      | 0, _ => some (.op .and false x x y)
      | _, 0 => some (.op .sub true x x y)
      | _, 1 => some (.op .add true x x y)
      | _, _ => none
  | 5 => some (.jal 0 (rvcJump w))
  | 6 => some (.branch 0 x 0 (rvcBranch w))
  | _ => some (.branch 1 x 0 (rvcBranch w))

/-- Quadrant 2. -/
def rvc2 (w : Nat) : Option Rv :=
  let d : BitVec 5 := fbv w 7 5
  let b : BitVec 5 := fbv w 2 5
  match fld w 13 3 with
  | 0 => some (.opImm .sll false d d (BitVec.ofNat 64 (rvcImm w)))
  | 1 => some (.fload true d 2 (rvcLoadD w))
  | 2 => if d = 0 then none else some (.load 4 true d 2 (rvcLoadW w))
  | 3 => if d = 0 then none else some (.load 8 true d 2 (rvcLoadD w))
  | 4 =>
    if fld w 12 1 = 0 then
      if b = 0 then (if d = 0 then none else some (.jalr 0 d 0)) else some (.op .add false d 0 b)
    else if b = 0 then (if d = 0 then some .ebreak else some (.jalr 1 d 0))
    else some (.op .add false d d b)
  | 5 => some (.fstore true 2 b (rvcStoreD w))
  | 6 => some (.store 4 2 b (rvcStoreW w))
  | _ => some (.store 8 2 b (rvcStoreD w))

/-- A 16-bit parcel of the base; none where it is illegal. -/
def rvDecode16 (w : Nat) : Option Rv := match w % 4 with
  | 0 => rvc0 w
  | 1 => rvc1 w
  | _ => rvc2 w

/-- The bytes of the instruction that begins with this parcel. -/
def rvLen (parcel : Nat) : Nat := if parcel % 4 = 3 then 4 else 2

/-- An instruction of the base, from its bits (PRESUMED, log entry 23). -/
def rvDecode (len w : Nat) : Option Rv := if len = 2 then rvDecode16 w else rvDecode32 w

end Sys2Proof.Machine
end

