-- ==== Sys2Proof/Machine/Riscv.lean ====
section
/-!
DEFINITION. What a row manager's base instructions do (R31, R120): the integer, atomic, floating-point and CSR instructions of RV64GC and
its machine-level traps, as the RISC-V architecture gives them (PRESUMED, log entry 23). Where the spec says how a row manager meets the
rest of the module (the OS key, poison, order), it is followed.
-/

namespace Sys2Proof.Machine

/-! ### Integer operations -/

/-- An integer operation at the width of its operands. Shifts take the low bits of the second; a division by zero gives all ones or the
dividend, and the most negative number over −1 itself and 0. -/
def RvAlu.eval {w : Nat} (o : RvAlu) (x y : BitVec w) : BitVec w :=
  let sh := y.toNat % w
  match o with
  | .add => x + y
  | .sub => x - y
  | .sll => x <<< sh
  | .slt => if x.slt y then 1 else 0
  | .sltu => if x < y then 1 else 0
  | .xor => x ^^^ y
  | .srl => x >>> sh
  | .sra => x.sshiftRight sh
  | .or => x ||| y
  | .and => x &&& y
  | .mul => x * y
  | .mulh => BitVec.ofInt w (x.toInt * y.toInt / 2 ^ w)
  | .mulhsu => BitVec.ofInt w (x.toInt * y.toNat / 2 ^ w)
  | .mulhu => BitVec.ofNat w (x.toNat * y.toNat / 2 ^ w)
  | .div => if y = 0 then BitVec.allOnes w else BitVec.ofInt w (x.toInt.tdiv y.toInt)
  | .divu => if y = 0 then BitVec.allOnes w else BitVec.ofNat w (x.toNat / y.toNat)
  | .rem => if y = 0 then x else BitVec.ofInt w (x.toInt.tmod y.toInt)
  | .remu => if y = 0 then x else BitVec.ofNat w (x.toNat % y.toNat)

/-- An operation on double-words, or on words with the result sign-extended. -/
def RvAlu.run (o : RvAlu) (word : Bool) (x y : Word64) : Word64 :=
  if word then (o.eval (x.setWidth 32) (y.setWidth 32)).signExtend 64 else o.eval x y

/-- Whether a branch is taken. -/
def rvTaken (cond : BitVec 3) (x y : Word64) : Bool := match cond.toNat with
  | 0 => x == y
  | 1 => x != y
  | 4 => x.slt y
  | 5 => !x.slt y
  | 6 => decide (x < y)
  | _ => !decide (x < y)

/-- What an atomic writes, from the value in memory and the operand. -/
def RvAmo.eval {w : Nat} (o : RvAmo) (m x : BitVec w) : BitVec w := match o with
  | .swap => x
  | .add => m + x
  | .xor => m ^^^ x
  | .and => m &&& x
  | .or => m ||| x
  | .min => if m.slt x then m else x
  | .max => if m.slt x then x else m
  | .minu => if m < x then m else x
  | .maxu => if m < x then x else m

/-! ### Floating point -/

/-- Binary64. -/
def f64 : FloatFmt := ⟨11, 52, 1023, true⟩

/-- The exception flags, as fflags holds them. -/
def rvNV : BitVec 5 := 16
def rvDZ : BitVec 5 := 8
def rvOF : BitVec 5 := 4
def rvUF : BitVec 5 := 2
def rvNX : BitVec 5 := 1

/-- A flag where a condition holds. -/
def rvIf (b : Bool) (f : BitVec 5) : BitVec 5 := if b then f else 0

/-- Whether a code is a signalling NaN. -/
def isSnan (f : FloatFmt) (c : Nat) : Bool := (f.read c).isNan && c / 2 ^ (f.fbits - 1) % 2 == 0

/-- An exact value `n / d × 2^e`, `d` positive, rounded into a format with its flags. Tininess is found after rounding. -/
def rvRound (f : FloatFmt) (mode : RoundMode) (neg : Bool) (n d : Nat) (e : Int) : Nat × BitVec 5 :=
  let r := f.round mode neg n d e
  if r.tooBig then (if overflowsToInf mode neg then f.infCode neg else f.maxCode neg, rvOF ||| rvNX)
  else
    let exact : Bool := match f.read r.code with
      | .fin _ m q => let (a, b) := ratio n d (e - q); a == m * b
      | _ => false
    let wide : FloatFmt := ⟨20, f.fbits, 2 ^ 19 - 1, true⟩
    let tiny := (wide.read (wide.round mode neg n d e).code).abs.lt (.fin false 1 (1 - (f.bias : Int)))
    (r.code, if exact then 0 else rvNX ||| rvIf tiny rvUF)

/-- A result rounded: a NaN is the canonical one. `nv` says that the operation is invalid. -/
def rvPut (f : FloatFmt) (mode : RoundMode) (nv : Bool) : FVal → Nat × BitVec 5
  | .nan => (f.nanCode, rvIf nv rvNV)
  | .inf s => (f.infCode s, rvIf nv rvNV)
  | .fin s m e =>
    let (c, fl) := if m = 0 then (if s then f.signBit else 0, 0) else rvRound f mode s m 1 e
    (c, fl ||| rvIf nv rvNV)

/-- The integer square root, by bits from `2^k` down. -/
def isqrtFrom (n : Nat) : Nat → Nat → Nat
  | 0, r => r
  | k + 1, r => let t := r + 2 ^ k; isqrtFrom n k (if t * t ≤ n then t else r)

/-- The square root of a positive value, as a quotient over 2 whose odd numerator stands for an inexact root. -/
def rvSqrt (f : FloatFmt) (mode : RoundMode) (m : Nat) (e : Int) : Nat × BitVec 5 :=
  let k : Int := e / 2 - (f.fbits + 4)
  let n := m * 2 ^ (e - 2 * k).toNat
  let r := isqrtFrom n (2 * f.fbits + 16) 0
  rvRound f mode false (2 * r + (if r * r = n then 0 else 1)) 2 k

/-- A quotient. -/
def rvDiv (f : FloatFmt) (mode : RoundMode) (snan : Bool) : FVal → FVal → Nat × BitVec 5
  | .nan, _ => (f.nanCode, rvIf snan rvNV)
  | _, .nan => (f.nanCode, rvIf snan rvNV)
  | .inf _, .inf _ => (f.nanCode, rvNV)
  | .inf s, .fin t _ _ => (f.infCode (s != t), 0)
  | .fin s _ _, .inf t => (if s != t then f.signBit else 0, 0)
  | .fin s m e, .fin t n q =>
    if n = 0 then (if m = 0 then (f.nanCode, rvNV) else (f.infCode (s != t), rvDZ))
    else if m = 0 then (if s != t then f.signBit else 0, 0)
    else rvRound f mode (s != t) m n (e - q)

/-- A floating-point value as an integer of `w` bits, and its flags; a NaN gives the greatest. -/
def rvToInt (mode : RoundMode) (w : Nat) (signed : Bool) (x : FVal) : Nat × BitVec 5 :=
  let lo : Int := if signed then intMin w else 0
  let hi : Int := if signed then intMax w else (2 ^ w : Nat) - 1
  match x with
  | .nan => (ofSigned w hi, rvNV)
  | .inf s => (ofSigned w (if s then lo else hi), rvNV)
  | .fin s m e =>
    let v := roundInt mode s m e
    if v < lo then (ofSigned w lo, rvNV)
    else if hi < v then (ofSigned w hi, rvNV)
    else (ofSigned w v, rvIf (!(FVal.ofInt v).eq x) rvNX)

/-- The class of a code: one bit of ten. -/
def rvClass (f : FloatFmt) (c : Nat) : Nat := match f.read c with
  | .nan => if isSnan f c then 2 ^ 8 else 2 ^ 9
  | .inf s => if s then 1 else 2 ^ 7
  | .fin s m _ =>
    if m = 0 then (if s then 2 ^ 3 else 2 ^ 4)
    else if c / 2 ^ f.fbits % 2 ^ f.ebits = 0 then (if s then 2 ^ 2 else 2 ^ 5)
    else if s then 2 else 2 ^ 6

/-- The width and signedness of an integer type. -/
def RvInt.width : RvInt → Nat
  | .w | .wu => 32
  | .l | .lu => 64
def RvInt.signed : RvInt → Bool
  | .w | .l => true
  | .wu | .lu => false

/-- Whether an operation rounds, so that its rounding mode must be a mode. -/
def RvFop.rounds : RvFop → Bool
  | .fma .. | .add | .sub | .mul | .div | .sqrt | .toInt _ | .ofInt _ | .cvt => true
  | _ => false

/-- The larger or the smaller of two codes: −0 below +0, and a number before a NaN. -/
def rvMinMax (f : FloatFmt) (max : Bool) (a b : Nat) : Nat :=
  let x := f.read a
  let y := f.read b
  if x.isNan then (if y.isNan then f.nanCode else b)
  else if y.isNan then a
  else if (if max then x.below y else y.below x) then b else a

/-- A fused multiply-add with one rounding. -/
def rvFmaVal (f : FloatFmt) (mode : RoundMode) (snan : Bool) (x y z : FVal) : Nat × BitVec 5 :=
  let p := x.mul y
  let r := p.add mode z
  rvPut f mode (snan || (p.isNan && !x.isNan && !y.isNan) || (r.isNan && !p.isNan && !z.isNan)) r

/-- A floating-point operation: whether its result goes to an x register, the result, and the flags. `a`, `b` and `c` are the codes of the
operands, `other` the code of the first operand in the other format, and `x` the integer operand. -/
def RvFop.eval (o : RvFop) (f g : FloatFmt) (mode : RoundMode) (a b c other : Nat) (x : Word64) : Bool × Nat × BitVec 5 :=
  let u := f.read a
  let v := f.read b
  let sn2 := isSnan f a || isSnan f b
  let mag (k : Nat) : Nat := k % f.signBit
  let sign (k : Nat) : Nat := k / f.signBit % 2
  let both (s : Nat) : Nat := s * f.signBit + mag a
  let fl (r : Nat × BitVec 5) : Bool × Nat × BitVec 5 := (false, r)
  let cmp (quiet : Bool) (r : Bool) : Bool × Nat × BitVec 5 :=
    (true, if r then 1 else 0, rvIf (if quiet then sn2 else u.isNan || v.isNan) rvNV)
  match o with
  | .fma np na =>
    fl (rvFmaVal f mode (sn2 || isSnan f c) (if np then u.neg else u) v (if na then (f.read c).neg else f.read c))
  | .add => let r := u.add mode v; fl (rvPut f mode (sn2 || (r.isNan && !u.isNan && !v.isNan)) r)
  | .sub => let r := u.add mode v.neg; fl (rvPut f mode (sn2 || (r.isNan && !u.isNan && !v.isNan)) r)
  | .mul => let r := u.mul v; fl (rvPut f mode (sn2 || (r.isNan && !u.isNan && !v.isNan)) r)
  | .div => fl (rvDiv f mode sn2 u v)
  | .sqrt => match u with
    | .nan => fl (f.nanCode, rvIf (isSnan f a) rvNV)
    | .inf s => fl (if s then (f.nanCode, rvNV) else (f.infCode false, 0))
    | .fin s m e => fl (if m = 0 then (a, 0) else if s then (f.nanCode, rvNV) else rvSqrt f mode m e)
  | .sgnj => (false, both (sign b), 0)
  | .sgnjn => (false, both (1 - sign b), 0)
  | .sgnjx => (false, both ((sign a + sign b) % 2), 0)
  | .min => (false, rvMinMax f false a b, rvIf sn2 rvNV)
  | .max => (false, rvMinMax f true a b, rvIf sn2 rvNV)
  | .eq => cmp true (u.eq v)
  | .lt => cmp false (u.lt v)
  | .le => cmp false (u.lt v || u.eq v)
  | .cls => (true, rvClass f a, 0)
  | .toInt t =>
    let (r, e) := rvToInt mode t.width t.signed u
    (true, (toSigned t.width r % 2 ^ 64).toNat, e)
  | .ofInt t =>
    let k : Int := if t.signed then toSigned t.width x.toNat else (x.toNat % 2 ^ t.width : Nat)
    fl (rvPut f mode false (FVal.ofInt k))
  | .cvt => fl (rvPut f mode (isSnan g other) (g.read other))
  | .toX => (true, (toSigned (f.ebits + f.fbits + 1) a % 2 ^ 64).toNat, 0)
  | .ofX => (false, x.toNat % (2 * f.signBit), 0)

/-- A single-precision operand of a register: the canonical NaN where the register holds no boxed value. -/
def unbox (v : Word64) : Nat := if v.toNat / 2 ^ 32 = 2 ^ 32 - 1 then v.toNat % 2 ^ 32 else FloatFmt.f32.nanCode

/-- A code as a floating-point register holds it. -/
def box (dbl : Bool) (c : Nat) : Word64 := if dbl then BitVec.ofNat 64 c else (0xFFFFFFFF : BitVec 32) ++ BitVec.ofNat 32 c

/-! ### Registers -/

def Rm.read (r : Rm) (n : BitVec 5) : Word64 := if n = 0 then 0 else r.x[n.toNat]
def Rm.write (r : Rm) (n : BitVec 5) (v : Word64) : Rm := if n = 0 then r else { r with x := r.x.set n.toNat v }

/-- The next word, with the instruction counted. -/
def Rm.advance (r : Rm) : Rm := { r with pc := r.pc + 4, csr := { r.csr with minstret := r.csr.minstret + 1 } }

/-- A trap into the machine-level handler: mepc, mcause and mtval are saved, interrupts are disabled with their enable kept, and the pc
goes to the base of mtvec. A wait ends (PRESUMED, log entry 23; DESIGN CHOICE, log entry 110). -/
def Rm.trap (r : Rm) (cause : Nat) (val : Word64) : Rm :=
  { r with
    pc := r.csr.mtvec &&& 0xFFFFFFFFFFFFFFFC, wait := none,
    csr := { r.csr with mepc := r.pc &&& 0xFFFFFFFFFFFFFFFE, mcause := BitVec.ofNat 64 cause, mtval := val, mpie := r.csr.mie, mie := false } }

/-- `mret`. -/
def Rm.mret (r : Rm) : Rm := { r with pc := r.csr.mepc, csr := { r.csr with mie := r.csr.mpie, mpie := true } }

/-- mstatus: MIE, MPIE, MPP always machine level, FS, and SD where FS is dirty. -/
def RmCsr.mstatus (c : RmCsr) : Word64 :=
  BitVec.ofBool (c.fs == 3) ++ (0 : BitVec 48) ++ c.fs ++ (3 : BitVec 2) ++ (0 : BitVec 3) ++ BitVec.ofBool c.mpie ++ (0 : BitVec 3)
    ++ BitVec.ofBool c.mie ++ (0 : BitVec 3)

/-- Whether a CSR number exists here but holds nothing: identification, configuration and counters that read zero. -/
def csrZero (n : Nat) : Bool :=
  (0xF11 ≤ n ∧ n ≤ 0xF13) || n == 0xF15 || n == 0x344 || n == 0x320 || (0x323 ≤ n ∧ n ≤ 0x33F) || (0xB03 ≤ n ∧ n ≤ 0xB1F)
    || (0xC03 ≤ n ∧ n ≤ 0xC1F) || (0x3A0 ≤ n ∧ n ≤ 0x3EF)

/-- A CSR read: none for a number that does not exist. The cycle and time counters give `free`. -/
def Rm.readCsr (r : Rm) (m : BitVec 10) (free : Word64) (n : BitVec 12) : Option Word64 :=
  let c := r.csr
  match n.toNat with
  | 0x001 => if c.fs = 0 then none else some (c.fflags.setWidth 64)
  | 0x002 => if c.fs = 0 then none else some (c.frm.setWidth 64)
  | 0x003 => if c.fs = 0 then none else some ((c.frm ++ c.fflags).setWidth 64)
  | 0x300 => some c.mstatus
  | 0x301 => some 0x800000000000112D
  | 0x304 => some c.mienable
  | 0x305 => some c.mtvec
  | 0x340 => some c.mscratch
  | 0x341 => some c.mepc
  | 0x342 => some c.mcause
  | 0x343 => some c.mtval
  | 0xB00 | 0xC00 | 0xC01 => some free
  | 0xB02 | 0xC02 => some c.minstret
  | 0xF14 => some (m.setWidth 64)
  | k => if csrZero k then some 0 else none

/-- A CSR written: fields that hold nothing keep their values. Writing the instruction counter leaves `v` in it behind the instruction. -/
def RmCsr.write (c : RmCsr) (n : BitVec 12) (v : Word64) : RmCsr := match n.toNat with
  | 0x001 => { c with fflags := bits v 0 5, fs := 3 }
  | 0x002 => { c with frm := bits v 0 3, fs := 3 }
  | 0x003 => { c with fflags := bits v 0 5, frm := bits v 5 3, fs := 3 }
  | 0x300 => { c with mie := v.getLsbD 3, mpie := v.getLsbD 7, fs := bits v 13 2 }
  | 0x304 => { c with mienable := v &&& 0x888 }
  | 0x305 => { c with mtvec := v &&& 0xFFFFFFFFFFFFFFFD }
  | 0x340 => { c with mscratch := v }
  | 0x341 => { c with mepc := v &&& 0xFFFFFFFFFFFFFFFE }
  | 0x342 => { c with mcause := v }
  | 0x343 => { c with mtval := v }
  | 0xB02 => { c with minstret := v - 1 }
  | _ => c

/-! ### Memory -/

/-- Whether a row manager reaches a physical range: it exists, and the host link is up where it lies in the HOST window (R407). -/
def State.rvReach (s : State) (a : Word64) (n : Nat) : Bool := physOk a.toNat n && (!inHost a.toNat || s.hostUp)

/-- A load of a row manager (R326): a physical read under the OS key; the exception of an address that does not exist or of a poisoned
line (R403, R405) is `cause`. -/
def State.rvLoad (s : State) (cause : Nat) (a : Word64) (n : Nat) : Except (Nat × Word64) Nat :=
  if !s.rvReach a n || (s.poisonIn a.toNat n).isSome then .error (cause, a) else .ok (s.numAt s.osKey a.toNat n)

/-- A store of a row manager: the management block keeps its values (R442). -/
def State.rvStore (s : State) (a : Word64) (n v : Nat) : Except (Nat × Word64) State :=
  if !s.rvReach a n then .error (7, a) else .ok (if inMgmt a.toNat then s else s.putNum s.osKey a.toNat n v)

/-! ### One instruction -/

/-- A row manager's turn at a base instruction of `len` bytes: the state after it, or its exception's cause and value. The memory is as the
stores that are ordered before its accesses have left it (R148, R149) (DESIGN CHOICE, log entry 5; PRESUMED, log entry 23). -/
def State.rvExec (s : State) (m : BitVec 10) (len : Nat) (i : Rv) : Except (Nat × Word64) State :=
  let r := s.rm m
  let after := r.pc + BitVec.ofNat 64 len
  let goTo (s : State) (pc : Word64) (r : Rm) : Except (Nat × Word64) State :=
    .ok (s.setRm m { r with pc := pc, csr := { r.csr with minstret := r.csr.minstret + 1 } })
  let put (d : BitVec 5) (v : Word64) : Except (Nat × Word64) State := goTo s after (r.write d v)
  let illegal : Except (Nat × Word64) State := .error (2, BitVec.ofNat 64 (s.numAt s.osKey r.pc.toNat len))
  match i with
  | .lui d v => put d v
  | .auipc d v => put d (r.pc + v)
  | .jal d off => goTo s (r.pc + off) (r.write d after)
  | .jalr d a off => goTo s ((r.read a + off) &&& 0xFFFFFFFFFFFFFFFE) (r.write d after)
  | .branch c a b off => goTo s (if rvTaken c (r.read a) (r.read b) then r.pc + off else after) r
  | .opImm o w d a v => put d (o.run w (r.read a) v)
  | .op o w d a b => put d (o.run w (r.read a) (r.read b))
  | .fence => goTo s after r
  | .wfi => goTo s after r
  | .ecall => .error (11, 0)
  | .ebreak => .error (3, r.pc)
  | .mret => .ok (s.setRm m (let x := r.mret; { x with csr := { x.csr with minstret := x.csr.minstret + 1 } }))
  | .load n signed d a off => do
    let v ← s.rvLoad 5 (r.read a + off) n
    put d (if signed then sext (8 * n) v else BitVec.ofNat 64 v)
  | .store n a b off => do
    let s1 ← s.rvStore (r.read a + off) n (r.read b).toNat
    goTo s1 after r
  | .csr o imm d a n =>
    let (k, s1) := s.freshNat
    match r.readCsr m (Config.freeValue k) n with
    | none => illegal
    | some old =>
      let v : Word64 := if imm then a.setWidth 64 else r.read a
      let writes := match o with
        | .write => true
        | _ => a != 0
      if writes && n.toNat / 2 ^ 10 == 3 then illegal
      else
        let new := match o with
          | .write => v
          | .set => old ||| v
          | .clear => old &&& ~~~v
        goTo s1 after { r.write d old with csr := if writes then r.csr.write n new else r.csr }
  | .lr n d a =>
    let at_ := r.read a
    if at_.toNat % n ≠ 0 then .error (4, at_)
    else do
      let v ← s.rvLoad 5 at_ n
      goTo s after { r.write d (sext (8 * n) v) with resv := some at_ }
  | .sc n d a b =>
    let at_ := r.read a
    if at_.toNat % n ≠ 0 then .error (6, at_)
    else if !s.rvReach at_ n then .error (7, at_)
    else
      let (k, s1) := s.freshNat
      let held := r.resv == some at_
      if held && (Config.freeValue k).getLsbD 0 then do
        let s2 ← s1.rvStore at_ n (r.read b).toNat
        goTo s2 after { r.write d 0 with resv := none }
      else goTo s1 after { r.write d 1 with resv := none }
  | .amo o n d a b =>
    let at_ := r.read a
    if at_.toNat % n ≠ 0 then .error (6, at_)
    else do
      let v ← s.rvLoad 7 at_ n
      let new := if n = 4 then (o.eval (BitVec.ofNat 32 v) ((r.read b).setWidth 32)).toNat
        else (o.eval (BitVec.ofNat 64 v) (r.read b)).toNat
      let s1 ← s.rvStore at_ n new
      goTo s1 after (r.write d (sext (8 * n) v))
  | .fload dbl d a off =>
    if r.csr.fs = 0 then illegal
    else do
      let v ← s.rvLoad 5 (r.read a + off) (if dbl then 8 else 4)
      goTo s after { r with f := r.f.set d.toNat (box dbl v), csr := { r.csr with fs := 3 } }
  | .fstore dbl a b off =>
    if r.csr.fs = 0 then illegal
    else do
      let s1 ← s.rvStore (r.read a + off) (if dbl then 8 else 4) r.f[b.toNat].toNat
      goTo s1 after r
  | .fop o dbl rm d a b c =>
    let mode := if rm = 7 then r.csr.frm else rm
    if r.csr.fs = 0 ∨ (o.rounds = true ∧ 4 < mode) then illegal
    else
      let code (dbl : Bool) (k : BitVec 5) : Nat := if dbl then r.f[k.toNat].toNat else unbox r.f[k.toNat]
      let raw (k : BitVec 5) : Nat := if o = .toX then r.f[k.toNat].toNat % (if dbl then 2 ^ 64 else 2 ^ 32) else code dbl k
      let (toX, v, fl) := o.eval (if dbl then f64 else .f32) (if dbl then .f32 else f64) (RoundMode.ofCode mode.toNat)
        (raw a) (code dbl b) (code dbl c) (code (!dbl) a) (r.read a)
      let csr := { r.csr with fflags := r.csr.fflags ||| fl, fs := 3 }
      if toX then goTo s after { r.write d (BitVec.ofNat 64 v) with csr := csr }
      else goTo s after { r with f := r.f.set d.toNat (box dbl v), csr := csr }

/-- The instruction at a row manager's program counter: its length and bits, or the exception of its fetch, with the address of the half that
faults (PRESUMED, log entry 23). -/
def State.rvFetch (s : State) (m : BitVec 10) : Except (Nat × Word64) (Nat × Nat) :=
  let pc := (s.rm m).pc
  if pc.toNat % 2 ≠ 0 then .error (0, pc)
  else do
    let p ← s.rvLoad 1 pc 2
    if rvLen p = 2 then .ok (2, p)
    else
      let h ← s.rvLoad 1 (pc + 2) 2
      .ok (4, p + 2 ^ 16 * h)

/-- The die of a row manager (R31). -/
def rmDie (m : BitVec 10) : BitVec 3 := bits m 7 3

/-- The range that a base instruction accesses: its address and its bytes; none where it accesses nothing or takes an exception first. -/
def Rv.reach (r : Rm) (i : Rv) : Option (Word64 × Nat) :=
  let aligned (a : BitVec 5) (n : Nat) : Option (Word64 × Nat) := if (r.read a).toNat % n = 0 then some (r.read a, n) else none
  match i with
  | .load n _ _ a off | .store n a _ off => some (r.read a + off, n)
  | .lr n _ a | .sc n _ a _ | .amo _ n _ a _ => aligned a n
  | .fload dbl _ a off | .fstore dbl a _ off => if r.csr.fs = 0 then none else some (r.read a + off, if dbl then 8 else 4)
  | _ => none

/-- Whether a row manager's next instruction waits for a bridge on the way to it (R352) (DEDUCED, log entry 105). -/
def State.rvFetchHeld (s : State) (m : BitVec 10) : Bool :=
  let pc := (s.rm m).pc
  !s.physUp (rmDie m) pc.toNat 2
    || (rvLen (s.numAt s.osKey pc.toNat 2) != 2 && !s.physUp (rmDie m) (pc + 2).toNat 2)

/-- A base instruction executed, or its exception taken (PRESUMED, log entry 23); one whose access has a bridge on its way that is not UP
waits (R352) (DEDUCED, log entry 105). -/
def State.rvStep (s0 : State) (m : BitVec 10) (len w : Nat) : State :=
  let s := s0.settle (.die (rmDie m))
  let trap (e : Nat × Word64) : State := s.setRm m ((s.rm m).trap e.1 e.2)
  match rvDecode len w with
  | none => trap (2, BitVec.ofNat 64 w)
  | some i =>
    if ((i.reach (s.rm m)).map (fun p => s.physUp (rmDie m) p.1.toNat p.2)).getD true then
      match s.rvExec m len i with
      | .ok s1 => s1
      | .error e => trap e
    else s0

end Sys2Proof.Machine
end

