-- ==== Sys2Proof/Machine/Fetch.lean ====
section
/-!
DEFINITION. Whose turn it is, and the instruction that agent executes next: the sequencer's fetch (R109, R128, R140), a node's
loaded word and the cell's choice among its nodes (R17, R22), the policy word (R418) and the row manager's word (R119, R120).
-/

namespace Sys2Proof.Machine

/-- What a turn brings: an instruction to execute, a cell that chooses among its nodes, a state with none (no instruction, or one of a row
manager's base, done), or a stop. -/
inductive Fetched where
  | run (i : Instr) (s : State)
  | pick (c : CellId) (s : State)
  | idle (s : State)
  | stop (f : Fault)
  | refuse (r : Refusal)
  deriving DecidableEq, Repr

/-! ### The sequencer -/

/-- The word at a sequencer's program counter, or the cause and value of the fetch fault (R140, R142, R403), and the state with
the translation used. -/
def State.fetchWord (s : State) (q : BitVec 7) : Except (Nat × Word64) Word32 × State :=
  let pc := (s.seq q).pc
  if pc.toNat % 4 ≠ 0 then (.error (tMisTarget, pc), s)
  else
    match s.xlate q .x pc with
    | (.error f, s1) => (.error (f.cause, pc), s1)
    | (.ok x, s1) =>
      if (s1.poisonIn x.pa 4).isSome then (.error (tPoison, pc), s1)
      else (.ok (BitVec.ofNat 32 (s1.seqNum q x.key x.pa 4)), s1)

/-- The way to the word at a sequencer's program counter, and of the walk that finds it (R351, R352). -/
def State.fetchPath (s : State) (q : BitVec 7) : PathState := match (s.xlate q .x (s.seq q).pc).1 with
  | .ok x => s.pathTo (seqDie q) x.pa
  | .error .held => .down
  | .error .lost => .broken
  | .error _ => .up

/-- A wait that ends by issuing the instruction again (R131, R310), not by a step of its own. -/
def SeqWait.reissues : SeqWait → Bool
  | .none | .cfgabort | .cfgld | .memory | .bridge => true
  | _ => false

/-- The instruction that a sequencer issues. -/
def State.fetchSeq (s : State) (q : BitVec 7) : Fetched :=
  let sq := s.seq q
  if (sq.run ≠ .running ∧ sq.run ≠ .handler) ∨ !sq.wait.reissues then .idle s
  else
    let s0 := { s.setSeq q { sq with wait := .none } with seqTurn := q }
    match s0.fetchPath q with
    | .down => .idle s
    | .broken => .idle (s.seqFault q 0x19 0)
    | .up => match s0.fetchWord q with
    | (.error _, _) => .run .instructionFetchFault s0
    | (.ok w, s1) =>
      match decodeSeq w.toNat with
      | .ok i => .run i s1
      | .error _ => .run (.wordNotAnInstruction w) s1

/-! ### A node -/

/-- The word of a node slot. A slot that holds none has nothing to run. -/
def State.fetchNode (s : State) (c : CellId) (k : BitVec 3) : Fetched :=
  match (s.cell c).word k with
  | none => .refuse .nothingToRun
  | some w =>
    match decodeNode w.toNat with
    | .ok i => .run i { s with nodeTurn := (c, k) }
    | .error _ => .refuse .nothingToRun

/-- The first node, searching upward from the slot after the one issued last, whose turn changes anything (R22). A cell with no
ready node issues none. -/
def issueFirst (run : Instr → State → Result) (c : CellId) (s : State) : Nat → Result
  | 0 => .next s
  | n + 1 =>
    let k := (s.cell c).last + BitVec.ofNat 3 (8 - n)
    match s.fetchNode c k with
    | .run i s1 =>
      match run i s1 with
      | .next s2 => if s2 = s1 then issueFirst run c s n else .next s2
      | r => r
    | _ => issueFirst run c s n

/-! ### The policy engine and the row manager -/

/-- The next word of the decision of a die. -/
def State.fetchPolicy (s : State) (d : BitVec 3) : Fetched :=
  match (s.die d).dec with
  | none => .refuse .nothingToRun
  | some x =>
    if x.ended.isSome then .idle s
    else
      match x.prog[x.pc]? with
      | none => .refuse .nothingToRun
      | some w =>
        match decodePolicy w.toNat with
        | .ok i => .run i { s with polTurn := d }
        | .error _ => .refuse .nothingToRun

/-- What a row manager executes (R120): a word of the command extension, a word of its two opcodes that the extension does not assign, or
an instruction of the base, executed here; a fetch that faults takes the base's exception. A row manager that waits executes nothing, nor
does one of a die out of service (R405), nor one whose fetch waits for a bridge (R352). -/
def State.fetchRm (s : State) (m : BitVec 10) : Fetched :=
  let r := s.rm m
  if r.wait.isSome || !(s.die (rmDie m)).service || s.rvFetchHeld m then .idle s
  else match s.rvFetch m with
    | .error e => .idle (s.setRm m (r.trap e.1 e.2))
    | .ok (len, w) =>
      if len ≠ 4 then .idle (s.rvStep m len w)
      else match decodeRm w with
        | .command i => .run i { s with rmTurn := m }
        | .illegal => .run (.illegalInstructionException (BitVec.ofNat 32 w)) { s with rmTurn := m }
        | .base => .idle (s.rvStep m len w)

/-! ### Time (R126, R401) -/

/-- Whether a cell or the lead sequencer of a region has a request outstanding (R400). -/
def State.outstanding (s : State) (r : Region) : Bool :=
  let mine (c : CellId) : Bool := r.hasCell c
  (s.cellsOf r).any (fun c =>
      let m := (s.cell c).mp
      m.outs.any (fun o => !o.token && o.val.isNone) || !m.atoms.isEmpty)
    || s.pend.any (fun p => match p.src with
        | .cell c => mine c
        | .seq q => q == r.lead)
    || !r.fetches.isEmpty
    || s.queries.any (fun x => match x.who with
        | .cell c => mine c
        | .seq q => q == r.lead)
    || (match (s.seq r.lead).wait with
        | .sigv .. | .keyh .. => true
        | _ => false)
    || s.heldAtBridge r.lead

/-- `n` cycles in which a sequencer issues nothing and no cell of its region fires: CYCLE counts (R126), and the region's watchdog
where R401 lets it (DESIGN CHOICE, log entry 14). -/
def State.ticks (s : State) (q : BitVec 7) (n : Nat) : State :=
  let s1 := { s.modSeq q (fun sq => { sq with cycle := sq.cycle + BitVec.ofNat 64 n }) with cyc := s.cyc + (n - 1) }
  match s1.regionOfSeq q with
  | none => s1
  | some r =>
    if r.lead ≠ q then s1
    else
      let counts := r.kstate != .frozen && r.sections.any (fun x => !x.tiles.isEmpty) && !s1.outstanding r
      s1.modRegion r.serial (fun r => { r with wdog := if counts then r.wdog + n else 0 })

/-- Since when a sequencer waits on a request, after it has issued (R402): an instruction that issues again at the same address has waited since
it first did. -/
def Seq.heldSince (sq : Seq) (now : Nat) : Option (Word64 × Nat) :=
  if sq.wait = .none then none
  else if sq.wait.reissues && (sq.held.map Prod.fst) == some sq.pc then sq.held
  else some (sq.pc, now)

/-- The sequencer's clock after an instruction, which sets the watchdog to 0 (R126, R401); the first one makes a RESIDENT kernel
ACTIVE (R266) (DESIGN CHOICE, log entry 14). -/
def State.afterIssue (s : State) (q : BitVec 7) : State :=
  let s1 := s.modSeq q (fun sq => { sq with cycle := sq.cycle + 1, held := sq.heldSince s.cyc })
  match (s1.seq q).region with
  | none => s1
  | some n => s1.modRegion n (fun r => { r with wdog := 0, kstate := if r.kstate = .resident then .active else r.kstate })

/-- What a firing of a cell does beside its effect (R372, R389, R401): the watchdog of its region is set to 0, one firing of the context's
budget is spent, where its quota counts (FI is a signed 40-bit count), and while the region freezes SKID grows
(DEDUCED, log entries 59, 83). -/
def State.afterFire (s : State) (c : CellId) : State := match s.regionOf c with
  | none => s
  | some r =>
    let s1 := if r.freezing && !(s.cell c).stopped then
        s.modCell c (fun x => { x with fault := { x.fault with skid := x.fault.skid + 1 } })
      else s
    (s1.modRegion r.serial (fun r => { r with wdog := 0 })).modDie c.die (fun d => { d with
      budgets := d.budgets.map (fun b =>
        if b.ctx = r.launch.ctx ∧ b.qfi ≠ 0xFFFFFFFF then { b with fi := wrap40 (b.fi - 1) } else b) })

/-- What time does after a turn that led from one state to another: only a cell's turn that was a firing counts as one
(DEDUCED, log entry 59). -/
def State.afterTurn (s : State) (t : Turn) (before : State) : State := match t with
  | .seq q => s.afterIssue q
  | .cell c => if s ≠ before ∧ before.isFiring s c then s.afterFire c else s
  | _ => s

/-! ### Cycles (R232) -/

/-- The queues that can leave SHEDDING at the end of a cycle: those of the cells, those behind the outlet ports of the sequencers that have
acted in it, and the software queues (DESIGN CHOICE, log entry 150). -/
def State.leavers (s : State) : List QRef :=
  s.cells.flatMap (fun p => (List.range 8).filterMap (fun i =>
      if ((p.2.queues[i]?).map Queue.canLeave).getD false then some (QRef.cell p.1 (BitVec.ofNat 3 i)) else none))
    ++ s.acted.flatMap (fun t => match t with
      | .seq q => (List.range 64).filterMap (fun i =>
          if ((((s.seq q).outPort[i]?).bind id).map Queue.canLeave).getD false then some (QRef.out q (BitVec.ofNat 6 i)) else none)
      | _ => [])
    ++ s.softqs.filterMap (fun y => if y.q.canLeave then some (QRef.soft y.ctx y.addr) else none)

/-- A turn begins: where its agent has acted in the cycle under way, or it lets cycles pass, that cycle ends with the test of every queue that
can leave SHEDDING (R232). An agent acts once in a cycle; what has no agent happens within the cycle under way (DESIGN CHOICE, log entry
150). -/
def State.beginTurn (s : State) (t : Turn) : State :=
  let agent := match t with
    | .seq _ | .cell _ | .policy _ | .rm _ => true
    | .event _ | .tick _ _ => false
  let passes := match t with
    | .tick _ n => n != 0
    | _ => false
  if t ∈ s.acted || passes then
    let s1 := s.leavers.foldl State.leaveTest s
    { s1 with acted := if agent then [t] else [], cyc := s1.cyc + 1 }
  else if agent then { s with acted := t :: s.acted }
  else s

/-! ### Turns -/

/-- The next turn: the head of the schedule, or that of the sequencer that ran last (DESIGN CHOICE, log entry 10). -/
def State.takeTurn (s : State) : Turn × State := match s.turns with
  | [] => (.seq s.seqTurn, s.beginTurn (.seq s.seqTurn))
  | t :: ts => (t, ({ s with turns := ts } : State).beginTurn t)

/-- What a turn brings to a module that has power. A step without an encoding is taken as it stands; an encoded instruction runs only by
its fetch (DESIGN CHOICE, log entry 10). -/
def State.fetchOn (s : State) (t : Turn) : Fetched := match t with
  | .seq q => s.fetchSeq q
  | .cell c => .pick c s
  | .policy d => s.fetchPolicy d
  | .rm m => s.fetchRm m
  | .event i => match encode i with
    | none => .run i s
    | some _ => .refuse .nothingToRun
  | .tick q n => .idle (s.ticks q n)

/-- What a turn brings: without power, nothing happens but the power-on. -/
def State.fetch (s : State) (t : Turn) : Fetched := if s.powered || t == .event .powerOn then s.fetchOn t else .idle s

/-! ### Placing a word where it is fetched -/

/-- The page that holds an address, mapped for fetch by a cached translation onto the page of its low bits, under handle 1
(DESIGN CHOICE, log entry 11). -/
def fetchEntry (ctx : BitVec 9) (pc : Word64) : TlbEntry :=
  { ctx := ctx, base := pc.toNat / 4096 * 4096, size := 0,
    pte := BitVec.ofNat 64 (1 + 8 + 16 + pc.toNat / 4096 * 4096 % 2 ^ 40 + 2 ^ 52) }

/-- A sequencer word placed at the program counter of the sequencer whose turn it is: the sequencer runs, its page is mapped, and
handle 1 holds a memory key of its context (DESIGN CHOICE, log entry 11). -/
def State.placeSeqWord (s : State) (w : Nat) : State :=
  let q := s.seqTurn
  let sq := s.seq q
  let e := fetchEntry sq.ctx sq.pc
  let s1 : State := { s with
    slots := { handle := 1, ctx := some sq.ctx, kind := 1, key := .made 1, pub := [] } :: s.slots, turns := .seq q :: s.turns }
  let s2 := s1.setSeq q { sq with run := .running, wait := .none, tlb := e :: sq.tlb }
  s2.putNum (.made 1) (ptePa e.pte + sq.pc.toNat % 4096) 4 w

/-- A node word placed in slot 0 of a cell of its kind in block 0 of die 0 (DESIGN CHOICE, log entry 11). -/
def State.placeNodeWord (s : State) (w : Nat) : State :=
  let kindAt (n : Nat) : Bool := decide (cellKind (BitVec.ofNat 6 n) = (match w / 2 ^ 28 % 16 with
    | 0 => .arith | 1 => .copy | 2 => .join | 3 => .steer | 4 => .reorder | 5 => .accum
    | 6 => .memport | 7 => .addrgen | 8 => .window | 9 => .matrix | 10 => .online | _ => .convert))
  let n := ((List.range 64).find? kindAt).getD 0
  let c : CellId := ⟨0, 0, 0, BitVec.ofNat 6 n⟩
  { s.modCell c (fun x => { x with
      active := { x.active with nodes := x.active.nodes.set 0 (some (BitVec.ofNat 32 w)) } }) with
    turns := .cell c :: s.turns }

/-- A policy word placed as the next word of a decision of die 0 (DESIGN CHOICE, log entry 11). -/
def State.placePolicyWord (s : State) (w : Nat) : State :=
  let d : Decision :=
    { part := 0, dkind := 0, free := 0, rows := [], pstate := Vector.replicate 11 0, prog := [BitVec.ofNat 16 w],
      b := Vector.replicate 8 0, t := false, cur := none, sel := none, score := 0, veto := [], steps := 0, pc := 0,
      ended := none, reserved := none }
  { s.modDie 0 (fun x => { x with dec := some d }) with turns := .policy 0 :: s.turns }

/-- A row manager's word placed at the program counter of row manager 0 (DESIGN CHOICE, log entry 11). -/
def State.placeRmWord (s : State) (w : Nat) : State :=
  let r := s.rm 0
  { (s.setRm 0 { r with wait := none }).putNum s.osKey r.pc.toNat 4 w with turns := .rm 0 :: s.turns }

end Sys2Proof.Machine
end

