-- ==== Sys2Proof/Machine/Transport.lean ====
section
/-!
DEFINITION. The transport engine: completion rings, connections, messages, registrations and the packets that arrive (R300, R353 to R361).
-/

namespace Sys2Proof.Machine

/-! ### Ranges of a context as an engine reaches them -/

/-- Whether one of `n` pages from a page number cannot be accessed. -/
def State.pagesFault (s : State) (d : BitVec 3) (ctx : BitVec 9) (right : Right) (page : Nat) : Nat → Bool
  | 0 => false
  | n + 1 =>
    (match (s.xlateEngine d ctx right (BitVec.ofNat 64 (4096 * page))).1 with
      | .ok _ => false
      | .error _ => true) || s.pagesFault d ctx right (page + 1) n

/-- Whether a byte range of a context cannot be accessed. -/
def State.rangeFault (s : State) (d : BitVec 3) (ctx : BitVec 9) (right : Right) (va n : Nat) : Bool :=
  if n = 0 then false
  else if 2 ^ 48 < va + n then true
  else s.pagesFault d ctx right (va / 4096) ((va + n - 1) / 4096 - va / 4096 + 1)

/-- Whether one of `n` pages from a page number holds a poisoned line within a byte range. -/
def State.pagesPoison (s : State) (d : BitVec 3) (ctx : BitVec 9) (lo hi page : Nat) : Nat → Bool
  | 0 => false
  | n + 1 =>
    let a := max lo (4096 * page)
    (match (s.xlateEngine d ctx .r (BitVec.ofNat 64 a)).1 with
      | .ok x => (s.poisonIn x.pa (min hi (4096 * (page + 1)) - a)).isSome
      | .error _ => false) || s.pagesPoison d ctx lo hi (page + 1) n

/-- Whether a byte range of a context meets a poison mark. -/
def State.rangePoison (s : State) (d : BitVec 3) (ctx : BitVec 9) (va n : Nat) : Bool :=
  if n = 0 then false else s.pagesPoison d ctx va (va + n) (va / 4096) ((va + n - 1) / 4096 - va / 4096 + 1)

/-- Bytes stored at a range of a context, page by page; `n` pieces at most. A page that cannot be written takes nothing. -/
def State.engineWrite (s : State) (d : BitVec 3) (ctx : BitVec 9) (va : Nat) (bs : List Byte) : Nat → State
  | 0 => s
  | n + 1 =>
    if bs.isEmpty then s
    else
      let k := 4096 - va % 4096
      let s1 := match s.xlateEngine d ctx .w (BitVec.ofNat 64 va) with
        | (.ok x, s1) => s1.putBytes x.key x.pa (bs.take k)
        | (.error _, s1) => s1
      s1.engineWrite d ctx (va + k) (bs.drop k) n

/-! ### Completion rings (R354, R359) -/

/-- A completion record, without CSEQ. -/
structure Record where
  user   : Word32
  op     : Nat
  status : Nat
  conn   : BitVec 12
  bytes  : Nat
  retx   : Word32
  deriving DecidableEq, Repr

/-- The 32 bytes of a record (DESIGN CHOICE, log entry 42). -/
def Record.bytesOf (r : Record) (cseq : Nat) : List Byte :=
  natToBytes 8 (r.user.toNat + r.op * 2 ^ 32 + r.status * 2 ^ 40 + r.conn.toNat * 2 ^ 48) ++ natToBytes 8 r.bytes ++ natToBytes 8 cseq
    ++ natToBytes 8 r.retx.toNat

/-- The entries of a ring (DEDUCED, log entry 96). -/
def ringEntries (cring : Word64) : Nat := 128 * 2 ^ (bits cring 8 4).toNat

/-- A record written to the next entry of a completion ring of a context, and whether it lies over an earlier one; a CRING of 0 is no
ring (DEDUCED, log entry 96). -/
def State.putRecord (s : State) (d : BitVec 3) (ctx : BitVec 9) (cring : Word64) (r : Record) : State × Bool :=
  if cring = 0 then (s, false)
  else
    let n := (aget s.cseqs (ctx, cring)).getD 0 + 1
    let va := (cring &&& 0xFFFFFFFFFFFFF000) + BitVec.ofNat 64 (32 * ((n - 1) % ringEntries cring))
    let s1 : State := { s with cseqs := aset s.cseqs (ctx, cring) n }
    (match s1.xlateEngine d ctx .w va with
      | (.ok x, s2) => s2.putBytes x.key x.pa (r.bytesOf n)
      | (.error _, s2) => s2, decide (ringEntries cring < n))

/-! ### Connections and messages (R356, R359) -/

/-- A connection that has been opened. -/
def Die.conn (x : Die) (n : BitVec 12) : Option Conn := x.conns.find? (fun c => c.num = n)

def State.modConn (s : State) (d : BitVec 3) (n : BitVec 12) (f : Conn → Conn) : State :=
  s.modDie d (fun x => { x with conns := x.conns.map (fun c => if c.num = n then f c else c) })

/-- A count of a status block one higher (DEDUCED, log entry 99). -/
def satInc (v : Word32) : Word32 := if v = 0xFFFFFFFF then v else v + 1

/-- A record of a connection written to a ring, its own or that of a registration. Whether a consumer had taken the one it overwrites is not
stated (DESIGN CHOICE, log entry 5) (DEDUCED, log entry 96). -/
def State.recordIn (s : State) (d : BitVec 3) (c : Conn) (ctx : BitVec 9) (cring : Word64) (r : Record) : State :=
  let (s1, wrapped) := s.putRecord d ctx cring r
  if !wrapped then s1
  else
    let (n, s2) := s1.freshNat
    if (Config.freeValue n).getLsbD 0 then s2.modConn d c.num (fun c => { c with ovwr := c.ovwr + 1 }) else s2

/-- A record written to the ring of its connection (DESIGN CHOICE, log entry 5; DEDUCED, log entry 96). -/
def State.connRecord (s : State) (d : BitVec 3) (c : Conn) (r : Record) : State := s.recordIn d c c.ctx c.cring r

/-- The requests that a PEER page has sent over a connection of a die (R361). -/
def State.peerReqs (s : State) (d : BitVec 3) (n : BitVec 12) : List SliceReq :=
  s.pend.filter (fun r => inPeer r.pa && r.src.die == d && BitVec.ofNat 12 (r.pa / 2 ^ 38) == n)

/-- A connection that is CLOSING is IDLE once none of its messages is outstanding, a PEER request among them (R356, R361)
(DEDUCED, log entry 97). -/
def State.settleConn (s : State) (d : BitVec 3) (n : BitVec 12) : State :=
  if (s.die d).msgs.any (fun m => m.conn == n) || !(s.peerReqs d n).isEmpty then s
  else s.modConn d n (fun c => if c.state = .closing then { c with state := .idle } else c)

/-- A message that is not outstanding any more completed at its sender (R359): the arrival, the record, the ticket
(DEDUCED, log entry 97). -/
def State.endMsg (s : State) (d : BitVec 3) (c : Conn) (m : Msg) (status bytes : Nat) (retx : Word32) : State :=
  let (v, s1) := if !m.bar then (status, s)
    else match s.engineArrive d c.ctx m.baraddr with
      | (.ok true, s1) => (status, s1)
      | (.ok false, s1) => (if status = 0 then 3 else status, s1)
      | (.error _, s1) => (if status = 0 then 4 else status, s1)
  let r : Record := { user := m.user, op := m.op.toNat, status := v, conn := m.conn, bytes := bytes, retx := retx }
  ((s1.connRecord d c r).ticketDone m.ticket).settleConn d c.num

/-- Every message of a connection completed with a status (DEDUCED, log entry 88). -/
def State.endMsgs (s : State) (d : BitVec 3) (c : Conn) (status : Nat) : State :=
  ((s.die d).msgs.filter (fun m => m.conn == c.num)).foldl (fun s m => s.endMsg d c m status 0 0)
    (s.modDie d (fun x => { x with msgs := x.msgs.filter (fun m => m.conn != c.num) }))

/-! ### Transport descriptors (R354) -/

/-- Whether a transport descriptor keeps to the table of R354. -/
def transportDescOk (dw : Nat → Word64) : Bool :=
  let op := descOp dw
  let msg := op == 3 || op == 4 || op == 5
  let len := (bits (dw 3) 32 32).toNat
  decide (1 ≤ op ∧ op ≤ 7) && !(dw 0).getLsbD 31 && (msg || !(dw 0).getLsbD 8) && (op == 3 || op == 5 || !(dw 0).getLsbD 9)
    && (decide (op ≤ 5) || bits (dw 0) 10 12 == 0)
    && (if msg then true else if op == 6 then (dw 1).toNat % 4096 == 0 else dw 1 == 0)
    && (if op == 3 || op == 4 then true else if op == 5 then bits (dw 2) 6 58 == 0 else dw 2 == 0)
    && (op == 3 || op == 4 || op == 6 || op == 7 || bits (dw 3) 0 32 == 0)
    && (match op with
      | 3 | 4 => len != 0
      | 5 => decide (8 ≤ len ∧ len ≤ 128) && len % 8 == 0
      | 6 => len % 4096 == 0
      | _ => len == 0)
    && (if msg || op == 6 then (dw 4).toNat % 16 == 0 else dw 4 == 0)
    && (if op == 1 || op == 6 then bits (dw 5) 0 8 == 0 else dw 5 == 0) && (op == 1 || dw 6 == 0)
    && (if op == 1 then bits (dw 7) 14 50 == 0 && !(dw 7).getLsbD 1 && bits (dw 7) 12 2 != 0 else dw 7 == 0)

/-- The fields that every operation has (DEDUCED, log entry 102). -/
def trCtx (dw : Nat → Word64) : BitVec 9 := bits (dw 0) 22 9
def trConn (dw : Nat → Word64) : BitVec 12 := bits (dw 0) 10 12

/-- Whether a peer entry keeps to the table of R355. -/
def peerEntryOk (e : Nat → Word64) : Bool :=
  let fam := (bits (e 0) 0 4).toNat
  (fam == 4 || fam == 6) && bits (e 0) 4 12 == 0 && bits (e 0) 48 16 == 0 && (fam == 6 || (bits (e 1) 32 32 == 0 && e 2 == 0))
    && bits (e 3) 48 16 == 0 && (e 4).toNat % 64 == 0 && decide (4 ≤ (bits (e 5) 0 4).toNat ∧ (bits (e 5) 0 4).toNat ≤ 12)
    && bits (e 5) 4 8 == 0 && bits (e 6) 32 32 == 0 && e 7 == 0

/-- The entry of the peer address table that a CONN names, or none where it refuses the CONN (R355). -/
def State.peerEntry (s : State) (d : BitVec 3) (i : Word64) : Option (List Word64) := match (s.die d).peerTab with
  | none => none
  | some (base, n) =>
    if n ≤ i.toNat then none
    else match s.osRead (base.toNat + 64 * i.toNat) 64 with
      | none => none
      | some bs =>
        let e (k : Nat) : Word64 := BitVec.ofNat 64 (dwAt bs (8 * k))
        if peerEntryOk e then some ((List.range 8).map e) else none

/-- CONN (R354 to R356, R369), or none where it is refused. -/
def State.openConn (s : State) (d : BitVec 3) (dw : Nat → Word64) : Option State :=
  let n := trConn dw
  let ctx := trCtx dw
  let keyh : BitVec 9 := bits (dw 7) 3 9
  let tss := (dw 7).getLsbD 2
  let free := match (s.die d).conn n with
    | none => true
    | some c => c.state == .idle
  let keyOk := !tss || s.slots.any (fun k => k.handle == keyh && k.ctx == some ctx && k.kind == 2)
  if !free || !keyOk then none
  else match s.peerEntry d (dw 6) with
    | none => none
    | some e =>
      let w (i : Nat) : Word64 := e.getD i 0
      let c : Conn :=
        { num := n, state := .opening, ctx := ctx, peer := e, rudi := (dw 7).getLsbD 0, tss := tss, keyh := keyh,
          ports := bits (dw 7) 12 2, statblk := w 4, subk := (bits (w 5) 0 4).toNat, subring := w 5 &&& 0xFFFFFFFFFFFFF000, subHead := 0,
          defrh := bits (w 6) 0 32, cring := dw 5, gen := 0, update := [], retx := 0, tmo := 0, ovwr := 0, fails := [], seen := [] }
      some (s.modDie d (fun x => { x with conns := x.conns.filter (fun k => k.num != n) ++ [c] }))

/-- CLOSE (R356), or none where it is refused. Messages of a connection that never was ESTABLISHED complete with STATUS 5. -/
def State.closeConn (s : State) (d : BitVec 3) (dw : Nat → Word64) : Option State := match (s.die d).conn (trConn dw) with
  | none => none
  | some c =>
    if c.ctx ≠ trCtx dw ∨ c.state = .idle then none
    else
      let s1 := s.modConn d c.num (fun k => { k with state := .closing })
      let lose (s : State) : State := (s.peerReqs d c.num).foldl (fun s r => s.loseReq r 0x0C) s
      some ((if c.state = .opening then lose (s1.endMsgs d c 5) else s1).settleConn d c.num)

/-- The message that a descriptor describes (R354). -/
def trMsg (q : QDesc) (dw : Nat → Word64) : Msg :=
  { conn := trConn dw, op := bits (dw 0) 0 8, user := bits (dw 0) 32 32, bar := (dw 0).getLsbD 8, lva := dw 1, roff := dw 2,
    rh := bits (dw 3) 0 32, len := bits (dw 3) 32 32, baraddr := dw 4, notify := (dw 0).getLsbD 9, ticket := q.ticket }

/-- WRITE, READ or SEND taken (R354, R356), or none where it is refused: it is outstanding, or completes at once where the connection is
not open or local memory faults (DEDUCED, log entry 97). -/
def State.startMsg (s : State) (d : BitVec 3) (q : QDesc) (dw : Nat → Word64) : Option State :=
  match (s.die d).conn (trConn dw) with
  | none => none
  | some c =>
    let m := trMsg q dw
    let right : Right := if m.op = 4 then .w else .r
    if c.ctx ≠ trCtx dw then none
    else some (match c.state with
      | .idle | .closing => s.endMsg d c m 5 0 0
      | .error => s.endMsg d c m 2 0 0
      | .opening | .established =>
        if s.rangeFault d c.ctx right m.lva.toNat m.len.toNat || (m.op != 4 && s.rangePoison d c.ctx m.lva.toNat m.len.toNat) then
          s.endMsg d c m 4 0 0
        else s.modDie d (fun x => { x with msgs := x.msgs ++ [m] }))

/-- REG (R354), or none where its handle is in use (DEDUCED, log entry 98). -/
def State.addReg (s : State) (d : BitVec 3) (dw : Nat → Word64) : Option State :=
  let h : Word32 := bits (dw 3) 0 32
  if (s.die d).regs.any (fun g => g.handle == h) then none
  else
    let g : Registration := { handle := h, ctx := trCtx dw, base := dw 1, len := bits (dw 3) 32 32, bar := dw 4, cring := dw 5 }
    some (s.modDie d (fun x => { x with regs := x.regs ++ [g] }))

/-- DEREG (R354), or none where the context has no such registration. -/
def State.dropReg (s : State) (d : BitVec 3) (dw : Nat → Word64) : Option State :=
  let hit (g : Registration) : Bool := g.handle == bits (dw 3) 0 32 && g.ctx == trCtx dw
  if (s.die d).regs.any hit then some (s.modDie d (fun x => { x with regs := x.regs.filter (fun g => !hit g) })) else none

/-- A descriptor that does nothing, with the STATUS of its record: in the ring of the submit ring's connection, in that which a CONN names, or
in that of the connection which the descriptor names, where its context has one (DEDUCED, log entry 95). -/
def State.failTr (s : State) (d : BitVec 3) (q : QDesc) (dw : Nat → Word64) (via : Option Conn) (status : Nat) : State :=
  let r : Record := { user := bits (dw 0) 32 32, op := descOp dw, status := status, conn := trConn dw, bytes := 0, retx := 0 }
  let own : Option Conn := via.orElse (fun _ => ((s.die d).conn (trConn dw)).bind (fun c => if c.ctx = trCtx dw then some c else none))
  let s1 := match via, descOp dw with
    | none, 1 => if s.ctxLive (trCtx dw) ∧ bits (dw 5) 0 8 = 0 then (s.putRecord d (trCtx dw) (dw 5) r).1 else s
    | _, _ => match own with
      | some c => s.connRecord d c r
      | none => s
  s1.ticketDone q.ticket

/-- A descriptor refused with STATUS 6 (R354) (DEDUCED, log entry 95). -/
def State.refuseTr (s : State) (d : BitVec 3) (q : QDesc) (dw : Nat → Word64) (via : Option Conn) : State := s.failTr d q dw via 6

/-- A descriptor abandoned in its queue with STATUS 5 (R407): a message of a connection of its context ends as R359 gives, any other operation
leaves its record alone (DEDUCED, log entry 109). -/
def State.abandonTr (s : State) (d : BitVec 3) (q : QDesc) (dw : Nat → Word64) : State :=
  match (s.die d).conn (trConn dw) with
  | some c => if 3 ≤ descOp dw ∧ descOp dw ≤ 5 ∧ c.ctx = trCtx dw then s.endMsg d c (trMsg q dw) 5 0 0 else s.failTr d q dw none 5
  | none => s.failTr d q dw none 5

/-- A transport descriptor acted on. The ticket of a message completes with it, that of any other operation now (DEDUCED, log entry 95). -/
def State.transportDo (s : State) (d : BitVec 3) (q : QDesc) (dw : Nat → Word64) (via : Option Conn) : State :=
  let stray := match via with
    | some c => c.ctx != trCtx dw
    | none => false
  let done (r : Option State) : Option State := r.map (fun s1 => s1.ticketDone q.ticket)
  let r : Option State :=
    if !transportDescOk dw || !s.ctxLive (trCtx dw) || stray then none
    else match descOp dw with
      | 1 => done (s.openConn d dw)
      | 2 => done (s.closeConn d dw)
      | 6 => done (s.addReg d dw)
      | 7 => done (s.dropReg d dw)
      | _ => s.startMsg d q dw
  r.getD (s.refuseTr d q dw via)

/-- Whether a descriptor can be acted on now: the ways to the memory that it names are UP, to the entry of the peer address table or the local
buffer of a message (R352), and the status block of a connection that a CONN opens again is not half written (R360) (DEDUCED, log entry
100). -/
def State.trUp (s : State) (d : BitVec 3) (dw : Nat → Word64) : Bool := match descOp dw with
  | 1 => (match (s.die d).peerTab with
    | some (base, _) => s.physUp d (base.toNat + 64 * (dw 6).toNat) 64
    | none => true) && (match (s.die d).conn (trConn dw) with
    | some c => c.state != .idle || c.update.isEmpty
    | none => true)
  | 3 | 4 | 5 => match (s.die d).conn (trConn dw) with
    | some c => s.rangeUp d c.ctx (dw 1).toNat (bits (dw 3) 32 32).toNat
    | none => true
  | _ => true

/-- The transport engine of a die takes a descriptor whose OP `mine` accepts. Where the engine is not ready the descriptor completes
with no other effect: it has no STATUS field (R443) (DEDUCED, log entry 95). -/
def State.serveTr (s : State) (d : BitVec 3) (mine : Nat → Bool) : Result :=
  match (s.die d).queue 3 with
  | [] => .next s
  | q :: rest =>
    match q.hole with
    | some pa => .fault (.noSuchAddress pa)
    | none =>
      let s0 := s.settleDie d
      let dw (i : Nat) : Word64 := s0.wordOf d q i
      if !s.descUp d q.desc || !mine (descOp dw) || !s0.trUp d dw then .next s
      else
        let s1 := s0.modDie d (fun x => { x with engq := x.engq.set 3 rest })
        .next (if (s1.die d).ready.getLsbD (engineReady 3) then s1.transportDo d q dw none else s1.ticketDone q.ticket)

/-- `CONN` (R356). An OP that is none of R354 is refused here (DESIGN CHOICE, log entry 48). -/
def execConn (d : BitVec 3) (s : State) : Result := s.serveTr d (fun op => op == 1 || op == 0 || decide (7 < op))

/-- `CLOSE` (R356). -/
def execClose (d : BitVec 3) (s : State) : Result := s.serveTr d (fun op => op == 2)

/-- `TRANSPORT_WRITE` (R354). -/
def execTransportWrite (d : BitVec 3) (s : State) : Result := s.serveTr d (fun op => op == 3)

/-- `TRANSPORT_READ` (R354). -/
def execTransportRead (d : BitVec 3) (s : State) : Result := s.serveTr d (fun op => op == 4)

/-- `TRANSPORT_SEND` (R354). -/
def execTransportSend (d : BitVec 3) (s : State) : Result := s.serveTr d (fun op => op == 5)

/-- `REG` (R354). -/
def execReg (d : BitVec 3) (s : State) : Result := s.serveTr d (fun op => op == 6)

/-- `DEREG` (R354). -/
def execDereg (d : BitVec 3) (s : State) : Result := s.serveTr d (fun op => op == 7)

/-- `SUBMIT_RING_NOTIFY` (R358): the slot at HEAD is read and acted on, once TAIL passes it, and HEAD advances
(DEDUCED, log entries 99, 102). -/
def execSubmitRingNotify (d : BitVec 3) (n : BitVec 12) (s : State) : Result :=
  match (s.die d).conn n with
  | none => .next s
  | some c =>
    let s0 := s.settleDie d
    if c.state = .idle ∨ s0.rangeUp d c.ctx c.subring.toNat (64 + 64 * 2 ^ c.subk) = false then .next s
    else match (s0.xlateEngine d c.ctx .r c.subring).1 with
      | .error _ => .next s
      | .ok x =>
        let tail : Word32 := bits (s0.dwordAt x.key x.pa) 0 32
        if tail = c.subHead then .next s
        else
          let va := c.subring + BitVec.ofNat 64 (64 + 64 * (c.subHead.toNat % 2 ^ c.subk))
          let q : QDesc := { desc := .virt c.ctx va, ticket := none, sel := none, read := [] }
          if !s0.trUp d (s0.descDword d q.desc) then .next s else
          let s1 := s0.transportDo d q (s0.descDword d q.desc) (some c)
          let s2 := s1.modConn d n (fun k => { k with subHead := k.subHead + 1 })
          .next (s2.putDesc d (.virt c.ctx c.subring) 8 4 (c.subHead + 1).toNat)

/-! ### What the peers do (R356, R357, R359, R361) -/

/-- Whether a connection exchanges packets. -/
def Conn.isOpen (c : Conn) : Bool := c.state == .established || c.state == .closing

/-- Whether a port that a connection uses is UP: a link that is not carries no frame (R352, R355). -/
def State.connUp (s : State) (d : BitVec 3) (c : Conn) : Bool :=
  let x := s.die d
  (c.ports.getLsbD 0 && x.eth[0].state == .up) || (c.ports.getLsbD 1 && x.eth[1].state == .up)

/-- `CONNECTION_ANSWER` (R356) (DESIGN CHOICE, log entry 82). -/
def execConnectionAnswer (d : BitVec 3) (n : BitVec 12) (s : State) : Result :=
  .next (s.modConn d n (fun c => if c.state = .opening ∧ s.connUp d c = true then { c with state := .established } else c))

/-- `MESSAGE_COMPLETION` (R359): the `k`-th message is acknowledged by the peer, or refused. The bytes of a READ are placed first
(DESIGN CHOICE, log entry 82). -/
def execMessageCompletion (d : BitVec 3) (k : Nat) (e : MessageEnd) (s : State) : Result :=
  match (s.die d).msgs[k]? with
  | none => .next s
  | some m => match (s.die d).conn m.conn with
    | none => .next s
    | some c =>
      let len := m.len.toNat
      let s1 := s.modDie d (fun x => { x with msgs := x.msgs.eraseIdx k })
      if !c.isOpen || !s.connUp d c || decide (len < e.bytes.toNat) || !s.rangeUp d c.ctx m.lva.toNat len then .next s
      else if e.refused then .next (s1.endMsg d c m 1 e.bytes.toNat e.retx)
      else if m.op ≠ 4 then .next (s1.endMsg d c m 0 len e.retx)
      else if e.data.length ≠ len then .next s
      else if s.rangeFault d c.ctx .w m.lva.toNat len then .next (s1.endMsg d c m 4 0 e.retx)
      else .next ((s1.engineWrite d c.ctx m.lva.toNat e.data (len + 1)).endMsg d c m 0 len e.retx)

/-- `RETRANSMISSION_TIMEOUT` (R356): the packet is sent again, until its retransmission has failed 16 times: then the connection is in
ERROR, its messages complete with STATUS 2, and its PEER requests fail (R361)
(DESIGN CHOICE, log entry 82; DEDUCED, log entries 99, 103). -/
def execRetransmissionTimeout (d : BitVec 3) (n : BitVec 12) (pkt : Nat) (s : State) : Result :=
  match (s.die d).conn n with
  | none => .next s
  | some c =>
    if c.state = .idle ∨ c.state = .error then .next s
    else
      let f := (aget c.fails pkt).getD 0
      if f < 16 then
        .next (s.modConn d n (fun c => { c with fails := aset c.fails pkt (f + 1), tmo := satInc c.tmo, retx := satInc c.retx }))
      else
        let s1 := s.modConn d n (fun c => { c with state := .error, tmo := satInc c.tmo })
        let s2 := s1.endMsgs d c 2
        .next ((s2.peerReqs d n).foldl (fun s r => s.loseReq r 0x0C) s2)

/-- The double-words of a status block, the first with an odd GEN, then the others, then the first with the next even GEN (R360)
(DEDUCED, log entry 100). -/
def Conn.blockWrites (c : Conn) (m : LinkMeasure) : List (Nat × Word64) :=
  let code : Word32 := match c.state with
    | .idle => 0
    | .opening => 1
    | .established => 2
    | .closing => 3
    | .error => 4
  [(0, code ++ (c.gen + 1)), (1, m.cwnd), (2, m.infl), (3, c.retx ++ (0 : BitVec 16) ++ m.ecnf), (4, c.tmo ++ m.rtt), (5, c.ovwr.setWidth 64),
    (6, 0), (7, 0), (0, code ++ (c.gen + 2))]

/-- RETX with packets sent again added; it saturates (R360) (DEDUCED, log entry 100). -/
def Conn.resend (c : Conn) (n : Word32) : Conn :=
  { c with retx := if 2 ^ 32 ≤ c.retx.toNat + n.toNat then 0xFFFFFFFF else c.retx + n }

/-- `STATUS_BLOCK_UPDATE` (R360): the next double-word of an update is written, and an update with the values measured begins where none is
under way and the connection is not IDLE; one under way ends in any state (DEDUCED, log entry 100) (DESIGN CHOICE, log entry 82). -/
def execStatusBlockUpdate (d : BitVec 3) (n : BitVec 12) (m : LinkMeasure) (s : State) : Result :=
  match (s.die d).conn n with
  | none => .next s
  | some c =>
    if c.update.isEmpty && c.state == .idle then .next s
    else
      let c1 := if c.update.isEmpty then c.resend m.resent else c
      match if c.update.isEmpty then c1.blockWrites m else c.update with
      | [] => .next s
      | (i, v) :: rest =>
        .next ((s.modConn d n (fun k => { k with update := rest, retx := c1.retx, gen := if i = 0 then bits v 0 32 else k.gen })).engineWrite d
          c.ctx (c.statblk.toNat + 8 * i) (natToBytes 8 v.toNat) 2)

/-- A message completed at its target, where NOTIFY was set (R359). -/
def State.targetDone (s : State) (d : BitVec 3) (c : Conn) (g : Registration) (op bytes : Nat) : State :=
  let (v, s1) := if g.bar = 0 then (0, s)
    else match s.engineArrive d g.ctx g.bar with
      | (.ok true, s1) => (0, s1)
      | (.ok false, s1) => (3, s1)
      | (.error _, s1) => (4, s1)
  s1.recordIn d c g.ctx g.cring { user := 0, op := op, status := v, conn := c.num, bytes := bytes, retx := 0 }

/-- Whether an arriving packet is placed: a duplicate is not under RUD, and may be under RUDI (R357, DESIGN CHOICE, log entry 5). -/
def State.placesAgain (s : State) (c : Conn) (msg idx : Nat) : Bool × Bool × State :=
  let dup := c.seen.any (fun p => p.1 == msg && p.2.1 == idx)
  if !dup then (true, false, s)
  else if !c.rudi then (false, true, s)
  else
    let (n, s1) := s.freshNat
    ((Config.freeValue n).getLsbD 0, true, s1)

/-- `TRANSPORT_WRITE_PACKET` (R357, R359): a packet outside its registration, or that faults, is refused to the peer and places nothing. The
message completes once packets with all its bytes have been placed. -/
def execTransportWritePacket (d : BitVec 3) (p : WritePacket) (s : State) : Result :=
  match (s.die d).conn p.conn, (s.die d).regs.find? (fun g => g.handle = p.handle) with
  | some c, some g =>
    let off := p.roff.toNat + p.offset.toNat
    let va := g.base.toNat + off
    let n := p.data.length
    let (places, dup, s1) := s.placesAgain c p.msg p.idx
    if !c.isOpen || !s.connUp d c || decide (g.len.toNat < off + n) || !s.rangeUp d g.ctx va n || s.rangeFault d g.ctx .w va n then .next s
    else if !places then .next s1
    else
      let s2 := s1.engineWrite d g.ctx va p.data (n + 1)
      if dup then .next s2
      else
        let seen := (p.msg, p.idx, n) :: c.seen
        let s3 := s2.modConn d c.num (fun c => { c with seen := seen })
        let total := ((seen.filter (fun q => q.1 == p.msg)).map (fun q => q.2.2)).sum
        .next (if total == p.len && p.notify then s3.targetDone d c g 3 total else s3)
  | _, _ => .next s

/-- The descriptor address of a channel of a context: the first kernel of the context that has it bound, be it saved, those on the die of
the registration before the others (DEDUCED, log entry 98). -/
def State.channelOf (s : State) (d : BitVec 3) (ctx : BitVec 9) (n : BitVec 6) : Option Word64 :=
  let mine := s.regions.filter (fun r => r.launch.ctx == ctx)
  (mine.filter (fun r => r.die == d) ++ mine.filter (fun r => r.die != d)).findSome? (fun r => match r.image with
    | some img => img.seq.channel n
    | none => if r.placed then (s.seq r.lead).channel n else none)

/-- `TRANSPORT_SEND_PACKET` (R303, R357): one unit offered to a channel of the registration's context; no outcome raises a fault
(DEDUCED, log entry 98). -/
def execTransportSendPacket (d : BitVec 3) (p : SendPacket) (s : State) : Result :=
  match (s.die d).conn p.conn, (s.die d).regs.find? (fun g => g.handle = p.handle) with
  | some c, some g =>
    let n := p.data.length
    let (places, dup, s1) := s.placesAgain c p.msg 0
    if !c.isOpen || !s.connUp d c || decide (n < 8 ∨ 128 < n ∨ n % 8 ≠ 0) then .next s
    else if !places then .next s1
    else match s.channelOf d g.ctx p.chan with
      | none => .next s
      | some va => if !s1.rangeUp d g.ctx va.toNat 64 then .next s else match s1.xlateEngine d g.ctx .rw va with
        | (.error _, _) => .next s
        | (.ok at_, s2) =>
          let ws := (List.range (n / 8)).map (fun i => BitVec.ofNat 64 (dwAt p.data (8 * i)))
          match s2.softOffer d g.ctx va at_ (unitOf (sendTag (BitVec.ofNat 28 p.msg)) ws) with
          | (.done out _, s3) =>
            let s4 := if dup then s3 else s3.modConn d c.num (fun c => { c with seen := (p.msg, 0, n) :: c.seen })
            .next (if p.notify && !dup && out != .lost then s4.targetDone d c g 5 n else s4)
          | _ => .next s
  | _, _ => .next s

/-- `ETHERNET_FRAME_RECEIVE` (R353, R361): pause frames are counted and dropped, and so are frames that are too long or use what R353 does
not list; a reply to a PEER request ends it: the bytes of a read, the acknowledgement of a write, or the access fault of a refusal
(DEDUCED, log entry 101) (DESIGN CHOICE, log entry 82). -/
def execEthernetFrameReceive (d : BitVec 3) (port : Bool) (f : EthFrame) (s : State) : Result :=
  let x := s.die d
  let l := x.eth[if port then 1 else 0]'(by split <;> decide)
  if l.state ≠ .up then .next s
  else if f.pause then .next (s.setDie d { x with pauses := x.pauses + 1 })
  else if !f.uses.isEmpty || decide (9216 < f.bytes) then .next (s.setDie d { x with dropped := x.dropped + 1 })
  else match f.peerReq.bind (fun k => s.pend[k]?) with
    | none => .next s
    | some r =>
      if !inPeer r.pa || r.src.die != d || !(((x.conn (BitVec.ofNat 12 (r.pa / 2 ^ 38))).map Conn.isOpen).getD false) then .next s
      else match f.peerData with
        | none => .next ((s.loseReq r 0x0C).settleConn d (BitVec.ofNat 12 (r.pa / 2 ^ 38)))
        | some v =>
          let s1 := ({ s with pend := s.pend.erase r } : State).settleConn d (BitVec.ofNat 12 (r.pa / 2 ^ 38))
          if r.write then .next (s1.performWrite { r with bytes := [], poison := false })
          else match r.src with
            | .seq _ => .next s1
            | .cell c =>
              let bs := (natToBytes 64 v.toNat).take r.len
              .next (s1.modCell c (fun y => { y with mp := { y.mp with outs := y.mp.outs.map (fun o => o.answer r bs false) } }))

end Sys2Proof.Machine
end

