-- ==== Sys2Proof/Machine/Transfer.lean ====
section
/-!
DEFINITION. The copies of the transfer engine (R403, R428).
-/

namespace Sys2Proof.Machine

/-- The key that a handle of a copy names: 0 the resident OS's, else that of a KIND 1 slot of the context. -/
def State.copyKey (s : State) (ctx h : BitVec 9) : Option Key := if h = 0 then some s.osKey else s.keyFor ctx h

/-- Whether the descriptor of a copy may be acted on (R428). -/
def State.copyOk (s : State) (dw : Nat → Word64) : Bool :=
  let a := (dw 0).toNat
  let b := (dw 1).toNat
  let len := (bits (dw 2) 0 32).toNat
  let ctx : BitVec 9 := bits (dw 3) 0 9
  let outside (pa : Nat) (h : BitVec 9) : Bool := !(inHost pa || inPeer pa) || h == 0
  a % 64 == 0 && b % 64 == 0 && decide (64 ≤ len) && len % 64 == 0 && bits (dw 2) 50 14 == 0 && bits (dw 3) 10 46 == 0
    && bits (dw 3) 56 8 == 1 && (if (dw 3).getLsbD 9 then (dw 4).toNat % 16 == 0 else dw 4 == 0) && bits (dw 5) 0 8 == 0
    && bits (dw 6) 32 32 == 0 && bits (dw 7) 8 56 == 0 && s.ctxLive ctx && (s.copyKey ctx (bits (dw 2) 32 9)).isSome
    && (s.copyKey ctx (bits (dw 2) 41 9)).isSome && outside a (bits (dw 2) 32 9) && outside b (bits (dw 2) 41 9) && !overlap a len b len

/-- Whether the ways of a copy are UP (R352): to its source and its destination, a port of the connection of one behind a PEER page, and to its
barrier and its completion ring. -/
def State.copyUp (s : State) (d : BitVec 3) (dw : Nat → Word64) : Bool :=
  let ctx : BitVec 9 := bits (dw 3) 0 9
  let way (pa : Nat) : Bool :=
    if inPeer pa then (((s.die d).conn (BitVec.ofNat 12 (pa / 2 ^ 38))).map (s.connUp d)).getD true else s.physUp d pa (bits (dw 2) 0 32).toNat
  way (dw 0).toNat && way (dw 1).toNat && (!(dw 3).getLsbD 9 || s.rangeUp d ctx (dw 4).toNat 16)
    && (dw 5 == 0 || s.rangeUp d ctx (dw 5 &&& 0xFFFFFFFFFFFFF000).toNat (32 * ringEntries (dw 5)))

/-- The bytes of a source line, with the state after it; none for a fault. What a peer answers is not known (R361, DESIGN CHOICE, log entry 5)
(DEDUCED, log entry 103). -/
def State.copyRead (s : State) (d : BitVec 3) (key : Key) (pa : Nat) : Option (List Byte) × State :=
  if inPeer pa then
    if (((s.die d).conn (BitVec.ofNat 12 (pa / 2 ^ 38))).map Conn.isOpen).getD false then
      let bs := (List.range 8).flatMap (fun i => natToBytes 8 (Config.freeValue (s.fresh + i)).toNat)
      (some bs, { s with fresh := s.fresh + 8 })
    else (none, s)
  else if physOk pa 64 = true ∧ (inHost pa = false ∨ s.hostUp = true) then (some (s.bytesAt key pa 64), s)
  else (none, s)

/-- A destination line written; none for a fault (DEDUCED, log entry 103). -/
def State.copyWrite (s : State) (d : BitVec 3) (key : Key) (pa : Nat) (bs : List Byte) (poison : Bool) : Option State :=
  if inPeer pa then
    if (((s.die d).conn (BitVec.ofNat 12 (pa / 2 ^ 38))).map Conn.isOpen).getD false then some s else none
  else if (inStack pa || inHost pa) = true ∧ (inHost pa = false ∨ s.hostUp = true) then
    let s1 := s.putBytes key pa bs
    some (if poison then s1.setPoison (lineOf pa) else s1)
  else none

/-- `n` lines copied from line `i` on: the state, the lines copied, and whether a line met a poison mark or a fault. -/
def State.copyLines (d : BitVec 3) (skey dkey : Key) (src dst : Nat) : Nat → Nat → State → State × Nat × Bool
  | _, 0, s => (s, 0, false)
  | i, n + 1, s =>
    let a := src + 64 * i
    let b := dst + 64 * i
    let poison := (s.poisonIn a 64).isSome
    let (r, s1) := s.copyRead d skey a
    match r with
    | none =>
      let (s2, k, _) := State.copyLines d skey dkey src dst (i + 1) n s1
      (s2, k, true)
    | some bs => match s1.copyWrite d dkey b bs poison with
      | none =>
        let (s2, k, _) := State.copyLines d skey dkey src dst (i + 1) n s1
        (s2, k, true)
      | some s2 =>
        let (s3, k, bad) := State.copyLines d skey dkey src dst (i + 1) n s2
        (s3, k + 1, poison || bad)

/-- `TRANSFER_COPY` (R428). A descriptor of a TYPE that is neither 0 nor 1 is refused here (DESIGN CHOICE, log entry 48). -/
def execTransferCopy (d : BitVec 3) (s : State) : Result :=
  s.serve d 2 56 (fun dw => bits (dw 3) 56 8 != 0 && s.copyUp d dw) (fun q dw s =>
    if !s.copyOk dw then s.complete d q 56 1 2
    else
      let ctx : BitVec 9 := bits (dw 3) 0 9
      let skey := (s.copyKey ctx (bits (dw 2) 32 9)).getD s.osKey
      let dkey := (s.copyKey ctx (bits (dw 2) 41 9)).getD s.osKey
      let (s1, k, bad) := State.copyLines d skey dkey (dw 0).toNat (dw 1).toNat 0 ((bits (dw 2) 0 32).toNat / 64) s
      let base := if bad then 4 else 0
      let (v, s2) := if !(dw 3).getLsbD 9 then (base, s1)
        else match s1.engineArrive d ctx (dw 4) with
          | (.ok true, s2) => (base, s2)
          | (.ok false, s2) => (if bad then 4 else 3, s2)
          | (.error _, s2) => (4, s2)
      let r : Record := { user := bits (dw 6) 0 32, op := 8, status := v, conn := 0, bytes := 64 * k, retx := 0 }
      ((s2.putRecord d ctx (dw 5) r).1).complete d q 56 1 (if bad then 4 else 1))

end Sys2Proof.Machine
end

