-- ==== Sys2Proof/Machine/Links.lean ====
section
/-!
DEFINITION. The states of links, and what a bridge in FAULT does to the regions behind it (R351, R352).
-/

namespace Sys2Proof.Machine

/-! ### A link's state (R352, R442) -/

/-- A link of a die (DEDUCED, log entry 104). -/
def Die.link (x : Die) : LinkName → Link
  | .eth odd => x.eth[if odd then 1 else 0]'(by split <;> decide)
  | .bridge e => x.bridge[e.toNat]

def Die.setLink (x : Die) (l : LinkName) (v : Link) : Die := match l with
  | .eth odd => { x with eth := x.eth.set (if odd then 1 else 0) v (by split <;> decide) }
  | .bridge e => { x with bridge := x.bridge.set e.toNat v }

/-- The ready-map bit of a link. -/
def linkBit : LinkName → Nat
  | .eth odd => if odd then 210 else 209
  | .bridge e => 211 + e.toNat

/-- A bit of a mask set or cleared. -/
def setBit (m : BitVec 256) (i : Nat) (b : Bool) : BitVec 256 :=
  let one := BitVec.ofNat 256 (2 ^ i)
  if b then m ||| one else m &&& ~~~one

/-- Whether a link leads anywhere: a bridge port without a neighbouring die does not (R339). -/
def linkConnected (d : BitVec 3) : LinkName → Bool
  | .eth _ => true
  | .bridge e => (acrossEdge d e).isSome

/-- A link that enters a state: its ready bit is set in UP alone, and the change is an event (R352, R408, R443). -/
def State.moveLink (s : State) (d : BitVec 3) (l : LinkName) (dest : LinkState) : State :=
  let s1 := s.modDie d (fun x =>
    { x.setLink l { x.link l with state := dest, tries := 0 } with ready := setBit x.ready (linkBit l) (dest == .up && x.service) })
  s1.note d 4 0 0 0

/-- The requests discarded at a bridge in FAULT, with the freeze of their regions (R351) (DEDUCED, log entry 105). -/
def State.discardFlits (s : State) : State :=
  let lost := s.pend.filter (fun r => !inPeer r.pa && s.pathTo r.src.die r.pa == .broken)
  lost.foldl (fun s r => s.loseReq r 0x19) s

/-- An UP link that enters FAULT (DEDUCED, log entry 105). -/
def State.breakLink (s : State) (d : BitVec 3) (l : LinkName) : State :=
  let s1 := s.moveLink d l .fault
  match l with
  | .eth _ => s1
  | .bridge _ => s1.discardFlits

/-- `BRIDGE_FRAME_RECEIVE` (R351): a frame whose CRC fails is sent again, up to eight times, and each retry counts as a soft error. -/
def execBridgeFrameReceive (d : BitVec 3) (edge : BitVec 2) (crcOk : Bool) (s : State) : Result :=
  let l := (s.die d).link (.bridge edge)
  let put (n : Nat) (s : State) : State := s.modDie d (fun x => x.setLink (.bridge edge) { l with tries := n })
  if l.state ≠ .up ∨ 8 < l.tries then .next s
  else if crcOk then .next (put 0 s)
  else if l.tries < 8 then .next ((put (l.tries + 1) s).softError d 0 0)
  else .next (put 9 s)

/-- `BRIDGE_RETRY_EXHAUSTION` (R351). -/
def execBridgeRetryExhaustion (d : BitVec 3) (edge : BitVec 2) (s : State) : Result :=
  let l := (s.die d).link (.bridge edge)
  if l.state ≠ .up ∨ l.tries ≤ 8 then .next s else .next (s.breakLink d (.bridge edge))

/-- `LINK_TRAINED` (R352). -/
def execLinkTrained (d : BitVec 3) (l : LinkName) (s : State) : Result :=
  if ((s.die d).link l).state ≠ .training ∨ linkConnected d l = false then .next s else .next (s.moveLink d l .up)

/-- `LINK_TRAINING_TIMEOUT` (R352). -/
def execLinkTrainingTimeout (d : BitVec 3) (l : LinkName) (s : State) : Result :=
  if ((s.die d).link l).state ≠ .training then .next s else .next (s.breakLink d l)

/-- `LINK_FAULT` (R352): loss of alignment, or an uncorrectable FEC rate above the threshold. -/
def execLinkFault (d : BitVec 3) (l : LinkName) (s : State) : Result :=
  if ((s.die d).link l).state ≠ .up then .next s else .next (s.breakLink d l)

end Sys2Proof.Machine
end

