-- ==== Sys2Proof/Machine/Module.lean ====
section
/-!
DEFINITION. The module as a whole: power, resets, the host port, the ready map, islands, errors in storage, and the watchdogs (R401 to
R407, R440 to R445).
-/

namespace Sys2Proof.Machine

/-! ### Power and resets (R406 to R408) -/

/-- The state at power-on: the fuse maps stay, and so do the host's memory and what the model holds of its own (DEDUCED, log entry 108). -/
def State.restart (s : State) (keepBox : Bool) : State :=
  let die (x : Die) : Die := { Die.reset with
    fuse := x.fuse, bb := if keepBox then x.bb else [], eseq := if keepBox then x.eseq else 0 }
  let (n, s1) := s.freshNat
  { State.reset with
    mem := s1.mem.filter (fun c => inHost c.1), dies := s1.dies.map die,
    slots := [{ handle := 0, ctx := none, kind := 1, key := .made n, pub := [] }], turns := s1.turns, seqTurn := s1.seqTurn,
    nodeTurn := s1.nodeTurn, polTurn := s1.polTurn, rmTurn := s1.rmTurn, fresh := s1.fresh }

/-- A warm reset (R406): the black-box records stay, and each die records it (DEDUCED, log entry 108). -/
def State.warmReset (s : State) : State := (namedDies 0xFF).foldl (fun s d => s.note d 7 0 0 0) (s.restart true)

/-- `POWER_ON` (R406) (DEDUCED, log entry 113). -/
def execPowerOn (s : State) : Result := .next (if s.powered then s else s.restart false)

/-- `POWER_OFF` (R408) (DEDUCED, log entry 113). -/
def execPowerOff (s : State) : Result := .next { s.restart false with powered := false }

/-- `WARM_RESET` (R406) (DEDUCED, log entry 108). -/
def execWarmReset (s : State) : Result := .next s.warmReset

/-! ### The host port (R407, R440, R441) -/

/-- A host ring. -/
def State.ring (s : State) (e d : BitVec 3) : HostRing := (aget s.rings (e, d)).getD HostRing.reset
def State.setRing (s : State) (e d : BitVec 3) (r : HostRing) : State := { s with rings := aset s.rings (e, d) r }

/-- Whether a ring exists and accepts entries: while the module is host-attached every ring does, but the security rings of dies 1 to 7
never do (R441). -/
def State.ringOpen (s : State) (e d : BitVec 3) : Bool :=
  decide (e.toNat < 6) && (e != 4 || d == 0) && (!s.selfHosted || (s.ring e d).isOpen)

/-- `HOST_RING_TAIL_WRITE` (R441). -/
def execHostRingTailWrite (e d : BitVec 3) (tail : Word32) (s : State) : Result :=
  .next (if s.ringOpen e d && s.hostUp then s.setRing e d { s.ring e d with tail := tail } else s)

/-- `HOST_RING_ENTRY_TAKE` (R441): an entry that R429 would refuse is skipped, and one that finds its engine queue full stays. -/
def execHostRingEntryTake (e d : BitVec 3) (s : State) : Result :=
  let r := s.ring e d
  if h : e.toNat < 6 then
    if !s.ringOpen e d || r.head == r.tail then .next s
    else
      let at_ := (aget r.entries (r.head.toNat % 8184)).getD 0
      let s1 := s.setRing e d { r with head := r.head + 1 }
      if at_.toNat % 64 ≠ 0 then .next s1
      else if 64 ≤ ((s.die d).queue ⟨e.toNat, h⟩).length then .next s
      else .next (s1.enqueueDesc d ⟨e.toNat, h⟩ { desc := .phys at_, ticket := none, sel := some d, read := [] })
  else .next s

/-- `HOST_BAR_WRITE` (R441, R442): a write of half an entry of a ring; every other location ignores writes. -/
def execHostBarWrite (bar2 : Bool) (off : BitVec 24) (v : Word32) (s : State) : Result :=
  let n := off.toNat
  let ring := n / 0x10000
  let o := n % 0x10000
  if !bar2 || !s.hostUp || decide (48 ≤ ring) || decide (o < 64) || o % 4 != 0 then .next s
  else
    let e : BitVec 3 := BitVec.ofNat 3 (ring / 8)
    let d : BitVec 3 := BitVec.ofNat 3 ring
    let i := (o - 64) / 8
    let r := s.ring e d
    let old := (aget r.entries i).getD 0
    let new : Word64 := if (o - 64) % 8 = 0 then bits old 32 32 ++ v else v ++ bits old 0 32
    .next (s.setRing e d { r with entries := aset r.entries i new })

/-- A byte of a host ring as the host reads it: TAIL, HEAD, OPEN and the entries; the rest reads zero (R441). -/
def State.ringByte (s : State) (e d : BitVec 3) (o : Nat) : Byte :=
  let r := s.ring e d
  if o < 4 then bits r.tail (8 * o) 8
  else if 8 ≤ o ∧ o < 12 then bits r.head (8 * (o - 8)) 8
  else if o = 12 then (if s.ringOpen e d then 1 else 0)
  else if 64 ≤ o ∧ o < 65536 then bits ((aget r.entries ((o - 64) / 8)).getD 0) (8 * ((o - 64) % 8)) 8
  else 0

/-- What a read of a host's BAR gives, byte by byte; it changes nothing. BAR0 holds the management block (R440, R442) and BAR2 the rings, and reads
zero behind them (R441). What BAR0 reads behind the management block is not stated: none (DESIGN CHOICE, log entry 152). -/
def State.hostBarByte (s : State) (bar2 : Bool) (off : BitVec 24) : Option Byte :=
  let n := off.toNat
  if bar2 then
    if n < 0x300000 then some (s.ringByte (BitVec.ofNat 3 (n / 0x80000)) (BitVec.ofNat 3 (n / 0x10000)) (n % 0x10000)) else some 0
  else if n < 0x8000 then some (s.mgmtByte n) else none

/-- `HOST_LINK_UP` (R407). -/
def execHostLinkUp (s : State) : Result := .next { s with hostUp := true }

/-- `RESIDENT_OS_START` (R440). -/
def execResidentOsStart (s : State) : Result := .next { s with selfHosted := true }

/-- Whether a descriptor was queued from the host. -/
def QDesc.fromHost (q : QDesc) : Bool := q.ticket.isNone && q.sel.isSome

/-- A descriptor of an engine abandoned with STATUS 5, in the place that its table gives (DEDUCED, log entry 109). -/
def State.abandonDesc (s : State) (d : BitVec 3) (e : Fin 6) (q : QDesc) : State :=
  if q.hole.isSome then s
  else
    let dw (i : Nat) : Word64 := s.descDword d q.desc i
    match e.val with
    | 0 => s.complete d q (if descOp dw = 0 then 0 else 32) 1 5
    | 2 => s.complete d q (if bits (dw 3) 56 8 = 0 then 16 else 56) 1 5
    | 3 => s.abandonTr d q dw
    | _ => s.complete d q 56 1 5

/-- The commands that the host has queued for an engine of a die complete with STATUS 5 (DEDUCED, log entry 109). -/
def State.dropHostQueue (s : State) (d : BitVec 3) (e : Fin 6) : State :=
  let q := (s.die d).queue e
  ((q.filter QDesc.fromHost).foldl (fun s x => s.abandonDesc d e x) s).modDie d (fun x => { x with
    engq := x.engq.set e (q.filter (fun x => !x.fromHost)) })

/-- The entries of an open ring that the device has not taken complete with STATUS 5; those that R429 would refuse are skipped (R441)
(DEDUCED, log entry 109). -/
def State.dropRing (s : State) (e d : BitVec 3) : State :=
  let r := s.ring e d
  if h : e.toNat < 6 then
    if !s.ringOpen e d then s
    else (List.range (min (r.tail - r.head).toNat 8184)).foldl (fun s i =>
      let at_ := (aget r.entries ((r.head + BitVec.ofNat 32 i).toNat % 8184)).getD 0
      if at_.toNat % 64 ≠ 0 then s
      else s.abandonDesc d ⟨e.toNat, h⟩ { desc := .phys at_, ticket := none, sel := some d, read := [] }) s
  else s

/-- A host hot reset of a self-hosted module (R407): the PCIe function and its engine queues alone. The interrupt that it gives the row
managers is the base architecture's (DEDUCED, log entry 109). -/
def State.hotReset (s : State) : State :=
  let s0 := (namedDies 0xFF).foldl (fun s d => (List.finRange 6).foldl (fun s e => s.dropHostQueue d e) s) s
  let s1 := (s0.rings.map Prod.fst).foldl (fun s p => s.dropRing p.1 p.2) s0
  let held := s1.ctxs.flatMap (fun p => p.2.waiting.filter (fun w => w.2.fromHost))
  let s2 := held.foldl (fun s w => s.abandonDesc w.1 0 w.2) s1
  { s2 with
    ctxs := s2.ctxs.map (fun p => (p.1, { p.2 with waiting := p.2.waiting.filter (fun w => !w.2.fromHost) })), rings := [],
    hostUp := false }

/-- `HOST_HOT_RESET` (R406, R407) (DEDUCED, log entry 109). -/
def execHostHotReset (s : State) : Result := .next (if s.selfHosted then s.hotReset else s.warmReset)

/-! ### The ready map (R443) -/

/-- Whether a ready-map bit is one that its function sets by itself: links set theirs in UP, and the sequencer of a quadrant that is fused
off never does. -/
def readyBitOk (x : Die) (d : BitVec 3) (bit : Nat) : Bool :=
  let q := bit - 192
  let dead := (List.range 16).all (fun i => x.fuse.getLsbD (16 * (4 * (q / 4) + i / 4) + 4 * (q % 4) + i % 4))
  decide (bit < 220) && !decide (209 ≤ bit ∧ bit ≤ 214) && (bit != 218 || d == 0) && !(decide (192 ≤ bit ∧ bit < 208) && dead)

/-- `FUNCTION_READY` (R443). -/
def execFunctionReady (d : BitVec 3) (bit : BitVec 8) (s : State) : Result :=
  let x := s.die d
  .next (if x.service && readyBitOk x d bit.toNat then s.setDie d { x with ready := setBit x.ready bit.toNat true } else s)

/-! ### The watchdogs (R401, R402) -/

/-- `WATCHDOG_EXPIRY` (R401). -/
def execWatchdogExpiry (n : Nat) (s : State) : Result :=
  match s.region n with
  | none => .next s
  | some r =>
    if r.freezing || !(r.kstate == .active || r.kstate == .resident) || decide (r.wdog < 2 ^ r.wdogLog) then .next s
    else .next (s.raiseFault r.leadCell (FaultReg.ofCode 0x1A))

/-- Whether a request leaves its die: to another die's stacks, or to a PEER page (DEDUCED, log entry 106). -/
def SliceReq.isRemote (r : SliceReq) : Bool := inPeer r.pa || homeDie r.src.die r.pa != r.src.die

/-- Whether a request that a requester has made in a cycle is as old as the limit of its region lets it be (R402)
(DEDUCED, log entry 106). -/
def State.agedFor (s : State) (a : Acquirer) (born : Nat) : Bool :=
  decide (born + 2 ^ ((s.regionOfAcquirer a).map Region.remLog).getD 26 ≤ s.cyc)

/-- The first read or write of a requester that left its die and has aged. -/
def State.agedSlice (s : State) (a : Acquirer) : Option SliceReq :=
  let src : ReqSrc := match a with
    | .cell c => .cell c
    | .seq q => .seq q
  s.pend.find? (fun r => r.src == src && r.isRemote && s.agedFor a r.born)

/-- The first atomic of a cell that left its die and has aged. -/
def State.agedAtom (s : State) (c : CellId) : Option AtomReq :=
  (s.cell c).mp.atoms.find? (fun t => homeDie c.die t.pa != c.die && s.agedFor (.cell c) t.born)

/-- Whether a query of a requester at a cell of another die has aged. -/
def State.agedQuery (s : State) (a : Acquirer) : Bool :=
  s.queries.any (fun x => x.who == a && x.entry.src.die != acquirerDie a && s.agedFor a x.born)

/-- Whether what a sequencer waits for lies on another die, and has aged: an access that a bridge holds, or a request to the security
controller, which stands on die 0 (R370, R371, R443) (DEDUCED, log entry 106). -/
def State.agedWait (s : State) (q : BitVec 7) : Bool :=
  let far := match (s.seq q).wait with
    | .sigv .. | .keyh .. => seqDie q != 0
    | w => w == .bridge
  far && ((s.seq q).held.map (fun h => s.agedFor (.seq q) h.2)).getD false

/-- Whether a `cfgld` fetch of the region that a sequencer leads reads from another die, and has aged. -/
def State.agedFetch (s : State) (q : BitVec 7) : Bool := match s.regionOfSeq q with
  | none => false
  | some r => r.fetches.any (fun f => s.agedFor (.seq q) f.born && (match (s.xlateEngine r.die r.launch.ctx .r f.addr).1 with
      | .ok x => homeDie r.die x.pa != r.die
      | .error _ => false))

/-- The fault 0x1B of a requester, or none while no request of it that left its die has aged (R391, R402) (DEDUCED, log entry 106). -/
def State.remoteFault (s : State) : Acquirer → Option State
  | .cell c => match s.agedSlice (.cell c), s.agedAtom c with
    | some r, _ => some (s.raiseFault c (r.fault 0x1B))
    | none, some t => some (s.raiseFault c (mpFault 0x1B t.slot t.item t.va 2 t.ivec))
    | none, none => if s.agedQuery (.cell c) then some (s.acquirerFault 0x1B (.cell c)) else none
  | .seq q =>
    if (s.agedSlice (.seq q)).isSome || s.agedQuery (.seq q) || s.agedWait q || s.agedFetch q then some (s.seqFault q 0x1B 0)
    else none

/-- `REMOTE_TIMEOUT` (R402): no reply has come within the limit of the requester's region (DEDUCED, log entry 106). -/
def execRemoteTimeout (a : Acquirer) (s : State) : Result := .next ((s.remoteFault a).getD s)

/-! ### Errors in storage (R403 to R405) -/

/-- `PATROL_SCRUB` (R372, R403): a line read within the scrubbing quota of its die (DEDUCED, log entry 107). -/
def execPatrolScrub (line : Nat) (found : ScrubResult) (s : State) : Result :=
  let d := homeDie 0 (64 * line)
  let x := s.die d
  if !inStack (64 * line) || (x.quotas[0] != 0xFFFFFFFF && decide (x.quotas[0].toNat ≤ x.scrubbed)) then .next s
  else
    .next ((s.setDie d { x with scrubbed := x.scrubbed + 1 }).eccAt line found)

/-- `CELL_STORE_ECC_ERROR` (R404). -/
def execCellStoreEccError (at_ : EccSite) (double : Bool) (s : State) : Result :=
  match at_ with
  | .cellStore c => .next (if double then s.raiseFault c (FaultReg.ofCode 0x1C) else s.softError c.die (s.ctxOfCell c) 0)
  | .seqClean q => .next (if double then s else s.softError (seqDie q) (s.seq q).ctx 0)
  | .seqDirty q line =>
    .next (if double then (s.setPoison line).seqFault q 0x1D 0 else s.softError (seqDie q) (s.seq q).ctx (BitVec.ofNat 64 (64 * line)))

/-- The OS instance of a die halts (R405): every context with a region there is terminated on every die, and the die leaves service
(DEDUCED, log entry 113). -/
def State.osHalt (s : State) (d : BitVec 3) : State :=
  let s1 := (s.modDie d (fun x => { x with service := false, ready := 0, dec := none })).note d 6 0 0 0
  let ctxs := ((s1.regions.filter (fun r => r.die == d)).map (fun r => r.launch.ctx)).eraseDups
  ctxs.foldl (fun s n => if s.ctxLive n then s.terminate d n else s) s1

/-- `ROW_MANAGER_CACHE_ERROR` (R405). The base architecture has two access-fault exceptions of data, and which one is taken is left open
(DESIGN CHOICE, log entry 5) (PRESUMED, log entry 23) (DESIGN CHOICE, log entry 110). -/
def execRowManagerCacheError (m : BitVec 10) (e : RmCacheError) (s : State) : Result :=
  let d : BitVec 3 := bits m 7 3
  match e with
  | .correctable => .next (s.softError d 0 0)
  | .cleanLine => .next s
  | .tenantDirty line =>
    let (n, s1) := (s.setPoison line).freshNat
    let cause := if (Config.freeValue n).getLsbD 0 then 7 else 5
    .next (s1.setRm m ((s1.rm m).trap cause (BitVec.ofNat 64 (64 * line))))
  | .osDirty => .next (if (s.die d).service then s.osHalt d else s)

/-! ### Islands (R444, R445) -/

/-- The blocks of an island, as a die and a block number (DESIGN CHOICE, log entry 6). -/
def islandBlocks (i : Nat) : List (BitVec 3 × Nat) :=
  (List.range 2048).filterMap (fun n => if (Config.islandOf (n / 256) (n % 256)).val = i then some (BitVec.ofNat 3 (n / 256), n % 256) else none)

/-- Whether a region holds a block of an island (DESIGN CHOICE, log entry 6). -/
def Region.inIsland (r : Region) (bs : List (BitVec 3 × Nat)) : Bool :=
  r.placed && bs.any (fun p => r.covers p.1 (BitVec.ofNat 4 p.2) (BitVec.ofNat 4 (p.2 / 16)))

/-- Whether an island serves a function that is ready (R443, R444) (DESIGN CHOICE, log entry 6). -/
def State.servesReady (s : State) (i : Nat) : Bool :=
  (List.finRange 8).any (fun d => (List.range 220).any (fun b => s.dies[d].ready.getLsbD b && (Config.islandServing d.val b).val == i))

/-- `ISLAND_LEAVES_ON` (R444): an island none of whose blocks is in a region and that serves no ready function. -/
def execIslandLeavesOn (i : BitVec 10) (off : Bool) (s : State) : Result :=
  let bs := islandBlocks i.toNat
  if decide (544 ≤ i.toNat) || s.regions.any (fun r => r.inIsland bs) || s.servesReady i.toNat
      || (aget s.islands i.toNat).getD .on != .on then .next s
  else .next { s with islands := aset s.islands i.toNat (if off then .off else .ret) }

/-- `ISLAND_WAKE` (R444) (DEDUCED, log entry 111). -/
def execIslandWake (i : BitVec 10) (s : State) : Result := .next { s with islands := adel s.islands i.toNat }

/-- `FREQUENCY_STEP` (R445): the island runs 50 MHz slower, and the event holds the cause, whose code is left open (DESIGN CHOICE, log
entry 5). -/
def execFrequencyStep (i : BitVec 10) (thermal : Bool) (s : State) : Result :=
  match islandBlocks i.toNat with
  | [] => .next s
  | (d, _) :: _ =>
    .next (({ s with freqSteps := aset s.freqSteps i.toNat ((aget s.freqSteps i.toNat).getD 0 + 1) } : State).event d 9 0
      (Config.stepCause thermal) 0 0)

/-- `THERMAL_STOP` (R445): the island stops, and each region with a block in it freezes; the fault is that of the first such block's
north-west cell (DEDUCED, log entry 111). -/
def execThermalStop (i : BitVec 10) (s : State) : Result :=
  let bs := islandBlocks i.toNat
  if bs.isEmpty then .next s
  else
    let hit := s.regions.filter (fun r => r.inIsland bs)
    let s1 : State := { s with islands := aset s.islands i.toNat .ret }
    .next (hit.foldl (fun s r =>
      match bs.find? (fun p => r.covers p.1 (BitVec.ofNat 4 p.2) (BitVec.ofNat 4 (p.2 / 16))) with
      | none => s
      | some p => s.raiseFault { die := p.1, y := BitVec.ofNat 4 (p.2 / 16), x := BitVec.ofNat 4 p.2, n := 0 } (FaultReg.ofCode 0x1E)) s1)

end Sys2Proof.Machine
end

