-- ==== Sys2Proof/Machine/Management.lean ====
section
/-!
DEFINITION. Management and security descriptors (R367 to R369, R393, R401, R402, R406, R437 to R439, R441).
-/

namespace Sys2Proof.Machine

/-! ### Management descriptors (R437) -/

/-- The fields of a management descriptor (DEDUCED, log entry 54). -/
def mgDie (dw : Nat → Word64) : BitVec 3 := bits (dw 0) 8 3
def mgTarget (dw : Nat → Word64) : Nat := (bits (dw 0) 16 48).toNat

/-- The management engine of a die takes a descriptor that `mine` accepts by OP and argument; `body` answers its STATUS and the state
(DESIGN CHOICE, log entry 22). One for a die whose management engine is not ready is refused (R443). -/
def State.serveMg (s : State) (d : BitVec 3) (mine : Nat → Word64 → Bool) (body : (Nat → Word64) → State → Nat × State) : Result :=
  s.serve d 5 56 (fun dw => mine (descOp dw) (dw 1)) (fun q dw s =>
    let (v, s1) := if (s.die (mgDie dw)).ready.getLsbD 219 then body dw s else (2, s)
    s1.complete d q 56 1 v)

/-- The region that a descriptor's target names on its die. -/
def State.mgRegion (s : State) (dw : Nat → Word64) : Option Region :=
  if 2 ^ 32 ≤ mgTarget dw then none
  else match s.regionAt (BitVec.ofNat 32 (mgTarget dw)) with
    | none => none
    | some r => if r.die = mgDie dw then some r else none

/-- RECOVER of a region (R393, R397, R437): 2 where none is FROZEN there, 3 for an action that the fault does not allow, 4 while its handler
runs, or for a second DELIVER (DEDUCED, log entry 69). -/
def State.mgRecover (s : State) (dw : Nat → Word64) (action : Nat) : Nat × State := match s.mgRegion dw with
  | none => (2, s)
  | some r =>
    if r.kstate ≠ .frozen then (2, s)
    else if (s.seq r.lead).run = .handler ∨ (action = 3 ∧ r.delivered = true) then (4, s)
    else if action ∉ s.allowed r then (3, s)
    else (1, s.recover r action)

/-- `RECOVER_RERUN` (R396). An OP that is none of R437, and a RECOVER whose action is none of R393, are refused here
(DESIGN CHOICE, log entry 48). -/
def execRecoverRerun (d : BitVec 3) (s : State) : Result :=
  s.serveMg d (fun op a => op == 0 || decide (9 < op) || (op == 1 && (a == 1 || a == 0 || decide (4 < a.toNat)))) (fun dw s =>
    if descOp dw ≠ 1 ∨ dw 1 ≠ 1 then (2, s) else s.mgRecover dw 1)

/-- `RECOVER_RESUME` (R393). -/
def execRecoverResume (d : BitVec 3) (s : State) : Result := s.serveMg d (fun op a => op == 1 && a == 2) (fun dw s => s.mgRecover dw 2)

/-- `RECOVER_DELIVER` (R397). -/
def execRecoverDeliver (d : BitVec 3) (s : State) : Result := s.serveMg d (fun op a => op == 1 && a == 3) (fun dw s => s.mgRecover dw 3)

/-- `RECOVER_END` (R393). -/
def execRecoverEnd (d : BitVec 3) (s : State) : Result := s.serveMg d (fun op a => op == 1 && a == 4) (fun dw s => s.mgRecover dw 4)

/-- The link that a target names: a bridge port of the die's harp, or an Ethernet port of the die (R339, R353)
(DESIGN CHOICE, log entries 22, 116; DEDUCED, log entry 104). -/
def linkNamed (d : BitVec 3) (t : Nat) : Option LinkName :=
  if 272 ≤ t ∧ t < 280 then some (.bridge (BitVec.ofNat 2 ((t - 272) / 2)))
  else if t / 2 = d.toNat then some (.eth (t % 2 == 1))
  else none

/-- `LINK_ENABLE` (R352) (DESIGN CHOICE, log entry 116). -/
def execLinkEnable (d : BitVec 3) (s : State) : Result :=
  s.serveMg d (fun op a => op == 2 && a.getLsbD 0) (fun dw s => match linkNamed (mgDie dw) (mgTarget dw) with
    | none => (2, s)
    | some l =>
      let k := (s.die (mgDie dw)).link l
      if k.state ≠ .down then (2, s)
      else (1, (s.modDie (mgDie dw) (fun x => x.setLink l { k with fec := bits (dw 1) 8 24 })).moveLink (mgDie dw) l .training))

/-- `LINK_DISABLE` (R352) (DESIGN CHOICE, log entry 116). -/
def execLinkDisable (d : BitVec 3) (s : State) : Result :=
  s.serveMg d (fun op a => op == 2 && !a.getLsbD 0) (fun dw s => match linkNamed (mgDie dw) (mgTarget dw) with
    | none => (2, s)
    | some l =>
      if ((s.die (mgDie dw)).link l).state = .down then (2, s)
      else (1, s.moveLink (mgDie dw) l .down))

/-- A setting of a region, where its argument lies in a range. -/
def State.mgSet (s : State) (dw : Nat → Word64) (lo hi : Nat) (f : Nat → Region → Region) : Nat × State := match s.mgRegion dw with
  | none => (2, s)
  | some r => if (dw 1).toNat < lo ∨ hi < (dw 1).toNat then (2, s) else (1, s.modRegion r.serial (f (dw 1).toNat))

/-- `WATCH` (R401). -/
def execWatch (d : BitVec 3) (s : State) : Result :=
  s.serveMg d (fun op _ => op == 3) (fun dw s => s.mgSet dw 12 32 (fun n r => { r with wdogLog := n }))

/-- `REMOTE` (R402). -/
def execRemote (d : BitVec 3) (s : State) : Result :=
  s.serveMg d (fun op _ => op == 4) (fun dw s => s.mgSet dw 20 32 (fun n r => { r with remLog := n }))

/-- `LATEEN` (R343). -/
def execLateen (d : BitVec 3) (s : State) : Result :=
  s.serveMg d (fun op _ => op == 6) (fun dw s => s.mgSet dw 0 1 (fun n r => { r with lateEn := n == 1 }))

/-- `QUOTA` (R372, R437) (DEDUCED, log entry 107). -/
def execQuota (d : BitVec 3) (s : State) : Result :=
  s.serveMg d (fun op _ => op == 5) (fun dw s =>
    if h : mgTarget dw < 3 then
      if bits (dw 1) 32 32 ≠ 0 then (2, s)
      else (1, s.modDie (mgDie dw) (fun x => { x with quotas := x.quotas.set (mgTarget dw) (bits (dw 1) 0 32) }))
    else (2, s))

/-- `MGMT_RESET` (R406): STATUS is written first, where the reset leaves it: in the host's memory (DEDUCED, log entry 108). -/
def execMgmtReset (d : BitVec 3) (s : State) : Result :=
  s.serve d 5 56 (fun dw => descOp dw == 7) (fun q dw s =>
    if dw 1 ≠ 1 then s.complete d q 56 1 2 else (s.complete d q 56 1 1).warmReset)

/-- `PEERTAB` (R355). -/
def execPeertab (d : BitVec 3) (s : State) : Result :=
  s.serveMg d (fun op _ => op == 8) (fun dw s =>
    if 65535 < mgTarget dw ∨ (dw 1).toNat % 4096 ≠ 0 then (2, s)
    else (1, s.modDie (mgDie dw) (fun x => { x with peerTab := some (dw 1, mgTarget dw + 1) })))

/-- HOSTRING (R437, R441): the security rings of dies 1 to 7 are never OPEN. -/
def State.mgRing (s : State) (dw : Nat → Word64) (dest : Bool) : Nat × State :=
  let t := mgTarget dw
  let e : BitVec 3 := BitVec.ofNat 3 (t / 8)
  let d : BitVec 3 := BitVec.ofNat 3 t
  if 48 ≤ t ∨ (e = 4 ∧ d ≠ 0) then (2, s) else (1, s.setRing e d { s.ring e d with isOpen := dest })

/-- `HOSTRING_OPEN` (R441). An argument that is neither 0 nor 1 is refused here. -/
def execHostringOpen (d : BitVec 3) (s : State) : Result :=
  s.serveMg d (fun op a => op == 9 && a != 0) (fun dw s => if dw 1 = 1 then s.mgRing dw true else (2, s))

/-- `HOSTRING_CLOSE` (R441). -/
def execHostringClose (d : BitVec 3) (s : State) : Result :=
  s.serveMg d (fun op a => op == 9 && a == 0) (fun dw s => s.mgRing dw false)

/-! ### Security descriptors (R438, R439) -/

/-- The security controller takes a descriptor whose OP `mine` accepts; one of a context that is not live is refused. While the way to memory that
it names is not UP, it waits (R352). -/
def State.serveSec (s : State) (mine : Nat → Bool) (ways : (Nat → Word64) → List (Word64 × Word64)) (body : QDesc → (Nat → Word64) → BitVec 9 → State → Nat × State) : Result :=
  s.serve 0 4 56 (fun dw => mine (descOp dw) && (ways dw).all (fun p => s.physUp 0 p.1.toNat p.2.toNat)) (fun q dw s =>
    let n : BitVec 9 := bits (dw 0) 8 9
    if !s.ctxLive n then s.complete 0 q 56 1 2
    else
      let (v, s1) := body q dw n s
      s1.complete 0 q 56 1 v)

/-- Bytes 0 to 255 of the report of a context, and its signature (R439). -/
def attestReport (ctx : BitVec 9) (pair : Nat) (nonce : List Byte) : List Byte :=
  let head (sigLen : Nat) : List Byte :=
    natToBytes 4 0x41545345 ++ natToBytes 2 1 ++ natToBytes 2 ctx.toNat ++ nonce ++ (List.range 97).map (Config.importPub pair)
      ++ natToBytes 7 0 ++ (List.range 32).map Config.fwHash ++ (List.range 60).map Config.idPub ++ natToBytes 4 sigLen ++ natToBytes 16 0
  let n := Config.hssSigLen.toNat
  let body := head n
  body ++ ((List.range n).map (Config.hssSign body))

/-- `ATTEST` (R438, R439). An OP that is none of R438 is refused here (DESIGN CHOICE, log entry 48). -/
def execAttest (s : State) : Result :=
  s.serveSec (fun op => op == 1 || op == 0 || decide (3 < op)) (fun dw => [(dw 1, 32), (dw 2, 256)]) (fun _ dw n s =>
    let out := (dw 2).toNat
    if descOp dw ≠ 1 ∨ out % 8 ≠ 0 then (2, s)
    else match s.osRead (dw 1).toNat 32 with
      | none => (2, s)
      | some nonce =>
        let report := attestReport n (s.ctx n).pair nonce
        if (bits (dw 3) 0 32).toNat < report.length ∨ physOk out report.length = false ∨ inMgmt out = true then (2, s)
        else (1, s.putBytes s.osKey out report))

/-- What IMPORT makes of a blob: the bytes of the key, or its STATUS (R367, R438) (DEDUCED, log entry 112). -/
def importBlob (kind : Nat) (pair : Nat) (blob : List Byte) : Except Nat (List Byte) :=
  match kind with
  | 3 => if lmsKeyType blob = 0 then .error 2 else .ok blob
  | 1 | 2 => match Config.unwrapKey pair blob with
    | none => .error 3
    | some k => if k.length = (if kind = 1 then 64 else 32) then .ok k else .error 2
  | _ => .error 2

/-- `IMPORT` (R368, R438): the key goes into a free slot bound to the context, and the OS learns the handle (DEDUCED, log entry 112). -/
def execImportKey (s : State) : Result :=
  s.serveSec (fun op => op == 2) (fun dw => [(dw 1, dw 2)]) (fun q dw n s =>
    let kind : BitVec 3 := bits (dw 3) 0 3
    match s.osRead (dw 1).toNat (dw 2).toNat, s.freeSlot with
    | some blob, some h => match importBlob kind.toNat (s.ctx n).pair blob with
      | .error v => (v, s)
      | .ok k =>
        let slot : KeySlot := { handle := h, ctx := some n, kind := kind, key := .given k, pub := if kind = 3 then k else [] }
        (1, ({ s with slots := s.slots ++ [slot] } : State).putDesc 0 q.desc 32 8 (bits (dw 4) 9 55 ++ h).toNat)
    | _, _ => (2, s))

/-- `DROP` (R438): a slot of the context cleared; a seal key has no handle to name (R367) (DEDUCED, log entry 112). -/
def execDrop (s : State) : Result :=
  s.serveSec (fun op => op == 3) (fun _ => []) (fun _ dw n s =>
    let mine (k : KeySlot) : Bool := k.handle == bits (dw 4) 0 9 && k.ctx == some n && k.kind != 4
    if s.slots.any mine then (1, { s with slots := s.slots.filter (fun k => !mine k) }) else (2, s))

end Sys2Proof.Machine
end

