-- ==== Sys2Proof/Machine/RowManager.lean ====
section
/-!
DEFINITION. The row managers' command extension: the command port, the halt, the drain chain, the replay and the black box (R120, R394,
R398, R399, R405, R408, R429 to R436).
-/

namespace Sys2Proof.Machine

/-- The row manager whose turn it is, behind its instruction. -/
def State.rmOn (s : State) (f : Rm → Rm) : Result := .next (s.setRm s.rmTurn (f (s.rm s.rmTurn)).advance)

/-- `ILLEGAL_INSTRUCTION_EXCEPTION` (R120): the base architecture's exception, cause 2 with the word as its value, is taken; no register
changes but those of the trap (PRESUMED, log entry 23) (DESIGN CHOICE, log entry 110). -/
def execIllegalInstructionException (w : Word32) (s : State) : Result :=
  let m := s.rmTurn
  let r := s.rm m
  let here : Bool := match s.rvFetch m with
    | .ok (len, v) => len == 4 && v == w.toNat
    | .error _ => false
  let illegal : Bool := match decodeRm w.toNat with
    | .illegal => true
    | _ => false
  .next (if r.wait.isSome || !here || !illegal then s else s.setRm m (r.trap 2 (w.setWidth 64)))

/-! ### The command port (R427, R429 to R432) -/

/-- The queue that a selector names: its engine and its die; none for a selector that R429 refuses. -/
def selectorOf (v : Word64) : Option (Fin 6 × BitVec 3) :=
  let e := (bits v 0 3).toNat
  let d : BitVec 3 := bits v 3 3
  if h : e < 6 then
    if bits v 6 58 ≠ 0 ∨ (e = 4 ∧ d ≠ 0) then none else some (⟨e, h⟩, d)
  else none

/-- The count of the next ticket: it wraps past 0. -/
def nextCount (n : BitVec 16) : BitVec 16 := if n + 1 = 0 then 1 else n + 1

/-- A ticket's number (R429) (DEDUCED, log entry 91). -/
def ticketNum (count : BitVec 16) (e : Fin 6) (d : BitVec 3) : Word64 := BitVec.ofNat 64 (count.toNat + d.toNat * 2 ^ 16 + e.val * 2 ^ 19)

/-- `KCMD` (R429). The base loads and stores of the row manager are performed in its order (DEDUCED, log entry 91). -/
def execKcmd (b : BitVec 5) (a : BitVec 5) (d : BitVec 5) (s : State) : Result :=
  let m := s.rmTurn
  let r := s.rm m
  let at_ := r.read a
  let nothing : Result := s.rmOn (fun r => r.write d 0)
  if at_.toNat % 64 ≠ 0 then nothing
  else match selectorOf (r.read b) with
    | none => nothing
    | some (e, die) =>
      let pending := (r.tickets.filter (fun t => !t.done)).length
      if 16 ≤ pending ∨ 64 ≤ ((s.die die).queue e).length then nothing
      else
        let count := nextCount r.count
        let num := ticketNum count e die
        let s1 := s.enqueueDesc die e { desc := .phys at_, ticket := some (m, num), sel := some die, read := [] }
        s1.rmOn (fun r => { r.write d num with
          count := count, tickets := r.tickets.filter (fun t => t.num != num) ++ [{ num := num, done := false }] })

/-- What `kfence` finds: whether it still waits, and the tickets that the port keeps once it does not (DEDUCED, log entry 91). -/
def Rm.fence (r : Rm) (v : Word64) : Bool × List Ticket :=
  if v = 0 then (r.tickets.any (fun t => !t.done), [])
  else (r.tickets.any (fun t => t.num == v && !t.done), r.tickets.filter (fun t => t.num != v))

/-- `KFENCE` (R430): the acquire has no effect of its own where every access is performed at once. -/
def execKfence (a : BitVec 5) (s : State) : Result :=
  let r := s.rm s.rmTurn
  let v := r.read a
  let (waits, rest) := r.fence v
  if waits then .next (s.setRm s.rmTurn { r with wait := some v }) else s.rmOn (fun r => { r with tickets := rest })

/-- `KFENCE_COMPLETE` (R430). -/
def execKfenceComplete (m : BitVec 10) (s : State) : Result :=
  let r := s.rm m
  match r.wait with
  | none => .next s
  | some v =>
    let (waits, rest) := r.fence v
    .next (if waits then s else s.setRm m ({ r with wait := none, tickets := rest } : Rm).advance)

/-- `KPOLL` (R431) (DEDUCED, log entry 91). -/
def execKpoll (a : BitVec 5) (d : BitVec 5) (s : State) : Result :=
  s.rmOn (fun r => r.write d (match r.tickets.find? (fun t => t.num == r.read a) with
    | none => 2
    | some t => if t.done then 1 else 0))

/-- `KQST` (R432). -/
def execKqst (b : BitVec 5) (d : BitVec 5) (s : State) : Result :=
  s.rmOn (fun r => r.write d (match selectorOf (r.read b) with
    | none => 0xFFFFFFFFFFFFFFFF
    | some (e, die) => BitVec.ofNat 64 (64 - ((s.die die).queue e).length)))

/-! ### The halt (R398, R433) -/

/-- Whether a result of a cell of a row is in flight: a unit on its way to a queue or at a converter of the cell's switch, or a memport's
result; one that waits for a full latch of its own cell is in no way to a queue. Cells of a FROZEN region do not count (R433) (DEDUCED, log
entry 92). -/
def State.rowInFlight (s : State) (m : BitVec 10) : Bool :=
  let mine (c : CellId) : Bool := cellRow c == m && ((s.regionOf c).map (fun r => r.kstate != .frozen)).getD true
  let waits (x : Cell) : Bool := match x.mp.outs with
    | [] => false
    | o :: _ => x.due[o.slot.toNat].isEmpty && (x.targets o.slot).all (fun t => x.targetFree o.slot [] t)
  s.wires.any (fun w => mine w.src)
    || (s.die (rmDie m)).egress.any (fun e => mine e.src && !(e.waiting.isEmpty && e.entries.isEmpty))
    || (s.die (rmDie m)).harp.wait.any (fun p => mine p.src)
    || s.cells.any (fun p => mine p.1 && (!p.2.swIn.isEmpty || waits p.2))

/-- A halt or a resume asked for by a register. A halt stops the row at once, and its instruction waits until the results in flight have
entered their queues (R398, R433) (DEDUCED, log entry 92). -/
def State.setHalt (s : State) (a : BitVec 5) : Result :=
  let v := (s.rm s.rmTurn).read a
  let s1 := s.setRm s.rmTurn { s.rm s.rmTurn with halted := true }
  if bits v 1 63 ≠ 0 then s.rmOn id
  else if !v.getLsbD 0 then s.rmOn (fun r => { r with halted := false })
  else if s1.rowInFlight s.rmTurn then .next s1
  else s1.rmOn id

/-- `KHALT_HALT` (R433). The two forms are one word, told apart by the register (DEDUCED, log entry 92). -/
def execKhaltHalt (a : BitVec 5) (s : State) : Result := s.setHalt a

/-- `KHALT_RESUME` (R433) (DEDUCED, log entry 92). -/
def execKhaltResume (a : BitVec 5) (s : State) : Result := s.setHalt a

/-! ### The drain chain (R394, R434) -/

/-- What an absent item reads as. -/
def noItem : Word64 := 0xFFFFFFFFFFFFFFFF

/-- A double-word of a fault register (R391). -/
def FaultReg.dword (f : FaultReg) (i : Nat) : Word64 := match i with
  | 0 => (0 : BitVec 37) ++ f.pe ++ f.queue ++ f.node ++ f.access ++ BitVec.ofBool f.norerun ++ f.skid ++ BitVec.ofBool f.primary
      ++ BitVec.ofBool f.valid ++ f.code
  | 1 => f.addr
  | 2 => f.ivec
  | _ => f.fseq ++ f.kind ++ f.seq

/-- The records of a unit, each with the tag word: a vector counts as two (R394). -/
def chainParts (u : Item) : List (Tag × Payload) := (u.tag, u.v0) :: (match u.v1 with
  | some v => [(u.tag, v)]
  | none => [])

/-- A word of an item: the tag word, then the payload's double-words (DEDUCED, log entry 93). -/
def chainWord (parts : List (Tag × Payload)) (entry word : Nat) : Word64 := match parts[entry]? with
  | none => noItem
  | some (t, p) => if word = 0 then t.word else if word ≤ 8 then bits p (64 * (word - 1)) 64 else noItem

/-- The units of a queue that the drain chain names: those in its slots and its token reserve in stream order, not those in its spill ring
(R394). -/
def Queue.chain (q : Queue) : List Item := q.entries.map QEntry.item ++ (q.ring.filter (fun u => u.kept.isSome)).map RingUnit.item

/-- Whether a row manager reaches the items of a cell: its own row's, halted or in a FROZEN region (R398). -/
def State.rowReach (s : State) (m : BitVec 10) (c : CellId) : Bool :=
  cellRow c == m && ((s.rm m).halted || ((s.regionOf c).map (fun r => r.kstate == .frozen)).getD false)

/-- The item that a drain-chain index names, as a row manager reads it (DEDUCED, log entry 93). -/
def State.chainItem (s : State) (m : BitVec 10) (v : Word64) : Word64 :=
  let sub := (bits v 35 4).toNat
  let entry := (bits v 39 11).toNat
  let word := (bits v 50 4).toNat
  if bits v 54 10 ≠ 0 then noItem
  else match cellOfWord (bits v 0 32) with
    | none => noItem
    | some (c, k) =>
      let x := s.cell c
      match (bits v 32 3).toNat with
      | 4 => match s.regionOf c with
        | none => noItem
        | some r =>
          let row : CellId := { die := rmDie m, y := bits m 3 4, x := r.x, n := 0 }
          if r.kstate = .frozen ∧ r.hasCell row = true then r.summary.getD 0 else noItem
      | i =>
        if !s.rowReach m c then noItem
        else match i with
          | 0 => if sub < 4 then x.fault.dword sub else noItem
          | 1 => match x.queues[sub]? with
            | none => noItem
            | some q => chainWord (q.chain.flatMap chainParts) entry word
          | 2 => match (if sub < 4 then (x.latches[4 * k.toNat + sub]?).getD none else none) with
            | none => noItem
            | some u => chainWord (chainParts u) entry word
          | 3 => x.active.prm[sub]?.getD noItem
          | _ => noItem

/-- `KPEEK` (R434) (DEDUCED, log entry 93). -/
def execKpeek (a : BitVec 5) (d : BitVec 5) (s : State) : Result := s.rmOn (fun r => r.write d (s.chainItem s.rmTurn (r.read a)))

/-! ### The replay (R399, R435) -/

/-- The code of an outcome. -/
def Outcome3.replayCode : Outcome3 → Nat
  | .kept => 0
  | .compensated => 1
  | _ => 2

/-- `KREPLAY` (R399, R435): the record is offered to the queue of a cell of the halted row, and the outcome is written. Where the queue's
ring cannot be reached, the instruction is issued again (R244) (DEDUCED, log entry 94), as it is while a bridge on the way to the record is
not UP (R352). -/
def execKreplay (b : BitVec 5) (a : BitVec 5) (s : State) : Result :=
  let m := s.rmTurn
  let s := s.settle (.die (rmDie m))
  let r := s.rm m
  let at_ := (r.read b).toNat
  let answer (v : Nat) (s : State) : Result := (s.putNum s.osKey (at_ + 72) 8 v).rmOn id
  if !s.physUp (rmDie m) at_ 80 then .next s
  else if !s.rvReach (r.read b) 80 || (s.poisonIn at_ 80).isSome then .next (s.setRm m (r.trap 5 (r.read b)))
  else if at_ % 128 ≠ 0 ∨ bits (r.read a) 32 32 ≠ 0 then answer 3 s
  else match cellOfWord (bits (r.read a) 0 32) with
    | none => answer 3 s
    | some (c, q) =>
      if cellRow c ≠ m ∨ r.halted = false then answer 3 s
      else
        let u : Item :=
          { tag := tagOfWord (s.dwordAt s.osKey (at_ + 64)), v0 := BitVec.ofNat 512 (s.numAt s.osKey at_ 64), v1 := none, inv := none }
        let (s1, out) := s.offerCell c q u
        if out = .retry then .next s1 else answer out.replayCode s1

/-! ### The black box (R408, R436) -/

/-- A double-word of an event. -/
def BbEvent.dword (e : BbEvent) (i : Nat) : Word64 := match i with
  | 0 => (0 : BitVec 15) ++ e.ctx ++ e.typ ++ e.eseq
  | 1 => e.summary
  | 2 => e.addr
  | _ => e.aux

/-- `KBBX` (R436). -/
def execKbbx (a : BitVec 5) (d : BitVec 5) (s : State) : Result :=
  s.rmOn (fun r =>
    let v := r.read a
    let x := s.die (bits v 12 3)
    r.write d (if bits v 15 49 ≠ 0 ∨ x.service = false then 0xFFFFFFFFFFFFFFFF
      else match x.bb.find? (fun e => bits e.eseq 0 10 == bits v 0 10) with
        | none => 0
        | some e => e.dword (bits v 10 2).toNat))

end Sys2Proof.Machine
end

