-- ==== Sys2Proof/Machine/SeqAlu.lean ====
section
/-!
DEFINITION. The sequencer's integer, address, comparison and branch instructions (R132 to R141).
-/

namespace Sys2Proof.Machine

/-! ### Operations on double-words (R132, R137, R138) -/

/-- Signed division toward zero; all ones on division by zero (R132). -/
def divS (a b : Word64) : Word64 := if b = 0 then 0xFFFFFFFFFFFFFFFF else BitVec.ofInt 64 (a.toInt.tdiv b.toInt)

/-- The signed remainder, with the sign of a; a on division by zero (R132). -/
def remS (a b : Word64) : Word64 := if b = 0 then a else BitVec.ofInt 64 (a.toInt.tmod b.toInt)

/-- The high half of the signed product (R132). -/
def mulHigh (a b : Word64) : Word64 := BitVec.ofInt 64 (a.toInt * b.toInt / 2 ^ 64)

/-- Leading zero bits (R132). -/
def countLeading (a : Word64) : Word64 := if a = 0 then 64 else BitVec.ofNat 64 (63 - Nat.log2 a.toNat)

/-- One bits (R132). -/
def countOnes (a : Word64) : Word64 :=
  BitVec.ofNat 64 ((List.range 64).foldl (fun n i => if a.getLsbD i then n + 1 else n) 0)

/-- pos and len of a bit-field selector (R137). -/
def fieldPos (b : Word64) : Nat := (bits b 0 6).toNat
def fieldLen (b : Word64) : Nat := (bits b 8 6).toNat + 1

/-- The extracted field: bits above 63 read as zero (R137). -/
def extractField (a b : Word64) : Word64 := BitVec.ofNat 64 (a.toNat / 2 ^ fieldPos b % 2 ^ fieldLen b)

/-- The field of `d` replaced by the low bits of `a`; field bits above 63 are not written (R137). -/
def insertField (d a b : Word64) : Word64 :=
  let m := BitVec.ofNat 64 ((2 ^ fieldLen b - 1) * 2 ^ fieldPos b)
  (d &&& ~~~m) ||| (BitVec.ofNat 64 (a.toNat * 2 ^ fieldPos b) &&& m)

/-- One CRC-32C step over the low bytes of b (R138). -/
def crcStep (w : BitVec 2) (a b : Word64) : Word64 := BitVec.ofNat 64 (crcBits (8 * widthBytes w) (a.toNat % 2 ^ 32) b.toNat)

/-- A sign-extended 13-bit immediate (R133). -/
def imm13 (i : BitVec 13) : Word64 := i.signExtend 64

/-- One result to gD under a guard with its sense. -/
def aluOp (s : State) (d : BitVec 5) (g : BitVec 3) (sense : BitVec 1) (f : Seq → Word64) : Result :=
  guarded s g sense (fun sq => s.goOn (sq.writeG d (f sq)))

/-- One predicate under a guard (R135). -/
def cmpOp (s : State) (d : BitVec 3) (g : BitVec 3) (sense : BitVec 1) (f : Seq → Bool) : Result :=
  guarded s g sense (fun sq => s.goOn (sq.writeP d (f sq)))

/-! ### Register and immediate forms -/

/-- `ADD` (R132): wrapping sum. -/
def execAdd (d a b : BitVec 5) (g : BitVec 3) (sn : BitVec 1) (s : State) : Result :=
  aluOp s d g sn (fun q => q.readG a + q.readG b)

/-- `SUB` (R132): wrapping difference. -/
def execSub (d a b : BitVec 5) (g : BitVec 3) (sn : BitVec 1) (s : State) : Result :=
  aluOp s d g sn (fun q => q.readG a - q.readG b)

/-- `AND` (R132): bitwise AND. -/
def execAnd (d a b : BitVec 5) (g : BitVec 3) (sn : BitVec 1) (s : State) : Result :=
  aluOp s d g sn (fun q => q.readG a &&& q.readG b)

/-- `OR` (R132): bitwise OR. -/
def execOr (d a b : BitVec 5) (g : BitVec 3) (sn : BitVec 1) (s : State) : Result :=
  aluOp s d g sn (fun q => q.readG a ||| q.readG b)

/-- `XOR` (R132): bitwise XOR. -/
def execXor (d a b : BitVec 5) (g : BitVec 3) (sn : BitVec 1) (s : State) : Result :=
  aluOp s d g sn (fun q => q.readG a ^^^ q.readG b)

/-- `SHL` (R132): left shift by gB[5:0]. -/
def execShl (d a b : BitVec 5) (g : BitVec 3) (sn : BitVec 1) (s : State) : Result :=
  aluOp s d g sn (fun q => q.readG a <<< (q.readG b &&& 63))

/-- `SHR` (R132): logical right shift by gB[5:0]. -/
def execShr (d a b : BitVec 5) (g : BitVec 3) (sn : BitVec 1) (s : State) : Result :=
  aluOp s d g sn (fun q => q.readG a >>> (q.readG b &&& 63))

/-- `SAR` (R132): arithmetic right shift by gB[5:0]. -/
def execSar (d a b : BitVec 5) (g : BitVec 3) (sn : BitVec 1) (s : State) : Result :=
  aluOp s d g sn (fun q => (q.readG a).sshiftRight ((q.readG b).toNat % 64))

/-- `MUL` (R132): low half of the product. -/
def execMul (d a b : BitVec 5) (g : BitVec 3) (sn : BitVec 1) (s : State) : Result :=
  aluOp s d g sn (fun q => q.readG a * q.readG b)

/-- `MULH` (R132): high half of the signed product. -/
def execMulh (d a b : BitVec 5) (g : BitVec 3) (sn : BitVec 1) (s : State) : Result :=
  aluOp s d g sn (fun q => mulHigh (q.readG a) (q.readG b))

/-- `DIV` (R132): signed quotient. -/
def execDiv (d a b : BitVec 5) (g : BitVec 3) (sn : BitVec 1) (s : State) : Result :=
  aluOp s d g sn (fun q => divS (q.readG a) (q.readG b))

/-- `REM` (R132): signed remainder. -/
def execRem (d a b : BitVec 5) (g : BitVec 3) (sn : BitVec 1) (s : State) : Result :=
  aluOp s d g sn (fun q => remS (q.readG a) (q.readG b))

/-- `MIN` (R132): signed smaller. -/
def execMin (d a b : BitVec 5) (g : BitVec 3) (sn : BitVec 1) (s : State) : Result :=
  aluOp s d g sn (fun q => if (q.readG a).sle (q.readG b) then q.readG a else q.readG b)

/-- `MAX` (R132): signed larger. -/
def execMax (d a b : BitVec 5) (g : BitVec 3) (sn : BitVec 1) (s : State) : Result :=
  aluOp s d g sn (fun q => if (q.readG a).sle (q.readG b) then q.readG b else q.readG a)

/-- `CLZ` (R132): leading zeros. -/
def execClz (d a : BitVec 5) (g : BitVec 3) (sn : BitVec 1) (s : State) : Result :=
  aluOp s d g sn (fun q => countLeading (q.readG a))

/-- `POPC` (R132): one bits. -/
def execPopc (d a : BitVec 5) (g : BitVec 3) (sn : BitVec 1) (s : State) : Result :=
  aluOp s d g sn (fun q => countOnes (q.readG a))

/-- `ADDS` (R137): gA plus gB scaled by the width. -/
def execAdds (d a b : BitVec 5) (g : BitVec 3) (sn : BitVec 1) (w : BitVec 2) (s : State) : Result :=
  aluOp s d g sn (fun q => q.readG a + (q.readG b <<< w.toNat))

/-- `CRC` (R138): one CRC-32C step. -/
def execCrc (d a b : BitVec 5) (g : BitVec 3) (sn : BitVec 1) (w : BitVec 2) (s : State) : Result :=
  aluOp s d g sn (fun q => crcStep w (q.readG a) (q.readG b))

/-- `BFX` (R137): the bit field of gA that gB selects. -/
def execBfx (d a b : BitVec 5) (g : BitVec 3) (sn : BitVec 1) (s : State) : Result :=
  aluOp s d g sn (fun q => extractField (q.readG a) (q.readG b))

/-- `BFI` (R137): gD with the bit field that gB selects taken from gA. -/
def execBfi (d a b : BitVec 5) (g : BitVec 3) (sn : BitVec 1) (s : State) : Result :=
  aluOp s d g sn (fun q => insertField (q.readG d) (q.readG a) (q.readG b))

/-- `MAD` (R137): gD plus the low half of the product. -/
def execMad (d a b : BitVec 5) (g : BitVec 3) (sn : BitVec 1) (s : State) : Result :=
  aluOp s d g sn (fun q => q.readG d + q.readG a * q.readG b)

/-- `CMPEQ` (R135): pD on equality. -/
def execCmpeq (d : BitVec 3) (a b : BitVec 5) (g : BitVec 3) (sn : BitVec 1) (s : State) : Result :=
  cmpOp s d g sn (fun q => q.readG a == q.readG b)

/-- `CMPNE` (R135): pD on inequality. -/
def execCmpne (d : BitVec 3) (a b : BitVec 5) (g : BitVec 3) (sn : BitVec 1) (s : State) : Result :=
  cmpOp s d g sn (fun q => q.readG a != q.readG b)

/-- `CMPLT` (R135): pD on signed less-than. -/
def execCmplt (d : BitVec 3) (a b : BitVec 5) (g : BitVec 3) (sn : BitVec 1) (s : State) : Result :=
  cmpOp s d g sn (fun q => (q.readG a).slt (q.readG b))

/-- `CMPGE` (R135): pD on signed greater-or-equal. -/
def execCmpge (d : BitVec 3) (a b : BitVec 5) (g : BitVec 3) (sn : BitVec 1) (s : State) : Result :=
  cmpOp s d g sn (fun q => (q.readG b).sle (q.readG a))

/-- `CMPLTU` (R135): pD on unsigned less-than. -/
def execCmpltu (d : BitVec 3) (a b : BitVec 5) (g : BitVec 3) (sn : BitVec 1) (s : State) : Result :=
  cmpOp s d g sn (fun q => (q.readG a).ult (q.readG b))

/-- `CMPGEU` (R135): pD on unsigned greater-or-equal. -/
def execCmpgeu (d : BitVec 3) (a b : BitVec 5) (g : BitVec 3) (sn : BitVec 1) (s : State) : Result :=
  cmpOp s d g sn (fun q => (q.readG b).ule (q.readG a))

/-- `SEL` (R136): gA where pK holds, else gB. -/
def execSel (d a b : BitVec 5) (g : BitVec 3) (sn : BitVec 1) (k : BitVec 3) (s : State) : Result :=
  aluOp s d g sn (fun q => if q.readP k then q.readG a else q.readG b)

/-- `LIH` (R134): no guard. -/
def execLih (d : BitVec 5) (v : BitVec 21) (s : State) : Result :=
  let q := s.seq s.seqTurn
  s.goOn (q.writeG d ((q.readG d <<< 21) ||| v.setWidth 64))

/-- `ADDI` (R133). -/
def execAddi (d a : BitVec 5) (g : BitVec 3) (v : BitVec 13) (s : State) : Result :=
  aluOp s d g 0 (fun q => q.readG a + imm13 v)

/-- `ANDI` (R133). -/
def execAndi (d a : BitVec 5) (g : BitVec 3) (v : BitVec 13) (s : State) : Result :=
  aluOp s d g 0 (fun q => q.readG a &&& imm13 v)

/-- `ORI` (R133). -/
def execOri (d a : BitVec 5) (g : BitVec 3) (v : BitVec 13) (s : State) : Result :=
  aluOp s d g 0 (fun q => q.readG a ||| imm13 v)

/-- `XORI` (R133). -/
def execXori (d a : BitVec 5) (g : BitVec 3) (v : BitVec 13) (s : State) : Result :=
  aluOp s d g 0 (fun q => q.readG a ^^^ imm13 v)

/-- `SHLI` (R133). -/
def execShli (d a : BitVec 5) (g : BitVec 3) (n : BitVec 6) (s : State) : Result :=
  aluOp s d g 0 (fun q => q.readG a <<< n.toNat)

/-- `SHRI` (R133). -/
def execShri (d a : BitVec 5) (g : BitVec 3) (n : BitVec 6) (s : State) : Result :=
  aluOp s d g 0 (fun q => q.readG a >>> n.toNat)

/-- `SARI` (R133). -/
def execSari (d a : BitVec 5) (g : BitVec 3) (n : BitVec 6) (s : State) : Result :=
  aluOp s d g 0 (fun q => (q.readG a).sshiftRight n.toNat)

/-! ### Branches and loops -/

/-- The running sequencer goes on at an address. -/
def State.goTo (s : State) (sq : Seq) (pc : Word64) : Result := .next (s.setSeq s.seqTurn { sq with pc := pc })

/-- A jump to an address, which must be a multiple of 4 (R140). -/
def State.jumpTo (s : State) (sq : Seq) (target : Word64) : Result :=
  if bits target 0 2 ≠ 0 then s.trap tMisTarget target else s.goTo sq target

/-- `LOOP` (R141). -/
def execLoop (d : BitVec 5) (g : BitVec 3) (v : BitVec 13) (s : State) : Result :=
  guarded s g 0 (fun q =>
    if q.readG d = 0 then s.goOn q
    else
      let n := q.readG d - 1
      if n = 0 then s.goOn (q.writeG d n) else s.goTo (q.writeG d n) (branchTo q.pc v))

/-- `BR` (R139). -/
def execBr (g : BitVec 3) (sn : BitVec 1) (d : BitVec 22) (s : State) : Result :=
  guarded s g sn (fun q => s.goTo q (branchTo q.pc d))

/-- `BRP` (R139): as `br`; the prediction is timing only. -/
def execBrp (g : BitVec 3) (sn : BitVec 1) (d : BitVec 22) (s : State) : Result :=
  guarded s g sn (fun q => s.goTo q (branchTo q.pc d))

/-- `CALL` (R139): g31 takes the address behind the call. -/
def execCall (g : BitVec 3) (sn : BitVec 1) (d : BitVec 22) (s : State) : Result :=
  guarded s g sn (fun q => s.goTo (q.writeG 31 (q.pc + 4)) (branchTo q.pc d))

/-- `JR` (R140). -/
def execJr (a : BitVec 5) (g : BitVec 3) (sn : BitVec 1) (s : State) : Result :=
  guarded s g sn (fun q => s.jumpTo q (q.readG a))

/-- `RET` (R140). -/
def execRet (g : BitVec 3) (sn : BitVec 1) (s : State) : Result :=
  guarded s g sn (fun q => s.jumpTo q (q.readG 31))

end Sys2Proof.Machine
end

