-- ==== Sys2Proof/Machine/SeqSys.lean ====
section
/-!
DEFINITION. The sequencer's system instructions, `launch` and `statf`, and the traps of a word that cannot be fetched or decoded (R100,
R109, R110, R123, R140, R142, R159, R160, R383 to R386).
-/

namespace Sys2Proof.Machine

/-! ### System instructions (R160, R384 to R386) -/

/-- `NOP` (R160). -/
def execNop (q : BitVec 3) (s : State) : Result := guarded s q 0 (fun sq => s.goOn sq)

/-- A control program ended: its accumulators are detached and their lanes discarded (R160). -/
def Seq.halted (sq : Seq) : Seq := { sq.advance with run := .halted, wait := .none, accs := Vector.replicate 16 Acc.reset }

/-- `HALT` (R160): no section admits a tile any more, and the kernel retires with its last tile; in a handler of a FROZEN region it
retires at once (R397). -/
def execHalt (q : BitVec 3) (s : State) : Result :=
  guarded s q 0 (fun sq =>
    let s1 := s.setSeq s.seqTurn sq.halted
    match s.regionOfSeq s.seqTurn with
    | none => .next s1
    | some r => if r.kstate = .frozen then .next (s1.endRegion r 6 0) else .next (s1.tryRetire r.serial))

/-- Whether the scheduler has decided to pre-empt a region and not begun to (R385, R421). -/
def State.preemptPending (s : State) (r : Region) : Bool := match (s.die r.die).dec with
  | none => false
  | some d => match d.ended with
    | some i => d.dkind == 1 && (((s.selection d i).bind (fun j => d.rows[j]?)).map (fun x => x.ref == .running r.serial)).getD false
    | none => false

/-- `YIELD` (R385): a pending pre-emption begins at once; otherwise the YIELD flag is set, and a pre-empt decision becomes pending
(R414). -/
def execYield (q : BitVec 3) (s : State) : Result :=
  guarded s q 0 (fun sq =>
    let s1 := s.setSeq s.seqTurn sq.advance
    match s.regionOfSeq s.seqTurn with
    | none => .next s1
    | some r =>
      if s.preemptPending r && s.mayCut r then .next (s1.cutByDecision r)
      else
        let s2 := s1.modRegion r.serial (fun r => { r with yielded := true })
        .next (s2.modDie r.die (fun d => { d with
          parts := d.parts.map (fun p => if p.num = r.launch.part then { p with pendP := true } else p) })))

/-- `TRAP` (R384). -/
def execTrap (c : BitVec 6) (q : BitVec 3) (s : State) : Result :=
  guarded s q 0 (fun _ => s.trap tSoftware (c.setWidth 64))

/-- `RTE` (R384). -/
def execRte (q : BitVec 3) (s : State) : Result :=
  guarded s q 0 (fun sq => if sq.intrap then .next (s.trapReturn s.seqTurn) else s.trap tIllegalRet 0)

/-- The control registers of R123. -/
def Seq.creg (sq : Seq) (q : BitVec 7) (r : BitVec 6) : Word64 := match r.toNat with
  | 0 => sq.tvec
  | 1 => sq.tcause
  | 2 => sq.tval
  | 3 => sq.tepc
  | 4 => sq.kstat
  | 5 => sq.ctx.setWidth 64
  | 6 => sq.cycle
  | 7 => sq.ptag
  | 8 => q.setWidth 64
  | 9 => sq.accstat
  | 10 => sq.tscratch
  | _ => 0

/-- `SYSR` (R384). -/
def execSysr (d : BitVec 5) (r : BitVec 6) (q : BitVec 3) (s : State) : Result :=
  guarded s q 0 (fun sq => s.goOn (sq.writeG d (sq.creg s.seqTurn r)))

/-- `SYSW` (R386). -/
def execSysw (a : BitVec 5) (r : BitVec 6) (q : BitVec 3) (s : State) : Result :=
  guarded s q 0 (fun sq =>
    let v := sq.readG a
    match r.toNat with
    | 0 => if v.toNat % 4 ≠ 0 then s.trap tMisTarget v else s.goOn { sq with tvec := v }
    | 3 => if v.toNat % 4 ≠ 0 then s.trap tMisTarget v else s.goOn { sq with tepc := v }
    | 10 => s.goOn { sq with tscratch := v }
    | _ => s.trap tReadOnly (r.setWidth 64))

/-! ### `launch` and `statf` (R100, R159) -/

/-- `LAUNCH` (R159): the descriptor is read, and the launch that it asks for goes to the launch engine of the die that it names (DESIGN
CHOICE, log entry 72). A launch is no command of R365, whatever STATUS the descriptor still holds. -/
def execLaunch (a : BitVec 5) (q : BitVec 3) (s : State) : Result :=
  guarded s q 0 (fun sq =>
    let va := sq.readG a
    if va.toNat % 64 ≠ 0 then s.trap tMisaligned va
    else if !s.mayAccess sq || !s.storesCross s.seqTurn then s.waitOn .memory
    else s.accessAll .r 64 [va] (fun s1 xs => match xs with
      | [] => .next s1
      | x :: _ =>
        let s2 := s1.flush s.seqTurn
        let dw (i : Nat) : Word64 := s2.dwordAt x.key (x.pa + 8 * i)
        let s3 := s2.enqueueDesc (bits (dw 0) 17 3) 0
          { desc := .virt sq.ctx va, ticket := none, sel := none, read := (bits (dw 0) 8 56 ++ (0 : BitVec 8)) :: (List.range 7).map (fun i => dw (i + 1)) }
        s3.goOn (s3.seq s.seqTurn)))

/-- The ways to the entries of a statistics table that a sequencer stores (R351, R352). -/
def State.statPaths (s : State) (q : BitVec 7) (va : Word64) : List PathState :=
  (List.range 65).map (fun i => match (s.xlate q .w (va + BitVec.ofNat 64 (32 * i))).1 with
    | .ok x => s.pathTo (seqDie q) x.pa
    | .error .held => .down
    | .error .lost => .broken
    | .error _ => .up)

/-- The stores of a statistics table at rising addresses, up to the first that faults. Where 16 accesses are outstanding, a store waits until they
have performed, which no bridge holds up (R128) (DEDUCED, log entry 140). -/
def State.storeStats (s : State) (q : BitVec 7) (va : Word64) : Nat → List (List Byte) → State × Option (XFault × Word64)
  | _, [] => (s, none)
  | i, bs :: rest =>
    let at_ := va + BitVec.ofNat 64 (32 * i)
    match s.xlate q .w at_ with
    | (.error f, s1) => (s1, some (f, at_))
    | (.ok x, s1) =>
      let s2 := if 16 ≤ (s1.pendOf q).length then s1.flush q else s1
      State.storeStats (s2.issueStore q x.key x.pa bs) q va (i + 1) rest

/-- `STATF` (R100): the table is taken and cleared, and its entries are stored; a fault on a store leaves it cleared. Its 65 stores go out only
while every bridge on their way is UP, for at most 16 can wait (R128, R352). -/
def execStatf (a : BitVec 5) (q : BitVec 3) (s : State) : Result :=
  regionGuarded s q 0 (fun sq =>
    let va := sq.readG a
    match s.regionOfSeq s.seqTurn with
    | none => s.trap tStatMode 0
    | some r =>
      if !r.launch.cmode then s.trap tStatMode 0
      else if va.toNat % 64 ≠ 0 then s.trap tMisaligned va
      else if !s.mayAccess sq then s.waitOn .memory
      else if (s.statPaths s.seqTurn va).any (fun w => w == .broken) then .next (s.seqFault s.seqTurn 0x19 0)
      else if (s.statPaths s.seqTurn va).any (fun w => w == .down) then s.waitOn .bridge
      else if !s.storesCross s.seqTurn then s.waitOn .memory
      else
        let s1 := s.modRegion r.serial (fun r => { r with stats := [] })
        match s1.storeStats s.seqTurn va 0 (statEntries r.stats) with
        | (s2, some (f, x)) => s2.trap f.cause x
        | (s2, none) => s2.goOn (s2.seq s.seqTurn))

/-! ### Words that are no instruction (R109, R110, R140, R142) -/

/-- The trap cause of a decode cause. -/
def decodeTrap : DecodeCause → Nat
  | .illegalInstruction => tIllegal
  | .unassignedEncoding => tUnassigned
  | .reservedField => tReserved
  | .reservedEncoding => tReservedEnc

/-- Whether the sequencer whose turn it is issues. -/
def State.issues (s : State) : Bool :=
  let sq := s.seq s.seqTurn
  (sq.run == .running || sq.run == .handler) && sq.wait == .none

/-- `WORD_NOT_AN_INSTRUCTION` (R109, R110): the word at the program counter decodes to none, and traps whatever its guard. -/
def execWordNotAnInstruction (w : Word32) (s : State) : Result :=
  if !s.issues || s.fetchPath s.seqTurn != .up then .next s
  else match s.fetchWord s.seqTurn with
    | (.error _, _) => .next s
    | (.ok v, s1) =>
      if v ≠ w then .next s
      else match decodeSeq w.toNat with
        | .ok _ => .next s
        | .error c => s1.trap (decodeTrap c) (w.setWidth 64)

/-- `INSTRUCTION_FETCH_FAULT` (R140, R142, R403): the word at the program counter cannot be fetched. A fetch that a bridge holds up or loses
takes no trap (R351, R352). -/
def execInstructionFetchFault (s : State) : Result :=
  if !s.issues || s.fetchPath s.seqTurn != .up then .next s
  else match s.fetchWord s.seqTurn with
    | (.error (cause, v), s1) => s1.trap cause v
    | (.ok _, _) => .next s

end Sys2Proof.Machine
end

