-- ==== Sys2Proof/Machine/Dispatch.lean ====
section
/-!
DEFINITION. One arm for each instruction.
-/

namespace Sys2Proof.Machine

def exec (i : Instr) (s : State) : Host.Outcome State Fault Refusal :=
  match i with
  | .add d a b g s_ => Sys2Proof.Machine.execAdd d a b g s_ s
  | .sub d a b g s_ => Sys2Proof.Machine.execSub d a b g s_ s
  | .and d a b g s_ => Sys2Proof.Machine.execAnd d a b g s_ s
  | .or d a b g s_ => Sys2Proof.Machine.execOr d a b g s_ s
  | .xor d a b g s_ => Sys2Proof.Machine.execXor d a b g s_ s
  | .shl d a b g s_ => Sys2Proof.Machine.execShl d a b g s_ s
  | .shr d a b g s_ => Sys2Proof.Machine.execShr d a b g s_ s
  | .sar d a b g s_ => Sys2Proof.Machine.execSar d a b g s_ s
  | .mul d a b g s_ => Sys2Proof.Machine.execMul d a b g s_ s
  | .mulh d a b g s_ => Sys2Proof.Machine.execMulh d a b g s_ s
  | .div d a b g s_ => Sys2Proof.Machine.execDiv d a b g s_ s
  | .rem d a b g s_ => Sys2Proof.Machine.execRem d a b g s_ s
  | .min d a b g s_ => Sys2Proof.Machine.execMin d a b g s_ s
  | .max d a b g s_ => Sys2Proof.Machine.execMax d a b g s_ s
  | .clz d a g s_ => Sys2Proof.Machine.execClz d a g s_ s
  | .popc d a g s_ => Sys2Proof.Machine.execPopc d a g s_ s
  | .adds d a b g s_ w => Sys2Proof.Machine.execAdds d a b g s_ w s
  | .bfx d a b g s_ => Sys2Proof.Machine.execBfx d a b g s_ s
  | .bfi d a b g s_ => Sys2Proof.Machine.execBfi d a b g s_ s
  | .mad d a b g s_ => Sys2Proof.Machine.execMad d a b g s_ s
  | .crc d a b g s_ w => Sys2Proof.Machine.execCrc d a b g s_ w s
  | .cmpeq d a b g s_ => Sys2Proof.Machine.execCmpeq d a b g s_ s
  | .cmpne d a b g s_ => Sys2Proof.Machine.execCmpne d a b g s_ s
  | .cmplt d a b g s_ => Sys2Proof.Machine.execCmplt d a b g s_ s
  | .cmpge d a b g s_ => Sys2Proof.Machine.execCmpge d a b g s_ s
  | .cmpltu d a b g s_ => Sys2Proof.Machine.execCmpltu d a b g s_ s
  | .cmpgeu d a b g s_ => Sys2Proof.Machine.execCmpgeu d a b g s_ s
  | .sel d a b g s_ k => Sys2Proof.Machine.execSel d a b g s_ k s
  | .jr a g s_ => Sys2Proof.Machine.execJr a g s_ s
  | .ret g s_ => Sys2Proof.Machine.execRet g s_ s
  | .pgprobe d a g s_ => Sys2Proof.Machine.execPgprobe d a g s_ s
  | .sigv d a b g s_ => Sys2Proof.Machine.execSigv d a b g s_ s
  | .keyh d a g s_ => Sys2Proof.Machine.execKeyh d a g s_ s
  | .lih d i_ => Sys2Proof.Machine.execLih d i_ s
  | .addi d a g i_ => Sys2Proof.Machine.execAddi d a g i_ s
  | .andi d a g i_ => Sys2Proof.Machine.execAndi d a g i_ s
  | .ori d a g i_ => Sys2Proof.Machine.execOri d a g i_ s
  | .xori d a g i_ => Sys2Proof.Machine.execXori d a g i_ s
  | .shli d a g n => Sys2Proof.Machine.execShli d a g n s
  | .shri d a g n => Sys2Proof.Machine.execShri d a g n s
  | .sari d a g n => Sys2Proof.Machine.execSari d a g n s
  | .loop d g i_ => Sys2Proof.Machine.execLoop d g i_ s
  | .br g s_ d => Sys2Proof.Machine.execBr g s_ d s
  | .brp g s_ d => Sys2Proof.Machine.execBrp g s_ d s
  | .call g s_ d => Sys2Proof.Machine.execCall g s_ d s
  | .ld d a g o c w e => Sys2Proof.Machine.execLd d a g o c w e s
  | .st d a g o c w e => Sys2Proof.Machine.execSt d a g o c w e s
  | .ldm d a g o c n => Sys2Proof.Machine.execLdm d a g o c n s
  | .stm d a g o c n => Sys2Proof.Machine.execStm d a g o c n s
  | .amoswap d a g o c w => Sys2Proof.Machine.execAmoswap d a g o c w s
  | .amoadd d a g o c w => Sys2Proof.Machine.execAmoadd d a g o c w s
  | .amoand d a g o c w => Sys2Proof.Machine.execAmoand d a g o c w s
  | .amoor d a g o c w => Sys2Proof.Machine.execAmoor d a g o c w s
  | .amoxor d a g o c w => Sys2Proof.Machine.execAmoxor d a g o c w s
  | .amomin d a g o c w => Sys2Proof.Machine.execAmomin d a g o c w s
  | .amomax d a g o c w => Sys2Proof.Machine.execAmomax d a g o c w s
  | .amominu d a g o c w => Sys2Proof.Machine.execAmominu d a g o c w s
  | .amomaxu d a g o c w => Sys2Proof.Machine.execAmomaxu d a g o c w s
  | .cas d a g o c w => Sys2Proof.Machine.execCas d a g o c w s
  | .nop q => Sys2Proof.Machine.execNop q s
  | .halt q => Sys2Proof.Machine.execHalt q s
  | .yield q => Sys2Proof.Machine.execYield q s
  | .trap c q => Sys2Proof.Machine.execTrap c q s
  | .rte q => Sys2Proof.Machine.execRte q s
  | .sysr d r q => Sys2Proof.Machine.execSysr d r q s
  | .sysw a r q => Sys2Proof.Machine.execSysw a r q s
  | .get d n q c => Sys2Proof.Machine.execGet d n q c s
  | .peekInlet d n q => Sys2Proof.Machine.execPeekInlet d n q s
  | .peekOutlet d n q => Sys2Proof.Machine.execPeekOutlet d n q s
  | .accz n q => Sys2Proof.Machine.execAccz n q s
  | .accr d n q c => Sys2Proof.Machine.execAccr d n q c s
  | .scmdStop a n q => Sys2Proof.Machine.execScmdStop a n q s
  | .scmdAddI32 a n q => Sys2Proof.Machine.execScmdAddI32 a n q s
  | .scmdAddI64 a n q => Sys2Proof.Machine.execScmdAddI64 a n q s
  | .scmdAddF32 a n q => Sys2Proof.Machine.execScmdAddF32 a n q s
  | .scmdWaddI32 a n q => Sys2Proof.Machine.execScmdWaddI32 a n q s
  | .scmdWaddF32 a n q => Sys2Proof.Machine.execScmdWaddF32 a n q s
  | .scmdMaxI32 a n q => Sys2Proof.Machine.execScmdMaxI32 a n q s
  | .scmdMinI32 a n q => Sys2Proof.Machine.execScmdMinI32 a n q s
  | .scmdMaxF32 a n q => Sys2Proof.Machine.execScmdMaxF32 a n q s
  | .scmdMinF32 a n q => Sys2Proof.Machine.execScmdMinF32 a n q s
  | .scmdCount a n q => Sys2Proof.Machine.execScmdCount a n q s
  | .scmdKeyAdd a n q => Sys2Proof.Machine.execScmdKeyAdd a n q s
  | .scmdKeyWadd a n q => Sys2Proof.Machine.execScmdKeyWadd a n q s
  | .scmdOr a n q => Sys2Proof.Machine.execScmdOr a n q s
  | .scmdXor a n q => Sys2Proof.Machine.execScmdXor a n q s
  | .scmdCopy a n q => Sys2Proof.Machine.execScmdCopy a n q s
  | .arm a s_ q => Sys2Proof.Machine.execArm a s_ q s
  | .launch a q => Sys2Proof.Machine.execLaunch a q s
  | .recv d c q n => Sys2Proof.Machine.execRecv d c q n s
  | .put a n q c => Sys2Proof.Machine.execPut a n q c s
  | .send a c q n => Sys2Proof.Machine.execSend a c q n s
  | .qbind a n q => Sys2Proof.Machine.execQbind a n q s
  | .qstatInlet d n q => Sys2Proof.Machine.execQstatInlet d n q s
  | .qstatOutlet d n q => Sys2Proof.Machine.execQstatOutlet d n q s
  | .qgapInlet d n q => Sys2Proof.Machine.execQgapInlet d n q s
  | .qgapOutlet d n q => Sys2Proof.Machine.execQgapOutlet d n q s
  | .qdrainInlet n q => Sys2Proof.Machine.execQdrainInlet n q s
  | .qdrainOutlet n q => Sys2Proof.Machine.execQdrainOutlet n q s
  | .cfgld a q => Sys2Proof.Machine.execCfgld a q s
  | .cfgchk d q => Sys2Proof.Machine.execCfgchk d q s
  | .cfgflip q => Sys2Proof.Machine.execCfgflip q s
  | .cfgabort q => Sys2Proof.Machine.execCfgabort q s
  | .grun n q => Sys2Proof.Machine.execGrun n q s
  | .gwait n q => Sys2Proof.Machine.execGwait n q s
  | .gstat d n q => Sys2Proof.Machine.execGstat d n q s
  | .fence q c => Sys2Proof.Machine.execFence q c s
  | .bari a q c => Sys2Proof.Machine.execBari a q c s
  | .bara a q c => Sys2Proof.Machine.execBara a q c s
  | .barw a q c => Sys2Proof.Machine.execBarw a q c s
  | .bart a k q c => Sys2Proof.Machine.execBart a k q c s
  | .statf a q => Sys2Proof.Machine.execStatf a q s
  | .retune a q => Sys2Proof.Machine.execRetune a q s
  | .arithAdd a b m r v p => Sys2Proof.Machine.execArithAdd a b m r v p s
  | .arithSub a b m r v p => Sys2Proof.Machine.execArithSub a b m r v p s
  | .arithMul a b m r v p => Sys2Proof.Machine.execArithMul a b m r v p s
  | .arithFma a b m r v p => Sys2Proof.Machine.execArithFma a b m r v p s
  | .arithMin a b m o => Sys2Proof.Machine.execArithMin a b m o s
  | .arithMax a b m o => Sys2Proof.Machine.execArithMax a b m o s
  | .arithAbs a b m o => Sys2Proof.Machine.execArithAbs a b m o s
  | .arithNeg a b m o => Sys2Proof.Machine.execArithNeg a b m o s
  | .arithAnd a b m o => Sys2Proof.Machine.execArithAnd a b m o s
  | .arithOr a b m o => Sys2Proof.Machine.execArithOr a b m o s
  | .arithXor a b m o => Sys2Proof.Machine.execArithXor a b m o s
  | .arithShl a b m o => Sys2Proof.Machine.execArithShl a b m o s
  | .arithShrLogical a b m o => Sys2Proof.Machine.execArithShrLogical a b m o s
  | .arithShrArithmetic a b m o => Sys2Proof.Machine.execArithShrArithmetic a b m o s
  | .arithCmpEq a b m o => Sys2Proof.Machine.execArithCmpEq a b m o s
  | .arithCmpNe a b m o => Sys2Proof.Machine.execArithCmpNe a b m o s
  | .arithCmpLt a b m o => Sys2Proof.Machine.execArithCmpLt a b m o s
  | .arithCmpGe a b m o => Sys2Proof.Machine.execArithCmpGe a b m o s
  | .arithCmpLtu a b m o => Sys2Proof.Machine.execArithCmpLtu a b m o s
  | .arithCmpGeu a b m o => Sys2Proof.Machine.execArithCmpGeu a b m o s
  | .arithSel a b m o => Sys2Proof.Machine.execArithSel a b m o s
  | .arithSat a b m o => Sys2Proof.Machine.execArithSat a b m o s
  | .copy a b m o => Sys2Proof.Machine.execCopy a b m o s
  | .gate a b m o => Sys2Proof.Machine.execGate a b m o s
  | .jcmp a b m o => Sys2Proof.Machine.execJcmp a b m o s
  | .isect a b m o => Sys2Proof.Machine.execIsect a b m o s
  | .unionKeys a b m o => Sys2Proof.Machine.execUnionKeys a b m o s
  | .diff a b m o => Sys2Proof.Machine.execDiff a b m o s
  | .jwin a b m o => Sys2Proof.Machine.execJwin a b m o s
  | .stp a b m o => Sys2Proof.Machine.execStp a b m o s
  | .stk a b m o => Sys2Proof.Machine.execStk a b m o s
  | .sth a b m o => Sys2Proof.Machine.execSth a b m o s
  | .stt a b m o => Sys2Proof.Machine.execStt a b m o s
  | .rord a b m o => Sys2Proof.Machine.execRord a b m o s
  | .rrel a b m o => Sys2Proof.Machine.execRrel a b m o s
  | .ains a b m o => Sys2Proof.Machine.execAins a b m o s
  | .amax a b m o => Sys2Proof.Machine.execAmax a b m o s
  | .amin a b m o => Sys2Proof.Machine.execAmin a b m o s
  | .alook a b m o => Sys2Proof.Machine.execAlook a b m o s
  | .adrain a b m o => Sys2Proof.Machine.execAdrain a b m o s
  | .aspill a b m o => Sys2Proof.Machine.execAspill a b m o s
  | .aclr a b m o => Sys2Proof.Machine.execAclr a b m o s
  | .mrd a b m o => Sys2Proof.Machine.execMrd a b m o s
  | .mwr a b m o => Sys2Proof.Machine.execMwr a b m o s
  | .mamo a b m o => Sys2Proof.Machine.execMamo a b m o s
  | .msct a b m o => Sys2Proof.Machine.execMsct a b m o s
  | .mgat a b m o => Sys2Proof.Machine.execMgat a b m o s
  | .agen a b m o => Sys2Proof.Machine.execAgen a b m o s
  | .agbase a b m o => Sys2Proof.Machine.execAgbase a b m o s
  | .agre a b m o => Sys2Proof.Machine.execAgre a b m o s
  | .win a b m o => Sys2Proof.Machine.execWin a b m o s
  | .wflush a b m o => Sys2Proof.Machine.execWflush a b m o s
  | .mma a b m o => Sys2Proof.Machine.execMma a b m o s
  | .mmas a b m o => Sys2Proof.Machine.execMmas a b m o s
  | .mdrn a b m o => Sys2Proof.Machine.execMdrn a b m o s
  | .mzero a b m o => Sys2Proof.Machine.execMzero a b m o s
  | .oadd a b m o => Sys2Proof.Machine.execOadd a b m o s
  | .omul a b m o => Sys2Proof.Machine.execOmul a b m o s
  | .omac a b m o => Sys2Proof.Machine.execOmac a b m o s
  | .ocut a b m o => Sys2Proof.Machine.execOcut a b m o s
  | .oconv a b m r v p => Sys2Proof.Machine.execOconv a b m r v p s
  | .cvt a b m r v p => Sys2Proof.Machine.execCvt a b m r v p s
  | .rsc a b m r v p => Sys2Proof.Machine.execRsc a b m r v p s
  | .pack a b m r v p => Sys2Proof.Machine.execPack a b m r v p s
  | .unpack a b m o => Sys2Proof.Machine.execUnpack a b m o s
  | .stat a b m o => Sys2Proof.Machine.execStat a b m o s
  | .polImm d v => Sys2Proof.Machine.execPolImm d v s
  | .polFld d f => Sys2Proof.Machine.execPolFld d f s
  | .polSld d f => Sys2Proof.Machine.execPolSld d f s
  | .polPlus d s_ => Sys2Proof.Machine.execPolPlus d s_ s
  | .polMinus d s_ => Sys2Proof.Machine.execPolMinus d s_ s
  | .polLow d s_ => Sys2Proof.Machine.execPolLow d s_ s
  | .polHigh d s_ => Sys2Proof.Machine.execPolHigh d s_ s
  | .polBand d s_ => Sys2Proof.Machine.execPolBand d s_ s
  | .polBor d s_ => Sys2Proof.Machine.execPolBor d s_ s
  | .polLsl d n => Sys2Proof.Machine.execPolLsl d n s
  | .polLsr d n => Sys2Proof.Machine.execPolLsr d n s
  | .polTestEq d s_ => Sys2Proof.Machine.execPolTestEq d s_ s
  | .polTestNe d s_ => Sys2Proof.Machine.execPolTestNe d s_ s
  | .polTestLt d s_ => Sys2Proof.Machine.execPolTestLt d s_ s
  | .polTestGe d s_ => Sys2Proof.Machine.execPolTestGe d s_ s
  | .polTestLtu d s_ => Sys2Proof.Machine.execPolTestLtu d s_ s
  | .polTestGeu d s_ => Sys2Proof.Machine.execPolTestGeu d s_ s
  | .polSkip d => Sys2Proof.Machine.execPolSkip d s
  | .polJump d => Sys2Proof.Machine.execPolJump d s
  | .polEach => Sys2Proof.Machine.execPolEach s
  | .polNext d => Sys2Proof.Machine.execPolNext d s
  | .polPick d => Sys2Proof.Machine.execPolPick d s
  | .polDecide => Sys2Proof.Machine.execPolDecide s
  | .polVeto => Sys2Proof.Machine.execPolVeto s
  | .polStop => Sys2Proof.Machine.execPolStop s
  | .kcmd b a d => Sys2Proof.Machine.execKcmd b a d s
  | .kfence a => Sys2Proof.Machine.execKfence a s
  | .kpoll a d => Sys2Proof.Machine.execKpoll a d s
  | .kqst b d => Sys2Proof.Machine.execKqst b d s
  | .khaltHalt a => Sys2Proof.Machine.execKhaltHalt a s
  | .khaltResume a => Sys2Proof.Machine.execKhaltResume a s
  | .kpeek a d => Sys2Proof.Machine.execKpeek a d s
  | .kreplay b a => Sys2Proof.Machine.execKreplay b a s
  | .kbbx a d => Sys2Proof.Machine.execKbbx a d s
  | .wordNotAnInstruction w => Sys2Proof.Machine.execWordNotAnInstruction w s
  | .illegalInstructionException w => Sys2Proof.Machine.execIllegalInstructionException w s
  | .getComplete q => Sys2Proof.Machine.execGetComplete q s
  | .accrComplete q => Sys2Proof.Machine.execAccrComplete q s
  | .recvComplete q => Sys2Proof.Machine.execRecvComplete q s
  | .barwComplete q => Sys2Proof.Machine.execBarwComplete q s
  | .gwaitComplete q => Sys2Proof.Machine.execGwaitComplete q s
  | .cfgchkComplete q => Sys2Proof.Machine.execCfgchkComplete q s
  | .backOffEnd q => Sys2Proof.Machine.execBackOffEnd q s
  | .tokenForward c k => Sys2Proof.Machine.execTokenForward c k s
  | .cellFlip c => Sys2Proof.Machine.execCellFlip c s
  | .cellMute c => Sys2Proof.Machine.execCellMute c s
  | .pulseArrival k => Sys2Proof.Machine.execPulseArrival k s
  | .tileAdmit r sec => Sys2Proof.Machine.execTileAdmit r sec s
  | .tileEnd r sec => Sys2Proof.Machine.execTileEnd r sec s
  | .queueOffer src dst => Sys2Proof.Machine.execQueueOffer src dst s
  | .leaveShedding q => Sys2Proof.Machine.execLeaveShedding q s
  | .spillReplay q => Sys2Proof.Machine.execSpillReplay q s
  | .queueClosed q => Sys2Proof.Machine.execQueueClosed q s
  | .accumulatorTake q n => Sys2Proof.Machine.execAccumulatorTake q n s
  | .switchConvert c inlet => Sys2Proof.Machine.execSwitchConvert c inlet s
  | .memportReadReturn c => Sys2Proof.Machine.execMemportReadReturn c s
  | .atomicPerform c k => Sys2Proof.Machine.execAtomicPerform c k s
  | .heldStoreRelease c => Sys2Proof.Machine.execHeldStoreRelease c s
  | .memportOrder c => Sys2Proof.Machine.execMemportOrder c s
  | .phaseOpen c => Sys2Proof.Machine.execPhaseOpen c s
  | .lastPulse c => Sys2Proof.Machine.execLastPulse c s
  | .sliceAccess k => Sys2Proof.Machine.execSliceAccess k s
  | .sliceCountReturn c ph => Sys2Proof.Machine.execSliceCountReturn c ph s
  | .orderQuery a k => Sys2Proof.Machine.execOrderQuery a k s
  | .orderQueryAnswer k => Sys2Proof.Machine.execOrderQueryAnswer k s
  | .dispatchLoadComplete r => Sys2Proof.Machine.execDispatchLoadComplete r s
  | .configFetchComplete r k => Sys2Proof.Machine.execConfigFetchComplete r k s
  | .freezeLineArrival c skid => Sys2Proof.Machine.execFreezeLineArrival c skid s
  | .harpGrant d out elapsed => Sys2Proof.Machine.execHarpGrant d out elapsed s
  | .egressOffer c so => Sys2Proof.Machine.execEgressOffer c so s
  | .cutComplete r => Sys2Proof.Machine.execCutComplete r s
  | .statAdderMerge r x y => Sys2Proof.Machine.execStatAdderMerge r x y s
  | .statRootAdd r => Sys2Proof.Machine.execStatRootAdd r s
  | .schedulerDecision d => Sys2Proof.Machine.execSchedulerDecision d s
  | .launchDescriptor d => Sys2Proof.Machine.execLaunchDescriptor d s
  | .create d => Sys2Proof.Machine.execCreate d s
  | .contextLoad d => Sys2Proof.Machine.execContextLoad d s
  | .form d => Sys2Proof.Machine.execForm d s
  | .assign d => Sys2Proof.Machine.execAssign d s
  | .kfenceComplete m => Sys2Proof.Machine.execKfenceComplete m s
  | .contextPreempt d => Sys2Proof.Machine.execContextPreempt d s
  | .contextResume d ecc => Sys2Proof.Machine.execContextResume d ecc s
  | .terminate d => Sys2Proof.Machine.execTerminate d s
  | .setbudget d => Sys2Proof.Machine.execSetbudget d s
  | .dissolve d => Sys2Proof.Machine.execDissolve d s
  | .policy d => Sys2Proof.Machine.execPolicy d s
  | .invalidation d => Sys2Proof.Machine.execInvalidation d s
  | .transferCopy d => Sys2Proof.Machine.execTransferCopy d s
  | .conn d => Sys2Proof.Machine.execConn d s
  | .close d => Sys2Proof.Machine.execClose d s
  | .transportWrite d => Sys2Proof.Machine.execTransportWrite d s
  | .transportRead d => Sys2Proof.Machine.execTransportRead d s
  | .transportSend d => Sys2Proof.Machine.execTransportSend d s
  | .reg d => Sys2Proof.Machine.execReg d s
  | .dereg d => Sys2Proof.Machine.execDereg d s
  | .recoverRerun d => Sys2Proof.Machine.execRecoverRerun d s
  | .recoverResume d => Sys2Proof.Machine.execRecoverResume d s
  | .recoverDeliver d => Sys2Proof.Machine.execRecoverDeliver d s
  | .recoverEnd d => Sys2Proof.Machine.execRecoverEnd d s
  | .linkEnable d => Sys2Proof.Machine.execLinkEnable d s
  | .linkDisable d => Sys2Proof.Machine.execLinkDisable d s
  | .watch d => Sys2Proof.Machine.execWatch d s
  | .remote d => Sys2Proof.Machine.execRemote d s
  | .quota d => Sys2Proof.Machine.execQuota d s
  | .lateen d => Sys2Proof.Machine.execLateen d s
  | .mgmtReset d => Sys2Proof.Machine.execMgmtReset d s
  | .peertab d => Sys2Proof.Machine.execPeertab d s
  | .hostringOpen d => Sys2Proof.Machine.execHostringOpen d s
  | .hostringClose d => Sys2Proof.Machine.execHostringClose d s
  | .hostRingTailWrite e d tail => Sys2Proof.Machine.execHostRingTailWrite e d tail s
  | .hostRingEntryTake e d => Sys2Proof.Machine.execHostRingEntryTake e d s
  | .hostBarWrite bar2 off v => Sys2Proof.Machine.execHostBarWrite bar2 off v s
  | .functionReady d bit => Sys2Proof.Machine.execFunctionReady d bit s
  | .pageWalk d ctx va => Sys2Proof.Machine.execPageWalk d ctx va s
  | .retuneComplete r => Sys2Proof.Machine.execRetuneComplete r s
  | .bridgeFrameReceive d edge crcOk => Sys2Proof.Machine.execBridgeFrameReceive d edge crcOk s
  | .bridgeRetryExhaustion d edge => Sys2Proof.Machine.execBridgeRetryExhaustion d edge s
  | .linkTrained d l => Sys2Proof.Machine.execLinkTrained d l s
  | .linkTrainingTimeout d l => Sys2Proof.Machine.execLinkTrainingTimeout d l s
  | .linkFault d l => Sys2Proof.Machine.execLinkFault d l s
  | .ethernetFrameReceive d port f => Sys2Proof.Machine.execEthernetFrameReceive d port f s
  | .transportWritePacket d p => Sys2Proof.Machine.execTransportWritePacket d p s
  | .transportSendPacket d p => Sys2Proof.Machine.execTransportSendPacket d p s
  | .connectionAnswer d conn => Sys2Proof.Machine.execConnectionAnswer d conn s
  | .retransmissionTimeout d conn pkt => Sys2Proof.Machine.execRetransmissionTimeout d conn pkt s
  | .messageCompletion d k m => Sys2Proof.Machine.execMessageCompletion d k m s
  | .statusBlockUpdate d conn m => Sys2Proof.Machine.execStatusBlockUpdate d conn m s
  | .submitRingNotify d conn => Sys2Proof.Machine.execSubmitRingNotify d conn s
  | .watchdogExpiry r => Sys2Proof.Machine.execWatchdogExpiry r s
  | .remoteTimeout a => Sys2Proof.Machine.execRemoteTimeout a s
  | .patrolScrub line found => Sys2Proof.Machine.execPatrolScrub line found s
  | .cellStoreEccError at_ double => Sys2Proof.Machine.execCellStoreEccError at_ double s
  | .rowManagerCacheError m e => Sys2Proof.Machine.execRowManagerCacheError m e s
  | .policyStepOverrun d => Sys2Proof.Machine.execPolicyStepOverrun d s
  | .budgetPeriod d => Sys2Proof.Machine.execBudgetPeriod d s
  | .schedulerPeriod d => Sys2Proof.Machine.execSchedulerPeriod d s
  | .islandWake i_ => Sys2Proof.Machine.execIslandWake i_ s
  | .frequencyStep i_ thermal => Sys2Proof.Machine.execFrequencyStep i_ thermal s
  | .thermalStop i_ => Sys2Proof.Machine.execThermalStop i_ s
  | .sigvVerdict q => Sys2Proof.Machine.execSigvVerdict q s
  | .keyhReply q => Sys2Proof.Machine.execKeyhReply q s
  | .islandLeavesOn i_ off => Sys2Proof.Machine.execIslandLeavesOn i_ off s
  | .attest => Sys2Proof.Machine.execAttest s
  | .importKey => Sys2Proof.Machine.execImportKey s
  | .drop => Sys2Proof.Machine.execDrop s
  | .powerOn => Sys2Proof.Machine.execPowerOn s
  | .warmReset => Sys2Proof.Machine.execWarmReset s
  | .hostHotReset => Sys2Proof.Machine.execHostHotReset s
  | .instructionFetchFault => Sys2Proof.Machine.execInstructionFetchFault s
  | .powerOff => Sys2Proof.Machine.execPowerOff s
  | .hostLinkUp => Sys2Proof.Machine.execHostLinkUp s
  | .residentOsStart => Sys2Proof.Machine.execResidentOsStart s

end Sys2Proof.Machine
end

