-- ==== Sys2Proof/Machine/Step.lean ====
section
/-!
DEFINITION. One step of the module: the next turn, the instruction it brings, its meaning, and what time does after it.
-/

namespace Sys2Proof.Machine

/-- A result with a function applied to its next state. -/
def thenNext (r : Host.Outcome State Fault Refusal) (f : State → State) : Host.Outcome State Fault Refusal :=
  match r with
  | .next s => .next (f s)
  | .fault e => .fault e
  | .refused e => .refused e

/-- One step (DESIGN CHOICE, log entry 10). -/
def step (s : State) : Host.Outcome State Fault Refusal :=
  match s.takeTurn.2.fetch s.takeTurn.1 with
  | .run i s1 => thenNext (exec i s1) (fun t => t.afterTurn s.takeTurn.1 s1)
  | .pick c s1 => thenNext (issueFirst exec c s1 8) (fun t => t.afterTurn s.takeTurn.1 s1)
  | .idle s1 => .next s1
  | .stop f => .fault f
  | .refuse r => .refused r

/-- The state with an instruction placed where the next step fetches it: a sequencer word at the program counter of the
sequencer whose turn it is, a row manager's word at that of row manager 0, a node word in a slot of a cell of its kind, and a
policy word in a decision of die 0 (DESIGN CHOICE, log entry 11). -/
def State.withFetchWord (s : State) (nbits w : Nat) : State :=
  match setOfWord nbits w with
  | some (.sequencer, _) => s.placeSeqWord w
  | some (.rowManager, _) => s.placeRmWord w
  | some (.node, _) => s.placeNodeWord w
  | some (.policy, _) => s.placePolicyWord w
  | none => if nbits = 16 then s.placePolicyWord w else s.placeSeqWord w

end Sys2Proof.Machine
end

