-- ==== Sys2Proof/Safety.lean ====
section
/-!
DEFINITION. What counts as a safe step and a well-kept state, in the terms the statements use.
-/

namespace Sys2Proof.Machine

/-- A result that goes on in a state with a property. -/
def Goes (r : Host.Outcome State Fault Refusal) (p : State → Prop) : Prop := ∃ t, r = .next t ∧ p t

/-- A result that, where it goes on, goes on in a state with a property. -/
def IfNext (r : Host.Outcome State Fault Refusal) (p : State → Prop) : Prop := ∀ t, r = .next t → p t

/-- Memory is in its canonical form. -/
def MemOk (s : State) : Prop := Memory.wf s.mem = true

end Sys2Proof.Machine
end

