-- ==== Sys2Proof/Certificates/Slice0/Obligations.lean ====
section
/-!
DEFINITION. The statements about the model. Each docstring names the rules of spec/ that it formalises.
-/

section

open Sys2Proof Sys2Proof.Machine

/-! ### Words used in the statements -/

namespace Sys2Proof.Cert

/-- The sequencer whose instruction runs. -/
def me (s : State) : Seq := s.seq s.seqTurn

/-- Register `r` of the sequencer whose instruction runs, as an operand reads it (R121). -/
def reg (s : State) (r : BitVec 5) : Word64 := if r = 0 then 0 else (me s).g[r.toNat]

/-- The guard of an instruction holds (R49): predicate `g` is true where `sn` is 0, false where `sn` is 1, and `p0` is true. -/
def guardOn (s : State) (g : BitVec 3) (sn : BitVec 1) : Prop :=
  (if g = 0 then true else (me s).p[g.toNat]) = (if sn = 0 then true else false)

/-- The state behind an instruction whose only effect is a value in register `d` (R121: nothing is written to g0). -/
def wrote (s : State) (d : BitVec 5) (v : Word64) : State :=
  s.setSeq s.seqTurn { me s with g := if d = 0 then (me s).g else (me s).g.set d.toNat v, pc := (me s).pc + 4 }

/-- The state behind an instruction whose only effect is a predicate (R121: nothing is written to p0). -/
def wroteP (s : State) (d : BitVec 3) (v : Bool) : State :=
  s.setSeq s.seqTurn { me s with p := if d = 0 then (me s).p else (me s).p.set d.toNat v, pc := (me s).pc + 4 }

/-- The state behind an instruction that only moves the program counter. -/
def jumped (s : State) (pc : Word64) : State := s.setSeq s.seqTurn { me s with pc := pc }

/-- The guard of an instruction and its sense, for the instructions that carry one (R49, R101, R102). -/
def guardOf : Instr → Option (BitVec 3 × BitVec 1)
  | .add _ _ _ g s | .sub _ _ _ g s | .and _ _ _ g s | .or _ _ _ g s | .xor _ _ _ g s | .shl _ _ _ g s | .shr _ _ _ g s
  | .sar _ _ _ g s | .mul _ _ _ g s | .mulh _ _ _ g s | .div _ _ _ g s | .rem _ _ _ g s | .min _ _ _ g s | .max _ _ _ g s
  | .bfx _ _ _ g s | .bfi _ _ _ g s | .mad _ _ _ g s | .sigv _ _ _ g s
  | .cmpeq _ _ _ g s | .cmpne _ _ _ g s | .cmplt _ _ _ g s | .cmpge _ _ _ g s | .cmpltu _ _ _ g s | .cmpgeu _ _ _ g s
  | .adds _ _ _ g s _ | .crc _ _ _ g s _ | .sel _ _ _ g s _
  | .clz _ _ g s | .popc _ _ g s | .pgprobe _ _ g s | .keyh _ _ g s | .jr _ g s | .ret g s
  | .br g s _ | .brp g s _ | .call g s _ => some (g, s)
  | .addi _ _ g _ | .andi _ _ g _ | .ori _ _ g _ | .xori _ _ g _ | .shli _ _ g _ | .shri _ _ g _ | .sari _ _ g _ | .loop _ g _
  | .ld _ _ g _ _ _ _ | .st _ _ g _ _ _ _ | .ldm _ _ g _ _ _ | .stm _ _ g _ _ _
  | .amoswap _ _ g _ _ _ | .amoadd _ _ g _ _ _ | .amoand _ _ g _ _ _ | .amoor _ _ g _ _ _ | .amoxor _ _ g _ _ _
  | .amomin _ _ g _ _ _ | .amomax _ _ g _ _ _ | .amominu _ _ g _ _ _ | .amomaxu _ _ g _ _ _ | .cas _ _ g _ _ _
  | .nop g | .halt g | .yield g | .trap _ g | .rte g | .sysr _ _ g | .sysw _ _ g | .launch _ g | .statf _ g | .retune _ g
  | .get _ _ g _ | .peekInlet _ _ g | .peekOutlet _ _ g | .accz _ g | .accr _ _ g _ | .arm _ _ g | .recv _ _ g _
  | .put _ _ g _ | .send _ _ g _ | .qbind _ _ g | .qstatInlet _ _ g | .qstatOutlet _ _ g | .qgapInlet _ _ g
  | .qgapOutlet _ _ g | .qdrainInlet _ g | .qdrainOutlet _ g | .cfgld _ g | .cfgchk _ g | .cfgflip g | .cfgabort g
  | .grun _ g | .gwait _ g | .gstat _ _ g | .fence g _ | .bari _ g _ | .bara _ g _ | .barw _ g _ | .bart _ _ g _
  | .scmdStop _ _ g | .scmdAddI32 _ _ g | .scmdAddI64 _ _ g | .scmdAddF32 _ _ g | .scmdWaddI32 _ _ g | .scmdWaddF32 _ _ g
  | .scmdMaxI32 _ _ g | .scmdMinI32 _ _ g | .scmdMaxF32 _ _ g | .scmdMinF32 _ _ g | .scmdCount _ _ g | .scmdKeyAdd _ _ g
  | .scmdKeyWadd _ _ g | .scmdOr _ _ g | .scmdXor _ _ g | .scmdCopy _ _ g => some (g, 0)
  | _ => none

/-- The state after a trap of the running sequencer into its handler (R130, R383). -/
def trapped (s : State) (cause : Nat) (val : Word64) : State :=
  s.setSeq s.seqTurn { me s with
    tepc := (me s).pc, tcause := BitVec.ofNat 64 cause, tval := val, wait := .none, intrap := true, pc := (me s).tvec }

/-- The running sequencer can take a trap: it is in no handler and has one (R383). -/
def canTrap (s : State) : Prop := (me s).intrap = false ∧ (me s).tvec ≠ 0

/-- The instructions that R388 names, with their guard and the value of their trap. -/
def frozenOf : Instr → Option (BitVec 3 × Nat)
  | .put _ n g _ | .peekInlet _ n g | .qbind _ n g | .qstatInlet _ n g | .qgapInlet _ n g | .qdrainInlet n g
  | .grun n g | .gwait n g | .gstat _ n g | .arm _ n g => some (g, n.toNat)
  | .get _ n g _ | .peekOutlet _ n g | .qstatOutlet _ n g | .qgapOutlet _ n g | .qdrainOutlet n g => some (g, 64 + n.toNat)
  | .accz n g | .accr _ n g _ | .scmdStop _ n g | .scmdAddI32 _ n g | .scmdAddI64 _ n g | .scmdAddF32 _ n g | .scmdWaddI32 _ n g
  | .scmdWaddF32 _ n g | .scmdMaxI32 _ n g | .scmdMinI32 _ n g | .scmdMaxF32 _ n g | .scmdMinF32 _ n g | .scmdCount _ n g
  | .scmdKeyAdd _ n g | .scmdKeyWadd _ n g | .scmdOr _ n g | .scmdXor _ n g | .scmdCopy _ n g => some (g, 128 + n.toNat)
  | .cfgld _ g | .cfgchk _ g | .cfgflip g | .cfgabort g | .statf _ g | .retune _ g => some (g, 0)
  | _ => none

end Sys2Proof.Cert

open Sys2Proof.Cert

/-! ### Words and instructions -/

/-- Decoding gives back what encoding wrote, for every well-formed instruction of the five encoded sets (R101 to R119). `khalt` has
one word for its two rows: it reads as the row of the halt, which acts on rs1 for both.
What log entry 12 names are the model's choices. -/
def Obligations.DecodeGivesBackWhatEncodeWrote : Prop :=
  ∀ (i : Instr) (w : Nat), i.wf = true → encode i = some w →
    (((encodeAlu i).isSome ∨ (encodeMem i).isSome ∨ (encodePort i).isSome) → decodeSeq w = .ok i) ∧
    ((encodeNode i).isSome → decodeNode w = .ok i) ∧
    ((encodePolicy i).isSome → decodePolicy w = .ok i) ∧
    ((encodeRm i).isSome → decodeRm w = .command (match i with
      | .khaltResume a => .khaltHalt a
      | j => j))

/-- Only the words of the tables decode: a word that the sequencer's or the policy decoder takes is the encoding of the instruction that it
gives, and that instruction is well formed, so no reserved bit and no reserved operand passes (R101 to R109, R116 to R118). -/
def Obligations.DecodersTakeOnlyEncodings : Prop :=
  (∀ (w : Nat) (i : Instr), w < 2 ^ 32 → decodeSeq w = .ok i → i.wf = true ∧ encode i = some w) ∧
  ∀ (w : Nat) (i : Instr), w < 2 ^ 16 → decodePolicy w = .ok i → i.wf = true ∧ encode i = some w

/-- Words that the spec writes out, and the instructions that it says they are (R134, R138, R384), and two words that are none
(R103, R109). -/
def Obligations.WordsOfTheSpec : Prop :=
  decodeTableWord 32 0x10200005 = some (.lih 1 5) ∧
  decodeTableWord 32 0x04632018 = some (.crc 3 3 4 0 0 0) ∧
  decodeTableWord 32 0xB8028003 = some (.trap 5 0) ∧
  decodeTableWord 32 0xB8000004 = some (.rte 0) ∧
  decodeTableWord 32 0xB8000002 = some (.yield 0) ∧
  decodeTableWord 32 0xB9250005 = some (.sysr 9 10 0) ∧
  decodeTableWord 32 0xB8600006 = some (.sysw 3 0 0) ∧
  decodeSeq 0 = .error .illegalInstruction ∧ decodeSeq 0xFFFFFFFF = .error .illegalInstruction

/-! ### Integer instructions -/

/-- The register operations (R132): each writes its result to gD, moves past its word and changes nothing else;
and the corner of `div` and `rem` that the rule spells out, −2^63 by −1. -/
def Obligations.RegisterOperationsGiveTheirResults : Prop :=
  ∀ (s : State) (d a b : BitVec 5) (g : BitVec 3) (sn : BitVec 1), guardOn s g sn →
    let x := reg s a
    let y := reg s b
    exec (.add d a b g sn) s = .next (wrote s d (x + y)) ∧
    exec (.sub d a b g sn) s = .next (wrote s d (x - y)) ∧
    exec (.and d a b g sn) s = .next (wrote s d (x &&& y)) ∧
    exec (.or d a b g sn) s = .next (wrote s d (x ||| y)) ∧
    exec (.xor d a b g sn) s = .next (wrote s d (x ^^^ y)) ∧
    exec (.shl d a b g sn) s = .next (wrote s d (BitVec.ofNat 64 (x.toNat * 2 ^ (y.toNat % 64)))) ∧
    exec (.shr d a b g sn) s = .next (wrote s d (BitVec.ofNat 64 (x.toNat / 2 ^ (y.toNat % 64)))) ∧
    exec (.sar d a b g sn) s = .next (wrote s d (BitVec.ofInt 64 (x.toInt / 2 ^ (y.toNat % 64)))) ∧
    exec (.mul d a b g sn) s = .next (wrote s d (BitVec.ofNat 64 (x.toNat * y.toNat))) ∧
    exec (.mulh d a b g sn) s = .next (wrote s d (BitVec.ofInt 64 (x.toInt * y.toInt / 2 ^ 64))) ∧
    exec (.div d a b g sn) s = .next (wrote s d
      (if y = 0 then 0xFFFFFFFFFFFFFFFF else BitVec.ofInt 64 (x.toInt.tdiv y.toInt))) ∧
    exec (.rem d a b g sn) s = .next (wrote s d
      (if y = 0 then x else BitVec.ofInt 64 (x.toInt - x.toInt.tdiv y.toInt * y.toInt))) ∧
    exec (.min d a b g sn) s = .next (wrote s d (BitVec.ofInt 64 (min x.toInt y.toInt))) ∧
    exec (.max d a b g sn) s = .next (wrote s d (BitVec.ofInt 64 (max x.toInt y.toInt))) ∧
    (∃ n, n ≤ 64 ∧ x.toNat < 2 ^ (64 - n) ∧ (n < 64 → 2 ^ (63 - n) ≤ x.toNat) ∧
      exec (.clz d a g sn) s = .next (wrote s d (BitVec.ofNat 64 n))) ∧
    exec (.popc d a g sn) s = .next (wrote s d (BitVec.ofNat 64 ((List.range 64).countP (fun i => x.getLsbD i)))) ∧
    (x = 0x8000000000000000 → y = 0xFFFFFFFFFFFFFFFF →
      exec (.div d a b g sn) s = .next (wrote s d 0x8000000000000000) ∧ exec (.rem d a b g sn) s = .next (wrote s d 0))

/-- The immediate operations (R133) and `lih` (R134), which takes no guard. -/
def Obligations.ImmediateOperationsGiveTheirResults : Prop :=
  ∀ (s : State) (d a : BitVec 5) (g : BitVec 3) (i : BitVec 13) (n : BitVec 6) (v : BitVec 21),
    let x := reg s a
    (guardOn s g 0 →
      exec (.addi d a g i) s = .next (wrote s d (BitVec.ofInt 64 (x.toInt + i.toInt))) ∧
      exec (.andi d a g i) s = .next (wrote s d (x &&& BitVec.ofInt 64 i.toInt)) ∧
      exec (.ori d a g i) s = .next (wrote s d (x ||| BitVec.ofInt 64 i.toInt)) ∧
      exec (.xori d a g i) s = .next (wrote s d (x ^^^ BitVec.ofInt 64 i.toInt)) ∧
      exec (.shli d a g n) s = .next (wrote s d (BitVec.ofNat 64 (x.toNat * 2 ^ n.toNat))) ∧
      exec (.shri d a g n) s = .next (wrote s d (BitVec.ofNat 64 (x.toNat / 2 ^ n.toNat))) ∧
      exec (.sari d a g n) s = .next (wrote s d (BitVec.ofInt 64 (x.toInt / 2 ^ n.toNat)))) ∧
    exec (.lih d v) s = .next (wrote s d (BitVec.ofNat 64 ((reg s d).toNat * 2 ^ 21 % 2 ^ 64 + v.toNat)))

/-- `adds`, `bfx`, `bfi`, `mad`, `sel` and `crc` (R136 to R138): the bit fields bit by bit, and `crc` as the bitwise step of R138. -/
def Obligations.FieldOperationsGiveTheirResults : Prop :=
  ∀ (s : State) (d a b : BitVec 5) (g : BitVec 3) (sn : BitVec 1) (w : BitVec 2) (k : BitVec 3), guardOn s g sn →
    let x := reg s a
    let y := reg s b
    let pos := y.toNat % 64
    let len := y.toNat / 256 % 64 + 1
    exec (.adds d a b g sn w) s = .next (wrote s d (BitVec.ofNat 64 (x.toNat + y.toNat * 2 ^ w.toNat))) ∧
    exec (.mad d a b g sn) s = .next (wrote s d (BitVec.ofNat 64 ((reg s d).toNat + x.toNat * y.toNat))) ∧
    exec (.sel d a b g sn k) s = .next (wrote s d (if (if k = 0 then true else (me s).p[k.toNat]) then x else y)) ∧
    (∃ v : Word64, exec (.bfx d a b g sn) s = .next (wrote s d v) ∧
      ∀ i, i < 64 → v.getLsbD i = (decide (i < len) && x.getLsbD (pos + i))) ∧
    (∃ v : Word64, exec (.bfi d a b g sn) s = .next (wrote s d v) ∧
      ∀ i, i < 64 → v.getLsbD i = if pos ≤ i ∧ i < pos + len then x.getLsbD (i - pos) else (reg s d).getLsbD i) ∧
    exec (.crc d a b g sn w) s = .next (wrote s d (((List.range (8 * 2 ^ w.toNat)).foldl
      (fun (c : BitVec 32) i => if c.getLsbD 0 ^^ y.getLsbD i then (c >>> 1) ^^^ 0x82F63B78 else c >>> 1)
      (x.setWidth 32)).setWidth 64))

namespace Sys2Proof.Cert

/-- The word of an R-format instruction of major 0x01 with every field (R103, R104). -/
def wordR (func d a b g sn : Nat) : Nat := 2 ^ 26 + d * 2 ^ 21 + a * 2 ^ 16 + b * 2 ^ 11 + g * 2 ^ 8 + sn * 2 ^ 7 + func

end Sys2Proof.Cert

/-- The comparisons (R135): `lt` and `ge` signed, `ltu` and `geu` unsigned, a write to `p0` discarded; funcs 0x20 to 0x25 of major 0x01, whose
non-zero d[4:3] is a reserved field. -/
def Obligations.ComparisonsSetTheirPredicate : Prop :=
  ∀ (s : State) (d : BitVec 3) (a b : BitVec 5) (g : BitVec 3) (sn : BitVec 1),
    let x := reg s a
    let y := reg s b
    let table : List (Nat × Instr × Bool) := [(0x20, .cmpeq d a b g sn, decide (x = y)), (0x21, .cmpne d a b g sn, decide (x ≠ y)),
      (0x22, .cmplt d a b g sn, decide (x.toInt < y.toInt)), (0x23, .cmpge d a b g sn, decide (y.toInt ≤ x.toInt)),
      (0x24, .cmpltu d a b g sn, decide (x.toNat < y.toNat)), (0x25, .cmpgeu d a b g sn, decide (y.toNat ≤ x.toNat))]
    ∀ k ∈ table, (guardOn s g sn → exec k.2.1 s = .next (wroteP s d k.2.2)) ∧
      decodeSeq (wordR k.1 d.toNat a.toNat b.toNat g.toNat sn.toNat) = .ok k.2.1 ∧
      ∀ h : Nat, 1 ≤ h → h ≤ 3 → decodeSeq (wordR k.1 (8 * h + d.toNat) a.toNat b.toNat g.toNat sn.toNat) = .error .reservedField

/-- The branches (R139 to R141): where they go, what `call` and `loop` write, and the trap of a target that is no multiple of 4. -/
def Obligations.BranchesGoWhereTheRulesSay : Prop :=
  ∀ (s : State) (g : BitVec 3) (sn : BitVec 1) (a : BitVec 5) (disp : BitVec 22) (i : BitVec 13),
    let pc := (me s).pc
    (guardOn s g sn →
      exec (.br g sn disp) s = .next (jumped s (BitVec.ofInt 64 (pc.toInt + 4 * disp.toInt))) ∧
      exec (.brp g sn disp) s = .next (jumped s (BitVec.ofInt 64 (pc.toInt + 4 * disp.toInt))) ∧
      exec (.call g sn disp) s = .next (jumped (wrote s 31 (pc + 4)) (BitVec.ofInt 64 (pc.toInt + 4 * disp.toInt))) ∧
      ((reg s a).toNat % 4 = 0 → exec (.jr a g sn) s = .next (jumped s (reg s a))) ∧
      ((reg s 31).toNat % 4 = 0 → exec (.ret g sn) s = .next (jumped s (reg s 31))) ∧
      ((reg s a).toNat % 4 ≠ 0 → canTrap s → exec (.jr a g sn) s = .next (trapped s 6 (reg s a))) ∧
      ((reg s 31).toNat % 4 ≠ 0 → canTrap s → exec (.ret g sn) s = .next (trapped s 6 (reg s 31)))) ∧
    (guardOn s g 0 →
      (reg s a = 0 → exec (.loop a g i) s = .next (jumped s (pc + 4))) ∧
      (reg s a = 1 → exec (.loop a g i) s = .next (wrote s a 0)) ∧
      (1 < (reg s a).toNat → exec (.loop a g i) s =
        .next (jumped (wrote s a (reg s a - 1)) (BitVec.ofInt 64 (pc.toInt + 4 * i.toInt)))))

/-- An instruction whose guard is false does nothing but advance the program counter (R49, R128): every instruction that carries a
guard, in every state. -/
def Obligations.FalseGuardOnlyAdvances : Prop :=
  ∀ (i : Instr) (s : State) (g : BitVec 3) (sn : BitVec 1), guardOf i = some (g, sn) → ¬ guardOn s g sn →
    exec i s = .next (jumped s ((me s).pc + 4))

/-! ### Traps and system instructions -/

/-- Taking a trap, of every cause (R383): into the handler, or, in a handler already or without one, the kernel fault, in which the region
freezes with code 0x1D in the lead block's north-west cell, unless it held a fault already, and the sequencer stops where it is, where no two
regions have one lead sequencer and every region's lead cell is its own. `trap` takes one of cause 24 whose value is its code (R384). -/
def Obligations.TrapsAreTaken : Prop :=
  ∀ (s : State) (cause : Nat) (v : Word64),
    let t := s.takeTrap s.seqTurn cause v
    (canTrap s → t = trapped s cause v) ∧
    (¬ canTrap s →
      (let n := t.seq s.seqTurn
       n.tepc = (me s).pc ∧ n.tcause = BitVec.ofNat 64 cause ∧ n.tval = v ∧ n.pc = (me s).pc ∧ n.intrap = (me s).intrap ∧
       n.g = (me s).g ∧ n.p = (me s).p ∧
       ((∀ r ∈ s.regions, r.lead = s.seqTurn → s.regionOfSeq s.seqTurn = some r ∧ s.regionOf r.leadCell = some r) → n.run = .stopped)) ∧
      t.mem = s.mem ∧
      ∀ r, s.regionOfSeq s.seqTurn = some r → s.regionOf r.leadCell = some r →
        (t.cell r.leadCell).fault.valid = true ∧
        ((s.cell r.leadCell).fault.valid = false → (t.cell r.leadCell).fault.code = 0x1D) ∧
        ∀ y, t.region r.serial = some y → y.freezing = true ∨ y.kstate = .frozen) ∧
    ∀ (c : BitVec 6) (q : BitVec 3), guardOn s q 0 → exec (.trap c q) s = .next (s.takeTrap s.seqTurn 24 (BitVec.ofNat 64 c.toNat))

/-- `rte` returns (R384): PC := TEPC and INTRAP := 0; outside a handler it is IllegalReturn, cause 25. After the handler of a
delivered fault the sequencer stops until the OS has chosen (R397). -/
def Obligations.ReturnFromTrap : Prop :=
  ∀ (s : State) (q : BitVec 3), guardOn s q 0 →
    ((me s).intrap = true → exec (.rte q) s = .next (s.setSeq s.seqTurn
      { me s with pc := (me s).tepc, intrap := false, run := if (me s).run = .handler then .stopped else (me s).run })) ∧
    (canTrap s → exec (.rte q) s = .next (trapped s 25 0))

/-- `sysr` reads every control register of R123 to R126: KSTAT and ACCSTAT by their fields. -/
def Obligations.SysrReadsEveryControlRegister : Prop :=
  ∀ (s : State) (d : BitVec 5) (q : BitVec 3), guardOn s q 0 →
    let n := me s
    exec (.sysr d 0 q) s = .next (wrote s d n.tvec) ∧ exec (.sysr d 1 q) s = .next (wrote s d n.tcause) ∧
    exec (.sysr d 2 q) s = .next (wrote s d n.tval) ∧ exec (.sysr d 3 q) s = .next (wrote s d n.tepc) ∧
    (∃ v : Word64, exec (.sysr d 4 q) s = .next (wrote s d v) ∧
      v.toNat = n.cmode.toNat + 2 * n.resumed.toNat + 4 * n.intrap.toNat + 8 * n.disc.toNat + 256 * n.sections.toNat) ∧
    exec (.sysr d 5 q) s = .next (wrote s d (BitVec.ofNat 64 n.ctx.toNat)) ∧
    exec (.sysr d 6 q) s = .next (wrote s d n.cycle) ∧ exec (.sysr d 7 q) s = .next (wrote s d n.ptag) ∧
    exec (.sysr d 8 q) s = .next (wrote s d (BitVec.ofNat 64 s.seqTurn.toNat)) ∧
    (∃ v : Word64, exec (.sysr d 9 q) s = .next (wrote s d v) ∧
      v.toNat % 2 ^ 32 = n.accSat.toNat + 2 ^ 16 * n.accPois.toNat ∧ v.toNat < 2 ^ 48 ∧
      ∀ i : Fin 16, v.getLsbD (32 + i.val) = n.accs[i].attach.isSome) ∧
    exec (.sysr d 10 q) s = .next (wrote s d n.tscratch)

/-- `sysw` writes TVEC, TEPC and TSCRATCH, and traps on the others and on a misaligned address; the TVEC that it wrote governs the next trap; no
memory access is made; and `sysr` of CYCLE reads the sequencer's own count (R386). -/
def Obligations.SyswWritesTheWritableRegisters : Prop :=
  ∀ (s : State) (a : BitVec 5) (r : BitVec 6) (q : BitVec 3), guardOn s q 0 → r.toNat ≤ 10 →
    let v := reg s a
    let tvecIs := jumped (s.setSeq s.seqTurn { me s with tvec := v }) ((me s).pc + 4)
    (r = 0 → v.toNat % 4 = 0 → exec (.sysw a r q) s = .next tvecIs ∧ tvecIs.mem = s.mem ∧ tvecIs.pend = s.pend ∧
      ((me s).intrap = false → v ≠ 0 → ∀ cause x, ((tvecIs.takeTrap s.seqTurn cause x).seq s.seqTurn).pc = v)) ∧
    (r = 3 → v.toNat % 4 = 0 → exec (.sysw a r q) s = .next (jumped (s.setSeq s.seqTurn { me s with tepc := v }) ((me s).pc + 4))) ∧
    (r = 10 → exec (.sysw a r q) s = .next (jumped (s.setSeq s.seqTurn { me s with tscratch := v }) ((me s).pc + 4))) ∧
    ((r = 0 ∨ r = 3) → v.toNat % 4 ≠ 0 → canTrap s → exec (.sysw a r q) s = .next (trapped s 6 v)) ∧
    (r ≠ 0 → r ≠ 3 → r ≠ 10 → canTrap s → exec (.sysw a r q) s = .next (trapped s 26 (BitVec.ofNat 64 r.toNat))) ∧
    exec (.sysr a 6 q) s = .next (wrote s a (me s).cycle)

/-- A word at the program counter that is no instruction traps with its decode cause, whatever its guard bits, and TVAL holds the word
(R109, R110); a program counter whose page cannot be fetched from traps with TVAL holding it (R140, R142). -/
def Obligations.FetchAndDecodeTraps : Prop :=
  ∀ (s s1 : State), s.issues = true → s.fetchPath s.seqTurn = .up →
    (∀ (w : Word32) (c : DecodeCause), s.fetchWord s.seqTurn = (.ok w, s1) → decodeSeq w.toNat = .error c → canTrap s1 →
      exec (.wordNotAnInstruction w) s = .next (trapped s1
        (match c with
          | .illegalInstruction => 1
          | .unassignedEncoding => 2
          | .reservedField => 3
          | .reservedEncoding => 4) (BitVec.ofNat 64 w.toNat))) ∧
    ((me s).pc.toNat % 4 = 0 → canTrap s1 →
      (s.xlate s.seqTurn .x (me s).pc = (.error .page, s1) → exec .instructionFetchFault s = .next (trapped s1 7 (me s).pc)) ∧
      (s.xlate s.seqTurn .x (me s).pc = (.error .access, s1) → exec .instructionFetchFault s = .next (trapped s1 8 (me s).pc)))

/-- The instructions that R388 names, in the handler of a delivered fault (R397): each takes RegionFrozen, cause 27, with the port's
number, the section, the group or 0 in TVAL (R387, row 27). What taking a trap does is the subject of TrapsAreTaken.
That `qbind` gives the number of its inlet port is the model's choice (log entry 119). -/
def Obligations.FrozenRegionRefusesItsInstructions : Prop :=
  ∀ (i : Instr) (s : State) (q : BitVec 3) (v : Nat), frozenOf i = some (q, v) → guardOn s q 0 → (me s).run = .handler →
    exec i s = .next (s.takeTrap s.seqTurn 27 (BitVec.ofNat 64 v))

/-! ### Loads, stores, atomics -/

namespace Sys2Proof.Cert

/-- A memory access may issue (R128, R310). -/
def mayIssue (s : State) : Prop := (me s).acq = [] ∧ (s.pendOf s.seqTurn).length < 16

/-- The bridges on the way of every store that the running sequencer has issued are UP (R352). -/
def storesPass (s : State) : Prop := ∀ r ∈ s.pend, r.src = .seq s.seqTurn → s.pathTo (seqDie s.seqTurn) r.pa = .up

/-- A release at a scope that performs the earlier stores at once can be made: `.pkg` and `.sys` (R148, R352). -/
def mayRelease (s : State) (o : BitVec 2) (c : BitVec 3) : Prop := (o = 2 ∨ o = 3) → 4 ≤ c.toNat → storesPass s

/-- A state as an access of the running sequencer finds it: the stores ordered before it at a scope that reaches it are performed (R148,
R149). -/
def settled (s : State) : State := s.settle (.seq s.seqTurn)

/-- No issued store of an agent has been ordered before a later access of it. -/
def noneOrdered (s : State) : Prop := ∀ r ∈ s.pend, r.bound = 0

/-- An aligned access of `n` bytes at `va` reaches physical memory at `x`, and finds the state `s1` there (R142, R321, R327): the
page allows it, the bridges on its way are UP, and where it reads no line of it is poisoned. -/
def reaches (s s1 : State) (right : Right) (n : Nat) (va : Word64) (x : Xlated) : Prop :=
  va.toNat % n = 0 ∧ (∃ s0, s.xlate s.seqTurn right va = (.ok x, s0) ∧ s1 = settled s0) ∧
    s.pathTo (seqDie s.seqTurn) x.pa = .up ∧ (right ≠ .w → s1.poisonIn x.pa n = none)

/-- The state a release leaves behind (R148 to R150): at `.pkg` and `.sys` every store that the sequencer issued is performed, at a narrower
scope each is ordered before what follows toward the agents of that scope, and at `.cel`, which reaches none other, nothing changes. -/
def released (s : State) (o : BitVec 2) (c : BitVec 3) : State :=
  if ¬ (o = 2 ∨ o = 3) ∨ c = 0 then s
  else if 4 ≤ c.toNat then s.flush s.seqTurn
  else { s with pend := s.pend.map (fun r =>
    if r.src = .seq s.seqTurn then { r with bound := if r.bound.toNat < c.toNat then c else r.bound } else r) }

/-- A store of the running sequencer as it is issued (R147), in the cycle under way. -/
def issued (s : State) (x : Xlated) (bs : List Byte) : SliceReq :=
  { born := s.cyc, src := .seq s.seqTurn, ph := 0, write := true, va := 0, pa := x.pa, bytes := bs.mapIdx (fun i b => (x.pa + i, b)), len := bs.length,
    key := x.key, poison := false, id := 0, off := 0, inv := none, served := none }

/-- One atomic access (R145 to R148): behind its release and the sequencer's earlier stores to its bytes, which are performed in `s2`, register
`d` takes the old value, and memory the new one where there is one; every other byte reads as before under the page's key. -/
def atomicDoes (i : Instr) (s s1 : State) (o : BitVec 2) (c : BitVec 3) (d : BitVec 5) (n : Nat) (x : Xlated) (new : Nat → Option Nat) : Prop :=
  let s2 := (released s1 o c).flushOver s.seqTurn x.pa n
  let old := s2.numAt x.key x.pa n
  ∃ t, exec i s = .next t ∧
    t.seq s.seqTurn = (wrote s1 d (BitVec.ofNat 64 old)).seq s.seqTurn ∧
    t.numAt x.key x.pa n = (new old).getD old ∧
    ∀ a, (a < x.pa ∨ x.pa + n ≤ a) → t.byteAt x.key a = s2.byteAt x.key a

end Sys2Proof.Cert

/-- `ld` (R143, R55, R106): gD takes the bytes at gA + e, least significant first and zero-extended, each as R147 says: the sequencer's own
latest earlier store, or what the slice holds. Nothing but the register, the program counter and cached translations changes, and, where
stores have been ordered before it, memory by them.
What log entries 1, 13 and 139 name are the model's choices. -/
def Obligations.LoadReadsItsBytes : Prop :=
  ∀ (s s1 : State) (d a : BitVec 5) (g : BitVec 3) (o : BitVec 2) (c : BitVec 3) (w : BitVec 2) (e : BitVec 6) (x : Xlated),
    let n := 2 ^ w.toNat
    guardOn s g 0 → mayIssue s → reaches s s1 .r n (reg s a + BitVec.ofNat 64 (e.toNat * n)) x →
    ∃ v : Word64, exec (.ld d a g o c w e) s = .next (wrote s1 d v) ∧ v.toNat < 2 ^ (8 * n) ∧
      (noneOrdered s → s1.mem = s.mem ∧ s1.pend = s.pend) ∧
      ∀ i, i < n → BitVec.ofNat 8 (v.toNat / 2 ^ (8 * i)) = s1.seqByte s.seqTurn x.key (x.pa + i)

/-- `st` (R143, R147, R148): the low bytes of gS are issued to the address gA + e, behind the earlier stores where the order releases. The
sequencer reads them there at once; every other byte reads to it as before, and memory at the slices does not change by the store.
What log entries 13 and 139 name are the model's choices. -/
def Obligations.StoreWritesItsBytes : Prop :=
  ∀ (s s1 : State) (d a : BitVec 5) (g : BitVec 3) (o : BitVec 2) (c : BitVec 3) (w : BitVec 2) (e : BitVec 6) (x : Xlated),
    let n := 2 ^ w.toNat
    let s2 := released s1 o c
    guardOn s g 0 → mayIssue s → mayRelease s o c → reaches s s1 .w n (reg s a + BitVec.ofNat 64 (e.toNat * n)) x →
    ∃ t, exec (.st d a g o c w e) s = .next t ∧
      t.seq s.seqTurn = { me s1 with pc := (me s).pc + 4 } ∧ t.mem = s2.mem ∧ t.lineKey = s2.lineKey ∧
      t.pend = s2.pend ++ [issued s x (natToBytes n (reg s d).toNat)] ∧
      (MemOk s →
        (∀ i, i < n → t.seqByte s.seqTurn x.key (x.pa + i) = BitVec.ofNat 8 ((reg s d).toNat / 2 ^ (8 * i))) ∧
        ∀ pa, (pa < x.pa ∨ x.pa + n ≤ pa) → t.seqByte s.seqTurn x.key pa = s2.seqByte s.seqTurn x.key pa)

/-- `ldm` and `stm` (R144): count double-words between consecutive registers and rising addresses from gA; the base is read before any
register is written.
What log entries 13, 139 and 140 name are the model's choices. -/
def Obligations.ListTransfers : Prop :=
  ∀ (s s0 : State) (d a : BitVec 5) (g : BitVec 3) (o : BitVec 2) (c : BitVec 3) (n : BitVec 4) (xs : List Xlated),
    let va (i : Nat) : Word64 := reg s a + BitVec.ofNat 64 (8 * i)
    let s1 := settled s0
    d.toNat + n.toNat ≤ 31 → guardOn s g 0 → mayIssue s → (reg s a).toNat % 8 = 0 →
    (∀ x ∈ xs, s.pathTo (seqDie s.seqTurn) x.pa = .up) →
    (s.xlateAll s.seqTurn .r ((List.range (n.toNat + 1)).map va) = (.ok xs, s0) → (∀ x ∈ xs, s1.poisonIn x.pa 8 = none) →
      ∃ t, exec (.ldm d a g o c n) s = .next t ∧ t.mem = s1.mem ∧ t.pend = s1.pend ∧
        (noneOrdered s → s1.mem = s.mem ∧ s1.pend = s.pend) ∧ (t.seq s.seqTurn).pc = (me s).pc + 4 ∧
        (t.seq s.seqTurn).p = (me s).p ∧
        ∀ r : BitVec 5, r ≠ 0 → (t.seq s.seqTurn).g[r.toNat] =
          if d.toNat ≤ r.toNat ∧ r.toNat ≤ d.toNat + n.toNat then
            match xs[r.toNat - d.toNat]? with
            | some x => BitVec.ofNat 64 (bytesToNat ((List.range 8).map (fun i => s1.seqByte s.seqTurn x.key (x.pa + i))))
            | none => (me s).g[r.toNat]
          else (me s).g[r.toNat]) ∧
    (s.xlateAll s.seqTurn .w ((List.range (n.toNat + 1)).map va) = (.ok xs, s0) → (s.pendOf s.seqTurn).length + n.toNat < 16 →
      mayRelease s o c →
      ∃ t, exec (.stm d a g o c n) s = .next t ∧ t.seq s.seqTurn = { me s1 with pc := (me s).pc + 4 } ∧
        t.mem = (released s1 o c).mem ∧
        t.pend = (released s1 o c).pend ++ xs.mapIdx (fun i x =>
          issued s x (natToBytes 8 (reg s (d + BitVec.ofNat 5 i)).toNat)))

/-- The atomics and `cas` (R145, R146) at a width of 4 or 8 bytes: gD takes the old value, zero-extended, and memory the new one; a `cas` that
fails writes nothing, and gD + 1 is kept.
What log entries 13 and 139 name are the model's choices. -/
def Obligations.AtomicsReadModifyWrite : Prop :=
  ∀ (s s1 : State) (d a : BitVec 5) (g : BitVec 3) (o : BitVec 2) (c : BitVec 3) (w : BitVec 2) (x : Xlated),
    let n := 2 ^ w.toNat
    let m := 2 ^ (8 * n)
    let y := (reg s d).toNat % m
    let sgn (v : Nat) : Int := if v < m / 2 then v else v - m
    (w = 2 ∨ w = 3) → MemOk s → (inStack x.pa = true ∨ inHost x.pa = true) →
    guardOn s g 0 → mayIssue s → mayRelease s o c → reaches s s1 .rw n (reg s a) x →
    atomicDoes (.amoswap d a g o c w) s s1 o c d n x (fun _ => some y) ∧
    atomicDoes (.amoadd d a g o c w) s s1 o c d n x (fun old => some ((old + y) % m)) ∧
    atomicDoes (.amoand d a g o c w) s s1 o c d n x (fun old => some (old &&& y)) ∧
    atomicDoes (.amoor d a g o c w) s s1 o c d n x (fun old => some (old ||| y)) ∧
    atomicDoes (.amoxor d a g o c w) s s1 o c d n x (fun old => some (old ^^^ y)) ∧
    atomicDoes (.amomin d a g o c w) s s1 o c d n x (fun old => some (if sgn old ≤ sgn y then old else y)) ∧
    atomicDoes (.amomax d a g o c w) s s1 o c d n x (fun old => some (if sgn old ≤ sgn y then y else old)) ∧
    atomicDoes (.amominu d a g o c w) s s1 o c d n x (fun old => some (min old y)) ∧
    atomicDoes (.amomaxu d a g o c w) s s1 o c d n x (fun old => some (max old y)) ∧
    (d ≠ 31 → atomicDoes (.cas d a g o c w) s s1 o c d n x
      (fun old => if old = y then some ((reg s (d + 1)).toNat % m) else none))

/-- `nop`, `yield`, `halt` and `fence` (R150, R160, R385): `nop` only advances; `yield` of a region without a pending pre-emption advances and
leaves the region's YIELD flag set; `halt` ends the control program, with its accumulators detached and empty; `fence` orders every earlier
store before anything later, toward the agents of its scope: at `.pkg` and `.sys` it performs them.
What log entries 13 and 139 name are the model's choices. -/
def Obligations.NopYieldHaltFence : Prop :=
  ∀ (s : State) (q : BitVec 3) (c : BitVec 3), guardOn s q 0 →
    exec (.nop q) s = .next (jumped s ((me s).pc + 4)) ∧
    (∃ t, exec (.yield q) s = .next t ∧
      (∀ r, s.regionOfSeq s.seqTurn = some r → s.preemptPending r = false →
        t.seq s.seqTurn = { me s with pc := (me s).pc + 4 } ∧
        t.regions = s.regions.map (fun x => if x.serial = r.serial then { x with yielded := true } else x))) ∧
    (∃ t, exec (.halt q) s = .next t ∧
      (s.regionOfSeq s.seqTurn = none → t = s.setSeq s.seqTurn
        { me s with pc := (me s).pc + 4, run := .halted, wait := .none, accs := Vector.replicate 16 Acc.reset }) ∧
      (∀ r, s.regionOfSeq s.seqTurn = some r → r.kstate = .active → (∃ x ∈ r.sections, x.tiles ≠ []) →
        t = s.setSeq s.seqTurn
          { me s with pc := (me s).pc + 4, run := .halted, wait := .none, accs := Vector.replicate 16 Acc.reset })) ∧
    (mayRelease s 3 c → exec (.fence q c) s = .next (jumped (released s 3 c) ((me s).pc + 4))) ∧
    (4 ≤ c.toNat → (released s 3 c).pendOf s.seqTurn = []) ∧
    ∀ r ∈ (released s 3 c).pendOf s.seqTurn, c.toNat ≤ r.bound.toNat

namespace Sys2Proof.Cert

/-- The atomics and `cas` (R145, R146). -/
def atomics (d a : BitVec 5) (g : BitVec 3) (o : BitVec 2) (c : BitVec 3) (w : BitVec 2) : List Instr :=
  [.amoswap d a g o c w, .amoadd d a g o c w, .amoand d a g o c w, .amoor d a g o c w, .amoxor d a g o c w, .amomin d a g o c w,
    .amomax d a g o c w, .amominu d a g o c w, .amomaxu d a g o c w, .cas d a g o c w]

/-- The state behind an access of the running sequencer whose address is not translated, from the state `s1` that the translation leaves: a
trap with the address, a wait at a bridge that is not UP, or the link fault of a walk that a bridge in FAULT loses (R142, R351, R352). -/
def untranslated (s s1 : State) (f : XFault) (va : Word64) : State := match f with
  | .page => trapped s1 7 va
  | .access => trapped s1 8 va
  | .held => s.setSeq s.seqTurn { me s with wait := .bridge }
  | .lost => s1.seqFault s.seqTurn 0x19 0

end Sys2Proof.Cert

/-- A load, store, list transfer or atomic that is not aligned traps with Misaligned, and one whose address has no translation or whose page
forbids it with PageFault or AccessFault (R142, R144); TVAL holds the address. A list transfer traps at its first such address. An access whose
walk meets a bridge that is not UP waits, or is lost (R351, R352).
What log entries 105 and 140 name are the model's choices. -/
def Obligations.MemoryAccessTraps : Prop :=
  ∀ (s s1 : State) (d a : BitVec 5) (g : BitVec 3) (o : BitVec 2) (c : BitVec 3) (w : BitVec 2) (e : BitVec 6) (k : BitVec 4) (f : XFault)
    (v : Word64),
    let n := 2 ^ w.toNat
    let va := reg s a + BitVec.ofNat 64 (e.toNat * n)
    let list := (List.range (k.toNat + 1)).map (fun i => reg s a + BitVec.ofNat 64 (8 * i))
    let room := (s.pendOf s.seqTurn).length + k.toNat < 16
    guardOn s g 0 → mayIssue s → mayRelease s o c → canTrap s →
    (va.toNat % n ≠ 0 →
      exec (.ld d a g o c w e) s = .next (trapped s 5 va) ∧ exec (.st d a g o c w e) s = .next (trapped s 5 va)) ∧
    (va.toNat % n = 0 → s.xlate s.seqTurn .r va = (.error f, s1) → exec (.ld d a g o c w e) s = .next (untranslated s s1 f va)) ∧
    (va.toNat % n = 0 → s.xlate s.seqTurn .w va = (.error f, s1) → exec (.st d a g o c w e) s = .next (untranslated s s1 f va)) ∧
    ((reg s a).toNat % 8 ≠ 0 →
      exec (.ldm d a g o c k) s = .next (trapped s 5 (reg s a)) ∧ (room → exec (.stm d a g o c k) s = .next (trapped s 5 (reg s a)))) ∧
    ((reg s a).toNat % 8 = 0 →
      (s.xlateAll s.seqTurn .r list = (.error (f, v), s1) → exec (.ldm d a g o c k) s = .next (untranslated s s1 f v)) ∧
      (room → s.xlateAll s.seqTurn .w list = (.error (f, v), s1) → exec (.stm d a g o c k) s = .next (untranslated s s1 f v))) ∧
    ∀ i ∈ atomics d a g o c w,
      ((reg s a).toNat % n ≠ 0 → exec i s = .next (trapped s 5 (reg s a))) ∧
      ((reg s a).toNat % n = 0 → s.xlate s.seqTurn .rw (reg s a) = (.error f, s1) → exec i s = .next (untranslated s s1 f (reg s a)))

/-! ### Ports, accumulators and the queue instructions -/

namespace Sys2Proof.Cert

/-- The running sequencer is not in the handler of a delivered fault, so the instructions of R388 run. -/
def open_ (s : State) (q : BitVec 3) : Prop := guardOn s q 0 ∧ (me s).run ≠ .handler

/-- Inlet port `n` is bound to queue `k` of cell `c` (R122, R257). -/
def inAt (s : State) (n : BitVec 6) (c : CellId) (k : BitVec 3) : Prop := (me s).inPort[n.toNat] = some (c, k)

/-- Outlet port `n` is bound, with the queue `x` behind it. -/
def outAt (s : State) (n : BitVec 6) (x : Queue) : Prop := (me s).outPort[n.toNat] = some x

/-- No accumulator of the running sequencer is attached to outlet `n`. -/
def unattached (s : State) (n : BitVec 6) : Prop := ∀ i : Fin 16, ∀ c, (me s).accs[i].attach ≠ some (n, c)

/-- A gap marker of one queue's change or loss (R246): its EVENT, CAUSE, COMP, LOST, FIRST and LAST. -/
def isMarker (m : Item) (event cause : Nat) (comp : Bool) (lost first last : Nat) : Prop :=
  m.tag.kind = 1 ∧ m.tag.seq.toNat = first ∧ m.tag.weight = 0 ∧ m.tag.domain = 0 ∧ m.tag.flags = 0 ∧ m.v1 = none ∧
    (m.v0.extractLsb' 101 2).toNat = event ∧ (m.v0.extractLsb' 96 4).toNat = cause ∧ m.v0.getLsbD 100 = comp ∧
    (m.v0.extractLsb' 0 32).toNat = min lost 0xFFFFFFFF ∧ (m.v0.extractLsb' 32 28).toNat = first ∧ (m.v0.extractLsb' 64 28).toNat = last

/-- The lane that an accumulator command makes of a lane and of record lane `i` (R157). -/
def accLane (cmd : Nat) (t : Tag) (p : Payload) (i : Nat) (x : Word64) : Word64 :=
  let e : Word32 := p.extractLsb' (32 * i) 32
  let e32 : Int := e.toInt
  let e64 : Int := (p.extractLsb' (64 * i) 64).toInt
  let val (v : Word32) : FVal := FloatFmt.f32.read v.toNat
  let low : Word32 := x.setWidth 32
  let clamp (v : Int) : Word64 := BitVec.ofInt 64 (if v < -2 ^ 63 then -2 ^ 63 else if 2 ^ 63 ≤ v then 2 ^ 63 - 1 else v)
  let round (v : FVal) : Word64 := BitVec.ofNat 64 (FloatFmt.f32.conv .rne false ((val low).add .rne v)).code
  match cmd with
  | 1 => clamp (x.toInt + e32)
  | 2 => if i < 8 then clamp (x.toInt + e64) else x
  | 3 => round (val e)
  | 4 => clamp (x.toInt + e32 * t.weight.toNat)
  | 5 => round ((val e).mul (.fin false t.weight.toNat 0))
  | 8 => if (val e).isNan then x else if (val low).isNan ∨ (val low).below (val e) then e.setWidth 64 else low.setWidth 64
  | 9 => if (val e).isNan then x else if (val low).isNan ∨ (val e).below (val low) then e.setWidth 64 else low.setWidth 64
  | 10 => match i with
    | 0 => x + 1
    | 1 => x + BitVec.ofNat 64 t.weight.toNat
    | 4 => if hasFlag t.flags fPoison then x + 1 else x
    | 5 => if hasFlag t.flags fLate then x + 1 else x
    | _ => x
  | 11 => if i = p.toNat % 16 then clamp (x.toInt + (p.extractLsb' 64 32).toInt) else x
  | 12 => if i = p.toNat % 16 then clamp (x.toInt + (p.extractLsb' 64 32).toInt * t.weight.toNat) else x
  | 6 => BitVec.ofInt 64 (max x.toInt e32)
  | 7 => BitVec.ofInt 64 (min x.toInt e32)
  | 13 => if i < 8 then x ||| p.extractLsb' (64 * i) 64 else x
  | 14 => if i < 8 then x ^^^ p.extractLsb' (64 * i) 64 else x
  | _ => if i < 8 then p.extractLsb' (64 * i) 64 else x

/-- Commands 1 to 15 of `scmd` with their identities (R157). -/
def scmds (a : BitVec 5) (n : BitVec 4) (q : BitVec 3) : List (BitVec 4 × Word64 × Instr) :=
  [(1, 0, .scmdAddI32 a n q), (2, 0, .scmdAddI64 a n q), (3, 0, .scmdAddF32 a n q), (4, 0, .scmdWaddI32 a n q), (5, 0, .scmdWaddF32 a n q),
    (6, 0xFFFFFFFF80000000, .scmdMaxI32 a n q), (7, 0x7FFFFFFF, .scmdMinI32 a n q), (8, 0xFF800000, .scmdMaxF32 a n q),
    (9, 0x7F800000, .scmdMinF32 a n q), (10, 0, .scmdCount a n q), (11, 0, .scmdKeyAdd a n q), (12, 0, .scmdKeyWadd a n q),
    (13, 0, .scmdOr a n q), (14, 0, .scmdXor a n q), (15, 0, .scmdCopy a n q)]

end Sys2Proof.Cert

/-- `put` (R152, R153): the register values go as one unit under the port's template, with its SEQ, to the tail of the queue behind the
port. In a FLOWING queue with room below HIGH the unit is stored and `p7` is true; a loss sets `p7` to false and the back-off. -/
def Obligations.PutOffersAUnit : Prop :=
  ∀ (s : State) (a : BitVec 5) (n : BitVec 6) (q : BitVec 3) (m : BitVec 4) (c : CellId) (k : BitVec 3),
    a.toNat + m.toNat ≤ 31 → open_ s q → inAt s n c k → ¬ (me s).cycle < (me s).backoff[n.toNat] →
    let u := (me s).putUnit a n m
    let x := (s.cell c).queues[k.toNat]
    (u.tag.seq = (me s).putSeq[n.toNat] ∧ u.tag.kind = ((me s).tmpl[n.toNat]).kind ∧
      (∀ i, i ≤ m.toNat → u.dword i = reg s (a + BitVec.ofNat 5 i)) ∧ (u.v1.isSome ↔ 8 ≤ m.toNat)) ∧
    (x.state = .flowing → u.isData = true → u.slots ≤ x.free → x.occ + u.slots < x.high → (x.ring = [] ∨ x.spills = false) → x.kv = false →
      ∃ t, exec (.put a n q m) s = .next t ∧
        (t.cell c).queues[k.toNat] = { x with entries := x.entries ++ [⟨u, true⟩] } ∧
        t.seq s.seqTurn = { me s with
          pc := (me s).pc + 4, p := (me s).p.set 7 true, putSeq := (me s).putSeq.set n.toNat ((me s).putSeq[n.toNat] + 1) } ∧
        t.mem = s.mem) ∧
    (x.state = .closed → u.isData = true →
      ∃ t, exec (.put a n q m) s = .next t ∧
        t.seq s.seqTurn = { me s with
          pc := (me s).pc + 4, p := (me s).p.set 7 false, putSeq := (me s).putSeq.set n.toNat ((me s).putSeq[n.toNat] + 1),
          backoff := (me s).backoff.set n.toNat ((me s).cycle + 64) })

/-- `get` (R154) pops the head behind its outlet: the registers take the first double-words of the unit, PTAG its tag word. With nothing
there it waits, and `GET_COMPLETE` makes the same transfer when a unit has come. -/
def Obligations.GetPopsAUnit : Prop :=
  ∀ (s : State) (d : BitVec 5) (n : BitVec 6) (q : BitVec 3) (m : BitVec 4) (x : Queue), d.toNat + m.toNat ≤ 31 → outAt s n x →
    let did (i : Instr) (u : Item) : Prop := ∃ t, exec i s = .next t ∧
      (let z := t.seq s.seqTurn
       z.outPort[n.toNat] = some { x with entries := x.entries.tail } ∧ z.ptag = u.tag.word ∧ z.pc = (me s).pc + 4 ∧ z.wait = .none ∧
       z.p = (me s).p ∧
       ∀ r : BitVec 5, r ≠ 0 → z.g[r.toNat] =
         if d.toNat ≤ r.toNat ∧ r.toNat ≤ d.toNat + m.toNat then u.dword (r.toNat - d.toNat) else (me s).g[r.toNat]) ∧
      t.mem = s.mem
    (open_ s q → unattached s n →
      (∀ u, x.head = some u → did (.get d n q m) u) ∧
      (x.head = none → exec (.get d n q m) s = .next (s.setSeq s.seqTurn { me s with wait := .get d n m }))) ∧
    ((me s).wait = .get d n m → (me s).run = .running → ∀ u, x.head = some u → did (.getComplete s.seqTurn) u)

/-- The queue instructions. `peek` and the status forms (R155, R253, R254): the free count or the head's tag word, the status word, and the two
loss counts, which `qgap` clears. A port that is not bound traps with PortUnbound, cause 9, with its number in TVAL (R122, R130). `qdrain`
(R231, R255) moves a BOUND or FLOWING queue to DRAINING, and leaves one that drains, is closed or is unbound as it is; a SHEDDING one it
moves to DRAINING with the leave marker at its tail (R246, R248), and a FROZEN one traps with QueueBusy, cause 16; `qbind` (R252) with a
sound binding block binds the UNBOUND queue that it names, with what stands in its slots and its counters and ring cleared, and the port's template.
What log entries 8 and 57 name are the model's choices. -/
def Obligations.QueueInstructions : Prop :=
  (∀ (s : State) (d : BitVec 5) (n : BitVec 6) (q : BitVec 3), open_ s q →
    (∀ c k, inAt s n c k →
      let x := (s.cell c).queues[k.toNat]
      exec (.peekInlet d n q) s = .next (wrote s d (BitVec.ofNat 64 (x.depth - x.occ))) ∧
      exec (.qstatInlet d n q) s = .next (wrote s d x.status) ∧
      exec (.qgapInlet d n q) s = .next (wrote (s.modCell c (fun y =>
        { y with queues := y.queues.set k.toNat { x with lost := 0, comp := 0 } })) d (x.comp ++ x.lost))) ∧
    (∀ x, outAt s n x →
      exec (.peekOutlet d n q) s = .next (wrote s d (match x.head with
        | some u => u.tag.word
        | none => 0xFFFFFFFFFFFFFFFF)) ∧
      exec (.qstatOutlet d n q) s = .next (wrote s d x.status) ∧
      exec (.qgapOutlet d n q) s = .next (wrote (s.setSeq s.seqTurn { me s with
        outPort := (me s).outPort.set n.toNat (some { x with lost := 0, comp := 0 }) }) d (x.comp ++ x.lost)))) ∧
  (∀ (s : State) (a : BitVec 5) (n : BitVec 6) (q : BitVec 3) (m : BitVec 4), open_ s q → canTrap s →
    let inN := BitVec.ofNat 64 n.toNat
    let outN := BitVec.ofNat 64 (64 + n.toNat)
    ((me s).inPort[n.toNat] = none →
      exec (.put a n q m) s = .next (trapped s 9 inN) ∧ exec (.peekInlet a n q) s = .next (trapped s 9 inN) ∧
      exec (.qstatInlet a n q) s = .next (trapped s 9 inN) ∧ exec (.qgapInlet a n q) s = .next (trapped s 9 inN) ∧
      exec (.qdrainInlet n q) s = .next (trapped s 9 inN)) ∧
    ((me s).outPort[n.toNat] = none →
      exec (.get a n q m) s = .next (trapped s 9 outN) ∧ exec (.peekOutlet a n q) s = .next (trapped s 9 outN) ∧
      exec (.qstatOutlet a n q) s = .next (trapped s 9 outN) ∧ exec (.qgapOutlet a n q) s = .next (trapped s 9 outN) ∧
      exec (.qdrainOutlet n q) s = .next (trapped s 9 outN))) ∧
  (∀ (s : State) (n : BitVec 6) (q : BitVec 3), open_ s q →
    (∀ c k, inAt s n c k →
      let x := (s.cell c).queues[k.toNat]
      x.frozen = false → x.state ≠ .shedding →
      exec (.qdrainInlet n q) s = .next (jumped (s.modCell c (fun y => { y with
        queues := y.queues.set k.toNat { x with state := if x.state = .bound ∨ x.state = .flowing then .draining else x.state } })) ((me s).pc + 4))) ∧
    (∀ x, outAt s n x → x.frozen = false → x.state ≠ .shedding →
      exec (.qdrainOutlet n q) s = .next (jumped (s.setSeq s.seqTurn { me s with
        outPort := (me s).outPort.set n.toNat (some { x with state := if x.state = .bound ∨ x.state = .flowing then .draining else x.state }) }) ((me s).pc + 4)))) ∧
  (∀ (s : State) (n : BitVec 6) (q : BitVec 3) (x : Queue), open_ s q →
    let left (y : Queue) : Prop := ∃ m, y = { x with state := .draining, sampC := 0, sampInvs := [], entries := x.entries ++ [⟨m, false⟩] } ∧
      isMarker m 2 x.pri true x.epN x.epLo.toNat x.epHi.toNat ∧ m.tag.nest = 0
    (x.frozen = true → x.state ≠ .unbound → x.state ≠ .closed → canTrap s →
      ((∃ c k, inAt s n c k ∧ x = (s.cell c).queues[k.toNat]) → exec (.qdrainInlet n q) s = .next (trapped s 16 (BitVec.ofNat 64 n.toNat))) ∧
      (outAt s n x → exec (.qdrainOutlet n q) s = .next (trapped s 16 (BitVec.ofNat 64 (64 + n.toNat))))) ∧
    (x.frozen = false → x.state = .shedding → x.ring = [] → x.sampPend = [] → x.tokens < 8 →
      (∀ c k, inAt s n c k → x = (s.cell c).queues[k.toNat] → ∃ y, left y ∧
        exec (.qdrainInlet n q) s = .next (jumped (s.modCell c (fun z => { z with queues := z.queues.set k.toNat y })) ((me s).pc + 4))) ∧
      (outAt s n x → ∃ y, left y ∧ exec (.qdrainOutlet n q) s =
        .next (jumped (s.setSeq s.seqTurn { me s with outPort := (me s).outPort.set n.toNat (some y) }) ((me s).pc + 4))))) ∧
  (∀ (s s1 : State) (a : BitVec 5) (n : BitVec 6) (q : BitVec 3) (y : Xlated) (r : Region) (c : CellId) (k : BitVec 3),
    open_ s q → mayIssue s → s.regionOfSeq s.seqTurn = some r → r.cfg.state ≠ .flipping → reaches s s1 .r 64 (reg s a) y →
    let dw (i : Nat) : Word64 := BitVec.ofNat 64 (s1.seqNum s.seqTurn y.key (y.pa + 8 * i) 8)
    let f : QCfg := ⟨dw 1, dw 2, dw 3⟩
    let v := s1.boundView r c k f
    dw 0 = (cellWord c k).setWidth 64 → r.hasCell c = true → v.queueOk c k.toNat = true →
    v.queueStore c + v.functionStore c (s1.cell c).fb.logn ≤ 65536 → (dw 4).toNat / 2 ^ 60 = 0 → dw 5 = 0 → dw 6 = 0 → dw 7 = 0 →
    ((s.cell c).queues[k.toNat]).frozen = false → ((s.cell c).queues[k.toNat]).state = .unbound →
    ∃ t, exec (.qbind a n q) s = .next t ∧
      (let x := (t.cell c).queues[k.toNat]
       x.state = .bound ∧ x.qctl = dw 1 ∧ x.qpar = dw 2 ∧ x.qring = dw 3 ∧ x.entries = ((s.cell c).queues[k.toNat]).entries ∧ x.ring = [] ∧ x.lost = 0 ∧ x.comp = 0) ∧
      (let z := t.seq s.seqTurn
       z.inPort[n.toNat] = some (c, k) ∧ z.putSeq[n.toNat] = (dw 4).setWidth 28 ∧ (z.tmpl[n.toNat]).kind = 0 ∧
       z.g = (me s).g ∧ z.p = (me s).p ∧ z.pc = (me s).pc + 4))

/-- The accumulator instructions (R156, R157): `accz` clears lanes and status bits, `accr` reads lanes and waits while a command is
attached, `ACCR_COMPLETE` ends the wait, `scmd` STOP detaches, and every other command attaches to a bound outlet, with the lanes at the
command's identity where INIT is set. On an attached accumulator, or an outlet that has one, they trap with PortBusy, cause 10, and on an
outlet that is not bound with PortUnbound. A record that an attached accumulator takes is popped from its outlet, each lane as the command
says, saturating at 64 bits.
What log entries 49, 50 and 51 name are the model's choices. -/
def Obligations.AccumulatorInstructions : Prop :=
  (∀ (s : State) (d a : BitVec 5) (n m : BitVec 4) (q : BitVec 3), d.toNat + m.toNat ≤ 31 →
    let i : Fin 16 := ⟨n.toNat, n.isLt⟩
    let z := me s
    let read (t : State) : Prop :=
      let y := t.seq s.seqTurn
      y.pc = z.pc + 4 ∧ y.wait = .none ∧ y.p = z.p ∧ y.accs = z.accs ∧ ∀ r : BitVec 5, r ≠ 0 → y.g[r.toNat] =
        if h : d.toNat ≤ r.toNat ∧ r.toNat ≤ d.toNat + m.toNat then z.accs[i].lanes[r.toNat - d.toNat]'(by omega) else z.g[r.toNat]
    (open_ s q → z.accs[i].attach = none →
      (∃ t, exec (.accz n q) s = .next t ∧
        (let y := t.seq s.seqTurn
         y.pc = z.pc + 4 ∧ y.g = z.g ∧ y.p = z.p ∧ y.accs = z.accs.set i ⟨Vector.replicate 16 0, none⟩ ∧
         (∀ j : Nat, j < 16 → y.accSat.getLsbD j = (z.accSat.getLsbD j && j != n.toNat) ∧
           y.accPois.getLsbD j = (z.accPois.getLsbD j && j != n.toNat)))) ∧
      (∃ t, exec (.accr d n q m) s = .next t ∧ read t)) ∧
    (open_ s q → z.accs[i].attach ≠ none → exec (.accr d n q m) s = .next (s.setSeq s.seqTurn { z with wait := .accr d n m })) ∧
    (z.wait = .accr d n m → z.run = .running → z.accs[i].attach = none →
      ∃ t, exec (.accrComplete s.seqTurn) s = .next t ∧ read t) ∧
    (open_ s q → exec (.scmdStop a n q) s =
      .next (jumped (s.setSeq s.seqTurn { z with accs := z.accs.set i { z.accs[i] with attach := none } }) (z.pc + 4))) ∧
    (open_ s q → z.accs[i].attach = none → (reg s a).toNat / 2 ^ 6 % 4 = 0 → (reg s a).toNat / 2 ^ 9 = 0 →
      let o : BitVec 6 := BitVec.ofNat 6 (reg s a).toNat
      unattached s o → ∀ x, outAt s o x → x.entries = [] → ∀ k ∈ scmds a n q,
        let lanes := if (reg s a).getLsbD 8 then Vector.replicate 16 k.2.1 else z.accs[i].lanes
        exec k.2.2 s = .next (jumped (s.setSeq s.seqTurn { z with accs := z.accs.set i ⟨lanes, some (o, k.1)⟩ }) (z.pc + 4))) ∧
    (open_ s q → canTrap s →
      (z.accs[i].attach ≠ none → exec (.accz n q) s = .next (trapped s 10 (BitVec.ofNat 64 (128 + n.toNat)))) ∧
      ((reg s a).toNat / 2 ^ 6 % 4 = 0 → (reg s a).toNat / 2 ^ 9 = 0 → ∀ k ∈ scmds a n q,
        let o : BitVec 6 := BitVec.ofNat 6 (reg s a).toNat
        (z.accs[i].attach ≠ none → exec k.2.2 s = .next (trapped s 10 (BitVec.ofNat 64 (128 + n.toNat)))) ∧
        (z.accs[i].attach = none → z.outPort[o.toNat] = none → exec k.2.2 s = .next (trapped s 9 (BitVec.ofNat 64 (64 + o.toNat)))) ∧
        (z.accs[i].attach = none → ∀ x, outAt s o x → ¬ unattached s o →
          exec k.2.2 s = .next (trapped s 10 (BitVec.ofNat 64 (64 + o.toNat))))))) ∧
  ∀ (s : State) (n : BitVec 4) (o : BitVec 6) (cmd : BitVec 4) (x : Queue) (u : Item),
    let i : Fin 16 := ⟨n.toNat, n.isLt⟩
    cmd ≠ 0 → (me s).accs[i].attach = some (o, cmd) → outAt s o x → x.frozen = false →
    x.head = some u → u.isData = true → u.v1 = none →
    ∃ t, exec (.accumulatorTake s.seqTurn n) s = .next t ∧
      (t.seq s.seqTurn).outPort[o.toNat] = some { x with entries := x.entries.tail } ∧
      (t.seq s.seqTurn).accs[i].attach = some (o, cmd) ∧
      (∀ j : Fin 16, (t.seq s.seqTurn).accs[i].lanes[j] = accLane cmd.toNat u.tag u.v0 j.val (me s).accs[i].lanes[j]) ∧
      ∀ j : Fin 16, j ≠ i → (t.seq s.seqTurn).accs[j] = (me s).accs[j]



/-! ### Groups, sections, barriers, channels -/

namespace Sys2Proof.Cert

/-- A state in which the running sequencer has gone on behind its instruction and is otherwise as it was in `s`. -/
def went (s t : State) : State := t.setSeq s.seqTurn { me s with pc := (me s).pc + 4, wait := .none }

/-- The same, where the sequencer did not wait. -/
def past (s t : State) : State := t.setSeq s.seqTurn { me s with pc := (me s).pc + 4 }

/-- A region in its list, changed. -/
def putRegion (s : State) (r : Region) (y : Region) : State :=
  { s with regions := s.regions.map (fun x => if x.serial = r.serial then y else x) }

/-- Whether group `n` or one that holds it is RUNNING. -/
def ancestorRuns (r : Region) (n : Nat) : Bool :=
  (r.ancestors 65 (BitVec.ofNat 7 n)).any (fun i => ((r.groups[i]?).map (fun g => g.state == .running)).getD false)

/-- The cells and slots of a section's sources (R283). -/
def sourceNodes (r : Region) (x : Section) : List (CellId × BitVec 3) :=
  x.sources.filterMap (fun n => (r.nodeCell n).map (fun c => (c, n.slot)))

/-- How many tiles of a source fit the queue of a consumer: its depth over the tile's size in records, rounded down (R38). -/
def fits (s : State) (p y : CellId × BitVec 3) : Nat :=
  (s.cell y.1).queues[y.2.toNat].depth / (((s.cell p.1).nest p.2).map Nest.tileSize).getD 1

/-- The tiles that a source has started and for which it has taken no FREE pulse of a consumer (R38). -/
def owes (s : State) (p y : CellId × BitVec 3) : Nat :=
  (((s.cell p.1).ag[p.2.toNat].credits.find? (fun k => k.src = y.1 ∧ k.q = y.2)).map Credit.owed).getD 0

/-- A group whose children are sections, started in a new run (R287, R288): the sections of ORD 0 run where it is a SEQ group, and all
of them where it is not. LEFT stays. -/
def begun (r : Region) (n : Nat) (x : Group) : Region :=
  { r with
    groups := r.groups.mapIdx (fun j y => if j = n then
      { y with state := .running, child := 0, tiles := 0, runs := if y.runs = 0xFFFF then 0xFFFF else y.runs + 1 } else y),
    sections := r.sections.map (fun y => if y.parent = BitVec.ofNat 7 n ∧ (x.typ ≠ 0 ∨ y.ord = 0) then
      { y with running := true, ended := 0, idx := 0 } else y) }

end Sys2Proof.Cert

/-- The group instructions and `arm` (R38, R39, R158, R287, R291 to R293). `grun` starts its group, and where no child is a group its sections are as `begun` says;
`gwait` waits while the group is RUNNING, and GWAIT_COMPLETE ends the wait; `gstat` gives the state, type, child, runs and tiles. `arm` of a section that is not armed sets its
LEFT and, at each of its sources, AgSeq to 0 and the credit of each consumer to its capacity less the tiles owed; where a tile is larger than a consumer's queue
(R39) it raises the configuration fault of the source's cell instead, and goes on; an armed section, one that is none and a count outside 1 to 2^24 − 1 trap.
What log entries 40, 55, 56 and 57 name are the model's choices. -/
def Obligations.GroupInstructions : Prop :=
  (∀ (s : State) (d : BitVec 5) (n : BitVec 6) (q : BitVec 3) (r : Region), open_ s q → canTrap s → s.regionOfSeq s.seqTurn = some r →
    r.groups[n.toNat]? = none →
    exec (.grun n q) s = .next (trapped s 14 (BitVec.ofNat 64 n.toNat)) ∧ exec (.gwait n q) s = .next (trapped s 14 (BitVec.ofNat 64 n.toNat)) ∧
    exec (.gstat d n q) s = .next (trapped s 14 (BitVec.ofNat 64 n.toNat))) ∧
  (∀ (s : State) (d : BitVec 5) (n : BitVec 6) (q : BitVec 3) (r : Region) (x : Group),
    s.regionOfSeq s.seqTurn = some r → r.groups[n.toNat]? = some x →
    (open_ s q → r.cfg.state ≠ .flipping → ancestorRuns r n.toNat = false →
      exec (.grun n q) s = .next (jumped (putRegion s r (settleGroups 4096 (startGroup 64 n.toNat r))) ((me s).pc + 4)) ∧
      (r.childGroups n.toNat = [] → startGroup 64 n.toNat r = begun r n.toNat x)) ∧
    (open_ s q → canTrap s → r.cfg.state = .flipping → exec (.grun n q) s = .next (trapped s 18 (BitVec.ofNat 64 n.toNat))) ∧
    (open_ s q → canTrap s → r.cfg.state ≠ .flipping → ancestorRuns r n.toNat = true →
      exec (.grun n q) s = .next (trapped s 15 (BitVec.ofNat 64 n.toNat))) ∧
    (open_ s q → x.state ≠ .running → exec (.gwait n q) s = .next (jumped s ((me s).pc + 4))) ∧
    (open_ s q → x.state = .running → exec (.gwait n q) s = .next (s.setSeq s.seqTurn { me s with wait := .gwait n })) ∧
    ((me s).wait = .gwait n → (me s).run = .running → x.state ≠ .running → exec (.gwaitComplete s.seqTurn) s = .next (went s s)) ∧
    (open_ s q → ∃ v : Word64, exec (.gstat d n q) s = .next (wrote s d v) ∧
      v.toNat = (match x.state with
          | .idle => 0
          | .running => 1
          | .done => 2)
        + 4 * x.typ.toNat + (if x.typ = 0 then 16 * x.child.toNat else 0) + 2 ^ 16 * x.runs.toNat + 2 ^ 32 * x.tiles.toNat)) ∧
  ∀ (s : State) (a : BitVec 5) (n : BitVec 6) (q : BitVec 3) (r : Region), open_ s q → s.regionOfSeq s.seqTurn = some r →
    let v := reg s a
    (∀ x, r.sections[n.toNat]? = some x → 0 < v.toNat → v.toNat < 2 ^ 24 → r.cfg.state ≠ .flipping → x.left = 0 →
      (∀ p ∈ sourceNodes r x, ∀ y ∈ s.consumers r p.1 p.2, 0 < fits s p y) →
      ∃ t, exec (.arm a n q) s = .next t ∧ t.mem = s.mem ∧ t.seq s.seqTurn = { me s with pc := (me s).pc + 4 } ∧
        t.regions = s.regions.map (fun y => if y.serial = r.serial then
          { y with sections := y.sections.mapIdx (fun j z => if j = n.toNat then { z with left := v.toNat } else z) } else y) ∧
        (∀ p ∈ sourceNodes r x, ((t.cell p.1).ag[p.2.toNat]).seq = 0 ∧ ((t.cell p.1).ag[p.2.toNat]).credits =
          (s.consumers r p.1 p.2).map (fun y => { src := y.1, q := y.2, count := (fits s p y : Int) - owes s p y, owed := owes s p y })) ∧
        ∀ c, (∀ k, (c, k) ∉ sourceNodes r x) → t.cell c = s.cell c) ∧
    (∀ x p, r.sections[n.toNat]? = some x → 0 < v.toNat → v.toNat < 2 ^ 24 → r.cfg.state ≠ .flipping → x.left = 0 →
      (sourceNodes r x).find? (fun p => (s.consumers r p.1 p.2).any (fun y => fits s p y == 0)) = some p →
      ∃ t, exec (.arm a n q) s = .next t ∧ t.mem = s.mem ∧ (t.cell p.1).fault.valid = true) ∧
    (∀ x, r.sections[n.toNat]? = some x → 0 < v.toNat → v.toNat < 2 ^ 24 → r.cfg.state = .flipping → canTrap s →
      exec (.arm a n q) s = .next (trapped s 18 v)) ∧
    (∀ x, r.sections[n.toNat]? = some x → 0 < v.toNat → v.toNat < 2 ^ 24 → r.cfg.state ≠ .flipping → 0 < x.left → canTrap s →
      exec (.arm a n q) s = .next (trapped s 13 (BitVec.ofNat 64 n.toNat))) ∧
    (r.sections[n.toNat]? = none → 0 < v.toNat → v.toNat < 2 ^ 24 → canTrap s →
      exec (.arm a n q) s = .next (trapped s 12 (BitVec.ofNat 64 n.toNat))) ∧
    ((v.toNat = 0 ∨ 2 ^ 24 ≤ v.toNat) → canTrap s → exec (.arm a n q) s = .next (trapped s 11 v))

namespace Sys2Proof.Cert

/-- A state with the sequencer's earlier stores to the sixteen bytes of a barrier performed (R147). -/
def atBar (s : State) (x : Xlated) : State := s.flushOver s.seqTurn x.pa 16

/-- The number in the sixteen bytes of a barrier. -/
def barrier (s : State) (x : Xlated) : Nat := s.numAt x.key x.pa 16

/-- An access to a barrier reaches its bytes and finds the state `s1` there, with the sequencer's earlier stores to them performed. -/
def barReaches (s s1 : State) (right : Right) (va : Word64) (x : Xlated) : Prop :=
  ∃ s0, va.toNat % 16 = 0 ∧ s.xlate s.seqTurn right va = (.ok x, s0) ∧ s.pathTo (seqDie s.seqTurn) x.pa = .up ∧
    s1 = atBar (settled s0) x ∧ s1.poisonIn x.pa 16 = none

/-- The barrier's sixteen bytes hold a number that satisfies `p`, every other byte reads as it did in `s2`, and the running sequencer has
gone on with its ARV as `arv`. -/
def barrierLeft (s s1 s2 t : State) (x : Xlated) (p : Nat → Prop) (arv : Option (Word64 × Word32)) : Prop :=
  t.seq s.seqTurn = { me s1 with pc := (me s).pc + 4, wait := .none, arv := arv } ∧ p (t.numAt x.key x.pa 16) ∧
    ∀ a, (a < x.pa ∨ x.pa + 16 ≤ a) → t.byteAt x.key a = s2.byteAt x.key a

end Sys2Proof.Cert

/-- The barrier instructions (R295, R296, R298). `bari` sets the count of arrivals to 0, the expected count, phase 0 and OPEN; `bara` counts
one arrival, or completes the phase, and records it; `barw` and `bart` compare the phase with the recorded one, and `BARW_COMPLETE` ends
the wait. Without an arrival recorded here they trap with BarrierNoArrival before any access, and at a barrier that is not OPEN with BarrierUnset.
What log entries 52 and 139 name are the model's choices. -/
def Obligations.BarrierInstructions : Prop :=
  ∀ (s s1 : State) (a : BitVec 5) (k : BitVec 3) (g : BitVec 3) (c : BitVec 3) (x : Xlated) (ph : Word32),
    let va := reg s a
    let s2 := released s1 3 c
    let b := barrier s2 x
    let b1 := barrier s1 x
    let isOpen (n : Nat) : Prop := n / 2 ^ 96 % 4 = 1
    MemOk s → (inStack x.pa = true ∨ inHost x.pa = true) →
    (guardOn s g 0 → mayIssue s → mayRelease s 3 c → barReaches s s1 .rw va x →
      (a ≠ 31 → let e := (reg s (a + 1)).toNat
        0 < e → e < 2 ^ 32 → ∃ t, exec (.bari a g c) s = .next t ∧
          barrierLeft s s1 s2 t x (fun n => n % 2 ^ 98 = e * 2 ^ 32 + 2 ^ 96 ∧ n / 2 ^ 98 = b / 2 ^ 98) (me s).arv) ∧
      (isOpen b → b % 2 ^ 32 + 1 < b / 2 ^ 32 % 2 ^ 32 → ∃ t, exec (.bara a g c) s = .next t ∧
        barrierLeft s s1 s2 t x (fun n => n = b + 1) (some (va, BitVec.ofNat 32 (b / 2 ^ 64)))) ∧
      (isOpen b → b / 2 ^ 32 % 2 ^ 32 ≤ b % 2 ^ 32 + 1 → ∃ t, exec (.bara a g c) s = .next t ∧
        barrierLeft s s1 s2 t x (fun n => n % 2 ^ 32 = 0 ∧ n / 2 ^ 32 % 2 ^ 32 = b / 2 ^ 32 % 2 ^ 32 ∧
          n / 2 ^ 64 % 2 ^ 32 = (b / 2 ^ 64 + 1) % 2 ^ 32 ∧ n / 2 ^ 96 = b / 2 ^ 96) (some (va, BitVec.ofNat 32 (b / 2 ^ 64)))) ∧
      (¬ isOpen b → canTrap s → exec (.bara a g c) s = .next (trapped s2 20 va))) ∧
    (guardOn s g 0 → mayIssue s → barReaches s s1 .r va x →
      ((me s).arv = some (va, ph) → isOpen b1 →
        (BitVec.ofNat 32 (b1 / 2 ^ 64) ≠ ph → exec (.barw a g c) s = .next (went s1 s1)) ∧
        (BitVec.ofNat 32 (b1 / 2 ^ 64) = ph →
          exec (.barw a g c) s = .next (s1.setSeq s.seqTurn { me s1 with wait := .barw va c })) ∧
        exec (.bart a k g c) s = .next (let t := wroteP s1 k (decide (BitVec.ofNat 32 (b1 / 2 ^ 64) ≠ ph))
          t.setSeq s.seqTurn { me t with wait := .none })) ∧
      ((me s).arv = some (va, ph) → ¬ isOpen b1 → canTrap s →
        exec (.barw a g c) s = .next (trapped s1 20 va) ∧ exec (.bart a k g c) s = .next (trapped s1 20 va))) ∧
    (guardOn s g 0 → mayIssue s → (∀ p, (me s).arv ≠ some (va, p)) → canTrap s →
      exec (.barw a g c) s = .next (trapped s 21 va) ∧ exec (.bart a k g c) s = .next (trapped s 21 va)) ∧
    ((me s).wait = .barw va c → (me s).run = .running → barReaches s s1 .r va x → (me s).arv = some (va, ph) → isOpen b1 →
      BitVec.ofNat 32 (b1 / 2 ^ 64) ≠ ph → exec (.barwComplete s.seqTurn) s = .next (went s1 s1))

namespace Sys2Proof.Cert

/-- Channel `c` of the running sequencer names a descriptor at `va` (R301). -/
def chanAt (s : State) (c : BitVec 6) (va : Word64) : Prop :=
  (me s).chanMap[c.toNat] = va ∧ va ≠ 0 ∧ va.toNat % 64 = 0

/-- The descriptor of a channel is reached at `x`, and found in the state `s1` (R303, R327). -/
def chanReaches (s s1 : State) (va : Word64) (x : Xlated) : Prop :=
  ∃ s0, s.xlate s.seqTurn .rw va = (.ok x, s0) ∧ s1 = settled s0 ∧ s.pathTo (seqDie s.seqTurn) x.pa = .up

/-- What the owning slice holds of the software queue of a context whose descriptor is at a physical address, in a state. -/
def softAt (s : State) (ctx : BitVec 9) (pa : Nat) : Option SoftQ := s.softqs.find? (fun y => y.ctx = ctx ∧ y.pa = pa)

end Sys2Proof.Cert

/-- `send` and `recv` (R301 to R303). `send` offers one unit of the registers' values to the software queue that its channel names, sets
`p7` to the outcome and counts the channel's SEQ; `recv` takes the oldest unit, and waits where there is none until RECV_COMPLETE takes
it; BACK_OFF_END ends the wait of a `put` or `send` after a loss.
What log entries 53, 115 and 139 name are the model's choices. -/
def Obligations.ChannelInstructions : Prop :=
  ∀ (s s1 : State) (a : BitVec 5) (c : BitVec 6) (q : BitVec 3) (n : BitVec 4) (va : Word64) (x : Xlated) (f : SoftDesc),
    a.toNat + n.toNat ≤ 31 → chanAt s c va → chanReaches s s1 va x →
    (guardOn s q 0 → mayIssue s → storesPass s → ¬ (me s).cycle < (me s).chBack[c.toNat] →
      let s2 := s1.flush s.seqTurn
      softDescOf (fun i => s2.dwordAt x.key (x.pa + 8 * i)) = some f →
      let y := s2.softOf (me s).ctx va x.pa f
      let u := unitOf { kind := 0, flags := 0, domain := 0, weight := 1, nest := 0, seq := (me s).sendSeq[c.toNat] }
        ((List.range (n.toNat + 1)).map (fun i => reg s (a + BitVec.ofNat 5 i)))
      y.q.state = .flowing → u.slots ≤ y.q.free → y.q.occ + u.slots < y.q.high → y.q.spills = false → y.q.kv = false →
      s2.slotFault (seqDie s.seqTurn) (me s).ctx f y.cur
        ((y.dirty { y with q := y.q.enqueue u }).map Prod.fst) = none →
      ∃ t, exec (.send a c q n) s = .next t ∧
        (∃ z, softAt t (me s).ctx x.pa = some z ∧ z.q.entries = y.q.entries ++ [⟨u, true⟩] ∧ z.head = y.head ∧ z.cur = y.cur) ∧
        (let z := t.seq s.seqTurn
         z.sendSeq[c.toNat] = (me s).sendSeq[c.toNat] + 1 ∧ z.p = (me s).p.set 7 true ∧ z.g = (me s).g ∧ z.pc = (me s).pc + 4 ∧
         z.wait = .none ∧ z.chBack = (me s).chBack)) ∧
    (softDescOf (fun i => BitVec.ofNat 64 (s1.seqNum s.seqTurn x.key (x.pa + 8 * i) 8)) = some f →
      let y := s1.softOf (me s).ctx va x.pa f
      let did (i : Instr) (u : Item) : Prop := ∃ t, exec i s = .next t ∧
        (∃ z, softAt t (me s).ctx x.pa = some z ∧ z.q.entries = y.q.entries.tail ∧ z.head = y.head + 1) ∧
        (let z := t.seq s.seqTurn
         z.ptag = u.tag.word ∧ z.pc = (me s).pc + 4 ∧ z.wait = .none ∧ z.p = (me s).p ∧ ∀ r : BitVec 5, r ≠ 0 → z.g[r.toNat] =
           if a.toNat ≤ r.toNat ∧ r.toNat ≤ a.toNat + n.toNat then u.dword (r.toNat - a.toNat) else (me s).g[r.toNat])
      (guardOn s q 0 → mayIssue s →
        (∀ u, y.q.head = some u → s1.slotFault (seqDie s.seqTurn) (me s).ctx f y.cur (List.range u.slots) = none → did (.recv a c q n) u) ∧
        (y.q.head = none → exec (.recv a c q n) s = .next (s.setSeq s.seqTurn { me s with wait := .recv a c n }))) ∧
      ((me s).wait = .recv a c n → (me s).run = .running → ∀ u, y.q.head = some u →
        s1.slotFault (seqDie s.seqTurn) (me s).ctx f y.cur (List.range u.slots) = none → did (.recvComplete s.seqTurn) u)) ∧
    ((me s).wait = .send c → (me s).chBack[c.toNat] ≤ (me s).cycle →
      exec (.backOffEnd s.seqTurn) s = .next (s.setSeq s.seqTurn { me s with wait := .none })) ∧
    ((me s).wait = .put c → (me s).backoff[c.toNat] ≤ (me s).cycle →
      exec (.backOffEnd s.seqTurn) s = .next (s.setSeq s.seqTurn { me s with wait := .none }))

/-! ### Configuration, pages, signatures, launches, statistics -/

namespace Sys2Proof.Cert

/-- The configuration status of a region as a number (R273). -/
def cfgNum (c : CfgStatus) : Nat :=
  (match c.state with
    | .empty => 0
    | .loading => 1
    | .staged => 2
    | .crcFail => 3
    | .fetchFault => 4
    | .rejected => 5
    | .flipping => 6)
  + 8 * c.epoch.toNat + 16 * c.sigFail.toNat + 2 ^ 8 * c.issued.toNat + 2 ^ 17 * c.loaded.toNat + 2 ^ 32 * c.fbx.toNat
  + 2 ^ 36 * c.fby.toNat + 2 ^ 40 * c.cause.toNat + 2 ^ 48 * c.fcell.toNat + 2 ^ 54 * c.fnode.toNat

/-- A configuration status that reports a failure. -/
def failed (c : CfgStatus) : Prop := c.state = .crcFail ∨ c.state = .fetchFault ∨ c.state = .rejected

/-- The state behind an instruction that ends a wait and writes register `d`. -/
def wroteOn (s : State) (d : BitVec 5) (v : Word64) : State :=
  s.setSeq s.seqTurn
    { me s with g := if d = 0 then (me s).g else (me s).g.set d.toNat v, pc := (me s).pc + 4, wait := .none }

/-- The region of number `n` in a state, if there is one, satisfies `p`. -/
def regionIs (t : State) (n : Nat) (p : Region → Prop) : Prop := ∀ y, t.region n = some y → p y

end Sys2Proof.Cert

/-- The configuration instructions (R273 to R277). `cfgld` of a fetch beyond 16 waits; else it performs the earlier stores, issues its fetch, counts it,
and the status is LOADING. `cfgchk` waits while a fetch is outstanding; else it gives the status word. `cfgflip` of a STAGED configuration of which no section is
armed and which the checks pass makes the status FLIPPING; `cfgabort` waits while a fetch is outstanding; else it discards the shadows and
the status is EMPTY. The traps of the other states, and what a sequencer without a region does.
What log entries 41, 46 and 57 name are the model's choices; the clauses about a sequencer that leads no region rest on log entry 46
(DESIGN CHOICE). -/
def Obligations.ConfigurationInstructions : Prop :=
  (∀ (s : State) (a : BitVec 5) (q : BitVec 3) (r : Region), s.regionOfSeq s.seqTurn = some r → open_ s q →
    let st := BitVec.ofNat 64 (cfgNum r.cfg)
    ((reg s a).toNat % 64 = 0 → ¬ failed r.cfg → r.cfg.state ≠ .flipping → 16 ≤ r.fetches.length →
      exec (.cfgld a q) s = .next (s.setSeq s.seqTurn { me s with wait := .cfgld })) ∧
    ((reg s a).toNat % 64 = 0 → ¬ failed r.cfg → r.cfg.state ≠ .flipping → r.fetches.length < 16 → storesPass s →
      exec (.cfgld a q) s = .next (past s { s.flush s.seqTurn with
        regions := (s.flush s.seqTurn).regions.map (fun y => if y.serial = r.serial then { y with
          fetches := y.fetches ++ [{ addr := reg s a, born := s.cyc }],
          cfg := { y.cfg with state := .loading, issued := if y.cfg.issued < 256 then y.cfg.issued + 1 else y.cfg.issued } } else y) })) ∧
    (r.fetches = [] → exec (.cfgchk a q) s = .next (wroteOn s a st)) ∧
    (r.fetches ≠ [] → exec (.cfgchk a q) s = .next (s.setSeq s.seqTurn { me s with wait := .cfgchk a })) ∧
    (r.cfg.state = .staged → (∀ x ∈ r.sections, x.left = 0) → (s.stagedView r).ungatedCycle = false →
      s.stagedReject r = none → (s.stagedView r).badPulse = none → (s.stagedView r).badCircuit = none → s.region r.serial = some r →
      ∃ t, exec (.cfgflip q) s = .next t ∧ regionIs t r.serial (fun y => y.cfg.state = .flipping ∧ y.map = r.map ∧ y.named = r.named) ∧
        (t.seq s.seqTurn).pc = (me s).pc + 4 ∧ (t.seq s.seqTurn).g = (me s).g) ∧
    (canTrap s →
      (r.cfg.state = .empty → exec (.cfgflip q) s = .next (trapped s 17 st)) ∧
      (r.cfg.state = .loading ∨ r.cfg.state = .flipping → exec (.cfgflip q) s = .next (trapped s 18 st)) ∧
      (failed r.cfg → exec (.cfgflip q) s = .next (trapped s 19 st)) ∧
      (r.cfg.state = .flipping → exec (.cfgabort q) s = .next (trapped s 18 st)) ∧
      ((reg s a).toNat % 64 = 0 → failed r.cfg → exec (.cfgld a q) s = .next (trapped s 19 st)) ∧
      ((reg s a).toNat % 64 = 0 → r.cfg.state = .flipping → exec (.cfgld a q) s = .next (trapped s 18 (reg s a))) ∧
      ((reg s a).toNat % 64 ≠ 0 → exec (.cfgld a q) s = .next (trapped s 5 (reg s a)))) ∧
    (r.cfg.state ≠ .flipping → r.cfg.state ≠ .empty → r.fetches = [] → s.region r.serial = some r →
      ∃ t, exec (.cfgabort q) s = .next t ∧
        regionIs t r.serial (fun y => y.cfg = { CfgStatus.reset with epoch := r.cfg.epoch } ∧ y.named = [] ∧ y.map = r.map) ∧
        (∀ c ∈ s.cellsOf r, (t.cell c).shadow = none ∧ (t.cell c).active = (s.cell c).active) ∧
        t.seq s.seqTurn = { me s with pc := (me s).pc + 4 }) ∧
    (r.cfg.state ≠ .flipping → r.fetches ≠ [] → exec (.cfgabort q) s = .next (s.setSeq s.seqTurn { me s with wait := .cfgabort })) ∧
    (r.cfg.state = .empty → r.fetches = [] → exec (.cfgabort q) s = .next (jumped s ((me s).pc + 4)))) ∧
  ∀ (s : State) (a : BitVec 5) (q : BitVec 3), s.regionOfSeq s.seqTurn = none → open_ s q →
    ((reg s a).toNat % 64 = 0 → exec (.cfgld a q) s = .next (jumped s ((me s).pc + 4))) ∧
    exec (.cfgchk a q) s = .next (wroteOn s a (BitVec.ofNat 64 (cfgNum CfgStatus.reset))) ∧
    (canTrap s → exec (.cfgflip q) s = .next (trapped s 17 (BitVec.ofNat 64 (cfgNum CfgStatus.reset)))) ∧
    exec (.cfgabort q) s = .next (jumped s ((me s).pc + 4))

/-- What ends a configuration's fetches and its flip (R269, R270, R272, R274, R275, R278): CFGCHK_COMPLETE, CONFIG_FETCH_COMPLETE of a record
that its checks pass, and CELL_FLIP of a cell that holds nothing.
What log entries 43 and 139 name are the model's choices. -/
def Obligations.ConfigurationCompletes : Prop :=
  (∀ (s : State) (d : BitVec 5) (r : Region), s.regionOfSeq s.seqTurn = some r → (me s).wait = .cfgchk d → (me s).run = .running →
    r.fetches = [] → exec (.cfgchkComplete s.seqTurn) s = .next (wroteOn s d (BitVec.ofNat 64 (cfgNum r.cfg)))) ∧
  (∀ (s : State) (n k : Nat) (r : Region) (f : Fetch) (b : BlockRec), s.region n = some r → r.fetches[k]? = some f →
    r.cfg.state = .loading → r.lostLoad = false → s.engineWay r.die r.launch.ctx f.addr = .up →
    let s1 := s.settleDie r.die
    s1.fetchBlock r f.addr none (fun x y => decide ((x, y) ∈ r.tried)) = .ok b →
    ∃ t, exec (.configFetchComplete n k) s = .next t ∧ t.mem = s1.mem ∧
      regionIs t n (fun y => y.fetches = r.fetches.eraseIdx k ∧ y.cfg.loaded = r.cfg.loaded + 1 ∧ y.cfg.issued = r.cfg.issued ∧
        y.cfg.state = (if r.cfg.loaded + 1 = r.cfg.issued then .staged else .loading) ∧
        y.named = r.named ++ [⟨b.head.lbx, b.head.lby, b.head.pbx, b.head.pby⟩] ∧ y.tried = r.tried ++ s1.namesBlock r f.addr) ∧
      ∀ i : BitVec 6, (t.cell (r.cellAt b.head.pbx b.head.pby i)).shadow = some (b.config i)) ∧
  (∀ (s : State) (c : CellId) (r : Region), s.regionOf c = some r → r.cfg.state = .flipping → s.cellRuns c = true → s.mayFlip c = true →
    (s.cell c).holdsState = false →
    (let s1 := (s.emitAll c capoItem).modCell c (fun x => { x with
        queues := x.queues.map (fun q => if (q.head.map (fun u => u.tag.kind == 5)).getD false then q.pop else q) })
     (s1.applyShadow r (s1.stagedView r) c).isSome = true) →
    ∃ t, exec (.cellFlip c) s = .next t ∧ (t.cell c).epoch = !(s.cell c).epoch ∧ (t.cell c).last = 7 ∧
      (t.cell c).pin = Vector.replicate 8 [] ∧
      ∀ f, (s.cell c).shadow = some f → (t.cell c).active = f ∧ (t.cell c).shadow = none)

/-- The page instructions and the walk (R327, R329, R337, R338). `pgprobe` reports an address as it is translated, past what is cached where a
retune of the region has completed since the last one, and writes 0 beyond
bit 47; `retune` performs the earlier stores, drops the page's translations, and asks for a retune where the region pins the page;
PAGE_WALK caches the leaf that the walk of R322 finds.
Where the walk waits at a bridge that is DOWN, `pgprobe` waits, and at one in FAULT it is fault 0x19.
What log entries 44 and 105 name are the model's choices. -/
def Obligations.PageInstructions : Prop :=
  ∀ (s : State) (d a : BitVec 5) (g : BitVec 3) (sn : BitVec 1),
    let va := reg s a
    let die := seqDie s.seqTurn
    (guardOn s g sn → 2 ^ 48 ≤ va.toNat → exec (.pgprobe d a g sn) s = .next (wrote s d 0)) ∧
    (guardOn s g sn → va.toNat < 2 ^ 48 →
      (s.lookupWay die (me s).ctx va (me s).tlb = .down → exec (.pgprobe d a g sn) s = .next (s.setSeq s.seqTurn { me s with wait := .bridge })) ∧
      (s.lookupWay die (me s).ctx va (me s).tlb = .broken → exec (.pgprobe d a g sn) s = .next (s.seqFault s.seqTurn 0x19 0))) ∧
    (guardOn s g sn → va.toNat < 2 ^ 48 → s.lookupWay die (me s).ctx va (me s).tlb = .up →
      ∃ (t : State) (v : Word64), exec (.pgprobe d a g sn) s = .next t ∧
      t.mem = s.mem ∧ t.seq s.seqTurn = { me s with
        g := if d = 0 then (me s).g else (me s).g.set d.toNat v, pc := (me s).pc + 4, tlb := (t.seq s.seqTurn).tlb } ∧
      let latched : Nat := match s.regionOfSeq s.seqTurn with
        | some r => (s.pinsRange r va.toNat 1).toNat
        | none => 0
      let retuning : Nat := match s.regionOfSeq s.seqTurn with
        | some r => if r.retunes = [] then 0 else 1
        | none => 0
      let anew : Bool := match s.regionOfSeq s.seqTurn with
        | some r => r.reprobe
        | none => false
      let cached (l : List TlbEntry) : List TlbEntry := if anew then l.filter (fun e => !e.covers (me s).ctx va.toNat) else l
      let s0 := s.setDie die { s.die die with tlb := cached (s.die die).tlb }
      (∀ r, s.regionOfSeq s.seqTurn = some r → regionIs t r.serial (fun y => s.region r.serial = some r → y.reprobe = false)) ∧
      match (s0.lookup die (me s).ctx va 64 (cached (me s).tlb)).found with
      | .leaf e => v.toNat = 1 + 2 * (pteR e.pte).toNat + 4 * (pteW e.pte).toNat + 8 * (pteX e.pte).toNat + 16 * e.size.toNat
          + 64 * (pteHost e.pte).toNat + 128 * (ptePeer e.pte).toNat + 256 * latched + 512 * retuning
          + 2 ^ 11 * (3 - e.size.toNat) + 2 ^ 13 * (pteKeyh e.pte).toNat
      | .bad n m => v.toNat = 256 * latched + 512 * retuning + 1024 * m.toNat + 2 ^ 11 * (n % 4)) ∧
    (open_ s g → storesPass s → va.toNat < 2 ^ 48 →
      (∀ r, s.regionOfSeq s.seqTurn = some r → r.retunes.length < 4 ∧ s.region r.serial = some r) →
      ∃ t, exec (.retune a g) s = .next t ∧ t.pendOf s.seqTurn = [] ∧ (t.seq s.seqTurn).pc = (me s).pc + 4 ∧
        (t.seq s.seqTurn).g = (me s).g ∧ (∀ e ∈ (t.seq s.seqTurn).tlb, e.covers (me s).ctx va.toNat = false) ∧
        ((∀ r, s.regionOfSeq s.seqTurn = some r → s.pinsRange r va.toNat 1 = false) →
          ∀ e ∈ (t.die die).tlb, e.covers (me s).ctx va.toNat = false) ∧
        ∀ r, s.regionOfSeq s.seqTurn = some r → r.placed = true →
          regionIs t r.serial (fun y => y.retunes.length = r.retunes.length + (s.pinsRange r va.toNat 1).toNat)) ∧
    (open_ s g → canTrap s → 2 ^ 48 ≤ va.toNat → exec (.retune a g) s = .next (trapped s 11 va)) ∧
    (open_ s g → canTrap s → va.toNat < 2 ^ 48 → (∃ r, s.regionOfSeq s.seqTurn = some r ∧ 4 ≤ r.retunes.length) →
      exec (.retune a g) s = .next (trapped s 22 va)) ∧
    ∀ (x : BitVec 3) (ctx : BitVec 9), va.toNat < 2 ^ 48 →
      (∀ e, s.walk ctx va = .leaf e → exec (.pageWalk x ctx va) s =
        .next (s.setDie x { s.die x with tlb := (e :: (s.die x).tlb.filter (fun y => y ≠ e)).take 8192 })) ∧
      (∀ n m, s.walk ctx va = .bad n m → exec (.pageWalk x ctx va) s =
        .next (s.setDie x { s.die x with tlb := (s.die x).tlb.filter (fun y => !y.covers ctx va.toNat) }))

namespace Sys2Proof.Cert

/-- The head of an engine's queue: a descriptor in a window, where it is named by a physical address, behind bridges that are UP (R352), whose
function is ready (R442, R443), with its double-words, read behind the stores that are ordered before the engine's reads. -/
def descAt (s : State) (d : BitVec 3) (e : Fin 6) (q : QDesc) (dw : Nat → Word64) : Prop :=
  ((s.die d).engq[e]).head? = some q ∧ (∀ pa : Word64, q.desc = .phys pa → physOk pa.toNat 64 = true) ∧ s.descUp d q.desc = true ∧
    (s.die d).ready.getLsbD (engineReady e) = true ∧ dw = fun i => (s.settleDie d).wordOf d q i

/-- The state in which an engine has taken the head of its queue, behind the stores that are ordered before its accesses. -/
def without (s : State) (d : BitVec 3) (e : Fin 6) : State :=
  let s1 := s.settleDie d
  s1.setDie d { s1.die d with engq := (s1.die d).engq.set e ((s1.die d).engq[e]).tail }

/-- Bits of a double-word. -/
def fieldOf (v : Word64) (lo n : Nat) : Nat := v.toNat / 2 ^ lo % 2 ^ n

end Sys2Proof.Cert

/-- Invalidations and the end of a retune (R332 to R336): a sound descriptor leaves no cached translation of the context over the range on
the dies that it names, here where no region pins a page of the range, a malformed one completes with STATUS 2, and a retune by token that has passed
every node, one by mute whose cells are muted and whose memports are quiet, one in place whose older accesses have all performed, and one of a FROZEN
region whose memports are quiet, give way to the next.
What log entries 45, 136 and 139 name are the model's choices. -/
def Obligations.InvalidationsAndRetunes : Prop :=
  (∀ (s : State) (d : BitVec 3) (q : QDesc) (dw : Nat → Word64), descAt s d 2 q dw → fieldOf (dw 3) 56 8 = 0 →
    let va := (dw 0).toNat
    let n := fieldOf (dw 1) 0 32
    let ctx := BitVec.ofNat 9 (fieldOf (dw 1) 32 9)
    let sound := va % 4096 = 0 ∧ n ≠ 0 ∧ fieldOf (dw 1) 41 7 = 0 ∧ fieldOf (dw 1) 56 8 = 0 ∧ fieldOf (dw 2) 2 62 = 0 ∧
      fieldOf (dw 3) 0 56 = 0 ∧ (s.ctx ctx).state ≠ .freed ∧ (s.ctx ctx).state ≠ .terminating
    (¬ sound → exec (.invalidation d) s = .next ((without s d 2).complete d q 16 1 2)) ∧
    (sound → (∀ x : BitVec 3, (s.die x).invals = []) → (∀ r ∈ s.regions, s.pinsRange r va (4096 * n) = false) → ∃ t, exec (.invalidation d) s = .next t ∧
      ∀ x : BitVec 3, (dw 1).getLsbD (48 + x.toNat) = true →
        (∀ e ∈ (t.die x).tlb, e.overlaps ctx va (4096 * n) = false) ∧
        (∀ u ∈ (t.die x).utlbs, ∀ e ∈ u.2, e.overlaps ctx va (4096 * n) = false) ∧
        ∀ y : BitVec 7, seqDie y = x → ∀ e ∈ (t.seq y).tlb, e.overlaps ctx va (4096 * n) = false)) ∧
  (∀ (s : State) (n : Nat) (r : Region) (u : Retune) (rest : List Retune), s.region n = some r → r.retunes = u :: rest → u.started = true →
    r.placed = true →
    (match u.inPlace with
      | some k => ∀ c ∈ s.cellsOf r, s.mpQuietBefore c k = true
      | none => if r.kstate = .frozen then ∀ c ∈ s.cellsOf r, s.mpQuiet c = true
        else if u.byToken then s.retunePassed r = true
        else s.allMuted r = true ∧ r.cut = .none ∧ ∀ c ∈ s.cellsOf r, s.mpQuiet c = true) →
    ∃ t, exec (.retuneComplete n) s = .next t ∧ regionIs t n (fun y => y.retunes.length = rest.length) ∧
      (r.kstate ≠ .frozen → (∀ c ∈ s.cellsOf r, (s.cell c).mp.held = [] ∧ ∀ x ∈ (s.cell c).queues, ∀ i ∈ x.units, badToken i = false) →
        u.inPlace = none → u.byToken = false → rest = [] → (s.seq r.lead).run = .stopped → (t.seq r.lead).run = .running))

/-- `sigv` and `keyh` (R370, R371): each waits, and its reply writes the verdict of the bytes as they stand, with the length code, the tree
type and the leaf, or the word that describes the slot; an empty or foreign slot reads as zero, and no slot of KIND 3 gives verdict 3.
What log entries 3, 63 and 64 name are the model's choices. -/
def Obligations.SignatureInstructions : Prop :=
  ∀ (s : State) (d a b : BitVec 5) (g : BitVec 3) (sn : BitVec 1),
    let va := reg s a
    let h := reg s b
    let die := seqDie s.seqTurn
    (guardOn s g sn → mayIssue s → storesPass s → h.toNat < 2 ^ 10 → va.toNat % (if h.getLsbD 9 then 8 else 64) = 0 →
      (∃ v, (s.flush s.seqTurn).sigAnswer die (me s).ctx va h = .ok v) →
      exec (.sigv d a b g sn) s = .next (let s1 := s.flush s.seqTurn
        s1.setSeq s.seqTurn { me s with wait := .sigv d va h })) ∧
    (guardOn s g sn → canTrap s → 2 ^ 10 ≤ h.toNat → exec (.sigv d a b g sn) s = .next (trapped s 11 h)) ∧
    (guardOn s g sn → va.toNat < 2 ^ 9 → exec (.keyh d a g sn) s = .next (s.setSeq s.seqTurn { me s with wait := .keyh d va })) ∧
    (guardOn s g sn → canTrap s → 2 ^ 9 ≤ va.toNat → exec (.keyh d a g sn) s = .next (trapped s 11 va)) ∧
    ((me s).wait = .sigv d va h → ∀ v, s.sigAnswer die (me s).ctx va h = .ok v →
      exec (.sigvVerdict s.seqTurn) s = .next (wroteOn s d (BitVec.ofNat 64 (v.code + 2 ^ 4 * v.typ + 2 ^ 32 * v.leaf))) ∧
      ((∀ k ∈ s.slots, k.handle = BitVec.ofNat 9 h.toNat → k.ctx = some (me s).ctx → k.kind ≠ 3) → v.code = 3 ∧ v.typ = 0 ∧ v.leaf = 0)) ∧
    ((me s).wait = .keyh d va →
      ((∀ k ∈ s.slots, k.handle = BitVec.ofNat 9 va.toNat → k.ctx ≠ some (me s).ctx) →
        exec (.keyhReply s.seqTurn) s = .next (wroteOn s d 0)) ∧
      (∀ k, s.slots.find? (fun k => k.handle = BitVec.ofNat 9 va.toNat ∧ k.ctx = some (me s).ctx ∧ k.kind ≠ 4) = some k → k.kind ≠ 3 →
        exec (.keyhReply s.seqTurn) s = .next (wroteOn s d (BitVec.ofNat 64 (1 + 2 * k.kind.toNat)))))

/-- `launch`, `statf` and the statistics network (R96, R97, R100, R159, R209): a launch descriptor, as it reads, goes to the launch engine of the
die that it names, with OP 0; `statf` takes the table, clears it and stores its 65 entries at 32 bytes each; an adder of a block adds its cells' tokens; and the root adds a token into the record
of its register, each count saturating at 32 bits.
What log entries 54 and 72 name are the model's choices. -/
def Obligations.LaunchAndStatistics : Prop :=
  (∀ (s s1 : State) (a : BitVec 5) (q : BitVec 3) (x : Xlated), guardOn s q 0 → mayIssue s → storesPass s → reaches s s1 .r 64 (reg s a) x →
    let s2 := s1.flush s.seqTurn
    let dw (i : Nat) : Nat := s2.numAt x.key (x.pa + 8 * i) 8
    let die := BitVec.ofNat 3 (dw 0 / 2 ^ 17)
    ∃ t, exec (.launch a q) s = .next t ∧ t.mem = s2.mem ∧ t.seq s.seqTurn = { me s1 with pc := (me s).pc + 4 } ∧
      (t.die die).engq[(0 : Fin 6)] = (s2.die die).engq[(0 : Fin 6)] ++ [{
        desc := .virt (me s).ctx (reg s a), ticket := none, sel := none,
        read := BitVec.ofNat 64 (dw 0 / 256 * 256) :: (List.range 7).map (fun i => BitVec.ofNat 64 (dw (i + 1))) }]) ∧
  (∀ (s : State) (a : BitVec 5) (q : BitVec 3) (r : Region), open_ s q → s.regionOfSeq s.seqTurn = some r → s.region r.serial = some r →
    (r.launch.cmode = true → (reg s a).toNat % 64 = 0 → mayIssue s → storesPass s → (∀ w ∈ s.statPaths s.seqTurn (reg s a), w = .up) →
      let u := (s.modRegion r.serial (fun r => { r with stats := [] })).storeStats s.seqTurn (reg s a) 0 (statEntries r.stats)
      u.2 = none → exec (.statf a q) s = .next (u.1.setSeq s.seqTurn { u.1.seq s.seqTurn with pc := (me s).pc + 4 }) ∧
        (u.1.seq s.seqTurn).g = (me s).g ∧ regionIs u.1 r.serial (fun y => y.stats = []) ∧ (statEntries r.stats).length = 65 ∧
        ∀ e ∈ statEntries r.stats, e.length = 32) ∧
    (r.launch.cmode = false → canTrap s → exec (.statf a q) s = .next (trapped s 23 0))) ∧
  (∀ (s : State) (n : Nat) (x y : BitVec 4) (r : Region) (c0 : CellId) (u : CountTok) (us : List CountTok), s.region n = some r →
    r.statRoot = some c0 → ¬ (c0.x = r.x + x ∧ c0.y = r.y + y) →
    let here := (s.cellsOf r).filter (fun c => decide (c.x = r.x + x ∧ c.y = r.y + y))
    here.filterMap (fun c => (s.cell c).stat.head?) = u :: us →
    ∃ t, exec (.statAdderMerge n x y) s = .next t ∧ t.mem = s.mem ∧
      regionIs t n (fun z => z.toks = r.toks ++ [((x, y), us.foldl CountTok.add u)] ∧ z.rootToks = r.rootToks) ∧
      (here.Nodup → ∀ c ∈ here, (t.cell c).stat = (s.cell c).stat.tail)) ∧
  (∀ (s : State) (n : Nat) (r : Region) (c : CellId) (u : CountTok) (us : List CountTok) (x : Xlated), s.region n = some r →
    r.rootToks = u :: us → r.statRoot = some c →
    let va := (s.cell c).active.prm[14]
    let s1 := s.setRegion { r with rootToks := us }
    (va = 0 → exec (.statRootAdd n) s = .next s1) ∧
    (va ≠ 0 → va.toNat % 64 = 0 → ∀ s2, s1.xlateMp c .rw false va = (.ok x, s2) → s2.poisonIn x.pa 64 = none → MemOk s →
      (inStack x.pa = true ∨ inHost x.pa = true) → ∃ t, exec (.statRootAdd n) s = .next t ∧
        (∀ p ∈ [(0, u.sat), (4, u.ftz), (8, u.nan), (12, u.narrow), (16, u.tiles)],
          t.numAt x.key (x.pa + p.1) 4 = min (s2.numAt x.key (x.pa + p.1) 4 + p.2) (2 ^ 32 - 1)) ∧
        ∀ k, (k < x.pa ∨ x.pa + 22 ≤ k) → t.byteAt x.key k = s2.byteAt x.key k))

/-! ### Cell operations -/

namespace Sys2Proof.Cert

/-- The cell of the node whose turn it is, and the value at one of its positions (0 a, 1 b, 2 p, 3 c). -/
def here (s : State) : Cell := s.cell s.nodeTurn.1
def at_ (s : State) (p : Nat) : Option Item := (here s).valueAt s.nodeTurn.2 p

/-- The node may act: its cell runs, and no earlier result of it waits (R21, R164). -/
def mayAct (s : State) : Prop := s.cellRuns s.nodeTurn.1 = true ∧ (here s).due[s.nodeTurn.2.toNat] = []

/-- DATA heads a position. -/
def dataAt (s : State) (p : Nat) (u : Item) : Prop := at_ s p = some u ∧ u.tag.kind = 0

/-- A position holds nothing, or DATA. -/
def plainAt (s : State) (p : Nat) : Prop := ∀ u, at_ s p = some u → u.tag.kind = 0

/-- Both targets can take a result (R21). -/
def roomFor (s : State) (used : List Nat) (a b : BitVec 6) : Prop :=
  (here s).targetFree s.nodeTurn.2 used a = true ∧ (here s).targetFree s.nodeTurn.2 used b = true

/-- The node is ready over DATA at every position that it uses (R21, R24). -/
def ready (s : State) (used : List Nat) (a b : BitVec 6) : Prop :=
  mayAct s ∧ (∀ p ∈ used, ∃ u, dataAt s p u) ∧ roomFor s used a b

/-- The firing: one value consumed from every used position, and a list of results delivered to their targets (R21). -/
def fired (s : State) (used : List Nat) (outs : List (BitVec 6 × Item)) : State := s.fireWith s.nodeTurn.1 s.nodeTurn.2 used outs

/-- The same with the node's state replaced between the two. -/
def firedWith (s : State) (used : List Nat) (n : NodeState) (outs : List (BitVec 6 × Item)) : State :=
  (((s.consume s.nodeTurn.1 s.nodeTurn.2 used).setNode s.nodeTurn.1 s.nodeTurn.2 n).deliverAll s.nodeTurn.1 s.nodeTurn.2 outs)

/-- A list of units to both targets, each unit in turn. -/
def both (a b : BitVec 6) (us : List Item) : List (BitVec 6 × Item) := us.flatMap (fun u => [(a, u), (b, u)])

/-- The state that the node holds, and its parameter register `j`. -/
def held (s : State) : NodeState := (here s).nst[s.nodeTurn.2.toNat]
def par (s : State) (j : Nat) : Word64 := ((here s).active.prm[j]?).getD 0

/-- A lane read as a signed integer of `w` bits, and an integer put into one: its low bits, or clamped (R74). -/
def sgn (w x : Nat) : Int := if x < 2 ^ (w - 1) then x else x - 2 ^ w
def intLane (w : Nat) (wrap : Bool) (z : Int) : Nat :=
  let lo : Int := -2 ^ (w - 1)
  let hi : Int := 2 ^ (w - 1) - 1
  ((if wrap then z else if z < lo then lo else if hi < z then hi else z) % 2 ^ w).toNat

/-- A rounded lane of a format (R84, R168): a float under the rounding mode and the overflow of the word, an integer exact and then clamped or
wrapped. -/
def rounded (f : Fmt) (r : BitVec 3) (v : BitVec 1) (x : RoundMode → FVal) (z : Int) : Nat := match f.float with
  | some g => (g.conv (RoundMode.ofCode r.toNat) (v == 1) (x (RoundMode.ofCode r.toNat))).code
  | none => intLane f.laneBits (v == 1) z

/-- The lane-wise arith functions of R167: the targets, the mask class, whether b is used, and a lane of the result from the format, the
parameters and the lanes of a and b. -/
def laneOf : Instr → Option (BitVec 6 × BitVec 6 × BitVec 2 × Bool × (Fmt → (Nat → Word64) → Nat → Nat → Nat))
  | .arithAdd a b m r v _ => some (a, b, m, true, fun f _ x y =>
      rounded f r v (fun q => (f.read x).add q (f.read y)) (sgn f.laneBits x + sgn f.laneBits y))
  | .arithSub a b m r v _ => some (a, b, m, true, fun f _ x y =>
      rounded f r v (fun q => (f.read x).add q (f.read y).neg) (sgn f.laneBits x - sgn f.laneBits y))
  | .arithMul a b m r v _ => some (a, b, m, true, fun f _ x y =>
      rounded f r v (fun _ => (f.read x).mul (f.read y)) (sgn f.laneBits x * sgn f.laneBits y))
  | .arithFma a b m r v p => some (a, b, m, true, fun f prm x y =>
      let z := (prm p.toNat).toNat % 2 ^ f.laneBits
      rounded f r v (fun q => ((f.read x).mul (f.read z)).add q (f.read y)) (sgn f.laneBits x * sgn f.laneBits z + sgn f.laneBits y))
  | .arithMin a b m _ => some (a, b, m, true, fun f _ x y => match f.float with
      | some g => if (g.read x).isNan || (g.read y).isNan then g.nanCode else if (g.read y).below (g.read x) then y else x
      | none => if sgn f.laneBits y < sgn f.laneBits x then y else x)
  | .arithMax a b m _ => some (a, b, m, true, fun f _ x y => match f.float with
      | some g => if (g.read x).isNan || (g.read y).isNan then g.nanCode else if (g.read x).below (g.read y) then y else x
      | none => if sgn f.laneBits x < sgn f.laneBits y then y else x)
  | .arithAbs a b m _ => some (a, b, m, false, fun f _ x _ => match f.float with
      | some g => if (g.read x).isNan then g.nanCode else x % g.signBit
      | none => intLane f.laneBits false (sgn f.laneBits x).natAbs)
  | .arithNeg a b m _ => some (a, b, m, false, fun f _ x _ => match f.float with
      | some g => if (g.read x).isNan then g.nanCode
          else if x / g.signBit % 2 = 1 then x % g.signBit else x % g.signBit + g.signBit
      | none => intLane f.laneBits false (-sgn f.laneBits x))
  | .arithAnd a b m _ => some (a, b, m, true, fun _ _ x y => x &&& y)
  | .arithOr a b m _ => some (a, b, m, true, fun _ _ x y => x ||| y)
  | .arithXor a b m _ => some (a, b, m, true, fun _ _ x y => x ^^^ y)
  | .arithShl a b m _ => some (a, b, m, true, fun f _ x y => x * 2 ^ (y % f.laneBits))
  | .arithShrLogical a b m _ => some (a, b, m, true, fun f _ x y => x / 2 ^ (y % f.laneBits))
  | .arithShrArithmetic a b m _ => some (a, b, m, true, fun f _ x y => (sgn f.laneBits x / 2 ^ (y % f.laneBits) % 2 ^ f.laneBits).toNat)
  | _ => none

/-- The comparisons of R169 on integer lanes of `w` bits. -/
def cmpOf : Instr → Option (BitVec 6 × BitVec 6 × BitVec 2 × (Nat → Nat → Nat → Bool))
  | .arithCmpEq a b m _ => some (a, b, m, fun _ x y => x == y)
  | .arithCmpNe a b m _ => some (a, b, m, fun _ x y => x != y)
  | .arithCmpLt a b m _ => some (a, b, m, fun w x y => decide (sgn w x < sgn w y))
  | .arithCmpGe a b m _ => some (a, b, m, fun w x y => decide (sgn w y ≤ sgn w x))
  | .arithCmpLtu a b m _ => some (a, b, m, fun _ x y => decide (x < y))
  | .arithCmpGeu a b m _ => some (a, b, m, fun _ x y => decide (y ≤ x))
  | _ => none

/-- The format in which the node's lanes are computed: that of operand a, with `raw` and `kv` as 64-bit integers (R161, R167). -/
def laneFmtOf (s : State) : Fmt := match s.elemFmt s.nodeTurn.1 s.nodeTurn.2 with
  | .raw | .kv => .i64
  | f => f

/-- A lane of a unit's payload. -/
def lane (f : Fmt) (u : Item) (j : Nat) : Nat := u.v0.toNat / 2 ^ (f.laneBits * j) % 2 ^ f.laneBits

/-- Whether the record at p selects a lane (R18). -/
def selects (s : State) (m : BitVec 2) (j : Nat) : Bool :=
  if m.getLsbD 0 then (match at_ s 2 with
    | some p => decide (64 ≤ j) || p.v0.getLsbD j
    | none => true) else true

end Sys2Proof.Cert

/-- The arith nodes over DATA (R161 to R163, R167 to R169): one record to both targets, lane by lane: the function's lane where p selects it,
else the lane of a; for a comparison of integers the mask of the lanes that satisfy it; for `sel` the lane of a or of b; for `sat` of integers
the lane clamped to the bounds of its register. NEST and SEQ are those of a.
What log entry 7 names are the model's choices. -/
def Obligations.ArithmeticNodes : Prop :=
  ∀ (s : State), let f := laneFmtOf s
    (∀ (i : Instr) (a b : BitVec 6) (m : BitVec 2) (two : Bool) (op) (u : Item), laneOf i = some (a, b, m, two, op) →
      let used := usedPos (if two then [0, 1] else [0]) m
      ready s used a b → at_ s 0 = some u → ∃ r : Item, exec i s = .next (fired s used [(a, r), (b, r)]) ∧
        r.v1 = none ∧ r.tag.kind = 0 ∧ r.tag.nest = u.tag.nest ∧ r.tag.seq = u.tag.seq ∧
        (two = false → r.tag.weight = u.tag.weight ∧ r.tag.domain = u.tag.domain) ∧
        ∀ j, j < f.recLanes → lane f r j =
          if selects s m j then op f (par s) (lane f u j) (((at_ s 1).map (fun w => lane f w j)).getD 0) % 2 ^ f.laneBits
          else lane f u j) ∧
    (∀ (i : Instr) (a b : BitVec 6) (m : BitVec 2) (op) (u w : Item), cmpOf i = some (a, b, m, op) → f.float = none →
      (∃ x : Word32, (here s).word s.nodeTurn.2 = some x ∧ x.toNat % 8 < 6) →
      ready s (usedPos [0, 1] m) a b → at_ s 0 = some u → at_ s 1 = some w →
      ∃ r : Item, exec i s = .next (fired s (usedPos [0, 1] m) [(a, r), (b, r)]) ∧ r.v1 = none ∧ r.tag.kind = 0 ∧
        r.tag.nest = u.tag.nest ∧ r.tag.seq = u.tag.seq ∧
        ∀ j, j < 512 → r.v0.getLsbD j = (decide (j < f.recLanes) && selects s m j && op f.laneBits (lane f u j) (lane f w j))) ∧
    (∀ (a b : BitVec 6) (m : BitVec 2) (o : BitVec 8) (u w : Item) (p : Item), ready s (usedPos [0, 1, 2] m) a b →
      at_ s 0 = some u → at_ s 1 = some w → at_ s 2 = some p →
      ∃ r : Item, exec (.arithSel a b m o) s = .next (fired s (usedPos [0, 1, 2] m) [(a, r), (b, r)]) ∧ r.v1 = none ∧
        ∀ j, j < f.recLanes → lane f r j = if decide (64 ≤ j) || p.v0.getLsbD j then lane f u j else lane f w j) ∧
    (∀ (a b : BitVec 6) (m : BitVec 2) (o : BitVec 8) (u : Item), f.float = none → ready s (usedPos [0] m) a b → at_ s 0 = some u →
      let w := f.laneBits
      let j0 := o.toNat % 16
      let lo := if w = 64 then (par s j0).toNat else (par s j0).toNat % 2 ^ w
      let hi := if w = 64 then (par s (j0 + 1)).toNat else (par s j0).toNat / 2 ^ w % 2 ^ w
      (w = 64 → j0 < 15) → sgn w lo ≤ sgn w hi →
      ∃ r : Item, exec (.arithSat a b m o) s = .next (fired s (usedPos [0] m) [(a, r), (b, r)]) ∧ r.v1 = none ∧
        ∀ j, j < f.recLanes → lane f r j = if !selects s m j then lane f u j
          else if sgn w (lane f u j) < sgn w lo then lo else if sgn w hi < sgn w (lane f u j) then hi else lane f u j)

namespace Sys2Proof.Cert

/-- A unit with another NEST. -/
def nested (u : Item) (n : BitVec 4) : Item := { u with tag := { u.tag with nest := n } }

/-- The class range of a steer node (R172): its first outlet and its count are in range. -/
def steerRange (s : State) (a : BitVec 6) (j k : Nat) : Prop :=
  k = (par s j).toNat % 32 ∧ 1 ≤ k ∧ a.toNat % 32 + k ≤ 31

/-- Whether the p mask of a steer node turns every record away (R173). -/
def turnedAway (s : State) (m : BitVec 2) : Bool := m.getLsbD 0 && ((at_ s 2).map (fun p => p.v0.setWidth 64 == (0 : Word64))).getD false

/-- Outlet `n` of the range as a target. -/
def outletOf (a : BitVec 6) (n : Nat) : BitVec 6 := BitVec.ofNat 6 (32 + (a.toNat % 32 + n) % 32)

/-- What a sorted join does with one relation of its heads (R175): whether a is popped, whether b is, and whether it emits. -/
structure JoinRow where
  a    : Bool
  b    : Bool
  emit : Bool

/-- The rows of `isect`, `union` and `diff` (R177) and of `jcmp` (R175, R176), for the keys of a below, equal to and above those of b. -/
def joinRows (s : State) : Instr → Option (BitVec 6 × BitVec 6 × Nat × JoinRow × JoinRow × JoinRow)
  | .isect a b _ o => some (a, b, o.toNat % 16, ⟨true, false, false⟩, ⟨true, true, true⟩, ⟨false, true, false⟩)
  | .unionKeys a b _ o => some (a, b, o.toNat % 16, ⟨true, false, true⟩, ⟨true, true, true⟩, ⟨false, true, true⟩)
  | .diff a b _ o => some (a, b, o.toNat % 16, ⟨true, false, true⟩, ⟨true, true, false⟩, ⟨false, true, false⟩)
  | .jcmp a b _ o =>
    let v := (par s (o.toNat % 16)).toNat
    let row (n : Nat) : JoinRow := ⟨v / 2 ^ n % 2 == 1, v / 2 ^ (n + 1) % 4 == 1, v / 2 ^ (n + 3) % 2 == 1⟩
    if v / 2 % 4 = 3 ∨ v / 2 ^ 5 % 4 = 3 ∨ v / 2 ^ 9 % 4 = 3 then none else some (a, b, o.toNat % 16, row 0, row 4, row 8)
  | _ => none

end Sys2Proof.Cert

/-- The copy, gate and steer nodes and the joins over DATA (R170 to R178), and a control token at a node (R23): the unit, under the NEST of
the word, to both targets; the gate's states; the class of a steer by bit, key, hash and table, the key of a vector being its SEQ (R362); the first comparison of a join, and what a
window join keeps and emits. Of a key below the first bound `stk` makes what the table of R173 says, against that rule's closing sentence (log
entry 130).
What log entries 5, 15, 21, 24 and 130 name are the model's choices. -/
def Obligations.FlowAndJoinNodes : Prop :=
  ∀ (s : State) (a b : BitVec 6) (m : BitVec 2) (o : BitVec 8) (u v w : Item),
    let j := o.toNat % 16
    let n := BitVec.ofNat 4 o.toNat
    (ready s (usedPos [0] m) a b → at_ s 0 = some u →
      exec (.copy a b m o) s = .next (fired s (usedPos [0] m) (both a b [if o.getLsbD 4 then nested u n else u]))) ∧
    (mayAct s → plainAt s 0 → plainAt s 1 → plainAt s 3 →
      (held s ≠ .carry → at_ s 0 = some u → roomFor s [0] a b →
        exec (.gate a b m o) s = .next ((fired s [0] (both a b [nested u n])).setNode s.nodeTurn.1 s.nodeTurn.2 .carry)) ∧
      (held s = .carry → at_ s 3 = some w → w.v0.getLsbD 0 = true → at_ s 1 = some v → roomFor s [1, 3] a b →
        exec (.gate a b m o) s = .next (fired s [3, 1] (both a b [nested v n]))) ∧
      (held s = .carry → at_ s 3 = some w → w.v0.getLsbD 0 = false → roomFor s [3] a b →
        exec (.gate a b m o) s = .next ((s.consume s.nodeTurn.1 s.nodeTurn.2 [3]).setNode s.nodeTurn.1 s.nodeTurn.2 .idle))) ∧
    (ready s (usedPos [0, 2] m) a b → at_ s 0 = some u → at_ s 2 = some w →
      exec (.stp a b m o) s = .next (fired s (usedPos [0, 2] m) [(if w.v0.getLsbD (o.toNat % 64) then a else b, u)])) ∧
    (∀ k, steerRange s a j k → ready s (usedPos [0] m) b b → at_ s 0 = some u →
      let key := if u.v1.isSome then u.tag.seq.toNat else u.key.toNat
      let go (cl : Option Nat) : State := fired s (usedPos [0] m) [(if turnedAway s m then b else match cl with
        | some i => outletOf a i
        | none => b, u)]
      (j + k ≤ 15 → (∀ i, i + 1 < k → (par s (j + 1 + i)).toNat < (par s (j + 2 + i)).toNat) →
        (∀ i, i < k → (par s (j + 1 + i)).toNat ≤ key →
          (i + 1 < k → key < (par s (j + 2 + i)).toNat) → exec (.stk a b m o) s = .next (go (some i))) ∧
        (key < (par s (j + 1)).toNat → exec (.stk a b m o) s = .next (go none))) ∧
      (j ≠ 15 → exec (.sth a b m o) s = .next (go (some (kh64 key (par s (j + 1)).toNat / 2 ^ 32 * k / 2 ^ 32)))) ∧
      (j ≠ 15 → let e := key % (16 * (15 - j))
        let cl := (par s (j + 1 + e / 16)).toNat / 2 ^ (4 * (e % 16)) % 16
        exec (.stt a b m o) s = .next (go (if cl < k then some cl else none)))) ∧
    (∀ (i : Instr) (j' : Nat) (lt eq gt : JoinRow), joinRows s i = some (a, b, j', lt, eq, gt) → mayAct s → dataAt s 0 u →
      dataAt s 1 v → held s = .idle → (par s j').toNat / 2 ^ 12 % 8 < 5 →
      let r := if u.key < v.key then lt else if u.key = v.key then eq else gt
      let pops := (if r.a then [0] else []) ++ (if r.b then [1] else [])
      let out := if u.key < v.key then u else if u.key = v.key then
        combine ((par s j').toNat / 2 ^ 12 % 8) ((par s j').getLsbD 15) u v else v
      r.a = true ∨ r.b = true → roomFor s pops a b →
      ∃ x, exec i s = .next (firedWith s pops x (both a b (if r.emit then [out] else [])))) ∧
    (mayAct s → plainAt s 0 → at_ s 1 = some v → v.tag.kind = 0 → held s = .idle →
      exec (.jwin a b m o) s = .next (firedWith s [1] (.jwin [v] false none) [])) ∧
    (mayAct s → roomFor s [0] a b → dataAt s 0 u → at_ s 1 = some v → (v.tag.kind = 2 ∨ v.tag.kind = 3 ∨ v.tag.kind = 4) →
      (par s j).toNat / 2 ^ 12 % 8 < 5 → ∀ buf closed dropped, held s = .jwin buf closed dropped →
      exec (.jwin a b m o) s = .next (firedWith s [0] (.jwin buf true dropped) (both a b
        ((buf.filter (fun x => x.key == u.key)).map (combine ((par s j).toNat / 2 ^ 12 % 8) ((par s j).getLsbD 15) u))))) ∧
    (∀ (c : CellId) (k : BitVec 3) (x : Word32), let s1 := { s with nodeTurn := (c, k) }
      (s.cell c).word k = some x → decodeNode x.toNat = .ok (.copy a b 0 o) → mayAct s1 → at_ s1 0 = some u → u.tag.kind = 2 →
      roomFor s1 [0] a b → s.issueSlot c = some k → exec (.tokenForward c k) s = .next (fired s1 [0] (both a b [u])))

/-- The reorder, accum and window nodes over DATA (R179 to R183, R216 to R224). In order, a record leaves at once and NEXT moves on; within
the window it is held; behind NEXT it leaves with LATE. An update writes one entry of the fretboard and no other; a lookup gives the
entry's value and weight sum; a drain, a spill and a clear empty it. A window node takes a record into its line and emits what closes.
What log entries 5, 15, 16, 17, 32 and 33 name are the model's choices. -/
def Obligations.RecordNodes : Prop :=
  ∀ (s : State) (a b : BitVec 6) (m : BitVec 2) (o : BitVec 8) (u : Item),
    let j := o.toNat % 16
    let c := s.nodeTurn.1
    (∀ i ∈ [Instr.rord a b m o, Instr.rrel a b m o], ∀ (next : BitVec 28), mayAct s → dataAt s 0 u → plainAt s 3 →
      roomFor s [0] a b → (par s j).toNat % 16 ≤ 9 →
      (held s = .reorder next [] none ∨ (held s = .idle ∧ next = BitVec.ofNat 28 ((par s j).toNat / 2 ^ 16))) →
      let d := (u.tag.seq - next).toNat
      (d = 0 → exec i s = .next (firedWith s [0] (.reorder (next + 1) [] none) (both a b [u]))) ∧
      (0 < d → d < 2 ^ ((par s j).toNat % 16) → exec i s = .next (firedWith s [0] (.reorder next [u] none) [])) ∧
      (2 ^ 27 ≤ d → exec i s = .next (firedWith s [0] (.reorder next [] none)
        (both a b [{ u with tag := { u.tag with flags := u.tag.flags ||| 4 } }])))) ∧
    (∀ g, (here s).geo = some g → mayAct s → dataAt s 0 u → roomFor s [0] a b → g.isInt = true → o.getLsbD 4 = false →
      let f0 : Fretboard := { (here s).fb with present := true, logn := g.logn, vt := true }
      let did (i : Instr) (n : Nat) (val wsum : Nat) : Prop := ∃ t, exec i s = .next t ∧
        (∃ e, (t.cell c).fb.at n = some e ∧ e.key = u.key ∧ e.value.toNat = val ∧ e.wsum.toNat = min wsum 0xFFFFFF) ∧
        (∀ k, k ≠ n → (t.cell c).fb.at k = (here s).fb.at k) ∧ t.mem = s.mem
      (∀ n, f0.probe g u.key = .free n → did (.ains a b m o) n u.value.toNat u.tag.weight.toNat ∧
        did (.amax a b m o) n u.value.toNat u.tag.weight.toNat ∧ did (.amin a b m o) n u.value.toNat u.tag.weight.toNat) ∧
      (∀ n e, f0.probe g u.key = .hit n e →
        let x := sgn 32 e.value.toNat
        let y := sgn 32 u.value.toNat
        let w := e.wsum.toNat + u.tag.weight.toNat
        did (.ains a b m o) n (intLane 32 false (x + y)) w ∧
        did (.amax a b m o) n (if x < y then u.value.toNat else e.value.toNat) w ∧
        did (.amin a b m o) n (if y < x then u.value.toNat else e.value.toNat) w)) ∧
    (∀ g, (here s).geo = some g → ready s (usedPos [0] m) a b → at_ s 0 = some u →
      (∀ n e, (here s).fb.probe g u.key = .hit n e → exec (.alook a b m o) s = .next (fired s (usedPos [0] m) [(a,
        { u with v0 := BitVec.ofNat 512 (u.key.toNat + e.value.toNat * 2 ^ 64 + e.wsum.toNat * 2 ^ 96) })])) ∧
      ((∀ n e, (here s).fb.probe g u.key ≠ .hit n e) → exec (.alook a b m o) s = .next (fired s (usedPos [0] m) [(b, u)]))) ∧
    (mayAct s → dataAt s 3 u → roomFor s [3] a b → (here s).geo.isSome = true →
      (∃ t, exec (.aclr a b m o) s = .next t ∧ (t.cell c).fb.entries = [] ∧ (t.cell c).fb.loss = 0 ∧ t.mem = s.mem) ∧
      (∃ t, exec (.aspill a b m o) s = .next t ∧ (t.cell c).fb.entries = [] ∧ (t.cell c).fb.loss = (here s).fb.loss ∧ t.mem = s.mem) ∧
      (o.getLsbD 0 = true → ∃ t, exec (.adrain a b m o) s = .next t ∧ t.mem = s.mem ∧
        (t.cell c).fb.entries = (if o.getLsbD 4 then (here s).fb.entries else []) ∧
        t = ((if o.getLsbD 4 then s.consume c s.nodeTurn.2 [3] else (s.consume c s.nodeTurn.2 [3]).modFb c Fretboard.clear).deliverAll c
          s.nodeTurn.2 (both a b (drainOut (here s).fb c u.tag.nest u.inv))))) ∧
    (∀ p, winPar (s.elemFmt c s.nodeTurn.2) (par s j) = some p → mayAct s → dataAt s 0 u → roomFor s [0] a b →
      (u.v1.isSome = true → vectorBad (s.elemFmt c s.nodeTurn.2) u = false) →
      let x := (WinSt.of (held s)).push (s.elemFmt c s.nodeTurn.2) p c u
      let did (i : Instr) : Prop := exec i s = .next (firedWith s [0] (.window x.2.line x.2.base x.2.marks) (both a b x.1))
      did (.win a b m o) ∧ did (.wflush a b m o) ∧
      (p.h = 1 → p.op = 4 → held s = .idle → x.1 = [u, eodItem 0 u.inv]) ∧ x.2.line.length ≤ p.span)

namespace Sys2Proof.Cert

/-- The element format of the node, and the format of its result's route (R161). -/
def elem (s : State) : Fmt := s.elemFmt s.nodeTurn.1 s.nodeTurn.2
def dest (s : State) : Fmt := s.resultFmt s.nodeTurn.1 s.nodeTurn.2

/-- Rows of an inlet queue of a matrix cell: its first two units, in data slots (R210). -/
def rowsIn (s : State) (q : Fin 8) (u v : Item) : Prop :=
  ∃ rest, ((here s).queues[q].entries.map QEntry.item) = u :: v :: rest ∧ u.tag.kind = 0 ∧ v.tag.kind = 0

/-- A unit converted lane by lane from one format to another, shifted first (R89, R189). -/
def convertedTo (f g : Fmt) (r : BitVec 3) (v : BitVec 1) (shift : Int) (u : Item) (n j : Nat) : Nat :=
  ((List.range n).map (fun i =>
    (convertLane f g (RoundMode.ofCode r.toNat) (v == 1) ((f.read (laneAt f.laneBits u.row i)).shift shift)).code)).getD j 0

/-- The firing of a convert node: what it consumes, the counts that it adds for its tile, and what leaves (R189 to R193). -/
def converted (s : State) (used : List Nat) (a b : BitVec 6) (tensor : BitVec 16) (n : Counts) (out : List Item) : State :=
  convertGive s s.nodeTurn.1 s.nodeTurn.2 used a b tensor n out

end Sys2Proof.Cert

/-- The matrix, online and convert nodes over DATA (R86, R184 to R193, R210 to R215). A K step of a conventional format adds to each C[i][j]
the groups of row i of A and row j of B, and takes two rows from each of the eight queues; a drain without a mismatch emits four records of
the lanes and clears them; the first plane of an online element is kept; a cut keeps or drops a plane; a conversion gives each lane as R89
says.
What log entries 5, 26, 27, 28, 29 and 30 name are the model's choices. -/
def Obligations.VectorNodes : Prop :=
  ∀ (s : State) (a b : BitVec 6) (m : BitVec 2) (o : BitVec 8) (r : BitVec 3) (v : BitVec 1) (p : BitVec 4) (u : Item),
    let j := o.toNat % 16
    let c := s.nodeTurn.1
    let f := elem s
    let g := dest s
    (∀ row : Fin 16 → Item, mayAct s → roomFor s [] a b → f.isSd = false → s.fmtAt 64 c s.nodeTurn.2 (some 1) = f →
      (∀ q : Fin 8, rowsIn s q (row ⟨q, by omega⟩) (row ⟨q + 8, by omega⟩)) →
      (∀ i, (row i).v1.isSome = true ∧ vectorBad f (row i) = false) → (par s j).toNat / 2 ^ 8 % 256 ≤ 64 →
      let rowA (i : Nat) : Item := if h : i < 4 then row ⟨i, by omega⟩ else row ⟨8 + i % 4, by omega⟩
      let rowB (i : Nat) : Item := if h : i < 4 then row ⟨4 + i, by omega⟩ else row ⟨12 + i % 4, by omega⟩
      let did (i : Instr) (scaled isInt : Bool) : Prop := ∃ t, exec i s = .next t ∧ t.mem = s.mem ∧
        (∀ n : Fin 64, ((t.cell c).mx.acc[n]).toNat = (accMeet isInt false ((here s).mx.acc[n]).toNat
          [⟨rowValues f scaled (rowA (n / 8)), rowValues f scaled (rowB (n % 8)), f.rowLanes / 4⟩]).code % 2 ^ 32) ∧
        (∀ q : Fin 8, (t.cell c).queues[q].entries = (here s).queues[q].entries.drop 2)
      did (.mma a b 0 o) false (f == .i8) ∧ did (.mmas a b 0 o) true false) ∧
    (ready s (usedPos [3] m) a b → at_ s 3 = some u → (here s).mx.suspect (here s).tol = none → (here s).mx.loss = 0 →
      (∃ t, exec (.mdrn a b m o) s = .next t ∧ t.mem = s.mem ∧
        (t.cell c).mx.acc = (if o.getLsbD 0 then (here s).mx.acc else Vector.replicate 64 0)) ∧
      ∃ recs : List Item, recs.length = 4 ∧
        (∀ n : Fin 64, ((recs[n.val / 16]?).map (fun x => laneAt 32 x.v0.toNat (n.val % 16))) = some ((here s).mx.acc[n]).toNat) ∧
        (∀ x ∈ recs, x.tag.kind = 0 ∧ x.tag.weight = 1 ∧ x.tag.seq = u.tag.seq ∧ x.tag.nest = u.tag.nest ∧ x.v1 = none) ∧
        (o.getLsbD 0 = true → exec (.mdrn a b m o) s = .next ((s.consume c s.nodeTurn.2 (usedPos [3] m)).deliverAll c s.nodeTurn.2
          (both a b recs)))) ∧
    (ready s (usedPos [3] m) a b → ∃ t, exec (.mzero a b m o) s = .next t ∧ t.mem = s.mem ∧
      (t.cell c).mx.acc = Vector.replicate 64 0 ∧ (t.cell c).mx.sat = 0 ∧ (t.cell c).mx.flags = 0 ∧ (t.cell c).mx.loss = 0) ∧
    (∀ x y z : Item, held s = .idle → (∀ i ∈ [x, y, z], vectorBad .sdp i = false ∧ descPlane i.desc = 1) →
      at_ s 0 = some x → at_ s 1 = some y →
      (ready s [0, 1] a b → exec (.oadd a b m o) s = .next (firedWith s [0, 1] (.online [x] [y] [] false false false) []) ∧
        exec (.omul a b m o) s = .next (firedWith s [0, 1] (.online [x] [y] [] false false false) [])) ∧
      (ready s [0, 1, 3] a b → at_ s 3 = some z →
        exec (.omac a b m o) s = .next (firedWith s [0, 1, 3] (.online [x] [y] [z] false false false) []))) ∧
    (ready s (usedPos [0] m) a b → at_ s 0 = some u →
      (vectorBad .sdp u = false → 2 ≤ j → j ≤ 8 →
        (j < descPlane u.desc → exec (.ocut a b m o) s = .next (fired s (usedPos [0] m) [])) ∧
        (descPlane u.desc ≤ j → ∃ x : Item, exec (.ocut a b m o) s = .next (fired s (usedPos [0] m) [(a, x), (b, x)]) ∧
          x.v0 = u.v0 ∧ descPlanes x.desc = min (descPlanes u.desc) j ∧ descPlane x.desc = descPlane u.desc ∧ x.scale = u.scale ∧
          x.tag.flags = (if j < descPlanes u.desc then u.tag.flags ||| 0x80 else u.tag.flags))) ∧
      (u.v1 = none → let pr := par s p.toNat
        let shift := (pr.setWidth 8 : BitVec 8).toInt
        (g.laneBits * f.recLanes ≤ 512 → ∃ (x : Item) (n : Counts),
          exec (.cvt a b m r v p) s = .next (converted s (usedPos [0] m) a b (pr.extractLsb' 16 16) n [x]) ∧ x.v1 = none ∧
          x.tag.seq = u.tag.seq ∧ x.tag.kind = 0 ∧
          ∀ i, i < f.recLanes → laneAt g.laneBits x.v0.toNat i = convertedTo f g r v shift u f.recLanes i % 2 ^ g.laneBits) ∧
        (∃ (x : Item) (n : Counts),
          exec (.rsc a b m r v p) s = .next (converted s (usedPos [0] m) a b (pr.extractLsb' 16 16) n [x]) ∧ x.v1 = none ∧
          x.tag.seq = u.tag.seq ∧ x.tag.kind = 0 ∧
          ∀ i, i < f.recLanes → laneAt f.laneBits x.v0.toNat i = convertedTo f f r v shift u f.recLanes i % 2 ^ f.laneBits)) ∧
      ((u.v1 = none ∨ vectorBad f u = false) →
        exec (.unpack a b m o) s = .next (converted s (usedPos [0] m) a b ((par s j).extractLsb' 16 16)
          (laneCounts ((unpackLanes f g u).take (validLanes f u))) (unpackParts f g u)) ∧
        (∀ x ∈ unpackParts f g u, x.v1 = none ∧ x.tag.seq = u.tag.seq ∧ x.tag.kind = u.tag.kind) ∧
        exec (.stat a b m o) s = .next (converted s (usedPos [0] m) a b ((par s j).extractLsb' 16 16) (statUnit f u) [u])) ∧
      (u.v1 = none → held s = .idle → (here s).active.resultVec (((here s).word s.nodeTurn.2).getD 0) = false →
        2 ≤ g.recLanes / f.recLanes → ∃ x : Item, (∃ t, exec (.pack a b m r v p) s = .next t ∧ t.mem = s.mem ∧
          (t.cell c).nst[s.nodeTurn.2.toNat] = .pack [x]) ∧ x.tag.seq = u.tag.seq ∧
          ∀ i, i < f.recLanes → laneAt g.laneBits x.v0.toNat i =
            convertedTo f g r v ((par s p.toNat).setWidth 8 : BitVec 8).toInt u f.recLanes i % 2 ^ g.laneBits)) ∧
    (ready s [0] a b → at_ s 0 = some u → vectorBad f u = false →
      let pr := par s p.toNat
      (f.isSd = true → held s = .idle → descPlane u.desc = 1 →
        exec (.oconv a b m r v p) s = .next (firedWith s [0] (.online [u] [] [] false false false) [])) ∧
      (f.isSd = false → 2 ≤ pr.toNat % 16 → pr.toNat % 16 ≤ 8 →
        ∃ (t s1 : State) (out : List Item) (n : Counts), toDigits s f (pr.toNat % 16) (RoundMode.ofCode r.toNat) u = (out, n, s1) ∧
          exec (.oconv a b m r v p) s = .next t ∧ out.length = pr.toNat % 16 ∧
          t = (((s1.consume c s.nodeTurn.2 [0]).setNode c s.nodeTurn.2 .idle).modCell c (fun x =>
            x.countConv (32 + s.nodeTurn.2.setWidth 6) (pr.extractLsb' 16 16) u.inv n)).deliverAll c s.nodeTurn.2 (both a b out)))

namespace Sys2Proof.Cert

/-- A memport's parameters (R200) at the node whose turn it is. -/
def port (s : State) : MpPar := (here s).mpPar s.nodeTurn.2

/-- No result of the node is still on its way to a latch among its targets (R21, R164). -/
def noneOwed (s : State) (a b : BitVec 6) : Prop :=
  ∀ t ∈ [a, b], ∀ j p, targetOf t = .latch j p → ∀ w ∈ (here s).mp.outs, w.slot ≠ s.nodeTurn.2

/-- What a memport node is: its function, the positions that it uses, and its targets (R200). -/
def memportOf : Instr → Option (MpFn × List Nat × BitVec 6 × BitVec 6)
  | .mrd a b m _ => some (.mrd, usedPos [0] m, a, b)
  | .mgat a b m _ => some (.mgat, usedPos [0] m, a, b)
  | .mwr a b m _ => some (.mwr, usedPos [0, 1] m, a, b)
  | .mamo a b m _ => some (.mamo, usedPos [0, 1] m, a, b)
  | .msct a b m _ => some (.msct, usedPos [0] m, a, b)
  | _ => none

/-- A memport node of a cell whose turn its search gives, in a cell that runs, with a token of one kind at every head, where the node may take
it; `toks` are the tokens (R21 to R23). -/
def tokenTurn (s : State) (c : CellId) (k : BitVec 3) (kind : BitVec 4) (fn : MpFn) (toks : List Item) : Prop :=
  ∃ (w : Word32) (i : Instr) (used : List Nat) (a b : BitVec 6), (s.cell c).word k = some w ∧ decodeNode w.toNat = .ok i ∧
    memportOf i = some (fn, used, a, b) ∧ mpFnOf w = some fn ∧ s.issueSlot c = some k ∧ s.cellRuns c = true ∧ (s.cell c).due[k.toNat] = [] ∧
    (s.cell c).mp.full fn = false ∧ (s.cell c).heads k used = .token kind ∧
    (s.cell c).mpFree k (used.filter ((s.cell c).aligns k)) [a, b] = true ∧
    toks = (used.filter ((s.cell c).aligns k)).filterMap ((s.cell c).valueAt k)

end Sys2Proof.Cert

/-- The memport and addrgen nodes over DATA (R194 to R207). A read takes its place among the results and goes to its slice; a store is held
until the EOT, one byte for each byte that it writes; an atomic is put in flight, counted in its phase; `agen` emits the record of its tile
that is next, `agbase` writes a parameter register, and `agre` latches the pins anew.
What log entries 25, 34 and 36 name are the model's choices. -/
def Obligations.MemoryNodes : Prop :=
  ∀ (s s1 : State) (a b : BitVec 6) (m : BitVec 2) (o : BitVec 8) (u d : Item) (x : Xlated),
    let c := s.nodeTurn.1
    let k := s.nodeTurn.2
    let pt := port s
    let mp := (here s).mp
    let va : Word64 := u.v0.setWidth 64
    (ready s (usedPos [0] m) a b → noneOwed s a b → at_ s 0 = some u → pt.unit = 0 → pt.sp24 = false → va.toNat % 64 = 0 → mp.reads < 64 →
      mp.acquires = [] → suits (here s) [a, b] false = true →
      let did (i : Instr) : Prop := ∃ t, exec i s = .next t ∧ t.mem = s.mem ∧ t.pend.length = s.pend.length + 1 ∧
        ∃ (req : SliceReq) (w : MpOut), t.pend = s.pend ++ [req] ∧ (t.cell c).mp.outs = mp.outs ++ [w] ∧
          req.write = false ∧ req.pa = x.pa ∧ req.len = 64 ∧ req.key = x.key ∧ req.src = .cell c ∧ req.id = w.id ∧
          w.slot = k ∧ w.item = u.withInvs ((here s).invsAt k (usedPos [0] m)) ∧ w.token = false ∧ w.form = .record ∧ w.val = none
      (s.xlateMp c .r true va = (.ok x, s1) → did (.mrd a b m o)) ∧
      (s.xlateMp c .r false va = (.ok x, s1) → did (.mgat a b m o))) ∧
    (ready s (usedPos [0, 1] m) a b → noneOwed s a b → at_ s 0 = some u → at_ s 1 = some d → pt.unit = 0 → pt.sp24 = false → d.v1 = none →
      va.toNat % 64 = 0 → m.getLsbD 0 = false → mp.held = [] → s.xlateMp c .w true va = (.ok x, s1) →
      ∃ t, exec (.mwr a b m o) s = .next t ∧ t.mem = s.mem ∧ t.pend = s.pend ∧
        ∃ h : HeldStore, (t.cell c).mp.held = [h] ∧ h.key = x.key ∧ h.va = va ∧
          h.bytes = (natToBytes 64 d.v0.toNat).mapIdx (fun i y => (x.pa + i, y))) ∧
    (pt.unit = 0 → pt.sp24 = false → (pt.op.toNat ≤ 8 ∨ (pt.op.toNat = 9 ∧ pt.w64 = false)) → mp.atoms = [] →
      mp.isOpen[mp.ph.toNat] = true → va.toNat % (if pt.w64 then 8 else 4) = 0 → u.inv = none →
      s.xlateMp c .rw false va = (.ok x, s1) → at_ s 0 = some u → noneOwed s a b →
      let did (i : Instr) (operand : Word64) : Prop := ∃ t, exec i s = .next t ∧ t.mem = s.mem ∧
        (t.cell c).mp.issued[mp.ph.toNat] = mp.issued[mp.ph.toNat] + 1 ∧
        ∃ w : AtomReq, (t.cell c).mp.atoms = [w] ∧ w.pa = x.pa ∧ w.key = x.key ∧ w.op = pt.op ∧ w.w64 = pt.w64 ∧ w.operand = operand ∧
          w.skip = false ∧ w.ph = mp.ph
      (ready s (usedPos [0, 1] m) a b → at_ s 1 = some d → (here s).invsAt k (usedPos [0, 1] m) = [] → mp.acquires = [] →
        did (.mamo a b m o) (d.v0.setWidth 64)) ∧
      (ready s (usedPos [0] m) a b → (here s).invsAt k (usedPos [0] m) = [] → did (.msct a b m o) (u.v0.extractLsb' 64 64))) ∧
    (∀ (n : Nest) (i : Inv) (rest : List Inv), mayAct s → roomFor s [] a b → s.mutingAt c = false →
      let g := (here s).ag[k.toNat]
      g.due = i :: rest → g.par = none → g.relatch = false → g.pos = 0 → g.begun = [] → nestOf (here s).active.prm (o.toNat % 16) = some n →
      1 < n.records → n.ends 0 = [] →
      ∃ t, exec (.agen a b 0 o) s = .next t ∧ t.mem = s.mem ∧ (t.cell c).ag[k.toNat].pos = 1 ∧ (t.cell c).ag[k.toNat].due = i :: rest ∧
        t = ((s.modCell c (fun y => { y with
            ag := y.ag.set k.toNat { g with
              par := some (here s).active.prm, seq := g.seq + BitVec.ofNat 28 n.records, outer := advance (n.counts.drop n.tile) g.outer,
              begun := [⟨i, g.seq, g.outer, (here s).active.prm⟩], pos := 1 },
            last := k })).deliverAll c k (both a b [n.record g.seq g.outer 0 i])) ∧
        (n.record g.seq g.outer 0 i).tag.seq = g.seq ∧ (n.record g.seq g.outer 0 i).tag.kind = 0) ∧
    (ready s (usedPos [0] m) a b → at_ s 0 = some u → ∃ t, exec (.agbase a b m o) s = .next t ∧ t.mem = s.mem ∧
      (t.cell c).active.prm = (here s).active.prm.setIfInBounds (o.toNat % 16) va) ∧
    (ready s (usedPos [3] m) a b → ∃ t, exec (.agre a b m o) s = .next t ∧ t = (s.consume c k (usedPos [3] m)).latchPins c ∧ t.mem = s.mem)

/-- The events of memports (R202 to R208, R305, R306, R308, R348, R349, R403): a slice performs a read or a write, behind what the ECC of a line
shows, an atomic performs, a result
leaves in its place, a count returns, a phase opens, a LAST pulse leaves, a query is sent and answered, and the EOT and ORDER of a memport
node release its stores and close its phase.
What log entries 13 and 70 name are the model's choices. -/
def Obligations.MemportEvents : Prop :=
  ∀ (s : State) (c : CellId) (n : Nat),
    let mp := (s.cell c).mp
    (∀ r : SliceReq, s.pend[n]? = some r → inPeer r.pa = false → s.pathTo r.src.die r.pa = .up → s.inOrder n r = true →
      let s1 := ({ s with pend := s.pend.eraseIdx n } : State).settle r.src.agent
      (noneOrdered s → s1 = { s with pend := s.pend.eraseIdx n }) ∧
      (r.write = true → exec (.sliceAccess (n, none)) s = .next (s1.performWrite r)) ∧
      (r.write = false → r.src = .cell c → ∃ t, exec (.sliceAccess (n, none)) s = .next t ∧ t.mem = s1.mem ∧ t.pend = s1.pend ∧
        (t.cell c).mp.outs = mp.outs.map (fun w => if w.id = r.id ∧ w.token = false then { w with
          got := w.got ++ [(r.off, (s1.bytesAt r.key r.pa r.len).mapIdx (fun i y => (aget w.heldBytes (r.pa + i)).getD y))],
          poison := w.poison || (s1.poisonIn r.pa r.len).isSome } else w))) ∧
    (∀ line, inStack (64 * line) = true →
      exec (.sliceAccess (n, some (line, .uncorrectable))) s = exec (.sliceAccess (n, none)) (s.setPoison line) ∧
      exec (.sliceAccess (n, some (line, .corrected))) s =
        exec (.sliceAccess (n, none)) (s.softError (homeDie 0 (64 * line)) 0 (BitVec.ofNat 64 (64 * line)))) ∧
    (∀ w : AtomReq, mp.atoms[n]? = some w → s.pathTo c.die w.pa = .up → s.atomInOrder c n w = true → w.skip = false →
      let b := if w.w64 then 8 else 4
      let s1 := s.settle (.cell c)
      s1.poisonIn w.pa b = none → MemOk s → (inStack w.pa = true ∨ inHost w.pa = true) → (noneOrdered s → s1 = s) ∧
        ∃ t, exec (.atomicPerform c n) s = .next t ∧
        (t.cell c).mp.atoms = mp.atoms.eraseIdx n ∧ t.numAt w.key w.pa b = w.apply (s1.numAt w.key w.pa b) % 2 ^ (8 * b) ∧
        (∀ k, (k < w.pa ∨ w.pa + b ≤ k) → t.byteAt w.key k = s1.byteAt w.key k) ∧
        ∀ (i : Nat) (y : MpOut), mp.outs[i]? = some y → y.id = w.id → y.token = false →
          ((t.cell c).mp.outs[i]?).map MpOut.got = some [(0, natToBytes b (s1.numAt w.key w.pa b))]) ∧
    (∀ (w : MpOut) (bs : List Byte) (x : Word32), mp.outs = [w] → w.token = false → w.val = some bs → w.form = .record → w.poison = false →
      (s.cell c).due[w.slot.toNat] = [] → (s.cell c).word w.slot = some x →
      (∀ t ∈ (s.cell c).targets w.slot, (s.cell c).targetFree w.slot [] t = true) →
      exec (.memportReadReturn c) s = .next ((s.setCell c { s.cell c with mp := { mp with outs := [] } }).deliverAll c w.slot
        (((s.cell c).targets w.slot).map (fun t => (t, { w.item with v0 := BitVec.ofNat 512 (bytesToNat bs), v1 := none }))))) ∧
    (mp.isOpen[mp.ph.toNat] = false → mp.closed[mp.ph.toNat] ≤ mp.acked[mp.ph.toNat] → ∃ t, exec (.phaseOpen c) s = .next t ∧
      t.mem = s.mem ∧ (t.cell c).mp.isOpen[mp.ph.toNat] = true ∧ (t.cell c).mp.issued[mp.ph.toNat] = 0 ∧
      (t.cell c).mp.acked[mp.ph.toNat] = 0) ∧
    (∀ (i : Option Inv) (po : BitVec 3) (writes : Bool) (rest), mp.lastDue = (i, po, writes) :: rest →
      (writes = true → (∀ r ∈ s.pend, r.src = .cell c → r.write = true → r.inv ≠ i) ∧ (∀ w ∈ mp.atoms, w.inv ≠ i) ∧ ∀ h ∈ mp.held, h.inv ≠ i) →
      exec (.lastPulse c) s = .next ((s.setCell c { s.cell c with mp := { mp with lastDue := rest } }).sendPulse c po 3)) ∧
    (∀ (slice : BitVec 7) (ph : BitVec 2) (e : SliceCount), s.counts.find? (fun x => x.slice = slice ∧ x.src = c ∧ x.ph = ph) = some e →
      (aget s.cells c).isSome = true → ∃ t, exec (.sliceCountReturn ⟨slice, c⟩ ph) s = .next t ∧ t.mem = s.mem ∧
        (t.cell c).mp.acked[ph.toNat] = mp.acked[ph.toNat] + e.n ∧ t.counts = s.counts.erase e) ∧
    (∀ (w : Acquirer) (e : OrderEntry), (s.acquiring w)[n]? = some e → (∀ q ∈ s.queries, ¬ (q.who = w ∧ q.entry = e)) →
      s.pathDies (acquirerDie w) e.src.die ≠ .broken → ∃ (t : State) (q : Query), exec (.orderQuery w n) s = .next t ∧
        t.queries = s.queries ++ [q] ∧ q.who = w ∧ q.entry = e ∧ q.slack = s.slackOfAcquirer w ∧ q.late = false ∧ t.mem = s.mem ∧
        t.cells = s.cells ∧ t.seqs = s.seqs) ∧
    (∀ x : Query, s.queries[n]? = some x → s.releaseDone x = true → (∀ e, x.who = .cell e → s.pathDies e.die x.entry.src.die = .up) →
      (∀ q, x.who = .seq q → s.pathDies (seqDie q) x.entry.src.die = .up) → ∃ t, exec (.orderQueryAnswer n) s = .next t ∧
        t.mem = s.mem ∧ t.queries = s.queries.eraseIdx n ∧ t.acquiring x.who = (s.acquiring x.who).erase x.entry) ∧
    (∀ (k : BitVec 3) (fn : MpFn) (u : Item) (us : List Item),
      (tokenTurn s c k 3 fn (u :: us) → fn.writes = true → mp.isOpen[mp.ph.toNat] = true →
        let is := (u.withInvs ((u :: us).flatMap Item.invs)).invs
        ∃ t, exec (.heldStoreRelease c) s = .next t ∧ t.mem = s.mem ∧ (t.cell c).mp.held = mp.held.filter (fun h => !h.endsWith k is) ∧
          t.pend.length = s.pend.length + (mp.held.filter (fun h => h.endsWith k is)).length ∧
          (∀ r ∈ t.pend.drop s.pend.length, r.write = true ∧ r.ph = mp.ph ∧ r.src = .cell c)) ∧
      (tokenTurn s c k 8 fn (u :: us) → (mergeEntries (u :: us)).length < 7 →
        0 < mp.issued[mp.ph.toNat] → mp.isOpen[mp.ph.toNat] = true → ∃ t, exec (.memportOrder c) s = .next t ∧
          t.mem = s.mem ∧ (t.cell c).mp.ph = mp.ph + 1 ∧ (t.cell c).mp.isOpen[mp.ph.toNat] = false ∧
          (t.cell c).mp.closed[mp.ph.toNat] = mp.issued[mp.ph.toNat]))

/-! ### Policy words and the row manager's commands -/

namespace Sys2Proof.Cert

/-- A decision in progress on the die whose turn it is, which has not ended and may execute one more word (R418, R420). -/
def deciding (s : State) (x : Decision) : Prop := (s.die s.polTurn).dec = some x ∧ x.ended = none ∧ x.steps < 256

/-- The state behind a word that leaves the decision as `y`, with one step more. -/
def decided (s : State) (x y : Decision) : State :=
  s.setDie s.polTurn { s.die s.polTurn with dec := some { y with steps := x.steps + 1 } }

/-- A decision behind a word that writes a register. -/
def setB (x : Decision) (d : BitVec 3) (v : Word32) : Decision := { x with b := x.b.set d.toNat v, pc := x.pc + 1 }

/-- The first row from `n` on that has no veto is `i`, or there is none. -/
def firstRow (x : Decision) (n : Nat) (r : Option Nat) : Prop := match r with
  | some i => n ≤ i ∧ i < x.rows.length ∧ i ∉ x.veto ∧ ∀ k, n ≤ k → k < i → k ∈ x.veto
  | none => ∀ k, n ≤ k → k < x.rows.length → k ∈ x.veto

end Sys2Proof.Cert

/-- The policy words (R418): registers and fields, arithmetic and comparisons of the signed or unsigned words, SKIP and JUMP, the loop over the
rows, PICK, VETO and the two ends. -/
def Obligations.PolicyWords : Prop :=
  ∀ (s : State) (x : Decision) (d t : BitVec 3) (v : BitVec 8) (n : BitVec 5), deciding s x →
    let b := x.b[d.toNat]
    let c := x.b[t.toNat]
    let row := match x.cur with
      | some i => x.rows[i]?
      | none => x.sel.bind (fun i => x.rows[i]?)
    let went (i : Instr) (y : Decision) : Prop := exec i s = .next (decided s x y)
    let test (p : Bool) : Decision := { x with t := p, pc := x.pc + 1 }
    went (.polImm d v) (setB x d (BitVec.ofNat 32 v.toNat)) ∧
    (∀ w, (row.bind (fun r => r.vals[n.toNat]?)) = some w → went (.polFld d n) (setB x d w)) ∧
    (∀ w, x.pstate[n.toNat]? = some w → went (.polSld d n) (setB x d w)) ∧
    went (.polPlus d t) (setB x d (b + c)) ∧ went (.polMinus d t) (setB x d (b - c)) ∧
    went (.polLow d t) (setB x d (BitVec.ofInt 32 (min b.toInt c.toInt))) ∧
    went (.polHigh d t) (setB x d (BitVec.ofInt 32 (max b.toInt c.toInt))) ∧
    went (.polBand d t) (setB x d (b &&& c)) ∧ went (.polBor d t) (setB x d (b ||| c)) ∧
    went (.polLsl d n) (setB x d (BitVec.ofNat 32 (b.toNat * 2 ^ n.toNat))) ∧
    went (.polLsr d n) (setB x d (BitVec.ofNat 32 (b.toNat / 2 ^ n.toNat))) ∧
    went (.polTestEq d t) (test (decide (b = c))) ∧ went (.polTestNe d t) (test (decide (b ≠ c))) ∧
    went (.polTestLt d t) (test (decide (b.toInt < c.toInt))) ∧ went (.polTestGe d t) (test (decide (c.toInt ≤ b.toInt))) ∧
    went (.polTestLtu d t) (test (decide (b.toNat < c.toNat))) ∧ went (.polTestGeu d t) (test (decide (c.toNat ≤ b.toNat))) ∧
    went (.polSkip v) { x with pc := if x.t then x.pc + v.toNat else x.pc + 1 } ∧
    went (.polJump v) { x with pc := x.pc + v.toNat } ∧
    (∀ i, firstRow x 0 (some i) → went .polEach { x with cur := some i, pc := x.pc + 1 }) ∧
    (∀ i k, x.cur = some k → firstRow x (k + 1) (some i) → went (.polNext v) { x with cur := some i, pc := x.pc - v.toNat + 1 }) ∧
    (∀ k, x.cur = some k → firstRow x (k + 1) none → went (.polNext v) { x with cur := none, pc := x.pc + 1 }) ∧
    (∀ k, x.cur = some k → went (.polPick d) (if x.sel = none ∨ x.score.toInt < b.toInt then
      { x with sel := some k, score := b, pc := x.pc + 1 } else { x with pc := x.pc + 1 })) ∧
    went .polDecide { x with ended := some x.sel } ∧ went .polStop { x with ended := some none } ∧
    (∀ k, x.cur = some k → k ∉ x.veto → went .polVeto
      { x with veto := k :: x.veto, sel := if x.sel = some k then none else x.sel, pc := x.pc + 1 })

namespace Sys2Proof.Cert

/-- The row manager whose turn it is, a register of it, a row manager that has gone on to its next word, and the state in which it has written
a register and gone on. -/
def mgr (s : State) : Rm := s.rm s.rmTurn
def rmReg (s : State) (n : BitVec 5) : Word64 := if n = 0 then 0 else (mgr s).x[n.toNat]
def rmWent (r : Rm) : Rm := { r with pc := r.pc + 4, csr := { r.csr with minstret := r.csr.minstret + 1 } }
def rmWrote (s : State) (d : BitVec 5) (v : Word64) : State :=
  s.setRm s.rmTurn (rmWent { mgr s with x := if d = 0 then (mgr s).x else (mgr s).x.set d.toNat v })

/-- A selector names the queue of engine `e` of die `d` (R429). -/
def selects2 (v : Word64) (e : Fin 6) (d : BitVec 3) : Prop :=
  v.toNat = e.val + 8 * d.toNat ∧ (e = 4 → d = 0)

end Sys2Proof.Cert

/-- The row manager's commands (R120, R429 to R436). `kcmd` hands a descriptor to the queue of its selector under a new ticket, or writes
0; `kfence` waits for its ticket and frees it; `kpoll` and `kqst` report a ticket and a queue's room; `khalt` halts the row, and ends once
the results in flight of its cells are in their queues, or resumes it;
`kpeek` reads the drain chain, `kreplay` offers a record to a queue and stores the outcome, and `kbbx` reads the black box.
An illegal word of the extension takes the illegal-instruction exception of the base.
What log entries 23, 91, 92, 93, 94 and 139 name are the model's choices. -/
def Obligations.RowManagerCommands : Prop :=
  ∀ (s : State) (a b d : BitVec 5),
    let m := s.rmTurn
    let va := rmReg s a
    let v := rmReg s b
    (∀ (e : Fin 6) (x : BitVec 3), selects2 v e x → va.toNat % 64 = 0 → ((mgr s).tickets.filter (fun t => !t.done)).length < 16 →
      ((s.die x).engq[e]).length < 64 → ∃ t, exec (.kcmd b a d) s = .next t ∧ t.mem = s.mem ∧
        let num := BitVec.ofNat 64 ((if (mgr s).count = 0xFFFF then 1 else (mgr s).count.toNat + 1) + x.toNat * 2 ^ 16 + e.val * 2 ^ 19)
        (t.die x).engq[e] = (s.die x).engq[e] ++ [⟨.phys va, some (m, num), some x, []⟩] ∧
        (d ≠ 0 → (t.rm m).x[d.toNat] = num) ∧ ⟨num, false⟩ ∈ (t.rm m).tickets ∧ (t.rm m).pc = (mgr s).pc + 4) ∧
    ((va.toNat % 64 ≠ 0 ∨ 5 < v.toNat % 8 ∨ 64 ≤ v.toNat ∨ (v.toNat % 8 = 4 ∧ v.toNat / 8 % 8 ≠ 0)) →
      exec (.kcmd b a d) s = .next (rmWrote s d 0)) ∧
    ((∀ k ∈ (mgr s).tickets, k.num = va → k.done = true) → va ≠ 0 →
      exec (.kfence a) s = .next (s.setRm m (rmWent { mgr s with tickets := (mgr s).tickets.filter (fun t => t.num != va) }))) ∧
    ((∃ k ∈ (mgr s).tickets, k.num = va ∧ k.done = false) → va ≠ 0 →
      exec (.kfence a) s = .next (s.setRm m { mgr s with wait := some va })) ∧
    (∀ w, (mgr s).wait = some w → w ≠ 0 → (∀ k ∈ (mgr s).tickets, k.num = w → k.done = true) →
      exec (.kfenceComplete m) s = .next (s.setRm m (rmWent { mgr s with
        wait := none, tickets := (mgr s).tickets.filter (fun t => t.num != w) }))) ∧
    (∀ k, (mgr s).tickets.find? (fun t => t.num == va) = some k → exec (.kpoll a d) s = .next (rmWrote s d (if k.done then 1 else 0))) ∧
    ((∀ k ∈ (mgr s).tickets, k.num ≠ va) → exec (.kpoll a d) s = .next (rmWrote s d 2)) ∧
    (∀ (e : Fin 6) (x : BitVec 3), selects2 v e x →
      exec (.kqst b d) s = .next (rmWrote s d (BitVec.ofNat 64 (64 - ((s.die x).engq[e]).length)))) ∧
    (∀ i ∈ [Instr.khaltHalt a, Instr.khaltResume a],
      (va = 1 → s.rowInFlight m = false → exec i s = .next (s.setRm m (rmWent { mgr s with halted := true }))) ∧
      (va = 1 → s.rowInFlight m = true → exec i s = .next (s.setRm m { mgr s with halted := true })) ∧
      (va = 0 → exec i s = .next (s.setRm m (rmWent { mgr s with halted := false }))) ∧
      (2 ≤ va.toNat → exec i s = .next (s.setRm m (rmWent (mgr s))))) ∧
    (∀ (c : CellId) (k : BitVec 3) (i : Fin 16), cellRow c = m → (mgr s).halted = true →
      va.toNat = (cellWord c k).toNat + 3 * 2 ^ 32 + i.val * 2 ^ 35 →
      exec (.kpeek a d) s = .next (rmWrote s d (s.cell c).active.prm[i])) ∧
    (∀ (c : CellId) (k : BitVec 3), cellRow c = m → (mgr s).halted = true →
      va.toNat = (cellWord c k).toNat + 2 ^ 35 → exec (.kpeek a d) s = .next (rmWrote s d (s.cell c).fault.addr)) ∧
    (∀ (c : CellId) (k : BitVec 3), cellRow c = m → (mgr s).halted = true → va = (cellWord c k).setWidth 64 → v.toNat % 128 = 0 → MemOk s →
      let s1 := s.settle (.die (rmDie m))
      s1.physUp (rmDie m) v.toNat 80 = true → s1.rvReach v 80 = true → s1.poisonIn v.toNat 80 = none →
      let x := (s.cell c).queues[k.toNat]
      let u : Item := { tag := tagOfWord (s1.dwordAt s.osKey (v.toNat + 64)), v0 := BitVec.ofNat 512 (s1.numAt s.osKey v.toNat 64), v1 := none,
                        inv := none }
      x.state = .flowing → u.isData = true → 1 ≤ x.free → x.occ + 1 < x.high → x.spills = false → x.kv = false →
      inMgmt v.toNat = false → ∃ t, exec (.kreplay b a) s = .next t ∧ (t.cell c).queues[k.toNat] = { x with entries := x.entries ++ [⟨u, true⟩] } ∧
        t.numAt s.osKey (v.toNat + 72) 8 = 0 ∧ (t.rm m).pc = (mgr s).pc + 4) ∧
    (∀ (x : BitVec 3) (e : BbEvent), (s.die x).service = true → va.toNat / 2 ^ 12 = x.toNat →
      (s.die x).bb.find? (fun y => y.eseq.toNat % 1024 == va.toNat % 1024) = some e →
      exec (.kbbx a d) s = .next (rmWrote s d (if va.toNat / 1024 % 4 = 0 then BitVec.ofNat 64 (e.eseq.toNat + e.typ.toNat * 2 ^ 32
          + e.ctx.toNat * 2 ^ 40)
        else if va.toNat / 1024 % 4 = 1 then e.summary else if va.toNat / 1024 % 4 = 2 then e.addr else e.aux))) ∧
    (∀ w : Word32, (mgr s).wait = none → s.rvFetch m = .ok (4, w.toNat) → decodeRm w.toNat = .illegal →
      exec (.illegalInstructionException w) s = .next (s.setRm m { mgr s with
        pc := (mgr s).csr.mtvec &&& 0xFFFFFFFFFFFFFFFC
        csr := { (mgr s).csr with mepc := (mgr s).pc &&& 0xFFFFFFFFFFFFFFFE, mcause := 2, mtval := w.setWidth 64, mpie := (mgr s).csr.mie,
                                  mie := false } }))

/-! ### Launches, contexts, partitions, copies -/

namespace Sys2Proof.Cert

/-- Whether the mute of a pre-emption enters a region at no port: the region loads, or is muted already, or has no inlet port bound. -/
def noPortMute (s : State) (r : Region) : Prop :=
  r.kstate = .loading ∨ r.muting = true ∨ (s.seq r.lead).inPort = Vector.replicate 64 none

/-- A partition descriptor that keeps to the table of R413 and names its own die. -/
def partDesc (d : BitVec 3) (q : QDesc) (dw : Nat → Word64) : Prop :=
  fieldOf (dw 0) 12 3 = d.toNat ∧ (q.sel = none ∨ q.sel = some d) ∧ fieldOf (dw 0) 15 49 = 0 ∧ fieldOf (dw 2) 9 7 = 0 ∧
    fieldOf (dw 2) 17 8 = 0 ∧ fieldOf (dw 2) 34 30 = 0 ∧ dw 3 = 0 ∧ dw 4 = 0 ∧ dw 5 = 0 ∧ dw 6 = 0 ∧ fieldOf (dw 7) 8 56 = 0

end Sys2Proof.Cert

/-- Launch descriptors and copies. `LAUNCH_DESCRIPTOR` (R410, R411): a launch that the checks pass joins the end of its context's queue on its die, with RESULT 0 and
STATUS 1, and a dispatch decision becomes pending; a full queue gives STATUS 2; a reserved field, a context that is neither LOADED nor
RUNNING and a partition that the die does not have, or that the context is not assigned to, give STATUS 3. `TRANSFER_COPY` (R428): a sound
descriptor without an arrival copies its lines from stacked memory to stacked memory, each read under the source's key and written under the
destination's, touches no other byte before its record and its STATUS 1, and an unsound one completes with STATUS 2. Every bridge and
link on the way to what a descriptor names is UP here: it waits for one that is not (R352).
What log entries 72, 84, 103, 105 and 139 name are the model's choices. -/
def Obligations.LaunchesAndCopies : Prop :=
  (∀ (s : State) (d : BitVec 3) (q : QDesc) (dw : Nat → Word64), descAt s d 0 q dw → fieldOf (dw 0) 0 8 = 0 →
    let die := BitVec.ofNat 3 (fieldOf (dw 0) 17 3)
    let ctx := BitVec.ofNat 9 (fieldOf (dw 0) 8 9)
    let w := without s d 0
    let answered (v : Nat) : State := (w.putDesc d q.desc 48 8 0).complete d q 0 1 v
    (s.die die).ready.getLsbD 215 = true → s.rangeUp die ctx (dw 1).toNat 64 = true →
    (∀ l, w.launchAsked q dw = some l → ((s.die die).launchQueue ctx).length < 16 →
      exec (.launchDescriptor d) s = .next (((answered 1).setDie die { (answered 1).die die with
        launchq := aset ((answered 1).die die).launchq ctx ((s.die die).launchQueue ctx ++ [l]) }).pendDispatch die l.part)) ∧
    (∀ l, w.launchAsked q dw = some l → 16 ≤ ((s.die die).launchQueue ctx).length → exec (.launchDescriptor d) s = .next (answered 2)) ∧
    (fieldOf (dw 0) 29 3 ≠ 0 ∨ fieldOf (dw 0) 44 20 ≠ 0 ∨ fieldOf (dw 5) 32 32 ≠ 0 ∨ dw 7 ≠ 0 ∨ (dw 1).toNat % 64 ≠ 0 ∨
        (dw 2).toNat % 64 ≠ 0 ∨ (dw 4).toNat % 64 ≠ 0 ∨ ((s.ctx ctx).state ≠ .loaded ∧ (s.ctx ctx).state ≠ .running) ∨
        (∀ p ∈ (s.die die).parts, p.num.toNat = fieldOf (dw 0) 20 4 → ctx ∉ p.ctxs) →
      exec (.launchDescriptor d) s = .next (answered 3))) ∧
  ∀ (s : State) (d : BitVec 3) (q : QDesc) (dw : Nat → Word64), descAt s d 2 q dw → fieldOf (dw 3) 56 8 ≠ 0 → s.copyUp d dw = true →
    let w := without s d 2
    let len := fieldOf (dw 2) 0 32
    let src := (dw 0).toNat
    let dst := (dw 1).toNat
    let ctx := BitVec.ofNat 9 (fieldOf (dw 3) 0 9)
    (w.copyOk dw = false → exec (.transferCopy d) s = .next (w.complete d q 56 1 2)) ∧
    (w.copyOk dw = true → MemOk s → (dw 3).getLsbD 9 = false → src + len ≤ 2 ^ 40 → dst + len ≤ 2 ^ 40 → w.poisonIn src len = none →
      ∀ sk dk, s.copyKey ctx (BitVec.ofNat 9 (fieldOf (dw 2) 32 9)) = some sk → s.copyKey ctx (BitVec.ofNat 9 (fieldOf (dw 2) 41 9)) = some dk →
      ∃ u : State, exec (.transferCopy d) s = .next (((u.putRecord d ctx (dw 5)
          { user := BitVec.ofNat 32 (fieldOf (dw 6) 0 32), op := 8, status := 0, conn := 0, bytes := len, retx := 0 }).1).complete d q 56 1 1) ∧
        (∀ i < len, u.byteAt dk (dst + i) = w.byteAt sk (src + i)) ∧
        ∀ k a, (a < dst ∨ dst + len ≤ a) → u.byteAt k a = w.byteAt k a)

namespace Sys2Proof.Cert

/-- The instruction by which the launch engine of a die takes a context descriptor of an OP (R365). -/
def ctxInstr (i : Instr) (d : BitVec 3) (op : Nat) : Prop :=
  (op = 1 ∧ i = .create d) ∨ (op = 2 ∧ i = .contextLoad d) ∨ (op = 3 ∧ i = .contextPreempt d) ∨ (op = 4 ∧ ∃ e, i = .contextResume d e) ∨
    (op = 5 ∧ i = .terminate d) ∨ (op = 6 ∧ i = .setbudget d)

/-- Two states that differ in the dies alone, and there in the budget of a context on the dies of a mask, which a function has changed (R372). -/
def budgetsChanged (w u : State) (n : BitVec 9) (dies : BitVec 8) (f : Budget → Budget) : Prop :=
  { u with dies := w.dies } = w ∧ ∀ x : BitVec 3, u.die x = if dies.getLsbD x.toNat then (w.die x).modBudget n f else w.die x

end Sys2Proof.Cert

/-- The context descriptors (R363 to R366, R372, R373, R381, R419, R443). One that breaks the table of R365, or that names a die whose launch
engine is not ready, completes with STATUS 2; while a command of its context is in progress another waits, but for TERMINATE, which abandons it with STATUS 5. CREATE makes a FREED context CREATED with a new
named; SETBUDGET gives a live one its next quotas there; PREEMPT makes a RUNNING one, or one whose cuts stand at a save-area fault, PREEMPTING
and cuts each of its regions on the dies named, and where there is none it completes with STATUS 1; RESUME waits while a
dispatch decision is in progress there, and restores the saved regions there that open and fit, each ACTIVE at its rectangle, or none of them, behind
what the ECC of a line that it reads shows (R403); TERMINATE frees the context with its regions, slots, queues, budgets, connections and registrations. In another state the STATUS is 2.
What log entries 62, 83, 84, 85, 86, 87, 88, 107 and 112 name are the model's choices. -/
def Obligations.ContextDescriptors : Prop :=
  ∀ (s : State) (d : BitVec 3) (q : QDesc) (dw : Nat → Word64), descAt s d 0 q dw →
    let n := BitVec.ofNat 9 (fieldOf (dw 0) 8 9)
    let op := fieldOf (dw 0) 0 8
    let dies := BitVec.ofNat 8 (fieldOf (dw 0) 24 8)
    let c := s.ctx n
    let w := without s d 0
    let fl := BitVec.ofNat 32 (fieldOf (dw 3) 0 32)
    let fi := BitVec.ofNat 32 (fieldOf (dw 3) 32 32)
    let named (x : BitVec 3) : Prop := dies.getLsbD x.toNat = true
    let here (r : Region) : Prop := r.launch.ctx = n ∧ r.placed = true ∧ named r.die
    let ready := ∀ x, named x → (s.die x).ready.getLsbD 215 = true
    (∀ i, ctxInstr i d op → ctxDescOk dw = false ∨ ¬ ready →
      exec i s = .next ((if op = 4 then w.pendContext n else w).complete d q 32 1 2)) ∧
    (ctxDescOk dw = true → ready → c.cmd.isSome = true →
      (∀ i, ctxInstr i d op → op ≠ 5 → exec i s = .next (w.setCtx n { c with waiting := c.waiting ++ [(d, q)] })) ∧
      (op = 5 → c.state ≠ .freed → c.state ≠ .terminating →
        exec (.terminate d) s = .next (((w.finishCmd d n 5).terminate d n).complete d q 32 1 1))) ∧
    (ctxDescOk dw = true → ready → c.cmd = none →
      (op = 1 → (∀ h, s.freeSlot = some h → c.state = .freed →
          exec (.create d) s = .next ((({ w with
            fresh := s.fresh + 2
            slots := s.slots ++ [{ handle := h, ctx := some n, kind := 4, key := .made (s.fresh + 1), pub := [] }] } : State).moveCtx d n
              (fun _ => { Ctx.reset with state := .created, pair := s.fresh })).complete d q 32 1 1)) ∧
        (s.freeSlot = none ∨ c.state ≠ .freed → exec (.create d) s = .next (w.complete d q 32 1 2))) ∧
      (op = 2 → let req := (dw 0).getLsbD 32
        let h := BitVec.ofNat 9 (fieldOf (dw 0) 33 9)
        (c.state = .created → (req = true → (s.lmsSlot n h).isSome = true) →
          ∃ u, exec (.contextLoad d) s = .next ((u.moveCtx d n (fun _ => { c with
              state := .loaded, ptroot := dw 1, reqsig := req, imgkeyh := h })).complete d q 32 1 1) ∧
            budgetsChanged w u n dies (fun b => { b with
              qfl := fl, qfi := fi, next := none, fl := fl.toNat, fi := fi.toNat })) ∧
        (c.state ≠ .created ∨ (req = true ∧ s.lmsSlot n h = none) → exec (.contextLoad d) s = .next (w.complete d q 32 1 2))) ∧
      (op = 6 → (c.state ≠ .freed → c.state ≠ .terminating → ∃ u, exec (.setbudget d) s = .next (u.complete d q 32 1 1) ∧
          budgetsChanged w u n dies (fun b => { b with next := some (fl, fi) })) ∧
        (c.state = .freed ∨ c.state = .terminating → exec (.setbudget d) s = .next (w.complete d q 32 1 2))) ∧
      (op = 3 → let again := ∃ r ∈ s.regions, r.launch.ctx = n ∧ r.cut = .saveFault
        let v := w.moveCtx d n (fun c => { c with
          state := .preempting, cmd := some { op := 3, desc := q.desc, dies := dies, base := dw 2, ticket := q.ticket } })
        (c.state = .running ∨ (c.state = .preempting ∧ again) →
          exec (.contextPreempt d) s = .next (((s.regions.filter (fun r => r.launch.ctx = n ∧ r.placed = true ∧ named r.die)).foldl
            State.cutByCommand v).settlePreempt d n) ∧
          ((∃ r ∈ s.regions, here r) → (∀ r ∈ s.regions, s.region r.serial = some r ∧ (here r → r.cut = .none → noPortMute s r)) →
            ∃ t, exec (.contextPreempt d) s = .next t ∧ t.mem = w.mem ∧ (t.ctx n).state = .preempting ∧
              (t.ctx n).cmd.map CtxCmd.base = some (dw 2) ∧ ∀ r ∈ s.regions, here r → regionIs t r.serial (fun y => y.cut = .cutting true) ∧
                (r.cut = .none → r.kstate ≠ .loading → r.muting = false → (t.seq r.lead).run ≠ .running)) ∧
          ((∀ r ∈ s.regions, ¬ here r) → exec (.contextPreempt d) s =
            .next (((v.setCtx n { v.ctx n with saveBase := some (dw 2) }).finishCmd d n 1).afterCuts d n))) ∧
        (c.state ≠ .running → (c.state ≠ .preempting ∨ ¬ again) → exec (.contextPreempt d) s = .next (w.complete d q 32 1 2))) ∧
      (op = 4 → ∀ ecc : Option (Nat × ScrubResult),
        let mine := s.regions.filter (fun r => r.launch.ctx = n ∧ r.kstate = .saved ∧ named r.die)
        let y := w.eccFound ecc
        let v := y.moveCtx d n (fun c => if mine.isEmpty then c else { c with state := .resuming })
        let deciding := ∃ x, named x ∧ (s.die x).dec.isSome = true
        (c.state ≠ .saved → exec (.contextResume d ecc) s = .next ((w.pendContext n).complete d q 32 1 2)) ∧
        (c.state = .saved → deciding ∨ (∃ r ∈ mine, w.areaUp r (dw 2) = false) → exec (.contextResume d ecc) s = .next s) ∧
        (c.state = .saved → ¬ deciding → (∀ r ∈ mine, w.areaUp r (dw 2) = true) →
          (∀ k, (mine.map (fun r => y.imageStatus r (dw 2))).find? (fun k => k != 1) = some k →
            exec (.contextResume d ecc) s = .next ((y.pendContext n).complete d q 32 1 k)) ∧
          ((∀ r ∈ mine, y.imageStatus r (dw 2) = 1) →
            (State.restoreAll mine v = none → exec (.contextResume d ecc) s = .next ((y.pendContext n).complete d q 32 1 6)) ∧
            (∀ u, State.restoreAll mine v = some u →
              exec (.contextResume d ecc) s = .next (((u.moveCtx d n (fun c => { c with
                saveBase := some (dw 2), state := if c.state = .resuming then .running else c.state })).pendContext n).complete d q 32 1 1) ∧
              ∀ (r : Region) (p : Partition) (z : Rect), mine = [r] → (v.die r.die).parts.find? (fun p => p.num = r.launch.part) = some p →
                v.findSaved (v.freeBlocks r.die p) r = some z →
                regionIs u r.serial (fun y => y.kstate = .active ∧ y.x = BitVec.ofNat 4 z.x ∧ y.y = BitVec.ofNat 4 z.y))))) ∧
      (op = 5 → (c.state ≠ .freed → c.state ≠ .terminating → let u := w.terminate d n
          exec (.terminate d) s = .next (u.complete d q 32 1 1) ∧ u.ctx n = Ctx.reset ∧ (∀ r ∈ u.regions, r.launch.ctx ≠ n) ∧
          (∀ k ∈ u.slots, k.ctx ≠ some n) ∧ (∀ y ∈ u.softqs, y.ctx ≠ n) ∧
          ∀ x : BitVec 3, (∀ b ∈ (u.die x).budgets, b.ctx ≠ n) ∧ (∀ k ∈ (u.die x).conns, k.ctx ≠ n) ∧ ∀ g ∈ (u.die x).regs, g.ctx ≠ n) ∧
        (c.state = .freed ∨ c.state = .terminating → exec (.terminate d) s = .next (w.complete d q 32 1 2))))

/-- The partition descriptors (R413, R414, R422). FORM adds a partition of blocks that are neither fused off nor in another; DISSOLVE and
the removal of ASSIGN wait for nothing: they are refused with STATUS 4 while a region or a queued launch is there; POLICY checks the program
and puts it into the shadow slot, or leaves the slot empty with STATUS 3.
What log entries 89 and 90 name are the model's choices. -/
def Obligations.PartitionDescriptors : Prop :=
  ∀ (s : State) (d : BitVec 3) (q : QDesc) (dw : Nat → Word64), descAt s d 1 q dw → partDesc d q dw →
    (fieldOf (dw 0) 0 8 = 1 → s.physUp d (dw 1).toNat 32 = true) →
    (fieldOf (dw 0) 0 8 = 4 → fieldOf (dw 2) 25 9 ≠ 0 → s.physUp d (dw 1).toNat (2 * fieldOf (dw 2) 25 9) = true) →
    let n := BitVec.ofNat 4 (fieldOf (dw 0) 8 4)
    let op := fieldOf (dw 0) 0 8
    let ctx := BitVec.ofNat 9 (fieldOf (dw 2) 0 9)
    let w := without s d 1
    let mod (f : Partition → Partition) : State :=
      w.setDie d { w.die d with parts := (w.die d).parts.map (fun p => if p.num = n then f p else p) }
    let busy (p : BitVec 9 → Prop) : Prop := (∃ r ∈ s.regions, r.die = d ∧ r.launch.part = n ∧ p r.launch.ctx) ∨
      ∃ k ∈ (s.die d).launchq, p k.1 ∧ ∃ l ∈ k.2, l.part = n
    (op = 1 → ∀ bs, w.osRead (dw 1).toNat 32 = some bs →
      let mask := BitVec.ofNat 256 (bytesToNat bs)
      ((∀ p ∈ (s.die d).parts, p.num ≠ n ∧ p.mask &&& mask = 0) → mask &&& (s.die d).fuse = 0 →
        exec (.form d) s = .next ((w.setDie d { w.die d with parts := (w.die d).parts ++ [
          { num := n, mask := mask, ctxs := [], policy := none, shadow := none, pendD := false, pendP := false, pendF := [], dnum := 0,
            fbcount := 0 }] }).complete d q 56 1 1)) ∧
      ((∃ p ∈ (s.die d).parts, p.num = n ∨ p.mask &&& mask ≠ 0) ∨ mask &&& (s.die d).fuse ≠ 0 →
        exec (.form d) s = .next (w.complete d q 56 1 2))) ∧
    (op ≠ 1 → (∀ p ∈ (s.die d).parts, p.num ≠ n) →
      (op = 2 → exec (.dissolve d) s = .next (w.complete d q 56 1 2)) ∧ (op = 3 → exec (.assign d) s = .next (w.complete d q 56 1 2)) ∧
      (op = 4 → exec (.policy d) s = .next (w.complete d q 56 1 2))) ∧
    ((∃ p ∈ (s.die d).parts, p.num = n) →
      (op = 2 → (busy (fun _ => True) → exec (.dissolve d) s = .next (w.complete d q 56 1 4)) ∧
        (¬ busy (fun _ => True) → exec (.dissolve d) s = .next ((w.setDie d { w.die d with
          parts := (w.die d).parts.filter (fun p => p.num ≠ n) }).complete d q 56 1 1))) ∧
      (op = 3 → (s.ctx ctx).state ≠ .freed → (s.ctx ctx).state ≠ .terminating →
        ((dw 2).getLsbD 16 = false → exec (.assign d) s = .next ((mod (fun p => { p with
          ctxs := if ctx ∈ p.ctxs then p.ctxs else p.ctxs ++ [ctx], pendD := true })).complete d q 56 1 1)) ∧
        ((dw 2).getLsbD 16 = true → busy (fun c => c = ctx) → exec (.assign d) s = .next (w.complete d q 56 1 4)) ∧
        ((dw 2).getLsbD 16 = true → ¬ busy (fun c => c = ctx) → exec (.assign d) s = .next ((mod (fun p => { p with
          ctxs := p.ctxs.filter (fun c => c ≠ ctx), pendD := true })).complete d q 56 1 1))) ∧
      (op = 4 → let len := fieldOf (dw 2) 25 9
        ((len = 0 ∨ 256 < len ∨ (dw 1).toNat % 2 = 1) → exec (.policy d) s = .next (w.complete d q 56 1 2)) ∧
        (0 < len → len ≤ 256 → (dw 1).toNat % 2 = 0 → ∀ bs, w.osRead (dw 1).toNat (2 * len) = some bs →
          let ws := (List.range len).map (fun i => BitVec.ofNat 16 (bytesToNat ((bs.drop (2 * i)).take 2)))
          (policyOk ws = true → exec (.policy d) s = .next ((mod (fun p => { p with shadow := some ws })).complete d q 56 1 1)) ∧
          (policyOk ws = false → exec (.policy d) s = .next ((mod (fun p => { p with shadow := none })).complete d q 56 1 3)))))


/-! ### Transport -/

namespace Sys2Proof.Cert

/-- A die of a state changed. -/
def dieWith (s : State) (d : BitVec 3) (x : Die) : State := s.setDie d x

/-- The message that a WRITE, READ or SEND descriptor asks for (R354). -/
def msgOf (c : Conn) (q : QDesc) (dw : Nat → Word64) : Msg :=
  { conn := c.num, op := BitVec.ofNat 8 (fieldOf (dw 0) 0 8), user := BitVec.ofNat 32 (fieldOf (dw 0) 32 32), bar := (dw 0).getLsbD 8,
    lva := dw 1, roff := dw 2, rh := BitVec.ofNat 32 (fieldOf (dw 3) 0 32), len := BitVec.ofNat 32 (fieldOf (dw 3) 32 32),
    baraddr := dw 4, notify := (dw 0).getLsbD 9, ticket := q.ticket }

/-- The connections of a list with the changed fields of one of them. -/
def connsWith (x : Die) (n : BitVec 12) (f : Conn → Conn) : Die :=
  { x with conns := x.conns.map (fun c => if c.num = n then f c else c) }

/-- The code of a connection's state in its status block (R360). -/
def connCode : ConnState → Nat
  | .idle => 0
  | .opening => 1
  | .established => 2
  | .closing => 3
  | .error => 4

/-- RETX as an update of the status block begins: packets sent again are added, and it saturates (R360). -/
def retxOf (c : Conn) (m : LinkMeasure) : Nat := min (c.retx.toNat + m.resent.toNat) (2 ^ 32 - 1)

/-- The writes that update a connection's status block, by double-word (R360): the first with an odd GEN, the counts, the first with the next
even GEN. -/
def statusBlock (c : Conn) (m : LinkMeasure) : List (Nat × Word64) :=
  let gen (n : Nat) : Nat × Word64 := (0, BitVec.ofNat 64 ((c.gen.toNat + n) % 2 ^ 32 + connCode c.state * 2 ^ 32))
  [gen 1, (1, m.cwnd), (2, m.infl), (3, BitVec.ofNat 64 (m.ecnf.toNat + retxOf c m * 2 ^ 32)),
    (4, BitVec.ofNat 64 (m.rtt.toNat + c.tmo.toNat * 2 ^ 32)), (5, BitVec.ofNat 64 c.ovwr.toNat), (6, 0), (7, 0), gen 2]

end Sys2Proof.Cert

/-- The transport descriptors (R354 to R356, R358). CONN of a connection that is not open, with an entry of the peer table and a key where TSS
asks for one, is OPENING; CLOSE leaves a connection CLOSING while a message or a PEER request is outstanding, else IDLE, and ends those of a connection that never was
ESTABLISHED; WRITE, READ and SEND become outstanding on a
connection that is OPENING or ESTABLISHED and whose local range can be accessed, and end with STATUS 5, 2 or 4 elsewhere; REG and DEREG
add and remove a registration; a malformed descriptor is refused; and a submit ring's descriptor is taken while TAIL is not HEAD, and
HEAD moves on.
What log entries 95, 97, 98, 102 and 139 name are the model's choices. -/
def Obligations.TransportDescriptors : Prop :=
  (∀ (s : State) (d : BitVec 3) (q : QDesc) (dw : Nat → Word64), descAt s d 3 q dw → (s.settleDie d).trUp d dw = true →
    let w := without s d 3
    let x := w.die d
    let n := BitVec.ofNat 12 (fieldOf (dw 0) 10 12)
    let ctx := BitVec.ofNat 9 (fieldOf (dw 0) 22 9)
    let op := fieldOf (dw 0) 0 8
    let h := BitVec.ofNat 32 (fieldOf (dw 3) 0 32)
    let by_ (i : Instr) (k : Nat) (t : State) : Prop := op = k → exec i s = .next t
    let done (y : Die) : State := (w.setDie d y).ticketDone q.ticket
    ((transportDescOk dw = false ∨ (s.ctx ctx).state = .freed ∨ (s.ctx ctx).state = .terminating) →
      let t := w.refuseTr d q dw none
      by_ (.conn d) 1 t ∧ by_ (.close d) 2 t ∧ by_ (.transportWrite d) 3 t ∧ by_ (.transportRead d) 4 t ∧
        by_ (.transportSend d) 5 t ∧ by_ (.reg d) 6 t ∧ by_ (.dereg d) 7 t) ∧
    (transportDescOk dw = true → (s.ctx ctx).state ≠ .freed → (s.ctx ctx).state ≠ .terminating →
      (op = 1 → (∀ c, x.conn n = some c → c.state = .idle) → ∀ e, w.peerEntry d (dw 6) = some e →
        let keyh := BitVec.ofNat 9 (fieldOf (dw 7) 3 9)
        ((dw 7).getLsbD 2 = true → ∃ k ∈ s.slots, k.handle = keyh ∧ k.ctx = some ctx ∧ k.kind = 2) →
        ∃ t c, exec (.conn d) s = .next t ∧ t.mem = w.mem ∧ (t.die d).conn n = some c ∧ c.state = .opening ∧ c.ctx = ctx ∧
          c.rudi = (dw 7).getLsbD 0 ∧ c.tss = (dw 7).getLsbD 2 ∧ c.keyh = keyh ∧ c.cring = dw 5 ∧ c.statblk = e.getD 4 0 ∧ c.subHead = 0) ∧
      (op = 2 → ∀ c, x.conn n = some c → c.ctx = ctx → c.state ≠ .idle →
        let outstanding := (∃ m ∈ x.msgs, m.conn = n) ∨ w.peerReqs d n ≠ []
        (c.state ≠ .opening → ∃ t c', exec (.close d) s = .next t ∧ t.mem = w.mem ∧ (t.die d).conn n = some c' ∧
          (outstanding → c'.state = .closing) ∧ (¬ outstanding → c'.state = .idle)) ∧
        (c.state = .opening → ∃ t c', exec (.close d) s = .next t ∧ (t.die d).conn n = some c' ∧ c'.state = .idle ∧
          (∀ m ∈ (t.die d).msgs, m.conn ≠ n) ∧ t.peerReqs d n = [])) ∧
      (∀ c, x.conn n = some c → c.ctx = ctx → ∀ i : Instr,
        (op = 3 ∧ i = .transportWrite d) ∨ (op = 4 ∧ i = .transportRead d) ∨ (op = 5 ∧ i = .transportSend d) →
        let m := msgOf c q dw
        let faults := w.rangeFault d ctx (if op = 4 then .w else .r) (dw 1).toNat m.len.toNat = true ∨
          (op ≠ 4 ∧ w.rangePoison d ctx (dw 1).toNat m.len.toNat = true)
        (c.state = .idle ∨ c.state = .closing → exec i s = .next (w.endMsg d c m 5 0 0)) ∧
        (c.state = .error → exec i s = .next (w.endMsg d c m 2 0 0)) ∧
        (c.state = .opening ∨ c.state = .established →
          (faults → exec i s = .next (w.endMsg d c m 4 0 0)) ∧
          (¬ faults → exec i s = .next (w.setDie d { x with msgs := x.msgs ++ [m] })))) ∧
      (op = 6 → (∀ g ∈ x.regs, g.handle ≠ h) → exec (.reg d) s = .next (done { x with regs := x.regs ++ [
        { handle := h, ctx := ctx, base := dw 1, len := BitVec.ofNat 32 (fieldOf (dw 3) 32 32), bar := dw 4, cring := dw 5 }] })) ∧
      (op = 7 → (∃ g ∈ x.regs, g.handle = h ∧ g.ctx = ctx) → exec (.dereg d) s = .next (done { x with
        regs := x.regs.filter (fun g => ¬ (g.handle = h ∧ g.ctx = ctx)) })))) ∧
  ∀ (s : State) (d : BitVec 3) (n : BitVec 12) (c : Conn) (x : Xlated), (s.die d).conn n = some c → c.state ≠ .idle →
    let s0 := s.settleDie d
    s0.rangeUp d c.ctx c.subring.toNat (64 + 64 * 2 ^ c.subk) = true → (s0.xlateEngine d c.ctx .r c.subring).1 = .ok x →
    let tail := BitVec.ofNat 32 (s0.numAt x.key x.pa 8)
    (tail = c.subHead → exec (.submitRingNotify d n) s = .next s) ∧
    (tail ≠ c.subHead → s0.trUp d (s0.descDword d (.virt c.ctx (c.subring + BitVec.ofNat 64 (64 + 64 * (c.subHead.toNat % 2 ^ c.subk))))) = true →
      ∃ t, exec (.submitRingNotify d n) s = .next t ∧ ∃ c', (t.die d).conn n = some c' ∧ c'.subHead = c.subHead + 1)

/-- What the peers and the wire do (R353, R356, R357, R359 to R361): an answer opens a connection; an acknowledged, refused or placed message
completes at its sender with its STATUS, byte count and retransmissions; the 17th failure in a row puts the connection into ERROR; a
status block is written double-word by double-word between an odd and the next even GEN; a packet inside its registration is placed once under RUD,
and the message completes at its target with its last byte; pause frames and frames that the port does not
take are counted and dropped; and a completion record holds what R359 says.
What log entries 96, 97, 99, 100 and 101 name are the model's choices. -/
def Obligations.TransportEvents : Prop :=
  (∀ (s : State) (d : BitVec 3) (n : BitVec 12), exec (.connectionAnswer d n) s = .next (s.setDie d (connsWith (s.die d) n (fun c =>
    { c with state := if c.state = .opening ∧ s.connUp d c = true then .established else c.state })))) ∧
  (∀ (s : State) (d : BitVec 3) (k : Nat) (e : MessageEnd) (m : Msg) (c : Conn), (s.die d).msgs[k]? = some m →
    (s.die d).conn m.conn = some c → c.state = .established ∨ c.state = .closing → s.connUp d c = true → e.bytes.toNat ≤ m.len.toNat →
    s.rangeUp d c.ctx m.lva.toNat m.len.toNat = true →
    let w := s.setDie d { s.die d with msgs := (s.die d).msgs.eraseIdx k }
    let r := exec (.messageCompletion d k e) s
    (e.refused = true → r = .next (w.endMsg d c m 1 e.bytes.toNat e.retx)) ∧
    (e.refused = false → m.op ≠ 4 → r = .next (w.endMsg d c m 0 m.len.toNat e.retx)) ∧
    (e.refused = false → m.op = 4 → e.data.length = m.len.toNat →
      (s.rangeFault d c.ctx .w m.lva.toNat m.len.toNat = true → r = .next (w.endMsg d c m 4 0 e.retx)) ∧
      (s.rangeFault d c.ctx .w m.lva.toNat m.len.toNat = false →
        r = .next ((w.engineWrite d c.ctx m.lva.toNat e.data (m.len.toNat + 1)).endMsg d c m 0 m.len.toNat e.retx)))) ∧
  (∀ (s : State) (d : BitVec 3) (n : BitVec 12) (k : Nat) (c : Conn), (s.die d).conn n = some c → c.state ≠ .idle → c.state ≠ .error →
    let more (v : Word32) : Word32 := if v.toNat = 2 ^ 32 - 1 then v else v + 1
    let f := (aget c.fails k).getD 0
    (f < 16 → exec (.retransmissionTimeout d n k) s = .next (s.setDie d (connsWith (s.die d) n (fun c =>
      { c with fails := aset c.fails k (f + 1), tmo := more c.tmo, retx := more c.retx })))) ∧
    (16 ≤ f → ∃ t c', exec (.retransmissionTimeout d n k) s = .next t ∧
      (t.die d).conn n = some c' ∧ c'.state = .error ∧ c'.tmo = more c.tmo ∧ ∀ m ∈ (t.die d).msgs, m.conn ≠ n)) ∧
  (∀ (s s1 : State) (d : BitVec 3) (n : BitVec 12) (m : LinkMeasure) (c : Conn) (x : Xlated) (i : Nat) (v : Word64) (rest : List (Nat × Word64)),
    (s.die d).conn n = some c → (c.update = [] → c.state ≠ .idle) → (if c.update = [] then statusBlock c m else c.update) = (i, v) :: rest →
    c.statblk.toNat % 64 = 0 → i < 8 → MemOk s → x.pa + 8 ≤ 2 ^ 40 →
    (s.setDie d (connsWith (s.die d) n (fun k => { k with
      update := rest, retx := if c.update = [] then BitVec.ofNat 32 (retxOf c m) else c.retx
      gen := if i = 0 then v.setWidth 32 else k.gen }))).xlateEngine d c.ctx .w (c.statblk + BitVec.ofNat 64 (8 * i)) = (.ok x, s1) →
    ∃ t c', exec (.statusBlockUpdate d n m) s = .next t ∧ t.numAt x.key x.pa 8 = v.toNat ∧ (∀ a, (a < x.pa ∨ x.pa + 8 ≤ a) →
      t.byteAt x.key a = s1.byteAt x.key a) ∧ (t.die d).conn n = some c' ∧ c'.update = rest) ∧
  (∀ (s : State) (d : BitVec 3) (n : BitVec 12) (m : LinkMeasure) (c : Conn), (s.die d).conn n = some c → c.state = .idle → c.update = [] →
    exec (.statusBlockUpdate d n m) s = .next s) ∧
  (∀ (s : State) (d : BitVec 3) (p : WritePacket) (c : Conn) (g : Registration), (s.die d).conn p.conn = some c →
    (s.die d).regs.find? (fun g => g.handle = p.handle) = some g → c.state = .established ∨ c.state = .closing → s.connUp d c = true →
    let off := p.roff.toNat + p.offset.toNat
    let va := g.base.toNat + off
    let n := p.data.length
    let seen := ∃ b, (p.msg, p.idx, b) ∈ c.seen
    (g.len.toNat < off + n → ¬ seen → exec (.transportWritePacket d p) s = .next s) ∧
    (seen → c.rudi = false → exec (.transportWritePacket d p) s = .next s) ∧
    (off + n ≤ g.len.toNat → ¬ seen → s.rangeUp d g.ctx va n = true → s.rangeFault d g.ctx .w va n = false →
      let s1 := s.engineWrite d g.ctx va p.data (n + 1)
      let s2 := s1.setDie d (connsWith (s1.die d) c.num (fun k => { k with seen := (p.msg, p.idx, n) :: c.seen }))
      let total := n + ((c.seen.filter (fun q => q.1 == p.msg)).map (fun q => q.2.2)).sum
      exec (.transportWritePacket d p) s = .next (if p.notify = true ∧ total = p.len then s2.targetDone d c g 3 total else s2))) ∧
  (∀ (s s2 s3 : State) (d : BitVec 3) (p : SendPacket) (c : Conn) (g : Registration) (va : Word64) (x : Xlated) (o : Outcome3) (ev : Option Nat),
    (s.die d).conn p.conn = some c → (s.die d).regs.find? (fun g => g.handle = p.handle) = some g →
    c.state = .established ∨ c.state = .closing → s.connUp d c = true → (∀ b, (p.msg, 0, b) ∉ c.seen) → s.channelOf d g.ctx p.chan = some va →
    let n := p.data.length
    (n < 8 ∨ 128 < n ∨ n % 8 ≠ 0 → exec (.transportSendPacket d p) s = .next s) ∧
    (8 ≤ n → n ≤ 128 → n % 8 = 0 → p.notify = false → s.rangeUp d g.ctx va.toNat 64 = true → s.xlateEngine d g.ctx .rw va = (.ok x, s2) →
      s2.softOffer d g.ctx va x (unitOf (sendTag (BitVec.ofNat 28 p.msg))
        ((List.range (n / 8)).map (fun i => BitVec.ofNat 64 (dwAt p.data (8 * i))))) = (.done o ev, s3) →
      exec (.transportSendPacket d p) s = .next (s3.setDie d (connsWith (s3.die d) c.num (fun k =>
        { k with seen := (p.msg, 0, n) :: k.seen }))))) ∧
  (∀ (s : State) (d : BitVec 3) (port : Bool) (f : EthFrame),
    let x := s.die d
    let up := (x.eth[if port then 1 else 0]'(by split <;> decide)).state = .up
    (¬ up → exec (.ethernetFrameReceive d port f) s = .next s) ∧
    (up → f.pause = true → exec (.ethernetFrameReceive d port f) s = .next (s.setDie d { x with pauses := x.pauses + 1 })) ∧
    (up → f.pause = false → f.uses ≠ [] ∨ 9216 < f.bytes →
      exec (.ethernetFrameReceive d port f) s = .next (s.setDie d { x with dropped := x.dropped + 1 }))) ∧
  ∀ (s s2 : State) (d : BitVec 3) (ctx : BitVec 9) (ring : Word64) (r : Record) (x : Xlated), ring ≠ 0 → MemOk s → x.pa + 32 ≤ 2 ^ 40 →
    let k := (aget s.cseqs (ctx, ring)).getD 0
    let size := 128 * 2 ^ fieldOf ring 8 4
    let base := BitVec.ofNat 64 (ring.toNat / 4096 * 4096)
    ({ s with cseqs := aset s.cseqs (ctx, ring) (k + 1) } : State).xlateEngine d ctx .w (base + BitVec.ofNat 64 (32 * (k % size))) = (.ok x, s2) →
    let t := (s.putRecord d ctx ring r).1
    t.numAt x.key x.pa 8 = (r.user.toNat + r.op * 2 ^ 32 + r.status * 2 ^ 40 + r.conn.toNat * 2 ^ 48) % 2 ^ 64 ∧
      t.numAt x.key (x.pa + 8) 8 = r.bytes % 2 ^ 64 ∧ t.numAt x.key (x.pa + 16) 8 = (k + 1) % 2 ^ 64 ∧
      t.numAt x.key (x.pa + 24) 8 = r.retx.toNat ∧ aget t.cseqs (ctx, ring) = some (k + 1)

/-! ### Management, security and the module -/

/-- The management descriptors (R355, R372, R393, R396, R397, R401, R402, R406, R437, R441). RECOVER applies an action that the fault allows to a
FROZEN region (RERUN and RESUME make it ACTIVE, DELIVER lets its lead sequencer take RegionFault, END frees it), and gives STATUS 2, 3 or 4 elsewhere;
LINK moves a link into TRAINING or DOWN; WATCH, REMOTE and LATEEN set a region's register in its range; QUOTA, PEERTAB and HOSTRING set theirs;
RESET 1 is a warm reset. A command but RESET that names a die whose management is not ready is refused (R443).
What log entries 22, 58, 66, 69, 104 and 116 name are the model's choices. -/
def Obligations.ManagementDescriptors : Prop :=
  ∀ (s : State) (d : BitVec 3) (q : QDesc) (dw : Nat → Word64), descAt s d 5 q dw →
    let w := without s d 5
    let x := BitVec.ofNat 3 (fieldOf (dw 0) 8 3)
    let op := fieldOf (dw 0) 0 8
    let t := fieldOf (dw 0) 16 48
    let v := (dw 1).toNat
    let done (st : Nat) (u : State) : Result := .next (u.complete d q 56 1 st)
    let mine (i : Instr) : Prop := (op = 1 ∧ ((v = 1 ∧ i = .recoverRerun d) ∨ (v = 2 ∧ i = .recoverResume d) ∨ (v = 3 ∧ i = .recoverDeliver d) ∨
        (v = 4 ∧ i = .recoverEnd d))) ∨ (op = 2 ∧ ((v % 2 = 1 ∧ i = .linkEnable d) ∨ (v % 2 = 0 ∧ i = .linkDisable d))) ∨ (op = 3 ∧ i = .watch d) ∨
      (op = 4 ∧ i = .remote d) ∨ (op = 5 ∧ i = .quota d) ∨ (op = 6 ∧ i = .lateen d) ∨ (op = 8 ∧ i = .peertab d) ∨
      (op = 9 ∧ ((v ≠ 0 ∧ i = .hostringOpen d) ∨ (v = 0 ∧ i = .hostringClose d)))
    ((w.die x).ready.getLsbD 219 = false → ∀ i, mine i → exec i s = done 2 w) ∧
    (op = 7 → (v = 1 → exec (.mgmtReset d) s = .next (w.complete d q 56 1 1).warmReset) ∧ (v ≠ 1 → exec (.mgmtReset d) s = done 2 w)) ∧
    ((w.die x).ready.getLsbD 219 = true →
    (∀ i : Instr, op = 1 → (v = 1 ∧ i = .recoverRerun d) ∨ (v = 2 ∧ i = .recoverResume d) ∨ (v = 3 ∧ i = .recoverDeliver d) ∨
        (v = 4 ∧ i = .recoverEnd d) →
      ((∀ r, w.mgRegion dw = some r → r.kstate ≠ .frozen) → exec i s = done 2 w) ∧
      ∀ r, w.mgRegion dw = some r → r.kstate = .frozen →
        ((s.seq r.lead).run = .handler ∨ (v = 3 ∧ r.delivered = true) → exec i s = done 4 w) ∧
        ((s.seq r.lead).run ≠ .handler → ¬ (v = 3 ∧ r.delivered = true) → v ∉ w.allowed r → exec i s = done 3 w)) ∧
    (∀ r, op = 1 → w.mgRegion dw = some r → r.kstate = .frozen → (s.seq r.lead).run ≠ .handler → v ∈ w.allowed r →
      let e := w.recoverEvent r v
      let flows (u : State) : Prop := r.retunes = [] → r.cfg.state ≠ .flipping → regionIs u r.serial (fun y =>
        y.kstate = .active ∧ y.freezing = false ∧ y.summary = none)
      (v = 1 → exec (.recoverRerun d) s = .next ((e.rerunRegion r).complete d q 56 1 1) ∧ flows (e.rerunRegion r)) ∧
      (v = 2 → exec (.recoverResume d) s = .next ((e.resumeRegion r.serial).complete d q 56 1 1) ∧ flows (e.resumeRegion r.serial)) ∧
      (v = 3 → r.delivered = false → let u := e.deliverFault r
        exec (.recoverDeliver d) s = .next (u.complete d q 56 1 1) ∧ (u.seq r.lead).tcause = 29 ∧ (u.seq r.lead).tval = r.summary.getD 0 ∧
          (u.seq r.lead).run = .handler ∧ (u.seq r.lead).intrap = true ∧ (u.seq r.lead).pc = (s.seq r.lead).tvec ∧
          (u.seq r.lead).tepc = (s.seq r.lead).pc ∧ regionIs u r.serial (fun y => y.delivered = true)) ∧
      (v = 4 → let u := e.endRegion r 7 (r.summary.getD 0)
        exec (.recoverEnd d) s = .next (u.complete d q 56 1 1) ∧ ∀ y ∈ u.regions, y.serial ≠ r.serial)) ∧
    (op = 2 →
      (∀ i : Instr, (v % 2 = 1 ∧ i = .linkEnable d) ∨ (v % 2 = 0 ∧ i = .linkDisable d) → linkNamed x t = none → exec i s = done 2 w) ∧
      ∀ l, linkNamed x t = some l →
        let k := (w.die x).link l
        (v % 2 = 1 → (k.state = .down → 
            let u := State.moveLink (w.setDie x ((w.die x).setLink l { k with fec := BitVec.ofNat 24 (fieldOf (dw 1) 8 24) })) x l LinkState.training
            exec (.linkEnable d) s = .next (u.complete d q 56 1 1) ∧ ((u.die x).link l).state = .training ∧
              ((u.die x).link l).fec.toNat = fieldOf (dw 1) 8 24 ∧ (u.die x).ready.getLsbD (linkBit l) = false) ∧
          (k.state ≠ .down → exec (.linkEnable d) s = done 2 w)) ∧
        (v % 2 = 0 → (k.state ≠ .down → let u := w.moveLink x l .down
            exec (.linkDisable d) s = .next (u.complete d q 56 1 1) ∧ ((u.die x).link l).state = .down ∧
              (u.die x).ready.getLsbD (linkBit l) = false) ∧
          (k.state = .down → exec (.linkDisable d) s = done 2 w))) ∧
    (∀ i : Instr, (op = 3 ∧ i = .watch d) ∨ (op = 4 ∧ i = .remote d) ∨ (op = 6 ∧ i = .lateen d) → w.mgRegion dw = none → exec i s = done 2 w) ∧
    (∀ r, w.mgRegion dw = some r →
      let set (f : Region → Region) : State := { w with regions := w.regions.map (fun y => if y.serial = r.serial then f y else y) }
      (op = 3 → (12 ≤ v → v ≤ 32 → exec (.watch d) s = .next ((set (fun y => { y with wdogLog := v })).complete d q 56 1 1)) ∧
        (v < 12 ∨ 32 < v → exec (.watch d) s = done 2 w)) ∧
      (op = 4 → (20 ≤ v → v ≤ 32 → exec (.remote d) s = .next ((set (fun y => { y with remLog := v })).complete d q 56 1 1)) ∧
        (v < 20 ∨ 32 < v → exec (.remote d) s = done 2 w)) ∧
      (op = 6 → (v ≤ 1 → exec (.lateen d) s = .next ((set (fun y => { y with lateEn := v == 1 })).complete d q 56 1 1)) ∧
        (1 < v → exec (.lateen d) s = done 2 w))) ∧
    (op = 5 → (∀ h : t < 3, v < 2 ^ 32 → exec (.quota d) s =
        .next ((w.setDie x { w.die x with quotas := (w.die x).quotas.set t (BitVec.ofNat 32 v) }).complete d q 56 1 1)) ∧
      (3 ≤ t ∨ 2 ^ 32 ≤ v → exec (.quota d) s = done 2 w)) ∧
    (op = 8 → (t < 2 ^ 16 → v % 4096 = 0 →
        exec (.peertab d) s = .next ((w.setDie x { w.die x with peerTab := some (dw 1, t + 1) }).complete d q 56 1 1)) ∧
      (2 ^ 16 ≤ t ∨ v % 4096 ≠ 0 → exec (.peertab d) s = done 2 w)) ∧
    (op = 9 → let e := BitVec.ofNat 3 (t / 8)
      let k := BitVec.ofNat 3 t
      let fits := t < 48 ∧ ¬ (e = 4 ∧ k ≠ 0)
      (v = 1 → (fits → exec (.hostringOpen d) s = .next ((w.setRing e k { w.ring e k with isOpen := true }).complete d q 56 1 1)) ∧
        (¬ fits → exec (.hostringOpen d) s = done 2 w)) ∧
      (v = 0 → (fits → exec (.hostringClose d) s = .next ((w.setRing e k { w.ring e k with isOpen := false }).complete d q 56 1 1)) ∧
        (¬ fits → exec (.hostringClose d) s = done 2 w)) ∧
      (1 < v → exec (.hostringOpen d) s = done 2 w)))

/-- The security descriptors (R367 to R369, R438, R439). ATTEST writes the report of a live context, which begins as R439 says; IMPORT puts a key
that its blob holds into the lowest free slot, bound to the context, and shows the handle; DROP clears a slot of the context, but not that of its
seal key; a context that is not live, a slot that is not the context's and a wrapped blob that does not open are refused. The bridges on the way to the
memory that the descriptor names are UP (R352).
What log entries 3, 105 and 112 name are the model's choices. -/
def Obligations.SecurityDescriptors : Prop :=
  ∀ (s : State) (q : QDesc) (dw : Nat → Word64), descAt s 0 4 q dw →
    let w := without s 0 4
    let op := fieldOf (dw 0) 0 8
    let n := BitVec.ofNat 9 (fieldOf (dw 0) 8 9)
    let h := BitVec.ofNat 9 (fieldOf (dw 4) 0 9)
    let kind := BitVec.ofNat 3 (fieldOf (dw 3) 0 3)
    let ends (i : Instr) (st : Nat) (u : State) : Prop := exec i s = .next (u.complete 0 q 56 1 st)
    let live := (s.ctx n).state ≠ .freed ∧ (s.ctx n).state ≠ .terminating
    (op = 1 → s.physUp 0 (dw 1).toNat 32 = true ∧ s.physUp 0 (dw 2).toNat 256 = true) →
    (op = 2 → s.physUp 0 (dw 1).toNat (dw 2).toNat = true) →
    (¬ live → (op = 1 → ends .attest 2 w) ∧ (op = 2 → ends .importKey 2 w) ∧ (op = 3 → ends .drop 2 w)) ∧
    (live → op = 1 → ∀ nonce, w.osRead (dw 1).toNat 32 = some nonce →
      let report := attestReport n (s.ctx n).pair nonce
      let out := (dw 2).toNat
      report.take 40 = natToBytes 4 0x41545345 ++ natToBytes 2 1 ++ natToBytes 2 n.toNat ++ nonce ∧
      report.length = 256 + Config.hssSigLen.toNat ∧
      (out % 8 = 0 → report.length ≤ fieldOf (dw 3) 0 32 → physOk out report.length = true → inMgmt out = false →
        ends .attest 1 (w.putBytes w.osKey out report)) ∧
      (out % 8 ≠ 0 ∨ fieldOf (dw 3) 0 32 < report.length → ends .attest 2 w)) ∧
    (live → op = 2 → ∀ blob slot, w.osRead (dw 1).toNat (dw 2).toNat = some blob →
      slot.toNat < 512 → (∀ k ∈ s.slots, k.handle ≠ slot) → (∀ j : BitVec 9, j.toNat < slot.toNat → ∃ k ∈ s.slots, k.handle = j) →
      let put (key pub : List Byte) : State := ({ w with
        slots := w.slots ++ [{ handle := slot, ctx := some n, kind := kind, key := .given key, pub := pub }] } : State).putDesc 0
          q.desc 32 8 (fieldOf (dw 4) 9 55 * 2 ^ 9 + slot.toNat)
      (kind = 1 ∨ kind = 2 → ∀ key, Config.unwrapKey (s.ctx n).pair blob = some key → key.length = (if kind = 1 then 64 else 32) →
        ends .importKey 1 (put key [])) ∧
      (kind = 1 ∨ kind = 2 → Config.unwrapKey (s.ctx n).pair blob = none → ends .importKey 3 w) ∧
      (kind = 3 → lmsKeyType blob ≠ 0 → ends .importKey 1 (put blob blob))) ∧
    (live → op = 3 →
      let mine (k : KeySlot) : Prop := k.handle = h ∧ k.ctx = some n ∧ k.kind ≠ 4
      ((∃ k ∈ s.slots, mine k) → ends .drop 1 { w with slots := w.slots.filter (fun k => ¬ (k.handle = h ∧ k.ctx = some n ∧ k.kind ≠ 4)) }) ∧
      ((∀ k ∈ s.slots, ¬ mine k) → ends .drop 2 w))

namespace Sys2Proof.Cert

/-- The state that a reset leaves (R406): everything as at power-on but for the fuse maps, the host's memory and, where `box` says so, the
black-box records. -/
def resetTo (s t : State) (box : Bool) : Prop :=
  t.regions = [] ∧ t.ctxs = [] ∧ t.cells = [] ∧ t.rms = [] ∧ t.pend = [] ∧ t.seqs = State.reset.seqs ∧
    t.slots.map KeySlot.handle = [0] ∧ (∀ x : BitVec 3, (t.die x).fuse = (s.die x).fuse ∧ (t.die x).ready = 0 ∧ (t.die x).parts = [] ∧
      (t.die x).tlb = [] ∧ (if box then ∀ e ∈ (s.die x).bb.take 1023, e ∈ (t.die x).bb else (t.die x).bb = [])) ∧
    ∀ a, Memory.read t.mem a = if inHost a then Memory.read s.mem a else Config.coldByte

end Sys2Proof.Cert

/-- Power, resets and the host port (R406 to R408, R440 to R442): POWER_ON and the resets leave the power-on state, with the fuse maps, and the black
box where the reset is a warm one; a TAIL write, a BAR write and the taking of an entry act on an OPEN ring; a hot reset of a self-hosted
module closes the host's port and drops its commands; HOST_LINK_UP and RESIDENT_OS_START open it again. The host reads the management block in BAR0 and the rings in BAR2, where a read behind them is
zero.
What log entries 1, 9, 108, 109 and 152 name are the model's choices: what stacked memory and the registers hold after a reset (1 and 9), and BAR0
behind the management block (152). -/
def Obligations.ResetsAndHostPort : Prop :=
  ∀ s : State,
    (s.powered = true → exec .powerOn s = .next s) ∧
    (MemOk s → (s.powered = false → ∃ t, exec .powerOn s = .next t ∧ t.powered = true ∧ resetTo s t false) ∧
      (∃ t, exec .powerOff s = .next t ∧ t.powered = false) ∧
      (∃ t, exec .warmReset s = .next t ∧ resetTo s t true ∧ (∀ x : BitVec 3, ∃ e, (t.die x).bb = (e :: (s.die x).bb).take 1024 ∧ e.typ = 7) ∧
        (s.selfHosted = false → exec .hostHotReset s = .next t))) ∧
    (s.selfHosted = true → ∃ t, exec .hostHotReset s = .next t ∧ t.hostUp = false ∧ t.rings = [] ∧ t.regions = s.regions ∧
      ∀ (x : BitVec 3) (e : Fin 6), ∀ k ∈ (t.die x).engq[e], k ∈ (s.die x).engq[e] ∧ k.fromHost = false) ∧
    (∀ off : BitVec 24, let o := off.toNat % 2 ^ 16
      (off.toNat < 2 ^ 15 → s.hostBarByte false off = some (s.mgmtByte off.toNat)) ∧
      (2 ^ 15 ≤ off.toNat → s.hostBarByte false off = none) ∧ (0x300000 ≤ off.toNat → s.hostBarByte true off = some 0) ∧
      (off.toNat < 0x300000 →
        let e := BitVec.ofNat 3 (off.toNat / 2 ^ 19)
        let d := BitVec.ofNat 3 (off.toNat / 2 ^ 16)
        let r := s.ring e d
        let byte (n i : Nat) : Option Byte := some (BitVec.ofNat 8 (n / 2 ^ (8 * i)))
        (o < 4 → s.hostBarByte true off = byte r.tail.toNat o) ∧
        (8 ≤ o → o < 12 → s.hostBarByte true off = byte r.head.toNat (o - 8)) ∧
        (o = 12 → s.hostBarByte true off = some (if s.ringOpen e d then 1 else 0)) ∧
        (64 ≤ o → s.hostBarByte true off = byte ((aget r.entries ((o - 64) / 8)).getD 0).toNat ((o - 64) % 8)) ∧
        (4 ≤ o → o < 64 → ¬ (8 ≤ o ∧ o ≤ 12) → s.hostBarByte true off = some 0))) ∧
    exec .hostLinkUp s = .next { s with hostUp := true } ∧ exec .residentOsStart s = .next { s with selfHosted := true } ∧
    ∀ (e d : BitVec 3),
      let r := s.ring e d
      (s.ringOpen e d = true → s.hostUp = true → ∀ v, exec (.hostRingTailWrite e d v) s = .next (s.setRing e d { r with tail := v })) ∧
      (s.ringOpen e d = false → (∀ v, exec (.hostRingTailWrite e d v) s = .next s) ∧ exec (.hostRingEntryTake e d) s = .next s) ∧
      (e.toNat < 6 → s.hostUp = true → ∀ (i : Nat) (v : Word32), i < 8184 →
        let old := ((aget r.entries i).getD 0).toNat
        let off := BitVec.ofNat 24 ((8 * e.toNat + d.toNat) * 0x10000 + 64 + 8 * i)
        exec (.hostBarWrite true off v) s = .next (s.setRing e d { r with
          entries := aset r.entries i (BitVec.ofNat 64 (old / 2 ^ 32 * 2 ^ 32 + v.toNat)) }) ∧
        exec (.hostBarWrite true (off + 4) v) s = .next (s.setRing e d { r with
          entries := aset r.entries i (BitVec.ofNat 64 (v.toNat * 2 ^ 32 + old % 2 ^ 32)) })) ∧
      ∀ k : Fin 6, k.val = e.toNat → s.ringOpen e d = true → r.head ≠ r.tail →
        let pa := (aget r.entries (r.head.toNat % 8184)).getD 0
        let s1 := s.setRing e d { r with head := r.head + 1 }
        (pa.toNat % 64 ≠ 0 → exec (.hostRingEntryTake e d) s = .next s1) ∧
        (pa.toNat % 64 = 0 → 64 ≤ ((s.die d).engq[k]).length → exec (.hostRingEntryTake e d) s = .next s) ∧
        (pa.toNat % 64 = 0 → ((s.die d).engq[k]).length < 64 → exec (.hostRingEntryTake e d) s = .next (s1.setDie d { s1.die d with
          engq := (s1.die d).engq.set k ((s1.die d).engq[k] ++ [⟨.phys pa, none, some d, []⟩]) }))

/-- The ready map, the watchdogs, the remote time-outs, errors in storage and the islands (R372, R401 to R405, R443 to R445). A remote request
times out where `2 ^ REMOTE` cycles of the model's clock have passed since it left: what counts as a request and what the clock counts are the
model's choices (log entries 106 and 150).
What log entries 5, 6, 23, 106, 107, 111, 113 and 150 name are the model's choices. -/
def Obligations.ModuleEvents : Prop :=
  ∀ s : State,
    (∀ (d : BitVec 3) (b : BitVec 8), (s.die d).service = true → readyBitOk (s.die d) d b.toNat = true →
      ∃ t, exec (.functionReady d b) s = .next t ∧ t.mem = s.mem ∧ (∀ x, x ≠ d → t.die x = s.die x) ∧
        ∀ i < 256, (t.die d).ready.getLsbD i = ((s.die d).ready.getLsbD i || decide (i = b.toNat))) ∧
    (∀ (n : Nat) (r : Region), s.region n = some r → r.freezing = false → r.kstate = .active ∨ r.kstate = .resident →
      (2 ^ r.wdogLog ≤ r.wdog → exec (.watchdogExpiry n) s = .next (s.raiseFault r.leadCell { FaultReg.reset with code := 0x1A })) ∧
      (r.wdog < 2 ^ r.wdogLog → exec (.watchdogExpiry n) s = .next s)) ∧
    (∀ (a : Acquirer) (limit : Nat), limit = 2 ^ ((s.regionOfAcquirer a).map Region.remLog).getD 26 →
      let old (born : Nat) : Prop := born + limit ≤ s.cyc
      let asks : Prop := ∃ x ∈ s.queries, x.who = a ∧ x.entry.src.die ≠ acquirerDie a ∧ old x.born
      (∀ c, a = .cell c →
        let slow : Prop := (∃ r ∈ s.pend, r.src = .cell c ∧ r.isRemote = true ∧ old r.born) ∨
          (∃ y ∈ (s.cell c).mp.atoms, homeDie c.die y.pa ≠ c.die ∧ old y.born) ∨ asks
        (slow → ∃ f : FaultReg, f.code = 0x1B ∧ exec (.remoteTimeout a) s = .next (s.raiseFault c f)) ∧
        (¬ slow → exec (.remoteTimeout a) s = .next s)) ∧
      ∀ k, a = .seq k →
        let waits : Prop := ∃ n b, (s.seq k).held = some (n, b) ∧ old b ∧ ((s.seq k).wait = .bridge ∨
          seqDie k ≠ 0 ∧ ((∃ x y z, (s.seq k).wait = .sigv x y z) ∨ ∃ x y, (s.seq k).wait = .keyh x y))
        let fetches : Prop := ∃ r, s.regionOfSeq k = some r ∧ ∃ f ∈ r.fetches, old f.born ∧
          ∃ x s1, s.xlateEngine r.die r.launch.ctx .r f.addr = (.ok x, s1) ∧ homeDie r.die x.pa ≠ r.die
        let slow : Prop := (∃ r ∈ s.pend, r.src = .seq k ∧ r.isRemote = true ∧ old r.born) ∨ asks ∨ waits ∨ fetches
        (slow → exec (.remoteTimeout a) s = .next (s.seqFault k 0x1B 0)) ∧ (¬ slow → exec (.remoteTimeout a) s = .next s)) ∧
    (∀ (line : Nat), line < 2 ^ 34 →
      let d := BitVec.ofNat 3 (line / 2 ^ 31)
      let x := s.die d
      let s1 := s.setDie d { x with scrubbed := x.scrubbed + 1 }
      (x.quotas[0].toNat = 2 ^ 32 - 1 ∨ x.scrubbed < x.quotas[0].toNat →
        exec (.patrolScrub line .clean) s = .next s1 ∧
        exec (.patrolScrub line .uncorrectable) s = .next (if line ∈ s.poison then s1 else { s1 with poison := line :: s.poison }) ∧
        exec (.patrolScrub line .corrected) s = .next (s1.softError d 0 (BitVec.ofNat 64 (64 * line)))) ∧
      (x.quotas[0].toNat ≠ 2 ^ 32 - 1 → x.quotas[0].toNat ≤ x.scrubbed → ∀ f, exec (.patrolScrub line f) s = .next s)) ∧
    (∀ c : CellId, exec (.cellStoreEccError (.cellStore c) true) s = .next (s.raiseFault c { FaultReg.reset with code := 0x1C }) ∧
      exec (.cellStoreEccError (.cellStore c) false) s = .next (s.softError c.die (s.ctxOfCell c) 0)) ∧
    (∀ (m : BitVec 10) (line : Nat), ∃ t, exec (.rowManagerCacheError m (.tenantDirty line)) s = .next t ∧ line ∈ t.poison ∧ t.mem = s.mem ∧
      let x := (t.rm m).csr
      x.mtval = BitVec.ofNat 64 (64 * line) ∧ (x.mcause = 5 ∨ x.mcause = 7) ∧ x.mepc.toNat = (s.rm m).pc.toNat / 2 * 2 ∧
        (t.rm m).pc.toNat = (s.rm m).csr.mtvec.toNat / 4 * 4) ∧
    (∀ m : BitVec 10, exec (.rowManagerCacheError m .cleanLine) s = .next s ∧
      exec (.rowManagerCacheError m .correctable) s = .next (s.softError (BitVec.ofNat 3 (m.toNat / 128)) 0 0)) ∧
    (∀ i : BitVec 10, i.toNat < 544 →
      (∀ off, (∀ r ∈ s.regions, r.inIsland (islandBlocks i.toNat) = false) → s.servesReady i.toNat = false →
        (aget s.islands i.toNat).getD .on = .on →
        exec (.islandLeavesOn i off) s = .next { s with islands := aset s.islands i.toNat (if off then .off else .ret) }) ∧
      (∀ off, (∃ r ∈ s.regions, r.inIsland (islandBlocks i.toNat) = true) ∨
        (∃ (d : Fin 8) (b : Nat), b < 220 ∧ (s.dies[d]).ready.getLsbD b = true ∧ (Config.islandServing d.val b).val = i.toNat) →
        exec (.islandLeavesOn i off) s = .next s) ∧
      (∃ t, exec (.islandWake i) s = .next t ∧ aget t.islands i.toNat = none ∧ ∀ j, j ≠ i.toNat → aget t.islands j = aget s.islands j)) ∧
    (∀ i : BitVec 10, islandBlocks i.toNat ≠ [] →
      (∀ b, ∃ (t : State) (e : BbEvent), exec (.frequencyStep i b) s = .next t ∧ t.mem = s.mem ∧
        aget t.freqSteps i.toNat = some ((aget s.freqSteps i.toNat).getD 0 + 1) ∧ e.typ = 9 ∧ e.summary = Config.stepCause b ∧
        ∀ d, ((islandBlocks i.toNat).head?).map Prod.fst = some d → (t.die d).bb = (e :: (s.die d).bb).take 1024) ∧
      ((∀ r ∈ s.regions, r.inIsland (islandBlocks i.toNat) = false) →
        exec (.thermalStop i) s = .next { s with islands := aset s.islands i.toNat .ret }))

/-! ### Tiles, queues, the harp, freezing, links and the scheduler -/

namespace Sys2Proof.Cert

/-- A queue of a cell put back changed. -/
def queuePut (s : State) (c : CellId) (k : BitVec 3) (q : Queue) : State :=
  s.setCell c { s.cell c with queues := (s.cell c).queues.set k.toNat q }

/-- What a policy makes of a DATA unit that arrives at a SHEDDING queue with an empty ring (R238 to R244, R246): `f` is the queue after it, the
outcome and the fault. -/
def policyActs (q : Queue) (u : Item) (f : Offered) : Prop :=
  let par (lo n : Nat) : Nat := q.qpar.toNat / 2 ^ lo % 2 ^ n
  let stored (v : Item) : QEntry := ⟨{ v with v0 := q.slotPayload true v.v0, v1 := v.v1.map (q.slotPayload true) }, true⟩
  let sat (n : Nat) : Nat := min n 0xFFFFFFFF
  let room : Bool := u.slots ≤ q.free
  let seq := u.tag.seq.toNat
  let held := ((q.entries.filter (fun e => e.item.isData)).map (fun e => e.item.slots)).sum
  let compensated : Prop := f.out = .compensated ∧ f.fault = none ∧ f.q.entries = q.entries ∧ f.q.lost = q.lost
  let kept (v : Item) (n : Nat) : Prop := f.out = .kept ∧ f.fault = none ∧ f.q.entries = q.entries ++ [stored v] ∧ f.q.comp.toNat = sat n ∧
    f.q.lost = q.lost
  -- DROPT, or a fallback DROPT for a unit that the primary policy cannot act on
  let cannot : Prop := (q.pri = 2 ∧ held < u.slots) ∨ (q.pri = 5 ∧ u.v1.isSome = true) ∨
    (q.pri = 4 ∧ u.tag.domain ≠ 0 ∧ u.tag.domain.toNat ≠ par 11 4) ∨ (q.pri = 6 ∧ descPlane u.desc ≤ par 18 3 ∧ q.free < 2) ∨
    (q.pri = 7 ∧ room = false ∧ q.ringFree < u.slots + 8)
  (q.tokens < 8 → q.pri = 1 ∨ (q.fb = 1 ∧ cannot) → f.out = .lost ∧ f.q.lost.toNat = sat (q.lost.toNat + 1) ∧
    (∃ m, f.q.entries = q.entries ++ [⟨m, false⟩] ∧ isMarker m 0 1 false 1 seq seq ∧ m.tag.nest = u.tag.nest) ∧
    f.fault = (if q.pri ≠ 1 ∧ q.trap = true then some 0x15 else none)) ∧
  -- DROPH, where the oldest entry is DATA of the slots that the unit takes, and no other slot is free
  (∀ e rest, q.pri = 2 → q.tokens < 8 → q.entries = e :: rest → e.slot = true → e.item.isData = true → e.item.slots = u.slots → q.free = 0 →
    q.depth = q.occ → f.out = .kept ∧ f.fault = none ∧ f.q.lost.toNat = sat (q.lost.toNat + 1) ∧ f.gone = 1 ∧
    ∃ m, f.q.entries = (⟨m, false⟩ :: rest) ++ [stored u] ∧ isMarker m 0 2 false 1 e.item.tag.seq.toNat e.item.tag.seq.toNat) ∧
  -- SAMPLE
  (q.pri = 3 → let n := par 0 8 + 1
    (q.sampC + 1 < n → compensated ∧ f.q.sampC = q.sampC + 1 ∧ f.q.sampPend = q.sampPend ++ [u.tag.seq]) ∧
    (n ≤ q.sampC + 1 → room = true → ∃ t : Tag, kept { u with tag := t } (q.comp.toNat + (n - 1)) ∧
      t = { u.tag with weight := BitVec.ofNat 16 (min (u.tag.weight.toNat * n) 0xFFFF), flags := t.flags } ∧
      t.flags = (if 0xFFFF < u.tag.weight.toNat * n then u.tag.flags ||| 8 else u.tag.flags) ∧ f.q.sampC = 0 ∧ f.q.sampPend = [] ∧
      f.q.epN = q.epN + q.sampPend.length) ∧
    (∀ a rest, n ≤ q.sampC + 1 → room = false → q.fb = 1 → q.tokens < 7 → q.sampPend = a :: rest → f.out = .lost ∧ f.q.sampC = 0 ∧
      f.q.sampPend = [] ∧ ∃ m x, f.q.entries = q.entries ++ [⟨m, false⟩, ⟨x, false⟩] ∧ isMarker x 0 1 false 1 seq seq ∧
      isMarker m 0 3 false (rest.length + 1) a.toNat (rest.getLastD a).toNat)) ∧
  -- KSAMPLE
  (q.pri = 4 → let d := par 11 4
    let k := (d + 1) / 2
    let keeps : Prop := kh64 u.key.toNat (par 32 32 * 2 ^ 32) / 2 ^ (64 - k) = 0
    u.tag.domain = 0 ∨ u.tag.domain.toNat = d →
    (¬ keeps → compensated ∧ f.q.comp.toNat = sat (q.comp.toNat + 1) ∧ f.q.epN = q.epN + 1) ∧
    (keeps → room = true → (u.tag.domain ≠ 0 → kept u q.comp.toNat) ∧
      (u.tag.domain = 0 → ∃ t : Tag, kept { u with tag := t } q.comp.toNat ∧
        t = { u.tag with domain := BitVec.ofNat 4 d, weight := BitVec.ofNat 16 (min (u.tag.weight.toNat * 2 ^ k) 0xFFFF), flags := t.flags }))) ∧
  -- MERGE
  (q.pri = 5 → u.v1 = none →
    let partner (y : QEntry) : Prop := y.item.isData = true ∧ y.item.v1 = none ∧ y.item.key = u.key ∧ y.item.tag.domain = u.tag.domain
    (∀ pre e post, q.entries = pre ++ e :: post → partner e → (∀ y ∈ post, ¬ partner y) → (post.filter (fun y => y.item.isData)).length < 8 →
      f.out = .kept ∧ f.fault = none ∧ f.q.comp.toNat = sat (q.comp.toNat + 1) ∧ ∃ m : Item, f.q.entries = pre ++ { e with item := m } :: post ∧
        m.key = u.key ∧ m.v1 = none ∧ m.v0.extractLsb' 96 416 = e.item.v0.extractLsb' 96 416 ∧ m.tag.flags.getLsbD 6 = true ∧
        m.tag = { e.item.tag with weight := BitVec.ofNat 16 (min (e.item.tag.weight.toNat + u.tag.weight.toNat) 0xFFFF), flags := m.tag.flags } ∧
        let x := e.item.value
        let y := u.value
        let clamp (z : Int) : Int := max (-(2 ^ 31 : Int)) (min z (2 ^ 31 - 1))
        (q.qpar.getLsbD 17 = true → (par 15 2 = 0 → m.value.toInt = clamp (x.toInt + y.toInt)) ∧
          (par 15 2 = 1 → m.value.toInt = min x.toInt y.toInt) ∧ (par 15 2 = 2 → m.value.toInt = max x.toInt y.toInt)) ∧
        (q.qpar.getLsbD 17 = false →
          ((FloatFmt.f32.read x.toNat).isNan = true ∨ (FloatFmt.f32.read y.toNat).isNan = true → m.value.toNat = 0x7FC00000) ∧
          ((FloatFmt.f32.read x.toNat).isNan = false → (FloatFmt.f32.read y.toNat).isNan = false → par 15 2 = 0 → m.value.toNat =
            (FloatFmt.f32.conv .rne false ((FloatFmt.f32.read x.toNat).add .rne (FloatFmt.f32.read y.toNat))).code % 2 ^ 32))) ∧
    ((∀ y ∈ q.entries, ¬ partner y) → 1 ≤ q.free → kept u q.comp.toNat)) ∧
  -- NARROW
  (q.pri = 6 → let nk := par 18 3
    (nk < descPlane u.desc → compensated ∧ f.q.comp.toNat = sat (q.comp.toNat + 1)) ∧
    (descPlane u.desc ≤ nk → 2 ≤ q.free → (descPlanes u.desc ≤ nk → kept u q.comp.toNat) ∧
      (nk < descPlanes u.desc → u.v1.isSome = true → ∃ v : Item, kept v q.comp.toNat ∧ v.tag = { u.tag with flags := u.tag.flags ||| 0x80 } ∧
        v.v0 = u.v0 ∧ v.scale = u.scale ∧ descPlane v.desc = descPlane u.desc ∧ descPlanes v.desc = nk))) ∧
  -- SPILL
  (q.pri = 7 → (room = true → kept u q.comp.toNat) ∧
    (room = false → u.slots + 8 ≤ q.ringFree → f.out = .kept ∧ f.fault = none ∧ f.q = { q with ring := [⟨u, none⟩] }))

end Sys2Proof.Cert

/-- Pulses and tiles (R28, R271, R285, R286, R289, R372). A pulse is counted at its input, or discarded where its epoch has passed; a section
with tiles left, open gates, a budget and credit at its sources admits one tile, which every source starts; and a tile ends when its EOT
has passed every sink and the sinks have released its stores and performed its atomics.
What log entries 18, 40 and 83 name are the model's choices. -/
def Obligations.PulsesAndTiles : Prop :=
  (∀ (s : State) (k : Nat) (p : PulseFlight), s.pulses[k]? = some p →
    (∀ j y, j < k → s.pulses[j]? = some y → ¬ (y.src = p.src ∧ y.po = p.po ∧ y.dst = p.dst ∧ y.pin = p.pin)) →
    let s1 : State := { s with pulses := s.pulses.eraseIdx k }
    let x := s.cell p.dst
    let waiting := x.pin[p.pin.toNat]
    (x.epoch ≠ p.epoch → exec (.pulseArrival k) s = .next s1) ∧
    (x.epoch = p.epoch → waiting.length < 0xFFFF → exec (.pulseArrival k) s =
      .next (s1.setCell p.dst { x with pin := x.pin.set p.pin.toNat (waiting ++ [⟨p.kind, p.src, p.po⟩]) })) ∧
    (x.epoch = p.epoch → 0xFFFF ≤ waiting.length → exec (.pulseArrival k) s =
      .next (s1.raiseFault p.dst { FaultReg.reset with code := 3, node := p.pin }))) ∧
  (∀ (s : State) (n : Nat) (j : BitVec 6) (r : Region) (x : Section), s.region n = some r → r.sections[j.toNat]? = some x →
    let source (p : CellId × BitVec 3) : AgenSt := ((s.cell p.1).takeFrees p.2).ag[p.2.toNat]
    (x.left ≠ 0 → x.running = true → s.admits r = true → r.gateOpen x = true → s.budgetOpen r.die r.launch.ctx = true →
      (∀ p ∈ r.sourcesOf x, (source p).hasCredit = true ∧ (source p).retune = false ∧ (source p).due = [] ∧ (s.cell p.1).due[p.2.toNat] = []) →
      ∃ t, exec (.tileAdmit n j) s = .next t ∧ t.mem = s.mem ∧ (∀ p ∈ r.sourcesOf x, (⟨r.serial, j.toNat, x.serial⟩ : Inv) ∈ ((t.cell p.1).ag[p.2.toNat]).due) ∧
        regionIs t n (fun y => y.sections[j.toNat]? = some { x with
          left := x.left - 1, idx := x.idx + 1, serial := x.serial + 1, tiles := x.tiles ++ [⟨x.serial, x.idx, []⟩] })) ∧
    (x.left = 0 ∨ x.running = false ∨ s.admits r = false ∨ r.gateOpen x = false ∨ s.budgetOpen r.die r.launch.ctx = false →
      exec (.tileAdmit n j) s = .next s)) ∧
  ∀ (s : State) (n : Nat) (j : BitVec 6) (r : Region) (x : Section) (i : OpenTile) (rest : List OpenTile), s.region n = some r →
    r.sections[j.toNat]? = some x → x.tiles = i :: rest → r.kstate = .active ∨ r.kstate = .resident →
    ((∀ k ∈ x.sinks, k ∈ i.sinks ∧ s.sinkDone r ⟨r.serial, j.toNat, i.tile⟩ k = true) → ∃ t, exec (.tileEnd n j) s = .next t ∧
      regionIs t n (fun y => (y.sections[j.toNat]?).map Section.tiles = some rest)) ∧
    ((∀ l ∈ x.tiles, ∃ k ∈ x.sinks, k ∉ l.sinks) → exec (.tileEnd n j) s = .next s)

/-- Units on their way (R91, R231, R232, R238 to R246, R248, R342, R343, R345, R375): QUEUE_OFFER offers the oldest unit of its link, and a SHEDDING
queue makes of a DATA unit what its policy says; a queue leaves SHEDDING, closes, and takes a unit back from its ring; EXT inlets convert; of the
units that one cell emitted toward another the one emitted first enters its egress buffer; a crosspoint grants the late packet that waits alone,
with the SLACK and RESID of its grant; and a cell that may act on a mute does.
What log entries 73, 74 and 75 name are the model's choices. -/
def Obligations.UnitsOnTheirWay : Prop :=
  (∀ (s s1 : State) (a b : CellId) (w : Wire) (o : Outcome3), s.wires.find? (fun w => w.src = a ∧ w.dst = b) = some w →
    s.offerCell b w.dq w.item = (s1, o) →
    (o = .retry → exec (.queueOffer a b) s = .next s1) ∧
    (o ≠ .retry → w.loss = false → exec (.queueOffer a b) s = .next { s1 with wires := s1.wires.erase w })) ∧
  (∀ (s s1 : State) (c : CellId) (k : BitVec 3) (u : Item) (o : Outcome3), s.offerCell c k u = (s1, o) →
    let q := (s.cell c).queues[k.toNat]
    let f := q.offer (cellWord c k) u
    q.ring = [] → f.q.ring = [] → f.fault = none → (f.q.head = q.head ∨ ∀ h, f.q.head = some h → badToken h = false) →
    o = f.out ∧ ∀ i : Fin 8, ((s1.cell c).queues[i]) = (if i.val = k.toNat then f.q else (s.cell c).queues[i])) ∧
  (∀ (q : Queue) (qid : Word32) (u : Item) (f : Offered), q.state = .shedding → q.ring = [] → u.isData = true → q.arrive qid u = f →
    policyActs q u f ∧ (f.q.low < f.q.occ → q.offer qid u = f)) ∧
  (∀ (s : State) (c : CellId) (k : BitVec 3),
    let q := (s.cell c).queues[k.toNat]
    q.frozen = false →
    (∀ q1, q.state = .shedding → q.occ ≤ q.low → q.ring = [] → q.leave (cellWord c k) .flowing = (q1, none) →
      exec (.leaveShedding (.cell c k)) s = .next (queuePut s c k q1) ∧ q1.state = .flowing) ∧
    (q.state ≠ .shedding → exec (.leaveShedding (.cell c k)) s = .next s) ∧
    (q.state = .draining → q.entries = [] → q.ring = [] →
      exec (.queueClosed (.cell c k)) s = .next (queuePut s c k { q with state := .closed })) ∧
    (q.state ≠ .draining ∨ q.entries ≠ [] ∨ q.ring ≠ [] → exec (.queueClosed (.cell c k)) s = .next s) ∧
    (q.ring = [] → exec (.spillReplay (.cell c k)) s = .next s) ∧
    (∀ u rest, q.ring = u :: rest → s.ringReach c.die (s.ctxOfCell c) q 0 u.item.slots = true → q.entries ≠ [] ∨ badToken u.item = false →
      exec (.spillReplay (.cell c k)) s = .next (queuePut s c k q.replay) ∧
      (u.item.isData = true → u.item.slots ≤ q.free → q.replay.ring = rest.dropWhile (fun y => y.kept.isSome) ∧
        q.replay.ringHead = (q.ringHead + u.item.slots) % q.ringCap))) ∧
  (∀ (s : State) (c : CellId) (i : BitVec 5) (u : Item) (w : SwWord) (e : ExtWord),
    (s.cell c).swIn.find? (fun p => p.1 = i) = some (i, u) →
    (s.cell c).active.sw.find? (fun w => w.inlet = i ∧ w.ext.isSome = true) = some w → w.ext = some e →
    (convertBad e u = true → (s.cell c).fault.valid = false → exec (.switchConvert c i) s = .next (s.raiseFault c (faultAt 0x06 0 (some u)))) ∧
    (convertBad e u = false → ∀ (v : Option Item) (s2 : State),
      (s.setCell c { s.cell c with swIn := (s.cell c).swIn.erase (i, u) }).convertAt c w e u = (v, s2) →
      exec (.switchConvert c i) s = .next (match v with
        | none => s2
        | some y => s2.leavePath c w y))) ∧
  (∀ (s : State) (c : CellId) (so : BitVec 5) (e0 e : Egress) (n : Nat) (u : Item) (rest : List (Nat × Item)),
    (s.die c.die).egress.find? (fun e => e.src = c ∧ e.so = so ∧ e.waiting ≠ []) = some e0 →
    firstEmitted (s.die c.die).egress c e0.dst = some (e, n, u, rest) →
    (∀ y ∈ (s.die c.die).egress, y.src = c → y.dst = e0.dst → ∀ m v more, y.waiting = (m, v) :: more → n ≤ m) ∧
    (u.isData = true → u.slots + e.flits ≤ 32 → (∃ p ∈ (s.die c.die).harp.wait, p.inp = portOfCell c) →
      exec (.egressOffer c so) s = .next (({ s with fresh := s.fresh + 1 } : State).setDie c.die { s.die c.die with
        egress := (s.die c.die).egress.map (fun y => if y.src = e.src ∧ y.so = e.so ∧ y.dst = e.dst ∧ y.dq = e.dq then
          { e with waiting := rest, entries := e.entries ++ [⟨s.fresh, u, true, false⟩] } else y) }))) ∧
  (∀ (s : State) (d : BitVec 3) (o : BitVec 9) (n : Nat), ∃ t, exec (.harpGrant d o n) s = .next t ∧ t.mem = s.mem ∧
    (s.die d).harp.now ≤ (t.die d).harp.now ∧ (t.die d).harp.now ≤ (s.die d).harp.now + n ∧
    ∀ p, (s.die d).harp.wait = [p] → p.outp = o → p.late = true → s.circuits d = [] → p.since ≤ (s.die d).harp.now →
      (aget (s.die d).harp.busy o).getD 0 ≤ (s.die d).harp.now →
      let stayed := (s.die d).harp.now - p.since
      let slack : BitVec 12 := if p.slack = 0xFFF then p.slack else BitVec.ofNat 12 (p.slack.toNat - (p.resid.toNat + stayed) / 16)
      let resid : BitVec 4 := if p.slack = 0xFFF then p.resid else p.resid + BitVec.ofNat 4 stayed
      (t.die d).harp.now = (s.die d).harp.now ∧ (o, p.inp) ∈ (t.die d).harp.grants ∧
      t.wires = s.wires ++ [{ src := p.src, dst := p.dst, dq := p.dq, item := p.item, loss := p.loss, slack := slack, resid := resid }]) ∧
  ∀ (s : State) (c : CellId) (r : Region), s.regionOf c = some r → r.muting = true → s.cellRuns c = true → s.canMute r c = true →
    ∃ t, exec (.cellMute c) s = .next t ∧ (t.cell c).muted = true

/-- Loading, freezing and saving (R266, R378, R379, R389, R391): a kernel whose checks pass starts its control program in its region, or else the
load is refused, and a load that a bridge holds waits; the freeze line stops a cell, with its firings since the fault as SKID, and the last one, once its sequencer has no store and no request outstanding, makes the region, its kernel and
its context FROZEN with its summary; and a cut that is complete saves the region and frees its blocks.
What log entries 65, 67, 77, 78 and 118 name are the model's choices. -/
def Obligations.LoadFreezeAndSave : Prop :=
  (∀ (s : State) (n : Nat) (r : Region), s.region n = some r → r.kstate = .loading → r.freezing = false →
    (∀ s1, s.load0 r = .ok s1 → exec (.dispatchLoadComplete n) s = .next (s1.afterLoad n) ∧ (s1.seq r.lead).run = .running ∧
      (s1.seq r.lead).region = some n ∧ (s1.seq r.lead).ctx = r.launch.ctx ∧ (s1.seq r.lead).cmode = r.launch.cmode ∧
      (s1.seq r.lead).intrap = false ∧ (s1.seq r.lead).tvec = 0 ∧ (s1.seq r.lead).wait = .none) ∧
    (∀ f sig, s.load0 r = .error (f, sig) → f.held = true → exec (.dispatchLoadComplete n) s = .next s) ∧
    (∀ f sig, s.load0 r = .error (f, sig) → f.held = false → exec (.dispatchLoadComplete n) s = .next (s.refuseLoad r (refusalWord f sig)))) ∧
  (∀ (s : State) (c : CellId) (k : BitVec 4) (r : Region), s.regionOf c = some r → s.region r.serial = some r → r.kstate ≠ .frozen →
    r.freezing = true → (s.cell c).stopped = false →
    ((s.cell c).fault.skid ≠ k → exec (.freezeLineArrival c k) s = .next s) ∧ ((s.cell c).fault.skid = k →
    ∃ t, exec (.freezeLineArrival c k) s = .next t ∧
      ((∃ b ∈ s.cellsOf r, b ≠ c ∧ (s.cell b).stopped = false) → t.mem = s.mem ∧ (t.cell c).stopped = true ∧ (t.cell c).fault.skid = k ∧
        regionIs t r.serial (fun y => y.kstate = r.kstate) ∧
        (c.x = r.leadX → c.y = r.leadY → (t.seq r.lead).run ≠ .running)) ∧
      ((∀ b ∈ s.cellsOf r, b ≠ c → (s.cell b).stopped = true) → s.pendOf r.lead ≠ [] ∨ (s.seq r.lead).wait.isRequest = true →
        t.mem = s.mem ∧ (t.cell c).stopped = true ∧ regionIs t r.serial (fun y => y.kstate = r.kstate)) ∧
      ((∀ b ∈ s.cellsOf r, b ≠ c → (s.cell b).stopped = true) → s.pendOf r.lead = [] → (s.seq r.lead).wait.isRequest = false →
        (∀ y ∈ s.regions, y.serial ≠ r.serial → y.lead ≠ r.lead) → ∀ v, s.faultSummary r = some v → v.toNat % 64 ≠ 0x11 → t.mem = s.mem ∧
        regionIs t r.serial (fun y => y.kstate = .frozen ∧ y.freezing = false ∧ y.summary = some v ∧ y.delivered = false) ∧
        (t.ctx r.launch.ctx).state = .frozen ∧ (t.seq r.lead).run ≠ .running ∧ ∀ i : Fin 8, ((t.cell c).queues[i]).frozen = true))) ∧
  ∀ (s : State) (n : Nat) (r : Region) (b : Bool) (base : Word64), s.region n = some r → r.cut = .cutting b → r.freezing = false →
    r.kstate = .active ∨ r.kstate = .resident → r.fetches = [] → s.allMuted r = true → s.quiet r = true →
    (((s.ctx r.launch.ctx).cmd.map CtxCmd.base).orElse (fun _ => (s.ctx r.launch.ctx).saveBase)) = some base →
    s.saveFault r.die r.launch.ctx base 1 = false →
    s.saveFault r.die r.launch.ctx (s.saveAt r.launch.ctx base r.saveSize) (r.saveSize / 4096) = false →
    s.rangeUp r.die r.launch.ctx base.toNat 4096 = true →
    s.rangeUp r.die r.launch.ctx (s.saveAt r.launch.ctx base r.saveSize).toNat r.saveSize = true →
    ∃ t, exec (.cutComplete n) s = .next t ∧ (t.seq r.lead).run = .idle ∧
      regionIs t n (fun y => y.kstate = .saved ∧ y.cut = .none ∧ (y.image.map SaveImage.base) = some base)

/-- The links (R351, R352, R443). A link in TRAINING that leads anywhere comes UP, and enters FAULT when it does not train in time; one that is UP enters
FAULT on a fault, and a bridge after eight frame retries in a row; its ready bit is set in UP alone.
What log entries 104 and 105 name are the model's choices. -/
def Obligations.LinksMove : Prop :=
  ∀ (s : State) (d : BitVec 3),
    let tries (e : BitVec 2) (n : Nat) : State := s.setDie d { s.die d with
      bridge := (s.die d).bridge.set e.toNat { (s.die d).bridge[e.toNat] with tries := n } }
    (∀ (l : LinkName) (x : LinkState), (((s.moveLink d l x).die d).link l).state = x ∧ (s.moveLink d l x).mem = s.mem ∧
      ((s.moveLink d l x).die d).ready.getLsbD (linkBit l) = (x == .up && (s.die d).service)) ∧
    (∀ l : LinkName, ((s.die d).link l).state = .training →
      (linkConnected d l = true → exec (.linkTrained d l) s = .next (s.moveLink d l .up)) ∧
      exec (.linkTrainingTimeout d l) s = .next (match l with
        | .eth _ => s.moveLink d l .fault
        | .bridge _ => (s.moveLink d l .fault).discardFlits)) ∧
    (∀ l : LinkName, ((s.die d).link l).state = .up → exec (.linkFault d l) s = .next (match l with
        | .eth _ => s.moveLink d l .fault
        | .bridge _ => (s.moveLink d l .fault).discardFlits)) ∧
    (∀ l : LinkName, ((s.die d).link l).state = .down → exec (.linkTrained d l) s = .next s ∧ exec (.linkTrainingTimeout d l) s = .next s ∧
      exec (.linkFault d l) s = .next s) ∧
    ∀ e : BitVec 2,
      let l := (s.die d).bridge[e.toNat]
      l.state = .up → (l.tries ≤ 8 → exec (.bridgeFrameReceive d e true) s = .next (tries e 0) ∧
          exec (.bridgeRetryExhaustion d e) s = .next s) ∧
        (l.tries < 8 → exec (.bridgeFrameReceive d e false) s = .next ((tries e (l.tries + 1)).softError d 0 0)) ∧
        (l.tries = 8 → exec (.bridgeFrameReceive d e false) s = .next (tries e 9)) ∧
        (8 < l.tries → exec (.bridgeRetryExhaustion d e) s = .next ((s.moveLink d (.bridge e) .fault).discardFlits))

/-- The scheduler (R372, R412, R414 to R417, R419 to R422). A pending decision of the next partition begins: a fault decision first, then a
dispatch decision, then a pre-empt decision, under the shadow program where there is one; a decision that selects nothing only counts; a
dispatch that still fits, in the blocks of the snapshot that are free still, makes a LOADING region; the 257th word abandons the program for the fallback; a period lets `run` grow; and a
budget period refills the budgets.
What log entries 68 and 76 name are the model's choices. -/
def Obligations.SchedulerSteps : Prop :=
  ∀ (s : State) (d : BitVec 3),
    let x := s.die d
    (x.ready.getLsbD 215 = true → x.dec = none → ∀ p, s.nextPart d = some p → ∃ t y, exec (.schedulerDecision d) s = .next t ∧ t.mem = s.mem ∧
      (t.die d).dec = some y ∧ y.part = p.num ∧ y.pc = 0 ∧ y.steps = 0 ∧ (t.die d).rr = p.num ∧
      y.dkind = (if s.faultsOf p ≠ [] then 2 else if p.pendD then 0 else 1) ∧
      y.prog = ((p.shadow.orElse (fun _ => p.policy)).getD [])) ∧
    (x.ready.getLsbD 215 = true → x.dec = none → s.nextPart d = none → exec (.schedulerDecision d) s = .next s) ∧
    (x.ready.getLsbD 215 = true → ∀ y, x.dec = some y →
      (y.ended = none → exec (.schedulerDecision d) s = .next s) ∧
      (y.ended = some none → y.reserved = none → ∃ t, exec (.schedulerDecision d) s = .next t ∧ t.mem = s.mem ∧ (t.die d).dec = none ∧
        (t.die d).parts = x.parts.map (fun p => if p.num = y.part then { p with dnum := p.dnum + 1 } else p)) ∧
      ∀ (i : Nat) (row : Row) (n : BitVec 9) (l : Launch) (rest : List Launch) (c : Rect), y.ended = some (some i) → y.reserved = none →
        y.dkind = 0 → y.rows[i]? = some row → row.ref = .launch n → row.fits = true → x.launchQueue n = l :: rest → l.part = y.part →
        (s.ctx n).state ≠ .freed → (s.ctx n).state ≠ .terminating → s.findRect d (s.stillFree d y) l true = some c →
        ∃ t, exec (.schedulerDecision d) s = .next t ∧ (t.die d).dec = none ∧
          (t.ctx n).state = (if (s.ctx n).state = .loaded ∨ (s.ctx n).state = .saved then .running else (s.ctx n).state) ∧
          ((t.die d).launchQueue n).length = rest.length ∧
          ∃ r ∈ t.regions, r.serial = s.fresh ∧ r.kstate = .loading ∧ r.die = d ∧ r.x = BitVec.ofNat 4 c.x ∧ r.y = BitVec.ofNat 4 c.y ∧
            r.w = c.w ∧ r.h = l.height ∧ r.launch.desc = l.desc) ∧
    (∀ y, x.dec = some y → y.ended = none → 256 ≤ y.steps → ∃ t, exec (.policyStepOverrun d) s = .next t ∧
      (t.die d).dec = some { y with ended := some (if y.dkind = 0 then bestRow y.rows Row.fits else none) } ∧
      (t.die d).parts = x.parts.map (fun p => if p.num = y.part then
        { p with fbcount := if p.fbcount.toNat = 2 ^ 32 - 1 then p.fbcount else p.fbcount + 1 } else p)) ∧
    (∃ t, exec (.schedulerPeriod d) s = .next t ∧ t.mem = s.mem ∧ t.regions = s.regions.map (fun r =>
      if r.die = d ∧ (r.kstate = .active ∨ r.kstate = .resident) then { r with run := min (r.run + 1) (2 ^ 32 - 1) } else r)) ∧
    exec (.budgetPeriod d) s = .next (s.setDie d { x with scrubbed := 0, budgets := x.budgets.map (fun b =>
      let q := b.next.getD (b.qfl, b.qfi)
      { b with qfl := q.1, qfi := q.2, next := none, fl := min (b.fl + q.1.toNat) q.1.toNat, fi := min (b.fi + q.2.toNat) q.2.toNat }) })

/-! ### Steps, frames and invariants -/

namespace Sys2Proof.Cert

/-- What the clock does after an instruction of sequencer `q` (R126, R266, R401, R402): CYCLE counts, the watchdog of its region is 0, a RESIDENT
kernel is ACTIVE, and a wait has its age. -/
def clocked (t : State) (q : BitVec 7) : State :=
  let u := t.setSeq q { t.seq q with cycle := (t.seq q).cycle + 1, held := (t.seq q).heldSince t.cyc }
  match (t.seq q).region with
  | none => u
  | some n => { u with regions := u.regions.map (fun r => if r.serial = n then
      { r with wdog := 0, kstate := if r.kstate = .resident then .active else r.kstate } else r) }

end Sys2Proof.Cert

/-- A step runs the decoded instruction. Where the turn is a sequencer's that runs and waits for nothing, and the four bytes at its program
counter decode, the step is that instruction's meaning, after which the clock has counted; the turn of a cell runs the first ready node of its
search, which begins after the node issued last; the turn of a policy engine and of a row manager runs the word that the agent holds, a
word of the RV64GC base among them; and a step of the table without an encoding is taken as it stands (R17, R22, R109, R119, R120, R128, R418).
A turn begins by noting its agent, and ends the cycle under way where the agent has acted in it (log entry 150); a turn of a cell that is a
firing counts as one (log entry 59).
What log entries 10, 14, 23, 59, 105 and 150 name are the model's choices. -/
def Obligations.StepRunsTheDecodedInstruction : Prop :=
  ∀ (s u s0 : State) (turn : Turn),
    (∃ rest, s.turns = turn :: rest ∧ u = { s with turns := rest }) ∨ (s.turns = [] ∧ turn = .seq s.seqTurn ∧ u = s) →
    s0 = u.beginTurn turn → s0.powered = true →
    ((∃ q, turn = .seq q) ∨ (∃ c, turn = .cell c) ∨ (∃ d, turn = .policy d) ∨ (∃ m, turn = .rm m) →
      (turn ∉ u.acted → s0 = { u with acted := turn :: u.acted }) ∧
      (turn ∈ u.acted → let v := u.leavers.foldl State.leaveTest u
        s0 = { v with acted := [turn], cyc := v.cyc + 1 })) ∧
    ((∃ i, turn = .event i) → turn ∉ u.acted → s0 = u) ∧
    (∀ (q : BitVec 7) (x : Xlated) (b t : State) (i : Instr), turn = .seq q → (s0.seq q).run = .running ∨ (s0.seq q).run = .handler →
      (s0.seq q).wait = .none →
      let a : State := { s0.setSeq q { s0.seq q with wait := .none } with seqTurn := q }
      let pc := (s0.seq q).pc
      pc.toNat % 4 = 0 → a.xlate q .x pc = (.ok x, b) → a.pathTo (seqDie q) x.pa = .up → b.poisonIn x.pa 4 = none →
      decodeSeq (b.seqNum q x.key x.pa 4) = .ok i → exec i b = .next t → step s = .next (clocked t q)) ∧
    (∀ c : CellId, turn = .cell c →
      let slot (j : Nat) : BitVec 3 := (s0.cell c).last + BitVec.ofNat 3 (j + 1)
      let at_ (j : Nat) : State := { s0 with nodeTurn := (c, slot j) }
      let waits (n : Nat) : Prop := ∀ j < n, ∀ w i, (s0.cell c).word (slot j) = some w → decodeNode w.toNat = .ok i → exec i (at_ j) = .next (at_ j)
      (waits 8 → step s = .next s0) ∧
      ∀ (n : Nat) (w : Word32) (i : Instr) (t : State), n < 8 → waits n → (s0.cell c).word (slot n) = some w → decodeNode w.toNat = .ok i →
        exec i (at_ n) = .next t → t ≠ at_ n → step s = .next (if t ≠ s0 ∧ s0.isFiring t c = true then t.afterFire c else t)) ∧
    (∀ (d : BitVec 3) (x : Decision) (w : BitVec 16) (i : Instr), turn = .policy d → (s0.die d).dec = some x → x.ended = none →
      x.prog[x.pc]? = some w → decodePolicy w.toNat = .ok i → step s = exec i { s0 with polTurn := d }) ∧
    (∀ m : BitVec 10, turn = .rm m → (s0.rm m).wait = none → (s0.die (BitVec.ofNat 3 (m.toNat / 128))).service = true →
      (s0.rvFetchHeld m = true → step s = .next s0) ∧ (s0.rvFetchHeld m = false →
      (∀ e, s0.rvFetch m = .error e → step s = .next (s0.setRm m ((s0.rm m).trap e.1 e.2))) ∧
      (∀ w i, s0.rvFetch m = .ok (4, w) → decodeRm w = .command i → step s = exec i { s0 with rmTurn := m }) ∧
      (∀ w, s0.rvFetch m = .ok (4, w) → decodeRm w = .illegal →
        step s = exec (.illegalInstructionException (BitVec.ofNat 32 w)) { s0 with rmTurn := m }) ∧
      ∀ len w, s0.rvFetch m = .ok (len, w) → len ≠ 4 ∨ decodeRm w = .base → step s = .next (s0.rvStep m len w))) ∧
    ∀ i : Instr, turn = .event i → encode i = none → step s = exec i s0

/-- The frame of every node of a cell (R17, R21): whichever node's word decodes to it, an instruction of a cell leaves memory with its keys and
poison marks, every register of every sequencer, and the configuration, latches, node states, tables and accumulators of every other cell as
they were. A fault that it raises may stop sequencers and freeze queues (R389), and nothing here speaks of those. -/
def Obligations.NodesKeepMemoryRegistersAndOtherCells : Prop :=
  ∀ (i : Instr) (w : Word32) (s t : State), decodeNode w.toNat = .ok i → exec i s = .next t →
    t.mem = s.mem ∧ t.lineKey = s.lineKey ∧ t.poison = s.poison ∧
    (∀ q : BitVec 7, let y := t.seq q
      { s.seq q with run := y.run, outPort := y.outPort } = y) ∧
    ∀ c : CellId, c ≠ s.nodeTurn.1 →
      let x := s.cell c
      let y := t.cell c
      y.active = x.active ∧ y.latches = x.latches ∧ y.nst = x.nst ∧ y.fb = x.fb ∧ y.mx.acc = x.mx.acc ∧ y.last = x.last

/-- Memory stays in its canonical form, whatever step is taken from whatever state: addresses strictly rising and no byte listed that reads as
an unlisted one. The form is the model's own (log entry 1). -/
def Obligations.EveryStepKeepsMemoryCanonical : Prop := ∀ s t : State, MemOk s → step s = .next t → MemOk t

/-- The state at reset (R22, R123 to R125, R266, R273, R293, R352, R363, R443): the control registers, predicates and accumulators of every
sequencer as at a kernel's start, CYCLE at 0, no region, no context but the resident OS's key in slot 0, every cell empty with n7 as the node
issued last, links DOWN, the ready maps clear; and memory in its canonical form.
What log entries 9, 117 and 120 name are the model's choices. -/
def Obligations.ResetIsAsTheRulesSay : Prop :=
  MemOk State.reset ∧ State.reset.regions = [] ∧ (∀ n, (State.reset.ctx n).state = .freed) ∧
    State.reset.slots.map (fun k => (k.handle, k.ctx)) = [(0, none)] ∧
    (∀ q : BitVec 7, let y := State.reset.seq q
      y.tvec = 0 ∧ y.tcause = 0 ∧ y.tval = 0 ∧ y.tepc = 0 ∧ y.ptag = 0 ∧ y.tscratch = 0 ∧ y.cycle = 0 ∧ y.accstat = 0 ∧
        y.resumed = false ∧ y.intrap = false ∧ y.disc = false ∧ y.p.toList = true :: List.replicate 7 false ∧ y.run = .idle) ∧
    (∀ c : CellId, (State.reset.cell c).last = 7 ∧ (State.reset.cell c).fault.valid = false ∧
      ∀ k : BitVec 3, (State.reset.cell c).word k = none) ∧
    ∀ d : BitVec 3, (State.reset.die d).ready = 0 ∧ (State.reset.die d).parts = [] ∧
      (∀ i : Fin 4, ((State.reset.die d).bridge[i]).state = .down) ∧ ∀ i : Fin 2, ((State.reset.die d).eth[i]).state = .down

end
end

