-- ==== Sys2Proof/Laws/Encoding.lean ====
section
/-!
SUPPORT. What a field of an assembled word reads as: the value placed there, or the fixed bits where no field stands.
-/

namespace Sys2Proof.Laws

/-- A field of a word: its lowest bit, its width and its value. -/
structure Slot where
  lo : Nat
  n  : Nat
  v  : BitVec n

/-- The pair that `place` takes for a field. -/
def Slot.pair (x : Slot) : Nat × Nat := (x.lo, x.v.toNat)

/-- No two fields share a bit, and none shares one with the bits of `m`. -/
def layoutOk (m : Nat) : List Slot → Bool
  | [] => true
  | x :: xs => fld m x.lo x.n == 0 && layoutOk (m + (2 ^ x.n - 1) * 2 ^ x.lo) xs

theorem fld_testBit (w lo n k : Nat) : (fld w lo n).testBit k = (decide (k < n) && w.testBit (lo + k)) := by
  simp [fld, Nat.testBit_mod_two_pow, Nat.testBit_div_two_pow, Nat.add_comm]

theorem add_field_testBit {f lo n v : Nat} (h : fld f lo n = 0) (hv : v < 2 ^ n) (k : Nat) :
    (f + v * 2 ^ lo).testBit k = if lo ≤ k ∧ k < lo + n then v.testBit (k - lo) else f.testBit k := by
  have hz : ∀ j, j < n → f.testBit (lo + j) = false := fun j hj => by
    have := fld_testBit f lo n j
    rw [h] at this
    simpa [hj] using this.symm
  have hf : f = 2 ^ lo * (2 ^ n * (f / 2 ^ lo / 2 ^ n)) + f % 2 ^ lo := by
    have h1 := Nat.div_add_mod f (2 ^ lo)
    have h2 := Nat.div_add_mod (f / 2 ^ lo) (2 ^ n)
    have h3 : f / 2 ^ lo % 2 ^ n = 0 := h
    rw [h3, Nat.add_zero] at h2
    rw [h2, h1]
  have hl : f % 2 ^ lo < 2 ^ lo := Nat.mod_lt _ (Nat.two_pow_pos _)
  generalize f / 2 ^ lo / 2 ^ n = hi at hf
  generalize f % 2 ^ lo = low at hf hl
  have e : f + v * 2 ^ lo = 2 ^ lo * (2 ^ n * hi + v) + low := by rw [hf, Nat.mul_add, Nat.mul_comm v]; omega
  rw [e, Nat.testBit_two_pow_mul_add _ hl, Nat.testBit_two_pow_mul_add _ hv]
  rw [hf, Nat.testBit_two_pow_mul_add _ hl, Nat.testBit_two_pow_mul]
  by_cases a : k < lo
  · simp [a] <;> omega
  · by_cases b : k < lo + n
    · have : k - lo < n := by omega
      simp [this, Nat.not_lt.mp a, b, a]
    · have : n ≤ k - lo := by omega
      simp [a, b, Nat.not_lt.mpr this, this]

theorem fld_add_same {f lo n : Nat} (v : BitVec n) (h : fld f lo n = 0) : fld (f + v.toNat * 2 ^ lo) lo n = v.toNat := by
  apply Nat.eq_of_testBit_eq
  intro k
  rw [fld_testBit, add_field_testBit h v.isLt]
  by_cases hk : k < n
  · simp [hk]
  · have : v.toNat < 2 ^ k := Nat.lt_of_lt_of_le v.isLt (Nat.pow_le_pow_right (by decide) (Nat.not_lt.mp hk))
    simp [hk, Nat.testBit_lt_two_pow this]

theorem fld_add_other {f lo n lo' n' v : Nat} (h : fld f lo n = 0) (hv : v < 2 ^ n) (d : lo' + n' ≤ lo ∨ lo + n ≤ lo') :
    fld (f + v * 2 ^ lo) lo' n' = fld f lo' n' := by
  apply Nat.eq_of_testBit_eq
  intro k
  rw [fld_testBit, fld_testBit, add_field_testBit h hv]
  by_cases hk : k < n'
  · have : ¬(lo ≤ lo' + k ∧ lo' + k < lo + n) := by omega
    simp [this]
  · simp [hk]

/-- Every bit of `f` is a bit of the mask `m`. -/
def Under (f m : Nat) : Prop := ∀ k, f.testBit k = true → m.testBit k = true

theorem fld_zero_of_under {f m lo n : Nat} (u : Under f m) (h : fld m lo n = 0) : fld f lo n = 0 := by
  apply Nat.eq_of_testBit_eq
  intro k
  have := fld_testBit m lo n k
  rw [h] at this
  rw [fld_testBit, Nat.zero_testBit]
  by_cases hk : k < n
  · have hm : m.testBit (lo + k) = false := by simpa [hk] using this.symm
    cases hf : f.testBit (lo + k)
    · simp
    · rw [u _ hf] at hm; simp at hm
  · simp [hk]

theorem under_add {f m lo n v : Nat} (u : Under f m) (h : fld m lo n = 0) (hv : v < 2 ^ n) :
    Under (f + v * 2 ^ lo) (m + (2 ^ n - 1) * 2 ^ lo) := by
  intro k hk
  rw [add_field_testBit (fld_zero_of_under u h) hv] at hk
  rw [add_field_testBit h (Nat.sub_lt (Nat.two_pow_pos n) Nat.one_pos)]
  split at hk
  · rename_i c
    have : k - lo < n := by omega
    simp [c, Nat.testBit_two_pow_sub_one, this]
  · rename_i c
    simp [c, u k hk]

theorem place_keeps (xs : List Slot) : ∀ (f m lo n : Nat), Under f m → layoutOk m xs = true →
    (∀ x ∈ xs, lo + n ≤ x.lo ∨ x.lo + x.n ≤ lo) → fld (place f (xs.map Slot.pair)) lo n = fld f lo n := by
  induction xs with
  | nil => intro f m lo n _ _ _; rfl
  | cons x xs ih =>
    intro f m lo n u ok h
    simp only [layoutOk, Bool.and_eq_true, beq_iff_eq] at ok
    have := ih (f + x.v.toNat * 2 ^ x.lo) _ lo n (under_add u ok.1 x.v.isLt) ok.2 (fun y hy => h y (List.mem_cons_of_mem _ hy))
    show fld (place (f + x.v.toNat * 2 ^ x.lo) (xs.map Slot.pair)) lo n = _
    rw [this]
    exact fld_add_other (fld_zero_of_under u ok.1) x.v.isLt (h x List.mem_cons_self)

/-- No field of the list meets bits [lo + n − 1 : lo]. -/
def apart (lo n : Nat) (xs : List Slot) : Bool := xs.all fun x => lo + n ≤ x.lo || x.lo + x.n ≤ lo

theorem apart_spec {lo n : Nat} {xs : List Slot} (h : apart lo n xs = true) :
    ∀ x ∈ xs, lo + n ≤ x.lo ∨ x.lo + x.n ≤ lo := by
  simpa [apart] using h

/-- Bits that no field covers read as the fixed word's. -/
theorem fld_fixed {f lo n : Nat} (xs : List Slot) (ok : layoutOk f xs = true) (a : apart lo n xs = true) :
    fld (place f (xs.map Slot.pair)) lo n = fld f lo n :=
  place_keeps xs f f lo n (fun _ h => h) ok (apart_spec a)

theorem fld_slot_aux (pre : List Slot) : ∀ (f m : Nat) (x : Slot) (post : List Slot), Under f m →
    layoutOk m (pre ++ x :: post) = true → apart x.lo x.n post = true →
    fld (place f ((pre ++ x :: post).map Slot.pair)) x.lo x.n = x.v.toNat := by
  induction pre with
  | nil =>
    intro f m x post u ok a
    simp only [List.nil_append, layoutOk, Bool.and_eq_true, beq_iff_eq] at ok
    have z := fld_zero_of_under u ok.1
    have := place_keeps post (f + x.v.toNat * 2 ^ x.lo) _ x.lo x.n (under_add u ok.1 x.v.isLt) ok.2 (apart_spec a)
    show fld (place (f + x.v.toNat * 2 ^ x.lo) (post.map Slot.pair)) x.lo x.n = _
    rw [this, fld_add_same _ z]
  | cons y ys ih =>
    intro f m x post u ok a
    simp only [List.cons_append, layoutOk, Bool.and_eq_true, beq_iff_eq] at ok
    exact ih _ _ x post (under_add u ok.1 y.v.isLt) ok.2 a

/-- A field's bits read as the value placed there. -/
theorem fbv_slot {f : Nat} (pre : List Slot) (x : Slot) (post : List Slot) (ok : layoutOk f (pre ++ x :: post) = true)
    (a : apart x.lo x.n post = true) : fbv (place f ((pre ++ x :: post).map Slot.pair)) x.lo x.n = x.v := by
  apply BitVec.eq_of_toNat_eq
  have := fld_slot_aux pre f f x post (fun _ h => h) ok a
  simpa [fbv, fld] using this

/-- The positions and widths of the fields, without their values. -/
def shape (xs : List Slot) : List (Nat × Nat) := xs.map fun x => (x.lo, x.n)

/-- `layoutOk` of the positions and widths. -/
def shapeOk (m : Nat) : List (Nat × Nat) → Bool
  | [] => true
  | x :: xs => fld m x.1 x.2 == 0 && shapeOk (m + (2 ^ x.2 - 1) * 2 ^ x.1) xs

/-- `apart` of the positions and widths. -/
def shapeApart (lo n : Nat) (xs : List (Nat × Nat)) : Bool := xs.all fun x => lo + n ≤ x.1 || x.1 + x.2 ≤ lo

theorem shapeOk_eq (xs : List Slot) : ∀ m, shapeOk m (shape xs) = layoutOk m xs := by
  induction xs with
  | nil => intro m; rfl
  | cons x xs ih => intro m; simp only [layoutOk, ← ih]; rfl

theorem shapeApart_eq (lo n : Nat) (xs : List Slot) : shapeApart lo n (shape xs) = apart lo n xs := by
  simp [shapeApart, apart, shape, List.all_map, Function.comp_def]

/-- A fixed field of an encoded word. -/
theorem fld_of {w f : Nat} {xs : List Slot} {sh : List (Nat × Nat)} (hw : place f (xs.map Slot.pair) = w)
    (hs : shape xs = sh) (lo n v : Nat) (ok : shapeOk f sh = true) (a : shapeApart lo n sh = true) (hv : fld f lo n = v) :
    fld w lo n = v := by
  subst hs
  rw [← hw, fld_fixed xs (shapeOk_eq xs f ▸ ok) (shapeApart_eq lo n xs ▸ a), hv]

/-- An operand field of an encoded word, the `k`th of its list. -/
theorem fbv_of {w f : Nat} {xs : List Slot} {sh : List (Nat × Nat)} (hw : place f (xs.map Slot.pair) = w)
    (hs : shape xs = sh) (k lo n : Nat) (v : BitVec n) (ok : shapeOk f sh = true) (h : xs[k]? = some ⟨lo, n, v⟩)
    (a : shapeApart lo n (sh.drop (k + 1)) = true) : fbv w lo n = v := by
  subst hs
  have ok := shapeOk_eq xs f ▸ ok
  have a : apart lo n (xs.drop (k + 1)) = true := by
    rw [← shapeApart_eq, shape, List.map_drop]; exact a
  obtain ⟨hk, hx⟩ := List.getElem?_eq_some_iff.mp h
  have e : xs = xs.take k ++ (⟨lo, n, v⟩ : Slot) :: xs.drop (k + 1) := by
    rw [← hx, ← List.drop_eq_getElem_cons hk, List.take_append_drop]
  rw [e] at ok hw
  rw [← hw]
  exact fbv_slot _ ⟨lo, n, v⟩ _ ok a

theorem gate_ok {r : Bool} {i : Instr} (hr : r = false) (wf : i.wf = true) : gate r i = .ok i := by
  simp [gate, hr, wf]

theorem policyGate_ok {r : Bool} {i : Instr} (hr : r = false) (wf : i.wf = true) : policyGate r i = .ok i := by
  simp [policyGate, hr, wf]

theorem rmGate_ok {r : Bool} {i : Instr} (hr : r = false) : rmGate r i = .command i := by
  simp [rmGate, hr]

end Sys2Proof.Laws
end

