-- ==== Sys2Proof/Laws/Memory.lean ====
section
/-!
SUPPORT. Memory: every operation over it keeps the canonical form, a byte written is the byte read, and no other byte changes.
-/

namespace Sys2Proof.Machine

/-! ### The canonical list -/

theorem Memory.wfFrom_mono {lo lo' : Nat} (h : lo' ≤ lo) (m : List Host.Cell) (hm : Memory.wfFrom lo m = true) :
    Memory.wfFrom lo' m = true := by
  cases m with
  | nil => rfl
  | cons c m =>
    simp only [Memory.wfFrom, Bool.and_eq_true, decide_eq_true_eq] at hm ⊢
    exact ⟨⟨by omega, hm.1.2⟩, hm.2⟩

theorem Memory.wfFrom_put {lo a : Nat} {m : List Host.Cell} (b : Byte) (ha : lo ≤ a) (hm : Memory.wfFrom (a + 1) m = true) :
    Memory.wfFrom lo (Memory.put a b m) = true := by
  unfold Memory.put
  split
  · exact Memory.wfFrom_mono (by omega) m hm
  · simp_all [Memory.wfFrom]

/-- A byte written keeps the canonical form. -/
theorem Memory.wfFrom_write (m : List Host.Cell) (lo a : Nat) (b : Byte) (ha : lo ≤ a) (hm : Memory.wfFrom lo m = true) :
    Memory.wfFrom lo (Memory.write m a b) = true := by
  induction m generalizing lo with
  | nil => exact Memory.wfFrom_put b ha rfl
  | cons c m ih =>
    obtain ⟨x, v⟩ := c
    simp only [Memory.wfFrom, Bool.and_eq_true, decide_eq_true_eq] at hm
    simp only [Memory.write]
    split
    · next h => subst h; exact Memory.wfFrom_put b ha hm.2
    · split
      · next h => exact Memory.wfFrom_put b ha (by simp only [Memory.wfFrom, Bool.and_eq_true, decide_eq_true_eq]; exact ⟨⟨h, hm.1.2⟩, hm.2⟩)
      · next h1 h2 =>
        simp only [Memory.wfFrom, Bool.and_eq_true, decide_eq_true_eq]
        exact ⟨⟨hm.1.1, hm.1.2⟩, ih (x + 1) (by omega) hm.2⟩

theorem Memory.wf_write (m : List Host.Cell) (a : Nat) (b : Byte) (hm : Memory.wf m = true) : Memory.wf (Memory.write m a b) = true :=
  Memory.wfFrom_write m 0 a b (Nat.zero_le a) hm

theorem Memory.wf_writeBytes (bs : List Byte) (m : List Host.Cell) (a : Nat) (hm : Memory.wf m = true) :
    Memory.wf (Memory.writeBytes m a bs) = true := by
  induction bs generalizing m a with
  | nil => exact hm
  | cons b bs ih => exact ih _ _ (Memory.wf_write m a b hm)

/-- A list without some of its bytes is canonical. -/
theorem Memory.wfFrom_filter (p : Host.Cell → Bool) (m : List Host.Cell) (lo : Nat) (hm : Memory.wfFrom lo m = true) :
    Memory.wfFrom lo (m.filter p) = true := by
  induction m generalizing lo with
  | nil => rfl
  | cons c m ih =>
    simp only [Memory.wfFrom, Bool.and_eq_true, decide_eq_true_eq] at hm
    rw [List.filter_cons]
    split
    · simp only [Memory.wfFrom, Bool.and_eq_true, decide_eq_true_eq]
      exact ⟨hm.1, ih _ hm.2⟩
    · exact ih lo (Memory.wfFrom_mono (by omega) m hm.2)

theorem Memory.wf_filter (p : Host.Cell → Bool) (m : List Host.Cell) (hm : Memory.wf m = true) : Memory.wf (m.filter p) = true :=
  Memory.wfFrom_filter p m 0 hm

/-! ### Reading after writing -/

/-- An address below every listed one reads as an unlisted one. -/
theorem Memory.read_below {lo a : Nat} (m : List Host.Cell) (hm : Memory.wfFrom lo m = true) (ha : a < lo) :
    Memory.read m a = Config.coldByte := by
  cases m with
  | nil => rfl
  | cons c m =>
    simp only [Memory.wfFrom, Bool.and_eq_true, decide_eq_true_eq] at hm
    simp only [Memory.read]
    rw [if_neg (by omega), if_pos (by omega)]

theorem Memory.read_put {x a : Nat} (b : Byte) (m : List Host.Cell) (hm : Memory.wfFrom (x + 1) m = true) :
    Memory.read (Memory.put x b m) a = if a = x then b else if a < x then Config.coldByte else Memory.read m a := by
  unfold Memory.put
  split
  · next h =>
    subst h
    split
    · exact Memory.read_below m hm (by omega)
    · split
      · exact Memory.read_below m hm (by omega)
      · rfl
  · rfl

/-- A byte written is the byte read at its address, and every other address reads as before. -/
theorem Memory.read_write (m : List Host.Cell) (lo x a : Nat) (b : Byte) (hm : Memory.wfFrom lo m = true) :
    Memory.read (Memory.write m x b) a = if a = x then b else Memory.read m a := by
  induction m generalizing lo with
  | nil =>
    show Memory.read (Memory.put x b []) a = _
    rw [Memory.read_put b [] rfl]
    simp [Memory.read]
  | cons c m ih =>
    obtain ⟨y, v⟩ := c
    simp only [Memory.wfFrom, Bool.and_eq_true, decide_eq_true_eq] at hm
    simp only [Memory.write]
    split
    · next h =>
      subst h
      rw [Memory.read_put b m hm.2]
      simp only [Memory.read]
      split <;> simp_all
    · split
      · next h1 h2 =>
        rw [Memory.read_put b _ (by simp only [Memory.wfFrom, Bool.and_eq_true, decide_eq_true_eq]; exact ⟨⟨h2, hm.1.2⟩, hm.2⟩)]
        simp only [Memory.read]
        by_cases h3 : a = x
        · simp [h3]
        · by_cases h4 : a < x
          · rw [if_neg h3, if_pos h4, if_neg h3, if_neg (by omega), if_pos (by omega)]
          · rw [if_neg h3, if_neg h4, if_neg h3]
      · next h1 h2 =>
        simp only [Memory.read, ih (y + 1) hm.2]
        by_cases h3 : a = x
        · subst h3; simp [h1, h2]
        · simp [h3]

/-- A byte string written is what its addresses read as, and every other address reads as before. -/
theorem Memory.read_writeBytes (bs : List Byte) (m : List Host.Cell) (x a : Nat) (hm : Memory.wf m = true) :
    Memory.read (Memory.writeBytes m x bs) a = if x ≤ a ∧ a < x + bs.length then bs.getD (a - x) 0 else Memory.read m a := by
  induction bs generalizing m x with
  | nil => simp [Memory.writeBytes] <;> omega
  | cons b bs ih =>
    simp only [Memory.writeBytes, ih _ (x + 1) (Memory.wf_write m x b hm), Memory.read_write m 0 x a b hm, List.length_cons]
    by_cases h : a = x
    · subst h; simp <;> omega
    · by_cases h1 : x + 1 ≤ a ∧ a < x + 1 + bs.length
      · rw [if_pos h1, if_pos (by omega)]
        obtain ⟨k, rfl⟩ : ∃ k, a = x + 1 + k := ⟨a - (x + 1), by omega⟩
        rw [show x + 1 + k - (x + 1) = k by omega, show x + 1 + k - x = k + 1 by omega, List.getD_cons_succ]
      · rw [if_neg h1, if_neg h, if_neg (by omega)]

/-! ### The operations of the machine over memory -/

theorem MemOk.of_mem {s t : State} (h : t.mem = s.mem) (hs : MemOk s) : MemOk t := by unfold MemOk; rw [h]; exact hs

theorem State.rekey_memOk (s : State) (key : Key) (line : Nat) (h : MemOk s) : MemOk (s.rekey key line) := by
  unfold State.rekey
  split
  · exact h
  · split
    · exact h
    · generalize s.bytesAt key (64 * line) 64 = bs
      exact Memory.wf_writeBytes bs s.mem (64 * line) h

theorem State.rekeys_memOk (key : Key) (ls : List Nat) (s : State) (h : MemOk s) :
    MemOk (ls.foldl (fun s l => s.rekey key l) s) := by
  induction ls generalizing s with
  | nil => exact h
  | cons l ls ih => exact ih _ (s.rekey_memOk key l h)

theorem State.putBytes_memOk (s : State) (key : Key) (pa : Nat) (bs : List Byte) (h : MemOk s) : MemOk (s.putBytes key pa bs) := by
  have last (s1 : State) (h1 : MemOk s1) :
      MemOk (({ s1 with mem := Memory.writeBytes s1.mem pa bs } : State).clearPoison pa bs.length) :=
    Memory.wf_writeBytes bs s1.mem pa h1
  unfold State.putBytes
  apply last
  split
  · exact State.rekeys_memOk key _ s h
  · exact h

theorem State.putNum_memOk (s : State) (key : Key) (pa n v : Nat) (h : MemOk s) : MemOk (s.putNum key pa n v) := s.putBytes_memOk key pa _ h

theorem State.setPoison_mem (s : State) (l : Nat) : (s.setPoison l).mem = s.mem := by unfold State.setPoison; split <;> rfl

theorem State.setPoisons_mem (ls : List Nat) (s : State) : (ls.foldl State.setPoison s).mem = s.mem := by
  induction ls generalizing s with
  | nil => rfl
  | cons l ls ih => exact (ih _).trans (s.setPoison_mem l)

theorem State.putRuns_memOk (key : Key) (rs : List (Nat × List Byte)) (s : State) (h : MemOk s) :
    MemOk (rs.foldl (fun s x => s.putBytes key x.1 x.2) s) := by
  induction rs generalizing s with
  | nil => exact h
  | cons r rs ih => exact ih _ (s.putBytes_memOk key r.1 r.2 h)

/-- A slice's counts and what it returns leave the memory alone. -/
theorem State.countWrite_mem (s : State) (slice : BitVec 7) (c : CellId) (ph : BitVec 2) : (s.countWrite slice c ph).mem = s.mem := by
  unfold State.countWrite
  split
  · dsimp only; split <;> rfl
  · dsimp only; split
    · rfl
    · split <;> rfl

theorem State.performWrite_memOk (s : State) (r : SliceReq) (h : MemOk s) : MemOk (s.performWrite r) := by
  have h1 := State.putRuns_memOk r.key (runsOf r.bytes) s h
  unfold State.performWrite
  simp only
  have h2 : MemOk (if r.poison then (linesOf r.pa r.len).foldl State.setPoison ((runsOf r.bytes).foldl (fun s x => s.putBytes r.key x.1 x.2) s)
      else (runsOf r.bytes).foldl (fun s x => s.putBytes r.key x.1 x.2) s) := by
    split
    · exact MemOk.of_mem (State.setPoisons_mem _ _) h1
    · exact h1
  split
  · exact h2
  · exact MemOk.of_mem (State.countWrite_mem _ _ _ _) h2

theorem State.performWrites_memOk (rs : List SliceReq) (s : State) (h : MemOk s) : MemOk (rs.foldl State.performWrite s) := by
  induction rs generalizing s with
  | nil => exact h
  | cons r rs ih => exact ih _ (s.performWrite_memOk r h)

theorem State.flush_memOk (s : State) (q : BitVec 7) (h : MemOk s) : MemOk (s.flush q) :=
  State.performWrites_memOk _ _ (MemOk.of_mem rfl h)

theorem State.flushOver_memOk (s : State) (q : BitVec 7) (pa n : Nat) (h : MemOk s) : MemOk (s.flushOver q pa n) := by
  unfold State.flushOver; dsimp only; split
  · exact h
  · exact State.performWrites_memOk _ _ (MemOk.of_mem rfl h)

/-- What settling keeps is the canonical form. -/
theorem State.settle_memOk (s : State) (a : Agent) (h : MemOk s) : MemOk (s.settle a) := by
  unfold State.settle; dsimp only; split
  · exact State.performWrites_memOk _ _ (MemOk.of_mem rfl h)
  · exact h

/-! ### What performing a store changes -/

/-- A state without memory, its keys and poison marks, the row managers' reservations, and the requests that have been issued. -/
def State.bare (s : State) : State :=
  { s with mem := [], lineKey := [], poison := [], pend := [], rms := s.rms.map (fun p => (p.1, { p.2 with resv := none })) }

theorem State.putBytes_bare (s : State) (key : Key) (pa : Nat) (bs : List Byte) : (s.putBytes key pa bs).bare = s.bare := by
  have one (s : State) (l : Nat) : (s.rekey key l).bare = s.bare := by
    unfold State.rekey
    split
    · rfl
    · split
      · rfl
      · generalize s.bytesAt key (64 * l) 64 = bs
        generalize Memory.writeBytes s.mem (64 * l) bs = m
        rfl
  have rekeys (ls : List Nat) (s : State) : (ls.foldl (fun s l => s.rekey key l) s).bare = s.bare := by
    induction ls generalizing s with
    | nil => rfl
    | cons l ls ih => exact (ih _).trans (one s l)
  have last (s1 : State) : (({ s1 with
      mem := Memory.writeBytes s1.mem pa bs,
      rms := s1.rms.map (fun p => (p.1, p.2.unreserve pa bs.length)) } : State).clearPoison pa bs.length).bare = s1.bare := by
    generalize Memory.writeBytes s1.mem pa bs = m
    simp only [State.bare, State.clearPoison, List.map_map, State.mk.injEq, true_and, and_true]
    rfl
  unfold State.putBytes; dsimp only
  rw [last]
  split
  · exact rekeys (linesOf pa bs.length) s
  · rfl

/-- A sequencer's store that is performed touches memory, its keys, its poison marks and reservations alone. -/
theorem State.performWrite_bare {s : State} {r : SliceReq} {q : BitVec 7} (h : r.src = .seq q) : (s.performWrite r).bare = s.bare := by
  have runs (l : List (Nat × List Byte)) (s : State) : (l.foldl (fun s x => s.putBytes r.key x.1 x.2) s).bare = s.bare := by
    induction l generalizing s with
    | nil => rfl
    | cons x l ih => exact (ih _).trans (s.putBytes_bare r.key x.1 x.2)
  have marks (l : List Nat) (s : State) : (l.foldl State.setPoison s).bare = s.bare := by
    induction l generalizing s with
    | nil => rfl
    | cons x l ih => exact (ih _).trans (by unfold State.setPoison; split <;> rfl)
  unfold State.performWrite; dsimp only; rw [h]; dsimp only
  split
  · exact (marks _ _).trans (runs _ s)
  · exact runs _ s

theorem State.performWrites_bare (l : List SliceReq) (s : State) (h : ∀ r ∈ l, ∃ q, r.src = .seq q) :
    (l.foldl State.performWrite s).bare = s.bare := by
  induction l generalizing s with
  | nil => rfl
  | cons r l ih =>
    obtain ⟨q, hq⟩ := h r (List.mem_cons_self ..)
    exact (ih _ fun x hx => h x (List.mem_cons_of_mem _ hx)).trans (State.performWrite_bare hq)

/-- Settling touches memory, its keys, its poison marks, reservations and the issued stores alone. -/
theorem State.settle_bare (s : State) (a : Agent) : (s.settle a).bare = s.bare := by
  unfold State.settle; dsimp only; split
  · refine State.performWrites_bare _ _ fun r hr => ?_
    have := (List.mem_filter.1 hr).2
    split at this
    · exact ⟨_, ‹_›⟩
    · exact absurd this Bool.false_ne_true
  · rfl

/-- Where no issued store is ordered before a later access, settling does nothing. -/
theorem State.settle_unordered (s : State) (a : Agent) (h : ∀ r ∈ s.pend, r.bound = 0) : s.settle a = s := by
  unfold State.settle; dsimp only
  rw [if_neg]
  rw [Bool.not_eq_true, List.any_eq_false]
  intro r hr
  split
  · simp [State.reaches, h r hr]
  · exact Bool.false_ne_true

theorem State.issueStore_mem (s : State) (q : BitVec 7) (key : Key) (pa : Nat) (bs : List Byte) : (s.issueStore q key pa bs).mem = s.mem := rfl

/-- The memory of the machine at reset is in its canonical form. -/
theorem State.reset_memOk : MemOk State.reset := rfl

/-! ### Association lists -/

theorem aget_aset {α β : Type} [DecidableEq α] (l : List (α × β)) (a b : α) (v : β) :
    aget (aset l a v) b = if b = a then some v else aget l b := by
  induction l with
  | nil => simp [aset, aget]
  | cons p l ih =>
    obtain ⟨k, w⟩ := p
    simp only [aset]
    split
    · next h => subst h; simp only [aget]; split <;> rfl
    · next h =>
      simp only [aget, ih]
      split
      · next h1 => subst h1; simp [Ne.symm h]
      · rfl

theorem aget_adel {α β : Type} [DecidableEq α] (l : List (α × β)) (a b : α) :
    aget (adel l a) b = if b = a then none else aget l b := by
  unfold adel
  induction l with
  | nil => simp [aget]
  | cons p l ih =>
    obtain ⟨k, w⟩ := p
    rw [List.filter_cons]
    split
    · next h =>
      simp only [aget, ih]
      have : k ≠ a := by simpa using h
      split
      · next h1 => subst h1; simp [this]
      · rfl
    · next h =>
      have : k = a := by simpa using h
      subst this
      rw [ih]
      simp only [aget]
      split <;> simp_all

end Sys2Proof.Machine
end

