-- ==== Sys2Proof/Laws/State.lean ====
section
/-!
SUPPORT. What the updates of the machine leave as it was, field by field, and what reading a part after changing it gives.
-/

namespace Sys2Proof.Machine

/-! ### Every update and every field that it does not change -/
@[simp] theorem State.setSeq_mem (s : State) (q : BitVec 7) (v : Seq) : (s.setSeq q v).mem = s.mem := rfl
@[simp] theorem State.setSeq_lineKey (s : State) (q : BitVec 7) (v : Seq) : (s.setSeq q v).lineKey = s.lineKey := rfl
@[simp] theorem State.setSeq_poison (s : State) (q : BitVec 7) (v : Seq) : (s.setSeq q v).poison = s.poison := rfl
@[simp] theorem State.setSeq_pend (s : State) (q : BitVec 7) (v : Seq) : (s.setSeq q v).pend = s.pend := rfl
@[simp] theorem State.setSeq_counts (s : State) (q : BitVec 7) (v : Seq) : (s.setSeq q v).counts = s.counts := rfl
@[simp] theorem State.setSeq_cells (s : State) (q : BitVec 7) (v : Seq) : (s.setSeq q v).cells = s.cells := rfl
@[simp] theorem State.setSeq_regions (s : State) (q : BitVec 7) (v : Seq) : (s.setSeq q v).regions = s.regions := rfl
@[simp] theorem State.setSeq_dies (s : State) (q : BitVec 7) (v : Seq) : (s.setSeq q v).dies = s.dies := rfl
@[simp] theorem State.setSeq_ctxs (s : State) (q : BitVec 7) (v : Seq) : (s.setSeq q v).ctxs = s.ctxs := rfl
@[simp] theorem State.setSeq_slots (s : State) (q : BitVec 7) (v : Seq) : (s.setSeq q v).slots = s.slots := rfl
@[simp] theorem State.setSeq_rms (s : State) (q : BitVec 7) (v : Seq) : (s.setSeq q v).rms = s.rms := rfl
@[simp] theorem State.setSeq_wires (s : State) (q : BitVec 7) (v : Seq) : (s.setSeq q v).wires = s.wires := rfl
@[simp] theorem State.setSeq_pulses (s : State) (q : BitVec 7) (v : Seq) : (s.setSeq q v).pulses = s.pulses := rfl
@[simp] theorem State.setSeq_queries (s : State) (q : BitVec 7) (v : Seq) : (s.setSeq q v).queries = s.queries := rfl
@[simp] theorem State.setSeq_softqs (s : State) (q : BitVec 7) (v : Seq) : (s.setSeq q v).softqs = s.softqs := rfl
@[simp] theorem State.setSeq_rings (s : State) (q : BitVec 7) (v : Seq) : (s.setSeq q v).rings = s.rings := rfl
@[simp] theorem State.setSeq_cseqs (s : State) (q : BitVec 7) (v : Seq) : (s.setSeq q v).cseqs = s.cseqs := rfl
@[simp] theorem State.setSeq_islands (s : State) (q : BitVec 7) (v : Seq) : (s.setSeq q v).islands = s.islands := rfl
@[simp] theorem State.setSeq_freqSteps (s : State) (q : BitVec 7) (v : Seq) : (s.setSeq q v).freqSteps = s.freqSteps := rfl
@[simp] theorem State.setSeq_powered (s : State) (q : BitVec 7) (v : Seq) : (s.setSeq q v).powered = s.powered := rfl
@[simp] theorem State.setSeq_selfHosted (s : State) (q : BitVec 7) (v : Seq) : (s.setSeq q v).selfHosted = s.selfHosted := rfl
@[simp] theorem State.setSeq_hostUp (s : State) (q : BitVec 7) (v : Seq) : (s.setSeq q v).hostUp = s.hostUp := rfl
@[simp] theorem State.setSeq_turns (s : State) (q : BitVec 7) (v : Seq) : (s.setSeq q v).turns = s.turns := rfl
@[simp] theorem State.setSeq_seqTurn (s : State) (q : BitVec 7) (v : Seq) : (s.setSeq q v).seqTurn = s.seqTurn := rfl
@[simp] theorem State.setSeq_nodeTurn (s : State) (q : BitVec 7) (v : Seq) : (s.setSeq q v).nodeTurn = s.nodeTurn := rfl
@[simp] theorem State.setSeq_polTurn (s : State) (q : BitVec 7) (v : Seq) : (s.setSeq q v).polTurn = s.polTurn := rfl
@[simp] theorem State.setSeq_rmTurn (s : State) (q : BitVec 7) (v : Seq) : (s.setSeq q v).rmTurn = s.rmTurn := rfl
@[simp] theorem State.setSeq_fresh (s : State) (q : BitVec 7) (v : Seq) : (s.setSeq q v).fresh = s.fresh := rfl
@[simp] theorem State.setSeq_cyc (s : State) (q : BitVec 7) (v : Seq) : (s.setSeq q v).cyc = s.cyc := rfl
@[simp] theorem State.setSeq_acted (s : State) (q : BitVec 7) (v : Seq) : (s.setSeq q v).acted = s.acted := rfl
@[simp] theorem State.setSeq_die (s : State) (q : BitVec 7) (v : Seq) (e : BitVec 3) : (s.setSeq q v).die e = s.die e := rfl
@[simp] theorem State.setSeq_cell (s : State) (q : BitVec 7) (v : Seq) (b : CellId) : (s.setSeq q v).cell b = s.cell b := rfl
@[simp] theorem State.setSeq_ctx (s : State) (q : BitVec 7) (v : Seq) (k : BitVec 9) : (s.setSeq q v).ctx k = s.ctx k := rfl
@[simp] theorem State.setSeq_rm (s : State) (q : BitVec 7) (v : Seq) (j : BitVec 10) : (s.setSeq q v).rm j = s.rm j := rfl
@[simp] theorem State.setSeq_region (s : State) (q : BitVec 7) (v : Seq) (i : Nat) : (s.setSeq q v).region i = s.region i := rfl
@[simp] theorem State.modSeq_mem (s : State) (q : BitVec 7) (f : Seq → Seq) : (s.modSeq q f).mem = s.mem := rfl
@[simp] theorem State.modSeq_lineKey (s : State) (q : BitVec 7) (f : Seq → Seq) : (s.modSeq q f).lineKey = s.lineKey := rfl
@[simp] theorem State.modSeq_poison (s : State) (q : BitVec 7) (f : Seq → Seq) : (s.modSeq q f).poison = s.poison := rfl
@[simp] theorem State.modSeq_pend (s : State) (q : BitVec 7) (f : Seq → Seq) : (s.modSeq q f).pend = s.pend := rfl
@[simp] theorem State.modSeq_counts (s : State) (q : BitVec 7) (f : Seq → Seq) : (s.modSeq q f).counts = s.counts := rfl
@[simp] theorem State.modSeq_cells (s : State) (q : BitVec 7) (f : Seq → Seq) : (s.modSeq q f).cells = s.cells := rfl
@[simp] theorem State.modSeq_regions (s : State) (q : BitVec 7) (f : Seq → Seq) : (s.modSeq q f).regions = s.regions := rfl
@[simp] theorem State.modSeq_dies (s : State) (q : BitVec 7) (f : Seq → Seq) : (s.modSeq q f).dies = s.dies := rfl
@[simp] theorem State.modSeq_ctxs (s : State) (q : BitVec 7) (f : Seq → Seq) : (s.modSeq q f).ctxs = s.ctxs := rfl
@[simp] theorem State.modSeq_slots (s : State) (q : BitVec 7) (f : Seq → Seq) : (s.modSeq q f).slots = s.slots := rfl
@[simp] theorem State.modSeq_rms (s : State) (q : BitVec 7) (f : Seq → Seq) : (s.modSeq q f).rms = s.rms := rfl
@[simp] theorem State.modSeq_wires (s : State) (q : BitVec 7) (f : Seq → Seq) : (s.modSeq q f).wires = s.wires := rfl
@[simp] theorem State.modSeq_pulses (s : State) (q : BitVec 7) (f : Seq → Seq) : (s.modSeq q f).pulses = s.pulses := rfl
@[simp] theorem State.modSeq_queries (s : State) (q : BitVec 7) (f : Seq → Seq) : (s.modSeq q f).queries = s.queries := rfl
@[simp] theorem State.modSeq_softqs (s : State) (q : BitVec 7) (f : Seq → Seq) : (s.modSeq q f).softqs = s.softqs := rfl
@[simp] theorem State.modSeq_rings (s : State) (q : BitVec 7) (f : Seq → Seq) : (s.modSeq q f).rings = s.rings := rfl
@[simp] theorem State.modSeq_cseqs (s : State) (q : BitVec 7) (f : Seq → Seq) : (s.modSeq q f).cseqs = s.cseqs := rfl
@[simp] theorem State.modSeq_islands (s : State) (q : BitVec 7) (f : Seq → Seq) : (s.modSeq q f).islands = s.islands := rfl
@[simp] theorem State.modSeq_freqSteps (s : State) (q : BitVec 7) (f : Seq → Seq) : (s.modSeq q f).freqSteps = s.freqSteps := rfl
@[simp] theorem State.modSeq_powered (s : State) (q : BitVec 7) (f : Seq → Seq) : (s.modSeq q f).powered = s.powered := rfl
@[simp] theorem State.modSeq_selfHosted (s : State) (q : BitVec 7) (f : Seq → Seq) : (s.modSeq q f).selfHosted = s.selfHosted := rfl
@[simp] theorem State.modSeq_hostUp (s : State) (q : BitVec 7) (f : Seq → Seq) : (s.modSeq q f).hostUp = s.hostUp := rfl
@[simp] theorem State.modSeq_turns (s : State) (q : BitVec 7) (f : Seq → Seq) : (s.modSeq q f).turns = s.turns := rfl
@[simp] theorem State.modSeq_seqTurn (s : State) (q : BitVec 7) (f : Seq → Seq) : (s.modSeq q f).seqTurn = s.seqTurn := rfl
@[simp] theorem State.modSeq_nodeTurn (s : State) (q : BitVec 7) (f : Seq → Seq) : (s.modSeq q f).nodeTurn = s.nodeTurn := rfl
@[simp] theorem State.modSeq_polTurn (s : State) (q : BitVec 7) (f : Seq → Seq) : (s.modSeq q f).polTurn = s.polTurn := rfl
@[simp] theorem State.modSeq_rmTurn (s : State) (q : BitVec 7) (f : Seq → Seq) : (s.modSeq q f).rmTurn = s.rmTurn := rfl
@[simp] theorem State.modSeq_fresh (s : State) (q : BitVec 7) (f : Seq → Seq) : (s.modSeq q f).fresh = s.fresh := rfl
@[simp] theorem State.modSeq_cyc (s : State) (q : BitVec 7) (f : Seq → Seq) : (s.modSeq q f).cyc = s.cyc := rfl
@[simp] theorem State.modSeq_acted (s : State) (q : BitVec 7) (f : Seq → Seq) : (s.modSeq q f).acted = s.acted := rfl
@[simp] theorem State.modSeq_die (s : State) (q : BitVec 7) (f : Seq → Seq) (e : BitVec 3) : (s.modSeq q f).die e = s.die e := rfl
@[simp] theorem State.modSeq_cell (s : State) (q : BitVec 7) (f : Seq → Seq) (b : CellId) : (s.modSeq q f).cell b = s.cell b := rfl
@[simp] theorem State.modSeq_ctx (s : State) (q : BitVec 7) (f : Seq → Seq) (k : BitVec 9) : (s.modSeq q f).ctx k = s.ctx k := rfl
@[simp] theorem State.modSeq_rm (s : State) (q : BitVec 7) (f : Seq → Seq) (j : BitVec 10) : (s.modSeq q f).rm j = s.rm j := rfl
@[simp] theorem State.modSeq_region (s : State) (q : BitVec 7) (f : Seq → Seq) (i : Nat) : (s.modSeq q f).region i = s.region i := rfl
@[simp] theorem State.setDie_mem (s : State) (d : BitVec 3) (v : Die) : (s.setDie d v).mem = s.mem := rfl
@[simp] theorem State.setDie_lineKey (s : State) (d : BitVec 3) (v : Die) : (s.setDie d v).lineKey = s.lineKey := rfl
@[simp] theorem State.setDie_poison (s : State) (d : BitVec 3) (v : Die) : (s.setDie d v).poison = s.poison := rfl
@[simp] theorem State.setDie_pend (s : State) (d : BitVec 3) (v : Die) : (s.setDie d v).pend = s.pend := rfl
@[simp] theorem State.setDie_counts (s : State) (d : BitVec 3) (v : Die) : (s.setDie d v).counts = s.counts := rfl
@[simp] theorem State.setDie_seqs (s : State) (d : BitVec 3) (v : Die) : (s.setDie d v).seqs = s.seqs := rfl
@[simp] theorem State.setDie_cells (s : State) (d : BitVec 3) (v : Die) : (s.setDie d v).cells = s.cells := rfl
@[simp] theorem State.setDie_regions (s : State) (d : BitVec 3) (v : Die) : (s.setDie d v).regions = s.regions := rfl
@[simp] theorem State.setDie_ctxs (s : State) (d : BitVec 3) (v : Die) : (s.setDie d v).ctxs = s.ctxs := rfl
@[simp] theorem State.setDie_slots (s : State) (d : BitVec 3) (v : Die) : (s.setDie d v).slots = s.slots := rfl
@[simp] theorem State.setDie_rms (s : State) (d : BitVec 3) (v : Die) : (s.setDie d v).rms = s.rms := rfl
@[simp] theorem State.setDie_wires (s : State) (d : BitVec 3) (v : Die) : (s.setDie d v).wires = s.wires := rfl
@[simp] theorem State.setDie_pulses (s : State) (d : BitVec 3) (v : Die) : (s.setDie d v).pulses = s.pulses := rfl
@[simp] theorem State.setDie_queries (s : State) (d : BitVec 3) (v : Die) : (s.setDie d v).queries = s.queries := rfl
@[simp] theorem State.setDie_softqs (s : State) (d : BitVec 3) (v : Die) : (s.setDie d v).softqs = s.softqs := rfl
@[simp] theorem State.setDie_rings (s : State) (d : BitVec 3) (v : Die) : (s.setDie d v).rings = s.rings := rfl
@[simp] theorem State.setDie_cseqs (s : State) (d : BitVec 3) (v : Die) : (s.setDie d v).cseqs = s.cseqs := rfl
@[simp] theorem State.setDie_islands (s : State) (d : BitVec 3) (v : Die) : (s.setDie d v).islands = s.islands := rfl
@[simp] theorem State.setDie_freqSteps (s : State) (d : BitVec 3) (v : Die) : (s.setDie d v).freqSteps = s.freqSteps := rfl
@[simp] theorem State.setDie_powered (s : State) (d : BitVec 3) (v : Die) : (s.setDie d v).powered = s.powered := rfl
@[simp] theorem State.setDie_selfHosted (s : State) (d : BitVec 3) (v : Die) : (s.setDie d v).selfHosted = s.selfHosted := rfl
@[simp] theorem State.setDie_hostUp (s : State) (d : BitVec 3) (v : Die) : (s.setDie d v).hostUp = s.hostUp := rfl
@[simp] theorem State.setDie_turns (s : State) (d : BitVec 3) (v : Die) : (s.setDie d v).turns = s.turns := rfl
@[simp] theorem State.setDie_seqTurn (s : State) (d : BitVec 3) (v : Die) : (s.setDie d v).seqTurn = s.seqTurn := rfl
@[simp] theorem State.setDie_nodeTurn (s : State) (d : BitVec 3) (v : Die) : (s.setDie d v).nodeTurn = s.nodeTurn := rfl
@[simp] theorem State.setDie_polTurn (s : State) (d : BitVec 3) (v : Die) : (s.setDie d v).polTurn = s.polTurn := rfl
@[simp] theorem State.setDie_rmTurn (s : State) (d : BitVec 3) (v : Die) : (s.setDie d v).rmTurn = s.rmTurn := rfl
@[simp] theorem State.setDie_fresh (s : State) (d : BitVec 3) (v : Die) : (s.setDie d v).fresh = s.fresh := rfl
@[simp] theorem State.setDie_cyc (s : State) (d : BitVec 3) (v : Die) : (s.setDie d v).cyc = s.cyc := rfl
@[simp] theorem State.setDie_acted (s : State) (d : BitVec 3) (v : Die) : (s.setDie d v).acted = s.acted := rfl
@[simp] theorem State.setDie_seq (s : State) (d : BitVec 3) (v : Die) (x : BitVec 7) : (s.setDie d v).seq x = s.seq x := rfl
@[simp] theorem State.setDie_cell (s : State) (d : BitVec 3) (v : Die) (b : CellId) : (s.setDie d v).cell b = s.cell b := rfl
@[simp] theorem State.setDie_ctx (s : State) (d : BitVec 3) (v : Die) (k : BitVec 9) : (s.setDie d v).ctx k = s.ctx k := rfl
@[simp] theorem State.setDie_rm (s : State) (d : BitVec 3) (v : Die) (j : BitVec 10) : (s.setDie d v).rm j = s.rm j := rfl
@[simp] theorem State.setDie_region (s : State) (d : BitVec 3) (v : Die) (i : Nat) : (s.setDie d v).region i = s.region i := rfl
@[simp] theorem State.modDie_mem (s : State) (d : BitVec 3) (f : Die → Die) : (s.modDie d f).mem = s.mem := rfl
@[simp] theorem State.modDie_lineKey (s : State) (d : BitVec 3) (f : Die → Die) : (s.modDie d f).lineKey = s.lineKey := rfl
@[simp] theorem State.modDie_poison (s : State) (d : BitVec 3) (f : Die → Die) : (s.modDie d f).poison = s.poison := rfl
@[simp] theorem State.modDie_pend (s : State) (d : BitVec 3) (f : Die → Die) : (s.modDie d f).pend = s.pend := rfl
@[simp] theorem State.modDie_counts (s : State) (d : BitVec 3) (f : Die → Die) : (s.modDie d f).counts = s.counts := rfl
@[simp] theorem State.modDie_seqs (s : State) (d : BitVec 3) (f : Die → Die) : (s.modDie d f).seqs = s.seqs := rfl
@[simp] theorem State.modDie_cells (s : State) (d : BitVec 3) (f : Die → Die) : (s.modDie d f).cells = s.cells := rfl
@[simp] theorem State.modDie_regions (s : State) (d : BitVec 3) (f : Die → Die) : (s.modDie d f).regions = s.regions := rfl
@[simp] theorem State.modDie_ctxs (s : State) (d : BitVec 3) (f : Die → Die) : (s.modDie d f).ctxs = s.ctxs := rfl
@[simp] theorem State.modDie_slots (s : State) (d : BitVec 3) (f : Die → Die) : (s.modDie d f).slots = s.slots := rfl
@[simp] theorem State.modDie_rms (s : State) (d : BitVec 3) (f : Die → Die) : (s.modDie d f).rms = s.rms := rfl
@[simp] theorem State.modDie_wires (s : State) (d : BitVec 3) (f : Die → Die) : (s.modDie d f).wires = s.wires := rfl
@[simp] theorem State.modDie_pulses (s : State) (d : BitVec 3) (f : Die → Die) : (s.modDie d f).pulses = s.pulses := rfl
@[simp] theorem State.modDie_queries (s : State) (d : BitVec 3) (f : Die → Die) : (s.modDie d f).queries = s.queries := rfl
@[simp] theorem State.modDie_softqs (s : State) (d : BitVec 3) (f : Die → Die) : (s.modDie d f).softqs = s.softqs := rfl
@[simp] theorem State.modDie_rings (s : State) (d : BitVec 3) (f : Die → Die) : (s.modDie d f).rings = s.rings := rfl
@[simp] theorem State.modDie_cseqs (s : State) (d : BitVec 3) (f : Die → Die) : (s.modDie d f).cseqs = s.cseqs := rfl
@[simp] theorem State.modDie_islands (s : State) (d : BitVec 3) (f : Die → Die) : (s.modDie d f).islands = s.islands := rfl
@[simp] theorem State.modDie_freqSteps (s : State) (d : BitVec 3) (f : Die → Die) : (s.modDie d f).freqSteps = s.freqSteps := rfl
@[simp] theorem State.modDie_powered (s : State) (d : BitVec 3) (f : Die → Die) : (s.modDie d f).powered = s.powered := rfl
@[simp] theorem State.modDie_selfHosted (s : State) (d : BitVec 3) (f : Die → Die) : (s.modDie d f).selfHosted = s.selfHosted := rfl
@[simp] theorem State.modDie_hostUp (s : State) (d : BitVec 3) (f : Die → Die) : (s.modDie d f).hostUp = s.hostUp := rfl
@[simp] theorem State.modDie_turns (s : State) (d : BitVec 3) (f : Die → Die) : (s.modDie d f).turns = s.turns := rfl
@[simp] theorem State.modDie_seqTurn (s : State) (d : BitVec 3) (f : Die → Die) : (s.modDie d f).seqTurn = s.seqTurn := rfl
@[simp] theorem State.modDie_nodeTurn (s : State) (d : BitVec 3) (f : Die → Die) : (s.modDie d f).nodeTurn = s.nodeTurn := rfl
@[simp] theorem State.modDie_polTurn (s : State) (d : BitVec 3) (f : Die → Die) : (s.modDie d f).polTurn = s.polTurn := rfl
@[simp] theorem State.modDie_rmTurn (s : State) (d : BitVec 3) (f : Die → Die) : (s.modDie d f).rmTurn = s.rmTurn := rfl
@[simp] theorem State.modDie_fresh (s : State) (d : BitVec 3) (f : Die → Die) : (s.modDie d f).fresh = s.fresh := rfl
@[simp] theorem State.modDie_cyc (s : State) (d : BitVec 3) (f : Die → Die) : (s.modDie d f).cyc = s.cyc := rfl
@[simp] theorem State.modDie_acted (s : State) (d : BitVec 3) (f : Die → Die) : (s.modDie d f).acted = s.acted := rfl
@[simp] theorem State.modDie_seq (s : State) (d : BitVec 3) (f : Die → Die) (x : BitVec 7) : (s.modDie d f).seq x = s.seq x := rfl
@[simp] theorem State.modDie_cell (s : State) (d : BitVec 3) (f : Die → Die) (b : CellId) : (s.modDie d f).cell b = s.cell b := rfl
@[simp] theorem State.modDie_ctx (s : State) (d : BitVec 3) (f : Die → Die) (k : BitVec 9) : (s.modDie d f).ctx k = s.ctx k := rfl
@[simp] theorem State.modDie_rm (s : State) (d : BitVec 3) (f : Die → Die) (j : BitVec 10) : (s.modDie d f).rm j = s.rm j := rfl
@[simp] theorem State.modDie_region (s : State) (d : BitVec 3) (f : Die → Die) (i : Nat) : (s.modDie d f).region i = s.region i := rfl
@[simp] theorem State.setCell_mem (s : State) (c : CellId) (v : Cell) : (s.setCell c v).mem = s.mem := rfl
@[simp] theorem State.setCell_lineKey (s : State) (c : CellId) (v : Cell) : (s.setCell c v).lineKey = s.lineKey := rfl
@[simp] theorem State.setCell_poison (s : State) (c : CellId) (v : Cell) : (s.setCell c v).poison = s.poison := rfl
@[simp] theorem State.setCell_pend (s : State) (c : CellId) (v : Cell) : (s.setCell c v).pend = s.pend := rfl
@[simp] theorem State.setCell_counts (s : State) (c : CellId) (v : Cell) : (s.setCell c v).counts = s.counts := rfl
@[simp] theorem State.setCell_seqs (s : State) (c : CellId) (v : Cell) : (s.setCell c v).seqs = s.seqs := rfl
@[simp] theorem State.setCell_regions (s : State) (c : CellId) (v : Cell) : (s.setCell c v).regions = s.regions := rfl
@[simp] theorem State.setCell_dies (s : State) (c : CellId) (v : Cell) : (s.setCell c v).dies = s.dies := rfl
@[simp] theorem State.setCell_ctxs (s : State) (c : CellId) (v : Cell) : (s.setCell c v).ctxs = s.ctxs := rfl
@[simp] theorem State.setCell_slots (s : State) (c : CellId) (v : Cell) : (s.setCell c v).slots = s.slots := rfl
@[simp] theorem State.setCell_rms (s : State) (c : CellId) (v : Cell) : (s.setCell c v).rms = s.rms := rfl
@[simp] theorem State.setCell_wires (s : State) (c : CellId) (v : Cell) : (s.setCell c v).wires = s.wires := rfl
@[simp] theorem State.setCell_pulses (s : State) (c : CellId) (v : Cell) : (s.setCell c v).pulses = s.pulses := rfl
@[simp] theorem State.setCell_queries (s : State) (c : CellId) (v : Cell) : (s.setCell c v).queries = s.queries := rfl
@[simp] theorem State.setCell_softqs (s : State) (c : CellId) (v : Cell) : (s.setCell c v).softqs = s.softqs := rfl
@[simp] theorem State.setCell_rings (s : State) (c : CellId) (v : Cell) : (s.setCell c v).rings = s.rings := rfl
@[simp] theorem State.setCell_cseqs (s : State) (c : CellId) (v : Cell) : (s.setCell c v).cseqs = s.cseqs := rfl
@[simp] theorem State.setCell_islands (s : State) (c : CellId) (v : Cell) : (s.setCell c v).islands = s.islands := rfl
@[simp] theorem State.setCell_freqSteps (s : State) (c : CellId) (v : Cell) : (s.setCell c v).freqSteps = s.freqSteps := rfl
@[simp] theorem State.setCell_powered (s : State) (c : CellId) (v : Cell) : (s.setCell c v).powered = s.powered := rfl
@[simp] theorem State.setCell_selfHosted (s : State) (c : CellId) (v : Cell) : (s.setCell c v).selfHosted = s.selfHosted := rfl
@[simp] theorem State.setCell_hostUp (s : State) (c : CellId) (v : Cell) : (s.setCell c v).hostUp = s.hostUp := rfl
@[simp] theorem State.setCell_turns (s : State) (c : CellId) (v : Cell) : (s.setCell c v).turns = s.turns := rfl
@[simp] theorem State.setCell_seqTurn (s : State) (c : CellId) (v : Cell) : (s.setCell c v).seqTurn = s.seqTurn := rfl
@[simp] theorem State.setCell_nodeTurn (s : State) (c : CellId) (v : Cell) : (s.setCell c v).nodeTurn = s.nodeTurn := rfl
@[simp] theorem State.setCell_polTurn (s : State) (c : CellId) (v : Cell) : (s.setCell c v).polTurn = s.polTurn := rfl
@[simp] theorem State.setCell_rmTurn (s : State) (c : CellId) (v : Cell) : (s.setCell c v).rmTurn = s.rmTurn := rfl
@[simp] theorem State.setCell_fresh (s : State) (c : CellId) (v : Cell) : (s.setCell c v).fresh = s.fresh := rfl
@[simp] theorem State.setCell_cyc (s : State) (c : CellId) (v : Cell) : (s.setCell c v).cyc = s.cyc := rfl
@[simp] theorem State.setCell_acted (s : State) (c : CellId) (v : Cell) : (s.setCell c v).acted = s.acted := rfl
@[simp] theorem State.setCell_seq (s : State) (c : CellId) (v : Cell) (x : BitVec 7) : (s.setCell c v).seq x = s.seq x := rfl
@[simp] theorem State.setCell_die (s : State) (c : CellId) (v : Cell) (e : BitVec 3) : (s.setCell c v).die e = s.die e := rfl
@[simp] theorem State.setCell_ctx (s : State) (c : CellId) (v : Cell) (k : BitVec 9) : (s.setCell c v).ctx k = s.ctx k := rfl
@[simp] theorem State.setCell_rm (s : State) (c : CellId) (v : Cell) (j : BitVec 10) : (s.setCell c v).rm j = s.rm j := rfl
@[simp] theorem State.setCell_region (s : State) (c : CellId) (v : Cell) (i : Nat) : (s.setCell c v).region i = s.region i := rfl
@[simp] theorem State.modCell_mem (s : State) (c : CellId) (f : Cell → Cell) : (s.modCell c f).mem = s.mem := rfl
@[simp] theorem State.modCell_lineKey (s : State) (c : CellId) (f : Cell → Cell) : (s.modCell c f).lineKey = s.lineKey := rfl
@[simp] theorem State.modCell_poison (s : State) (c : CellId) (f : Cell → Cell) : (s.modCell c f).poison = s.poison := rfl
@[simp] theorem State.modCell_pend (s : State) (c : CellId) (f : Cell → Cell) : (s.modCell c f).pend = s.pend := rfl
@[simp] theorem State.modCell_counts (s : State) (c : CellId) (f : Cell → Cell) : (s.modCell c f).counts = s.counts := rfl
@[simp] theorem State.modCell_seqs (s : State) (c : CellId) (f : Cell → Cell) : (s.modCell c f).seqs = s.seqs := rfl
@[simp] theorem State.modCell_regions (s : State) (c : CellId) (f : Cell → Cell) : (s.modCell c f).regions = s.regions := rfl
@[simp] theorem State.modCell_dies (s : State) (c : CellId) (f : Cell → Cell) : (s.modCell c f).dies = s.dies := rfl
@[simp] theorem State.modCell_ctxs (s : State) (c : CellId) (f : Cell → Cell) : (s.modCell c f).ctxs = s.ctxs := rfl
@[simp] theorem State.modCell_slots (s : State) (c : CellId) (f : Cell → Cell) : (s.modCell c f).slots = s.slots := rfl
@[simp] theorem State.modCell_rms (s : State) (c : CellId) (f : Cell → Cell) : (s.modCell c f).rms = s.rms := rfl
@[simp] theorem State.modCell_wires (s : State) (c : CellId) (f : Cell → Cell) : (s.modCell c f).wires = s.wires := rfl
@[simp] theorem State.modCell_pulses (s : State) (c : CellId) (f : Cell → Cell) : (s.modCell c f).pulses = s.pulses := rfl
@[simp] theorem State.modCell_queries (s : State) (c : CellId) (f : Cell → Cell) : (s.modCell c f).queries = s.queries := rfl
@[simp] theorem State.modCell_softqs (s : State) (c : CellId) (f : Cell → Cell) : (s.modCell c f).softqs = s.softqs := rfl
@[simp] theorem State.modCell_rings (s : State) (c : CellId) (f : Cell → Cell) : (s.modCell c f).rings = s.rings := rfl
@[simp] theorem State.modCell_cseqs (s : State) (c : CellId) (f : Cell → Cell) : (s.modCell c f).cseqs = s.cseqs := rfl
@[simp] theorem State.modCell_islands (s : State) (c : CellId) (f : Cell → Cell) : (s.modCell c f).islands = s.islands := rfl
@[simp] theorem State.modCell_freqSteps (s : State) (c : CellId) (f : Cell → Cell) : (s.modCell c f).freqSteps = s.freqSteps := rfl
@[simp] theorem State.modCell_powered (s : State) (c : CellId) (f : Cell → Cell) : (s.modCell c f).powered = s.powered := rfl
@[simp] theorem State.modCell_selfHosted (s : State) (c : CellId) (f : Cell → Cell) : (s.modCell c f).selfHosted = s.selfHosted := rfl
@[simp] theorem State.modCell_hostUp (s : State) (c : CellId) (f : Cell → Cell) : (s.modCell c f).hostUp = s.hostUp := rfl
@[simp] theorem State.modCell_turns (s : State) (c : CellId) (f : Cell → Cell) : (s.modCell c f).turns = s.turns := rfl
@[simp] theorem State.modCell_seqTurn (s : State) (c : CellId) (f : Cell → Cell) : (s.modCell c f).seqTurn = s.seqTurn := rfl
@[simp] theorem State.modCell_nodeTurn (s : State) (c : CellId) (f : Cell → Cell) : (s.modCell c f).nodeTurn = s.nodeTurn := rfl
@[simp] theorem State.modCell_polTurn (s : State) (c : CellId) (f : Cell → Cell) : (s.modCell c f).polTurn = s.polTurn := rfl
@[simp] theorem State.modCell_rmTurn (s : State) (c : CellId) (f : Cell → Cell) : (s.modCell c f).rmTurn = s.rmTurn := rfl
@[simp] theorem State.modCell_fresh (s : State) (c : CellId) (f : Cell → Cell) : (s.modCell c f).fresh = s.fresh := rfl
@[simp] theorem State.modCell_cyc (s : State) (c : CellId) (f : Cell → Cell) : (s.modCell c f).cyc = s.cyc := rfl
@[simp] theorem State.modCell_acted (s : State) (c : CellId) (f : Cell → Cell) : (s.modCell c f).acted = s.acted := rfl
@[simp] theorem State.modCell_seq (s : State) (c : CellId) (f : Cell → Cell) (x : BitVec 7) : (s.modCell c f).seq x = s.seq x := rfl
@[simp] theorem State.modCell_die (s : State) (c : CellId) (f : Cell → Cell) (e : BitVec 3) : (s.modCell c f).die e = s.die e := rfl
@[simp] theorem State.modCell_ctx (s : State) (c : CellId) (f : Cell → Cell) (k : BitVec 9) : (s.modCell c f).ctx k = s.ctx k := rfl
@[simp] theorem State.modCell_rm (s : State) (c : CellId) (f : Cell → Cell) (j : BitVec 10) : (s.modCell c f).rm j = s.rm j := rfl
@[simp] theorem State.modCell_region (s : State) (c : CellId) (f : Cell → Cell) (i : Nat) : (s.modCell c f).region i = s.region i := rfl
@[simp] theorem State.setCtx_mem (s : State) (n : BitVec 9) (v : Ctx) : (s.setCtx n v).mem = s.mem := rfl
@[simp] theorem State.setCtx_lineKey (s : State) (n : BitVec 9) (v : Ctx) : (s.setCtx n v).lineKey = s.lineKey := rfl
@[simp] theorem State.setCtx_poison (s : State) (n : BitVec 9) (v : Ctx) : (s.setCtx n v).poison = s.poison := rfl
@[simp] theorem State.setCtx_pend (s : State) (n : BitVec 9) (v : Ctx) : (s.setCtx n v).pend = s.pend := rfl
@[simp] theorem State.setCtx_counts (s : State) (n : BitVec 9) (v : Ctx) : (s.setCtx n v).counts = s.counts := rfl
@[simp] theorem State.setCtx_seqs (s : State) (n : BitVec 9) (v : Ctx) : (s.setCtx n v).seqs = s.seqs := rfl
@[simp] theorem State.setCtx_cells (s : State) (n : BitVec 9) (v : Ctx) : (s.setCtx n v).cells = s.cells := rfl
@[simp] theorem State.setCtx_regions (s : State) (n : BitVec 9) (v : Ctx) : (s.setCtx n v).regions = s.regions := rfl
@[simp] theorem State.setCtx_dies (s : State) (n : BitVec 9) (v : Ctx) : (s.setCtx n v).dies = s.dies := rfl
@[simp] theorem State.setCtx_slots (s : State) (n : BitVec 9) (v : Ctx) : (s.setCtx n v).slots = s.slots := rfl
@[simp] theorem State.setCtx_rms (s : State) (n : BitVec 9) (v : Ctx) : (s.setCtx n v).rms = s.rms := rfl
@[simp] theorem State.setCtx_wires (s : State) (n : BitVec 9) (v : Ctx) : (s.setCtx n v).wires = s.wires := rfl
@[simp] theorem State.setCtx_pulses (s : State) (n : BitVec 9) (v : Ctx) : (s.setCtx n v).pulses = s.pulses := rfl
@[simp] theorem State.setCtx_queries (s : State) (n : BitVec 9) (v : Ctx) : (s.setCtx n v).queries = s.queries := rfl
@[simp] theorem State.setCtx_softqs (s : State) (n : BitVec 9) (v : Ctx) : (s.setCtx n v).softqs = s.softqs := rfl
@[simp] theorem State.setCtx_rings (s : State) (n : BitVec 9) (v : Ctx) : (s.setCtx n v).rings = s.rings := rfl
@[simp] theorem State.setCtx_cseqs (s : State) (n : BitVec 9) (v : Ctx) : (s.setCtx n v).cseqs = s.cseqs := rfl
@[simp] theorem State.setCtx_islands (s : State) (n : BitVec 9) (v : Ctx) : (s.setCtx n v).islands = s.islands := rfl
@[simp] theorem State.setCtx_freqSteps (s : State) (n : BitVec 9) (v : Ctx) : (s.setCtx n v).freqSteps = s.freqSteps := rfl
@[simp] theorem State.setCtx_powered (s : State) (n : BitVec 9) (v : Ctx) : (s.setCtx n v).powered = s.powered := rfl
@[simp] theorem State.setCtx_selfHosted (s : State) (n : BitVec 9) (v : Ctx) : (s.setCtx n v).selfHosted = s.selfHosted := rfl
@[simp] theorem State.setCtx_hostUp (s : State) (n : BitVec 9) (v : Ctx) : (s.setCtx n v).hostUp = s.hostUp := rfl
@[simp] theorem State.setCtx_turns (s : State) (n : BitVec 9) (v : Ctx) : (s.setCtx n v).turns = s.turns := rfl
@[simp] theorem State.setCtx_seqTurn (s : State) (n : BitVec 9) (v : Ctx) : (s.setCtx n v).seqTurn = s.seqTurn := rfl
@[simp] theorem State.setCtx_nodeTurn (s : State) (n : BitVec 9) (v : Ctx) : (s.setCtx n v).nodeTurn = s.nodeTurn := rfl
@[simp] theorem State.setCtx_polTurn (s : State) (n : BitVec 9) (v : Ctx) : (s.setCtx n v).polTurn = s.polTurn := rfl
@[simp] theorem State.setCtx_rmTurn (s : State) (n : BitVec 9) (v : Ctx) : (s.setCtx n v).rmTurn = s.rmTurn := rfl
@[simp] theorem State.setCtx_fresh (s : State) (n : BitVec 9) (v : Ctx) : (s.setCtx n v).fresh = s.fresh := rfl
@[simp] theorem State.setCtx_cyc (s : State) (n : BitVec 9) (v : Ctx) : (s.setCtx n v).cyc = s.cyc := rfl
@[simp] theorem State.setCtx_acted (s : State) (n : BitVec 9) (v : Ctx) : (s.setCtx n v).acted = s.acted := rfl
@[simp] theorem State.setCtx_seq (s : State) (n : BitVec 9) (v : Ctx) (x : BitVec 7) : (s.setCtx n v).seq x = s.seq x := rfl
@[simp] theorem State.setCtx_die (s : State) (n : BitVec 9) (v : Ctx) (e : BitVec 3) : (s.setCtx n v).die e = s.die e := rfl
@[simp] theorem State.setCtx_cell (s : State) (n : BitVec 9) (v : Ctx) (b : CellId) : (s.setCtx n v).cell b = s.cell b := rfl
@[simp] theorem State.setCtx_rm (s : State) (n : BitVec 9) (v : Ctx) (j : BitVec 10) : (s.setCtx n v).rm j = s.rm j := rfl
@[simp] theorem State.setCtx_region (s : State) (n : BitVec 9) (v : Ctx) (i : Nat) : (s.setCtx n v).region i = s.region i := rfl
@[simp] theorem State.setRm_mem (s : State) (m : BitVec 10) (v : Rm) : (s.setRm m v).mem = s.mem := rfl
@[simp] theorem State.setRm_lineKey (s : State) (m : BitVec 10) (v : Rm) : (s.setRm m v).lineKey = s.lineKey := rfl
@[simp] theorem State.setRm_poison (s : State) (m : BitVec 10) (v : Rm) : (s.setRm m v).poison = s.poison := rfl
@[simp] theorem State.setRm_pend (s : State) (m : BitVec 10) (v : Rm) : (s.setRm m v).pend = s.pend := rfl
@[simp] theorem State.setRm_counts (s : State) (m : BitVec 10) (v : Rm) : (s.setRm m v).counts = s.counts := rfl
@[simp] theorem State.setRm_seqs (s : State) (m : BitVec 10) (v : Rm) : (s.setRm m v).seqs = s.seqs := rfl
@[simp] theorem State.setRm_cells (s : State) (m : BitVec 10) (v : Rm) : (s.setRm m v).cells = s.cells := rfl
@[simp] theorem State.setRm_regions (s : State) (m : BitVec 10) (v : Rm) : (s.setRm m v).regions = s.regions := rfl
@[simp] theorem State.setRm_dies (s : State) (m : BitVec 10) (v : Rm) : (s.setRm m v).dies = s.dies := rfl
@[simp] theorem State.setRm_ctxs (s : State) (m : BitVec 10) (v : Rm) : (s.setRm m v).ctxs = s.ctxs := rfl
@[simp] theorem State.setRm_slots (s : State) (m : BitVec 10) (v : Rm) : (s.setRm m v).slots = s.slots := rfl
@[simp] theorem State.setRm_wires (s : State) (m : BitVec 10) (v : Rm) : (s.setRm m v).wires = s.wires := rfl
@[simp] theorem State.setRm_pulses (s : State) (m : BitVec 10) (v : Rm) : (s.setRm m v).pulses = s.pulses := rfl
@[simp] theorem State.setRm_queries (s : State) (m : BitVec 10) (v : Rm) : (s.setRm m v).queries = s.queries := rfl
@[simp] theorem State.setRm_softqs (s : State) (m : BitVec 10) (v : Rm) : (s.setRm m v).softqs = s.softqs := rfl
@[simp] theorem State.setRm_rings (s : State) (m : BitVec 10) (v : Rm) : (s.setRm m v).rings = s.rings := rfl
@[simp] theorem State.setRm_cseqs (s : State) (m : BitVec 10) (v : Rm) : (s.setRm m v).cseqs = s.cseqs := rfl
@[simp] theorem State.setRm_islands (s : State) (m : BitVec 10) (v : Rm) : (s.setRm m v).islands = s.islands := rfl
@[simp] theorem State.setRm_freqSteps (s : State) (m : BitVec 10) (v : Rm) : (s.setRm m v).freqSteps = s.freqSteps := rfl
@[simp] theorem State.setRm_powered (s : State) (m : BitVec 10) (v : Rm) : (s.setRm m v).powered = s.powered := rfl
@[simp] theorem State.setRm_selfHosted (s : State) (m : BitVec 10) (v : Rm) : (s.setRm m v).selfHosted = s.selfHosted := rfl
@[simp] theorem State.setRm_hostUp (s : State) (m : BitVec 10) (v : Rm) : (s.setRm m v).hostUp = s.hostUp := rfl
@[simp] theorem State.setRm_turns (s : State) (m : BitVec 10) (v : Rm) : (s.setRm m v).turns = s.turns := rfl
@[simp] theorem State.setRm_seqTurn (s : State) (m : BitVec 10) (v : Rm) : (s.setRm m v).seqTurn = s.seqTurn := rfl
@[simp] theorem State.setRm_nodeTurn (s : State) (m : BitVec 10) (v : Rm) : (s.setRm m v).nodeTurn = s.nodeTurn := rfl
@[simp] theorem State.setRm_polTurn (s : State) (m : BitVec 10) (v : Rm) : (s.setRm m v).polTurn = s.polTurn := rfl
@[simp] theorem State.setRm_rmTurn (s : State) (m : BitVec 10) (v : Rm) : (s.setRm m v).rmTurn = s.rmTurn := rfl
@[simp] theorem State.setRm_fresh (s : State) (m : BitVec 10) (v : Rm) : (s.setRm m v).fresh = s.fresh := rfl
@[simp] theorem State.setRm_cyc (s : State) (m : BitVec 10) (v : Rm) : (s.setRm m v).cyc = s.cyc := rfl
@[simp] theorem State.setRm_acted (s : State) (m : BitVec 10) (v : Rm) : (s.setRm m v).acted = s.acted := rfl
@[simp] theorem State.setRm_seq (s : State) (m : BitVec 10) (v : Rm) (x : BitVec 7) : (s.setRm m v).seq x = s.seq x := rfl
@[simp] theorem State.setRm_die (s : State) (m : BitVec 10) (v : Rm) (e : BitVec 3) : (s.setRm m v).die e = s.die e := rfl
@[simp] theorem State.setRm_cell (s : State) (m : BitVec 10) (v : Rm) (b : CellId) : (s.setRm m v).cell b = s.cell b := rfl
@[simp] theorem State.setRm_ctx (s : State) (m : BitVec 10) (v : Rm) (k : BitVec 9) : (s.setRm m v).ctx k = s.ctx k := rfl
@[simp] theorem State.setRm_region (s : State) (m : BitVec 10) (v : Rm) (i : Nat) : (s.setRm m v).region i = s.region i := rfl
@[simp] theorem State.setRegion_mem (s : State) (r : Region) : (s.setRegion r).mem = s.mem := rfl
@[simp] theorem State.setRegion_lineKey (s : State) (r : Region) : (s.setRegion r).lineKey = s.lineKey := rfl
@[simp] theorem State.setRegion_poison (s : State) (r : Region) : (s.setRegion r).poison = s.poison := rfl
@[simp] theorem State.setRegion_pend (s : State) (r : Region) : (s.setRegion r).pend = s.pend := rfl
@[simp] theorem State.setRegion_counts (s : State) (r : Region) : (s.setRegion r).counts = s.counts := rfl
@[simp] theorem State.setRegion_seqs (s : State) (r : Region) : (s.setRegion r).seqs = s.seqs := rfl
@[simp] theorem State.setRegion_cells (s : State) (r : Region) : (s.setRegion r).cells = s.cells := rfl
@[simp] theorem State.setRegion_dies (s : State) (r : Region) : (s.setRegion r).dies = s.dies := rfl
@[simp] theorem State.setRegion_ctxs (s : State) (r : Region) : (s.setRegion r).ctxs = s.ctxs := rfl
@[simp] theorem State.setRegion_slots (s : State) (r : Region) : (s.setRegion r).slots = s.slots := rfl
@[simp] theorem State.setRegion_rms (s : State) (r : Region) : (s.setRegion r).rms = s.rms := rfl
@[simp] theorem State.setRegion_wires (s : State) (r : Region) : (s.setRegion r).wires = s.wires := rfl
@[simp] theorem State.setRegion_pulses (s : State) (r : Region) : (s.setRegion r).pulses = s.pulses := rfl
@[simp] theorem State.setRegion_queries (s : State) (r : Region) : (s.setRegion r).queries = s.queries := rfl
@[simp] theorem State.setRegion_softqs (s : State) (r : Region) : (s.setRegion r).softqs = s.softqs := rfl
@[simp] theorem State.setRegion_rings (s : State) (r : Region) : (s.setRegion r).rings = s.rings := rfl
@[simp] theorem State.setRegion_cseqs (s : State) (r : Region) : (s.setRegion r).cseqs = s.cseqs := rfl
@[simp] theorem State.setRegion_islands (s : State) (r : Region) : (s.setRegion r).islands = s.islands := rfl
@[simp] theorem State.setRegion_freqSteps (s : State) (r : Region) : (s.setRegion r).freqSteps = s.freqSteps := rfl
@[simp] theorem State.setRegion_powered (s : State) (r : Region) : (s.setRegion r).powered = s.powered := rfl
@[simp] theorem State.setRegion_selfHosted (s : State) (r : Region) : (s.setRegion r).selfHosted = s.selfHosted := rfl
@[simp] theorem State.setRegion_hostUp (s : State) (r : Region) : (s.setRegion r).hostUp = s.hostUp := rfl
@[simp] theorem State.setRegion_turns (s : State) (r : Region) : (s.setRegion r).turns = s.turns := rfl
@[simp] theorem State.setRegion_seqTurn (s : State) (r : Region) : (s.setRegion r).seqTurn = s.seqTurn := rfl
@[simp] theorem State.setRegion_nodeTurn (s : State) (r : Region) : (s.setRegion r).nodeTurn = s.nodeTurn := rfl
@[simp] theorem State.setRegion_polTurn (s : State) (r : Region) : (s.setRegion r).polTurn = s.polTurn := rfl
@[simp] theorem State.setRegion_rmTurn (s : State) (r : Region) : (s.setRegion r).rmTurn = s.rmTurn := rfl
@[simp] theorem State.setRegion_fresh (s : State) (r : Region) : (s.setRegion r).fresh = s.fresh := rfl
@[simp] theorem State.setRegion_cyc (s : State) (r : Region) : (s.setRegion r).cyc = s.cyc := rfl
@[simp] theorem State.setRegion_acted (s : State) (r : Region) : (s.setRegion r).acted = s.acted := rfl
@[simp] theorem State.setRegion_seq (s : State) (r : Region) (x : BitVec 7) : (s.setRegion r).seq x = s.seq x := rfl
@[simp] theorem State.setRegion_die (s : State) (r : Region) (e : BitVec 3) : (s.setRegion r).die e = s.die e := rfl
@[simp] theorem State.setRegion_cell (s : State) (r : Region) (b : CellId) : (s.setRegion r).cell b = s.cell b := rfl
@[simp] theorem State.setRegion_ctx (s : State) (r : Region) (k : BitVec 9) : (s.setRegion r).ctx k = s.ctx k := rfl
@[simp] theorem State.setRegion_rm (s : State) (r : Region) (j : BitVec 10) : (s.setRegion r).rm j = s.rm j := rfl
@[simp] theorem State.modRegion_mem (s : State) (n : Nat) (f : Region → Region) : (s.modRegion n f).mem = s.mem := rfl
@[simp] theorem State.modRegion_lineKey (s : State) (n : Nat) (f : Region → Region) : (s.modRegion n f).lineKey = s.lineKey := rfl
@[simp] theorem State.modRegion_poison (s : State) (n : Nat) (f : Region → Region) : (s.modRegion n f).poison = s.poison := rfl
@[simp] theorem State.modRegion_pend (s : State) (n : Nat) (f : Region → Region) : (s.modRegion n f).pend = s.pend := rfl
@[simp] theorem State.modRegion_counts (s : State) (n : Nat) (f : Region → Region) : (s.modRegion n f).counts = s.counts := rfl
@[simp] theorem State.modRegion_seqs (s : State) (n : Nat) (f : Region → Region) : (s.modRegion n f).seqs = s.seqs := rfl
@[simp] theorem State.modRegion_cells (s : State) (n : Nat) (f : Region → Region) : (s.modRegion n f).cells = s.cells := rfl
@[simp] theorem State.modRegion_dies (s : State) (n : Nat) (f : Region → Region) : (s.modRegion n f).dies = s.dies := rfl
@[simp] theorem State.modRegion_ctxs (s : State) (n : Nat) (f : Region → Region) : (s.modRegion n f).ctxs = s.ctxs := rfl
@[simp] theorem State.modRegion_slots (s : State) (n : Nat) (f : Region → Region) : (s.modRegion n f).slots = s.slots := rfl
@[simp] theorem State.modRegion_rms (s : State) (n : Nat) (f : Region → Region) : (s.modRegion n f).rms = s.rms := rfl
@[simp] theorem State.modRegion_wires (s : State) (n : Nat) (f : Region → Region) : (s.modRegion n f).wires = s.wires := rfl
@[simp] theorem State.modRegion_pulses (s : State) (n : Nat) (f : Region → Region) : (s.modRegion n f).pulses = s.pulses := rfl
@[simp] theorem State.modRegion_queries (s : State) (n : Nat) (f : Region → Region) : (s.modRegion n f).queries = s.queries := rfl
@[simp] theorem State.modRegion_softqs (s : State) (n : Nat) (f : Region → Region) : (s.modRegion n f).softqs = s.softqs := rfl
@[simp] theorem State.modRegion_rings (s : State) (n : Nat) (f : Region → Region) : (s.modRegion n f).rings = s.rings := rfl
@[simp] theorem State.modRegion_cseqs (s : State) (n : Nat) (f : Region → Region) : (s.modRegion n f).cseqs = s.cseqs := rfl
@[simp] theorem State.modRegion_islands (s : State) (n : Nat) (f : Region → Region) : (s.modRegion n f).islands = s.islands := rfl
@[simp] theorem State.modRegion_freqSteps (s : State) (n : Nat) (f : Region → Region) : (s.modRegion n f).freqSteps = s.freqSteps := rfl
@[simp] theorem State.modRegion_powered (s : State) (n : Nat) (f : Region → Region) : (s.modRegion n f).powered = s.powered := rfl
@[simp] theorem State.modRegion_selfHosted (s : State) (n : Nat) (f : Region → Region) : (s.modRegion n f).selfHosted = s.selfHosted := rfl
@[simp] theorem State.modRegion_hostUp (s : State) (n : Nat) (f : Region → Region) : (s.modRegion n f).hostUp = s.hostUp := rfl
@[simp] theorem State.modRegion_turns (s : State) (n : Nat) (f : Region → Region) : (s.modRegion n f).turns = s.turns := rfl
@[simp] theorem State.modRegion_seqTurn (s : State) (n : Nat) (f : Region → Region) : (s.modRegion n f).seqTurn = s.seqTurn := rfl
@[simp] theorem State.modRegion_nodeTurn (s : State) (n : Nat) (f : Region → Region) : (s.modRegion n f).nodeTurn = s.nodeTurn := rfl
@[simp] theorem State.modRegion_polTurn (s : State) (n : Nat) (f : Region → Region) : (s.modRegion n f).polTurn = s.polTurn := rfl
@[simp] theorem State.modRegion_rmTurn (s : State) (n : Nat) (f : Region → Region) : (s.modRegion n f).rmTurn = s.rmTurn := rfl
@[simp] theorem State.modRegion_fresh (s : State) (n : Nat) (f : Region → Region) : (s.modRegion n f).fresh = s.fresh := rfl
@[simp] theorem State.modRegion_cyc (s : State) (n : Nat) (f : Region → Region) : (s.modRegion n f).cyc = s.cyc := rfl
@[simp] theorem State.modRegion_acted (s : State) (n : Nat) (f : Region → Region) : (s.modRegion n f).acted = s.acted := rfl
@[simp] theorem State.modRegion_seq (s : State) (n : Nat) (f : Region → Region) (x : BitVec 7) : (s.modRegion n f).seq x = s.seq x := rfl
@[simp] theorem State.modRegion_die (s : State) (n : Nat) (f : Region → Region) (e : BitVec 3) : (s.modRegion n f).die e = s.die e := rfl
@[simp] theorem State.modRegion_cell (s : State) (n : Nat) (f : Region → Region) (b : CellId) : (s.modRegion n f).cell b = s.cell b := rfl
@[simp] theorem State.modRegion_ctx (s : State) (n : Nat) (f : Region → Region) (k : BitVec 9) : (s.modRegion n f).ctx k = s.ctx k := rfl
@[simp] theorem State.modRegion_rm (s : State) (n : Nat) (f : Region → Region) (j : BitVec 10) : (s.modRegion n f).rm j = s.rm j := rfl

/-! ### Reading a part after changing it -/

theorem State.setSeq_seq (s : State) (q x : BitVec 7) (v : Seq) : (s.setSeq q v).seq x = if x = q then v else s.seq x := by
  simp only [State.seq, State.setSeq, Vector.getElem_set, BitVec.toNat_eq, eq_comm (a := q.toNat)]

theorem State.modSeq_seq (s : State) (q x : BitVec 7) (f : Seq → Seq) : (s.modSeq q f).seq x = if x = q then f (s.seq q) else s.seq x :=
  s.setSeq_seq q x _

theorem State.setDie_die (s : State) (d x : BitVec 3) (v : Die) : (s.setDie d v).die x = if x = d then v else s.die x := by
  simp only [State.die, State.setDie, Vector.getElem_set, BitVec.toNat_eq, eq_comm (a := d.toNat)]

theorem State.modDie_die (s : State) (d x : BitVec 3) (f : Die → Die) : (s.modDie d f).die x = if x = d then f (s.die d) else s.die x :=
  s.setDie_die d x _

theorem State.setCell_cell (s : State) (c x : CellId) (v : Cell) : (s.setCell c v).cell x = if x = c then v else s.cell x := by
  simp only [State.cell, State.setCell, aget_aset]
  split <;> rfl

theorem State.modCell_cell (s : State) (c x : CellId) (f : Cell → Cell) : (s.modCell c f).cell x = if x = c then f (s.cell c) else s.cell x :=
  s.setCell_cell c x _

theorem State.setCtx_ctx (s : State) (n x : BitVec 9) (v : Ctx) : (s.setCtx n v).ctx x = if x = n then v else s.ctx x := by
  simp only [State.ctx, State.setCtx, aget_aset]
  split <;> rfl

theorem State.setRm_rm (s : State) (m x : BitVec 10) (v : Rm) : (s.setRm m v).rm x = if x = m then v else s.rm x := by
  simp only [State.rm, State.setRm, aget_aset]
  split <;> rfl

@[simp] theorem State.setSeq_seq_self (s : State) (q : BitVec 7) (v : Seq) : (s.setSeq q v).seq q = v := by simp [State.setSeq_seq]
@[simp] theorem State.setDie_die_self (s : State) (d : BitVec 3) (v : Die) : (s.setDie d v).die d = v := by simp [State.setDie_die]
@[simp] theorem State.setCell_cell_self (s : State) (c : CellId) (v : Cell) : (s.setCell c v).cell c = v := by simp [State.setCell_cell]
@[simp] theorem State.setCtx_ctx_self (s : State) (n : BitVec 9) (v : Ctx) : (s.setCtx n v).ctx n = v := by simp [State.setCtx_ctx]
@[simp] theorem State.setRm_rm_self (s : State) (m : BitVec 10) (v : Rm) : (s.setRm m v).rm m = v := by simp [State.setRm_rm]

@[simp] theorem State.modSeq_seq_self (s : State) (q : BitVec 7) (f : Seq → Seq) : (s.modSeq q f).seq q = f (s.seq q) := by
  simp [State.modSeq_seq]
@[simp] theorem State.modDie_die_self (s : State) (d : BitVec 3) (f : Die → Die) : (s.modDie d f).die d = f (s.die d) := by
  simp [State.modDie_die]
@[simp] theorem State.modCell_cell_self (s : State) (c : CellId) (f : Cell → Cell) : (s.modCell c f).cell c = f (s.cell c) := by
  simp [State.modCell_cell]

@[simp] theorem State.setSeq_setSeq (s : State) (q : BitVec 7) (v w : Seq) : (s.setSeq q v).setSeq q w = s.setSeq q w := by
  simp [State.setSeq]
@[simp] theorem State.setDie_setDie (s : State) (d : BitVec 3) (v w : Die) : (s.setDie d v).setDie d w = s.setDie d w := by
  simp [State.setDie]

/-- The region of a number after a change of one region that keeps its number. -/
theorem State.modRegion_region (s : State) (n i : Nat) (f : Region → Region) (hf : ∀ r, (f r).serial = r.serial) :
    (s.modRegion n f).region i = (s.region i).map (fun r => if r.serial = n then f r else r) := by
  unfold State.region State.modRegion
  rw [List.find?_map]
  congr 1
  congr 1
  funext r
  simp only [Function.comp]
  split <;> simp [hf]

/-! ### Sequencer updates -/
@[simp] theorem Seq.advance_g (x : Seq) : x.advance.g = x.g := rfl
@[simp] theorem Seq.advance_p (x : Seq) : x.advance.p = x.p := rfl
@[simp] theorem Seq.advance_tvec (x : Seq) : x.advance.tvec = x.tvec := rfl
@[simp] theorem Seq.advance_tcause (x : Seq) : x.advance.tcause = x.tcause := rfl
@[simp] theorem Seq.advance_tval (x : Seq) : x.advance.tval = x.tval := rfl
@[simp] theorem Seq.advance_tepc (x : Seq) : x.advance.tepc = x.tepc := rfl
@[simp] theorem Seq.advance_ptag (x : Seq) : x.advance.ptag = x.ptag := rfl
@[simp] theorem Seq.advance_tscratch (x : Seq) : x.advance.tscratch = x.tscratch := rfl
@[simp] theorem Seq.advance_cycle (x : Seq) : x.advance.cycle = x.cycle := rfl
@[simp] theorem Seq.advance_cmode (x : Seq) : x.advance.cmode = x.cmode := rfl
@[simp] theorem Seq.advance_resumed (x : Seq) : x.advance.resumed = x.resumed := rfl
@[simp] theorem Seq.advance_intrap (x : Seq) : x.advance.intrap = x.intrap := rfl
@[simp] theorem Seq.advance_disc (x : Seq) : x.advance.disc = x.disc := rfl
@[simp] theorem Seq.advance_sections (x : Seq) : x.advance.sections = x.sections := rfl
@[simp] theorem Seq.advance_ctx (x : Seq) : x.advance.ctx = x.ctx := rfl
@[simp] theorem Seq.advance_accSat (x : Seq) : x.advance.accSat = x.accSat := rfl
@[simp] theorem Seq.advance_accPois (x : Seq) : x.advance.accPois = x.accPois := rfl
@[simp] theorem Seq.advance_accs (x : Seq) : x.advance.accs = x.accs := rfl
@[simp] theorem Seq.advance_putSeq (x : Seq) : x.advance.putSeq = x.putSeq := rfl
@[simp] theorem Seq.advance_tmpl (x : Seq) : x.advance.tmpl = x.tmpl := rfl
@[simp] theorem Seq.advance_backoff (x : Seq) : x.advance.backoff = x.backoff := rfl
@[simp] theorem Seq.advance_inPort (x : Seq) : x.advance.inPort = x.inPort := rfl
@[simp] theorem Seq.advance_outPort (x : Seq) : x.advance.outPort = x.outPort := rfl
@[simp] theorem Seq.advance_chanMap (x : Seq) : x.advance.chanMap = x.chanMap := rfl
@[simp] theorem Seq.advance_sendSeq (x : Seq) : x.advance.sendSeq = x.sendSeq := rfl
@[simp] theorem Seq.advance_chBack (x : Seq) : x.advance.chBack = x.chBack := rfl
@[simp] theorem Seq.advance_arv (x : Seq) : x.advance.arv = x.arv := rfl
@[simp] theorem Seq.advance_run (x : Seq) : x.advance.run = x.run := rfl
@[simp] theorem Seq.advance_wait (x : Seq) : x.advance.wait = x.wait := rfl
@[simp] theorem Seq.advance_region (x : Seq) : x.advance.region = x.region := rfl
@[simp] theorem Seq.advance_tlb (x : Seq) : x.advance.tlb = x.tlb := rfl
@[simp] theorem Seq.advance_acq (x : Seq) : x.advance.acq = x.acq := rfl
@[simp] theorem Seq.advance_pc (x : Seq) : x.advance.pc = x.pc + 4 := rfl
@[simp] theorem Seq.writeG_p (x : Seq) (r : BitVec 5) (v : Word64) : (x.writeG r v).p = x.p := by unfold Seq.writeG; split <;> rfl
@[simp] theorem Seq.writeG_pc (x : Seq) (r : BitVec 5) (v : Word64) : (x.writeG r v).pc = x.pc := by unfold Seq.writeG; split <;> rfl
@[simp] theorem Seq.writeG_tvec (x : Seq) (r : BitVec 5) (v : Word64) : (x.writeG r v).tvec = x.tvec := by unfold Seq.writeG; split <;> rfl
@[simp] theorem Seq.writeG_tcause (x : Seq) (r : BitVec 5) (v : Word64) : (x.writeG r v).tcause = x.tcause := by unfold Seq.writeG; split <;> rfl
@[simp] theorem Seq.writeG_tval (x : Seq) (r : BitVec 5) (v : Word64) : (x.writeG r v).tval = x.tval := by unfold Seq.writeG; split <;> rfl
@[simp] theorem Seq.writeG_tepc (x : Seq) (r : BitVec 5) (v : Word64) : (x.writeG r v).tepc = x.tepc := by unfold Seq.writeG; split <;> rfl
@[simp] theorem Seq.writeG_ptag (x : Seq) (r : BitVec 5) (v : Word64) : (x.writeG r v).ptag = x.ptag := by unfold Seq.writeG; split <;> rfl
@[simp] theorem Seq.writeG_tscratch (x : Seq) (r : BitVec 5) (v : Word64) : (x.writeG r v).tscratch = x.tscratch := by unfold Seq.writeG; split <;> rfl
@[simp] theorem Seq.writeG_cycle (x : Seq) (r : BitVec 5) (v : Word64) : (x.writeG r v).cycle = x.cycle := by unfold Seq.writeG; split <;> rfl
@[simp] theorem Seq.writeG_cmode (x : Seq) (r : BitVec 5) (v : Word64) : (x.writeG r v).cmode = x.cmode := by unfold Seq.writeG; split <;> rfl
@[simp] theorem Seq.writeG_resumed (x : Seq) (r : BitVec 5) (v : Word64) : (x.writeG r v).resumed = x.resumed := by unfold Seq.writeG; split <;> rfl
@[simp] theorem Seq.writeG_intrap (x : Seq) (r : BitVec 5) (v : Word64) : (x.writeG r v).intrap = x.intrap := by unfold Seq.writeG; split <;> rfl
@[simp] theorem Seq.writeG_disc (x : Seq) (r : BitVec 5) (v : Word64) : (x.writeG r v).disc = x.disc := by unfold Seq.writeG; split <;> rfl
@[simp] theorem Seq.writeG_sections (x : Seq) (r : BitVec 5) (v : Word64) : (x.writeG r v).sections = x.sections := by unfold Seq.writeG; split <;> rfl
@[simp] theorem Seq.writeG_ctx (x : Seq) (r : BitVec 5) (v : Word64) : (x.writeG r v).ctx = x.ctx := by unfold Seq.writeG; split <;> rfl
@[simp] theorem Seq.writeG_accSat (x : Seq) (r : BitVec 5) (v : Word64) : (x.writeG r v).accSat = x.accSat := by unfold Seq.writeG; split <;> rfl
@[simp] theorem Seq.writeG_accPois (x : Seq) (r : BitVec 5) (v : Word64) : (x.writeG r v).accPois = x.accPois := by unfold Seq.writeG; split <;> rfl
@[simp] theorem Seq.writeG_accs (x : Seq) (r : BitVec 5) (v : Word64) : (x.writeG r v).accs = x.accs := by unfold Seq.writeG; split <;> rfl
@[simp] theorem Seq.writeG_putSeq (x : Seq) (r : BitVec 5) (v : Word64) : (x.writeG r v).putSeq = x.putSeq := by unfold Seq.writeG; split <;> rfl
@[simp] theorem Seq.writeG_tmpl (x : Seq) (r : BitVec 5) (v : Word64) : (x.writeG r v).tmpl = x.tmpl := by unfold Seq.writeG; split <;> rfl
@[simp] theorem Seq.writeG_backoff (x : Seq) (r : BitVec 5) (v : Word64) : (x.writeG r v).backoff = x.backoff := by unfold Seq.writeG; split <;> rfl
@[simp] theorem Seq.writeG_inPort (x : Seq) (r : BitVec 5) (v : Word64) : (x.writeG r v).inPort = x.inPort := by unfold Seq.writeG; split <;> rfl
@[simp] theorem Seq.writeG_outPort (x : Seq) (r : BitVec 5) (v : Word64) : (x.writeG r v).outPort = x.outPort := by unfold Seq.writeG; split <;> rfl
@[simp] theorem Seq.writeG_chanMap (x : Seq) (r : BitVec 5) (v : Word64) : (x.writeG r v).chanMap = x.chanMap := by unfold Seq.writeG; split <;> rfl
@[simp] theorem Seq.writeG_sendSeq (x : Seq) (r : BitVec 5) (v : Word64) : (x.writeG r v).sendSeq = x.sendSeq := by unfold Seq.writeG; split <;> rfl
@[simp] theorem Seq.writeG_chBack (x : Seq) (r : BitVec 5) (v : Word64) : (x.writeG r v).chBack = x.chBack := by unfold Seq.writeG; split <;> rfl
@[simp] theorem Seq.writeG_arv (x : Seq) (r : BitVec 5) (v : Word64) : (x.writeG r v).arv = x.arv := by unfold Seq.writeG; split <;> rfl
@[simp] theorem Seq.writeG_run (x : Seq) (r : BitVec 5) (v : Word64) : (x.writeG r v).run = x.run := by unfold Seq.writeG; split <;> rfl
@[simp] theorem Seq.writeG_wait (x : Seq) (r : BitVec 5) (v : Word64) : (x.writeG r v).wait = x.wait := by unfold Seq.writeG; split <;> rfl
@[simp] theorem Seq.writeG_region (x : Seq) (r : BitVec 5) (v : Word64) : (x.writeG r v).region = x.region := by unfold Seq.writeG; split <;> rfl
@[simp] theorem Seq.writeG_tlb (x : Seq) (r : BitVec 5) (v : Word64) : (x.writeG r v).tlb = x.tlb := by unfold Seq.writeG; split <;> rfl
@[simp] theorem Seq.writeG_acq (x : Seq) (r : BitVec 5) (v : Word64) : (x.writeG r v).acq = x.acq := by unfold Seq.writeG; split <;> rfl
@[simp] theorem Seq.writeP_g (x : Seq) (k : BitVec 3) (v : Bool) : (x.writeP k v).g = x.g := by unfold Seq.writeP; split <;> rfl
@[simp] theorem Seq.writeP_pc (x : Seq) (k : BitVec 3) (v : Bool) : (x.writeP k v).pc = x.pc := by unfold Seq.writeP; split <;> rfl
@[simp] theorem Seq.writeP_tvec (x : Seq) (k : BitVec 3) (v : Bool) : (x.writeP k v).tvec = x.tvec := by unfold Seq.writeP; split <;> rfl
@[simp] theorem Seq.writeP_tcause (x : Seq) (k : BitVec 3) (v : Bool) : (x.writeP k v).tcause = x.tcause := by unfold Seq.writeP; split <;> rfl
@[simp] theorem Seq.writeP_tval (x : Seq) (k : BitVec 3) (v : Bool) : (x.writeP k v).tval = x.tval := by unfold Seq.writeP; split <;> rfl
@[simp] theorem Seq.writeP_tepc (x : Seq) (k : BitVec 3) (v : Bool) : (x.writeP k v).tepc = x.tepc := by unfold Seq.writeP; split <;> rfl
@[simp] theorem Seq.writeP_ptag (x : Seq) (k : BitVec 3) (v : Bool) : (x.writeP k v).ptag = x.ptag := by unfold Seq.writeP; split <;> rfl
@[simp] theorem Seq.writeP_tscratch (x : Seq) (k : BitVec 3) (v : Bool) : (x.writeP k v).tscratch = x.tscratch := by unfold Seq.writeP; split <;> rfl
@[simp] theorem Seq.writeP_cycle (x : Seq) (k : BitVec 3) (v : Bool) : (x.writeP k v).cycle = x.cycle := by unfold Seq.writeP; split <;> rfl
@[simp] theorem Seq.writeP_cmode (x : Seq) (k : BitVec 3) (v : Bool) : (x.writeP k v).cmode = x.cmode := by unfold Seq.writeP; split <;> rfl
@[simp] theorem Seq.writeP_resumed (x : Seq) (k : BitVec 3) (v : Bool) : (x.writeP k v).resumed = x.resumed := by unfold Seq.writeP; split <;> rfl
@[simp] theorem Seq.writeP_intrap (x : Seq) (k : BitVec 3) (v : Bool) : (x.writeP k v).intrap = x.intrap := by unfold Seq.writeP; split <;> rfl
@[simp] theorem Seq.writeP_disc (x : Seq) (k : BitVec 3) (v : Bool) : (x.writeP k v).disc = x.disc := by unfold Seq.writeP; split <;> rfl
@[simp] theorem Seq.writeP_sections (x : Seq) (k : BitVec 3) (v : Bool) : (x.writeP k v).sections = x.sections := by unfold Seq.writeP; split <;> rfl
@[simp] theorem Seq.writeP_ctx (x : Seq) (k : BitVec 3) (v : Bool) : (x.writeP k v).ctx = x.ctx := by unfold Seq.writeP; split <;> rfl
@[simp] theorem Seq.writeP_accSat (x : Seq) (k : BitVec 3) (v : Bool) : (x.writeP k v).accSat = x.accSat := by unfold Seq.writeP; split <;> rfl
@[simp] theorem Seq.writeP_accPois (x : Seq) (k : BitVec 3) (v : Bool) : (x.writeP k v).accPois = x.accPois := by unfold Seq.writeP; split <;> rfl
@[simp] theorem Seq.writeP_accs (x : Seq) (k : BitVec 3) (v : Bool) : (x.writeP k v).accs = x.accs := by unfold Seq.writeP; split <;> rfl
@[simp] theorem Seq.writeP_putSeq (x : Seq) (k : BitVec 3) (v : Bool) : (x.writeP k v).putSeq = x.putSeq := by unfold Seq.writeP; split <;> rfl
@[simp] theorem Seq.writeP_tmpl (x : Seq) (k : BitVec 3) (v : Bool) : (x.writeP k v).tmpl = x.tmpl := by unfold Seq.writeP; split <;> rfl
@[simp] theorem Seq.writeP_backoff (x : Seq) (k : BitVec 3) (v : Bool) : (x.writeP k v).backoff = x.backoff := by unfold Seq.writeP; split <;> rfl
@[simp] theorem Seq.writeP_inPort (x : Seq) (k : BitVec 3) (v : Bool) : (x.writeP k v).inPort = x.inPort := by unfold Seq.writeP; split <;> rfl
@[simp] theorem Seq.writeP_outPort (x : Seq) (k : BitVec 3) (v : Bool) : (x.writeP k v).outPort = x.outPort := by unfold Seq.writeP; split <;> rfl
@[simp] theorem Seq.writeP_chanMap (x : Seq) (k : BitVec 3) (v : Bool) : (x.writeP k v).chanMap = x.chanMap := by unfold Seq.writeP; split <;> rfl
@[simp] theorem Seq.writeP_sendSeq (x : Seq) (k : BitVec 3) (v : Bool) : (x.writeP k v).sendSeq = x.sendSeq := by unfold Seq.writeP; split <;> rfl
@[simp] theorem Seq.writeP_chBack (x : Seq) (k : BitVec 3) (v : Bool) : (x.writeP k v).chBack = x.chBack := by unfold Seq.writeP; split <;> rfl
@[simp] theorem Seq.writeP_arv (x : Seq) (k : BitVec 3) (v : Bool) : (x.writeP k v).arv = x.arv := by unfold Seq.writeP; split <;> rfl
@[simp] theorem Seq.writeP_run (x : Seq) (k : BitVec 3) (v : Bool) : (x.writeP k v).run = x.run := by unfold Seq.writeP; split <;> rfl
@[simp] theorem Seq.writeP_wait (x : Seq) (k : BitVec 3) (v : Bool) : (x.writeP k v).wait = x.wait := by unfold Seq.writeP; split <;> rfl
@[simp] theorem Seq.writeP_region (x : Seq) (k : BitVec 3) (v : Bool) : (x.writeP k v).region = x.region := by unfold Seq.writeP; split <;> rfl
@[simp] theorem Seq.writeP_tlb (x : Seq) (k : BitVec 3) (v : Bool) : (x.writeP k v).tlb = x.tlb := by unfold Seq.writeP; split <;> rfl
@[simp] theorem Seq.writeP_acq (x : Seq) (k : BitVec 3) (v : Bool) : (x.writeP k v).acq = x.acq := by unfold Seq.writeP; split <;> rfl

/-- What a register reads as after a write: nothing is written to g0 (R121). -/
theorem Seq.readG_writeG (x : Seq) (r k : BitVec 5) (v : Word64) :
    (x.writeG r v).readG k = if k = r ∧ r ≠ 0 then v else x.readG k := by
  unfold Seq.writeG Seq.readG
  by_cases h0 : r = 0
  · simp [h0]
  · by_cases hk : k = 0
    · subst hk
      have hn : ¬ ((0 : BitVec 5) = r ∧ r ≠ 0) := fun h => h0 h.1.symm
      simp only [hn, if_true, if_false]
    · simp only [h0, hk, if_false, Vector.getElem_set, BitVec.toNat_eq, eq_comm (a := r.toNat), ne_eq, not_false_eq_true, and_true]

/-- What a predicate reads as after a write: nothing is written to p0 (R121). -/
theorem Seq.readP_writeP (x : Seq) (r k : BitVec 3) (v : Bool) :
    (x.writeP r v).readP k = if k = r ∧ r ≠ 0 then v else x.readP k := by
  unfold Seq.writeP Seq.readP
  by_cases h0 : r = 0
  · simp [h0]
  · by_cases hk : k = 0
    · subst hk
      have hn : ¬ ((0 : BitVec 3) = r ∧ r ≠ 0) := fun h => h0 h.1.symm
      simp only [hn, if_true, if_false]
    · simp only [h0, hk, if_false, Vector.getElem_set, BitVec.toNat_eq, eq_comm (a := r.toNat), ne_eq, not_false_eq_true, and_true]

end Sys2Proof.Machine
end

