-- ==== Sys2Proof/Laws/Ops.lean ====
section
/-!
SUPPORT. One lemma per shared operation, each saying once everything the operation can do: the guards, the results, the traps, the accesses,
the turns of a node, of a decision, of a row manager and of an engine; and what the operations of the fabric leave of memory.
-/

namespace Sys2Proof.Machine

/-! ### Guards and results of the sequencer -/

theorem State.goOn_eq (s : State) (sq : Seq) : s.goOn sq = .next (s.setSeq s.seqTurn { sq with pc := sq.pc + 4 }) := rfl

/-- An instruction whose guard fails goes on and does nothing more (R49, R128). -/
theorem guarded_false {s : State} {k : BitVec 3} {sense : BitVec 1} (body : Seq → Result)
    (h : (s.seq s.seqTurn).guardHolds k sense = false) : guarded s k sense body = s.goOn (s.seq s.seqTurn) := by
  simp only [guarded, h]; rfl

/-- An instruction whose guard holds is its body (R49). -/
theorem guarded_true {s : State} {k : BitVec 3} {sense : BitVec 1} (body : Seq → Result)
    (h : (s.seq s.seqTurn).guardHolds k sense = true) : guarded s k sense body = body (s.seq s.seqTurn) := by
  simp only [guarded, h, if_true]

/-- The predicate 0 always holds, so an unguarded instruction is its body (R49, R121). -/
theorem guarded_p0 (s : State) (body : Seq → Result) : guarded s 0 0 body = body (s.seq s.seqTurn) := guarded_true body rfl

/-- Everything a guarded instruction can do. -/
theorem guarded_cases (s : State) (k : BitVec 3) (sense : BitVec 1) (body : Seq → Result) :
    ((s.seq s.seqTurn).guardHolds k sense = true ∧ guarded s k sense body = body (s.seq s.seqTurn)) ∨
    ((s.seq s.seqTurn).guardHolds k sense = false ∧ guarded s k sense body = s.goOn (s.seq s.seqTurn)) := by
  cases h : (s.seq s.seqTurn).guardHolds k sense
  · exact .inr ⟨rfl, guarded_false body h⟩
  · exact .inl ⟨rfl, guarded_true body h⟩

/-- A register operation always goes on: with its result in its register where the guard holds, and with nothing else changed. -/
theorem aluOp_eq (s : State) (d : BitVec 5) (g : BitVec 3) (sn : BitVec 1) (f : Seq → Word64) :
    aluOp s d g sn f = .next (s.setSeq s.seqTurn
      (if (s.seq s.seqTurn).guardHolds g sn then ((s.seq s.seqTurn).writeG d (f (s.seq s.seqTurn))).advance
        else (s.seq s.seqTurn).advance)) := by
  unfold aluOp
  obtain ⟨h, e⟩ | ⟨h, e⟩ := guarded_cases s g sn (fun sq => s.goOn (sq.writeG d (f sq))) <;> rw [e, h] <;> rfl

/-- A comparison always goes on: with its predicate where the guard holds, and with nothing else changed (R135). -/
theorem cmpOp_eq (s : State) (d : BitVec 3) (g : BitVec 3) (sn : BitVec 1) (f : Seq → Bool) :
    cmpOp s d g sn f = .next (s.setSeq s.seqTurn
      (if (s.seq s.seqTurn).guardHolds g sn then ((s.seq s.seqTurn).writeP d (f (s.seq s.seqTurn))).advance
        else (s.seq s.seqTurn).advance)) := by
  unfold cmpOp
  obtain ⟨h, e⟩ | ⟨h, e⟩ := guarded_cases s g sn (fun sq => s.goOn (sq.writeP d (f sq))) <;> rw [e, h] <;> rfl

/-- An instruction of a region's objects: nothing under a false guard, RegionFrozen in a handler of a FROZEN region, else its body
(R388). -/
theorem regionGuarded_cases (s : State) (g : BitVec 3) (val : Word64) (body : Seq → Result) :
    ((s.seq s.seqTurn).guardHolds g 0 = false ∧ regionGuarded s g val body = s.goOn (s.seq s.seqTurn)) ∨
    ((s.seq s.seqTurn).guardHolds g 0 = true ∧ (s.seq s.seqTurn).run = .handler ∧
      regionGuarded s g val body = s.trap tRegionFrozen val) ∨
    ((s.seq s.seqTurn).guardHolds g 0 = true ∧ (s.seq s.seqTurn).run ≠ .handler ∧
      regionGuarded s g val body = body (s.seq s.seqTurn)) := by
  unfold regionGuarded
  obtain ⟨h, e⟩ | ⟨h, e⟩ := guarded_cases s g 0 (fun sq => if sq.run = .handler then s.trap tRegionFrozen val else body sq)
  · by_cases hr : (s.seq s.seqTurn).run = .handler
    · exact .inr (.inl ⟨h, hr, by rw [e]; simp only [hr, if_true]⟩)
    · exact .inr (.inr ⟨h, hr, by rw [e]; simp only [hr, if_false]⟩)
  · exact .inl ⟨h, e⟩

/-- An inlet instruction in a running region: PortUnbound, or its body at the queue behind the port (R122). -/
theorem onInlet_run {s : State} {g : BitVec 3} (n : BitVec 6) (body : Seq → CellId → BitVec 3 → Queue → Result)
    (hg : (s.seq s.seqTurn).guardHolds g 0 = true) (hr : (s.seq s.seqTurn).run ≠ .handler) :
    onInlet s g n body = match s.inlet s.seqTurn n with
      | none => s.trap tPortUnbound (inVal n)
      | some (p, x) => body (s.seq s.seqTurn) p.1 p.2 x := by
  simp only [onInlet, regionGuarded, guarded, hg, hr, if_true, if_false] <;> rfl

/-- The same of an outlet instruction. -/
theorem onOutlet_run {s : State} {g : BitVec 3} (n : BitVec 6) (body : Seq → Queue → Result)
    (hg : (s.seq s.seqTurn).guardHolds g 0 = true) (hr : (s.seq s.seqTurn).run ≠ .handler) :
    onOutlet s g n body = match (s.seq s.seqTurn).outPort[n.toNat] with
      | none => s.trap tPortUnbound (outVal n)
      | some x => body (s.seq s.seqTurn) x := by
  simp only [onOutlet, regionGuarded, guarded, hg, hr, if_true, if_false] <;> rfl

/-- A group instruction in a running region: NoGroup, or its body at the group (R291 to R293). -/
theorem onGroup_run {s : State} {g : BitVec 3} {r : Region} {x : Group} (n : BitVec 6) (body : Seq → Region → Group → Result)
    (hg : (s.seq s.seqTurn).guardHolds g 0 = true) (hr : (s.seq s.seqTurn).run ≠ .handler)
    (hreg : s.regionOfSeq s.seqTurn = some r) (hx : r.groups[n.toNat]? = some x) :
    onGroup s g n body = body (s.seq s.seqTurn) r x := by
  simp only [onGroup, regionGuarded, guarded, hg, hr, if_true, if_false, hreg, hx]

/-! ### Traps (R383, R384) -/

/-- A trap outside a handler, with a handler to go to: the four registers, and the program counter at TVEC (R383). -/
theorem State.takeTrap_handler {s : State} {q : BitVec 7} (cause : Nat) (val : Word64) (h : (s.seq q).intrap = false)
    (hv : (s.seq q).tvec ≠ 0) :
    s.takeTrap q cause val = s.setSeq q { s.seq q with
      tepc := (s.seq q).pc, tcause := BitVec.ofNat 64 cause, tval := val, wait := .none, intrap := true, pc := (s.seq q).tvec } := by
  have : ((s.seq q).intrap || (s.seq q).tvec == 0) = false := by
    simpa only [h, Bool.false_or, beq_eq_false_iff_ne] using hv
  simp only [State.takeTrap, this]; rfl

/-- A trap in a handler, or with no handler: the registers are written and the sequencer stops with the kernel fault (R130, R383). -/
theorem State.takeTrap_kernel {s : State} {q : BitVec 7} (cause : Nat) (val : Word64)
    (h : (s.seq q).intrap = true ∨ (s.seq q).tvec = 0) :
    s.takeTrap q cause val = (s.setSeq q { s.seq q with
      tepc := (s.seq q).pc, tcause := BitVec.ofNat 64 cause, tval := val, wait := .none }).seqFault q 0x1D
        (if cause = 5 ∨ cause = 7 ∨ cause = 8 ∨ cause = 28 then val else 0) := by
  have : ((s.seq q).intrap || (s.seq q).tvec == 0) = true := by
    cases h with
    | inl h => simp [h]
    | inr h => simp [h]
  simp only [State.takeTrap, this, if_true]

/-- A return from a trap: back to TEPC outside the handler; a sequencer of a FROZEN region stops (R384, R397). -/
theorem State.trapReturn_seq (s : State) (q : BitVec 7) :
    (s.trapReturn q).seq q = { s.seq q with
      pc := (s.seq q).tepc, intrap := false,
      run := if (s.seq q).run = .handler then .stopped else (s.seq q).run } := by
  simp only [State.trapReturn, State.setSeq_seq, if_true]

/-! ### Memory accesses -/

/-- A memory access under its guard: nothing, its body, or a wait until it may issue (R128, R310). -/
theorem memAccess_cases (s : State) (g : BitVec 3) (body : Seq → Result) :
    ((s.seq s.seqTurn).guardHolds g 0 = false ∧ memAccess s g body = s.goOn (s.seq s.seqTurn)) ∨
    ((s.seq s.seqTurn).guardHolds g 0 = true ∧ s.mayAccess (s.seq s.seqTurn) = true ∧ memAccess s g body = body (s.seq s.seqTurn)) ∨
    ((s.seq s.seqTurn).guardHolds g 0 = true ∧ s.mayAccess (s.seq s.seqTurn) = false ∧
      memAccess s g body = .next (s.setSeq s.seqTurn { s.seq s.seqTurn with wait := .memory })) := by
  unfold memAccess
  obtain ⟨h, e⟩ | ⟨h, e⟩ := guarded_cases s g 0 (fun sq =>
    if s.mayAccess sq then body sq else .next (s.setSeq s.seqTurn { sq with wait := .memory }))
  · cases hm : s.mayAccess (s.seq s.seqTurn)
    · exact .inr (.inr ⟨h, rfl, by rw [e]; simp only [hm]; rfl⟩)
    · exact .inr (.inl ⟨h, rfl, by rw [e]; simp only [hm, if_true]⟩)
  · exact .inl ⟨h, e⟩

/-- An access that is aligned, translated, reachable and not poisoned is its body at the translations (R142 to R144, R403). -/
theorem State.accessAll_ok {s s1 : State} {right : Right} {n : Nat} {vas : List Word64} {xs : List Xlated}
    (body : State → List Xlated → Result) (ha : vas.find? (fun va => decide (va.toNat % n ≠ 0)) = none)
    (hx : s.xlateAll s.seqTurn right vas = (.ok xs, s1))
    (hw : ∀ x ∈ xs, s.pathTo (seqDie s.seqTurn) x.pa = .up)
    (hp : right = .w ∨ (s1.settle (.seq s.seqTurn)).poisonedAt n (vas.zip xs) = none) :
    s.accessAll right n vas body = body (s1.settle (.seq s.seqTurn)) xs := by
  have h1 : (xs.map (fun x => s.pathTo (seqDie s.seqTurn) x.pa)).any (fun w => w == .broken) = false := by
    simp only [List.any_map, List.any_eq_false, Function.comp_apply]
    intro x h; rw [hw x h]; decide
  have h2 : (xs.map (fun x => s.pathTo (seqDie s.seqTurn) x.pa)).any (fun w => w == .down) = false := by
    simp only [List.any_map, List.any_eq_false, Function.comp_apply]
    intro x h; rw [hw x h]; decide
  unfold State.accessAll
  simp only [ha, hx, h1, h2]
  rcases hp with hp | hp
  · simp [hp]
  · by_cases hr : right = .w <;> simp [hr, hp]

/-- A barrier instruction under its guard: nothing, the state of its body, or a wait until it may issue (R298, R310). -/
theorem barGuarded_cases (s : State) (g c : BitVec 3) (body : Seq → State) :
    ((s.seq s.seqTurn).guardHolds g 0 = false ∧ barGuarded s g c body = s.goOn (s.seq s.seqTurn)) ∨
    ((s.seq s.seqTurn).guardHolds g 0 = true ∧ (s.mayAccess (s.seq s.seqTurn) && s.mayOrder 3 c) = true ∧
      barGuarded s g c body = .next (body (s.seq s.seqTurn))) ∨
    ((s.seq s.seqTurn).guardHolds g 0 = true ∧ (s.mayAccess (s.seq s.seqTurn) && s.mayOrder 3 c) = false ∧
      barGuarded s g c body = s.waitOn .memory) := by
  unfold barGuarded
  obtain ⟨h, e⟩ | ⟨h, e⟩ := guarded_cases s g 0
    (fun sq => if s.mayAccess sq && s.mayOrder 3 c then .next (body sq) else s.waitOn .memory)
  · cases hm : s.mayAccess (s.seq s.seqTurn) && s.mayOrder 3 c
    · exact .inr (.inr ⟨h, rfl, by rw [e]; simp only [hm]; rfl⟩)
    · exact .inr (.inl ⟨h, rfl, by rw [e]; simp only [hm, if_true]⟩)
  · exact .inl ⟨h, e⟩

/-! ### Turns of engines, decisions and row managers -/

/-- Everything an engine's turn can do: nothing where its queue is empty, or the head is another row's or behind a bridge that is not UP; a stop where the descriptor lies in no
window; STATUS 2 where the function is not ready; else the row's body with the descriptor taken (R443), behind the stores that are
ordered before its reads. -/
theorem State.serve_cases (s : State) (d : BitVec 3) (e : Fin 6) (off : Nat) (mine : (Nat → Word64) → Bool)
    (body : QDesc → (Nat → Word64) → State → State) :
    s.serve d e off mine body = .next s ∨
    ∃ q rest, (s.die d).queue e = q :: rest ∧
      let dw := (s.settleDie d).wordOf d q
      let s1 := (s.settleDie d).modDie d (fun x => { x with engq := x.engq.set e rest })
      ((∃ pa, q.hole = some pa ∧ s.serve d e off mine body = .fault (.noSuchAddress pa)) ∨
        (q.hole = none ∧ mine dw = true ∧ s.serve d e off mine body = .next (s1.complete d q off 1 2)) ∨
        (q.hole = none ∧ mine dw = true ∧ s.serve d e off mine body = .next (body q dw s1))) := by
  unfold State.serve
  split
  · exact .inl rfl
  · next q rest hq =>
    cases hh : q.hole with
    | some pa => exact .inr ⟨q, rest, hq, .inl ⟨pa, hh, rfl⟩⟩
    | none =>
      cases hm : s.descUp d q.desc && mine ((s.settleDie d).wordOf d q) with
      | false => left; simp only [← Bool.not_and, hm, Bool.not_false, if_true]
      | true =>
        refine .inr ⟨q, rest, hq, .inr ?_⟩
        simp only [← Bool.not_and, hm, Bool.not_true, Bool.false_eq_true, if_false]
        replace hm := (Bool.and_eq_true_iff.mp hm).2
        split
        · exact .inl ⟨hh, hm, rfl⟩
        · exact .inr ⟨hh, hm, rfl⟩

/-- Everything a policy word can do: nothing without a decision in progress, else one step more of it (R418). -/
theorem onDecision_cases (s : State) (f : Decision → Decision) :
    onDecision s f = .next s ∨
    ∃ x, (s.die s.polTurn).dec = some x ∧ x.ended = none ∧ x.steps < 256 ∧
      onDecision s f = .next (s.modDie s.polTurn (fun d => { d with dec := some (f { x with steps := x.steps + 1 }) })) := by
  unfold onDecision
  split
  · exact .inl rfl
  · next x hx =>
    split
    · exact .inl rfl
    · next hn =>
      refine .inr ⟨x, hx, ?_, by omega, rfl⟩
      cases he : x.ended with
      | none => rfl
      | some _ => simp [he] at hn

/-- A command of a row manager changes that row manager's registers, and takes it past its word, which is counted. -/
theorem State.rmOn_eq (s : State) (f : Rm → Rm) :
    s.rmOn f = .next (s.setRm s.rmTurn (f (s.rm s.rmTurn)).advance) := rfl

/-! ### Turns of nodes (R21 to R25) -/

/-- Everything a node's turn can do: nothing in a cell that may not fire, the delivery of results that wait, or the node's act. -/
theorem State.atNode_cases (s : State) (act : CellId → BitVec 3 → Cell → State) :
    let c := s.nodeTurn.1
    let k := s.nodeTurn.2
    (s.cellRuns c = false ∧ s.atNode act = s) ∨
    (s.cellRuns c = true ∧ (s.cell c).due[k.toNat] = [] ∧ s.atNode act = act c k (s.cell c)) ∨
    (s.cellRuns c = true ∧ (s.cell c).due[k.toNat] ≠ [] ∧
      s.atNode act = (s.modCell c (fun x => { x with due := x.due.set k.toNat [] })).deliverAll c k (s.cell c).due[k.toNat]) := by
  dsimp only
  unfold State.atNode State.here
  dsimp only
  split
  · next h => exact .inl ⟨by simpa using h, rfl⟩
  · next h =>
    have hr : s.cellRuns s.nodeTurn.1 = true := by simpa using h
    split
    · next h => exact .inr (.inl ⟨hr, List.isEmpty_iff.mp h, rfl⟩)
    · next h => exact .inr (.inr ⟨hr, fun e => h (List.isEmpty_iff.mpr e), rfl⟩)

/-- A node with DATA at every position and room for its results fires (R21). -/
theorem State.nodeActWith_data {s : State} {used : List Nat} {ts : List (BitVec 6)}
    (fire : CellId → BitVec 3 → Operands → State → State) (post : CellId → BitVec 3 → BitVec 4 → State → State)
    (hr : s.cellRuns s.nodeTurn.1 = true) (hd : (s.cell s.nodeTurn.1).due[s.nodeTurn.2.toNat] = [])
    (hh : (s.cell s.nodeTurn.1).heads s.nodeTurn.2 used = .data)
    (ht : ts.all ((s.cell s.nodeTurn.1).targetFree s.nodeTurn.2 used) = true) :
    s.nodeActWith used ts fire post =
      fire s.nodeTurn.1 s.nodeTurn.2 ((s.cell s.nodeTurn.1).operands s.nodeTurn.2 used) s := by
  simp only [State.nodeActWith, State.atNode, State.here, hr, hd, hh, ht, Bool.not_true, Bool.false_eq_true, if_false, if_true,
    List.isEmpty_nil]

/-! ### What leaves memory as it is -/

/-- The memory of a state: its bytes, the keys its lines are sealed under, and its poisoned lines. -/
def State.store (s : State) := (s.mem, s.lineKey, s.poison)

theorem MemOk.of_store {s t : State} (h : t.store = s.store) (hs : MemOk s) : MemOk t :=
  MemOk.of_mem (congrArg Prod.fst h) hs

@[simp] theorem State.setSeq_store (s : State) (q : BitVec 7) (v : Seq) : (s.setSeq q v).store = s.store := rfl
@[simp] theorem State.modSeq_store (s : State) (q : BitVec 7) (f : Seq → Seq) : (s.modSeq q f).store = s.store := rfl
@[simp] theorem State.setDie_store (s : State) (d : BitVec 3) (v : Die) : (s.setDie d v).store = s.store := rfl
@[simp] theorem State.modDie_store (s : State) (d : BitVec 3) (f : Die → Die) : (s.modDie d f).store = s.store := rfl
@[simp] theorem State.setCell_store (s : State) (c : CellId) (v : Cell) : (s.setCell c v).store = s.store := rfl
@[simp] theorem State.modCell_store (s : State) (c : CellId) (f : Cell → Cell) : (s.modCell c f).store = s.store := rfl
@[simp] theorem State.setCtx_store (s : State) (n : BitVec 9) (v : Ctx) : (s.setCtx n v).store = s.store := rfl
@[simp] theorem State.setRm_store (s : State) (m : BitVec 10) (v : Rm) : (s.setRm m v).store = s.store := rfl
@[simp] theorem State.setRegion_store (s : State) (r : Region) : (s.setRegion r).store = s.store := rfl
@[simp] theorem State.modRegion_store (s : State) (n : Nat) (f : Region → Region) : (s.modRegion n f).store = s.store := rfl

@[simp] theorem State.event_store (s : State) (d : BitVec 3) (typ : BitVec 8) (ctx : BitVec 9) (x y z : Word64) :
    (s.event d typ ctx x y z).store = s.store := rfl

@[simp] theorem State.note_store (s : State) (d : BitVec 3) (typ : BitVec 8) (ctx : BitVec 9) (x y : Word64) :
    (s.note d typ ctx x y).store = s.store := rfl

@[simp] theorem State.softError_store (s : State) (d : BitVec 3) (ctx : BitVec 9) (x : Word64) :
    (s.softError d ctx x).store = s.store := rfl

@[simp] theorem State.moveCtx_store (s : State) (d : BitVec 3) (n : BitVec 9) (f : Ctx → Ctx) :
    (s.moveCtx d n f).store = s.store := by
  unfold State.moveCtx; dsimp only; split <;> rfl

/-- A list of steps that each leave memory as it is leaves it so. -/
theorem foldl_store {α : Type} (f : State → α → State) (h : ∀ s a, (f s a).store = s.store) (l : List α) (s : State) :
    (l.foldl f s).store = s.store := by
  induction l generalizing s with
  | nil => rfl
  | cons a l ih => exact (ih _).trans (h s a)

@[simp] theorem State.unmute_store (s : State) (r : Region) : (s.unmute r).store = s.store := rfl

@[simp] theorem State.demote_store (s : State) (r : Region) : (s.demote r).store = s.store := by
  unfold State.demote; split <;> rfl

@[simp] theorem State.abandonCut_store (s : State) (r : Region) : (s.abandonCut r).store = s.store := by
  unfold State.abandonCut; split
  · rfl
  · dsimp only; split <;> rfl

@[simp] theorem State.abandonPreempt_store (s : State) (r : Region) : (s.abandonPreempt r).store = s.store := by
  unfold State.abandonPreempt; split
  · exact foldl_store _ (fun s r => s.abandonCut_store r) _ s
  · rfl

@[simp] theorem State.freezeIfStopped_store (s : State) (n : Nat) : (s.freezeIfStopped n).store = s.store := by
  unfold State.freezeIfStopped
  split
  · rfl
  · split
    · simp only [State.event_store, State.modDie_store, State.moveCtx_store, State.abandonPreempt_store, State.setRegion_store,
        State.modSeq_store]
      unfold State.store
      dsimp only
      split
      · exact s.unmute_store _
      · rfl
    · rfl

@[simp] theorem State.raiseFault_store (s : State) (c : CellId) (f : FaultReg) : (s.raiseFault c f).store = s.store := by
  unfold State.raiseFault
  split
  · rfl
  · dsimp only
    split <;> simp only [State.modRegion_store, State.freezeIfStopped_store, State.setDie_store, State.setCell_store] <;> split <;> simp

@[simp] theorem State.seqFault_store (s : State) (q : BitVec 7) (code : Nat) (a : Word64) : (s.seqFault q code a).store = s.store := by
  unfold State.seqFault; dsimp only; split <;> simp

@[simp] theorem State.takeTrap_store (s : State) (q : BitVec 7) (cause : Nat) (val : Word64) :
    (s.takeTrap q cause val).store = s.store := by
  unfold State.takeTrap; dsimp only; split <;> simp

@[simp] theorem State.trapReturn_store (s : State) (q : BitVec 7) : (s.trapReturn q).store = s.store := rfl

/-- A translation may fill or drop cached translations; it changes nothing else of memory. -/
@[simp] theorem State.xlate_store (s : State) (q : BitVec 7) (right : Right) (va : Word64) : (s.xlate q right va).2.store = s.store := by
  unfold State.xlate
  dsimp only
  split
  · rfl
  · split
    · rfl
    · rfl
    · split
      · rfl
      · split <;> rfl

@[simp] theorem State.xlateEngine_store (s : State) (d : BitVec 3) (ctx : BitVec 9) (right : Right) (va : Word64) :
    (s.xlateEngine d ctx right va).2.store = s.store := by
  unfold State.xlateEngine
  dsimp only
  split
  · rfl
  · split
    · rfl
    · split <;> rfl

@[simp] theorem State.xlateAll_store (vas : List Word64) (s : State) (q : BitVec 7) (right : Right) :
    (s.xlateAll q right vas).2.store = s.store := by
  induction vas generalizing s with
  | nil => rfl
  | cons va vas ih =>
    have h := s.xlate_store q right va
    unfold State.xlateAll
    split
    · next heq => rw [heq] at h; exact h
    · next s1 heq =>
      rw [heq] at h
      have h1 := ih s1
      split
      · next h2 => rw [h2] at h1; exact h1.trans h
      · next h2 => rw [h2] at h1; exact h1.trans h

@[simp] theorem State.sendPulse_store (s : State) (c : CellId) (po : BitVec 3) (kind : BitVec 2) :
    (s.sendPulse c po kind).store = s.store := rfl

@[simp] theorem State.newHead_store (s : State) (c : CellId) (k : BitVec 3) (before : Option Item) :
    (s.newHead c k before).store = s.store := by
  unfold State.newHead; split
  · split
    · exact State.raiseFault_store _ _ _
    · rfl
  · rfl

@[simp] theorem State.popQ_store (s : State) (c : CellId) (k : BitVec 3) : (s.popQ c k).store = s.store := by
  unfold State.popQ; dsimp only; rw [State.newHead_store]; split <;> simp

/-- A ring entry that cannot be accessed leaves memory as it is. -/
theorem State.ringMiss_store (l : List Nat) (s : State) (d : BitVec 3) (ctx : BitVec 9) (q : Queue) {f : XFault} {va : Word64} {t : State}
    (h : s.ringMiss d ctx q l = some (f, va, t)) : t.store = s.store := by
  induction l with
  | nil => exact nomatch h
  | cons i l ih =>
    unfold State.ringMiss at h
    split at h
    · cases h; rfl
    · cases h; rfl
    · next heq => cases h; rw [← s.xlateEngine_store d ctx .rw (q.ringVa i), heq]
    · exact ih h

@[simp] theorem State.offerOut_store (s : State) (q : BitVec 7) (p : BitVec 6) (u : Item) : (s.offerOut q p u).store = s.store := by
  unfold State.offerOut
  dsimp only
  split
  · rfl
  · split
    · rfl
    · split
      · rfl
      · next hm =>
        obtain ⟨⟨f, va, t⟩, hm, hf⟩ := Option.bind_eq_some_iff.mp hm
        obtain ⟨c, -, hc⟩ := Option.map_eq_some_iff.mp hf
        cases hc
        exact (State.raiseFault_store _ _ _).trans ((State.ringMiss_store _ _ _ _ _ hm).trans (State.setSeq_store _ _ _))
      · exact State.raiseFault_store _ _ _
      · rfl

@[simp] theorem State.convEot_store (s : State) (c : CellId) (site : BitVec 6) (tensor : BitVec 16) :
    (s.convEot c site tensor).store = s.store := by
  unfold State.convEot
  dsimp only
  split
  · split <;> simp
  · simp

@[simp] theorem State.convertAt_store (s : State) (c : CellId) (w : SwWord) (e : ExtWord) (u : Item) :
    (s.convertAt c w e u).2.store = s.store := by
  unfold State.convertAt
  dsimp only
  split
  · rfl
  · split
    · exact State.convEot_store _ _ _ _
    · split <;> rfl

@[simp] theorem State.onLink_store (s : State) (c : CellId) (l : LinkEntry) (u : Item) : (s.onLink c l u).store = s.store := by
  unfold State.onLink; dsimp only; split <;> rfl

@[simp] theorem State.leaveBy_store (s : State) (c : CellId) (so : BitVec 5) (u : Item) : (s.leaveBy c so u).store = s.store := by
  have h := foldl_store (fun (s : State) (l : LinkEntry) => s.onLink c l u) (fun s l => s.onLink_store c l u)
    ((s.cell c).active.links.filter (fun l => l.so = so)) s
  unfold State.leaveBy
  dsimp only
  split
  · exact (State.offerOut_store _ _ _ _).trans h
  · exact h

@[simp] theorem State.leavePath_store (s : State) (c : CellId) (w : SwWord) (u : Item) : (s.leavePath c w u).store = s.store :=
  foldl_store _ (fun s o => s.leaveBy_store c o u) _ s

@[simp] theorem State.emitOutlet_store (s : State) (c : CellId) (so : BitVec 5) (u : Item) : (s.emitOutlet c so u).store = s.store := by
  unfold State.emitOutlet
  split
  · simp
  · split <;> simp

@[simp] theorem State.deliver_store (s : State) (c : CellId) (t : BitVec 6) (u : Item) : (s.deliver c t u).store = s.store := by
  unfold State.deliver; split <;> simp

@[simp] theorem State.deliverAll_store (l : List (BitVec 6 × Item)) (s : State) (c : CellId) (k : BitVec 3) :
    (s.deliverAll c k l).store = s.store := by
  induction l generalizing s with
  | nil => rfl
  | cons p l ih =>
    obtain ⟨t, u⟩ := p
    unfold State.deliverAll
    split
    · exact (ih _).trans (s.deliver_store c t u)
    · simp

@[simp] theorem State.take_store (s : State) (c : CellId) (k : BitVec 3) (p : Nat) : (s.take c k p).store = s.store := by
  have ht : (s.takeTrigger c k p).store = s.store := by unfold State.takeTrigger; split <;> simp
  unfold State.take
  dsimp only
  split
  · split
    · simp
    · exact ht
  · split
    · simp
    · exact ht

@[simp] theorem State.consume_store (s : State) (c : CellId) (k : BitVec 3) (used : List Nat) : (s.consume c k used).store = s.store :=
  foldl_store (fun s p => s.take c k p) (fun s p => s.take_store c k p) used s

@[simp] theorem State.forwardGap_store (s : State) (c : CellId) (k : BitVec 3) (ts : List (BitVec 6)) (p : Nat) :
    (s.forwardGap c k ts p).store = s.store := by
  unfold State.forwardGap; split <;> simp

@[simp] theorem State.passSink_store (s : State) (c : CellId) (k : BitVec 3) (i : Option Inv) : (s.passSink c k i).store = s.store := by
  unfold State.passSink; split <;> simp

@[simp] theorem State.afterToken_store (s : State) (c : CellId) (k : BitVec 3) (kind : BitVec 4) (is : List Inv) :
    (s.afterToken c k kind is).store = s.store := by
  unfold State.afterToken
  split
  · exact (foldl_store _ (fun s i => s.passSink_store c k (some i)) is _).trans (State.sendPulse_store _ _ _ _)
  · split
    · rfl
    · rfl

theorem State.forwardTokenAfter_store (s : State) (c : CellId) (k : BitVec 3) (used : List Nat) (ts : List (BitVec 6))
    (kind : BitVec 4) (node : State → State) (first : List (BitVec 6 × Item)) (h : ∀ t, (node t).store = t.store) :
    (s.forwardTokenAfter c k used ts kind node first).store = s.store := by
  unfold State.forwardTokenAfter
  dsimp only
  split
  · split
    · rfl
    · exact State.raiseFault_store _ _ _
  · simp [State.consumeTokens, h]

@[simp] theorem State.forwardToken_store (s : State) (c : CellId) (k : BitVec 3) (used : List Nat) (ts : List (BitVec 6))
    (kind : BitVec 4) : (s.forwardToken c k used ts kind).store = s.store := s.forwardTokenAfter_store c k used ts kind id [] (fun _ => rfl)

@[simp] theorem State.nodeFault_store (s : State) (c : CellId) (k : BitVec 3) (code : Nat) (u : Option Item) :
    (s.nodeFault c k code u).store = s.store := State.raiseFault_store _ _ _

@[simp] theorem State.fireWith_store (s : State) (c : CellId) (k : BitVec 3) (used : List Nat) (outs : List (BitVec 6 × Item)) :
    (s.fireWith c k used outs).store = s.store := by simp [State.fireWith]

theorem State.atNode_store (s : State) (act : CellId → BitVec 3 → Cell → State) (h : ∀ c k x, (act c k x).store = s.store) :
    (s.atNode act).store = s.store := by
  obtain ⟨_, e⟩ | ⟨_, _, e⟩ | ⟨_, _, e⟩ := s.atNode_cases act <;> rw [e]
  · exact h _ _ _
  · simp

/-- A node's turn leaves memory as it is wherever its firing, and what it does behind a token, do. -/
theorem State.nodeActWith_store (s : State) (used : List Nat) (ts : List (BitVec 6))
    (fire : CellId → BitVec 3 → Operands → State → State) (post : CellId → BitVec 3 → BitVec 4 → State → State)
    (hf : ∀ c k o, (fire c k o s).store = s.store) (hp : ∀ c k kind t, (post c k kind t).store = t.store) :
    (s.nodeActWith used ts fire post).store = s.store := by
  refine s.atNode_store _ fun c k x => ?_
  split
  · rfl
  · exact State.raiseFault_store _ _ _
  · exact State.raiseFault_store _ _ _
  · split <;> simp
  · split
    · rw [hp]; simp
    · rfl
  · split
    · exact hf _ _ _
    · rfl

end Sys2Proof.Machine
end

