-- ==== Sys2Proof/Laws/PerInstr.lean ====
section
/-!
SUPPORT. The family RoundTrip, one lemma for each constructor: the word of a well-formed instruction is read back as that
instruction by the decoder of its set. `khalt` is one word for its two rows.
-/

namespace Sys2Proof.Laws.RoundTrip

/-- What a row manager reads the instruction's word as: the two rows of `khalt` share one word, which rs1 tells apart. -/
def rmReading : Instr → Instr
  | .khaltResume a => .khaltHalt a
  | i => i

/-- The word of the instruction is read back as the instruction. -/
def Statement (i : Instr) : Prop :=
  i.wf = true → ∀ w, encode i = some w →
    decodeSeq w = .ok i ∨ decodeRm w = .command (rmReading i) ∨ decodeNode w = .ok i ∨ decodePolicy w = .ok i

theorem add (d : BitVec 5) (a : BitVec 5) (b : BitVec 5) (g : BitVec 3) (sn : BitVec 1) : Statement (.add d a b g sn) := by
  intro wf w h
  have hw : place 0x04000000 (List.map Slot.pair [⟨21, 5, d⟩, ⟨16, 5, a⟩, ⟨11, 5, b⟩, ⟨8, 3, g⟩, ⟨7, 1, sn⟩]) = w := Option.some.inj h
  have hs : shape [⟨21, 5, d⟩, ⟨16, 5, a⟩, ⟨11, 5, b⟩, ⟨8, 3, g⟩, ⟨7, 1, sn⟩] = [(21, 5), (16, 5), (11, 5), (8, 3), (7, 1)] := rfl
  refine .inl ?_
  rw [decodeSeq, fld_of hw hs 26 6 1 rfl rfl rfl]
  show decodeAlu w = _
  rw [decodeAlu, fld_of hw hs 0 7 0 rfl rfl rfl]
  show gate _ _ = _
  rw [fbv_of hw hs 0 21 5 d rfl rfl rfl,
    fbv_of hw hs 1 16 5 a rfl rfl rfl,
    fbv_of hw hs 2 11 5 b rfl rfl rfl,
    fbv_of hw hs 3 8 3 g rfl rfl rfl,
    fbv_of hw hs 4 7 1 sn rfl rfl rfl]
  exact gate_ok rfl wf

theorem sub (d : BitVec 5) (a : BitVec 5) (b : BitVec 5) (g : BitVec 3) (sn : BitVec 1) : Statement (.sub d a b g sn) := by
  intro wf w h
  have hw : place 0x04000001 (List.map Slot.pair [⟨21, 5, d⟩, ⟨16, 5, a⟩, ⟨11, 5, b⟩, ⟨8, 3, g⟩, ⟨7, 1, sn⟩]) = w := Option.some.inj h
  have hs : shape [⟨21, 5, d⟩, ⟨16, 5, a⟩, ⟨11, 5, b⟩, ⟨8, 3, g⟩, ⟨7, 1, sn⟩] = [(21, 5), (16, 5), (11, 5), (8, 3), (7, 1)] := rfl
  refine .inl ?_
  rw [decodeSeq, fld_of hw hs 26 6 1 rfl rfl rfl]
  show decodeAlu w = _
  rw [decodeAlu, fld_of hw hs 0 7 1 rfl rfl rfl]
  show gate _ _ = _
  rw [fbv_of hw hs 0 21 5 d rfl rfl rfl,
    fbv_of hw hs 1 16 5 a rfl rfl rfl,
    fbv_of hw hs 2 11 5 b rfl rfl rfl,
    fbv_of hw hs 3 8 3 g rfl rfl rfl,
    fbv_of hw hs 4 7 1 sn rfl rfl rfl]
  exact gate_ok rfl wf

theorem and (d : BitVec 5) (a : BitVec 5) (b : BitVec 5) (g : BitVec 3) (sn : BitVec 1) : Statement (.and d a b g sn) := by
  intro wf w h
  have hw : place 0x04000002 (List.map Slot.pair [⟨21, 5, d⟩, ⟨16, 5, a⟩, ⟨11, 5, b⟩, ⟨8, 3, g⟩, ⟨7, 1, sn⟩]) = w := Option.some.inj h
  have hs : shape [⟨21, 5, d⟩, ⟨16, 5, a⟩, ⟨11, 5, b⟩, ⟨8, 3, g⟩, ⟨7, 1, sn⟩] = [(21, 5), (16, 5), (11, 5), (8, 3), (7, 1)] := rfl
  refine .inl ?_
  rw [decodeSeq, fld_of hw hs 26 6 1 rfl rfl rfl]
  show decodeAlu w = _
  rw [decodeAlu, fld_of hw hs 0 7 2 rfl rfl rfl]
  show gate _ _ = _
  rw [fbv_of hw hs 0 21 5 d rfl rfl rfl,
    fbv_of hw hs 1 16 5 a rfl rfl rfl,
    fbv_of hw hs 2 11 5 b rfl rfl rfl,
    fbv_of hw hs 3 8 3 g rfl rfl rfl,
    fbv_of hw hs 4 7 1 sn rfl rfl rfl]
  exact gate_ok rfl wf

theorem or (d : BitVec 5) (a : BitVec 5) (b : BitVec 5) (g : BitVec 3) (sn : BitVec 1) : Statement (.or d a b g sn) := by
  intro wf w h
  have hw : place 0x04000003 (List.map Slot.pair [⟨21, 5, d⟩, ⟨16, 5, a⟩, ⟨11, 5, b⟩, ⟨8, 3, g⟩, ⟨7, 1, sn⟩]) = w := Option.some.inj h
  have hs : shape [⟨21, 5, d⟩, ⟨16, 5, a⟩, ⟨11, 5, b⟩, ⟨8, 3, g⟩, ⟨7, 1, sn⟩] = [(21, 5), (16, 5), (11, 5), (8, 3), (7, 1)] := rfl
  refine .inl ?_
  rw [decodeSeq, fld_of hw hs 26 6 1 rfl rfl rfl]
  show decodeAlu w = _
  rw [decodeAlu, fld_of hw hs 0 7 3 rfl rfl rfl]
  show gate _ _ = _
  rw [fbv_of hw hs 0 21 5 d rfl rfl rfl,
    fbv_of hw hs 1 16 5 a rfl rfl rfl,
    fbv_of hw hs 2 11 5 b rfl rfl rfl,
    fbv_of hw hs 3 8 3 g rfl rfl rfl,
    fbv_of hw hs 4 7 1 sn rfl rfl rfl]
  exact gate_ok rfl wf

theorem xor (d : BitVec 5) (a : BitVec 5) (b : BitVec 5) (g : BitVec 3) (sn : BitVec 1) : Statement (.xor d a b g sn) := by
  intro wf w h
  have hw : place 0x04000004 (List.map Slot.pair [⟨21, 5, d⟩, ⟨16, 5, a⟩, ⟨11, 5, b⟩, ⟨8, 3, g⟩, ⟨7, 1, sn⟩]) = w := Option.some.inj h
  have hs : shape [⟨21, 5, d⟩, ⟨16, 5, a⟩, ⟨11, 5, b⟩, ⟨8, 3, g⟩, ⟨7, 1, sn⟩] = [(21, 5), (16, 5), (11, 5), (8, 3), (7, 1)] := rfl
  refine .inl ?_
  rw [decodeSeq, fld_of hw hs 26 6 1 rfl rfl rfl]
  show decodeAlu w = _
  rw [decodeAlu, fld_of hw hs 0 7 4 rfl rfl rfl]
  show gate _ _ = _
  rw [fbv_of hw hs 0 21 5 d rfl rfl rfl,
    fbv_of hw hs 1 16 5 a rfl rfl rfl,
    fbv_of hw hs 2 11 5 b rfl rfl rfl,
    fbv_of hw hs 3 8 3 g rfl rfl rfl,
    fbv_of hw hs 4 7 1 sn rfl rfl rfl]
  exact gate_ok rfl wf

theorem shl (d : BitVec 5) (a : BitVec 5) (b : BitVec 5) (g : BitVec 3) (sn : BitVec 1) : Statement (.shl d a b g sn) := by
  intro wf w h
  have hw : place 0x04000005 (List.map Slot.pair [⟨21, 5, d⟩, ⟨16, 5, a⟩, ⟨11, 5, b⟩, ⟨8, 3, g⟩, ⟨7, 1, sn⟩]) = w := Option.some.inj h
  have hs : shape [⟨21, 5, d⟩, ⟨16, 5, a⟩, ⟨11, 5, b⟩, ⟨8, 3, g⟩, ⟨7, 1, sn⟩] = [(21, 5), (16, 5), (11, 5), (8, 3), (7, 1)] := rfl
  refine .inl ?_
  rw [decodeSeq, fld_of hw hs 26 6 1 rfl rfl rfl]
  show decodeAlu w = _
  rw [decodeAlu, fld_of hw hs 0 7 5 rfl rfl rfl]
  show gate _ _ = _
  rw [fbv_of hw hs 0 21 5 d rfl rfl rfl,
    fbv_of hw hs 1 16 5 a rfl rfl rfl,
    fbv_of hw hs 2 11 5 b rfl rfl rfl,
    fbv_of hw hs 3 8 3 g rfl rfl rfl,
    fbv_of hw hs 4 7 1 sn rfl rfl rfl]
  exact gate_ok rfl wf

theorem shr (d : BitVec 5) (a : BitVec 5) (b : BitVec 5) (g : BitVec 3) (sn : BitVec 1) : Statement (.shr d a b g sn) := by
  intro wf w h
  have hw : place 0x04000006 (List.map Slot.pair [⟨21, 5, d⟩, ⟨16, 5, a⟩, ⟨11, 5, b⟩, ⟨8, 3, g⟩, ⟨7, 1, sn⟩]) = w := Option.some.inj h
  have hs : shape [⟨21, 5, d⟩, ⟨16, 5, a⟩, ⟨11, 5, b⟩, ⟨8, 3, g⟩, ⟨7, 1, sn⟩] = [(21, 5), (16, 5), (11, 5), (8, 3), (7, 1)] := rfl
  refine .inl ?_
  rw [decodeSeq, fld_of hw hs 26 6 1 rfl rfl rfl]
  show decodeAlu w = _
  rw [decodeAlu, fld_of hw hs 0 7 6 rfl rfl rfl]
  show gate _ _ = _
  rw [fbv_of hw hs 0 21 5 d rfl rfl rfl,
    fbv_of hw hs 1 16 5 a rfl rfl rfl,
    fbv_of hw hs 2 11 5 b rfl rfl rfl,
    fbv_of hw hs 3 8 3 g rfl rfl rfl,
    fbv_of hw hs 4 7 1 sn rfl rfl rfl]
  exact gate_ok rfl wf

theorem sar (d : BitVec 5) (a : BitVec 5) (b : BitVec 5) (g : BitVec 3) (sn : BitVec 1) : Statement (.sar d a b g sn) := by
  intro wf w h
  have hw : place 0x04000007 (List.map Slot.pair [⟨21, 5, d⟩, ⟨16, 5, a⟩, ⟨11, 5, b⟩, ⟨8, 3, g⟩, ⟨7, 1, sn⟩]) = w := Option.some.inj h
  have hs : shape [⟨21, 5, d⟩, ⟨16, 5, a⟩, ⟨11, 5, b⟩, ⟨8, 3, g⟩, ⟨7, 1, sn⟩] = [(21, 5), (16, 5), (11, 5), (8, 3), (7, 1)] := rfl
  refine .inl ?_
  rw [decodeSeq, fld_of hw hs 26 6 1 rfl rfl rfl]
  show decodeAlu w = _
  rw [decodeAlu, fld_of hw hs 0 7 7 rfl rfl rfl]
  show gate _ _ = _
  rw [fbv_of hw hs 0 21 5 d rfl rfl rfl,
    fbv_of hw hs 1 16 5 a rfl rfl rfl,
    fbv_of hw hs 2 11 5 b rfl rfl rfl,
    fbv_of hw hs 3 8 3 g rfl rfl rfl,
    fbv_of hw hs 4 7 1 sn rfl rfl rfl]
  exact gate_ok rfl wf

theorem mul (d : BitVec 5) (a : BitVec 5) (b : BitVec 5) (g : BitVec 3) (sn : BitVec 1) : Statement (.mul d a b g sn) := by
  intro wf w h
  have hw : place 0x04000008 (List.map Slot.pair [⟨21, 5, d⟩, ⟨16, 5, a⟩, ⟨11, 5, b⟩, ⟨8, 3, g⟩, ⟨7, 1, sn⟩]) = w := Option.some.inj h
  have hs : shape [⟨21, 5, d⟩, ⟨16, 5, a⟩, ⟨11, 5, b⟩, ⟨8, 3, g⟩, ⟨7, 1, sn⟩] = [(21, 5), (16, 5), (11, 5), (8, 3), (7, 1)] := rfl
  refine .inl ?_
  rw [decodeSeq, fld_of hw hs 26 6 1 rfl rfl rfl]
  show decodeAlu w = _
  rw [decodeAlu, fld_of hw hs 0 7 8 rfl rfl rfl]
  show gate _ _ = _
  rw [fbv_of hw hs 0 21 5 d rfl rfl rfl,
    fbv_of hw hs 1 16 5 a rfl rfl rfl,
    fbv_of hw hs 2 11 5 b rfl rfl rfl,
    fbv_of hw hs 3 8 3 g rfl rfl rfl,
    fbv_of hw hs 4 7 1 sn rfl rfl rfl]
  exact gate_ok rfl wf

theorem mulh (d : BitVec 5) (a : BitVec 5) (b : BitVec 5) (g : BitVec 3) (sn : BitVec 1) : Statement (.mulh d a b g sn) := by
  intro wf w h
  have hw : place 0x04000009 (List.map Slot.pair [⟨21, 5, d⟩, ⟨16, 5, a⟩, ⟨11, 5, b⟩, ⟨8, 3, g⟩, ⟨7, 1, sn⟩]) = w := Option.some.inj h
  have hs : shape [⟨21, 5, d⟩, ⟨16, 5, a⟩, ⟨11, 5, b⟩, ⟨8, 3, g⟩, ⟨7, 1, sn⟩] = [(21, 5), (16, 5), (11, 5), (8, 3), (7, 1)] := rfl
  refine .inl ?_
  rw [decodeSeq, fld_of hw hs 26 6 1 rfl rfl rfl]
  show decodeAlu w = _
  rw [decodeAlu, fld_of hw hs 0 7 9 rfl rfl rfl]
  show gate _ _ = _
  rw [fbv_of hw hs 0 21 5 d rfl rfl rfl,
    fbv_of hw hs 1 16 5 a rfl rfl rfl,
    fbv_of hw hs 2 11 5 b rfl rfl rfl,
    fbv_of hw hs 3 8 3 g rfl rfl rfl,
    fbv_of hw hs 4 7 1 sn rfl rfl rfl]
  exact gate_ok rfl wf

theorem div (d : BitVec 5) (a : BitVec 5) (b : BitVec 5) (g : BitVec 3) (sn : BitVec 1) : Statement (.div d a b g sn) := by
  intro wf w h
  have hw : place 0x0400000A (List.map Slot.pair [⟨21, 5, d⟩, ⟨16, 5, a⟩, ⟨11, 5, b⟩, ⟨8, 3, g⟩, ⟨7, 1, sn⟩]) = w := Option.some.inj h
  have hs : shape [⟨21, 5, d⟩, ⟨16, 5, a⟩, ⟨11, 5, b⟩, ⟨8, 3, g⟩, ⟨7, 1, sn⟩] = [(21, 5), (16, 5), (11, 5), (8, 3), (7, 1)] := rfl
  refine .inl ?_
  rw [decodeSeq, fld_of hw hs 26 6 1 rfl rfl rfl]
  show decodeAlu w = _
  rw [decodeAlu, fld_of hw hs 0 7 10 rfl rfl rfl]
  show gate _ _ = _
  rw [fbv_of hw hs 0 21 5 d rfl rfl rfl,
    fbv_of hw hs 1 16 5 a rfl rfl rfl,
    fbv_of hw hs 2 11 5 b rfl rfl rfl,
    fbv_of hw hs 3 8 3 g rfl rfl rfl,
    fbv_of hw hs 4 7 1 sn rfl rfl rfl]
  exact gate_ok rfl wf

theorem rem (d : BitVec 5) (a : BitVec 5) (b : BitVec 5) (g : BitVec 3) (sn : BitVec 1) : Statement (.rem d a b g sn) := by
  intro wf w h
  have hw : place 0x0400000B (List.map Slot.pair [⟨21, 5, d⟩, ⟨16, 5, a⟩, ⟨11, 5, b⟩, ⟨8, 3, g⟩, ⟨7, 1, sn⟩]) = w := Option.some.inj h
  have hs : shape [⟨21, 5, d⟩, ⟨16, 5, a⟩, ⟨11, 5, b⟩, ⟨8, 3, g⟩, ⟨7, 1, sn⟩] = [(21, 5), (16, 5), (11, 5), (8, 3), (7, 1)] := rfl
  refine .inl ?_
  rw [decodeSeq, fld_of hw hs 26 6 1 rfl rfl rfl]
  show decodeAlu w = _
  rw [decodeAlu, fld_of hw hs 0 7 11 rfl rfl rfl]
  show gate _ _ = _
  rw [fbv_of hw hs 0 21 5 d rfl rfl rfl,
    fbv_of hw hs 1 16 5 a rfl rfl rfl,
    fbv_of hw hs 2 11 5 b rfl rfl rfl,
    fbv_of hw hs 3 8 3 g rfl rfl rfl,
    fbv_of hw hs 4 7 1 sn rfl rfl rfl]
  exact gate_ok rfl wf

theorem min (d : BitVec 5) (a : BitVec 5) (b : BitVec 5) (g : BitVec 3) (sn : BitVec 1) : Statement (.min d a b g sn) := by
  intro wf w h
  have hw : place 0x0400000C (List.map Slot.pair [⟨21, 5, d⟩, ⟨16, 5, a⟩, ⟨11, 5, b⟩, ⟨8, 3, g⟩, ⟨7, 1, sn⟩]) = w := Option.some.inj h
  have hs : shape [⟨21, 5, d⟩, ⟨16, 5, a⟩, ⟨11, 5, b⟩, ⟨8, 3, g⟩, ⟨7, 1, sn⟩] = [(21, 5), (16, 5), (11, 5), (8, 3), (7, 1)] := rfl
  refine .inl ?_
  rw [decodeSeq, fld_of hw hs 26 6 1 rfl rfl rfl]
  show decodeAlu w = _
  rw [decodeAlu, fld_of hw hs 0 7 12 rfl rfl rfl]
  show gate _ _ = _
  rw [fbv_of hw hs 0 21 5 d rfl rfl rfl,
    fbv_of hw hs 1 16 5 a rfl rfl rfl,
    fbv_of hw hs 2 11 5 b rfl rfl rfl,
    fbv_of hw hs 3 8 3 g rfl rfl rfl,
    fbv_of hw hs 4 7 1 sn rfl rfl rfl]
  exact gate_ok rfl wf

theorem max (d : BitVec 5) (a : BitVec 5) (b : BitVec 5) (g : BitVec 3) (sn : BitVec 1) : Statement (.max d a b g sn) := by
  intro wf w h
  have hw : place 0x0400000D (List.map Slot.pair [⟨21, 5, d⟩, ⟨16, 5, a⟩, ⟨11, 5, b⟩, ⟨8, 3, g⟩, ⟨7, 1, sn⟩]) = w := Option.some.inj h
  have hs : shape [⟨21, 5, d⟩, ⟨16, 5, a⟩, ⟨11, 5, b⟩, ⟨8, 3, g⟩, ⟨7, 1, sn⟩] = [(21, 5), (16, 5), (11, 5), (8, 3), (7, 1)] := rfl
  refine .inl ?_
  rw [decodeSeq, fld_of hw hs 26 6 1 rfl rfl rfl]
  show decodeAlu w = _
  rw [decodeAlu, fld_of hw hs 0 7 13 rfl rfl rfl]
  show gate _ _ = _
  rw [fbv_of hw hs 0 21 5 d rfl rfl rfl,
    fbv_of hw hs 1 16 5 a rfl rfl rfl,
    fbv_of hw hs 2 11 5 b rfl rfl rfl,
    fbv_of hw hs 3 8 3 g rfl rfl rfl,
    fbv_of hw hs 4 7 1 sn rfl rfl rfl]
  exact gate_ok rfl wf

theorem clz (d : BitVec 5) (a : BitVec 5) (g : BitVec 3) (sn : BitVec 1) : Statement (.clz d a g sn) := by
  intro wf w h
  have hw : place 0x0400000E (List.map Slot.pair [⟨21, 5, d⟩, ⟨16, 5, a⟩, ⟨8, 3, g⟩, ⟨7, 1, sn⟩]) = w := Option.some.inj h
  have hs : shape [⟨21, 5, d⟩, ⟨16, 5, a⟩, ⟨8, 3, g⟩, ⟨7, 1, sn⟩] = [(21, 5), (16, 5), (8, 3), (7, 1)] := rfl
  refine .inl ?_
  rw [decodeSeq, fld_of hw hs 26 6 1 rfl rfl rfl]
  show decodeAlu w = _
  rw [decodeAlu, fld_of hw hs 0 7 14 rfl rfl rfl]
  show gate _ _ = _
  rw [fld_of hw hs 11 5 0 rfl rfl rfl,
    fbv_of hw hs 0 21 5 d rfl rfl rfl,
    fbv_of hw hs 1 16 5 a rfl rfl rfl,
    fbv_of hw hs 2 8 3 g rfl rfl rfl,
    fbv_of hw hs 3 7 1 sn rfl rfl rfl]
  exact gate_ok rfl wf

theorem popc (d : BitVec 5) (a : BitVec 5) (g : BitVec 3) (sn : BitVec 1) : Statement (.popc d a g sn) := by
  intro wf w h
  have hw : place 0x0400000F (List.map Slot.pair [⟨21, 5, d⟩, ⟨16, 5, a⟩, ⟨8, 3, g⟩, ⟨7, 1, sn⟩]) = w := Option.some.inj h
  have hs : shape [⟨21, 5, d⟩, ⟨16, 5, a⟩, ⟨8, 3, g⟩, ⟨7, 1, sn⟩] = [(21, 5), (16, 5), (8, 3), (7, 1)] := rfl
  refine .inl ?_
  rw [decodeSeq, fld_of hw hs 26 6 1 rfl rfl rfl]
  show decodeAlu w = _
  rw [decodeAlu, fld_of hw hs 0 7 15 rfl rfl rfl]
  show gate _ _ = _
  rw [fld_of hw hs 11 5 0 rfl rfl rfl,
    fbv_of hw hs 0 21 5 d rfl rfl rfl,
    fbv_of hw hs 1 16 5 a rfl rfl rfl,
    fbv_of hw hs 2 8 3 g rfl rfl rfl,
    fbv_of hw hs 3 7 1 sn rfl rfl rfl]
  exact gate_ok rfl wf

theorem adds (d : BitVec 5) (a : BitVec 5) (b : BitVec 5) (g : BitVec 3) (sn : BitVec 1) (wd : BitVec 2) : Statement (.adds d a b g sn wd) := by
  intro wf w h
  have hw : place 0x04000010 (List.map Slot.pair [⟨21, 5, d⟩, ⟨16, 5, a⟩, ⟨11, 5, b⟩, ⟨8, 3, g⟩, ⟨7, 1, sn⟩, ⟨0, 2, wd⟩]) = w := Option.some.inj h
  have hs : shape [⟨21, 5, d⟩, ⟨16, 5, a⟩, ⟨11, 5, b⟩, ⟨8, 3, g⟩, ⟨7, 1, sn⟩, ⟨0, 2, wd⟩] = [(21, 5), (16, 5), (11, 5), (8, 3), (7, 1), (0, 2)] := rfl
  refine .inl ?_
  rw [decodeSeq, fld_of hw hs 26 6 1 rfl rfl rfl]
  show decodeAlu w = _
  have e : fld w 0 7 = 16 + wd.toNat := by
    have h1 : fld w 2 5 = 4 := fld_of hw hs 2 5 4 rfl rfl rfl
    have h2 : fbv w 0 2 = wd := fbv_of hw hs 5 0 2 wd rfl rfl rfl
    rw [← h2]
    simp only [fld, fbv, BitVec.toNat_ofNat] at *
    omega
  rw [decodeAlu, e]
  have hv := (by decide : ∀ x : BitVec 2, x = 0 ∨ x = 1 ∨ x = 2 ∨ x = 3) wd
  have gv := fbv_of hw hs 5 0 2 wd rfl rfl rfl
  rcases hv with hv | hv | hv | hv
  all_goals
    subst hv
    show gate false _ = _
    rw [gv, fbv_of hw hs 0 21 5 d rfl rfl rfl, fbv_of hw hs 1 16 5 a rfl rfl rfl, fbv_of hw hs 2 11 5 b rfl rfl rfl, fbv_of hw hs 3 8 3 g rfl rfl rfl, fbv_of hw hs 4 7 1 sn rfl rfl rfl]
    exact gate_ok rfl wf

theorem bfx (d : BitVec 5) (a : BitVec 5) (b : BitVec 5) (g : BitVec 3) (sn : BitVec 1) : Statement (.bfx d a b g sn) := by
  intro wf w h
  have hw : place 0x04000014 (List.map Slot.pair [⟨21, 5, d⟩, ⟨16, 5, a⟩, ⟨11, 5, b⟩, ⟨8, 3, g⟩, ⟨7, 1, sn⟩]) = w := Option.some.inj h
  have hs : shape [⟨21, 5, d⟩, ⟨16, 5, a⟩, ⟨11, 5, b⟩, ⟨8, 3, g⟩, ⟨7, 1, sn⟩] = [(21, 5), (16, 5), (11, 5), (8, 3), (7, 1)] := rfl
  refine .inl ?_
  rw [decodeSeq, fld_of hw hs 26 6 1 rfl rfl rfl]
  show decodeAlu w = _
  rw [decodeAlu, fld_of hw hs 0 7 20 rfl rfl rfl]
  show gate _ _ = _
  rw [fbv_of hw hs 0 21 5 d rfl rfl rfl,
    fbv_of hw hs 1 16 5 a rfl rfl rfl,
    fbv_of hw hs 2 11 5 b rfl rfl rfl,
    fbv_of hw hs 3 8 3 g rfl rfl rfl,
    fbv_of hw hs 4 7 1 sn rfl rfl rfl]
  exact gate_ok rfl wf

theorem bfi (d : BitVec 5) (a : BitVec 5) (b : BitVec 5) (g : BitVec 3) (sn : BitVec 1) : Statement (.bfi d a b g sn) := by
  intro wf w h
  have hw : place 0x04000015 (List.map Slot.pair [⟨21, 5, d⟩, ⟨16, 5, a⟩, ⟨11, 5, b⟩, ⟨8, 3, g⟩, ⟨7, 1, sn⟩]) = w := Option.some.inj h
  have hs : shape [⟨21, 5, d⟩, ⟨16, 5, a⟩, ⟨11, 5, b⟩, ⟨8, 3, g⟩, ⟨7, 1, sn⟩] = [(21, 5), (16, 5), (11, 5), (8, 3), (7, 1)] := rfl
  refine .inl ?_
  rw [decodeSeq, fld_of hw hs 26 6 1 rfl rfl rfl]
  show decodeAlu w = _
  rw [decodeAlu, fld_of hw hs 0 7 21 rfl rfl rfl]
  show gate _ _ = _
  rw [fbv_of hw hs 0 21 5 d rfl rfl rfl,
    fbv_of hw hs 1 16 5 a rfl rfl rfl,
    fbv_of hw hs 2 11 5 b rfl rfl rfl,
    fbv_of hw hs 3 8 3 g rfl rfl rfl,
    fbv_of hw hs 4 7 1 sn rfl rfl rfl]
  exact gate_ok rfl wf

theorem mad (d : BitVec 5) (a : BitVec 5) (b : BitVec 5) (g : BitVec 3) (sn : BitVec 1) : Statement (.mad d a b g sn) := by
  intro wf w h
  have hw : place 0x04000016 (List.map Slot.pair [⟨21, 5, d⟩, ⟨16, 5, a⟩, ⟨11, 5, b⟩, ⟨8, 3, g⟩, ⟨7, 1, sn⟩]) = w := Option.some.inj h
  have hs : shape [⟨21, 5, d⟩, ⟨16, 5, a⟩, ⟨11, 5, b⟩, ⟨8, 3, g⟩, ⟨7, 1, sn⟩] = [(21, 5), (16, 5), (11, 5), (8, 3), (7, 1)] := rfl
  refine .inl ?_
  rw [decodeSeq, fld_of hw hs 26 6 1 rfl rfl rfl]
  show decodeAlu w = _
  rw [decodeAlu, fld_of hw hs 0 7 22 rfl rfl rfl]
  show gate _ _ = _
  rw [fbv_of hw hs 0 21 5 d rfl rfl rfl,
    fbv_of hw hs 1 16 5 a rfl rfl rfl,
    fbv_of hw hs 2 11 5 b rfl rfl rfl,
    fbv_of hw hs 3 8 3 g rfl rfl rfl,
    fbv_of hw hs 4 7 1 sn rfl rfl rfl]
  exact gate_ok rfl wf

theorem crc (d : BitVec 5) (a : BitVec 5) (b : BitVec 5) (g : BitVec 3) (sn : BitVec 1) (wd : BitVec 2) : Statement (.crc d a b g sn wd) := by
  intro wf w h
  have hw : place 0x04000018 (List.map Slot.pair [⟨21, 5, d⟩, ⟨16, 5, a⟩, ⟨11, 5, b⟩, ⟨8, 3, g⟩, ⟨7, 1, sn⟩, ⟨0, 2, wd⟩]) = w := Option.some.inj h
  have hs : shape [⟨21, 5, d⟩, ⟨16, 5, a⟩, ⟨11, 5, b⟩, ⟨8, 3, g⟩, ⟨7, 1, sn⟩, ⟨0, 2, wd⟩] = [(21, 5), (16, 5), (11, 5), (8, 3), (7, 1), (0, 2)] := rfl
  refine .inl ?_
  rw [decodeSeq, fld_of hw hs 26 6 1 rfl rfl rfl]
  show decodeAlu w = _
  have e : fld w 0 7 = 24 + wd.toNat := by
    have h1 : fld w 2 5 = 6 := fld_of hw hs 2 5 6 rfl rfl rfl
    have h2 : fbv w 0 2 = wd := fbv_of hw hs 5 0 2 wd rfl rfl rfl
    rw [← h2]
    simp only [fld, fbv, BitVec.toNat_ofNat] at *
    omega
  rw [decodeAlu, e]
  have hv := (by decide : ∀ x : BitVec 2, x = 0 ∨ x = 1 ∨ x = 2 ∨ x = 3) wd
  have gv := fbv_of hw hs 5 0 2 wd rfl rfl rfl
  rcases hv with hv | hv | hv | hv
  all_goals
    subst hv
    show gate false _ = _
    rw [gv, fbv_of hw hs 0 21 5 d rfl rfl rfl, fbv_of hw hs 1 16 5 a rfl rfl rfl, fbv_of hw hs 2 11 5 b rfl rfl rfl, fbv_of hw hs 3 8 3 g rfl rfl rfl, fbv_of hw hs 4 7 1 sn rfl rfl rfl]
    exact gate_ok rfl wf

theorem cmpeq (d : BitVec 3) (a : BitVec 5) (b : BitVec 5) (g : BitVec 3) (sn : BitVec 1) : Statement (.cmpeq d a b g sn) := by
  intro wf w h
  have hw : place 0x04000020 (List.map Slot.pair [⟨21, 3, d⟩, ⟨16, 5, a⟩, ⟨11, 5, b⟩, ⟨8, 3, g⟩, ⟨7, 1, sn⟩]) = w := Option.some.inj h
  have hs : shape [⟨21, 3, d⟩, ⟨16, 5, a⟩, ⟨11, 5, b⟩, ⟨8, 3, g⟩, ⟨7, 1, sn⟩] = [(21, 3), (16, 5), (11, 5), (8, 3), (7, 1)] := rfl
  refine .inl ?_
  rw [decodeSeq, fld_of hw hs 26 6 1 rfl rfl rfl]
  show decodeAlu w = _
  rw [decodeAlu, fld_of hw hs 0 7 32 rfl rfl rfl]
  show gate _ _ = _
  rw [fld_of hw hs 24 2 0 rfl rfl rfl,
    fbv_of hw hs 0 21 3 d rfl rfl rfl,
    fbv_of hw hs 1 16 5 a rfl rfl rfl,
    fbv_of hw hs 2 11 5 b rfl rfl rfl,
    fbv_of hw hs 3 8 3 g rfl rfl rfl,
    fbv_of hw hs 4 7 1 sn rfl rfl rfl]
  exact gate_ok rfl wf

theorem cmpne (d : BitVec 3) (a : BitVec 5) (b : BitVec 5) (g : BitVec 3) (sn : BitVec 1) : Statement (.cmpne d a b g sn) := by
  intro wf w h
  have hw : place 0x04000021 (List.map Slot.pair [⟨21, 3, d⟩, ⟨16, 5, a⟩, ⟨11, 5, b⟩, ⟨8, 3, g⟩, ⟨7, 1, sn⟩]) = w := Option.some.inj h
  have hs : shape [⟨21, 3, d⟩, ⟨16, 5, a⟩, ⟨11, 5, b⟩, ⟨8, 3, g⟩, ⟨7, 1, sn⟩] = [(21, 3), (16, 5), (11, 5), (8, 3), (7, 1)] := rfl
  refine .inl ?_
  rw [decodeSeq, fld_of hw hs 26 6 1 rfl rfl rfl]
  show decodeAlu w = _
  rw [decodeAlu, fld_of hw hs 0 7 33 rfl rfl rfl]
  show gate _ _ = _
  rw [fld_of hw hs 24 2 0 rfl rfl rfl,
    fbv_of hw hs 0 21 3 d rfl rfl rfl,
    fbv_of hw hs 1 16 5 a rfl rfl rfl,
    fbv_of hw hs 2 11 5 b rfl rfl rfl,
    fbv_of hw hs 3 8 3 g rfl rfl rfl,
    fbv_of hw hs 4 7 1 sn rfl rfl rfl]
  exact gate_ok rfl wf

theorem cmplt (d : BitVec 3) (a : BitVec 5) (b : BitVec 5) (g : BitVec 3) (sn : BitVec 1) : Statement (.cmplt d a b g sn) := by
  intro wf w h
  have hw : place 0x04000022 (List.map Slot.pair [⟨21, 3, d⟩, ⟨16, 5, a⟩, ⟨11, 5, b⟩, ⟨8, 3, g⟩, ⟨7, 1, sn⟩]) = w := Option.some.inj h
  have hs : shape [⟨21, 3, d⟩, ⟨16, 5, a⟩, ⟨11, 5, b⟩, ⟨8, 3, g⟩, ⟨7, 1, sn⟩] = [(21, 3), (16, 5), (11, 5), (8, 3), (7, 1)] := rfl
  refine .inl ?_
  rw [decodeSeq, fld_of hw hs 26 6 1 rfl rfl rfl]
  show decodeAlu w = _
  rw [decodeAlu, fld_of hw hs 0 7 34 rfl rfl rfl]
  show gate _ _ = _
  rw [fld_of hw hs 24 2 0 rfl rfl rfl,
    fbv_of hw hs 0 21 3 d rfl rfl rfl,
    fbv_of hw hs 1 16 5 a rfl rfl rfl,
    fbv_of hw hs 2 11 5 b rfl rfl rfl,
    fbv_of hw hs 3 8 3 g rfl rfl rfl,
    fbv_of hw hs 4 7 1 sn rfl rfl rfl]
  exact gate_ok rfl wf

theorem cmpge (d : BitVec 3) (a : BitVec 5) (b : BitVec 5) (g : BitVec 3) (sn : BitVec 1) : Statement (.cmpge d a b g sn) := by
  intro wf w h
  have hw : place 0x04000023 (List.map Slot.pair [⟨21, 3, d⟩, ⟨16, 5, a⟩, ⟨11, 5, b⟩, ⟨8, 3, g⟩, ⟨7, 1, sn⟩]) = w := Option.some.inj h
  have hs : shape [⟨21, 3, d⟩, ⟨16, 5, a⟩, ⟨11, 5, b⟩, ⟨8, 3, g⟩, ⟨7, 1, sn⟩] = [(21, 3), (16, 5), (11, 5), (8, 3), (7, 1)] := rfl
  refine .inl ?_
  rw [decodeSeq, fld_of hw hs 26 6 1 rfl rfl rfl]
  show decodeAlu w = _
  rw [decodeAlu, fld_of hw hs 0 7 35 rfl rfl rfl]
  show gate _ _ = _
  rw [fld_of hw hs 24 2 0 rfl rfl rfl,
    fbv_of hw hs 0 21 3 d rfl rfl rfl,
    fbv_of hw hs 1 16 5 a rfl rfl rfl,
    fbv_of hw hs 2 11 5 b rfl rfl rfl,
    fbv_of hw hs 3 8 3 g rfl rfl rfl,
    fbv_of hw hs 4 7 1 sn rfl rfl rfl]
  exact gate_ok rfl wf

theorem cmpltu (d : BitVec 3) (a : BitVec 5) (b : BitVec 5) (g : BitVec 3) (sn : BitVec 1) : Statement (.cmpltu d a b g sn) := by
  intro wf w h
  have hw : place 0x04000024 (List.map Slot.pair [⟨21, 3, d⟩, ⟨16, 5, a⟩, ⟨11, 5, b⟩, ⟨8, 3, g⟩, ⟨7, 1, sn⟩]) = w := Option.some.inj h
  have hs : shape [⟨21, 3, d⟩, ⟨16, 5, a⟩, ⟨11, 5, b⟩, ⟨8, 3, g⟩, ⟨7, 1, sn⟩] = [(21, 3), (16, 5), (11, 5), (8, 3), (7, 1)] := rfl
  refine .inl ?_
  rw [decodeSeq, fld_of hw hs 26 6 1 rfl rfl rfl]
  show decodeAlu w = _
  rw [decodeAlu, fld_of hw hs 0 7 36 rfl rfl rfl]
  show gate _ _ = _
  rw [fld_of hw hs 24 2 0 rfl rfl rfl,
    fbv_of hw hs 0 21 3 d rfl rfl rfl,
    fbv_of hw hs 1 16 5 a rfl rfl rfl,
    fbv_of hw hs 2 11 5 b rfl rfl rfl,
    fbv_of hw hs 3 8 3 g rfl rfl rfl,
    fbv_of hw hs 4 7 1 sn rfl rfl rfl]
  exact gate_ok rfl wf

theorem cmpgeu (d : BitVec 3) (a : BitVec 5) (b : BitVec 5) (g : BitVec 3) (sn : BitVec 1) : Statement (.cmpgeu d a b g sn) := by
  intro wf w h
  have hw : place 0x04000025 (List.map Slot.pair [⟨21, 3, d⟩, ⟨16, 5, a⟩, ⟨11, 5, b⟩, ⟨8, 3, g⟩, ⟨7, 1, sn⟩]) = w := Option.some.inj h
  have hs : shape [⟨21, 3, d⟩, ⟨16, 5, a⟩, ⟨11, 5, b⟩, ⟨8, 3, g⟩, ⟨7, 1, sn⟩] = [(21, 3), (16, 5), (11, 5), (8, 3), (7, 1)] := rfl
  refine .inl ?_
  rw [decodeSeq, fld_of hw hs 26 6 1 rfl rfl rfl]
  show decodeAlu w = _
  rw [decodeAlu, fld_of hw hs 0 7 37 rfl rfl rfl]
  show gate _ _ = _
  rw [fld_of hw hs 24 2 0 rfl rfl rfl,
    fbv_of hw hs 0 21 3 d rfl rfl rfl,
    fbv_of hw hs 1 16 5 a rfl rfl rfl,
    fbv_of hw hs 2 11 5 b rfl rfl rfl,
    fbv_of hw hs 3 8 3 g rfl rfl rfl,
    fbv_of hw hs 4 7 1 sn rfl rfl rfl]
  exact gate_ok rfl wf

theorem sel (d : BitVec 5) (a : BitVec 5) (b : BitVec 5) (g : BitVec 3) (sn : BitVec 1) (k : BitVec 3) : Statement (.sel d a b g sn k) := by
  intro wf w h
  have hw : place 0x04000030 (List.map Slot.pair [⟨21, 5, d⟩, ⟨16, 5, a⟩, ⟨11, 5, b⟩, ⟨8, 3, g⟩, ⟨7, 1, sn⟩, ⟨0, 3, k⟩]) = w := Option.some.inj h
  have hs : shape [⟨21, 5, d⟩, ⟨16, 5, a⟩, ⟨11, 5, b⟩, ⟨8, 3, g⟩, ⟨7, 1, sn⟩, ⟨0, 3, k⟩] = [(21, 5), (16, 5), (11, 5), (8, 3), (7, 1), (0, 3)] := rfl
  refine .inl ?_
  rw [decodeSeq, fld_of hw hs 26 6 1 rfl rfl rfl]
  show decodeAlu w = _
  have e : fld w 0 7 = 48 + k.toNat := by
    have h1 : fld w 3 4 = 6 := fld_of hw hs 3 4 6 rfl rfl rfl
    have h2 : fbv w 0 3 = k := fbv_of hw hs 5 0 3 k rfl rfl rfl
    rw [← h2]
    simp only [fld, fbv, BitVec.toNat_ofNat] at *
    omega
  rw [decodeAlu, e]
  have hv := (by decide : ∀ x : BitVec 3, x = 0 ∨ x = 1 ∨ x = 2 ∨ x = 3 ∨ x = 4 ∨ x = 5 ∨ x = 6 ∨ x = 7) k
  have gv := fbv_of hw hs 5 0 3 k rfl rfl rfl
  rcases hv with hv | hv | hv | hv | hv | hv | hv | hv
  all_goals
    subst hv
    show gate false _ = _
    rw [gv, fbv_of hw hs 0 21 5 d rfl rfl rfl, fbv_of hw hs 1 16 5 a rfl rfl rfl, fbv_of hw hs 2 11 5 b rfl rfl rfl, fbv_of hw hs 3 8 3 g rfl rfl rfl, fbv_of hw hs 4 7 1 sn rfl rfl rfl]
    exact gate_ok rfl wf

theorem jr (a : BitVec 5) (g : BitVec 3) (sn : BitVec 1) : Statement (.jr a g sn) := by
  intro wf w h
  have hw : place 0x0C000000 (List.map Slot.pair [⟨16, 5, a⟩, ⟨8, 3, g⟩, ⟨7, 1, sn⟩]) = w := Option.some.inj h
  have hs : shape [⟨16, 5, a⟩, ⟨8, 3, g⟩, ⟨7, 1, sn⟩] = [(16, 5), (8, 3), (7, 1)] := rfl
  refine .inl ?_
  rw [decodeSeq, fld_of hw hs 26 6 3 rfl rfl rfl]
  show decodeJump w = _
  rw [decodeJump, fld_of hw hs 0 7 0 rfl rfl rfl]
  show gate _ _ = _
  rw [fld_of hw hs 11 5 0 rfl rfl rfl,
    fld_of hw hs 21 5 0 rfl rfl rfl,
    fbv_of hw hs 0 16 5 a rfl rfl rfl,
    fbv_of hw hs 1 8 3 g rfl rfl rfl,
    fbv_of hw hs 2 7 1 sn rfl rfl rfl]
  exact gate_ok rfl wf

theorem ret (g : BitVec 3) (sn : BitVec 1) : Statement (.ret g sn) := by
  intro wf w h
  have hw : place 0x0C000001 (List.map Slot.pair [⟨8, 3, g⟩, ⟨7, 1, sn⟩]) = w := Option.some.inj h
  have hs : shape [⟨8, 3, g⟩, ⟨7, 1, sn⟩] = [(8, 3), (7, 1)] := rfl
  refine .inl ?_
  rw [decodeSeq, fld_of hw hs 26 6 3 rfl rfl rfl]
  show decodeJump w = _
  rw [decodeJump, fld_of hw hs 0 7 1 rfl rfl rfl]
  show gate _ _ = _
  rw [fld_of hw hs 11 15 0 rfl rfl rfl,
    fbv_of hw hs 0 8 3 g rfl rfl rfl,
    fbv_of hw hs 1 7 1 sn rfl rfl rfl]
  exact gate_ok rfl wf

theorem pgprobe (d : BitVec 5) (a : BitVec 5) (g : BitVec 3) (sn : BitVec 1) : Statement (.pgprobe d a g sn) := by
  intro wf w h
  have hw : place 0x0C000002 (List.map Slot.pair [⟨21, 5, d⟩, ⟨16, 5, a⟩, ⟨8, 3, g⟩, ⟨7, 1, sn⟩]) = w := Option.some.inj h
  have hs : shape [⟨21, 5, d⟩, ⟨16, 5, a⟩, ⟨8, 3, g⟩, ⟨7, 1, sn⟩] = [(21, 5), (16, 5), (8, 3), (7, 1)] := rfl
  refine .inl ?_
  rw [decodeSeq, fld_of hw hs 26 6 3 rfl rfl rfl]
  show decodeJump w = _
  rw [decodeJump, fld_of hw hs 0 7 2 rfl rfl rfl]
  show gate _ _ = _
  rw [fld_of hw hs 11 5 0 rfl rfl rfl,
    fbv_of hw hs 0 21 5 d rfl rfl rfl,
    fbv_of hw hs 1 16 5 a rfl rfl rfl,
    fbv_of hw hs 2 8 3 g rfl rfl rfl,
    fbv_of hw hs 3 7 1 sn rfl rfl rfl]
  exact gate_ok rfl wf

theorem sigv (d : BitVec 5) (a : BitVec 5) (b : BitVec 5) (g : BitVec 3) (sn : BitVec 1) : Statement (.sigv d a b g sn) := by
  intro wf w h
  have hw : place 0x0C000003 (List.map Slot.pair [⟨21, 5, d⟩, ⟨16, 5, a⟩, ⟨11, 5, b⟩, ⟨8, 3, g⟩, ⟨7, 1, sn⟩]) = w := Option.some.inj h
  have hs : shape [⟨21, 5, d⟩, ⟨16, 5, a⟩, ⟨11, 5, b⟩, ⟨8, 3, g⟩, ⟨7, 1, sn⟩] = [(21, 5), (16, 5), (11, 5), (8, 3), (7, 1)] := rfl
  refine .inl ?_
  rw [decodeSeq, fld_of hw hs 26 6 3 rfl rfl rfl]
  show decodeJump w = _
  rw [decodeJump, fld_of hw hs 0 7 3 rfl rfl rfl]
  show gate _ _ = _
  rw [fbv_of hw hs 0 21 5 d rfl rfl rfl,
    fbv_of hw hs 1 16 5 a rfl rfl rfl,
    fbv_of hw hs 2 11 5 b rfl rfl rfl,
    fbv_of hw hs 3 8 3 g rfl rfl rfl,
    fbv_of hw hs 4 7 1 sn rfl rfl rfl]
  exact gate_ok rfl wf

theorem keyh (d : BitVec 5) (a : BitVec 5) (g : BitVec 3) (sn : BitVec 1) : Statement (.keyh d a g sn) := by
  intro wf w h
  have hw : place 0x0C000004 (List.map Slot.pair [⟨21, 5, d⟩, ⟨16, 5, a⟩, ⟨8, 3, g⟩, ⟨7, 1, sn⟩]) = w := Option.some.inj h
  have hs : shape [⟨21, 5, d⟩, ⟨16, 5, a⟩, ⟨8, 3, g⟩, ⟨7, 1, sn⟩] = [(21, 5), (16, 5), (8, 3), (7, 1)] := rfl
  refine .inl ?_
  rw [decodeSeq, fld_of hw hs 26 6 3 rfl rfl rfl]
  show decodeJump w = _
  rw [decodeJump, fld_of hw hs 0 7 4 rfl rfl rfl]
  show gate _ _ = _
  rw [fld_of hw hs 11 5 0 rfl rfl rfl,
    fbv_of hw hs 0 21 5 d rfl rfl rfl,
    fbv_of hw hs 1 16 5 a rfl rfl rfl,
    fbv_of hw hs 2 8 3 g rfl rfl rfl,
    fbv_of hw hs 3 7 1 sn rfl rfl rfl]
  exact gate_ok rfl wf

theorem lih (d : BitVec 5) (im : BitVec 21) : Statement (.lih d im) := by
  intro wf w h
  have hw : place 0x10000000 (List.map Slot.pair [⟨21, 5, d⟩, ⟨0, 21, im⟩]) = w := Option.some.inj h
  have hs : shape [⟨21, 5, d⟩, ⟨0, 21, im⟩] = [(21, 5), (0, 21)] := rfl
  refine .inl ?_
  rw [decodeSeq, fld_of hw hs 26 6 4 rfl rfl rfl]
  show gate _ _ = _
  rw [fbv_of hw hs 0 21 5 d rfl rfl rfl,
    fbv_of hw hs 1 0 21 im rfl rfl rfl]
  exact gate_ok rfl wf

theorem addi (d : BitVec 5) (a : BitVec 5) (g : BitVec 3) (im : BitVec 13) : Statement (.addi d a g im) := by
  intro wf w h
  have hw : place 0x20000000 (List.map Slot.pair [⟨21, 5, d⟩, ⟨16, 5, a⟩, ⟨13, 3, g⟩, ⟨0, 13, im⟩]) = w := Option.some.inj h
  have hs : shape [⟨21, 5, d⟩, ⟨16, 5, a⟩, ⟨13, 3, g⟩, ⟨0, 13, im⟩] = [(21, 5), (16, 5), (13, 3), (0, 13)] := rfl
  refine .inl ?_
  rw [decodeSeq, fld_of hw hs 26 6 8 rfl rfl rfl]
  show gate _ _ = _
  rw [fbv_of hw hs 0 21 5 d rfl rfl rfl,
    fbv_of hw hs 1 16 5 a rfl rfl rfl,
    fbv_of hw hs 2 13 3 g rfl rfl rfl,
    fbv_of hw hs 3 0 13 im rfl rfl rfl]
  exact gate_ok rfl wf

theorem andi (d : BitVec 5) (a : BitVec 5) (g : BitVec 3) (im : BitVec 13) : Statement (.andi d a g im) := by
  intro wf w h
  have hw : place 0x24000000 (List.map Slot.pair [⟨21, 5, d⟩, ⟨16, 5, a⟩, ⟨13, 3, g⟩, ⟨0, 13, im⟩]) = w := Option.some.inj h
  have hs : shape [⟨21, 5, d⟩, ⟨16, 5, a⟩, ⟨13, 3, g⟩, ⟨0, 13, im⟩] = [(21, 5), (16, 5), (13, 3), (0, 13)] := rfl
  refine .inl ?_
  rw [decodeSeq, fld_of hw hs 26 6 9 rfl rfl rfl]
  show gate _ _ = _
  rw [fbv_of hw hs 0 21 5 d rfl rfl rfl,
    fbv_of hw hs 1 16 5 a rfl rfl rfl,
    fbv_of hw hs 2 13 3 g rfl rfl rfl,
    fbv_of hw hs 3 0 13 im rfl rfl rfl]
  exact gate_ok rfl wf

theorem ori (d : BitVec 5) (a : BitVec 5) (g : BitVec 3) (im : BitVec 13) : Statement (.ori d a g im) := by
  intro wf w h
  have hw : place 0x28000000 (List.map Slot.pair [⟨21, 5, d⟩, ⟨16, 5, a⟩, ⟨13, 3, g⟩, ⟨0, 13, im⟩]) = w := Option.some.inj h
  have hs : shape [⟨21, 5, d⟩, ⟨16, 5, a⟩, ⟨13, 3, g⟩, ⟨0, 13, im⟩] = [(21, 5), (16, 5), (13, 3), (0, 13)] := rfl
  refine .inl ?_
  rw [decodeSeq, fld_of hw hs 26 6 10 rfl rfl rfl]
  show gate _ _ = _
  rw [fbv_of hw hs 0 21 5 d rfl rfl rfl,
    fbv_of hw hs 1 16 5 a rfl rfl rfl,
    fbv_of hw hs 2 13 3 g rfl rfl rfl,
    fbv_of hw hs 3 0 13 im rfl rfl rfl]
  exact gate_ok rfl wf

theorem xori (d : BitVec 5) (a : BitVec 5) (g : BitVec 3) (im : BitVec 13) : Statement (.xori d a g im) := by
  intro wf w h
  have hw : place 0x2C000000 (List.map Slot.pair [⟨21, 5, d⟩, ⟨16, 5, a⟩, ⟨13, 3, g⟩, ⟨0, 13, im⟩]) = w := Option.some.inj h
  have hs : shape [⟨21, 5, d⟩, ⟨16, 5, a⟩, ⟨13, 3, g⟩, ⟨0, 13, im⟩] = [(21, 5), (16, 5), (13, 3), (0, 13)] := rfl
  refine .inl ?_
  rw [decodeSeq, fld_of hw hs 26 6 11 rfl rfl rfl]
  show gate _ _ = _
  rw [fbv_of hw hs 0 21 5 d rfl rfl rfl,
    fbv_of hw hs 1 16 5 a rfl rfl rfl,
    fbv_of hw hs 2 13 3 g rfl rfl rfl,
    fbv_of hw hs 3 0 13 im rfl rfl rfl]
  exact gate_ok rfl wf

theorem shli (d : BitVec 5) (a : BitVec 5) (g : BitVec 3) (n : BitVec 6) : Statement (.shli d a g n) := by
  intro wf w h
  have hw : place 0x30000000 (List.map Slot.pair [⟨21, 5, d⟩, ⟨16, 5, a⟩, ⟨13, 3, g⟩, ⟨0, 6, n⟩]) = w := Option.some.inj h
  have hs : shape [⟨21, 5, d⟩, ⟨16, 5, a⟩, ⟨13, 3, g⟩, ⟨0, 6, n⟩] = [(21, 5), (16, 5), (13, 3), (0, 6)] := rfl
  refine .inl ?_
  rw [decodeSeq, fld_of hw hs 26 6 12 rfl rfl rfl]
  show gate _ _ = _
  rw [fld_of hw hs 6 7 0 rfl rfl rfl,
    fbv_of hw hs 0 21 5 d rfl rfl rfl,
    fbv_of hw hs 1 16 5 a rfl rfl rfl,
    fbv_of hw hs 2 13 3 g rfl rfl rfl,
    fbv_of hw hs 3 0 6 n rfl rfl rfl]
  exact gate_ok rfl wf

theorem shri (d : BitVec 5) (a : BitVec 5) (g : BitVec 3) (n : BitVec 6) : Statement (.shri d a g n) := by
  intro wf w h
  have hw : place 0x34000000 (List.map Slot.pair [⟨21, 5, d⟩, ⟨16, 5, a⟩, ⟨13, 3, g⟩, ⟨0, 6, n⟩]) = w := Option.some.inj h
  have hs : shape [⟨21, 5, d⟩, ⟨16, 5, a⟩, ⟨13, 3, g⟩, ⟨0, 6, n⟩] = [(21, 5), (16, 5), (13, 3), (0, 6)] := rfl
  refine .inl ?_
  rw [decodeSeq, fld_of hw hs 26 6 13 rfl rfl rfl]
  show gate _ _ = _
  rw [fld_of hw hs 6 7 0 rfl rfl rfl,
    fbv_of hw hs 0 21 5 d rfl rfl rfl,
    fbv_of hw hs 1 16 5 a rfl rfl rfl,
    fbv_of hw hs 2 13 3 g rfl rfl rfl,
    fbv_of hw hs 3 0 6 n rfl rfl rfl]
  exact gate_ok rfl wf

theorem sari (d : BitVec 5) (a : BitVec 5) (g : BitVec 3) (n : BitVec 6) : Statement (.sari d a g n) := by
  intro wf w h
  have hw : place 0x38000000 (List.map Slot.pair [⟨21, 5, d⟩, ⟨16, 5, a⟩, ⟨13, 3, g⟩, ⟨0, 6, n⟩]) = w := Option.some.inj h
  have hs : shape [⟨21, 5, d⟩, ⟨16, 5, a⟩, ⟨13, 3, g⟩, ⟨0, 6, n⟩] = [(21, 5), (16, 5), (13, 3), (0, 6)] := rfl
  refine .inl ?_
  rw [decodeSeq, fld_of hw hs 26 6 14 rfl rfl rfl]
  show gate _ _ = _
  rw [fld_of hw hs 6 7 0 rfl rfl rfl,
    fbv_of hw hs 0 21 5 d rfl rfl rfl,
    fbv_of hw hs 1 16 5 a rfl rfl rfl,
    fbv_of hw hs 2 13 3 g rfl rfl rfl,
    fbv_of hw hs 3 0 6 n rfl rfl rfl]
  exact gate_ok rfl wf

theorem loop (d : BitVec 5) (g : BitVec 3) (im : BitVec 13) : Statement (.loop d g im) := by
  intro wf w h
  have hw : place 0x3C000000 (List.map Slot.pair [⟨21, 5, d⟩, ⟨13, 3, g⟩, ⟨0, 13, im⟩]) = w := Option.some.inj h
  have hs : shape [⟨21, 5, d⟩, ⟨13, 3, g⟩, ⟨0, 13, im⟩] = [(21, 5), (13, 3), (0, 13)] := rfl
  refine .inl ?_
  rw [decodeSeq, fld_of hw hs 26 6 15 rfl rfl rfl]
  show gate _ _ = _
  rw [fld_of hw hs 16 5 0 rfl rfl rfl,
    fbv_of hw hs 0 21 5 d rfl rfl rfl,
    fbv_of hw hs 1 13 3 g rfl rfl rfl,
    fbv_of hw hs 2 0 13 im rfl rfl rfl]
  exact gate_ok rfl wf

theorem br (g : BitVec 3) (sn : BitVec 1) (d : BitVec 22) : Statement (.br g sn d) := by
  intro wf w h
  have hw : place 0x40000000 (List.map Slot.pair [⟨23, 3, g⟩, ⟨22, 1, sn⟩, ⟨0, 22, d⟩]) = w := Option.some.inj h
  have hs : shape [⟨23, 3, g⟩, ⟨22, 1, sn⟩, ⟨0, 22, d⟩] = [(23, 3), (22, 1), (0, 22)] := rfl
  refine .inl ?_
  rw [decodeSeq, fld_of hw hs 26 6 16 rfl rfl rfl]
  show gate _ _ = _
  rw [fbv_of hw hs 0 23 3 g rfl rfl rfl,
    fbv_of hw hs 1 22 1 sn rfl rfl rfl,
    fbv_of hw hs 2 0 22 d rfl rfl rfl]
  exact gate_ok rfl wf

theorem brp (g : BitVec 3) (sn : BitVec 1) (d : BitVec 22) : Statement (.brp g sn d) := by
  intro wf w h
  have hw : place 0x44000000 (List.map Slot.pair [⟨23, 3, g⟩, ⟨22, 1, sn⟩, ⟨0, 22, d⟩]) = w := Option.some.inj h
  have hs : shape [⟨23, 3, g⟩, ⟨22, 1, sn⟩, ⟨0, 22, d⟩] = [(23, 3), (22, 1), (0, 22)] := rfl
  refine .inl ?_
  rw [decodeSeq, fld_of hw hs 26 6 17 rfl rfl rfl]
  show gate _ _ = _
  rw [fbv_of hw hs 0 23 3 g rfl rfl rfl,
    fbv_of hw hs 1 22 1 sn rfl rfl rfl,
    fbv_of hw hs 2 0 22 d rfl rfl rfl]
  exact gate_ok rfl wf

theorem call (g : BitVec 3) (sn : BitVec 1) (d : BitVec 22) : Statement (.call g sn d) := by
  intro wf w h
  have hw : place 0x48000000 (List.map Slot.pair [⟨23, 3, g⟩, ⟨22, 1, sn⟩, ⟨0, 22, d⟩]) = w := Option.some.inj h
  have hs : shape [⟨23, 3, g⟩, ⟨22, 1, sn⟩, ⟨0, 22, d⟩] = [(23, 3), (22, 1), (0, 22)] := rfl
  refine .inl ?_
  rw [decodeSeq, fld_of hw hs 26 6 18 rfl rfl rfl]
  show gate _ _ = _
  rw [fbv_of hw hs 0 23 3 g rfl rfl rfl,
    fbv_of hw hs 1 22 1 sn rfl rfl rfl,
    fbv_of hw hs 2 0 22 d rfl rfl rfl]
  exact gate_ok rfl wf

theorem ld (d : BitVec 5) (a : BitVec 5) (g : BitVec 3) (o : BitVec 2) (c : BitVec 3) (wd : BitVec 2) (e : BitVec 6) : Statement (.ld d a g o c wd e) := by
  intro wf w h
  have hw : place 0x60000000 (List.map Slot.pair [⟨21, 5, d⟩, ⟨16, 5, a⟩, ⟨13, 3, g⟩, ⟨11, 2, o⟩, ⟨8, 3, c⟩, ⟨6, 2, wd⟩, ⟨0, 6, e⟩]) = w := Option.some.inj h
  have hs : shape [⟨21, 5, d⟩, ⟨16, 5, a⟩, ⟨13, 3, g⟩, ⟨11, 2, o⟩, ⟨8, 3, c⟩, ⟨6, 2, wd⟩, ⟨0, 6, e⟩] = [(21, 5), (16, 5), (13, 3), (11, 2), (8, 3), (6, 2), (0, 6)] := rfl
  refine .inl ?_
  rw [decodeSeq, fld_of hw hs 26 6 24 rfl rfl rfl]
  show gate _ _ = _
  rw [fbv_of hw hs 0 21 5 d rfl rfl rfl,
    fbv_of hw hs 1 16 5 a rfl rfl rfl,
    fbv_of hw hs 2 13 3 g rfl rfl rfl,
    fbv_of hw hs 3 11 2 o rfl rfl rfl,
    fbv_of hw hs 4 8 3 c rfl rfl rfl,
    fbv_of hw hs 5 6 2 wd rfl rfl rfl,
    fbv_of hw hs 6 0 6 e rfl rfl rfl]
  exact gate_ok rfl wf

theorem st (d : BitVec 5) (a : BitVec 5) (g : BitVec 3) (o : BitVec 2) (c : BitVec 3) (wd : BitVec 2) (e : BitVec 6) : Statement (.st d a g o c wd e) := by
  intro wf w h
  have hw : place 0x64000000 (List.map Slot.pair [⟨21, 5, d⟩, ⟨16, 5, a⟩, ⟨13, 3, g⟩, ⟨11, 2, o⟩, ⟨8, 3, c⟩, ⟨6, 2, wd⟩, ⟨0, 6, e⟩]) = w := Option.some.inj h
  have hs : shape [⟨21, 5, d⟩, ⟨16, 5, a⟩, ⟨13, 3, g⟩, ⟨11, 2, o⟩, ⟨8, 3, c⟩, ⟨6, 2, wd⟩, ⟨0, 6, e⟩] = [(21, 5), (16, 5), (13, 3), (11, 2), (8, 3), (6, 2), (0, 6)] := rfl
  refine .inl ?_
  rw [decodeSeq, fld_of hw hs 26 6 25 rfl rfl rfl]
  show gate _ _ = _
  rw [fbv_of hw hs 0 21 5 d rfl rfl rfl,
    fbv_of hw hs 1 16 5 a rfl rfl rfl,
    fbv_of hw hs 2 13 3 g rfl rfl rfl,
    fbv_of hw hs 3 11 2 o rfl rfl rfl,
    fbv_of hw hs 4 8 3 c rfl rfl rfl,
    fbv_of hw hs 5 6 2 wd rfl rfl rfl,
    fbv_of hw hs 6 0 6 e rfl rfl rfl]
  exact gate_ok rfl wf

theorem ldm (d : BitVec 5) (a : BitVec 5) (g : BitVec 3) (o : BitVec 2) (c : BitVec 3) (n : BitVec 4) : Statement (.ldm d a g o c n) := by
  intro wf w h
  have hw : place 0x680000C0 (List.map Slot.pair [⟨21, 5, d⟩, ⟨16, 5, a⟩, ⟨13, 3, g⟩, ⟨11, 2, o⟩, ⟨8, 3, c⟩, ⟨2, 4, n⟩]) = w := Option.some.inj h
  have hs : shape [⟨21, 5, d⟩, ⟨16, 5, a⟩, ⟨13, 3, g⟩, ⟨11, 2, o⟩, ⟨8, 3, c⟩, ⟨2, 4, n⟩] = [(21, 5), (16, 5), (13, 3), (11, 2), (8, 3), (2, 4)] := rfl
  refine .inl ?_
  rw [decodeSeq, fld_of hw hs 26 6 26 rfl rfl rfl]
  show (if fld w 0 2 != 0 then _ else if fld w 6 2 != 3 then _ else gate false _) = _
  rw [fld_of hw hs 0 2 0 rfl rfl rfl, fld_of hw hs 6 2 3 rfl rfl rfl]
  show gate false _ = _
  rw [fbv_of hw hs 0 21 5 d rfl rfl rfl,
    fbv_of hw hs 1 16 5 a rfl rfl rfl,
    fbv_of hw hs 2 13 3 g rfl rfl rfl,
    fbv_of hw hs 3 11 2 o rfl rfl rfl,
    fbv_of hw hs 4 8 3 c rfl rfl rfl,
    fbv_of hw hs 5 2 4 n rfl rfl rfl]
  exact gate_ok rfl wf

theorem stm (d : BitVec 5) (a : BitVec 5) (g : BitVec 3) (o : BitVec 2) (c : BitVec 3) (n : BitVec 4) : Statement (.stm d a g o c n) := by
  intro wf w h
  have hw : place 0x6C0000C0 (List.map Slot.pair [⟨21, 5, d⟩, ⟨16, 5, a⟩, ⟨13, 3, g⟩, ⟨11, 2, o⟩, ⟨8, 3, c⟩, ⟨2, 4, n⟩]) = w := Option.some.inj h
  have hs : shape [⟨21, 5, d⟩, ⟨16, 5, a⟩, ⟨13, 3, g⟩, ⟨11, 2, o⟩, ⟨8, 3, c⟩, ⟨2, 4, n⟩] = [(21, 5), (16, 5), (13, 3), (11, 2), (8, 3), (2, 4)] := rfl
  refine .inl ?_
  rw [decodeSeq, fld_of hw hs 26 6 27 rfl rfl rfl]
  show (if fld w 0 2 != 0 then _ else if fld w 6 2 != 3 then _ else gate false _) = _
  rw [fld_of hw hs 0 2 0 rfl rfl rfl, fld_of hw hs 6 2 3 rfl rfl rfl]
  show gate false _ = _
  rw [fbv_of hw hs 0 21 5 d rfl rfl rfl,
    fbv_of hw hs 1 16 5 a rfl rfl rfl,
    fbv_of hw hs 2 13 3 g rfl rfl rfl,
    fbv_of hw hs 3 11 2 o rfl rfl rfl,
    fbv_of hw hs 4 8 3 c rfl rfl rfl,
    fbv_of hw hs 5 2 4 n rfl rfl rfl]
  exact gate_ok rfl wf

theorem amoswap (d : BitVec 5) (a : BitVec 5) (g : BitVec 3) (o : BitVec 2) (c : BitVec 3) (wd : BitVec 2) : Statement (.amoswap d a g o c wd) := by
  intro wf w h
  have hw : place 0x70000000 (List.map Slot.pair [⟨21, 5, d⟩, ⟨16, 5, a⟩, ⟨13, 3, g⟩, ⟨11, 2, o⟩, ⟨8, 3, c⟩, ⟨6, 2, wd⟩]) = w := Option.some.inj h
  have hs : shape [⟨21, 5, d⟩, ⟨16, 5, a⟩, ⟨13, 3, g⟩, ⟨11, 2, o⟩, ⟨8, 3, c⟩, ⟨6, 2, wd⟩] = [(21, 5), (16, 5), (13, 3), (11, 2), (8, 3), (6, 2)] := rfl
  refine .inl ?_
  rw [decodeSeq, fld_of hw hs 26 6 28 rfl rfl rfl]
  show decodeAmo w = _
  rw [decodeAmo, fld_of hw hs 0 6 0 rfl rfl rfl]
  show gate _ _ = _
  rw [fbv_of hw hs 0 21 5 d rfl rfl rfl,
    fbv_of hw hs 1 16 5 a rfl rfl rfl,
    fbv_of hw hs 2 13 3 g rfl rfl rfl,
    fbv_of hw hs 3 11 2 o rfl rfl rfl,
    fbv_of hw hs 4 8 3 c rfl rfl rfl,
    fbv_of hw hs 5 6 2 wd rfl rfl rfl]
  exact gate_ok rfl wf

theorem amoadd (d : BitVec 5) (a : BitVec 5) (g : BitVec 3) (o : BitVec 2) (c : BitVec 3) (wd : BitVec 2) : Statement (.amoadd d a g o c wd) := by
  intro wf w h
  have hw : place 0x70000001 (List.map Slot.pair [⟨21, 5, d⟩, ⟨16, 5, a⟩, ⟨13, 3, g⟩, ⟨11, 2, o⟩, ⟨8, 3, c⟩, ⟨6, 2, wd⟩]) = w := Option.some.inj h
  have hs : shape [⟨21, 5, d⟩, ⟨16, 5, a⟩, ⟨13, 3, g⟩, ⟨11, 2, o⟩, ⟨8, 3, c⟩, ⟨6, 2, wd⟩] = [(21, 5), (16, 5), (13, 3), (11, 2), (8, 3), (6, 2)] := rfl
  refine .inl ?_
  rw [decodeSeq, fld_of hw hs 26 6 28 rfl rfl rfl]
  show decodeAmo w = _
  rw [decodeAmo, fld_of hw hs 0 6 1 rfl rfl rfl]
  show gate _ _ = _
  rw [fbv_of hw hs 0 21 5 d rfl rfl rfl,
    fbv_of hw hs 1 16 5 a rfl rfl rfl,
    fbv_of hw hs 2 13 3 g rfl rfl rfl,
    fbv_of hw hs 3 11 2 o rfl rfl rfl,
    fbv_of hw hs 4 8 3 c rfl rfl rfl,
    fbv_of hw hs 5 6 2 wd rfl rfl rfl]
  exact gate_ok rfl wf

theorem amoand (d : BitVec 5) (a : BitVec 5) (g : BitVec 3) (o : BitVec 2) (c : BitVec 3) (wd : BitVec 2) : Statement (.amoand d a g o c wd) := by
  intro wf w h
  have hw : place 0x70000002 (List.map Slot.pair [⟨21, 5, d⟩, ⟨16, 5, a⟩, ⟨13, 3, g⟩, ⟨11, 2, o⟩, ⟨8, 3, c⟩, ⟨6, 2, wd⟩]) = w := Option.some.inj h
  have hs : shape [⟨21, 5, d⟩, ⟨16, 5, a⟩, ⟨13, 3, g⟩, ⟨11, 2, o⟩, ⟨8, 3, c⟩, ⟨6, 2, wd⟩] = [(21, 5), (16, 5), (13, 3), (11, 2), (8, 3), (6, 2)] := rfl
  refine .inl ?_
  rw [decodeSeq, fld_of hw hs 26 6 28 rfl rfl rfl]
  show decodeAmo w = _
  rw [decodeAmo, fld_of hw hs 0 6 2 rfl rfl rfl]
  show gate _ _ = _
  rw [fbv_of hw hs 0 21 5 d rfl rfl rfl,
    fbv_of hw hs 1 16 5 a rfl rfl rfl,
    fbv_of hw hs 2 13 3 g rfl rfl rfl,
    fbv_of hw hs 3 11 2 o rfl rfl rfl,
    fbv_of hw hs 4 8 3 c rfl rfl rfl,
    fbv_of hw hs 5 6 2 wd rfl rfl rfl]
  exact gate_ok rfl wf

theorem amoor (d : BitVec 5) (a : BitVec 5) (g : BitVec 3) (o : BitVec 2) (c : BitVec 3) (wd : BitVec 2) : Statement (.amoor d a g o c wd) := by
  intro wf w h
  have hw : place 0x70000003 (List.map Slot.pair [⟨21, 5, d⟩, ⟨16, 5, a⟩, ⟨13, 3, g⟩, ⟨11, 2, o⟩, ⟨8, 3, c⟩, ⟨6, 2, wd⟩]) = w := Option.some.inj h
  have hs : shape [⟨21, 5, d⟩, ⟨16, 5, a⟩, ⟨13, 3, g⟩, ⟨11, 2, o⟩, ⟨8, 3, c⟩, ⟨6, 2, wd⟩] = [(21, 5), (16, 5), (13, 3), (11, 2), (8, 3), (6, 2)] := rfl
  refine .inl ?_
  rw [decodeSeq, fld_of hw hs 26 6 28 rfl rfl rfl]
  show decodeAmo w = _
  rw [decodeAmo, fld_of hw hs 0 6 3 rfl rfl rfl]
  show gate _ _ = _
  rw [fbv_of hw hs 0 21 5 d rfl rfl rfl,
    fbv_of hw hs 1 16 5 a rfl rfl rfl,
    fbv_of hw hs 2 13 3 g rfl rfl rfl,
    fbv_of hw hs 3 11 2 o rfl rfl rfl,
    fbv_of hw hs 4 8 3 c rfl rfl rfl,
    fbv_of hw hs 5 6 2 wd rfl rfl rfl]
  exact gate_ok rfl wf

theorem amoxor (d : BitVec 5) (a : BitVec 5) (g : BitVec 3) (o : BitVec 2) (c : BitVec 3) (wd : BitVec 2) : Statement (.amoxor d a g o c wd) := by
  intro wf w h
  have hw : place 0x70000004 (List.map Slot.pair [⟨21, 5, d⟩, ⟨16, 5, a⟩, ⟨13, 3, g⟩, ⟨11, 2, o⟩, ⟨8, 3, c⟩, ⟨6, 2, wd⟩]) = w := Option.some.inj h
  have hs : shape [⟨21, 5, d⟩, ⟨16, 5, a⟩, ⟨13, 3, g⟩, ⟨11, 2, o⟩, ⟨8, 3, c⟩, ⟨6, 2, wd⟩] = [(21, 5), (16, 5), (13, 3), (11, 2), (8, 3), (6, 2)] := rfl
  refine .inl ?_
  rw [decodeSeq, fld_of hw hs 26 6 28 rfl rfl rfl]
  show decodeAmo w = _
  rw [decodeAmo, fld_of hw hs 0 6 4 rfl rfl rfl]
  show gate _ _ = _
  rw [fbv_of hw hs 0 21 5 d rfl rfl rfl,
    fbv_of hw hs 1 16 5 a rfl rfl rfl,
    fbv_of hw hs 2 13 3 g rfl rfl rfl,
    fbv_of hw hs 3 11 2 o rfl rfl rfl,
    fbv_of hw hs 4 8 3 c rfl rfl rfl,
    fbv_of hw hs 5 6 2 wd rfl rfl rfl]
  exact gate_ok rfl wf

theorem amomin (d : BitVec 5) (a : BitVec 5) (g : BitVec 3) (o : BitVec 2) (c : BitVec 3) (wd : BitVec 2) : Statement (.amomin d a g o c wd) := by
  intro wf w h
  have hw : place 0x70000005 (List.map Slot.pair [⟨21, 5, d⟩, ⟨16, 5, a⟩, ⟨13, 3, g⟩, ⟨11, 2, o⟩, ⟨8, 3, c⟩, ⟨6, 2, wd⟩]) = w := Option.some.inj h
  have hs : shape [⟨21, 5, d⟩, ⟨16, 5, a⟩, ⟨13, 3, g⟩, ⟨11, 2, o⟩, ⟨8, 3, c⟩, ⟨6, 2, wd⟩] = [(21, 5), (16, 5), (13, 3), (11, 2), (8, 3), (6, 2)] := rfl
  refine .inl ?_
  rw [decodeSeq, fld_of hw hs 26 6 28 rfl rfl rfl]
  show decodeAmo w = _
  rw [decodeAmo, fld_of hw hs 0 6 5 rfl rfl rfl]
  show gate _ _ = _
  rw [fbv_of hw hs 0 21 5 d rfl rfl rfl,
    fbv_of hw hs 1 16 5 a rfl rfl rfl,
    fbv_of hw hs 2 13 3 g rfl rfl rfl,
    fbv_of hw hs 3 11 2 o rfl rfl rfl,
    fbv_of hw hs 4 8 3 c rfl rfl rfl,
    fbv_of hw hs 5 6 2 wd rfl rfl rfl]
  exact gate_ok rfl wf

theorem amomax (d : BitVec 5) (a : BitVec 5) (g : BitVec 3) (o : BitVec 2) (c : BitVec 3) (wd : BitVec 2) : Statement (.amomax d a g o c wd) := by
  intro wf w h
  have hw : place 0x70000006 (List.map Slot.pair [⟨21, 5, d⟩, ⟨16, 5, a⟩, ⟨13, 3, g⟩, ⟨11, 2, o⟩, ⟨8, 3, c⟩, ⟨6, 2, wd⟩]) = w := Option.some.inj h
  have hs : shape [⟨21, 5, d⟩, ⟨16, 5, a⟩, ⟨13, 3, g⟩, ⟨11, 2, o⟩, ⟨8, 3, c⟩, ⟨6, 2, wd⟩] = [(21, 5), (16, 5), (13, 3), (11, 2), (8, 3), (6, 2)] := rfl
  refine .inl ?_
  rw [decodeSeq, fld_of hw hs 26 6 28 rfl rfl rfl]
  show decodeAmo w = _
  rw [decodeAmo, fld_of hw hs 0 6 6 rfl rfl rfl]
  show gate _ _ = _
  rw [fbv_of hw hs 0 21 5 d rfl rfl rfl,
    fbv_of hw hs 1 16 5 a rfl rfl rfl,
    fbv_of hw hs 2 13 3 g rfl rfl rfl,
    fbv_of hw hs 3 11 2 o rfl rfl rfl,
    fbv_of hw hs 4 8 3 c rfl rfl rfl,
    fbv_of hw hs 5 6 2 wd rfl rfl rfl]
  exact gate_ok rfl wf

theorem amominu (d : BitVec 5) (a : BitVec 5) (g : BitVec 3) (o : BitVec 2) (c : BitVec 3) (wd : BitVec 2) : Statement (.amominu d a g o c wd) := by
  intro wf w h
  have hw : place 0x70000007 (List.map Slot.pair [⟨21, 5, d⟩, ⟨16, 5, a⟩, ⟨13, 3, g⟩, ⟨11, 2, o⟩, ⟨8, 3, c⟩, ⟨6, 2, wd⟩]) = w := Option.some.inj h
  have hs : shape [⟨21, 5, d⟩, ⟨16, 5, a⟩, ⟨13, 3, g⟩, ⟨11, 2, o⟩, ⟨8, 3, c⟩, ⟨6, 2, wd⟩] = [(21, 5), (16, 5), (13, 3), (11, 2), (8, 3), (6, 2)] := rfl
  refine .inl ?_
  rw [decodeSeq, fld_of hw hs 26 6 28 rfl rfl rfl]
  show decodeAmo w = _
  rw [decodeAmo, fld_of hw hs 0 6 7 rfl rfl rfl]
  show gate _ _ = _
  rw [fbv_of hw hs 0 21 5 d rfl rfl rfl,
    fbv_of hw hs 1 16 5 a rfl rfl rfl,
    fbv_of hw hs 2 13 3 g rfl rfl rfl,
    fbv_of hw hs 3 11 2 o rfl rfl rfl,
    fbv_of hw hs 4 8 3 c rfl rfl rfl,
    fbv_of hw hs 5 6 2 wd rfl rfl rfl]
  exact gate_ok rfl wf

theorem amomaxu (d : BitVec 5) (a : BitVec 5) (g : BitVec 3) (o : BitVec 2) (c : BitVec 3) (wd : BitVec 2) : Statement (.amomaxu d a g o c wd) := by
  intro wf w h
  have hw : place 0x70000008 (List.map Slot.pair [⟨21, 5, d⟩, ⟨16, 5, a⟩, ⟨13, 3, g⟩, ⟨11, 2, o⟩, ⟨8, 3, c⟩, ⟨6, 2, wd⟩]) = w := Option.some.inj h
  have hs : shape [⟨21, 5, d⟩, ⟨16, 5, a⟩, ⟨13, 3, g⟩, ⟨11, 2, o⟩, ⟨8, 3, c⟩, ⟨6, 2, wd⟩] = [(21, 5), (16, 5), (13, 3), (11, 2), (8, 3), (6, 2)] := rfl
  refine .inl ?_
  rw [decodeSeq, fld_of hw hs 26 6 28 rfl rfl rfl]
  show decodeAmo w = _
  rw [decodeAmo, fld_of hw hs 0 6 8 rfl rfl rfl]
  show gate _ _ = _
  rw [fbv_of hw hs 0 21 5 d rfl rfl rfl,
    fbv_of hw hs 1 16 5 a rfl rfl rfl,
    fbv_of hw hs 2 13 3 g rfl rfl rfl,
    fbv_of hw hs 3 11 2 o rfl rfl rfl,
    fbv_of hw hs 4 8 3 c rfl rfl rfl,
    fbv_of hw hs 5 6 2 wd rfl rfl rfl]
  exact gate_ok rfl wf

theorem cas (d : BitVec 5) (a : BitVec 5) (g : BitVec 3) (o : BitVec 2) (c : BitVec 3) (wd : BitVec 2) : Statement (.cas d a g o c wd) := by
  intro wf w h
  have hw : place 0x74000000 (List.map Slot.pair [⟨21, 5, d⟩, ⟨16, 5, a⟩, ⟨13, 3, g⟩, ⟨11, 2, o⟩, ⟨8, 3, c⟩, ⟨6, 2, wd⟩]) = w := Option.some.inj h
  have hs : shape [⟨21, 5, d⟩, ⟨16, 5, a⟩, ⟨13, 3, g⟩, ⟨11, 2, o⟩, ⟨8, 3, c⟩, ⟨6, 2, wd⟩] = [(21, 5), (16, 5), (13, 3), (11, 2), (8, 3), (6, 2)] := rfl
  refine .inl ?_
  rw [decodeSeq, fld_of hw hs 26 6 29 rfl rfl rfl]
  show gate _ _ = _
  rw [fld_of hw hs 0 6 0 rfl rfl rfl,
    fbv_of hw hs 0 21 5 d rfl rfl rfl,
    fbv_of hw hs 1 16 5 a rfl rfl rfl,
    fbv_of hw hs 2 13 3 g rfl rfl rfl,
    fbv_of hw hs 3 11 2 o rfl rfl rfl,
    fbv_of hw hs 4 8 3 c rfl rfl rfl,
    fbv_of hw hs 5 6 2 wd rfl rfl rfl]
  exact gate_ok rfl wf

theorem nop (q : BitVec 3) : Statement (.nop q) := by
  intro wf w h
  have hw : place 0xB8000000 (List.map Slot.pair [⟨12, 3, q⟩]) = w := Option.some.inj h
  have hs : shape [⟨12, 3, q⟩] = [(12, 3)] := rfl
  refine .inl ?_
  rw [decodeSeq, fld_of hw hs 26 6 46 rfl rfl rfl]
  show decodePort w = _
  rw [decodePort, fld_of hw hs 0 8 0 rfl rfl rfl]
  show gate _ _ = _
  rw [fld_of hw hs 8 4 0 rfl rfl rfl,
    fld_of hw hs 15 11 0 rfl rfl rfl,
    fbv_of hw hs 0 12 3 q rfl rfl rfl]
  exact gate_ok rfl wf

theorem halt (q : BitVec 3) : Statement (.halt q) := by
  intro wf w h
  have hw : place 0xB8000001 (List.map Slot.pair [⟨12, 3, q⟩]) = w := Option.some.inj h
  have hs : shape [⟨12, 3, q⟩] = [(12, 3)] := rfl
  refine .inl ?_
  rw [decodeSeq, fld_of hw hs 26 6 46 rfl rfl rfl]
  show decodePort w = _
  rw [decodePort, fld_of hw hs 0 8 1 rfl rfl rfl]
  show gate _ _ = _
  rw [fld_of hw hs 8 4 0 rfl rfl rfl,
    fld_of hw hs 15 11 0 rfl rfl rfl,
    fbv_of hw hs 0 12 3 q rfl rfl rfl]
  exact gate_ok rfl wf

theorem yield (q : BitVec 3) : Statement (.yield q) := by
  intro wf w h
  have hw : place 0xB8000002 (List.map Slot.pair [⟨12, 3, q⟩]) = w := Option.some.inj h
  have hs : shape [⟨12, 3, q⟩] = [(12, 3)] := rfl
  refine .inl ?_
  rw [decodeSeq, fld_of hw hs 26 6 46 rfl rfl rfl]
  show decodePort w = _
  rw [decodePort, fld_of hw hs 0 8 2 rfl rfl rfl]
  show gate _ _ = _
  rw [fld_of hw hs 8 4 0 rfl rfl rfl,
    fld_of hw hs 15 11 0 rfl rfl rfl,
    fbv_of hw hs 0 12 3 q rfl rfl rfl]
  exact gate_ok rfl wf

theorem trap (c : BitVec 6) (q : BitVec 3) : Statement (.trap c q) := by
  intro wf w h
  have hw : place 0xB8000003 (List.map Slot.pair [⟨15, 6, c⟩, ⟨12, 3, q⟩]) = w := Option.some.inj h
  have hs : shape [⟨15, 6, c⟩, ⟨12, 3, q⟩] = [(15, 6), (12, 3)] := rfl
  refine .inl ?_
  rw [decodeSeq, fld_of hw hs 26 6 46 rfl rfl rfl]
  show decodePort w = _
  rw [decodePort, fld_of hw hs 0 8 3 rfl rfl rfl]
  show gate _ _ = _
  rw [fld_of hw hs 8 4 0 rfl rfl rfl,
    fld_of hw hs 21 5 0 rfl rfl rfl,
    fbv_of hw hs 0 15 6 c rfl rfl rfl,
    fbv_of hw hs 1 12 3 q rfl rfl rfl]
  exact gate_ok rfl wf

theorem rte (q : BitVec 3) : Statement (.rte q) := by
  intro wf w h
  have hw : place 0xB8000004 (List.map Slot.pair [⟨12, 3, q⟩]) = w := Option.some.inj h
  have hs : shape [⟨12, 3, q⟩] = [(12, 3)] := rfl
  refine .inl ?_
  rw [decodeSeq, fld_of hw hs 26 6 46 rfl rfl rfl]
  show decodePort w = _
  rw [decodePort, fld_of hw hs 0 8 4 rfl rfl rfl]
  show gate _ _ = _
  rw [fld_of hw hs 8 4 0 rfl rfl rfl,
    fld_of hw hs 15 11 0 rfl rfl rfl,
    fbv_of hw hs 0 12 3 q rfl rfl rfl]
  exact gate_ok rfl wf

theorem sysr (d : BitVec 5) (r : BitVec 6) (q : BitVec 3) : Statement (.sysr d r q) := by
  intro wf w h
  have hw : place 0xB8000005 (List.map Slot.pair [⟨21, 5, d⟩, ⟨15, 6, r⟩, ⟨12, 3, q⟩]) = w := Option.some.inj h
  have hs : shape [⟨21, 5, d⟩, ⟨15, 6, r⟩, ⟨12, 3, q⟩] = [(21, 5), (15, 6), (12, 3)] := rfl
  refine .inl ?_
  rw [decodeSeq, fld_of hw hs 26 6 46 rfl rfl rfl]
  show decodePort w = _
  rw [decodePort, fld_of hw hs 0 8 5 rfl rfl rfl]
  have e : fbv w 15 6 = r := fbv_of hw hs 1 15 6 r rfl rfl rfl
  have hr : ¬ 10 < fld w 15 6 := by
    have hf : fld w 15 6 = r.toNat := by rw [← e]; rfl
    have := of_decide_eq_true wf
    rw [hf]
    exact Nat.not_lt.mpr this
  show (if 10 < fld w 15 6 then _ else gate (fld w 8 4 != 0) _) = _
  rw [if_neg hr]
  rw [fld_of hw hs 8 4 0 rfl rfl rfl,
    fbv_of hw hs 0 21 5 d rfl rfl rfl,
    fbv_of hw hs 1 15 6 r rfl rfl rfl,
    fbv_of hw hs 2 12 3 q rfl rfl rfl]
  exact gate_ok rfl wf

theorem sysw (a : BitVec 5) (r : BitVec 6) (q : BitVec 3) : Statement (.sysw a r q) := by
  intro wf w h
  have hw : place 0xB8000006 (List.map Slot.pair [⟨21, 5, a⟩, ⟨15, 6, r⟩, ⟨12, 3, q⟩]) = w := Option.some.inj h
  have hs : shape [⟨21, 5, a⟩, ⟨15, 6, r⟩, ⟨12, 3, q⟩] = [(21, 5), (15, 6), (12, 3)] := rfl
  refine .inl ?_
  rw [decodeSeq, fld_of hw hs 26 6 46 rfl rfl rfl]
  show decodePort w = _
  rw [decodePort, fld_of hw hs 0 8 6 rfl rfl rfl]
  have e : fbv w 15 6 = r := fbv_of hw hs 1 15 6 r rfl rfl rfl
  have hr : ¬ 10 < fld w 15 6 := by
    have hf : fld w 15 6 = r.toNat := by rw [← e]; rfl
    have := of_decide_eq_true wf
    rw [hf]
    exact Nat.not_lt.mpr this
  show (if 10 < fld w 15 6 then _ else gate (fld w 8 4 != 0) _) = _
  rw [if_neg hr]
  rw [fld_of hw hs 8 4 0 rfl rfl rfl,
    fbv_of hw hs 0 21 5 a rfl rfl rfl,
    fbv_of hw hs 1 15 6 r rfl rfl rfl,
    fbv_of hw hs 2 12 3 q rfl rfl rfl]
  exact gate_ok rfl wf

theorem get (d : BitVec 5) (n : BitVec 6) (q : BitVec 3) (c : BitVec 4) : Statement (.get d n q c) := by
  intro wf w h
  have hw : place 0xB8000010 (List.map Slot.pair [⟨21, 5, d⟩, ⟨15, 6, n⟩, ⟨12, 3, q⟩, ⟨8, 4, c⟩]) = w := Option.some.inj h
  have hs : shape [⟨21, 5, d⟩, ⟨15, 6, n⟩, ⟨12, 3, q⟩, ⟨8, 4, c⟩] = [(21, 5), (15, 6), (12, 3), (8, 4)] := rfl
  refine .inl ?_
  rw [decodeSeq, fld_of hw hs 26 6 46 rfl rfl rfl]
  show decodePort w = _
  rw [decodePort, fld_of hw hs 0 8 16 rfl rfl rfl]
  show gate _ _ = _
  rw [fbv_of hw hs 0 21 5 d rfl rfl rfl,
    fbv_of hw hs 1 15 6 n rfl rfl rfl,
    fbv_of hw hs 2 12 3 q rfl rfl rfl,
    fbv_of hw hs 3 8 4 c rfl rfl rfl]
  exact gate_ok rfl wf

theorem peekInlet (d : BitVec 5) (n : BitVec 6) (q : BitVec 3) : Statement (.peekInlet d n q) := by
  intro wf w h
  have hw : place 0xB8000011 (List.map Slot.pair [⟨21, 5, d⟩, ⟨15, 6, n⟩, ⟨12, 3, q⟩]) = w := Option.some.inj h
  have hs : shape [⟨21, 5, d⟩, ⟨15, 6, n⟩, ⟨12, 3, q⟩] = [(21, 5), (15, 6), (12, 3)] := rfl
  refine .inl ?_
  rw [decodeSeq, fld_of hw hs 26 6 46 rfl rfl rfl]
  show decodePort w = _
  rw [decodePort, fld_of hw hs 0 8 17 rfl rfl rfl]
  show eitherWay w _ _ _ = _
  rw [eitherWay, fld_of hw hs 8 4 0 rfl rfl rfl]
  show Except.ok _ = _
  rw [fbv_of hw hs 0 21 5 d rfl rfl rfl, fbv_of hw hs 1 15 6 n rfl rfl rfl, fbv_of hw hs 2 12 3 q rfl rfl rfl]

theorem peekOutlet (d : BitVec 5) (n : BitVec 6) (q : BitVec 3) : Statement (.peekOutlet d n q) := by
  intro wf w h
  have hw : place 0xB8000111 (List.map Slot.pair [⟨21, 5, d⟩, ⟨15, 6, n⟩, ⟨12, 3, q⟩]) = w := Option.some.inj h
  have hs : shape [⟨21, 5, d⟩, ⟨15, 6, n⟩, ⟨12, 3, q⟩] = [(21, 5), (15, 6), (12, 3)] := rfl
  refine .inl ?_
  rw [decodeSeq, fld_of hw hs 26 6 46 rfl rfl rfl]
  show decodePort w = _
  rw [decodePort, fld_of hw hs 0 8 17 rfl rfl rfl]
  show eitherWay w _ _ _ = _
  rw [eitherWay, fld_of hw hs 8 4 1 rfl rfl rfl]
  show Except.ok _ = _
  rw [fbv_of hw hs 0 21 5 d rfl rfl rfl, fbv_of hw hs 1 15 6 n rfl rfl rfl, fbv_of hw hs 2 12 3 q rfl rfl rfl]

theorem accz (n : BitVec 4) (q : BitVec 3) : Statement (.accz n q) := by
  intro wf w h
  have hw : place 0xB8000012 (List.map Slot.pair [⟨15, 4, n⟩, ⟨12, 3, q⟩]) = w := Option.some.inj h
  have hs : shape [⟨15, 4, n⟩, ⟨12, 3, q⟩] = [(15, 4), (12, 3)] := rfl
  refine .inl ?_
  rw [decodeSeq, fld_of hw hs 26 6 46 rfl rfl rfl]
  show decodePort w = _
  rw [decodePort, fld_of hw hs 0 8 18 rfl rfl rfl]
  show gate _ _ = _
  rw [fld_of hw hs 8 4 0 rfl rfl rfl,
    fld_of hw hs 19 7 0 rfl rfl rfl,
    fbv_of hw hs 0 15 4 n rfl rfl rfl,
    fbv_of hw hs 1 12 3 q rfl rfl rfl]
  exact gate_ok rfl wf

theorem accr (d : BitVec 5) (n : BitVec 4) (q : BitVec 3) (c : BitVec 4) : Statement (.accr d n q c) := by
  intro wf w h
  have hw : place 0xB8000013 (List.map Slot.pair [⟨21, 5, d⟩, ⟨15, 4, n⟩, ⟨12, 3, q⟩, ⟨8, 4, c⟩]) = w := Option.some.inj h
  have hs : shape [⟨21, 5, d⟩, ⟨15, 4, n⟩, ⟨12, 3, q⟩, ⟨8, 4, c⟩] = [(21, 5), (15, 4), (12, 3), (8, 4)] := rfl
  refine .inl ?_
  rw [decodeSeq, fld_of hw hs 26 6 46 rfl rfl rfl]
  show decodePort w = _
  rw [decodePort, fld_of hw hs 0 8 19 rfl rfl rfl]
  show gate _ _ = _
  rw [fld_of hw hs 19 2 0 rfl rfl rfl,
    fbv_of hw hs 0 21 5 d rfl rfl rfl,
    fbv_of hw hs 1 15 4 n rfl rfl rfl,
    fbv_of hw hs 2 12 3 q rfl rfl rfl,
    fbv_of hw hs 3 8 4 c rfl rfl rfl]
  exact gate_ok rfl wf

theorem scmdStop (a : BitVec 5) (n : BitVec 4) (q : BitVec 3) : Statement (.scmdStop a n q) := by
  intro wf w h
  have hw : place 0xB8000014 (List.map Slot.pair [⟨21, 5, a⟩, ⟨15, 4, n⟩, ⟨12, 3, q⟩]) = w := Option.some.inj h
  have hs : shape [⟨21, 5, a⟩, ⟨15, 4, n⟩, ⟨12, 3, q⟩] = [(21, 5), (15, 4), (12, 3)] := rfl
  refine .inl ?_
  rw [decodeSeq, fld_of hw hs 26 6 46 rfl rfl rfl]
  show decodePort w = _
  rw [decodePort, fld_of hw hs 0 8 20 rfl rfl rfl]
  show decodeScmd w = _
  rw [decodeScmd, fld_of hw hs 8 4 0 rfl rfl rfl]
  show gate _ _ = _
  rw [fld_of hw hs 19 2 0 rfl rfl rfl,
    fbv_of hw hs 0 21 5 a rfl rfl rfl,
    fbv_of hw hs 1 15 4 n rfl rfl rfl,
    fbv_of hw hs 2 12 3 q rfl rfl rfl]
  exact gate_ok rfl wf

theorem scmdAddI32 (a : BitVec 5) (n : BitVec 4) (q : BitVec 3) : Statement (.scmdAddI32 a n q) := by
  intro wf w h
  have hw : place 0xB8000114 (List.map Slot.pair [⟨21, 5, a⟩, ⟨15, 4, n⟩, ⟨12, 3, q⟩]) = w := Option.some.inj h
  have hs : shape [⟨21, 5, a⟩, ⟨15, 4, n⟩, ⟨12, 3, q⟩] = [(21, 5), (15, 4), (12, 3)] := rfl
  refine .inl ?_
  rw [decodeSeq, fld_of hw hs 26 6 46 rfl rfl rfl]
  show decodePort w = _
  rw [decodePort, fld_of hw hs 0 8 20 rfl rfl rfl]
  show decodeScmd w = _
  rw [decodeScmd, fld_of hw hs 8 4 1 rfl rfl rfl]
  show gate _ _ = _
  rw [fld_of hw hs 19 2 0 rfl rfl rfl,
    fbv_of hw hs 0 21 5 a rfl rfl rfl,
    fbv_of hw hs 1 15 4 n rfl rfl rfl,
    fbv_of hw hs 2 12 3 q rfl rfl rfl]
  exact gate_ok rfl wf

theorem scmdAddI64 (a : BitVec 5) (n : BitVec 4) (q : BitVec 3) : Statement (.scmdAddI64 a n q) := by
  intro wf w h
  have hw : place 0xB8000214 (List.map Slot.pair [⟨21, 5, a⟩, ⟨15, 4, n⟩, ⟨12, 3, q⟩]) = w := Option.some.inj h
  have hs : shape [⟨21, 5, a⟩, ⟨15, 4, n⟩, ⟨12, 3, q⟩] = [(21, 5), (15, 4), (12, 3)] := rfl
  refine .inl ?_
  rw [decodeSeq, fld_of hw hs 26 6 46 rfl rfl rfl]
  show decodePort w = _
  rw [decodePort, fld_of hw hs 0 8 20 rfl rfl rfl]
  show decodeScmd w = _
  rw [decodeScmd, fld_of hw hs 8 4 2 rfl rfl rfl]
  show gate _ _ = _
  rw [fld_of hw hs 19 2 0 rfl rfl rfl,
    fbv_of hw hs 0 21 5 a rfl rfl rfl,
    fbv_of hw hs 1 15 4 n rfl rfl rfl,
    fbv_of hw hs 2 12 3 q rfl rfl rfl]
  exact gate_ok rfl wf

theorem scmdAddF32 (a : BitVec 5) (n : BitVec 4) (q : BitVec 3) : Statement (.scmdAddF32 a n q) := by
  intro wf w h
  have hw : place 0xB8000314 (List.map Slot.pair [⟨21, 5, a⟩, ⟨15, 4, n⟩, ⟨12, 3, q⟩]) = w := Option.some.inj h
  have hs : shape [⟨21, 5, a⟩, ⟨15, 4, n⟩, ⟨12, 3, q⟩] = [(21, 5), (15, 4), (12, 3)] := rfl
  refine .inl ?_
  rw [decodeSeq, fld_of hw hs 26 6 46 rfl rfl rfl]
  show decodePort w = _
  rw [decodePort, fld_of hw hs 0 8 20 rfl rfl rfl]
  show decodeScmd w = _
  rw [decodeScmd, fld_of hw hs 8 4 3 rfl rfl rfl]
  show gate _ _ = _
  rw [fld_of hw hs 19 2 0 rfl rfl rfl,
    fbv_of hw hs 0 21 5 a rfl rfl rfl,
    fbv_of hw hs 1 15 4 n rfl rfl rfl,
    fbv_of hw hs 2 12 3 q rfl rfl rfl]
  exact gate_ok rfl wf

theorem scmdWaddI32 (a : BitVec 5) (n : BitVec 4) (q : BitVec 3) : Statement (.scmdWaddI32 a n q) := by
  intro wf w h
  have hw : place 0xB8000414 (List.map Slot.pair [⟨21, 5, a⟩, ⟨15, 4, n⟩, ⟨12, 3, q⟩]) = w := Option.some.inj h
  have hs : shape [⟨21, 5, a⟩, ⟨15, 4, n⟩, ⟨12, 3, q⟩] = [(21, 5), (15, 4), (12, 3)] := rfl
  refine .inl ?_
  rw [decodeSeq, fld_of hw hs 26 6 46 rfl rfl rfl]
  show decodePort w = _
  rw [decodePort, fld_of hw hs 0 8 20 rfl rfl rfl]
  show decodeScmd w = _
  rw [decodeScmd, fld_of hw hs 8 4 4 rfl rfl rfl]
  show gate _ _ = _
  rw [fld_of hw hs 19 2 0 rfl rfl rfl,
    fbv_of hw hs 0 21 5 a rfl rfl rfl,
    fbv_of hw hs 1 15 4 n rfl rfl rfl,
    fbv_of hw hs 2 12 3 q rfl rfl rfl]
  exact gate_ok rfl wf

theorem scmdWaddF32 (a : BitVec 5) (n : BitVec 4) (q : BitVec 3) : Statement (.scmdWaddF32 a n q) := by
  intro wf w h
  have hw : place 0xB8000514 (List.map Slot.pair [⟨21, 5, a⟩, ⟨15, 4, n⟩, ⟨12, 3, q⟩]) = w := Option.some.inj h
  have hs : shape [⟨21, 5, a⟩, ⟨15, 4, n⟩, ⟨12, 3, q⟩] = [(21, 5), (15, 4), (12, 3)] := rfl
  refine .inl ?_
  rw [decodeSeq, fld_of hw hs 26 6 46 rfl rfl rfl]
  show decodePort w = _
  rw [decodePort, fld_of hw hs 0 8 20 rfl rfl rfl]
  show decodeScmd w = _
  rw [decodeScmd, fld_of hw hs 8 4 5 rfl rfl rfl]
  show gate _ _ = _
  rw [fld_of hw hs 19 2 0 rfl rfl rfl,
    fbv_of hw hs 0 21 5 a rfl rfl rfl,
    fbv_of hw hs 1 15 4 n rfl rfl rfl,
    fbv_of hw hs 2 12 3 q rfl rfl rfl]
  exact gate_ok rfl wf

theorem scmdMaxI32 (a : BitVec 5) (n : BitVec 4) (q : BitVec 3) : Statement (.scmdMaxI32 a n q) := by
  intro wf w h
  have hw : place 0xB8000614 (List.map Slot.pair [⟨21, 5, a⟩, ⟨15, 4, n⟩, ⟨12, 3, q⟩]) = w := Option.some.inj h
  have hs : shape [⟨21, 5, a⟩, ⟨15, 4, n⟩, ⟨12, 3, q⟩] = [(21, 5), (15, 4), (12, 3)] := rfl
  refine .inl ?_
  rw [decodeSeq, fld_of hw hs 26 6 46 rfl rfl rfl]
  show decodePort w = _
  rw [decodePort, fld_of hw hs 0 8 20 rfl rfl rfl]
  show decodeScmd w = _
  rw [decodeScmd, fld_of hw hs 8 4 6 rfl rfl rfl]
  show gate _ _ = _
  rw [fld_of hw hs 19 2 0 rfl rfl rfl,
    fbv_of hw hs 0 21 5 a rfl rfl rfl,
    fbv_of hw hs 1 15 4 n rfl rfl rfl,
    fbv_of hw hs 2 12 3 q rfl rfl rfl]
  exact gate_ok rfl wf

theorem scmdMinI32 (a : BitVec 5) (n : BitVec 4) (q : BitVec 3) : Statement (.scmdMinI32 a n q) := by
  intro wf w h
  have hw : place 0xB8000714 (List.map Slot.pair [⟨21, 5, a⟩, ⟨15, 4, n⟩, ⟨12, 3, q⟩]) = w := Option.some.inj h
  have hs : shape [⟨21, 5, a⟩, ⟨15, 4, n⟩, ⟨12, 3, q⟩] = [(21, 5), (15, 4), (12, 3)] := rfl
  refine .inl ?_
  rw [decodeSeq, fld_of hw hs 26 6 46 rfl rfl rfl]
  show decodePort w = _
  rw [decodePort, fld_of hw hs 0 8 20 rfl rfl rfl]
  show decodeScmd w = _
  rw [decodeScmd, fld_of hw hs 8 4 7 rfl rfl rfl]
  show gate _ _ = _
  rw [fld_of hw hs 19 2 0 rfl rfl rfl,
    fbv_of hw hs 0 21 5 a rfl rfl rfl,
    fbv_of hw hs 1 15 4 n rfl rfl rfl,
    fbv_of hw hs 2 12 3 q rfl rfl rfl]
  exact gate_ok rfl wf

theorem scmdMaxF32 (a : BitVec 5) (n : BitVec 4) (q : BitVec 3) : Statement (.scmdMaxF32 a n q) := by
  intro wf w h
  have hw : place 0xB8000814 (List.map Slot.pair [⟨21, 5, a⟩, ⟨15, 4, n⟩, ⟨12, 3, q⟩]) = w := Option.some.inj h
  have hs : shape [⟨21, 5, a⟩, ⟨15, 4, n⟩, ⟨12, 3, q⟩] = [(21, 5), (15, 4), (12, 3)] := rfl
  refine .inl ?_
  rw [decodeSeq, fld_of hw hs 26 6 46 rfl rfl rfl]
  show decodePort w = _
  rw [decodePort, fld_of hw hs 0 8 20 rfl rfl rfl]
  show decodeScmd w = _
  rw [decodeScmd, fld_of hw hs 8 4 8 rfl rfl rfl]
  show gate _ _ = _
  rw [fld_of hw hs 19 2 0 rfl rfl rfl,
    fbv_of hw hs 0 21 5 a rfl rfl rfl,
    fbv_of hw hs 1 15 4 n rfl rfl rfl,
    fbv_of hw hs 2 12 3 q rfl rfl rfl]
  exact gate_ok rfl wf

theorem scmdMinF32 (a : BitVec 5) (n : BitVec 4) (q : BitVec 3) : Statement (.scmdMinF32 a n q) := by
  intro wf w h
  have hw : place 0xB8000914 (List.map Slot.pair [⟨21, 5, a⟩, ⟨15, 4, n⟩, ⟨12, 3, q⟩]) = w := Option.some.inj h
  have hs : shape [⟨21, 5, a⟩, ⟨15, 4, n⟩, ⟨12, 3, q⟩] = [(21, 5), (15, 4), (12, 3)] := rfl
  refine .inl ?_
  rw [decodeSeq, fld_of hw hs 26 6 46 rfl rfl rfl]
  show decodePort w = _
  rw [decodePort, fld_of hw hs 0 8 20 rfl rfl rfl]
  show decodeScmd w = _
  rw [decodeScmd, fld_of hw hs 8 4 9 rfl rfl rfl]
  show gate _ _ = _
  rw [fld_of hw hs 19 2 0 rfl rfl rfl,
    fbv_of hw hs 0 21 5 a rfl rfl rfl,
    fbv_of hw hs 1 15 4 n rfl rfl rfl,
    fbv_of hw hs 2 12 3 q rfl rfl rfl]
  exact gate_ok rfl wf

theorem scmdCount (a : BitVec 5) (n : BitVec 4) (q : BitVec 3) : Statement (.scmdCount a n q) := by
  intro wf w h
  have hw : place 0xB8000A14 (List.map Slot.pair [⟨21, 5, a⟩, ⟨15, 4, n⟩, ⟨12, 3, q⟩]) = w := Option.some.inj h
  have hs : shape [⟨21, 5, a⟩, ⟨15, 4, n⟩, ⟨12, 3, q⟩] = [(21, 5), (15, 4), (12, 3)] := rfl
  refine .inl ?_
  rw [decodeSeq, fld_of hw hs 26 6 46 rfl rfl rfl]
  show decodePort w = _
  rw [decodePort, fld_of hw hs 0 8 20 rfl rfl rfl]
  show decodeScmd w = _
  rw [decodeScmd, fld_of hw hs 8 4 10 rfl rfl rfl]
  show gate _ _ = _
  rw [fld_of hw hs 19 2 0 rfl rfl rfl,
    fbv_of hw hs 0 21 5 a rfl rfl rfl,
    fbv_of hw hs 1 15 4 n rfl rfl rfl,
    fbv_of hw hs 2 12 3 q rfl rfl rfl]
  exact gate_ok rfl wf

theorem scmdKeyAdd (a : BitVec 5) (n : BitVec 4) (q : BitVec 3) : Statement (.scmdKeyAdd a n q) := by
  intro wf w h
  have hw : place 0xB8000B14 (List.map Slot.pair [⟨21, 5, a⟩, ⟨15, 4, n⟩, ⟨12, 3, q⟩]) = w := Option.some.inj h
  have hs : shape [⟨21, 5, a⟩, ⟨15, 4, n⟩, ⟨12, 3, q⟩] = [(21, 5), (15, 4), (12, 3)] := rfl
  refine .inl ?_
  rw [decodeSeq, fld_of hw hs 26 6 46 rfl rfl rfl]
  show decodePort w = _
  rw [decodePort, fld_of hw hs 0 8 20 rfl rfl rfl]
  show decodeScmd w = _
  rw [decodeScmd, fld_of hw hs 8 4 11 rfl rfl rfl]
  show gate _ _ = _
  rw [fld_of hw hs 19 2 0 rfl rfl rfl,
    fbv_of hw hs 0 21 5 a rfl rfl rfl,
    fbv_of hw hs 1 15 4 n rfl rfl rfl,
    fbv_of hw hs 2 12 3 q rfl rfl rfl]
  exact gate_ok rfl wf

theorem scmdKeyWadd (a : BitVec 5) (n : BitVec 4) (q : BitVec 3) : Statement (.scmdKeyWadd a n q) := by
  intro wf w h
  have hw : place 0xB8000C14 (List.map Slot.pair [⟨21, 5, a⟩, ⟨15, 4, n⟩, ⟨12, 3, q⟩]) = w := Option.some.inj h
  have hs : shape [⟨21, 5, a⟩, ⟨15, 4, n⟩, ⟨12, 3, q⟩] = [(21, 5), (15, 4), (12, 3)] := rfl
  refine .inl ?_
  rw [decodeSeq, fld_of hw hs 26 6 46 rfl rfl rfl]
  show decodePort w = _
  rw [decodePort, fld_of hw hs 0 8 20 rfl rfl rfl]
  show decodeScmd w = _
  rw [decodeScmd, fld_of hw hs 8 4 12 rfl rfl rfl]
  show gate _ _ = _
  rw [fld_of hw hs 19 2 0 rfl rfl rfl,
    fbv_of hw hs 0 21 5 a rfl rfl rfl,
    fbv_of hw hs 1 15 4 n rfl rfl rfl,
    fbv_of hw hs 2 12 3 q rfl rfl rfl]
  exact gate_ok rfl wf

theorem scmdOr (a : BitVec 5) (n : BitVec 4) (q : BitVec 3) : Statement (.scmdOr a n q) := by
  intro wf w h
  have hw : place 0xB8000D14 (List.map Slot.pair [⟨21, 5, a⟩, ⟨15, 4, n⟩, ⟨12, 3, q⟩]) = w := Option.some.inj h
  have hs : shape [⟨21, 5, a⟩, ⟨15, 4, n⟩, ⟨12, 3, q⟩] = [(21, 5), (15, 4), (12, 3)] := rfl
  refine .inl ?_
  rw [decodeSeq, fld_of hw hs 26 6 46 rfl rfl rfl]
  show decodePort w = _
  rw [decodePort, fld_of hw hs 0 8 20 rfl rfl rfl]
  show decodeScmd w = _
  rw [decodeScmd, fld_of hw hs 8 4 13 rfl rfl rfl]
  show gate _ _ = _
  rw [fld_of hw hs 19 2 0 rfl rfl rfl,
    fbv_of hw hs 0 21 5 a rfl rfl rfl,
    fbv_of hw hs 1 15 4 n rfl rfl rfl,
    fbv_of hw hs 2 12 3 q rfl rfl rfl]
  exact gate_ok rfl wf

theorem scmdXor (a : BitVec 5) (n : BitVec 4) (q : BitVec 3) : Statement (.scmdXor a n q) := by
  intro wf w h
  have hw : place 0xB8000E14 (List.map Slot.pair [⟨21, 5, a⟩, ⟨15, 4, n⟩, ⟨12, 3, q⟩]) = w := Option.some.inj h
  have hs : shape [⟨21, 5, a⟩, ⟨15, 4, n⟩, ⟨12, 3, q⟩] = [(21, 5), (15, 4), (12, 3)] := rfl
  refine .inl ?_
  rw [decodeSeq, fld_of hw hs 26 6 46 rfl rfl rfl]
  show decodePort w = _
  rw [decodePort, fld_of hw hs 0 8 20 rfl rfl rfl]
  show decodeScmd w = _
  rw [decodeScmd, fld_of hw hs 8 4 14 rfl rfl rfl]
  show gate _ _ = _
  rw [fld_of hw hs 19 2 0 rfl rfl rfl,
    fbv_of hw hs 0 21 5 a rfl rfl rfl,
    fbv_of hw hs 1 15 4 n rfl rfl rfl,
    fbv_of hw hs 2 12 3 q rfl rfl rfl]
  exact gate_ok rfl wf

theorem scmdCopy (a : BitVec 5) (n : BitVec 4) (q : BitVec 3) : Statement (.scmdCopy a n q) := by
  intro wf w h
  have hw : place 0xB8000F14 (List.map Slot.pair [⟨21, 5, a⟩, ⟨15, 4, n⟩, ⟨12, 3, q⟩]) = w := Option.some.inj h
  have hs : shape [⟨21, 5, a⟩, ⟨15, 4, n⟩, ⟨12, 3, q⟩] = [(21, 5), (15, 4), (12, 3)] := rfl
  refine .inl ?_
  rw [decodeSeq, fld_of hw hs 26 6 46 rfl rfl rfl]
  show decodePort w = _
  rw [decodePort, fld_of hw hs 0 8 20 rfl rfl rfl]
  show decodeScmd w = _
  rw [decodeScmd, fld_of hw hs 8 4 15 rfl rfl rfl]
  show gate _ _ = _
  rw [fld_of hw hs 19 2 0 rfl rfl rfl,
    fbv_of hw hs 0 21 5 a rfl rfl rfl,
    fbv_of hw hs 1 15 4 n rfl rfl rfl,
    fbv_of hw hs 2 12 3 q rfl rfl rfl]
  exact gate_ok rfl wf

theorem arm (a : BitVec 5) (sn : BitVec 6) (q : BitVec 3) : Statement (.arm a sn q) := by
  intro wf w h
  have hw : place 0xB8000015 (List.map Slot.pair [⟨21, 5, a⟩, ⟨15, 6, sn⟩, ⟨12, 3, q⟩]) = w := Option.some.inj h
  have hs : shape [⟨21, 5, a⟩, ⟨15, 6, sn⟩, ⟨12, 3, q⟩] = [(21, 5), (15, 6), (12, 3)] := rfl
  refine .inl ?_
  rw [decodeSeq, fld_of hw hs 26 6 46 rfl rfl rfl]
  show decodePort w = _
  rw [decodePort, fld_of hw hs 0 8 21 rfl rfl rfl]
  show gate _ _ = _
  rw [fld_of hw hs 8 4 0 rfl rfl rfl,
    fbv_of hw hs 0 21 5 a rfl rfl rfl,
    fbv_of hw hs 1 15 6 sn rfl rfl rfl,
    fbv_of hw hs 2 12 3 q rfl rfl rfl]
  exact gate_ok rfl wf

theorem launch (a : BitVec 5) (q : BitVec 3) : Statement (.launch a q) := by
  intro wf w h
  have hw : place 0xB8000016 (List.map Slot.pair [⟨21, 5, a⟩, ⟨12, 3, q⟩]) = w := Option.some.inj h
  have hs : shape [⟨21, 5, a⟩, ⟨12, 3, q⟩] = [(21, 5), (12, 3)] := rfl
  refine .inl ?_
  rw [decodeSeq, fld_of hw hs 26 6 46 rfl rfl rfl]
  show decodePort w = _
  rw [decodePort, fld_of hw hs 0 8 22 rfl rfl rfl]
  show gate _ _ = _
  rw [fld_of hw hs 8 4 0 rfl rfl rfl,
    fld_of hw hs 15 6 0 rfl rfl rfl,
    fbv_of hw hs 0 21 5 a rfl rfl rfl,
    fbv_of hw hs 1 12 3 q rfl rfl rfl]
  exact gate_ok rfl wf

theorem recv (d : BitVec 5) (c : BitVec 6) (q : BitVec 3) (n : BitVec 4) : Statement (.recv d c q n) := by
  intro wf w h
  have hw : place 0xB8000017 (List.map Slot.pair [⟨21, 5, d⟩, ⟨15, 6, c⟩, ⟨12, 3, q⟩, ⟨8, 4, n⟩]) = w := Option.some.inj h
  have hs : shape [⟨21, 5, d⟩, ⟨15, 6, c⟩, ⟨12, 3, q⟩, ⟨8, 4, n⟩] = [(21, 5), (15, 6), (12, 3), (8, 4)] := rfl
  refine .inl ?_
  rw [decodeSeq, fld_of hw hs 26 6 46 rfl rfl rfl]
  show decodePort w = _
  rw [decodePort, fld_of hw hs 0 8 23 rfl rfl rfl]
  show gate _ _ = _
  rw [fbv_of hw hs 0 21 5 d rfl rfl rfl,
    fbv_of hw hs 1 15 6 c rfl rfl rfl,
    fbv_of hw hs 2 12 3 q rfl rfl rfl,
    fbv_of hw hs 3 8 4 n rfl rfl rfl]
  exact gate_ok rfl wf

theorem put (a : BitVec 5) (n : BitVec 6) (q : BitVec 3) (c : BitVec 4) : Statement (.put a n q c) := by
  intro wf w h
  have hw : place 0xB8000018 (List.map Slot.pair [⟨21, 5, a⟩, ⟨15, 6, n⟩, ⟨12, 3, q⟩, ⟨8, 4, c⟩]) = w := Option.some.inj h
  have hs : shape [⟨21, 5, a⟩, ⟨15, 6, n⟩, ⟨12, 3, q⟩, ⟨8, 4, c⟩] = [(21, 5), (15, 6), (12, 3), (8, 4)] := rfl
  refine .inl ?_
  rw [decodeSeq, fld_of hw hs 26 6 46 rfl rfl rfl]
  show decodePort w = _
  rw [decodePort, fld_of hw hs 0 8 24 rfl rfl rfl]
  show gate _ _ = _
  rw [fbv_of hw hs 0 21 5 a rfl rfl rfl,
    fbv_of hw hs 1 15 6 n rfl rfl rfl,
    fbv_of hw hs 2 12 3 q rfl rfl rfl,
    fbv_of hw hs 3 8 4 c rfl rfl rfl]
  exact gate_ok rfl wf

theorem send (a : BitVec 5) (c : BitVec 6) (q : BitVec 3) (n : BitVec 4) : Statement (.send a c q n) := by
  intro wf w h
  have hw : place 0xB8000019 (List.map Slot.pair [⟨21, 5, a⟩, ⟨15, 6, c⟩, ⟨12, 3, q⟩, ⟨8, 4, n⟩]) = w := Option.some.inj h
  have hs : shape [⟨21, 5, a⟩, ⟨15, 6, c⟩, ⟨12, 3, q⟩, ⟨8, 4, n⟩] = [(21, 5), (15, 6), (12, 3), (8, 4)] := rfl
  refine .inl ?_
  rw [decodeSeq, fld_of hw hs 26 6 46 rfl rfl rfl]
  show decodePort w = _
  rw [decodePort, fld_of hw hs 0 8 25 rfl rfl rfl]
  show gate _ _ = _
  rw [fbv_of hw hs 0 21 5 a rfl rfl rfl,
    fbv_of hw hs 1 15 6 c rfl rfl rfl,
    fbv_of hw hs 2 12 3 q rfl rfl rfl,
    fbv_of hw hs 3 8 4 n rfl rfl rfl]
  exact gate_ok rfl wf

theorem qbind (a : BitVec 5) (n : BitVec 6) (q : BitVec 3) : Statement (.qbind a n q) := by
  intro wf w h
  have hw : place 0xB8000020 (List.map Slot.pair [⟨21, 5, a⟩, ⟨15, 6, n⟩, ⟨12, 3, q⟩]) = w := Option.some.inj h
  have hs : shape [⟨21, 5, a⟩, ⟨15, 6, n⟩, ⟨12, 3, q⟩] = [(21, 5), (15, 6), (12, 3)] := rfl
  refine .inl ?_
  rw [decodeSeq, fld_of hw hs 26 6 46 rfl rfl rfl]
  show decodePort w = _
  rw [decodePort, fld_of hw hs 0 8 32 rfl rfl rfl]
  show gate _ _ = _
  rw [fld_of hw hs 8 4 0 rfl rfl rfl,
    fbv_of hw hs 0 21 5 a rfl rfl rfl,
    fbv_of hw hs 1 15 6 n rfl rfl rfl,
    fbv_of hw hs 2 12 3 q rfl rfl rfl]
  exact gate_ok rfl wf

theorem qstatInlet (d : BitVec 5) (n : BitVec 6) (q : BitVec 3) : Statement (.qstatInlet d n q) := by
  intro wf w h
  have hw : place 0xB8000021 (List.map Slot.pair [⟨21, 5, d⟩, ⟨15, 6, n⟩, ⟨12, 3, q⟩]) = w := Option.some.inj h
  have hs : shape [⟨21, 5, d⟩, ⟨15, 6, n⟩, ⟨12, 3, q⟩] = [(21, 5), (15, 6), (12, 3)] := rfl
  refine .inl ?_
  rw [decodeSeq, fld_of hw hs 26 6 46 rfl rfl rfl]
  show decodePort w = _
  rw [decodePort, fld_of hw hs 0 8 33 rfl rfl rfl]
  show eitherWay w _ _ _ = _
  rw [eitherWay, fld_of hw hs 8 4 0 rfl rfl rfl]
  show Except.ok _ = _
  rw [fbv_of hw hs 0 21 5 d rfl rfl rfl, fbv_of hw hs 1 15 6 n rfl rfl rfl, fbv_of hw hs 2 12 3 q rfl rfl rfl]

theorem qstatOutlet (d : BitVec 5) (n : BitVec 6) (q : BitVec 3) : Statement (.qstatOutlet d n q) := by
  intro wf w h
  have hw : place 0xB8000121 (List.map Slot.pair [⟨21, 5, d⟩, ⟨15, 6, n⟩, ⟨12, 3, q⟩]) = w := Option.some.inj h
  have hs : shape [⟨21, 5, d⟩, ⟨15, 6, n⟩, ⟨12, 3, q⟩] = [(21, 5), (15, 6), (12, 3)] := rfl
  refine .inl ?_
  rw [decodeSeq, fld_of hw hs 26 6 46 rfl rfl rfl]
  show decodePort w = _
  rw [decodePort, fld_of hw hs 0 8 33 rfl rfl rfl]
  show eitherWay w _ _ _ = _
  rw [eitherWay, fld_of hw hs 8 4 1 rfl rfl rfl]
  show Except.ok _ = _
  rw [fbv_of hw hs 0 21 5 d rfl rfl rfl, fbv_of hw hs 1 15 6 n rfl rfl rfl, fbv_of hw hs 2 12 3 q rfl rfl rfl]

theorem qgapInlet (d : BitVec 5) (n : BitVec 6) (q : BitVec 3) : Statement (.qgapInlet d n q) := by
  intro wf w h
  have hw : place 0xB8000022 (List.map Slot.pair [⟨21, 5, d⟩, ⟨15, 6, n⟩, ⟨12, 3, q⟩]) = w := Option.some.inj h
  have hs : shape [⟨21, 5, d⟩, ⟨15, 6, n⟩, ⟨12, 3, q⟩] = [(21, 5), (15, 6), (12, 3)] := rfl
  refine .inl ?_
  rw [decodeSeq, fld_of hw hs 26 6 46 rfl rfl rfl]
  show decodePort w = _
  rw [decodePort, fld_of hw hs 0 8 34 rfl rfl rfl]
  show eitherWay w _ _ _ = _
  rw [eitherWay, fld_of hw hs 8 4 0 rfl rfl rfl]
  show Except.ok _ = _
  rw [fbv_of hw hs 0 21 5 d rfl rfl rfl, fbv_of hw hs 1 15 6 n rfl rfl rfl, fbv_of hw hs 2 12 3 q rfl rfl rfl]

theorem qgapOutlet (d : BitVec 5) (n : BitVec 6) (q : BitVec 3) : Statement (.qgapOutlet d n q) := by
  intro wf w h
  have hw : place 0xB8000122 (List.map Slot.pair [⟨21, 5, d⟩, ⟨15, 6, n⟩, ⟨12, 3, q⟩]) = w := Option.some.inj h
  have hs : shape [⟨21, 5, d⟩, ⟨15, 6, n⟩, ⟨12, 3, q⟩] = [(21, 5), (15, 6), (12, 3)] := rfl
  refine .inl ?_
  rw [decodeSeq, fld_of hw hs 26 6 46 rfl rfl rfl]
  show decodePort w = _
  rw [decodePort, fld_of hw hs 0 8 34 rfl rfl rfl]
  show eitherWay w _ _ _ = _
  rw [eitherWay, fld_of hw hs 8 4 1 rfl rfl rfl]
  show Except.ok _ = _
  rw [fbv_of hw hs 0 21 5 d rfl rfl rfl, fbv_of hw hs 1 15 6 n rfl rfl rfl, fbv_of hw hs 2 12 3 q rfl rfl rfl]

theorem qdrainInlet (n : BitVec 6) (q : BitVec 3) : Statement (.qdrainInlet n q) := by
  intro wf w h
  have hw : place 0xB8000023 (List.map Slot.pair [⟨15, 6, n⟩, ⟨12, 3, q⟩]) = w := Option.some.inj h
  have hs : shape [⟨15, 6, n⟩, ⟨12, 3, q⟩] = [(15, 6), (12, 3)] := rfl
  refine .inl ?_
  rw [decodeSeq, fld_of hw hs 26 6 46 rfl rfl rfl]
  show decodePort w = _
  rw [decodePort, fld_of hw hs 0 8 35 rfl rfl rfl]
  show eitherWay w _ _ _ = _
  rw [eitherWay, fld_of hw hs 8 4 0 rfl rfl rfl]
  rw [fld_of hw hs 21 5 0 rfl rfl rfl]
  show Except.ok _ = _
  rw [fbv_of hw hs 0 15 6 n rfl rfl rfl, fbv_of hw hs 1 12 3 q rfl rfl rfl]

theorem qdrainOutlet (n : BitVec 6) (q : BitVec 3) : Statement (.qdrainOutlet n q) := by
  intro wf w h
  have hw : place 0xB8000123 (List.map Slot.pair [⟨15, 6, n⟩, ⟨12, 3, q⟩]) = w := Option.some.inj h
  have hs : shape [⟨15, 6, n⟩, ⟨12, 3, q⟩] = [(15, 6), (12, 3)] := rfl
  refine .inl ?_
  rw [decodeSeq, fld_of hw hs 26 6 46 rfl rfl rfl]
  show decodePort w = _
  rw [decodePort, fld_of hw hs 0 8 35 rfl rfl rfl]
  show eitherWay w _ _ _ = _
  rw [eitherWay, fld_of hw hs 8 4 1 rfl rfl rfl]
  rw [fld_of hw hs 21 5 0 rfl rfl rfl]
  show Except.ok _ = _
  rw [fbv_of hw hs 0 15 6 n rfl rfl rfl, fbv_of hw hs 1 12 3 q rfl rfl rfl]

theorem cfgld (a : BitVec 5) (q : BitVec 3) : Statement (.cfgld a q) := by
  intro wf w h
  have hw : place 0xB8000028 (List.map Slot.pair [⟨21, 5, a⟩, ⟨12, 3, q⟩]) = w := Option.some.inj h
  have hs : shape [⟨21, 5, a⟩, ⟨12, 3, q⟩] = [(21, 5), (12, 3)] := rfl
  refine .inl ?_
  rw [decodeSeq, fld_of hw hs 26 6 46 rfl rfl rfl]
  show decodePort w = _
  rw [decodePort, fld_of hw hs 0 8 40 rfl rfl rfl]
  show gate _ _ = _
  rw [fld_of hw hs 8 4 0 rfl rfl rfl,
    fld_of hw hs 15 6 0 rfl rfl rfl,
    fbv_of hw hs 0 21 5 a rfl rfl rfl,
    fbv_of hw hs 1 12 3 q rfl rfl rfl]
  exact gate_ok rfl wf

theorem cfgchk (d : BitVec 5) (q : BitVec 3) : Statement (.cfgchk d q) := by
  intro wf w h
  have hw : place 0xB8000029 (List.map Slot.pair [⟨21, 5, d⟩, ⟨12, 3, q⟩]) = w := Option.some.inj h
  have hs : shape [⟨21, 5, d⟩, ⟨12, 3, q⟩] = [(21, 5), (12, 3)] := rfl
  refine .inl ?_
  rw [decodeSeq, fld_of hw hs 26 6 46 rfl rfl rfl]
  show decodePort w = _
  rw [decodePort, fld_of hw hs 0 8 41 rfl rfl rfl]
  show gate _ _ = _
  rw [fld_of hw hs 8 4 0 rfl rfl rfl,
    fld_of hw hs 15 6 0 rfl rfl rfl,
    fbv_of hw hs 0 21 5 d rfl rfl rfl,
    fbv_of hw hs 1 12 3 q rfl rfl rfl]
  exact gate_ok rfl wf

theorem cfgflip (q : BitVec 3) : Statement (.cfgflip q) := by
  intro wf w h
  have hw : place 0xB800002A (List.map Slot.pair [⟨12, 3, q⟩]) = w := Option.some.inj h
  have hs : shape [⟨12, 3, q⟩] = [(12, 3)] := rfl
  refine .inl ?_
  rw [decodeSeq, fld_of hw hs 26 6 46 rfl rfl rfl]
  show decodePort w = _
  rw [decodePort, fld_of hw hs 0 8 42 rfl rfl rfl]
  show gate _ _ = _
  rw [fld_of hw hs 8 4 0 rfl rfl rfl,
    fld_of hw hs 15 11 0 rfl rfl rfl,
    fbv_of hw hs 0 12 3 q rfl rfl rfl]
  exact gate_ok rfl wf

theorem cfgabort (q : BitVec 3) : Statement (.cfgabort q) := by
  intro wf w h
  have hw : place 0xB800002B (List.map Slot.pair [⟨12, 3, q⟩]) = w := Option.some.inj h
  have hs : shape [⟨12, 3, q⟩] = [(12, 3)] := rfl
  refine .inl ?_
  rw [decodeSeq, fld_of hw hs 26 6 46 rfl rfl rfl]
  show decodePort w = _
  rw [decodePort, fld_of hw hs 0 8 43 rfl rfl rfl]
  show gate _ _ = _
  rw [fld_of hw hs 8 4 0 rfl rfl rfl,
    fld_of hw hs 15 11 0 rfl rfl rfl,
    fbv_of hw hs 0 12 3 q rfl rfl rfl]
  exact gate_ok rfl wf

theorem grun (n : BitVec 6) (q : BitVec 3) : Statement (.grun n q) := by
  intro wf w h
  have hw : place 0xB8000030 (List.map Slot.pair [⟨15, 6, n⟩, ⟨12, 3, q⟩]) = w := Option.some.inj h
  have hs : shape [⟨15, 6, n⟩, ⟨12, 3, q⟩] = [(15, 6), (12, 3)] := rfl
  refine .inl ?_
  rw [decodeSeq, fld_of hw hs 26 6 46 rfl rfl rfl]
  show decodePort w = _
  rw [decodePort, fld_of hw hs 0 8 48 rfl rfl rfl]
  show gate _ _ = _
  rw [fld_of hw hs 8 4 0 rfl rfl rfl,
    fld_of hw hs 21 5 0 rfl rfl rfl,
    fbv_of hw hs 0 15 6 n rfl rfl rfl,
    fbv_of hw hs 1 12 3 q rfl rfl rfl]
  exact gate_ok rfl wf

theorem gwait (n : BitVec 6) (q : BitVec 3) : Statement (.gwait n q) := by
  intro wf w h
  have hw : place 0xB8000031 (List.map Slot.pair [⟨15, 6, n⟩, ⟨12, 3, q⟩]) = w := Option.some.inj h
  have hs : shape [⟨15, 6, n⟩, ⟨12, 3, q⟩] = [(15, 6), (12, 3)] := rfl
  refine .inl ?_
  rw [decodeSeq, fld_of hw hs 26 6 46 rfl rfl rfl]
  show decodePort w = _
  rw [decodePort, fld_of hw hs 0 8 49 rfl rfl rfl]
  show gate _ _ = _
  rw [fld_of hw hs 8 4 0 rfl rfl rfl,
    fld_of hw hs 21 5 0 rfl rfl rfl,
    fbv_of hw hs 0 15 6 n rfl rfl rfl,
    fbv_of hw hs 1 12 3 q rfl rfl rfl]
  exact gate_ok rfl wf

theorem gstat (d : BitVec 5) (n : BitVec 6) (q : BitVec 3) : Statement (.gstat d n q) := by
  intro wf w h
  have hw : place 0xB8000032 (List.map Slot.pair [⟨21, 5, d⟩, ⟨15, 6, n⟩, ⟨12, 3, q⟩]) = w := Option.some.inj h
  have hs : shape [⟨21, 5, d⟩, ⟨15, 6, n⟩, ⟨12, 3, q⟩] = [(21, 5), (15, 6), (12, 3)] := rfl
  refine .inl ?_
  rw [decodeSeq, fld_of hw hs 26 6 46 rfl rfl rfl]
  show decodePort w = _
  rw [decodePort, fld_of hw hs 0 8 50 rfl rfl rfl]
  show gate _ _ = _
  rw [fld_of hw hs 8 4 0 rfl rfl rfl,
    fbv_of hw hs 0 21 5 d rfl rfl rfl,
    fbv_of hw hs 1 15 6 n rfl rfl rfl,
    fbv_of hw hs 2 12 3 q rfl rfl rfl]
  exact gate_ok rfl wf

theorem fence (q : BitVec 3) (c : BitVec 3) : Statement (.fence q c) := by
  intro wf w h
  have hw : place 0xB8000038 (List.map Slot.pair [⟨12, 3, q⟩, ⟨8, 3, c⟩]) = w := Option.some.inj h
  have hs : shape [⟨12, 3, q⟩, ⟨8, 3, c⟩] = [(12, 3), (8, 3)] := rfl
  refine .inl ?_
  rw [decodeSeq, fld_of hw hs 26 6 46 rfl rfl rfl]
  show decodePort w = _
  rw [decodePort, fld_of hw hs 0 8 56 rfl rfl rfl]
  show gate _ _ = _
  rw [fld_of hw hs 11 1 0 rfl rfl rfl,
    fld_of hw hs 15 11 0 rfl rfl rfl,
    fbv_of hw hs 0 12 3 q rfl rfl rfl,
    fbv_of hw hs 1 8 3 c rfl rfl rfl]
  exact gate_ok rfl wf

theorem bari (a : BitVec 5) (q : BitVec 3) (c : BitVec 3) : Statement (.bari a q c) := by
  intro wf w h
  have hw : place 0xB8000039 (List.map Slot.pair [⟨21, 5, a⟩, ⟨12, 3, q⟩, ⟨8, 3, c⟩]) = w := Option.some.inj h
  have hs : shape [⟨21, 5, a⟩, ⟨12, 3, q⟩, ⟨8, 3, c⟩] = [(21, 5), (12, 3), (8, 3)] := rfl
  refine .inl ?_
  rw [decodeSeq, fld_of hw hs 26 6 46 rfl rfl rfl]
  show decodePort w = _
  rw [decodePort, fld_of hw hs 0 8 57 rfl rfl rfl]
  show gate _ _ = _
  rw [fld_of hw hs 11 1 0 rfl rfl rfl,
    fld_of hw hs 15 6 0 rfl rfl rfl,
    fbv_of hw hs 0 21 5 a rfl rfl rfl,
    fbv_of hw hs 1 12 3 q rfl rfl rfl,
    fbv_of hw hs 2 8 3 c rfl rfl rfl]
  exact gate_ok rfl wf

theorem bara (a : BitVec 5) (q : BitVec 3) (c : BitVec 3) : Statement (.bara a q c) := by
  intro wf w h
  have hw : place 0xB800003A (List.map Slot.pair [⟨21, 5, a⟩, ⟨12, 3, q⟩, ⟨8, 3, c⟩]) = w := Option.some.inj h
  have hs : shape [⟨21, 5, a⟩, ⟨12, 3, q⟩, ⟨8, 3, c⟩] = [(21, 5), (12, 3), (8, 3)] := rfl
  refine .inl ?_
  rw [decodeSeq, fld_of hw hs 26 6 46 rfl rfl rfl]
  show decodePort w = _
  rw [decodePort, fld_of hw hs 0 8 58 rfl rfl rfl]
  show gate _ _ = _
  rw [fld_of hw hs 11 1 0 rfl rfl rfl,
    fld_of hw hs 15 6 0 rfl rfl rfl,
    fbv_of hw hs 0 21 5 a rfl rfl rfl,
    fbv_of hw hs 1 12 3 q rfl rfl rfl,
    fbv_of hw hs 2 8 3 c rfl rfl rfl]
  exact gate_ok rfl wf

theorem barw (a : BitVec 5) (q : BitVec 3) (c : BitVec 3) : Statement (.barw a q c) := by
  intro wf w h
  have hw : place 0xB800003B (List.map Slot.pair [⟨21, 5, a⟩, ⟨12, 3, q⟩, ⟨8, 3, c⟩]) = w := Option.some.inj h
  have hs : shape [⟨21, 5, a⟩, ⟨12, 3, q⟩, ⟨8, 3, c⟩] = [(21, 5), (12, 3), (8, 3)] := rfl
  refine .inl ?_
  rw [decodeSeq, fld_of hw hs 26 6 46 rfl rfl rfl]
  show decodePort w = _
  rw [decodePort, fld_of hw hs 0 8 59 rfl rfl rfl]
  show gate _ _ = _
  rw [fld_of hw hs 11 1 0 rfl rfl rfl,
    fld_of hw hs 15 6 0 rfl rfl rfl,
    fbv_of hw hs 0 21 5 a rfl rfl rfl,
    fbv_of hw hs 1 12 3 q rfl rfl rfl,
    fbv_of hw hs 2 8 3 c rfl rfl rfl]
  exact gate_ok rfl wf

theorem bart (a : BitVec 5) (k : BitVec 3) (q : BitVec 3) (c : BitVec 3) : Statement (.bart a k q c) := by
  intro wf w h
  have hw : place 0xB800003C (List.map Slot.pair [⟨21, 5, a⟩, ⟨15, 3, k⟩, ⟨12, 3, q⟩, ⟨8, 3, c⟩]) = w := Option.some.inj h
  have hs : shape [⟨21, 5, a⟩, ⟨15, 3, k⟩, ⟨12, 3, q⟩, ⟨8, 3, c⟩] = [(21, 5), (15, 3), (12, 3), (8, 3)] := rfl
  refine .inl ?_
  rw [decodeSeq, fld_of hw hs 26 6 46 rfl rfl rfl]
  show decodePort w = _
  rw [decodePort, fld_of hw hs 0 8 60 rfl rfl rfl]
  show gate _ _ = _
  rw [fld_of hw hs 11 1 0 rfl rfl rfl,
    fld_of hw hs 18 3 0 rfl rfl rfl,
    fbv_of hw hs 0 21 5 a rfl rfl rfl,
    fbv_of hw hs 1 15 3 k rfl rfl rfl,
    fbv_of hw hs 2 12 3 q rfl rfl rfl,
    fbv_of hw hs 3 8 3 c rfl rfl rfl]
  exact gate_ok rfl wf

theorem statf (a : BitVec 5) (q : BitVec 3) : Statement (.statf a q) := by
  intro wf w h
  have hw : place 0xB8000040 (List.map Slot.pair [⟨21, 5, a⟩, ⟨12, 3, q⟩]) = w := Option.some.inj h
  have hs : shape [⟨21, 5, a⟩, ⟨12, 3, q⟩] = [(21, 5), (12, 3)] := rfl
  refine .inl ?_
  rw [decodeSeq, fld_of hw hs 26 6 46 rfl rfl rfl]
  show decodePort w = _
  rw [decodePort, fld_of hw hs 0 8 64 rfl rfl rfl]
  show gate _ _ = _
  rw [fld_of hw hs 8 4 0 rfl rfl rfl,
    fld_of hw hs 15 6 0 rfl rfl rfl,
    fbv_of hw hs 0 21 5 a rfl rfl rfl,
    fbv_of hw hs 1 12 3 q rfl rfl rfl]
  exact gate_ok rfl wf

theorem retune (a : BitVec 5) (q : BitVec 3) : Statement (.retune a q) := by
  intro wf w h
  have hw : place 0xB8000041 (List.map Slot.pair [⟨21, 5, a⟩, ⟨12, 3, q⟩]) = w := Option.some.inj h
  have hs : shape [⟨21, 5, a⟩, ⟨12, 3, q⟩] = [(21, 5), (12, 3)] := rfl
  refine .inl ?_
  rw [decodeSeq, fld_of hw hs 26 6 46 rfl rfl rfl]
  show decodePort w = _
  rw [decodePort, fld_of hw hs 0 8 65 rfl rfl rfl]
  show gate _ _ = _
  rw [fld_of hw hs 8 4 0 rfl rfl rfl,
    fld_of hw hs 15 6 0 rfl rfl rfl,
    fbv_of hw hs 0 21 5 a rfl rfl rfl,
    fbv_of hw hs 1 12 3 q rfl rfl rfl]
  exact gate_ok rfl wf

theorem arithAdd (a : BitVec 6) (b : BitVec 6) (m : BitVec 2) (r : BitVec 3) (vl : BitVec 1) (p : BitVec 4) : Statement (.arithAdd a b m r vl p) := by
  intro wf w h
  have hw : place 0x00000000 (List.map Slot.pair [⟨16, 6, a⟩, ⟨10, 6, b⟩, ⟨8, 2, m⟩, ⟨5, 3, r⟩, ⟨4, 1, vl⟩, ⟨0, 4, p⟩]) = w := Option.some.inj h
  have hs : shape [⟨16, 6, a⟩, ⟨10, 6, b⟩, ⟨8, 2, m⟩, ⟨5, 3, r⟩, ⟨4, 1, vl⟩, ⟨0, 4, p⟩] = [(16, 6), (10, 6), (8, 2), (5, 3), (4, 1), (0, 4)] := rfl
  refine .inr (.inr (.inl ?_))
  have e : decodeArith w = some (.arithAdd a b m r vl p) := by
    rw [decodeArith, fld_of hw hs 22 6 0 rfl rfl rfl]
    show some _ = _
    rw [fbv_of hw hs 0 16 6 a rfl rfl rfl, fbv_of hw hs 1 10 6 b rfl rfl rfl, fbv_of hw hs 2 8 2 m rfl rfl rfl, fbv_of hw hs 3 5 3 r rfl rfl rfl, fbv_of hw hs 4 4 1 vl rfl rfl rfl, fbv_of hw hs 5 0 4 p rfl rfl rfl]
  rw [decodeNode, fld_of hw hs 28 4 0 rfl rfl rfl]
  show (match decodeArith w with | some i => Except.ok i | none => _) = _
  rw [e]

theorem arithSub (a : BitVec 6) (b : BitVec 6) (m : BitVec 2) (r : BitVec 3) (vl : BitVec 1) (p : BitVec 4) : Statement (.arithSub a b m r vl p) := by
  intro wf w h
  have hw : place 0x00400000 (List.map Slot.pair [⟨16, 6, a⟩, ⟨10, 6, b⟩, ⟨8, 2, m⟩, ⟨5, 3, r⟩, ⟨4, 1, vl⟩, ⟨0, 4, p⟩]) = w := Option.some.inj h
  have hs : shape [⟨16, 6, a⟩, ⟨10, 6, b⟩, ⟨8, 2, m⟩, ⟨5, 3, r⟩, ⟨4, 1, vl⟩, ⟨0, 4, p⟩] = [(16, 6), (10, 6), (8, 2), (5, 3), (4, 1), (0, 4)] := rfl
  refine .inr (.inr (.inl ?_))
  have e : decodeArith w = some (.arithSub a b m r vl p) := by
    rw [decodeArith, fld_of hw hs 22 6 1 rfl rfl rfl]
    show some _ = _
    rw [fbv_of hw hs 0 16 6 a rfl rfl rfl, fbv_of hw hs 1 10 6 b rfl rfl rfl, fbv_of hw hs 2 8 2 m rfl rfl rfl, fbv_of hw hs 3 5 3 r rfl rfl rfl, fbv_of hw hs 4 4 1 vl rfl rfl rfl, fbv_of hw hs 5 0 4 p rfl rfl rfl]
  rw [decodeNode, fld_of hw hs 28 4 0 rfl rfl rfl]
  show (match decodeArith w with | some i => Except.ok i | none => _) = _
  rw [e]

theorem arithMul (a : BitVec 6) (b : BitVec 6) (m : BitVec 2) (r : BitVec 3) (vl : BitVec 1) (p : BitVec 4) : Statement (.arithMul a b m r vl p) := by
  intro wf w h
  have hw : place 0x00800000 (List.map Slot.pair [⟨16, 6, a⟩, ⟨10, 6, b⟩, ⟨8, 2, m⟩, ⟨5, 3, r⟩, ⟨4, 1, vl⟩, ⟨0, 4, p⟩]) = w := Option.some.inj h
  have hs : shape [⟨16, 6, a⟩, ⟨10, 6, b⟩, ⟨8, 2, m⟩, ⟨5, 3, r⟩, ⟨4, 1, vl⟩, ⟨0, 4, p⟩] = [(16, 6), (10, 6), (8, 2), (5, 3), (4, 1), (0, 4)] := rfl
  refine .inr (.inr (.inl ?_))
  have e : decodeArith w = some (.arithMul a b m r vl p) := by
    rw [decodeArith, fld_of hw hs 22 6 2 rfl rfl rfl]
    show some _ = _
    rw [fbv_of hw hs 0 16 6 a rfl rfl rfl, fbv_of hw hs 1 10 6 b rfl rfl rfl, fbv_of hw hs 2 8 2 m rfl rfl rfl, fbv_of hw hs 3 5 3 r rfl rfl rfl, fbv_of hw hs 4 4 1 vl rfl rfl rfl, fbv_of hw hs 5 0 4 p rfl rfl rfl]
  rw [decodeNode, fld_of hw hs 28 4 0 rfl rfl rfl]
  show (match decodeArith w with | some i => Except.ok i | none => _) = _
  rw [e]

theorem arithFma (a : BitVec 6) (b : BitVec 6) (m : BitVec 2) (r : BitVec 3) (vl : BitVec 1) (p : BitVec 4) : Statement (.arithFma a b m r vl p) := by
  intro wf w h
  have hw : place 0x00C00000 (List.map Slot.pair [⟨16, 6, a⟩, ⟨10, 6, b⟩, ⟨8, 2, m⟩, ⟨5, 3, r⟩, ⟨4, 1, vl⟩, ⟨0, 4, p⟩]) = w := Option.some.inj h
  have hs : shape [⟨16, 6, a⟩, ⟨10, 6, b⟩, ⟨8, 2, m⟩, ⟨5, 3, r⟩, ⟨4, 1, vl⟩, ⟨0, 4, p⟩] = [(16, 6), (10, 6), (8, 2), (5, 3), (4, 1), (0, 4)] := rfl
  refine .inr (.inr (.inl ?_))
  have e : decodeArith w = some (.arithFma a b m r vl p) := by
    rw [decodeArith, fld_of hw hs 22 6 3 rfl rfl rfl]
    show some _ = _
    rw [fbv_of hw hs 0 16 6 a rfl rfl rfl, fbv_of hw hs 1 10 6 b rfl rfl rfl, fbv_of hw hs 2 8 2 m rfl rfl rfl, fbv_of hw hs 3 5 3 r rfl rfl rfl, fbv_of hw hs 4 4 1 vl rfl rfl rfl, fbv_of hw hs 5 0 4 p rfl rfl rfl]
  rw [decodeNode, fld_of hw hs 28 4 0 rfl rfl rfl]
  show (match decodeArith w with | some i => Except.ok i | none => _) = _
  rw [e]

theorem arithMin (a : BitVec 6) (b : BitVec 6) (m : BitVec 2) (o : BitVec 8) : Statement (.arithMin a b m o) := by
  intro wf w h
  have hw : place 0x01000000 (List.map Slot.pair [⟨16, 6, a⟩, ⟨10, 6, b⟩, ⟨8, 2, m⟩, ⟨0, 8, o⟩]) = w := Option.some.inj h
  have hs : shape [⟨16, 6, a⟩, ⟨10, 6, b⟩, ⟨8, 2, m⟩, ⟨0, 8, o⟩] = [(16, 6), (10, 6), (8, 2), (0, 8)] := rfl
  refine .inr (.inr (.inl ?_))
  have e : decodeArith w = some (.arithMin a b m o) := by
    rw [decodeArith, fld_of hw hs 22 6 4 rfl rfl rfl]
    show some _ = _
    rw [fbv_of hw hs 0 16 6 a rfl rfl rfl, fbv_of hw hs 1 10 6 b rfl rfl rfl, fbv_of hw hs 2 8 2 m rfl rfl rfl, fbv_of hw hs 3 0 8 o rfl rfl rfl]
  rw [decodeNode, fld_of hw hs 28 4 0 rfl rfl rfl]
  show (match decodeArith w with | some i => Except.ok i | none => _) = _
  rw [e]

theorem arithMax (a : BitVec 6) (b : BitVec 6) (m : BitVec 2) (o : BitVec 8) : Statement (.arithMax a b m o) := by
  intro wf w h
  have hw : place 0x01400000 (List.map Slot.pair [⟨16, 6, a⟩, ⟨10, 6, b⟩, ⟨8, 2, m⟩, ⟨0, 8, o⟩]) = w := Option.some.inj h
  have hs : shape [⟨16, 6, a⟩, ⟨10, 6, b⟩, ⟨8, 2, m⟩, ⟨0, 8, o⟩] = [(16, 6), (10, 6), (8, 2), (0, 8)] := rfl
  refine .inr (.inr (.inl ?_))
  have e : decodeArith w = some (.arithMax a b m o) := by
    rw [decodeArith, fld_of hw hs 22 6 5 rfl rfl rfl]
    show some _ = _
    rw [fbv_of hw hs 0 16 6 a rfl rfl rfl, fbv_of hw hs 1 10 6 b rfl rfl rfl, fbv_of hw hs 2 8 2 m rfl rfl rfl, fbv_of hw hs 3 0 8 o rfl rfl rfl]
  rw [decodeNode, fld_of hw hs 28 4 0 rfl rfl rfl]
  show (match decodeArith w with | some i => Except.ok i | none => _) = _
  rw [e]

theorem arithAbs (a : BitVec 6) (b : BitVec 6) (m : BitVec 2) (o : BitVec 8) : Statement (.arithAbs a b m o) := by
  intro wf w h
  have hw : place 0x01800000 (List.map Slot.pair [⟨16, 6, a⟩, ⟨10, 6, b⟩, ⟨8, 2, m⟩, ⟨0, 8, o⟩]) = w := Option.some.inj h
  have hs : shape [⟨16, 6, a⟩, ⟨10, 6, b⟩, ⟨8, 2, m⟩, ⟨0, 8, o⟩] = [(16, 6), (10, 6), (8, 2), (0, 8)] := rfl
  refine .inr (.inr (.inl ?_))
  have e : decodeArith w = some (.arithAbs a b m o) := by
    rw [decodeArith, fld_of hw hs 22 6 6 rfl rfl rfl]
    show some _ = _
    rw [fbv_of hw hs 0 16 6 a rfl rfl rfl, fbv_of hw hs 1 10 6 b rfl rfl rfl, fbv_of hw hs 2 8 2 m rfl rfl rfl, fbv_of hw hs 3 0 8 o rfl rfl rfl]
  rw [decodeNode, fld_of hw hs 28 4 0 rfl rfl rfl]
  show (match decodeArith w with | some i => Except.ok i | none => _) = _
  rw [e]

theorem arithNeg (a : BitVec 6) (b : BitVec 6) (m : BitVec 2) (o : BitVec 8) : Statement (.arithNeg a b m o) := by
  intro wf w h
  have hw : place 0x01C00000 (List.map Slot.pair [⟨16, 6, a⟩, ⟨10, 6, b⟩, ⟨8, 2, m⟩, ⟨0, 8, o⟩]) = w := Option.some.inj h
  have hs : shape [⟨16, 6, a⟩, ⟨10, 6, b⟩, ⟨8, 2, m⟩, ⟨0, 8, o⟩] = [(16, 6), (10, 6), (8, 2), (0, 8)] := rfl
  refine .inr (.inr (.inl ?_))
  have e : decodeArith w = some (.arithNeg a b m o) := by
    rw [decodeArith, fld_of hw hs 22 6 7 rfl rfl rfl]
    show some _ = _
    rw [fbv_of hw hs 0 16 6 a rfl rfl rfl, fbv_of hw hs 1 10 6 b rfl rfl rfl, fbv_of hw hs 2 8 2 m rfl rfl rfl, fbv_of hw hs 3 0 8 o rfl rfl rfl]
  rw [decodeNode, fld_of hw hs 28 4 0 rfl rfl rfl]
  show (match decodeArith w with | some i => Except.ok i | none => _) = _
  rw [e]

theorem arithAnd (a : BitVec 6) (b : BitVec 6) (m : BitVec 2) (o : BitVec 8) : Statement (.arithAnd a b m o) := by
  intro wf w h
  have hw : place 0x02000000 (List.map Slot.pair [⟨16, 6, a⟩, ⟨10, 6, b⟩, ⟨8, 2, m⟩, ⟨0, 8, o⟩]) = w := Option.some.inj h
  have hs : shape [⟨16, 6, a⟩, ⟨10, 6, b⟩, ⟨8, 2, m⟩, ⟨0, 8, o⟩] = [(16, 6), (10, 6), (8, 2), (0, 8)] := rfl
  refine .inr (.inr (.inl ?_))
  have e : decodeArith w = some (.arithAnd a b m o) := by
    rw [decodeArith, fld_of hw hs 22 6 8 rfl rfl rfl]
    show some _ = _
    rw [fbv_of hw hs 0 16 6 a rfl rfl rfl, fbv_of hw hs 1 10 6 b rfl rfl rfl, fbv_of hw hs 2 8 2 m rfl rfl rfl, fbv_of hw hs 3 0 8 o rfl rfl rfl]
  rw [decodeNode, fld_of hw hs 28 4 0 rfl rfl rfl]
  show (match decodeArith w with | some i => Except.ok i | none => _) = _
  rw [e]

theorem arithOr (a : BitVec 6) (b : BitVec 6) (m : BitVec 2) (o : BitVec 8) : Statement (.arithOr a b m o) := by
  intro wf w h
  have hw : place 0x02400000 (List.map Slot.pair [⟨16, 6, a⟩, ⟨10, 6, b⟩, ⟨8, 2, m⟩, ⟨0, 8, o⟩]) = w := Option.some.inj h
  have hs : shape [⟨16, 6, a⟩, ⟨10, 6, b⟩, ⟨8, 2, m⟩, ⟨0, 8, o⟩] = [(16, 6), (10, 6), (8, 2), (0, 8)] := rfl
  refine .inr (.inr (.inl ?_))
  have e : decodeArith w = some (.arithOr a b m o) := by
    rw [decodeArith, fld_of hw hs 22 6 9 rfl rfl rfl]
    show some _ = _
    rw [fbv_of hw hs 0 16 6 a rfl rfl rfl, fbv_of hw hs 1 10 6 b rfl rfl rfl, fbv_of hw hs 2 8 2 m rfl rfl rfl, fbv_of hw hs 3 0 8 o rfl rfl rfl]
  rw [decodeNode, fld_of hw hs 28 4 0 rfl rfl rfl]
  show (match decodeArith w with | some i => Except.ok i | none => _) = _
  rw [e]

theorem arithXor (a : BitVec 6) (b : BitVec 6) (m : BitVec 2) (o : BitVec 8) : Statement (.arithXor a b m o) := by
  intro wf w h
  have hw : place 0x02800000 (List.map Slot.pair [⟨16, 6, a⟩, ⟨10, 6, b⟩, ⟨8, 2, m⟩, ⟨0, 8, o⟩]) = w := Option.some.inj h
  have hs : shape [⟨16, 6, a⟩, ⟨10, 6, b⟩, ⟨8, 2, m⟩, ⟨0, 8, o⟩] = [(16, 6), (10, 6), (8, 2), (0, 8)] := rfl
  refine .inr (.inr (.inl ?_))
  have e : decodeArith w = some (.arithXor a b m o) := by
    rw [decodeArith, fld_of hw hs 22 6 10 rfl rfl rfl]
    show some _ = _
    rw [fbv_of hw hs 0 16 6 a rfl rfl rfl, fbv_of hw hs 1 10 6 b rfl rfl rfl, fbv_of hw hs 2 8 2 m rfl rfl rfl, fbv_of hw hs 3 0 8 o rfl rfl rfl]
  rw [decodeNode, fld_of hw hs 28 4 0 rfl rfl rfl]
  show (match decodeArith w with | some i => Except.ok i | none => _) = _
  rw [e]

theorem arithShl (a : BitVec 6) (b : BitVec 6) (m : BitVec 2) (o : BitVec 8) : Statement (.arithShl a b m o) := by
  intro wf w h
  have hw : place 0x02C00000 (List.map Slot.pair [⟨16, 6, a⟩, ⟨10, 6, b⟩, ⟨8, 2, m⟩, ⟨0, 8, o⟩]) = w := Option.some.inj h
  have hs : shape [⟨16, 6, a⟩, ⟨10, 6, b⟩, ⟨8, 2, m⟩, ⟨0, 8, o⟩] = [(16, 6), (10, 6), (8, 2), (0, 8)] := rfl
  refine .inr (.inr (.inl ?_))
  have e : decodeArith w = some (.arithShl a b m o) := by
    rw [decodeArith, fld_of hw hs 22 6 11 rfl rfl rfl]
    show some _ = _
    rw [fbv_of hw hs 0 16 6 a rfl rfl rfl, fbv_of hw hs 1 10 6 b rfl rfl rfl, fbv_of hw hs 2 8 2 m rfl rfl rfl, fbv_of hw hs 3 0 8 o rfl rfl rfl]
  rw [decodeNode, fld_of hw hs 28 4 0 rfl rfl rfl]
  show (match decodeArith w with | some i => Except.ok i | none => _) = _
  rw [e]

theorem arithShrLogical (a : BitVec 6) (b : BitVec 6) (m : BitVec 2) (o : BitVec 7) : Statement (.arithShrLogical a b m o) := by
  intro wf w h
  have hw : place 0x03000000 (List.map Slot.pair [⟨16, 6, a⟩, ⟨10, 6, b⟩, ⟨8, 2, m⟩, ⟨1, 7, o⟩]) = w := Option.some.inj h
  have hs : shape [⟨16, 6, a⟩, ⟨10, 6, b⟩, ⟨8, 2, m⟩, ⟨1, 7, o⟩] = [(16, 6), (10, 6), (8, 2), (1, 7)] := rfl
  refine .inr (.inr (.inl ?_))
  have e : decodeArith w = some (.arithShrLogical a b m o) := by
    rw [decodeArith, fld_of hw hs 22 6 12 rfl rfl rfl]
    show (if fld w 0 1 = 0 then _ else _) = _
    rw [fld_of hw hs 0 1 0 rfl rfl rfl]
    show some _ = _
    rw [fbv_of hw hs 0 16 6 a rfl rfl rfl, fbv_of hw hs 1 10 6 b rfl rfl rfl, fbv_of hw hs 2 8 2 m rfl rfl rfl, fbv_of hw hs 3 1 7 o rfl rfl rfl]
  rw [decodeNode, fld_of hw hs 28 4 0 rfl rfl rfl]
  show (match decodeArith w with | some i => Except.ok i | none => _) = _
  rw [e]

theorem arithShrArithmetic (a : BitVec 6) (b : BitVec 6) (m : BitVec 2) (o : BitVec 7) : Statement (.arithShrArithmetic a b m o) := by
  intro wf w h
  have hw : place 0x03000001 (List.map Slot.pair [⟨16, 6, a⟩, ⟨10, 6, b⟩, ⟨8, 2, m⟩, ⟨1, 7, o⟩]) = w := Option.some.inj h
  have hs : shape [⟨16, 6, a⟩, ⟨10, 6, b⟩, ⟨8, 2, m⟩, ⟨1, 7, o⟩] = [(16, 6), (10, 6), (8, 2), (1, 7)] := rfl
  refine .inr (.inr (.inl ?_))
  have e : decodeArith w = some (.arithShrArithmetic a b m o) := by
    rw [decodeArith, fld_of hw hs 22 6 12 rfl rfl rfl]
    show (if fld w 0 1 = 0 then _ else _) = _
    rw [fld_of hw hs 0 1 1 rfl rfl rfl]
    show some _ = _
    rw [fbv_of hw hs 0 16 6 a rfl rfl rfl, fbv_of hw hs 1 10 6 b rfl rfl rfl, fbv_of hw hs 2 8 2 m rfl rfl rfl, fbv_of hw hs 3 1 7 o rfl rfl rfl]
  rw [decodeNode, fld_of hw hs 28 4 0 rfl rfl rfl]
  show (match decodeArith w with | some i => Except.ok i | none => _) = _
  rw [e]

theorem arithCmpEq (a : BitVec 6) (b : BitVec 6) (m : BitVec 2) (o : BitVec 5) : Statement (.arithCmpEq a b m o) := by
  intro wf w h
  have hw : place 0x03400000 (List.map Slot.pair [⟨16, 6, a⟩, ⟨10, 6, b⟩, ⟨8, 2, m⟩, ⟨3, 5, o⟩]) = w := Option.some.inj h
  have hs : shape [⟨16, 6, a⟩, ⟨10, 6, b⟩, ⟨8, 2, m⟩, ⟨3, 5, o⟩] = [(16, 6), (10, 6), (8, 2), (3, 5)] := rfl
  refine .inr (.inr (.inl ?_))
  have e : decodeArith w = some (.arithCmpEq a b m o) := by
    rw [decodeArith, fld_of hw hs 22 6 13 rfl rfl rfl]
    show (match fld w 0 3 with | 0 => _ | 1 => _ | 2 => _ | 3 => _ | 4 => _ | _ => _) = _
    rw [fld_of hw hs 0 3 0 rfl rfl rfl]
    show some _ = _
    rw [fbv_of hw hs 0 16 6 a rfl rfl rfl, fbv_of hw hs 1 10 6 b rfl rfl rfl, fbv_of hw hs 2 8 2 m rfl rfl rfl, fbv_of hw hs 3 3 5 o rfl rfl rfl]
  rw [decodeNode, fld_of hw hs 28 4 0 rfl rfl rfl]
  show (match decodeArith w with | some i => Except.ok i | none => _) = _
  rw [e]

theorem arithCmpNe (a : BitVec 6) (b : BitVec 6) (m : BitVec 2) (o : BitVec 5) : Statement (.arithCmpNe a b m o) := by
  intro wf w h
  have hw : place 0x03400001 (List.map Slot.pair [⟨16, 6, a⟩, ⟨10, 6, b⟩, ⟨8, 2, m⟩, ⟨3, 5, o⟩]) = w := Option.some.inj h
  have hs : shape [⟨16, 6, a⟩, ⟨10, 6, b⟩, ⟨8, 2, m⟩, ⟨3, 5, o⟩] = [(16, 6), (10, 6), (8, 2), (3, 5)] := rfl
  refine .inr (.inr (.inl ?_))
  have e : decodeArith w = some (.arithCmpNe a b m o) := by
    rw [decodeArith, fld_of hw hs 22 6 13 rfl rfl rfl]
    show (match fld w 0 3 with | 0 => _ | 1 => _ | 2 => _ | 3 => _ | 4 => _ | _ => _) = _
    rw [fld_of hw hs 0 3 1 rfl rfl rfl]
    show some _ = _
    rw [fbv_of hw hs 0 16 6 a rfl rfl rfl, fbv_of hw hs 1 10 6 b rfl rfl rfl, fbv_of hw hs 2 8 2 m rfl rfl rfl, fbv_of hw hs 3 3 5 o rfl rfl rfl]
  rw [decodeNode, fld_of hw hs 28 4 0 rfl rfl rfl]
  show (match decodeArith w with | some i => Except.ok i | none => _) = _
  rw [e]

theorem arithCmpLt (a : BitVec 6) (b : BitVec 6) (m : BitVec 2) (o : BitVec 5) : Statement (.arithCmpLt a b m o) := by
  intro wf w h
  have hw : place 0x03400002 (List.map Slot.pair [⟨16, 6, a⟩, ⟨10, 6, b⟩, ⟨8, 2, m⟩, ⟨3, 5, o⟩]) = w := Option.some.inj h
  have hs : shape [⟨16, 6, a⟩, ⟨10, 6, b⟩, ⟨8, 2, m⟩, ⟨3, 5, o⟩] = [(16, 6), (10, 6), (8, 2), (3, 5)] := rfl
  refine .inr (.inr (.inl ?_))
  have e : decodeArith w = some (.arithCmpLt a b m o) := by
    rw [decodeArith, fld_of hw hs 22 6 13 rfl rfl rfl]
    show (match fld w 0 3 with | 0 => _ | 1 => _ | 2 => _ | 3 => _ | 4 => _ | _ => _) = _
    rw [fld_of hw hs 0 3 2 rfl rfl rfl]
    show some _ = _
    rw [fbv_of hw hs 0 16 6 a rfl rfl rfl, fbv_of hw hs 1 10 6 b rfl rfl rfl, fbv_of hw hs 2 8 2 m rfl rfl rfl, fbv_of hw hs 3 3 5 o rfl rfl rfl]
  rw [decodeNode, fld_of hw hs 28 4 0 rfl rfl rfl]
  show (match decodeArith w with | some i => Except.ok i | none => _) = _
  rw [e]

theorem arithCmpGe (a : BitVec 6) (b : BitVec 6) (m : BitVec 2) (o : BitVec 5) : Statement (.arithCmpGe a b m o) := by
  intro wf w h
  have hw : place 0x03400003 (List.map Slot.pair [⟨16, 6, a⟩, ⟨10, 6, b⟩, ⟨8, 2, m⟩, ⟨3, 5, o⟩]) = w := Option.some.inj h
  have hs : shape [⟨16, 6, a⟩, ⟨10, 6, b⟩, ⟨8, 2, m⟩, ⟨3, 5, o⟩] = [(16, 6), (10, 6), (8, 2), (3, 5)] := rfl
  refine .inr (.inr (.inl ?_))
  have e : decodeArith w = some (.arithCmpGe a b m o) := by
    rw [decodeArith, fld_of hw hs 22 6 13 rfl rfl rfl]
    show (match fld w 0 3 with | 0 => _ | 1 => _ | 2 => _ | 3 => _ | 4 => _ | _ => _) = _
    rw [fld_of hw hs 0 3 3 rfl rfl rfl]
    show some _ = _
    rw [fbv_of hw hs 0 16 6 a rfl rfl rfl, fbv_of hw hs 1 10 6 b rfl rfl rfl, fbv_of hw hs 2 8 2 m rfl rfl rfl, fbv_of hw hs 3 3 5 o rfl rfl rfl]
  rw [decodeNode, fld_of hw hs 28 4 0 rfl rfl rfl]
  show (match decodeArith w with | some i => Except.ok i | none => _) = _
  rw [e]

theorem arithCmpLtu (a : BitVec 6) (b : BitVec 6) (m : BitVec 2) (o : BitVec 5) : Statement (.arithCmpLtu a b m o) := by
  intro wf w h
  have hw : place 0x03400004 (List.map Slot.pair [⟨16, 6, a⟩, ⟨10, 6, b⟩, ⟨8, 2, m⟩, ⟨3, 5, o⟩]) = w := Option.some.inj h
  have hs : shape [⟨16, 6, a⟩, ⟨10, 6, b⟩, ⟨8, 2, m⟩, ⟨3, 5, o⟩] = [(16, 6), (10, 6), (8, 2), (3, 5)] := rfl
  refine .inr (.inr (.inl ?_))
  have e : decodeArith w = some (.arithCmpLtu a b m o) := by
    rw [decodeArith, fld_of hw hs 22 6 13 rfl rfl rfl]
    show (match fld w 0 3 with | 0 => _ | 1 => _ | 2 => _ | 3 => _ | 4 => _ | _ => _) = _
    rw [fld_of hw hs 0 3 4 rfl rfl rfl]
    show some _ = _
    rw [fbv_of hw hs 0 16 6 a rfl rfl rfl, fbv_of hw hs 1 10 6 b rfl rfl rfl, fbv_of hw hs 2 8 2 m rfl rfl rfl, fbv_of hw hs 3 3 5 o rfl rfl rfl]
  rw [decodeNode, fld_of hw hs 28 4 0 rfl rfl rfl]
  show (match decodeArith w with | some i => Except.ok i | none => _) = _
  rw [e]

theorem arithCmpGeu (a : BitVec 6) (b : BitVec 6) (m : BitVec 2) (o : BitVec 5) : Statement (.arithCmpGeu a b m o) := by
  intro wf w h
  have hw : place 0x03400005 (List.map Slot.pair [⟨16, 6, a⟩, ⟨10, 6, b⟩, ⟨8, 2, m⟩, ⟨3, 5, o⟩]) = w := Option.some.inj h
  have hs : shape [⟨16, 6, a⟩, ⟨10, 6, b⟩, ⟨8, 2, m⟩, ⟨3, 5, o⟩] = [(16, 6), (10, 6), (8, 2), (3, 5)] := rfl
  refine .inr (.inr (.inl ?_))
  have e : decodeArith w = some (.arithCmpGeu a b m o) := by
    rw [decodeArith, fld_of hw hs 22 6 13 rfl rfl rfl]
    show (match fld w 0 3 with | 0 => _ | 1 => _ | 2 => _ | 3 => _ | 4 => _ | _ => _) = _
    rw [fld_of hw hs 0 3 5 rfl rfl rfl]
    show some _ = _
    rw [fbv_of hw hs 0 16 6 a rfl rfl rfl, fbv_of hw hs 1 10 6 b rfl rfl rfl, fbv_of hw hs 2 8 2 m rfl rfl rfl, fbv_of hw hs 3 3 5 o rfl rfl rfl]
  rw [decodeNode, fld_of hw hs 28 4 0 rfl rfl rfl]
  show (match decodeArith w with | some i => Except.ok i | none => _) = _
  rw [e]

theorem arithSel (a : BitVec 6) (b : BitVec 6) (m : BitVec 2) (o : BitVec 8) : Statement (.arithSel a b m o) := by
  intro wf w h
  have hw : place 0x03800000 (List.map Slot.pair [⟨16, 6, a⟩, ⟨10, 6, b⟩, ⟨8, 2, m⟩, ⟨0, 8, o⟩]) = w := Option.some.inj h
  have hs : shape [⟨16, 6, a⟩, ⟨10, 6, b⟩, ⟨8, 2, m⟩, ⟨0, 8, o⟩] = [(16, 6), (10, 6), (8, 2), (0, 8)] := rfl
  refine .inr (.inr (.inl ?_))
  have e : decodeArith w = some (.arithSel a b m o) := by
    rw [decodeArith, fld_of hw hs 22 6 14 rfl rfl rfl]
    show some _ = _
    rw [fbv_of hw hs 0 16 6 a rfl rfl rfl, fbv_of hw hs 1 10 6 b rfl rfl rfl, fbv_of hw hs 2 8 2 m rfl rfl rfl, fbv_of hw hs 3 0 8 o rfl rfl rfl]
  rw [decodeNode, fld_of hw hs 28 4 0 rfl rfl rfl]
  show (match decodeArith w with | some i => Except.ok i | none => _) = _
  rw [e]

theorem arithSat (a : BitVec 6) (b : BitVec 6) (m : BitVec 2) (o : BitVec 8) : Statement (.arithSat a b m o) := by
  intro wf w h
  have hw : place 0x03C00000 (List.map Slot.pair [⟨16, 6, a⟩, ⟨10, 6, b⟩, ⟨8, 2, m⟩, ⟨0, 8, o⟩]) = w := Option.some.inj h
  have hs : shape [⟨16, 6, a⟩, ⟨10, 6, b⟩, ⟨8, 2, m⟩, ⟨0, 8, o⟩] = [(16, 6), (10, 6), (8, 2), (0, 8)] := rfl
  refine .inr (.inr (.inl ?_))
  have e : decodeArith w = some (.arithSat a b m o) := by
    rw [decodeArith, fld_of hw hs 22 6 15 rfl rfl rfl]
    show some _ = _
    rw [fbv_of hw hs 0 16 6 a rfl rfl rfl, fbv_of hw hs 1 10 6 b rfl rfl rfl, fbv_of hw hs 2 8 2 m rfl rfl rfl, fbv_of hw hs 3 0 8 o rfl rfl rfl]
  rw [decodeNode, fld_of hw hs 28 4 0 rfl rfl rfl]
  show (match decodeArith w with | some i => Except.ok i | none => _) = _
  rw [e]

theorem copy (a : BitVec 6) (b : BitVec 6) (m : BitVec 2) (o : BitVec 8) : Statement (.copy a b m o) := by
  intro wf w h
  have hw : place 0x10000000 (List.map Slot.pair [⟨16, 6, a⟩, ⟨10, 6, b⟩, ⟨8, 2, m⟩, ⟨0, 8, o⟩]) = w := Option.some.inj h
  have hs : shape [⟨16, 6, a⟩, ⟨10, 6, b⟩, ⟨8, 2, m⟩, ⟨0, 8, o⟩] = [(16, 6), (10, 6), (8, 2), (0, 8)] := rfl
  refine .inr (.inr (.inl ?_))
  have e : decodeCopy w = some (.copy a b m o) := by
    rw [decodeCopy, fld_of hw hs 22 6 0 rfl rfl rfl]
    show some _ = _
    rw [fbv_of hw hs 0 16 6 a rfl rfl rfl, fbv_of hw hs 1 10 6 b rfl rfl rfl, fbv_of hw hs 2 8 2 m rfl rfl rfl, fbv_of hw hs 3 0 8 o rfl rfl rfl]
  rw [decodeNode, fld_of hw hs 28 4 1 rfl rfl rfl]
  show (match decodeCopy w with | some i => Except.ok i | none => _) = _
  rw [e]

theorem gate (a : BitVec 6) (b : BitVec 6) (m : BitVec 2) (o : BitVec 8) : Statement (.gate a b m o) := by
  intro wf w h
  have hw : place 0x10400000 (List.map Slot.pair [⟨16, 6, a⟩, ⟨10, 6, b⟩, ⟨8, 2, m⟩, ⟨0, 8, o⟩]) = w := Option.some.inj h
  have hs : shape [⟨16, 6, a⟩, ⟨10, 6, b⟩, ⟨8, 2, m⟩, ⟨0, 8, o⟩] = [(16, 6), (10, 6), (8, 2), (0, 8)] := rfl
  refine .inr (.inr (.inl ?_))
  have e : decodeCopy w = some (.gate a b m o) := by
    rw [decodeCopy, fld_of hw hs 22 6 1 rfl rfl rfl]
    show some _ = _
    rw [fbv_of hw hs 0 16 6 a rfl rfl rfl, fbv_of hw hs 1 10 6 b rfl rfl rfl, fbv_of hw hs 2 8 2 m rfl rfl rfl, fbv_of hw hs 3 0 8 o rfl rfl rfl]
  rw [decodeNode, fld_of hw hs 28 4 1 rfl rfl rfl]
  show (match decodeCopy w with | some i => Except.ok i | none => _) = _
  rw [e]

theorem jcmp (a : BitVec 6) (b : BitVec 6) (m : BitVec 2) (o : BitVec 8) : Statement (.jcmp a b m o) := by
  intro wf w h
  have hw : place 0x20000000 (List.map Slot.pair [⟨16, 6, a⟩, ⟨10, 6, b⟩, ⟨8, 2, m⟩, ⟨0, 8, o⟩]) = w := Option.some.inj h
  have hs : shape [⟨16, 6, a⟩, ⟨10, 6, b⟩, ⟨8, 2, m⟩, ⟨0, 8, o⟩] = [(16, 6), (10, 6), (8, 2), (0, 8)] := rfl
  refine .inr (.inr (.inl ?_))
  have e : decodeJoin w = some (.jcmp a b m o) := by
    rw [decodeJoin, fld_of hw hs 22 6 0 rfl rfl rfl]
    show some _ = _
    rw [fbv_of hw hs 0 16 6 a rfl rfl rfl, fbv_of hw hs 1 10 6 b rfl rfl rfl, fbv_of hw hs 2 8 2 m rfl rfl rfl, fbv_of hw hs 3 0 8 o rfl rfl rfl]
  rw [decodeNode, fld_of hw hs 28 4 2 rfl rfl rfl]
  show (match decodeJoin w with | some i => Except.ok i | none => _) = _
  rw [e]

theorem isect (a : BitVec 6) (b : BitVec 6) (m : BitVec 2) (o : BitVec 8) : Statement (.isect a b m o) := by
  intro wf w h
  have hw : place 0x20400000 (List.map Slot.pair [⟨16, 6, a⟩, ⟨10, 6, b⟩, ⟨8, 2, m⟩, ⟨0, 8, o⟩]) = w := Option.some.inj h
  have hs : shape [⟨16, 6, a⟩, ⟨10, 6, b⟩, ⟨8, 2, m⟩, ⟨0, 8, o⟩] = [(16, 6), (10, 6), (8, 2), (0, 8)] := rfl
  refine .inr (.inr (.inl ?_))
  have e : decodeJoin w = some (.isect a b m o) := by
    rw [decodeJoin, fld_of hw hs 22 6 1 rfl rfl rfl]
    show some _ = _
    rw [fbv_of hw hs 0 16 6 a rfl rfl rfl, fbv_of hw hs 1 10 6 b rfl rfl rfl, fbv_of hw hs 2 8 2 m rfl rfl rfl, fbv_of hw hs 3 0 8 o rfl rfl rfl]
  rw [decodeNode, fld_of hw hs 28 4 2 rfl rfl rfl]
  show (match decodeJoin w with | some i => Except.ok i | none => _) = _
  rw [e]

theorem unionKeys (a : BitVec 6) (b : BitVec 6) (m : BitVec 2) (o : BitVec 8) : Statement (.unionKeys a b m o) := by
  intro wf w h
  have hw : place 0x20800000 (List.map Slot.pair [⟨16, 6, a⟩, ⟨10, 6, b⟩, ⟨8, 2, m⟩, ⟨0, 8, o⟩]) = w := Option.some.inj h
  have hs : shape [⟨16, 6, a⟩, ⟨10, 6, b⟩, ⟨8, 2, m⟩, ⟨0, 8, o⟩] = [(16, 6), (10, 6), (8, 2), (0, 8)] := rfl
  refine .inr (.inr (.inl ?_))
  have e : decodeJoin w = some (.unionKeys a b m o) := by
    rw [decodeJoin, fld_of hw hs 22 6 2 rfl rfl rfl]
    show some _ = _
    rw [fbv_of hw hs 0 16 6 a rfl rfl rfl, fbv_of hw hs 1 10 6 b rfl rfl rfl, fbv_of hw hs 2 8 2 m rfl rfl rfl, fbv_of hw hs 3 0 8 o rfl rfl rfl]
  rw [decodeNode, fld_of hw hs 28 4 2 rfl rfl rfl]
  show (match decodeJoin w with | some i => Except.ok i | none => _) = _
  rw [e]

theorem diff (a : BitVec 6) (b : BitVec 6) (m : BitVec 2) (o : BitVec 8) : Statement (.diff a b m o) := by
  intro wf w h
  have hw : place 0x20C00000 (List.map Slot.pair [⟨16, 6, a⟩, ⟨10, 6, b⟩, ⟨8, 2, m⟩, ⟨0, 8, o⟩]) = w := Option.some.inj h
  have hs : shape [⟨16, 6, a⟩, ⟨10, 6, b⟩, ⟨8, 2, m⟩, ⟨0, 8, o⟩] = [(16, 6), (10, 6), (8, 2), (0, 8)] := rfl
  refine .inr (.inr (.inl ?_))
  have e : decodeJoin w = some (.diff a b m o) := by
    rw [decodeJoin, fld_of hw hs 22 6 3 rfl rfl rfl]
    show some _ = _
    rw [fbv_of hw hs 0 16 6 a rfl rfl rfl, fbv_of hw hs 1 10 6 b rfl rfl rfl, fbv_of hw hs 2 8 2 m rfl rfl rfl, fbv_of hw hs 3 0 8 o rfl rfl rfl]
  rw [decodeNode, fld_of hw hs 28 4 2 rfl rfl rfl]
  show (match decodeJoin w with | some i => Except.ok i | none => _) = _
  rw [e]

theorem jwin (a : BitVec 6) (b : BitVec 6) (m : BitVec 2) (o : BitVec 8) : Statement (.jwin a b m o) := by
  intro wf w h
  have hw : place 0x21000000 (List.map Slot.pair [⟨16, 6, a⟩, ⟨10, 6, b⟩, ⟨8, 2, m⟩, ⟨0, 8, o⟩]) = w := Option.some.inj h
  have hs : shape [⟨16, 6, a⟩, ⟨10, 6, b⟩, ⟨8, 2, m⟩, ⟨0, 8, o⟩] = [(16, 6), (10, 6), (8, 2), (0, 8)] := rfl
  refine .inr (.inr (.inl ?_))
  have e : decodeJoin w = some (.jwin a b m o) := by
    rw [decodeJoin, fld_of hw hs 22 6 4 rfl rfl rfl]
    show some _ = _
    rw [fbv_of hw hs 0 16 6 a rfl rfl rfl, fbv_of hw hs 1 10 6 b rfl rfl rfl, fbv_of hw hs 2 8 2 m rfl rfl rfl, fbv_of hw hs 3 0 8 o rfl rfl rfl]
  rw [decodeNode, fld_of hw hs 28 4 2 rfl rfl rfl]
  show (match decodeJoin w with | some i => Except.ok i | none => _) = _
  rw [e]

theorem stp (a : BitVec 6) (b : BitVec 6) (m : BitVec 2) (o : BitVec 8) : Statement (.stp a b m o) := by
  intro wf w h
  have hw : place 0x30000000 (List.map Slot.pair [⟨16, 6, a⟩, ⟨10, 6, b⟩, ⟨8, 2, m⟩, ⟨0, 8, o⟩]) = w := Option.some.inj h
  have hs : shape [⟨16, 6, a⟩, ⟨10, 6, b⟩, ⟨8, 2, m⟩, ⟨0, 8, o⟩] = [(16, 6), (10, 6), (8, 2), (0, 8)] := rfl
  refine .inr (.inr (.inl ?_))
  have e : decodeSteer w = some (.stp a b m o) := by
    rw [decodeSteer, fld_of hw hs 22 6 0 rfl rfl rfl]
    show some _ = _
    rw [fbv_of hw hs 0 16 6 a rfl rfl rfl, fbv_of hw hs 1 10 6 b rfl rfl rfl, fbv_of hw hs 2 8 2 m rfl rfl rfl, fbv_of hw hs 3 0 8 o rfl rfl rfl]
  rw [decodeNode, fld_of hw hs 28 4 3 rfl rfl rfl]
  show (match decodeSteer w with | some i => Except.ok i | none => _) = _
  rw [e]

theorem stk (a : BitVec 6) (b : BitVec 6) (m : BitVec 2) (o : BitVec 8) : Statement (.stk a b m o) := by
  intro wf w h
  have hw : place 0x30400000 (List.map Slot.pair [⟨16, 6, a⟩, ⟨10, 6, b⟩, ⟨8, 2, m⟩, ⟨0, 8, o⟩]) = w := Option.some.inj h
  have hs : shape [⟨16, 6, a⟩, ⟨10, 6, b⟩, ⟨8, 2, m⟩, ⟨0, 8, o⟩] = [(16, 6), (10, 6), (8, 2), (0, 8)] := rfl
  refine .inr (.inr (.inl ?_))
  have e : decodeSteer w = some (.stk a b m o) := by
    rw [decodeSteer, fld_of hw hs 22 6 1 rfl rfl rfl]
    show some _ = _
    rw [fbv_of hw hs 0 16 6 a rfl rfl rfl, fbv_of hw hs 1 10 6 b rfl rfl rfl, fbv_of hw hs 2 8 2 m rfl rfl rfl, fbv_of hw hs 3 0 8 o rfl rfl rfl]
  rw [decodeNode, fld_of hw hs 28 4 3 rfl rfl rfl]
  show (match decodeSteer w with | some i => Except.ok i | none => _) = _
  rw [e]

theorem sth (a : BitVec 6) (b : BitVec 6) (m : BitVec 2) (o : BitVec 8) : Statement (.sth a b m o) := by
  intro wf w h
  have hw : place 0x30800000 (List.map Slot.pair [⟨16, 6, a⟩, ⟨10, 6, b⟩, ⟨8, 2, m⟩, ⟨0, 8, o⟩]) = w := Option.some.inj h
  have hs : shape [⟨16, 6, a⟩, ⟨10, 6, b⟩, ⟨8, 2, m⟩, ⟨0, 8, o⟩] = [(16, 6), (10, 6), (8, 2), (0, 8)] := rfl
  refine .inr (.inr (.inl ?_))
  have e : decodeSteer w = some (.sth a b m o) := by
    rw [decodeSteer, fld_of hw hs 22 6 2 rfl rfl rfl]
    show some _ = _
    rw [fbv_of hw hs 0 16 6 a rfl rfl rfl, fbv_of hw hs 1 10 6 b rfl rfl rfl, fbv_of hw hs 2 8 2 m rfl rfl rfl, fbv_of hw hs 3 0 8 o rfl rfl rfl]
  rw [decodeNode, fld_of hw hs 28 4 3 rfl rfl rfl]
  show (match decodeSteer w with | some i => Except.ok i | none => _) = _
  rw [e]

theorem stt (a : BitVec 6) (b : BitVec 6) (m : BitVec 2) (o : BitVec 8) : Statement (.stt a b m o) := by
  intro wf w h
  have hw : place 0x30C00000 (List.map Slot.pair [⟨16, 6, a⟩, ⟨10, 6, b⟩, ⟨8, 2, m⟩, ⟨0, 8, o⟩]) = w := Option.some.inj h
  have hs : shape [⟨16, 6, a⟩, ⟨10, 6, b⟩, ⟨8, 2, m⟩, ⟨0, 8, o⟩] = [(16, 6), (10, 6), (8, 2), (0, 8)] := rfl
  refine .inr (.inr (.inl ?_))
  have e : decodeSteer w = some (.stt a b m o) := by
    rw [decodeSteer, fld_of hw hs 22 6 3 rfl rfl rfl]
    show some _ = _
    rw [fbv_of hw hs 0 16 6 a rfl rfl rfl, fbv_of hw hs 1 10 6 b rfl rfl rfl, fbv_of hw hs 2 8 2 m rfl rfl rfl, fbv_of hw hs 3 0 8 o rfl rfl rfl]
  rw [decodeNode, fld_of hw hs 28 4 3 rfl rfl rfl]
  show (match decodeSteer w with | some i => Except.ok i | none => _) = _
  rw [e]

theorem rord (a : BitVec 6) (b : BitVec 6) (m : BitVec 2) (o : BitVec 8) : Statement (.rord a b m o) := by
  intro wf w h
  have hw : place 0x40000000 (List.map Slot.pair [⟨16, 6, a⟩, ⟨10, 6, b⟩, ⟨8, 2, m⟩, ⟨0, 8, o⟩]) = w := Option.some.inj h
  have hs : shape [⟨16, 6, a⟩, ⟨10, 6, b⟩, ⟨8, 2, m⟩, ⟨0, 8, o⟩] = [(16, 6), (10, 6), (8, 2), (0, 8)] := rfl
  refine .inr (.inr (.inl ?_))
  have e : decodeReorder w = some (.rord a b m o) := by
    rw [decodeReorder, fld_of hw hs 22 6 0 rfl rfl rfl]
    show some _ = _
    rw [fbv_of hw hs 0 16 6 a rfl rfl rfl, fbv_of hw hs 1 10 6 b rfl rfl rfl, fbv_of hw hs 2 8 2 m rfl rfl rfl, fbv_of hw hs 3 0 8 o rfl rfl rfl]
  rw [decodeNode, fld_of hw hs 28 4 4 rfl rfl rfl]
  show (match decodeReorder w with | some i => Except.ok i | none => _) = _
  rw [e]

theorem rrel (a : BitVec 6) (b : BitVec 6) (m : BitVec 2) (o : BitVec 8) : Statement (.rrel a b m o) := by
  intro wf w h
  have hw : place 0x40400000 (List.map Slot.pair [⟨16, 6, a⟩, ⟨10, 6, b⟩, ⟨8, 2, m⟩, ⟨0, 8, o⟩]) = w := Option.some.inj h
  have hs : shape [⟨16, 6, a⟩, ⟨10, 6, b⟩, ⟨8, 2, m⟩, ⟨0, 8, o⟩] = [(16, 6), (10, 6), (8, 2), (0, 8)] := rfl
  refine .inr (.inr (.inl ?_))
  have e : decodeReorder w = some (.rrel a b m o) := by
    rw [decodeReorder, fld_of hw hs 22 6 1 rfl rfl rfl]
    show some _ = _
    rw [fbv_of hw hs 0 16 6 a rfl rfl rfl, fbv_of hw hs 1 10 6 b rfl rfl rfl, fbv_of hw hs 2 8 2 m rfl rfl rfl, fbv_of hw hs 3 0 8 o rfl rfl rfl]
  rw [decodeNode, fld_of hw hs 28 4 4 rfl rfl rfl]
  show (match decodeReorder w with | some i => Except.ok i | none => _) = _
  rw [e]

theorem ains (a : BitVec 6) (b : BitVec 6) (m : BitVec 2) (o : BitVec 8) : Statement (.ains a b m o) := by
  intro wf w h
  have hw : place 0x50000000 (List.map Slot.pair [⟨16, 6, a⟩, ⟨10, 6, b⟩, ⟨8, 2, m⟩, ⟨0, 8, o⟩]) = w := Option.some.inj h
  have hs : shape [⟨16, 6, a⟩, ⟨10, 6, b⟩, ⟨8, 2, m⟩, ⟨0, 8, o⟩] = [(16, 6), (10, 6), (8, 2), (0, 8)] := rfl
  refine .inr (.inr (.inl ?_))
  have e : decodeAccum w = some (.ains a b m o) := by
    rw [decodeAccum, fld_of hw hs 22 6 0 rfl rfl rfl]
    show some _ = _
    rw [fbv_of hw hs 0 16 6 a rfl rfl rfl, fbv_of hw hs 1 10 6 b rfl rfl rfl, fbv_of hw hs 2 8 2 m rfl rfl rfl, fbv_of hw hs 3 0 8 o rfl rfl rfl]
  rw [decodeNode, fld_of hw hs 28 4 5 rfl rfl rfl]
  show (match decodeAccum w with | some i => Except.ok i | none => _) = _
  rw [e]

theorem amax (a : BitVec 6) (b : BitVec 6) (m : BitVec 2) (o : BitVec 8) : Statement (.amax a b m o) := by
  intro wf w h
  have hw : place 0x50400000 (List.map Slot.pair [⟨16, 6, a⟩, ⟨10, 6, b⟩, ⟨8, 2, m⟩, ⟨0, 8, o⟩]) = w := Option.some.inj h
  have hs : shape [⟨16, 6, a⟩, ⟨10, 6, b⟩, ⟨8, 2, m⟩, ⟨0, 8, o⟩] = [(16, 6), (10, 6), (8, 2), (0, 8)] := rfl
  refine .inr (.inr (.inl ?_))
  have e : decodeAccum w = some (.amax a b m o) := by
    rw [decodeAccum, fld_of hw hs 22 6 1 rfl rfl rfl]
    show some _ = _
    rw [fbv_of hw hs 0 16 6 a rfl rfl rfl, fbv_of hw hs 1 10 6 b rfl rfl rfl, fbv_of hw hs 2 8 2 m rfl rfl rfl, fbv_of hw hs 3 0 8 o rfl rfl rfl]
  rw [decodeNode, fld_of hw hs 28 4 5 rfl rfl rfl]
  show (match decodeAccum w with | some i => Except.ok i | none => _) = _
  rw [e]

theorem amin (a : BitVec 6) (b : BitVec 6) (m : BitVec 2) (o : BitVec 8) : Statement (.amin a b m o) := by
  intro wf w h
  have hw : place 0x50800000 (List.map Slot.pair [⟨16, 6, a⟩, ⟨10, 6, b⟩, ⟨8, 2, m⟩, ⟨0, 8, o⟩]) = w := Option.some.inj h
  have hs : shape [⟨16, 6, a⟩, ⟨10, 6, b⟩, ⟨8, 2, m⟩, ⟨0, 8, o⟩] = [(16, 6), (10, 6), (8, 2), (0, 8)] := rfl
  refine .inr (.inr (.inl ?_))
  have e : decodeAccum w = some (.amin a b m o) := by
    rw [decodeAccum, fld_of hw hs 22 6 2 rfl rfl rfl]
    show some _ = _
    rw [fbv_of hw hs 0 16 6 a rfl rfl rfl, fbv_of hw hs 1 10 6 b rfl rfl rfl, fbv_of hw hs 2 8 2 m rfl rfl rfl, fbv_of hw hs 3 0 8 o rfl rfl rfl]
  rw [decodeNode, fld_of hw hs 28 4 5 rfl rfl rfl]
  show (match decodeAccum w with | some i => Except.ok i | none => _) = _
  rw [e]

theorem alook (a : BitVec 6) (b : BitVec 6) (m : BitVec 2) (o : BitVec 8) : Statement (.alook a b m o) := by
  intro wf w h
  have hw : place 0x50C00000 (List.map Slot.pair [⟨16, 6, a⟩, ⟨10, 6, b⟩, ⟨8, 2, m⟩, ⟨0, 8, o⟩]) = w := Option.some.inj h
  have hs : shape [⟨16, 6, a⟩, ⟨10, 6, b⟩, ⟨8, 2, m⟩, ⟨0, 8, o⟩] = [(16, 6), (10, 6), (8, 2), (0, 8)] := rfl
  refine .inr (.inr (.inl ?_))
  have e : decodeAccum w = some (.alook a b m o) := by
    rw [decodeAccum, fld_of hw hs 22 6 3 rfl rfl rfl]
    show some _ = _
    rw [fbv_of hw hs 0 16 6 a rfl rfl rfl, fbv_of hw hs 1 10 6 b rfl rfl rfl, fbv_of hw hs 2 8 2 m rfl rfl rfl, fbv_of hw hs 3 0 8 o rfl rfl rfl]
  rw [decodeNode, fld_of hw hs 28 4 5 rfl rfl rfl]
  show (match decodeAccum w with | some i => Except.ok i | none => _) = _
  rw [e]

theorem adrain (a : BitVec 6) (b : BitVec 6) (m : BitVec 2) (o : BitVec 8) : Statement (.adrain a b m o) := by
  intro wf w h
  have hw : place 0x51000000 (List.map Slot.pair [⟨16, 6, a⟩, ⟨10, 6, b⟩, ⟨8, 2, m⟩, ⟨0, 8, o⟩]) = w := Option.some.inj h
  have hs : shape [⟨16, 6, a⟩, ⟨10, 6, b⟩, ⟨8, 2, m⟩, ⟨0, 8, o⟩] = [(16, 6), (10, 6), (8, 2), (0, 8)] := rfl
  refine .inr (.inr (.inl ?_))
  have e : decodeAccum w = some (.adrain a b m o) := by
    rw [decodeAccum, fld_of hw hs 22 6 4 rfl rfl rfl]
    show some _ = _
    rw [fbv_of hw hs 0 16 6 a rfl rfl rfl, fbv_of hw hs 1 10 6 b rfl rfl rfl, fbv_of hw hs 2 8 2 m rfl rfl rfl, fbv_of hw hs 3 0 8 o rfl rfl rfl]
  rw [decodeNode, fld_of hw hs 28 4 5 rfl rfl rfl]
  show (match decodeAccum w with | some i => Except.ok i | none => _) = _
  rw [e]

theorem aspill (a : BitVec 6) (b : BitVec 6) (m : BitVec 2) (o : BitVec 8) : Statement (.aspill a b m o) := by
  intro wf w h
  have hw : place 0x51400000 (List.map Slot.pair [⟨16, 6, a⟩, ⟨10, 6, b⟩, ⟨8, 2, m⟩, ⟨0, 8, o⟩]) = w := Option.some.inj h
  have hs : shape [⟨16, 6, a⟩, ⟨10, 6, b⟩, ⟨8, 2, m⟩, ⟨0, 8, o⟩] = [(16, 6), (10, 6), (8, 2), (0, 8)] := rfl
  refine .inr (.inr (.inl ?_))
  have e : decodeAccum w = some (.aspill a b m o) := by
    rw [decodeAccum, fld_of hw hs 22 6 5 rfl rfl rfl]
    show some _ = _
    rw [fbv_of hw hs 0 16 6 a rfl rfl rfl, fbv_of hw hs 1 10 6 b rfl rfl rfl, fbv_of hw hs 2 8 2 m rfl rfl rfl, fbv_of hw hs 3 0 8 o rfl rfl rfl]
  rw [decodeNode, fld_of hw hs 28 4 5 rfl rfl rfl]
  show (match decodeAccum w with | some i => Except.ok i | none => _) = _
  rw [e]

theorem aclr (a : BitVec 6) (b : BitVec 6) (m : BitVec 2) (o : BitVec 8) : Statement (.aclr a b m o) := by
  intro wf w h
  have hw : place 0x51800000 (List.map Slot.pair [⟨16, 6, a⟩, ⟨10, 6, b⟩, ⟨8, 2, m⟩, ⟨0, 8, o⟩]) = w := Option.some.inj h
  have hs : shape [⟨16, 6, a⟩, ⟨10, 6, b⟩, ⟨8, 2, m⟩, ⟨0, 8, o⟩] = [(16, 6), (10, 6), (8, 2), (0, 8)] := rfl
  refine .inr (.inr (.inl ?_))
  have e : decodeAccum w = some (.aclr a b m o) := by
    rw [decodeAccum, fld_of hw hs 22 6 6 rfl rfl rfl]
    show some _ = _
    rw [fbv_of hw hs 0 16 6 a rfl rfl rfl, fbv_of hw hs 1 10 6 b rfl rfl rfl, fbv_of hw hs 2 8 2 m rfl rfl rfl, fbv_of hw hs 3 0 8 o rfl rfl rfl]
  rw [decodeNode, fld_of hw hs 28 4 5 rfl rfl rfl]
  show (match decodeAccum w with | some i => Except.ok i | none => _) = _
  rw [e]

theorem mrd (a : BitVec 6) (b : BitVec 6) (m : BitVec 2) (o : BitVec 8) : Statement (.mrd a b m o) := by
  intro wf w h
  have hw : place 0x60000000 (List.map Slot.pair [⟨16, 6, a⟩, ⟨10, 6, b⟩, ⟨8, 2, m⟩, ⟨0, 8, o⟩]) = w := Option.some.inj h
  have hs : shape [⟨16, 6, a⟩, ⟨10, 6, b⟩, ⟨8, 2, m⟩, ⟨0, 8, o⟩] = [(16, 6), (10, 6), (8, 2), (0, 8)] := rfl
  refine .inr (.inr (.inl ?_))
  have e : decodeMemport w = some (.mrd a b m o) := by
    rw [decodeMemport, fld_of hw hs 22 6 0 rfl rfl rfl]
    show some _ = _
    rw [fbv_of hw hs 0 16 6 a rfl rfl rfl, fbv_of hw hs 1 10 6 b rfl rfl rfl, fbv_of hw hs 2 8 2 m rfl rfl rfl, fbv_of hw hs 3 0 8 o rfl rfl rfl]
  rw [decodeNode, fld_of hw hs 28 4 6 rfl rfl rfl]
  show (match decodeMemport w with | some i => Except.ok i | none => _) = _
  rw [e]

theorem mwr (a : BitVec 6) (b : BitVec 6) (m : BitVec 2) (o : BitVec 8) : Statement (.mwr a b m o) := by
  intro wf w h
  have hw : place 0x60400000 (List.map Slot.pair [⟨16, 6, a⟩, ⟨10, 6, b⟩, ⟨8, 2, m⟩, ⟨0, 8, o⟩]) = w := Option.some.inj h
  have hs : shape [⟨16, 6, a⟩, ⟨10, 6, b⟩, ⟨8, 2, m⟩, ⟨0, 8, o⟩] = [(16, 6), (10, 6), (8, 2), (0, 8)] := rfl
  refine .inr (.inr (.inl ?_))
  have e : decodeMemport w = some (.mwr a b m o) := by
    rw [decodeMemport, fld_of hw hs 22 6 1 rfl rfl rfl]
    show some _ = _
    rw [fbv_of hw hs 0 16 6 a rfl rfl rfl, fbv_of hw hs 1 10 6 b rfl rfl rfl, fbv_of hw hs 2 8 2 m rfl rfl rfl, fbv_of hw hs 3 0 8 o rfl rfl rfl]
  rw [decodeNode, fld_of hw hs 28 4 6 rfl rfl rfl]
  show (match decodeMemport w with | some i => Except.ok i | none => _) = _
  rw [e]

theorem mamo (a : BitVec 6) (b : BitVec 6) (m : BitVec 2) (o : BitVec 8) : Statement (.mamo a b m o) := by
  intro wf w h
  have hw : place 0x60800000 (List.map Slot.pair [⟨16, 6, a⟩, ⟨10, 6, b⟩, ⟨8, 2, m⟩, ⟨0, 8, o⟩]) = w := Option.some.inj h
  have hs : shape [⟨16, 6, a⟩, ⟨10, 6, b⟩, ⟨8, 2, m⟩, ⟨0, 8, o⟩] = [(16, 6), (10, 6), (8, 2), (0, 8)] := rfl
  refine .inr (.inr (.inl ?_))
  have e : decodeMemport w = some (.mamo a b m o) := by
    rw [decodeMemport, fld_of hw hs 22 6 2 rfl rfl rfl]
    show some _ = _
    rw [fbv_of hw hs 0 16 6 a rfl rfl rfl, fbv_of hw hs 1 10 6 b rfl rfl rfl, fbv_of hw hs 2 8 2 m rfl rfl rfl, fbv_of hw hs 3 0 8 o rfl rfl rfl]
  rw [decodeNode, fld_of hw hs 28 4 6 rfl rfl rfl]
  show (match decodeMemport w with | some i => Except.ok i | none => _) = _
  rw [e]

theorem msct (a : BitVec 6) (b : BitVec 6) (m : BitVec 2) (o : BitVec 8) : Statement (.msct a b m o) := by
  intro wf w h
  have hw : place 0x60C00000 (List.map Slot.pair [⟨16, 6, a⟩, ⟨10, 6, b⟩, ⟨8, 2, m⟩, ⟨0, 8, o⟩]) = w := Option.some.inj h
  have hs : shape [⟨16, 6, a⟩, ⟨10, 6, b⟩, ⟨8, 2, m⟩, ⟨0, 8, o⟩] = [(16, 6), (10, 6), (8, 2), (0, 8)] := rfl
  refine .inr (.inr (.inl ?_))
  have e : decodeMemport w = some (.msct a b m o) := by
    rw [decodeMemport, fld_of hw hs 22 6 3 rfl rfl rfl]
    show some _ = _
    rw [fbv_of hw hs 0 16 6 a rfl rfl rfl, fbv_of hw hs 1 10 6 b rfl rfl rfl, fbv_of hw hs 2 8 2 m rfl rfl rfl, fbv_of hw hs 3 0 8 o rfl rfl rfl]
  rw [decodeNode, fld_of hw hs 28 4 6 rfl rfl rfl]
  show (match decodeMemport w with | some i => Except.ok i | none => _) = _
  rw [e]

theorem mgat (a : BitVec 6) (b : BitVec 6) (m : BitVec 2) (o : BitVec 8) : Statement (.mgat a b m o) := by
  intro wf w h
  have hw : place 0x61000000 (List.map Slot.pair [⟨16, 6, a⟩, ⟨10, 6, b⟩, ⟨8, 2, m⟩, ⟨0, 8, o⟩]) = w := Option.some.inj h
  have hs : shape [⟨16, 6, a⟩, ⟨10, 6, b⟩, ⟨8, 2, m⟩, ⟨0, 8, o⟩] = [(16, 6), (10, 6), (8, 2), (0, 8)] := rfl
  refine .inr (.inr (.inl ?_))
  have e : decodeMemport w = some (.mgat a b m o) := by
    rw [decodeMemport, fld_of hw hs 22 6 4 rfl rfl rfl]
    show some _ = _
    rw [fbv_of hw hs 0 16 6 a rfl rfl rfl, fbv_of hw hs 1 10 6 b rfl rfl rfl, fbv_of hw hs 2 8 2 m rfl rfl rfl, fbv_of hw hs 3 0 8 o rfl rfl rfl]
  rw [decodeNode, fld_of hw hs 28 4 6 rfl rfl rfl]
  show (match decodeMemport w with | some i => Except.ok i | none => _) = _
  rw [e]

theorem agen (a : BitVec 6) (b : BitVec 6) (m : BitVec 2) (o : BitVec 8) : Statement (.agen a b m o) := by
  intro wf w h
  have hw : place 0x70000000 (List.map Slot.pair [⟨16, 6, a⟩, ⟨10, 6, b⟩, ⟨8, 2, m⟩, ⟨0, 8, o⟩]) = w := Option.some.inj h
  have hs : shape [⟨16, 6, a⟩, ⟨10, 6, b⟩, ⟨8, 2, m⟩, ⟨0, 8, o⟩] = [(16, 6), (10, 6), (8, 2), (0, 8)] := rfl
  refine .inr (.inr (.inl ?_))
  have e : decodeAddrgen w = some (.agen a b m o) := by
    rw [decodeAddrgen, fld_of hw hs 22 6 0 rfl rfl rfl]
    show some _ = _
    rw [fbv_of hw hs 0 16 6 a rfl rfl rfl, fbv_of hw hs 1 10 6 b rfl rfl rfl, fbv_of hw hs 2 8 2 m rfl rfl rfl, fbv_of hw hs 3 0 8 o rfl rfl rfl]
  rw [decodeNode, fld_of hw hs 28 4 7 rfl rfl rfl]
  show (match decodeAddrgen w with | some i => Except.ok i | none => _) = _
  rw [e]

theorem agbase (a : BitVec 6) (b : BitVec 6) (m : BitVec 2) (o : BitVec 8) : Statement (.agbase a b m o) := by
  intro wf w h
  have hw : place 0x70400000 (List.map Slot.pair [⟨16, 6, a⟩, ⟨10, 6, b⟩, ⟨8, 2, m⟩, ⟨0, 8, o⟩]) = w := Option.some.inj h
  have hs : shape [⟨16, 6, a⟩, ⟨10, 6, b⟩, ⟨8, 2, m⟩, ⟨0, 8, o⟩] = [(16, 6), (10, 6), (8, 2), (0, 8)] := rfl
  refine .inr (.inr (.inl ?_))
  have e : decodeAddrgen w = some (.agbase a b m o) := by
    rw [decodeAddrgen, fld_of hw hs 22 6 1 rfl rfl rfl]
    show some _ = _
    rw [fbv_of hw hs 0 16 6 a rfl rfl rfl, fbv_of hw hs 1 10 6 b rfl rfl rfl, fbv_of hw hs 2 8 2 m rfl rfl rfl, fbv_of hw hs 3 0 8 o rfl rfl rfl]
  rw [decodeNode, fld_of hw hs 28 4 7 rfl rfl rfl]
  show (match decodeAddrgen w with | some i => Except.ok i | none => _) = _
  rw [e]

theorem agre (a : BitVec 6) (b : BitVec 6) (m : BitVec 2) (o : BitVec 8) : Statement (.agre a b m o) := by
  intro wf w h
  have hw : place 0x70800000 (List.map Slot.pair [⟨16, 6, a⟩, ⟨10, 6, b⟩, ⟨8, 2, m⟩, ⟨0, 8, o⟩]) = w := Option.some.inj h
  have hs : shape [⟨16, 6, a⟩, ⟨10, 6, b⟩, ⟨8, 2, m⟩, ⟨0, 8, o⟩] = [(16, 6), (10, 6), (8, 2), (0, 8)] := rfl
  refine .inr (.inr (.inl ?_))
  have e : decodeAddrgen w = some (.agre a b m o) := by
    rw [decodeAddrgen, fld_of hw hs 22 6 2 rfl rfl rfl]
    show some _ = _
    rw [fbv_of hw hs 0 16 6 a rfl rfl rfl, fbv_of hw hs 1 10 6 b rfl rfl rfl, fbv_of hw hs 2 8 2 m rfl rfl rfl, fbv_of hw hs 3 0 8 o rfl rfl rfl]
  rw [decodeNode, fld_of hw hs 28 4 7 rfl rfl rfl]
  show (match decodeAddrgen w with | some i => Except.ok i | none => _) = _
  rw [e]

theorem win (a : BitVec 6) (b : BitVec 6) (m : BitVec 2) (o : BitVec 8) : Statement (.win a b m o) := by
  intro wf w h
  have hw : place 0x80000000 (List.map Slot.pair [⟨16, 6, a⟩, ⟨10, 6, b⟩, ⟨8, 2, m⟩, ⟨0, 8, o⟩]) = w := Option.some.inj h
  have hs : shape [⟨16, 6, a⟩, ⟨10, 6, b⟩, ⟨8, 2, m⟩, ⟨0, 8, o⟩] = [(16, 6), (10, 6), (8, 2), (0, 8)] := rfl
  refine .inr (.inr (.inl ?_))
  have e : decodeWindow w = some (.win a b m o) := by
    rw [decodeWindow, fld_of hw hs 22 6 0 rfl rfl rfl]
    show some _ = _
    rw [fbv_of hw hs 0 16 6 a rfl rfl rfl, fbv_of hw hs 1 10 6 b rfl rfl rfl, fbv_of hw hs 2 8 2 m rfl rfl rfl, fbv_of hw hs 3 0 8 o rfl rfl rfl]
  rw [decodeNode, fld_of hw hs 28 4 8 rfl rfl rfl]
  show (match decodeWindow w with | some i => Except.ok i | none => _) = _
  rw [e]

theorem wflush (a : BitVec 6) (b : BitVec 6) (m : BitVec 2) (o : BitVec 8) : Statement (.wflush a b m o) := by
  intro wf w h
  have hw : place 0x80400000 (List.map Slot.pair [⟨16, 6, a⟩, ⟨10, 6, b⟩, ⟨8, 2, m⟩, ⟨0, 8, o⟩]) = w := Option.some.inj h
  have hs : shape [⟨16, 6, a⟩, ⟨10, 6, b⟩, ⟨8, 2, m⟩, ⟨0, 8, o⟩] = [(16, 6), (10, 6), (8, 2), (0, 8)] := rfl
  refine .inr (.inr (.inl ?_))
  have e : decodeWindow w = some (.wflush a b m o) := by
    rw [decodeWindow, fld_of hw hs 22 6 1 rfl rfl rfl]
    show some _ = _
    rw [fbv_of hw hs 0 16 6 a rfl rfl rfl, fbv_of hw hs 1 10 6 b rfl rfl rfl, fbv_of hw hs 2 8 2 m rfl rfl rfl, fbv_of hw hs 3 0 8 o rfl rfl rfl]
  rw [decodeNode, fld_of hw hs 28 4 8 rfl rfl rfl]
  show (match decodeWindow w with | some i => Except.ok i | none => _) = _
  rw [e]

theorem mma (a : BitVec 6) (b : BitVec 6) (m : BitVec 2) (o : BitVec 8) : Statement (.mma a b m o) := by
  intro wf w h
  have hw : place 0x90000000 (List.map Slot.pair [⟨16, 6, a⟩, ⟨10, 6, b⟩, ⟨8, 2, m⟩, ⟨0, 8, o⟩]) = w := Option.some.inj h
  have hs : shape [⟨16, 6, a⟩, ⟨10, 6, b⟩, ⟨8, 2, m⟩, ⟨0, 8, o⟩] = [(16, 6), (10, 6), (8, 2), (0, 8)] := rfl
  refine .inr (.inr (.inl ?_))
  have e : decodeMatrix w = some (.mma a b m o) := by
    rw [decodeMatrix, fld_of hw hs 22 6 0 rfl rfl rfl]
    show some _ = _
    rw [fbv_of hw hs 0 16 6 a rfl rfl rfl, fbv_of hw hs 1 10 6 b rfl rfl rfl, fbv_of hw hs 2 8 2 m rfl rfl rfl, fbv_of hw hs 3 0 8 o rfl rfl rfl]
  rw [decodeNode, fld_of hw hs 28 4 9 rfl rfl rfl]
  show (match decodeMatrix w with | some i => Except.ok i | none => _) = _
  rw [e]

theorem mmas (a : BitVec 6) (b : BitVec 6) (m : BitVec 2) (o : BitVec 8) : Statement (.mmas a b m o) := by
  intro wf w h
  have hw : place 0x90400000 (List.map Slot.pair [⟨16, 6, a⟩, ⟨10, 6, b⟩, ⟨8, 2, m⟩, ⟨0, 8, o⟩]) = w := Option.some.inj h
  have hs : shape [⟨16, 6, a⟩, ⟨10, 6, b⟩, ⟨8, 2, m⟩, ⟨0, 8, o⟩] = [(16, 6), (10, 6), (8, 2), (0, 8)] := rfl
  refine .inr (.inr (.inl ?_))
  have e : decodeMatrix w = some (.mmas a b m o) := by
    rw [decodeMatrix, fld_of hw hs 22 6 1 rfl rfl rfl]
    show some _ = _
    rw [fbv_of hw hs 0 16 6 a rfl rfl rfl, fbv_of hw hs 1 10 6 b rfl rfl rfl, fbv_of hw hs 2 8 2 m rfl rfl rfl, fbv_of hw hs 3 0 8 o rfl rfl rfl]
  rw [decodeNode, fld_of hw hs 28 4 9 rfl rfl rfl]
  show (match decodeMatrix w with | some i => Except.ok i | none => _) = _
  rw [e]

theorem mdrn (a : BitVec 6) (b : BitVec 6) (m : BitVec 2) (o : BitVec 8) : Statement (.mdrn a b m o) := by
  intro wf w h
  have hw : place 0x90800000 (List.map Slot.pair [⟨16, 6, a⟩, ⟨10, 6, b⟩, ⟨8, 2, m⟩, ⟨0, 8, o⟩]) = w := Option.some.inj h
  have hs : shape [⟨16, 6, a⟩, ⟨10, 6, b⟩, ⟨8, 2, m⟩, ⟨0, 8, o⟩] = [(16, 6), (10, 6), (8, 2), (0, 8)] := rfl
  refine .inr (.inr (.inl ?_))
  have e : decodeMatrix w = some (.mdrn a b m o) := by
    rw [decodeMatrix, fld_of hw hs 22 6 2 rfl rfl rfl]
    show some _ = _
    rw [fbv_of hw hs 0 16 6 a rfl rfl rfl, fbv_of hw hs 1 10 6 b rfl rfl rfl, fbv_of hw hs 2 8 2 m rfl rfl rfl, fbv_of hw hs 3 0 8 o rfl rfl rfl]
  rw [decodeNode, fld_of hw hs 28 4 9 rfl rfl rfl]
  show (match decodeMatrix w with | some i => Except.ok i | none => _) = _
  rw [e]

theorem mzero (a : BitVec 6) (b : BitVec 6) (m : BitVec 2) (o : BitVec 8) : Statement (.mzero a b m o) := by
  intro wf w h
  have hw : place 0x90C00000 (List.map Slot.pair [⟨16, 6, a⟩, ⟨10, 6, b⟩, ⟨8, 2, m⟩, ⟨0, 8, o⟩]) = w := Option.some.inj h
  have hs : shape [⟨16, 6, a⟩, ⟨10, 6, b⟩, ⟨8, 2, m⟩, ⟨0, 8, o⟩] = [(16, 6), (10, 6), (8, 2), (0, 8)] := rfl
  refine .inr (.inr (.inl ?_))
  have e : decodeMatrix w = some (.mzero a b m o) := by
    rw [decodeMatrix, fld_of hw hs 22 6 3 rfl rfl rfl]
    show some _ = _
    rw [fbv_of hw hs 0 16 6 a rfl rfl rfl, fbv_of hw hs 1 10 6 b rfl rfl rfl, fbv_of hw hs 2 8 2 m rfl rfl rfl, fbv_of hw hs 3 0 8 o rfl rfl rfl]
  rw [decodeNode, fld_of hw hs 28 4 9 rfl rfl rfl]
  show (match decodeMatrix w with | some i => Except.ok i | none => _) = _
  rw [e]

theorem oadd (a : BitVec 6) (b : BitVec 6) (m : BitVec 2) (o : BitVec 8) : Statement (.oadd a b m o) := by
  intro wf w h
  have hw : place 0xA0000000 (List.map Slot.pair [⟨16, 6, a⟩, ⟨10, 6, b⟩, ⟨8, 2, m⟩, ⟨0, 8, o⟩]) = w := Option.some.inj h
  have hs : shape [⟨16, 6, a⟩, ⟨10, 6, b⟩, ⟨8, 2, m⟩, ⟨0, 8, o⟩] = [(16, 6), (10, 6), (8, 2), (0, 8)] := rfl
  refine .inr (.inr (.inl ?_))
  have e : decodeOnline w = some (.oadd a b m o) := by
    rw [decodeOnline, fld_of hw hs 22 6 0 rfl rfl rfl]
    show some _ = _
    rw [fbv_of hw hs 0 16 6 a rfl rfl rfl, fbv_of hw hs 1 10 6 b rfl rfl rfl, fbv_of hw hs 2 8 2 m rfl rfl rfl, fbv_of hw hs 3 0 8 o rfl rfl rfl]
  rw [decodeNode, fld_of hw hs 28 4 10 rfl rfl rfl]
  show (match decodeOnline w with | some i => Except.ok i | none => _) = _
  rw [e]

theorem omul (a : BitVec 6) (b : BitVec 6) (m : BitVec 2) (o : BitVec 8) : Statement (.omul a b m o) := by
  intro wf w h
  have hw : place 0xA0400000 (List.map Slot.pair [⟨16, 6, a⟩, ⟨10, 6, b⟩, ⟨8, 2, m⟩, ⟨0, 8, o⟩]) = w := Option.some.inj h
  have hs : shape [⟨16, 6, a⟩, ⟨10, 6, b⟩, ⟨8, 2, m⟩, ⟨0, 8, o⟩] = [(16, 6), (10, 6), (8, 2), (0, 8)] := rfl
  refine .inr (.inr (.inl ?_))
  have e : decodeOnline w = some (.omul a b m o) := by
    rw [decodeOnline, fld_of hw hs 22 6 1 rfl rfl rfl]
    show some _ = _
    rw [fbv_of hw hs 0 16 6 a rfl rfl rfl, fbv_of hw hs 1 10 6 b rfl rfl rfl, fbv_of hw hs 2 8 2 m rfl rfl rfl, fbv_of hw hs 3 0 8 o rfl rfl rfl]
  rw [decodeNode, fld_of hw hs 28 4 10 rfl rfl rfl]
  show (match decodeOnline w with | some i => Except.ok i | none => _) = _
  rw [e]

theorem omac (a : BitVec 6) (b : BitVec 6) (m : BitVec 2) (o : BitVec 8) : Statement (.omac a b m o) := by
  intro wf w h
  have hw : place 0xA0800000 (List.map Slot.pair [⟨16, 6, a⟩, ⟨10, 6, b⟩, ⟨8, 2, m⟩, ⟨0, 8, o⟩]) = w := Option.some.inj h
  have hs : shape [⟨16, 6, a⟩, ⟨10, 6, b⟩, ⟨8, 2, m⟩, ⟨0, 8, o⟩] = [(16, 6), (10, 6), (8, 2), (0, 8)] := rfl
  refine .inr (.inr (.inl ?_))
  have e : decodeOnline w = some (.omac a b m o) := by
    rw [decodeOnline, fld_of hw hs 22 6 2 rfl rfl rfl]
    show some _ = _
    rw [fbv_of hw hs 0 16 6 a rfl rfl rfl, fbv_of hw hs 1 10 6 b rfl rfl rfl, fbv_of hw hs 2 8 2 m rfl rfl rfl, fbv_of hw hs 3 0 8 o rfl rfl rfl]
  rw [decodeNode, fld_of hw hs 28 4 10 rfl rfl rfl]
  show (match decodeOnline w with | some i => Except.ok i | none => _) = _
  rw [e]

theorem ocut (a : BitVec 6) (b : BitVec 6) (m : BitVec 2) (o : BitVec 8) : Statement (.ocut a b m o) := by
  intro wf w h
  have hw : place 0xA0C00000 (List.map Slot.pair [⟨16, 6, a⟩, ⟨10, 6, b⟩, ⟨8, 2, m⟩, ⟨0, 8, o⟩]) = w := Option.some.inj h
  have hs : shape [⟨16, 6, a⟩, ⟨10, 6, b⟩, ⟨8, 2, m⟩, ⟨0, 8, o⟩] = [(16, 6), (10, 6), (8, 2), (0, 8)] := rfl
  refine .inr (.inr (.inl ?_))
  have e : decodeOnline w = some (.ocut a b m o) := by
    rw [decodeOnline, fld_of hw hs 22 6 3 rfl rfl rfl]
    show some _ = _
    rw [fbv_of hw hs 0 16 6 a rfl rfl rfl, fbv_of hw hs 1 10 6 b rfl rfl rfl, fbv_of hw hs 2 8 2 m rfl rfl rfl, fbv_of hw hs 3 0 8 o rfl rfl rfl]
  rw [decodeNode, fld_of hw hs 28 4 10 rfl rfl rfl]
  show (match decodeOnline w with | some i => Except.ok i | none => _) = _
  rw [e]

theorem oconv (a : BitVec 6) (b : BitVec 6) (m : BitVec 2) (r : BitVec 3) (vl : BitVec 1) (p : BitVec 4) : Statement (.oconv a b m r vl p) := by
  intro wf w h
  have hw : place 0xA1000000 (List.map Slot.pair [⟨16, 6, a⟩, ⟨10, 6, b⟩, ⟨8, 2, m⟩, ⟨5, 3, r⟩, ⟨4, 1, vl⟩, ⟨0, 4, p⟩]) = w := Option.some.inj h
  have hs : shape [⟨16, 6, a⟩, ⟨10, 6, b⟩, ⟨8, 2, m⟩, ⟨5, 3, r⟩, ⟨4, 1, vl⟩, ⟨0, 4, p⟩] = [(16, 6), (10, 6), (8, 2), (5, 3), (4, 1), (0, 4)] := rfl
  refine .inr (.inr (.inl ?_))
  have e : decodeOnline w = some (.oconv a b m r vl p) := by
    rw [decodeOnline, fld_of hw hs 22 6 4 rfl rfl rfl]
    show some _ = _
    rw [fbv_of hw hs 0 16 6 a rfl rfl rfl, fbv_of hw hs 1 10 6 b rfl rfl rfl, fbv_of hw hs 2 8 2 m rfl rfl rfl, fbv_of hw hs 3 5 3 r rfl rfl rfl, fbv_of hw hs 4 4 1 vl rfl rfl rfl, fbv_of hw hs 5 0 4 p rfl rfl rfl]
  rw [decodeNode, fld_of hw hs 28 4 10 rfl rfl rfl]
  show (match decodeOnline w with | some i => Except.ok i | none => _) = _
  rw [e]

theorem cvt (a : BitVec 6) (b : BitVec 6) (m : BitVec 2) (r : BitVec 3) (vl : BitVec 1) (p : BitVec 4) : Statement (.cvt a b m r vl p) := by
  intro wf w h
  have hw : place 0xB0000000 (List.map Slot.pair [⟨16, 6, a⟩, ⟨10, 6, b⟩, ⟨8, 2, m⟩, ⟨5, 3, r⟩, ⟨4, 1, vl⟩, ⟨0, 4, p⟩]) = w := Option.some.inj h
  have hs : shape [⟨16, 6, a⟩, ⟨10, 6, b⟩, ⟨8, 2, m⟩, ⟨5, 3, r⟩, ⟨4, 1, vl⟩, ⟨0, 4, p⟩] = [(16, 6), (10, 6), (8, 2), (5, 3), (4, 1), (0, 4)] := rfl
  refine .inr (.inr (.inl ?_))
  have e : decodeConvert w = some (.cvt a b m r vl p) := by
    rw [decodeConvert, fld_of hw hs 22 6 0 rfl rfl rfl]
    show some _ = _
    rw [fbv_of hw hs 0 16 6 a rfl rfl rfl, fbv_of hw hs 1 10 6 b rfl rfl rfl, fbv_of hw hs 2 8 2 m rfl rfl rfl, fbv_of hw hs 3 5 3 r rfl rfl rfl, fbv_of hw hs 4 4 1 vl rfl rfl rfl, fbv_of hw hs 5 0 4 p rfl rfl rfl]
  rw [decodeNode, fld_of hw hs 28 4 11 rfl rfl rfl]
  show (match decodeConvert w with | some i => Except.ok i | none => _) = _
  rw [e]

theorem rsc (a : BitVec 6) (b : BitVec 6) (m : BitVec 2) (r : BitVec 3) (vl : BitVec 1) (p : BitVec 4) : Statement (.rsc a b m r vl p) := by
  intro wf w h
  have hw : place 0xB0400000 (List.map Slot.pair [⟨16, 6, a⟩, ⟨10, 6, b⟩, ⟨8, 2, m⟩, ⟨5, 3, r⟩, ⟨4, 1, vl⟩, ⟨0, 4, p⟩]) = w := Option.some.inj h
  have hs : shape [⟨16, 6, a⟩, ⟨10, 6, b⟩, ⟨8, 2, m⟩, ⟨5, 3, r⟩, ⟨4, 1, vl⟩, ⟨0, 4, p⟩] = [(16, 6), (10, 6), (8, 2), (5, 3), (4, 1), (0, 4)] := rfl
  refine .inr (.inr (.inl ?_))
  have e : decodeConvert w = some (.rsc a b m r vl p) := by
    rw [decodeConvert, fld_of hw hs 22 6 1 rfl rfl rfl]
    show some _ = _
    rw [fbv_of hw hs 0 16 6 a rfl rfl rfl, fbv_of hw hs 1 10 6 b rfl rfl rfl, fbv_of hw hs 2 8 2 m rfl rfl rfl, fbv_of hw hs 3 5 3 r rfl rfl rfl, fbv_of hw hs 4 4 1 vl rfl rfl rfl, fbv_of hw hs 5 0 4 p rfl rfl rfl]
  rw [decodeNode, fld_of hw hs 28 4 11 rfl rfl rfl]
  show (match decodeConvert w with | some i => Except.ok i | none => _) = _
  rw [e]

theorem pack (a : BitVec 6) (b : BitVec 6) (m : BitVec 2) (r : BitVec 3) (vl : BitVec 1) (p : BitVec 4) : Statement (.pack a b m r vl p) := by
  intro wf w h
  have hw : place 0xB0800000 (List.map Slot.pair [⟨16, 6, a⟩, ⟨10, 6, b⟩, ⟨8, 2, m⟩, ⟨5, 3, r⟩, ⟨4, 1, vl⟩, ⟨0, 4, p⟩]) = w := Option.some.inj h
  have hs : shape [⟨16, 6, a⟩, ⟨10, 6, b⟩, ⟨8, 2, m⟩, ⟨5, 3, r⟩, ⟨4, 1, vl⟩, ⟨0, 4, p⟩] = [(16, 6), (10, 6), (8, 2), (5, 3), (4, 1), (0, 4)] := rfl
  refine .inr (.inr (.inl ?_))
  have e : decodeConvert w = some (.pack a b m r vl p) := by
    rw [decodeConvert, fld_of hw hs 22 6 2 rfl rfl rfl]
    show some _ = _
    rw [fbv_of hw hs 0 16 6 a rfl rfl rfl, fbv_of hw hs 1 10 6 b rfl rfl rfl, fbv_of hw hs 2 8 2 m rfl rfl rfl, fbv_of hw hs 3 5 3 r rfl rfl rfl, fbv_of hw hs 4 4 1 vl rfl rfl rfl, fbv_of hw hs 5 0 4 p rfl rfl rfl]
  rw [decodeNode, fld_of hw hs 28 4 11 rfl rfl rfl]
  show (match decodeConvert w with | some i => Except.ok i | none => _) = _
  rw [e]

theorem unpack (a : BitVec 6) (b : BitVec 6) (m : BitVec 2) (o : BitVec 8) : Statement (.unpack a b m o) := by
  intro wf w h
  have hw : place 0xB0C00000 (List.map Slot.pair [⟨16, 6, a⟩, ⟨10, 6, b⟩, ⟨8, 2, m⟩, ⟨0, 8, o⟩]) = w := Option.some.inj h
  have hs : shape [⟨16, 6, a⟩, ⟨10, 6, b⟩, ⟨8, 2, m⟩, ⟨0, 8, o⟩] = [(16, 6), (10, 6), (8, 2), (0, 8)] := rfl
  refine .inr (.inr (.inl ?_))
  have e : decodeConvert w = some (.unpack a b m o) := by
    rw [decodeConvert, fld_of hw hs 22 6 3 rfl rfl rfl]
    show some _ = _
    rw [fbv_of hw hs 0 16 6 a rfl rfl rfl, fbv_of hw hs 1 10 6 b rfl rfl rfl, fbv_of hw hs 2 8 2 m rfl rfl rfl, fbv_of hw hs 3 0 8 o rfl rfl rfl]
  rw [decodeNode, fld_of hw hs 28 4 11 rfl rfl rfl]
  show (match decodeConvert w with | some i => Except.ok i | none => _) = _
  rw [e]

theorem stat (a : BitVec 6) (b : BitVec 6) (m : BitVec 2) (o : BitVec 8) : Statement (.stat a b m o) := by
  intro wf w h
  have hw : place 0xB1000000 (List.map Slot.pair [⟨16, 6, a⟩, ⟨10, 6, b⟩, ⟨8, 2, m⟩, ⟨0, 8, o⟩]) = w := Option.some.inj h
  have hs : shape [⟨16, 6, a⟩, ⟨10, 6, b⟩, ⟨8, 2, m⟩, ⟨0, 8, o⟩] = [(16, 6), (10, 6), (8, 2), (0, 8)] := rfl
  refine .inr (.inr (.inl ?_))
  have e : decodeConvert w = some (.stat a b m o) := by
    rw [decodeConvert, fld_of hw hs 22 6 4 rfl rfl rfl]
    show some _ = _
    rw [fbv_of hw hs 0 16 6 a rfl rfl rfl, fbv_of hw hs 1 10 6 b rfl rfl rfl, fbv_of hw hs 2 8 2 m rfl rfl rfl, fbv_of hw hs 3 0 8 o rfl rfl rfl]
  rw [decodeNode, fld_of hw hs 28 4 11 rfl rfl rfl]
  show (match decodeConvert w with | some i => Except.ok i | none => _) = _
  rw [e]

theorem polImm (d : BitVec 3) (vl : BitVec 8) : Statement (.polImm d vl) := by
  intro wf w h
  have hw : place 0x0800 (List.map Slot.pair [⟨8, 3, d⟩, ⟨0, 8, vl⟩]) = w := Option.some.inj h
  have hs : shape [⟨8, 3, d⟩, ⟨0, 8, vl⟩] = [(8, 3), (0, 8)] := rfl
  refine .inr (.inr (.inr ?_))
  rw [decodePolicy, fld_of hw hs 11 5 1 rfl rfl rfl]
  show policyGate _ _ = _
  rw [fbv_of hw hs 0 8 3 d rfl rfl rfl,
    fbv_of hw hs 1 0 8 vl rfl rfl rfl]
  exact policyGate_ok rfl wf

theorem polFld (d : BitVec 3) (f : BitVec 5) : Statement (.polFld d f) := by
  intro wf w h
  have hw : place 0x1000 (List.map Slot.pair [⟨8, 3, d⟩, ⟨0, 5, f⟩]) = w := Option.some.inj h
  have hs : shape [⟨8, 3, d⟩, ⟨0, 5, f⟩] = [(8, 3), (0, 5)] := rfl
  refine .inr (.inr (.inr ?_))
  rw [decodePolicy, fld_of hw hs 11 5 2 rfl rfl rfl]
  show policyGate _ _ = _
  rw [fld_of hw hs 5 3 0 rfl rfl rfl,
    fbv_of hw hs 0 8 3 d rfl rfl rfl,
    fbv_of hw hs 1 0 5 f rfl rfl rfl]
  exact policyGate_ok rfl wf

theorem polSld (d : BitVec 3) (f : BitVec 5) : Statement (.polSld d f) := by
  intro wf w h
  have hw : place 0x1800 (List.map Slot.pair [⟨8, 3, d⟩, ⟨0, 5, f⟩]) = w := Option.some.inj h
  have hs : shape [⟨8, 3, d⟩, ⟨0, 5, f⟩] = [(8, 3), (0, 5)] := rfl
  refine .inr (.inr (.inr ?_))
  rw [decodePolicy, fld_of hw hs 11 5 3 rfl rfl rfl]
  show policyGate _ _ = _
  rw [fld_of hw hs 5 3 0 rfl rfl rfl,
    fbv_of hw hs 0 8 3 d rfl rfl rfl,
    fbv_of hw hs 1 0 5 f rfl rfl rfl]
  exact policyGate_ok rfl wf

theorem polPlus (d : BitVec 3) (sn : BitVec 3) : Statement (.polPlus d sn) := by
  intro wf w h
  have hw : place 0x2000 (List.map Slot.pair [⟨8, 3, d⟩, ⟨5, 3, sn⟩]) = w := Option.some.inj h
  have hs : shape [⟨8, 3, d⟩, ⟨5, 3, sn⟩] = [(8, 3), (5, 3)] := rfl
  refine .inr (.inr (.inr ?_))
  rw [decodePolicy, fld_of hw hs 11 5 4 rfl rfl rfl]
  show policyGate _ _ = _
  rw [fld_of hw hs 0 5 0 rfl rfl rfl,
    fbv_of hw hs 0 8 3 d rfl rfl rfl,
    fbv_of hw hs 1 5 3 sn rfl rfl rfl]
  exact policyGate_ok rfl wf

theorem polMinus (d : BitVec 3) (sn : BitVec 3) : Statement (.polMinus d sn) := by
  intro wf w h
  have hw : place 0x2800 (List.map Slot.pair [⟨8, 3, d⟩, ⟨5, 3, sn⟩]) = w := Option.some.inj h
  have hs : shape [⟨8, 3, d⟩, ⟨5, 3, sn⟩] = [(8, 3), (5, 3)] := rfl
  refine .inr (.inr (.inr ?_))
  rw [decodePolicy, fld_of hw hs 11 5 5 rfl rfl rfl]
  show policyGate _ _ = _
  rw [fld_of hw hs 0 5 0 rfl rfl rfl,
    fbv_of hw hs 0 8 3 d rfl rfl rfl,
    fbv_of hw hs 1 5 3 sn rfl rfl rfl]
  exact policyGate_ok rfl wf

theorem polLow (d : BitVec 3) (sn : BitVec 3) : Statement (.polLow d sn) := by
  intro wf w h
  have hw : place 0x3000 (List.map Slot.pair [⟨8, 3, d⟩, ⟨5, 3, sn⟩]) = w := Option.some.inj h
  have hs : shape [⟨8, 3, d⟩, ⟨5, 3, sn⟩] = [(8, 3), (5, 3)] := rfl
  refine .inr (.inr (.inr ?_))
  rw [decodePolicy, fld_of hw hs 11 5 6 rfl rfl rfl]
  show policyGate _ _ = _
  rw [fld_of hw hs 0 5 0 rfl rfl rfl,
    fbv_of hw hs 0 8 3 d rfl rfl rfl,
    fbv_of hw hs 1 5 3 sn rfl rfl rfl]
  exact policyGate_ok rfl wf

theorem polHigh (d : BitVec 3) (sn : BitVec 3) : Statement (.polHigh d sn) := by
  intro wf w h
  have hw : place 0x3800 (List.map Slot.pair [⟨8, 3, d⟩, ⟨5, 3, sn⟩]) = w := Option.some.inj h
  have hs : shape [⟨8, 3, d⟩, ⟨5, 3, sn⟩] = [(8, 3), (5, 3)] := rfl
  refine .inr (.inr (.inr ?_))
  rw [decodePolicy, fld_of hw hs 11 5 7 rfl rfl rfl]
  show policyGate _ _ = _
  rw [fld_of hw hs 0 5 0 rfl rfl rfl,
    fbv_of hw hs 0 8 3 d rfl rfl rfl,
    fbv_of hw hs 1 5 3 sn rfl rfl rfl]
  exact policyGate_ok rfl wf

theorem polBand (d : BitVec 3) (sn : BitVec 3) : Statement (.polBand d sn) := by
  intro wf w h
  have hw : place 0x4000 (List.map Slot.pair [⟨8, 3, d⟩, ⟨5, 3, sn⟩]) = w := Option.some.inj h
  have hs : shape [⟨8, 3, d⟩, ⟨5, 3, sn⟩] = [(8, 3), (5, 3)] := rfl
  refine .inr (.inr (.inr ?_))
  rw [decodePolicy, fld_of hw hs 11 5 8 rfl rfl rfl]
  show policyGate _ _ = _
  rw [fld_of hw hs 0 5 0 rfl rfl rfl,
    fbv_of hw hs 0 8 3 d rfl rfl rfl,
    fbv_of hw hs 1 5 3 sn rfl rfl rfl]
  exact policyGate_ok rfl wf

theorem polBor (d : BitVec 3) (sn : BitVec 3) : Statement (.polBor d sn) := by
  intro wf w h
  have hw : place 0x4800 (List.map Slot.pair [⟨8, 3, d⟩, ⟨5, 3, sn⟩]) = w := Option.some.inj h
  have hs : shape [⟨8, 3, d⟩, ⟨5, 3, sn⟩] = [(8, 3), (5, 3)] := rfl
  refine .inr (.inr (.inr ?_))
  rw [decodePolicy, fld_of hw hs 11 5 9 rfl rfl rfl]
  show policyGate _ _ = _
  rw [fld_of hw hs 0 5 0 rfl rfl rfl,
    fbv_of hw hs 0 8 3 d rfl rfl rfl,
    fbv_of hw hs 1 5 3 sn rfl rfl rfl]
  exact policyGate_ok rfl wf

theorem polLsl (d : BitVec 3) (n : BitVec 5) : Statement (.polLsl d n) := by
  intro wf w h
  have hw : place 0x5000 (List.map Slot.pair [⟨8, 3, d⟩, ⟨0, 5, n⟩]) = w := Option.some.inj h
  have hs : shape [⟨8, 3, d⟩, ⟨0, 5, n⟩] = [(8, 3), (0, 5)] := rfl
  refine .inr (.inr (.inr ?_))
  rw [decodePolicy, fld_of hw hs 11 5 10 rfl rfl rfl]
  show policyGate _ _ = _
  rw [fld_of hw hs 5 3 0 rfl rfl rfl,
    fbv_of hw hs 0 8 3 d rfl rfl rfl,
    fbv_of hw hs 1 0 5 n rfl rfl rfl]
  exact policyGate_ok rfl wf

theorem polLsr (d : BitVec 3) (n : BitVec 5) : Statement (.polLsr d n) := by
  intro wf w h
  have hw : place 0x5800 (List.map Slot.pair [⟨8, 3, d⟩, ⟨0, 5, n⟩]) = w := Option.some.inj h
  have hs : shape [⟨8, 3, d⟩, ⟨0, 5, n⟩] = [(8, 3), (0, 5)] := rfl
  refine .inr (.inr (.inr ?_))
  rw [decodePolicy, fld_of hw hs 11 5 11 rfl rfl rfl]
  show policyGate _ _ = _
  rw [fld_of hw hs 5 3 0 rfl rfl rfl,
    fbv_of hw hs 0 8 3 d rfl rfl rfl,
    fbv_of hw hs 1 0 5 n rfl rfl rfl]
  exact policyGate_ok rfl wf

theorem polTestEq (d : BitVec 3) (sn : BitVec 3) : Statement (.polTestEq d sn) := by
  intro wf w h
  have hw : place 0x6000 (List.map Slot.pair [⟨8, 3, d⟩, ⟨5, 3, sn⟩]) = w := Option.some.inj h
  have hs : shape [⟨8, 3, d⟩, ⟨5, 3, sn⟩] = [(8, 3), (5, 3)] := rfl
  refine .inr (.inr (.inr ?_))
  rw [decodePolicy, fld_of hw hs 11 5 12 rfl rfl rfl]
  show (if fld w 0 2 != 0 then _ else match fld w 2 3 with | 0 => _ | 1 => _ | 2 => _ | 3 => _ | 4 => _ | 5 => _ | _ => _) = _
  rw [fld_of hw hs 0 2 0 rfl rfl rfl, fld_of hw hs 2 3 0 rfl rfl rfl]
  show Except.ok _ = _
  rw [fbv_of hw hs 0 8 3 d rfl rfl rfl, fbv_of hw hs 1 5 3 sn rfl rfl rfl]

theorem polTestNe (d : BitVec 3) (sn : BitVec 3) : Statement (.polTestNe d sn) := by
  intro wf w h
  have hw : place 0x6004 (List.map Slot.pair [⟨8, 3, d⟩, ⟨5, 3, sn⟩]) = w := Option.some.inj h
  have hs : shape [⟨8, 3, d⟩, ⟨5, 3, sn⟩] = [(8, 3), (5, 3)] := rfl
  refine .inr (.inr (.inr ?_))
  rw [decodePolicy, fld_of hw hs 11 5 12 rfl rfl rfl]
  show (if fld w 0 2 != 0 then _ else match fld w 2 3 with | 0 => _ | 1 => _ | 2 => _ | 3 => _ | 4 => _ | 5 => _ | _ => _) = _
  rw [fld_of hw hs 0 2 0 rfl rfl rfl, fld_of hw hs 2 3 1 rfl rfl rfl]
  show Except.ok _ = _
  rw [fbv_of hw hs 0 8 3 d rfl rfl rfl, fbv_of hw hs 1 5 3 sn rfl rfl rfl]

theorem polTestLt (d : BitVec 3) (sn : BitVec 3) : Statement (.polTestLt d sn) := by
  intro wf w h
  have hw : place 0x6008 (List.map Slot.pair [⟨8, 3, d⟩, ⟨5, 3, sn⟩]) = w := Option.some.inj h
  have hs : shape [⟨8, 3, d⟩, ⟨5, 3, sn⟩] = [(8, 3), (5, 3)] := rfl
  refine .inr (.inr (.inr ?_))
  rw [decodePolicy, fld_of hw hs 11 5 12 rfl rfl rfl]
  show (if fld w 0 2 != 0 then _ else match fld w 2 3 with | 0 => _ | 1 => _ | 2 => _ | 3 => _ | 4 => _ | 5 => _ | _ => _) = _
  rw [fld_of hw hs 0 2 0 rfl rfl rfl, fld_of hw hs 2 3 2 rfl rfl rfl]
  show Except.ok _ = _
  rw [fbv_of hw hs 0 8 3 d rfl rfl rfl, fbv_of hw hs 1 5 3 sn rfl rfl rfl]

theorem polTestGe (d : BitVec 3) (sn : BitVec 3) : Statement (.polTestGe d sn) := by
  intro wf w h
  have hw : place 0x600C (List.map Slot.pair [⟨8, 3, d⟩, ⟨5, 3, sn⟩]) = w := Option.some.inj h
  have hs : shape [⟨8, 3, d⟩, ⟨5, 3, sn⟩] = [(8, 3), (5, 3)] := rfl
  refine .inr (.inr (.inr ?_))
  rw [decodePolicy, fld_of hw hs 11 5 12 rfl rfl rfl]
  show (if fld w 0 2 != 0 then _ else match fld w 2 3 with | 0 => _ | 1 => _ | 2 => _ | 3 => _ | 4 => _ | 5 => _ | _ => _) = _
  rw [fld_of hw hs 0 2 0 rfl rfl rfl, fld_of hw hs 2 3 3 rfl rfl rfl]
  show Except.ok _ = _
  rw [fbv_of hw hs 0 8 3 d rfl rfl rfl, fbv_of hw hs 1 5 3 sn rfl rfl rfl]

theorem polTestLtu (d : BitVec 3) (sn : BitVec 3) : Statement (.polTestLtu d sn) := by
  intro wf w h
  have hw : place 0x6010 (List.map Slot.pair [⟨8, 3, d⟩, ⟨5, 3, sn⟩]) = w := Option.some.inj h
  have hs : shape [⟨8, 3, d⟩, ⟨5, 3, sn⟩] = [(8, 3), (5, 3)] := rfl
  refine .inr (.inr (.inr ?_))
  rw [decodePolicy, fld_of hw hs 11 5 12 rfl rfl rfl]
  show (if fld w 0 2 != 0 then _ else match fld w 2 3 with | 0 => _ | 1 => _ | 2 => _ | 3 => _ | 4 => _ | 5 => _ | _ => _) = _
  rw [fld_of hw hs 0 2 0 rfl rfl rfl, fld_of hw hs 2 3 4 rfl rfl rfl]
  show Except.ok _ = _
  rw [fbv_of hw hs 0 8 3 d rfl rfl rfl, fbv_of hw hs 1 5 3 sn rfl rfl rfl]

theorem polTestGeu (d : BitVec 3) (sn : BitVec 3) : Statement (.polTestGeu d sn) := by
  intro wf w h
  have hw : place 0x6014 (List.map Slot.pair [⟨8, 3, d⟩, ⟨5, 3, sn⟩]) = w := Option.some.inj h
  have hs : shape [⟨8, 3, d⟩, ⟨5, 3, sn⟩] = [(8, 3), (5, 3)] := rfl
  refine .inr (.inr (.inr ?_))
  rw [decodePolicy, fld_of hw hs 11 5 12 rfl rfl rfl]
  show (if fld w 0 2 != 0 then _ else match fld w 2 3 with | 0 => _ | 1 => _ | 2 => _ | 3 => _ | 4 => _ | 5 => _ | _ => _) = _
  rw [fld_of hw hs 0 2 0 rfl rfl rfl, fld_of hw hs 2 3 5 rfl rfl rfl]
  show Except.ok _ = _
  rw [fbv_of hw hs 0 8 3 d rfl rfl rfl, fbv_of hw hs 1 5 3 sn rfl rfl rfl]

theorem polSkip (d : BitVec 8) : Statement (.polSkip d) := by
  intro wf w h
  have hw : place 0x8000 (List.map Slot.pair [⟨0, 8, d⟩]) = w := Option.some.inj h
  have hs : shape [⟨0, 8, d⟩] = [(0, 8)] := rfl
  refine .inr (.inr (.inr ?_))
  rw [decodePolicy, fld_of hw hs 11 5 16 rfl rfl rfl]
  show policyGate _ _ = _
  rw [fld_of hw hs 8 3 0 rfl rfl rfl,
    fbv_of hw hs 0 0 8 d rfl rfl rfl]
  exact policyGate_ok rfl wf

theorem polJump (d : BitVec 8) : Statement (.polJump d) := by
  intro wf w h
  have hw : place 0x8800 (List.map Slot.pair [⟨0, 8, d⟩]) = w := Option.some.inj h
  have hs : shape [⟨0, 8, d⟩] = [(0, 8)] := rfl
  refine .inr (.inr (.inr ?_))
  rw [decodePolicy, fld_of hw hs 11 5 17 rfl rfl rfl]
  show policyGate _ _ = _
  rw [fld_of hw hs 8 3 0 rfl rfl rfl,
    fbv_of hw hs 0 0 8 d rfl rfl rfl]
  exact policyGate_ok rfl wf

theorem polEach : Statement (.polEach) := by
  intro wf w h
  have hw : place 0x9000 (List.map Slot.pair []) = w := Option.some.inj h
  have hs : shape [] = [] := rfl
  refine .inr (.inr (.inr ?_))
  rw [decodePolicy, fld_of hw hs 11 5 18 rfl rfl rfl]
  show policyGate _ _ = _
  rw [fld_of hw hs 0 11 0 rfl rfl rfl]
  exact policyGate_ok rfl wf

theorem polNext (d : BitVec 8) : Statement (.polNext d) := by
  intro wf w h
  have hw : place 0x9800 (List.map Slot.pair [⟨0, 8, d⟩]) = w := Option.some.inj h
  have hs : shape [⟨0, 8, d⟩] = [(0, 8)] := rfl
  refine .inr (.inr (.inr ?_))
  rw [decodePolicy, fld_of hw hs 11 5 19 rfl rfl rfl]
  show policyGate _ _ = _
  rw [fld_of hw hs 8 3 0 rfl rfl rfl,
    fbv_of hw hs 0 0 8 d rfl rfl rfl]
  exact policyGate_ok rfl wf

theorem polPick (d : BitVec 3) : Statement (.polPick d) := by
  intro wf w h
  have hw : place 0xC000 (List.map Slot.pair [⟨8, 3, d⟩]) = w := Option.some.inj h
  have hs : shape [⟨8, 3, d⟩] = [(8, 3)] := rfl
  refine .inr (.inr (.inr ?_))
  rw [decodePolicy, fld_of hw hs 11 5 24 rfl rfl rfl]
  show policyGate _ _ = _
  rw [fld_of hw hs 0 8 0 rfl rfl rfl,
    fbv_of hw hs 0 8 3 d rfl rfl rfl]
  exact policyGate_ok rfl wf

theorem polDecide : Statement (.polDecide) := by
  intro wf w h
  have hw : place 0xC800 (List.map Slot.pair []) = w := Option.some.inj h
  have hs : shape [] = [] := rfl
  refine .inr (.inr (.inr ?_))
  rw [decodePolicy, fld_of hw hs 11 5 25 rfl rfl rfl]
  show policyGate _ _ = _
  rw [fld_of hw hs 0 11 0 rfl rfl rfl]
  exact policyGate_ok rfl wf

theorem polVeto : Statement (.polVeto) := by
  intro wf w h
  have hw : place 0xD000 (List.map Slot.pair []) = w := Option.some.inj h
  have hs : shape [] = [] := rfl
  refine .inr (.inr (.inr ?_))
  rw [decodePolicy, fld_of hw hs 11 5 26 rfl rfl rfl]
  show policyGate _ _ = _
  rw [fld_of hw hs 0 11 0 rfl rfl rfl]
  exact policyGate_ok rfl wf

theorem polStop : Statement (.polStop) := by
  intro wf w h
  have hw : place 0xD800 (List.map Slot.pair []) = w := Option.some.inj h
  have hs : shape [] = [] := rfl
  refine .inr (.inr (.inr ?_))
  rw [decodePolicy, fld_of hw hs 11 5 27 rfl rfl rfl]
  show policyGate _ _ = _
  rw [fld_of hw hs 0 11 0 rfl rfl rfl]
  exact policyGate_ok rfl wf

theorem kcmd (b : BitVec 5) (a : BitVec 5) (d : BitVec 5) : Statement (.kcmd b a d) := by
  intro wf w h
  have hw : place 0x0000000B (List.map Slot.pair [⟨20, 5, b⟩, ⟨15, 5, a⟩, ⟨7, 5, d⟩]) = w := Option.some.inj h
  have hs : shape [⟨20, 5, b⟩, ⟨15, 5, a⟩, ⟨7, 5, d⟩] = [(20, 5), (15, 5), (7, 5)] := rfl
  refine .inr (.inl ?_)
  rw [decodeRm, fld_of hw hs 0 7 11 rfl rfl rfl]
  show (match fld w 12 3 with | 0 => _ | 1 => _ | 2 => _ | 3 => _ | _ => _) = _
  rw [fld_of hw hs 12 3 0 rfl rfl rfl]
  show rmGate _ _ = _
  rw [fld_of hw hs 25 7 0 rfl rfl rfl,
    fbv_of hw hs 0 20 5 b rfl rfl rfl,
    fbv_of hw hs 1 15 5 a rfl rfl rfl,
    fbv_of hw hs 2 7 5 d rfl rfl rfl]
  exact rmGate_ok rfl

theorem kfence (a : BitVec 5) : Statement (.kfence a) := by
  intro wf w h
  have hw : place 0x0000100B (List.map Slot.pair [⟨15, 5, a⟩]) = w := Option.some.inj h
  have hs : shape [⟨15, 5, a⟩] = [(15, 5)] := rfl
  refine .inr (.inl ?_)
  rw [decodeRm, fld_of hw hs 0 7 11 rfl rfl rfl]
  show (match fld w 12 3 with | 0 => _ | 1 => _ | 2 => _ | 3 => _ | _ => _) = _
  rw [fld_of hw hs 12 3 1 rfl rfl rfl]
  show rmGate _ _ = _
  rw [fld_of hw hs 7 5 0 rfl rfl rfl,
    fld_of hw hs 20 12 0 rfl rfl rfl,
    fbv_of hw hs 0 15 5 a rfl rfl rfl]
  exact rmGate_ok rfl

theorem kpoll (a : BitVec 5) (d : BitVec 5) : Statement (.kpoll a d) := by
  intro wf w h
  have hw : place 0x0000200B (List.map Slot.pair [⟨15, 5, a⟩, ⟨7, 5, d⟩]) = w := Option.some.inj h
  have hs : shape [⟨15, 5, a⟩, ⟨7, 5, d⟩] = [(15, 5), (7, 5)] := rfl
  refine .inr (.inl ?_)
  rw [decodeRm, fld_of hw hs 0 7 11 rfl rfl rfl]
  show (match fld w 12 3 with | 0 => _ | 1 => _ | 2 => _ | 3 => _ | _ => _) = _
  rw [fld_of hw hs 12 3 2 rfl rfl rfl]
  show rmGate _ _ = _
  rw [fld_of hw hs 20 12 0 rfl rfl rfl,
    fbv_of hw hs 0 15 5 a rfl rfl rfl,
    fbv_of hw hs 1 7 5 d rfl rfl rfl]
  exact rmGate_ok rfl

theorem kqst (b : BitVec 5) (d : BitVec 5) : Statement (.kqst b d) := by
  intro wf w h
  have hw : place 0x0000300B (List.map Slot.pair [⟨20, 5, b⟩, ⟨7, 5, d⟩]) = w := Option.some.inj h
  have hs : shape [⟨20, 5, b⟩, ⟨7, 5, d⟩] = [(20, 5), (7, 5)] := rfl
  refine .inr (.inl ?_)
  rw [decodeRm, fld_of hw hs 0 7 11 rfl rfl rfl]
  show (match fld w 12 3 with | 0 => _ | 1 => _ | 2 => _ | 3 => _ | _ => _) = _
  rw [fld_of hw hs 12 3 3 rfl rfl rfl]
  show rmGate _ _ = _
  rw [fld_of hw hs 15 5 0 rfl rfl rfl,
    fld_of hw hs 25 7 0 rfl rfl rfl,
    fbv_of hw hs 0 20 5 b rfl rfl rfl,
    fbv_of hw hs 1 7 5 d rfl rfl rfl]
  exact rmGate_ok rfl

theorem khaltHalt (a : BitVec 5) : Statement (.khaltHalt a) := by
  intro wf w h
  have hw : place 0x0000002B (List.map Slot.pair [⟨15, 5, a⟩]) = w := Option.some.inj h
  have hs : shape [⟨15, 5, a⟩] = [(15, 5)] := rfl
  refine .inr (.inl ?_)
  rw [decodeRm, fld_of hw hs 0 7 43 rfl rfl rfl]
  show (match fld w 12 3 with | 0 => _ | 1 => _ | 2 => _ | 3 => _ | _ => _) = _
  rw [fld_of hw hs 12 3 0 rfl rfl rfl]
  show rmGate _ _ = _
  rw [fld_of hw hs 7 5 0 rfl rfl rfl,
    fld_of hw hs 20 12 0 rfl rfl rfl,
    fbv_of hw hs 0 15 5 a rfl rfl rfl]
  exact rmGate_ok rfl

theorem khaltResume (a : BitVec 5) : Statement (.khaltResume a) := by
  intro wf w h
  have hw : place 0x0000002B (List.map Slot.pair [⟨15, 5, a⟩]) = w := Option.some.inj h
  have hs : shape [⟨15, 5, a⟩] = [(15, 5)] := rfl
  refine .inr (.inl ?_)
  rw [decodeRm, fld_of hw hs 0 7 43 rfl rfl rfl]
  show (match fld w 12 3 with | 0 => _ | 1 => _ | 2 => _ | 3 => _ | _ => _) = _
  rw [fld_of hw hs 12 3 0 rfl rfl rfl]
  show rmGate _ _ = _
  rw [fld_of hw hs 7 5 0 rfl rfl rfl,
    fld_of hw hs 20 12 0 rfl rfl rfl,
    fbv_of hw hs 0 15 5 a rfl rfl rfl]
  exact rmGate_ok rfl

theorem kpeek (a : BitVec 5) (d : BitVec 5) : Statement (.kpeek a d) := by
  intro wf w h
  have hw : place 0x0000102B (List.map Slot.pair [⟨15, 5, a⟩, ⟨7, 5, d⟩]) = w := Option.some.inj h
  have hs : shape [⟨15, 5, a⟩, ⟨7, 5, d⟩] = [(15, 5), (7, 5)] := rfl
  refine .inr (.inl ?_)
  rw [decodeRm, fld_of hw hs 0 7 43 rfl rfl rfl]
  show (match fld w 12 3 with | 0 => _ | 1 => _ | 2 => _ | 3 => _ | _ => _) = _
  rw [fld_of hw hs 12 3 1 rfl rfl rfl]
  show rmGate _ _ = _
  rw [fld_of hw hs 20 12 0 rfl rfl rfl,
    fbv_of hw hs 0 15 5 a rfl rfl rfl,
    fbv_of hw hs 1 7 5 d rfl rfl rfl]
  exact rmGate_ok rfl

theorem kreplay (b : BitVec 5) (a : BitVec 5) : Statement (.kreplay b a) := by
  intro wf w h
  have hw : place 0x0000202B (List.map Slot.pair [⟨20, 5, b⟩, ⟨15, 5, a⟩]) = w := Option.some.inj h
  have hs : shape [⟨20, 5, b⟩, ⟨15, 5, a⟩] = [(20, 5), (15, 5)] := rfl
  refine .inr (.inl ?_)
  rw [decodeRm, fld_of hw hs 0 7 43 rfl rfl rfl]
  show (match fld w 12 3 with | 0 => _ | 1 => _ | 2 => _ | 3 => _ | _ => _) = _
  rw [fld_of hw hs 12 3 2 rfl rfl rfl]
  show rmGate _ _ = _
  rw [fld_of hw hs 7 5 0 rfl rfl rfl,
    fld_of hw hs 25 7 0 rfl rfl rfl,
    fbv_of hw hs 0 20 5 b rfl rfl rfl,
    fbv_of hw hs 1 15 5 a rfl rfl rfl]
  exact rmGate_ok rfl

theorem kbbx (a : BitVec 5) (d : BitVec 5) : Statement (.kbbx a d) := by
  intro wf w h
  have hw : place 0x0000302B (List.map Slot.pair [⟨15, 5, a⟩, ⟨7, 5, d⟩]) = w := Option.some.inj h
  have hs : shape [⟨15, 5, a⟩, ⟨7, 5, d⟩] = [(15, 5), (7, 5)] := rfl
  refine .inr (.inl ?_)
  rw [decodeRm, fld_of hw hs 0 7 43 rfl rfl rfl]
  show (match fld w 12 3 with | 0 => _ | 1 => _ | 2 => _ | 3 => _ | _ => _) = _
  rw [fld_of hw hs 12 3 3 rfl rfl rfl]
  show rmGate _ _ = _
  rw [fld_of hw hs 20 12 0 rfl rfl rfl,
    fbv_of hw hs 0 15 5 a rfl rfl rfl,
    fbv_of hw hs 1 7 5 d rfl rfl rfl]
  exact rmGate_ok rfl

theorem wordNotAnInstruction (wd : Word32) : Statement (.wordNotAnInstruction wd) := fun _ _ h => nomatch h

theorem illegalInstructionException (wd : Word32) : Statement (.illegalInstructionException wd) := fun _ _ h => nomatch h

theorem getComplete (q : BitVec 7) : Statement (.getComplete q) := fun _ _ h => nomatch h

theorem accrComplete (q : BitVec 7) : Statement (.accrComplete q) := fun _ _ h => nomatch h

theorem recvComplete (q : BitVec 7) : Statement (.recvComplete q) := fun _ _ h => nomatch h

theorem barwComplete (q : BitVec 7) : Statement (.barwComplete q) := fun _ _ h => nomatch h

theorem gwaitComplete (q : BitVec 7) : Statement (.gwaitComplete q) := fun _ _ h => nomatch h

theorem cfgchkComplete (q : BitVec 7) : Statement (.cfgchkComplete q) := fun _ _ h => nomatch h

theorem backOffEnd (q : BitVec 7) : Statement (.backOffEnd q) := fun _ _ h => nomatch h

theorem tokenForward (c : CellId) (k : BitVec 3) : Statement (.tokenForward c k) := fun _ _ h => nomatch h

theorem cellFlip (c : CellId) : Statement (.cellFlip c) := fun _ _ h => nomatch h

theorem cellMute (c : CellId) : Statement (.cellMute c) := fun _ _ h => nomatch h

theorem pulseArrival (k : Nat) : Statement (.pulseArrival k) := fun _ _ h => nomatch h

theorem tileAdmit (r : Nat) (sec : BitVec 6) : Statement (.tileAdmit r sec) := fun _ _ h => nomatch h

theorem tileEnd (r : Nat) (sec : BitVec 6) : Statement (.tileEnd r sec) := fun _ _ h => nomatch h

theorem queueOffer (src : CellId) (dst : CellId) : Statement (.queueOffer src dst) := fun _ _ h => nomatch h

theorem leaveShedding (q : QRef) : Statement (.leaveShedding q) := fun _ _ h => nomatch h

theorem spillReplay (q : QRef) : Statement (.spillReplay q) := fun _ _ h => nomatch h

theorem queueClosed (q : QRef) : Statement (.queueClosed q) := fun _ _ h => nomatch h

theorem accumulatorTake (q : BitVec 7) (n : BitVec 4) : Statement (.accumulatorTake q n) := fun _ _ h => nomatch h

theorem switchConvert (c : CellId) (inlet : BitVec 5) : Statement (.switchConvert c inlet) := fun _ _ h => nomatch h

theorem memportReadReturn (c : CellId) : Statement (.memportReadReturn c) := fun _ _ h => nomatch h

theorem atomicPerform (c : CellId) (k : Nat) : Statement (.atomicPerform c k) := fun _ _ h => nomatch h

theorem heldStoreRelease (c : CellId) : Statement (.heldStoreRelease c) := fun _ _ h => nomatch h

theorem memportOrder (c : CellId) : Statement (.memportOrder c) := fun _ _ h => nomatch h

theorem phaseOpen (c : CellId) : Statement (.phaseOpen c) := fun _ _ h => nomatch h

theorem lastPulse (c : CellId) : Statement (.lastPulse c) := fun _ _ h => nomatch h

theorem sliceAccess (k : Nat × Option (Nat × ScrubResult)) : Statement (.sliceAccess k) := fun _ _ h => nomatch h

theorem sliceCountReturn (c : CountPlace) (ph : BitVec 2) : Statement (.sliceCountReturn c ph) := fun _ _ h => nomatch h

theorem orderQuery (a : Acquirer) (k : Nat) : Statement (.orderQuery a k) := fun _ _ h => nomatch h

theorem orderQueryAnswer (k : Nat) : Statement (.orderQueryAnswer k) := fun _ _ h => nomatch h

theorem dispatchLoadComplete (r : Nat) : Statement (.dispatchLoadComplete r) := fun _ _ h => nomatch h

theorem configFetchComplete (r : Nat) (k : Nat) : Statement (.configFetchComplete r k) := fun _ _ h => nomatch h

theorem freezeLineArrival (c : CellId) (skid : BitVec 4) : Statement (.freezeLineArrival c skid) := fun _ _ h => nomatch h

theorem harpGrant (d : BitVec 3) (out : BitVec 9) (elapsed : Nat) : Statement (.harpGrant d out elapsed) := fun _ _ h => nomatch h

theorem egressOffer (c : CellId) (so : BitVec 5) : Statement (.egressOffer c so) := fun _ _ h => nomatch h

theorem cutComplete (r : Nat) : Statement (.cutComplete r) := fun _ _ h => nomatch h

theorem statAdderMerge (r : Nat) (x : BitVec 4) (y : BitVec 4) : Statement (.statAdderMerge r x y) := fun _ _ h => nomatch h

theorem statRootAdd (r : Nat) : Statement (.statRootAdd r) := fun _ _ h => nomatch h

theorem schedulerDecision (d : BitVec 3) : Statement (.schedulerDecision d) := fun _ _ h => nomatch h

theorem launchDescriptor (d : BitVec 3) : Statement (.launchDescriptor d) := fun _ _ h => nomatch h

theorem create (d : BitVec 3) : Statement (.create d) := fun _ _ h => nomatch h

theorem contextLoad (d : BitVec 3) : Statement (.contextLoad d) := fun _ _ h => nomatch h

theorem form (d : BitVec 3) : Statement (.form d) := fun _ _ h => nomatch h

theorem assign (d : BitVec 3) : Statement (.assign d) := fun _ _ h => nomatch h

theorem kfenceComplete (m : BitVec 10) : Statement (.kfenceComplete m) := fun _ _ h => nomatch h

theorem contextPreempt (d : BitVec 3) : Statement (.contextPreempt d) := fun _ _ h => nomatch h

theorem contextResume (d : BitVec 3) (ecc : Option (Nat × ScrubResult)) : Statement (.contextResume d ecc) := fun _ _ h => nomatch h

theorem terminate (d : BitVec 3) : Statement (.terminate d) := fun _ _ h => nomatch h

theorem setbudget (d : BitVec 3) : Statement (.setbudget d) := fun _ _ h => nomatch h

theorem dissolve (d : BitVec 3) : Statement (.dissolve d) := fun _ _ h => nomatch h

theorem policy (d : BitVec 3) : Statement (.policy d) := fun _ _ h => nomatch h

theorem invalidation (d : BitVec 3) : Statement (.invalidation d) := fun _ _ h => nomatch h

theorem transferCopy (d : BitVec 3) : Statement (.transferCopy d) := fun _ _ h => nomatch h

theorem conn (d : BitVec 3) : Statement (.conn d) := fun _ _ h => nomatch h

theorem close (d : BitVec 3) : Statement (.close d) := fun _ _ h => nomatch h

theorem transportWrite (d : BitVec 3) : Statement (.transportWrite d) := fun _ _ h => nomatch h

theorem transportRead (d : BitVec 3) : Statement (.transportRead d) := fun _ _ h => nomatch h

theorem transportSend (d : BitVec 3) : Statement (.transportSend d) := fun _ _ h => nomatch h

theorem reg (d : BitVec 3) : Statement (.reg d) := fun _ _ h => nomatch h

theorem dereg (d : BitVec 3) : Statement (.dereg d) := fun _ _ h => nomatch h

theorem recoverRerun (d : BitVec 3) : Statement (.recoverRerun d) := fun _ _ h => nomatch h

theorem recoverResume (d : BitVec 3) : Statement (.recoverResume d) := fun _ _ h => nomatch h

theorem recoverDeliver (d : BitVec 3) : Statement (.recoverDeliver d) := fun _ _ h => nomatch h

theorem recoverEnd (d : BitVec 3) : Statement (.recoverEnd d) := fun _ _ h => nomatch h

theorem linkEnable (d : BitVec 3) : Statement (.linkEnable d) := fun _ _ h => nomatch h

theorem linkDisable (d : BitVec 3) : Statement (.linkDisable d) := fun _ _ h => nomatch h

theorem watch (d : BitVec 3) : Statement (.watch d) := fun _ _ h => nomatch h

theorem remote (d : BitVec 3) : Statement (.remote d) := fun _ _ h => nomatch h

theorem quota (d : BitVec 3) : Statement (.quota d) := fun _ _ h => nomatch h

theorem lateen (d : BitVec 3) : Statement (.lateen d) := fun _ _ h => nomatch h

theorem mgmtReset (d : BitVec 3) : Statement (.mgmtReset d) := fun _ _ h => nomatch h

theorem peertab (d : BitVec 3) : Statement (.peertab d) := fun _ _ h => nomatch h

theorem hostringOpen (d : BitVec 3) : Statement (.hostringOpen d) := fun _ _ h => nomatch h

theorem hostringClose (d : BitVec 3) : Statement (.hostringClose d) := fun _ _ h => nomatch h

theorem hostRingTailWrite (e : BitVec 3) (d : BitVec 3) (tail : Word32) : Statement (.hostRingTailWrite e d tail) := fun _ _ h => nomatch h

theorem hostRingEntryTake (e : BitVec 3) (d : BitVec 3) : Statement (.hostRingEntryTake e d) := fun _ _ h => nomatch h

theorem hostBarWrite (bar2 : Bool) (off : BitVec 24) (vl : Word32) : Statement (.hostBarWrite bar2 off vl) := fun _ _ h => nomatch h

theorem functionReady (d : BitVec 3) (bit : BitVec 8) : Statement (.functionReady d bit) := fun _ _ h => nomatch h

theorem pageWalk (d : BitVec 3) (ctx : BitVec 9) (va : Word64) : Statement (.pageWalk d ctx va) := fun _ _ h => nomatch h

theorem retuneComplete (r : Nat) : Statement (.retuneComplete r) := fun _ _ h => nomatch h

theorem bridgeFrameReceive (d : BitVec 3) (edge : BitVec 2) (crcOk : Bool) : Statement (.bridgeFrameReceive d edge crcOk) := fun _ _ h => nomatch h

theorem bridgeRetryExhaustion (d : BitVec 3) (edge : BitVec 2) : Statement (.bridgeRetryExhaustion d edge) := fun _ _ h => nomatch h

theorem linkTrained (d : BitVec 3) (l : LinkName) : Statement (.linkTrained d l) := fun _ _ h => nomatch h

theorem linkTrainingTimeout (d : BitVec 3) (l : LinkName) : Statement (.linkTrainingTimeout d l) := fun _ _ h => nomatch h

theorem linkFault (d : BitVec 3) (l : LinkName) : Statement (.linkFault d l) := fun _ _ h => nomatch h

theorem ethernetFrameReceive (d : BitVec 3) (port : Bool) (f : EthFrame) : Statement (.ethernetFrameReceive d port f) := fun _ _ h => nomatch h

theorem transportWritePacket (d : BitVec 3) (p : WritePacket) : Statement (.transportWritePacket d p) := fun _ _ h => nomatch h

theorem transportSendPacket (d : BitVec 3) (p : SendPacket) : Statement (.transportSendPacket d p) := fun _ _ h => nomatch h

theorem connectionAnswer (d : BitVec 3) (conn : BitVec 12) : Statement (.connectionAnswer d conn) := fun _ _ h => nomatch h

theorem retransmissionTimeout (d : BitVec 3) (conn : BitVec 12) (pkt : Nat) : Statement (.retransmissionTimeout d conn pkt) := fun _ _ h => nomatch h

theorem messageCompletion (d : BitVec 3) (k : Nat) (m : MessageEnd) : Statement (.messageCompletion d k m) := fun _ _ h => nomatch h

theorem statusBlockUpdate (d : BitVec 3) (conn : BitVec 12) (m : LinkMeasure) : Statement (.statusBlockUpdate d conn m) := fun _ _ h => nomatch h

theorem submitRingNotify (d : BitVec 3) (conn : BitVec 12) : Statement (.submitRingNotify d conn) := fun _ _ h => nomatch h

theorem watchdogExpiry (r : Nat) : Statement (.watchdogExpiry r) := fun _ _ h => nomatch h

theorem remoteTimeout (a : Acquirer) : Statement (.remoteTimeout a) := fun _ _ h => nomatch h

theorem patrolScrub (line : Nat) (found : ScrubResult) : Statement (.patrolScrub line found) := fun _ _ h => nomatch h

theorem cellStoreEccError (at_ : EccSite) (double : Bool) : Statement (.cellStoreEccError at_ double) := fun _ _ h => nomatch h

theorem rowManagerCacheError (m : BitVec 10) (e : RmCacheError) : Statement (.rowManagerCacheError m e) := fun _ _ h => nomatch h

theorem policyStepOverrun (d : BitVec 3) : Statement (.policyStepOverrun d) := fun _ _ h => nomatch h

theorem budgetPeriod (d : BitVec 3) : Statement (.budgetPeriod d) := fun _ _ h => nomatch h

theorem schedulerPeriod (d : BitVec 3) : Statement (.schedulerPeriod d) := fun _ _ h => nomatch h

theorem islandWake (im : BitVec 10) : Statement (.islandWake im) := fun _ _ h => nomatch h

theorem frequencyStep (im : BitVec 10) (thermal : Bool) : Statement (.frequencyStep im thermal) := fun _ _ h => nomatch h

theorem thermalStop (im : BitVec 10) : Statement (.thermalStop im) := fun _ _ h => nomatch h

theorem sigvVerdict (q : BitVec 7) : Statement (.sigvVerdict q) := fun _ _ h => nomatch h

theorem keyhReply (q : BitVec 7) : Statement (.keyhReply q) := fun _ _ h => nomatch h

theorem islandLeavesOn (im : BitVec 10) (off : Bool) : Statement (.islandLeavesOn im off) := fun _ _ h => nomatch h

theorem attest : Statement (.attest) := fun _ _ h => nomatch h

theorem importKey : Statement (.importKey) := fun _ _ h => nomatch h

theorem drop : Statement (.drop) := fun _ _ h => nomatch h

theorem powerOn : Statement (.powerOn) := fun _ _ h => nomatch h

theorem warmReset : Statement (.warmReset) := fun _ _ h => nomatch h

theorem hostHotReset : Statement (.hostHotReset) := fun _ _ h => nomatch h

theorem instructionFetchFault : Statement (.instructionFetchFault) := fun _ _ h => nomatch h

theorem powerOff : Statement (.powerOff) := fun _ _ h => nomatch h

theorem hostLinkUp : Statement (.hostLinkUp) := fun _ _ h => nomatch h

theorem residentOsStart : Statement (.residentOsStart) := fun _ _ h => nomatch h

end Sys2Proof.Laws.RoundTrip
end

