-- ==== Sys2Proof/Tests/Slice0.lean ====
section
/-!
SUPPORT. The model's own tests: ill-formed instructions refused, words of the spec decoded, a witness for the hypotheses of every statement,
and small runs of one step.
-/

set_option Elab.async false

namespace Sys2Proof.Machine.Tests

open Sys2Proof Sys2Proof.Machine Sys2Proof.Cert

/-! ### Well-formedness: an ill-formed term for each check -/

/-- Every instruction of a list is refused. -/
def refusesAll (l : List Instr) : Bool := l.all (fun i => !i.wf)

/-- An order or a scope that the row does not admit (R106, R108). -/
theorem test_wf_memory : refusesAll [
    .ld 0 0 0 3 0 0 0, .ld 0 0 0 0 6 0 0, .st 0 0 0 3 0 0 0, .st 0 0 0 0 6 0 0,
    .ldm 0 0 0 3 0 0, .ldm 0 0 0 0 6 0, .stm 0 0 0 3 0 0, .stm 0 0 0 0 6 0,
    .fence 0 6, .bara 0 0 6, .barw 0 0 6, .bart 0 0 0 6,
    .bari 0 0 6] = true := by decide +kernel

/-- A register list that would pass g31, a pair that would, a control register that does not exist (R48, R109, R123). -/
theorem test_wf_lists : refusesAll [
    .ldm 31 0 0 0 0 1, .stm 31 0 0 0 0 1, .cas 31 0 0 0 0 2, .sysr 0 11 0,
    .sysw 0 11 0, .get 31 0 0 1, .accr 31 0 0 1, .recv 31 0 0 1,
    .put 31 0 0 1, .send 31 0 0 1, .bari 31 0 0] = true := by decide +kernel

/-- A width below 4 bytes, or a reserved scope, in an atomic (R106, R145). -/
theorem test_wf_atomics_1 : refusesAll [
    .amoswap 0 0 0 0 6 2, .amoswap 0 0 0 0 0 1, .amoadd 0 0 0 0 6 2, .amoadd 0 0 0 0 0 1,
    .amoand 0 0 0 0 6 2, .amoand 0 0 0 0 0 1, .amoor 0 0 0 0 6 2, .amoor 0 0 0 0 0 1,
    .amoxor 0 0 0 0 6 2, .amoxor 0 0 0 0 0 1, .amomin 0 0 0 0 6 2, .amomin 0 0 0 0 0 1,
    .amomax 0 0 0 0 6 2, .amomax 0 0 0 0 0 1, .amominu 0 0 0 0 6 2, .amominu 0 0 0 0 0 1] = true := by decide +kernel

/-- A width below 4 bytes, or a reserved scope, in an atomic (R106, R145). -/
theorem test_wf_atomics_2 : refusesAll [
    .amomaxu 0 0 0 0 6 2, .amomaxu 0 0 0 0 0 1, .cas 0 0 0 0 6 2, .cas 0 0 0 0 0 1] = true := by decide +kernel

/-- Two targets that are the same and not none (R57, R113). -/
theorem test_wf_targets_1 : refusesAll [
    .arithAdd 5 5 0 0 0 0, .arithSub 5 5 0 0 0 0, .arithMul 5 5 0 0 0 0, .arithFma 5 5 0 0 0 0,
    .arithMin 5 5 0 0, .arithMax 5 5 0 0, .arithAbs 5 5 0 0, .arithNeg 5 5 0 0,
    .arithAnd 5 5 0 0, .arithOr 5 5 0 0, .arithXor 5 5 0 0, .arithShl 5 5 0 0,
    .arithShrLogical 5 5 0 0, .arithShrArithmetic 5 5 0 0, .arithCmpEq 5 5 0 0, .arithCmpNe 5 5 0 0] = true := by decide +kernel

/-- Two targets that are the same and not none (R57, R113). -/
theorem test_wf_targets_2 : refusesAll [
    .arithCmpLt 5 5 0 0, .arithCmpGe 5 5 0 0, .arithCmpLtu 5 5 0 0, .arithCmpGeu 5 5 0 0,
    .arithSel 5 5 0 0, .arithSat 5 5 0 0, .copy 5 5 0 0, .gate 5 5 0 0,
    .jcmp 5 5 0 0, .isect 5 5 0 0, .unionKeys 5 5 0 0, .diff 5 5 0 0,
    .jwin 5 5 0 0, .stp 5 5 0 0, .stk 5 5 0 0, .sth 5 5 0 0] = true := by decide +kernel

/-- Two targets that are the same and not none (R57, R113). -/
theorem test_wf_targets_3 : refusesAll [
    .stt 5 5 0 0, .rord 5 5 0 0, .rrel 5 5 0 0, .ains 5 5 0 0,
    .amax 5 5 0 0, .amin 5 5 0 0, .alook 5 5 0 0, .adrain 5 5 2 0,
    .aspill 5 5 2 0, .aclr 5 5 2 0, .mrd 5 5 0 0, .mwr 5 5 0 0,
    .mamo 5 5 0 0, .msct 5 5 0 0, .mgat 5 5 0 0, .agen 5 5 0 0] = true := by decide +kernel

/-- Two targets that are the same and not none (R57, R113). -/
theorem test_wf_targets_4 : refusesAll [
    .agbase 5 5 0 0, .agre 5 5 2 0, .win 5 5 0 0, .wflush 5 5 0 0,
    .mma 5 5 0 0, .mmas 5 5 0 0, .mdrn 5 5 2 0, .mzero 5 5 2 0,
    .oadd 5 5 0 0, .omul 5 5 0 0, .omac 5 5 0 0, .ocut 5 5 0 0,
    .oconv 5 5 0 0 0 0, .cvt 5 5 0 0 0 0, .rsc 5 5 0 0 0 0, .pack 5 5 0 0 0 0] = true := by decide +kernel

/-- Two targets that are the same and not none (R57, R113). -/
theorem test_wf_targets_5 : refusesAll [
    .unpack 5 5 0 0, .stat 5 5 0 0] = true := by decide +kernel

/-- A reserved rounding mode (R84). -/
theorem test_wf_rounding : refusesAll [
    .arithAdd 1 2 0 5 0 0, .arithSub 1 2 0 5 0 0, .arithMul 1 2 0 5 0 0, .arithFma 1 2 0 5 0 0,
    .oconv 1 2 0 5 0 0, .cvt 1 2 0 5 0 0, .rsc 1 2 0 5 0 0, .pack 1 2 0 5 0 0] = true := by decide +kernel

/-- A mask class that the function does not admit (R19). -/
theorem test_wf_masks_1 : refusesAll [
    .arithSel 1 2 1 0, .copy 1 2 1 0, .gate 1 2 2 0, .jcmp 1 2 2 0,
    .isect 1 2 2 0, .unionKeys 1 2 2 0, .diff 1 2 2 0, .jwin 1 2 2 0,
    .stp 1 2 1 0, .rord 1 2 2 0, .rrel 1 2 2 0, .ains 1 2 2 0,
    .amax 1 2 2 0, .amin 1 2 2 0, .alook 1 2 2 0, .adrain 1 2 0 0] = true := by decide +kernel

/-- A mask class that the function does not admit (R19). -/
theorem test_wf_masks_2 : refusesAll [
    .aspill 1 2 0 0, .aclr 1 2 0 0, .mrd 1 2 1 0, .mamo 1 2 1 0,
    .msct 1 2 1 0, .mgat 1 2 1 0, .agen 1 2 1 0, .agbase 1 2 2 0,
    .agre 1 2 0 0, .win 1 2 2 0, .wflush 1 2 2 0, .mdrn 1 2 0 0,
    .mzero 1 2 0 0, .oadd 1 2 2 0, .omul 1 2 2 0, .omac 1 2 2 0] = true := by decide +kernel

/-- A mask class that the function does not admit (R19). -/
theorem test_wf_masks_3 : refusesAll [
    .ocut 1 2 2 0, .oconv 1 2 2 0 0 0, .cvt 1 2 1 0 0 0, .rsc 1 2 1 0 0 0,
    .pack 1 2 1 0 0 0, .unpack 1 2 1 0, .stat 1 2 1 0] = true := by decide +kernel

/-- A field beyond the table, and a displacement of zero (R118, R418). -/
theorem test_wf_policy : refusesAll [
    .polFld 0 16, .polSld 0 11, .polSkip 0, .polJump 0,
    .polNext 0] = true := by decide +kernel

/-- A well-formed one of each kind is accepted. -/
theorem test_wf_accepts : [Instr.ld 1 2 0 1 5 3 0, .stm 16 1 0 2 0 15, .cas 30 1 0 3 5 3, .get 16 0 0 15, .bari 30 0 5, .arithSel 1 2 2 0,
    .arithAdd 63 63 3 4 1 0, .mdrn 1 2 2 0, .polFld 0 15, .polNext 1].all Instr.wf = true := by decide +kernel

/-! ### Words of the spec's encodings (R101 to R119; the match and field columns of the opcode table) -/

/-- Every word of a list is read as the instruction beside it, by a decoder. -/
def reads (f : Nat → Option Instr) (l : List (Nat × Instr)) : Bool := l.all (fun p => f p.1 == some p.2)

def seqOf (w : Nat) : Option Instr := (decodeSeq w).toOption
def nodeOf (w : Nat) : Option Instr := (decodeNode w).toOption
def policyOf (w : Nat) : Option Instr := (decodePolicy w).toOption
def rmOf (w : Nat) : Option Instr := match decodeRm w with
  | .command i => some i
  | _ => none

theorem test_words_alu_1 : reads seqOf [
    (0x052A9D80, .add 9 10 19 5 1), (0x052A9D81, .sub 9 10 19 5 1), (0x052A9D82, .and 9 10 19 5 1),
    (0x052A9D83, .or 9 10 19 5 1), (0x052A9D84, .xor 9 10 19 5 1), (0x052A9D85, .shl 9 10 19 5 1),
    (0x052A9D86, .shr 9 10 19 5 1), (0x052A9D87, .sar 9 10 19 5 1), (0x052A9D88, .mul 9 10 19 5 1),
    (0x052A9D89, .mulh 9 10 19 5 1), (0x052A9D8A, .div 9 10 19 5 1), (0x052A9D8B, .rem 9 10 19 5 1),
    (0x052A9D8C, .min 9 10 19 5 1), (0x052A9D8D, .max 9 10 19 5 1)] = true := by decide +kernel

theorem test_words_alu_2 : reads seqOf [
    (0x052A058E, .clz 9 10 5 1), (0x052A058F, .popc 9 10 5 1), (0x052A9D92, .adds 9 10 19 5 1 2),
    (0x052A9D94, .bfx 9 10 19 5 1), (0x052A9D95, .bfi 9 10 19 5 1), (0x052A9D96, .mad 9 10 19 5 1),
    (0x052A9D9A, .crc 9 10 19 5 1 2), (0x042A9DA0, .cmpeq 1 10 19 5 1), (0x042A9DA1, .cmpne 1 10 19 5 1),
    (0x042A9DA2, .cmplt 1 10 19 5 1), (0x042A9DA3, .cmpge 1 10 19 5 1), (0x042A9DA4, .cmpltu 1 10 19 5 1),
    (0x042A9DA5, .cmpgeu 1 10 19 5 1), (0x052A9DB3, .sel 9 10 19 5 1 3)] = true := by decide +kernel

theorem test_words_alu_3 : reads seqOf [
    (0x0C0A0580, .jr 10 5 1), (0x0C000581, .ret 5 1), (0x0D2A0582, .pgprobe 9 10 5 1),
    (0x0D2A9D83, .sigv 9 10 19 5 1), (0x0D2A0584, .keyh 9 10 5 1), (0x11201555, .lih 9 5461),
    (0x212AB555, .addi 9 10 5 5461), (0x252AB555, .andi 9 10 5 5461), (0x292AB555, .ori 9 10 5 5461),
    (0x2D2AB555, .xori 9 10 5 5461), (0x312AA015, .shli 9 10 5 21), (0x352AA015, .shri 9 10 5 21),
    (0x392AA015, .sari 9 10 5 21), (0x3D20B555, .loop 9 5 5461)] = true := by decide +kernel

theorem test_words_alu_4 : reads seqOf [
    (0x42C00009, .br 5 1 9), (0x46C00009, .brp 5 1 9), (0x4AC00009, .call 5 1 9)] = true := by decide +kernel

theorem test_words_mem : reads seqOf [
    (0x612AABA5, .ld 9 10 5 1 3 2 37), (0x652AB3A5, .st 9 10 5 2 3 2 37), (0x692AABD4, .ldm 9 10 5 1 3 5),
    (0x6D2AB3D4, .stm 9 10 5 2 3 5), (0x712AAB80, .amoswap 9 10 5 1 3 2), (0x712AAB81, .amoadd 9 10 5 1 3 2),
    (0x712AAB82, .amoand 9 10 5 1 3 2), (0x712AAB83, .amoor 9 10 5 1 3 2), (0x712AAB84, .amoxor 9 10 5 1 3 2),
    (0x712AAB85, .amomin 9 10 5 1 3 2), (0x712AAB86, .amomax 9 10 5 1 3 2), (0x712AAB87, .amominu 9 10 5 1 3 2),
    (0x712AAB88, .amomaxu 9 10 5 1 3 2), (0x752AAB80, .cas 9 10 5 1 3 2)] = true := by decide +kernel

theorem test_words_port_1 : reads seqOf [
    (0xB8006000, .nop 6), (0xB8006001, .halt 6), (0xB8006002, .yield 6),
    (0xB801E003, .trap 3 6), (0xB8006004, .rte 6), (0xB9256005, .sysr 9 10 6),
    (0xB9456006, .sysw 10 10 6), (0xB92AE310, .get 9 21 6 3), (0xB92AE011, .peekInlet 9 21 6),
    (0xB92AE111, .peekOutlet 9 21 6), (0xB802E012, .accz 5 6), (0xB922E313, .accr 9 5 6 3),
    (0xB942E014, .scmdStop 10 5 6), (0xB942E114, .scmdAddI32 10 5 6)] = true := by decide +kernel

theorem test_words_port_2 : reads seqOf [
    (0xB942E214, .scmdAddI64 10 5 6), (0xB942E314, .scmdAddF32 10 5 6), (0xB942E414, .scmdWaddI32 10 5 6),
    (0xB942E514, .scmdWaddF32 10 5 6), (0xB942E614, .scmdMaxI32 10 5 6), (0xB942E714, .scmdMinI32 10 5 6),
    (0xB942E814, .scmdMaxF32 10 5 6), (0xB942E914, .scmdMinF32 10 5 6), (0xB942EA14, .scmdCount 10 5 6),
    (0xB942EB14, .scmdKeyAdd 10 5 6), (0xB942EC14, .scmdKeyWadd 10 5 6), (0xB942ED14, .scmdOr 10 5 6),
    (0xB942EE14, .scmdXor 10 5 6), (0xB942EF14, .scmdCopy 10 5 6)] = true := by decide +kernel

theorem test_words_port_3 : reads seqOf [
    (0xB940E015, .arm 10 1 6), (0xB9406016, .launch 10 6), (0xB921E517, .recv 9 3 6 5),
    (0xB94AE318, .put 10 21 6 3), (0xB941E519, .send 10 3 6 5), (0xB94AE020, .qbind 10 21 6),
    (0xB92AE021, .qstatInlet 9 21 6), (0xB92AE121, .qstatOutlet 9 21 6), (0xB92AE022, .qgapInlet 9 21 6),
    (0xB92AE122, .qgapOutlet 9 21 6), (0xB80AE023, .qdrainInlet 21 6), (0xB80AE123, .qdrainOutlet 21 6),
    (0xB9406028, .cfgld 10 6), (0xB9206029, .cfgchk 9 6)] = true := by decide +kernel

theorem test_words_port_4 : reads seqOf [
    (0xB800602A, .cfgflip 6), (0xB800602B, .cfgabort 6), (0xB80AE030, .grun 21 6),
    (0xB80AE031, .gwait 21 6), (0xB92AE032, .gstat 9 21 6), (0xB8006338, .fence 6 3),
    (0xB9406339, .bari 10 6 3), (0xB940633A, .bara 10 6 3), (0xB940633B, .barw 10 6 3),
    (0xB941E33C, .bart 10 3 6 3), (0xB9406040, .statf 10 6), (0xB9406041, .retune 10 6)] = true := by decide +kernel

theorem test_words_node_1 : reads nodeOf [
    (0x000A4E7B, .arithAdd 10 19 2 3 1 11), (0x004A4E7B, .arithSub 10 19 2 3 1 11), (0x008A4E7B, .arithMul 10 19 2 3 1 11),
    (0x00CA4E7B, .arithFma 10 19 2 3 1 11), (0x010A4E01, .arithMin 10 19 2 1), (0x014A4E01, .arithMax 10 19 2 1),
    (0x018A4E01, .arithAbs 10 19 2 1), (0x01CA4E01, .arithNeg 10 19 2 1), (0x020A4E01, .arithAnd 10 19 2 1),
    (0x024A4E01, .arithOr 10 19 2 1), (0x028A4E01, .arithXor 10 19 2 1), (0x02CA4E01, .arithShl 10 19 2 1),
    (0x030A4E02, .arithShrLogical 10 19 2 1), (0x030A4E03, .arithShrArithmetic 10 19 2 1)] = true := by decide +kernel

theorem test_words_node_2 : reads nodeOf [
    (0x034A4E08, .arithCmpEq 10 19 2 1), (0x034A4E09, .arithCmpNe 10 19 2 1), (0x034A4E0A, .arithCmpLt 10 19 2 1),
    (0x034A4E0B, .arithCmpGe 10 19 2 1), (0x034A4E0C, .arithCmpLtu 10 19 2 1), (0x034A4E0D, .arithCmpGeu 10 19 2 1),
    (0x038A4E01, .arithSel 10 19 2 1), (0x03CA4E01, .arithSat 10 19 2 1), (0x100A4E01, .copy 10 19 2 1),
    (0x104A4C01, .gate 10 19 0 1), (0x200A4C01, .jcmp 10 19 0 1), (0x204A4C01, .isect 10 19 0 1),
    (0x208A4C01, .unionKeys 10 19 0 1), (0x20CA4C01, .diff 10 19 0 1)] = true := by decide +kernel

theorem test_words_node_3 : reads nodeOf [
    (0x210A4C01, .jwin 10 19 0 1), (0x300A4E01, .stp 10 19 2 1), (0x304A4E01, .stk 10 19 2 1),
    (0x308A4E01, .sth 10 19 2 1), (0x30CA4E01, .stt 10 19 2 1), (0x400A4C01, .rord 10 19 0 1),
    (0x404A4C01, .rrel 10 19 0 1), (0x500A4C01, .ains 10 19 0 1), (0x504A4C01, .amax 10 19 0 1),
    (0x508A4C01, .amin 10 19 0 1), (0x50CA4C01, .alook 10 19 0 1), (0x510A4E01, .adrain 10 19 2 1),
    (0x514A4E01, .aspill 10 19 2 1), (0x518A4E01, .aclr 10 19 2 1)] = true := by decide +kernel

theorem test_words_node_4 : reads nodeOf [
    (0x600A4E01, .mrd 10 19 2 1), (0x604A4E01, .mwr 10 19 2 1), (0x608A4E01, .mamo 10 19 2 1),
    (0x60CA4E01, .msct 10 19 2 1), (0x610A4E01, .mgat 10 19 2 1), (0x700A4E01, .agen 10 19 2 1),
    (0x704A4C01, .agbase 10 19 0 1), (0x708A4E01, .agre 10 19 2 1), (0x800A4C01, .win 10 19 0 1),
    (0x804A4C01, .wflush 10 19 0 1), (0x900A4E01, .mma 10 19 2 1), (0x904A4E01, .mmas 10 19 2 1),
    (0x908A4E01, .mdrn 10 19 2 1), (0x90CA4E01, .mzero 10 19 2 1)] = true := by decide +kernel

theorem test_words_node_5 : reads nodeOf [
    (0xA00A4C01, .oadd 10 19 0 1), (0xA04A4C01, .omul 10 19 0 1), (0xA08A4C01, .omac 10 19 0 1),
    (0xA0CA4C01, .ocut 10 19 0 1), (0xA10A4C7B, .oconv 10 19 0 3 1 11), (0xB00A4E7B, .cvt 10 19 2 3 1 11),
    (0xB04A4E7B, .rsc 10 19 2 3 1 11), (0xB08A4E7B, .pack 10 19 2 3 1 11), (0xB0CA4E01, .unpack 10 19 2 1),
    (0xB10A4E01, .stat 10 19 2 1)] = true := by decide +kernel

theorem test_words_policy_1 : reads policyOf [
    (0x0901, .polImm 1 1), (0x110D, .polFld 1 13), (0x1909, .polSld 1 9),
    (0x2120, .polPlus 1 1), (0x2920, .polMinus 1 1), (0x3120, .polLow 1 1),
    (0x3920, .polHigh 1 1), (0x4120, .polBand 1 1), (0x4920, .polBor 1 1),
    (0x5115, .polLsl 1 21), (0x5915, .polLsr 1 21), (0x6120, .polTestEq 1 1),
    (0x6124, .polTestNe 1 1), (0x6128, .polTestLt 1 1)] = true := by decide +kernel

theorem test_words_policy_2 : reads policyOf [
    (0x612C, .polTestGe 1 1), (0x6130, .polTestLtu 1 1), (0x6134, .polTestGeu 1 1),
    (0x8009, .polSkip 9), (0x8809, .polJump 9), (0x9000, .polEach),
    (0x9809, .polNext 9), (0xC100, .polPick 1), (0xC800, .polDecide),
    (0xD000, .polVeto), (0xD800, .polStop)] = true := by decide +kernel

theorem test_words_rm : reads rmOf [
    (0x0135048B, .kcmd 19 10 9), (0x0005100B, .kfence 10), (0x0005248B, .kpoll 10 9),
    (0x0130348B, .kqst 19 9), (0x0005002B, .khaltHalt 10), (0x000514AB, .kpeek 10 9),
    (0x0135202B, .kreplay 19 10), (0x000534AB, .kbbx 10 9)] = true := by decide +kernel

/-- A word of each family, field by field from its format (R101 to R103, R111, R116, R119). -/
theorem test_words_by_field : seqOf ((0x01 : BitVec 6) ++ (3 : BitVec 5) ++ (4 : BitVec 5) ++ (5 : BitVec 5) ++ (2 : BitVec 3) ++ (1 : BitVec 1)
      ++ (0x00 : BitVec 7)).toNat = some (.add 3 4 5 2 1) ∧
    seqOf ((0x08 : BitVec 6) ++ (3 : BitVec 5) ++ (4 : BitVec 5) ++ (2 : BitVec 3) ++ (0x1FFF : BitVec 13)).toNat = some (.addi 3 4 2 0x1FFF) ∧
    policyOf ((0x01 : BitVec 5) ++ (3 : BitVec 3) ++ (0x7F : BitVec 8)).toNat = some (.polImm 3 0x7F) := by decide +kernel

/-! ### Closing a witness -/

/-- Whether a result is a value, or an error. -/
def okIs {ε α : Type} [DecidableEq α] (e : Except ε α) (x : α) : Bool := match e with
  | .ok y => decide (y = x)
  | .error _ => false

def errIs {ε α : Type} [DecidableEq ε] (e : Except ε α) (x : ε) : Bool := match e with
  | .ok _ => false
  | .error y => decide (y = x)

theorem eq_ok {ε α : Type} [DecidableEq α] {e : Except ε α} {x : α} (h : okIs e x = true) : e = .ok x := by
  cases e with
  | ok y => exact congrArg _ (of_decide_eq_true h)
  | error _ => exact Bool.noConfusion h

theorem eq_error {ε α : Type} [DecidableEq ε] {e : Except ε α} {x : ε} (h : errIs e x = true) : e = .error x := by
  cases e with
  | ok _ => exact Bool.noConfusion h
  | error y => exact congrArg _ (of_decide_eq_true h)

/-- A pair whose first part is known. -/
theorem eq_pair {α β : Type} {p : α × β} {a : α} (h : p.1 = a) : p = (a, p.2) := by rw [← h]

/-! ### Small states -/

/-- Context 5's page of 4 KiB at 0, readable, writable and executable, at physical 0x10000 under key 9. -/
def page : TlbEntry := { ctx := 5, base := 0, size := 0, pte := 0x0090000000010000 ||| 0x1F }

/-- A page that allows nothing. -/
def blindPage : TlbEntry := { ctx := 5, base := 0x1000, size := 0, pte := 0x0090000000011000 ||| 0x11 }

/-- A running sequencer of context 5: registers g1 to g9, a handler, two cached pages. -/
def sq0 : Seq := { Seq.reset with
  run := .running, tvec := 0x100, ctx := 5, tlb := [page, blindPage],
  g := ((((((((Seq.reset.g.set 1 0x8000000000000000).set 2 0xFFFFFFFFFFFFFFFF).set 3 1).set 4 0x40).set 5 0x41).set 6 0x1000).set 7 0x300).set 8 2).set 9 0xFFFFFFFFFFFF }

/-- The keys of the OS's slot and of context 5's. -/
def k0 : Key := .made 0
def k3 : Key := .made 3

def key5 : KeySlot := { handle := 9, ctx := some 5, kind := 1, key := k3, pub := [] }

/-- The sequencer 0 of die 0 runs under its context. -/
def s0 : State := { State.reset.setSeq 0 sq0 with slots := State.reset.slots ++ [key5] }

/-- The same with the sequencer changed. -/
def seqWith (f : Seq → Seq) : State := s0.modSeq 0 f

/-- What a translation of the small state's first page gives. -/
def at0 (off : Nat) : Xlated := ⟨0x10000 + off, k3⟩

def launch0 : Launch :=
  { desc := .phys 0, ctx := 5, part := 0, prio := 0, cmode := true, slack := 0, image := 0, args := 0, chans := 0, stat := 0,
    tag := 0, width := 1, height := 1, reloc := false, leadLx := 0, leadLy := 0, age := 0 }

/-- A region of one block with its kernel. -/
def reg0 : Region := { Region.forLaunch 1 0 ⟨0, 0, 1⟩ launch0 0 0 with kstate := .active, map := [⟨0, 0, 0, 0⟩] }

/-- The small state in a region. -/
def inRegion (r : Region) : State := { seqWith (fun q => { q with region := some r.serial }) with regions := [r] }

/-- The first cell of the block. -/
def c0 : CellId := ⟨0, 0, 0, 0⟩

def word0 (tag : Tag) (v : Payload) : Item := { tag := tag, v0 := v, v1 := none, inv := none }
def data0 (v : Payload) : Item := word0 Tag.template v

/-- A FLOWING queue of depth 16 with units in it. -/
def queue0 (us : List Item) : Queue :=
  { Queue.reset with state := .flowing, qctl := 4 + 12 * 2 ^ 4 + 4 * 2 ^ 15 + 2 ^ 26 + 2 ^ 29, entries := us.map (fun u => ⟨u, true⟩) }

theorem witness_pageReached : (s0.xlate 0 .r 0x40).1 = .ok (at0 0x40) ∧ (s0.xlate 0 .rw 0x40).1 = .ok (at0 0x40) ∧
    (s0.xlate 0 .w 0x40).1 = .ok (at0 0x40) ∧ (s0.xlate 0 .r 0x1000).1 = .error .access ∧ (s0.xlate 0 .x 0x2000).1 = .error .page := by
  refine ⟨?_, ?_, ?_, ?_, ?_⟩ <;> first | exact eq_ok (by decide +kernel) | exact eq_error (by decide +kernel)

/-! ### Witnesses: integer, branch, trap and system instructions -/

/-- RegisterOperationsGiveTheirResults, with the corner of the division, ImmediateOperationsGiveTheirResults, FieldOperationsGiveTheirResults and
ComparisonsSetTheirPredicate: a guard of either sense. -/
theorem witness_registerOperations : guardOn s0 0 0 ∧ guardOn s0 1 1 ∧ reg s0 1 = 0x8000000000000000 ∧ reg s0 2 = 0xFFFFFFFFFFFFFFFF ∧
    1 ≤ 1 ∧ 1 ≤ 3 := by unfold guardOn reg me; decide +kernel

/-- BranchesGoWhereTheRulesSay: an aligned and a misaligned target, each with a handler; a loop count of 0, 1 and more. -/
theorem witness_branches : guardOn s0 0 0 ∧ canTrap s0 ∧ (reg s0 4).toNat % 4 = 0 ∧ (reg s0 5).toNat % 4 ≠ 0 ∧ (reg s0 31).toNat % 4 = 0 ∧
    (let s := seqWith (fun q => q.writeG 31 2); canTrap s ∧ (reg s 31).toNat % 4 ≠ 0) ∧
    reg s0 0 = 0 ∧ reg s0 3 = 1 ∧ 1 < (reg s0 8).toNat := by unfold canTrap guardOn reg me; decide +kernel

/-- FalseGuardOnlyAdvances: of either sense. -/
theorem witness_falseGuard : guardOf (.add 1 2 3 1 0) = some (1, 0) ∧ ¬ guardOn s0 1 0 ∧ guardOf (.brp 0 1 5) = some (0, 1) ∧ ¬ guardOn s0 0 1 := by
  unfold guardOn me; decide +kernel

/-- TrapsAreTaken: with a handler; without one, in a region whose lead cell holds no fault. -/
theorem witness_traps : canTrap s0 ∧ guardOn s0 0 0 ∧ (let s := (inRegion reg0).modSeq 0 (fun q => { q with tvec := 0 })
    ¬ canTrap s ∧ s.regionOfSeq s.seqTurn = some reg0 ∧ s.regionOf reg0.leadCell = some reg0 ∧ (s.cell reg0.leadCell).fault.valid = false) := by
  unfold canTrap guardOn me; decide +kernel

/-- ReturnFromTrap, SysrReadsEveryControlRegister and SyswWritesTheWritableRegisters: in a handler and outside one; an address that is aligned and one
that is not; the registers at the ends of the range. -/
theorem witness_system : guardOn s0 0 0 ∧ canTrap s0 ∧ (me (seqWith (fun q => { q with intrap := true }))).intrap = true ∧
    (reg s0 4).toNat % 4 = 0 ∧ reg s0 4 ≠ 0 ∧ (reg s0 5).toNat % 4 ≠ 0 ∧ (me s0).intrap = false ∧ (9 : BitVec 6) ≠ 0 ∧ (9 : BitVec 6) ≠ 3 ∧
    (9 : BitVec 6) ≠ 10 ∧ (10 : BitVec 6).toNat ≤ 10 := by unfold canTrap guardOn reg me; decide +kernel

/-- FetchAndDecodeTraps: a word of each decode cause, and a page of each fault. -/
theorem witness_fetch : s0.issues = true ∧ s0.fetchPath 0 = .up ∧ (s0.fetchWord 0).1 = .ok 0 ∧ decodeSeq 0 = .error .illegalInstruction ∧ canTrap (s0.fetchWord 0).2 ∧
    (let s := seqWith (fun q => { q with pc := 0x1000 })
     s.issues = true ∧ s.fetchPath 0 = .up ∧ (me s).pc.toNat % 4 = 0 ∧ (s.xlate 0 .x 0x1000).1 = .error .access ∧ canTrap (s.xlate 0 .x 0x1000).2) ∧
    (let s := seqWith (fun q => { q with pc := 0x2000 })
     s.issues = true ∧ s.fetchPath 0 = .up ∧ (s.xlate 0 .x 0x2000).1 = .error .page ∧ canTrap (s.xlate 0 .x 0x2000).2) := by
  repeat' apply And.intro
  all_goals first | exact eq_ok (by decide +kernel) | exact eq_error (by decide +kernel) | exact rfl | decide +kernel

/-- A word of each of the other decode causes (R109, R110). -/
theorem witness_decodeCauses : decodeSeq 0x0400007F = .error .unassignedEncoding ∧ decodeSeq (wordR 0x20 8 0 0 0 0) = .error .reservedField ∧
    decodeSeq 0x60001000 = .error .reservedEncoding := by
  repeat' apply And.intro
  all_goals first | exact eq_ok (by decide +kernel) | exact eq_error (by decide +kernel) | exact rfl | decide +kernel

/-- FrozenRegionRefusesItsInstructions, with the values of the four kinds of trap. -/
theorem witness_frozen : (let s := seqWith (fun q => { q with run := .handler, intrap := true }); guardOn s 0 0 ∧ (me s).run = .handler) ∧
    frozenOf (.put 1 5 0 0) = some (0, 5) ∧ frozenOf (.get 1 63 0 0) = some (0, 127) ∧ frozenOf (.accz 15 0) = some (0, 143) ∧
    frozenOf (.cfgflip 0) = some (0, 0) := by unfold guardOn me; decide +kernel

/-! ### Witnesses: memory -/

/-- LoadReadsItsBytes and StoreWritesItsBytes: a double-word at 0x40 and a byte at the last offset. -/
theorem witness_loadStore : guardOn s0 0 0 ∧ mayIssue s0 ∧ reaches s0 (settled (s0.xlate 0 .r 0x40).2) .r 8 (reg s0 4) (at0 0x40) ∧
    reaches s0 (settled (s0.xlate 0 .w 0x7F).2) .w 1 (reg s0 4 + BitVec.ofNat 64 (63 * 1)) (at0 0x7F) ∧ noneOrdered s0 ∧ storesPass s0 ∧
    mayRelease s0 3 5 ∧ MemOk s0 :=
  ⟨rfl, ⟨rfl, by decide +kernel⟩,
    ⟨by decide +kernel, ⟨_, eq_pair (eq_ok (by decide +kernel)), rfl⟩, by decide +kernel, fun _ => by decide +kernel⟩,
    ⟨by decide +kernel, ⟨_, eq_pair (eq_ok (by decide +kernel)), rfl⟩, by decide +kernel, fun h => absurd rfl h⟩,
    fun r h => (List.not_mem_nil h).elim, fun r h => (List.not_mem_nil h).elim, fun _ _ r h => (List.not_mem_nil h).elim, rfl⟩

/-- ListTransfers: sixteen double-words to the last register. -/
theorem witness_lists : (16 : BitVec 5).toNat + (15 : BitVec 4).toNat ≤ 31 ∧ guardOn s0 0 0 ∧ (reg s0 4).toNat % 8 = 0 ∧
    (s0.xlateAll 0 .r ((List.range 16).map (fun i => reg s0 4 + BitVec.ofNat 64 (8 * i)))).1 =
      .ok ((List.range 16).map (fun i => at0 (0x40 + 8 * i))) ∧
    (s0.xlateAll 0 .w ((List.range 16).map (fun i => reg s0 4 + BitVec.ofNat 64 (8 * i)))).1 =
      .ok ((List.range 16).map (fun i => at0 (0x40 + 8 * i))) ∧
    (∀ x ∈ (List.range 16).map (fun i => at0 (0x40 + 8 * i)), s0.pathTo (seqDie 0) x.pa = .up ∧
      (settled (s0.xlateAll 0 .r ((List.range 16).map (fun i => reg s0 4 + BitVec.ofNat 64 (8 * i)))).2).poisonIn x.pa 8 = none) ∧
    (s0.pendOf 0).length + (15 : BitVec 4).toNat < 16 := by
  repeat' apply And.intro
  all_goals first | exact eq_ok (by decide +kernel) | exact eq_error (by decide +kernel) | exact rfl | decide +kernel

/-- AtomicsReadModifyWrite, at both widths, with a pair register. -/
theorem witness_atomics : MemOk s0 ∧ inStack (at0 0x40).pa = true ∧ ((10 : BitVec 5) ≠ 31) ∧
    reaches s0 (settled (s0.xlate 0 .rw 0x40).2) .rw 4 (reg s0 4) (at0 0x40) ∧
    reaches s0 (settled (s0.xlate 0 .rw 0x40).2) .rw 8 (reg s0 4) (at0 0x40) :=
  ⟨rfl, by decide +kernel, by decide +kernel,
    ⟨by decide +kernel, ⟨_, eq_pair (eq_ok (by decide +kernel)), rfl⟩, by decide +kernel, fun _ => by decide +kernel⟩,
    ⟨by decide +kernel, ⟨_, eq_pair (eq_ok (by decide +kernel)), rfl⟩, by decide +kernel, fun _ => by decide +kernel⟩⟩

/-- NopYieldHaltFence: with no region, in one without a pending pre-emption, and in an ACTIVE one with an open tile. -/
theorem witness_control : guardOn s0 0 0 ∧ s0.regionOfSeq 0 = none ∧ (inRegion reg0).regionOfSeq 0 = some reg0 ∧
    (inRegion reg0).preemptPending reg0 = false ∧ reg0.kstate = .active ∧
    (let r : Region := { reg0 with sections := [⟨0x7F, 0, [], [], 1, [⟨0, 0, []⟩], 0, 0, true, 1⟩] }
     (inRegion r).regionOfSeq 0 = some r ∧ (∃ x ∈ r.sections, x.tiles ≠ [])) := by unfold guardOn me; decide +kernel

/-- The root of context 5's tables on another die, behind a bridge in a state. -/
def farRoot (x : LinkState) : State :=
  { s0 with ctxs := [(5, { Ctx.reset with ptroot := 0x2000000000, state := .running })] }.modDie 0 (fun y =>
    { y with bridge := Vector.replicate 4 { Link.reset with state := x } })

/-- MemoryAccessTraps: a misaligned address, one that its page forbids and one with no translation; a walk that meets a bridge that is DOWN and one in
FAULT; a list whose first and whose second address faults. -/
theorem witness_memoryTraps : canTrap s0 ∧ guardOn s0 0 0 ∧ (reg s0 5).toNat % 4 ≠ 0 ∧ (reg s0 5).toNat % 8 ≠ 0 ∧
    (s0.pendOf 0).length + (15 : BitVec 4).toNat < 16 ∧
    (s0.xlateAll 0 .r [reg s0 6, reg s0 6 + 8]).1 = .error (.access, 0x1000) ∧
    (s0.xlateAll 0 .w [reg s0 6, reg s0 6 + 8]).1 = .error (.access, 0x1000) ∧
    (s0.xlate 0 .rw (reg s0 6)).1 = .error .access ∧
    ((farRoot .down).xlate 0 .r 0x3000).1 = .error .held ∧ ((farRoot .fault).xlate 0 .r 0x3000).1 = .error .lost ∧
    ((farRoot .down).xlate 0 .rw 0x3000).1 = .error .held ∧ ((farRoot .fault).xlateAll 0 .w [0x3000]).1 = .error (.lost, 0x3000) ∧ (s0.xlate 0 .r (reg s0 6)).1 = .error .access ∧
    (s0.xlate 0 .w (reg s0 6)).1 = .error .access ∧ (reg s0 6).toNat % 8 = 0 ∧
    (s0.xlate 0 .r (reg s0 6 + 0x1000)).1 = .error .page := by
  repeat' apply And.intro
  all_goals first | exact eq_ok (by decide +kernel) | exact eq_error (by decide +kernel) | exact rfl | decide +kernel

/-! ### Witnesses: ports, accumulators, groups, barriers, channels -/

/-- A cell with queue 0 as given, and the small state in its region with that queue behind inlet 2, and a queue behind outlet 3. -/
def portState (x y : Queue) : State :=
  let s := inRegion reg0
  (s.setCell c0 { Cell.reset with queues := Cell.reset.queues.set 0 x }).modSeq 0 (fun q =>
    { q with inPort := q.inPort.set 2 (some (c0, 0)), outPort := q.outPort.set 3 (some y) })

/-- PutOffersAUnit: a FLOWING queue with room, and a CLOSED one. -/
theorem witness_put : (let s := portState (queue0 []) Queue.reset;
      open_ s 0 ∧ inAt s 2 c0 0 ∧ ¬ (me s).cycle < (me s).backoff[2] ∧ (16 : BitVec 5).toNat + (15 : BitVec 4).toNat ≤ 31 ∧
      (let x := (s.cell c0).queues[0];
       x.state = .flowing ∧ ((me s).putUnit 16 2 15).isData = true ∧ ((me s).putUnit 16 2 15).slots ≤ x.free ∧
         x.occ + ((me s).putUnit 16 2 15).slots < x.high ∧ x.ring = [] ∧ x.kv = false)) ∧
    (let s := portState { queue0 [] with state := .closed } Queue.reset;
      inAt s 2 c0 0 ∧ ((s.cell c0).queues[0]).state = .closed) := by
  refine ⟨⟨⟨rfl, ?_⟩, rfl, ?_, ?_, ?_, ?_, ?_, ?_, ?_, ?_⟩, ⟨rfl, ?_⟩⟩ <;> decide +kernel

/-- GetPopsAUnit: with a unit there, with none, and in the wait. -/
theorem witness_get : (let s := portState Queue.reset (queue0 [data0 7]);
      open_ s 0 ∧ outAt s 3 (queue0 [data0 7]) ∧ unattached s 3 ∧ (queue0 [data0 7]).head = some (data0 7)) ∧
    (let s := (portState Queue.reset (queue0 [data0 7])).modSeq 0 (fun q => { q with wait := .get 16 3 15 });
      (me s).wait = .get 16 3 15 ∧ (me s).run = .running ∧ outAt s 3 (queue0 [data0 7])) ∧
    outAt (portState Queue.reset (queue0 [])) 3 (queue0 []) ∧ (queue0 []).head = none := by
  have h : ∀ i : Fin 16, (me (portState Queue.reset (queue0 [data0 7]))).accs[i].attach = none := by decide +kernel
  refine ⟨⟨⟨rfl, ?_⟩, rfl, fun i c => ?_, rfl⟩, ⟨rfl, rfl, rfl⟩, rfl, rfl⟩
  · decide +kernel
  · exact fun e => nomatch (h i).symm.trans e

/-- QueueInstructions: bound and unbound ports, and queues that drain. -/
theorem witness_queue : (let s := portState (queue0 []) (queue0 []);
      open_ s 0 ∧ canTrap s ∧ inAt s 2 c0 0 ∧ outAt s 3 (queue0 []) ∧ (me s).inPort[3] = none ∧ (me s).outPort[2] = none ∧
      (queue0 []).frozen = false ∧ (queue0 []).state ≠ .shedding) := by
  refine ⟨⟨rfl, ?_⟩, ⟨rfl, ?_⟩, rfl, rfl, rfl, rfl, rfl, ?_⟩ <;> decide +kernel

/-- QueueInstructions: a FROZEN queue and a SHEDDING one, behind either kind of port. -/
theorem witness_drains : (let x := { queue0 [data0 7] with frozen := true };
      let s := portState x x;
      open_ s 0 ∧ canTrap s ∧ inAt s 2 c0 0 ∧ outAt s 3 x ∧ x = (s.cell c0).queues[(0 : BitVec 3).toNat] ∧ x.state ≠ .unbound ∧ x.state ≠ .closed) ∧
    (let x := { queue0 [data0 7] with state := .shedding, epN := 3, epLo := 4, epHi := 9 };
      let s := portState x x;
      open_ s 0 ∧ inAt s 2 c0 0 ∧ outAt s 3 x ∧ x = (s.cell c0).queues[(0 : BitVec 3).toNat] ∧ x.frozen = false ∧ x.ring = [] ∧ x.sampPend = [] ∧
      x.tokens < 8) := by
  refine ⟨⟨⟨rfl, ?_⟩, ⟨rfl, ?_⟩, rfl, rfl, rfl, ?_, ?_⟩, ⟨rfl, ?_⟩, rfl, rfl, rfl, rfl, rfl, rfl, ?_⟩ <;> decide +kernel

/-- The small state in its region with a binding block for queue 1 of the first cell at 0x40. -/
def bindState : State :=
  ((((inRegion reg0).putNum k3 0x10040 8 (cellWord c0 1).toNat).putNum k3 0x10048 8 (4 + 12 * 2 ^ 4 + 4 * 2 ^ 15 + 2 ^ 26 + 2 ^ 29)).putNum k3 0x10060 8 5)

/-- QueueInstructions: a binding block that is sound. -/
theorem witness_qbind : (let s := bindState;
    let s1 := settled (s.xlate 0 .r 0x40).2
    let dw (i : Nat) : Word64 := BitVec.ofNat 64 (s1.seqNum 0 k3 (0x10040 + 8 * i) 8)
    let v := s1.boundView reg0 c0 1 ⟨dw 1, dw 2, dw 3⟩
    open_ s 0 ∧ mayIssue s ∧ s.regionOfSeq 0 = some reg0 ∧ reg0.cfg.state ≠ .flipping ∧ reaches s s1 .r 64 (reg s 4) (at0 0x40) ∧
    dw 0 = (cellWord c0 1).setWidth 64 ∧ reg0.hasCell c0 = true ∧ v.queueOk c0 1 = true ∧
    v.queueStore c0 + v.functionStore c0 (s1.cell c0).fb.logn ≤ 65536 ∧ (dw 4).toNat / 2 ^ 60 = 0 ∧ dw 5 = 0 ∧ dw 6 = 0 ∧ dw 7 = 0 ∧
    ((s.cell c0).queues[1]).frozen = false ∧ ((s.cell c0).queues[1]).state = .unbound) := by
  refine ⟨⟨rfl, ?_⟩, ⟨rfl, ?_⟩, rfl, ?_, ⟨?_, ⟨_, eq_pair (eq_ok ?_), rfl⟩, ?_, fun _ => ?_⟩, ?_⟩ <;> decide +kernel

/-- AccumulatorInstructions: a detached accumulator, an attached one, a wait, and a record to take. -/
theorem witness_accumulators : (let s := (portState Queue.reset (queue0 [])).modSeq 0 (fun q => q.writeG 1 (3 + 2 ^ 8));
      open_ s 0 ∧ (me s).accs[(15 : Fin 16)].attach = none ∧ (reg s 1).toNat / 2 ^ 6 % 4 = 0 ∧ (reg s 1).toNat / 2 ^ 9 = 0 ∧ outAt s 3 (queue0 []) ∧
      (queue0 []).entries = [] ∧ (16 : BitVec 5).toNat + (15 : BitVec 4).toNat ≤ 31) ∧
    (let s := (portState Queue.reset (queue0 [data0 7])).modSeq 0 (fun q =>
        { q with accs := q.accs.set 15 { Acc.reset with attach := some (3, 1) }, wait := .accr 16 14 15 });
      (me s).accs[(15 : Fin 16)].attach = some (3, 1) ∧ (me s).accs[(15 : Fin 16)].attach ≠ none ∧ (me s).wait = .accr 16 14 15 ∧ (me s).run = .running ∧
      (me s).accs[(14 : Fin 16)].attach = none ∧ outAt s 3 (queue0 [data0 7]) ∧ (queue0 [data0 7]).frozen = false ∧
      (queue0 [data0 7]).head = some (data0 7) ∧ (data0 7).isData = true ∧ (data0 7).v1 = none ∧ open_ s 0 ∧ canTrap s ∧
      ¬ unattached s 3 ∧ (me s).outPort[4] = none) := by
  repeat' apply And.intro
  all_goals first | exact rfl | decide +kernel | exact fun h => h 15 1 rfl

/-- A region with an IDLE group of two sections, a RUNNING one, and a section that is armed. -/
def regG : Region := { reg0 with
  groups := [⟨0, 0x7F, 0, .idle, 0, 0, 0⟩, ⟨1, 0x7F, 0, .running, 0, 0, 0⟩],
  sections := [⟨0, 0, [], [], 0, [], 0, 0, false, 1⟩, ⟨0, 1, [], [], 3, [], 0, 0, false, 1⟩] }

/-- GroupInstructions: a group that may start and one that runs, its wait; a section that is armed and one that is not, one that is none, and counts
in and out of range. -/
theorem witness_groups : (let s := inRegion regG;
      open_ s 0 ∧ canTrap s ∧ s.regionOfSeq 0 = some regG ∧ regG.cfg.state ≠ .flipping ∧ (∃ x, regG.groups[(0 : BitVec 6).toNat]? = some x ∧ x.state ≠ .running) ∧
      ancestorRuns regG 0 = false ∧ regG.childGroups 0 = [] ∧ ancestorRuns regG 1 = true ∧
      (∃ x, regG.groups[(1 : BitVec 6).toNat]? = some x ∧ x.state = .running) ∧
      (∃ x, regG.sections[(0 : BitVec 6).toNat]? = some x ∧ x.left = 0 ∧ ∀ p ∈ sourceNodes regG x, ∀ y ∈ s.consumers regG p.1 p.2, 0 < fits s p y) ∧
      (∃ x, regG.sections[(1 : BitVec 6).toNat]? = some x ∧ 0 < x.left) ∧ regG.sections[(2 : BitVec 6).toNat]? = none ∧
      0 < (reg s 3).toNat ∧ (reg s 3).toNat < 2 ^ 24 ∧ (reg s 0).toNat = 0 ∧ 2 ^ 24 ≤ (reg s 2).toNat) ∧
    (let s := (inRegion regG).modSeq 0 (fun q => { q with wait := .gwait 0 }); (me s).wait = .gwait 0 ∧ (me s).run = .running) := by
  refine ⟨⟨⟨rfl, ?_⟩, ⟨rfl, ?_⟩, rfl, ?_, ⟨_, rfl, ?_⟩, ?_, ?_, ?_, ⟨_, rfl, rfl⟩, ⟨_, rfl, rfl, ?_⟩, ⟨_, rfl, ?_⟩, rfl, ?_, ?_, rfl, ?_⟩, rfl, rfl⟩ <;>
    decide +kernel

/-- The small state with numbers at addresses of its first page. -/
def withMem (s : State) (l : List (Nat × Nat)) : State := l.foldl (fun s p => s.putNum k3 (0x10000 + p.1) 8 p.2) s

/-- BarrierInstructions: a barrier that is OPEN and gets its last arrival, one that wants more, and one that is not OPEN; with and without an
arrival recorded; a phase that has completed and one that has not. -/
theorem witness_barriers : (let s := (withMem s0 [(0x40, 2 ^ 32), (0x48, 2 ^ 32), (0x50, 2 * 2 ^ 32), (0x58, 2 ^ 32)]).modSeq 0 (fun q =>
        { q with arv := some (0x40, 0), g := (q.g.set 10 0x50).set 11 0x60 });
      let s1 := atBar (settled (s.xlate 0 .rw 0x40).2) (at0 0x40);
      let s2 := released s1 3 5;
      MemOk s ∧ inStack 0x10040 = true ∧ guardOn s 0 0 ∧ mayIssue s ∧ canTrap s ∧ barReaches s s1 .rw (reg s 4) (at0 0x40) ∧
      barReaches s (atBar (settled (s.xlate 0 .r 0x40).2) (at0 0x40)) .r (reg s 4) (at0 0x40) ∧ storesPass s ∧
      0 < (reg s (8 + 1)).toNat ∧ (reg s 11).toNat < 2 ^ 32 ∧
      (barrier s2 (at0 0x40) / 2 ^ 96 % 4 = 1 ∧ barrier s2 (at0 0x40) / 2 ^ 32 % 2 ^ 32 ≤ barrier s2 (at0 0x40) % 2 ^ 32 + 1) ∧
      (barrier s2 (at0 0x50) / 2 ^ 96 % 4 = 1 ∧ barrier s2 (at0 0x50) % 2 ^ 32 + 1 < barrier s2 (at0 0x50) / 2 ^ 32 % 2 ^ 32) ∧
      barrier s2 (at0 0x60) / 2 ^ 96 % 4 ≠ 1 ∧ (me s).arv = some (0x40, 0) ∧ BitVec.ofNat 32 (barrier s1 (at0 0x40) / 2 ^ 64) = 0) ∧
    (let s := (withMem s0 [(0x40, 2 ^ 32), (0x48, 2 ^ 32 + 1)]).modSeq 0 (fun q => { q with arv := some (0x40, 0), wait := .barw 0x40 5 });
      let s1 := atBar (settled (s.xlate 0 .r 0x40).2) (at0 0x40);
      (me s).wait = .barw 0x40 5 ∧ (me s).run = .running ∧ barReaches s s1 .r 0x40 (at0 0x40) ∧ barrier s1 (at0 0x40) / 2 ^ 96 % 4 = 1 ∧
      BitVec.ofNat 32 (barrier s1 (at0 0x40) / 2 ^ 64) ≠ 0) ∧
    (me s0).arv = none := by
  refine ⟨⟨?_, ?_, rfl, ⟨rfl, ?_⟩, ⟨rfl, ?_⟩, ⟨_, ?_, eq_pair (eq_ok ?_), ?_, rfl, ?_⟩, ⟨_, ?_, eq_pair (eq_ok ?_), ?_, rfl, ?_⟩,
    fun r h => (List.not_mem_nil h).elim, ?_⟩, ⟨rfl, rfl, ⟨_, ?_, eq_pair (eq_ok ?_), ?_, rfl, ?_⟩, ?_⟩, rfl⟩
  · show Memory.wf _ = true; decide +kernel
  all_goals decide +kernel

/-- A channel descriptor at 0x40 for a FLOWING queue whose slots lie at 0x400, and the channel 1 that names it. -/
def chanState : State :=
  (withMem { s0 with dies := s0.dies.set 0 { s0.die 0 with tlb := [page] } }
    [(0x40, 4 + 12 * 2 ^ 4 + 4 * 2 ^ 15 + 2 ^ 26 + 2 ^ 29), (0x58, 0x400), (0x68, 2 * 2 ^ 32 + 3 * 2 ^ 35)]).modSeq 0 (fun q =>
      { q with chanMap := q.chanMap.set 1 0x40 })

/-- The descriptor as the sequencer finds it, behind the stores ordered before. -/
def chanFound : State := settled (chanState.xlate 0 .rw 0x40).2
def chanDesc : SoftDesc := ⟨⟨4 + 12 * 2 ^ 4 + 4 * 2 ^ 15 + 2 ^ 26 + 2 ^ 29, 0, 0⟩, 0x400, 0, 0, 2, 3⟩

/-- ChannelInstructions: a queue with room for a `send`; one with a unit for a `recv`, and one with none; the waits. -/
theorem witness_channels : (let s := chanState;
      let s1 := chanFound;
      let s2 := s1.flush 0;
      let y := s2.softOf 5 0x40 0x10040 chanDesc;
      let u := unitOf { kind := 0, flags := 0, domain := 0, weight := 1, nest := 0, seq := 0 }
        ((List.range 16).map (fun i => reg s (16 + BitVec.ofNat 5 i)));
      (16 : BitVec 5).toNat + (15 : BitVec 4).toNat ≤ 31 ∧ chanAt s 1 0x40 ∧ chanReaches s s1 0x40 (at0 0x40) ∧ guardOn s 0 0 ∧ mayIssue s ∧
      storesPass s ∧ ¬ (me s).cycle < (me s).chBack[1] ∧ softDescOf (fun i => s2.dwordAt k3 (0x10040 + 8 * i)) = some chanDesc ∧
      softDescOf (fun i => BitVec.ofNat 64 (s1.seqNum 0 k3 (0x10040 + 8 * i) 8)) = some chanDesc ∧ y.q.state = .flowing ∧ u.slots ≤ y.q.free ∧
      y.q.occ + u.slots < y.q.high ∧ y.q.spills = false ∧ y.q.kv = false ∧
      s2.slotFault (seqDie 0) 5 chanDesc y.cur ((y.dirty { y with q := y.q.enqueue u }).map Prod.fst) = none ∧ y.q.head = none) ∧
    (let s : State := { chanState with softqs := [⟨5, 0x40, 0x10040, queue0 [data0 7], 0, 0⟩] };
      let s1 := settled (s.xlate 0 .rw 0x40).2;
      (s1.softOf 5 0x40 0x10040 chanDesc).q.head = some (data0 7) ∧
      s1.slotFault (seqDie 0) 5 chanDesc 0 (List.range (data0 7).slots) = none) ∧
    (let s := chanState.modSeq 0 (fun q => { q with wait := .recv 16 1 15 }); (me s).wait = .recv 16 1 15 ∧ (me s).run = .running) ∧
    (let s := chanState.modSeq 0 (fun q => { q with wait := .send 1 }); (me s).wait = .send 1 ∧ (me s).chBack[1] ≤ (me s).cycle) ∧
    (let s := chanState.modSeq 0 (fun q => { q with wait := .put 1 }); (me s).wait = .put 1 ∧ (me s).backoff[1] ≤ (me s).cycle) := by
  refine ⟨⟨?_, ⟨rfl, ?_, ?_⟩, ⟨_, eq_pair (eq_ok ?_), rfl, ?_⟩, rfl, ⟨rfl, ?_⟩, fun r h => (List.not_mem_nil h).elim, ?_⟩, ?_⟩ <;> decide +kernel

/-! ### Witnesses: configuration, pages, signatures, statistics -/

/-- The small state in a region whose configuration is as given. -/
def cfgState (f : CfgStatus → CfgStatus) : State := inRegion { reg0 with cfg := f CfgStatus.reset }

/-- ConfigurationInstructions: every state of the configuration that a clause names, with and without a fetch outstanding. -/
theorem witness_configuration : (let s := cfgState id;
      s.regionOfSeq 0 = some reg0 ∧ open_ s 0 ∧ canTrap s ∧ (reg s 4).toNat % 64 = 0 ∧ (reg s 5).toNat % 64 ≠ 0 ∧ ¬ failed reg0.cfg ∧
      reg0.cfg.state = .empty ∧ reg0.fetches.length < 16 ∧ reg0.fetches = []) ∧ s0.regionOfSeq 0 = none ∧
    ((List.replicate 16 (⟨0, 0⟩ : Fetch)).length = 16 ∧ storesPass s0) ∧
    (let r := { reg0 with cfg := { CfgStatus.reset with state := .staged } };
      let s := inRegion r;
      s.regionOfSeq 0 = some r ∧ s.region r.serial = some r ∧ r.cfg.state = .staged ∧ (∀ x ∈ r.sections, x.left = 0) ∧
      (s.stagedView r).ungatedCycle = false ∧ s.stagedReject r = none ∧ (s.stagedView r).badPulse = none ∧ (s.stagedView r).badCircuit = none ∧
      r.cfg.state ≠ .flipping ∧ r.cfg.state ≠ .empty ∧ r.fetches = []) ∧
    ({ reg0 with fetches := [⟨0, 0⟩] } : Region).fetches ≠ [] ∧ failed { CfgStatus.reset with state := .crcFail } := by
  refine ⟨⟨rfl, ⟨rfl, ?_⟩, ⟨rfl, ?_⟩, ?_, ?_, ?_, rfl, ?_, rfl⟩, rfl, ⟨rfl, fun r h => (List.not_mem_nil h).elim⟩, ?_, ?_, .inl rfl⟩
  · decide +kernel
  · decide +kernel
  · decide +kernel
  · decide +kernel
  · unfold failed; decide +kernel
  all_goals decide +kernel

/-- A block record without a cell record at 0x40, and a region that fetches it. -/
def fetchRegion : Region := { reg0 with cfg := { CfgStatus.reset with state := .loading, issued := 1 }, fetches := [⟨0x40, 0⟩] }
def fetchState : State :=
  let s := inRegion fetchRegion
  withMem { s with dies := s.dies.set 0 { s.die 0 with tlb := [page] } } [(0x40, 0x4B42 + 2 ^ 32), (0x50, 3349496918)]

/-- ConfigurationCompletes: a wait for the fetches, a record that its checks pass, and a cell that may flip to a shadow. -/
theorem witness_configurationCompletes : (let s := (cfgState id).modSeq 0 (fun q => { q with wait := .cfgchk 1 });
      s.regionOfSeq 0 = some reg0 ∧ (me s).wait = .cfgchk 1 ∧ (me s).run = .running ∧ reg0.fetches = []) ∧
    (let s := fetchState;
      s.region 1 = some fetchRegion ∧ fetchRegion.fetches[0]? = some ⟨0x40, 0⟩ ∧ fetchRegion.cfg.state = .loading ∧ fetchRegion.lostLoad = false ∧
      s.engineWay fetchRegion.die fetchRegion.launch.ctx 0x40 = .up ∧
      ((s.settleDie 0).fetchBlock fetchRegion 0x40 none (fun x y => decide ((x, y) ∈ fetchRegion.tried))).toOption.isSome = true) ∧
    (let r := { reg0 with cfg := { CfgStatus.reset with state := .flipping } };
      let s := (inRegion r).setCell c0 { Cell.reset with shadow := some CellConfig.reset };
      s.regionOf c0 = some r ∧ r.cfg.state = .flipping ∧ s.cellRuns c0 = true ∧ s.mayFlip c0 = true ∧ (s.cell c0).holdsState = false ∧
      (let s1 := (s.emitAll c0 capoItem).modCell c0 (fun x => { x with
          queues := x.queues.map (fun q => if (q.head.map (fun u => u.tag.kind == 5)).getD false then q.pop else q) });
       (s1.applyShadow r (s1.stagedView r) c0).isSome = true) ∧ (s.cell c0).shadow = some CellConfig.reset) := by
  repeat' apply And.intro
  all_goals decide +kernel

/-- PageInstructions: an address beyond bit 47 and one below it; a region that pins nothing, one that pins the page, and one with four retunes; a walk
that ends at a leaf, and one that does not. -/
theorem witness_pages : guardOn s0 0 0 ∧ 2 ^ 48 ≤ (reg s0 1).toNat ∧ (reg s0 9).toNat < 2 ^ 48 ∧ (reg s0 9).toNat = 2 ^ 48 - 1 ∧
    (let s := inRegion reg0; open_ s 0 ∧ canTrap s ∧ s.regionOfSeq 0 = some reg0 ∧ reg0.retunes.length < 4 ∧ s.region reg0.serial = some reg0 ∧
      s.pinsRange reg0 (reg s 4).toNat 1 = false ∧ reg0.placed = true) ∧ s0.lookupWay 0 5 (reg s0 1) sq0.tlb = .up ∧
    (farRoot .down).lookupWay 0 5 0x3000 sq0.tlb = .down ∧ (farRoot .fault).lookupWay 0 5 0x3000 sq0.tlb = .broken ∧
    (let s := (inRegion reg0).setCell c0 { Cell.reset with pins := [page] }; s.pinsRange reg0 0x40 1 = true) ∧
    (let r := { reg0 with retunes := List.replicate 4 ⟨false, false, none, none⟩ };
      (inRegion r).regionOfSeq 0 = some r ∧ 4 ≤ r.retunes.length) ∧
    s0.walk 5 0x40 = .bad 0 false ∧
    (let s : State := { [(0x30000, 0x31001), (0x31000, 0x32001), (0x32000, 0x33001), (0x33000, 0x009000000001001F)].foldl
        (fun s p => s.putNum k0 p.1 8 p.2) s0 with ctxs := [(5, { Ctx.reset with ptroot := 0x30000, state := .running })] };
      s.walk 5 0x40 = .leaf page) := by
  repeat' apply And.intro
  all_goals first | decide +kernel | exact rfl

/-! ### Witnesses: engines -/

/-- The head of the queue of an engine of die 0. -/
def desc0 : QDesc := { desc := .phys 0x20000, ticket := none, sel := some 0, read := [] }

/-- A state with a descriptor of the given double-words at the head of an engine's queue, every function ready. -/
def engine (s : State) (e : Fin 6) (dws : List Nat) : State :=
  let s1 := (dws.zipIdx).foldl (fun s p => s.putNum k0 (0x20000 + 8 * p.2) 8 p.1) s
  s1.modDie 0 (fun x => { x with ready := 2 ^ 256 - 1, engq := x.engq.set e [desc0], tlb := [page] })

theorem desc0_ok : ∀ pa : Word64, desc0.desc = .phys pa → physOk pa.toNat 64 = true := fun _ h => by
  injection h with h; subst h; decide

/-- The double-words that an engine reads of it. -/
def dwOf (s : State) (i : Nat) : Word64 := (s.settleDie 0).wordOf 0 desc0 i

/-- Context 5 in a state, and in the pages that the small states use. -/
def ctxIn (s : State) (c : CState) : State := { s with ctxs := [(5, { Ctx.reset with state := c })] }

/-- InvalidationsAndRetunes: a sound descriptor and one that is not; a retune by token and one by mute that may end. -/
theorem witness_invalidations : (let s := engine (ctxIn s0 .running) 2 [0x1000, 1 + 5 * 2 ^ 32 + 2 ^ 48, 0, 0];
      descAt s 0 2 desc0 (dwOf s) ∧ fieldOf (dwOf s 3) 56 8 = 0 ∧ (dwOf s 0).toNat % 4096 = 0 ∧ fieldOf (dwOf s 1) 0 32 ≠ 0 ∧
      fieldOf (dwOf s 1) 41 7 = 0 ∧ fieldOf (dwOf s 1) 56 8 = 0 ∧ fieldOf (dwOf s 2) 2 62 = 0 ∧ fieldOf (dwOf s 3) 0 56 = 0 ∧
      (s.ctx (BitVec.ofNat 9 (fieldOf (dwOf s 1) 32 9))).state ≠ .freed ∧ (s.ctx (BitVec.ofNat 9 (fieldOf (dwOf s 1) 32 9))).state ≠ .terminating ∧
      (∀ x : BitVec 3, (s.die x).invals = []) ∧ (∀ r ∈ s.regions, s.pinsRange r (dwOf s 0).toNat 4096 = false) ∧ (dwOf s 1).getLsbD 48 = true) ∧
    (let s := engine (ctxIn s0 .running) 2 [0x1001, 1 + 5 * 2 ^ 32 + 2 ^ 48, 0, 0]; (dwOf s 0).toNat % 4096 ≠ 0) ∧
    (let r := { reg0 with retunes := [⟨true, true, none, none⟩] };
      let s := inRegion r;
      s.region 1 = some r ∧ r.placed = true ∧ r.kstate ≠ .frozen ∧ s.retunePassed r = true) ∧
    (let r := { reg0 with retunes := [⟨true, true, none, none⟩], kstate := .frozen };
      let s := (inRegion r).setCell c0 Cell.reset;
      s.region 1 = some r ∧ r.placed = true ∧ (∀ c ∈ s.cellsOf r, s.mpQuiet c = true) ∧ s.cellsOf r = [c0]) ∧
    (let r := { reg0 with retunes := [⟨false, true, none, some 7⟩] };
      let s := (inRegion r).setCell c0 Cell.reset;
      s.region 1 = some r ∧ (∀ c ∈ s.cellsOf r, s.mpQuietBefore c 7 = true) ∧ s.cellsOf r = [c0]) ∧
    (let r := { reg0 with retunes := [⟨false, true, none, none⟩] };
      let s := (inRegion r).modSeq 0 (fun q => { q with run := .stopped });
      s.region 1 = some r ∧ s.allMuted r = true ∧ r.cut = .none ∧ (s.seq r.lead).run = .stopped ∧
      (∀ c ∈ s.cellsOf r, s.mpQuiet c = true) ∧
      ∀ c ∈ s.cellsOf r, (s.cell c).mp.held = [] ∧ ∀ x ∈ (s.cell c).queues, ∀ i ∈ x.units, badToken i = false) := by
  refine ⟨⟨⟨rfl, desc0_ok, ?_, ?_, rfl⟩, ?_⟩, ?_⟩ <;> decide +kernel

/-- SignatureInstructions: handles at the ends of their ranges, the waits, an empty slot, a foreign one and one of the context. -/
theorem witness_signatures : (let s := s0.modDie 0 (fun x => { x with tlb := [page] });
      guardOn s 0 0 ∧ mayIssue s ∧ canTrap s ∧ (reg s 8).toNat < 2 ^ 10 ∧ (reg s 4).toNat % 64 = 0 ∧
      ((s.flush 0).sigAnswer 0 5 (reg s 4) (reg s 8)).toOption.isSome = true ∧ 2 ^ 10 ≤ (reg s 2).toNat ∧ (reg s 8).toNat < 2 ^ 9 ∧
      2 ^ 9 ≤ (reg s 2).toNat ∧ (∀ k ∈ s.slots, k.handle = 2 → k.ctx = some 5 → k.kind ≠ 3) ∧ (∀ k ∈ s.slots, k.handle = 2 → k.ctx ≠ some 5) ∧
      s.slots.find? (fun k => k.handle = 9 ∧ k.ctx = some 5 ∧ k.kind ≠ 4) = some key5 ∧ key5.kind ≠ 3) ∧
    (let s := seqWith (fun q => { q with wait := .sigv 1 0x40 2 }); (me s).wait = .sigv 1 (reg s 4) (reg s 8)) ∧
    (let s := seqWith (fun q => { q with wait := .keyh 1 2 }); (me s).wait = .keyh 1 (reg s 8)) := by
  repeat' apply And.intro
  all_goals first | decide +kernel | exact rfl

/-- LaunchAndStatistics: a descriptor that can be read; a table that can be stored, and a region in the other mode; an adder with a token; a root with
a token, whose register is 0 and whose register is an address. -/
theorem witness_statistics : (let s := s0; guardOn s 0 0 ∧ mayIssue s ∧ reaches s (s.xlate 0 .r 0x40).2 .r 64 (reg s 4) (at0 0x40)) ∧
    (let s := inRegion reg0; open_ s 0 ∧ canTrap s ∧ s.region reg0.serial = some reg0 ∧ reg0.launch.cmode = true ∧ (reg s 4).toNat % 64 = 0 ∧
      (let s1 := s.modRegion 1 (fun r => { r with stats := [] }); (s1.storeStats 0 (reg s 4) 0 (statEntries reg0.stats)).2 = none) ∧
      (∀ w ∈ s.statPaths 0 (reg s 4), w = .up)) ∧
    ({ reg0 with launch := { launch0 with cmode := false } } : Region).launch.cmode = false ∧
    (let r := { reg0 with statRoot := some ⟨0, 0, 1, 0⟩, w := 2 };
      let s := (inRegion r).setCell c0 { Cell.reset with stat := [⟨1, 2, 3, 4, 1, 7⟩] };
      s.region 1 = some r ∧ ¬ ((1 : BitVec 4) = r.x + 0 ∧ (0 : BitVec 4) = r.y + 0) ∧
      ((s.cellsOf r).filter (fun c => decide (c.x = r.x + 0 ∧ c.y = r.y + 0))).filterMap (fun c => (s.cell c).stat.head?) = [⟨1, 2, 3, 4, 1, 7⟩] ∧
      ((s.cellsOf r).filter (fun c => decide (c.x = r.x + 0 ∧ c.y = r.y + 0))).Nodup) ∧
    (let r := { reg0 with statRoot := some c0, rootToks := [⟨1, 2, 3, 4, 1, 7⟩] };
      let at_ (v : Word64) : State := ((inRegion r).modDie 0 (fun x => { x with tlb := [page] })).setCell c0
        { Cell.reset with active := { CellConfig.reset with prm := CellConfig.reset.prm.set 14 v } };
      (at_ 0).region 1 = some r ∧ r.rootToks = [⟨1, 2, 3, 4, 1, 7⟩] ∧ ((at_ 0).cell c0).active.prm[14] = 0 ∧
      ((at_ 0x40).cell c0).active.prm[14] ≠ 0 ∧ (((at_ 0x40).setRegion { r with rootToks := [] }).xlateMp c0 .rw false 0x40).1 = .ok (at0 0x40) ∧
      (((at_ 0x40).setRegion { r with rootToks := [] }).xlateMp c0 .rw false 0x40).2.poisonIn 0x10040 64 = none ∧ MemOk (at_ 0x40)) := by
  refine ⟨⟨rfl, ⟨rfl, ?_⟩, ⟨?_, ⟨_, eq_pair (eq_ok ?_), rfl⟩, ?_, fun _ => ?_⟩⟩, ⟨⟨rfl, ?_⟩, ⟨rfl, ?_⟩, ?_⟩, rfl, ?_, ⟨?_, rfl, ?_, ?_, eq_ok ?_, ?_, rfl⟩⟩ <;>
    decide +kernel

/-! ### Witnesses: cell operations -/

/-- A cell with a word in slot 0, units in the latches of that slot and parameter registers. -/
def cellOf (w : Word32) (vs : List (Nat × Item)) (prm : List (Nat × Word64)) : Cell :=
  { Cell.reset with
    active := { CellConfig.reset with
      nodes := CellConfig.reset.nodes.set 0 (some w), prm := prm.foldl (fun v p => v.setIfInBounds p.1 p.2) CellConfig.reset.prm },
    latches := vs.foldl (fun v p => v.setIfInBounds p.1 (some p.2)) Cell.reset.latches }

/-- The machine with that cell, whose node in slot 0 has the turn, in a region or in none. -/
def nodeIn (s : State) (x : Cell) : State := { s.setCell c0 x with nodeTurn := (c0, 0) }
def nodeWith (vs : List (Nat × Item)) (prm : List (Nat × Word64)) : State := nodeIn State.reset (cellOf 0 vs prm)

/-- A record of 64-bit lanes, with a SEQ. -/
def rec0 (seq : BitVec 28) (vs : List Nat) : Item := word0 { Tag.template with seq := seq } (payloadOf 64 vs)
def token0 (kind : BitVec 4) : Item := word0 { Tag.template with kind := kind, weight := 0 } 0

/-- ArithmeticNodes: the functions of two operands and of one, a comparison of integers, `sel`, and `sat` with bounds in order. -/
theorem witness_arithmetic : (let s := nodeWith [(0, rec0 0 [1, 2]), (1, rec0 0 [3]), (2, rec0 0 [1])] [(0, 0xFFFFFFFFFFFFFFFF), (1, 5)];
      (laneOf (.arithAdd 63 63 0 0 0 0)).isSome = true ∧ (laneOf (.arithNeg 63 63 1 0)).isSome = true ∧ (cmpOf (.arithCmpLt 63 63 0 0)).isSome = true ∧
      ready s (usedPos [0, 1] 0) 63 63 ∧ ready s (usedPos [0] 1) 63 63 ∧ ready s (usedPos [0, 1, 2] 0) 63 63 ∧ (laneFmtOf s).float = none ∧
      (∃ x : Word32, (here s).word s.nodeTurn.2 = some x ∧ x.toNat % 8 < 6) ∧ (0 : Nat) < 15 ∧
      sgn 64 (par s 0).toNat ≤ sgn 64 (par s 1).toNat) := by
  have d (p : Nat) (hp : p = 0 ∨ p = 1 ∨ p = 2) : ∃ u, dataAt (nodeWith [(0, rec0 0 [1, 2]), (1, rec0 0 [3]), (2, rec0 0 [1])]
      [(0, 0xFFFFFFFFFFFFFFFF), (1, 5)]) p u := by
    rcases hp with rfl | rfl | rfl <;> exact ⟨_, rfl, rfl⟩
  refine ⟨by decide +kernel, by decide +kernel, by decide +kernel, ⟨⟨by decide +kernel, rfl⟩, fun p hp => d p ?_, by decide +kernel, by decide +kernel⟩,
    ⟨⟨by decide +kernel, rfl⟩, fun p hp => d p ?_, by decide +kernel, by decide +kernel⟩,
    ⟨⟨by decide +kernel, rfl⟩, fun p hp => d p ?_, by decide +kernel, by decide +kernel⟩, by decide +kernel, ⟨0, rfl, by decide⟩, by decide, by decide +kernel⟩
  all_goals simp [usedPos, posA, posB, posP, posC] at hp; omega

/-- FlowAndJoinNodes: each node over its heads. -/
theorem witness_flow : (let s := nodeWith [(0, rec0 0 [7]), (1, rec0 0 [7]), (3, rec0 0 [1])] [(0, 3 + 2 ^ 12), (1, 5), (2, 7), (3, 9)];
      mayAct s ∧ at_ s 0 = some (rec0 0 [7]) ∧ at_ s 1 = some (rec0 0 [7]) ∧ at_ s 3 = some (rec0 0 [1]) ∧ (rec0 0 [1]).v0.getLsbD 0 = true ∧
      held s ≠ .carry ∧ held s = .idle ∧ roomFor s [0, 1] 63 63 ∧ steerRange s 32 0 3 ∧ 0 + 3 ≤ 15 ∧
      (∀ i < 2, (par s (0 + 1 + i)).toNat < (par s (0 + 2 + i)).toNat) ∧ (par s 2).toNat ≤ (rec0 0 [7]).key.toNat ∧
      (rec0 0 [7]).key.toNat < (par s 3).toNat ∧ (rec0 0 [4]).key.toNat < (par s 1).toNat ∧
      (joinRows s (.isect 63 63 0 0)).isSome = true ∧ (joinRows s (.jcmp 63 63 0 0)).isSome = true ∧ (par s 0).toNat / 2 ^ 12 % 8 < 5) ∧
    (let s := nodeIn State.reset { cellOf 0 [(0, rec0 0 [7]), (1, token0 3), (3, rec0 0 [0])] [] with nst := Cell.reset.nst.set 0 .carry };
      held s = .carry ∧ at_ s 3 = some (rec0 0 [0]) ∧ (rec0 0 [0]).v0.getLsbD 0 = false) ∧
    (let s := nodeIn State.reset { cellOf 0 [(0, rec0 0 [7]), (1, token0 3)] [] with nst := Cell.reset.nst.set 0 (.jwin [rec0 0 [7]] false none) };
      mayAct s ∧ roomFor s [0, 1] 63 63 ∧ dataAt s 0 (rec0 0 [7]) ∧ at_ s 1 = some (token0 3) ∧ (token0 3).tag.kind = 3 ∧
      held s = .jwin [rec0 0 [7]] false none) ∧
    (let s := nodeIn State.reset { cellOf (BitVec.ofNat 32 ((encode (.copy 63 63 0 0)).getD 0)) [(0, token0 2)] [] with muted := false };
      (s.cell c0).word 0 = some (BitVec.ofNat 32 ((encode (.copy 63 63 0 0)).getD 0)) ∧
      (decodeNode ((encode (.copy 63 63 0 0)).getD 0)).toOption = some (.copy 63 63 0 0) ∧ mayAct s ∧ at_ s 0 = some (token0 2) ∧
      s.issueSlot c0 = some 0) := by
  repeat' apply And.intro
  all_goals decide +kernel

/-- RecordNodes: the three places of a record about NEXT, a free slot and a hit, lookups, the p trigger of a drain, and a window of one. -/
theorem witness_records : (let s := nodeIn State.reset { cellOf 0 [(0, rec0 5 [7, 9]), (3, rec0 0 [0])] [(0, 3), (1, 1 + 2 ^ 8 + 2 ^ 16 + 4 * 2 ^ 24)] with
        nst := Cell.reset.nst.set 0 (.reorder 5 [] none), fb := { Fretboard.reset with vt := true, entries := [(8, ⟨8, 1, 1, false, false, false, false⟩)] } };
      mayAct s ∧ dataAt s 0 (rec0 5 [7, 9]) ∧ dataAt s 3 (rec0 0 [0]) ∧ roomFor s [0] 63 63 ∧ roomFor s [0, 3] 63 63 ∧ (par s 0).toNat % 16 ≤ 9 ∧
      held s = .reorder 5 [] none ∧ ((5 : BitVec 28) - 5).toNat = 0 ∧ 0 < ((5 : BitVec 28) - 4).toNat ∧ ((5 : BitVec 28) - 4).toNat < 2 ^ 3 ∧
      2 ^ 27 ≤ ((5 : BitVec 28) - 6).toNat ∧ (here s).geo.isSome = true ∧ (par s 1).getLsbD 0 = true ∧
      (winPar (s.elemFmt c0 0) (par s 1)) = some ⟨1, 1, 1, 4⟩) ∧
    (let g : Geo := ⟨6, false, true, false, 0, 0⟩;
      let f : Fretboard := { Fretboard.reset with vt := true, present := true, entries := [(7, ⟨7, 1, 1, false, false, false, false⟩)] };
      f.probe g 7 = .hit 7 ⟨7, 1, 1, false, false, false, false⟩ ∧ f.probe g 8 = .free 8 ∧ g.isInt = true ∧ (0 : BitVec 8).getLsbD 4 = false) := by
  repeat' apply And.intro
  all_goals decide +kernel

/-- A vector of a row of zeros with a descriptor. -/
def vec0 (desc : Word32) : Item := vectorOf Tag.template 0 0 desc none

/-- VectorNodes: two rows in every queue of a matrix cell; a drain without a mismatch; planes of digits; records and vectors to convert; a cell whose
position a is fed by a link of digits. -/
theorem witness_vectors : (let s := nodeIn State.reset { cellOf 0 [(3, rec0 0 [0])] [] with
        queues := Vector.replicate 8 (queue0 [vec0 0, vec0 0]) };
      mayAct s ∧ roomFor s [] 63 63 ∧ (elem s).isSd = false ∧ s.fmtAt 64 c0 0 (some 1) = elem s ∧
      (∀ q : Fin 8, rowsIn s q (vec0 0) (vec0 0)) ∧ (vec0 0).v1.isSome = true ∧ vectorBad (elem s) (vec0 0) = false ∧ (par s 0).toNat / 2 ^ 8 % 256 ≤ 64 ∧
      ready s (usedPos [3] 2) 63 63 ∧ (here s).mx.suspect (here s).tol = none ∧ (here s).mx.loss = 0) ∧
    (let u := vec0 (descOf 0 8 1);
      let s := nodeWith [(0, u), (1, u), (3, u)] [];
      held s = .idle ∧ vectorBad .sdp u = false ∧ descPlane u.desc = 1 ∧ at_ s 0 = some u ∧ at_ s 1 = some u ∧ at_ s 3 = some u ∧
      mayAct s ∧ roomFor s [0, 1, 3] 63 63 ∧ 2 ≤ 2 ∧ vectorBad .sdp (vec0 (descOf 0 8 3)) = false ∧ 2 < descPlane (vec0 (descOf 0 8 3)).desc) ∧
    (let s := nodeWith [(0, rec0 0 [7])] [(0, 2)];
      mayAct s ∧ at_ s 0 = some (rec0 0 [7]) ∧ (rec0 0 [7]).v1 = none ∧ (dest s).laneBits * (elem s).recLanes ≤ 512 ∧ held s = .idle ∧
      (here s).active.resultVec (((here s).word 0).getD 0) = false ∧ 2 ≤ Fmt.i32.recLanes / Fmt.i64.recLanes ∧
      vectorBad (elem s) (vec0 0) = false ∧ (elem s).isSd = false ∧ 2 ≤ (par s 0).toNat % 16 ∧ (par s 0).toNat % 16 ≤ 8) ∧
    (let u := vec0 (descOf 0 8 1);
      let x := cellOf 0 [] [];
      let s := nodeIn (inRegion reg0) { x with
        queues := x.queues.set 0 (queue0 [u]),
        active := { x.active with bind := x.active.bind.set 0 (some 0), links := [⟨3, 0, 0, 0, 0⟩], sw := [⟨0, 0, 3, .sdp, none⟩] } };
      mayAct s ∧ at_ s 0 = some u ∧ u.tag.kind = 0 ∧ roomFor s [0] 63 63 ∧ vectorBad (elem s) u = false ∧ (elem s).isSd = true ∧ held s = .idle ∧
      descPlane u.desc = 1) := by
  refine ⟨⟨⟨by decide +kernel, rfl⟩, ⟨by decide +kernel, by decide +kernel⟩, by decide +kernel, by decide +kernel, fun q => ⟨[], ?_, rfl, rfl⟩, rfl,
    by decide +kernel, by decide +kernel, ⟨⟨by decide +kernel, rfl⟩, fun p hp => ⟨rec0 0 [0], ?_⟩, by decide +kernel, by decide +kernel⟩, by decide +kernel, rfl⟩,
    ?_⟩
  · revert q; decide +kernel
  · have : p = 3 := by simpa [usedPos, posA, posB, posP, posC] using hp
    subst this; exact ⟨rfl, rfl⟩
  repeat' apply And.intro
  all_goals decide +kernel

/-- A state whose first die has the small page, with a memport node and units in its latches. -/
def mpState (vs : List (Nat × Item)) (prm : List (Nat × Word64)) : State :=
  nodeIn ((inRegion reg0).modDie 0 (fun x => { x with tlb := [page] })) (cellOf 0 vs prm)

/-- MemoryNodes: an aligned address, with data, with words for an atomic at both widths; a nest of two records; a p trigger. -/
theorem witness_memoryNodes : (let s := mpState [(0, rec0 0 [0x40]), (1, rec0 0 [1]), (3, rec0 0 [0])] [];
      mayAct s ∧ at_ s 0 = some (rec0 0 [0x40]) ∧ at_ s 1 = some (rec0 0 [1]) ∧ dataAt s 3 (rec0 0 [0]) ∧ roomFor s [0, 1] 63 63 ∧ (port s).unit = 0 ∧
      (port s).sp24 = false ∧ (0x40 : Word64).toNat % 64 = 0 ∧ (here s).mp.reads < 64 ∧ (here s).mp.acquires = [] ∧
      suits (here s) [63, 63] false = true ∧ (s.xlateMp c0 .r true 0x40).1 = .ok (at0 0x40) ∧ (s.xlateMp c0 .w true 0x40).1 = .ok (at0 0x40) ∧
      (s.xlateMp c0 .rw false 0x40).1 = .ok (at0 0x40) ∧ (here s).mp.held = [] ∧ (port s).op.toNat ≤ 8 ∧ (here s).mp.atoms = [] ∧
      (here s).mp.journals = [] ∧ (here s).mp.isOpen[(here s).mp.ph.toNat] = true ∧ (rec0 0 [0x40]).inv = none) ∧
    (port (mpState [] [(0, 9 * 2 ^ 8)])).op.toNat = 9 ∧ (port (mpState [] [(0, 9 * 2 ^ 8)])).w64 = false ∧
    (let i : Inv := ⟨1, 0, 0⟩;
      let x := cellOf 0 [] [(1, 0), (2, 1)];
      let s := nodeIn (inRegion reg0) { x with ag := x.ag.set 0 { AgenSt.reset with due := [i] } };
      mayAct s ∧ roomFor s [] 63 63 ∧ s.mutingAt c0 = false ∧ ((here s).ag[0]).due = [i] ∧ ((here s).ag[0]).par = none ∧
      (match nestOf (here s).active.prm 0 with
        | some n => decide (1 < n.records) && (n.ends 0).isEmpty
        | none => false) = true) := by
  repeat' apply And.intro
  all_goals first | exact eq_ok (by decide +kernel) | decide +kernel

/-! ### Witnesses: events of memports, policy words, row managers -/

/-- A read of the small memport, its result, an atomic in flight, a release and a query for it. -/
def read0 : SliceReq :=
  { src := .cell c0, ph := 0, write := false, va := 0x40, pa := 0x10040, bytes := [], len := 64, key := k3, poison := false, id := 1,
    off := 0, inv := none, served := none }
def out0 (val : Option (List Byte)) : MpOut :=
  { slot := 0, item := rec0 0 [0x40], token := false, form := .record, va := 0x40, ivec := 0, heldBytes := [], parts := 1,
    got := (val.map (fun bs => (0, bs))).toList, poison := false, id := 1 }
def atom0 : AtomReq :=
  { slot := 0, item := rec0 0 [0x40], va := 0x40, ivec := 0, inv := none, idx := 0, pa := 0x10040, key := k3, op := 1, w64 := true, operand := 5,
    ret := true, skip := false, ph := 0, id := 1 }
def entry0 : OrderEntry := ⟨c0, 0, 2⟩
def query0 (a : Acquirer) : Query := { who := a, entry := entry0 }

/-- The small memport with its memport's state changed. -/
def mpWith (vs : List (Nat × Item)) (w : Word32) (f : Memport → Memport) : State :=
  nodeIn ((inRegion reg0).modDie 0 (fun x => { x with tlb := [page] })) (let x := cellOf w vs []; { x with mp := f x.mp })

/-- MemportEvents: a write and a read at their slice, an atomic, a known result, a closed phase, a LAST pulse, a count, a query and its answer for
either acquirer, an EOT at a writer and an ORDER behind a write. -/
theorem witness_memportEvents : (let s : State := { mpWith [] 0 (fun m => { m with outs := [out0 none] }) with
        pend := [read0, { read0 with write := true, bytes := addressed 0x10040 [7], len := 1 }] };
      s.pend[0]? = some read0 ∧ inPeer read0.pa = false ∧ s.pathTo read0.src.die read0.pa = .up ∧ read0.write = false ∧ s.inOrder 0 read0 = true ∧ s.pend.all (fun r => r.bound = 0) ∧
      (match s.pend[1]? with
        | some r => r.write && s.inOrder 1 r
        | none => false) = true) ∧
    (let s := mpWith [] 0 (fun m => { m with atoms := [atom0], outs := [out0 none] });
      (s.cell c0).mp.atoms[0]? = some atom0 ∧ s.pathTo c0.die atom0.pa = .up ∧ s.atomInOrder c0 0 atom0 = true ∧ atom0.skip = false ∧ s.poisonIn atom0.pa 8 = none ∧ MemOk s ∧
      inStack atom0.pa = true) ∧
    (let o := out0 (some (List.replicate 64 7));
      let s := mpWith [] 0 (fun m => { m with outs := [o] });
      (s.cell c0).mp.outs = [o] ∧ o.token = false ∧ o.val = some (List.replicate 64 7) ∧ o.form = .record ∧ o.poison = false ∧
      (s.cell c0).due[o.slot.toNat] = [] ∧ ((s.cell c0).word o.slot).isSome = true ∧
      (∀ t ∈ (s.cell c0).targets o.slot, (s.cell c0).targetFree o.slot [] t = true) ∧ s.rowHalted c0 = false) ∧
    (let s := mpWith [] 0 (fun m => { m with isOpen := m.isOpen.set 0 false, closed := m.closed.set 0 2, acked := m.acked.set 0 2 });
      (s.cell c0).mp.isOpen[(s.cell c0).mp.ph.toNat] = false ∧
      (s.cell c0).mp.closed[(s.cell c0).mp.ph.toNat] ≤ (s.cell c0).mp.acked[(s.cell c0).mp.ph.toNat]) ∧
    (let s := mpWith [] 0 (fun m => { m with lastDue := [(none, 7, true)] });
      (s.cell c0).mp.lastDue = [(none, 7, true)] ∧ s.pend = [] ∧ (s.cell c0).mp.atoms = [] ∧ (s.cell c0).mp.held = []) ∧
    (let s : State := { mpWith [] 0 id with counts := [⟨16, c0, 3, 2⟩] };
      s.counts.find? (fun x => x.slice = 16 ∧ x.src = c0 ∧ x.ph = 3) = some ⟨16, c0, 3, 2⟩ ∧ (aget s.cells c0).isSome = true) ∧
    (let s := mpWith [] 0 (fun m => { m with acquires := [entry0] });
      (s.acquiring (.cell c0))[0]? = some entry0 ∧ s.queries = [] ∧
      s.pathDies (acquirerDie (.cell c0)) entry0.src.die ≠ .broken) ∧
    (let s : State := { mpWith [] 0 (fun m => { m with acquires := [entry0] }) with queries := [query0 (.cell c0), query0 (.seq 0)] };
      s.queries[0]? = some (query0 (.cell c0)) ∧ s.queries[1]? = some (query0 (.seq 0)) ∧ s.releaseDone (query0 (.cell c0)) = true ∧
      s.releaseDone (query0 (.seq 0)) = true ∧
      s.pathDies c0.die entry0.src.die = .up ∧ s.pathDies (seqDie 0) entry0.src.die = .up) := by
  repeat' apply And.intro
  all_goals first | decide +kernel | exact rfl

/-- The word of a `mwr` in slot 0 of a small memport with tokens of a kind at both heads. -/
def mwrWord : Word32 := BitVec.ofNat 32 ((encode (.mwr 63 63 0 0)).getD 0)
def eotState : State :=
  mpWith [(0, token0 3), (1, token0 3)] mwrWord (fun m => { m with held := [⟨[(0x10040, 7)], k3, false, 1, 0x40, none, ⟨0, rec0 0 [0x40], 0⟩⟩] })
def orderState : State := mpWith [(0, token0 8), (1, token0 8)] mwrWord (fun m => { m with issued := m.issued.set 0 1 })

/-- MemportEvents: the EOT at a memport that writes, and an ORDER behind a write. -/
theorem witness_memportTokens : tokenTurn eotState c0 0 3 .mwr [token0 3, token0 3] ∧ MpFn.writes .mwr = true ∧
    (eotState.cell c0).mp.isOpen[(eotState.cell c0).mp.ph.toNat] = true ∧ tokenTurn orderState c0 0 8 .mwr [token0 8, token0 8] ∧
    (mergeEntries [token0 8, token0 8]).length < 7 ∧ 0 < (orderState.cell c0).mp.issued[(orderState.cell c0).mp.ph.toNat] ∧
    (orderState.cell c0).mp.isOpen[(orderState.cell c0).mp.ph.toNat] = true := by
  refine ⟨⟨mwrWord, .mwr 63 63 0 0, _, 63, 63, ?_, eq_ok ?_, rfl, ?_, ?_, ?_, ?_, ?_, ?_, ?_, ?_⟩, rfl, ?_,
    ⟨mwrWord, .mwr 63 63 0 0, _, 63, 63, ?_, eq_ok ?_, rfl, ?_, ?_, ?_, ?_, ?_, ?_, ?_, ?_⟩, ?_, ?_, ?_⟩ <;> decide +kernel

/-- A decision over three rows, the first vetoed, and the state in which it runs. -/
def dec0 : Decision :=
  { part := 0, dkind := 0, free := 0, rows := List.replicate 3 ⟨Vector.replicate 16 9, .launch 5⟩, pstate := Vector.replicate 11 4, prog := [],
    b := Vector.replicate 8 1, t := false, cur := some 1, sel := none, score := 0, veto := [0], steps := 255, pc := 3, ended := none, reserved := none }

/-- PolicyWords: the last word that may run; fields in range; a loop that begins, that goes on and that ends; a row that no veto names. -/
theorem witness_policyWords : (let s := s0.modDie 0 (fun x => { x with dec := some dec0 });
    deciding s dec0 ∧ (dec0.cur.bind (fun i => dec0.rows[i]?)).bind (fun r => r.vals[15]?) = some 9 ∧ dec0.pstate[10]? = some 4 ∧
    firstRow dec0 0 (some 1) ∧ firstRow dec0 2 (some 2) ∧ firstRow dec0 3 none ∧ dec0.cur = some 1 ∧ 1 ∉ dec0.veto) := by
  refine ⟨⟨rfl, rfl, by decide⟩, by decide, by decide, ⟨by decide, by decide, by decide, ?_⟩, ⟨by decide, by decide, by decide, ?_⟩, ?_, rfl, by decide⟩ <;>
    intro k h <;> simp [dec0] at * <;> omega

/-- The row manager of the first row, with values in x1 to x4, and its row halted. -/
def rmWith (f : Rm → Rm) (vs : List Word64) : State :=
  s0.setRm 0 (f { Rm.reset with pc := 0x30000, halted := true, x := (vs.zipIdx).foldl (fun v p => v.setIfInBounds (p.2 + 1) p.1) Rm.reset.x })

/-- A row manager whose row has a unit on its way. -/
def rowBusy : State := { rmWith id [1] with wires := [{ src := c0, dst := c0, dq := 0, item := data0 7, loss := false }] }

/-- RowManagerCommands: `khalt` with a unit on its way and with none, and a block to replay that can be reached. -/
theorem witness_halts : reg0.placed = true ∧ rowBusy.rowInFlight rowBusy.rmTurn = true ∧ rmReg rowBusy 1 = 1 ∧
    (rmWith id [1]).rowInFlight (rmWith id [1]).rmTurn = false ∧
    ((rmWith id [0x20000]).settle (.die (rmDie 0))).physUp (rmDie 0) (rmReg (rmWith id [0x20000]) 1).toNat 80 = true := by
  decide +kernel

/-- RowManagerCommands: a queue of each bound of its selector, a refused address and selectors; tickets done, not done and absent; a wait that ends;
the two forms of `khalt`; a latch of parameters, a fault register and an absent cell's; a record to replay; an event; a word that is illegal. -/
theorem witness_rowManager : (let s := rmWith id [0x40, 5 + 8 * 7];
      selects2 (rmReg s 2) 5 7 ∧ (rmReg s 1).toNat % 64 = 0 ∧ ((mgr s).tickets.filter (fun t => !t.done)).length < 16 ∧ ((s.die 7).engq[5]).length < 64) ∧
    selects2 4 4 0 ∧ (6 : Word64).toNat % 8 > 5 ∧ (64 : Word64).toNat ≥ 64 ∧ (12 : Word64).toNat % 8 = 4 ∧
    (let s := rmWith (fun m => { m with tickets := [⟨1, true⟩, ⟨2, false⟩], wait := some 1 }) [1, 2, 3];
      (∀ k ∈ (mgr s).tickets, k.num = rmReg s 1 → k.done = true) ∧ rmReg s 1 ≠ 0 ∧ (mgr s).wait = some 1 ∧
      (∃ k ∈ (mgr s).tickets, k.num = rmReg s 2 ∧ k.done = false) ∧ rmReg s 2 ≠ 0 ∧
      (mgr s).tickets.find? (fun t => t.num == rmReg s 1) = some ⟨1, true⟩ ∧ (∀ k ∈ (mgr s).tickets, k.num ≠ rmReg s 3)) ∧
    (let s := rmWith id [1, 0]; rmReg s 1 = 1 ∧ rmReg s 2 = 0) ∧
    (let s := rmWith id [(cellWord c0 0).setWidth 64 + 3 * 2 ^ 32 + 15 * 2 ^ 35, (cellWord c0 0).setWidth 64 + 2 ^ 35, (cellWord c0 0).setWidth 64, 0x20000];
      let s1 := s.setCell c0 { cellOf 0 [] [] with queues := Cell.reset.queues.set 0 (queue0 []) };
      cellRow c0 = s1.rmTurn ∧ (mgr s1).halted = true ∧ (rmReg s1 1).toNat = (cellWord c0 0).toNat + 3 * 2 ^ 32 + 15 * 2 ^ 35 ∧
      (rmReg s1 2).toNat = (cellWord c0 0).toNat + 2 ^ 35 ∧ rmReg s1 3 = (cellWord c0 0).setWidth 64 ∧ (s1.settle (.die (rmDie 0))).rvReach (rmReg s1 4) 80 = true ∧
      (s1.settle (.die (rmDie 0))).poisonIn (rmReg s1 4).toNat 80 = none ∧
      (rmReg s1 4).toNat % 128 = 0 ∧ MemOk s1 ∧ (s1.cell c0).queues[0].state = .flowing ∧ 1 ≤ (s1.cell c0).queues[0].free ∧
      (s1.cell c0).queues[0].occ + 1 < (s1.cell c0).queues[0].high ∧ (s1.cell c0).queues[0].spills = false ∧ (s1.cell c0).queues[0].kv = false ∧
      inMgmt (rmReg s1 4).toNat = false ∧
      (⟨tagOfWord (s1.dwordAt s1.osKey ((rmReg s1 4).toNat + 64)), BitVec.ofNat 512 (s1.numAt s1.osKey (rmReg s1 4).toNat 64), none, none, []⟩ : Item).isData = true) ∧
    (let s := (rmWith id [0x7401]).modDie 7 (fun x => { x with bb := [⟨1, 2, 3, 4, 5, 6⟩] });
      (s.die 7).service = true ∧ (rmReg s 1).toNat / 2 ^ 12 = 7 ∧
      (s.die 7).bb.find? (fun y => y.eseq.toNat % 1024 == (rmReg s 1).toNat % 1024) = some ⟨1, 2, 3, 4, 5, 6⟩) ∧
    (let s := (rmWith id []).putNum k0 0x30000 4 0x0000700B;
      (mgr s).wait = none ∧ (s.rvFetch 0).toOption = some (4, 0x700B) ∧
      (match decodeRm 0x700B with
        | .illegal => true
        | _ => false) = true) := by
  repeat' apply And.intro
  all_goals first | decide +kernel | exact rfl

/-! ### Witnesses: launches, contexts, partitions -/

/-- A partition of the first die's first two blocks that context 5 is assigned to. -/
def part0 : Partition :=
  { num := 1, mask := 3, ctxs := [5], policy := none, shadow := none, pendD := false, pendP := false, pendF := [], dnum := 0, fbcount := 0 }

/-- The small state with that partition and the header of an image of one block. -/
def launching (parts : List Partition) : State :=
  ((ctxIn s0 .loaded).putNum k3 0x10040 8 0x4B52494D).modDie 0 (fun x => { x with parts := parts })

/-- LaunchesAndCopies: a launch that joins a queue, one that meets a full queue, one with a reserved field and one whose partition is absent; a copy
of one line and one of no line. -/
theorem witness_launches : (let s := engine (launching [part0]) 0 [5 * 2 ^ 8 + 1 * 2 ^ 20, 0x40, 0, 0, 0, 0, 0, 0];
      descAt s 0 0 desc0 (dwOf s) ∧ fieldOf (dwOf s 0) 0 8 = 0 ∧ (s.die 0).ready.getLsbD 215 = true ∧
      ((without s 0 0).launchAsked desc0 (dwOf s)).isSome = true ∧ ((s.die 0).launchQueue 5).length < 16 ∧
      s.rangeUp 0 5 (dwOf s 1).toNat 64 = true) ∧
    (let s := (engine (launching [part0]) 0 [5 * 2 ^ 8 + 1 * 2 ^ 20, 0x40, 0, 0, 0, 0, 0, 0]).modDie 0 (fun x =>
        { x with launchq := [(5, List.replicate 16 launch0)] });
      ((without s 0 0).launchAsked desc0 (dwOf s)).isSome = true ∧ 16 ≤ ((s.die 0).launchQueue 5).length) ∧
    (let s := engine (launching [part0]) 0 [5 * 2 ^ 8 + 1 * 2 ^ 20, 0x40, 0, 0, 0, 0, 0, 1]; descAt s 0 0 desc0 (dwOf s) ∧ dwOf s 7 ≠ 0) ∧
    (let s := engine (launching []) 0 [5 * 2 ^ 8, 0x40, 0, 0, 0, 0, 0, 0]; descAt s 0 0 desc0 (dwOf s) ∧ (s.die 0).parts = []) ∧
    (let s := engine (ctxIn s0 .running) 2 [0x10040, 0x40000, 64 + 9 * 2 ^ 41, 5 + 2 ^ 56, 0, 0, 0, 0];
      descAt s 0 2 desc0 (dwOf s) ∧ fieldOf (dwOf s 3) 56 8 ≠ 0 ∧ s.copyUp 0 (dwOf s) = true ∧ (without s 0 2).copyOk (dwOf s) = true ∧ MemOk s ∧ (dwOf s 3).getLsbD 9 = false ∧
      (dwOf s 0).toNat + 64 ≤ 2 ^ 40 ∧ s.poisonIn 0x10040 64 = none ∧ s.copyKey 5 0 = some k0 ∧ s.copyKey 5 9 = some k3) ∧
    (let s := engine (ctxIn s0 .running) 2 [0x10040, 0x40000, 0, 5 + 2 ^ 56, 0, 0, 0, 0];
      descAt s 0 2 desc0 (dwOf s) ∧ s.copyUp 0 (dwOf s) = true ∧ (without s 0 2).copyOk (dwOf s) = false) := by
  refine ⟨⟨⟨rfl, desc0_ok, ?_, ?_, rfl⟩, ?_⟩, ?_, ⟨⟨rfl, desc0_ok, ?_, ?_, rfl⟩, ?_⟩, ⟨⟨rfl, desc0_ok, ?_, ?_, rfl⟩, ?_⟩,
    ⟨⟨rfl, desc0_ok, ?_, ?_, rfl⟩, ?_⟩, ⟨⟨rfl, desc0_ok, ?_, ?_, rfl⟩, ?_⟩⟩ <;>
    first | decide +kernel | (unfold MemOk; decide +kernel)

/-- A page of 2 MiB of the host's memory, readable and writable, and a region of context 5 saved behind its first page. -/
def hostPage : TlbEntry := { ctx := 5, base := 0x200000, size := 1, pte := 0x0001000000000000 ||| 0x37 }
def saved0 : Region :=
  { reg0 with
    kstate := .saved, map := [],
    image := some { base := 0x200000, at_ := 0x201000, bytes := 40, head := 41, key := some (.made 7), cells := [((0, 0, 0), Cell.reset)], seq := Seq.reset } }

/-- A run of bytes from an address on. -/
def run0 (b : Nat) (f : Nat → Byte) (k n : Nat) : List Host.Cell := (List.range' k n).map (fun i => (b + i, f i))

theorem read_run0 (b : Nat) (f : Nat → Byte) (n k j : Nat) (h : j < n) : Memory.read (run0 b f k n) (b + (k + j)) = f (k + j) := by
  induction n generalizing k j with
  | zero => omega
  | succ n ih =>
    simp only [run0, List.range'_succ, List.map_cons, Memory.read]
    cases j with
    | zero => simp
    | succ j =>
      rw [if_neg (by omega), if_neg (by omega), show k + (j + 1) = (k + 1) + j by omega]
      exact ih (k + 1) j (by omega)

theorem read_append0 (m l : List Host.Cell) (a : Nat) (h : ∀ p ∈ m, p.1 < a) : Memory.read (m ++ l) a = Memory.read l a := by
  induction m with
  | nil => rfl
  | cons p m ih =>
    have := h p List.mem_cons_self
    simp only [List.cons_append, Memory.read]
    rw [if_neg (by omega), if_neg (by omega)]
    exact ih (fun q hq => h q (List.mem_cons_of_mem p hq))

/-- The bytes of the save area that holds the saved region: its header, and behind it its image. -/
def areaByte (i : Nat) : Byte := if i < 4096 then Config.imageByte 41 i else Config.imageByte 40 (i - 4096)

/-- A state whose host memory holds that area. -/
def withArea (s : State) : State := { s with mem := s.mem ++ run0 (2 ^ 48) areaByte 0 69632 }

theorem area_bytes (s : State) (m : List Host.Cell) (key : Key) (n : Nat) (h : ∀ p ∈ m, p.1 < 2 ^ 48)
    (hs : s.mem = m ++ run0 (2 ^ 48) areaByte 0 69632) (hn : n < 17) : s.bytesAt key (2 ^ 48 + 4096 * n) 4096 = (List.range 4096).map (fun i => areaByte (4096 * n + i)) := by
  refine List.map_congr_left (fun i hi => ?_)
  have hi := List.mem_range.1 hi
  have e : 2 ^ 48 + 4096 * n + i = 2 ^ 48 + (0 + (4096 * n + i)) := by omega
  have h1 : inMgmt (2 ^ 48 + 4096 * n + i) = false := by simp only [inMgmt, decide_eq_false_iff_not]; omega
  have h2 : inStack (2 ^ 48 + 4096 * n + i) = false := by simp only [inStack, decide_eq_false_iff_not]; omega
  simp only [State.byteAt, h1, h2, Bool.false_eq_true, if_false, hs]
  rw [read_append0 _ _ _ (fun p hp => by have := h p hp; omega), e, read_run0 _ _ _ _ _ (by omega), Nat.zero_add]

theorem seal_sound (s : State) (d : BitVec 3) (ctx : BitVec 9) (va : Word64) (serial n : Nat) (h : ∀ i < n, ∃ x,
    (s.xlateEngine d ctx .r (va + BitVec.ofNat 64 (4096 * i))).1 = .ok x ∧ s.poisonIn x.pa 4096 = none ∧
      s.bytesAt x.key x.pa 4096 = sealedPage serial i) : s.sealAt d ctx va serial n = .sound := by
  induction n with
  | zero => rfl
  | succ n ih =>
    obtain ⟨x, hx, hp, hb⟩ := h n (by omega)
    simp only [State.sealAt, hx, hp, hb, ih (fun i hi => h i (by omega)), if_true]
    rfl

/-- The launch engine with a context descriptor of context 5 in a state. -/
def asked (c : CState) (rs : List Region) (mask : BitVec 256) (dws : List Nat) : State :=
  (engine { ctxIn s0 c with regions := rs } 0 dws).modDie 0 (fun x =>
    { x with parts := [{ part0 with num := 0, mask := mask }], tlb := [hostPage] })

/-- ContextDescriptors: each OP in the state that it needs and in another; LOAD with and without REQSIG; PREEMPT with a region and with none; RESUME
without a region, with one that opens and fits, that fits nowhere, and whose image does not open or cannot be read. -/
theorem witness_contexts : (let s := asked .freed [] 0 [1 + 5 * 2 ^ 8];
      descAt s 0 0 desc0 (dwOf s) ∧ ctxDescOk (dwOf s) = true ∧ fieldOf (dwOf s 0) 0 8 = 1 ∧ (s.ctx 5).cmd = none ∧ (s.ctx 5).state = .freed) ∧
    (let s := asked .created [] 0 [2 + 5 * 2 ^ 8 + 0xFF * 2 ^ 24, 0x3000, 0, 1 + 2 ^ 32];
      descAt s 0 0 desc0 (dwOf s) ∧ ctxDescOk (dwOf s) = true ∧ fieldOf (dwOf s 0) 0 8 = 2 ∧ (s.ctx 5).state = .created ∧
      (dwOf s 0).getLsbD 31 = true ∧ (s.die 7).ready.getLsbD 215 = false) ∧
    (let s := asked .created [] 0 [2 + 5 * 2 ^ 8 + 1 * 2 ^ 24, 0x3000, 0, 1 + 2 ^ 32];
      ctxDescOk (dwOf s) = true ∧ (dwOf s 0).getLsbD 32 = false ∧ fieldOf (dwOf s 0) 24 8 = 1 ∧ (s.die 0).ready.getLsbD 215 = true) ∧
    (let k : CtxCmd := { op := 3, desc := .phys 0, dies := 1, base := 0, ticket := none };
      let s : State := { asked .running [] 0 [5 + 5 * 2 ^ 8] with ctxs := [(5, { Ctx.reset with state := .preempting, cmd := some k })] };
      ctxDescOk (dwOf s) = true ∧ (s.ctx 5).cmd.isSome = true ∧ (s.ctx 5).state ≠ .freed ∧ (s.ctx 5).state ≠ .terminating) ∧
    (let s : State := { asked .created [] 0 [2 + 5 * 2 ^ 8 + 1 * 2 ^ 24 + 2 ^ 32 + 2 * 2 ^ 33, 0x3000, 0, 1 + 2 ^ 32] with
        slots := [⟨2, some 5, 3, k3, natToBytes 56 0⟩] };
      ctxDescOk (dwOf s) = true ∧ (dwOf s 0).getLsbD 32 = true ∧ fieldOf (dwOf s 0) 33 9 = 2 ∧ (s.lmsSlot 5 2).isSome = true) ∧
    (let s := asked .saved [] 0 [6 + 5 * 2 ^ 8 + 1 * 2 ^ 24, 0, 0, 1]; ctxDescOk (dwOf s) = true ∧ (s.ctx 5).state = .saved) ∧
    (let s := asked .running [reg0] 1 [3 + 5 * 2 ^ 8 + 1 * 2 ^ 24, 0, 0x200000, 0];
      ctxDescOk (dwOf s) = true ∧ (s.ctx 5).state = .running ∧ (∀ r ∈ s.regions, s.region r.serial = some r ∧ r.launch.ctx = 5 ∧ r.placed = true ∧
        (dwOf s 0).getLsbD (24 + r.die.toNat) = true ∧ r.cut = .none ∧ (s.seq r.lead).inPort = Vector.replicate 64 none)) ∧
    (let s := asked .running [] 1 [3 + 5 * 2 ^ 8 + 1 * 2 ^ 24, 0, 0x200000, 0]; ctxDescOk (dwOf s) = true ∧ s.regions = []) ∧
    (let s := asked .saved [saved0] 1 [4 + 5 * 2 ^ 8 + 1 * 2 ^ 24, 0, 0x200000, 0];
      ctxDescOk (dwOf s) = true ∧ s.regions.filter (fun r => r.launch.ctx = 5 ∧ r.kstate = .saved ∧ (dwOf s 0).getLsbD (24 + r.die.toNat) = true) = [saved0] ∧
      saved0.image.isSome = true ∧ (s.die 0).dec = none ∧ (without s 0 0).areaUp saved0 (dwOf s 2) = true ∧ (s.die 0).parts.find? (fun p => p.num = saved0.launch.part) = some { part0 with num := 0, mask := 1 } ∧
      (s.findSaved (s.freeBlocks 0 { part0 with num := 0, mask := 1 }) saved0).isSome = true ∧ s.findSaved 0 saved0 = none) ∧
    (let s := asked .saved [saved0] 1 [4 + 5 * 2 ^ 8 + 1 * 2 ^ 24, 0, 0x400000, 0];
      ctxDescOk (dwOf s) = true ∧ (without s 0 0).imageStatus saved0 (dwOf s 2) = 3) ∧
    (let y : Decision := { part := 0, dkind := 0, free := 0, rows := [], pstate := Vector.replicate 11 0, prog := [],
                             b := Vector.replicate 8 0, t := false, cur := none, sel := none, score := 0, veto := [], steps := 0, pc := 0,
                             ended := none, reserved := none };
      let s := (asked .saved [saved0] 1 [4 + 5 * 2 ^ 8 + 1 * 2 ^ 24, 0, 0x200000, 0]).modDie 0 (fun x => { x with dec := some y });
      (s.die 0).dec.isSome = true ∧ (dwOf s 0).getLsbD 24 = true) ∧
    (let s := asked .frozen [reg0] 1 [5 + 5 * 2 ^ 8]; ctxDescOk (dwOf s) = true ∧ (s.ctx 5).state ≠ .freed ∧ (s.ctx 5).state ≠ .terminating) ∧
    (let s := asked .terminating [] 1 [5 + 5 * 2 ^ 8]; ctxDescOk (dwOf s) = true ∧ (s.ctx 5).state = .terminating) := by
  refine ⟨⟨⟨rfl, desc0_ok, ?_, ?_, rfl⟩, ?_⟩, ⟨⟨rfl, desc0_ok, ?_, ?_, rfl⟩, ?_⟩, ?_⟩ <;> decide +kernel

/-- The launch engine with a RESUME of context 5 from the save area that holds the saved region, and a seal key. -/
def resumeBase (k : Nat) : State :=
  let s := asked .saved [saved0] 1 [4 + 5 * 2 ^ 8 + 1 * 2 ^ 24, 0, 0x200000, 0]
  let s1 : State := { s with slots := s.slots ++ [{ handle := 10, ctx := some 5, kind := 4, key := .made k, pub := [] }] }
  s1.putNum k0 0x60000 8 1
def resumeState (k : Nat) : State := withArea (resumeBase k)

/-- A page of the save area as an engine finds it. -/
theorem resume_page (k : Nat) (hk : k = 7 ∨ k = 8) (n : Nat) (hn : n < 17) :
    ((without (resumeState k) 0 0).xlateEngine 0 5 .r (0x200000 + BitVec.ofNat 64 (4096 * n))).1 = .ok ⟨2 ^ 48 + 4096 * n, k0⟩ ∧
    (without (resumeState k) 0 0).poisonIn (2 ^ 48 + 4096 * n) 4096 = none ∧
    (without (resumeState k) 0 0).bytesAt k0 (2 ^ 48 + 4096 * n) 4096 = (List.range 4096).map (fun i => areaByte (4096 * n + i)) := by
  refine ⟨eq_ok ?_, ?_, area_bytes _ (resumeBase k).mem k0 n ?_ ?_ hn⟩
  · have (i : Fin 17) : ∀ k ∈ [7, 8], okIs ((without (resumeState k) 0 0).xlateEngine 0 5 .r (0x200000 + BitVec.ofNat 64 (4096 * i.val))).1
        ⟨2 ^ 48 + 4096 * i.val, k0⟩ = true := by revert i; decide +kernel
    exact this ⟨n, hn⟩ k (by simpa using hk)
  · have h : (without (resumeState k) 0 0).poison = [] := by rcases hk with rfl | rfl <;> rfl
    simp only [State.poisonIn, h, List.not_mem_nil, decide_false]
    rw [List.find?_eq_none.2 (fun x _ => Bool.false_ne_true)]; rfl
  · rcases hk with rfl | rfl <;> decide +kernel
  · rcases hk with rfl | rfl <;> rfl

/-- What the seal of the saved region's image is there: its bytes are sound, and the context's key is the one given. -/
theorem resume_seal (k : Nat) (hk : k = 7 ∨ k = 8) :
    (without (resumeState k) 0 0).imageStatus saved0 0x200000 = if k = 7 then 1 else 4 := by
  have h1 : (without (resumeState k) 0 0).sealAt 0 5 0x200000 41 1 = .sound := by
    refine seal_sound _ _ _ _ _ _ (fun i hi => ⟨_, (resume_page k hk i (by omega)).1, (resume_page k hk i (by omega)).2.1, ?_⟩)
    rw [(resume_page k hk i (by omega)).2.2]
    refine List.map_congr_left (fun j hj => ?_)
    have := List.mem_range.1 hj
    rw [areaByte, if_pos (by omega)]
  have h2 : (without (resumeState k) 0 0).sealAt 0 5 0x201000 40 16 = .sound := by
    refine seal_sound _ _ _ _ _ _ (fun i hi => ⟨⟨2 ^ 48 + 4096 * (i + 1), k0⟩, ?_, (resume_page k hk (i + 1) (by omega)).2.1, ?_⟩)
    · have e : (0x201000 : Word64) + BitVec.ofNat 64 (4096 * i) = 0x200000 + BitVec.ofNat 64 (4096 * (i + 1)) := by bv_omega
      rw [e]; exact (resume_page k hk (i + 1) (by omega)).1
    · rw [(resume_page k hk (i + 1) (by omega)).2.2]
      refine List.map_congr_left (fun j hj => ?_)
      rw [areaByte, if_neg (by omega), show 4096 * (i + 1) + j - 4096 = 4096 * i + j by omega]
  have h3 : (without (resumeState k) 0 0).sealOf saved0 = if k = 7 then .sound else .broken := by
    have e : saved0.saveSize / 4096 = 16 := by decide +kernel
    have e1 : saved0.die = 0 ∧ saved0.launch.ctx = 5 := ⟨rfl, rfl⟩
    have e2 : saved0.image = some { base := 0x200000, at_ := 0x201000, bytes := 40, head := 41, key := some (.made 7), cells := [((0, 0, 0), Cell.reset)],
                                    seq := Seq.reset } := rfl
    have hk' : (without (resumeState k) 0 0).sealKey 5 = some (.made k) := by rcases hk with rfl | rfl <;> decide +kernel
    simp only [State.sealOf, e, e1, e2, h1, h2, hk']
    rcases hk with rfl | rfl <;> rfl
  have h4 : (saved0.image.map (fun i => i.base == 0x200000)).getD false = true := rfl
  simp only [State.imageStatus, h3, h4]
  rcases hk with rfl | rfl <;> rfl

/-- ContextDescriptors: an image that opens, and one under another key. -/
theorem witness_resume : (without (resumeState 7) 0 0).imageStatus saved0 0x200000 = 1 ∧ (without (resumeState 8) 0 0).imageStatus saved0 0x200000 = 4 :=
  ⟨resume_seal 7 (.inl rfl), resume_seal 8 (.inr rfl)⟩

/-- The scheduler's engine with a partition descriptor, and a mask or a program at 0x40000. -/
def parting (parts : List Partition) (rs : List Region) (at_ : Nat) (dws : List Nat) : State :=
  (engine ({ ctxIn s0 .loaded with regions := rs }.putNum k0 0x40000 8 at_) 1 dws).modDie 0 (fun x => { x with parts := parts })

/-- PartitionDescriptors: FORM of a free mask, of a taken one and of a taken number; an absent partition; DISSOLVE, ASSIGN and a removal with
a region there and without; a program that passes the checks, one that does not, and lengths outside the range. -/
theorem witness_partitions : (let s := parting [part0] [] 4 [1 + 2 * 2 ^ 8, 0x40000];
      descAt s 0 1 desc0 (dwOf s) ∧ partDesc 0 desc0 (dwOf s) ∧ fieldOf (dwOf s 0) 0 8 = 1 ∧
      (without s 0 1).osRead 0x40000 32 = some (natToBytes 32 4) ∧ (∀ p ∈ (s.die 0).parts, p.num ≠ 2 ∧ p.mask &&& 4 = 0) ∧ 4 &&& (s.die 0).fuse = 0) ∧
    (∃ p ∈ [part0], p.num = 1 ∧ p.mask &&& 2 ≠ 0) ∧
    (let s := parting [part0] [] 0 [2 + 2 * 2 ^ 8]; partDesc 0 desc0 (dwOf s) ∧ ∀ p ∈ (s.die 0).parts, p.num ≠ 2) ∧
    (let r : Region := { reg0 with launch := { launch0 with part := 1 } };
      let s := parting [part0] [r] 0 [2 + 1 * 2 ^ 8];
      partDesc 0 desc0 (dwOf s) ∧ (∃ p ∈ (s.die 0).parts, p.num = 1) ∧ ∃ r ∈ s.regions, r.die = 0 ∧ r.launch.part = 1 ∧ r.launch.ctx = 5) ∧
    (let s := parting [part0] [] 0 [3 + 1 * 2 ^ 8, 0, 5 + 2 ^ 16];
      partDesc 0 desc0 (dwOf s) ∧ s.regions = [] ∧ (s.die 0).launchq = [] ∧ (s.ctx 5).state = .loaded ∧ (dwOf s 2).getLsbD 16 = true) ∧
    (let s := parting [part0] [] 0x98009000 [4 + 1 * 2 ^ 8, 0x40000, 2 * 2 ^ 25];
      partDesc 0 desc0 (dwOf s) ∧ fieldOf (dwOf s 2) 25 9 = 2 ∧ ((without s 0 1).osRead 0x40000 4).isSome = true) ∧
    policyOk [BitVec.ofNat 16 ((encode .polStop).getD 0)] = true ∧ policyOk [BitVec.ofNat 16 ((encode .polDecide).getD 0)] = false := by
  refine ⟨⟨⟨rfl, desc0_ok, ?_, ?_, rfl⟩, ⟨?_, ?_⟩, ?_⟩, ?_, ⟨⟨?_, ?_⟩, ?_⟩, ⟨⟨?_, ?_⟩, ?_⟩, ⟨⟨?_, ?_⟩, ?_⟩, ⟨⟨?_, ?_⟩, ?_⟩, ?_⟩ <;> decide +kernel

/-! ### Witnesses: transport -/

/-- A connection of context 5 in a state, a message of it, and a registration of its first page. -/
def conn0 (c : ConnState) : Conn :=
  { num := 3, state := c, ctx := 5, peer := [], rudi := false, tss := false, keyh := 0, ports := 1, statblk := 0x80, subk := 4,
    subring := 0, subHead := 0, defrh := 0, cring := 0, gen := 0, update := [], retx := 0, tmo := 0, ovwr := 0, fails := [], seen := [] }
def msg0 (op : BitVec 8) (lva : Word64) : Msg :=
  { conn := 3, op := op, user := 0, bar := false, lva := lva, roff := 0, rh := 0, len := 64, baraddr := 0, notify := false, ticket := none }
def regn0 : Registration := { handle := 1, ctx := 5, base := 0, len := 4096, bar := 0, cring := 0 }

/-- The transport engine with a descriptor of context 5 and connection 3. -/
def transporting (f : Die → Die) (dws : List Nat) : State :=
  ((engine (ctxIn s0 .running) 3 dws).putNum k0 0x50000 8 4).putNum k0 0x50028 8 4 |>.modDie 0 f

/-- Double-word 0 of a transport descriptor. -/
def trHead (op : Nat) : Nat := op + 3 * 2 ^ 10 + 5 * 2 ^ 22

/-- TransportDescriptors: CONN with and without TSS, CLOSE with a message and with none, a message over a range that can be accessed and over
one that cannot, REG and DEREG, a malformed one, and a submit ring that holds a descriptor and one that holds none. -/
theorem witness_transport : (let s := transporting (fun x => { x with peerTab := some (0x50000, 1) }) [trHead 1, 0, 0, 0, 0, 0, 0, 2 ^ 12];
      descAt s 0 3 desc0 (dwOf s) ∧ transportDescOk (dwOf s) = true ∧ (s.ctx 5).state = .running ∧ fieldOf (dwOf s 0) 0 8 = 1 ∧
      fieldOf (dwOf s 0) 22 9 = 5 ∧ (s.die 0).conn 3 = none ∧ ((without s 0 3).peerEntry 0 (dwOf s 6)).isSome = true ∧ (dwOf s 7).getLsbD 2 = false) ∧
    (let s : State := { transporting (fun x => { x with peerTab := some (0x50000, 1) }) [trHead 1, 0, 0, 0, 0, 0, 0, 2 ^ 12 + 4 + 7 * 8] with
        slots := [⟨7, some 5, 2, .made 4, []⟩] };
      transportDescOk (dwOf s) = true ∧ (dwOf s 7).getLsbD 2 = true ∧ ∃ k ∈ s.slots, k.handle = BitVec.ofNat 9 (fieldOf (dwOf s 7) 3 9) ∧
        k.ctx = some 5 ∧ k.kind = 2) ∧
    (let s := transporting (fun x => { x with conns := [conn0 .established], msgs := [msg0 3 0] }) [trHead 2];
      transportDescOk (dwOf s) = true ∧ (s.die 0).conn 3 = some (conn0 .established) ∧ (conn0 .established).ctx = 5 ∧
      ∃ m ∈ (s.die 0).msgs, m.conn = 3) ∧
    (let s := transporting (fun x => { x with conns := [conn0 .opening] }) [trHead 2];
      transportDescOk (dwOf s) = true ∧ (s.die 0).msgs = [] ∧ (without s 0 3).peerReqs 0 3 = []) ∧
    (let s := transporting (fun x => { x with conns := [conn0 .opening] }) [trHead 3, 0x40, 0, 64 * 2 ^ 32];
      transportDescOk (dwOf s) = true ∧ (without s 0 3).rangeFault 0 5 .r 0x40 64 = false ∧ (without s 0 3).rangePoison 0 5 0x40 64 = false ∧
      (without s 0 3).rangeFault 0 5 .w 0x40 64 = false ∧ (without s 0 3).rangeFault 0 5 .r 0x5000 64 = true) ∧
    (let s := transporting (fun x => { x with conns := [conn0 .idle] }) [trHead 4, 0x40, 0, 64 * 2 ^ 32]; transportDescOk (dwOf s) = true) ∧
    (let s := transporting (fun x => { x with conns := [conn0 .error] }) [trHead 5, 0x40, 0, 8 * 2 ^ 32]; transportDescOk (dwOf s) = true) ∧
    (let s := transporting id [6 + 5 * 2 ^ 22, 0, 0, 1 + 4096 * 2 ^ 32]; transportDescOk (dwOf s) = true ∧ (s.die 0).regs = []) ∧
    (let s := transporting (fun x => { x with regs := [regn0] }) [7 + 5 * 2 ^ 22, 0, 0, 1];
      transportDescOk (dwOf s) = true ∧ ∃ g ∈ (s.die 0).regs, g.handle = BitVec.ofNat 32 (fieldOf (dwOf s 3) 0 32) ∧ g.ctx = 5) ∧
    (let s := transporting id [trHead 8]; transportDescOk (dwOf s) = false) ∧
    (let s := (s0.modDie 0 (fun x => { x with tlb := [page], conns := [conn0 .established] })).putNum k3 0x10000 8 1;
      (s.die 0).conn 3 = some (conn0 .established) ∧ ((s.settleDie 0).xlateEngine 0 5 .r 0).1 = .ok (at0 0) ∧ (s.settleDie 0).numAt k3 0x10000 8 ≠ 0 ∧
      s0.numAt k3 0x10000 8 = 0) := by
  refine ⟨⟨⟨rfl, desc0_ok, ?_, ?_, rfl⟩, ?_⟩, ?_, ?_, ?_, ?_, ?_, ?_, ?_, ?_, ?_, ?_, eq_ok ?_, ?_⟩ <;> decide +kernel

/-- Whether an offer to a software queue was made. -/
def offered (r : SoftEnd × State) : Bool := match r.1 with
  | .done _ _ => true
  | _ => false

/-- TransportEvents: a message of each kind at its sender, the 16th and the 17th failure, a status block, a packet inside its registration and one
outside, one seen before, a unit of one double-word to a channel and lengths out of range, a link that is UP, and a ring. -/
theorem witness_transportEvents : (let s := s0.modDie 0 (fun x =>
        { x with
          tlb := [page], conns := [conn0 .established], msgs := [msg0 3 0x40, msg0 4 0x40, msg0 4 0x5000], regs := [regn0],
          eth := x.eth.set 0 { Link.reset with state := .up } });
      (s.die 0).msgs[0]? = some (msg0 3 0x40) ∧ (s.die 0).conn 3 = some (conn0 .established) ∧ (s.die 0).msgs[1]? = some (msg0 4 0x40) ∧
      (64 : Word64).toNat ≤ (msg0 3 0x40).len.toNat ∧ s.rangeFault 0 5 .w 0x40 64 = false ∧ s.rangeFault 0 5 .w 0x5000 64 = true ∧
      (aget (conn0 .established).fails 0).getD 0 < 16 ∧ s.connUp 0 (conn0 .established) = true ∧
      (conn0 .established).statblk.toNat % 64 = 0 ∧ MemOk s ∧ (at0 0x80).pa + 8 ≤ 2 ^ 40 ∧
      (let z := statusBlock (conn0 .established) ⟨1, 2, 3, 4, 5⟩;
        z.head? = some (0, 0x200000001) ∧ z.length = 9 ∧
        ((s.setDie 0 (connsWith (s.die 0) 3 (fun k => { k with update := z.tail, gen := 1 }))).xlateEngine 0 5 .w 0x80).1 = .ok (at0 0x80)) ∧
      (s.die 0).regs.find? (fun g => g.handle = 1) = some regn0 ∧ 4088 + 8 ≤ regn0.len.toNat ∧ regn0.len.toNat < 4089 + 8 ∧
      s.rangeFault 0 5 .w 4088 8 = false) ∧
    16 ≤ (aget ({ conn0 .established with fails := [(0, 16)] } : Conn).fails 0).getD 0 ∧
    ((1, 0, 8) ∈ ({ conn0 .established with seen := [(1, 0, 8)] } : Conn).seen) ∧
    (let s : State := { chanState.modDie 0 (fun x =>
        { x with tlb := [page], conns := [conn0 .established], regs := [regn0], eth := x.eth.set 0 { Link.reset with state := .up } }) with regions := [reg0] };
      s.connUp 0 (conn0 .established) = true ∧ s.channelOf 0 5 1 = some 0x40 ∧ (s.xlateEngine 0 5 .rw 0x40).1 = .ok (at0 0x40) ∧
      offered ((s.xlateEngine 0 5 .rw 0x40).2.softOffer 0 5 0x40 (at0 0x40) (unitOf (sendTag (BitVec.ofNat 28 1))
        ((List.range 1).map (fun i => BitVec.ofNat 64 (dwAt (natToBytes 8 7) (8 * i)))))) = true) ∧
    (let s := s0.modDie 0 (fun x => { x with eth := x.eth.set 0 { Link.reset with state := .up } }); (s.die 0).eth[0].state = .up) ∧
    (let s := s0.modDie 0 (fun x => { x with tlb := [page] });
      MemOk s ∧ (at0 0).pa + 32 ≤ 2 ^ 40 ∧ (({ s with cseqs := aset s.cseqs (5, 0x100) 128 } : State).xlateEngine 0 5 .w (0 + BitVec.ofNat 64 (32 * 127))).1 =
        .ok (at0 0xFE0)) := by
  repeat' apply And.intro
  all_goals first | decide +kernel | exact eq_ok (by decide +kernel) | (unfold MemOk; decide +kernel)

/-! ### Witnesses: management, security, the module -/

/-- The management engine with a descriptor, over a state. -/
def managing (s : State) (dws : List Nat) : State := engine s 5 dws

/-- A FROZEN region of class B with its summary. -/
def frozen0 : Region := { reg0 with kstate := .frozen, summary := some 0x99, fclass := 2 }

/-- Every management descriptor of the statement is at the head of the engine's queue. -/
theorem witness_managementHead : (let s := managing s0 [1]; descAt s 0 5 desc0 (dwOf s)) := ⟨rfl, desc0_ok, by decide +kernel, by decide +kernel, rfl⟩

/-- ManagementDescriptors: RECOVER where none is FROZEN, with an action that is allowed and one that is not, a second DELIVER and a handler that runs;
LINK of a bridge and of a port; a register at both ends of its range and beyond; the other targets at their bounds. -/
theorem witness_management : (let s := managing s0 [1, 4]; fieldOf (dwOf s 0) 0 8 = 1 ∧ (without s 0 5).mgRegion (dwOf s) = none) ∧
    (let s := managing (inRegion frozen0) [1, 2];
      (without s 0 5).mgRegion (dwOf s) = some frozen0 ∧ frozen0.kstate = .frozen ∧ (s.seq frozen0.lead).run ≠ .handler ∧
      2 ∈ (without s 0 5).allowed frozen0 ∧ 3 ∈ (without s 0 5).allowed frozen0 ∧ 4 ∈ (without s 0 5).allowed frozen0 ∧
      1 ∉ (without s 0 5).allowed frozen0 ∧ frozen0.delivered = false ∧ frozen0.retunes = [] ∧ frozen0.cfg.state ≠ .flipping) ∧
    (let r := { frozen0 with delivered := true }; (without (managing (inRegion r) [1, 3]) 0 5).mgRegion (dwOf (managing (inRegion r) [1, 3])) = some r) ∧
    (let r := { frozen0 with fclass := 1 }; 1 ∈ (inRegion r).allowed r) ∧
    (let s := (inRegion frozen0).modSeq 0 (fun q => { q with run := .handler }); (s.seq frozen0.lead).run = .handler) ∧
    (let s := managing s0 [3 + 7 * 2 ^ 8, 12]; fieldOf (dwOf s 0) 8 3 = 7 ∧ (s.die 7).ready.getLsbD 219 = false ∧ (s.die 0).ready.getLsbD 219 = true) ∧
    linkNamed 0 280 = none ∧ (linkNamed 0 272).isSome = true ∧ (linkNamed 7 279).isSome = true ∧ (linkNamed 0 0).isSome = true ∧ (linkNamed 7 15).isSome = true ∧
    (let s := managing s0 [2 + 272 * 2 ^ 16, 1 + 5 * 2 ^ 8];
      (dwOf s 1).getLsbD 0 = true ∧ (((without s 0 5).die 0).link (.bridge 0)).state = .down) ∧
    (let s := managing (inRegion reg0) [3, 12];
      (without s 0 5).mgRegion (dwOf s) = some reg0 ∧ 12 ≤ (dwOf s 1).toNat ∧ (dwOf s 1).toNat < 20 ∧ (33 : Word64).toNat > 32) ∧
    (let s := managing s0 [5 + 2 * 2 ^ 16, 2 ^ 32 - 1]; fieldOf (dwOf s 0) 16 48 < 3 ∧ (dwOf s 1).toNat < 2 ^ 32) ∧
    (let s := managing s0 [8 + 0xFFFF * 2 ^ 16, 0x1000]; fieldOf (dwOf s 0) 16 48 < 2 ^ 16 ∧ (dwOf s 1).toNat % 4096 = 0) ∧
    (let s := managing s0 [9 + 47 * 2 ^ 16, 1]; fieldOf (dwOf s 0) 16 48 < 48 ∧ ¬ (BitVec.ofNat 3 (47 / 8) = 4)) ∧
    BitVec.ofNat 3 (33 / 8) = 4 ∧ BitVec.ofNat 3 33 ≠ 0 := by
  repeat' apply And.intro
  all_goals decide +kernel

/-- The security engine with a descriptor of context 5, whose handle is in a slot. -/
def securing (dws : List Nat) : State := engine (ctxIn s0 .created) 4 dws

/-- SecurityDescriptors: a report with its buffer, one whose buffer has no room, a KIND 3 key with the lowest free slot, a slot of the context and one that is not. The key that a
wrapped blob holds is an open value. -/
theorem witness_security : (let s := securing [1 + 5 * 2 ^ 8, 0x40000, 0x40000, 2 ^ 32 - 1];
      (s.ctx 5).state = .created ∧ fieldOf (dwOf s 0) 0 8 = 1 ∧ ((without s 0 4).osRead (dwOf s 1).toNat 32).isSome = true ∧ (dwOf s 2).toNat % 8 = 0 ∧
      s.physUp 0 (dwOf s 1).toNat 32 = true ∧ s.physUp 0 (dwOf s 2).toNat 256 = true ∧
      fieldOf (dwOf s 3) 0 32 = 2 ^ 32 - 1) ∧
    (256 + Config.hssSigLen.toNat ≤ 2 ^ 32 - 1 ∧ physOk 0x40000 (256 + Config.hssSigLen.toNat) = true ∧ inMgmt 0x40000 = false ∧
      (0 : Nat) < 256 + Config.hssSigLen.toNat) ∧
    (let s := (securing [2 + 5 * 2 ^ 8, 0x40000, 56, 3]).putNum k0 0x40000 8 (0x06000000 + 0x04000000 * 2 ^ 32);
      s.physUp 0 (dwOf s 1).toNat (dwOf s 2).toNat = true ∧ ((without s 0 4).osRead (dwOf s 1).toNat (dwOf s 2).toNat).isSome = true ∧ (∀ k ∈ s.slots, k.handle ≠ 1) ∧
      (∀ j : BitVec 9, j.toNat < (1 : BitVec 9).toNat → ∃ k ∈ s.slots, k.handle = j) ∧
      lmsKeyType (s.bytesAt k0 0x40000 56) ≠ 0) ∧
    (let s := securing [3 + 5 * 2 ^ 8, 0, 0, 0, 9]; (∃ k ∈ s.slots, k.handle = 9 ∧ k.ctx = some 5 ∧ k.kind ≠ 4) ∧ ∀ k ∈ s.slots, ¬ (k.handle = 8 ∧ k.ctx = some 5)) := by
  refine ⟨by decide +kernel, ⟨?_, ?_, by decide, by omega⟩, ⟨by decide +kernel, by decide +kernel, by decide +kernel, ?_, by decide +kernel⟩, by decide +kernel⟩
  · have := Config.hssSigLen.isLt; omega
  · have := Config.hssSigLen.isLt
    simp only [physOk, inStack, Bool.or_eq_true, Bool.and_eq_true, decide_eq_true_eq]; omega
  · intro j h; have : j = 0 := by bv_omega
    subst this; exact ⟨⟨0, none, 1, .made 0, []⟩, by decide +kernel, rfl⟩

/-- ResetsAndHostPort: powered and not, self-hosted and not; a ring that is OPEN and one that is not; its entries at its last place; offsets at the bounds of what a host reads; an entry that R429 would refuse, a full queue
and one with room. -/
theorem witness_resets : MemOk State.reset ∧ State.reset.powered = true ∧ ({ s0 with powered := false } : State).powered = false ∧
    State.reset.selfHosted = false ∧ ({ s0 with selfHosted := true } : State).selfHosted = true ∧
    State.reset.ringOpen 5 7 = true ∧ State.reset.hostUp = true ∧ State.reset.ringOpen 4 1 = false ∧ (5 : BitVec 3).toNat < 6 ∧ 8183 < 8184 ∧
    (let s : State := { s0 with rings := [((5, 7), { HostRing.reset with tail := 2, entries := [(0, 0x40), (1, 0x41)] })] };
      s.ringOpen 5 7 = true ∧ (s.ring 5 7).head ≠ (s.ring 5 7).tail ∧ ((aget (s.ring 5 7).entries 0).getD 0).toNat % 64 = 0 ∧
      ((s.die 7).engq[5]).length < 64 ∧ ((aget (s.ring 5 7).entries 1).getD 0).toNat % 64 ≠ 0) ∧
    64 ≤ (List.replicate 64 desc0).length ∧ (0x7FFF : BitVec 24).toNat < 2 ^ 15 ∧ 2 ^ 15 ≤ (0x8000 : BitVec 24).toNat ∧
    (0x2FFFFF : BitVec 24).toNat < 0x300000 ∧ 0x300000 ≤ (0x300000 : BitVec 24).toNat ∧ 64 ≤ (0x2FFFFF : BitVec 24).toNat % 2 ^ 16 := by
  refine ⟨rfl, ?_⟩
  decide +kernel

/-- ModuleEvents: a read, an atomic, a query, an access held at a bridge, a request to the security controller and a fetch that have left their die
and aged, and requesters with none. -/
theorem witness_remote : (let late (s : State) : State := { s with cyc := 2 ^ 26 };
    2 ^ ((s0.regionOfAcquirer (.cell c0)).map Region.remLog).getD 26 = 2 ^ 26 ∧ (late s0).pend = [] ∧ ((late s0).cell c0).mp.atoms = [] ∧
    (late s0).queries = [] ∧ 0 + 2 ^ 26 ≤ (late s0).cyc ∧ ¬ (1 + 2 ^ 26 ≤ (late s0).cyc) ∧
    ({ read0 with pa := 2 ^ 37 } : SliceReq).isRemote = true ∧ ({ read0 with pa := 2 ^ 37 } : SliceReq).born = 0 ∧
    homeDie c0.die ({ atom0 with pa := 2 ^ 37 } : AtomReq).pa ≠ c0.die ∧ ({ atom0 with pa := 2 ^ 37 } : AtomReq).born = 0 ∧
    (query0 (.seq 16)).entry.src.die ≠ acquirerDie (.seq 16) ∧
    (let s := (late s0).modSeq 16 (fun q => { q with wait := .keyh 1 2, held := some (0, 0) });
      seqDie 16 ≠ 0 ∧ (s.seq 16).held = some (0, 0) ∧ (s.seq 16).wait = .keyh 1 2) ∧
    (let s := (late s0).modSeq 0 (fun q => { q with wait := .bridge, held := some (0, 0) }); (s.seq 0).wait = .bridge) ∧
    (let r := { reg0 with fetches := [⟨0x1040, 0⟩] };
      let far : TlbEntry := { ctx := 5, base := 0x1000, size := 0, pte := 0x0090002000000000 ||| 0x1F };
      let s := (late (inRegion r)).modDie 0 (fun x => { x with tlb := [far] });
      s.regionOfSeq 0 = some r ∧ (s.xlateEngine r.die r.launch.ctx .r 0x1040).1 = .ok ⟨2 ^ 37 + 0x40, k3⟩ ∧ homeDie r.die (2 ^ 37 + 0x40) ≠ r.die)) := by
  repeat' apply And.intro
  all_goals first | exact eq_ok (by decide +kernel) | decide +kernel

/-- Where no function is ready, no island serves one. -/
theorem servesReady_none (s : State) (i : Nat) (h : (List.finRange 8).all (fun d => (List.range 220).all (fun b => !s.dies[d].ready.getLsbD b)) = true) :
    s.servesReady i = false := by
  unfold State.servesReady
  refine List.any_eq_false.2 (fun d hd => ?_)
  have hd := (List.all_eq_true.1 h) d hd
  simp only [Bool.not_eq_true, List.any_eq_false]
  intro b hb
  have hb := (List.all_eq_true.1 hd) b hb
  simp only [Bool.not_eq_true'] at hb
  exact (congrArg (· && _) hb).trans (Bool.false_and _)

/-- ModuleEvents: an island that serves a function that is ready. -/
theorem witness_serves : (let s := s0.modDie 7 (fun x => { x with ready := 2 ^ 219 });
    ∃ (d : Fin 8) (b : Nat), b < 220 ∧ (s.dies[d]).ready.getLsbD b = true ∧
      (Config.islandServing d.val b).val = (BitVec.ofNat 10 (Config.islandServing 7 219).val).toNat) := by
  refine ⟨7, 219, by decide, by decide +kernel, ?_⟩
  rw [BitVec.toNat_ofNat, Nat.mod_eq_of_lt (by have := (Config.islandServing 7 219).isLt; omega)]; rfl

/-- ModuleEvents: a function that may be ready, a watchdog at its limit and below, a remote request of either requester, a scrub within its quota and
beyond, and the island of a block, which no region holds. -/
theorem witness_module : readyBitOk (State.reset.die 0) 0 219 = true ∧ (State.reset.die 0).service = true ∧
    (let r := { reg0 with wdog := 2 ^ 20 }; (inRegion r).region 1 = some r ∧ r.freezing = false ∧ 2 ^ r.wdogLog ≤ r.wdog ∧ reg0.wdog < 2 ^ reg0.wdogLog) ∧
    ({ read0 with pa := 2 ^ 37 } : SliceReq).isRemote = true ∧ ({ read0 with src := .seq 0, pa := 2 ^ 50 } : SliceReq).isRemote = true ∧
    2 ^ 34 - 1 < 2 ^ 34 ∧
    ((s0.modDie 0 (fun x => { x with quotas := x.quotas.set 0 0xFFFFFFFF })).die 0).quotas[0].toNat = 2 ^ 32 - 1 ∧
    (State.reset.die 0).quotas[0].toNat ≤ (State.reset.die 0).scrubbed ∧
    (let i : BitVec 10 := BitVec.ofNat 10 (Config.islandOf 0 0).val;
      i.toNat < 544 ∧ islandBlocks i.toNat ≠ [] ∧ s0.servesReady i.toNat = false ∧ (∀ r ∈ s0.regions, r.inIsland (islandBlocks i.toNat) = false) ∧ (aget s0.islands i.toNat).getD .on = .on ∧
      ∃ r ∈ (inRegion reg0).regions, r.inIsland (islandBlocks i.toNat) = true) := by
  have h : ((0 : BitVec 3), 0) ∈ islandBlocks (BitVec.ofNat 10 (Config.islandOf 0 0).val).toNat := by
    have e : (BitVec.ofNat 10 (Config.islandOf 0 0).val).toNat = (Config.islandOf 0 0).val := by
      have := (Config.islandOf 0 0).isLt
      rw [BitVec.toNat_ofNat]; omega
    rw [e]
    exact List.mem_filterMap.2 ⟨0, List.mem_range.2 (by decide), by simp⟩
  refine ⟨by decide +kernel, by decide +kernel, by decide +kernel, by decide +kernel, by decide +kernel, by decide, by decide +kernel, by decide +kernel,
    by rw [BitVec.toNat_ofNat, Nat.mod_eq_of_lt (by have := (Config.islandOf 0 0).isLt; omega)]; exact (Config.islandOf 0 0).isLt, List.ne_nil_of_mem h,
    servesReady_none _ _ (by decide +kernel), fun r hr => absurd hr (List.not_mem_nil (a := r)), rfl, reg0, List.mem_singleton.2 rfl, ?_⟩
  unfold Region.inIsland
  rw [Bool.and_eq_true, List.any_eq_true]
  exact ⟨rfl, _, h, by decide +kernel⟩

/-! ### Witnesses: tiles, queues, links, the scheduler -/

/-- An `agen` in slot 0 of a cell, and a region with a section of that source and a sink. -/
def secr (r : Region) (f : Section → Section) : Region :=
  { r with sections := [f ⟨0x7F, 0, [⟨0, 0, 0, 0⟩], [⟨0, 0, 0, 0⟩], 1, [], 0, 0, true, 1⟩] }

/-- GroupInstructions: an idle section whose source has a consumer that cannot hold a tile, and one whose consumer can. -/
theorem witness_arm : (let w : Word32 := BitVec.ofNat 32 ((encode (.agen 63 63 0 0)).getD 0);
      let x := cellOf w [] [(2, 1)];
      let r := secr reg0 (fun y => { y with left := 0 });
      let at_ (q : Queue) : State := (inRegion r).setCell c0 { x with
        queues := x.queues.set 0 q, active := { x.active with pulses := [⟨0, 0, 0, 0, 0, 2⟩] } };
      (r.sections.map (fun y => (y.left, sourceNodes r y))) = [(0, [(c0, 0)])] ∧
      (at_ Queue.reset).consumers r c0 0 = [(c0, 0)] ∧ fits (at_ Queue.reset) (c0, 0) (c0, 0) = 0 ∧ 0 < fits (at_ (queue0 [])) (c0, 0) (c0, 0)) := by
  decide +kernel

/-- PulsesAndTiles: a pulse of the running epoch and one of the passed, a full input, a section that may admit, and a tile that has passed its sinks. -/
theorem witness_tiles : (let p : PulseFlight := ⟨c0, 0, c0, 7, 0, false⟩;
      let s : State := { s0 with pulses := [p, { p with epoch := true }] };
      s.pulses[0]? = some p ∧ (∀ j < 0, s.pulses[j]? = none) ∧ (s.cell p.dst).epoch = p.epoch ∧ ((s.cell p.dst).pin[7]).length < 0xFFFF ∧
      (s.cell p.dst).epoch ≠ true ∧ 0xFFFF ≤ (List.replicate 0xFFFF p).length) ∧
    (let r := secr reg0 id;
      let s : State := (inRegion r).modDie 0 (fun x => { x with budgets := [⟨5, 0xFFFFFFFF, 1, none, 0, 1⟩] });
      s.region 1 = some r ∧ (r.sections[0]?).isSome = true ∧ s.admits r = true ∧ r.gateOpen (r.sections[0]?.getD ⟨0, 0, [], [], 0, [], 0, 0, false, 0⟩) = true ∧
      s.budgetOpen r.die r.launch.ctx = true ∧ r.sourcesOf (r.sections[0]?.getD ⟨0, 0, [], [], 0, [], 0, 0, false, 0⟩) = [(c0, 0)] ∧
      ((s.cell c0).takeFrees 0).ag[0].hasCredit = true ∧ ((s.cell c0).takeFrees 0).ag[0].retune = false ∧
      ((s.cell c0).takeFrees 0).ag[0].due = [] ∧ (s.cell c0).due[0] = []) ∧
    (let r := secr reg0 (fun x => { x with tiles := [⟨0, 0, [⟨0, 0, 0, 0⟩]⟩, ⟨1, 1, []⟩] });
      let s := inRegion r;
      s.region 1 = some r ∧ s.sinkDone r ⟨1, 0, 0⟩ ⟨0, 0, 0, 0⟩ = true) ∧
    (s0.budgetOpen 0 5 = false) := by
  repeat' apply And.intro
  all_goals decide +kernel

/-- Whether a pair of an outcome and a state has the outcome. -/
def endsAs (r : State × Outcome3) (o : Outcome3) : Bool := decide (r.2 = o)

/-- A cell with a queue in a region, and the whole of the machine about it. -/
def queueIn (q : Queue) : State := (inRegion reg0).setCell c0 { Cell.reset with queues := Cell.reset.queues.set 0 q }

/-- UnitsOnTheirWay: a unit that a queue keeps and one that a closed queue turns away for good; a queue that may leave SHEDDING, that may close, that has spilled; a unit
at an EXT inlet; a unit before an egress with room behind a packet; a packet at a crosspoint; a cell that may act on a mute. -/
theorem witness_units : (let w : Wire := { src := c0, dst := c0, dq := 0, item := data0 7, loss := false };
      let s : State := { queueIn (queue0 []) with wires := [w] };
      s.wires.find? (fun w => w.src = c0 ∧ w.dst = c0) = some w ∧ endsAs (s.offerCell c0 0 w.item) .kept = true) ∧
    (let q : Queue := { queue0 [] with state := .shedding };
      let s := queueIn q;
      (s.cell c0).queues[0].frozen = false ∧ q.occ ≤ q.low ∧ q.ring = [] ∧ (q.leave (cellWord c0 0) .flowing).2 = none ∧
      (q.leave (cellWord c0 0) .flowing).1.state = .flowing) ∧
    (let q : Queue := { queue0 [] with state := .draining }; q.entries = [] ∧ q.ring = []) ∧
    (let q : Queue := { queue0 [] with ring := [⟨data0 7, none⟩, ⟨token0 2, some false⟩], qring := 0x40 };
      let s := (queueIn q).modDie 0 (fun x => { x with tlb := [page] });
      s.ringReach 0 (s.ctxOfCell c0) q 0 (data0 7).slots = true ∧ (data0 7).isData = true ∧ (data0 7).slots ≤ q.free ∧ q.frozen = false) ∧
    (let e : ExtWord := ⟨.i64, 0, false, 0⟩;
      let w : SwWord := ⟨3, 1, 2, .i64, some e⟩;
      let s := (inRegion reg0).setCell c0 { Cell.reset with swIn := [(1, data0 7)], active := { CellConfig.reset with sw := [w] } };
      (s.cell c0).swIn.find? (fun p => p.1 = 1) = some (1, data0 7) ∧ (s.cell c0).active.sw.find? (fun w => w.inlet = 1 ∧ w.ext.isSome = true) = some w ∧
      convertBad e (data0 7) = false ∧ convertBad { e with src := .i8 } (vec0 0xFFFFFFFF) = true ∧
      ((s.setCell c0 { s.cell c0 with swIn := (s.cell c0).swIn.erase (1, data0 7) }).convertAt c0 w e (data0 7)).1.isSome = true) ∧
    (let g : Egress := ⟨c0, 0, ⟨0, 1, 1, 0⟩, 0, [(4, data0 7)], []⟩;
      let p : Packet := { inp := portOfCell c0, outp := 5, src := c0, dst := ⟨0, 1, 1, 0⟩, dq := 0, item := data0 7, slack := 0, resid := 0,
                          since := 0, late := true, loss := false };
      let s := s0.modDie 0 (fun x => { x with egress := [⟨c0, 1, ⟨0, 1, 1, 0⟩, 1, [(5, data0 8)], []⟩, g], harp := { x.harp with wait := [p] } });
      firstEmitted (s.die 0).egress c0 ⟨0, 1, 1, 0⟩ = some (g, 4, data0 7, []) ∧ (s.die 0).egress.find? (fun e => e.src = c0 ∧ e.so = 0 ∧ e.waiting ≠ []) = some g ∧ (data0 7).isData = true ∧ (data0 7).slots + g.flits ≤ 32 ∧
      (∃ p ∈ (s.die 0).harp.wait, p.inp = portOfCell c0) ∧ (s.die 0).harp.wait = [p] ∧ p.late = true ∧ s.circuits 0 = [] ∧
      p.since ≤ (s.die 0).harp.now ∧ (aget (s.die 0).harp.busy 5).getD 0 ≤ (s.die 0).harp.now) ∧
    (let r := { reg0 with cut := .cutting true };
      let s := (inRegion r).setCell c0 Cell.reset;
      s.regionOf c0 = some r ∧ r.muting = true ∧ s.cellRuns c0 = true ∧ s.canMute r c0 = true) := by
  repeat' apply And.intro
  all_goals decide +kernel

/-- A SHEDDING queue of depth 16 with units in it, under two policies with their parameters. -/
def shedQ (pri fb par : Nat) (us : List Item) : Queue :=
  { queue0 us with
    state := .shedding, qctl := BitVec.ofNat 64 (4 + 12 * 2 ^ 4 + 4 * 2 ^ 15 + pri * 2 ^ 26 + fb * 2 ^ 29), qpar := BitVec.ofNat 64 par }

/-- UnitsOnTheirWay, for each policy (R239 to R244): the units and queues that its clauses name, and the head that an offer leaves. -/
theorem witness_policies : (let full := List.replicate 16 (data0 7);
    let d1 : Item := { data0 7 with tag := { Tag.template with domain := 1 } };
    let v (n m : Nat) : Item := vec0 (descOf 0 n m);
    ((shedQ 1 2 0 []).tokens < 8 ∧ (shedQ 1 2 0 []).pri = 1 ∧ (shedQ 2 1 0 []).fb = 1) ∧
    ((((shedQ 2 1 0 []).entries.filter (fun e => e.item.isData)).map (fun e => e.item.slots)).sum < (data0 7).slots) ∧
    ((shedQ 5 1 0 []).pri = 5 ∧ (vec0 0).v1.isSome = true ∧ (shedQ 4 1 (2 * 2 ^ 11) []).pri = 4 ∧ d1.tag.domain ≠ 0 ∧ d1.tag.domain.toNat ≠ 2) ∧
    (let q := shedQ 6 1 (7 * 2 ^ 18) full; q.pri = 6 ∧ descPlane (v 8 1).desc ≤ 7 ∧ q.free < 2 ∧ (v 8 1).slots = 2) ∧
    (let q := shedQ 7 1 0 full; q.pri = 7 ∧ ¬ (data0 7).slots ≤ q.free ∧ q.ringFree < (data0 7).slots + 8) ∧
    (let q := shedQ 2 1 0 full; q.entries = ⟨data0 7, true⟩ :: (List.replicate 15 (data0 7)).map (fun u => ⟨u, true⟩) ∧ q.free = 0 ∧ q.depth = q.occ ∧
      q.tokens < 8) ∧
    ((shedQ 3 1 4 []).pri = 3 ∧ (shedQ 3 1 4 []).sampC + 1 < 4 + 1 ∧ ({ shedQ 3 1 4 [] with sampC := 4 } : Queue).sampC + 1 = 5 ∧
      (data0 7).slots ≤ ({ shedQ 3 1 4 [] with sampC := 4 } : Queue).free ∧ ({ shedQ 3 1 4 full with sampPend := [3, 4] } : Queue).sampPend = 3 :: [4]) ∧
    (kh64 (data0 0).key.toNat (0 * 2 ^ 32) / 2 ^ (64 - 1) = 0 ∧ kh64 (data0 0).key.toNat (0x80000000 * 2 ^ 32) / 2 ^ (64 - 1) ≠ 0) ∧
    (let q := shedQ 5 1 (2 ^ 17) [data0 8, data0 7, data0 9];
      q.entries = [⟨data0 8, true⟩] ++ ⟨data0 7, true⟩ :: [⟨data0 9, true⟩] ∧ (data0 7).v1 = none ∧ (data0 9).key ≠ (data0 7).key ∧ 1 ≤ q.free) ∧
    (descPlane (v 8 3).desc = 3 ∧ 2 < descPlane (v 8 3).desc ∧ descPlanes (v 8 1).desc = 8 ∧ 7 < descPlanes (v 8 1).desc ∧ (v 8 1).v1.isSome = true ∧
      2 ≤ (shedQ 6 1 (7 * 2 ^ 18) []).free) ∧
    (let q := { shedQ 7 1 0 full with qring := 6 }; ¬ (data0 7).slots ≤ q.free ∧ (data0 7).slots + 8 ≤ q.ringFree) ∧
    (let q := shedQ 1 2 0 (List.replicate 5 (data0 7)); q.low < (q.arrive 0 (data0 7)).q.occ ∧ (q.arrive 0 (data0 7)).q.head = q.head)) := by
  repeat' apply And.intro
  all_goals decide +kernel

/-- An image of one block without a cell, at 0x400 of the small page: its header, its table of one record, its record, and no tree. -/
def imageState (crc : Nat) : State :=
  let put (s : State) (l : List (Nat × Nat)) : State := l.foldl (fun s p => s.putNum k3 (0x10000 + p.1) 8 p.2) s
  let r : Region := { reg0 with kstate := .loading, launch := { launch0 with image := 0x400, args := 0x800 } }
  (put { inRegion r with ctxs := [(5, { Ctx.reset with state := .running })] }
    [(0x400, 0x4B52494D), (0x408, 1), (0x410, 64), (0x418, 72), (0x420, 192), (0x430, crc), (0x440, 128 + 2 ^ 32), (0x480, 0x4B42 + 2 ^ 32),
      (0x490, 3349496918)]).modDie 0 (fun x => { x with tlb := [page] })

/-- Whether a load succeeds. -/
def loads (e : Except (LoadFail × Bool) State) : Bool := match e with
  | .ok _ => true
  | .error _ => false

/-- LoadFreezeAndSave: an image that loads and one that is refused; a freeze line at a cell while another runs and at the last; a cut that is complete. -/
theorem witness_loads : (let s := imageState 1884394775;
      (s.region 1).map (fun r => (r.kstate, r.freezing)) = some (.loading, false) ∧ (s.region 1).map (fun r => loads (s.load0 r)) = some true) ∧
    (let s := imageState 0; (s.region 1).map (fun r => loads (s.load0 r)) = some false) ∧
    (let r := { reg0 with freezing := true };
      let x := { Cell.reset with fault := { FaultReg.reset with valid := true, primary := true, code := 0x0A } };
      let s := ((inRegion r).setCell c0 x).setCell { c0 with n := 1 } { Cell.reset with stopped := true };
      s.regionOf c0 = some r ∧ s.region 1 = some r ∧ r.kstate ≠ .frozen ∧ (s.cell c0).stopped = false ∧ (10 : BitVec 4).toNat ≤ 10 ∧
      (∀ b ∈ s.cellsOf r, b ≠ c0 → (s.cell b).stopped = true) ∧ s.pendOf r.lead = [] ∧ (s.seq r.lead).wait.isRequest = false ∧
      (∀ y ∈ s.regions, y.serial ≠ r.serial → y.lead ≠ r.lead) ∧ (SeqWait.keyh 1 2).isRequest = true ∧ (s.faultSummary r).map (fun v => decide (v.toNat % 64 ≠ 0x11)) = some true) ∧
    (let r := { reg0 with freezing := true };
      let s := ((inRegion r).setCell c0 Cell.reset).setCell { c0 with n := 1 } Cell.reset;
      ∃ b ∈ s.cellsOf r, b ≠ c0 ∧ (s.cell b).stopped = false) ∧
    (let r := { reg0 with cut := .cutting true, map := [] };
      let s : State := { (inRegion r).modDie 0 (fun x => { x with tlb := [hostPage] }) with
        ctxs := [(5, { Ctx.reset with state := .preempting, saveBase := some 0x200000 })] };
      s.region 1 = some r ∧ r.fetches = [] ∧ s.allMuted r = true ∧ s.quiet r = true ∧
      (((s.ctx 5).cmd.map CtxCmd.base).orElse (fun _ => (s.ctx 5).saveBase)) = some 0x200000 ∧ s.saveFault 0 5 0x200000 1 = false ∧
      s.saveFault 0 5 (s.saveAt 5 0x200000 r.saveSize) (r.saveSize / 4096) = false ∧ s.rangeUp 0 5 0x200000 4096 = true ∧
      s.rangeUp 0 5 (s.saveAt 5 0x200000 r.saveSize).toNat r.saveSize = true) ∧
    (Cell.reset.fault.skid = 0 ∧ Cell.reset.fault.skid ≠ 10) ∧
    (let s := ((imageState 1884394775).modDie 0 (fun x => { x with tlb := [] })).setCtx 5 (((farRoot .down).ctx 5));
      (s.region 1).map (fun r => match s.load0 r with
        | .error e => e.1.held
        | .ok _ => false) = some true) := by
  repeat' apply And.intro
  all_goals decide +kernel

/-- LinksMove: a link in each state that a clause names, and a bridge with each count of retries. -/
theorem witness_links : (let at_ (l : LinkName) (k : Link) : State := s0.modDie 0 (fun x => x.setLink l k);
    ((at_ (.eth true) { Link.reset with state := .training }).die 0).link (.eth true) = { Link.reset with state := .training } ∧
    linkConnected 0 (.eth true) = true ∧ linkConnected 0 (.bridge 1) = true ∧
    ((at_ (.bridge 3) { Link.reset with state := .up, tries := 8 }).die 0).bridge[3] = { Link.reset with state := .up, tries := 8 } ∧
    ((at_ (.bridge 3) { Link.reset with state := .up, tries := 9 }).die 0).link (.bridge 3) = { Link.reset with state := .up, tries := 9 } ∧
    ((s0.die 0).link (.bridge 0)).state = .down) := by decide +kernel

/-- A die ready for decisions, with a partition. -/
def deciding0 (p : Partition) (d : Option Decision) (f : Die → Die) : State :=
  (ctxIn s0 .loaded).modDie 0 (fun x => f { x with ready := 2 ^ 215, parts := [p], dec := d })

/-- SchedulerSteps: a partition with a pending decision and none; a decision that selects nothing, one that dispatches a launch that still fits, and one after
its 256th word. -/
theorem witness_scheduler : (let p := { part0 with pendD := true };
      let s := deciding0 p none id; (s.die 0).ready.getLsbD 215 = true ∧ (s.die 0).dec = none ∧ s.nextPart 0 = some p) ∧
    (deciding0 part0 none id).nextPart 0 = none ∧
    ({ dec0 with ended := some none } : Decision).reserved = none ∧
    (let row : Row := ⟨(Vector.replicate 16 0).set 11 1, .launch 5⟩;
      let y : Decision := { dec0 with part := 1, free := 3, rows := [row], ended := some (some 0) };
      let l : Launch := { launch0 with part := 1 };
      let s := deciding0 part0 (some y) (fun x => { x with launchq := [(5, [l])] });
      (s.die 0).dec = some y ∧ y.ended = some (some 0) ∧ y.reserved = none ∧ y.dkind = 0 ∧ y.rows[0]? = some row ∧ row.ref = .launch 5 ∧ row.fits = true ∧
      (s.die 0).launchQueue 5 = [l] ∧ l.part = y.part ∧ (s.ctx 5).state = .loaded ∧ s.findRect 0 (s.stillFree 0 y) l true = some ⟨0, 0, 1⟩) ∧
    256 ≤ ({ dec0 with steps := 256 } : Decision).steps := by
  repeat' apply And.intro
  all_goals decide +kernel

/-! ### Witnesses: steps, nodes, encodings -/

/-- StepRunsTheDecodedInstruction, NodesKeepMemoryRegistersAndOtherCells and EveryStepKeepsMemoryCanonical: a turn at the front and an empty schedule, a
sequencer at a word that decodes, a node's word, a policy word, and an event. -/
theorem witness_steps : (let i := Instr.addi 1 0 0 5;
      let s := s0.putNum k3 0x10000 4 ((encode i).getD 0);
      s.powered = true ∧ s.turns = [] ∧ (s.seq s.seqTurn).run = .running ∧ (s.seq s.seqTurn).wait = .none ∧ (s.seq s.seqTurn).pc.toNat % 4 = 0 ∧
      (s.xlate 0 .x 0).1 = .ok (at0 0) ∧ (s.xlate 0 .x 0).2.poisonIn 0x10000 4 = none ∧
      decodeSeq ((s.xlate 0 .x 0).2.seqNum 0 k3 0x10000 4) = .ok i ∧ s.pathTo (seqDie 0) 0x10000 = .up) ∧
    decodeNode ((encode (.copy 63 63 0 0)).getD 0) = .ok (.copy 63 63 0 0) ∧
    (let s := nodeIn State.reset (cellOf (BitVec.ofNat 32 ((encode (.copy 63 63 0 0)).getD 0)) [] []); (s.cell c0).word 0 = some (BitVec.ofNat 32 ((encode (.copy 63 63 0 0)).getD 0)) ∧
      (s.cell c0).last + BitVec.ofNat 3 (0 + 1) = 0 ∧ ∀ k : BitVec 3, k ≠ 0 → (s.cell c0).word k = none) ∧
    (let s := (rmWith id []).putNum k0 0x30000 4 0x00508093;
      (s.rm 0).wait = none ∧ (s.die 0).service = true ∧ s.rvFetchHeld 0 = false ∧
      ({ (farRoot .down) with rms := [(0, { Rm.reset with pc := 0x2000000000 })] } : State).rvFetchHeld 0 = true ∧ (s.rvFetch 0).toOption = some (4, 0x00508093) ∧
      (match decodeRm 0x00508093 with
        | .base => true
        | _ => false) = true ∧ ((s.setRm 0 { s.rm 0 with pc := 1 }).rvFetch 0).toOption = none) ∧
    decodePolicy ((encode .polStop).getD 0) = .ok .polStop ∧
    (match decodeRm ((encode (.kfence 7)).getD 0) with
      | .command i => i == .kfence 7
      | _ => false) = true ∧
    (Turn.cell c0 ∈ ({ s0 with acted := [.cell c0] } : State).acted ∧ s0.acted = []) ∧
    encode .powerOn = none ∧ MemOk State.reset ∧ ({ s0 with turns := [.event .powerOn] } : State).turns = .event .powerOn :: s0.turns := by
  repeat' apply And.intro
  all_goals first | exact eq_ok (by decide +kernel) | decide +kernel | exact rfl

/-! ### Witnesses: encodings -/

/-- DecodeGivesBackWhatEncodeWrote: a well-formed instruction of each of the five encoded sets, and the second row of `khalt`'s word. -/
theorem witness_encode : (let ok (i : Instr) (set : Instr → Option Nat) : Bool := i.wf && (set i).isSome && (encode i).isSome
    ok (.add 9 10 19 5 1) encodeAlu && ok (.ld 1 2 0 1 5 3 0) encodeMem && ok (.put 1 5 0 0) encodePort &&
    ok (.arithAdd 63 63 3 4 1 0) encodeNode && ok (.polFld 0 15) encodePolicy && ok (.khaltHalt 3) encodeRm && ok (.khaltResume 3) encodeRm) = true := by
  decide +kernel

/-- DecodersTakeOnlyEncodings: a word of each decoder that is taken. -/
theorem witness_decode : (0x10200005 < 2 ^ 32) ∧ decodeSeq 0x10200005 = .ok (.lih 1 5) ∧
    (∃ w, encodePolicy (.polFld 0 15) = some w ∧ w < 2 ^ 16 ∧ decodePolicy w = .ok (.polFld 0 15)) :=
  ⟨by decide, eq_ok (by decide +kernel), (encodePolicy (.polFld 0 15)).getD 0, by decide +kernel, by decide +kernel, eq_ok (by decide +kernel)⟩

/-! ### Values that the spec works out -/

/-- The check value of CRC-32C, and the same before the last inversion (R138, R261). -/
theorem test_crc : (let bs : List Byte := [0x31, 0x32, 0x33, 0x34, 0x35, 0x36, 0x37, 0x38, 0x39]
    crc32c bs == 0xE3069283 && crcBytes 0xFFFFFFFF bs == 0x1CF96D7C) = true := by decide +kernel

/-- A row of the conversion table under R85: the result code and whether SAT or FTZ is counted. -/
def row (src dst : Fmt) (mode : RoundMode) (ieee : Bool) (x code : Nat) (tooBig zero : Bool) : Bool :=
  let r := convertLane src dst mode ieee (src.read x)
  r.code == code && r.tooBig == tooBig && r.zero == zero

theorem test_convert_e4m3 :
    (row .f32 .e4m3 .rne false 0x3F880000 0x38 false false && row .f32 .e4m3 .rup false 0x3F880000 0x39 false false &&
    row .f32 .e4m3 .rne false 0x43E80000 0x7E false false && row .f32 .e4m3 .rne false 0x43EB0000 0x7E true false &&
    row .f32 .e4m3 .rne true 0x43EB0000 0x7F true false && row .f32 .e4m3 .rne false 0x3A800000 0 false true &&
    row .f32 .e4m3 .rup false 0x3A800000 1 false false) = true := by decide +kernel

theorem test_convert_others :
    (row .f32 .e5m2 .rne false 0x47700000 0x7B true false && row .f32 .e5m2 .rne true 0x47700000 0x7C true false &&
    row .f32 .bf16 .rne false 0x3FC08000 0x3FC0 false false && row .f32 .bf16 .rna false 0x3FC08000 0x3FC1 false false &&
    row .f32 .i8 .rne false 0x43960000 0x7F true false && row .f32 .i8 .rne true 0x43960000 0x80 true false) = true := by decide +kernel

/-- −2.5 into `i32` under four modes. -/
theorem test_convert_i32 : ([RoundMode.rne, .rz, .rna, .rdn].map (fun m => (convertLane .f32 .i32 m false (Fmt.f32.read 0xC0200000)).code) ==
    [0xFFFFFFFE, 0xFFFFFFFE, 0xFFFFFFFD, 0xFFFFFFFD]) = true := by decide +kernel

/-- 0.3 and −0.99 into `sd2`; 3 tenths in `f32` is 0x3E99999A and 99 hundredths, negative, 0xBF7D70A4. -/
theorem test_convert_sd2 : (let a := sdConv 2 .rne (Fmt.f32.read 0x3E99999A)
    let b := sdConv 2 .rne (Fmt.f32.read 0xBF7D70A4)
    (sdDigits 2 a.1).map digitCode == [1, 1] && !a.2.tooBig && (sdDigits 2 b.1).map digitCode == [5, 5] && b.2.tooBig) = true := by decide +kernel

/-- The two markers of the sampled sum (R246, R248; the program's table of markers). -/
theorem test_sampled_markers : ((bits (gapPayload 0 3 3 3 false 1 false 0) 0 128).toNat == 0x0000002300000003_0000000300000000 &&
    (bits (gapPayload 4 4 10 3 true 2 false 0) 0 128).toNat == 0x000000530000000A_0000000400000004) = true := by decide +kernel

/-- The marker of an incomplete window: one unit lost, FIRST 0, LAST 3 (R182; the window join's table of markers). -/
theorem test_window_marker : (let m := windowMarker c0 ⟨1, 0, 3⟩ 0 none
    (bits m.v0 0 128).toNat == 0x0000000A00000003_0000000000000001 && m.tag.kind == kGap && m.tag.seq == 0) = true := by decide +kernel

/-- Steering by key takes a vector's SEQ and a record's key (R173, R362). -/
theorem test_steerKey : (let v : Item := { data0 0x123456789 with v1 := some 0, tag := { Tag.template with seq := 77 } }
    steerKey v == 77 && steerKey (data0 0x123456789) == 0x123456789) = true := by decide +kernel

/-- AES-256 of the block that FIPS 197 works out, and back (R326 names the cipher). -/
theorem test_aes : (let key := (List.range 32).map (BitVec.ofNat 8)
    let plain := (List.range 16).map (fun i => BitVec.ofNat 8 (0x11 * i))
    let c := aesEncrypt key plain
    c == natToBe 16 0x8EA2B7CA516745BFEAFC49904B496089 && aesDecrypt key c == plain) = true := by decide +kernel

/-- SHA-256 of "abc", which FIPS 180-4 works out (R439 names the hash). -/
theorem test_sha : (sha256 [0x61, 0x62, 0x63] ==
    natToBe 32 0xBA7816BF8F01CFEA414140DE5DAE2223B00361A396177A9CB410FF61F20015AD) = true := by decide +kernel

/-- A base word of a row manager, `addi x1, x1, 5`, runs by its turn, and a word that the base does not have traps with cause 2 (R120). -/
theorem test_baseWord : (let run (w : Nat) : Option Rm :=
      match Sys2Proof.Machine.step ({ (rmWith (fun m => { m with csr := { m.csr with mtvec := 0x100 } }) [7]).putNum k0 0x30000 4 w with turns := [.rm 0] } : State) with
      | .next t => some (t.rm 0)
      | _ => none
    (run 0x00508093).map (fun m => (m.x[1], m.pc)) == some (12, 0x30004) &&
      (run 0xFFFFFFFF).map (fun m => (m.csr.mcause, m.csr.mepc, m.pc)) == some (2, 0x30000, 0x100)) = true := by decide +kernel

/-! ### One step -/

/-- A register of the small state after an instruction. -/
def regAfter (i : Instr) (s : State) (r : BitVec 5) : Option Word64 := match exec i s with
  | .next t => some (reg t r)
  | _ => none

/-- −2^63 by −1 (R133), and the shift of the full width, which takes the low six bits (R132). -/
theorem test_corners : (regAfter (.div 10 1 2 0 0) s0 10 == some 0x8000000000000000 && regAfter (.rem 10 1 2 0 0) s0 10 == some 0 &&
    regAfter (.shl 10 3 4 0 0) s0 10 == some 1 && regAfter (.sar 10 1 5 0 0) s0 10 == some 0xC000000000000000 &&
    regAfter (.mulh 10 2 3 0 0) s0 10 == some 0xFFFFFFFFFFFFFFFF) = true := by decide +kernel

/-- g0 takes no value (R47). -/
theorem test_g0 : (regAfter (.add 0 3 3 0 0) s0 0 == some 0) = true := by decide +kernel

/-- EVENT of the leave marker, by the selector 0x125 (the sampled sum's `g17`). -/
theorem test_bfx : (regAfter (.bfx 10 8 7 0 0) (seqWith (fun q => { q with g := (q.g.set 7 0x125).set 8 0x000000530000000A })) 10 == some 2) = true := by
  decide +kernel

/-- Division by zero writes all ones, and the dividend as its remainder; it does not trap (R132). -/
theorem test_divide_by_zero : (regAfter (.div 10 1 0 0 0) s0 10 == some 0xFFFFFFFFFFFFFFFF &&
    regAfter (.rem 10 1 0 0 0) s0 10 == some 0x8000000000000000) = true := by decide +kernel

/-- A store writes the least significant byte first, eight bytes and no ninth: its own sequencer reads it back before it is released
(R143; question Q1 of the ordering chapter). -/
theorem test_store_bytes : (match exec (.st 7 4 0 0 0 3 0) (seqWith (fun q => { q with g := q.g.set 7 0x1122334455667788 })) with
    | .next t => regAfter (.ld 10 4 0 0 0 0 0) t 10 == some 0x88 && regAfter (.ld 10 4 0 0 0 0 7) t 10 == some 0x11 &&
        regAfter (.ld 10 4 0 0 0 0 8) t 10 == regAfter (.ld 10 4 0 0 0 0 8) s0 10
    | _ => false) = true := by decide +kernel

/-- A word of all ones plus 2 wraps to 1, and the old word returns with its upper half zero (R145). -/
theorem test_amoadd : (let s := { s0.modSeq 0 (fun q => { q with g := q.g.set 10 0xABCD00000002 }) with
      mem := [(0x10040, 0xFF), (0x10041, 0xFF), (0x10042, 0xFF), (0x10043, 0xFF)] }
    match exec (.amoadd 10 4 0 0 0 2) s with
    | .next t => reg t 10 == 0xFFFFFFFF && Memory.read t.mem 0x10040 == 1 && Memory.read t.mem 0x10041 == 0
    | _ => false) = true := by decide +kernel

/-- A misaligned double-word: the trap saves the pc and the address and goes to the handler (R140, R383). -/
theorem test_misaligned : (match exec (.ld 10 5 0 0 0 3 0) s0 with
    | .next t => (me t).pc == 0x100 && (me t).intrap && (me t).tval == 0x41 && (me t).tepc == (me s0).pc && reg t 10 == reg s0 10
    | _ => false) = true := by decide +kernel

/-- `cmplt` is signed and `cmpltu` is not; p0 takes no value (R24, R135). -/
theorem test_compare : (match exec (.cmplt 2 1 3 0 0) s0, exec (.cmpltu 2 1 3 0 0) s0, exec (.cmplt 0 3 1 0 0) s0 with
    | .next t, .next u, .next v => (me t).readP 2 && !(me u).readP 2 && (me v).readP 0
    | _, _, _ => false) = true := by decide +kernel

end Sys2Proof.Machine.Tests
end

section
namespace Sys2Proof.Machine

/-! ### Folds, association lists and the cells of a state -/

/-- A fold keeps what each of its steps keeps. -/
theorem foldl_keeps {σ α β : Type} (g : σ → β) {f : σ → α → σ} (h : ∀ s a, g (f s a) = g s) (l : List α) (s : σ) :
    g (l.foldl f s) = g s := by
  induction l generalizing s with
  | nil => rfl
  | cons a l ih => exact (ih _).trans (h s a)

/-- Entries changed in place, each under its own key. -/
theorem aget_map {α β : Type} [DecidableEq α] (g : α × β → α × β) (hg : ∀ p, (g p).1 = p.1) (l : List (α × β)) (a : α) :
    aget (l.map g) a = (aget l a).map (fun v => (g (a, v)).2) := by
  induction l with
  | nil => rfl
  | cons p l ih =>
    obtain ⟨k, v⟩ := p
    have hk : g (k, v) = (k, (g (k, v)).2) := Prod.ext (hg _) rfl
    rw [List.map_cons, hk]
    simp only [aget, ih]
    split
    · next h => rw [h]; rfl
    · rfl

/-- A cell after a change of the listed cells: it is as it was, or it is changed. -/
theorem State.cell_mapCells (s : State) (g : CellId × Cell → CellId × Cell) (hg : ∀ p, (g p).1 = p.1) (b : CellId) :
    State.cell { s with cells := s.cells.map g } b = s.cell b ∨
    State.cell { s with cells := s.cells.map g } b = (g (b, s.cell b)).2 := by
  simp only [State.cell, aget_map g hg]
  cases aget s.cells b with
  | none => exact .inl rfl
  | some x => exact .inr rfl

/-! ### What a freeze leaves of the cells and of the sequencers -/

/-- A sequencer without what a freeze changes of it, and without the queues behind its outlet ports. -/
def Seq.fixed (x : Seq) : Seq := { x with run := .idle, outPort := Vector.replicate 64 none }

/-- A cell without what a freeze changes of it: its queues, whether it is stopped or muted, and its fault register but for VALID. -/
def Cell.steady (x : Cell) : Cell :=
  { x with
    queues := Vector.replicate 8 Queue.reset, stopped := false, muted := false, fault := { FaultReg.reset with valid := x.fault.valid } }

/-- What a freeze leaves of a state: memory, the registers of the sequencers, and the rest of the cells. -/
def State.steady (s : State) := (s.store, (fun q => (s.seq q).fixed), (fun b => (s.cell b).steady))

theorem State.steady_eq {s t : State} (hst : t.store = s.store) (hq : ∀ q, (t.seq q).fixed = (s.seq q).fixed)
    (hc : ∀ b, (t.cell b).steady = (s.cell b).steady) : t.steady = s.steady := by
  simp only [State.steady, hst, hq, hc]

theorem State.cell_steady_of {s t : State} (h : t.steady = s.steady) (b : CellId) : (t.cell b).steady = (s.cell b).steady :=
  congrFun (congrArg (fun z => z.2.2) h) b

theorem State.valid_of_steady {s t : State} (h : t.steady = s.steady) (b : CellId) :
    (t.cell b).fault.valid = (s.cell b).fault.valid :=
  show (t.cell b).steady.fault.valid = (s.cell b).steady.fault.valid by rw [State.cell_steady_of h b]

@[simp] theorem State.setDie_steady (s : State) (d : BitVec 3) (v : Die) : (s.setDie d v).steady = s.steady := rfl
@[simp] theorem State.modDie_steady (s : State) (d : BitVec 3) (f : Die → Die) : (s.modDie d f).steady = s.steady := rfl
@[simp] theorem State.setCtx_steady (s : State) (n : BitVec 9) (v : Ctx) : (s.setCtx n v).steady = s.steady := rfl
@[simp] theorem State.setRegion_steady (s : State) (r : Region) : (s.setRegion r).steady = s.steady := rfl
@[simp] theorem State.modRegion_steady (s : State) (n : Nat) (f : Region → Region) : (s.modRegion n f).steady = s.steady := rfl
@[simp] theorem State.event_steady (s : State) (d : BitVec 3) (typ : BitVec 8) (ctx : BitVec 9) (x y z : Word64) :
    (s.event d typ ctx x y z).steady = s.steady := rfl
@[simp] theorem State.note_steady (s : State) (d : BitVec 3) (typ : BitVec 8) (ctx : BitVec 9) (x y : Word64) :
    (s.note d typ ctx x y).steady = s.steady := rfl

@[simp] theorem State.moveCtx_steady (s : State) (d : BitVec 3) (n : BitVec 9) (f : Ctx → Ctx) : (s.moveCtx d n f).steady = s.steady := by
  unfold State.moveCtx; dsimp only; split <;> rfl

theorem State.modSeq_steady (s : State) (q : BitVec 7) (f : Seq → Seq) (h : ∀ x, (f x).fixed = x.fixed) :
    (s.modSeq q f).steady = s.steady := by
  refine State.steady_eq rfl (fun k => ?_) (fun _ => rfl)
  rw [State.modSeq_seq]
  split
  · next hk => rw [hk]; exact h _
  · rfl

theorem State.modCell_steady (s : State) (c : CellId) (f : Cell → Cell) (h : (f (s.cell c)).steady = (s.cell c).steady) :
    (s.modCell c f).steady = s.steady := by
  refine State.steady_eq rfl (fun _ => rfl) (fun b => ?_)
  rw [State.modCell_cell]
  split
  · next hb => rw [hb]; exact h
  · rfl

/-- The listed cells changed in nothing but what a freeze changes. -/
theorem State.mapCells_steady (s : State) (g : CellId × Cell → CellId × Cell) (hg : ∀ p, (g p).1 = p.1)
    (h : ∀ p, (g p).2.steady = p.2.steady) : State.steady { s with cells := s.cells.map g } = s.steady := by
  refine State.steady_eq rfl (fun _ => rfl) (fun b => ?_)
  obtain e | e := s.cell_mapCells g hg b <;> rw [e]
  exact h _

@[simp] theorem State.unmute_steady (s : State) (r : Region) : (s.unmute r).steady = s.steady :=
  s.mapCells_steady _ (fun p => by dsimp only; split <;> rfl) (fun p => by dsimp only; split <;> rfl)

@[simp] theorem State.abandonCut_steady (s : State) (r : Region) : (s.abandonCut r).steady = s.steady := by
  unfold State.abandonCut
  split
  · rfl
  · dsimp only
    split
    · rfl
    · rw [State.modSeq_steady _ _ _ ?_, State.unmute_steady, State.modRegion_steady]
      exact fun _ => rfl

@[simp] theorem State.abandonPreempt_steady (s : State) (r : Region) : (s.abandonPreempt r).steady = s.steady := by
  unfold State.abandonPreempt
  split
  · exact foldl_keeps State.steady (fun s r => s.abandonCut_steady r) _ s
  · rfl

@[simp] theorem State.freezeIfStopped_steady (s : State) (n : Nat) : (s.freezeIfStopped n).steady = s.steady := by
  unfold State.freezeIfStopped
  split
  · rfl
  · next r _ =>
    split
    · simp only [State.event_steady, State.modDie_steady, State.moveCtx_steady, State.abandonPreempt_steady, State.setRegion_steady]
      rw [State.modSeq_steady _ _ _ ?_, State.mapCells_steady _ _ ?_ ?_]
      · split <;> simp
      · intro p; split <;> rfl
      · intro p; split <;> rfl
      · exact fun _ => rfl
    · rfl

@[simp] theorem State.demote_steady (s : State) (r : Region) : (s.demote r).steady = s.steady := by
  unfold State.demote
  split
  · exact s.modCell_steady _ _ rfl
  · rfl

/-! ### What a raised fault leaves -/

/-- What only the nodes of a cell, and a load of its region, change of it: the configuration, latches, node states, tables, accumulators
and the node issued last. -/
def Cell.own (x : Cell) := (x.active, x.latches, x.nst, x.fb, x.mx.acc, x.last)

/-- What a fault leaves of a state: memory, the registers of the sequencers, and what cells have of their own. -/
def State.kept (s : State) := (s.store, (fun q => (s.seq q).fixed), (fun b => (s.cell b).own))

theorem State.kept_eq {s t : State} (hst : t.store = s.store) (hq : ∀ q, (t.seq q).fixed = (s.seq q).fixed)
    (hc : ∀ b, (t.cell b).own = (s.cell b).own) : t.kept = s.kept := by
  simp only [State.kept, hst, hq, hc]

theorem State.kept_of_steady {s t : State} (h : t.steady = s.steady) : t.kept = s.kept :=
  State.kept_eq (congrArg Prod.fst h) (congrFun (congrArg (fun z => z.2.1) h))
    fun b => show (t.cell b).steady.own = (s.cell b).steady.own by rw [State.cell_steady_of h b]

theorem State.setCell_kept (s : State) (c : CellId) (v : Cell) (h : v.own = (s.cell c).own) : (s.setCell c v).kept = s.kept := by
  refine State.kept_eq rfl (fun _ => rfl) (fun b => ?_)
  rw [State.setCell_cell]
  split
  · next hb => rw [hb]; exact h
  · rfl

/-- A fault leaves what a cell has of its own (R389): it stops sequencers and freezes queues. -/
theorem State.raiseFault_kept (s : State) (c : CellId) (f : FaultReg) : (s.raiseFault c f).kept = s.kept := by
  unfold State.raiseFault
  split
  · exact s.setCell_kept c _ rfl
  · next r _ =>
    dsimp only
    have h0 (p : Bool) : (if p then s.demote r else s).kept = s.kept := by
      split
      · exact State.kept_of_steady (s.demote_steady r)
      · rfl
    generalize hp : (!(s.cell c).fault.valid && s.isPrimary r c) = p
    have h1 (v : Cell) (hv : v.own = (s.cell c).own) : ((if p then s.demote r else s).setCell c v).kept = s.kept :=
      (State.setCell_kept _ c v (hv.trans (congrFun (congrArg (fun z => z.2.2) (h0 p)) c).symm)).trans (h0 p)
    split
    · exact h1 _ (by split <;> rfl)
    · exact (State.kept_of_steady (State.freezeIfStopped_steady _ _)).trans (h1 _ (by split <;> rfl))

/-- A cell in which a fault is raised holds a fault (R391). -/
theorem State.raiseFault_valid (s : State) (c : CellId) (f : FaultReg) : ((s.raiseFault c f).cell c).fault.valid = true := by
  unfold State.raiseFault
  split
  · simp
  · dsimp only
    have hv (x : Cell) (g : FaultReg) (hg : g.valid = true) : (if x.fault.valid then x else { x with fault := g }).fault.valid = true := by
      split
      · next h => exact h
      · exact hg
    split
    · rw [State.modRegion_cell, State.setDie_cell, State.setCell_cell_self]; exact hv _ _ rfl
    · rw [State.valid_of_steady (State.freezeIfStopped_steady _ _), State.modRegion_cell, State.setDie_cell, State.setCell_cell_self]
      exact hv _ _ rfl

/-! ### The frame of a node: what lies beside its cell -/

/-- What lies beside a cell: memory, the registers of the sequencers, and what every other cell has of its own. -/
def State.beside (s : State) (c : CellId) :=
  (s.store, (fun q => (s.seq q).fixed), (fun b => if b = c then none else some (s.cell b).own))

theorem State.beside_of_kept {s t : State} (h : t.kept = s.kept) (c : CellId) : t.beside c = s.beside c := by
  simp only [State.kept, Prod.mk.injEq] at h
  obtain ⟨hst, hq, hc⟩ := h
  have hb (b : CellId) : (t.cell b).own = (s.cell b).own := congrFun hc b
  simp only [State.beside, hst, hq, hb]

@[simp] theorem State.ite_beside (p : Prop) [Decidable p] (s t : State) (c : CellId) :
    (if p then s else t).beside c = if p then s.beside c else t.beside c := apply_ite (State.beside · c) p s t

/-- A choice leaves what lies beside a cell where both branches do. -/
theorem State.ite_beside_of {p : Prop} [Decidable p] {s t u : State} {c : CellId} (hs : s.beside c = u.beside c)
    (ht : t.beside c = u.beside c) : (if p then s else t).beside c = u.beside c := by
  split
  · exact hs
  · exact ht

@[simp] theorem State.setCell_beside (s : State) (c : CellId) (v : Cell) : (s.setCell c v).beside c = s.beside c := by
  refine congrArg (fun z => (s.store, (fun q => (s.seq q).fixed), z)) (funext fun b => ?_)
  split
  · rfl
  · next hb => rw [State.setCell_cell, if_neg hb]

@[simp] theorem State.modCell_beside (s : State) (c : CellId) (f : Cell → Cell) : (s.modCell c f).beside c = s.beside c :=
  s.setCell_beside c _

@[simp] theorem State.raiseFault_beside (s : State) (c b : CellId) (f : FaultReg) : (s.raiseFault b f).beside c = s.beside c :=
  State.beside_of_kept (s.raiseFault_kept b f) c

@[simp] theorem State.setDie_beside (s : State) (c : CellId) (d : BitVec 3) (v : Die) : (s.setDie d v).beside c = s.beside c := rfl
@[simp] theorem State.modDie_beside (s : State) (c : CellId) (d : BitVec 3) (f : Die → Die) : (s.modDie d f).beside c = s.beside c := rfl
@[simp] theorem State.modRegion_beside (s : State) (c : CellId) (n : Nat) (f : Region → Region) :
    (s.modRegion n f).beside c = s.beside c := rfl
@[simp] theorem State.freshNat_beside (s : State) (c : CellId) : s.freshNat.2.beside c = s.beside c := rfl
@[simp] theorem State.softError_beside (s : State) (c : CellId) (d : BitVec 3) (ctx : BitVec 9) (x : Word64) :
    (s.softError d ctx x).beside c = s.beside c := rfl
@[simp] theorem State.nodeFault_beside (s : State) (c b : CellId) (k : BitVec 3) (code : Nat) (u : Option Item) :
    (s.nodeFault b k code u).beside c = s.beside c := s.raiseFault_beside c b _
@[simp] theorem State.tokenFault_beside (s : State) (c b : CellId) (k : BitVec 3) (p : Nat) :
    (s.tokenFault b k p).beside c = s.beside c := s.raiseFault_beside c b _
@[simp] theorem State.alignFault_beside (s : State) (c b : CellId) (k : BitVec 3) (used : List Nat) :
    (s.alignFault b k used).beside c = s.beside c := s.raiseFault_beside c b _
@[simp] theorem State.sendPulse_beside (s : State) (c b : CellId) (po : BitVec 3) (kind : BitVec 2) :
    (s.sendPulse b po kind).beside c = s.beside c := rfl
@[simp] theorem State.setNode_beside (s : State) (c : CellId) (k : BitVec 3) (n : NodeState) :
    (s.setNode c k n).beside c = s.beside c := s.modCell_beside c _
@[simp] theorem State.modFb_beside (s : State) (c : CellId) (f : Fretboard → Fretboard) :
    (s.modFb c f).beside c = s.beside c := s.modCell_beside c _

theorem foldl_beside {α : Type} (c : CellId) (f : State → α → State) (h : ∀ s a, (f s a).beside c = s.beside c) (l : List α)
    (s : State) : (l.foldl f s).beside c = s.beside c := foldl_keeps (fun s => s.beside c) h l s

/-! ### The queues of a cell, and the ports -/

@[simp] theorem State.newHead_beside (s : State) (c b : CellId) (k : BitVec 3) (before : Option Item) :
    (s.newHead b k before).beside c = s.beside c := by
  unfold State.newHead
  split
  · split
    · exact s.raiseFault_beside c b _
    · rfl
  · rfl

@[simp] theorem State.checkHeads_beside (s : State) (c : CellId) (before : Vector Queue 8) :
    (s.checkHeads c before).beside c = s.beside c := foldl_beside c _ (fun s _ => s.newHead_beside c c _ _) _ s

@[simp] theorem State.popQ_beside (s : State) (c : CellId) (k : BitVec 3) : (s.popQ c k).beside c = s.beside c := by
  unfold State.popQ
  dsimp only
  rw [State.newHead_beside]
  split <;> simp

@[simp] theorem State.popN_beside (c : CellId) (q : BitVec 3) (n : Nat) (s : State) : (s.popN c q n).beside c = s.beside c := by
  induction n generalizing s with
  | zero => rfl
  | succ n ih => exact (ih _).trans (s.popQ_beside c q)

/-- A sequencer changed in nothing but what a freeze changes, and the queues behind its outlet ports. -/
theorem State.setSeq_beside (s : State) (c : CellId) (q : BitVec 7) (v : Seq) (h : v.fixed = (s.seq q).fixed) :
    (s.setSeq q v).beside c = s.beside c := by
  refine State.beside_of_kept (s := s) (t := s.setSeq q v) (State.kept_eq rfl (fun k => ?_) fun _ => rfl) c
  rw [State.setSeq_seq]
  split
  · next hk => rw [hk]; exact h
  · rfl

@[simp] theorem State.xlateEngine_beside (s : State) (c : CellId) (d : BitVec 3) (ctx : BitVec 9) (right : Right) (va : Word64) :
    (s.xlateEngine d ctx right va).2.beside c = s.beside c := by
  unfold State.xlateEngine
  dsimp only
  split
  · rfl
  · split
    · rfl
    · split <;> rfl

theorem State.ringMiss_beside (c : CellId) (l : List Nat) (s : State) (d : BitVec 3) (ctx : BitVec 9) (q : Queue) {f : XFault}
    {va : Word64} {t : State} (h : s.ringMiss d ctx q l = some (f, va, t)) : t.beside c = s.beside c := by
  induction l with
  | nil => exact nomatch h
  | cons i l ih =>
    unfold State.ringMiss at h
    split at h
    · cases h; rfl
    · cases h; rfl
    · next heq => cases h; rw [← s.xlateEngine_beside c d ctx .rw (q.ringVa i), heq]
    · exact ih h

@[simp] theorem State.offerOut_beside (s : State) (c : CellId) (q : BitVec 7) (p : BitVec 6) (u : Item) :
    (s.offerOut q p u).beside c = s.beside c := by
  have put (x : Queue) : (s.setSeq q { s.seq q with outPort := (s.seq q).outPort.set p.toNat (some x) }).beside c = s.beside c :=
    s.setSeq_beside c q _ rfl
  unfold State.offerOut
  dsimp only
  split
  · rfl
  · split
    · rfl
    · split
      · exact put _
      · next hm =>
        obtain ⟨⟨f, va, t⟩, hm, hf⟩ := Option.bind_eq_some_iff.mp hm
        obtain ⟨code, -, hc⟩ := Option.map_eq_some_iff.mp hf
        cases hc
        exact (State.raiseFault_beside _ _ _ _).trans ((State.ringMiss_beside c _ _ _ _ _ hm).trans (put _))
      · exact (State.raiseFault_beside _ _ _ _).trans (put _)
      · exact put _

/-! ### Results that leave a node -/

@[simp] theorem State.convEot_beside (s : State) (c : CellId) (site : BitVec 6) (tensor : BitVec 16) :
    (s.convEot c site tensor).beside c = s.beside c := by
  unfold State.convEot
  dsimp only
  split
  · split <;> simp
  · simp

@[simp] theorem State.onLink_beside (s : State) (c b : CellId) (l : LinkEntry) (u : Item) : (s.onLink b l u).beside c = s.beside c := by
  unfold State.onLink
  dsimp only
  split <;> rfl

@[simp] theorem State.leaveBy_beside (s : State) (c b : CellId) (so : BitVec 5) (u : Item) : (s.leaveBy b so u).beside c = s.beside c := by
  have h := foldl_beside c (fun (s : State) (l : LinkEntry) => s.onLink b l u) (fun s l => s.onLink_beside c b l u)
    ((s.cell b).active.links.filter (fun l => l.so = so)) s
  unfold State.leaveBy
  dsimp only
  split
  · exact (State.offerOut_beside _ _ _ _ _).trans h
  · exact h

@[simp] theorem State.leavePath_beside (s : State) (c b : CellId) (w : SwWord) (u : Item) :
    (s.leavePath b w u).beside c = s.beside c :=
  foldl_beside c _ (fun s o => s.leaveBy_beside c b o u) _ s

@[simp] theorem State.emitOutlet_beside (s : State) (c : CellId) (so : BitVec 5) (u : Item) :
    (s.emitOutlet c so u).beside c = s.beside c := by
  unfold State.emitOutlet
  split
  · simp
  · split <;> simp

@[simp] theorem State.deliver_beside (s : State) (c : CellId) (t : BitVec 6) (u : Item) : (s.deliver c t u).beside c = s.beside c := by
  unfold State.deliver
  split <;> simp

@[simp] theorem State.deliverAll_beside (l : List (BitVec 6 × Item)) (s : State) (c : CellId) (k : BitVec 3) :
    (s.deliverAll c k l).beside c = s.beside c := by
  induction l generalizing s with
  | nil => rfl
  | cons p l ih =>
    obtain ⟨t, u⟩ := p
    unfold State.deliverAll
    split
    · exact (ih _).trans (s.deliver_beside c t u)
    · simp

/-! ### Values that a node consumes, and tokens that it forwards -/

@[simp] theorem State.take_beside (s : State) (c : CellId) (k : BitVec 3) (p : Nat) : (s.take c k p).beside c = s.beside c := by
  have ht : (s.takeTrigger c k p).beside c = s.beside c := by unfold State.takeTrigger; split <;> simp
  unfold State.take
  dsimp only
  split
  · split
    · simp
    · exact ht
  · split
    · simp
    · exact ht

@[simp] theorem State.consume_beside (s : State) (c : CellId) (k : BitVec 3) (used : List Nat) :
    (s.consume c k used).beside c = s.beside c := by
  unfold State.consume
  dsimp only
  rw [State.modCell_beside]
  exact foldl_beside c _ (fun s p => s.take_beside c k p) used s

@[simp] theorem State.consumeTokens_beside (s : State) (c : CellId) (k : BitVec 3) (used : List Nat) :
    (s.consumeTokens c k used).beside c = s.beside c := s.consume_beside c k _

@[simp] theorem State.forwardGap_beside (s : State) (c : CellId) (k : BitVec 3) (ts : List (BitVec 6)) (p : Nat) :
    (s.forwardGap c k ts p).beside c = s.beside c := by
  unfold State.forwardGap
  split <;> simp

@[simp] theorem State.passSink_beside (s : State) (c b : CellId) (k : BitVec 3) (i : Option Inv) :
    (s.passSink b k i).beside c = s.beside c := by
  unfold State.passSink
  split <;> simp

@[simp] theorem State.passEot_beside (s : State) (c b : CellId) (k : BitVec 3) (is : List Inv) :
    (s.passEot b k is).beside c = s.beside c :=
  (foldl_beside c _ (fun s i => s.passSink_beside c b k (some i)) is _).trans (s.sendPulse_beside c b k 1)

@[simp] theorem State.beginInv_beside (s : State) (c : CellId) (k : BitVec 3) (is : List Inv) :
    (s.beginInv c k is).beside c = s.beside c := by
  simp [State.beginInv]

@[simp] theorem State.afterToken_beside (s : State) (c : CellId) (k : BitVec 3) (kind : BitVec 4) (is : List Inv) :
    (s.afterToken c k kind is).beside c = s.beside c := by
  unfold State.afterToken
  split
  · simp
  · split <;> simp

theorem State.forwardTokenAfter_beside (s : State) (c : CellId) (k : BitVec 3) (used : List Nat) (ts : List (BitVec 6))
    (kind : BitVec 4) (node : State → State) (first : List (BitVec 6 × Item)) (h : ∀ t, (node t).beside c = t.beside c) :
    (s.forwardTokenAfter c k used ts kind node first).beside c = s.beside c := by
  unfold State.forwardTokenAfter
  dsimp only
  split
  · split <;> simp
  · simp [h]

@[simp] theorem State.forwardToken_beside (s : State) (c : CellId) (k : BitVec 3) (used : List Nat) (ts : List (BitVec 6))
    (kind : BitVec 4) : (s.forwardToken c k used ts kind).beside c = s.beside c :=
  s.forwardTokenAfter_beside c k used ts kind id [] fun _ => rfl

@[simp] theorem State.fireWith_beside (s : State) (c : CellId) (k : BitVec 3) (used : List Nat) (outs : List (BitVec 6 × Item)) :
    (s.fireWith c k used outs).beside c = s.beside c := by
  simp [State.fireWith]

/-! ### The turn of a node -/

/-- A node's turn leaves what lies beside its cell wherever its act does. -/
theorem State.atNode_beside (s : State) (act : CellId → BitVec 3 → Cell → State)
    (h : ∀ k x, (act s.nodeTurn.1 k x).beside s.nodeTurn.1 = s.beside s.nodeTurn.1) : (s.atNode act).beside s.nodeTurn.1 = s.beside s.nodeTurn.1 := by
  obtain ⟨_, e⟩ | ⟨_, _, e⟩ | ⟨_, _, e⟩ := s.atNode_cases act <;> rw [e]
  · exact h _ _
  · simp

/-- The same where its firing, and what it does behind a token, do. -/
theorem State.nodeActWith_beside (s : State) (used : List Nat) (ts : List (BitVec 6))
    (fire : CellId → BitVec 3 → Operands → State → State) (post : CellId → BitVec 3 → BitVec 4 → State → State)
    (hf : ∀ k o, (fire s.nodeTurn.1 k o s).beside s.nodeTurn.1 = s.beside s.nodeTurn.1)
    (hp : ∀ k kind t, (post s.nodeTurn.1 k kind t).beside s.nodeTurn.1 = t.beside s.nodeTurn.1) :
    (s.nodeActWith used ts fire post).beside s.nodeTurn.1 = s.beside s.nodeTurn.1 := by
  refine s.atNode_beside _ fun k x => ?_
  split <;> simp [hf, hp]

theorem State.nodeAct_beside (s : State) (used : List Nat) (ts : List (BitVec 6))
    (fire : CellId → BitVec 3 → Operands → State → State)
    (hf : ∀ k o, (fire s.nodeTurn.1 k o s).beside s.nodeTurn.1 = s.beside s.nodeTurn.1) :
    (s.nodeAct used ts fire).beside s.nodeTurn.1 = s.beside s.nodeTurn.1 :=
  s.nodeActWith_beside used ts fire _ hf fun _ _ _ => rfl

end Sys2Proof.Machine
end

section
namespace Sys2Proof.Machine

/-! ### The nodes, one by one -/

/-- A turn of the node whose turn it is that answers a state, with what lies beside its cell as it was. -/
structure NodeFramed (s : State) (r : Result) : Prop where
  beside_eq : ∀ t, r = .next t → t.beside s.nodeTurn.1 = s.beside s.nodeTurn.1

theorem NodeFramed.next {s u : State} (h : u.beside s.nodeTurn.1 = s.beside s.nodeTurn.1) : NodeFramed s (.next u) :=
  ⟨fun _ ht => by cases ht; exact h⟩

/-! #### Arithmetic (R167 to R169) -/

theorem arithLanes_framed (two : Bool) (base : List Nat) (a b : BitVec 6) (m : BitVec 2)
    (fn : Cell → Fmt → Nat → Nat → Nat → LaneOut) (s : State) : NodeFramed s (.next (arithLanes two base a b m fn s)) :=
  .next (s.nodeAct_beside _ _ _ fun _ _ => by simp)

theorem arithCmp_framed (cond : CmpCond) (a b : BitVec 6) (m : BitVec 2) (s : State) :
    NodeFramed s (.next (arithCmp cond a b m s)) :=
  .next (s.nodeAct_beside _ _ _ fun _ _ => by simp)

theorem execArithSel_framed (a b : BitVec 6) (m : BitVec 2) (o : BitVec 8) (s : State) : NodeFramed s (execArithSel a b m o s) :=
  .next (s.nodeAct_beside _ _ _ fun _ _ => by simp)

theorem execArithSat_framed (a b : BitVec 6) (m : BitVec 2) (o : BitVec 8) (s : State) : NodeFramed s (execArithSat a b m o s) :=
  .next (s.nodeAct_beside _ _ _ fun _ _ => by dsimp only; split <;> simp)

/-! #### Copies, gates and steers (R170 to R173) -/

theorem execCopy_framed (a b : BitVec 6) (m : BitVec 2) (o : BitVec 8) (s : State) : NodeFramed s (execCopy a b m o s) :=
  .next (s.nodeAct_beside _ _ _ fun _ _ => by split <;> simp)

theorem gateBit_beside (s : State) (x : Cell) (k : BitVec 3) (c : CellId) : (gateBit s x k).2.beside c = s.beside c := by
  unfold gateBit
  split
  · rfl
  · split <;> rfl

theorem execGate_framed (a b : BitVec 6) (m : BitVec 2) (o : BitVec 8) (s : State) : NodeFramed s (execGate a b m o s) := by
  refine .next (s.atNode_beside _ fun k x => ?_)
  dsimp only
  split
  · simp
  · simp
  · split
    · simp
    · split
      · have hg := gateBit_beside s x k s.nodeTurn.1
        split
        · next h => rw [h] at hg; split <;> simp [hg]
        · next h => rw [h] at hg; simp [hg]
        · rfl
      · split <;> simp

theorem State.steerAct_framed (s : State) (used : List Nat) (ts : Cell → Option (List (BitVec 6)))
    (fire : CellId → BitVec 3 → Operands → State → State) (hf : ∀ c k o, (fire c k o s).beside c = s.beside c) :
    NodeFramed s (.next (s.steerAct used ts fire)) := by
  refine .next (s.atNode_beside _ fun k x => ?_)
  split
  · exact s.nodeAct_beside _ _ _ (hf _)
  · split <;> simp

theorem execStp_framed (a b : BitVec 6) (m : BitVec 2) (o : BitVec 8) (s : State) : NodeFramed s (execStp a b m o s) :=
  s.steerAct_framed _ _ _ fun _ _ _ => by split <;> simp

theorem steerClass_framed (a b : BitVec 6) (m : BitVec 2) (o : BitVec 8)
    (choose : Cell → Nat → Nat → Item → Option (Option Nat)) (s : State) :
    NodeFramed s (.next (steerClass a b m o choose s)) := by
  refine s.steerAct_framed _ _ _ fun c k ops => ?_
  split
  · rfl
  · dsimp only; split <;> simp

/-! #### Joins (R174 to R178) -/

theorem joinStep_beside (s : State) (c : CellId) (k : BitVec 3) (ts : List (BitVec 6)) (tab : JTable) (j : JState) (a b : Item) :
    (joinStep s c k ts tab j a b).beside c = s.beside c := by
  unfold joinStep
  extract_lets +onlyGivenNames -underBinder x r act j1 popsA popsB resets fromQ popped
  clear_value popped
  refine State.ite_beside_of rfl (State.ite_beside_of (by simp) ?_)
  rcases popped with _ | ⟨j2, qpop⟩
  · simp
  · exact State.ite_beside_of (by simp) (by simp)

theorem joinHeads_beside (s : State) (c : CellId) (k : BitVec 3) (ts : List (BitVec 6)) (x : Cell) (va vb : Option Item)
    (clear : NodeState) (body : Item → Item → State) (h : ∀ u v, (body u v).beside c = s.beside c) :
    (joinHeads s c k ts x va vb clear body).beside c = s.beside c := by
  have token (kind : BitVec 4) : (s.forwardTokenAfter c k [posA, posB] ts kind
      (fun s => if endKind kind then s.setNode c k clear else s) []).beside c = s.beside c :=
    s.forwardTokenAfter_beside c k _ ts kind _ _ fun t => by simp
  unfold joinHeads
  extract_lets +onlyGivenNames -underBinder qb free isGap
  refine State.ite_beside_of (by simp) (State.ite_beside_of (by simp) (State.ite_beside_of (by simp) (State.ite_beside_of (by simp) ?_)))
  split
  · exact State.ite_beside_of (h _ _) (by simp [h, token])
  · rfl

theorem joinAct_framed (a b : BitVec 6) (o : BitVec 8) (table : Word64 → Option JTable) (s : State) :
    NodeFramed s (.next (joinAct a b o table s)) := by
  refine .next (s.atNode_beside _ fun k x => joinHeads_beside s _ k _ x _ _ _ _ fun u v => ?_)
  split
  · simp
  · exact joinStep_beside s _ k _ _ _ u v

theorem execJwin_framed (a b : BitVec 6) (m : BitVec 2) (o : BitVec 8) (s : State) : NodeFramed s (execJwin a b m o s) := by
  refine .next (s.atNode_beside _ fun k x => ?_)
  split
  extract_lets +onlyGivenNames -underBinder va vb ts isGap free
  clear_value va vb isGap free
  refine State.ite_beside_of (by simp) (State.ite_beside_of (by simp) (State.ite_beside_of (by simp) (State.ite_beside_of (by simp) ?_)))
  split
  · rfl
  · extract_lets +onlyGivenNames -underBinder aTok
    refine State.ite_beside_of (State.ite_beside_of (by simp) (by simp)) ?_
    split
    · rfl
    · refine State.ite_beside_of (State.ite_beside_of rfl ?_) (State.ite_beside_of (State.ite_beside_of rfl ?_) (by simp))
      · split <;> simp
      · refine State.ite_beside_of (State.forwardTokenAfter_beside _ _ _ _ _ _ _ _ fun t => ?_) (by simp)
        simp

/-! #### Reorder and window cells (R179 to R183) -/

theorem reorderPut_beside (s : State) (c : CellId) (k : BitVec 3) (ts : List (BitVec 6)) (used : List Nat) (r : Reorder) :
    (reorderPut s c k ts used r).beside c = s.beside c := by
  simp [reorderPut]

theorem reorderToken_beside (s : State) (c : CellId) (k : BitVec 3) (ts : List (BitVec 6)) (used : List Nat) (r : Reorder) (u : Item) :
    (reorderToken s c k ts used r u).beside c = s.beside c :=
  State.ite_beside_of (s.forwardTokenAfter_beside _ _ _ _ _ _ _ fun t => t.setNode_beside c k _) (s.forwardToken_beside c k _ _ _)

theorem execRord_framed (a b : BitVec 6) (m : BitVec 2) (o : BitVec 8) (s : State) : NodeFramed s (execRord a b m o s) := by
  refine .next (s.atNode_beside _ fun k x => ?_)
  dsimp only
  split
  · rfl
  · simp [reorderPut_beside, reorderToken_beside]

theorem boundAt_beside (s : State) (x : Cell) (k : BitVec 3) (c : CellId) : (boundAt s x k).2.beside c = s.beside c := by
  unfold boundAt
  split
  · rfl
  · split <;> rfl

theorem execRrel_framed (a b : BitVec 6) (m : BitVec 2) (o : BitVec 8) (s : State) : NodeFramed s (execRrel a b m o s) := by
  refine .next (s.atNode_beside _ fun k x => ?_)
  extract_lets +onlyGivenNames -underBinder j va vc ts used isGap dataOrGap r free onBound
  have hb : onBound.beside s.nodeTurn.1 = s.beside s.nodeTurn.1 := by
    have h := boundAt_beside s x k s.nodeTurn.1
    unfold onBound
    split
    · next e => rw [e] at h; simp [reorderPut_beside, h]
    · rfl
  clear_value onBound va vc
  refine State.ite_beside_of (by simp) (State.ite_beside_of (by simp) (State.ite_beside_of (by simp) (State.ite_beside_of (by simp) ?_)))
  split
  · exact hb
  · refine State.ite_beside_of (by simp [reorderPut_beside]) ?_
    extract_lets +onlyGivenNames -underBinder token
    have ht : token.beside s.nodeTurn.1 = s.beside s.nodeTurn.1 := by simp [token, reorderToken_beside]
    split
    · exact State.ite_beside_of hb (by simp [ht])
    · exact State.ite_beside_of hb ht

theorem windowAct_framed (flush : Bool) (a b : BitVec 6) (o : BitVec 8) (s : State) :
    NodeFramed s (.next (windowAct flush a b o s)) := by
  refine .next (s.atNode_beside _ fun k x => ?_)
  extract_lets +onlyGivenNames -underBinder ts put
  have hp (w : WinSt) (out : List Item) : (put s w out).beside s.nodeTurn.1 = s.beside s.nodeTurn.1 := by simp [put]
  clear_value put
  split
  · rfl
  · refine State.ite_beside_of (by simp) (State.ite_beside_of rfl ?_)
    dsimp only
    split
    · simp
    · refine State.ite_beside_of (by simp) (State.ite_beside_of (hp _ _) (State.ite_beside_of (hp _ _) (State.ite_beside_of ?_ (by simp))))
      exact s.forwardTokenAfter_beside _ _ _ _ _ _ _ fun t => t.setNode_beside _ k _

/-! #### Accumulators (R219 to R224) -/

theorem updateAct_framed (fn : UpdFn) (a b : BitVec 6) (o : BitVec 8) (s : State) :
    NodeFramed s (.next (updateAct fn a b o s)) := by
  refine .next (s.atNode_beside _ fun k x => ?_)
  split
  · rfl
  · refine State.ite_beside_of (by simp) (State.ite_beside_of rfl (State.ite_beside_of (by simp) (State.ite_beside_of (by simp) ?_)))
    split
    · simp
    · dsimp only
      split
      · simp
      · simp
      · simp

theorem execAlook_framed (a b : BitVec 6) (m : BitVec 2) (o : BitVec 8) (s : State) : NodeFramed s (execAlook a b m o s) := by
  refine .next (s.nodeAct_beside _ _ _ fun k ops => ?_)
  split
  · rfl
  · dsimp only
    split
    · simp
    · split <;> simp

theorem triggerAct_framed (a b : BitVec 6) (fires : BitVec 4 → Bool)
    (act : CellId → Cell → Option Item → State → List (BitVec 6 × Item) × State) (s : State)
    (h : ∀ c x u t, (act c x u t).2.beside c = t.beside c) : NodeFramed s (.next (triggerAct a b fires act s)) := by
  refine .next (s.atNode_beside _ fun k x => ?_)
  dsimp only
  refine State.ite_beside_of rfl ?_
  split
  · rfl
  · simp [h]
  · simp [h]

theorem execAdrain_framed (a b : BitVec 6) (m : BitVec 2) (o : BitVec 8) (s : State) : NodeFramed s (execAdrain a b m o s) :=
  triggerAct_framed _ _ _ _ s fun c x u t => by
    dsimp only
    cases u <;> simp

theorem execAspill_framed (a b : BitVec 6) (m : BitVec 2) (o : BitVec 8) (s : State) : NodeFramed s (execAspill a b m o s) :=
  triggerAct_framed _ _ _ _ s fun _ _ _ _ => State.modFb_beside _ _ _

theorem execAclr_framed (a b : BitVec 6) (m : BitVec 2) (o : BitVec 8) (s : State) : NodeFramed s (execAclr a b m o s) :=
  triggerAct_framed _ _ _ _ s fun c _ _ t => t.modFb_beside c _

/-! #### Address generators (R194 to R199) -/

@[simp] theorem State.latchPins_beside (s : State) (c : CellId) : (s.latchPins c).beside c = s.beside c := s.setCell_beside c _

@[simp] theorem retunePins_beside (c : CellId) (k : BitVec 3) (kind : BitVec 4) (s : State) :
    (retunePins c k kind s).beside c = s.beside c := State.ite_beside_of (s.latchPins_beside c) rfl

@[simp] theorem State.writeBase_beside (s : State) (c : CellId) (j : Nat) (v : Word64) : (s.writeBase c j v).beside c = s.beside c :=
  State.ite_beside_of (s.setCell_beside c _) (by simp)

theorem agenEmit_beside (s : State) (c : CellId) (k : BitVec 3) (ts : List (BitVec 6)) (n : Nest) (i : Inv) :
    (agenEmit s c k ts n i).beside c = s.beside c := by
  unfold agenEmit
  simp

theorem execAgen_framed (a b : BitVec 6) (m : BitVec 2) (o : BitVec 8) (s : State) : NodeFramed s (execAgen a b m o s) := by
  refine .next (s.atNode_beside _ fun k x => ?_)
  extract_lets +onlyGivenNames -underBinder ts used g h trig free
  clear_value trig h g free
  refine State.ite_beside_of rfl ?_
  cases h
  case badKind | misaligned | gap => simp
  case token kind =>
    refine State.ite_beside_of (by simp) ?_
    split
    · refine State.ite_beside_of rfl ?_
      split <;> simp [agenEmit_beside]
    · simp
  case wait | data =>
    refine State.ite_beside_of (by simp) ?_
    split
    · refine State.ite_beside_of rfl ?_
      split <;> simp [agenEmit_beside]
    · dsimp only
      split
      · rfl
      · refine State.ite_beside_of rfl ?_
        split <;> simp [agenEmit_beside]

theorem execAgbase_framed (a b : BitVec 6) (m : BitVec 2) (o : BitVec 8) (s : State) : NodeFramed s (execAgbase a b m o s) :=
  .next (s.nodeActWith_beside _ _ _ _ (fun k ops => by split <;> simp) fun k kind t => retunePins_beside _ k kind t)

theorem execAgre_framed (a b : BitVec 6) (m : BitVec 2) (o : BitVec 8) (s : State) : NodeFramed s (execAgre a b m o s) :=
  .next (s.nodeActWith_beside _ _ _ _ (fun k ops => by simp) fun k kind t => retunePins_beside _ k kind t)

/-! #### Matrix cells (R210 to R215) -/

theorem foldl_popQ_beside (c : CellId) (q : Nat → BitVec 3) (l : List Nat) (s : State) :
    (l.foldl (fun s i => s.popQ c (q i)) s).beside c = s.beside c := foldl_beside c _ (fun s i => s.popQ_beside c (q i)) l s

theorem foldl_popN_beside (c : CellId) (q : Nat → BitVec 3) (n : Nat → Nat) (l : List Nat) (s : State) :
    (l.foldl (fun s i => s.popN c (q i) (n i)) s).beside c = s.beside c :=
  foldl_beside c _ (fun s i => State.popN_beside c (q i) (n i) s) l s

theorem matrixAct_framed (scaled : Bool) (a b : BitVec 6) (m : BitVec 2) (o : BitVec 8) (s : State) :
    NodeFramed s (.next (matrixAct scaled a b m o s)) := by
  refine .next (s.atNode_beside _ fun k x => ?_)
  extract_lets +onlyGivenNames -underBinder fa fb sd heads al more
  clear_value fa fb sd heads al more
  split
  · simp
  · split
    · simp
    · split
      · simp
      · split
        · simp
        · dsimp only
          split
          · refine State.ite_beside_of (by simp) (State.ite_beside_of rfl ?_)
            split
            · simp
            · simp [foldl_popQ_beside]
          · refine State.ite_beside_of (by simp) (State.ite_beside_of rfl (State.ite_beside_of (by simp) ?_))
            split
            · simp
            · simp [foldl_popN_beside]

theorem triggerTag_beside (s : State) (p : Option Item) (c : CellId) : (triggerTag s p).2.2.beside c = s.beside c := by
  cases p <;> rfl

theorem execMdrn_framed (a b : BitVec 6) (m : BitVec 2) (o : BitVec 8) (s : State) : NodeFramed s (execMdrn a b m o s) := by
  refine .next (s.nodeAct_beside _ _ _ fun k ops => ?_)
  dsimp only
  split
  · simp
  · simp [triggerTag_beside]

theorem execMzero_framed (a b : BitVec 6) (m : BitVec 2) (o : BitVec 8) (s : State) : NodeFramed s (execMzero a b m o s) :=
  .next (s.nodeAct_beside _ _ _ fun k ops => by simp)

/-! #### Online cells (R184 to R188) -/

theorem onlineRead_beside (used : List Nat) (ts : List (BitVec 6)) (s : State) (c : CellId) (k : BitVec 3) (x : Cell)
    (post : State → BitVec 4 → State) (step : State → List (Nat × Plane) → State) (ops : List (Nat × Plane))
    (hpost : ∀ t kind, (post t kind).beside c = t.beside c) (hstep : ∀ ps, (step s ps).beside c = s.beside c) :
    (onlineRead used ts s c k x post step ops).beside c = s.beside c := by
  unfold onlineRead
  dsimp only
  refine State.ite_beside_of ?_ ?_
  · split <;> simp [hpost, hstep]
  · split
    · simp
    · split <;> simp [hstep]

theorem onlineAct_framed (f : OnlineFn) (a b : BitVec 6) (s : State) : NodeFramed s (.next (onlineAct f a b s)) := by
  refine .next (s.atNode_beside _ fun k x => ?_)
  refine onlineRead_beside _ _ s _ k x _ _ _ (fun _ _ => rfl) fun ps => ?_
  split <;> simp

theorem execOcut_framed (a b : BitVec 6) (m : BitVec 2) (o : BitVec 8) (s : State) : NodeFramed s (execOcut a b m o s) :=
  .next (s.nodeAct_beside _ _ _ fun k ops => by dsimp only; split <;> simp)

theorem toDigits_beside (s : State) (f : Fmt) (k : Nat) (mode : RoundMode) (u : Item) (c : CellId) :
    (toDigits s f k mode u).2.2.beside c = s.beside c := by
  unfold toDigits
  dsimp only
  split
  · split <;> rfl
  · rfl

theorem execOconv_framed (a b : BitVec 6) (m : BitVec 2) (r : BitVec 3) (v : BitVec 1) (p : BitVec 4) (s : State) :
    NodeFramed s (execOconv a b m r v p s) := by
  refine .next (s.atNode_beside _ fun k x => ?_)
  extract_lets +onlyGivenNames -underBinder ts f pr tensor mode post give
  have hpost (t : State) (kind : BitVec 4) : (post t kind).beside s.nodeTurn.1 = t.beside s.nodeTurn.1 := by simp [post]
  have hgive (t : State) (us : List Nat) (node : NodeState) (n : Counts) (out : List Item) :
      (give t us node n out).beside s.nodeTurn.1 = t.beside s.nodeTurn.1 := by simp [give]
  clear_value post give
  refine State.ite_beside_of ?_ ?_
  · refine onlineRead_beside _ _ s _ k x _ _ _ hpost fun ps => ?_
    split
    · simp
    · exact State.ite_beside_of (hgive _ _ _ _ _) (by simp)
  · refine s.nodeActWith_beside _ _ _ _ (fun k ops => ?_) fun k kind t => hpost t kind
    split
    · rfl
    · simp [hgive, toDigits_beside]

/-! #### Convert cells (R189 to R193) -/

@[simp] theorem convertGive_beside (s : State) (c : CellId) (k : BitVec 3) (used : List Nat) (a b : BitVec 6) (tensor : BitVec 16)
    (n : Counts) (out : List Item) : (convertGive s c k used a b tensor n out).beside c = s.beside c := by
  simp [convertGive]

theorem convertAct_framed (a b : BitVec 6) (m : BitVec 2) (tensor : Cell → BitVec 16)
    (fire : CellId → BitVec 3 → Item → State → State) (s : State) (h : ∀ c k u, (fire c k u s).beside c = s.beside c) :
    NodeFramed s (.next (convertAct a b m tensor fire s)) := by
  refine .next (s.nodeActWith_beside _ _ _ _ (fun k ops => ?_) fun k kind t => by simp)
  split
  · rfl
  · exact State.ite_beside_of (by simp) (h _ _ _)

theorem execCvt_framed (a b : BitVec 6) (m : BitVec 2) (r : BitVec 3) (v : BitVec 1) (p : BitVec 4) (s : State) :
    NodeFramed s (execCvt a b m r v p s) := convertAct_framed _ _ _ _ _ s fun _ _ _ => convertGive_beside ..

theorem execRsc_framed (a b : BitVec 6) (m : BitVec 2) (r : BitVec 3) (v : BitVec 1) (p : BitVec 4) (s : State) :
    NodeFramed s (execRsc a b m r v p s) := by
  refine convertAct_framed _ _ _ _ _ s fun c k u => ?_
  dsimp only
  split <;> simp

theorem execPack_framed (a b : BitVec 6) (m : BitVec 2) (r : BitVec 3) (v : BitVec 1) (p : BitVec 4) (s : State) :
    NodeFramed s (execPack a b m r v p s) := by
  refine .next (s.atNode_beside _ fun k x => ?_)
  dsimp only
  split
  · rfl
  · simp
  · simp
  · simp
  · have ht := fun kind out => s.forwardTokenAfter_beside s.nodeTurn.1 k (usedPos [posA] m) [a, b] kind _ out
      fun t => t.setNode_beside s.nodeTurn.1 k .idle
    simp [ht]
  · split <;> simp

theorem execUnpack_framed (a b : BitVec 6) (m : BitVec 2) (o : BitVec 8) (s : State) : NodeFramed s (execUnpack a b m o s) :=
  convertAct_framed _ _ _ _ _ s fun _ _ _ => convertGive_beside ..

theorem execStat_framed (a b : BitVec 6) (m : BitVec 2) (o : BitVec 8) (s : State) : NodeFramed s (execStat a b m o s) :=
  convertAct_framed _ _ _ _ _ s fun _ _ _ => convertGive_beside ..

end Sys2Proof.Machine
end

section
namespace Sys2Proof.Machine

/-! #### Memports (R198 to R208, R306 to R309) -/

@[simp] theorem State.dropPage_beside (s : State) (c b : CellId) (ctx : BitVec 9) (va : Word64) :
    (s.dropPage b ctx va).beside c = s.beside c := rfl

@[simp] theorem State.countFlits_beside (s : State) (c b : CellId) (n : Nat) : (s.countFlits b n).beside c = s.beside c := by
  unfold State.countFlits
  split
  · rfl
  · split <;> rfl

@[simp] theorem State.xlateMp_beside (s : State) (c b : CellId) (right : Right) (peerOk : Bool) (va : Word64) :
    (s.xlateMp b right peerOk va).2.beside c = s.beside c := by
  unfold State.xlateMp
  dsimp only
  split
  · rfl
  · split
    · split
      · split <;> rfl
      · rfl
    · split
      · rfl
      · rfl
      · split
        · rfl
        · split
          · split <;> rfl
          · rfl

@[simp] theorem State.xlateSpan_beside (s : State) (c b : CellId) (right : Right) (peerOk : Bool) (va : Word64) (n : Nat) :
    (s.xlateSpan b right peerOk va n).2.beside c = s.beside c := by
  have h1 := s.xlateMp_beside c b right peerOk va
  unfold State.xlateSpan
  dsimp only
  split
  · next e => rw [e] at h1; exact h1
  · next s1 e =>
    rw [e] at h1
    split
    · exact h1
    · have h2 := s1.xlateMp_beside c b right peerOk (va + BitVec.ofNat 64 (min n (4096 - va.toNat % 4096)))
      split
      · next e2 => rw [e2] at h2; exact h2.trans h1
      · next e2 => rw [e2] at h2; exact h2.trans h1

theorem State.mpMiss_beside {s s1 : State} {c : CellId} (b : CellId) (f : XFault) (r : FaultReg) (h : s1.beside c = s.beside c) :
    (s.mpMiss s1 b f r).beside c = s.beside c :=
  State.ite_beside_of rfl ((s1.raiseFault_beside c b r).trans h)

@[simp] theorem State.mpEmit_beside (s : State) (c : CellId) : (s.mpEmit c).beside c = s.beside c := by
  unfold State.mpEmit
  dsimp only
  split
  · rfl
  · refine State.ite_beside_of rfl (State.ite_beside_of (by simp) ?_)
    split
    · rfl
    · split <;> simp

@[simp] theorem State.mpDrain_beside (c : CellId) (n : Nat) (s : State) : (State.mpDrain c n s).beside c = s.beside c := by
  induction n generalizing s with
  | zero => rfl
  | succ n ih =>
    unfold State.mpDrain
    split
    · simp [ih]
    · rfl

@[simp] theorem State.mpToken_beside (s : State) (c : CellId) (k : BitVec 3) (us : List Item) :
    (s.mpToken c k us).beside c = s.beside c := by
  simp [State.mpToken]

@[simp] theorem State.releaseHeld_beside (s : State) (c : CellId) (k : BitVec 3) (is : List Inv) :
    (s.releaseHeld c k is).beside c = s.beside c :=
  (State.countFlits_beside _ c c _).trans (State.modCell_beside _ c _)

theorem mpOnToken_beside (s : State) (c : CellId) (k : BitVec 3) (x : Cell) (fn : MpFn) (used : List Nat) (ts : List (BitVec 6))
    (kind : BitVec 4) : (mpOnToken s c k x fn used ts kind).beside c = s.beside c := by
  unfold mpOnToken
  dsimp only
  split
  · rfl
  · simp

/-- A memport node's turn leaves what lies beside its cell wherever its firing does. -/
theorem State.mpAct_framed (s : State) (fn : MpFn) (base : List Nat) (a b : BitVec 6) (m : BitVec 2)
    (fire : CellId → BitVec 3 → Cell → Operands → State → State)
    (h : ∀ c k x o, (fire c k x o s).beside c = s.beside c) : NodeFramed s (.next (s.mpAct fn base a b m fire)) := by
  refine .next (s.atNode_beside _ fun k x => ?_)
  split
  · rfl
  · simp
  · simp
  · split <;> simp
  · simp [mpOnToken_beside]
  · exact State.ite_beside_of (h _ _ _ _) rfl

theorem State.mpRead_beside (s : State) (c : CellId) (k : BitVec 3) (used : List Nat) (u : Item) (form : ReadForm) (va ivec : Word64)
    (xs : List (Nat × Nat × Xlated)) : (s.mpRead c k used u form va ivec xs).beside c = s.beside c :=
  (State.countFlits_beside _ c c _).trans ((State.modCell_beside _ c _).trans (State.consume_beside _ c k used))

@[simp] theorem State.mpTryRead_beside (s : State) (c : CellId) (k : BitVec 3) (used : List Nat) (u : Item) (form : ReadForm)
    (va ivec : Word64) (n al : Nat) (peerOk : Bool) : (s.mpTryRead c k used u form va ivec n al peerOk).beside c = s.beside c := by
  have h := s.xlateSpan_beside c c .r peerOk va n
  refine State.ite_beside_of (by simp) ?_
  split
  · next e => rw [e] at h; exact State.mpMiss_beside c _ _ h
  · next e => rw [e] at h; exact (State.mpRead_beside _ c k used u form va ivec _).trans h

@[simp] theorem State.mpNodeFault_beside (s : State) (c b : CellId) (k : BitVec 3) (code : Nat) (u : Item) (ivec : Word64) :
    (s.mpNodeFault b k code u ivec).beside c = s.beside c := s.raiseFault_beside c b _

theorem execMrd_framed (a b : BitVec 6) (m : BitVec 2) (o : BitVec 8) (s : State) : NodeFramed s (execMrd a b m o s) := by
  refine s.mpAct_framed _ _ _ _ _ _ fun c k x ops => ?_
  split
  · rfl
  · dsimp only
    refine State.ite_beside_of rfl (State.ite_beside_of (by simp) ?_)
    split <;> simp

theorem execMgat_framed (a b : BitVec 6) (m : BitVec 2) (o : BitVec 8) (s : State) : NodeFramed s (execMgat a b m o s) := by
  refine s.mpAct_framed _ _ _ _ _ _ fun c k x ops => ?_
  split <;> simp

theorem execMwr_framed (a b : BitVec 6) (m : BitVec 2) (o : BitVec 8) (s : State) : NodeFramed s (execMwr a b m o s) := by
  refine s.mpAct_framed _ _ _ _ _ _ fun c k x ops => ?_
  split
  · dsimp only
    refine State.ite_beside_of (by simp) (State.ite_beside_of (by simp) (State.ite_beside_of (by simp) ?_))
    split
    · next e => exact State.mpMiss_beside c _ _ (by rw [← s.xlateSpan_beside c c, e])
    · next s1 e =>
      have h : s1.beside c = s.beside c := by rw [← s.xlateSpan_beside c c, e]
      simp [h]
  · rfl

theorem State.mpAtomic_beside (s : State) (c : CellId) (k : BitVec 3) (used : List Nat) (u : Item) (p : MpPar) (fetches ret : Bool)
    (va ivec operand : Word64) : (s.mpAtomic c k used u p fetches ret va ivec operand).beside c = s.beside c := by
  have h := s.xlateMp_beside c c .rw false va
  unfold State.mpAtomic
  dsimp only
  refine State.ite_beside_of (by simp) (State.ite_beside_of rfl (State.ite_beside_of (by simp) ?_))
  split
  · next e => rw [e] at h; exact State.mpMiss_beside c _ _ h
  · next e =>
    rw [e] at h
    refine State.ite_beside_of rfl ?_
    split
    · rfl
    · simp [h]
    · simp [h]
    · simp [h]

theorem execMamo_framed (a b : BitVec 6) (m : BitVec 2) (o : BitVec 8) (s : State) : NodeFramed s (execMamo a b m o s) := by
  refine s.mpAct_framed _ _ _ _ _ _ fun c k x ops => ?_
  split
  · exact s.mpAtomic_beside ..
  · rfl

theorem execMsct_framed (a b : BitVec 6) (m : BitVec 2) (o : BitVec 8) (s : State) : NodeFramed s (execMsct a b m o s) := by
  refine s.mpAct_framed _ _ _ _ _ _ fun c k x ops => ?_
  split
  · rfl
  · exact s.mpAtomic_beside ..

/-! #### Every node -/

/-- Whichever node an instruction is, its turn leaves what lies beside the cell as it was. -/
theorem runNode_framed (i : Instr) (s : State) : NodeFramed s (runNode i s) := by
  unfold runNode
  split
  · exact arithLanes_framed ..
  · exact arithLanes_framed ..
  · exact arithLanes_framed ..
  · exact arithLanes_framed ..
  · exact arithLanes_framed ..
  · exact arithLanes_framed ..
  · exact arithLanes_framed ..
  · exact arithLanes_framed ..
  · exact arithLanes_framed ..
  · exact arithLanes_framed ..
  · exact arithLanes_framed ..
  · exact arithLanes_framed ..
  · exact arithLanes_framed ..
  · exact arithLanes_framed ..
  · exact arithCmp_framed ..
  · exact arithCmp_framed ..
  · exact arithCmp_framed ..
  · exact arithCmp_framed ..
  · exact arithCmp_framed ..
  · exact arithCmp_framed ..
  · exact execArithSel_framed ..
  · exact execArithSat_framed ..
  · exact execCopy_framed ..
  · exact execGate_framed ..
  · exact joinAct_framed ..
  · exact joinAct_framed ..
  · exact joinAct_framed ..
  · exact joinAct_framed ..
  · exact execJwin_framed ..
  · exact execStp_framed ..
  · exact steerClass_framed ..
  · exact steerClass_framed ..
  · exact steerClass_framed ..
  · exact execRord_framed ..
  · exact execRrel_framed ..
  · exact updateAct_framed ..
  · exact updateAct_framed ..
  · exact updateAct_framed ..
  · exact execAlook_framed ..
  · exact execAdrain_framed ..
  · exact execAspill_framed ..
  · exact execAclr_framed ..
  · exact execMrd_framed ..
  · exact execMwr_framed ..
  · exact execMamo_framed ..
  · exact execMsct_framed ..
  · exact execMgat_framed ..
  · exact execAgen_framed ..
  · exact execAgbase_framed ..
  · exact execAgre_framed ..
  · exact windowAct_framed ..
  · exact windowAct_framed ..
  · exact matrixAct_framed ..
  · exact matrixAct_framed ..
  · exact execMdrn_framed ..
  · exact execMzero_framed ..
  · exact onlineAct_framed ..
  · exact onlineAct_framed ..
  · exact onlineAct_framed ..
  · exact execOcut_framed ..
  · exact execOconv_framed ..
  · exact execCvt_framed ..
  · exact execRsc_framed ..
  · exact execPack_framed ..
  · exact execUnpack_framed ..
  · exact execStat_framed ..
  · exact .next rfl

/-! #### A node's word and its meaning (R111, R112) -/

theorem exec_of_decodeArith {w : Nat} {i : Instr} (h : decodeArith w = some i) (s : State) : exec i s = runNode i s := by
  unfold decodeArith at h
  repeat' split at h
  all_goals cases h
  all_goals rfl

theorem exec_of_decodeCopy {w : Nat} {i : Instr} (h : decodeCopy w = some i) (s : State) : exec i s = runNode i s := by
  unfold decodeCopy at h
  split at h <;> cases h <;> rfl

theorem exec_of_decodeJoin {w : Nat} {i : Instr} (h : decodeJoin w = some i) (s : State) : exec i s = runNode i s := by
  unfold decodeJoin at h
  split at h <;> cases h <;> rfl

theorem exec_of_decodeSteer {w : Nat} {i : Instr} (h : decodeSteer w = some i) (s : State) : exec i s = runNode i s := by
  unfold decodeSteer at h
  split at h <;> cases h <;> rfl

theorem exec_of_decodeReorder {w : Nat} {i : Instr} (h : decodeReorder w = some i) (s : State) : exec i s = runNode i s := by
  unfold decodeReorder at h
  split at h <;> cases h <;> rfl

theorem exec_of_decodeAccum {w : Nat} {i : Instr} (h : decodeAccum w = some i) (s : State) : exec i s = runNode i s := by
  unfold decodeAccum at h
  split at h <;> cases h <;> rfl

theorem exec_of_decodeMemport {w : Nat} {i : Instr} (h : decodeMemport w = some i) (s : State) : exec i s = runNode i s := by
  unfold decodeMemport at h
  split at h <;> cases h <;> rfl

theorem exec_of_decodeAddrgen {w : Nat} {i : Instr} (h : decodeAddrgen w = some i) (s : State) : exec i s = runNode i s := by
  unfold decodeAddrgen at h
  split at h <;> cases h <;> rfl

theorem exec_of_decodeWindow {w : Nat} {i : Instr} (h : decodeWindow w = some i) (s : State) : exec i s = runNode i s := by
  unfold decodeWindow at h
  split at h <;> cases h <;> rfl

theorem exec_of_decodeMatrix {w : Nat} {i : Instr} (h : decodeMatrix w = some i) (s : State) : exec i s = runNode i s := by
  unfold decodeMatrix at h
  split at h <;> cases h <;> rfl

theorem exec_of_decodeOnline {w : Nat} {i : Instr} (h : decodeOnline w = some i) (s : State) : exec i s = runNode i s := by
  unfold decodeOnline at h
  split at h <;> cases h <;> rfl

theorem exec_of_decodeConvert {w : Nat} {i : Instr} (h : decodeConvert w = some i) (s : State) : exec i s = runNode i s := by
  unfold decodeConvert at h
  split at h <;> cases h <;> rfl

/-- A word of a node decodes to an instruction whose meaning is the node's. -/
theorem exec_of_decodeNode {w : Nat} {i : Instr} (h : decodeNode w = .ok i) (s : State) : exec i s = runNode i s := by
  unfold decodeNode at h
  dsimp only at h
  split at h
  · next found =>
    cases h
    split at found
    · exact exec_of_decodeArith found s
    · exact exec_of_decodeCopy found s
    · exact exec_of_decodeJoin found s
    · exact exec_of_decodeSteer found s
    · exact exec_of_decodeReorder found s
    · exact exec_of_decodeAccum found s
    · exact exec_of_decodeMemport found s
    · exact exec_of_decodeAddrgen found s
    · exact exec_of_decodeWindow found s
    · exact exec_of_decodeMatrix found s
    · exact exec_of_decodeOnline found s
    · exact exec_of_decodeConvert found s
    · cases found
  · split at h <;> cases h

/-! #### What a frame says of memory, of a sequencer and of another cell -/

theorem State.store_of_beside {s t : State} {c : CellId} (h : t.beside c = s.beside c) :
    t.mem = s.mem ∧ t.lineKey = s.lineKey ∧ t.poison = s.poison := by
  have h := congrArg Prod.fst h
  simpa [State.beside, State.store] using h

theorem State.seq_of_beside {s t : State} {c : CellId} (h : t.beside c = s.beside c) (q : BitVec 7) :
    { s.seq q with run := (t.seq q).run, outPort := (t.seq q).outPort } = t.seq q := by
  have h : (t.seq q).fixed = (s.seq q).fixed := congrFun (congrArg (fun z => z.2.1) h) q
  exact (congrArg (fun x : Seq => { x with run := (t.seq q).run, outPort := (t.seq q).outPort }) h).symm

theorem State.own_of_beside {s t : State} {b c : CellId} (h : t.beside b = s.beside b) (hc : c ≠ b) : (t.cell c).own = (s.cell c).own := by
  have h : (if c = b then none else some (t.cell c).own) = (if c = b then none else some (s.cell c).own) :=
    congrFun (congrArg (fun z => z.2.2) h) c
  simpa [hc] using h

/-- Settles O58: every node keeps what lies beside its cell, and that says each part of the frame. -/
theorem nodesKeepMemoryRegistersAndOtherCells : Obligations.NodesKeepMemoryRegistersAndOtherCells := by
  intro i w s t hw ht
  have h := (runNode_framed i s).beside_eq t (exec_of_decodeNode hw s ▸ ht)
  obtain ⟨hmem, hkey, hpoison⟩ := State.store_of_beside h
  refine ⟨hmem, hkey, hpoison, State.seq_of_beside h, fun c hc => ?_⟩
  simpa [Cell.own] using State.own_of_beside h hc

end Sys2Proof.Machine
end

section
namespace Sys2Proof.Machine

/-! ### The state at reset -/

@[simp] theorem State.reset_ctx (n : BitVec 9) : State.reset.ctx n = Ctx.reset := rfl

@[simp] theorem State.reset_seq (q : BitVec 7) : State.reset.seq q = Seq.reset := Vector.getElem_replicate _

@[simp] theorem State.reset_cell (c : CellId) : State.reset.cell c = Cell.reset := rfl

@[simp] theorem State.reset_die (d : BitVec 3) : State.reset.die d = Die.reset := Vector.getElem_replicate _

/-- A cell at reset holds no word. -/
theorem Cell.reset_word (k : BitVec 3) : Cell.reset.word k = none := Vector.getElem_replicate _

/-- Settles O60: the reset state holds a reset sequencer, cell, die and context at every name. -/
theorem resetIsAsTheRulesSay : Obligations.ResetIsAsTheRulesSay := by
  refine ⟨State.reset_memOk, rfl, fun n => by rw [State.reset_ctx]; rfl, rfl, fun q => ?_, fun c => ?_, fun d => ?_⟩
  · rw [State.reset_seq]
    exact ⟨rfl, rfl, rfl, rfl, rfl, rfl, rfl, rfl, rfl, rfl, rfl, rfl, rfl⟩
  · rw [State.reset_cell]
    exact ⟨rfl, rfl, Cell.reset_word⟩
  · rw [State.reset_die]
    refine ⟨rfl, rfl, fun i => ?_, fun i => ?_⟩
    · exact congrArg Link.state (Vector.getElem_replicate i.isLt)
    · exact congrArg Link.state (Vector.getElem_replicate i.isLt)

end Sys2Proof.Machine
end

section
namespace Sys2Proof.Machine

/-! ### What one step is, by what its turn brings -/

theorem step_of_run {s s0 s1 : State} {turn : Turn} {i : Instr} (h : s.takeTurn = (turn, s0)) (hp : s0.powered = true)
    (hf : s0.fetchOn turn = .run i s1) : step s = thenNext (exec i s1) (fun t => t.afterTurn turn s1) := by
  simp [step, h, State.fetch, hp, hf]

theorem step_of_pick {s s0 : State} {c : CellId} (h : s.takeTurn = (.cell c, s0)) (hp : s0.powered = true) :
    step s = thenNext (issueFirst exec c s0 8) (fun t => t.afterTurn (.cell c) s0) := by
  simp [step, h, State.fetch, hp, State.fetchOn]

theorem step_of_idle {s s0 s1 : State} {turn : Turn} (h : s.takeTurn = (turn, s0)) (hp : s0.powered = true)
    (hf : s0.fetchOn turn = .idle s1) : step s = .next s1 := by
  simp [step, h, State.fetch, hp, hf]

/-- A turn after which time does nothing. -/
theorem thenNext_id (r : Result) : thenNext r (fun t => t) = r := by
  cases r <;> rfl

/-! ### The beginning of a turn (R232) -/

/-- The turns of the agents of the module. -/
def Turn.IsAgent (t : Turn) : Prop := (∃ q, t = .seq q) ∨ (∃ c, t = .cell c) ∨ (∃ d, t = .policy d) ∨ ∃ m, t = .rm m

theorem State.beginTurn_of_not_mem {u : State} {t : Turn} (ht : t.IsAgent) (h : t ∉ u.acted) :
    u.beginTurn t = { u with acted := t :: u.acted } := by
  obtain ⟨q, rfl⟩ | ⟨c, rfl⟩ | ⟨d, rfl⟩ | ⟨m, rfl⟩ := ht <;> simp [State.beginTurn, h]

theorem State.beginTurn_of_mem {u : State} {t : Turn} (ht : t.IsAgent) (h : t ∈ u.acted) :
    u.beginTurn t = { u.leavers.foldl State.leaveTest u with
      acted := [t], cyc := (u.leavers.foldl State.leaveTest u).cyc + 1 } := by
  obtain ⟨q, rfl⟩ | ⟨c, rfl⟩ | ⟨d, rfl⟩ | ⟨m, rfl⟩ := ht <;> simp [State.beginTurn, h]

theorem State.beginTurn_event {u : State} {i : Instr} (h : Turn.event i ∉ u.acted) : u.beginTurn (.event i) = u := by
  simp [State.beginTurn, h]

/-! ### The word at a sequencer's program counter (R128, R140) -/

theorem bytesToNat_lt (bs : List Byte) : bytesToNat bs < 256 ^ bs.length := by
  induction bs with
  | nil => simp [bytesToNat]
  | cons b bs ih =>
    have hb := b.isLt
    rw [bytesToNat, List.length_cons, Nat.pow_succ]
    omega

/-- The bytes of a word, read as a word. -/
theorem State.seqNum_word (s : State) (q : BitVec 7) (key : Key) (pa : Nat) :
    (BitVec.ofNat 32 (s.seqNum q key pa 4)).toNat = s.seqNum q key pa 4 := by
  have h : s.seqNum q key pa 4 < 256 ^ 4 := by
    simpa [State.seqNum] using bytesToNat_lt ((List.range 4).map (fun i => s.seqByte q key (pa + i)))
  rw [BitVec.toNat_ofNat]
  omega

/-- The word at a program counter that is a multiple of 4, translates, lies behind no bridge and holds no poison. -/
theorem State.fetchWord_ok {a b : State} {q : BitVec 7} {x : Xlated} (hpc : (a.seq q).pc.toNat % 4 = 0)
    (hx : a.xlate q .x (a.seq q).pc = (.ok x, b)) (hp : b.poisonIn x.pa 4 = none) :
    a.fetchWord q = (.ok (BitVec.ofNat 32 (b.seqNum q x.key x.pa 4)), b) := by
  simp [State.fetchWord, hpc, hx, hp]

theorem State.fetchPath_up {a b : State} {q : BitVec 7} {x : Xlated} (hx : a.xlate q .x (a.seq q).pc = (.ok x, b))
    (hu : a.pathTo (seqDie q) x.pa = .up) : a.fetchPath q = .up := by
  simp [State.fetchPath, hx, hu]

/-- A sequencer that runs and waits for nothing issues the instruction that the word at its program counter decodes to. -/
theorem State.fetchSeq_run {s a b : State} {q : BitVec 7} {w : Word32} {i : Instr}
    (hr : (s.seq q).run = .running ∨ (s.seq q).run = .handler) (hw : (s.seq q).wait = .none)
    (ha : a = { s.setSeq q { s.seq q with wait := .none } with seqTurn := q }) (hu : a.fetchPath q = .up)
    (hf : a.fetchWord q = (.ok w, b)) (hd : decodeSeq w.toNat = .ok i) : s.fetchSeq q = .run i b := by
  have hidle : ¬(((s.seq q).run ≠ .running ∧ (s.seq q).run ≠ .handler) ∨ !(s.seq q).wait.reissues) := by
    rw [hw]
    obtain h | h := hr <;> simp [h, SeqWait.reissues]
  unfold State.fetchSeq
  dsimp only
  rw [if_neg hidle, ← ha, hu]
  simp [hf, hd]

theorem State.afterIssue_eq_clocked (t : State) (q : BitVec 7) : t.afterIssue q = Cert.clocked t q := by
  unfold State.afterIssue Cert.clocked State.modSeq
  dsimp only
  rw [State.setSeq_seq_self]
  dsimp only
  generalize (t.seq q).region = o
  cases o <;> rfl

/-! ### The search of a cell (R22) -/

/-- Where the first `n` nodes of a search change nothing, the search goes on behind them. -/
theorem issueFirst_skip {c : CellId} {s : State} (n : Nat) (hn : n ≤ 8)
    (h : ∀ j < n, ∀ w i, (s.cell c).word ((s.cell c).last + BitVec.ofNat 3 (j + 1)) = some w → decodeNode w.toNat = .ok i →
      exec i { s with nodeTurn := (c, (s.cell c).last + BitVec.ofNat 3 (j + 1)) } =
        .next { s with nodeTurn := (c, (s.cell c).last + BitVec.ofNat 3 (j + 1)) }) :
    issueFirst exec c s 8 = issueFirst exec c s (8 - n) := by
  induction n with
  | zero => rfl
  | succ n ih =>
    rw [ih (by omega) fun j hj => h j (by omega)]
    obtain ⟨m, hm⟩ : ∃ m, 8 - n = m + 1 := ⟨7 - n, by omega⟩
    have hk : 8 - m = n + 1 := by omega
    have hm' : 8 - (n + 1) = m := by omega
    rw [hm, hm', issueFirst, State.fetchNode, hk]
    have hlast := h n (by omega)
    cases hword : (s.cell c).word ((s.cell c).last + BitVec.ofNat 3 (n + 1)) with
    | none => rfl
    | some w =>
      cases hdec : decodeNode w.toNat with
      | error e => simp [hdec]
      | ok i => simp [hdec, hlast w i hword hdec]

/-- The node at which a search stands issues, where its turn changes anything. -/
theorem issueFirst_issues {c : CellId} {s t : State} {n : Nat} {w : Word32} {i : Instr} (hn : n < 8)
    (hword : (s.cell c).word ((s.cell c).last + BitVec.ofNat 3 (n + 1)) = some w) (hdec : decodeNode w.toNat = .ok i)
    (hexec : exec i { s with nodeTurn := (c, (s.cell c).last + BitVec.ofNat 3 (n + 1)) } = .next t)
    (hne : t ≠ { s with nodeTurn := (c, (s.cell c).last + BitVec.ofNat 3 (n + 1)) }) :
    issueFirst exec c s (8 - n) = .next t := by
  obtain ⟨m, hm⟩ : ∃ m, 8 - n = m + 1 := ⟨7 - n, by omega⟩
  have hk : 8 - m = n + 1 := by omega
  rw [hm, issueFirst, State.fetchNode, hk]
  simp [hword, hdec, hexec, hne]

/-! ### The word of a policy engine, and of a row manager (R119, R120, R418) -/

theorem State.fetchPolicy_run {s : State} {d : BitVec 3} {x : Decision} {w : BitVec 16} {i : Instr} (hx : (s.die d).dec = some x)
    (he : x.ended = none) (hw : x.prog[x.pc]? = some w) (hd : decodePolicy w.toNat = .ok i) :
    s.fetchPolicy d = .run i { s with polTurn := d } := by
  simp [State.fetchPolicy, hx, he, hw, hd]

theorem rmDie_eq (m : BitVec 10) : rmDie m = BitVec.ofNat 3 (m.toNat / 128) := by
  apply BitVec.eq_of_toNat_eq
  simp [rmDie, bits, Nat.shiftRight_eq_div_pow]

theorem State.fetchRm_held {s : State} {m : BitVec 10} (hh : s.rvFetchHeld m = true) : s.fetchRm m = .idle s := by
  simp [State.fetchRm, hh]

section
variable {s : State} {m : BitVec 10} (hw : (s.rm m).wait = none) (hs : (s.die (BitVec.ofNat 3 (m.toNat / 128))).service = true)
  (hh : s.rvFetchHeld m = false)
include hw hs hh

theorem State.fetchRm_error {e : Nat × Word64} (he : s.rvFetch m = .error e) :
    s.fetchRm m = .idle (s.setRm m ((s.rm m).trap e.1 e.2)) := by
  simp [State.fetchRm, hw, rmDie_eq, hs, hh, he]

theorem State.fetchRm_command {w : Nat} {i : Instr} (he : s.rvFetch m = .ok (4, w)) (hd : decodeRm w = .command i) :
    s.fetchRm m = .run i { s with rmTurn := m } := by
  simp [State.fetchRm, hw, rmDie_eq, hs, hh, he, hd]

theorem State.fetchRm_illegal {w : Nat} (he : s.rvFetch m = .ok (4, w)) (hd : decodeRm w = .illegal) :
    s.fetchRm m = .run (.illegalInstructionException (BitVec.ofNat 32 w)) { s with rmTurn := m } := by
  simp [State.fetchRm, hw, rmDie_eq, hs, hh, he, hd]

theorem State.fetchRm_base {len w : Nat} (he : s.rvFetch m = .ok (len, w)) (hd : len ≠ 4 ∨ decodeRm w = .base) :
    s.fetchRm m = .idle (s.rvStep m len w) := by
  by_cases hl : len = 4
  · simp [State.fetchRm, hw, rmDie_eq, hs, hh, he, hd.resolve_left (not_not_intro hl)]
  · simp [State.fetchRm, hw, rmDie_eq, hs, hh, he, hl]

end

theorem State.takeTurn_of {s u s0 : State} {turn : Turn}
    (h : (∃ rest, s.turns = turn :: rest ∧ u = { s with turns := rest }) ∨ (s.turns = [] ∧ turn = .seq s.seqTurn ∧ u = s))
    (h0 : s0 = u.beginTurn turn) : s.takeTurn = (turn, s0) := by
  subst h0
  obtain ⟨rest, ht, rfl⟩ | ⟨ht, rfl, rfl⟩ := h <;> simp [State.takeTurn, ht]

/-- Settles O57: what a turn brings is the instruction of its agent's word, so the step is its meaning and what time does after it. -/
theorem stepRunsTheDecodedInstruction : Obligations.StepRunsTheDecodedInstruction := by
  intro s u s0 turn hturn h0 hp
  have hT := State.takeTurn_of hturn h0
  refine ⟨fun hag => ⟨fun hmem => h0.trans (State.beginTurn_of_not_mem hag hmem), fun hmem => h0.trans (State.beginTurn_of_mem hag hmem)⟩,
    ?_, ?_, ?_, ?_, ?_, ?_⟩
  · rintro ⟨i, rfl⟩ hmem
    exact h0.trans (State.beginTurn_event hmem)
  · rintro q x b t i rfl hrun hwait a pc hpc hx hup hpoison hdec hexec
    have hapc : (a.seq q).pc = pc := by simp [a, pc, State.seq, State.setSeq]
    have hf : a.fetchWord q = (.ok _, b) := State.fetchWord_ok (hapc ▸ hpc) (hapc ▸ hx) hpoison
    have hrunI : s0.fetchSeq q = .run i b :=
      State.fetchSeq_run hrun hwait rfl (State.fetchPath_up (hapc ▸ hx) hup) hf (by rw [State.seqNum_word]; exact hdec)
    rw [step_of_run hT hp hrunI, hexec, ← State.afterIssue_eq_clocked]
    rfl
  · rintro c rfl slot at_ waits
    rw [step_of_pick hT hp]
    constructor
    · intro hw
      rw [issueFirst_skip 8 (by omega) hw]
      simp [issueFirst, thenNext, State.afterTurn]
    · intro n w i t hn hw hword hdec hexec hne
      rw [issueFirst_skip n (by omega) hw, issueFirst_issues hn hword hdec hexec hne]
      rfl
  · rintro d x w i rfl hx he hw hdec
    rw [step_of_run hT hp (State.fetchPolicy_run hx he hw hdec)]
    exact thenNext_id _
  · rintro m rfl hw hs
    refine ⟨fun hh => step_of_idle hT hp (State.fetchRm_held hh), fun hh => ?_⟩
    refine ⟨fun e he => step_of_idle hT hp (State.fetchRm_error hw hs hh he), fun w i he hd => ?_, fun w he hd => ?_,
      fun len w he hd => step_of_idle hT hp (State.fetchRm_base hw hs hh he hd)⟩
    · rw [step_of_run hT hp (State.fetchRm_command hw hs hh he hd)]
      exact thenNext_id _
    · rw [step_of_run hT hp (State.fetchRm_illegal hw hs hh he hd)]
      exact thenNext_id _
  · rintro i rfl henc
    have hf : s0.fetchOn (.event i) = .run i s0 := by simp [State.fetchOn, henc]
    rw [step_of_run hT hp hf]
    exact thenNext_id _

end Sys2Proof.Machine
end

section
open Sys2Proof.Cert
namespace Sys2Proof.Machine

theorem exec_grun (n : BitVec 6) (q : BitVec 3) (s : State) : exec (.grun n q) s = execGrun n q s := rfl
theorem exec_gwait (n : BitVec 6) (q : BitVec 3) (s : State) : exec (.gwait n q) s = execGwait n q s := rfl
theorem exec_gstat (d : BitVec 5) (n : BitVec 6) (q : BitVec 3) (s : State) : exec (.gstat d n q) s = execGstat d n q s := rfl
theorem exec_gwaitComplete (q : BitVec 7) (s : State) : exec (.gwaitComplete q) s = execGwaitComplete q s := rfl

/-! ### What an instruction of a region's objects does in a running sequencer -/

theorem guardHolds_of_guardOn {s : State} {q : BitVec 3} (h : guardOn s q 0) : (me s).guardHolds q 0 = true := by
  simpa [guardOn, Seq.guardHolds, Seq.readP] using h

/-- Outside a handler and under a true guard, an instruction of a region's objects is its body (R49, R388). -/
theorem regionGuarded_open {s : State} {q : BitVec 3} (h : open_ s q) (val : Word64) (body : Seq → Result) :
    regionGuarded s q val body = body (me s) := by
  obtain ⟨hg, hr⟩ := h
  rw [regionGuarded, guarded_true _ (guardHolds_of_guardOn hg)]
  exact if_neg hr

theorem State.trap_canTrap {s : State} (h : canTrap s) (cause : Nat) (val : Word64) : s.trap cause val = .next (trapped s cause val) :=
  congrArg Host.Outcome.next (State.takeTrap_handler cause val h.1 h.2)

theorem inVal_eq (n : BitVec 6) : inVal n = BitVec.ofNat 64 n.toNat := by
  apply BitVec.eq_of_toNat_eq
  simp [inVal]

/-- A group instruction on a group that the kernel has not (R291 to R293). -/
theorem onGroup_none {s : State} {q : BitVec 3} {n : BitVec 6} {r : Region} (h : open_ s q) (hc : canTrap s)
    (hr : s.regionOfSeq s.seqTurn = some r) (hx : r.groups[n.toNat]? = none) (body : Seq → Region → Group → Result) :
    onGroup s q n body = .next (trapped s 14 (BitVec.ofNat 64 n.toNat)) := by
  rw [onGroup, regionGuarded_open h, hr]
  simp only [hx]
  rw [inVal_eq]
  exact State.trap_canTrap hc _ _

theorem onGroup_open {s : State} {q : BitVec 3} {n : BitVec 6} {r : Region} {x : Group} (h : open_ s q)
    (hr : s.regionOfSeq s.seqTurn = some r) (hx : r.groups[n.toNat]? = some x) (body : Seq → Region → Group → Result) :
    onGroup s q n body = body (me s) r x :=
  onGroup_run n body (guardHolds_of_guardOn h.1) h.2 hr hx

/-! ### Starting and settling groups keep the region's number (R287, R288) -/

theorem startGroup_serial (n g : Nat) (r : Region) : (startGroup n g r).serial = r.serial := by
  induction n generalizing g r with
  | zero => rfl
  | succ n ih => exact foldl_keeps Region.serial (fun r (c : Nat × BitVec 6) => ih c.1 r) _ _

theorem Region.startChild_serial (r : Region) (g : Nat) (o : BitVec 6) : (r.startChild g o).serial = r.serial :=
  foldl_keeps Region.serial (fun r (c : Nat × BitVec 6) => startGroup_serial 64 c.1 r) _ _

theorem Region.moveGroup_serial {r r1 : Region} {g : Nat} (h : r.moveGroup g = some r1) : r1.serial = r.serial := by
  unfold Region.moveGroup at h
  repeat' split at h
  all_goals cases h
  all_goals simp [Region.finishGroup, Region.startChild_serial]

theorem settleGroups_serial (n : Nat) (r : Region) : (settleGroups n r).serial = r.serial := by
  induction n generalizing r with
  | zero => rfl
  | succ n ih =>
    rw [settleGroups]
    split
    · rfl
    · next h =>
      obtain ⟨g, -, hg⟩ := List.exists_of_findSome?_eq_some h
      exact (ih _).trans (Region.moveGroup_serial hg)

theorem State.setRegion_eq_putRegion (s : State) {r y : Region} (h : y.serial = r.serial) : s.setRegion y = putRegion s r y := by
  unfold State.setRegion putRegion
  rw [h]

theorem ancestorRuns_eq (r : Region) (n : BitVec 6) : (r.ancestors 65 (n.setWidth 7)).any
    (fun i => ((r.groups[i]?).map (fun g => g.state == .running)).getD false) = ancestorRuns r n.toNat := by
  have hn : n.setWidth 7 = BitVec.ofNat 7 n.toNat := by
    apply BitVec.eq_of_toNat_eq
    simp
  rw [hn]
  rfl

/-- A group whose children are sections, started (R287, R288). -/
theorem startGroup_eq_begun {r : Region} {n : Nat} {x : Group} (hx : r.groups[n]? = some x) (hc : r.childGroups n = []) :
    startGroup 64 n r = begun r n x := by
  rw [startGroup, hc, hx]
  simp only [List.filter_nil, List.foldl_nil, Region.startSections, begun, modNth, Section.newRun]
  congr 1
  · apply List.map_congr_left
    intro y _
    simp
  · congr 1
    funext j y
    split
    · congr 1
      split
      · assumption
      · rfl
    · rfl

/-! ### The status word of a group (R293) -/

theorem toNat_append_eq_add {m n : Nat} (x : BitVec m) (y : BitVec n) : (x ++ y).toNat = x.toNat * 2 ^ n + y.toNat := by
  rw [BitVec.toNat_append, ← Nat.shiftLeft_add_eq_or_of_lt y.isLt, Nat.shiftLeft_eq]

theorem Group.status_toNat (x : Group) : x.status.toNat =
    x.state.code.toNat + 4 * x.typ.toNat + (if x.typ = 0 then 16 * x.child.toNat else 0) + 2 ^ 16 * x.runs.toNat
      + 2 ^ 32 * x.tiles.toNat := by
  simp only [Group.status, toNat_append_eq_add]
  split <;> simp <;> omega

/-! ### `arm` (R38, R39, R158) -/

/-- The credit that `arm` gives a source at a consumer: its capacity less the tiles owed (R38). -/
def creditAt (s : State) (p y : CellId × BitVec 3) : Credit :=
  { src := y.1, q := y.2, count := (fits s p y : Int) - owes s p y, owed := owes s p y }

/-- The credits that `arm` gives a source. -/
def creditsAt (s : State) (r : Region) (p : CellId × BitVec 3) : List Credit := (s.consumers r p.1 p.2).map (creditAt s p)

/-- The credit at a consumer, or none where its queue holds no tile (R39). -/
def creditIf (s : State) (p y : CellId × BitVec 3) : Option Credit := if fits s p y = 0 then none else some (creditAt s p y)

theorem State.armCredits_eq_creditIf (s : State) (r : Region) (p : CellId × BitVec 3) : s.armCredits r p.1 p.2 =
    if ((s.consumers r p.1 p.2).filterMap (creditIf s p)).length = (s.consumers r p.1 p.2).length then
      some ((s.consumers r p.1 p.2).filterMap (creditIf s p)) else none := rfl

theorem filterMap_congr_of_mem {α β : Type} {f g : α → Option β} {l : List α} (h : ∀ a ∈ l, f a = g a) :
    l.filterMap f = l.filterMap g := by
  induction l with
  | nil => rfl
  | cons a l ih =>
    rw [List.filterMap_cons, List.filterMap_cons, h a List.mem_cons_self, ih fun b hb => h b (List.mem_cons_of_mem a hb)]

theorem creditIf_all (s : State) (p : CellId × BitVec 3) (l : List (CellId × BitVec 3)) :
    (if (l.filterMap (creditIf s p)).length = l.length then some (l.filterMap (creditIf s p)) else none) =
      if l.any (fun y => fits s p y == 0) then none else some (l.map (creditAt s p)) := by
  have hlen : (l.filterMap (creditIf s p)).length = l.length ↔ ¬ l.any (fun y => fits s p y == 0) := by
    rw [List.filterMap_length_eq_length]
    simp [creditIf]
  by_cases hz : l.any (fun y => fits s p y == 0)
  · rw [if_pos hz, if_neg (fun e => hlen.mp e hz)]
  · rw [if_neg hz, if_pos (hlen.mpr hz), ← List.filterMap_eq_map]
    congr 1
    refine filterMap_congr_of_mem fun y hy => ?_
    have : fits s p y ≠ 0 := by
      simp at hz
      exact hz _ _ hy
    simp [creditIf, this]

/-- A source armed: AgSeq 0, and its credits. -/
def AgenSt.arm (cs : List Credit) (g : AgenSt) : AgenSt := { g with credits := cs, seq := 0 }

/-- The address generator state of a node after a change of that of one node. -/
theorem State.modCell_setAg (t : State) (p b : CellId × BitVec 3) (f : AgenSt → AgenSt) :
    ((t.modCell p.1 (fun y => y.setAg p.2 (f y.ag[p.2.toNat]))).cell b.1).ag[b.2.toNat] =
      if b = p then f (t.cell p.1).ag[p.2.toNat] else (t.cell b.1).ag[b.2.toNat] := by
  rw [State.modCell_cell]
  by_cases h1 : b.1 = p.1
  · by_cases h2 : b.2 = p.2
    · simp [Prod.ext h1 h2, Cell.setAg]
    · have hb : b ≠ p := fun e => h2 (congrArg Prod.snd e)
      have hn : p.2.toNat ≠ b.2.toNat := fun e => h2 (BitVec.eq_of_toNat_eq e.symm)
      simp [h1, hb, hn, Cell.setAg]
  · have hb : b ≠ p := fun e => h1 (congrArg Prod.fst e)
    rw [if_neg h1, if_neg hb]

/-- A state in which the sources of a list have been armed, out of `s`. -/
structure Armed (s : State) (r : Region) (l : List (CellId × BitVec 3)) (t : State) : Prop where
  rest : t = { s with cells := t.cells }
  cell : ∀ c, t.cell c = { s.cell c with ag := (t.cell c).ag }
  armed : ∀ p ∈ l, ((t.cell p.1).ag[p.2.toNat]).seq = 0 ∧ ((t.cell p.1).ag[p.2.toNat]).credits = creditsAt s r p
  other : ∀ p ∉ l, (t.cell p.1).ag[p.2.toNat] = (s.cell p.1).ag[p.2.toNat]
  consumers : ∀ c k, t.consumers r c k = s.consumers r c k

theorem Armed.init (s : State) (r : Region) : Armed s r [] s :=
  ⟨rfl, fun _ => rfl, by simp, fun _ _ => rfl, fun _ _ => rfl⟩

/-- The keys of an association list after an update: a new key comes last. -/
theorem aset_keys {α β : Type} [DecidableEq α] (l : List (α × β)) (a : α) (v : β) :
    (aset l a v).map Prod.fst = if (aget l a).isSome then l.map Prod.fst else l.map Prod.fst ++ [a] := by
  induction l with
  | nil => rfl
  | cons p l ih =>
    simp only [aset, aget]
    split
    · simp
    · rw [List.map_cons, ih]
      split <;> simp

/-- The consumers of a source stay as they are where a cell keeps its configuration: a cell that was not listed drives no pulse. -/
theorem State.consumers_modCell (s : State) (r : Region) (b : CellId) (f : Cell → Cell) (hf : (f (s.cell b)).active = (s.cell b).active)
    (c : CellId) (k : BitVec 3) : (s.modCell b f).consumers r c k = s.consumers r c k := by
  have hact (y : CellId) : ((s.modCell b f).cell y).active = (s.cell y).active := by
    rw [State.modCell_cell]
    split
    · next h => rw [h, hf]
    · rfl
  have hfar (y : CellId) (p : PulseEntry) : (s.modCell b f).farPulse y p = s.farPulse y p := rfl
  have hkeys : ((s.modCell b f).cells).map Prod.fst = _ := aset_keys s.cells b _
  unfold State.consumers State.cellsOf
  rw [hkeys]
  simp only [hact, hfar]
  split
  · rfl
  · next h =>
    have hnone : aget s.cells b = none := by simpa using h
    have hempty : (s.cell b).active.pulses = [] := by rw [State.cell, hnone]; rfl
    rw [List.filter_append, List.flatMap_append]
    refine (congrArg _ (List.flatMap_eq_nil_iff.mpr fun y hy => ?_)).trans (List.append_nil _)
    obtain rfl := List.mem_singleton.mp (List.mem_filter.mp hy).1
    simp [hempty]

section
variable {s t : State} {r : Region} {l : List (CellId × BitVec 3)}

/-- The first of the pairs of a list that agrees with one of them in both parts is that pair. -/
theorem find?_pair {l : List (CellId × BitVec 3)} {y : CellId × BitVec 3} (hy : y ∈ l) :
    l.find? (fun z => decide (z.1 = y.1 ∧ z.2 = y.2)) = some y := by
  obtain ⟨z, hz⟩ := Option.isSome_iff_exists.mp (List.find?_isSome (p := fun z => decide (z.1 = y.1 ∧ z.2 = y.2)) |>.mpr ⟨y, hy, by simp⟩)
  have hp : z.1 = y.1 ∧ z.2 = y.2 := by simpa using List.find?_some hz
  rw [hz, Prod.ext hp.1 hp.2]

/-- An armed source owes its consumers what it did. -/
theorem Armed.owes_eq (h : Armed s r l t) {p y : CellId × BitVec 3} (hy : y ∈ s.consumers r p.1 p.2) : owes t p y = owes s p y := by
  by_cases hp : p ∈ l
  · rw [owes, (h.armed p hp).2, creditsAt, List.find?_map]
    exact congrArg (fun o => ((o.map (creditAt s p)).map Credit.owed).getD 0) (find?_pair hy)
  · rw [owes, h.other p hp]
    rfl

theorem Armed.fits_eq (h : Armed s r l t) (p y : CellId × BitVec 3) : fits t p y = fits s p y := by
  have hq : (t.cell y.1).queues = (s.cell y.1).queues := by rw [h.cell]
  have hn : (t.cell p.1).nest p.2 = (s.cell p.1).nest p.2 := by rw [h.cell]; rfl
  simp only [fits, hq, hn]

/-- `arm` at a source finds the credits, or none where a tile is larger than a consumer's queue (R38, R39). -/
theorem Armed.armCredits_eq (h : Armed s r l t) (p : CellId × BitVec 3) :
    t.armCredits r p.1 p.2 = if (s.consumers r p.1 p.2).any (fun y => fits s p y == 0) then none else some (creditsAt s r p) := by
  have hmk : ∀ y ∈ s.consumers r p.1 p.2, creditIf t p y = creditIf s p y := fun y hy => by
    simp only [creditIf, creditAt, h.fits_eq, h.owes_eq hy]
  rw [State.armCredits_eq_creditIf, h.consumers, filterMap_congr_of_mem hmk]
  exact creditIf_all _ _ _

/-- A source armed: AgSeq 0, and its credits. -/
theorem Armed.step (h : Armed s r l t) (p : CellId × BitVec 3) :
    Armed s r (l ++ [p]) (t.modCell p.1 (fun y => y.setAg p.2 ((AgenSt.arm (creditsAt s r p)) y.ag[p.2.toNat]))) := by
  refine ⟨?_, fun c => ?_, fun b hb => ?_, fun b hb => ?_, fun c k => ?_⟩
  · rw [h.rest]; rfl
  · rw [State.modCell_cell]
    split
    · next e => rw [e, h.cell]; rfl
    · exact h.cell c
  · rw [State.modCell_setAg]
    split
    · next e =>
      rw [e]
      exact ⟨rfl, rfl⟩
    · next e => exact h.armed b (by simpa [e] using hb)
  · rw [State.modCell_setAg, if_neg (by simp at hb; exact hb.2)]
    exact h.other b (by simp at hb; exact hb.1)
  · rw [State.consumers_modCell]
    · exact h.consumers c k
    · rfl

/-- One source armed, unless an earlier one failed. -/
def armStep (r : Region) (acc : Except CellId State) (p : CellId × BitVec 3) : Except CellId State := match acc with
  | .error c => .error c
  | .ok s => match s.armCredits r p.1 p.2 with
    | none => .error p.1
    | some cs => .ok (s.modCell p.1 (fun y => y.setAg p.2 (AgenSt.arm cs y.ag[p.2.toNat])))

theorem State.armSources_eq (s : State) (r : Region) (x : Section) : s.armSources r x = (sourceNodes r x).foldl (armStep r) (.ok s) := rfl

theorem armStep_fits (h : Armed s r l t) {p : CellId × BitVec 3} (hp : (s.consumers r p.1 p.2).any (fun y => fits s p y == 0) = false) :
    armStep r (.ok t) p = .ok (t.modCell p.1 (fun y => y.setAg p.2 (AgenSt.arm (creditsAt s r p) y.ag[p.2.toNat]))) := by
  simp [armStep, h.armCredits_eq, hp]

theorem armStep_short (h : Armed s r l t) {p : CellId × BitVec 3} (hp : (s.consumers r p.1 p.2).any (fun y => fits s p y == 0) = true) :
    armStep r (.ok t) p = .error p.1 := by
  simp [armStep, h.armCredits_eq, hp]

theorem armStep_foldl_error (c : CellId) (ps : List (CellId × BitVec 3)) : ps.foldl (armStep r) (.error c) = .error c := by
  induction ps with
  | nil => rfl
  | cons p ps ih => exact ih

/-- Where every tile fits, every source is armed. -/
theorem Armed.foldl_ok (ps : List (CellId × BitVec 3)) (hps : ∀ p ∈ ps, (s.consumers r p.1 p.2).any (fun y => fits s p y == 0) = false)
    (h : Armed s r l t) : ∃ u, ps.foldl (armStep r) (.ok t) = .ok u ∧ Armed s r (l ++ ps) u := by
  induction ps generalizing l t with
  | nil => exact ⟨t, rfl, by simpa using h⟩
  | cons p ps ih =>
    rw [List.foldl_cons, armStep_fits h (hps p (by simp))]
    simpa using ih (fun q hq => hps q (by simp [hq])) (h.step p)

/-- The first source of which a tile is larger than a consumer's queue fails (R39). -/
theorem Armed.foldl_error {p : CellId × BitVec 3} (ps : List (CellId × BitVec 3))
    (hp : ps.find? (fun p => (s.consumers r p.1 p.2).any (fun y => fits s p y == 0)) = some p)
    (h : Armed s r l t) : ps.foldl (armStep r) (.ok t) = .error p.1 := by
  induction ps generalizing l t with
  | nil => cases hp
  | cons q ps ih =>
    rw [List.find?_cons] at hp
    rw [List.foldl_cons]
    split at hp
    · next hq =>
      cases hp
      rw [armStep_short h hq, armStep_foldl_error]
    · next hq =>
      rw [armStep_fits h hq]
      exact ih hp (h.step q)

/-- A cell none of whose nodes was armed is as it was. -/
theorem Armed.cell_eq (h : Armed s r l t) {c : CellId} (hc : ∀ k, (c, k) ∉ l) : t.cell c = s.cell c := by
  have hag : (t.cell c).ag = (s.cell c).ag := Vector.ext fun i hi => by
    simpa [Nat.mod_eq_of_lt hi] using h.other (c, BitVec.ofNat 3 i) (hc _)
  rw [h.cell, hag]

end

/-- `arm` of a section of a region with a count in range. -/
def armIn (s : State) (r : Region) (n : BitVec 6) (v : Word64) : Result := match r.sections[n.toNat]? with
  | none => s.trap tNoSection (inVal n)
  | some x =>
    if r.cfg.state = .flipping then s.trap tConfigBusy v
    else if 0 < x.left then s.trap tSectionBusy (inVal n)
    else match s.armSources r x with
      | .error c => (s.raiseFault c (FaultReg.ofCode 0x04)).goOn ((s.raiseFault c (FaultReg.ofCode 0x04)).seq s.seqTurn)
      | .ok t =>
        (t.modRegion r.serial (fun r => { r with
          sections := modNth (fun y => { y with left := (bits v 0 24).toNat }) n.toNat r.sections })).goOn (me s)

/-- A count outside 1 to 2^24 − 1 (R158). -/
theorem armCount_bad (v : Word64) : (bits v 24 40 ≠ 0 ∨ bits v 0 24 = 0) ↔ (v.toNat = 0 ∨ 2 ^ 24 ≤ v.toNat) := by
  have hv := v.isLt
  simp only [bits, ne_eq, BitVec.toNat_eq, BitVec.extractLsb'_toNat, Nat.shiftRight_eq_div_pow]
  simp
  omega

theorem armCount_toNat {v : Word64} (h : v.toNat < 2 ^ 24) : (bits v 0 24).toNat = v.toNat := by
  simp only [bits, BitVec.extractLsb'_toNat, Nat.shiftRight_zero]
  exact Nat.mod_eq_of_lt h

section
variable {s : State} {q : BitVec 3} {a : BitVec 5} {n : BitVec 6} {r : Region} {x : Section}

theorem execArm_badCount (ho : open_ s q) (hc : canTrap s) (hv : (reg s a).toNat = 0 ∨ 2 ^ 24 ≤ (reg s a).toNat) :
    exec (.arm a n q) s = .next (trapped s 11 (reg s a)) := by
  show execArm a n q s = _
  rw [execArm, regionGuarded_open ho]
  exact (if_pos ((armCount_bad _).mpr hv)).trans (State.trap_canTrap hc _ _)

section
variable (ho : open_ s q) (hr : s.regionOfSeq s.seqTurn = some r) (h0 : 0 < (reg s a).toNat) (h1 : (reg s a).toNat < 2 ^ 24)
include ho hr h0 h1

/-- `arm` with a count in range, behind its first check. -/
theorem execArm_goodCount : exec (.arm a n q) s = armIn s r n (reg s a) := by
  show execArm a n q s = _
  have hv : ¬(bits (reg s a) 24 40 ≠ 0 ∨ bits (reg s a) 0 24 = 0) := fun h => by
    have := (armCount_bad _).mp h
    omega
  rw [execArm, regionGuarded_open ho]
  refine (if_neg hv).trans ?_
  rw [hr]
  rfl

end

theorem armIn_noSection {v : Word64} (hc : canTrap s) (hx : r.sections[n.toNat]? = none) :
    armIn s r n v = .next (trapped s 12 (BitVec.ofNat 64 n.toNat)) := by
  rw [← inVal_eq, ← State.trap_canTrap hc]
  simp [armIn, hx, tNoSection]

section
variable {v : Word64} (hx : r.sections[n.toNat]? = some x)
include hx

theorem armIn_flipping (hc : canTrap s) (hf : r.cfg.state = .flipping) : armIn s r n v = .next (trapped s 18 v) := by
  rw [← State.trap_canTrap hc]
  simp [armIn, hx, hf, tConfigBusy]

theorem armIn_armed (hc : canTrap s) (hf : r.cfg.state ≠ .flipping) (hl : 0 < x.left) :
    armIn s r n v = .next (trapped s 13 (BitVec.ofNat 64 n.toNat)) := by
  rw [← inVal_eq, ← State.trap_canTrap hc]
  simp [armIn, hx, hf, hl, tSectionBusy]

section
variable (hf : r.cfg.state ≠ .flipping) (hl : x.left = 0)
include hf hl

theorem armIn_short {c : CellId} (he : s.armSources r x = .error c) :
    armIn s r n v = (s.raiseFault c (FaultReg.ofCode 0x04)).goOn ((s.raiseFault c (FaultReg.ofCode 0x04)).seq s.seqTurn) := by
  simp [armIn, hx, hf, hl, he]

theorem armIn_ok {t : State} (he : s.armSources r x = .ok t) : armIn s r n v =
    (t.modRegion r.serial (fun r => { r with
      sections := modNth (fun y => { y with left := (bits v 0 24).toNat }) n.toNat r.sections })).goOn (me s) := by
  simp [armIn, hx, hf, hl, he]

end
end
end

/-! ### The instructions as the statement says them -/

/-- Settles O26: each instruction of a group, and `arm`, is its body where the sequencer runs outside a handler; the sources of a section are
armed one after the other, which leaves what the later ones are armed with. -/
theorem groupInstructions : Obligations.GroupInstructions := by
  refine ⟨fun s d n q r ho hc hr hx => ⟨?_, ?_, ?_⟩,
    fun s d n q r x hr hx => ⟨fun ho hf ha => ⟨?_, startGroup_eq_begun hx⟩, fun ho hc hf => ?_, fun ho hc hf ha => ?_, fun ho hg => ?_,
      fun ho hg => ?_, fun hw hrun hg => ?_, fun ho => ⟨x.status, ?_, ?_⟩⟩,
    fun s a n q r ho hr => ⟨fun x hx h0 h1 hf hl hfit => ?_, fun x p hx h0 h1 hf hl hp => ?_, fun x hx h0 h1 hf hc => ?_,
      fun x hx h0 h1 hf hl hc => ?_, fun hx h0 h1 hc => ?_, fun hv hc => execArm_badCount ho hc hv⟩⟩
  · rw [exec_grun, execGrun, onGroup_none ho hc hr hx]
  · rw [exec_gwait, execGwait, onGroup_none ho hc hr hx]
  · rw [exec_gstat, execGstat, onGroup_none ho hc hr hx]
  · rw [exec_grun, execGrun, onGroup_open ho hr hx, if_neg hf, ancestorRuns_eq, ha,
      if_neg Bool.false_ne_true,
      State.setRegion_eq_putRegion s ((settleGroups_serial _ _).trans (startGroup_serial _ _ _))]
    rfl
  · rw [exec_grun, execGrun, onGroup_open ho hr hx, if_pos hf, inVal_eq]
    exact State.trap_canTrap hc _ _
  · rw [exec_grun, execGrun, onGroup_open ho hr hx, if_neg hf, ancestorRuns_eq, if_pos ha, inVal_eq]
    exact State.trap_canTrap hc _ _
  · rw [exec_gwait, execGwait, onGroup_open ho hr hx, if_neg hg]
    rfl
  · rw [exec_gwait, execGwait, onGroup_open ho hr hx, if_pos hg]
    rfl
  · have hw : (s.seq s.seqTurn).wait = .gwait n := hw
    have hrun : (s.seq s.seqTurn).run = .running := hrun
    simp [exec_gwaitComplete, execGwaitComplete, hw, hrun, hr, hx, hg, went, me]
  · rw [exec_gstat, execGstat, onGroup_open ho hr hx]
    simp only [State.goOn, Seq.writeG, Seq.advance, wrote, me]
    split <;> rfl
  · rw [Group.status_toNat]
    cases x.state <;> rfl
  · have hfit : ∀ p ∈ sourceNodes r x, (s.consumers r p.1 p.2).any (fun y => fits s p y == 0) = false := fun p hp => by
      simpa [Nat.pos_iff_ne_zero] using hfit p hp
    obtain ⟨t, he, ht⟩ := Armed.foldl_ok _ hfit (Armed.init s r)
    rw [execArm_goodCount ho hr h0 h1, armIn_ok hx hf hl he, armCount_toNat h1]
    refine ⟨_, rfl, ?_, ?_, ?_, ht.armed, fun c hc => ht.cell_eq hc⟩
    · rw [ht.rest]; rfl
    · rw [ht.rest]; exact State.setSeq_seq_self _ _ _
    · rw [ht.rest]; rfl
  · rw [execArm_goodCount ho hr h0 h1, armIn_short hx hf hl (Armed.foldl_error _ hp (Armed.init s r))]
    refine ⟨_, rfl, ?_, ?_⟩
    · exact congrArg Prod.fst (State.raiseFault_store s p.1 _)
    · exact State.raiseFault_valid _ _ _
  · rw [execArm_goodCount ho hr h0 h1, armIn_flipping hx hc hf]
  · rw [execArm_goodCount ho hr h0 h1, armIn_armed hx hc hf hl]
  · rw [execArm_goodCount ho hr h0 h1, armIn_noSection hc hx]

end Sys2Proof.Machine
end

section
open Sys2Proof.Cert
namespace Sys2Proof.Machine

/-! ### Folds over nodes -/

/-- A fold that changes one named part at a time, always in the same way, and twice as once: every part named is changed. -/
theorem foldl_view {σ ι α : Type} [DecidableEq ι] {step : σ → ι → σ} (view : σ → ι → α) (g : α → α)
    (hstep : ∀ s p b, view (step s p) b = if b = p then g (view s b) else view s b) (hg : ∀ a, g (g a) = g a)
    (l : List ι) (s : σ) (b : ι) : view (l.foldl step s) b = if b ∈ l then g (view s b) else view s b := by
  induction l generalizing s with
  | nil => simp
  | cons p l ih =>
    rw [List.foldl_cons, ih, hstep]
    by_cases hp : b = p <;> by_cases hl : b ∈ l <;> simp [hp, hl, hg]

/-- What each step brings about at its own name and keeps at every name, a fold brings about at every name in its list. -/
theorem foldl_reaches {σ ι : Type} {step : σ → ι → σ} (P : σ → ι → Prop) (hset : ∀ s p, P (step s p) p)
    (hkeep : ∀ s p b, P s b → P (step s p) b) (l : List ι) (s : σ) {b : ι} (hb : b ∈ l) : P (l.foldl step s) b := by
  have keep (l : List ι) : ∀ s, P s b → P (l.foldl step s) b := by
    induction l with
    | nil => exact fun _ h => h
    | cons p l ih => exact fun s h => ih _ (hkeep s p b h)
  induction l generalizing s with
  | nil => cases hb
  | cons p l ih =>
    obtain rfl | hb := List.mem_cons.mp hb
    · exact keep l _ (hset s _)
    · exact ih _ hb

/-! ### Pulses (R28, R271) -/

theorem exec_pulseArrival (k : Nat) (s : State) : exec (.pulseArrival k) s = execPulseArrival k s := rfl

/-- No earlier pulse of the same output is on its way to the same input. -/
theorem noEarlierPulse {l : List PulseFlight} {k : Nat} {p : PulseFlight}
    (h : ∀ j y, j < k → l[j]? = some y → ¬ (y.src = p.src ∧ y.po = p.po ∧ y.dst = p.dst ∧ y.pin = p.pin)) :
    (l.take k).any (fun x => x.src == p.src && x.po == p.po && x.dst == p.dst && x.pin == p.pin) = false := by
  rw [List.any_eq_false]
  intro y hy
  obtain ⟨j, hj, rfl⟩ := List.mem_take_iff_getElem.mp hy
  have := h j l[j] (by omega) (List.getElem?_eq_getElem _)
  simpa [and_assoc] using this

section
variable {s : State} {k : Nat} {p : PulseFlight} (hp : s.pulses[k]? = some p)
  (hfirst : ∀ j y, j < k → s.pulses[j]? = some y → ¬ (y.src = p.src ∧ y.po = p.po ∧ y.dst = p.dst ∧ y.pin = p.pin))
include hp hfirst

theorem execPulseArrival_late (he : (s.cell p.dst).epoch ≠ p.epoch) :
    exec (.pulseArrival k) s = .next { s with pulses := s.pulses.eraseIdx k } := by
  have hc : State.cell { s with pulses := s.pulses.eraseIdx k } p.dst = s.cell p.dst := rfl
  simp [exec_pulseArrival, execPulseArrival, hp, noEarlierPulse hfirst, hc, he]

theorem execPulseArrival_counted (he : (s.cell p.dst).epoch = p.epoch) (hl : ((s.cell p.dst).pin[p.pin.toNat]).length < 0xFFFF) :
    exec (.pulseArrival k) s = .next (State.setCell { s with pulses := s.pulses.eraseIdx k } p.dst { s.cell p.dst with
      pin := (s.cell p.dst).pin.set p.pin.toNat ((s.cell p.dst).pin[p.pin.toNat] ++ [⟨p.kind, p.src, p.po⟩]) }) := by
  have hc : State.cell { s with pulses := s.pulses.eraseIdx k } p.dst = s.cell p.dst := rfl
  have hroom : ¬ 0xFFFF ≤ ((s.cell p.dst).pin[p.pin.toNat]).length := Nat.not_le.mpr hl
  simp [exec_pulseArrival, execPulseArrival, hp, noEarlierPulse hfirst, hc, he, hroom]

theorem execPulseArrival_full (he : (s.cell p.dst).epoch = p.epoch) (hl : 0xFFFF ≤ ((s.cell p.dst).pin[p.pin.toNat]).length) :
    exec (.pulseArrival k) s =
      .next (State.raiseFault { s with pulses := s.pulses.eraseIdx k } p.dst { FaultReg.reset with code := 3, node := p.pin }) := by
  have hc : State.cell { s with pulses := s.pulses.eraseIdx k } p.dst = s.cell p.dst := rfl
  simp [exec_pulseArrival, execPulseArrival, hp, noEarlierPulse hfirst, hc, he, hl, FaultReg.ofCode]

end

/-! ### Credit of the sources of a section (R38, R285) -/

/-- The address generator of a node, and the pulses that wait at its cell's input of the same number. -/
def State.source (s : State) (p : CellId × BitVec 3) : AgenSt × List PulseIn := ((s.cell p.1).ag[p.2.toNat], (s.cell p.1).pin[p.2.toNat])

/-- FREE pulses taken as credits. -/
def takeFreesOf (x : AgenSt × List PulseIn) : AgenSt × List PulseIn :=
  let frees := x.2.filter (fun p => p.kind = 2)
  let grow (cr : Credit) : Credit :=
    let n := (frees.filter (fun p => p.src = cr.src ∧ p.po = cr.q)).length
    { cr with count := cr.count + n, owed := cr.owed - n }
  ({ x.1 with credits := x.1.credits.map grow }, x.2.filter (fun p => p.kind ≠ 2))

/-- Once taken, no FREE pulse is left to take. -/
theorem takeFreesOf_takeFreesOf (x : AgenSt × List PulseIn) : takeFreesOf (takeFreesOf x) = takeFreesOf x := by
  have hnone : (x.2.filter (fun p => p.kind ≠ 2)).filter (fun p => p.kind = 2) = [] := by
    simp [List.filter_filter]
  simp only [takeFreesOf]
  rw [hnone]
  simp [List.filter_filter]

theorem State.source_takeFrees (s : State) (p b : CellId × BitVec 3) :
    (s.modCell p.1 (fun y => y.takeFrees p.2)).source b = if b = p then takeFreesOf (s.source b) else s.source b := by
  unfold State.source
  rw [State.modCell_cell]
  by_cases h1 : b.1 = p.1
  · by_cases h2 : b.2 = p.2
    · simp [Prod.ext h1 h2, Cell.takeFrees, takeFreesOf]
    · have hb : b ≠ p := fun e => h2 (congrArg Prod.snd e)
      have hn : p.2.toNat ≠ b.2.toNat := fun e => h2 (BitVec.eq_of_toNat_eq e.symm)
      simp [h1, hb, hn, Cell.takeFrees]
  · have hb : b ≠ p := fun e => h1 (congrArg Prod.fst e)
    simp [h1, hb]

/-- The sources of a section with the FREE pulses that have reached them taken. -/
def State.takeAllFrees (s : State) (l : List (CellId × BitVec 3)) : State :=
  l.foldl (fun s p => s.modCell p.1 (fun y => y.takeFrees p.2)) s

theorem State.takeAllFrees_source (s : State) {l : List (CellId × BitVec 3)} {p : CellId × BitVec 3} (hp : p ∈ l) :
    (s.takeAllFrees l).source p = takeFreesOf (s.source p) := by
  rw [State.takeAllFrees, foldl_view State.source takeFreesOf State.source_takeFrees takeFreesOf_takeFreesOf, if_pos hp]

theorem State.takeAllFrees_due (s : State) (l : List (CellId × BitVec 3)) (c : CellId) :
    ((s.takeAllFrees l).cell c).due = (s.cell c).due := by
  refine foldl_keeps (fun s => (s.cell c).due) (fun s p => ?_) l s
  rw [State.modCell_cell]
  split
  · next h => rw [h]; rfl
  · rfl

/-! ### A tile admitted (R285) -/

/-- A tile started at every source of a section. -/
def State.startAll (s : State) (inv : Inv) (l : List (CellId × BitVec 3)) : State :=
  l.foldl (fun s p => (s.modCell p.1 (fun y => y.setAg p.2 (y.ag[p.2.toNat].start inv))).sendPulse p.1 p.2 0) s

theorem State.startAll_due (s : State) (inv : Inv) {l : List (CellId × BitVec 3)} {p : CellId × BitVec 3} (hp : p ∈ l) :
    inv ∈ (((s.startAll inv l).cell p.1).ag[p.2.toNat]).due := by
  have hag (s : State) (p b : CellId × BitVec 3) :
      (((s.modCell p.1 (fun y => y.setAg p.2 (y.ag[p.2.toNat].start inv))).sendPulse p.1 p.2 0).cell b.1).ag[b.2.toNat] =
        if b = p then (s.cell p.1).ag[p.2.toNat].start inv else (s.cell b.1).ag[b.2.toNat] :=
    s.modCell_setAg p b (fun g => g.start inv)
  refine foldl_reaches (fun (s : State) b => inv ∈ ((s.cell b.1).ag[b.2.toNat]).due) (fun s p => ?_) (fun s p b h => ?_) l s hp
  · rw [hag, if_pos rfl]
    simp [AgenSt.start]
  · rw [hag]
    split
    · next e =>
      rw [e] at h
      simp [AgenSt.start, h]
    · exact h

theorem State.takeAllFrees_keeps (s : State) (l : List (CellId × BitVec 3)) :
    (s.takeAllFrees l).mem = s.mem ∧ (s.takeAllFrees l).regions = s.regions := by
  rw [State.takeAllFrees]
  refine ⟨foldl_keeps State.mem (fun _ _ => ?_) l s, foldl_keeps State.regions (fun _ _ => ?_) l s⟩ <;> rfl

theorem State.startAll_keeps (s : State) (inv : Inv) (l : List (CellId × BitVec 3)) :
    (s.startAll inv l).mem = s.mem ∧ (s.startAll inv l).regions = s.regions := by
  rw [State.startAll]
  refine ⟨foldl_keeps State.mem (fun _ _ => ?_) l s, foldl_keeps State.regions (fun _ _ => ?_) l s⟩ <;> rfl

theorem exec_tileAdmit (n : Nat) (j : BitVec 6) (s : State) : exec (.tileAdmit n j) s = execTileAdmit n j s := rfl

/-- Whether a source can start a tile (R38, R40, R285). -/
def State.sourceReady (s : State) (p : CellId × BitVec 3) : Bool :=
  (s.cell p.1).ag[p.2.toNat].hasCredit && !(s.cell p.1).ag[p.2.toNat].retune && (s.cell p.1).ag[p.2.toNat].due.isEmpty &&
    (s.cell p.1).due[p.2.toNat].isEmpty

/-- A section behind the admission of its next tile (R285). -/
def Section.admitted (x : Section) : Section := { x with
  left := x.left - 1, idx := x.idx + 1, serial := x.serial + 1, tiles := x.tiles ++ [{ tile := x.serial, idx := x.idx, sinks := [] }] }

/-- A region with the next tile of a section admitted. -/
def Region.admitted (j : Nat) (x : Section) (r : Region) : Region := { r with sections := modNth (fun _ => x.admitted) j r.sections }

section
variable {s : State} {n : Nat} {j : BitVec 6} {r : Region} {x : Section} (hr : s.region n = some r) (hx : r.sections[j.toNat]? = some x)
include hr hx

theorem execTileAdmit_refused (h : x.left = 0 ∨ x.running = false ∨ s.admits r = false ∨ r.gateOpen x = false ∨
    s.budgetOpen r.die r.launch.ctx = false) : exec (.tileAdmit n j) s = .next s := by
  rw [exec_tileAdmit, execTileAdmit, hr]
  dsimp only
  rw [hx]
  refine if_pos ?_
  obtain h | h | h | h | h := h <;> simp [h]

theorem execTileAdmit_admits (hl : x.left ≠ 0) (hrun : x.running = true) (ha : s.admits r = true) (hg : r.gateOpen x = true)
    (hb : s.budgetOpen r.die r.launch.ctx = true) (hs : ∀ p ∈ r.sourcesOf x, (s.takeAllFrees (r.sourcesOf x)).sourceReady p = true) :
    exec (.tileAdmit n j) s = .next (((s.takeAllFrees (r.sourcesOf x)).startAll ⟨r.serial, j.toNat, x.serial⟩ (r.sourcesOf x)).modRegion n
      (Region.admitted j.toNat x)) := by
  rw [exec_tileAdmit, execTileAdmit, hr]
  dsimp only
  rw [hx]
  have hall : (r.sourcesOf x).all (s.takeAllFrees (r.sourcesOf x)).sourceReady = true := List.all_eq_true.mpr hs
  refine if_neg ?_
  show ¬(_ ∨ _ ∨ _ ∨ _ ∨ _ ∨ (!(r.sourcesOf x).all (s.takeAllFrees (r.sourcesOf x)).sourceReady) = true)
  rw [hall]
  simp [hl, hrun, ha, hg, hb]

end

/-- A list changed in one place, read there. -/
theorem modNth_getElem?_self {α : Type} (f : α → α) (i : Nat) (l : List α) : (modNth f i l)[i]? = l[i]?.map f := by
  simp [modNth]

theorem State.region_serial {s : State} {n : Nat} {r : Region} (h : s.region n = some r) : r.serial = n := by
  simpa using List.find?_some h

/-! ### The open tiles of sections, as groups move (R286, R287) -/

/-- The open tiles of each section of a region. -/
def Region.openTiles (r : Region) : List (List OpenTile) := r.sections.map Section.tiles

/-- Sections changed in nothing but how they run keep their open tiles. -/
theorem map_openTiles {f : Section → Section} (h : ∀ x, (f x).tiles = x.tiles) (l : List Section) :
    (l.map f).map Section.tiles = l.map Section.tiles := by
  simp [h]

theorem Region.startSections_openTiles (r : Region) (g : Nat) (p : BitVec 6 → Bool) : (r.startSections g p).openTiles = r.openTiles :=
  map_openTiles (fun x => by split <;> rfl) r.sections

theorem Region.finishGroup_openTiles (r : Region) (g : Nat) : (r.finishGroup g).openTiles = r.openTiles :=
  map_openTiles (fun x => by split <;> rfl) r.sections

theorem startGroup_openTiles (n g : Nat) (r : Region) : (startGroup n g r).openTiles = r.openTiles := by
  induction n generalizing g r with
  | zero => rfl
  | succ n ih =>
    exact (foldl_keeps Region.openTiles (fun r (c : Nat × BitVec 6) => ih c.1 r) _ _).trans (Region.startSections_openTiles _ g _)

theorem Region.startChild_openTiles (r : Region) (g : Nat) (o : BitVec 6) : (r.startChild g o).openTiles = r.openTiles :=
  (foldl_keeps Region.openTiles (fun r (c : Nat × BitVec 6) => startGroup_openTiles 64 c.1 r) _ _).trans
    (r.startSections_openTiles g _)

theorem Region.moveGroup_openTiles {r r1 : Region} {g : Nat} (h : r.moveGroup g = some r1) : r1.openTiles = r.openTiles := by
  unfold Region.moveGroup at h
  repeat' split at h
  all_goals cases h
  all_goals simp [Region.finishGroup_openTiles, Region.startChild_openTiles]
  all_goals rfl

theorem settleGroups_openTiles (n : Nat) (r : Region) : (settleGroups n r).openTiles = r.openTiles := by
  induction n generalizing r with
  | zero => rfl
  | succ n ih =>
    rw [settleGroups]
    split
    · rfl
    · next h =>
      obtain ⟨g, -, hg⟩ := List.exists_of_findSome?_eq_some h
      exact (ih _).trans (Region.moveGroup_openTiles hg)

/-! ### The regions as a kernel retires (R160, R266) -/

theorem State.putNum_regions (s : State) (key : Key) (pa n v : Nat) : (s.putNum key pa n v).regions = s.regions :=
  show (s.putBytes key pa (natToBytes n v)).bare.regions = s.bare.regions by rw [State.putBytes_bare]

theorem State.xlateEngine_regions (s : State) (d : BitVec 3) (ctx : BitVec 9) (right : Right) (va : Word64) :
    (s.xlateEngine d ctx right va).2.regions = s.regions := by
  unfold State.xlateEngine
  split
  · rfl
  · dsimp only
    split
    · rfl
    · split <;> rfl

theorem State.descPa_regions (s : State) (d : BitVec 3) (right : Right) (a : DescAddr) (off : Nat) :
    (s.descPa d right a off).2.regions = s.regions := by
  cases a with
  | phys pa => rfl
  | virt ctx va => exact s.xlateEngine_regions d ctx right _

@[simp] theorem State.putDesc_regions (s : State) (d : BitVec 3) (a : DescAddr) (off n v : Nat) :
    (s.putDesc d a off n v).regions = s.regions := by
  have h := s.descPa_regions d .w a off
  unfold State.putDesc
  split
  · next e =>
    rw [e] at h
    exact (State.putNum_regions ..).trans h
  · next e =>
    rw [e] at h
    exact h

@[simp] theorem State.ticketDone_regions (s : State) (k : Option (BitVec 10 × Word64)) : (s.ticketDone k).regions = s.regions := by
  cases k <;> rfl

@[simp] theorem State.complete_regions (s : State) (d : BitVec 3) (q : QDesc) (off n v : Nat) :
    (s.complete d q off n v).regions = s.regions := by
  simp [State.complete]

@[simp] theorem State.launchStatus_regions (s : State) (d : BitVec 3) (a : DescAddr) (status : Nat) (result : Word64) :
    (s.launchStatus d a status result).regions = s.regions := by
  simp [State.launchStatus]

@[simp] theorem State.finishInvals_regions (s : State) : s.finishInvals.regions = s.regions := by
  refine foldl_keeps State.regions (fun s i => ?_) _ s
  exact foldl_keeps State.regions (fun s v => s.complete_regions _ _ 16 1 1) _ _

@[simp] theorem State.moveCtx_regions (s : State) (d : BitVec 3) (n : BitVec 9) (f : Ctx → Ctx) : (s.moveCtx d n f).regions = s.regions := by
  unfold State.moveCtx
  dsimp only
  split <;> rfl

@[simp] theorem State.requeue_regions (s : State) (ws : List (BitVec 3 × QDesc)) : (s.requeue ws).regions = s.regions := by
  refine foldl_keeps State.regions (fun s w => ?_) _ s
  rfl

@[simp] theorem State.finishCmd_regions (s : State) (d : BitVec 3) (n : BitVec 9) (status : Nat) :
    (s.finishCmd d n status).regions = s.regions := by
  unfold State.finishCmd
  dsimp only
  split <;> simp

@[simp] theorem State.afterCuts_regions (s : State) (d : BitVec 3) (n : BitVec 9) : (s.afterCuts d n).regions = s.regions :=
  s.moveCtx_regions d n _

@[simp] theorem State.settlePreempt_regions (s : State) (d : BitVec 3) (n : BitVec 9) : (s.settlePreempt d n).regions = s.regions := by
  unfold State.settlePreempt
  dsimp only
  split
  · rfl
  · split
    · split
      · rfl
      · split <;> simp
    · split <;> simp

@[simp] theorem State.settleCtx_regions (s : State) (d : BitVec 3) (n : BitVec 9) : (s.settleCtx d n).regions = s.regions := by
  unfold State.settleCtx
  dsimp only
  split
  · split <;> simp
  · simp

/-- A region whose kernel ends is gone. -/
theorem State.endRegion_region (s : State) (r : Region) (status : Nat) (result : Word64) :
    (s.endRegion r status result).region r.serial = none := by
  unfold State.endRegion State.region
  simp

/-- A kernel that retires takes its region with it, and one that does not leaves it. -/
theorem State.tryRetire_regionIs {s : State} {n : Nat} {p : Region → Prop} (h : regionIs s n p) : regionIs (s.tryRetire n) n p := by
  unfold State.tryRetire
  split
  · exact h
  · next r hr =>
    split
    · intro y hy
      rw [← State.region_serial hr, State.endRegion_region] at hy
      cases hy
    · exact h

/-- A region changed, where its number stays. -/
theorem State.modRegion_regionIs {s : State} {n : Nat} {r : Region} {f : Region → Region} {p : Region → Prop}
    (hf : ∀ r, (f r).serial = r.serial) (hr : s.region n = some r) (h : p (f r)) : regionIs (s.modRegion n f) n p := by
  intro y hy
  rw [State.modRegion_region _ _ _ _ hf, hr, Option.map_some, if_pos (State.region_serial hr)] at hy
  rwa [← Option.some.inj hy]

theorem State.setRegion_regionIs (s : State) {y : Region} {p : Region → Prop} (h : p y) : regionIs (s.setRegion y) y.serial p := by
  intro z hz
  have hs := State.region_serial hz
  obtain ⟨x, -, rfl⟩ := List.mem_map.mp (List.mem_of_find?_eq_some hz)
  split at hs
  · next e => simpa [e] using h
  · next e => exact absurd hs e

/-! ### The end of a tile (R286) -/

theorem exec_tileEnd (n : Nat) (j : BitVec 6) (s : State) : exec (.tileEnd n j) s = execTileEnd n j s := rfl

/-- Whether the EOT of a tile has passed every sink of its section, and the sinks are done with it (R286). -/
def State.tileEnded (s : State) (r : Region) (j : Nat) (x : Section) (t : OpenTile) : Bool :=
  x.sinks.all (fun k => decide (k ∈ t.sinks)) && x.sinks.all (s.sinkDone r ⟨r.serial, j, t.tile⟩)

/-- A region in which a tile has ended (R286, R293). -/
def Region.tileGone (r : Region) (j : Nat) (x : Section) (t : OpenTile) : Region :=
  ({ r with
    sections := modNth (fun _ => { x with tiles := x.tiles.erase t, ended := x.ended + 1 }) j r.sections,
    discards := adel r.discards ⟨r.serial, j, t.tile⟩, norerun := r.norerun.filter (fun i => i ≠ ⟨r.serial, j, t.tile⟩) } : Region).countTile
      x.parent

section
variable {s : State} {n : Nat} {j : BitVec 6} {r : Region} {x : Section} (hr : s.region n = some r) (hx : r.sections[j.toNat]? = some x)
  (hk : r.kstate = .active ∨ r.kstate = .resident)
include hr hx hk

theorem execTileEnd_none (h : x.tiles.find? (s.tileEnded r j.toNat x) = none) : exec (.tileEnd n j) s = .next s := by
  rw [exec_tileEnd, execTileEnd, hr]
  dsimp only
  rw [hx]
  refine (if_neg (by obtain hk | hk := hk <;> simp [hk])).trans ?_
  show (match x.tiles.find? (s.tileEnded r j.toNat x) with | none => _ | some t => _) = _
  rw [h]

theorem execTileEnd_ends {t : OpenTile} (h : x.tiles.find? (s.tileEnded r j.toNat x) = some t) : exec (.tileEnd n j) s =
    .next (((s.forgetTile r ⟨r.serial, j.toNat, t.tile⟩).setRegion (settleGroups 4096 (r.tileGone j.toNat x t))).tryRetire n) := by
  rw [exec_tileEnd, execTileEnd, hr]
  dsimp only
  rw [hx]
  refine (if_neg (by obtain hk | hk := hk <;> simp [hk])).trans ?_
  show (match x.tiles.find? (s.tileEnded r j.toNat x) with | none => _ | some t => _) = _
  rw [h]
  rfl

end

theorem Region.tileGone_openTiles {r : Region} {j : Nat} {x : Section} {t : OpenTile} (hx : r.sections[j]? = some x) :
    (r.tileGone j x t).openTiles[j]? = some (x.tiles.erase t) := by
  show ((modNth (fun _ => _) j r.sections).map Section.tiles)[j]? = _
  rw [List.getElem?_map, modNth_getElem?_self, hx]
  rfl

/-- Settles O52: a pulse, an admission and the end of a tile, each from what its event does. -/
theorem pulsesAndTiles : Obligations.PulsesAndTiles := by
  refine ⟨fun s k p hp hfirst => ⟨fun he => execPulseArrival_late hp hfirst he, fun he hl => execPulseArrival_counted hp hfirst he hl,
    fun he hl => execPulseArrival_full hp hfirst he hl⟩, fun s n j r x hr hx => ⟨fun hl hrun ha hg hb hs => ?_,
    fun h => execTileAdmit_refused hr hx h⟩, fun s n j r x i rest hr hx ht hk => ⟨fun hsink => ?_, fun hopen => ?_⟩⟩
  · have hready : ∀ p ∈ r.sourcesOf x, (s.takeAllFrees (r.sourcesOf x)).sourceReady p = true := fun p hp => by
      obtain ⟨hcredit, hretune, hdue, hcell⟩ := hs p hp
      have hag : ((s.takeAllFrees (r.sourcesOf x)).cell p.1).ag[p.2.toNat] = ((s.cell p.1).takeFrees p.2).ag[p.2.toNat] :=
        (congrArg Prod.fst (s.takeAllFrees_source hp)).trans (by simp [Cell.takeFrees, takeFreesOf, State.source])
      simp only [State.sourceReady, hag, State.takeAllFrees_due, hcredit, hretune, hdue, hcell]
      rfl
    refine ⟨_, execTileAdmit_admits hr hx hl hrun ha hg hb hready, ?_, fun p hp => State.startAll_due _ _ hp, ?_⟩
    · exact (State.startAll_keeps _ _ _).1.trans (State.takeAllFrees_keeps _ _).1
    · refine State.modRegion_regionIs (f := Region.admitted j.toNat x) (fun _ => rfl) (r := r) ?_ ?_
      · rw [State.region, (State.startAll_keeps _ _ _).2, (State.takeAllFrees_keeps _ _).2]
        exact hr
      · exact (modNth_getElem?_self _ _ _).trans (by rw [hx]; rfl)
  · have hi : s.tileEnded r j.toNat x i = true := by
      simp only [State.tileEnded, Bool.and_eq_true, List.all_eq_true, decide_eq_true_eq]
      exact ⟨fun k hk => (hsink k hk).1, fun k hk => (hsink k hk).2⟩
    have hfind : x.tiles.find? (s.tileEnded r j.toNat x) = some i := by rw [ht, List.find?_cons_of_pos hi]
    refine ⟨_, execTileEnd_ends hr hx hk hfind, State.tryRetire_regionIs ?_⟩
    have hgone : (settleGroups 4096 (r.tileGone j.toNat x i)).openTiles[j.toNat]? = some rest := by
      rw [settleGroups_openTiles, Region.tileGone_openTiles hx, ht, List.erase_cons_head]
    have hserial : (settleGroups 4096 (r.tileGone j.toNat x i)).serial = n :=
      (settleGroups_serial _ _).trans (show r.serial = n from State.region_serial hr)
    have h := State.setRegion_regionIs (s.forgetTile r ⟨r.serial, j.toNat, i.tile⟩)
      (p := fun y => (y.sections[j.toNat]?).map Section.tiles = some rest) ((List.getElem?_map ..).symm.trans hgone)
    rwa [hserial] at h
  · refine execTileEnd_none hr hx hk (List.find?_eq_none.mpr fun l hl => ?_)
    obtain ⟨k, hk, hn⟩ := hopen l hl
    simp only [State.tileEnded, Bool.and_eq_true, List.all_eq_true, decide_eq_true_eq]
    exact fun h => hn (h.1 k hk)

end Sys2Proof.Machine
end

section
open Sys2Proof.Cert
namespace Sys2Proof.Machine

/-! ### The shapes of guarded instructions under a false guard (R49, R128) -/

theorem guardHolds_eq_false_of_not_guardOn {s : State} {g : BitVec 3} {sn : BitVec 1} (h : ¬ guardOn s g sn) :
    (me s).guardHolds g sn = false := by
  unfold Seq.guardHolds Seq.readP
  obtain rfl | rfl : sn = 0 ∨ sn = 1 := by bv_omega
  · simpa [guardOn] using h
  · simpa [guardOn] using h

section
variable {s : State} {g : BitVec 3} {sn : BitVec 1}

section
variable (h : (me s).guardHolds g sn = false)
include h

theorem aluOp_false (d : BitVec 5) (f : Seq → Word64) : aluOp s d g sn f = s.goOn (me s) := guarded_false _ h

theorem cmpOp_false (d : BitVec 3) (f : Seq → Bool) : cmpOp s d g sn f = s.goOn (me s) := guarded_false _ h

end

variable (h : (me s).guardHolds g 0 = false)
include h

theorem memAccess_false (body : Seq → Result) : memAccess s g body = s.goOn (me s) := guarded_false _ h

theorem atomicAccess_false (d a : BitVec 5) (o : BitVec 2) (c : BitVec 3) (w : BitVec 2) (f : Seq → Nat → Option Nat) :
    atomicAccess s d a g o c w f = s.goOn (me s) := memAccess_false h _

theorem amoAccess_false (op : AmoOp) (d a : BitVec 5) (o : BitVec 2) (c : BitVec 3) (w : BitVec 2) :
    amoAccess op s d a g o c w = s.goOn (me s) := atomicAccess_false h _ _ _ _ _ _

theorem barGuarded_false (c : BitVec 3) (body : Seq → State) : barGuarded s g c body = s.goOn (me s) := guarded_false _ h

theorem regionGuarded_false (val : Word64) (body : Seq → Result) : regionGuarded s g val body = s.goOn (me s) := guarded_false _ h

theorem onInlet_false (n : BitVec 6) (body : Seq → CellId → BitVec 3 → Queue → Result) : onInlet s g n body = s.goOn (me s) :=
  regionGuarded_false h _ _

theorem onOutlet_false (n : BitVec 6) (body : Seq → Queue → Result) : onOutlet s g n body = s.goOn (me s) := regionGuarded_false h _ _

theorem onGroup_false (n : BitVec 6) (body : Seq → Region → Group → Result) : onGroup s g n body = s.goOn (me s) :=
  regionGuarded_false h _ _

theorem attachAcc_false (cmd : BitVec 4) (a : BitVec 5) (n : BitVec 4) : attachAcc cmd a n g s = s.goOn (me s) :=
  regionGuarded_false h _ _

end

/-! ### Every guarded instruction under a false guard -/

/-- Each instruction that carries a guard has one of the shapes above, or is `guarded` itself, so under a false guard it goes on. -/
theorem exec_eq_goOn_of_guardHolds_false {i : Instr} {s : State} {g : BitVec 3} {sn : BitVec 1} (hi : guardOf i = some (g, sn))
    (h : (me s).guardHolds g sn = false) : exec i s = s.goOn (me s) := by
  cases i with
  | add | sub | and | or | xor | shl | shr | sar | mul | mulh | div | rem | min | max | clz | popc | adds | bfx | bfi | mad | crc | sel
  | addi | andi | ori | xori | shli | shri | sari => cases hi; rw [exec]; exact aluOp_false h _ _
  | cmpeq | cmpne | cmplt | cmpge | cmpltu | cmpgeu => cases hi; rw [exec]; exact cmpOp_false h _ _
  | loop | br | brp | call | jr | ret | nop | halt | yield | trap | rte | sysr | sysw | launch | fence | send | recv | pgprobe | sigv
  | keyh => cases hi; rw [exec]; exact guarded_false _ h
  | ld | st | ldm | stm => cases hi; rw [exec]; exact memAccess_false h _
  | amoswap | amoadd | amoand | amoor | amoxor | amomin | amomax | amominu | amomaxu =>
    cases hi; rw [exec]; exact amoAccess_false h _ _ _ _ _ _
  | cas => cases hi; rw [exec]; exact atomicAccess_false h _ _ _ _ _ _
  | bari | bara | barw | bart => cases hi; rw [exec]; exact barGuarded_false h _ _
  | put | peekInlet | qstatInlet | qgapInlet | qdrainInlet => cases hi; rw [exec]; exact onInlet_false h _ _
  | get | peekOutlet | qstatOutlet | qgapOutlet | qdrainOutlet => cases hi; rw [exec]; exact onOutlet_false h _ _
  | grun | gwait | gstat => cases hi; rw [exec]; exact onGroup_false h _ _
  | scmdAddI32 | scmdAddI64 | scmdAddF32 | scmdWaddI32 | scmdWaddF32 | scmdMaxI32 | scmdMinI32 | scmdMaxF32 | scmdMinF32 | scmdCount
  | scmdKeyAdd | scmdKeyWadd | scmdOr | scmdXor | scmdCopy => cases hi; rw [exec]; exact attachAcc_false h _ _ _
  | accz | accr | scmdStop | qbind | arm | cfgld | cfgchk | cfgflip | cfgabort | statf | retune =>
    cases hi; rw [exec]; exact regionGuarded_false h _ _
  | _ => exact nomatch hi

/-- Settles O9: whatever shape a guarded instruction has, under a false guard it goes on, and going on is the jump past its word. -/
theorem falseGuardOnlyAdvances : Obligations.FalseGuardOnlyAdvances := by
  intro i s g sn hi hg
  exact exec_eq_goOn_of_guardHolds_false hi (guardHolds_eq_false_of_not_guardOn hg)

end Sys2Proof.Machine
end

section
namespace Sys2Proof.Machine

/-! ### Memory as a key reads it (R326) -/

/-- Reading under a key looks at the line of the address alone, and at the die's maps. -/
theorem State.byteAt_congr {s t : State} (key : Key) (a : Nat) (hd : t.dies = s.dies)
    (hk : aget t.lineKey (lineOf a) = aget s.lineKey (lineOf a))
    (hm : ∀ b, lineOf b = lineOf a → Memory.read t.mem b = Memory.read s.mem b) : t.byteAt key a = s.byteAt key a := by
  have hblock : (List.range 16).map (fun i => Memory.read t.mem (a / 16 * 16 + i)) =
      (List.range 16).map (fun i => Memory.read s.mem (a / 16 * 16 + i)) :=
    List.map_congr_left fun i hi => hm _ (by have := List.mem_range.mp hi; simp only [lineOf]; omega)
  simp only [State.byteAt, State.mgmtByte, hd, hk, hm a rfl, hblock]

/-- What a line last written under the same key reads as. -/
theorem State.byteAt_keyed {s : State} {key : Key} {a : Nat} (hg : inMgmt a = false)
    (hk : inStack a = true → aget s.lineKey (lineOf a) = some key) : s.byteAt key a = Memory.read s.mem a := by
  cases hs : inStack a
  · simp [State.byteAt, hg, hs]
  · simp [State.byteAt, hg, hs, hk hs]

@[simp] theorem State.bytesAt_length (s : State) (key : Key) (a n : Nat) : (s.bytesAt key a n).length = n := by
  simp [State.bytesAt]

theorem State.rekey_dies (s : State) (key : Key) (l : Nat) : (s.rekey key l).dies = s.dies := by
  unfold State.rekey
  repeat' split
  all_goals rfl

/-- A line brought under a key has that key; no other line's key changes. -/
theorem State.rekey_lineKey (s : State) (key : Key) (l m : Nat) :
    aget (s.rekey key l).lineKey m = if m = l then some key else aget s.lineKey m := by
  unfold State.rekey
  split
  · exact aget_aset _ _ _ _
  · next kw h =>
    split
    · next hk =>
      split
      · next hm => rw [hm, h, hk]
      · rfl
    · exact aget_aset _ _ _ _

/-- A line brought under a key reads under that key as before, and so does every other byte. -/
theorem State.rekey_byteAt {s : State} (key : Key) (l a : Nat) (h : MemOk s) : (s.rekey key l).byteAt key a = s.byteAt key a := by
  by_cases ha : lineOf a = l
  · cases hg : inMgmt a
    · have hnew : (s.rekey key l).byteAt key a = Memory.read (s.rekey key l).mem a :=
        State.byteAt_keyed hg fun _ => by rw [State.rekey_lineKey, if_pos ha]
      rw [hnew]
      unfold State.rekey
      split
      · next hk => simp [State.byteAt, hg, ha, hk]
      · next kw hk =>
        split
        · next e => simp [State.byteAt, hg, ha, hk, e]
        · have hr : 64 * l ≤ a ∧ a < 64 * l + (s.bytesAt key (64 * l) 64).length := by
            rw [State.bytesAt_length]; simp only [lineOf] at ha; omega
          rw [Memory.read_writeBytes _ _ _ _ h, if_pos hr, State.bytesAt, List.getD_eq_getElem?_getD, List.getElem?_map,
            List.getElem?_range (by simpa using (by simp at hr; omega : a - 64 * l < 64))]
          simp [Nat.add_sub_cancel' hr.1]
    · simp [State.byteAt, State.mgmtByte, hg, State.rekey_dies]
  · refine State.byteAt_congr key a (s.rekey_dies key l) (by rw [State.rekey_lineKey, if_neg ha]) fun b hb => ?_
    unfold State.rekey
    split
    · rfl
    · split
      · rfl
      · have hout : ¬ (64 * l ≤ b ∧ b < 64 * l + (s.bytesAt key (64 * l) 64).length) := by
          rw [State.bytesAt_length]; simp only [lineOf] at ha hb; omega
        rw [Memory.read_writeBytes _ _ _ _ h, if_neg hout]

/-- Lines brought under a key: the key that each has then, and what is read under it. -/
theorem State.rekeys (key : Key) (ls : List Nat) (s : State) (h : MemOk s) :
    (ls.foldl (fun s l => s.rekey key l) s).dies = s.dies ∧
    (∀ m, aget (ls.foldl (fun s l => s.rekey key l) s).lineKey m = if m ∈ ls then some key else aget s.lineKey m) ∧
    ∀ a, (ls.foldl (fun s l => s.rekey key l) s).byteAt key a = s.byteAt key a := by
  induction ls generalizing s with
  | nil => simp
  | cons l ls ih =>
    obtain ⟨hd, hk, hb⟩ := ih _ (s.rekey_memOk key l h)
    refine ⟨hd.trans (s.rekey_dies key l), fun m => ?_, fun a => (hb a).trans (State.rekey_byteAt key l a h)⟩
    rw [List.foldl_cons, hk, State.rekey_lineKey]
    by_cases h1 : m ∈ ls <;> by_cases h2 : m = l <;> simp [h1, h2]

theorem mem_linesOf {pa n a : Nat} (h : ∃ b, pa ≤ b ∧ b < pa + n ∧ lineOf b = lineOf a) : lineOf a ∈ linesOf pa n := by
  obtain ⟨b, h1, h2, h3⟩ := h
  rw [linesOf, if_neg (by omega), List.mem_map]
  simp only [lineOf] at *
  exact ⟨a / 64 - pa / 64, by rw [List.mem_range]; omega, by omega⟩

/-- Bytes written under a key are the bytes that the key reads there, and every other byte reads under it as before. -/
theorem State.putBytes_byteAt {s : State} (key : Key) (pa : Nat) (bs : List Byte) (a : Nat) (h : MemOk s)
    (hg : ∀ b, pa ≤ b → b < pa + bs.length → inMgmt b = false) :
    (s.putBytes key pa bs).byteAt key a = if pa ≤ a ∧ a < pa + bs.length then bs.getD (a - pa) 0 else s.byteAt key a := by
  obtain ⟨s1, hs1, hd, hok, hk, hb⟩ : ∃ s1, (if inStack pa then (linesOf pa bs.length).foldl (fun s l => s.rekey key l) s else s) = s1 ∧
      s1.dies = s.dies ∧ MemOk s1 ∧ (inStack pa = true → ∀ m ∈ linesOf pa bs.length, aget s1.lineKey m = some key) ∧
      ∀ a, s1.byteAt key a = s.byteAt key a := by
    refine ⟨_, rfl, ?_⟩
    split
    · obtain ⟨hd, hk, hb⟩ := State.rekeys key (linesOf pa bs.length) s h
      exact ⟨hd, State.rekeys_memOk key _ s h, fun _ m hm => by rw [hk, if_pos hm], hb⟩
    · next hn => exact ⟨rfl, h, fun hp => absurd hp hn, fun _ => rfl⟩
  have hread (b : Nat) : Memory.read (s.putBytes key pa bs).mem b =
      if pa ≤ b ∧ b < pa + bs.length then bs.getD (b - pa) 0 else Memory.read s1.mem b := by
    rw [← Memory.read_writeBytes bs s1.mem pa b hok, State.putBytes, hs1]
    rfl
  have hkey : (s.putBytes key pa bs).lineKey = s1.lineKey := by rw [State.putBytes, hs1]; rfl
  have hdies : (s.putBytes key pa bs).dies = s1.dies := by rw [State.putBytes, hs1]; rfl
  have hdown {b : Nat} (hp : pa ≤ b) (hi : inStack b = true) : inStack pa = true := by
    simp only [inStack, decide_eq_true_eq] at hi ⊢; omega
  by_cases ha : pa ≤ a ∧ a < pa + bs.length
  · have hlk : inStack a = true → aget (s.putBytes key pa bs).lineKey (lineOf a) = some key := fun hi => by
      rw [hkey]
      exact hk (hdown ha.1 hi) _ (mem_linesOf ⟨a, ha.1, ha.2, rfl⟩)
    rw [State.byteAt_keyed (hg a ha.1 ha.2) hlk, hread, if_pos ha, if_pos ha]
  · rw [if_neg ha, ← hb a]
    by_cases hmeet : ∃ b, pa ≤ b ∧ b < pa + bs.length ∧ lineOf b = lineOf a
    · cases hm : inMgmt a
      · have hlk : inStack a = true → aget s1.lineKey (lineOf a) = some key := fun hi => by
          obtain ⟨b, h1, h2, h3⟩ := hmeet
          refine hk (hdown h1 ?_) _ (mem_linesOf ⟨b, h1, h2, h3⟩)
          simp only [inStack, lineOf, decide_eq_true_eq] at hi h3 ⊢; omega
        rw [State.byteAt_keyed hm hlk, State.byteAt_keyed hm (by rwa [hkey]), hread, if_neg ha]
      · simp [State.byteAt, State.mgmtByte, hm, hdies]
    · refine State.byteAt_congr key a hdies (by rw [hkey]) fun b hl => ?_
      rw [hread, if_neg fun hr => hmeet ⟨b, hr.1, hr.2, hl⟩]

theorem bytesToNat_natToBytes (n v : Nat) : bytesToNat (natToBytes n v) = v % 256 ^ n := by
  induction n generalizing v with
  | zero => simp [natToBytes, bytesToNat, Nat.mod_one]
  | succ n ih =>
    have hpow : 256 ^ (n + 1) = 256 * 256 ^ n := Nat.pow_succ'
    rw [natToBytes, bytesToNat, ih, hpow, Nat.mod_mul, BitVec.toNat_ofNat]

@[simp] theorem natToBytes_length (n v : Nat) : (natToBytes n v).length = n := by
  induction n generalizing v with
  | zero => rfl
  | succ n ih => simp [natToBytes, ih]

section
variable {s : State} {key : Key} {pa n v : Nat} (h : MemOk s) (hg : ∀ b, pa ≤ b → b < pa + n → inMgmt b = false)
include h hg

theorem State.putNum_byteAt (a : Nat) :
    (s.putNum key pa n v).byteAt key a = if pa ≤ a ∧ a < pa + n then (natToBytes n v).getD (a - pa) 0 else s.byteAt key a := by
  have := State.putBytes_byteAt key pa (natToBytes n v) a h (by simpa using hg)
  rwa [natToBytes_length] at this

/-- A number written under a key is the number that the key reads. -/
theorem State.putNum_numAt_self (hv : v < 256 ^ n) : (s.putNum key pa n v).numAt key pa n = v := by
  have hb : (s.putNum key pa n v).bytesAt key pa n = natToBytes n v := by
    refine List.ext_getElem (by simp) fun i h1 h2 => ?_
    have hi : i < n := by simpa using h1
    simp [State.bytesAt, State.putNum_byteAt h hg, hi]
  rw [State.numAt, hb, bytesToNat_natToBytes, Nat.mod_eq_of_lt hv]

/-- Every number beside the one written reads as before. -/
theorem State.putNum_numAt_other {b m : Nat} (hd : b + m ≤ pa ∨ pa + n ≤ b) : (s.putNum key pa n v).numAt key b m = s.numAt key b m := by
  refine congrArg bytesToNat (List.map_congr_left fun i hi => ?_)
  have hi := List.mem_range.mp hi
  rw [State.putNum_byteAt h hg, if_neg (by omega)]

end

theorem State.numAt_lt (s : State) (key : Key) (pa n : Nat) : s.numAt key pa n < 256 ^ n := by
  simpa [State.numAt] using bytesToNat_lt (s.bytesAt key pa n)

end Sys2Proof.Machine
end

section
open Sys2Proof.Cert
namespace Sys2Proof.Machine

/-! ### What translations and stores leave of a sequencer -/

/-- The regions, the turn, and a sequencer without its cached translations. -/
def State.running (s : State) (q : BitVec 7) := (s.regions, s.seqTurn, { s.seq q with tlb := [] })

theorem State.running_of_bare {s t : State} (q : BitVec 7) (h : t.bare = s.bare) : t.running q = s.running q :=
  show t.bare.running q = s.bare.running q by rw [h]

/-- A translation changes cached translations alone (R327). -/
theorem State.xlate_running (s : State) (q : BitVec 7) (right : Right) (va : Word64) :
    (s.xlate q right va).2.running q = s.running q := by
  have put (l1 l2 : List TlbEntry) :
      ((s.setSeq q { s.seq q with tlb := l1 }).modDie (seqDie q) (fun x => { x with tlb := l2 })).running q = s.running q := by
    simp [State.running]
  unfold State.xlate
  dsimp only
  split
  · rfl
  · split
    · rfl
    · rfl
    · split
      · exact put _ _
      · split
        · exact put _ _
        · exact put _ _

theorem State.flush_bare (s : State) (q : BitVec 7) : (s.flush q).bare = s.bare :=
  State.performWrites_bare _ { s with pend := _ } fun r hr => ⟨q, by simpa using (List.mem_filter.mp hr).2⟩

@[simp] theorem State.flush_running (s : State) (q p : BitVec 7) : (s.flush q).running p = s.running p :=
  State.running_of_bare p (s.flush_bare q)

@[simp] theorem State.settle_running (s : State) (a : Agent) (q : BitVec 7) : (s.settle a).running q = s.running q :=
  State.running_of_bare q (s.settle_bare a)

theorem State.seqTurn_of_running {s t : State} {q : BitVec 7} (h : t.running q = s.running q) : t.seqTurn = s.seqTurn :=
  congrArg (fun v => v.2.1) h

theorem State.regions_of_running {s t : State} {q : BitVec 7} (h : t.running q = s.running q) : t.regions = s.regions :=
  congrArg Prod.fst h

theorem State.pc_of_running {s t : State} {q : BitVec 7} (h : t.running q = s.running q) : (t.seq q).pc = (s.seq q).pc :=
  congrArg (fun v => v.2.2.pc) h

theorem State.g_of_running {s t : State} {q : BitVec 7} (h : t.running q = s.running q) : (t.seq q).g = (s.seq q).g :=
  congrArg (fun v => v.2.2.g) h

/-! ### The states that a sequencer's access comes upon (R128, R142, R352) -/

theorem mayAccess_of_mayIssue {s : State} (h : mayIssue s) : s.mayAccess (me s) = true := by
  obtain ⟨hacq, hpend⟩ := h
  simp [State.mayAccess, hacq, hpend]

theorem storesCross_of_storesPass {s : State} (h : storesPass s) : s.storesCross s.seqTurn = true := by
  simp only [State.storesCross, State.pendOf, List.all_eq_true, List.mem_filter, decide_eq_true_eq, beq_iff_eq]
  exact fun r hr => h r hr.1 hr.2

/-- The state that an access comes upon has the regions, the turn and the sequencer of the state before. -/
theorem running_of_reaches {s s1 : State} {right : Right} {n : Nat} {va : Word64} {x : Xlated} (h : reaches s s1 right n va x) :
    s1.running s.seqTurn = s.running s.seqTurn := by
  obtain ⟨-, ⟨s0, hx, rfl⟩, -, -⟩ := h
  have h0 := s.xlate_running s.seqTurn right va
  rw [hx] at h0
  exact (s0.settle_running _ _).trans h0

/-- An access to one address that reaches memory is its body there (R142, R403). -/
theorem accessAll_of_reaches {s s1 : State} {right : Right} {n : Nat} {va : Word64} {x : Xlated} (h : reaches s s1 right n va x)
    (body : State → List Xlated → Result) : s.accessAll right n [va] body = body s1 [x] := by
  have hturn := State.seqTurn_of_running (running_of_reaches h)
  obtain ⟨hal, ⟨s0, hx, rfl⟩, hpath, hpoison⟩ := h
  have h0 : s0.seqTurn = s.seqTurn := (State.seqTurn_of_running (q := s.seqTurn) (s0.settle_running _ _)).symm.trans hturn
  have hall : s.xlateAll s.seqTurn right [va] = (.ok [x], s0) := by simp [State.xlateAll, hx]
  rw [State.accessAll_ok body (by simp [hal]) hall (by simpa using hpath)]
  · rw [settled, h0]
  · by_cases hr : right = .w
    · exact .inl hr
    · rw [settled, h0] at hpoison
      exact .inr (by simp [State.poisonedAt, hpoison hr])

/-! ### `launch` (R159) -/

theorem State.dwordAt_toNat (s : State) (key : Key) (pa : Nat) : (s.dwordAt key pa).toNat = s.numAt key pa 8 := by
  rw [State.dwordAt, BitVec.toNat_ofNat]
  exact Nat.mod_eq_of_lt (s.numAt_lt key pa 8)

theorem exec_launch (a : BitVec 5) (q : BitVec 3) (s : State) : exec (.launch a q) s = execLaunch a q s := rfl

/-- The request of a launch descriptor as it reads: its double-words with OP 0 (R159). -/
def launchRequest (s : State) (x : Xlated) (ctx : BitVec 9) (va : Word64) : QDesc :=
  { desc := .virt ctx va, ticket := none, sel := none,
    read := (bits (s.dwordAt x.key x.pa) 8 56 ++ (0 : BitVec 8)) :: (List.range 7).map (fun i => s.dwordAt x.key (x.pa + 8 * (i + 1))) }

theorem launchRequest_eq (s : State) (x : Xlated) (ctx : BitVec 9) (va : Word64) : launchRequest s x ctx va =
    { desc := .virt ctx va, ticket := none, sel := none,
      read := BitVec.ofNat 64 (s.numAt x.key (x.pa + 8 * 0) 8 / 256 * 256) ::
        (List.range 7).map (fun i => BitVec.ofNat 64 (s.numAt x.key (x.pa + 8 * (i + 1)) 8)) } := by
  have h0 : (bits (s.dwordAt x.key x.pa) 8 56 ++ (0 : BitVec 8) : Word64) = BitVec.ofNat 64 (s.numAt x.key x.pa 8 / 256 * 256) := by
    have hv := s.numAt_lt x.key x.pa 8
    have hd := s.dwordAt_toNat x.key x.pa
    apply BitVec.eq_of_toNat_eq
    rw [BitVec.toNat_append, bits, BitVec.extractLsb'_toNat, hd]
    simp [Nat.shiftRight_eq_div_pow, Nat.shiftLeft_eq]
    omega
  rw [launchRequest, h0]
  rfl

theorem execLaunch_reads {s s1 : State} {a : BitVec 5} {q : BitVec 3} {x : Xlated} (hg : guardOn s q 0) (hi : mayIssue s)
    (hp : storesPass s) (hx : reaches s s1 .r 64 (reg s a) x) :
    exec (.launch a q) s =
      let s2 := s1.flush s.seqTurn
      let s3 := s2.enqueueDesc (bits (s2.dwordAt x.key x.pa) 17 3) 0 (launchRequest s2 x (me s).ctx (reg s a))
      s3.goOn (s3.seq s.seqTurn) := by
  have hturn := State.seqTurn_of_running (running_of_reaches hx)
  rw [exec_launch, execLaunch, guarded_true _ (guardHolds_of_guardOn hg)]
  have hal : ¬ (reg s a).toNat % 64 ≠ 0 := not_not_intro hx.1
  refine (if_neg hal).trans ((if_neg ?_).trans (accessAll_of_reaches hx _))
  show ¬ ((!s.mayAccess (me s) || !s.storesCross s.seqTurn) = true)
  rw [mayAccess_of_mayIssue hi, storesCross_of_storesPass hp]
  decide

/-- `launch` puts its request behind those of the launch engine that the descriptor names. -/
theorem launch_requests {s s1 : State} {a : BitVec 5} {q : BitVec 3} {x : Xlated} (hg : guardOn s q 0) (hi : mayIssue s)
    (hp : storesPass s) (hx : reaches s s1 .r 64 (reg s a) x) :
    let s2 := s1.flush s.seqTurn
    let d := BitVec.ofNat 3 (s2.numAt x.key x.pa 8 / 2 ^ 17)
    ∃ t, exec (.launch a q) s = .next t ∧ t.mem = s2.mem ∧ t.seq s.seqTurn = { me s1 with pc := (me s).pc + 4 } ∧
      (t.die d).engq[(0 : Fin 6)] = (s2.die d).engq[(0 : Fin 6)] ++ [launchRequest s2 x (me s).ctx (reg s a)] := by
  intro s2 d
  have hrun := running_of_reaches hx
  have hturn := State.seqTurn_of_running hrun
  have hturn2 : s2.seqTurn = s.seqTurn := (State.seqTurn_of_running (State.flush_running s1 s.seqTurn s.seqTurn)).trans hturn
  have hseq2 : s2.seq s.seqTurn = me s1 := by
    show s2.bare.seq s.seqTurn = s1.seq s1.seqTurn
    rw [State.flush_bare, hturn]
    rfl
  have hd : bits (s2.dwordAt x.key x.pa) 17 3 = d := by
    apply BitVec.eq_of_toNat_eq
    rw [bits, BitVec.extractLsb'_toNat, State.dwordAt_toNat, Nat.shiftRight_eq_div_pow, BitVec.toNat_ofNat]
  refine ⟨_, execLaunch_reads hg hi hp hx, rfl, ?_, ?_⟩
  · show (State.setSeq _ s2.seqTurn _).seq s.seqTurn = _
    rw [hturn2, State.setSeq_seq_self]
    show (s2.seq s.seqTurn).advance = _
    rw [hseq2, Seq.advance, show (me s).pc = (me s1).pc from (State.pc_of_running hrun).symm.trans (by rw [me, hturn])]
  · rw [hd]
    show ((s2.enqueueDesc d 0 (launchRequest s2 x (me s).ctx (reg s a))).die d).engq[(0 : Fin 6)] = _
    simp [State.enqueueDesc]

/-! ### `statf` (R100) -/

theorem exec_statf (a : BitVec 5) (q : BitVec 3) (s : State) : exec (.statf a q) s = execStatf a q s := rfl

/-- The stores of a table leave the regions and the sequencer (R147). -/
theorem State.storeStats_running (q : BitVec 7) (va : Word64) (l : List (List Byte)) (i : Nat) (s : State) :
    (s.storeStats q va i l).1.running q = s.running q := by
  induction l generalizing s i with
  | nil => rfl
  | cons bs l ih =>
    unfold State.storeStats
    dsimp only
    have hx := s.xlate_running q .w (va + BitVec.ofNat 64 (32 * i))
    split
    · next e => rw [e] at hx; exact hx
    · next s1 e =>
      rw [e] at hx
      refine (ih _ _).trans (Eq.trans ?_ hx)
      show State.running (if _ then s1.flush q else s1) q = _
      split
      · exact s1.flush_running q q
      · rfl

theorem statEntries_length (l : List StatEntry) : (statEntries l).length = 65 := by simp [statEntries]

/-- Each entry of a statistics table has 32 bytes (R99). -/
theorem length_of_mem_statEntries {l : List StatEntry} {e : List Byte} (h : e ∈ statEntries l) : e.length = 32 := by
  obtain ⟨i, -, rfl⟩ := List.mem_map.mp h
  cases l[i]? <;> simp [statEntryBytes]

section
variable {s : State} {a : BitVec 5} {q : BitVec 3} {r : Region} (ho : open_ s q) (hr : s.regionOfSeq s.seqTurn = some r)
include ho hr

theorem execStatf_otherMode (hm : r.launch.cmode = false) (hc : canTrap s) : exec (.statf a q) s = .next (trapped s 23 0) := by
  rw [exec_statf, execStatf, regionGuarded_open ho, hr]
  dsimp only
  rw [hm]
  exact State.trap_canTrap hc _ _

/-- `statf` of a table that can be stored takes it, stores it and goes on. -/
theorem execStatf_stores (hm : r.launch.cmode = true) (hal : (reg s a).toNat % 64 = 0) (hi : mayIssue s) (hp : storesPass s)
    (hup : ∀ w ∈ s.statPaths s.seqTurn (reg s a), w = .up) {t : State}
    (ht : (s.modRegion r.serial (fun r => { r with stats := [] })).storeStats s.seqTurn (reg s a) 0 (statEntries r.stats) = (t, none)) :
    exec (.statf a q) s = t.goOn (t.seq s.seqTurn) := by
  have hways (w : PathState) (hw : w ≠ .up) : (s.statPaths s.seqTurn (reg s a)).any (fun v => v == w) = false := by
    simp only [List.any_eq_false, beq_iff_eq]
    exact fun v hv e => hw (e.symm.trans (hup v hv))
  rw [exec_statf, execStatf, regionGuarded_open ho, hr]
  simp only [hm, show (me s).readG a = reg s a from rfl, hal, mayAccess_of_mayIssue hi, storesCross_of_storesPass hp,
    hways .broken (by decide), hways .down (by decide), ht]
  rfl

end

end Sys2Proof.Machine
end

section
open Sys2Proof.Cert
namespace Sys2Proof.Machine

/-! ### The adders of the statistics network (R96, R97) -/

theorem exec_statAdderMerge (n : Nat) (x y : BitVec 4) (s : State) : exec (.statAdderMerge n x y) s = execStatAdderMerge n x y s := rfl

/-- The oldest token of each cell of a list taken. -/
def State.takeStats (s : State) (l : List CellId) : State := l.foldl (fun s c => s.modCell c (fun z => { z with stat := z.stat.tail })) s

theorem State.takeStats_mem (s : State) (l : List CellId) : (s.takeStats l).mem = s.mem := by
  refine foldl_keeps State.mem (fun _ _ => ?_) l s
  rfl

theorem State.takeStats_regions (s : State) (l : List CellId) : (s.takeStats l).regions = s.regions := by
  refine foldl_keeps State.regions (fun _ _ => ?_) l s
  rfl

/-- A cell that is listed once loses its oldest token, and no other cell does. -/
theorem State.takeStats_stat {l : List CellId} (h : l.Nodup) (s : State) (c : CellId) :
    ((s.takeStats l).cell c).stat = if c ∈ l then (s.cell c).stat.tail else (s.cell c).stat := by
  induction l generalizing s with
  | nil => rfl
  | cons b l ih =>
    obtain ⟨hb, hl⟩ := List.nodup_cons.mp h
    have hstep : (s.takeStats (b :: l)) = (s.modCell b (fun z => { z with stat := z.stat.tail })).takeStats l := rfl
    rw [hstep, ih hl, State.modCell_cell]
    by_cases hc : c = b
    · simp [hc, hb]
    · simp [hc]

/-- The cells of a block of a region. -/
def State.blockCells (s : State) (r : Region) (x y : BitVec 4) : List CellId :=
  (s.cellsOf r).filter (fun c => decide (c.x = r.x + x ∧ c.y = r.y + y))

/-- The adder of a block that is not the root's sends the sum of its cells' tokens toward the root (R97). -/
theorem execStatAdderMerge_adds {s : State} {n : Nat} {x y : BitVec 4} {r : Region} {c0 : CellId} {u : CountTok} {us : List CountTok}
    (hr : s.region n = some r) (hroot : r.statRoot = some c0) (hn : ¬ (c0.x = r.x + x ∧ c0.y = r.y + y))
    (ht : (s.blockCells r x y).filterMap (fun c => (s.cell c).stat.head?) = u :: us) :
    exec (.statAdderMerge n x y) s = .next ((s.takeStats (s.blockCells r x y)).setRegion
      { r with toks := r.toks ++ [((x, y), us.foldl CountTok.add u)] }) := by
  have hn' : (c0.x == r.x + x && c0.y == r.y + y) = false := by simpa using hn
  rw [exec_statAdderMerge, execStatAdderMerge, hr]
  dsimp only
  rw [show (s.cellsOf r).filter _ = s.blockCells r x y from rfl, ht, hroot]
  simp only [Option.map_some, hn', Option.getD_some, Bool.false_eq_true, if_false, List.map_nil, List.append_nil, sumTokens,
    Region.sumOut, hn]
  rfl

/-! ### The root of the statistics network (R209) -/

theorem exec_statRootAdd (n : Nat) (s : State) : exec (.statRootAdd n) s = execStatRootAdd n s := rfl

/-- A count added into its field of the record at an address: 32 bits, saturating. -/
def State.addCount (s : State) (x : Xlated) (off v : Nat) : State :=
  s.putNum x.key (x.pa + off) 4 (satNat 32 (s.numAt x.key (x.pa + off) 4 + v))

section
variable {s : State} {x : Xlated} (h : MemOk s) (hw : inStack x.pa = true ∨ inHost x.pa = true)
include hw

/-- A record in stacked memory or in the HOST window meets no byte of the management block. -/
theorem record_not_inMgmt {off n : Nat} (hn : off + n ≤ 64) : ∀ b, x.pa + off ≤ b → b < x.pa + off + n → inMgmt b = false := by
  intro b h1 h2
  simp only [inStack, inHost, decide_eq_true_eq] at hw
  simp only [inMgmt, decide_eq_false_iff_not]
  omega

include h

theorem State.addCount_self {off v : Nat} (hn : off + 4 ≤ 64) :
    (s.addCount x off v).numAt x.key (x.pa + off) 4 = min (s.numAt x.key (x.pa + off) 4 + v) (2 ^ 32 - 1) :=
  State.putNum_numAt_self h (record_not_inMgmt hw hn) (by rw [satNat]; omega)

theorem State.addCount_other {off v b : Nat} (hn : off + 4 ≤ 64) (hd : b + 4 ≤ off ∨ off + 4 ≤ b) :
    (s.addCount x off v).numAt x.key (x.pa + b) 4 = s.numAt x.key (x.pa + b) 4 :=
  State.putNum_numAt_other h (record_not_inMgmt hw hn) (by omega)

theorem State.addCount_byteAt {off v k : Nat} (hn : off + 4 ≤ 22) (hk : k < x.pa ∨ x.pa + 22 ≤ k) :
    (s.addCount x off v).byteAt x.key k = s.byteAt x.key k := by
  rw [State.addCount, State.putNum_byteAt h (record_not_inMgmt hw (by omega)), if_neg (by omega)]

end

/-- The counts of a list added, each into its field. -/
def State.addCounts (s : State) (x : Xlated) (l : List (Nat × Nat)) : State := l.foldl (fun s p => s.addCount x p.1 p.2) s

/-- Fields of a record of 22 bytes that do not meet. -/
def apartFields (l : List (Nat × Nat)) : Prop := (∀ p ∈ l, p.1 + 4 ≤ 22) ∧ l.Pairwise (fun p q => p.1 + 4 ≤ q.1)

/-- Counts added into fields that do not meet: each field holds its sum, and no byte beside the record changes. -/
theorem State.addCounts_spec {x : Xlated} (hw : inStack x.pa = true ∨ inHost x.pa = true) (l : List (Nat × Nat)) (s : State)
    (hl : apartFields l) (h : MemOk s) :
    MemOk (s.addCounts x l) ∧
    (∀ p ∈ l, (s.addCounts x l).numAt x.key (x.pa + p.1) 4 = min (s.numAt x.key (x.pa + p.1) 4 + p.2) (2 ^ 32 - 1)) ∧
    (∀ b, (∀ p ∈ l, b + 4 ≤ p.1) → (s.addCounts x l).numAt x.key (x.pa + b) 4 = s.numAt x.key (x.pa + b) 4) ∧
    ∀ k, (k < x.pa ∨ x.pa + 22 ≤ k) → (s.addCounts x l).byteAt x.key k = s.byteAt x.key k := by
  induction l generalizing s with
  | nil => exact ⟨h, by simp, fun _ _ => rfl, fun _ _ => rfl⟩
  | cons p l ih =>
    obtain ⟨hfit, hpair⟩ := hl
    obtain ⟨hp, hpair⟩ := List.pairwise_cons.mp hpair
    have hp22 : p.1 + 4 ≤ 22 := hfit p List.mem_cons_self
    have h1 : MemOk (s.addCount x p.1 p.2) := s.putNum_memOk _ _ _ _ h
    obtain ⟨hok, hin, hbelow, hout⟩ := ih _ ⟨fun q hq => hfit q (List.mem_cons_of_mem _ hq), hpair⟩ h1
    refine ⟨hok, fun q hq => ?_, fun b hb => ?_, fun k hk => ?_⟩
    · obtain rfl | hq := List.mem_cons.mp hq
      · exact (hbelow q.1 hp).trans (State.addCount_self h hw (by omega))
      · refine (hin q hq).trans ?_
        rw [State.addCount_other h hw (by omega) (.inr (hp q hq))]
    · refine (hbelow b fun q hq => hb q (List.mem_cons_of_mem _ hq)).trans ?_
      exact State.addCount_other h hw (by omega) (.inl (hb p List.mem_cons_self))
    · exact (hout k hk).trans (State.addCount_byteAt h hw hp22 hk)

/-- The counts of a token and the offsets of their fields in a statistics record (R209). -/
def CountTok.fields (u : CountTok) : List (Nat × Nat) := [(0, u.sat), (4, u.ftz), (8, u.nan), (12, u.narrow), (16, u.tiles)]

theorem CountTok.fields_apart (u : CountTok) : apartFields u.fields := by
  simp [apartFields, CountTok.fields]

/-- TENSOR of a record after a token (R209): that of the first, and 0xFFFF where tokens differ. -/
def State.addTensor (s : State) (x : Xlated) (t : BitVec 16) : State :=
  let old := s.numAt x.key (x.pa + 20) 2
  s.putNum x.key (x.pa + 20) 2 (if old = 0 then t.toNat else if old = t.toNat then old else 0xFFFF)

theorem State.rootAdd_none {s : State} {c : CellId} (hv : (s.cell c).active.prm[14] = 0) (u : CountTok) : s.rootAdd c u = .ok s :=
  if_pos hv

/-- A token added into a record that can be reached: its counts and its TENSOR. -/
theorem State.rootAdd_adds {s s2 : State} {c : CellId} {x : Xlated} (u : CountTok) (hv : (s.cell c).active.prm[14] ≠ 0)
    (hal : (s.cell c).active.prm[14].toNat % 64 = 0) (hx : s.xlateMp c .rw false (s.cell c).active.prm[14] = (.ok x, s2))
    (hp : s2.poisonIn x.pa 64 = none) : s.rootAdd c u = .ok ((s2.addCounts x u.fields).addTensor x u.tensor) := by
  refine (if_neg hv).trans ((if_neg (not_not_intro hal)).trans ?_)
  rw [hx]
  exact if_neg (by simp [hp])

/-- The oldest sum that has reached a root, where it is added. -/
theorem execStatRootAdd_ok {s t : State} {n : Nat} {r : Region} {c : CellId} {u : CountTok} {us : List CountTok}
    (hr : s.region n = some r) (hu : r.rootToks = u :: us) (hc : r.statRoot = some c)
    (ht : (s.setRegion { r with rootToks := us }).rootAdd c u = .ok t) : exec (.statRootAdd n) s = .next t := by
  rw [exec_statRootAdd, execStatRootAdd, hr]
  dsimp only
  split
  · next h1 h2 =>
    cases hu.symm.trans h1
    cases hc.symm.trans h2
    rw [ht]
  · next h => exact absurd hc (h u us c hu)

/-- Settles O34: a launch queues its request, `statf` stores a table and leaves the sequencer but for its turn, an adder sends its sum on,
and the counts of a token go into fields of the record that do not meet. -/
theorem launchAndStatistics : Obligations.LaunchAndStatistics := by
  refine ⟨fun s s1 a q x hg hi hp hx => ?_, fun s a q r ho hr hn => ⟨fun hm hal hi hp hup => ?_, execStatf_otherMode ho hr⟩,
    fun s n x y r c0 u us hr hroot hn => ?_, fun s n r c u us x hr hu hc => ⟨fun hv => ?_, fun hv hal s2 hx hp hok hw => ?_⟩⟩
  · intro s2 dw d
    obtain ⟨t, he, hmem, hseq, hq⟩ := launch_requests hg hi hp hx
    exact ⟨t, he, hmem, hseq, by rwa [launchRequest_eq] at hq⟩
  · intro u hu
    have hrun : u.1.running s.seqTurn = (s.modRegion r.serial (fun r => { r with stats := [] })).running s.seqTurn :=
      State.storeStats_running ..
    refine ⟨?_, (State.g_of_running hrun).trans rfl, ?_, statEntries_length _, fun e => length_of_mem_statEntries⟩
    · rw [execStatf_stores ho hr hm hal hi hp hup (t := u.1) (Prod.ext rfl hu), State.goOn_eq, State.pc_of_running hrun,
        State.seqTurn_of_running hrun]
      rfl
    · have hcleared : regionIs (s.modRegion r.serial (fun r => { r with stats := [] })) r.serial (fun y => y.stats = []) :=
        State.modRegion_regionIs (fun _ => rfl) hn rfl
      intro y hy
      refine hcleared y ?_
      rwa [State.region, State.regions_of_running hrun] at hy
  · intro here ht
    refine ⟨_, execStatAdderMerge_adds hr hroot hn ht, s.takeStats_mem _, ?_, fun hnd c hc => ?_⟩
    · obtain rfl := State.region_serial hr
      exact State.setRegion_regionIs _ (y := { r with toks := r.toks ++ [((x, y), us.foldl CountTok.add u)] }) ⟨rfl, rfl⟩
    · rw [State.setRegion_cell]
      exact (State.takeStats_stat hnd s c).trans (if_pos hc)
  · exact execStatRootAdd_ok hr hu hc (State.rootAdd_none (s := s.setRegion { r with rootToks := us }) hv u)
  · have hmem : s2.mem = s.mem := by
      have hb := State.xlateMp_beside (s.setRegion { r with rootToks := us }) c c .rw false (s.cell c).active.prm[14]
      rw [hx] at hb
      exact (State.store_of_beside hb).1
    obtain ⟨hok2, hin, -, hout⟩ := State.addCounts_spec hw u.fields s2 u.fields_apart (MemOk.of_mem hmem hok)
    refine ⟨_, execStatRootAdd_ok hr hu hc (State.rootAdd_adds u hv hal hx hp), fun p hpm => ?_, fun k hk => ?_⟩
    · have h22 : p.1 + 4 ≤ 20 := by
        revert p
        simp
      exact (State.putNum_numAt_other hok2 (record_not_inMgmt hw (by omega)) (by omega)).trans (hin p hpm)
    · refine Eq.trans ?_ (hout k hk)
      rw [State.addTensor, State.putNum_byteAt hok2 (record_not_inMgmt hw (by omega)), if_neg (by omega)]

end Sys2Proof.Machine
end

section
open Sys2Proof.Cert
namespace Sys2Proof.Machine

/-! ### Fields of words, and gap markers (R246, R395) -/

/-- A field of a word as a number. -/
theorem bits_toNat {w : Nat} (x : BitVec w) (lo n : Nat) : (bits x lo n).toNat = x.toNat / 2 ^ lo % 2 ^ n := by
  rw [bits, BitVec.extractLsb'_toNat, Nat.shiftRight_eq_div_pow]

/-- Further invocations change nothing else of a unit. -/
theorem withInvs_eq (u : Item) (is : List Inv) : ∃ i m, u.withInvs is = { u with inv := i, more := m } := by
  unfold Item.withInvs
  split
  · exact ⟨u.inv, u.more, rfl⟩
  · split
    · exact ⟨u.inv, _, rfl⟩
    · exact ⟨_, _, rfl⟩

theorem isMarker_withInvs {m : Item} {event cause : Nat} {comp : Bool} {lost first last : Nat} (is : List Inv)
    (h : isMarker m event cause comp lost first last) : isMarker (m.withInvs is) event cause comp lost first last := by
  obtain ⟨i, k, e⟩ := withInvs_eq m is
  rw [e]
  exact h

/-- The payload of a gap marker as a number: its fields, each at its place (R246). -/
theorem gapPayload_toNat (lost : Nat) (first last : BitVec 28) (cause : BitVec 4) (comp : Bool) (event : BitVec 2) (span : Bool)
    (qid : Word32) : (gapPayload lost first last cause comp event span qid).toNat =
      ((((((qid.toNat * 2 ^ 24 * 2 ^ 1 + span.toNat) * 2 ^ 2 + event.toNat) * 2 ^ 1 + comp.toNat) * 2 ^ 4 + cause.toNat) * 2 ^ 4 * 2 ^ 28 + last.toNat) *
        2 ^ 4 * 2 ^ 28 + first.toNat) * 2 ^ 32 + min lost 0xFFFFFFFF := by
  have hl : min lost (2 ^ 32 - 1) % 2 ^ 32 = min lost 0xFFFFFFFF := by omega
  rw [gapPayload, BitVec.toNat_setWidth_of_le (by decide)]
  simp only [toNat_append_eq_add, BitVec.ofNat_eq_ofNat, BitVec.toNat_ofNat, BitVec.toNat_ofBool, Nat.zero_mod, satNat, hl]
  omega

theorem isMarker_gapItem (lost : Nat) (first last : BitVec 28) (cause : BitVec 4) (comp : Bool) (event : BitVec 2) (span : Bool)
    (qid : Word32) (nest : BitVec 4) (inv : Option Inv) :
    isMarker (gapItem lost first last cause comp event span qid nest inv) event.toNat cause.toNat comp lost first.toNat last.toNat := by
  have hp := gapPayload_toNat lost first last cause comp event span qid
  have h1 := first.isLt
  have h2 := last.isLt
  have h3 := cause.isLt
  have h4 := event.isLt
  have h5 : comp.toNat < 2 := comp.toNat_lt
  have h6 : span.toNat < 2 := span.toNat_lt
  have hc : (gapPayload lost first last cause comp event span qid).getLsbD 100 = comp := by
    rw [BitVec.getLsbD, Nat.testBit_eq_decide_div_mod_eq, hp]
    cases comp <;> simp at * <;> omega
  refine ⟨rfl, rfl, rfl, rfl, rfl, rfl, ?_, ?_, hc, ?_, ?_, ?_⟩
  all_goals
    show (BitVec.extractLsb' _ _ (gapPayload lost first last cause comp event span qid)).toNat = _
    rw [BitVec.extractLsb'_toNat, Nat.shiftRight_eq_div_pow, hp]
    omega

theorem isMarker_unitGap (cause : BitVec 4) (qid : Word32) (u : Item) :
    isMarker (unitGap cause qid u) 0 cause.toNat false 1 u.tag.seq.toNat u.tag.seq.toNat :=
  isMarker_withInvs _ (isMarker_gapItem ..)

theorem unitGap_nest (cause : BitVec 4) (qid : Word32) (u : Item) : (unitGap cause qid u).tag.nest = u.tag.nest := by
  obtain ⟨i, k, e⟩ := withInvs_eq (gapItem 1 u.tag.seq u.tag.seq cause false 0 false qid u.tag.nest u.inv) u.invs
  rw [unitGap, e]
  rfl

theorem unitGap_isData (cause : BitVec 4) (qid : Word32) (u : Item) : (unitGap cause qid u).isData = false := by
  have hk : (unitGap cause qid u).tag.kind = 1 := (isMarker_unitGap cause qid u).1
  rw [Item.isData, hk]
  rfl

end Sys2Proof.Machine

end

section
open Sys2Proof.Cert
namespace Sys2Proof.Machine

/-! ### A DATA unit at a SHEDDING queue (R238) -/

theorem firstFault_none (f : Option Nat) : firstFault none f = f := rfl

/-- At a SHEDDING queue with an empty ring, a DATA unit goes to the policies. -/
theorem Queue.arrive_shedding {q : Queue} {u : Item} (hs : q.state = .shedding) (hr : q.ring = []) (hd : u.isData = true) (qid : Word32) :
    q.arrive qid u = q.shed qid u none := by
  simp [Queue.arrive, hs, hr, hd]

/-- A unit that leaves its queue above LOW is the end of its offer (R231, R232). -/
theorem Queue.offer_of_high {q : Queue} {qid : Word32} {u : Item} (h : (q.arrive qid u).q.low < (q.arrive qid u).q.occ) :
    q.offer qid u = q.arrive qid u := by
  have hl : (q.arrive qid u).q.canLeave = false := by simp [Queue.canLeave, Nat.not_le.mpr h]
  simp [Queue.offer, hl]

/-- What the primary policy makes of a unit that it can act on. -/
theorem Queue.shed_primary {q : Queue} {qid : Word32} {u : Item} {f : Offered} (h : (q.apply qid false q.pri u).1 = some f) :
    q.shed qid u none = f := by
  unfold Queue.shed
  split
  · next e => rw [e] at h; cases h; rfl
  · next e => rw [e] at h; cases h

/-- What the fallback makes of a unit that the primary policy cannot act on. -/
theorem Queue.shed_fallback {q q1 : Queue} {qid : Word32} {u : Item} {f : Offered} (h : q.apply qid false q.pri u = (none, q1, none))
    (h1 : (q1.apply qid true q1.fb u).1 = some f) : q.shed qid u none = f := by
  unfold Queue.shed
  rw [h]
  dsimp only
  split
  · next e => rw [e] at h1; cases h1; rfl
  · next e => rw [e] at h1; cases h1

/-- The entry of a DATA unit in data slots (R228). -/
def Queue.stored (q : Queue) (u : Item) : QEntry := ⟨{ u with v0 := q.slotPayload true u.v0, v1 := u.v1.map (q.slotPayload true) }, true⟩

theorem Queue.enqueue_eq {u : Item} (h : u.isData = true) (q : Queue) : q.enqueue u = { q with entries := q.entries ++ [q.stored u] } := by
  rw [Queue.enqueue, h]
  rfl

/-- A unit compensated with no entry for it (R238). -/
def Offered.compensates (q : Queue) (f : Offered) : Prop := f.out = .compensated ∧ f.fault = none ∧ f.q.entries = q.entries ∧ f.q.lost = q.lost

/-- A unit kept as one entry behind the others, with a count of compensated units (R238). -/
def Offered.keeps (q : Queue) (f : Offered) (v : Item) (n : Nat) : Prop :=
  f.out = .kept ∧ f.fault = none ∧ f.q.entries = q.entries ++ [q.stored v] ∧ f.q.comp.toNat = min n 0xFFFFFFFF ∧ f.q.lost = q.lost

theorem ofNat_satNat_toNat (n : Nat) : (BitVec.ofNat 32 (satNat 32 n)).toNat = min n 0xFFFFFFFF := by
  rw [BitVec.toNat_ofNat, satNat]
  omega

theorem Queue.countComp_comp (q : Queue) (n : Nat) : (q.countComp n).comp.toNat = min (q.comp.toNat + n) 0xFFFFFFFF := ofNat_satNat_toNat _

/-- A unit enqueued with no unit compensated. -/
theorem Queue.enqueue_keeps {u : Item} (h : u.isData = true) (q : Queue) : Offered.keeps q ⟨q.enqueue u, .kept, none, 0⟩ u q.comp.toNat := by
  have := q.comp.isLt
  rw [Queue.enqueue_eq h]
  exact ⟨rfl, rfl, rfl, by show q.comp.toNat = _; omega, rfl⟩

/-! #### DROPT (R238, R239, R245) -/

/-- A token in a reserve entry (R230). -/
theorem Queue.place_reserve {q : Queue} (hr : q.ring = []) (ht : q.tokens < 8) (u : Item) :
    q.place u = ({ q with entries := q.entries ++ [⟨u, false⟩] }, none) := by
  simp [Queue.place, Queue.keep, hr, ht]

/-- What is left of a queue that loses a unit with room for its marker. -/
def Queue.lost1 (q : Queue) (qid : Word32) (u : Item) : Queue := { q.countLost 1 with entries := q.entries ++ [⟨unitGap 1 qid u, false⟩] }

theorem Queue.lose_eq {q : Queue} (hr : q.ring = []) (ht : q.tokens < 8) (qid : Word32) (u : Item) : q.lose qid u = (q.lost1 qid u, none) :=
  Queue.place_reserve (q := q.countLost 1) hr ht _

theorem Queue.applyDropt_eq {q : Queue} (hr : q.ring = []) (ht : q.tokens < 8) (qid : Word32) (isFb : Bool) (u : Item) :
    q.applyDropt qid isFb u = some ⟨q.lost1 qid u, .lost, if isFb && q.trap then some 0x15 else none, 0⟩ := by
  rw [Queue.applyDropt, Queue.lose_eq hr ht]
  rfl

/-- The units that a primary policy cannot act on (R239, R241 to R244). -/
def Queue.cannotAct (q : Queue) (u : Item) : Prop :=
  (q.pri = 2 ∧ ((q.entries.filter (fun e => e.item.isData)).map (fun e => e.item.slots)).sum < u.slots) ∨
  (q.pri = 5 ∧ u.v1.isSome = true) ∨
  (q.pri = 4 ∧ u.tag.domain ≠ 0 ∧ u.tag.domain.toNat ≠ q.qpar.toNat / 2 ^ 11 % 2 ^ 4) ∨
  (q.pri = 6 ∧ descPlane u.desc ≤ q.qpar.toNat / 2 ^ 18 % 2 ^ 3 ∧ q.free < 2) ∨
  (q.pri = 7 ∧ decide (u.slots ≤ q.free) = false ∧ q.ringFree < u.slots + 8)

theorem Queue.cannotAct_apply {q : Queue} {u : Item} (h : q.cannotAct u) (qid : Word32) : q.apply qid false q.pri u = (none, q, none) := by
  obtain ⟨hp, h⟩ | ⟨hp, h⟩ | ⟨hp, h0, hd⟩ | ⟨hp, hn, hf⟩ | ⟨hp, hf, hr⟩ := h
  · simp [Queue.apply, hp, Queue.applyDroph, h]
  · simp [Queue.apply, hp, Queue.applyMerge, h]
  · have hd : u.tag.domain ≠ 0 ∧ u.tag.domain ≠ bits q.qpar 11 4 := ⟨h0, fun e => hd (by rw [e, bits_toNat])⟩
    simp only [Queue.apply, hp, Queue.applyKsample, if_pos hd]
  · have hn : ¬ (bits q.qpar 18 3).toNat < descPlane u.desc := by rw [bits_toNat]; omega
    simp [Queue.apply, hp, Queue.applyNarrow, hn, hf]
  · have hf : ¬ u.slots ≤ q.free := by simpa using hf
    simp [Queue.apply, hp, Queue.applySpill, hf, Nat.not_le.mpr hr]

theorem Queue.shed_dropt {q : Queue} {u : Item} (hr : q.ring = []) (ht : q.tokens < 8) (h : q.pri = 1 ∨ (q.fb = 1 ∧ q.cannotAct u))
    (qid : Word32) :
    q.shed qid u none = ⟨q.lost1 qid u, .lost, if q.pri ≠ 1 ∧ q.trap = true then some 0x15 else none, 0⟩ := by
  obtain hp | ⟨hb, hc⟩ := h
  · refine Queue.shed_primary ?_
    simp [Queue.apply, hp, Queue.applyDropt_eq hr ht]
  · have hp : q.pri ≠ 1 := by
      obtain ⟨hp, -⟩ | ⟨hp, -⟩ | ⟨hp, -⟩ | ⟨hp, -⟩ | ⟨hp, -⟩ := hc <;> omega
    refine Queue.shed_fallback (Queue.cannotAct_apply hc qid) ?_
    simp [Queue.apply, hb, hp, Queue.applyDropt_eq hr ht]

theorem Queue.lost1_spec (q : Queue) (qid : Word32) (u : Item) : (q.lost1 qid u).lost.toNat = min (q.lost.toNat + 1) 0xFFFFFFFF ∧
    ∃ m, (q.lost1 qid u).entries = q.entries ++ [⟨m, false⟩] ∧
      isMarker m 0 1 false 1 u.tag.seq.toNat u.tag.seq.toNat ∧ m.tag.nest = u.tag.nest :=
  ⟨ofNat_satNat_toNat _, _, rfl, isMarker_unitGap 1 qid u, unitGap_nest 1 qid u⟩

/-! #### DROPH (R239) -/

theorem slots_pos (u : Item) : 0 < u.slots := by
  unfold Item.slots
  split <;> decide

section
variable {q : Queue} {u : Item} {e : QEntry} {rest : List QEntry} (hp : q.pri = 2) (ht : q.tokens < 8) (hr : q.ring = [])
  (he : q.entries = e :: rest) (hs : e.slot = true) (hd : e.item.isData = true) (hn : e.item.slots = u.slots)
  (hf : q.free = 0) (ho : q.depth = q.occ)

/-- The oldest entry removed, with its marker in its place. -/
def Queue.dropHead (q : Queue) (qid : Word32) (e : QEntry) (rest : List QEntry) : Queue :=
  { q.countLost 1 with entries := ⟨unitGap 2 qid e.item, false⟩ :: rest }

include he

section
include ht hd

theorem Queue.drophOne_eq (qid : Word32) : q.drophOne qid = (q.dropHead qid e rest, none) := by
  simp [Queue.drophOne, he, splitData, hd, ht, Queue.dropHead]

end

include hr hs hn ho

theorem Queue.dropHead_free (qid : Word32) : (q.dropHead qid e rest).free = u.slots := by
  have hocc : q.occ = e.item.slots + (q.dropHead qid e rest).occ := by
    simp [Queue.occ, Queue.dropHead, Queue.countLost, he, hr, QEntry.slots, hs]
  have hdepth : (q.dropHead qid e rest).depth = q.depth := rfl
  rw [Queue.free, hdepth, ho, hocc, hn, Nat.add_sub_cancel]

include ht hd hf

theorem Queue.drophMany_eq (qid : Word32) : Queue.drophMany qid u.slots u.slots q = (q.dropHead qid e rest, none) := by
  have hfree := Queue.dropHead_free hr he hs hn ho qid
  have hlt : ¬ u.slots ≤ q.free := by have := slots_pos u; omega
  obtain ⟨n, hk⟩ : ∃ n, u.slots = n + 1 := Nat.exists_eq_add_one.mpr (slots_pos u)
  have hstop (k : Nat) : Queue.drophMany qid u.slots k (q.dropHead qid e rest) = (q.dropHead qid e rest, none) := by
    cases k with
    | zero => rfl
    | succ k => exact if_pos hfree.ge
  conv_lhs => rw [show Queue.drophMany qid u.slots u.slots q = Queue.drophMany qid u.slots (n + 1) q by rw [← hk]]
  rw [Queue.drophMany, if_neg hlt, Queue.drophOne_eq ht he hd]
  dsimp only
  rw [hstop]
  rfl

include hp

theorem Queue.shed_droph (qid : Word32) : q.shed qid u none = ⟨(q.dropHead qid e rest).enqueue u, .kept, none, 1⟩ := by
  have hheld : ¬ ((q.entries.filter (fun e => e.item.isData)).map (fun e => e.item.slots)).sum < u.slots := by
    simp [he, hd]; omega
  have hcount : (q.entries.filter (fun e => e.item.isData)).length -
      ((q.dropHead qid e rest).entries.filter (fun e => e.item.isData)).length = 1 := by
    simp [he, hd, Queue.dropHead, unitGap_isData]
  refine Queue.shed_primary ?_
  rw [hp]
  show q.applyDroph qid false u = _
  rw [Queue.applyDroph, if_neg hheld, Queue.drophMany_eq ht hr he hs hd hn hf ho]
  dsimp only
  rw [hcount]
  rfl

end

end Sys2Proof.Machine

end

section
open Sys2Proof.Cert
namespace Sys2Proof.Machine

/-! #### SAMPLE (R240) -/

/-- A weight multiplied, saturating, with its flag (R240). -/
theorem weigh_eq (t : Tag) (n : Nat) : ∃ t', t.weigh n = t' ∧
    t' = { t with weight := BitVec.ofNat 16 (min (t.weight.toNat * n) 0xFFFF), flags := t'.flags } ∧
    t'.flags = if 0xFFFF < t.weight.toNat * n then t.flags ||| 8 else t.flags := by
  refine ⟨_, rfl, rfl, ?_⟩
  by_cases h : 0xFFFF < t.weight.toNat * n <;> simp [Tag.weigh, flagIf, fSat, h]

/-- The pending units of SAMPLE counted in the episode, and none pending any more (R240, R248). -/
def Queue.epAddAll (q : Queue) (l : List (BitVec 28)) (is : List Inv) : Queue := l.foldl (fun x n => x.epAdd n is) q

theorem Queue.epAddAll_eq (l : List (BitVec 28)) (is : List Inv) (q : Queue) : ∃ lo hi js,
    q.epAddAll l is = { q with epN := q.epN + l.length, epLo := lo, epHi := hi, epInvs := js } := by
  induction l generalizing q with
  | nil => exact ⟨q.epLo, q.epHi, q.epInvs, rfl⟩
  | cons n l ih =>
    obtain ⟨lo, hi, js, e⟩ := ih (q.epAdd n is)
    refine ⟨lo, hi, js, e.trans ?_⟩
    simp [Queue.epAdd, Nat.add_assoc, Nat.add_comm l.length]

/-- SAMPLE's counter and pending list cleared. -/
def Queue.unsampled (q : Queue) : Queue := { q with sampC := 0, sampPend := [], sampInvs := [] }

/-- The pending units of SAMPLE lost, with their marker. -/
def Queue.pendGone (q : Queue) (m : Item) : Queue :=
  { q.unsampled.countLost q.sampPend.length with entries := q.entries ++ [⟨m, false⟩] }

theorem Queue.pendLost_eq {q : Queue} {a : BitVec 28} {rest : List (BitVec 28)} (hr : q.ring = []) (ht : q.tokens < 8)
    (hs : q.sampPend = a :: rest) (qid : Word32) (nest : BitVec 4) (inv : Option Inv) :
    ∃ m, isMarker m 0 3 false (rest.length + 1) a.toNat (rest.getLastD a).toNat ∧ q.pendLost qid nest inv = (q.pendGone m, none) := by
  refine ⟨_, isMarker_withInvs q.sampInvs (isMarker_gapItem (rest.length + 1) a (rest.getLastD a) 3 false 0
    (decide ((rest.getLastD a - a).toNat + 1 ≠ rest.length + 1)) qid nest inv), ?_⟩
  rw [Queue.pendLost, Queue.pendGone, hs]
  exact Queue.place_reserve (q := q.unsampled.countLost (rest.length + 1)) hr ht _

theorem Queue.pendGone_tokens (q : Queue) (m : Item) : (q.pendGone m).tokens = q.tokens + 1 := by
  simp [Queue.tokens, Queue.pendGone, Queue.countLost, Queue.unsampled]
  omega

section
variable {q : Queue} {u : Item} (hp : q.pri = 3)
include hp

theorem Queue.apply_sample (qid : Word32) (isFb : Bool) : q.apply qid isFb q.pri u = q.applySample qid u := by
  rw [hp]
  rfl

/-- A unit that SAMPLE does not choose waits in the pending list. -/
theorem Queue.shed_sample_skips (hn : q.sampC + 1 < q.qpar.toNat / 2 ^ 0 % 2 ^ 8 + 1) (qid : Word32) :
    q.shed qid u none = ⟨{ q with
      sampC := q.sampC + 1, sampPend := q.sampPend ++ [u.tag.seq], sampInvs := addInvs q.sampInvs u.invs }, .compensated, none, 0⟩ := by
  rw [← bits_toNat] at hn
  refine Queue.shed_primary ?_
  rw [Queue.apply_sample hp, Queue.applySample, if_pos hn]

/-- The survivor of SAMPLE stands for the pending units. -/
theorem Queue.shed_sample_keeps {n : Nat} (hN : q.qpar.toNat / 2 ^ 0 % 2 ^ 8 + 1 = n) (hd : u.isData = true) (hn : n ≤ q.sampC + 1)
    (hf : u.slots ≤ q.free) (qid : Word32) :
    let f := q.shed qid u none
    Offered.keeps q f { u with tag := u.tag.weigh n } (q.comp.toNat + (n - 1)) ∧ f.q.sampC = 0 ∧ f.q.sampPend = [] ∧
      f.q.epN = q.epN + q.sampPend.length := by
  intro f
  rw [← bits_toNat] at hN
  have hlt : ¬ q.sampC + 1 < (bits q.qpar 0 8).toNat + 1 := by omega
  have hs : f = ⟨((q.unsampled.epAddAll q.sampPend q.sampInvs).countComp (n - 1)).enqueue { u with tag := u.tag.weigh n }, .kept, none, 0⟩ := by
    refine Queue.shed_primary ?_
    rw [Queue.apply_sample hp, Queue.applySample]
    dsimp only
    rw [if_neg hlt, if_pos hf, hN]
    rfl
  obtain ⟨lo, hi, js, e⟩ := Queue.epAddAll_eq q.sampPend q.sampInvs q.unsampled
  rw [hs, e, Queue.enqueue_eq (u := { u with tag := u.tag.weigh n }) hd]
  exact ⟨⟨rfl, rfl, rfl, ofNat_satNat_toNat _, rfl⟩, rfl, rfl, rfl⟩

/-- Where the survivor of SAMPLE finds no room, the pending units are lost, and a fallback DROPT loses it. -/
theorem Queue.shed_sample_loses {a : BitVec 28} {rest : List (BitVec 28)} (hn : q.qpar.toNat / 2 ^ 0 % 2 ^ 8 + 1 ≤ q.sampC + 1)
    (hf : ¬ u.slots ≤ q.free) (hr : q.ring = []) (hb : q.fb = 1) (ht : q.tokens < 7) (hs : q.sampPend = a :: rest) (qid : Word32) :
    let f := q.shed qid u none
    f.out = .lost ∧ f.q.sampC = 0 ∧ f.q.sampPend = [] ∧ ∃ m x, f.q.entries = q.entries ++ [⟨m, false⟩, ⟨x, false⟩] ∧
      isMarker x 0 1 false 1 u.tag.seq.toNat u.tag.seq.toNat ∧
      isMarker m 0 3 false (rest.length + 1) a.toNat (rest.getLastD a).toNat := by
  intro f
  rw [← bits_toNat] at hn
  obtain ⟨m, hm, hpend⟩ := Queue.pendLost_eq hr (Nat.lt_succ_of_lt ht) hs qid u.tag.nest u.inv
  have htok : (q.pendGone m).tokens < 8 := by
    rw [Queue.pendGone_tokens]
    omega
  have happly : q.apply qid false q.pri u = (none, q.pendGone m, none) := by
    rw [Queue.apply_sample hp, Queue.applySample]
    dsimp only
    rw [if_neg (by omega), if_neg hf, hpend]
  have he : f = ⟨(q.pendGone m).lost1 qid u, .lost, if true && (q.pendGone m).trap then some 0x15 else none, 0⟩ := by
    refine Queue.shed_fallback happly ?_
    rw [show (q.pendGone m).fb = 1 from hb]
    exact Queue.applyDropt_eq (q := q.pendGone m) hr htok qid true u
  obtain ⟨-, x, hx, hmark, -⟩ := Queue.lost1_spec (q.pendGone m) qid u
  rw [he]
  refine ⟨rfl, rfl, rfl, m, x, hx.trans ?_, hmark, hm⟩
  simp [Queue.pendGone]

end

/-! #### KSAMPLE (R241) -/

section
variable {q : Queue} {u : Item} (hdom : u.tag.domain = 0 ∨ u.tag.domain.toNat = q.qpar.toNat / 2 ^ 11 % 2 ^ 4) (hp : q.pri = 4)
include hdom

/-- Whether the key of a unit is of the chosen ones (R241). -/
def Queue.ksampleKeeps (q : Queue) (u : Item) : Prop :=
  kh64 u.key.toNat (q.qpar.toNat / 2 ^ 32 % 2 ^ 32 * 2 ^ 32) / 2 ^ (64 - (q.qpar.toNat / 2 ^ 11 % 2 ^ 4 + 1) / 2) = 0

theorem ksample_domain : ¬ (u.tag.domain ≠ 0 ∧ u.tag.domain ≠ bits q.qpar 11 4) := by
  rintro ⟨h0, hd⟩
  exact hd (BitVec.eq_of_toNat_eq (by rw [bits_toNat]; exact hdom.resolve_left h0))

include hp

theorem Queue.shed_ksample_drops (hk : ¬ q.ksampleKeeps u) (qid : Word32) :
    q.shed qid u none = ⟨(q.countComp 1).epAdd u.tag.seq u.invs, .compensated, none, 0⟩ := by
  refine Queue.shed_primary ?_
  rw [hp]
  show q.applyKsample u = _
  rw [Queue.applyKsample, if_neg (ksample_domain hdom)]
  refine if_pos ?_
  simp only [bits_toNat]
  exact hk

/-- The tag of a unit that KSAMPLE keeps: one of no domain takes the queue's, and stands for those of other keys (R241). -/
def Queue.ksampleTag (q : Queue) (u : Item) : Tag :=
  let d := q.qpar.toNat / 2 ^ 11 % 2 ^ 4
  if u.tag.domain = 0 then Tag.weigh { u.tag with domain := BitVec.ofNat 4 d } (2 ^ ((d + 1) / 2)) else u.tag

theorem Queue.shed_ksample_keeps (hk : q.ksampleKeeps u) (hf : u.slots ≤ q.free) (qid : Word32) :
    q.shed qid u none = ⟨q.enqueue { u with tag := q.ksampleTag u }, .kept, none, 0⟩ := by
  have hd : bits q.qpar 11 4 = BitVec.ofNat 4 (q.qpar.toNat / 2 ^ 11 % 2 ^ 4) := by
    rw [← bits_toNat]
    simp
  refine Queue.shed_primary ?_
  rw [hp]
  show q.applyKsample u = _
  have hk' : ¬ kh64 u.key.toNat ((bits q.qpar 32 32).toNat * 2 ^ 32) / 2 ^ (64 - ((bits q.qpar 11 4).toNat + 1) / 2) ≠ 0 := by
    simp only [bits_toNat]
    exact not_not_intro hk
  rw [Queue.applyKsample, if_neg (ksample_domain hdom)]
  dsimp only
  rw [if_neg hk', if_neg (Nat.not_lt.mpr hf), domainFactor, bits_toNat, hd]
  rfl

end

/-! #### SPILL (R244) -/

theorem Queue.shed_spill_keeps {q : Queue} {u : Item} (hp : q.pri = 7) (hf : u.slots ≤ q.free) (qid : Word32) :
    q.shed qid u none = ⟨q.enqueue u, .kept, none, 0⟩ := by
  refine Queue.shed_primary ?_
  rw [hp]
  exact if_pos hf

theorem Queue.shed_spill_spills {q : Queue} {u : Item} (hp : q.pri = 7) (hr : q.ring = []) (hf : ¬ u.slots ≤ q.free)
    (h : u.slots + 8 ≤ q.ringFree) (qid : Word32) : q.shed qid u none = ⟨{ q with ring := [⟨u, none⟩] }, .kept, none, 0⟩ := by
  refine Queue.shed_primary ?_
  rw [hp]
  refine (if_neg hf).trans ((if_pos h).trans ?_)
  rw [Queue.toRing, hr]
  rfl

end Sys2Proof.Machine

end

section
open Sys2Proof.Cert
namespace Sys2Proof.Machine

/-! ### Fields of words that are put together as numbers -/

/-- A field that lies within a word. -/
theorem bits_ofNat {w lo n : Nat} (h : lo + n ≤ w) (x : Nat) : bits (BitVec.ofNat w x) lo n = BitVec.ofNat n (x / 2 ^ lo) := by
  apply BitVec.eq_of_toNat_eq
  rw [bits_toNat, BitVec.toNat_ofNat, BitVec.toNat_ofNat]
  apply Nat.eq_of_testBit_eq
  intro i
  simp only [Nat.testBit_mod_two_pow, Nat.testBit_div_two_pow]
  by_cases hi : i < n
  · simp [hi, show i + lo < w by omega]
  · simp [hi]

/-- A field of a word as a word. -/
theorem bits_eq_ofNat {w : Nat} (x : BitVec w) (lo n : Nat) : bits x lo n = BitVec.ofNat n (x.toNat / 2 ^ lo) := by
  apply BitVec.eq_of_toNat_eq
  rw [bits_toNat, BitVec.toNat_ofNat]

/-! #### MERGE (R242) -/

/-- A record that a unit merges into: DATA of one slot with its key and its domain. -/
def mergePartner (u : Item) (y : QEntry) : Prop :=
  y.item.isData = true ∧ y.item.v1 = none ∧ y.item.key = u.key ∧ y.item.tag.domain = u.tag.domain

theorem mergePartner_iff (u : Item) (y : QEntry) : mergePartner u y ↔
    y.item.isData = true ∧ (y.item.v1.isNone && y.item.key == u.key && y.item.tag.domain == u.tag.domain) = true := by
  simp [mergePartner, and_assoc]

/-- A record that is no partner is passed over, and counts where it is DATA. -/
theorem mergeFirst_cons_of_not {q : Queue} {u : Item} {y : QEntry} (h : ¬ mergePartner u y) (n : Nat) (l : List QEntry) :
    mergeFirst q u (if y.item.isData then n + 1 else n) (y :: l) = (mergeFirst q u n l).map (y :: ·) := by
  rw [mergePartner_iff] at h
  cases hd : y.item.isData
  · simp [mergeFirst, hd]
  · have hn : (y.item.v1.isNone && y.item.key == u.key && y.item.tag.domain == u.tag.domain) = false := by simpa [hd] using h
    simp [mergeFirst, hd, hn]

theorem mergeFirst_none {q : Queue} {u : Item} (l : List QEntry) (h : ∀ y ∈ l, ¬ mergePartner u y) (n : Nat) : mergeFirst q u n l = none := by
  induction l generalizing n with
  | nil => cases n <;> rfl
  | cons y l ih =>
    have hy := mergeFirst_cons_of_not (q := q) (h y List.mem_cons_self)
    have hl := ih fun z hz => h z (List.mem_cons_of_mem _ hz)
    cases hd : y.item.isData
    · simpa [hd, hl] using hy n l
    · cases n with
      | zero => simp [mergeFirst, hd]
      | succ n => simpa [hd, hl] using hy n l

/-- The first partner among the youngest records takes the unit in. -/
theorem mergeFirst_found {q : Queue} {u : Item} {e : QEntry} (he : mergePartner u e) (pre post : List QEntry)
    (h : ∀ y ∈ post, ¬ mergePartner u y) (n : Nat) (hn : (post.filter (fun y => y.item.isData)).length < n) :
    mergeFirst q u n (post ++ e :: pre) = some (post ++ { e with item := mergeItems q e.item u } :: pre) := by
  induction post generalizing n with
  | nil =>
    obtain ⟨n, rfl⟩ := Nat.exists_eq_add_one.mpr (Nat.zero_lt_of_lt hn)
    obtain ⟨hd, hp⟩ := (mergePartner_iff u e).mp he
    simp [mergeFirst, hd, hp]
  | cons y post ih =>
    have hy := mergeFirst_cons_of_not (q := q) (h y List.mem_cons_self)
    have hl := ih fun z hz => h z (List.mem_cons_of_mem _ hz)
    rw [List.filter_cons] at hn
    cases hd : y.item.isData
    · have hm := hy n (post ++ e :: pre)
      simp only [hd, Bool.false_eq_true, if_false] at hm hn
      rw [List.cons_append, hm, hl n hn]
      rfl
    · simp only [hd, if_true, List.length_cons] at hn
      obtain ⟨n, rfl⟩ := Nat.exists_eq_add_one.mpr (Nat.zero_lt_of_lt hn)
      have hm := hy n (post ++ e :: pre)
      simp only [hd, if_true] at hm
      rw [List.cons_append, hm, hl n (by omega)]
      rfl

section
variable {q : Queue} {u : Item} (hp : q.pri = 5) (hv : u.v1 = none)
include hp hv

theorem Queue.shed_merge_merges {pre post : List QEntry} {e : QEntry} (hs : q.entries = pre ++ e :: post) (he : mergePartner u e)
    (hpost : ∀ y ∈ post, ¬ mergePartner u y) (hn : (post.filter (fun y => y.item.isData)).length < 8) (qid : Word32) :
    q.shed qid u none = ⟨(Queue.countComp { q with entries := pre ++ { e with item := mergeItems q e.item u } :: post } 1).epAdd
      u.tag.seq u.invs, .kept, none, 0⟩ := by
  have hm : mergeFirst q u 8 q.entries.reverse = some (post.reverse ++ { e with item := mergeItems q e.item u } :: pre.reverse) := by
    rw [hs]
    simpa using mergeFirst_found he pre.reverse post.reverse (fun y hy => hpost y (List.mem_reverse.mp hy)) 8 (by simpa using hn)
  refine Queue.shed_primary ?_
  rw [hp]
  show q.applyMerge u = _
  simp [Queue.applyMerge, hv, hm]

theorem Queue.shed_merge_keeps (h : ∀ y ∈ q.entries, ¬ mergePartner u y) (hf : 1 ≤ q.free) (qid : Word32) :
    q.shed qid u none = ⟨q.enqueue u, .kept, none, 0⟩ := by
  have hm : mergeFirst q u 8 q.entries.reverse = none := mergeFirst_none _ (fun y hy => h y (List.mem_reverse.mp hy)) 8
  refine Queue.shed_primary ?_
  rw [hp]
  show q.applyMerge u = _
  simp [Queue.applyMerge, hv, hm, hf]

end

/-! The record that a merge makes. -/

/-- A payload with its value replaced: the value, and what lies below and above it. -/
theorem setValue_fields (p : Payload) (v : Nat) : bits (setValue p v) 64 32 = BitVec.ofNat 32 v ∧ bits (setValue p v) 0 64 = bits p 0 64 ∧
    bits (setValue p v) 96 416 = bits p 96 416 := by
  refine ⟨?_, ?_, ?_⟩
  · rw [setValue, bits_ofNat (by decide)]
    apply BitVec.eq_of_toNat_eq
    simp only [BitVec.toNat_ofNat]
    omega
  · rw [setValue, bits_ofNat (by decide), bits_eq_ofNat]
    apply BitVec.eq_of_toNat_eq
    simp only [BitVec.toNat_ofNat]
    omega
  · rw [setValue, bits_ofNat (by decide), bits_eq_ofNat]
    congr 1
    omega

/-- The value that a merge makes of two, as a code (R242). -/
def mergeValue (q : Queue) (p u : Item) : Nat :=
  let mop := (bits q.qpar 15 2).toNat
  (if q.qpar.getLsbD 17 then mergeI32 mop p.value.toNat u.value.toNat p.tag.weight.toNat u.tag.weight.toNat
    else mergeF32 mop p.value.toNat u.value.toNat p.tag.weight.toNat u.tag.weight.toNat).1

/-- What a merge changes of the record: the value, the weight, the flags and the invocations. -/
theorem mergeItems_eq (q : Queue) (p u : Item) : ∃ fl i m, fl.getLsbD 6 = true ∧ mergeItems q p u =
    { p with
      tag := { p.tag with weight := BitVec.ofNat 16 (min (p.tag.weight.toNat + u.tag.weight.toNat) 0xFFFF), flags := fl },
      v0 := setValue p.v0 (mergeValue q p u), inv := i, more := m } := by
  obtain ⟨i, m, e⟩ := withInvs_eq _ u.invs
  refine ⟨_, i, m, ?_, e⟩
  simp [fMerged]

theorem toSigned_toNat (x : Word32) : toSigned 32 x.toNat = x.toInt := by
  have := x.isLt
  rw [toSigned, BitVec.toInt_eq_toNat_cond]
  split <;> split <;> omega

theorem clampInt_fst (z : Int) : (clampInt 32 z).1 = max (-2147483648) (min z 2147483647) := by
  by_cases h1 : z < -2147483648
  · simp [clampInt, intMin, h1]
    omega
  · by_cases h2 : 2147483647 < z
    · simp [clampInt, intMin, intMax, h1, h2]
      omega
    · simp [clampInt, intMin, intMax, h1, h2]
      omega

/-- A clamped integer of 32 bits as a word. -/
theorem ofSigned_clampInt_toInt (z : Int) :
    (BitVec.ofNat 32 (ofSigned 32 (clampInt 32 z).1)).toInt = max (-(2 ^ 31 : Int)) (min z (2 ^ 31 - 1)) := by
  rw [ofSigned, clampInt_fst, BitVec.toInt_eq_toNat_cond, BitVec.toNat_ofNat]
  split <;> omega

section
variable {q : Queue} {p u : Item}

theorem mergeValue_i32 (h : q.qpar.getLsbD 17 = true) (w : Nat) (hw : q.qpar.toNat / 2 ^ 15 % 2 ^ 2 = w) :
    (w = 0 → (BitVec.ofNat 32 (mergeValue q p u)).toInt = max (-(2 ^ 31 : Int)) (min (p.value.toInt + u.value.toInt) (2 ^ 31 - 1))) ∧
    (w = 1 → (BitVec.ofNat 32 (mergeValue q p u)).toInt = min p.value.toInt u.value.toInt) ∧
    (w = 2 → (BitVec.ofNat 32 (mergeValue q p u)).toInt = max p.value.toInt u.value.toInt) := by
  have hx := p.value.toInt_lt
  have hx' := p.value.le_toInt
  have hy := u.value.toInt_lt
  have hy' := u.value.le_toInt
  refine ⟨?_, ?_, ?_⟩ <;> rintro rfl <;>
    simp only [mergeValue, h, if_true, bits_toNat, hw, mergeI32, toSigned_toNat, ofSigned_clampInt_toInt] <;> omega

theorem mergeValue_f32_nan (h : q.qpar.getLsbD 17 = false)
    (hn : (FloatFmt.f32.read p.value.toNat).isNan = true ∨ (FloatFmt.f32.read u.value.toNat).isNan = true) :
    mergeValue q p u = 0x7FC00000 := by
  have hor : ((FloatFmt.f32.read p.value.toNat).isNan || (FloatFmt.f32.read u.value.toNat).isNan) = true := by simpa using hn
  simp only [mergeValue, h, Bool.false_eq_true, if_false, mergeF32, hor, if_true]
  rfl

theorem mergeValue_f32_add (h : q.qpar.getLsbD 17 = false) (h1 : (FloatFmt.f32.read p.value.toNat).isNan = false)
    (h2 : (FloatFmt.f32.read u.value.toNat).isNan = false) (hw : q.qpar.toNat / 2 ^ 15 % 2 ^ 2 = 0) : mergeValue q p u =
      (FloatFmt.f32.conv .rne false ((FloatFmt.f32.read p.value.toNat).add .rne (FloatFmt.f32.read u.value.toNat))).code := by
  simp only [mergeValue, h, Bool.false_eq_true, if_false, mergeF32, h1, h2, Bool.or_self, bits_toNat, hw]

end

/-! #### NARROW (R243) -/

/-- A vector with other meta fields: the two words, and the record that stays (R67). -/
theorem withMeta_fields {u : Item} (hv : u.v1.isSome = true) (scale desc : Word32) :
    (u.withMeta scale desc).tag = u.tag ∧ (u.withMeta scale desc).v0 = u.v0 ∧ (u.withMeta scale desc).scale = scale ∧
      (u.withMeta scale desc).desc = desc := by
  obtain ⟨v, hv⟩ := Option.isSome_iff_exists.mp hv
  have hlow : v.toNat % 2 ^ 256 < 2 ^ 256 := Nat.mod_lt _ (Nat.two_pow_pos _)
  have hsum : v.toNat % 2 ^ 256 + scale.toNat * 2 ^ 256 + desc.toNat * 2 ^ 288 + v.toNat / 2 ^ 320 * 2 ^ 320 =
      v.toNat % 2 ^ 256 + 2 ^ 256 * (scale.toNat + 2 ^ 32 * (desc.toNat + 2 ^ 32 * (v.toNat / 2 ^ 320))) := by
    rw [Nat.pow_add 2 256 32, Nat.pow_add 2 256 64]
    generalize v.toNat / (2 ^ 256 * 2 ^ 64) = t
    generalize (2 : Nat) ^ 256 = m
    ring
  have hdiv : (v.toNat % 2 ^ 256 + scale.toNat * 2 ^ 256 + desc.toNat * 2 ^ 288 + v.toNat / 2 ^ 320 * 2 ^ 320) / 2 ^ 256 =
      scale.toNat + 2 ^ 32 * (desc.toNat + 2 ^ 32 * (v.toNat / 2 ^ 320)) := by
    rw [hsum, Nat.add_mul_div_left _ _ (Nat.two_pow_pos 256), Nat.div_eq_of_lt hlow, Nat.zero_add]
  have hdiv2 : (v.toNat % 2 ^ 256 + scale.toNat * 2 ^ 256 + desc.toNat * 2 ^ 288 + v.toNat / 2 ^ 320 * 2 ^ 320) / 2 ^ 288 =
      (scale.toNat + 2 ^ 32 * (desc.toNat + 2 ^ 32 * (v.toNat / 2 ^ 320))) / 2 ^ 32 := by
    rw [← hdiv, Nat.div_div_eq_div_mul, ← Nat.pow_add]
  have h1 := scale.isLt
  have h2 := desc.isLt
  refine ⟨by simp [Item.withMeta, hv], by simp [Item.withMeta, hv], ?_, ?_⟩
  · simp only [Item.withMeta, Item.scale, hv]
    rw [bits_ofNat (by decide), hdiv]
    apply BitVec.eq_of_toNat_eq
    rw [BitVec.toNat_ofNat]
    omega
  · simp only [Item.withMeta, Item.desc, hv]
    rw [bits_ofNat (by decide), hdiv2]
    apply BitVec.eq_of_toNat_eq
    rw [BitVec.toNat_ofNat]
    omega

theorem descWithPlanes_fields (d : Word32) {n : Nat} (h : n < 16) :
    descPlane (descWithPlanes d n) = descPlane d ∧ descPlanes (descWithPlanes d n) = n := by
  have := d.isLt
  simp only [descPlane, descPlanes, descWithPlanes, bits_toNat, BitVec.toNat_ofNat]
  omega

/-- A vector cut to the planes that NARROW keeps. -/
def narrowed (nk : Nat) (u : Item) : Item :=
  { u.withMeta u.scale (descWithPlanes u.desc nk) with tag := { u.tag with flags := u.tag.flags ||| fNarrowed } }

section
variable {q : Queue} {u : Item} (hp : q.pri = 6)
include hp

theorem Queue.shed_narrow_drops (h : q.qpar.toNat / 2 ^ 18 % 2 ^ 3 < descPlane u.desc) (qid : Word32) :
    q.shed qid u none = ⟨(q.countComp 1).epAdd u.tag.seq u.invs, .compensated, none, 0⟩ := by
  refine Queue.shed_primary ?_
  rw [hp]
  exact if_pos (by rwa [bits_toNat])

theorem Queue.shed_narrow_keeps (h : descPlane u.desc ≤ q.qpar.toNat / 2 ^ 18 % 2 ^ 3) (hf : 2 ≤ q.free) (qid : Word32) :
    q.shed qid u none = ⟨q.enqueue (if q.qpar.toNat / 2 ^ 18 % 2 ^ 3 < descPlanes u.desc then narrowed (q.qpar.toNat / 2 ^ 18 % 2 ^ 3) u else u),
      .kept, none, 0⟩ := by
  refine Queue.shed_primary ?_
  rw [hp]
  show q.applyNarrow u = _
  simp only [Queue.applyNarrow, bits_toNat]
  rw [if_neg (Nat.not_lt.mpr h), if_neg (Nat.not_lt.mpr hf)]
  rfl

end

end Sys2Proof.Machine

end

section
open Sys2Proof.Cert
namespace Sys2Proof.Machine

/-- What a SHEDDING queue's policy makes of a DATA unit (R238 to R246): each policy by its own lemma. -/
theorem policyActs_shed {q : Queue} {u : Item} (hr : q.ring = []) (hd : u.isData = true) (qid : Word32) :
    policyActs q u (q.shed qid u none) := by
  have hcomp : q.comp.toNat = min q.comp.toNat 0xFFFFFFFF := by
    have := q.comp.isLt
    omega
  refine ⟨fun ht h => ?_, fun e rest hp ht he hs hde hn hf ho => ?_, fun hp => ⟨fun hn => ?_, fun hn hf => ?_, fun a rest hn hf hb ht hs => ?_⟩,
    fun hp => ?_, fun hp hv => ⟨fun pre e post hs he hpost hn => ?_, fun h hf => ?_⟩, fun hp => ⟨fun h => ?_, fun h hf => ⟨fun hk => ?_, fun hk hv => ?_⟩⟩,
    fun hp => ⟨fun hf => ?_, fun hf h => ?_⟩⟩
  · rw [Queue.shed_dropt hr ht h]
    obtain ⟨hlost, m, hm⟩ := Queue.lost1_spec q qid u
    exact ⟨rfl, hlost, ⟨m, hm⟩, rfl⟩
  · rw [Queue.shed_droph hp ht hr he hs hde hn hf ho, Queue.enqueue_eq hd]
    exact ⟨rfl, rfl, ofNat_satNat_toNat _, rfl, _, rfl, isMarker_unitGap 2 qid e.item⟩
  · rw [Queue.shed_sample_skips hp hn]
    exact ⟨⟨rfl, rfl, rfl, rfl⟩, rfl, rfl⟩
  · obtain ⟨hkeeps, hc, hpend, hep⟩ := Queue.shed_sample_keeps hp rfl hd hn (of_decide_eq_true hf) qid
    obtain ⟨t, ht, htag, hflags⟩ := weigh_eq u.tag (q.qpar.toNat / 2 ^ 0 % 2 ^ 8 + 1)
    rw [ht] at hkeeps
    exact ⟨t, hkeeps, htag, hflags, hc, hpend, hep⟩
  · exact Queue.shed_sample_loses hp hn (of_decide_eq_false hf) hr hb ht hs qid
  · intro d k keeps hdom
    refine ⟨fun hk => ?_, fun hk hf => ⟨fun h0 => ?_, fun h0 => ?_⟩⟩
    · rw [Queue.shed_ksample_drops hdom hp hk]
      exact ⟨⟨rfl, rfl, rfl, rfl⟩, ofNat_satNat_toNat _, rfl⟩
    · rw [Queue.shed_ksample_keeps hdom hp hk (of_decide_eq_true hf), Queue.ksampleTag, if_neg h0]
      exact Queue.enqueue_keeps hd q
    · rw [Queue.shed_ksample_keeps hdom hp hk (of_decide_eq_true hf), Queue.ksampleTag, if_pos h0]
      obtain ⟨t, ht, htag, -⟩ := weigh_eq { u.tag with domain := BitVec.ofNat 4 d } (2 ^ k)
      exact ⟨t, ht ▸ Queue.enqueue_keeps (u := { u with tag := Tag.weigh { u.tag with domain := BitVec.ofNat 4 d } (2 ^ k) }) hd q, htag⟩
  · rw [Queue.shed_merge_merges hp hv hs he hpost hn]
    obtain ⟨-, hv1, hkey, -⟩ := he
    obtain ⟨fl, i, is, hfl, hm⟩ := mergeItems_eq q e.item u
    obtain ⟨hvalue, hlow, hhigh⟩ := setValue_fields e.item.v0 (mergeValue q e.item u)
    refine ⟨rfl, rfl, ofNat_satNat_toNat _, _, rfl, ?_⟩
    rw [hm]
    refine ⟨hlow.trans hkey, hv1, hhigh, hfl, rfl, ?_⟩
    intro x y clamp
    refine ⟨fun h => ?_, fun h => ⟨fun hnan => ?_, fun h1 h2 hw => ?_⟩⟩
    · rw [Item.value, hvalue]
      exact mergeValue_i32 h _ rfl
    · rw [Item.value, hvalue, mergeValue_f32_nan h hnan]
      rfl
    · rw [Item.value, hvalue, mergeValue_f32_add h h1 h2 hw, BitVec.toNat_ofNat]
  · rw [Queue.shed_merge_keeps hp hv h hf]
    exact Queue.enqueue_keeps hd q
  · rw [Queue.shed_narrow_drops hp h]
    exact ⟨⟨rfl, rfl, rfl, rfl⟩, ofNat_satNat_toNat _⟩
  · rw [Queue.shed_narrow_keeps hp h hf, if_neg (Nat.not_lt.mpr hk)]
    exact Queue.enqueue_keeps hd q
  · obtain ⟨htag, hv0, hscale, hdesc⟩ := withMeta_fields hv u.scale (descWithPlanes u.desc (q.qpar.toNat / 2 ^ 18 % 2 ^ 3))
    obtain ⟨hplane, hplanes⟩ := descWithPlanes_fields u.desc (n := q.qpar.toNat / 2 ^ 18 % 2 ^ 3) (by omega)
    rw [Queue.shed_narrow_keeps hp h hf, if_pos hk]
    refine ⟨narrowed _ u, Queue.enqueue_keeps (u := narrowed _ u) hd q, rfl, hv0, hscale, ?_⟩
    rw [← hdesc] at hplane hplanes
    exact ⟨hplane, hplanes⟩
  · rw [Queue.shed_spill_keeps hp (of_decide_eq_true hf)]
    exact Queue.enqueue_keeps hd q
  · rw [Queue.shed_spill_spills hp hr (of_decide_eq_false hf) h]
    exact ⟨rfl, rfl, rfl⟩

end Sys2Proof.Machine

end

section
open Sys2Proof.Cert
namespace Sys2Proof.Machine

/-! ### Offers to a cell (R25, R29, R238) -/

theorem exec_queueOffer (a b : CellId) (s : State) : exec (.queueOffer a b) s = execQueueOffer a b s := rfl
theorem exec_leaveShedding (q : QRef) (s : State) : exec (.leaveShedding q) s = .next (s.leaveTest q) := rfl
theorem exec_queueClosed (q : QRef) (s : State) : exec (.queueClosed q) s = execQueueClosed q s := rfl
theorem exec_spillReplay (q : QRef) (s : State) : exec (.spillReplay q) s = execSpillReplay q s := rfl
theorem exec_switchConvert (c : CellId) (i : BitVec 5) (s : State) : exec (.switchConvert c i) s = execSwitchConvert c i s := rfl
theorem exec_egressOffer (c : CellId) (so : BitVec 5) (s : State) : exec (.egressOffer c so) s = execEgressOffer c so s := rfl
theorem exec_harpGrant (d : BitVec 3) (o : BitVec 9) (n : Nat) (s : State) : exec (.harpGrant d o n) s = execHarpGrant d o n s := rfl
theorem exec_cellMute (c : CellId) (s : State) : exec (.cellMute c) s = execCellMute c s := rfl

section
variable {s s1 : State} {a b : CellId} {w : Wire} {o : Outcome3} (hw : s.wires.find? (fun w => w.src = a ∧ w.dst = b) = some w)
  (ho : s.offerCell b w.dq w.item = (s1, o))
include hw ho

theorem execQueueOffer_retry (h : o = .retry) : exec (.queueOffer a b) s = .next s1 := by
  rw [exec_queueOffer, execQueueOffer, hw]
  dsimp only
  rw [ho]
  exact if_pos h

theorem execQueueOffer_done (h : o ≠ .retry) (hl : w.loss = false) :
    exec (.queueOffer a b) s = .next { s1 with wires := s1.wires.erase w } := by
  rw [exec_queueOffer, execQueueOffer, hw]
  dsimp only
  rw [ho]
  refine (if_neg h).trans ?_
  simp [hl]

end

/-- A queue whose ring stays as it is needs no access to it (R244). -/
theorem State.offerQ_of_ring {s : State} {d : BitVec 3} {ctx : BitVec 9} {qid : Word32} {q : Queue} {u : Item}
    (h : q.ring = (q.offer qid u).q.ring) : s.offerQ d ctx qid q u = (q.offer qid u, none, s) := by
  simp [State.offerQ, State.ringPut, Queue.ringDirty, h, State.ringMiss, State.ringWrite]

/-- A head that was there before, or that every consumer accepts, raises no fault (R25). -/
theorem State.newHead_eq {s : State} {c : CellId} {k : BitVec 3} {before : Option Item}
    (h : (s.cell c).queues[k.toNat].head = before ∨ ∀ u, (s.cell c).queues[k.toNat].head = some u → badToken u = false) :
    s.newHead c k before = s := by
  unfold State.newHead
  split
  · next u hu =>
    refine if_neg ?_
    obtain h | h := h
    · simp [← h, hu]
    · simp [h u hu]
  · rfl

theorem State.sendFrees_cell (c : CellId) (k : BitVec 3) (n : Nat) (s : State) (b : CellId) : (s.sendFrees c k n).cell b = s.cell b := by
  induction n generalizing s with
  | zero => rfl
  | succ n ih => exact (ih _).trans rfl

/-- An offer to a cell's queue with an empty ring changes that queue alone of the cell's, as the queue's own offer does (R238). -/
theorem offerCell_queues {s s1 : State} {c : CellId} {k : BitVec 3} {u : Item} {o : Outcome3} (ho : s.offerCell c k u = (s1, o))
    (hr : (s.cell c).queues[k.toNat].ring = []) (hr1 : ((s.cell c).queues[k.toNat].offer (cellWord c k) u).q.ring = [])
    (hf : ((s.cell c).queues[k.toNat].offer (cellWord c k) u).fault = none)
    (hh : ((s.cell c).queues[k.toNat].offer (cellWord c k) u).q.head = (s.cell c).queues[k.toNat].head ∨
      ∀ h, ((s.cell c).queues[k.toNat].offer (cellWord c k) u).q.head = some h → badToken h = false) :
    o = ((s.cell c).queues[k.toNat].offer (cellWord c k) u).out ∧ ∀ i : Fin 8, (s1.cell c).queues[i] =
      if i.val = k.toNat then ((s.cell c).queues[k.toNat].offer (cellWord c k) u).q else (s.cell c).queues[i] := by
  generalize hq : (s.cell c).queues[k.toNat] = q at *
  generalize hofr : q.offer (cellWord c k) u = f at *
  have hoff : s.offerQ c.die (s.ctxOfCell c) (cellWord c k) q u = (f, none, s) := by
    rw [State.offerQ_of_ring (by rw [hofr, hr, hr1]), hofr]
  have hcell (n : Nat) : (((s.modCell c (fun x => { x with queues := x.queues.set k.toNat f.q })).sendFrees c k n).cell c).queues =
      (s.cell c).queues.set k.toNat f.q := by
    rw [State.sendFrees_cell, State.modCell_cell_self]
  have hhead (n : Nat) : ((s.modCell c (fun x => { x with queues := x.queues.set k.toNat f.q })).sendFrees c k n).newHead c k q.head =
      (s.modCell c (fun x => { x with queues := x.queues.set k.toNat f.q })).sendFrees c k n := by
    refine State.newHead_eq ?_
    rw [hcell]
    simpa using hh
  simp only [State.offerCell, hq, hoff, hhead, hf, Prod.mk.injEq] at ho
  obtain ⟨rfl, rfl⟩ := ho
  refine ⟨rfl, fun i => ?_⟩
  show (State.cell _ c).queues[i.val] = _
  simp only [hcell, Vector.getElem_set, eq_comm (a := k.toNat)]
  rfl

/-! ### A queue between offers (R231, R244) -/

section
variable {s : State} {c : CellId} {k : BitVec 3} (hz : (s.cell c).queues[k.toNat].frozen = false)
include hz

theorem State.changeQueue_none {f : Word32 → Queue → Option (Queue × Option Nat)} (h : f (cellWord c k) (s.cell c).queues[k.toNat] = none) :
    s.changeQueue (.cell c k) f = s := by
  simp [State.changeQueue, hz, h]

theorem State.changeQueue_some {f : Word32 → Queue → Option (Queue × Option Nat)} {q1 : Queue}
    (h : f (cellWord c k) (s.cell c).queues[k.toNat] = some (q1, none)) : s.changeQueue (.cell c k) f = queuePut s c k q1 := by
  simp [State.changeQueue, hz, h, State.queueFault, queuePut]

theorem execLeaveShedding_leaves {q1 : Queue} (hs : (s.cell c).queues[k.toNat].state = .shedding)
    (ho : (s.cell c).queues[k.toNat].occ ≤ (s.cell c).queues[k.toNat].low) (hr : (s.cell c).queues[k.toNat].ring = [])
    (hl : (s.cell c).queues[k.toNat].leave (cellWord c k) .flowing = (q1, none)) :
    exec (.leaveShedding (.cell c k)) s = .next (queuePut s c k q1) := by
  rw [exec_leaveShedding, State.leaveTest, State.changeQueue_some hz]
  simp [Queue.canLeave, hs, ho, hr, hl]

theorem execLeaveShedding_stays (hs : (s.cell c).queues[k.toNat].state ≠ .shedding) : exec (.leaveShedding (.cell c k)) s = .next s := by
  rw [exec_leaveShedding, State.leaveTest, State.changeQueue_none hz]
  simp [Queue.canLeave, hs]

theorem execQueueClosed_closes (hs : (s.cell c).queues[k.toNat].state = .draining) (he : (s.cell c).queues[k.toNat].entries = [])
    (hr : (s.cell c).queues[k.toNat].ring = []) :
    exec (.queueClosed (.cell c k)) s = .next (queuePut s c k { (s.cell c).queues[k.toNat] with state := .closed }) := by
  rw [exec_queueClosed, execQueueClosed, State.changeQueue_some hz]
  simp [Queue.canClose, hs, he, hr]

theorem execQueueClosed_stays (h : (s.cell c).queues[k.toNat].state ≠ .draining ∨ (s.cell c).queues[k.toNat].entries ≠ [] ∨
    (s.cell c).queues[k.toNat].ring ≠ []) : exec (.queueClosed (.cell c k)) s = .next s := by
  rw [exec_queueClosed, execQueueClosed, State.changeQueue_none hz]
  obtain h | h | h := h <;> simp [Queue.canClose, h]

end

theorem Queue.leave_state {q q1 : Queue} {qid : Word32} {dest : QState} {f : Option Nat} (h : q.leave qid dest = (q1, f)) : q1.state = dest := by
  simp only [Queue.leave, Prod.mk.injEq] at h
  rw [← h.1]

/-- A unit as it comes back from the ring (R244). -/
def replayed (u : Item) : Item := if u.isData then { u with tag := { u.tag with flags := u.tag.flags ||| fReplayed } } else u

/-- A queue with the oldest unit of its ring taken back as an entry. -/
def Queue.tookBack (q : Queue) (rest : List RingUnit) (u : Item) (e : QEntry) : Queue :=
  Queue.settleRing { q with ring := rest, ringHead := (q.ringHead + u.slots) % q.ringCap, entries := q.entries ++ [e] }

theorem badToken_of_isData {u : Item} (h : u.isData = true) : badToken u = false := by
  have hk : u.tag.kind = 0 := by simpa [Item.isData, kData] using h
  simp [badToken, hk, kOrder]

section
variable {q : Queue} {x : RingUnit} {rest : List RingUnit} (hr : q.ring = x :: rest)
include hr

theorem Queue.replay_data (hd : x.item.isData = true) (hf : x.item.slots ≤ q.free) :
    q.replay = q.tookBack rest x.item (q.stored (replayed x.item)) := by
  have hd' : (replayed x.item).isData = true := by rw [replayed, if_pos hd]; exact hd
  rw [Queue.replay, hr]
  dsimp only
  rw [if_pos hd, if_pos hf]
  exact congrArg Queue.settleRing (Queue.enqueue_eq hd' _)

/-- A replay leaves the queue, or takes the oldest ring unit back behind its entries (R244). -/
theorem Queue.replay_cases : q.replay = q ∨ ∃ e, badToken e.item = badToken x.item ∧ q.replay = q.tookBack rest x.item e := by
  cases hd : x.item.isData
  · rw [Queue.replay, hr]
    simp only [hd, Bool.false_eq_true, if_false]
    by_cases ht : q.tokens < 8
    · exact .inr ⟨⟨x.item, false⟩, rfl, if_pos ht⟩
    · rw [if_neg ht]
      by_cases hf : 1 ≤ q.free
      · exact .inr ⟨⟨x.item, true⟩, rfl, if_pos hf⟩
      · exact .inl (if_neg hf)
  · by_cases hf : x.item.slots ≤ q.free
    · have hd' : (replayed x.item).isData = true := by rw [replayed, if_pos hd]; exact hd
      refine .inr ⟨_, ?_, Queue.replay_data hr hd hf⟩
      rw [badToken_of_isData hd]
      exact badToken_of_isData hd'
    · refine .inl ?_
      rw [Queue.replay, hr]
      dsimp only
      rw [if_pos hd, if_neg hf]

/-- The head behind a replay: the one before, or a unit that every consumer accepts (R25). -/
theorem Queue.replay_head (h : q.entries ≠ [] ∨ badToken x.item = false) :
    q.replay.head = q.head ∨ ∀ u, q.replay.head = some u → badToken u = false := by
  obtain e | ⟨e, hb, eq⟩ := Queue.replay_cases hr
  · exact .inl (by rw [e])
  · rw [eq]
    cases he : q.entries with
    | nil =>
      refine .inr fun u hu => ?_
      have hu : e.item = u := by simpa [Queue.head, Queue.tookBack, Queue.settleRing, he] using hu
      rw [← hu, hb]
      exact h.resolve_left (not_not_intro he)
    | cons y ys => exact .inl (by simp [Queue.head, Queue.tookBack, Queue.settleRing, he])

end

theorem execSpillReplay_empty {s : State} {c : CellId} {k : BitVec 3} (hr : (s.cell c).queues[k.toNat].ring = []) :
    exec (.spillReplay (.cell c k)) s = .next s := by
  simp [exec_spillReplay, execSpillReplay, State.queueAt, hr]

/-- `SPILL_REPLAY` of a ring whose oldest entries can be read (R244). -/
theorem execSpillReplay_reach {s : State} {c : CellId} {k : BitVec 3} {x : RingUnit} {rest : List RingUnit}
    (hz : (s.cell c).queues[k.toNat].frozen = false) (hr : (s.cell c).queues[k.toNat].ring = x :: rest)
    (hreach : s.ringReach c.die (s.ctxOfCell c) (s.cell c).queues[k.toNat] 0 x.item.slots = true)
    (hh : (s.cell c).queues[k.toNat].entries ≠ [] ∨ badToken x.item = false) :
    exec (.spillReplay (.cell c k)) s = .next (queuePut s c k (s.cell c).queues[k.toNat].replay) := by
  have hput : ((queuePut s c k (s.cell c).queues[k.toNat].replay).cell c).queues[k.toNat] = (s.cell c).queues[k.toNat].replay := by
    simp [queuePut]
  have hchange : s.changeQueue (.cell c k) (fun _ y => some (y.replay, none)) = queuePut s c k (s.cell c).queues[k.toNat].replay :=
    State.changeQueue_some hz rfl
  have hhead : (queuePut s c k (s.cell c).queues[k.toNat].replay).newHead c k (s.cell c).queues[k.toNat].head =
      queuePut s c k (s.cell c).queues[k.toNat].replay := by
    refine State.newHead_eq ?_
    rw [hput]
    exact Queue.replay_head hr hh
  rw [exec_spillReplay, execSpillReplay, State.queueAt]
  dsimp only
  rw [hr]
  simp only [State.ringHome, hreach, if_true, hchange, hhead]

/-! ### Converters of a switch (R91) -/

section
variable {s : State} {c : CellId} {i : BitVec 5} {u : Item} {w : SwWord} {e : ExtWord}
  (hu : (s.cell c).swIn.find? (fun p => p.1 = i) = some (i, u))
  (hw : (s.cell c).active.sw.find? (fun w => w.inlet = i ∧ w.ext.isSome = true) = some w) (he : w.ext = some e)
include hu hw he

theorem execSwitchConvert_bad (hb : convertBad e u = true) (hv : (s.cell c).fault.valid = false) :
    exec (.switchConvert c i) s = .next (s.raiseFault c (faultAt 0x06 0 (some u))) := by
  rw [exec_switchConvert, execSwitchConvert]
  dsimp only
  rw [hu, hw]
  dsimp only
  rw [he]
  simp only [hb, hv, if_true, Bool.false_eq_true, if_false]

theorem execSwitchConvert_good (hb : convertBad e u = false) {v : Option Item} {s2 : State}
    (hc : (s.setCell c { s.cell c with swIn := (s.cell c).swIn.erase (i, u) }).convertAt c w e u = (v, s2)) :
    exec (.switchConvert c i) s = .next (v.elim s2 (s2.leavePath c w)) := by
  rw [exec_switchConvert, execSwitchConvert]
  dsimp only
  rw [hu, hw]
  dsimp only
  rw [he]
  simp only [hb, Bool.false_eq_true, if_false]
  rw [hc]
  cases v <;> rfl

end

end Sys2Proof.Machine

end

section
open Sys2Proof.Cert
namespace Sys2Proof.Machine

/-! ### The order in which units enter an egress buffer (R319, R345) -/

/-- The step of `firstEmitted`: the better of the best so far and an egress's first waiting unit. -/
def emittedStep (src dst : CellId) (best : Option (Egress × Nat × Item × List (Nat × Item))) (e : Egress) :
    Option (Egress × Nat × Item × List (Nat × Item)) :=
  if e.src = src ∧ e.dst = dst then
    match e.waiting, best with
    | [], _ => best
    | (n, u) :: rest, none => some (e, n, u, rest)
    | (n, u) :: rest, some (_, m, _, _) => if n < m then some (e, n, u, rest) else best
  else best

theorem firstEmitted_eq (es : List Egress) (src dst : CellId) : firstEmitted es src dst = es.foldl (emittedStep src dst) none := rfl

/-- The better of two is emitted no later than either. -/
theorem emittedStep_le (src dst : CellId) (best : Option (Egress × Nat × Item × List (Nat × Item))) (e : Egress) :
    (∀ b, best = some b → ∃ b', emittedStep src dst best e = some b' ∧ b'.2.1 ≤ b.2.1) ∧
    (e.src = src → e.dst = dst → ∀ m v more, e.waiting = (m, v) :: more → ∃ b', emittedStep src dst best e = some b' ∧ b'.2.1 ≤ m) := by
  refine ⟨fun b hb => ?_, fun hs hd m v more hw => ?_⟩
  · subst hb
    unfold emittedStep
    split
    · split
      · exact ⟨b, rfl, le_refl _⟩
      · next h => cases h
      · next h =>
        cases h
        split
        · next hlt => exact ⟨_, rfl, hlt.le⟩
        · exact ⟨_, rfl, le_refl _⟩
    · exact ⟨b, rfl, le_refl _⟩
  · unfold emittedStep
    rw [if_pos ⟨hs, hd⟩, hw]
    cases best with
    | none => exact ⟨_, rfl, le_refl _⟩
    | some b =>
      dsimp only
      split
      · exact ⟨_, rfl, le_refl _⟩
      · next hlt => exact ⟨b, rfl, Nat.not_lt.mp hlt⟩

/-- A fold of `emittedStep` is emitted no later than what it started from, and than the first unit of each egress. -/
theorem foldl_emittedStep_le {src dst : CellId} (es : List Egress) {best : Option (Egress × Nat × Item × List (Nat × Item))}
    {r : Egress × Nat × Item × List (Nat × Item)} (h : es.foldl (emittedStep src dst) best = some r) :
    (∀ b, best = some b → r.2.1 ≤ b.2.1) ∧
    ∀ y ∈ es, y.src = src → y.dst = dst → ∀ m v more, y.waiting = (m, v) :: more → r.2.1 ≤ m := by
  induction es generalizing best with
  | nil =>
    refine ⟨fun b hb => ?_, by simp⟩
    cases hb.symm.trans h
    exact le_refl _
  | cons e es ih =>
    obtain ⟨hb, hes⟩ := ih h
    obtain ⟨hbest, he⟩ := emittedStep_le src dst best e
    refine ⟨fun b h0 => ?_, fun y hy hs hd m v more hw => ?_⟩
    · obtain ⟨b', h1, h2⟩ := hbest b h0
      exact (hb b' h1).trans h2
    · obtain rfl | hy := List.mem_cons.mp hy
      · obtain ⟨b', h1, h2⟩ := he hs hd m v more hw
        exact (hb b' h1).trans h2
      · exact hes y hy hs hd m v more hw

/-- A DATA unit that finds room enters the flit entries of its egress (R345). -/
theorem Egress.offer_room {e : Egress} {u : Item} (hd : u.isData = true) (h : u.slots + e.flits ≤ 32) (stamp : Nat) :
    e.offer stamp u = some { e with entries := e.entries ++ [⟨stamp, u, true, false⟩] } := by
  have hroom : u.slots ≤ 32 - e.flits := by
    have := slots_pos u
    omega
  simp [Egress.offer, hd, hroom]

/-- An input with a packet at its crosspoint takes in no other (R341). -/
theorem State.feedInput_of_waiting {s : State} {d : BitVec 3} {inp : BitVec 9} (h : ∃ p ∈ (s.die d).harp.wait, p.inp = inp) (n : Nat) :
    s.feedInput d inp n = s := by
  obtain ⟨p, hp, hi⟩ := h
  exact if_pos (List.any_eq_true.mpr ⟨p, hp, by simp [hi]⟩)

theorem execEgressOffer_enters {s : State} {c : CellId} {so : BitVec 5} {e0 e : Egress} {n : Nat} {u : Item} {rest : List (Nat × Item)}
    (h0 : (s.die c.die).egress.find? (fun e => e.src = c ∧ e.so = so ∧ e.waiting ≠ []) = some e0)
    (h1 : firstEmitted (s.die c.die).egress c e0.dst = some (e, n, u, rest)) (hd : u.isData = true) (hr : u.slots + e.flits ≤ 32)
    (hw : ∃ p ∈ (s.die c.die).harp.wait, p.inp = portOfCell c) :
    exec (.egressOffer c so) s = .next (({ s with fresh := s.fresh + 1 } : State).setDie c.die { s.die c.die with
      egress := (s.die c.die).egress.map (fun y => if y.src = e.src ∧ y.so = e.so ∧ y.dst = e.dst ∧ y.dq = e.dq then
        { e with waiting := rest, entries := e.entries ++ [⟨s.fresh, u, true, false⟩] } else y) }) := by
  have ho : Egress.offer { e with waiting := rest } s.fresh u = some { e with
      waiting := rest, entries := e.entries ++ [⟨s.fresh, u, true, false⟩] } := Egress.offer_room (e := { e with waiting := rest }) hd hr _
  rw [exec_egressOffer, execEgressOffer]
  dsimp only
  rw [h0]
  dsimp only
  rw [h1]
  dsimp only
  rw [show s.freshNat.1 = s.fresh from rfl, ho]
  dsimp only
  have hwait : ∃ p ∈ ((s.freshNat.2.setDie c.die { s.die c.die with
      egress := (s.die c.die).egress.map (fun y => if y.src = e.src ∧ y.so = e.so ∧ y.dst = e.dst ∧ y.dq = e.dq then
        { e with waiting := rest, entries := e.entries ++ [⟨s.fresh, u, true, false⟩] } else y) }).die c.die).harp.wait,
      p.inp = portOfCell c := by
    rw [State.setDie_die_self]
    exact hw
  exact congrArg Host.Outcome.next (State.feedInput_of_waiting hwait _)

/-! ### The harp (R342, R343, R372) -/

/-- Memory, the units on their way, and the harp of a die. -/
def State.harpView (s : State) (d : BitVec 3) := (s.mem, s.wires, (s.die d).harp)

theorem State.modDie_harpView (s : State) (d e : BitVec 3) {f : Die → Die} (h : (f (s.die e)).harp = (s.die e).harp) :
    (s.modDie e f).harpView d = s.harpView d := by
  have hd : ((s.modDie e f).die d).harp = (s.die d).harp := by
    rw [State.modDie_die]
    split
    · next hd => rw [hd, h]
    · rfl
  exact congrArg (fun x => (s.mem, s.wires, x)) hd

theorem State.lateEvent_harpView (s : State) (c : CellId) (d : BitVec 3) : (s.lateEvent c).harpView d = s.harpView d := by
  unfold State.lateEvent
  split
  · rfl
  · dsimp only
    split
    · exact State.modDie_harpView _ d _ rfl
    · rfl

theorem State.lateOf_harpView (s : State) (a : Acquirer) (d : BitVec 3) : (s.lateOf a).harpView d = s.harpView d := by
  unfold State.lateOf
  split
  · exact s.lateEvent_harpView _ d
  · split
    · exact s.lateEvent_harpView _ d
    · rfl

theorem foldl_harpView {α : Type} (d : BitVec 3) (f : State → α → State) (h : ∀ s a, (f s a).harpView d = s.harpView d) (l : List α) (s : State) :
    (l.foldl f s).harpView d = s.harpView d := foldl_keeps (fun s => s.harpView d) h l s

/-- A waiting packet, marked late where its effective slack has become 0 (R343). -/
def Packet.marked (now : Nat) (p : Packet) : Packet :=
  if !p.late && p.effSlack now == 0 then
    { p with
      late := true,
      item := if p.item.isData then { p.item with tag := { p.item.tag with flags := p.item.tag.flags ||| fLate } } else p.item }
  else p

/-- Marking late packets and requests changes the waiting packets alone of the harp, and neither memory nor the units on their way. -/
theorem State.markLate_harpView (s : State) (d : BitVec 3) : (s.markLate d).harpView d =
    (s.mem, s.wires, { (s.die d).harp with wait := (s.die d).harp.wait.map (Packet.marked (s.die d).harp.now) }) := by
  unfold State.markLate
  extract_lets h isLate mark s1 s2 reqLate s3 s4 atoms cells s5 s6
  have h1 : s1.harpView d = (s.mem, s.wires, { (s.die d).harp with wait := (s.die d).harp.wait.map (Packet.marked (s.die d).harp.now) }) := by
    refine congrArg (fun x => (s.mem, s.wires, x)) ?_
    exact congrArg Die.harp (s.modDie_die_self d _)
  have h2 : s2.harpView d = s1.harpView d := foldl_harpView d _ (fun s p => s.lateEvent_harpView _ d) _ _
  have h3 : s3.harpView d = s2.harpView d := rfl
  have h4 : s4.harpView d = s3.harpView d := by
    refine foldl_harpView d _ (fun s r => ?_) _ _
    split
    · exact s.lateEvent_harpView _ d
    · rfl
  have h5 : s5.harpView d = s4.harpView d := by
    refine foldl_harpView d _ (fun s p => ?_) _ _
    exact (foldl_harpView d _ (fun s _ => s.lateEvent_harpView _ d) _ _).trans rfl
  have h6 : s6.harpView d = s5.harpView d := rfl
  refine Eq.trans (foldl_harpView d _ (fun s q => s.lateOf_harpView _ d) _ _) ?_
  rw [h6, h5, h4, h3, h2, h1]

theorem State.countFlits_harpView (s : State) (c : CellId) (n : Nat) (d : BitVec 3) : (s.countFlits c n).harpView d = s.harpView d := by
  unfold State.countFlits
  split
  · rfl
  · split
    · rfl
    · exact s.modDie_harpView d _ rfl

theorem State.popEgress_harpView (s : State) (d : BitVec 3) (e : Egress) : (s.popEgress d e).harpView d = s.harpView d :=
  s.modDie_harpView d d rfl

/-- Memory, the units on their way, and the cycle and the grants of a harp. -/
def State.grantView (s : State) (d : BitVec 3) := (s.mem, s.wires, (s.die d).harp.now, (s.die d).harp.grants)

theorem State.grantView_of_harpView {s t : State} {d : BitVec 3} (h : t.harpView d = s.harpView d) : t.grantView d = s.grantView d :=
  congrArg (fun v => (v.1, v.2.1, v.2.2.now, v.2.2.grants)) h

/-- An input that takes in a packet changes neither the cycle nor the grants (R341). -/
theorem State.feedInput_grantView (s : State) (d : BitVec 3) (inp : BitVec 9) (n : Nat) : (s.feedInput d inp n).grantView d = s.grantView d := by
  unfold State.feedInput
  dsimp only
  split
  · rfl
  · split
    · rfl
    · next e en _ =>
      refine (State.grantView_of_harpView (State.countFlits_harpView _ _ _ d)).trans (Eq.trans ?_ (State.grantView_of_harpView (s.popEgress_harpView d e)))
      simp only [State.grantView, State.modDie_die_self]
      rfl

/-- Harp cycles pass, and no more than are given (R342). -/
theorem State.harpTime_bounds (s : State) (d : BitVec 3) (cs : List (BitVec 9 × BitVec 9)) (n now : Nat) :
    now ≤ s.harpTime d cs n now ∧ s.harpTime d cs n now ≤ now + n := by
  induction n generalizing now with
  | zero => simp [State.harpTime]
  | succ n ih =>
    unfold State.harpTime
    split
    · omega
    · have := ih (now + 1)
      omega

/-- No harp cycle passes while an output with a waiting packet can grant (R342). -/
theorem State.harpTime_stays {s : State} {d : BitVec 3} {cs : List (BitVec 9 × BitVec 9)} {now : Nat} {p : Packet}
    (hp : p ∈ (s.die d).harp.wait) (h : s.harpPick d cs now p.outp ≠ .none) (n : Nat) : s.harpTime d cs n now = now := by
  cases n with
  | zero => rfl
  | succ n =>
    refine if_pos (List.any_eq_true.mpr ⟨p.outp, ?_, ?_⟩)
    · exact List.mem_append_left _ (List.mem_map_of_mem hp)
    · simpa using h

/-- The packet that waits alone for an output that no circuit shares is granted (R342). -/
theorem State.harpPick_alone {s : State} {d : BitVec 3} {now : Nat} {p : Packet} (hw : (s.die d).harp.wait = [p])
    (hs : p.since ≤ now) (hb : (aget (s.die d).harp.busy p.outp).getD 0 ≤ now) : s.harpPick d [] now p.outp = .packet p := by
  simp [State.harpPick, hw, hs, hb, pickPacket]

end Sys2Proof.Machine

end

section
open Sys2Proof.Cert
namespace Sys2Proof.Machine

/-- The state of a die's harp after `n` harp cycles or as many as pass before some output can grant, with late packets marked (R342, R343). -/
def State.harpAfter (s : State) (d : BitVec 3) (n : Nat) : State :=
  (s.modDie d (fun x => { x with harp := { x.harp with now := s.harpTime d (s.circuits d) n (s.die d).harp.now } })).markLate d

theorem State.harpAfter_harpView (s : State) (d : BitVec 3) (n : Nat) : (s.harpAfter d n).harpView d =
    (s.mem, s.wires, { (s.die d).harp with
      now := s.harpTime d (s.circuits d) n (s.die d).harp.now
      wait := (s.die d).harp.wait.map (Packet.marked (s.harpTime d (s.circuits d) n (s.die d).harp.now)) }) := by
  rw [State.harpAfter, State.markLate_harpView, State.modDie_die_self]
  rfl

/-- The slack of a packet's grant (R343). -/
def Packet.grantSlack (p : Packet) (now : Nat) : BitVec 12 := 
  if p.slack = 0xFFF then p.slack else BitVec.ofNat 12 (p.slack.toNat - (p.resid.toNat + (now - p.since)) / 16)

/-- The residue of a packet's grant (R343). -/
def Packet.grantResid (p : Packet) (now : Nat) : BitVec 4 := if p.slack = 0xFFF then p.resid else p.resid + BitVec.ofNat 4 (now - p.since)

/-- A unit that leaves the harp adds itself to the units on their way, and changes no harp. -/
theorem State.arrive_grantView (s : State) (d : BitVec 3) (a b : CellId) (k : BitVec 3) (u : Item) (loss : Bool) (sl : BitVec 12) (re : BitVec 4) :
    (s.arrive a b k u loss sl re).grantView d = (s.mem,
      s.wires ++ [{ src := a, dst := b, dq := k, item := u, loss := loss, slack := sl, resid := re }],
      (s.die d).harp.now, (s.die d).harp.grants) := rfl

theorem State.modDie_grantView_self (s : State) (d : BitVec 3) (f : Die → Die) :
    (s.modDie d f).grantView d = (s.mem, s.wires, (f (s.die d)).harp.now, (f (s.die d)).harp.grants) := by
  simp only [State.grantView, State.modDie_die_self]
  rfl

theorem Packet.grant_pair (p : Packet) (now : Nat) :
    (if p.slack = 0xFFF then (p.slack, p.resid) else (BitVec.ofNat 12 (p.effSlack now), p.resid + BitVec.ofNat 4 (now - p.since))) =
      (p.grantSlack now, p.grantResid now) := by
  unfold Packet.grantSlack Packet.grantResid Packet.effSlack
  split
  · rfl
  · rfl

/-- A harp of which an output has granted a packet. -/
def Harp.granted (h : Harp) (o : BitVec 9) (p : Packet) (until_ : Nat) : Harp := { h with
  wait := h.wait.erase p, grants := h.grants.filter (fun g => g ≠ (o, p.inp)) ++ [(o, p.inp)], busy := aset h.busy o until_ }

/-- A granted packet as its unit leaves the harp, and its input takes in the next. -/
theorem State.granted_grantView (s : State) (d : BitVec 3) (o : BitVec 9) (p : Packet) (until_ n : Nat) (sl : BitVec 12) (re : BitVec 4) :
    (((s.modDie d (fun y => { y with harp := y.harp.granted o p until_ })).arrive p.src p.dst p.dq p.item p.loss sl re).feedInput d
        p.inp n).grantView d =
      (s.mem, s.wires ++ [{ src := p.src, dst := p.dst, dq := p.dq, item := p.item, loss := p.loss, slack := sl, resid := re }],
        (s.die d).harp.now, (s.die d).harp.grants.filter (fun g => g ≠ (o, p.inp)) ++ [(o, p.inp)]) := by
  rw [State.feedInput_grantView, State.arrive_grantView, State.modDie_die_self]
  rfl

/-- `HARP_GRANT`, by what the output passes in the harp cycle reached: memory stays, and so does that cycle; a packet passes with the slack and
residue of its grant. -/
theorem execHarpGrant_grantView (s : State) (d : BitVec 3) (o : BitVec 9) (n : Nat) :
    ∃ t, exec (.harpGrant d o n) s = .next t ∧ t.mem = s.mem ∧
      (t.die d).harp.now = s.harpTime d (s.circuits d) n (s.die d).harp.now ∧
      ∀ p, (s.harpAfter d n).harpPick d (s.circuits d) (s.harpTime d (s.circuits d) n (s.die d).harp.now) o = .packet p →
        (o, p.inp) ∈ (t.die d).harp.grants ∧
        t.wires = s.wires ++ [{
          src := p.src, dst := p.dst, dq := p.dq, item := p.item, loss := p.loss
          slack := p.grantSlack (s.harpTime d (s.circuits d) n (s.die d).harp.now)
          resid := p.grantResid (s.harpTime d (s.circuits d) n (s.die d).harp.now) }] := by
  have hview := s.harpAfter_harpView d n
  simp only [exec_harpGrant, execHarpGrant]
  rw [← State.harpAfter]
  generalize s.harpTime d (s.circuits d) n (s.die d).harp.now = now at hview ⊢
  generalize s.harpAfter d n = s0 at hview ⊢
  obtain ⟨hmem, hwires, hharp⟩ := Prod.mk.inj hview |>.imp_right Prod.mk.inj
  have hnow : (s0.die d).harp.now = now := congrArg Harp.now hharp
  cases hpick : s0.harpPick d (s.circuits d) now o with
  | none => exact ⟨s0, rfl, hmem, hnow, by simp⟩
  | circuit e en =>
    dsimp only
    generalize hs1 : ((s0.popEgress d e).modDie d (fun y => { y with
      harp := { y.harp with cbusy := aset y.harp.cbusy o (now + 2 * en.item.slots) } })).countFlits e.src en.item.slots = s1
    have h1 : s1.grantView d = s0.grantView d := by
      rw [← hs1, State.grantView_of_harpView (State.countFlits_harpView _ _ _ d), State.modDie_grantView_self]
      exact State.grantView_of_harpView (s0.popEgress_harpView d e)
    obtain ⟨hm1, -, hn1, -⟩ : s1.mem = s0.mem ∧ s1.wires = s0.wires ∧ (s1.die d).harp.now = (s0.die d).harp.now ∧
        (s1.die d).harp.grants = (s0.die d).harp.grants := by
      simpa only [State.grantView, Prod.mk.injEq] using h1
    exact ⟨_, rfl, hm1.trans hmem, hn1.trans hnow, by simp⟩
  | packet p =>
    dsimp only
    rw [Packet.grant_pair]
    have h1 := s0.granted_grantView d o p
      (now + (if (s.circuits d).any (fun c => c.2 == o || c.1 == p.inp) then 2 * p.item.slots - 1 else p.item.slots)) p.item.slots
      (p.grantSlack now) (p.grantResid now)
    simp only [State.grantView, Prod.mk.injEq] at h1
    obtain ⟨hm1, hw1, hn1, hg1⟩ := h1
    refine ⟨_, rfl, hm1.trans hmem, hn1.trans hnow, fun q hq => ?_⟩
    cases hq
    exact ⟨hg1 ▸ List.mem_append_right _ (List.mem_singleton.mpr rfl), hw1.trans (by rw [hwires])⟩

/-- A late packet stays as it is. -/
theorem Packet.marked_late {p : Packet} (h : p.late = true) (now : Nat) : p.marked now = p := by simp [Packet.marked, h]

/-- The late packet that waits alone for an output that no circuit shares is what it passes, in the harp cycle at hand (R342, R343). -/
theorem State.harpAfter_alone {s : State} {d : BitVec 3} {p : Packet} (n : Nat) (hw : (s.die d).harp.wait = [p]) (hl : p.late = true)
    (hc : s.circuits d = []) (hs : p.since ≤ (s.die d).harp.now) (hb : (aget (s.die d).harp.busy p.outp).getD 0 ≤ (s.die d).harp.now) :
    s.harpTime d (s.circuits d) n (s.die d).harp.now = (s.die d).harp.now ∧
      (s.harpAfter d n).harpPick d (s.circuits d) (s.die d).harp.now p.outp = .packet p := by
  have hpick := State.harpPick_alone hw hs hb
  have htime : s.harpTime d (s.circuits d) n (s.die d).harp.now = (s.die d).harp.now := by
    refine State.harpTime_stays (p := p) (by simp [hw]) ?_ n
    rw [hc, hpick]
    exact HarpPick.noConfusion
  have hharp : ((s.harpAfter d n).die d).harp = (s.die d).harp := by
    have h := s.harpAfter_harpView d n
    simp only [State.harpView, Prod.mk.injEq] at h
    rw [h.2.2, htime, hw, List.map_singleton, Packet.marked_late hl, ← hw]
  refine ⟨htime, hc ▸ State.harpPick_alone ?_ hs ?_⟩
  · rw [hharp, hw]
  · rw [hharp]
    exact hb

/-- `HARP_GRANT` of a late packet that waits alone (R342, R343). -/
theorem execHarpGrant_spec (s : State) (d : BitVec 3) (o : BitVec 9) (n : Nat) : ∃ t, exec (.harpGrant d o n) s = .next t ∧ t.mem = s.mem ∧
    (s.die d).harp.now ≤ (t.die d).harp.now ∧ (t.die d).harp.now ≤ (s.die d).harp.now + n ∧
    ∀ p, (s.die d).harp.wait = [p] → p.outp = o → p.late = true → s.circuits d = [] → p.since ≤ (s.die d).harp.now →
      (aget (s.die d).harp.busy o).getD 0 ≤ (s.die d).harp.now →
      (t.die d).harp.now = (s.die d).harp.now ∧ (o, p.inp) ∈ (t.die d).harp.grants ∧
      t.wires = s.wires ++ [{
        src := p.src, dst := p.dst, dq := p.dq, item := p.item, loss := p.loss
        slack := p.grantSlack (s.die d).harp.now, resid := p.grantResid (s.die d).harp.now }] := by
  obtain ⟨t, ht, hm, hn, hp⟩ := execHarpGrant_grantView s d o n
  obtain ⟨hlo, hhi⟩ := s.harpTime_bounds d (s.circuits d) n (s.die d).harp.now
  refine ⟨t, ht, hm, hn ▸ hlo, hn ▸ hhi, fun p hw ho hl hc hs hb => ?_⟩
  subst ho
  obtain ⟨htime, hpick⟩ := State.harpAfter_alone n hw hl hc hs hb
  rw [htime] at hn hp
  obtain ⟨hg, hwire⟩ := hp p hpick
  exact ⟨hn, hg, hwire⟩

/-! ### A cell that mutes (R375) -/

/-- A cell of a muting region that may act does, and is then muted. -/
theorem execCellMute_mutes {s : State} {c : CellId} {r : Region} (hr : s.regionOf c = some r) (hm : r.muting = true) (hc : s.cellRuns c = true)
    (ha : s.canMute r c = true) : ∃ t, exec (.cellMute c) s = .next t ∧ (t.cell c).muted = true := by
  rw [exec_cellMute, execCellMute, hr]
  simp only [hm, hc, ha, Bool.not_true, Bool.or_self, Bool.false_eq_true, if_false]
  exact ⟨_, rfl, by rw [State.modCell_cell_self]⟩

/-- Settles O53: an offer by the queue's own rules, each policy by the lemma about it, the order of a cell's units by a fold over its
egresses, and a grant by what the harp's step leaves of its die. -/
theorem unitsOnTheirWay : Obligations.UnitsOnTheirWay := by
  unfold Obligations.UnitsOnTheirWay
  refine ⟨fun s s1 a b w o hw ho => ⟨execQueueOffer_retry hw ho, execQueueOffer_done hw ho⟩, fun s s1 c k u o ho => ?_,
    fun q qid u f hs hr hd hf => ?_, fun s c k => ?_,
    fun s c i u w e hu hw he => ⟨execSwitchConvert_bad hu hw he, fun hb v s2 hc => (execSwitchConvert_good hu hw he hb hc).trans (by cases v <;> rfl)⟩,
    fun s c so e0 e n u rest h0 h1 => ⟨?_, fun hd hr hw => execEgressOffer_enters h0 h1 hd hr hw⟩,
    fun s d o n => execHarpGrant_spec s d o n, fun s c r => execCellMute_mutes⟩
  · intro q f hr hr1 hf hh
    exact offerCell_queues ho hr hr1 hf hh
  · rw [← hf]
    refine ⟨?_, Queue.offer_of_high⟩
    rw [Queue.arrive_shedding hs hr hd]
    exact policyActs_shed hr hd qid
  · intro q hz
    refine ⟨fun q1 hs ho hr hl => ⟨execLeaveShedding_leaves hz hs ho hr hl, Queue.leave_state hl⟩, execLeaveShedding_stays hz,
      execQueueClosed_closes hz, execQueueClosed_stays hz, execSpillReplay_empty, fun u rest hr hreach hh =>
      ⟨execSpillReplay_reach hz hr hreach hh, fun hd hf => ?_⟩⟩
    rw [Queue.replay_data hr hd hf]
    exact ⟨rfl, rfl⟩
  · exact (foldl_emittedStep_le _ (firstEmitted_eq _ c e0.dst ▸ h1)).2

end Sys2Proof.Machine

end

section
open Sys2Proof.Cert
namespace Sys2Proof.Machine

/-! ### A K step whose freeze drops a mute (R25, R210, R380, R389) -/

/-- A row of zeros of any format. -/
def zeroRow : Item := vectorOf Tag.template 0 0 0 none

/-- A FLOWING inlet queue of depth 16 that holds two rows of zeros and the tokens behind them. -/
def rowsBefore (us : List Item) : Queue := { Queue.reset with
  state := .flowing, qctl := 4, entries := ⟨zeroRow, true⟩ :: ⟨zeroRow, true⟩ :: us.map (fun u => ⟨u, false⟩) }

/-- A unit of a kind that no consumer accepts (R25). -/
def strayToken : Item := { zeroRow with tag := { Tag.template with kind := 9 }, v1 := none }

/-- The eight queues of a matrix cell, with two rows of zeros in each: behind those of queue 0 a unit that no consumer accepts, and behind
those of queue 1 a mute. -/
def cutQueues : Vector Queue 8 := ((Vector.replicate 8 (rowsBefore [])).set 0 (rowsBefore [strayToken])).set 1 (rowsBefore [muteItem])

/-- The region of the matrix cell: active, of one block, and under a pre-emption that cuts it. -/
def cutRegion : Region := { Region.forLaunch 1 0 ⟨0, 0, 1⟩
  { desc := .phys 0, ctx := 5, part := 0, prio := 0, cmode := true, slack := 0, image := 0, args := 0, chans := 0, stat := 0, tag := 0,
    width := 1, height := 1, reloc := false, leadLx := 0, leadLy := 0, age := 0 } 0 0 with
  kstate := .active, cut := .cutting false }

/-- The matrix cell, with the word of `mma` in slot 0 (R111, R211). -/
def cutCell : Cell := { Cell.reset with
  queues := cutQueues, active := { CellConfig.reset with nodes := CellConfig.reset.nodes.set 0 ((encodeNode (.mma 63 63 0 0)).map (BitVec.ofNat 32)) } }

/-- The machine whose only listed cell is that matrix cell, at its K step. -/
def cutState : State := { (State.reset.setCell ⟨0, 0, 0, 0⟩ cutCell) with
  regions := [cutRegion], nodeTurn := (⟨0, 0, 0, 0⟩, 0) }

theorem cutState_mayAct : mayAct cutState := ⟨by decide +kernel, rfl⟩

theorem cutState_roomFor : roomFor cutState [] 63 63 := ⟨rfl, rfl⟩

theorem zeroRow_fits : zeroRow.v1.isSome = true ∧ vectorBad (elem cutState) zeroRow = false := ⟨rfl, by decide +kernel⟩

/-- Every queue of the cell begins with two rows of zeros. -/
theorem cutState_rows (q : Fin 8) : rowsIn cutState q zeroRow zeroRow := by
  have h : ((here cutState).queues[q].entries.map QEntry.item).take 2 = [zeroRow, zeroRow] := by
    revert q
    decide +kernel
  refine ⟨((here cutState).queues[q].entries.map QEntry.item).drop 2, ?_, rfl, rfl⟩
  calc (here cutState).queues[q].entries.map QEntry.item
    _ = ((here cutState).queues[q].entries.map QEntry.item).take 2 ++ ((here cutState).queues[q].entries.map QEntry.item).drop 2 :=
      (List.take_append_drop 2 _).symm
    _ = zeroRow :: zeroRow :: ((here cutState).queues[q].entries.map QEntry.item).drop 2 := by rw [h]; rfl

/-- Behind its two rows, queue 1 holds the mute. -/
theorem cutState_mute : (here cutState).queues[(1 : Fin 8)].entries.drop 2 = [⟨muteItem, false⟩] := by decide +kernel

/-- After its K step queue 1 is empty. The second pop of queue 0 brings the stray token to its head, and the fault stops the cell (R25, R389);
it was the last of its region to stop, so the region becomes FROZEN, its pre-emption is abandoned, and the mute leaves queue 1 (R380) before
its two rows are popped. -/
theorem cutState_mma : ((matrixAct false 63 63 0 0 cutState).cell cutState.nodeTurn.1).queues[(1 : Fin 8)].entries = [] := by decide +kernel

/-- Refutes O38, in its first clause: a K step may take more from a queue than its two rows. Where a pop brings a stray token to a head, the
fault freezes the region, and an abandoned pre-emption takes its mutes out of the cell's queues. -/
theorem not_vectorNodes : ¬ Obligations.VectorNodes := by
  unfold Obligations.VectorNodes
  intro h
  obtain ⟨hstep, -⟩ := h cutState 63 63 0 0 0 0 0 zeroRow
  obtain ⟨⟨t, ht, -, -, hq⟩, -⟩ := hstep (fun _ => zeroRow) cutState_mayAct cutState_roomFor (by decide +kernel) (by decide +kernel) cutState_rows
    (fun _ => zeroRow_fits) (by decide +kernel)
  obtain rfl : matrixAct false 63 63 0 0 cutState = t := Host.Outcome.next.inj ht
  have hmute := cutState_mma.symm.trans ((hq 1).trans cutState_mute)
  exact List.cons_ne_nil _ _ hmute.symm

end Sys2Proof.Machine

end

section
namespace Sys2Proof

/-! ### Fields of a word that is put together of fields (R6, R101) -/

/-- The value of a field at its place in a word. -/
def atPlace (v lo : Nat) : Nat := v * 2 ^ lo

theorem fld_lt (w lo n : Nat) : fld w lo n < 2 ^ n := Nat.mod_lt _ (Nat.two_pow_pos n)

theorem toNat_fbv (w lo n : Nat) : (fbv w lo n).toNat = fld w lo n := BitVec.toNat_ofNat _ _

theorem fld_literal (k lo n : Nat) : fld (no_index (OfNat.ofNat k)) lo n = OfNat.ofNat k / 2 ^ lo % 2 ^ n := by
  rw [fld]

theorem fbv_literal (k lo n : Nat) : fbv (no_index (OfNat.ofNat k)) lo n = BitVec.ofNat n (OfNat.ofNat k / 2 ^ lo) := by
  rw [fbv]

theorem fld_or (x y lo n : Nat) : fld (x ||| y) lo n = fld x lo n ||| fld y lo n := by
  simp only [fld, Nat.or_div_two_pow, Nat.or_mod_two_pow]

/-- A field does not see one placed above it or below it. -/
theorem fld_or_of_disjoint {x lo n hi m : Nat} {v : BitVec m} (h : lo + n ≤ hi ∨ hi + m ≤ lo) :
    fld (x ||| atPlace v.toNat hi) lo n = fld x lo n := by
  have h0 : fld (atPlace v.toNat hi) lo n = 0 := by
    obtain h | h := h
    · obtain ⟨k, rfl⟩ := Nat.exists_eq_add_of_le h
      have hv : atPlace v.toNat (lo + n + k) = v.toNat * 2 ^ k * 2 ^ n * 2 ^ lo := by rw [atPlace, pow_add, pow_add]; ring
      rw [fld, hv, Nat.mul_div_cancel _ (Nat.two_pow_pos lo), Nat.mul_mod_left]
    · have hv : atPlace v.toNat hi < 2 ^ lo := calc
        atPlace v.toNat hi < 2 ^ m * 2 ^ hi := Nat.mul_lt_mul_of_pos_right v.isLt (Nat.two_pow_pos hi)
        _ = 2 ^ (hi + m) := by rw [Nat.mul_comm, pow_add]
        _ ≤ 2 ^ lo := Nat.pow_le_pow_right (by decide) h
      rw [fld, Nat.div_eq_of_lt hv, Nat.zero_mod]
  rw [fld_or, h0, Nat.or_zero]

theorem fbv_or_of_disjoint {x lo n hi m : Nat} {v : BitVec m} (h : lo + n ≤ hi ∨ hi + m ≤ lo) :
    fbv (x ||| atPlace v.toNat hi) lo n = fbv x lo n :=
  BitVec.eq_of_toNat_eq (by rw [toNat_fbv, toNat_fbv, fld_or_of_disjoint h])

theorem fbv_or_here (x lo : Nat) {n : Nat} (v : BitVec n) : fbv (x ||| atPlace v.toNat lo) lo n = fbv x lo n ||| v := by
  have hv : fbv (atPlace v.toNat lo) lo n = v := by
    rw [fbv, atPlace, Nat.mul_div_cancel _ (Nat.two_pow_pos lo), BitVec.ofNat_toNat, BitVec.setWidth_eq]
  rw [fbv, Nat.or_div_two_pow, BitVec.ofNat_or]
  exact congrArg (fbv x lo n ||| ·) hv

/-- Into bits that are 0, adding a field is setting its bits. -/
theorem add_atPlace {x lo n : Nat} (v : BitVec n) (h : fld x lo n = 0) : x + atPlace v.toNat lo = x ||| atPlace v.toNat lo := by
  obtain ⟨q, hq⟩ : 2 ^ n ∣ x / 2 ^ lo := Nat.dvd_of_mod_eq_zero h
  have hx : 2 ^ lo * (2 ^ n * q) + x % 2 ^ lo = x := by rw [← hq, Nat.div_add_mod]
  have hr := Nat.mod_lt x (Nat.two_pow_pos lo)
  calc x + atPlace v.toNat lo
    _ = 2 ^ lo * (2 ^ n * q + v.toNat) + x % 2 ^ lo := by rw [atPlace, Nat.mul_add, Nat.mul_comm v.toNat]; omega
    _ = (2 ^ n * q ||| v.toNat) <<< lo ||| x % 2 ^ lo := by
      rw [Nat.two_pow_add_eq_or_of_lt hr, Nat.two_pow_add_eq_or_of_lt v.isLt, Nat.shiftLeft_eq, Nat.mul_comm]
    _ = 2 ^ lo * (2 ^ n * q) ||| x % 2 ^ lo ||| atPlace v.toNat lo := by
      rw [Nat.shiftLeft_or_distrib, Nat.or_right_comm, Nat.shiftLeft_eq, Nat.shiftLeft_eq, Nat.mul_comm (2 ^ lo), atPlace]
    _ = x ||| atPlace v.toNat lo := by rw [← Nat.two_pow_add_eq_or_of_lt hr, hx]

theorem place_nil (x : Nat) : place x [] = x := rfl

theorem place_cons {x lo n : Nat} {v : BitVec n} {fs : List (Nat × Nat)} (h : fld x lo n = 0) :
    place x ((lo, v.toNat) :: fs) = place (x ||| atPlace v.toNat lo) fs := by
  rw [place, ← add_atPlace v h, atPlace]

theorem fld_or_here (x lo : Nat) {n : Nat} (v : BitVec n) : fld (x ||| atPlace v.toNat lo) lo n = fld x lo n ||| v.toNat := by
  rw [← toNat_fbv, fbv_or_here, BitVec.toNat_or, toNat_fbv]

/-! ### A word as the sum of its fields -/

/-- The fields of the given widths from a bit on, each at its place. -/
def sumOfFields (w lo : Nat) : List Nat → Nat
  | [] => 0
  | n :: ns => fld w lo n * 2 ^ lo + sumOfFields w (lo + n) ns

theorem sumOfFields_eq (w lo : Nat) (ns : List Nat) : sumOfFields w lo ns = fld w lo ns.sum * 2 ^ lo := by
  induction ns generalizing lo with
  | nil => simp [sumOfFields, fld, Nat.mod_one]
  | cons n ns ih =>
    rw [sumOfFields, ih, List.sum_cons, fld, fld, fld, Nat.pow_add 2 n, Nat.mod_mul, Nat.div_div_eq_div_mul, Nat.pow_add]
    ring

/-- A word is the sum of its fields, for every division of its bits into fields. -/
theorem eq_sumOfFields {w : Nat} (ns : List Nat) (h : w < 2 ^ ns.sum) : sumOfFields w 0 ns = w := by
  rw [sumOfFields_eq, fld, Nat.pow_zero, Nat.div_one, Nat.mul_one, Nat.mod_eq_of_lt h]

end Sys2Proof
end

section
namespace Sys2Proof

/-! ### The set of an instruction -/

theorem encode_of_encodeAlu {i : Instr} {w : Nat} (h : encodeAlu i = some w) : encode i = some w := by
  cases i <;> cases h <;> rfl

theorem encode_of_encodeMem {i : Instr} {w : Nat} (h : encodeMem i = some w) : encode i = some w := by
  cases i <;> cases h <;> rfl

theorem encode_of_encodePort {i : Instr} {w : Nat} (h : encodePort i = some w) : encode i = some w := by
  cases i <;> cases h <;> rfl

theorem encode_of_encodeNode {i : Instr} {w : Nat} (h : encodeNode i = some w) : encode i = some w := by
  cases i <;> cases h <;> rfl

theorem encode_of_encodePolicy {i : Instr} {w : Nat} (h : encodePolicy i = some w) : encode i = some w := by
  cases i <;> cases h <;> rfl

theorem encode_of_encodeRm {i : Instr} {w : Nat} (h : encodeRm i = some w) : encode i = some w := by
  cases i <;> cases h <;> rfl

/-- An instruction of a set is encoded by that set's encoder. -/
theorem encoded_of_isSome {e : Instr → Option Nat} {i : Instr} {w : Nat} (he : ∀ {v}, e i = some v → encode i = some v)
    (hs : (e i).isSome = true) (h : encode i = some w) : e i = some w := by
  obtain ⟨v, hv⟩ := Option.isSome_iff_exists.mp hs
  rw [hv, ← h, he hv]

end Sys2Proof
end

section
namespace Sys2Proof

/-! ### Decoding what was encoded (R102 to R120) -/

theorem decodeAlu_adds {w : Nat} (h : fld w 2 5 = 4) : decodeAlu w =
    gate false (.adds (fbv w 21 5) (fbv w 16 5) (fbv w 11 5) (fbv w 8 3) (fbv w 7 1) (fbv w 0 2)) := by
  have hf : fld w 0 7 = 0x10 ∨ fld w 0 7 = 0x11 ∨ fld w 0 7 = 0x12 ∨ fld w 0 7 = 0x13 := by simp only [fld] at *; omega
  obtain hf | hf | hf | hf := hf <;> simp only [decodeAlu, hf]

theorem decodeAlu_crc {w : Nat} (h : fld w 2 5 = 6) : decodeAlu w =
    gate false (.crc (fbv w 21 5) (fbv w 16 5) (fbv w 11 5) (fbv w 8 3) (fbv w 7 1) (fbv w 0 2)) := by
  have hf : fld w 0 7 = 0x18 ∨ fld w 0 7 = 0x19 ∨ fld w 0 7 = 0x1A ∨ fld w 0 7 = 0x1B := by simp only [fld] at *; omega
  obtain hf | hf | hf | hf := hf <;> simp only [decodeAlu, hf]

theorem decodeAlu_sel {w : Nat} (h : fld w 3 4 = 6) : decodeAlu w =
    gate false (.sel (fbv w 21 5) (fbv w 16 5) (fbv w 11 5) (fbv w 8 3) (fbv w 7 1) (fbv w 0 3)) := by
  have hf : fld w 0 7 = 0x30 ∨ fld w 0 7 = 0x31 ∨ fld w 0 7 = 0x32 ∨ fld w 0 7 = 0x33 ∨
      fld w 0 7 = 0x34 ∨ fld w 0 7 = 0x35 ∨ fld w 0 7 = 0x36 ∨ fld w 0 7 = 0x37 := by simp only [fld] at *; omega
  obtain hf | hf | hf | hf | hf | hf | hf | hf := hf <;> simp only [decodeAlu, hf]

theorem decodeSeq_of_encodeAlu {i : Instr} {w : Nat} (hi : i.wf = true) (h : encodeAlu i = some w) : decodeSeq w = .ok i := by
  cases i <;> cases h
  case adds | crc | sel =>
    simp only [place_cons, place_nil, fld_or_of_disjoint, fbv_or_of_disjoint, fbv_or_here, fld_literal, fbv_literal, or_true, true_or,
      Nat.reduceAdd, Nat.reduceLeDiff, Nat.reducePow, Nat.reduceDiv, Nat.reduceMod, BitVec.zero_or, BitVec.reduceOfNat,
      Bool.false_eq_true, ↓reduceIte, decodeSeq, decodeAlu_adds, decodeAlu_crc, decodeAlu_sel, gate, hi]
  all_goals
    simp only [place_cons, place_nil, fld_or_of_disjoint, fbv_or_of_disjoint, fbv_or_here, fld_literal, fbv_literal, or_true, true_or,
      Nat.reduceAdd, Nat.reduceLeDiff, Nat.reducePow, Nat.reduceDiv, Nat.reduceMod, BitVec.zero_or, BitVec.reduceOfNat,
      bne_self_eq_false, Bool.or_self, Bool.false_eq_true, ↓reduceIte, decodeSeq, decodeAlu, decodeJump, gate, hi]

theorem decodeSeq_of_encodeMem {i : Instr} {w : Nat} (hi : i.wf = true) (h : encodeMem i = some w) : decodeSeq w = .ok i := by
  cases i <;> cases h
  all_goals
    simp only [place_cons, place_nil, fld_or_of_disjoint, fbv_or_of_disjoint, fbv_or_here, fld_literal, fbv_literal, or_true, true_or,
      Nat.reduceAdd, Nat.reduceLeDiff, Nat.reducePow, Nat.reduceDiv, Nat.reduceMod, BitVec.zero_or, BitVec.reduceOfNat,
      bne_self_eq_false, Bool.false_eq_true, ↓reduceIte, decodeSeq, decodeAmo, gate, hi]

/-- A control register that an instruction may name (R123). -/
theorem not_ten_lt {r : BitVec 6} (h : decide (r ≤ 10) = true) : ¬ 10 < r.toNat := Nat.not_lt.mpr (of_decide_eq_true h)

theorem decodeSeq_of_encodePort {i : Instr} {w : Nat} (hi : i.wf = true) (h : encodePort i = some w) : decodeSeq w = .ok i := by
  cases i <;> cases h
  case sysr | sysw =>
    simp only [place_cons, place_nil, fld_or_of_disjoint, fbv_or_of_disjoint, fbv_or_here, fld_literal, fbv_literal, or_true, true_or,
      Nat.reduceAdd, Nat.reduceLeDiff, Nat.reducePow, Nat.reduceDiv, Nat.reduceMod, BitVec.zero_or, BitVec.reduceOfNat,
      bne_self_eq_false, Bool.false_eq_true, ↓reduceIte, decodeSeq, decodePort, gate, hi, fld_or_here, Nat.zero_or, not_ten_lt hi]
  all_goals
    simp only [place_cons, place_nil, fld_or_of_disjoint, fbv_or_of_disjoint, fbv_or_here, fld_literal, fbv_literal, or_true, true_or,
      Nat.reduceAdd, Nat.reduceLeDiff, Nat.reducePow, Nat.reduceDiv, Nat.reduceMod, BitVec.zero_or, BitVec.reduceOfNat,
      Nat.reduceEqDiff, bne_self_eq_false, Bool.or_self, Bool.false_eq_true, ↓reduceIte, decodeSeq, decodePort, decodeScmd, eitherWay, gate, hi]

/-- The function of a word of a kind (R112). -/
def functionOfKind (w : Nat) : Nat → Option Instr
  | 0x0 => decodeArith w
  | 0x1 => decodeCopy w
  | 0x2 => decodeJoin w
  | 0x3 => decodeSteer w
  | 0x4 => decodeReorder w
  | 0x5 => decodeAccum w
  | 0x6 => decodeMemport w
  | 0x7 => decodeAddrgen w
  | 0x8 => decodeWindow w
  | 0x9 => decodeMatrix w
  | 0xA => decodeOnline w
  | 0xB => decodeConvert w
  | _ => none

theorem decodeNode_of_functionOfKind {w : Nat} {i : Instr} (h : functionOfKind w (fld w 28 4) = some i) : decodeNode w = .ok i := by
  have hw : decodeNode w = match functionOfKind w (fld w 28 4) with
    | some i => .ok i
    | none => if 12 ≤ fld w 28 4 then .error .kindReserved else .error .funcUnassigned := rfl
  rw [hw, h]

theorem decodeNode_of_encodeNode {i : Instr} {w : Nat} (h : encodeNode i = some w) : decodeNode w = .ok i := by
  apply decodeNode_of_functionOfKind
  cases i <;> cases h
  all_goals
    simp only [place_cons, place_nil, fld_or_of_disjoint, fbv_or_of_disjoint, fbv_or_here, fld_literal, fbv_literal, or_true, true_or,
      Nat.reduceAdd, Nat.reduceLeDiff, Nat.reducePow, Nat.reduceDiv, Nat.reduceMod, BitVec.zero_or, BitVec.reduceOfNat,
      Nat.reduceEqDiff, ↓reduceIte, functionOfKind, decodeArith, decodeCopy, decodeJoin, decodeSteer, decodeReorder,
      decodeAccum, decodeMemport, decodeAddrgen, decodeWindow, decodeMatrix, decodeOnline, decodeConvert]

theorem decodePolicy_of_encodePolicy {i : Instr} {w : Nat} (hi : i.wf = true) (h : encodePolicy i = some w) : decodePolicy w = .ok i := by
  cases i <;> cases h
  all_goals
    simp only [place_cons, place_nil, fld_or_of_disjoint, fbv_or_of_disjoint, fbv_or_here, fld_literal, fbv_literal, or_true, true_or,
      Nat.reduceAdd, Nat.reduceLeDiff, Nat.reducePow, Nat.reduceDiv, Nat.reduceMod, BitVec.zero_or, BitVec.reduceOfNat,
      bne_self_eq_false, Bool.false_eq_true, ↓reduceIte, decodePolicy, policyGate, hi]

/-- The row that the word of a command reads as: the two rows of `khalt` have one word. -/
def rmRow : Instr → Instr
  | .khaltResume a => .khaltHalt a
  | i => i

theorem decodeRm_of_encodeRm {i : Instr} {w : Nat} (h : encodeRm i = some w) : decodeRm w = .command (rmRow i) := by
  cases i <;> cases h
  all_goals
    simp only [place_cons, place_nil, fld_or_of_disjoint, fbv_or_of_disjoint, fbv_or_here, fld_literal, fbv_literal, or_true, true_or,
      Nat.reduceAdd, Nat.reduceLeDiff, Nat.reducePow, Nat.reduceDiv, Nat.reduceMod, BitVec.zero_or, BitVec.reduceOfNat,
      Nat.reduceEqDiff, bne_self_eq_false, Bool.or_self, Bool.false_eq_true, ↓reduceIte, decodeRm, rmGate, rmRow]

/-- Settles O1: the set that encodes an instruction is the only one, and its decoder reads each field where the encoder placed it. -/
theorem decodeGivesBackWhatEncodeWrote : Obligations.DecodeGivesBackWhatEncodeWrote := by
  intro i w hi h
  refine ⟨fun hs => ?_, fun hs => ?_, fun hs => ?_, fun hs => ?_⟩
  · obtain hs | hs | hs := hs
    · exact decodeSeq_of_encodeAlu hi (encoded_of_isSome encode_of_encodeAlu hs h)
    · exact decodeSeq_of_encodeMem hi (encoded_of_isSome encode_of_encodeMem hs h)
    · exact decodeSeq_of_encodePort hi (encoded_of_isSome encode_of_encodePort hs h)
  · exact decodeNode_of_encodeNode (encoded_of_isSome encode_of_encodeNode hs h)
  · exact decodePolicy_of_encodePolicy hi (encoded_of_isSome encode_of_encodePolicy hs h)
  · exact decodeRm_of_encodeRm (encoded_of_isSome encode_of_encodeRm hs h)

end Sys2Proof
end

section
namespace Sys2Proof

/-! ### Encoding what was decoded (R101 to R109, R116 to R118) -/

/-- What a check that can answer an error leaves. -/
theorem ok_of_check {ε : Type} {c : Prop} [Decidable c] {e : ε} {x : Except ε Instr} {i : Instr}
    (h : (if c then .error e else x) = .ok i) : ¬ c ∧ x = .ok i := by
  split at h
  · cases h
  · next hc => exact ⟨hc, h⟩

theorem ok_of_wf {ε : Type} {e : ε} {i j : Instr} (h : (if i.wf then .ok i else .error e) = Except.ok j) : i.wf = true ∧ i = j := by
  split at h
  · next hi => exact ⟨hi, Except.ok.inj h⟩
  · cases h

/-- An instruction whose placed fields are a word is encoded by the word. -/
theorem encoded {e : Instr → Option Nat} {i : Instr} {K w : Nat} {fs : List (Nat × Nat)} (hi : i.wf = true)
    (he : e i = some (place K fs)) (hw : place K fs = w) : i.wf = true ∧ e i = some w := ⟨hi, hw ▸ he⟩

section
variable {e : Instr → Option Nat} {r : Bool} {i j : Instr} {K w : Nat} {fs : List (Nat × Nat)}

theorem encoded_of_gate (h : gate r i = .ok j) (he : e i = some (place K fs)) (hw : r = false → place K fs = w) :
    j.wf = true ∧ e j = some w := by
  obtain ⟨hr, h⟩ := ok_of_check h
  obtain ⟨hi, rfl⟩ := ok_of_wf h
  exact encoded hi he (hw (by simpa using hr))

theorem encoded_of_policyGate (h : policyGate r i = .ok j) (he : e i = some (place K fs)) (hw : r = false → place K fs = w) :
    j.wf = true ∧ e j = some w := by
  obtain ⟨hr, h⟩ := ok_of_check h
  obtain ⟨hi, rfl⟩ := ok_of_wf h
  exact encoded hi he (hw (by simpa using hr))

theorem encoded_of_eitherWay {i' : Instr} {K' : Nat} {fs' : List (Nat × Nat)} (h : eitherWay w r i i' = .ok j)
    (hi : i.wf = true) (hi' : i'.wf = true) (he : e i = some (place K fs)) (he' : e i' = some (place K' fs'))
    (hw : r = false → fld w 8 4 = 0 → place K fs = w) (hw' : r = false → fld w 8 4 = 1 → place K' fs' = w) :
    j.wf = true ∧ e j = some w := by
  obtain ⟨hr, h⟩ := ok_of_check h
  have hr : r = false := by simpa using hr
  split at h
  · next hc =>
    cases h
    exact encoded hi he (hw hr hc)
  · split at h
    · next hc =>
      cases h
      exact encoded hi' he' (hw' hr hc)
    · cases h

end

/-- The rows of R104 divide a word in the ways that `h0` to `h3` say. -/
theorem encodeAlu_of_decodeAlu {w : Nat} {i : Instr} (hw : w < 2 ^ 32) (hm : fld w 26 6 = 1) (h : decodeAlu w = .ok i) :
    i.wf = true ∧ encodeAlu i = some w := by
  have h0 := eq_sumOfFields [7, 1, 3, 5, 5, 5, 6] hw
  have h1 := sumOfFields_eq w 21 [3, 2]
  have h2 := sumOfFields_eq w 0 [2, 5]
  have h3 := sumOfFields_eq w 0 [3, 4]
  simp only [sumOfFields, List.sum_cons, List.sum_nil, Nat.reduceAdd] at h0 h1 h2 h3
  have hl := fld_lt w 0 2
  have hl' := fld_lt w 0 3
  unfold decodeAlu at h
  split at h
  case h_42 => cases h
  all_goals exact encoded_of_gate h rfl (fun hr => by simp only [bne_eq_false_iff_eq, place, toNat_fbv] at hr ⊢; omega)

theorem encodeAlu_of_decodeJump {w : Nat} {i : Instr} (hw : w < 2 ^ 32) (hm : fld w 26 6 = 3) (h : decodeJump w = .ok i) :
    i.wf = true ∧ encodeAlu i = some w := by
  have h0 := eq_sumOfFields [7, 1, 3, 5, 5, 5, 6] hw
  have h1 := sumOfFields_eq w 11 [5, 5, 5]
  simp only [sumOfFields, List.sum_cons, List.sum_nil, Nat.reduceAdd] at h0 h1
  unfold decodeJump at h
  split at h
  case h_6 => cases h
  all_goals exact encoded_of_gate h rfl (fun hr => by simp only [bne_eq_false_iff_eq, Bool.or_eq_false_iff, place, toNat_fbv] at hr ⊢; omega)

theorem encodeMem_of_decodeAmo {w : Nat} {i : Instr} (hw : w < 2 ^ 32) (hm : fld w 26 6 = 0x1C) (h : decodeAmo w = .ok i) :
    i.wf = true ∧ encodeMem i = some w := by
  have h0 := eq_sumOfFields [6, 2, 3, 2, 3, 5, 5, 6] hw
  simp only [sumOfFields, Nat.reduceAdd] at h0
  unfold decodeAmo at h
  split at h
  case h_10 => cases h
  all_goals exact encoded_of_gate h rfl (fun _ => by simp only [place, toNat_fbv]; omega)

theorem encodePort_of_decodeScmd {w : Nat} {i : Instr} (hw : w < 2 ^ 32) (hm : fld w 26 6 = 0x2E) (hf : fld w 0 8 = 0x14)
    (h : decodeScmd w = .ok i) : i.wf = true ∧ encodePort i = some w := by
  have h0 := eq_sumOfFields [8, 4, 3, 4, 2, 5, 6] hw
  simp only [sumOfFields, Nat.reduceAdd] at h0
  unfold decodeScmd at h
  split at h
  case h_17 => cases h
  all_goals exact encoded_of_gate h rfl (fun hr => by simp only [bne_eq_false_iff_eq, place, toNat_fbv] at hr ⊢; omega)

/-- The rows of R108 divide a word in the ways that `h0` to `h5` say. -/
theorem encodePort_of_decodePort {w : Nat} {i : Instr} (hw : w < 2 ^ 32) (hm : fld w 26 6 = 0x2E) (h : decodePort w = .ok i) :
    i.wf = true ∧ encodePort i = some w := by
  have h0 := eq_sumOfFields [8, 4, 3, 6, 5, 6] hw
  have h1 := sumOfFields_eq w 15 [6, 5]
  have h2 := sumOfFields_eq w 15 [4, 2, 5]
  have h3 := sumOfFields_eq w 15 [4, 7]
  have h4 := sumOfFields_eq w 15 [3, 3]
  have h5 := sumOfFields_eq w 8 [3, 1]
  simp only [sumOfFields, List.sum_cons, List.sum_nil, Nat.reduceAdd] at h0 h1 h2 h3 h4 h5
  unfold decodePort at h
  split at h
  case h_36 => cases h
  case h_12 hf => exact encodePort_of_decodeScmd hw hm hf h
  case h_9 | h_19 | h_20 | h_21 =>
    exact encoded_of_eitherWay h rfl rfl rfl rfl
      (fun hr _ => by simp only [bne_eq_false_iff_eq, place, toNat_fbv] at hr ⊢; omega)
      (fun hr _ => by simp only [bne_eq_false_iff_eq, place, toNat_fbv] at hr ⊢; omega)
  case' h_6 | h_7 => replace h := (ok_of_check h).2
  all_goals exact encoded_of_gate h rfl (fun hr => by simp only [bne_eq_false_iff_eq, Bool.or_eq_false_iff, place, toNat_fbv] at hr ⊢; omega)

/-- The other rows of R103 divide a word in the ways that `h0` to `h5` say. -/
theorem encode_of_decodeSeq {w : Nat} {i : Instr} (hw : w < 2 ^ 32) (h : decodeSeq w = .ok i) :
    i.wf = true ∧ encode i = some w := by
  have h0 := eq_sumOfFields [13, 3, 5, 5, 6] hw
  have h1 := sumOfFields_eq w 0 [6, 7]
  have h2 := sumOfFields_eq w 0 [6, 2, 3, 2]
  have h3 := sumOfFields_eq w 0 [2, 4]
  have h4 := eq_sumOfFields [22, 1, 3, 6] hw
  have h5 := eq_sumOfFields [21, 5, 6] hw
  simp only [sumOfFields, List.sum_cons, List.sum_nil, Nat.reduceAdd] at h0 h1 h2 h3 h4 h5
  unfold decodeSeq at h
  split at h
  case h_1 | h_23 | h_24 => cases h
  case h_2 hm => exact (encodeAlu_of_decodeAlu hw hm h).imp_right encode_of_encodeAlu
  case h_3 hm => exact (encodeAlu_of_decodeJump hw hm h).imp_right encode_of_encodeAlu
  case h_20 hm => exact (encodeMem_of_decodeAmo hw hm h).imp_right encode_of_encodeMem
  case h_22 hm => exact (encodePort_of_decodePort hw hm h).imp_right encode_of_encodePort
  case h_18 | h_19 =>
    obtain ⟨hz, h⟩ := ok_of_check h
    obtain ⟨hd, h⟩ := ok_of_check h
    simp only [bne_iff_ne, ne_eq, not_not] at hz hd
    exact encoded_of_gate h rfl (fun _ => by simp only [place, toNat_fbv]; omega)
  all_goals exact encoded_of_gate h rfl (fun hr => by simp only [bne_eq_false_iff_eq, place, toNat_fbv] at hr ⊢; omega)

/-- The rows of R117 divide a word in the ways that `h0` to `h3` say. -/
theorem encodePolicy_of_decodePolicy {w : Nat} {i : Instr} (hw : w < 2 ^ 16) (h : decodePolicy w = .ok i) :
    i.wf = true ∧ encodePolicy i = some w := by
  have h0 := eq_sumOfFields [5, 3, 3, 5] hw
  have h1 := sumOfFields_eq w 0 [5, 3]
  have h2 := sumOfFields_eq w 0 [2, 3]
  have h3 := sumOfFields_eq w 0 [5, 3, 3]
  simp only [sumOfFields, List.sum_cons, List.sum_nil, Nat.reduceAdd] at h0 h1 h2 h3
  unfold decodePolicy at h
  split at h
  case h_21 => cases h
  case h_12 =>
    obtain ⟨hz, h⟩ := ok_of_check h
    simp only [bne_iff_ne, ne_eq, not_not] at hz
    split at h <;> cases h
    all_goals exact encoded rfl rfl (by simp only [place, toNat_fbv]; omega)
  all_goals exact encoded_of_policyGate h rfl (fun hr => by simp only [bne_eq_false_iff_eq, place, toNat_fbv] at hr ⊢; omega)

/-- Settles O2: a decoder's answer has passed its checks, and a word is the sum of its fields, which the answer's encoding puts back in place. -/
theorem decodersTakeOnlyEncodings : Obligations.DecodersTakeOnlyEncodings :=
  ⟨fun _ _ hw h => encode_of_decodeSeq hw h,
    fun _ _ hw h => (encodePolicy_of_decodePolicy hw h).imp_right encode_of_encodePolicy⟩

end Sys2Proof
end

section
/-!
The two sequencer events of a word that cannot be issued: a word at the program counter that is no instruction, and a program counter
whose page cannot be fetched from (R109, R110, R140, R142).
-/

open Sys2Proof.Cert

namespace Sys2Proof.Machine

theorem exec_wordNotAnInstruction (w : Word32) (s : State) : exec (.wordNotAnInstruction w) s = execWordNotAnInstruction w s := rfl
theorem exec_instructionFetchFault (s : State) : exec .instructionFetchFault s = execInstructionFetchFault s := rfl

/-- An aligned program counter that does not translate gives the cause of its translation fault (R142). -/
theorem State.fetchWord_error {s s1 : State} {q : BitVec 7} {f : XFault} (hpc : (s.seq q).pc.toNat % 4 = 0)
    (hx : s.xlate q .x (s.seq q).pc = (.error f, s1)) : s.fetchWord q = (.error (f.cause, (s.seq q).pc), s1) := by
  simp [State.fetchWord, hpc, hx]

section
variable {s s1 : State} (hi : s.issues = true) (hp : s.fetchPath s.seqTurn = .up) (hc : canTrap s1)
include hi hp hc

/-- A word that is no instruction takes the trap of its decode cause, with the word in TVAL. -/
theorem execWordNotAnInstruction_traps {w : Word32} {c : DecodeCause} (hf : s.fetchWord s.seqTurn = (.ok w, s1))
    (hd : decodeSeq w.toNat = .error c) :
    execWordNotAnInstruction w s = .next (trapped s1 (decodeTrap c) (BitVec.ofNat 64 w.toNat)) := by
  simp [execWordNotAnInstruction, hi, hp, hf, hd, State.trap_canTrap hc, BitVec.setWidth, BitVec.setWidth']

/-- A fetch that faults takes the trap of its fault. -/
theorem execInstructionFetchFault_traps {cause : Nat} {val : Word64} (hf : s.fetchWord s.seqTurn = (.error (cause, val), s1)) :
    execInstructionFetchFault s = .next (trapped s1 cause val) := by
  simp [execInstructionFetchFault, hi, hp, hf, State.trap_canTrap hc]

end

/-- Settles O14: the cause of each event is read off the decoder's answer, or off the fault of the program counter's translation. -/
theorem fetchAndDecodeTraps : Obligations.FetchAndDecodeTraps := by
  unfold Obligations.FetchAndDecodeTraps
  intro s s1 hi hp
  refine ⟨fun w c hf hd hc => ?_, fun hpc hc => ⟨fun hx => ?_, fun hx => ?_⟩⟩
  · rw [exec_wordNotAnInstruction, execWordNotAnInstruction_traps hi hp hc hf hd]
    cases c <;> rfl
  · rw [exec_instructionFetchFault]
    exact execInstructionFetchFault_traps hi hp hc (State.fetchWord_error hpc hx)
  · rw [exec_instructionFetchFault]
    exact execInstructionFetchFault_traps hi hp hc (State.fetchWord_error hpc hx)

end Sys2Proof.Machine
end

section
/-!
The row manager's command extension, one command at a time: the command port, the halt, the drain chain, the black box and the illegal
word (R120, R398, R429 to R434, R436).
-/

open Sys2Proof.Cert

namespace Sys2Proof.Machine

theorem exec_kcmd (b a d : BitVec 5) (s : State) : exec (.kcmd b a d) s = execKcmd b a d s := rfl
theorem exec_kfence (a : BitVec 5) (s : State) : exec (.kfence a) s = execKfence a s := rfl
theorem exec_kfenceComplete (m : BitVec 10) (s : State) : exec (.kfenceComplete m) s = execKfenceComplete m s := rfl
theorem exec_kpoll (a d : BitVec 5) (s : State) : exec (.kpoll a d) s = execKpoll a d s := rfl
theorem exec_kqst (b d : BitVec 5) (s : State) : exec (.kqst b d) s = execKqst b d s := rfl
theorem exec_khaltHalt (a : BitVec 5) (s : State) : exec (.khaltHalt a) s = s.setHalt a := rfl
theorem exec_khaltResume (a : BitVec 5) (s : State) : exec (.khaltResume a) s = s.setHalt a := rfl
theorem exec_kpeek (a d : BitVec 5) (s : State) : exec (.kpeek a d) s = execKpeek a d s := rfl
theorem exec_kreplay (b a : BitVec 5) (s : State) : exec (.kreplay b a) s = execKreplay b a s := rfl
theorem exec_kbbx (a d : BitVec 5) (s : State) : exec (.kbbx a d) s = execKbbx a d s := rfl
theorem exec_illegalInstructionException (w : Word32) (s : State) :
    exec (.illegalInstructionException w) s = execIllegalInstructionException w s := rfl

/-! ### A row manager and its registers -/

theorem aset_aset {α β : Type} [DecidableEq α] (l : List (α × β)) (a : α) (v w : β) : aset (aset l a v) a w = aset l a w := by
  induction l with
  | nil => simp [aset]
  | cons p l ih =>
    obtain ⟨k, x⟩ := p
    by_cases h : k = a
    · simp [aset, h]
    · simp [aset, Ne.symm h, ih]

@[simp] theorem State.setRm_setRm (s : State) (m : BitVec 10) (v w : Rm) : (s.setRm m v).setRm m w = s.setRm m w := by
  simp [State.setRm, aset_aset]

theorem mgr_eq (s : State) : s.rm s.rmTurn = mgr s := rfl
theorem rmReg_eq (s : State) (n : BitVec 5) : (mgr s).read n = rmReg s n := rfl
theorem rmWent_eq (r : Rm) : r.advance = rmWent r := rfl

theorem Rm.write_eq (r : Rm) (d : BitVec 5) (v : Word64) : r.write d v = { r with x := if d = 0 then r.x else r.x.set d.toNat v } := by
  unfold Rm.write
  split <;> rfl

/-- A register written by an instruction that ends. -/
theorem State.rmOn_write (s : State) (d : BitVec 5) (v : Word64) : s.rmOn (fun r => r.write d v) = .next (rmWrote s d v) := by
  simp only [State.rmOn, Rm.write_eq]
  rfl

/-! ### The queue that a selector names (R429) -/

theorem bits_eq_zero_iff {w : Nat} (x : BitVec w) (lo n : Nat) : bits x lo n = 0 ↔ x.toNat / 2 ^ lo % 2 ^ n = 0 := by
  rw [← BitVec.toNat_inj, bits_toNat]
  simp

theorem selectorOf_of_selects {v : Word64} {e : Fin 6} {x : BitVec 3} (h : selects2 v e x) : selectorOf v = some (e, x) := by
  obtain ⟨hv, he⟩ := h
  have hlt := x.isLt
  have hengine : (bits v 0 3).toNat = e.val := by
    rw [bits_toNat, hv]
    omega
  have hdie : bits v 3 3 = x := BitVec.eq_of_toNat_eq (by rw [bits_toNat, hv]; omega)
  have hhigh : bits v 6 58 = 0 := (bits_eq_zero_iff v 6 58).mpr (by rw [hv]; omega)
  have he4 : (⟨e.val, e.isLt⟩ : Fin 6) = 4 → x = 0 := he
  have hnot : ¬ (bits v 6 58 ≠ 0 ∨ e.val = 4 ∧ bits v 3 3 ≠ 0) := by
    rw [hhigh, hdie]
    rintro (h | ⟨h4, hx⟩)
    · exact h rfl
    · exact hx (he4 (Fin.ext h4))
  simp only [selectorOf, hengine]
  rw [dif_pos e.isLt, if_neg hnot, hdie]

theorem selectorOf_eq_none {v : Word64} (h : 5 < v.toNat % 8 ∨ 64 ≤ v.toNat ∨ (v.toNat % 8 = 4 ∧ v.toNat / 8 % 8 ≠ 0)) :
    selectorOf v = none := by
  have hengine : (bits v 0 3).toNat = v.toNat % 8 := by
    rw [bits_toNat]
    omega
  by_cases he : v.toNat % 8 < 6
  · simp only [selectorOf, hengine]
    rw [dif_pos he]
    refine if_pos ?_
    obtain h | h | ⟨h4, hd⟩ := h
    · omega
    · refine .inl fun h0 => ?_
      have h0 := (bits_eq_zero_iff v 6 58).mp h0
      have := v.isLt
      omega
    · refine .inr ⟨h4, fun h0 => hd ?_⟩
      have h0 := (bits_eq_zero_iff v 3 3).mp h0
      omega
  · simp only [selectorOf, hengine]
    exact dif_neg he

/-! ### The command port (R429 to R432) -/

theorem nextCount_toNat (n : BitVec 16) : (nextCount n).toNat = if n = 0xFFFF then 1 else n.toNat + 1 := by
  have hlt := n.isLt
  have hwrap : n + 1 = 0 ↔ n = 0xFFFF := by
    constructor <;> intro h <;> bv_omega
  by_cases h : n = 0xFFFF
  · rw [nextCount, if_pos (hwrap.mpr h), if_pos h]
    rfl
  · rw [nextCount, if_neg (mt hwrap.mp h), if_neg h]
    bv_omega

/-- The number of a row manager's next ticket for a queue. -/
def nextTicket (r : Rm) (e : Fin 6) (x : BitVec 3) : Word64 := ticketNum (nextCount r.count) e x

/-- The row manager behind a `kcmd` that has taken a ticket. -/
def tookTicket (r : Rm) (d : BitVec 5) (num : Word64) : Rm :=
  rmWent { r.write d num with count := nextCount r.count, tickets := r.tickets.filter (fun t => t.num != num) ++ [⟨num, false⟩] }

theorem State.enqueueDesc_queue (s : State) (x : BitVec 3) (e : Fin 6) (q : QDesc) :
    ((s.enqueueDesc x e q).die x).engq[e] = (s.die x).engq[e] ++ [q] := by
  simp [State.enqueueDesc]

section
variable {s : State} {a b d : BitVec 5}

theorem execKcmd_enqueues {e : Fin 6} {x : BitVec 3} (hs : selects2 (rmReg s b) e x) (ha : (rmReg s a).toNat % 64 = 0)
    (ht : ((mgr s).tickets.filter (fun t => !t.done)).length < 16) (hq : ((s.die x).engq[e]).length < 64) :
    execKcmd b a d s = .next ((s.enqueueDesc x e ⟨.phys (rmReg s a), some (s.rmTurn, nextTicket (mgr s) e x), some x, []⟩).setRm s.rmTurn
      (tookTicket (mgr s) d (nextTicket (mgr s) e x))) := by
  have hroom : ¬ (16 ≤ ((mgr s).tickets.filter (fun t => !t.done)).length ∨ 64 ≤ ((s.die x).queue e).length) := by
    rintro (h | h)
    · omega
    · exact Nat.not_le.mpr hq h
  simp only [execKcmd, mgr_eq, rmReg_eq, ha, selectorOf_of_selects hs, ne_eq, not_true_eq_false, if_false]
  exact if_neg hroom

theorem execKcmd_refuses (h : (rmReg s a).toNat % 64 ≠ 0 ∨ selectorOf (rmReg s b) = none) : execKcmd b a d s = .next (rmWrote s d 0) := by
  simp only [execKcmd, mgr_eq, rmReg_eq, State.rmOn_write]
  obtain h | h := h
  · exact if_pos h
  · simp [h]

end

section
variable {r : Rm} {v : Word64} (hv : v ≠ 0)
include hv

theorem Rm.fence_done (h : ∀ k ∈ r.tickets, k.num = v → k.done = true) : r.fence v = (false, r.tickets.filter (fun t => t.num != v)) := by
  have hnone : r.tickets.any (fun t => t.num == v && !t.done) = false := by
    simpa using h
  rw [Rm.fence, if_neg hv, hnone]

theorem Rm.fence_waits (h : ∃ k ∈ r.tickets, k.num = v ∧ k.done = false) : (r.fence v).1 = true := by
  rw [Rm.fence, if_neg hv]
  simpa using h

end

section
variable {s : State} {a : BitVec 5}

theorem execKfence_ends {rest : List Ticket} (h : (mgr s).fence (rmReg s a) = (false, rest)) :
    execKfence a s = .next (s.setRm s.rmTurn (rmWent { mgr s with tickets := rest })) := by
  simp only [execKfence, mgr_eq, rmReg_eq, h]
  rfl

theorem execKfence_waits (h : ((mgr s).fence (rmReg s a)).1 = true) :
    execKfence a s = .next (s.setRm s.rmTurn { mgr s with wait := some (rmReg s a) }) := by
  simp only [execKfence, mgr_eq, rmReg_eq, h, if_true]

theorem execKfenceComplete_ends {w : Word64} {rest : List Ticket} (hw : (mgr s).wait = some w) (h : (mgr s).fence w = (false, rest)) :
    execKfenceComplete s.rmTurn s = .next (s.setRm s.rmTurn (rmWent { mgr s with wait := none, tickets := rest })) := by
  simp only [execKfenceComplete, mgr_eq, hw, h]
  rfl

end

section
variable {s : State} {a d : BitVec 5}

theorem execKpoll_known {k : Ticket} (h : (mgr s).tickets.find? (fun t => t.num == rmReg s a) = some k) :
    execKpoll a d s = .next (rmWrote s d (if k.done then 1 else 0)) := by
  rw [← State.rmOn_write]
  simp only [execKpoll, State.rmOn, mgr_eq, rmReg_eq, h]

theorem execKpoll_unknown (h : ∀ k ∈ (mgr s).tickets, k.num ≠ rmReg s a) : execKpoll a d s = .next (rmWrote s d 2) := by
  have hnone : (mgr s).tickets.find? (fun t => t.num == rmReg s a) = none := by simpa using h
  rw [← State.rmOn_write]
  simp only [execKpoll, State.rmOn, mgr_eq, rmReg_eq, hnone]

theorem execKqst_room {e : Fin 6} {x : BitVec 3} (h : selectorOf (rmReg s a) = some (e, x)) :
    execKqst a d s = .next (rmWrote s d (BitVec.ofNat 64 (64 - ((s.die x).engq[e]).length))) := by
  rw [← State.rmOn_write]
  simp only [execKqst, State.rmOn, mgr_eq, rmReg_eq, h]
  rfl

end

/-! ### The halt (R398, R433) -/

/-- What is in flight is no matter of a row manager's registers. -/
theorem State.setRm_rowInFlight (s : State) (j : BitVec 10) (v : Rm) (m : BitVec 10) : (s.setRm j v).rowInFlight m = s.rowInFlight m := rfl

section
variable {s : State} {a : BitVec 5}

theorem State.setHalt_halts (hv : rmReg s a = 1) : s.setHalt a = .next (s.setRm s.rmTurn
    (if s.rowInFlight s.rmTurn then { mgr s with halted := true } else rmWent { mgr s with halted := true })) := by
  have h0 : bits (rmReg s a) 1 63 = 0 := by
    rw [hv]
    decide
  have h1 : (rmReg s a)[0] = true := by
    rw [hv]
    decide
  cases hf : s.rowInFlight s.rmTurn
  · simp [State.setHalt, mgr_eq, rmReg_eq, h0, h1, State.setRm_rowInFlight, hf, State.rmOn, rmWent_eq]
  · simp [State.setHalt, mgr_eq, rmReg_eq, h0, h1, State.setRm_rowInFlight, hf]

theorem State.setHalt_resumes (hv : rmReg s a = 0) : s.setHalt a = .next (s.setRm s.rmTurn (rmWent { mgr s with halted := false })) := by
  have h0 : bits (rmReg s a) 1 63 = 0 := by
    rw [hv]
    decide
  have h1 : (rmReg s a)[0] = false := by
    rw [hv]
    decide
  simp [State.setHalt, mgr_eq, rmReg_eq, h0, h1, State.rmOn, rmWent_eq]

theorem State.setHalt_other (hv : 2 ≤ (rmReg s a).toNat) : s.setHalt a = .next (s.setRm s.rmTurn (rmWent (mgr s))) := by
  have h0 : bits (rmReg s a) 1 63 ≠ 0 := fun h => by
    have h := (bits_eq_zero_iff (rmReg s a) 1 63).mp h
    have := (rmReg s a).isLt
    omega
  simp only [State.setHalt, mgr_eq, rmReg_eq]
  exact if_pos h0

end

/-! ### The drain chain (R394, R434) -/

theorem cellWord_toNat (c : CellId) (k : BitVec 3) :
    (cellWord c k).toNat = k.toNat * 2 ^ 20 + c.die.toNat * 2 ^ 17 + c.y.toNat * 2 ^ 13 + c.x.toNat * 2 ^ 9 + c.n.toNat * 2 ^ 3 := by
  simp only [cellWord, toNat_append_eq_add, BitVec.ofNat_eq_ofNat, BitVec.toNat_ofNat]
  omega

theorem cellOfWord_cellWord (c : CellId) (k : BitVec 3) : cellOfWord (cellWord c k) = some (c, k) := by
  have hw := cellWord_toNat c k
  have := k.isLt
  have := c.die.isLt
  have := c.y.isLt
  have := c.x.isLt
  have := c.n.isLt
  have field {n : Nat} {v : BitVec n} {lo : Nat} (h : (cellWord c k).toNat / 2 ^ lo % 2 ^ n = v.toNat) : bits (cellWord c k) lo n = v :=
    BitVec.eq_of_toNat_eq ((bits_toNat _ _ _).trans h)
  have hhigh : bits (cellWord c k) 23 9 = 0 := (bits_eq_zero_iff _ 23 9).mpr (by rw [hw]; omega)
  have hlow : bits (cellWord c k) 0 3 = 0 := (bits_eq_zero_iff _ 0 3).mpr (by rw [hw]; omega)
  have hn : bits (cellWord c k) 3 6 = c.n := field (by rw [hw]; omega)
  have hx : bits (cellWord c k) 9 4 = c.x := field (by rw [hw]; omega)
  have hy : bits (cellWord c k) 13 4 = c.y := field (by rw [hw]; omega)
  have hd : bits (cellWord c k) 17 3 = c.die := field (by rw [hw]; omega)
  have hk : bits (cellWord c k) 20 3 = k := field (by rw [hw]; omega)
  simp [cellOfWord, hhigh, hlow, hn, hx, hy, hd, hk]

/-- The fields of a drain-chain index of a cell address, an item and a number within it. -/
theorem chainIndex_fields {v : Word64} {w : Word32} {item sub : Nat} (hi : item < 8) (hs : sub < 16)
    (h : v.toNat = w.toNat + item * 2 ^ 32 + sub * 2 ^ 35) :
    bits v 0 32 = w ∧ (bits v 32 3).toNat = item ∧ (bits v 35 4).toNat = sub ∧ bits v 54 10 = 0 := by
  have hw := w.isLt
  refine ⟨BitVec.eq_of_toNat_eq ?_, ?_, ?_, (bits_eq_zero_iff v 54 10).mpr ?_⟩
  · rw [bits_toNat, h]
    omega
  · rw [bits_toNat, h]
    omega
  · rw [bits_toNat, h]
    omega
  · rw [h]
    omega

theorem State.rowReach_halted {s : State} {m : BitVec 10} {c : CellId} (hc : cellRow c = m) (h : (s.rm m).halted = true) :
    s.rowReach m c = true := by
  simp [State.rowReach, hc, h]

section
variable {s : State} {m : BitVec 10} {v : Word64} {c : CellId} {k : BitVec 3} (hr : s.rowReach m c = true)
include hr

theorem State.chainItem_prm (i : Fin 16) (hv : v.toNat = (cellWord c k).toNat + 3 * 2 ^ 32 + i.val * 2 ^ 35) :
    s.chainItem m v = (s.cell c).active.prm[i] := by
  obtain ⟨hw, hi, hs, hz⟩ := chainIndex_fields (by decide) i.isLt hv
  simp [State.chainItem, hw, hi, hs, hz, cellOfWord_cellWord, hr]

theorem State.chainItem_faultAddr (hv : v.toNat = (cellWord c k).toNat + 2 ^ 35) : s.chainItem m v = (s.cell c).fault.addr := by
  obtain ⟨hw, hi, hs, hz⟩ := chainIndex_fields (item := 0) (sub := 1) (by decide) (by decide) (by simpa using hv)
  simp [State.chainItem, hw, hi, hs, hz, cellOfWord_cellWord, hr, FaultReg.dword]

end

theorem execKpeek_eq (s : State) (a d : BitVec 5) : execKpeek a d s = .next (rmWrote s d (s.chainItem s.rmTurn (rmReg s a))) := by
  rw [← State.rmOn_write]
  rfl

/-! ### The black box (R408, R436) -/

theorem BbEvent.dword_zero (e : BbEvent) : e.dword 0 = BitVec.ofNat 64 (e.eseq.toNat + e.typ.toNat * 2 ^ 32 + e.ctx.toNat * 2 ^ 40) := by
  apply BitVec.eq_of_toNat_eq
  have := e.eseq.isLt
  have := e.typ.isLt
  have := e.ctx.isLt
  simp only [BbEvent.dword, toNat_append_eq_add, BitVec.ofNat_eq_ofNat, BitVec.toNat_ofNat]
  omega

theorem BbEvent.dword_eq (e : BbEvent) {n : Nat} (hn : n < 4) :
    e.dword n = if n = 0 then BitVec.ofNat 64 (e.eseq.toNat + e.typ.toNat * 2 ^ 32 + e.ctx.toNat * 2 ^ 40)
      else if n = 1 then e.summary else if n = 2 then e.addr else e.aux := by
  interval_cases n
  · exact e.dword_zero
  · rfl
  · rfl
  · rfl

/-- The low ten bits of two words agree as words or as numbers. -/
theorem bits_low10_beq (v : Word64) (w : Word32) : (bits w 0 10 == bits v 0 10) = (w.toNat % 1024 == v.toNat % 1024) := by
  rw [Bool.eq_iff_iff, beq_iff_eq, beq_iff_eq, ← BitVec.toNat_inj, bits_toNat, bits_toNat, Nat.pow_zero, Nat.div_one, Nat.div_one]
  exact Iff.rfl

theorem execKbbx_reads {s : State} {a d : BitVec 5} {x : BitVec 3} {e : BbEvent} (hs : (s.die x).service = true)
    (hx : (rmReg s a).toNat / 2 ^ 12 = x.toNat)
    (he : (s.die x).bb.find? (fun y => y.eseq.toNat % 1024 == (rmReg s a).toNat % 1024) = some e) :
    execKbbx a d s = .next (rmWrote s d (e.dword ((rmReg s a).toNat / 1024 % 4))) := by
  have hlt := x.isLt
  have hdie : bits (rmReg s a) 12 3 = x := BitVec.eq_of_toNat_eq (by rw [bits_toNat, hx]; omega)
  have hhigh : bits (rmReg s a) 15 49 = 0 := (bits_eq_zero_iff _ 15 49).mpr (by omega)
  have hword : (bits (rmReg s a) 10 2).toNat = (rmReg s a).toNat / 1024 % 4 := bits_toNat _ _ _
  rw [← State.rmOn_write]
  simp [execKbbx, State.rmOn, mgr_eq, rmReg_eq, hdie, hhigh, hword, hs, bits_low10_beq, he]

/-! ### An illegal word (R120) -/

theorem execIllegalInstructionException_traps {s : State} {w : Word32} (hw : (mgr s).wait = none)
    (hf : s.rvFetch s.rmTurn = .ok (4, w.toNat)) (hd : decodeRm w.toNat = .illegal) :
    execIllegalInstructionException w s = .next (s.setRm s.rmTurn ((mgr s).trap 2 (w.setWidth 64))) := by
  simp [execIllegalInstructionException, mgr_eq, hw, hf, hd]

end Sys2Proof.Machine
end

section
/-!
The replay of a record into a queue (R238, R399, R435): what settling, an offer to a flowing queue and the outcome written to memory leave
of the machine.
-/

open Sys2Proof.Cert

namespace Sys2Proof.Machine

/-! ### What a change of memory alone leaves -/

/-- A row manager without its reservation. -/
def Rm.unreserved (r : Rm) : Rm := { r with resv := none }

theorem State.bare_rm (s : State) (m : BitVec 10) : s.bare.rm m = (s.rm m).unreserved := by
  show (aget (s.rms.map (fun p => (p.1, p.2.unreserved))) m).getD Rm.reset = ((aget s.rms m).getD Rm.reset).unreserved
  rw [aget_map (fun p : BitVec 10 × Rm => (p.1, p.2.unreserved)) (fun _ => rfl)]
  cases aget s.rms m <;> rfl

section
variable {s t : State} (h : t.bare = s.bare)
include h

theorem State.cell_of_bare (c : CellId) : t.cell c = s.cell c :=
  show t.bare.cell c = s.bare.cell c by rw [h]

theorem State.osKey_of_bare : t.osKey = s.osKey :=
  show t.bare.osKey = s.bare.osKey by rw [h]

theorem State.rmTurn_of_bare : t.rmTurn = s.rmTurn :=
  show t.bare.rmTurn = s.bare.rmTurn by rw [h]

/-- A change of memory ends reservations, and leaves a row manager otherwise. -/
theorem State.rm_of_bare (m : BitVec 10) : (t.rm m).unreserved = (s.rm m).unreserved := by
  rw [← State.bare_rm, ← State.bare_rm, h]

theorem State.rm_read_of_bare (m : BitVec 10) (n : BitVec 5) : (t.rm m).read n = (s.rm m).read n :=
  show (t.rm m).unreserved.read n = (s.rm m).unreserved.read n by rw [State.rm_of_bare h]

theorem State.rm_halted_of_bare (m : BitVec 10) : (t.rm m).halted = (s.rm m).halted :=
  show (t.rm m).unreserved.halted = (s.rm m).unreserved.halted by rw [State.rm_of_bare h]

theorem State.rm_pc_of_bare (m : BitVec 10) : (t.rm m).pc = (s.rm m).pc :=
  show (t.rm m).unreserved.pc = (s.rm m).unreserved.pc by rw [State.rm_of_bare h]

end

theorem State.putNum_bare (s : State) (key : Key) (pa n v : Nat) : (s.putNum key pa n v).bare = s.bare := s.putBytes_bare key pa _

/-! ### An offer to a flowing queue (R229, R231, R238) -/

section
variable {q : Queue} {u : Item} (hd : u.isData = true)
include hd

theorem Queue.enqueue_occ : (q.enqueue u).occ = q.occ + u.slots := by
  have hslots : (q.stored u).slots = u.slots := by simp [Queue.stored, QEntry.slots, Item.slots]
  rw [Queue.enqueue_eq hd]
  simp only [Queue.occ, List.map_append, List.sum_append, List.map_cons, List.map_nil, List.sum_cons, List.sum_nil, hslots]
  omega

/-- A queue that is not `kv` stores a unit as it is (R228). -/
theorem Queue.enqueue_whole (hk : q.kv = false) : q.enqueue u = { q with entries := q.entries ++ [⟨u, true⟩] } := by
  have hpay : q.slotPayload true = id := funext fun v => by simp [Queue.slotPayload, hk]
  rw [Queue.enqueue_eq hd, Queue.stored, hpay, Option.map_id]
  rfl

/-- A flowing queue that does not spill keeps DATA that leaves it under HIGH (R231, R238). -/
theorem Queue.offer_flowing (hs : q.state = .flowing) (hp : q.spills = false) (hf : u.slots ≤ q.free) (ho : q.occ + u.slots < q.high)
    (qid : Word32) : q.offer qid u = ⟨q.enqueue u, .kept, none, 0⟩ := by
  have hlow : ¬ (q.enqueue u).high ≤ (q.enqueue u).occ := by
    rw [Queue.enqueue_occ hd]
    exact Nat.not_le.mpr ho
  have harrive : q.arrive qid u = ⟨q.enqueue u, .kept, none, 0⟩ := by
    simp [Queue.arrive, hs, hd, hp, hf, hlow]
  have hstate : (q.enqueue u).state = .flowing := hs
  simp [Queue.offer, harrive, Queue.canLeave, hstate]

/-- DATA behind a queue's units leaves the head, or is one that every consumer accepts (R25). -/
theorem Queue.enqueue_head : (q.enqueue u).head = q.head ∨ ∀ h, (q.enqueue u).head = some h → badToken h = false := by
  rw [Queue.enqueue_eq hd]
  cases he : q.entries with
  | nil =>
    refine .inr fun h hh => ?_
    have hh : (q.stored u).item = h := by simpa [Queue.head] using hh
    rw [← hh]
    exact badToken_of_isData hd
  | cons e es => exact .inl (by simp [Queue.head, he])

end

/-- A state with other pulses on their way. -/
def State.withPulses (s : State) (p : List PulseFlight) : State := { s with pulses := p }

@[simp] theorem State.withPulses_cell (s : State) (p : List PulseFlight) (c : CellId) : (s.withPulses p).cell c = s.cell c := rfl
@[simp] theorem State.withPulses_rm (s : State) (p : List PulseFlight) (m : BitVec 10) : (s.withPulses p).rm m = s.rm m := rfl
@[simp] theorem State.withPulses_rmTurn (s : State) (p : List PulseFlight) : (s.withPulses p).rmTurn = s.rmTurn := rfl
@[simp] theorem State.withPulses_osKey (s : State) (p : List PulseFlight) : (s.withPulses p).osKey = s.osKey := rfl

@[simp] theorem queuePut_rm (s : State) (c : CellId) (k : BitVec 3) (q : Queue) (m : BitVec 10) : (queuePut s c k q).rm m = s.rm m := rfl
@[simp] theorem queuePut_rmTurn (s : State) (c : CellId) (k : BitVec 3) (q : Queue) : (queuePut s c k q).rmTurn = s.rmTurn := rfl
@[simp] theorem queuePut_osKey (s : State) (c : CellId) (k : BitVec 3) (q : Queue) : (queuePut s c k q).osKey = s.osKey := rfl
@[simp] theorem queuePut_queue (s : State) (c : CellId) (k : BitVec 3) (q : Queue) : ((queuePut s c k q).cell c).queues[k.toNat] = q := by
  simp [queuePut]

/-- FREE pulses change what is on its way to the pulse inputs alone (R29). -/
theorem State.sendFrees_eq (c : CellId) (k : BitVec 3) (n : Nat) (s : State) : ∃ p, s.sendFrees c k n = s.withPulses p := by
  induction n generalizing s with
  | zero => exact ⟨s.pulses, rfl⟩
  | succ n ih =>
    obtain ⟨p, hp⟩ := ih (s.sendPulse c k 2)
    exact ⟨p, hp⟩

/-- An offer that leaves the ring as it is, raises no fault and brings no bad head puts its queue back and sends FREE pulses (R25, R29). -/
theorem State.offerCell_of_ring {s : State} {c : CellId} {k : BitVec 3} {u : Item} {q : Queue} {o : Outcome3}
    (ho : (s.cell c).queues[k.toNat].offer (cellWord c k) u = ⟨q, o, none, 0⟩) (hr : q.ring = (s.cell c).queues[k.toNat].ring)
    (hh : q.head = (s.cell c).queues[k.toNat].head ∨ ∀ h, q.head = some h → badToken h = false) :
    ∃ p, s.offerCell c k u = ((queuePut s c k q).withPulses p, o) := by
  have hoff : s.offerQ c.die (s.ctxOfCell c) (cellWord c k) (s.cell c).queues[k.toNat] u = (⟨q, o, none, 0⟩, none, s) := by
    rw [State.offerQ_of_ring (by rw [ho, hr]), ho]
  obtain ⟨p, hp⟩ := State.sendFrees_eq c k (freedEots false q.units - freedEots false (s.cell c).queues[k.toNat].units) (queuePut s c k q)
  have hput : (((queuePut s c k q).withPulses p).cell c).queues[k.toNat] = q := queuePut_queue s c k q
  refine ⟨p, ?_⟩
  rw [← hput] at hh
  simp only [State.offerCell, hoff]
  show (State.newHead ((queuePut s c k q).sendFrees c k _) c k _, o) = _
  rw [hp, State.newHead_eq hh]

/-! ### The replay (R399, R435) -/

/-- The record at a physical address, as a replay offers it. -/
def recordAt (s : State) (pa : Nat) : Item :=
  { tag := tagOfWord (s.dwordAt s.osKey (pa + 64)), v0 := BitVec.ofNat 512 (s.numAt s.osKey pa 64), v1 := none, inv := none }

section
variable {s s1 : State} {a b : BitVec 5} {c : CellId} {k : BitVec 3} {pa : Nat} (hs : s.settle (.die (rmDie s.rmTurn)) = s1)
  (hc : cellRow c = s.rmTurn) (hh : (mgr s).halted = true) (ha : rmReg s a = (cellWord c k).setWidth 64)
  (hb : (rmReg s b).toNat = pa) (hal : pa % 128 = 0)
  (hup : s1.physUp (rmDie s.rmTurn) pa 80 = true) (hreach : s1.rvReach (rmReg s b) 80 = true) (hpoison : s1.poisonIn pa 80 = none)
include hs hc hh ha hb hal hup hreach hpoison

/-- A replay that can reach its record offers it, and writes the outcome behind it. -/
theorem execKreplay_offers {u : Item} (hu : recordAt s1 pa = u) {s2 : State} {o : Outcome3} (ho : s1.offerCell c k u = (s2, o))
    (hne : o ≠ .retry) :
    execKreplay b a s = (s2.putNum s2.osKey (pa + 72) 8 o.replayCode).rmOn id := by
  have hbare : s1.bare = s.bare := hs ▸ s.settle_bare _
  have hreadA : (s1.rm s.rmTurn).read a = (cellWord c k).setWidth 64 := (State.rm_read_of_bare hbare _ a).trans ha
  have hreadB : (s1.rm s.rmTurn).read b = rmReg s b := State.rm_read_of_bare hbare _ b
  have hhalt : (s1.rm s.rmTurn).halted = true := (State.rm_halted_of_bare hbare _).trans hh
  have hlt := (cellWord c k).isLt
  have hlow : bits ((cellWord c k).setWidth 64) 0 32 = cellWord c k :=
    BitVec.eq_of_toNat_eq (by rw [bits_toNat, BitVec.toNat_setWidth]; omega)
  have hhigh : bits ((cellWord c k).setWidth 64) 32 32 = 0 := (bits_eq_zero_iff _ 32 32).mpr (by rw [BitVec.toNat_setWidth]; omega)
  rw [← hu, recordAt] at ho
  simp [execKreplay, hs, hreadA, hreadB, hb, hup, hreach, hpoison, hal, hlow, hhigh, cellOfWord_cellWord, hc, hhalt, ho, hne]

end

/-- The 8 bytes that hold the outcome lie with their record in the management block or out of it (R442). -/
theorem not_inMgmt_outcome {pa : Nat} (hal : pa % 128 = 0) (h : inMgmt pa = false) :
    ∀ x, pa + 72 ≤ x → x < pa + 72 + 8 → inMgmt x = false := by
  intro x h1 h2
  simp only [inMgmt, decide_eq_false_iff_not] at h ⊢
  omega

/-- An outcome of 0 written to memory by an instruction that ends. -/
theorem rmOn_putNum_zero {s : State} {pa : Nat} (hok : MemOk s) (hm : ∀ x, pa ≤ x → x < pa + 8 → inMgmt x = false) :
    ∃ t, (s.putNum s.osKey pa 8 0).rmOn id = .next t ∧ (∀ c, t.cell c = s.cell c) ∧ t.numAt s.osKey pa 8 = 0 ∧
      (t.rm s.rmTurn).pc = (s.rm s.rmTurn).pc + 4 := by
  have hbare := s.putNum_bare s.osKey pa 8 0
  refine ⟨_, rfl, fun c => ?_, ?_, ?_⟩
  · exact State.cell_of_bare hbare c
  · exact State.putNum_numAt_self hok hm (by decide)
  · rw [State.rmTurn_of_bare hbare, State.setRm_rm_self]
    exact congrArg (· + 4) (State.rm_pc_of_bare hbare s.rmTurn)

/-- A replay into a flowing queue that keeps the record (R231, R238). -/
theorem execKreplay_keeps {s s1 : State} {a b : BitVec 5} {c : CellId} {k : BitVec 3} (hs : s.settle (.die (rmDie s.rmTurn)) = s1)
    (hc : cellRow c = s.rmTurn) (hh : (mgr s).halted = true) (ha : rmReg s a = (cellWord c k).setWidth 64)
    (hal : (rmReg s b).toNat % 128 = 0) (hok : MemOk s) (hup : s1.physUp (rmDie s.rmTurn) (rmReg s b).toNat 80 = true)
    (hreach : s1.rvReach (rmReg s b) 80 = true) (hpoison : s1.poisonIn (rmReg s b).toNat 80 = none)
    (hm : inMgmt (rmReg s b).toNat = false) {q : Queue} {u : Item} (hq : (s.cell c).queues[k.toNat] = q)
    (hu : recordAt s1 (rmReg s b).toNat = u) (hd : u.isData = true) (hflow : q.state = .flowing) (hfree : u.slots ≤ q.free)
    (hocc : q.occ + u.slots < q.high) (hspill : q.spills = false) :
    ∃ t, execKreplay b a s = .next t ∧ (t.cell c).queues[k.toNat] = q.enqueue u ∧
      t.numAt s.osKey ((rmReg s b).toNat + 72) 8 = 0 ∧ (t.rm s.rmTurn).pc = (mgr s).pc + 4 := by
  have hbare : s1.bare = s.bare := hs ▸ s.settle_bare _
  have hq1 : (s1.cell c).queues[k.toNat] = q := by rw [State.cell_of_bare hbare, hq]
  have hring : (q.enqueue u).ring = (s1.cell c).queues[k.toNat].ring := by
    rw [hq1]
    rfl
  have hhead : (q.enqueue u).head = (s1.cell c).queues[k.toNat].head ∨ ∀ h, (q.enqueue u).head = some h → badToken h = false := by
    rw [hq1]
    exact Queue.enqueue_head hd
  have hoffer : (s1.cell c).queues[k.toNat].offer (cellWord c k) u = ⟨q.enqueue u, .kept, none, 0⟩ := by
    rw [hq1]
    exact Queue.offer_flowing hd hflow hspill hfree hocc _
  obtain ⟨p, hp⟩ := State.offerCell_of_ring hoffer hring hhead
  have hok1 : MemOk s1 := hs ▸ State.settle_memOk s _ hok
  obtain ⟨t, ht, hcell, hnum, hpc⟩ := rmOn_putNum_zero (s := (queuePut s1 c k (q.enqueue u)).withPulses p) (MemOk.of_mem rfl hok1)
    (not_inMgmt_outcome hal hm)
  refine ⟨t, ?_, ?_, ?_, ?_⟩
  · rw [execKreplay_offers hs hc hh ha rfl hal hup hreach hpoison hu hp (by decide), Outcome3.replayCode]
    exact ht
  · rw [hcell]
    exact queuePut_queue s1 c k _
  · simpa [State.osKey_of_bare hbare] using hnum
  · simpa [State.rmTurn_of_bare hbare, State.rm_pc_of_bare hbare, mgr_eq] using hpc

end Sys2Proof.Machine
end

section
open Sys2Proof.Cert
namespace Sys2Proof.Machine

/-! ### The commands together (R120, R429 to R436) -/

/-- What a `kcmd` that takes a ticket leaves in its row manager: the number, the ticket and the next word. -/
theorem tookTicket_fields (r : Rm) (d : BitVec 5) (num : Word64) :
    (d ≠ 0 → (tookTicket r d num).x[d.toNat] = num) ∧ ⟨num, false⟩ ∈ (tookTicket r d num).tickets ∧
      (tookTicket r d num).pc = r.pc + 4 := by
  refine ⟨fun hd => ?_, by simp [tookTicket, rmWent], ?_⟩
  · have hx : (tookTicket r d num).x = r.x.set d.toNat num := congrArg Rm.x (if_neg hd)
    simp [hx]
  · simp [tookTicket, rmWent, Rm.write_eq]

theorem nextTicket_eq (r : Rm) (e : Fin 6) (x : BitVec 3) : nextTicket r e x =
    BitVec.ofNat 64 ((if r.count = 0xFFFF then 1 else r.count.toNat + 1) + x.toNat * 2 ^ 16 + e.val * 2 ^ 19) := by
  rw [nextTicket, ticketNum, nextCount_toNat]

/-- Settles O42: each command by its own lemma above. -/
theorem rowManagerCommands : Obligations.RowManagerCommands := by
  unfold Obligations.RowManagerCommands
  intro s a b d m va v
  refine ⟨fun e x hs ha ht hq => ?kcmd, fun h => ?refused, fun hdone h0 => ?fence, fun hwait h0 => ?fenceWaits, fun w hw h0 hdone => ?fenceEnds,
    fun k hk => ?poll, fun hk => ?pollUnknown, fun e x hs => ?room, fun i hi => ?halt, fun c k i hc hh hv => ?prm, fun c k hc hh hv => ?faultAddr,
    fun c k hc hh ha hal hok => ?replay, fun x e hs hx he => ?blackBox, fun w hw hf hd => ?illegal⟩
  case kcmd =>
    obtain ⟨hreg, hticket, hpc⟩ := tookTicket_fields (mgr s) d (nextTicket (mgr s) e x)
    rw [exec_kcmd, execKcmd_enqueues hs ha ht hq]
    refine ⟨_, rfl, rfl, ?_⟩
    rw [← nextTicket_eq]
    refine ⟨State.enqueueDesc_queue s x e _, ?_⟩
    rw [State.setRm_rm_self]
    exact ⟨hreg, hticket, hpc⟩
  case refused =>
    rw [exec_kcmd]
    exact execKcmd_refuses (h.imp_right selectorOf_eq_none)
  case fence =>
    rw [exec_kfence]
    exact execKfence_ends (Rm.fence_done h0 hdone)
  case fenceWaits =>
    rw [exec_kfence]
    exact execKfence_waits (Rm.fence_waits h0 hwait)
  case fenceEnds =>
    rw [exec_kfenceComplete]
    exact execKfenceComplete_ends hw (Rm.fence_done h0 hdone)
  case poll =>
    rw [exec_kpoll]
    exact execKpoll_known hk
  case pollUnknown =>
    rw [exec_kpoll]
    exact execKpoll_unknown hk
  case room =>
    rw [exec_kqst]
    exact execKqst_room (selectorOf_of_selects hs)
  case halt =>
    have hexec : exec i s = s.setHalt a := by
      obtain rfl | rfl : i = .khaltHalt a ∨ i = .khaltResume a := by simpa using hi
      · exact exec_khaltHalt a s
      · exact exec_khaltResume a s
    rw [hexec]
    refine ⟨fun h1 hf => ?_, fun h1 hf => ?_, State.setHalt_resumes, State.setHalt_other⟩
    · rw [State.setHalt_halts h1, hf]
      rfl
    · rw [State.setHalt_halts h1, hf]
      rfl
  case prm =>
    rw [exec_kpeek, execKpeek_eq, State.chainItem_prm (State.rowReach_halted hc hh) i hv]
  case faultAddr =>
    rw [exec_kpeek, execKpeek_eq, State.chainItem_faultAddr (State.rowReach_halted hc hh) hv]
  case replay =>
    intro s1 hup hreach hpoison x u hflow hd hfree hocc hspill hkv hm
    have hkey : s1.osKey = s.osKey := State.osKey_of_bare (s.settle_bare _)
    have hu : recordAt s1 v.toNat = u := by rw [recordAt, hkey]
    rw [exec_kreplay, ← Queue.enqueue_whole hd hkv]
    exact execKreplay_keeps rfl hc hh ha hal hok hup hreach hpoison hm rfl hu hd hflow hfree hocc hspill
  case blackBox =>
    rw [exec_kbbx, execKbbx_reads hs hx he, BbEvent.dword_eq e (Nat.mod_lt _ (by decide))]
  case illegal =>
    rw [exec_illegalInstructionException, execIllegalInstructionException_traps hw hf hd, Rm.trap, ← hw]
    rfl

end Sys2Proof.Machine
end

section
open Sys2Proof.Cert
namespace Sys2Proof.Machine

/-! ### Integer operations under a true guard (R49, R121) -/

theorem guardHolds_of_guardOn_sense {s : State} {g : BitVec 3} {sn : BitVec 1} (h : guardOn s g sn) : (me s).guardHolds g sn = true := by
  unfold guardOn at h
  unfold Seq.guardHolds Seq.readP
  obtain rfl | rfl : sn = 0 ∨ sn = 1 := by bv_omega
  · simpa using h
  · simpa using h

theorem wrote_eq (s : State) (d : BitVec 5) (v : Word64) : wrote s d v = s.setSeq s.seqTurn ((me s).writeG d v).advance := by
  unfold wrote Seq.writeG
  by_cases hd : d = 0
  · rw [if_pos hd, if_pos hd]; rfl
  · rw [if_neg hd, if_neg hd]; rfl

theorem wroteP_eq (s : State) (d : BitVec 3) (v : Bool) : wroteP s d v = s.setSeq s.seqTurn ((me s).writeP d v).advance := by
  unfold wroteP Seq.writeP
  by_cases hd : d = 0
  · rw [if_pos hd, if_pos hd]; rfl
  · rw [if_neg hd, if_neg hd]; rfl

section
variable {s : State} {g : BitVec 3} {sn : BitVec 1} (h : guardOn s g sn)
include h

theorem aluOp_on (d : BitVec 5) (f : Seq → Word64) : aluOp s d g sn f = .next (wrote s d (f (me s))) := by
  rw [aluOp_eq, ← me, if_pos (guardHolds_of_guardOn_sense h), wrote_eq]

theorem cmpOp_on (d : BitVec 3) (f : Seq → Bool) : cmpOp s d g sn f = .next (wroteP s d (f (me s))) := by
  rw [cmpOp_eq, ← me, if_pos (guardHolds_of_guardOn_sense h), wroteP_eq]

theorem guarded_on (body : Seq → Result) : guarded s g sn body = body (me s) := guarded_true _ (guardHolds_of_guardOn_sense h)

end

/-! ### The values of the register operations (R132) -/

theorem shiftLeft_low6 (x y : Word64) : x <<< (y &&& 63) = BitVec.ofNat 64 (x.toNat * 2 ^ (y.toNat % 64)) := by
  apply BitVec.eq_of_toNat_eq
  have : (y &&& 63).toNat = y.toNat % 64 := by
    rw [BitVec.toNat_and]; exact Nat.and_two_pow_sub_one_eq_mod y.toNat 6
  rw [BitVec.shiftLeft_eq', BitVec.toNat_shiftLeft, this, BitVec.toNat_ofNat, Nat.shiftLeft_eq]

theorem shiftRight_low6 (x y : Word64) : x >>> (y &&& 63) = BitVec.ofNat 64 (x.toNat / 2 ^ (y.toNat % 64)) := by
  apply BitVec.eq_of_toNat_eq
  have : (y &&& 63).toNat = y.toNat % 64 := by
    rw [BitVec.toNat_and]; exact Nat.and_two_pow_sub_one_eq_mod y.toNat 6
  rw [BitVec.ushiftRight_eq', BitVec.toNat_ushiftRight, this, BitVec.toNat_ofNat, Nat.shiftRight_eq_div_pow,
    Nat.mod_eq_of_lt (Nat.lt_of_le_of_lt (Nat.div_le_self _ _) x.isLt)]

theorem sshiftRight_eq_ofInt_div (x : Word64) (n : Nat) : x.sshiftRight n = BitVec.ofInt 64 (x.toInt / 2 ^ n) := by
  rw [← BitVec.ofInt_toInt (x := x.sshiftRight n), BitVec.toInt_sshiftRight, Int.shiftRight_eq_div_pow]
  simp

theorem mul_eq_ofNat (x y : Word64) : x * y = BitVec.ofNat 64 (x.toNat * y.toNat) := by
  rw [BitVec.ofNat_mul, BitVec.ofNat_toNat, BitVec.ofNat_toNat, BitVec.setWidth_eq, BitVec.setWidth_eq]

theorem remS_eq (x y : Word64) : remS x y = if y = 0 then x else BitVec.ofInt 64 (x.toInt - x.toInt.tdiv y.toInt * y.toInt) := by
  rw [remS, Int.tmod_def, Int.mul_comm y.toInt]

theorem min_eq_ofInt (x y : Word64) : (if x.sle y then x else y) = BitVec.ofInt 64 (min x.toInt y.toInt) := by
  simp only [BitVec.sle, decide_eq_true_eq]
  split
  · next h => rw [min_eq_left h, BitVec.ofInt_toInt]
  · next h => rw [min_eq_right (by omega), BitVec.ofInt_toInt]

theorem max_eq_ofInt (x y : Word64) : (if x.sle y then y else x) = BitVec.ofInt 64 (max x.toInt y.toInt) := by
  simp only [BitVec.sle, decide_eq_true_eq]
  split
  · next h => rw [max_eq_right h, BitVec.ofInt_toInt]
  · next h => rw [max_eq_left (by omega), BitVec.ofInt_toInt]

/-- The leading zeros of a word: so many that it is below `2 ^ (64 - n)`, and no more. -/
theorem countLeading_spec (x : Word64) : ∃ n, n ≤ 64 ∧ x.toNat < 2 ^ (64 - n) ∧ (n < 64 → 2 ^ (63 - n) ≤ x.toNat) ∧
    countLeading x = BitVec.ofNat 64 n := by
  unfold countLeading
  split
  · next h => exact ⟨64, by omega, by simp [h], by omega, rfl⟩
  · next h =>
    have hx : x.toNat ≠ 0 := by simpa [← BitVec.toNat_inj] using h
    have hlog : Nat.log2 x.toNat < 64 := (Nat.log2_lt hx).mpr x.isLt
    refine ⟨63 - Nat.log2 x.toNat, by omega, ?_, fun _ => ?_, rfl⟩
    · rw [show 64 - (63 - Nat.log2 x.toNat) = Nat.log2 x.toNat + 1 by omega]
      exact Nat.lt_log2_self
    · rw [show 63 - (63 - Nat.log2 x.toNat) = Nat.log2 x.toNat by omega]
      exact Nat.log2_self_le hx

theorem foldl_count {α : Type} (p : α → Bool) (l : List α) (n : Nat) :
    l.foldl (fun n i => if p i then n + 1 else n) n = n + l.countP p := by
  induction l generalizing n with
  | nil => rfl
  | cons a l ih => rw [List.foldl_cons, ih, List.countP_cons]; split <;> omega

theorem countOnes_eq (x : Word64) : countOnes x = BitVec.ofNat 64 ((List.range 64).countP (fun i => x.getLsbD i)) := by
  rw [countOnes, foldl_count, Nat.zero_add]

/-- Settles O4: a register operation writes its result, and each result is the value of R132. -/
theorem registerOperationsGiveTheirResults : Obligations.RegisterOperationsGiveTheirResults := by
  intro s d a b g sn h x y
  have on {v : Word64} (f : Seq → Word64) (hf : f (me s) = v) : aluOp s d g sn f = .next (wrote s d v) := hf ▸ aluOp_on h d f
  simp only [exec]
  refine ⟨on _ rfl, on _ rfl, on _ rfl, on _ rfl, on _ rfl, on _ (shiftLeft_low6 x y), on _ (shiftRight_low6 x y),
    on _ (sshiftRight_eq_ofInt_div x _), on _ (mul_eq_ofNat x y), on _ rfl, on _ rfl, on _ (remS_eq x y), on _ (min_eq_ofInt x y),
    on _ (max_eq_ofInt x y), ?_, on _ (countOnes_eq x), fun hx hy => ?_⟩
  · obtain ⟨n, hn, hlt, hle, hv⟩ := countLeading_spec x
    exact ⟨n, hn, hlt, hle, on _ hv⟩
  · constructor
    · exact on (fun q => divS (q.readG a) (q.readG b)) (show divS x y = _ by rw [hx, hy]; decide)
    · exact on (fun q => remS (q.readG a) (q.readG b)) (show remS x y = _ by rw [hx, hy]; decide)

end Sys2Proof.Machine
end

section
open Sys2Proof.Cert
namespace Sys2Proof.Machine

/-! ### The values of the immediate operations (R133, R134) -/

theorem imm13_eq (i : BitVec 13) : imm13 i = BitVec.ofInt 64 i.toInt := rfl

theorem add_imm13 (x : Word64) (i : BitVec 13) : x + imm13 i = BitVec.ofInt 64 (x.toInt + i.toInt) := by
  rw [imm13_eq, BitVec.ofInt_add, BitVec.ofInt_toInt]

theorem shiftLeft_eq_ofNat (x : Word64) (n : Nat) : x <<< n = BitVec.ofNat 64 (x.toNat * 2 ^ n) := by
  apply BitVec.eq_of_toNat_eq
  rw [BitVec.toNat_shiftLeft, BitVec.toNat_ofNat, Nat.shiftLeft_eq]

theorem shiftRight_eq_ofNat (x : Word64) (n : Nat) : x >>> n = BitVec.ofNat 64 (x.toNat / 2 ^ n) := by
  apply BitVec.eq_of_toNat_eq
  rw [BitVec.toNat_ushiftRight, BitVec.toNat_ofNat, Nat.shiftRight_eq_div_pow,
    Nat.mod_eq_of_lt (Nat.lt_of_le_of_lt (Nat.div_le_self _ _) x.isLt)]

theorem lih_eq (x : Word64) (v : BitVec 21) :
    x <<< 21 ||| v.setWidth 64 = BitVec.ofNat 64 (x.toNat * 2 ^ 21 % 2 ^ 64 + v.toNat) := by
  have hv := v.isLt
  have hor : x <<< 21 ||| v.setWidth 64 = x <<< 21 + v.setWidth 64 := by
    refine (BitVec.add_eq_or_of_and_eq_zero _ _ ?_).symm
    ext i hi
    by_cases h : i < 21
    · simp [h]
    · simp [h, BitVec.getLsbD_of_ge v i (by omega)]
  apply BitVec.eq_of_toNat_eq
  rw [hor, BitVec.toNat_add, BitVec.toNat_shiftLeft, BitVec.toNat_setWidth, BitVec.toNat_ofNat, Nat.shiftLeft_eq]
  omega

/-- Settles O5: an immediate operation is a register operation with the immediate's value, and `lih` takes no guard. -/
theorem immediateOperationsGiveTheirResults : Obligations.ImmediateOperationsGiveTheirResults := by
  intro s d a g i n v x
  simp only [exec]
  refine ⟨fun h => ?_, ?_⟩
  · have on {v : Word64} (f : Seq → Word64) (hf : f (me s) = v) : aluOp s d g 0 f = .next (wrote s d v) := hf ▸ aluOp_on h d f
    exact ⟨on _ (add_imm13 x i), on _ rfl, on _ rfl, on _ rfl, on _ (shiftLeft_eq_ofNat x _), on _ (shiftRight_eq_ofNat x _),
      on _ (sshiftRight_eq_ofInt_div x _)⟩
  · rw [← lih_eq, wrote_eq]
    rfl

/-! ### Bit fields and the CRC step (R137, R138) -/

theorem adds_eq (x y : Word64) (n : Nat) : x + y <<< n = BitVec.ofNat 64 (x.toNat + y.toNat * 2 ^ n) := by
  rw [shiftLeft_eq_ofNat, BitVec.ofNat_add, BitVec.ofNat_toNat, BitVec.setWidth_eq]

theorem mad_eq (d x y : Word64) : d + x * y = BitVec.ofNat 64 (d.toNat + x.toNat * y.toNat) := by
  rw [mul_eq_ofNat, BitVec.ofNat_add, BitVec.ofNat_toNat, BitVec.setWidth_eq]

theorem fieldPos_eq (y : Word64) : fieldPos y = y.toNat % 64 := by
  rw [fieldPos, bits_toNat]; omega

theorem fieldLen_eq (y : Word64) : fieldLen y = y.toNat / 256 % 64 + 1 := by
  rw [fieldLen, bits_toNat]; rfl

theorem extractField_getLsbD (x y : Word64) {i : Nat} (hi : i < 64) :
    (extractField x y).getLsbD i = (decide (i < fieldLen y) && x.getLsbD (fieldPos y + i)) := by
  rw [extractField, BitVec.getLsbD_ofNat, Nat.testBit_mod_two_pow, Nat.testBit_div_two_pow, BitVec.testBit_toNat, Nat.add_comm i]
  simp [hi]

theorem insertField_getLsbD (d x y : Word64) {i : Nat} (hi : i < 64) : (insertField d x y).getLsbD i =
    if fieldPos y ≤ i ∧ i < fieldPos y + fieldLen y then x.getLsbD (i - fieldPos y) else d.getLsbD i := by
  have hmask : (BitVec.ofNat 64 ((2 ^ fieldLen y - 1) * 2 ^ fieldPos y)).getLsbD i =
      decide (fieldPos y ≤ i ∧ i < fieldPos y + fieldLen y) := by
    rw [BitVec.getLsbD_ofNat, Nat.testBit_mul_two_pow, Nat.testBit_two_pow_sub_one, decide_eq_true hi, Bool.true_and, ← Bool.decide_and]
    exact decide_eq_decide.mpr (by omega)
  have hfield : (BitVec.ofNat 64 (x.toNat * 2 ^ fieldPos y)).getLsbD i = (decide (fieldPos y ≤ i) && x.getLsbD (i - fieldPos y)) := by
    rw [BitVec.getLsbD_ofNat, Nat.testBit_mul_two_pow, BitVec.testBit_toNat, decide_eq_true hi, Bool.true_and]
  simp only [insertField, BitVec.getLsbD_or, BitVec.getLsbD_and, BitVec.getLsbD_not, hi, hmask, hfield]
  by_cases h : fieldPos y ≤ i ∧ i < fieldPos y + fieldLen y
  · simp [h]
  · simp [h]

/-- One step of R138 with bit `i` of a word. -/
def crcWith (y : Word64) (c : BitVec 32) (i : Nat) : BitVec 32 :=
  if c.getLsbD 0 ^^ y.getLsbD i then (c >>> 1) ^^^ 0x82F63B78 else c >>> 1

theorem crcBit_eq (y : Word64) (c : BitVec 32) (i : Nat) :
    crcBit c.toNat (decide (y.toNat / 2 ^ i % 2 = 1)) = (crcWith y c i).toNat := by
  have hc : decide (c.toNat % 2 = 1) = c.getLsbD 0 := by
    rw [← BitVec.testBit_toNat, Nat.testBit_zero]
  have hy : decide (y.toNat / 2 ^ i % 2 = 1) = y.getLsbD i := by
    rw [← BitVec.testBit_toNat, Nat.testBit_eq_decide_div_mod_eq]
  have hs : (c >>> 1).toNat = c.toNat / 2 := by rw [BitVec.toNat_ushiftRight, Nat.shiftRight_eq_div_pow]
  rw [crcBit, crcWith, hc, hy]
  split
  · rw [BitVec.toNat_xor, hs]; rfl
  · exact hs.symm

/-- Bits `k` and on of a word, folded into a CRC. -/
theorem crcBits_eq_foldl (y : Word64) (n : Nat) (c : BitVec 32) (k : Nat) :
    crcBits n c.toNat (y.toNat / 2 ^ k) = ((List.range' k n).foldl (crcWith y) c).toNat := by
  induction n generalizing c k with
  | zero => rfl
  | succ n ih =>
    rw [crcBits, crcBit_eq, Nat.div_div_eq_div_mul, ← Nat.pow_succ, ih]
    rfl

theorem crcStep_eq_foldl (w : BitVec 2) (x y : Word64) :
    crcStep w x y = ((List.range (8 * 2 ^ w.toNat)).foldl (crcWith y) (x.setWidth 32)).setWidth 64 := by
  have h := crcBits_eq_foldl y (8 * 2 ^ w.toNat) (x.setWidth 32) 0
  rw [BitVec.toNat_setWidth, Nat.pow_zero, Nat.div_one, ← List.range_eq_range'] at h
  rw [crcStep, widthBytes, h, BitVec.ofNat_toNat]

/-- Settles O6: each operation writes its value; the bit fields are read off bit by bit, and `crc` folds the bits of its word in order. -/
theorem fieldOperationsGiveTheirResults : Obligations.FieldOperationsGiveTheirResults := by
  intro s d a b g sn w k h x y pos len
  simp only [exec]
  have on {v : Word64} (f : Seq → Word64) (hf : f (me s) = v) : aluOp s d g sn f = .next (wrote s d v) := hf ▸ aluOp_on h d f
  refine ⟨on _ (adds_eq x y _), on _ (mad_eq _ x y), on _ rfl, ⟨_, on _ rfl, fun i hi => ?_⟩, ⟨_, on _ rfl, fun i hi => ?_⟩,
    on _ (crcStep_eq_foldl w x y)⟩
  · exact (extractField_getLsbD x y hi).trans (by rw [fieldPos_eq, fieldLen_eq])
  · exact (insertField_getLsbD _ x y hi).trans (by rw [fieldPos_eq, fieldLen_eq]; rfl)

/-! ### Comparisons (R135) -/

theorem wordR_fields {k d a b g sn : Nat} (hk : k < 128) (hd : d < 32) (ha : a < 32) (hb : b < 32) (hg : g < 8) (hs : sn < 2) :
    fld (wordR k d a b g sn) 26 6 = 1 ∧ fld (wordR k d a b g sn) 0 7 = k ∧ fld (wordR k d a b g sn) 24 2 = d / 8 := by
  simp only [fld, wordR]
  omega

theorem decodeSeq_comparison_reserved {w k : Nat} (hk : 0x20 ≤ k ∧ k ≤ 0x25) (hmajor : fld w 26 6 = 1) (hfunc : fld w 0 7 = k)
    (hres : fld w 24 2 ≠ 0) : decodeSeq w = .error .reservedField := by
  have hr : (fld w 24 2 != 0) = true := by simpa using hres
  obtain rfl | rfl | rfl | rfl | rfl | rfl : k = 0x20 ∨ k = 0x21 ∨ k = 0x22 ∨ k = 0x23 ∨ k = 0x24 ∨ k = 0x25 := by omega
  all_goals simp only [decodeSeq, hmajor, decodeAlu, hfunc, gate, hr, if_true]

theorem wordR_eq_place (k d a b g sn : Nat) :
    wordR k d a b g sn = place (0x04000000 + k) [(21, d), (16, a), (11, b), (8, g), (7, sn)] := by
  simp only [wordR, place]
  omega

/-- A comparison's word with a non-zero reserved field, and its word without. -/
theorem decodeSeq_comparison {i : Instr} {k : Nat} {d : BitVec 3} {a b : BitVec 5} {g : BitVec 3} {sn : BitVec 1}
    (hk : 0x20 ≤ k ∧ k ≤ 0x25) (hi : i.wf = true)
    (he : encodeAlu i = some (place (0x04000000 + k) [(21, d.toNat), (16, a.toNat), (11, b.toNat), (8, g.toNat), (7, sn.toNat)])) :
    decodeSeq (wordR k d.toNat a.toNat b.toNat g.toNat sn.toNat) = .ok i ∧
    ∀ h : Nat, 1 ≤ h → h ≤ 3 → decodeSeq (wordR k (8 * h + d.toNat) a.toNat b.toNat g.toNat sn.toNat) = .error .reservedField := by
  refine ⟨decodeSeq_of_encodeAlu hi (by rw [he, wordR_eq_place]), fun h h1 h3 => ?_⟩
  have hd := d.isLt
  obtain ⟨hmajor, hfunc, hres⟩ := wordR_fields (k := k) (d := 8 * h + d.toNat) (by omega) (by omega) a.isLt b.isLt g.isLt sn.isLt
  exact decodeSeq_comparison_reserved hk hmajor hfunc (by omega)

/-- Settles O7: each comparison writes its predicate, and its word is an R-format word of major 0x01 with three bits for `pD`. -/
theorem comparisonsSetTheirPredicate : Obligations.ComparisonsSetTheirPredicate := by
  intro s d a b g sn x y table k hk
  have on (f : Seq → Bool) {v : Bool} (hf : f (me s) = v) (h : guardOn s g sn) : cmpOp s d g sn f = .next (wroteP s d v) :=
    hf ▸ cmpOp_on h d f
  simp only [table, List.mem_cons, List.not_mem_nil, or_false] at hk
  obtain rfl | rfl | rfl | rfl | rfl | rfl := hk <;> dsimp only <;> rw [exec]
  · exact ⟨on _ (Bool.beq_eq_decide_eq x y), decodeSeq_comparison (by omega) rfl rfl⟩
  · exact ⟨on _ (Bool.eq_iff_iff.mpr (by simp [me, x, y, reg, Seq.readG])), decodeSeq_comparison (by omega) rfl rfl⟩
  · exact ⟨on _ rfl, decodeSeq_comparison (by omega) rfl rfl⟩
  · exact ⟨on _ rfl, decodeSeq_comparison (by omega) rfl rfl⟩
  · exact ⟨on _ rfl, decodeSeq_comparison (by omega) rfl rfl⟩
  · exact ⟨on _ rfl, decodeSeq_comparison (by omega) rfl rfl⟩

/-! ### Branches (R139 to R141) -/

theorem branchTo_eq {n : Nat} (pc : Word64) (disp : BitVec n) : branchTo pc disp = BitVec.ofInt 64 (pc.toInt + 4 * disp.toInt) := by
  rw [branchTo, BitVec.ofInt_add, BitVec.ofInt_toInt, BitVec.ofInt_mul, BitVec.mul_comm, BitVec.signExtend]
  rfl

@[simp] theorem me_wrote (s : State) (d : BitVec 5) (v : Word64) : me (wrote s d v) = ((me s).writeG d v).advance := by
  rw [wrote_eq, me, State.setSeq_seqTurn, State.setSeq_seq_self]

theorem jumped_wrote (s : State) (d : BitVec 5) (v pc : Word64) :
    jumped (wrote s d v) pc = s.setSeq s.seqTurn { (me s).writeG d v with pc := pc } := by
  rw [jumped, me_wrote, wrote_eq, State.setSeq_seqTurn, State.setSeq_setSeq]
  rfl

theorem State.goOn_me (s : State) : s.goOn (me s) = .next (jumped s ((me s).pc + 4)) := rfl

theorem bits_low2_ne_zero_iff (x : Word64) : bits x 0 2 ≠ 0 ↔ x.toNat % 4 ≠ 0 := by
  rw [ne_eq, bits_eq_zero_iff]; simp

section
variable {s : State} {x : Word64}

theorem State.jumpTo_aligned (h : x.toNat % 4 = 0) : s.jumpTo (me s) x = .next (jumped s x) :=
  if_neg (by rw [bits_low2_ne_zero_iff]; omega)

theorem State.jumpTo_misaligned (h : x.toNat % 4 ≠ 0) (hc : canTrap s) : s.jumpTo (me s) x = .next (trapped s 6 x) :=
  (if_pos ((bits_low2_ne_zero_iff x).mpr h)).trans (State.trap_canTrap hc _ _)

end

section
variable {s : State} {g : BitVec 3} (h : guardOn s g 0) (a : BitVec 5) (i : BitVec 13)
include h

theorem execLoop_zero (ha : reg s a = 0) : execLoop a g i s = .next (jumped s ((me s).pc + 4)) := by
  rw [execLoop, guarded_on h]
  exact if_pos ha

theorem execLoop_counts (ha : reg s a ≠ 0) : execLoop a g i s =
    if reg s a - 1 = 0 then .next (wrote s a (reg s a - 1))
    else .next (jumped (wrote s a (reg s a - 1)) (BitVec.ofInt 64 ((me s).pc.toInt + 4 * i.toInt))) := by
  rw [execLoop, guarded_on h, jumped_wrote, wrote_eq, ← branchTo_eq]
  exact if_neg ha

end

/-- Settles O8: a branch goes to its displacement, a register jump to its register where that is a multiple of 4, and `loop` counts. -/
theorem branchesGoWhereTheRulesSay : Obligations.BranchesGoWhereTheRulesSay := by
  intro s g sn a disp i pc
  simp only [exec]
  refine ⟨fun h => ?_, fun h => ⟨execLoop_zero h a i, fun h1 => ?_, fun h1 => ?_⟩⟩
  · rw [jumped_wrote, ← branchTo_eq, execBr, execBrp, execCall, execJr, execRet]
    simp only [guarded_on h]
    exact ⟨rfl, rfl, rfl, State.jumpTo_aligned, State.jumpTo_aligned, State.jumpTo_misaligned, State.jumpTo_misaligned⟩
  · rw [execLoop_counts h a i (by rw [h1]; decide), h1]
    rfl
  · have hn : reg s a - 1 ≠ 0 := by bv_omega
    rw [execLoop_counts h a i (fun e => by simp [e] at h1), if_neg hn]

end Sys2Proof.Machine
end

section
open Sys2Proof.Cert
namespace Sys2Proof.Machine

/-! ### The words of the spec (R103, R109, R134, R138, R384) -/

/-- Settles O3: each word decodes by its fields. -/
theorem wordsOfTheSpec : Obligations.WordsOfTheSpec := by
  refine ⟨rfl, rfl, rfl, rfl, rfl, rfl, rfl, rfl, rfl⟩

/-! ### Control registers (R123 to R126) -/

theorem execSysr_on {s : State} {q : BitVec 3} (h : guardOn s q 0) (d : BitVec 5) (r : BitVec 6) :
    execSysr d r q s = .next (wrote s d ((me s).creg s.seqTurn r)) := by
  rw [execSysr, guarded_on h, wrote_eq]
  rfl

theorem setWidth_eq_ofNat {m : Nat} (x : BitVec m) (n : Nat) : x.setWidth n = BitVec.ofNat n x.toNat := (BitVec.ofNat_toNat ..).symm

theorem Seq.kstat_toNat (x : Seq) : x.kstat.toNat =
    x.cmode.toNat + 2 * x.resumed.toNat + 4 * x.intrap.toNat + 8 * x.disc.toNat + 256 * x.sections.toNat := by
  simp only [Seq.kstat, toNat_append_eq_add, BitVec.toNat_ofBool, BitVec.ofNat_eq_ofNat, BitVec.toNat_ofNat]
  omega

/-- Bits of a number put together of distinct powers of two. -/
theorem testBit_foldl_two_pow (p : Nat → Bool) (n : Nat) :
    (List.range n).foldl (fun a i => if p i then a + 2 ^ i else a) 0 < 2 ^ n ∧
    ∀ i, i < n → ((List.range n).foldl (fun a i => if p i then a + 2 ^ i else a) 0).testBit i = p i := by
  induction n with
  | zero => simp
  | succ n ih =>
    obtain ⟨hlt, hbit⟩ := ih
    rw [List.range_succ, List.foldl_append, List.foldl_cons, List.foldl_nil]
    generalize (List.range n).foldl (fun a i => if p i then a + 2 ^ i else a) 0 = a at hlt hbit
    have hpow : 2 ^ (n + 1) = 2 ^ n + 2 ^ n := by rw [Nat.pow_succ]; omega
    have hsum : (if p n then a + 2 ^ n else a) = 2 ^ n * (p n).toNat + a := by cases p n <;> simp [Nat.add_comm]
    refine ⟨by split <;> omega, fun i hi => ?_⟩
    rw [hsum, Nat.testBit_two_pow_mul_add _ hlt]
    split
    · next h => exact hbit i h
    · obtain rfl : i = n := by omega
      cases p i <;> simp

theorem Seq.attached_getLsbD (x : Seq) (i : Fin 16) : x.attached.getLsbD i.val = x.accs[i].attach.isSome := by
  rw [Seq.attached, BitVec.getLsbD_ofNat, decide_eq_true i.isLt, Bool.true_and,
    (testBit_foldl_two_pow (fun i => (x.accs[i]?.getD Acc.reset).attach.isSome) 16).2 i.val i.isLt]
  simp

theorem Seq.accstat_toNat (x : Seq) :
    x.accstat.toNat = x.accSat.toNat + 2 ^ 16 * x.accPois.toNat + 2 ^ 32 * x.attached.toNat := by
  simp only [Seq.accstat, toNat_append_eq_add, BitVec.ofNat_eq_ofNat, BitVec.toNat_ofNat]
  omega

theorem Seq.accstat_getLsbD (x : Seq) (i : Fin 16) : x.accstat.getLsbD (32 + i.val) = x.accs[i].attach.isSome := by
  have hi := i.isLt
  have hsum : x.accstat.toNat = 2 ^ 32 * x.attached.toNat + (x.accSat.toNat + 2 ^ 16 * x.accPois.toNat) := by
    rw [Seq.accstat_toNat]; omega
  rw [← BitVec.testBit_toNat, hsum, Nat.testBit_two_pow_mul_add _ (by omega), if_neg (by omega), Nat.add_sub_cancel_left,
    BitVec.testBit_toNat, Seq.attached_getLsbD]

/-- Settles O12: `sysr` writes the register that it names; KSTAT and ACCSTAT are sums of their fields. -/
theorem sysrReadsEveryControlRegister : Obligations.SysrReadsEveryControlRegister := by
  intro s d q h n
  simp only [exec, execSysr_on h]
  refine ⟨rfl, rfl, rfl, rfl, ⟨_, rfl, Seq.kstat_toNat n⟩, ?_, rfl, rfl, ?_, ⟨_, rfl, ?_, ?_, Seq.accstat_getLsbD n⟩, rfl⟩
  · exact congrArg (fun v => Host.Outcome.next (wrote s d v)) (setWidth_eq_ofNat n.ctx 64)
  · exact congrArg (fun v => Host.Outcome.next (wrote s d v)) (setWidth_eq_ofNat s.seqTurn 64)
  · show n.accstat.toNat % 2 ^ 32 = _
    rw [Seq.accstat_toNat]
    omega
  · show n.accstat.toNat < 2 ^ 48
    rw [Seq.accstat_toNat]
    omega

end Sys2Proof.Machine
end

section
open Sys2Proof.Cert
namespace Sys2Proof.Machine

/-! ### What a translation changes (R327) -/

/-- A state with other cached translations of a sequencer and of its die. -/
def State.fill (s : State) (q : BitVec 7) (l1 l2 : List TlbEntry) : State :=
  (s.setSeq q { s.seq q with tlb := l1 }).modDie (seqDie q) (fun x => { x with tlb := l2 })

theorem State.fill_self (s : State) (q : BitVec 7) : s.fill q (s.seq q).tlb (s.die (seqDie q)).tlb = s := by
  have hseq : s.setSeq q (s.seq q) = s := by simp [State.setSeq, State.seq]
  have hdie : s.setDie (seqDie q) (s.die (seqDie q)) = s := by simp [State.setDie, State.die]
  exact (congrArg (fun t => t.setDie (seqDie q) (t.die (seqDie q))) hseq).trans hdie

theorem State.fill_fill (s : State) (q : BitVec 7) (l1 l2 m1 m2 : List TlbEntry) : (s.fill q l1 l2).fill q m1 m2 = s.fill q m1 m2 := by
  simp [State.fill, State.modDie, State.setDie, State.setSeq, State.seq, State.die]

theorem State.xlate_fill (s : State) (q : BitVec 7) (right : Right) (va : Word64) : ∃ l1 l2, (s.xlate q right va).2 = s.fill q l1 l2 := by
  have same : ∃ l1 l2, s = s.fill q l1 l2 := ⟨_, _, (s.fill_self q).symm⟩
  unfold State.xlate
  dsimp only
  split
  · exact same
  · split
    · exact same
    · exact same
    · split
      · exact ⟨_, _, rfl⟩
      · split <;> exact ⟨_, _, rfl⟩

theorem State.xlateAll_fill (vas : List Word64) (s : State) (q : BitVec 7) (right : Right) :
    ∃ l1 l2, (s.xlateAll q right vas).2 = s.fill q l1 l2 := by
  induction vas generalizing s with
  | nil => exact ⟨_, _, (s.fill_self q).symm⟩
  | cons va vas ih =>
    obtain ⟨l1, l2, h⟩ := s.xlate_fill q right va
    unfold State.xlateAll
    split
    · next e => rw [e] at h; exact ⟨l1, l2, h⟩
    · next s1 e =>
      obtain rfl : s1 = s.fill q l1 l2 := by rw [e] at h; exact h
      obtain ⟨m1, m2, h1⟩ := ih (s.fill q l1 l2)
      rw [State.fill_fill] at h1
      split
      · next e1 => rw [e1] at h1; exact ⟨m1, m2, h1⟩
      · next e1 => rw [e1] at h1; exact ⟨m1, m2, h1⟩

theorem State.xlateAll_length {vas : List Word64} {s s1 : State} {q : BitVec 7} {right : Right} {xs : List Xlated}
    (h : s.xlateAll q right vas = (.ok xs, s1)) : xs.length = vas.length := by
  induction vas generalizing s xs with
  | nil => cases h; rfl
  | cons va vas ih =>
    unfold State.xlateAll at h
    split at h
    · cases h
    · split at h
      · cases h
      · next e => cases h; exact congrArg (· + 1) (ih e)

@[simp] theorem State.fill_running (s : State) (q : BitVec 7) (l1 l2 : List TlbEntry) : (s.fill q l1 l2).running q = s.running q := by
  simp [State.running, State.fill]

@[simp] theorem State.fill_store (s : State) (q : BitVec 7) (l1 l2 : List TlbEntry) : (s.fill q l1 l2).store = s.store := rfl
@[simp] theorem State.fill_pend (s : State) (q : BitVec 7) (l1 l2 : List TlbEntry) : (s.fill q l1 l2).pend = s.pend := rfl
@[simp] theorem State.fill_cyc (s : State) (q : BitVec 7) (l1 l2 : List TlbEntry) : (s.fill q l1 l2).cyc = s.cyc := rfl
@[simp] theorem State.fill_seqTurn (s : State) (q : BitVec 7) (l1 l2 : List TlbEntry) : (s.fill q l1 l2).seqTurn = s.seqTurn := rfl

/-! ### Releases (R148 to R150) -/

theorem State.rekey_pend (s : State) (key : Key) (n : Nat) : (s.rekey key n).pend = s.pend := by
  unfold State.rekey
  repeat' split
  all_goals rfl

theorem State.putBytes_pend (s : State) (key : Key) (pa : Nat) (bs : List Byte) : (s.putBytes key pa bs).pend = s.pend := by
  show (if inStack pa then _ else s).pend = s.pend
  split
  · exact foldl_keeps State.pend (fun s n => s.rekey_pend key n) _ s
  · rfl

theorem State.setPoison_pend (s : State) (n : Nat) : (s.setPoison n).pend = s.pend := by
  unfold State.setPoison
  split <;> rfl

/-- Stores that are performed issue none. -/
theorem State.performWrites_pend (l : List SliceReq) (s : State) (h : ∀ r ∈ l, ∃ q, r.src = .seq q) :
    (l.foldl State.performWrite s).pend = s.pend := by
  induction l generalizing s with
  | nil => rfl
  | cons r l ih =>
    obtain ⟨q, hq⟩ := h r List.mem_cons_self
    refine (ih _ fun x hx => h x (List.mem_cons_of_mem _ hx)).trans ?_
    unfold State.performWrite
    dsimp only
    rw [hq]
    dsimp only
    have runs := foldl_keeps State.pend (fun s (x : Nat × List Byte) => s.putBytes_pend r.key x.1 x.2) (runsOf r.bytes) s
    split
    · exact (foldl_keeps State.pend State.setPoison_pend _ _).trans runs
    · exact runs

theorem State.flush_pend (s : State) (q : BitVec 7) : (s.flush q).pend = s.pend.filter (fun r => r.src ≠ .seq q) :=
  State.performWrites_pend _ _ fun r hr => ⟨q, by simpa using (List.mem_filter.mp hr).2⟩

theorem State.flush_pendOf (s : State) (q : BitVec 7) : (s.flush q).pendOf q = [] := by
  rw [State.pendOf, State.flush_pend, List.filter_filter]
  simp

theorem released_none {s : State} {o : BitVec 2} {c : BitVec 3} (h : ¬ (o = 2 ∨ o = 3) ∨ c = 0) : released s o c = s := if_pos h

theorem ne_zero_of_wide {c : BitVec 3} (h4 : 4 ≤ c.toNat) : c ≠ 0 := by bv_omega

section
variable (s : State) {o : BitVec 2} {c : BitVec 3} (ho : o = 2 ∨ o = 3)
include ho

theorem released_wide (h4 : 4 ≤ c.toNat) : released s o c = s.flush s.seqTurn :=
  (if_neg (not_or.mpr ⟨not_not_intro ho, ne_zero_of_wide h4⟩)).trans (if_pos h4)

theorem released_narrow (hc : c ≠ 0) (h4 : ¬ 4 ≤ c.toNat) : released s o c = { s with pend := s.pend.map (fun r =>
    if r.src = .seq s.seqTurn then { r with bound := if r.bound.toNat < c.toNat then c else r.bound } else r) } :=
  (if_neg (not_or.mpr ⟨not_not_intro ho, hc⟩)).trans (if_neg h4)

end

theorem released_eq (s : State) (o : BitVec 2) (c : BitVec 3) : released s o c = s.releaseAt o c := by
  unfold State.releaseAt State.order
  by_cases ho : o = 2 ∨ o = 3
  · rw [if_pos ho]
    by_cases hc : c = 0
    · rw [if_pos hc, released_none (.inr hc)]
    · rw [if_neg hc]
      by_cases h4 : 4 ≤ c.toNat
      · rw [if_pos h4, released_wide s ho h4]
      · rw [if_neg h4, released_narrow s ho hc h4]
  · rw [if_neg ho, released_none (.inl ho)]

theorem released_bare (s : State) (o : BitVec 2) (c : BitVec 3) : (released s o c).bare = s.bare := by
  unfold released
  split
  · rfl
  · split
    · exact s.flush_bare _
    · rfl

@[simp] theorem released_running (s : State) (o : BitVec 2) (c : BitVec 3) (q : BitVec 7) :
    (released s o c).running q = s.running q := State.running_of_bare q (released_bare s o c)

theorem State.seqTurn_of_bare {s t : State} (h : t.bare = s.bare) : t.seqTurn = s.seqTurn :=
  show t.bare.seqTurn = s.bare.seqTurn by rw [h]
theorem State.seq_of_bare {s t : State} (h : t.bare = s.bare) (q : BitVec 7) : t.seq q = s.seq q :=
  show t.bare.seq q = s.bare.seq q by rw [h]
theorem State.cyc_of_bare {s t : State} (h : t.bare = s.bare) : t.cyc = s.cyc :=
  show t.bare.cyc = s.bare.cyc by rw [h]
theorem me_of_bare {s t : State} (h : t.bare = s.bare) : me t = me s := by
  rw [me, State.seq_of_bare h, State.seqTurn_of_bare h, me]

section
variable {s : State} {o : BitVec 2} {c : BitVec 3} (ho : o = 2 ∨ o = 3)
include ho

theorem released_pendOf_wide (h4 : 4 ≤ c.toNat) : (released s o c).pendOf s.seqTurn = [] := by
  rw [released_wide s ho h4, State.flush_pendOf]

/-- Every earlier store that a release does not perform is ordered, at the release's scope or a wider one, before what follows. -/
theorem le_bound_of_mem_released {r : SliceReq} (hr : r ∈ (released s o c).pendOf s.seqTurn) : c.toNat ≤ r.bound.toNat := by
  by_cases h4 : 4 ≤ c.toNat
  · rw [released_pendOf_wide ho h4] at hr
    exact nomatch hr
  · by_cases hc : c = 0
    · simp [hc]
    · rw [released_narrow s ho hc h4, State.pendOf, List.mem_filter, List.mem_map] at hr
      obtain ⟨⟨r0, -, rfl⟩, hsrc⟩ := hr
      by_cases h0 : r0.src = .seq s.seqTurn
      · rw [if_pos h0]
        dsimp only
        split <;> omega
      · rw [if_neg h0] at hsrc
        exact absurd (of_decide_eq_true hsrc) h0

end

theorem mayOrder_of_mayRelease {s : State} {o : BitVec 2} {c : BitVec 3} (h : mayRelease s o c) : s.mayOrder o c = true := by
  unfold State.mayOrder
  by_cases hr : (o = 2 ∨ o = 3) ∧ 4 ≤ c.toNat
  · rw [storesCross_of_storesPass (h hr.1 hr.2), Bool.or_true]
  · simp only [Bool.or_eq_true, Bool.not_eq_true', Bool.and_eq_false_iff, Bool.or_eq_false_iff, beq_eq_false_iff_ne, decide_eq_false_iff_not]
    exact .inl (by tauto)

/-! ### `nop`, `yield`, `halt` and `fence` (R150, R160, R385) -/

section
variable {s : State} {q : BitVec 3} (h : guardOn s q 0)
include h

/-- `yield` advances and flags its region, unless a pre-emption begins. -/
theorem execYield_flags {r : Region} (hr : s.regionOfSeq s.seqTurn = some r) (hp : s.preemptPending r = false) :
    ∃ t, execYield q s = .next t ∧ t.seq s.seqTurn = (me s).advance ∧
      t.regions = s.regions.map (fun x => if x.serial = r.serial then { x with yielded := true } else x) := by
  refine ⟨_, by rw [execYield, guarded_on h, hr]; simp only [hp, Bool.false_and, Bool.false_eq_true, if_false]; rfl, ?_, rfl⟩
  simp

theorem execYield_next : ∃ t, execYield q s = .next t := by
  rw [execYield, guarded_on h]
  dsimp only
  split
  · exact ⟨_, rfl⟩
  · split <;> exact ⟨_, rfl⟩

theorem execHalt_next : ∃ t, execHalt q s = .next t := by
  rw [execHalt, guarded_on h]
  dsimp only
  split
  · exact ⟨_, rfl⟩
  · split <;> exact ⟨_, rfl⟩

theorem execHalt_none (hr : s.regionOfSeq s.seqTurn = none) : execHalt q s = .next (s.setSeq s.seqTurn (me s).halted) := by
  rw [execHalt, guarded_on h, hr]

/-- A kernel with an admitted tile does not retire at its `halt`. -/
theorem execHalt_tiles {r : Region} (hr : s.regionOfSeq s.seqTurn = some r) (ha : r.kstate = .active)
    (ht : ∃ x ∈ r.sections, x.tiles ≠ []) : execHalt q s = .next (s.setSeq s.seqTurn (me s).halted) := by
  have hf : ¬ r.kstate = .frozen := by rw [ha]; exact nofun
  have hregion : s.region r.serial = some r := by
    unfold State.regionOfSeq at hr
    split at hr
    · exact nomatch hr
    · rwa [State.region_serial hr]
  have hall : ¬ r.sections.all (fun x => x.tiles.isEmpty) = true := by
    obtain ⟨x, hx, hne⟩ := ht
    exact fun e => hne (List.isEmpty_iff.mp (List.all_eq_true.mp e x hx))
  rw [execHalt, guarded_on h, hr]
  dsimp only
  rw [if_neg hf, State.tryRetire, show (s.setSeq s.seqTurn (me s).halted).region r.serial = some r from hregion]
  exact congrArg Host.Outcome.next (if_neg fun e => hall e.2.2.2)

theorem execFence_releases {c : BitVec 3} (hc : mayRelease s 3 c) :
    execFence q c s = .next (jumped (released s 3 c) ((me s).pc + 4)) := by
  rw [execFence, guarded_on h, mayOrder_of_mayRelease hc, ← me_of_bare (released_bare s 3 c), released_eq]
  rfl

end

/-- Settles O20: each by its lemma; `halt` of a kernel with a tile stops the sequencer alone. -/
theorem nopYieldHaltFence : Obligations.NopYieldHaltFence := by
  intro s q c h
  simp only [exec]
  refine ⟨by rw [execNop, guarded_on h]; rfl, ?_, ?_, execFence_releases h, released_pendOf_wide (.inr rfl),
    fun r hr => le_bound_of_mem_released (.inr rfl) hr⟩
  · obtain ⟨t, ht⟩ := execYield_next h
    refine ⟨t, ht, fun r hr hp => ?_⟩
    obtain ⟨u, hu, hseq, hregions⟩ := execYield_flags h hr hp
    cases ht.symm.trans hu
    exact ⟨hseq, hregions⟩
  · obtain ⟨t, ht⟩ := execHalt_next h
    exact ⟨t, ht, fun hr => Host.Outcome.next.inj (ht.symm.trans (execHalt_none h hr)),
      fun r hr ha hx => Host.Outcome.next.inj (ht.symm.trans (execHalt_tiles h hr ha hx))⟩

end Sys2Proof.Machine
end

section
open Sys2Proof.Cert
namespace Sys2Proof.Machine

theorem exec_ld (d a : BitVec 5) (g : BitVec 3) (o : BitVec 2) (c : BitVec 3) (w : BitVec 2) (e : BitVec 6) (s : State) :
    exec (.ld d a g o c w e) s = execLd d a g o c w e s := rfl
theorem exec_st (d a : BitVec 5) (g : BitVec 3) (o : BitVec 2) (c : BitVec 3) (w : BitVec 2) (e : BitVec 6) (s : State) :
    exec (.st d a g o c w e) s = execSt d a g o c w e s := rfl
theorem exec_ldm (d a : BitVec 5) (g : BitVec 3) (o : BitVec 2) (c : BitVec 3) (n : BitVec 4) (s : State) :
    exec (.ldm d a g o c n) s = execLdm d a g o c n s := rfl
theorem exec_stm (d a : BitVec 5) (g : BitVec 3) (o : BitVec 2) (c : BitVec 3) (n : BitVec 4) (s : State) :
    exec (.stm d a g o c n) s = execStm d a g o c n s := rfl

/-! ### An access of the running sequencer (R128, R142 to R144) -/

theorem memAccess_on {s : State} {g : BitVec 3} (h : guardOn s g 0) (hi : mayIssue s) (body : Seq → Result) :
    memAccess s g body = body (me s) := by
  rw [memAccess, guarded_on h, mayAccess_of_mayIssue hi]
  rfl

section
variable {s s1 : State} {right : Right} {n : Nat} {va : Word64} {x : Xlated} (h : reaches s s1 right n va x)
include h

/-- An access comes upon the state before it, with cached translations and the stores ordered ahead of it. -/
theorem fill_of_reaches : ∃ l1 l2, s1 = settled (s.fill s.seqTurn l1 l2) := by
  obtain ⟨-, ⟨s0, hx, rfl⟩, -⟩ := h
  obtain ⟨l1, l2, h0⟩ := s.xlate_fill s.seqTurn right va
  rw [hx] at h0
  exact ⟨l1, l2, congrArg settled h0⟩

/-- The cycle at an access is that of the state before. -/
theorem cyc_of_reaches : s1.cyc = s.cyc := by
  obtain ⟨l1, l2, rfl⟩ := fill_of_reaches h
  exact (State.cyc_of_bare (State.settle_bare (s.fill s.seqTurn l1 l2) _)).trans rfl

theorem cell_of_reaches (b : CellId) : s1.cell b = s.cell b := by
  obtain ⟨l1, l2, rfl⟩ := fill_of_reaches h
  exact (State.cell_of_bare (State.settle_bare (s.fill s.seqTurn l1 l2) _) b).trans rfl

theorem mem_pend_of_reaches (hn : noneOrdered s) : s1.mem = s.mem ∧ s1.pend = s.pend := by
  obtain ⟨l1, l2, rfl⟩ := fill_of_reaches h
  have h1 : settled (s.fill s.seqTurn l1 l2) = s.fill s.seqTurn l1 l2 := State.settle_unordered _ _ hn
  rw [h1]
  exact ⟨rfl, rfl⟩

end

theorem me_pc_of_running {s t : State} (h : t.running s.seqTurn = s.running s.seqTurn) : (me t).pc = (me s).pc := by
  rw [me, State.seqTurn_of_running h, State.pc_of_running h, me]

/-- A number put together of bytes holds each of them. -/
theorem bytesToNat_byte (bs : List Byte) (i : Nat) : BitVec.ofNat 8 (bytesToNat bs / 2 ^ (8 * i)) = bs.getD i 0 := by
  induction bs generalizing i with
  | nil => simp [bytesToNat]
  | cons b bs ih =>
    cases i with
    | zero =>
      apply BitVec.eq_of_toNat_eq
      simp only [bytesToNat, Nat.mul_zero, Nat.pow_zero, Nat.div_one, BitVec.toNat_ofNat, List.getD_cons_zero]
      omega
    | succ i =>
      have h : bytesToNat (b :: bs) / 2 ^ (8 * (i + 1)) = bytesToNat bs / 2 ^ (8 * i) := by
        rw [Nat.mul_succ, Nat.pow_add, Nat.mul_comm, ← Nat.div_div_eq_div_mul, bytesToNat]
        have := b.isLt
        congr 1
        omega
      rw [h, ih, List.getD_cons_succ]

theorem State.seqNum_lt (s : State) (q : BitVec 7) (key : Key) (pa n : Nat) : s.seqNum q key pa n < 256 ^ n := by
  simpa [State.seqNum] using bytesToNat_lt ((List.range n).map (fun i => s.seqByte q key (pa + i)))

theorem State.seqNum_byte (s : State) (q : BitVec 7) (key : Key) (pa : Nat) {n i : Nat} (hi : i < n) :
    BitVec.ofNat 8 (s.seqNum q key pa n / 2 ^ (8 * i)) = s.seqByte q key (pa + i) := by
  rw [State.seqNum, bytesToNat_byte, List.getD_eq_getElem?_getD, List.getElem?_map, List.getElem?_range hi]
  rfl

theorem two_pow_width_le (w : BitVec 2) : 2 ^ w.toNat ≤ 8 :=
  Nat.pow_le_pow_right (by omega) (n := 2) (by omega : w.toNat ≤ 3)

theorem pow_256 (n : Nat) : 256 ^ n = 2 ^ (8 * n) := (Nat.pow_mul 2 8 n).symm

/-- A load of at most eight bytes keeps its number. -/
theorem ofNat_seqNum_toNat (s : State) (q : BitVec 7) (key : Key) (pa : Nat) {n : Nat} (hn : n ≤ 8) :
    (BitVec.ofNat 64 (s.seqNum q key pa n)).toNat = s.seqNum q key pa n := by
  have h8 : 256 ^ n ≤ 2 ^ 64 := Nat.pow_le_pow_right (n := 256) (by omega) hn
  rw [BitVec.toNat_ofNat, Nat.mod_eq_of_lt (Nat.lt_of_lt_of_le (s.seqNum_lt q key pa n) h8)]

/-- `ld` of an address that reaches memory writes the number that its sequencer reads there. -/
theorem execLd_reads {s s1 : State} {d a : BitVec 5} {g : BitVec 3} {o : BitVec 2} {c : BitVec 3} {w : BitVec 2} {e : BitVec 6} {x : Xlated}
    (h : guardOn s g 0) (hi : mayIssue s) (hx : reaches s s1 .r (2 ^ w.toNat) (reg s a + BitVec.ofNat 64 (e.toNat * 2 ^ w.toNat)) x) :
    execLd d a g o c w e s = .next (wrote s1 d (BitVec.ofNat 64 (s1.seqNum s.seqTurn x.key x.pa (2 ^ w.toNat)))) := by
  rw [execLd, memAccess_on h hi, wrote_eq, ← State.seqTurn_of_running (running_of_reaches hx)]
  exact accessAll_of_reaches hx _

/-- Settles O16: a load that reaches memory writes the number that its sequencer reads, whose bytes are those it reads. -/
theorem loadReadsItsBytes : Obligations.LoadReadsItsBytes := by
  intro s s1 d a g o c w e x n h hi hx
  have hv := ofNat_seqNum_toNat s1 s.seqTurn x.key x.pa (two_pow_width_le w)
  refine ⟨_, by rw [exec_ld]; exact execLd_reads h hi hx, ?_, mem_pend_of_reaches hx, fun i hin => ?_⟩
  · rw [hv, ← pow_256]
    exact s1.seqNum_lt s.seqTurn x.key x.pa n
  · rw [hv]
    exact s1.seqNum_byte s.seqTurn x.key x.pa hin

/-! ### Accesses that trap (R142, R144, R351, R352) -/

theorem canTrap_of_running {s t : State} (h : t.running s.seqTurn = s.running s.seqTurn) (hc : canTrap s) : canTrap t := by
  have hseq : ({ me t with tlb := [] } : Seq) = { me s with tlb := [] } := by
    rw [me, State.seqTurn_of_running h]
    exact congrArg (fun v => v.2.2) h
  exact ⟨(congrArg Seq.intrap hseq).trans hc.1, fun e => hc.2 ((congrArg Seq.tvec hseq).symm.trans e)⟩

theorem State.xtrap_eq_untranslated {s s1 : State} {f : XFault} {va : Word64} (hs : s1.running s.seqTurn = s.running s.seqTurn)
    (hc : canTrap s) : s.xtrap s1 s.seqTurn f va = untranslated s s1 f va := by
  have ht := State.seqTurn_of_running hs
  have trap (cause : Nat) : s1.takeTrap s.seqTurn cause va = trapped s1 cause va := by
    have h := State.trap_canTrap (canTrap_of_running hs hc) cause va
    rw [State.trap, ht] at h
    exact Host.Outcome.next.inj h
  cases f
  · exact trap 7
  · exact trap 8
  · rfl
  · rfl

section
variable {s s1 : State} {right : Right} {n : Nat} {vas : List Word64} (body : State → List Xlated → Result) (hc : canTrap s)
include hc

theorem State.accessAll_misaligned {va : Word64} (h : vas.find? (fun va => decide (va.toNat % n ≠ 0)) = some va) :
    s.accessAll right n vas body = .next (trapped s 5 va) := by
  rw [State.accessAll, h]
  exact State.trap_canTrap hc _ _

theorem State.accessAll_untranslated {f : XFault} {va : Word64} (ha : ∀ va ∈ vas, va.toNat % n = 0)
    (h : s.xlateAll s.seqTurn right vas = (.error (f, va), s1)) : s.accessAll right n vas body = .next (untranslated s s1 f va) := by
  have hnone : vas.find? (fun va => decide (va.toNat % n ≠ 0)) = none := by simpa using ha
  have hs : s1.running s.seqTurn = s.running s.seqTurn := by
    obtain ⟨l1, l2, h1⟩ := s.xlateAll_fill vas s.seqTurn right
    rw [h] at h1
    obtain rfl : s1 = s.fill s.seqTurn l1 l2 := h1
    exact State.fill_running ..
  rw [State.accessAll, hnone, h, ← State.xtrap_eq_untranslated hs hc]

/-- An access to one address that is not aligned traps, and one that is not translated is as its fault says. -/
theorem State.accessAll_one_faults (va : Word64) (f : XFault) :
    (va.toNat % n ≠ 0 → s.accessAll right n [va] body = .next (trapped s 5 va)) ∧
    (va.toNat % n = 0 → s.xlate s.seqTurn right va = (.error f, s1) → s.accessAll right n [va] body = .next (untranslated s s1 f va)) :=
  ⟨fun h => State.accessAll_misaligned body hc (by simp [h]),
    fun h hx => State.accessAll_untranslated body hc (by simpa using h) (by simp [State.xlateAll, hx])⟩

end

theorem listAddrs_aligned {base : Word64} (h : base.toNat % 8 = 0) (n : BitVec 4) : ∀ va ∈ listAddrs base n, va.toNat % 8 = 0 := by
  intro va hva
  obtain ⟨i, -, rfl⟩ := List.mem_map.mp hva
  rw [BitVec.toNat_add, BitVec.toNat_ofNat]
  omega

theorem listAddrs_misaligned {base : Word64} (h : base.toNat % 8 ≠ 0) (n : BitVec 4) :
    (listAddrs base n).find? (fun va => decide (va.toNat % 8 ≠ 0)) = some base := by
  rw [listAddrs, List.range_succ_eq_map, List.map_cons]
  simp [h]

theorem mayIssue_of_room {s : State} {k : BitVec 4} (hi : mayIssue s) (hr : (s.pendOf s.seqTurn).length + k.toNat < 16) :
    s.mayIssue (me s) (k.toNat + 1) = true := by
  rw [State.mayIssue, mayAccess_of_mayIssue hi, Bool.true_and, decide_eq_true_eq]
  omega

/-- A value put at its location, where there is one. -/
def State.putOption (s : State) (key : Key) (pa n : Nat) : Option Nat → State
  | some v => s.putNum key pa n v
  | none => s

theorem State.putOption_bare (s : State) (key : Key) (pa n : Nat) (v : Option Nat) : (s.putOption key pa n v).bare = s.bare := by
  cases v with
  | none => rfl
  | some v => exact s.putNum_bare key pa n v

/-- What an atomic does at its location: behind the release and its sequencer's earlier stores there, the new value for the old. -/
def atomicBody (o : BitVec 2) (c : BitVec 3) (d : BitVec 5) (n : Nat) (f : Nat → Option Nat) (s1 : State) : List Xlated → Result
  | [] => .next s1
  | x :: _ =>
    let s2 := (s1.releaseAt o c).flushOver s1.seqTurn x.pa n
    let old := s2.numAt x.key x.pa n
    (s2.putOption x.key x.pa n (f old)).loaded d [BitVec.ofNat 64 old]

theorem exec_cas (d a : BitVec 5) (g : BitVec 3) (o : BitVec 2) (c : BitVec 3) (w : BitVec 2) (s : State) :
    exec (.cas d a g o c w) s = execCas d a g o c w s := rfl

/-- The instruction of an atomic operation. -/
def amoOf : AmoOp → BitVec 5 → BitVec 5 → BitVec 3 → BitVec 2 → BitVec 3 → BitVec 2 → Instr
  | .swap => .amoswap
  | .add => .amoadd
  | .and => .amoand
  | .or => .amoor
  | .xor => .amoxor
  | .min => .amomin
  | .max => .amomax
  | .minu => .amominu
  | .maxu => .amomaxu

theorem exec_amoOf (op : AmoOp) (d a : BitVec 5) (g : BitVec 3) (o : BitVec 2) (c : BitVec 3) (w : BitVec 2) (s : State) :
    exec (amoOf op d a g o c w) s = amoAccess op s d a g o c w := by
  cases op <;> rfl

theorem atomics_cases {d a : BitVec 5} {g : BitVec 3} {o : BitVec 2} {c : BitVec 3} {w : BitVec 2} {i : Instr}
    (hm : i ∈ atomics d a g o c w) : i = .cas d a g o c w ∨ ∃ op, i = amoOf op d a g o c w := by
  simp only [atomics, List.mem_cons, List.not_mem_nil, or_false] at hm
  obtain rfl | rfl | rfl | rfl | rfl | rfl | rfl | rfl | rfl | rfl := hm
  · exact .inr ⟨.swap, rfl⟩
  · exact .inr ⟨.add, rfl⟩
  · exact .inr ⟨.and, rfl⟩
  · exact .inr ⟨.or, rfl⟩
  · exact .inr ⟨.xor, rfl⟩
  · exact .inr ⟨.min, rfl⟩
  · exact .inr ⟨.max, rfl⟩
  · exact .inr ⟨.minu, rfl⟩
  · exact .inr ⟨.maxu, rfl⟩
  · exact .inl rfl

section
variable {s : State} {g : BitVec 3} (h : guardOn s g 0) (hi : mayIssue s) {o : BitVec 2} {c : BitVec 3}
include h hi

theorem execLd_access (d a : BitVec 5) (w : BitVec 2) (e : BitVec 6) : ∃ body,
    execLd d a g o c w e s = s.accessAll .r (2 ^ w.toNat) [reg s a + BitVec.ofNat 64 (e.toNat * 2 ^ w.toNat)] body :=
  ⟨_, by rw [execLd, memAccess_on h hi]; rfl⟩

theorem execLdm_access (d a : BitVec 5) (k : BitVec 4) : ∃ body,
    execLdm d a g o c k s = s.accessAll .r 8 (listAddrs (reg s a) k) body :=
  ⟨_, by rw [execLdm, memAccess_on h hi]; rfl⟩

variable (hr : mayRelease s o c)
include hr

theorem execSt_access (d a : BitVec 5) (w : BitVec 2) (e : BitVec 6) : execSt d a g o c w e s =
    s.accessAll .w (2 ^ w.toNat) [reg s a + BitVec.ofNat 64 (e.toNat * 2 ^ w.toNat)] (fun s1 xs =>
      ((s1.releaseAt o c).issueAll (2 ^ w.toNat) (xs.map (fun x => (x, reg s d)))).loaded 0 []) := by
  rw [execSt, memAccess_on h hi, mayOrder_of_mayRelease hr]
  rfl

theorem execStm_access (d a : BitVec 5) {k : BitVec 4} (hk : (s.pendOf s.seqTurn).length + k.toNat < 16) : execStm d a g o c k s =
    s.accessAll .w 8 (listAddrs (reg s a) k) (fun s1 xs =>
      ((s1.releaseAt o c).issueAll 8 (xs.zip ((me s).readList d k.toNat))).loaded 0 []) := by
  rw [execStm, memAccess_on h hi, mayOrder_of_mayRelease hr, mayIssue_of_room hi hk]
  rfl

theorem atomicAccess_access (d a : BitVec 5) (w : BitVec 2) (f : Seq → Nat → Option Nat) :
    atomicAccess s d a g o c w f = s.accessAll .rw (2 ^ w.toNat) [reg s a] (atomicBody o c d (2 ^ w.toNat) (f (me s))) := by
  rw [atomicAccess, memAccess_on h hi, mayOrder_of_mayRelease hr]
  rfl

theorem execCas_access (d a : BitVec 5) (w : BitVec 2) :
    execCas d a g o c w s = s.accessAll .rw (2 ^ w.toNat) [reg s a] (atomicBody o c d (2 ^ w.toNat) (fun old =>
      if old = (reg s d).toNat % 2 ^ (8 * 2 ^ w.toNat) then some ((reg s (d + 1)).toNat % 2 ^ (8 * 2 ^ w.toNat)) else none)) :=
  atomicAccess_access h hi hr d a w _

theorem amoAccess_access (op : AmoOp) (d a : BitVec 5) (w : BitVec 2) :
    amoAccess op s d a g o c w = s.accessAll .rw (2 ^ w.toNat) [reg s a] (atomicBody o c d (2 ^ w.toNat) (fun old =>
      some (op.apply (8 * 2 ^ w.toNat) old (reg s d).toNat))) :=
  atomicAccess_access h hi hr d a w _

/-- Every atomic is an access to its one address. -/
theorem atomics_access {d a : BitVec 5} {w : BitVec 2} {i : Instr} (hm : i ∈ atomics d a g o c w) : ∃ body,
    exec i s = s.accessAll .rw (2 ^ w.toNat) [reg s a] body := by
  obtain rfl | ⟨op, rfl⟩ := atomics_cases hm
  · exact ⟨_, (exec_cas d a g o c w s).trans (execCas_access h hi hr d a w)⟩
  · exact ⟨_, (exec_amoOf op d a g o c w s).trans (amoAccess_access h hi hr op d a w)⟩

end

/-- Settles O21: each instruction is an access to its addresses, and an access traps, waits or is lost as its first fault says. -/
theorem memoryAccessTraps : Obligations.MemoryAccessTraps := by
  intro s s1 d a g o c w e k f v n va list room h hi hr hc
  simp only [exec_ld, exec_st, exec_ldm, exec_stm]
  obtain ⟨ldBody, hld⟩ := execLd_access h hi (o := o) (c := c) d a w e
  obtain ⟨ldmBody, hldm⟩ := execLdm_access h hi (o := o) (c := c) d a k
  rw [hld, hldm, execSt_access h hi hr]
  refine ⟨fun hal => ⟨?_, ?_⟩, ?_, ?_, fun hal => ⟨?_, fun hk => ?_⟩, fun hal => ⟨fun hx => ?_, fun hk hx => ?_⟩, fun i hm => ?_⟩
  · exact (State.accessAll_one_faults _ hc va f (s1 := s1)).1 hal
  · exact (State.accessAll_one_faults _ hc va f (s1 := s1)).1 hal
  · exact (State.accessAll_one_faults _ hc va f).2
  · exact (State.accessAll_one_faults _ hc va f).2
  · exact State.accessAll_misaligned _ hc (listAddrs_misaligned hal k)
  · rw [execStm_access h hi hr d a hk]
    exact State.accessAll_misaligned _ hc (listAddrs_misaligned hal k)
  · exact State.accessAll_untranslated _ hc (listAddrs_aligned hal k) hx
  · rw [execStm_access h hi hr d a hk]
    exact State.accessAll_untranslated _ hc (listAddrs_aligned hal k) hx
  · obtain ⟨body, hb⟩ := atomics_access h hi hr hm
    rw [hb]
    exact State.accessAll_one_faults _ hc _ f

end Sys2Proof.Machine
end

section
open Sys2Proof.Cert
namespace Sys2Proof.Machine

/-! ### Memory that two states share (R326) -/

/-- What a read under a key looks at. -/
def State.slices (s : State) := (s.mem, s.lineKey, s.dies)

section
variable {s t : State} (h : t.slices = s.slices)
include h

theorem State.mem_of_slices : t.mem = s.mem := congrArg Prod.fst h
theorem State.lineKey_of_slices : t.lineKey = s.lineKey := congrArg (fun v => v.2.1) h
theorem State.dies_of_slices : t.dies = s.dies := congrArg (fun v => v.2.2) h

theorem State.byteAt_of_slices (key : Key) (a : Nat) : t.byteAt key a = s.byteAt key a :=
  State.byteAt_congr key a (State.dies_of_slices h) (by rw [State.lineKey_of_slices h]) fun b _ => by rw [State.mem_of_slices h]

theorem State.rekey_slices (key : Key) (l : Nat) : (t.rekey key l).slices = (s.rekey key l).slices := by
  have hbytes : t.bytesAt key (64 * l) 64 = s.bytesAt key (64 * l) 64 :=
    List.map_congr_left fun i _ => State.byteAt_of_slices h key _
  unfold State.rekey
  rw [State.lineKey_of_slices h, hbytes, State.mem_of_slices h]
  split
  · simp only [State.slices, State.dies_of_slices h]
  · split
    · exact h
    · simp only [State.slices, State.dies_of_slices h]

end

/-- Steps that keep a relation between two states keep it along a list. -/
theorem foldl_rel {σ α : Type} (R : σ → σ → Prop) {f : σ → α → σ} (hf : ∀ t s a, R t s → R (f t a) (f s a)) (l : List α) {t s : σ}
    (h : R t s) : R (l.foldl f t) (l.foldl f s) := by
  induction l generalizing t s with
  | nil => exact h
  | cons a l ih => exact ih (hf t s a h)

theorem State.putBytes_slices {s t : State} (h : t.slices = s.slices) (key : Key) (pa : Nat) (bs : List Byte) :
    (t.putBytes key pa bs).slices = (s.putBytes key pa bs).slices := by
  have hlines : (if inStack pa then (linesOf pa bs.length).foldl (fun s l => s.rekey key l) t else t).slices =
      (if inStack pa then (linesOf pa bs.length).foldl (fun s l => s.rekey key l) s else s).slices := by
    split
    · exact foldl_rel (fun t s : State => t.slices = s.slices) (fun t s l h => State.rekey_slices h key l) _ h
    · exact h
  unfold State.putBytes
  dsimp only
  generalize (if inStack pa then (linesOf pa bs.length).foldl (fun s l => s.rekey key l) t else t) = t1 at hlines
  generalize (if inStack pa then (linesOf pa bs.length).foldl (fun s l => s.rekey key l) s else s) = s1 at hlines
  show (Memory.writeBytes t1.mem pa bs, t1.lineKey, t1.dies) = (Memory.writeBytes s1.mem pa bs, s1.lineKey, s1.dies)
  rw [State.mem_of_slices hlines, State.lineKey_of_slices hlines, State.dies_of_slices hlines]

theorem State.setPoisons_slices (l : List Nat) (s : State) : (l.foldl State.setPoison s).slices = s.slices :=
  foldl_keeps State.slices (fun s n => by unfold State.setPoison; split <;> rfl) l s

/-- A sequencer's store, performed, as memory has it. -/
theorem State.performWrite_slices {r : SliceReq} {q : BitVec 7} (hr : r.src = .seq q) (s : State) :
    (s.performWrite r).slices = ((runsOf r.bytes).foldl (fun s x => s.putBytes r.key x.1 x.2) s).slices := by
  unfold State.performWrite
  dsimp only
  rw [hr]
  dsimp only
  split
  · exact State.setPoisons_slices _ _
  · rfl

theorem State.performWrites_slices {s t : State} (h : t.slices = s.slices) (l : List SliceReq) (hl : ∀ r ∈ l, ∃ q, r.src = .seq q) :
    (l.foldl State.performWrite t).slices = (l.foldl State.performWrite s).slices := by
  induction l generalizing s t with
  | nil => exact h
  | cons r l ih =>
    obtain ⟨q, hq⟩ := hl r List.mem_cons_self
    refine ih ?_ fun x hx => hl x (List.mem_cons_of_mem _ hx)
    rw [State.performWrite_slices hq, State.performWrite_slices hq]
    exact foldl_rel (fun t s : State => t.slices = s.slices) (fun t s (x : Nat × List Byte) h => State.putBytes_slices h r.key x.1 x.2) _ h

/-! ### The bytes of a store (R143, R147) -/

theorem aget_addressed (bs : List Byte) (pa a : Nat) :
    aget (addressed pa bs) a = if pa ≤ a ∧ a < pa + bs.length then some (bs.getD (a - pa) 0) else none := by
  induction bs generalizing pa with
  | nil => simp [addressed, aget]
  | cons b bs ih =>
    have hcons : addressed pa (b :: bs) = (pa, b) :: addressed (pa + 1) bs := by
      simp [addressed, List.mapIdx_cons, Nat.add_assoc, Nat.add_comm 1]
    rw [hcons, aget, ih]
    by_cases ha : a = pa
    · simp [ha]
    · by_cases hr : pa + 1 ≤ a ∧ a < pa + 1 + bs.length
      · obtain ⟨k, rfl⟩ : ∃ k, a = pa + 1 + k := ⟨a - (pa + 1), by omega⟩
        rw [if_neg ha, if_pos hr, if_pos (by simp; omega), show pa + 1 + k - pa = k + 1 by omega, List.getD_cons_succ,
          Nat.add_sub_cancel_left]
      · rw [if_neg ha, if_neg hr, if_neg (by simp; omega)]

theorem runsOf_addressed {bs : List Byte} (hne : bs ≠ []) (pa : Nat) : runsOf (addressed pa bs) = [(pa, bs)] := by
  induction bs generalizing pa with
  | nil => exact absurd rfl hne
  | cons b bs ih =>
    have hcons : addressed pa (b :: bs) = (pa, b) :: addressed (pa + 1) bs := by
      simp [addressed, List.mapIdx_cons, Nat.add_assoc, Nat.add_comm 1]
    rw [hcons, runsOf]
    cases bs with
    | nil => rfl
    | cons b1 bs =>
      rw [ih (List.cons_ne_nil _ _)]
      simp

/-- Bytes of stacked memory after a short store under a key, which may reach beyond it. -/
theorem State.putBytes_byteAt_stack {s : State} (key : Key) (pa : Nat) (bs : List Byte) {a : Nat} (h : MemOk s) (hl : bs.length ≤ 8)
    (ha : inStack a = true) :
    (s.putBytes key pa bs).byteAt key a = if pa ≤ a ∧ a < pa + bs.length then bs.getD (a - pa) 0 else s.byteAt key a := by
  simp only [inStack, decide_eq_true_eq] at ha
  by_cases hs : pa < 2 ^ 40
  · exact State.putBytes_byteAt key pa bs a h fun b h1 h2 => by simp only [inMgmt, decide_eq_false_iff_not]; omega
  · have hput : (s.putBytes key pa bs).slices = (Memory.writeBytes s.mem pa bs, s.lineKey, s.dies) := by
      have hns : ¬ inStack pa = true := by simpa [inStack] using hs
      unfold State.putBytes
      rw [if_neg hns]
      rfl
    rw [if_neg (by omega)]
    refine State.byteAt_congr key a (congrArg (fun v => v.2.2) hput) (congrArg (fun v => aget v.2.1 (lineOf a)) hput) fun b hb => ?_
    have hb' : ¬ (pa ≤ b ∧ b < pa + bs.length) := by simp only [lineOf] at hb; omega
    rw [show (s.putBytes key pa bs).mem = Memory.writeBytes s.mem pa bs from congrArg Prod.fst hput,
      Memory.read_writeBytes bs s.mem pa b h, if_neg hb']

/-- What a sequencer reads behind one more store of its own under the key: the store's byte where it has one, or what it read before. -/
theorem State.seqByte_issued {s t : State} {q : BitVec 7} {r : SliceReq} {pa : Nat} {bs : List Byte} (hslices : t.slices = s.slices)
    (hpend : t.pendOf q = s.pendOf q ++ [r]) (hsrc : r.src = .seq q) (hbytes : r.bytes = addressed pa bs) (hw : r.write = true)
    (hne : bs ≠ []) (hlen : bs.length ≤ 8) (hok : MemOk s) (a : Nat) :
    t.seqByte q r.key a = if pa ≤ a ∧ a < pa + bs.length then bs.getD (a - pa) 0 else s.seqByte q r.key a := by
  have hbyte : r.byteFor a = if pa ≤ a ∧ a < pa + bs.length then some (bs.getD (a - pa) 0) else none := by
    rw [SliceReq.byteFor, if_pos hw, hbytes, aget_addressed]
  have hall : (s.pendOf q ++ [r]).all (fun x => decide (x.key = r.key)) = (s.pendOf q).all (fun x => decide (x.key = r.key)) := by
    simp
  unfold State.seqByte
  dsimp only
  rw [hpend, hall]
  split
  · rw [List.foldl_append, List.foldl_cons, List.foldl_nil, hbyte, State.byteAt_of_slices hslices]
    split <;> rfl
  · next hc =>
    have hin : inStack a = true := by
      simp only [Bool.or_eq_true, Bool.not_eq_true', not_or, Bool.not_eq_false] at hc
      exact hc.2
    have hsrcs : ∀ x ∈ s.pendOf q, ∃ q, x.src = .seq q := fun x hx => ⟨q, of_decide_eq_true (List.mem_filter.mp hx).2⟩
    have hu := State.performWrites_slices hslices (s.pendOf q) hsrcs
    have huok : MemOk ((s.pendOf q).foldl State.performWrite t) :=
      State.performWrites_memOk _ _ (MemOk.of_mem (State.mem_of_slices hslices) hok)
    rw [List.foldl_append, List.foldl_cons, List.foldl_nil, State.byteAt_of_slices (State.performWrite_slices hsrc _), hbytes,
      runsOf_addressed hne, List.foldl_cons, List.foldl_nil, State.putBytes_byteAt_stack r.key pa bs huok hlen hin,
      State.byteAt_of_slices hu]

theorem natToBytes_getD {n i : Nat} (v : Nat) (hi : i < n) : (natToBytes n v).getD i 0 = BitVec.ofNat 8 (v / 2 ^ (8 * i)) := by
  induction n generalizing v i with
  | zero => omega
  | succ n ih =>
    cases i with
    | zero => simp [natToBytes]
    | succ i =>
      rw [natToBytes, List.getD_cons_succ, ih (v / 256) (by omega), Nat.div_div_eq_div_mul, Nat.mul_succ, Nat.add_comm,
        Nat.pow_add]

/-! ### `st` (R143, R147, R148) -/

theorem released_memOk {s : State} (h : MemOk s) (o : BitVec 2) (c : BitVec 3) : MemOk (released s o c) := by
  unfold released
  split
  · exact h
  · split
    · exact s.flush_memOk _ h
    · exact h

theorem memOk_of_reaches {s s1 : State} {right : Right} {n : Nat} {va : Word64} {x : Xlated} (h : reaches s s1 right n va x)
    (hok : MemOk s) : MemOk s1 := by
  obtain ⟨-, ⟨s0, hx, rfl⟩, -⟩ := h
  have h0 := s.xlate_store s.seqTurn right va
  rw [hx] at h0
  exact s0.settle_memOk _ (MemOk.of_store h0 hok)

/-- A state with more stores issued, behind those that it has. -/
def State.issue (s : State) (l : List SliceReq) : State := { s with pend := s.pend ++ l }

/-- A store is issued as R147 has it. -/
theorem State.issueStore_eq {s s2 : State} (x : Xlated) (bs : List Byte) (hturn : s2.seqTurn = s.seqTurn) (hcyc : s2.cyc = s.cyc) :
    s2.issueStore s2.seqTurn x.key x.pa bs = s2.issue [issued s x bs] := by
  rw [State.issueStore, State.issue, issued, hturn, hcyc]
  rfl

theorem execSt_issues {s s1 : State} {d a : BitVec 5} {g : BitVec 3} {o : BitVec 2} {c : BitVec 3} {w : BitVec 2} {e : BitVec 6} {x : Xlated}
    (h : guardOn s g 0) (hi : mayIssue s) (hr : mayRelease s o c)
    (hx : reaches s s1 .w (2 ^ w.toNat) (reg s a + BitVec.ofNat 64 (e.toNat * 2 ^ w.toNat)) x) :
    execSt d a g o c w e s = .next (((released s1 o c).issue [issued s x (natToBytes (2 ^ w.toNat) (reg s d).toNat)]).setSeq s.seqTurn
      { me s1 with pc := (me s).pc + 4 }) := by
  have hrun := running_of_reaches hx
  have hturn := (State.seqTurn_of_bare (released_bare s1 o c)).trans (State.seqTurn_of_running hrun)
  have hcyc := (State.cyc_of_bare (released_bare s1 o c)).trans (cyc_of_reaches hx)
  rw [execSt_access h hi hr, accessAll_of_reaches hx, ← released_eq, List.map_cons, List.map_nil, State.issueAll, State.issueAll,
    State.issueStore_eq (s := s) x _ hturn hcyc, ← me_pc_of_running hrun, ← hturn, ← me_of_bare (released_bare s1 o c)]
  rfl

/-- Settles O17: the store is issued behind the release, and its sequencer reads its bytes and no others anew. -/
theorem storeWritesItsBytes : Obligations.StoreWritesItsBytes := by
  intro s s1 d a g o c w e x n s2 h hi hr hx
  have hn : 0 < n := Nat.two_pow_pos _
  refine ⟨_, (exec_st d a g o c w e s).trans (execSt_issues h hi hr hx), State.setSeq_seq_self _ _ _, rfl, rfl, rfl, fun hok => ?_⟩
  have hread := State.seqByte_issued (s := s2)
    (t := (s2.issue [issued s x (natToBytes n (reg s d).toNat)]).setSeq s.seqTurn { me s1 with pc := (me s).pc + 4 })
    (q := s.seqTurn) (r := issued s x (natToBytes n (reg s d).toNat)) (pa := x.pa) (bs := natToBytes n (reg s d).toNat)
    rfl (by simp [State.pendOf, issued, State.issue]) rfl rfl rfl (List.ne_nil_of_length_pos (by simpa using hn)) (by simpa using two_pow_width_le w)
    (released_memOk (memOk_of_reaches hx hok) o c)
  rw [natToBytes_length] at hread
  refine ⟨fun i hin => (hread _).trans ?_, fun pa hpa => (hread _).trans ?_⟩
  · rw [if_pos ⟨Nat.le_add_right _ _, Nat.add_lt_add_left hin _⟩, Nat.add_sub_cancel_left, natToBytes_getD _ hin]
  · exact if_neg (by omega)

end Sys2Proof.Machine
end

section
open Sys2Proof.Cert
namespace Sys2Proof.Machine

/-! ### Lists of registers (R48) -/

theorem Seq.writeG_eq (x : Seq) (d : BitVec 5) (v : Word64) : x.writeG d v = { x with g := (x.writeG d v).g } := by
  unfold Seq.writeG
  split <;> rfl

/-- Writing a list of registers changes registers alone. -/
theorem Seq.writeList_eq (vs : List Word64) (x : Seq) (d : BitVec 5) : x.writeList d vs = { x with g := (x.writeList d vs).g } := by
  induction vs generalizing x d with
  | nil => rfl
  | cons v vs ih =>
    rw [Seq.writeList, ih, Seq.writeG_eq]

theorem Seq.writeG_g (x : Seq) (d r : BitVec 5) (v : Word64) (hr : r ≠ 0) :
    (x.writeG d v).g[r.toNat] = if r = d then v else x.g[r.toNat] := by
  have h := x.readG_writeG d r v
  simp only [Seq.readG, hr, if_false] at h
  rw [h]
  by_cases hd : r = d
  · rw [if_pos ⟨hd, hd ▸ hr⟩, if_pos hd]
  · rw [if_neg (fun e => hd e.1), if_neg hd]

/-- What a register other than g0 holds after a list was written from `d`. -/
theorem Seq.writeList_g (vs : List Word64) (x : Seq) (d r : BitVec 5) (hr : r ≠ 0) (hd : d.toNat + vs.length ≤ 32) :
    (x.writeList d vs).g[r.toNat] =
      if d.toNat ≤ r.toNat ∧ r.toNat < d.toNat + vs.length then vs.getD (r.toNat - d.toNat) 0 else x.g[r.toNat] := by
  induction vs generalizing x d with
  | nil => rw [if_neg (by rw [List.length_nil]; omega)]; rfl
  | cons v vs ih =>
    rw [List.length_cons] at hd
    have h1 : (d + 1).toNat = (d.toNat + 1) % 32 := by simp [BitVec.toNat_add]
    rw [Seq.writeList, ih _ _ (by omega), Seq.writeG_g x d r v hr, List.length_cons]
    have hd5 := d.isLt
    by_cases he : r = d
    · subst he
      rw [if_neg (by omega), if_pos rfl, if_pos (by omega), Nat.sub_self, List.getD_cons_zero]
    · have hne : r.toNat ≠ d.toNat := fun e => he (BitVec.eq_of_toNat_eq e)
      rw [if_neg he]
      by_cases hin : d.toNat ≤ r.toNat ∧ r.toNat < d.toNat + (vs.length + 1)
      · rw [if_pos hin, if_pos (by omega), show r.toNat - d.toNat = r.toNat - (d + 1).toNat + 1 by omega, List.getD_cons_succ]
      · rw [if_neg hin, if_neg (by omega)]

/-! ### `ldm` and `stm` (R144) -/

theorem poisonedAt_eq_none {s : State} {n : Nat} (vas : List Word64) {xs : List Xlated} (h : ∀ x ∈ xs, s.poisonIn x.pa n = none) :
    s.poisonedAt n (vas.zip xs) = none := by
  induction vas generalizing xs with
  | nil => rfl
  | cons va vas ih =>
    cases xs with
    | nil => rfl
    | cons x xs =>
      rw [List.zip_cons_cons, State.poisonedAt, h x List.mem_cons_self]
      exact ih fun y hy => h y (List.mem_cons_of_mem _ hy)

section
variable {s s0 : State} {right : Right} {vas : List Word64} {xs : List Xlated} (hx : s.xlateAll s.seqTurn right vas = (.ok xs, s0))
include hx

theorem fill_of_xlateAll : ∃ l1 l2, s0 = s.fill s.seqTurn l1 l2 := by
  obtain ⟨l1, l2, h⟩ := s.xlateAll_fill vas s.seqTurn right
  rw [hx] at h
  exact ⟨l1, l2, h⟩

theorem running_of_xlateAll : (settled s0).running s.seqTurn = s.running s.seqTurn := by
  obtain ⟨l1, l2, rfl⟩ := fill_of_xlateAll hx
  exact (State.settle_running ..).trans (State.fill_running ..)

theorem cyc_of_xlateAll : (settled s0).cyc = s.cyc := by
  obtain ⟨l1, l2, rfl⟩ := fill_of_xlateAll hx
  exact (State.cyc_of_bare (State.settle_bare (s.fill s.seqTurn l1 l2) _)).trans rfl

theorem mem_pend_of_xlateAll (hn : noneOrdered s) : (settled s0).mem = s.mem ∧ (settled s0).pend = s.pend := by
  obtain ⟨l1, l2, rfl⟩ := fill_of_xlateAll hx
  have h1 : settled (s.fill s.seqTurn l1 l2) = s.fill s.seqTurn l1 l2 := State.settle_unordered _ _ hn
  rw [h1]
  exact ⟨rfl, rfl⟩

/-- An access to aligned addresses that reach memory is its body there. -/
theorem State.accessAll_reaching {n : Nat} (body : State → List Xlated → Result) (ha : ∀ va ∈ vas, va.toNat % n = 0)
    (hw : ∀ x ∈ xs, s.pathTo (seqDie s.seqTurn) x.pa = .up) (hp : right = .w ∨ ∀ x ∈ xs, (settled s0).poisonIn x.pa n = none) :
    s.accessAll right n vas body = body (settled s0) xs := by
  obtain ⟨l1, l2, rfl⟩ := fill_of_xlateAll hx
  exact State.accessAll_ok body (by simpa using ha) hx hw (hp.imp_right fun h => poisonedAt_eq_none vas h)

end

/-- The stores of a list are issued in its order. -/
theorem State.issueAll_eq (s : State) (l : List (Xlated × Word64)) {s2 : State} (hturn : s2.seqTurn = s.seqTurn) (hcyc : s2.cyc = s.cyc) (k : Nat) :
    s2.issueAll k l = s2.issue (l.map (fun p => issued s p.1 (natToBytes k p.2.toNat))) := by
  induction l generalizing s2 with
  | nil => rw [State.issueAll, State.issue, List.map_nil, List.append_nil]
  | cons p l ih =>
    rw [State.issueAll, State.issueStore_eq (s := s) p.1 _ hturn hcyc,
      ih (s2 := s2.issue [issued s p.1 (natToBytes k p.2.toNat)]) hturn hcyc]
    simp [State.issue]

section
variable {s s0 : State} {d a : BitVec 5} {g : BitVec 3} {o : BitVec 2} {c : BitVec 3} {n : BitVec 4} {xs : List Xlated}
  (hg : guardOn s g 0) (hi : mayIssue s) (hal : (reg s a).toNat % 8 = 0)
  (hw : ∀ x ∈ xs, s.pathTo (seqDie s.seqTurn) x.pa = .up)
include hg hi hal hw

theorem execLdm_reads (hx : s.xlateAll s.seqTurn .r (listAddrs (reg s a) n) = (.ok xs, s0))
    (hp : ∀ x ∈ xs, (settled s0).poisonIn x.pa 8 = none) :
    execLdm d a g o c n s = .next ((settled s0).setSeq s.seqTurn
      ((me (settled s0)).writeList d (xs.map (fun x => BitVec.ofNat 64 ((settled s0).seqNum s.seqTurn x.key x.pa 8)))).advance) := by
  rw [execLdm, memAccess_on hg hi, ← State.seqTurn_of_running (running_of_xlateAll hx)]
  exact State.accessAll_reaching hx _ (listAddrs_aligned hal n) hw (.inr hp)

theorem execStm_issues (hx : s.xlateAll s.seqTurn .w (listAddrs (reg s a) n) = (.ok xs, s0))
    (hk : (s.pendOf s.seqTurn).length + n.toNat < 16) (hr : mayRelease s o c) :
    execStm d a g o c n s = .next (((released (settled s0) o c).issue ((xs.zip ((me s).readList d n.toNat)).map (fun p =>
      issued s p.1 (natToBytes 8 p.2.toNat)))).setSeq s.seqTurn { me (settled s0) with pc := (me s).pc + 4 }) := by
  have hrun := running_of_xlateAll hx
  have hb := released_bare (settled s0) o c
  have hturn := (State.seqTurn_of_bare hb).trans (State.seqTurn_of_running hrun)
  rw [execStm_access hg hi hr d a hk, State.accessAll_reaching hx _ (listAddrs_aligned hal n) hw (.inl rfl), ← released_eq,
    State.issueAll_eq s _ hturn ((State.cyc_of_bare hb).trans (cyc_of_xlateAll hx)), ← me_pc_of_running hrun, ← hturn, ← me_of_bare hb]
  rfl

end

/-- The values stored from consecutive registers, by their places in the list. -/
theorem zip_readList_map {β : Type} {s : State} {d : BitVec 5} {n : BitVec 4} {xs : List Xlated} (hl : xs.length = n.toNat + 1)
    (f : Xlated → Word64 → β) :
    (xs.zip ((me s).readList d n.toNat)).map (fun p => f p.1 p.2) = xs.mapIdx (fun i x => f x (reg s (d + BitVec.ofNat 5 i))) := by
  refine List.ext_getElem (by simp [Seq.readList, hl]) fun i h1 h2 => ?_
  simp only [List.getElem_map, List.getElem_zip, List.getElem_mapIdx, Seq.readList, List.getElem_range]
  rfl

/-- Settles O18: a list is one access to rising addresses; its registers are written, or its stores issued, in its order. -/
theorem listTransfers : Obligations.ListTransfers := by
  intro s s0 d a g o c n xs va s1 hd hg hi hal hw
  refine ⟨fun hx hp => ?_, fun hx hk hr => ?_⟩
  · have hrun : s1.running s.seqTurn = s.running s.seqTurn := running_of_xlateAll hx
    have hlen : xs.length = n.toNat + 1 := (State.xlateAll_length hx).trans (by simp)
    have hseq : ({ me s1 with tlb := [] } : Seq) = { me s with tlb := [] } := by
      rw [me, State.seqTurn_of_running hrun]
      exact congrArg (fun v => v.2.2) hrun
    refine ⟨_, (exec_ldm d a g o c n s).trans (execLdm_reads hg hi hal hw hx hp), rfl, rfl, mem_pend_of_xlateAll hx, ?_, ?_, fun r hr => ?_⟩
    · rw [State.setSeq_seq_self, Seq.writeList_eq]
      exact (congrArg (fun x : Seq => x.pc + 4) hseq :)
    · rw [State.setSeq_seq_self, Seq.writeList_eq]
      exact (congrArg Seq.p hseq :)
    · rw [State.setSeq_seq_self, Seq.advance_g, Seq.writeList_g _ _ _ _ hr (by simp; omega), List.length_map, hlen,
        show (me s1).g = (me s).g from (congrArg Seq.g hseq :)]
      by_cases hin : d.toNat ≤ r.toNat ∧ r.toNat ≤ d.toNat + n.toNat
      · rw [if_pos hin, if_pos (by omega), List.getD_eq_getElem?_getD, List.getElem?_map,
          List.getElem?_eq_getElem (by omega : r.toNat - d.toNat < xs.length)]
        rfl
      · rw [if_neg hin, if_neg (by omega)]
  · have hlen : xs.length = n.toNat + 1 := (State.xlateAll_length hx).trans (by simp)
    refine ⟨_, (exec_stm d a g o c n s).trans (execStm_issues hg hi hal hw hx hk hr), State.setSeq_seq_self _ _ _, rfl, ?_⟩
    exact congrArg _ (zip_readList_map hlen (fun x v => issued s x (natToBytes 8 v.toNat)))

/-! ### Atomics and `cas` (R145, R146) -/

theorem State.flushOver_bare (s : State) (q : BitVec 7) (pa n : Nat) : (s.flushOver q pa n).bare = s.bare := by
  unfold State.flushOver
  dsimp only
  split
  · rfl
  · exact State.performWrites_bare _ { s with pend := _ } fun r hr =>
      ⟨q, by simpa using (List.mem_filter.mp (List.mem_of_mem_take hr)).2⟩

theorem State.loaded_eq (s : State) (d : BitVec 5) (vs : List Word64) :
    s.loaded d vs = .next (s.setSeq s.seqTurn ((me s).writeList d vs).advance) := rfl

/-- An access at a location puts the new value, where there is one, behind the release and the earlier stores there. -/
theorem atomicDoes_of_access {i : Instr} {s s1 : State} {a : BitVec 5} {o : BitVec 2} {c : BitVec 3} {d : BitVec 5} {n : Nat} {x : Xlated}
    {f new : Nat → Option Nat} (he : exec i s = s.accessAll .rw n [reg s a] (atomicBody o c d n f)) (hx : reaches s s1 .rw n (reg s a) x)
    (hok : MemOk s) (hn : n ≤ 8) (hplace : inStack x.pa = true ∨ inHost x.pa = true)
    (hf : ∀ old, old < 256 ^ n → f old = new old ∧ ∀ v ∈ new old, v < 256 ^ n) : atomicDoes i s s1 o c d n x new := by
  have hturn := State.seqTurn_of_running (running_of_reaches hx)
  have hmgmt : ∀ b, x.pa ≤ b → b < x.pa + n → inMgmt b = false := record_not_inMgmt (off := 0) hplace (by omega)
  have hok2 : MemOk ((released s1 o c).flushOver s.seqTurn x.pa n) :=
    State.flushOver_memOk _ _ _ _ (released_memOk (memOk_of_reaches hx hok) o c)
  have hbare : ((released s1 o c).flushOver s.seqTurn x.pa n).bare = s1.bare := (State.flushOver_bare ..).trans (released_bare s1 o c)
  rw [accessAll_of_reaches hx, atomicBody, ← released_eq, hturn] at he
  unfold atomicDoes
  generalize (released s1 o c).flushOver s.seqTurn x.pa n = s2 at he hok2 hbare ⊢
  obtain ⟨hfn, hv⟩ := hf _ (s2.numAt_lt x.key x.pa n)
  rw [hfn] at he
  refine ⟨_, he, ?_, ?_, fun b hb => ?_⟩
  · have hb3 := (s2.putOption_bare x.key x.pa n (new (s2.numAt x.key x.pa n))).trans hbare
    rw [wrote_eq, ← hturn, ← me_of_bare hb3, ← State.seqTurn_of_bare hb3, State.setSeq_seq_self, State.setSeq_seq_self]
    rfl
  · cases hnew : new (s2.numAt x.key x.pa n) with
    | none => rfl
    | some v => exact State.putNum_numAt_self hok2 hmgmt (hv v hnew)
  · cases hnew : new (s2.numAt x.key x.pa n) with
    | none => rfl
    | some v => exact (State.putNum_byteAt hok2 hmgmt b).trans (if_neg (by omega))

/-- An atomic operation's value has its width. -/
theorem AmoOp.apply_lt (op : AmoOp) {w : Nat} (old v : Nat) : op.apply w old v < 2 ^ w := by
  have hx := Nat.mod_lt old (Nat.two_pow_pos w)
  have hy := Nat.mod_lt v (Nat.two_pow_pos w)
  cases op with
  | swap => exact hy
  | add => exact Nat.mod_lt _ (Nat.two_pow_pos w)
  | and => exact Nat.and_lt_two_pow _ hy
  | or => exact Nat.or_lt_two_pow hx hy
  | xor => exact Nat.xor_lt_two_pow hx hy
  | min | max | minu | maxu => unfold AmoOp.apply; dsimp only; split <;> assumption

section
variable {s s1 : State} {d a : BitVec 5} {g : BitVec 3} {o : BitVec 2} {c : BitVec 3} {w : BitVec 2} {x : Xlated}
  (hok : MemOk s) (hplace : inStack x.pa = true ∨ inHost x.pa = true) (hg : guardOn s g 0) (hi : mayIssue s) (hr : mayRelease s o c)
  (hx : reaches s s1 .rw (2 ^ w.toNat) (reg s a) x)
include hok hplace hg hi hr hx

/-- An atomic operation puts the value of the operation. -/
theorem atomicDoes_amoOf (op : AmoOp) {new : Nat → Option Nat} (hnew : ∀ old, old < 2 ^ (8 * 2 ^ w.toNat) →
    some (op.apply (8 * 2 ^ w.toNat) old (reg s d).toNat) = new old) :
    atomicDoes (amoOf op d a g o c w) s s1 o c d (2 ^ w.toNat) x new := by
  refine atomicDoes_of_access ((exec_amoOf op d a g o c w s).trans (amoAccess_access hg hi hr op d a w)) hx hok
    (two_pow_width_le w) hplace fun old hold => ?_
  rw [pow_256] at hold ⊢
  refine ⟨hnew old hold, fun v hv => ?_⟩
  rw [← hnew old hold] at hv
  obtain rfl := Option.mem_some.mp hv
  exact op.apply_lt _ _

theorem atomicDoes_cas : atomicDoes (.cas d a g o c w) s s1 o c d (2 ^ w.toNat) x (fun old =>
    if old = (reg s d).toNat % 2 ^ (8 * 2 ^ w.toNat) then some ((reg s (d + 1)).toNat % 2 ^ (8 * 2 ^ w.toNat)) else none) := by
  refine atomicDoes_of_access ((exec_cas d a g o c w s).trans (execCas_access hg hi hr d a w)) hx hok (two_pow_width_le w) hplace
    fun old _ => ⟨rfl, fun v hv => ?_⟩
  rw [pow_256]
  split at hv
  · obtain rfl := Option.mem_some.mp hv
    exact Nat.mod_lt _ (Nat.two_pow_pos _)
  · cases hv

end

/-- Settles O19: each is one access, whose new value is its operation's. -/
theorem atomicsReadModifyWrite : Obligations.AtomicsReadModifyWrite := by
  intro s s1 d a g o c w x n m y sgn _ hok hplace hg hi hr hx
  have amo (op : AmoOp) {new : Nat → Option Nat} := atomicDoes_amoOf (d := d) hok hplace hg hi hr hx op (new := new)
  have hy : y < m := Nat.mod_lt _ (Nat.two_pow_pos _)
  have hhalf : m / 2 = 2 ^ (8 * n - 1) := Nat.div_eq_of_eq_mul_left (by decide)
    (by rw [← Nat.pow_succ, Nat.succ_eq_add_one, Nat.sub_add_cancel (by have := Nat.two_pow_pos w.toNat; omega)])
  have hsgn : ∀ v, v < m → toSigned (8 * n) v = sgn v := fun v hv => by
    rw [toSigned, Nat.mod_eq_of_lt hv, ← hhalf]
    by_cases h : m / 2 ≤ v
    · rw [if_pos h]; exact (if_neg (by omega)).symm
    · rw [if_neg h]; exact (if_pos (by omega)).symm
  refine ⟨amo .swap fun old h => rfl, amo .add fun old h => ?_, amo .and fun old h => ?_, amo .or fun old h => ?_,
    amo .xor fun old h => ?_, amo .min fun old h => ?_, amo .max fun old h => ?_, amo .minu fun old h => ?_,
    amo .maxu fun old h => ?_, fun _ => atomicDoes_cas hok hplace hg hi hr hx⟩
  all_goals rw [AmoOp.apply, Nat.mod_eq_of_lt h]
  · rw [hsgn old h, hsgn _ hy]
  · rw [hsgn old h, hsgn _ hy]
  · exact congrArg some (min_def old y).symm
  · exact congrArg some (max_def old y).symm

end Sys2Proof.Machine
end

section
open Sys2Proof.Cert
namespace Sys2Proof.Machine

/-! ### Lanes side by side (R65, R152) -/

theorem packLanes_lt (w : Nat) (xs : List Nat) : packLanes w xs < 2 ^ (w * xs.length) := by
  induction xs with
  | nil => exact Nat.one_pos
  | cons x xs ih =>
    have hx := Nat.mod_lt x (Nat.two_pow_pos w)
    have hm : 2 ^ w * (packLanes w xs + 1) ≤ 2 ^ w * 2 ^ (w * xs.length) := Nat.mul_le_mul_left _ ih
    rw [packLanes, List.length_cons, Nat.mul_add, Nat.mul_one, Nat.pow_add, Nat.mul_comm (2 ^ (w * xs.length))]
    rw [Nat.mul_add, Nat.mul_one] at hm
    omega

theorem laneAt_packLanes (w : Nat) (xs : List Nat) {i : Nat} (hi : i < xs.length) : laneAt w (packLanes w xs) i = xs[i] % 2 ^ w := by
  induction xs generalizing i with
  | nil => cases hi
  | cons x xs ih =>
    have hx := Nat.mod_lt x (Nat.two_pow_pos w)
    cases i with
    | zero => simp [laneAt, packLanes]
    | succ i =>
      rw [List.getElem_cons_succ, ← ih (Nat.lt_of_succ_lt_succ hi), laneAt, laneAt, packLanes, Nat.mul_succ, Nat.add_comm (w * i),
        Nat.pow_add, ← Nat.div_div_eq_div_mul, Nat.add_mul_div_left _ _ (Nat.two_pow_pos w), Nat.div_eq_of_lt hx, Nat.zero_add]

/-- The double-words of a record are the values that it was packed from. -/
theorem bits_payloadOf (vs : List Word64) {i : Nat} (hi : i < vs.length) (hl : vs.length ≤ 8) :
    bits (payloadOf 64 (vs.map BitVec.toNat)) (64 * i) 64 = vs[i] := by
  have hlt : ∀ k, 64 * 8 ≤ k → packLanes 64 (vs.map BitVec.toNat) < 2 ^ k := fun k hk =>
    (packLanes_lt 64 _).trans_le (Nat.pow_le_pow_right Nat.two_pos (by rw [List.length_map]; omega))
  have hlane := laneAt_packLanes 64 (vs.map BitVec.toNat) (i := i) (by simpa using hi)
  refine BitVec.eq_of_toNat_eq ?_
  rw [bits_toNat, payloadOf, BitVec.toNat_ofNat, Nat.mod_eq_of_lt (hlt _ (by decide))]
  rw [laneAt] at hlane
  rw [hlane, List.getElem_map]
  exact Nat.mod_eq_of_lt vs[i].isLt

/-- The double-words of a unit are the values that it was made of (R152). -/
theorem unitOf_dword (t : Tag) (vs : List Word64) {i : Nat} (hi : i < vs.length) (hl : vs.length ≤ 16) : (unitOf t vs).dword i = vs[i] := by
  unfold unitOf
  dsimp only
  by_cases h8 : vs.length ≤ 8
  · rw [if_pos h8, Item.dword, if_pos (by omega)]
    exact bits_payloadOf vs hi h8
  · rw [if_neg h8, Item.dword]
    by_cases hi8 : i < 8
    · rw [if_pos hi8, bits_payloadOf _ (by simp; omega) (by simp), List.getElem_take]
    · simp only [hi8, if_false, show i < 16 by omega, if_true]
      rw [bits_payloadOf _ (by simp; omega) (by simp; omega), List.getElem_drop]
      simp [show 8 + (i - 8) = i by omega]

theorem unitOf_tag (t : Tag) (vs : List Word64) : (unitOf t vs).tag = t := by
  unfold unitOf
  split <;> rfl

theorem unitOf_v1 (t : Tag) (vs : List Word64) : (unitOf t vs).v1.isSome ↔ 8 < vs.length := by
  unfold unitOf
  split <;> simp <;> omega

/-! ### Port instructions in a running region (R122) -/

section
variable {s : State} {q : BitVec 3} (h : open_ s q) {n : BitVec 6}
include h

theorem guardHolds_of_open : (me s).guardHolds q 0 = true := guardHolds_of_guardOn h.1

theorem onInlet_bound {c : CellId} {k : BitVec 3} (hn : inAt s n c k) (body : Seq → CellId → BitVec 3 → Queue → Result) :
    onInlet s q n body = body (me s) c k (s.cell c).queues[k.toNat] := by
  have hin : s.inlet s.seqTurn n = some ((c, k), (s.cell c).queues[k.toNat]) := by
    rw [State.inlet, show (s.seq s.seqTurn).inPort[n.toNat] = some (c, k) from hn]
    rfl
  rw [onInlet_run n body (guardHolds_of_open h) h.2, hin]
  rfl

theorem onOutlet_bound {x : Queue} (hn : outAt s n x) (body : Seq → Queue → Result) : onOutlet s q n body = body (me s) x := by
  rw [onOutlet_run n body (guardHolds_of_open h) h.2, show (s.seq s.seqTurn).outPort[n.toNat] = some x from hn]
  rfl

theorem onInlet_unbound (hn : (me s).inPort[n.toNat] = none) (body : Seq → CellId → BitVec 3 → Queue → Result) :
    onInlet s q n body = s.trap tPortUnbound (inVal n) := by
  have hin : s.inlet s.seqTurn n = none := by
    rw [State.inlet, show (s.seq s.seqTurn).inPort[n.toNat] = none from hn]
    rfl
  rw [onInlet_run n body (guardHolds_of_open h) h.2, hin]

theorem onOutlet_unbound (hn : (me s).outPort[n.toNat] = none) (body : Seq → Queue → Result) :
    onOutlet s q n body = s.trap tPortUnbound (outVal n) := by
  rw [onOutlet_run n body (guardHolds_of_open h) h.2, show (s.seq s.seqTurn).outPort[n.toNat] = none from hn]

end

/-! ### `put` (R152, R153) -/

/-- A flowing queue with nothing in its ring keeps DATA that leaves it under HIGH (R231, R238). -/
theorem Queue.offer_flowing_ring {x : Queue} {u : Item} (hd : u.isData = true) (hs : x.state = .flowing) (hr : x.ring = [] ∨ x.spills = false)
    (hf : u.slots ≤ x.free) (ho : x.occ + u.slots < x.high) (qid : Word32) : x.offer qid u = ⟨x.enqueue u, .kept, none, 0⟩ := by
  have hlow : ¬ (x.enqueue u).high ≤ (x.enqueue u).occ := by
    rw [Queue.enqueue_occ hd]
    exact Nat.not_le.mpr ho
  have hring : x.spills = true → ¬ x.ring = [] → False := fun h1 h2 => hr.elim h2 fun h3 => by simp [h3] at h1
  have harrive : x.arrive qid u = ⟨x.enqueue u, .kept, none, 0⟩ := by
    simp [Queue.arrive, hs, hd, hf, hlow]
    exact fun h1 h2 => (hring h1 h2).elim
  have hstate : (x.enqueue u).state = .flowing := hs
  simp [Queue.offer, harrive, Queue.canLeave, hstate]

/-- A closed queue counts DATA as lost (R231, R238). -/
theorem Queue.offer_closed {x : Queue} {u : Item} (hd : u.isData = true) (hs : x.state = .closed) (qid : Word32) :
    x.offer qid u = ⟨x.countLost 1, .lost, none, 0⟩ := by
  have hstate : (x.countLost 1).state = .closed := hs
  simp [Queue.offer, Queue.arrive, hs, hd, Queue.canLeave, hstate]

section
variable {s : State} {q : BitVec 3} {a : BitVec 5} {n : BitVec 6} {m : BitVec 4} {c : CellId} {k : BitVec 3}
  (h : open_ s q) (hn : inAt s n c k) (hb : ¬ (me s).cycle < (me s).backoff[n.toNat])
include h hn hb

/-- A `put` whose offer puts its queue back goes on behind it. -/
theorem execPut_offers {y : Queue} {o : Outcome3}
    (ho : (s.cell c).queues[k.toNat].offer (cellWord c k) ((me s).putUnit a n m) = ⟨y, o, none, 0⟩)
    (hr : y.ring = (s.cell c).queues[k.toNat].ring)
    (hh : y.head = (s.cell c).queues[k.toNat].head ∨ ∀ e, y.head = some e → badToken e = false) (hne : o ≠ .retry) :
    ∃ p, execPut a n q m s = .next (((queuePut s c k y).withPulses p).setSeq s.seqTurn ((me s).afterPut n (o == .lost)).advance) := by
  obtain ⟨p, hp⟩ := State.offerCell_of_ring ho hr hh
  refine ⟨p, ?_⟩
  rw [execPut, onInlet_bound h hn, if_neg hb, hp]
  dsimp only
  rw [if_neg hne]
  rfl

end

theorem exec_put (a : BitVec 5) (n : BitVec 6) (q : BitVec 3) (m : BitVec 4) (s : State) : exec (.put a n q m) s = execPut a n q m s := rfl

/-- Settles O22: the unit's double-words are the packed values, and the offer is the queue's own. -/
theorem putOffersAUnit : Obligations.PutOffersAUnit := by
  intro s a n q m c k ham h hn hb u x
  have hl : ((me s).readList a m.toNat).length = m.toNat + 1 := by simp [Seq.readList]
  refine ⟨⟨?_, ?_, fun i hi => ?_, ?_⟩, fun hs hd hf ho hr hkv => ?_, fun hs hd => ?_⟩
  · exact congrArg Tag.seq (unitOf_tag _ _)
  · exact (congrArg Tag.kind (unitOf_tag _ _)).trans rfl
  · refine (unitOf_dword _ _ (by omega) (by omega)).trans ?_
    simp [Seq.readList]
    rfl
  · exact (unitOf_v1 _ _).trans (by omega)
  · obtain ⟨p, hp⟩ := execPut_offers h hn hb (Queue.offer_flowing_ring hd hs hr hf ho _) rfl (Queue.enqueue_head hd) (by decide)
    refine ⟨_, (exec_put a n q m s).trans hp, ?_, State.setSeq_seq_self _ _ _, rfl⟩
    exact (queuePut_queue s c k _).trans (Queue.enqueue_whole hd hkv)
  · obtain ⟨p, hp⟩ := execPut_offers h hn hb (Queue.offer_closed hd hs _) rfl (.inl rfl) (by decide)
    exact ⟨_, (exec_put a n q m s).trans hp, State.setSeq_seq_self _ _ _⟩

end Sys2Proof.Machine
end

section
open Sys2Proof.Cert
namespace Sys2Proof.Machine

/-! ### `get` (R154) -/

theorem exec_get (d : BitVec 5) (n : BitVec 6) (q : BitVec 3) (m : BitVec 4) (s : State) : exec (.get d n q m) s = execGet d n q m s := rfl

theorem exec_getComplete (x : BitVec 7) (s : State) : exec (.getComplete x) s = execGetComplete x s := rfl

@[simp] theorem State.tookOut_seq (s : State) (x y : BitVec 7) (u : Item) : (s.tookOut x u).seq y = s.seq y := by
  unfold State.tookOut
  split <;> rfl

@[simp] theorem State.tookOut_mem (s : State) (x : BitVec 7) (u : Item) : (s.tookOut x u).mem = s.mem := by
  unfold State.tookOut
  split <;> rfl

/-- A list of registers written by its values' places (R48). -/
theorem Seq.writeList_range_g (x : Seq) (d r : BitVec 5) (hr : r ≠ 0) (m : BitVec 4) (hd : d.toNat + m.toNat ≤ 31) (f : Nat → Word64) :
    (x.writeList d ((List.range (m.toNat + 1)).map f)).g[r.toNat] =
      if d.toNat ≤ r.toNat ∧ r.toNat ≤ d.toNat + m.toNat then f (r.toNat - d.toNat) else x.g[r.toNat] := by
  rw [Seq.writeList_g _ _ _ _ hr (by simp; omega), List.length_map, List.length_range]
  by_cases hin : d.toNat ≤ r.toNat ∧ r.toNat ≤ d.toNat + m.toNat
  · rw [if_pos hin, if_pos (by omega), List.getD_eq_getElem?_getD, List.getElem?_map, List.getElem?_range (by omega)]
    rfl
  · rw [if_neg hin, if_neg (by omega)]

/-- The sequencer with an outlet's head taken, before its registers. -/
def Seq.took (z : Seq) (n : BitVec 6) (x : Queue) (u : Item) : Seq := { z with
  outPort := z.outPort.set n.toNat (some x.pop), ptag := u.tag.word, wait := .none, pc := z.pc + 4,
  acq := if u.tag.kind = kOrder then z.acq ++ (orderEntries u.v0).map orderOfWord else z.acq }

theorem State.popOut_seq (s : State) (q : BitVec 7) (d : BitVec 5) (n : BitVec 6) (m : BitVec 4) (x : Queue) (u : Item) :
    (s.popOut q d n m x u).seq q = ((s.seq q).took n x u).writeList d ((List.range (m.toNat + 1)).map u.dword) := by
  rw [State.popOut, State.tookOut_seq, State.setSeq_seq_self]
  rfl

theorem State.popOut_mem (s : State) (q : BitVec 7) (d : BitVec 5) (n : BitVec 6) (m : BitVec 4) (x : Queue) (u : Item) :
    (s.popOut q d n m x u).mem = s.mem := State.tookOut_mem _ _ _

/-- No accumulator on an outlet that has none attached. -/
theorem accOn_eq_none {s : State} {n : BitVec 6} (h : unattached s n) : (me s).accOn n = none := by
  rw [Seq.accOn, List.findSome?_eq_none_iff]
  intro i _
  cases ha : (me s).accs[i].attach with
  | none => rfl
  | some p =>
    obtain ⟨o, c⟩ := p
    have hne : o ≠ n := fun e => h i c (by rw [ha, e])
    exact if_neg hne

theorem execGet_bound {s : State} {q : BitVec 3} {d : BitVec 5} {n : BitVec 6} {m : BitVec 4} {x : Queue} (h : open_ s q) (hn : outAt s n x)
    (hu : unattached s n) : execGet d n q m s = match x.head with
      | none => .next (s.setSeq s.seqTurn { me s with wait := .get d n m })
      | some u => .next (s.popOut s.seqTurn d n m x u) := by
  rw [execGet, onOutlet_bound h hn, accOn_eq_none hu]
  rfl

theorem execGetComplete_popOut {s : State} {d : BitVec 5} {n : BitVec 6} {m : BitVec 4} {x : Queue} {u : Item} (hn : outAt s n x)
    (hw : (me s).wait = .get d n m) (hr : (me s).run = .running) (hh : x.head = some u) :
    execGetComplete s.seqTurn s = .next (s.popOut s.seqTurn d n m x u) := by
  have hn : (s.seq s.seqTurn).outPort[n.toNat] = some x := hn
  simp only [execGetComplete, show (s.seq s.seqTurn).wait = .get d n m from hw, show (s.seq s.seqTurn).run = .running from hr, hn, hh]

/-- Settles O23: both forms pop the head into the registers. -/
theorem getPopsAUnit : Obligations.GetPopsAUnit := by
  intro s d n q m x hd hn did
  have pops : ∀ i u, exec i s = .next (s.popOut s.seqTurn d n m x u) → did i u := by
    intro i u hi
    refine ⟨_, hi, ?_, State.popOut_mem ..⟩
    dsimp only
    rw [State.popOut_seq]
    refine ⟨?_, ?_, ?_, ?_, ?_, fun r hr => Seq.writeList_range_g _ d r hr m hd u.dword⟩
    all_goals rw [Seq.writeList_eq]
    · exact Vector.getElem_set_self _
    all_goals rfl
  refine ⟨fun h hu => ⟨fun u hh => pops _ u ?_, fun hh => ?_⟩, fun hw hr u hh => pops _ u ?_⟩
  · exact (exec_get d n q m s).trans ((execGet_bound h hn hu).trans (by rw [hh]))
  · exact (exec_get d n q m s).trans ((execGet_bound h hn hu).trans (by rw [hh]))
  · exact (exec_getComplete s.seqTurn s).trans (execGetComplete_popOut hn hw hr hh)

end Sys2Proof.Machine
end

section
open Sys2Proof.Cert
namespace Sys2Proof.Machine

/-! ### Port traps (R122, R130) -/

section
variable (s : State) (d : BitVec 5) (n : BitVec 6) (q : BitVec 3)

theorem exec_peekInlet : exec (.peekInlet d n q) s = execPeekInlet d n q s := rfl
theorem exec_peekOutlet : exec (.peekOutlet d n q) s = execPeekOutlet d n q s := rfl
theorem exec_qstatInlet : exec (.qstatInlet d n q) s = execQstatInlet d n q s := rfl
theorem exec_qstatOutlet : exec (.qstatOutlet d n q) s = execQstatOutlet d n q s := rfl
theorem exec_qgapInlet : exec (.qgapInlet d n q) s = execQgapInlet d n q s := rfl
theorem exec_qgapOutlet : exec (.qgapOutlet d n q) s = execQgapOutlet d n q s := rfl
theorem exec_qdrainInlet : exec (.qdrainInlet n q) s = execQdrainInlet n q s := rfl
theorem exec_qdrainOutlet : exec (.qdrainOutlet n q) s = execQdrainOutlet n q s := rfl
theorem exec_qbind (a : BitVec 5) : exec (.qbind a n q) s = execQbind a n q s := rfl

end

theorem outVal_eq (n : BitVec 6) : outVal n = BitVec.ofNat 64 (64 + n.toNat) := by
  apply BitVec.eq_of_toNat_eq
  have := n.isLt
  simp [outVal, BitVec.toNat_add]

theorem me_setSeq (s : State) (x : Seq) : me (s.setSeq s.seqTurn x) = x := State.setSeq_seq_self _ _ _

theorem State.goOn_writeG (s : State) (d : BitVec 5) (v : Word64) : s.goOn ((me s).writeG d v) = .next (wrote s d v) := by
  rw [wrote_eq]
  rfl

section
variable {s : State} {q : BitVec 3} (h : open_ s q) (hc : canTrap s) {n : BitVec 6}
include h hc

theorem onInlet_traps (hn : (me s).inPort[n.toNat] = none) (body : Seq → CellId → BitVec 3 → Queue → Result) :
    onInlet s q n body = .next (trapped s 9 (BitVec.ofNat 64 n.toNat)) := by
  rw [onInlet_unbound h hn, State.trap_canTrap hc, inVal_eq]
  rfl

theorem onOutlet_traps (hn : (me s).outPort[n.toNat] = none) (body : Seq → Queue → Result) :
    onOutlet s q n body = .next (trapped s 9 (BitVec.ofNat 64 (64 + n.toNat))) := by
  rw [onOutlet_unbound h hn, State.trap_canTrap hc, outVal_eq]
  rfl

end

/-! ### `peek`, `qstat` and `qgap` (R155, R253, R254) -/

section
variable {s : State} {q : BitVec 3} (h : open_ s q) (d : BitVec 5) {n : BitVec 6}
include h

theorem inlet_reads {c : CellId} {k : BitVec 3} (hn : inAt s n c k) :
    let x := (s.cell c).queues[k.toNat]
    exec (.peekInlet d n q) s = .next (wrote s d (BitVec.ofNat 64 (x.depth - x.occ))) ∧
    exec (.qstatInlet d n q) s = .next (wrote s d x.status) ∧
    exec (.qgapInlet d n q) s = .next (wrote (s.modCell c (fun y =>
      { y with queues := y.queues.set k.toNat { x with lost := 0, comp := 0 } })) d (x.comp ++ x.lost)) :=
  ⟨(exec_peekInlet ..).trans ((onInlet_bound h hn _).trans (s.goOn_writeG d _)),
    (exec_qstatInlet ..).trans ((onInlet_bound h hn _).trans (s.goOn_writeG d _)),
    (exec_qgapInlet ..).trans ((onInlet_bound h hn _).trans (State.goOn_writeG (s.modCell c _) d _))⟩

theorem outlet_reads {x : Queue} (hn : outAt s n x) :
    exec (.peekOutlet d n q) s = .next (wrote s d (match x.head with
      | some u => u.tag.word
      | none => 0xFFFFFFFFFFFFFFFF)) ∧
    exec (.qstatOutlet d n q) s = .next (wrote s d x.status) ∧
    exec (.qgapOutlet d n q) s = .next (wrote (s.setSeq s.seqTurn { me s with
      outPort := (me s).outPort.set n.toNat (some { x with lost := 0, comp := 0 }) }) d (x.comp ++ x.lost)) := by
  refine ⟨(exec_peekOutlet ..).trans ((onOutlet_bound h hn _).trans (s.goOn_writeG d _)),
    (exec_qstatOutlet ..).trans ((onOutlet_bound h hn _).trans (s.goOn_writeG d _)),
    (exec_qgapOutlet ..).trans ((onOutlet_bound h hn _).trans ?_)⟩
  rw [wrote_eq, me_setSeq, State.setSeq_seqTurn, State.setSeq_setSeq]
  rfl

end

/-! ### `qdrain` (R231, R246, R248, R255) -/

/-- A queue that does not shed drains, or has nothing to drain (R231). -/
theorem Queue.drain_eq {x : Queue} (h : x.state ≠ .shedding) (qid : Word32) :
    x.drain qid = ({ x with state := if x.state = .bound ∨ x.state = .flowing then .draining else x.state }, none) := by
  unfold Queue.drain
  split
  next hs => exact absurd hs h
  next hs => rw [if_pos (.inl hs)]
  next hs => rw [if_pos (.inr hs)]
  all_goals
    next hs => rw [if_neg (by simp [hs])]

/-- The marker of a queue that leaves SHEDDING (R248). -/
def Queue.leaveMarker (x : Queue) (qid : Word32) : Item :=
  (gapItem x.epN x.epLo x.epHi (BitVec.ofNat 4 x.pri) true 2 false qid 0 none).withInvs x.epInvs

theorem Queue.leaveMarker_isMarker (x : Queue) (qid : Word32) :
    isMarker (x.leaveMarker qid) 2 x.pri true x.epN x.epLo.toNat x.epHi.toNat := by
  have hpri : (BitVec.ofNat 4 x.pri).toNat = x.pri := by
    have : x.pri < 2 ^ 3 := (bits x.qctl 26 3).isLt
    rw [BitVec.toNat_ofNat, Nat.mod_eq_of_lt (by omega)]
  have h := isMarker_withInvs x.epInvs (isMarker_gapItem x.epN x.epLo x.epHi (BitVec.ofNat 4 x.pri) true 2 false qid 0 none)
  rw [hpri] at h
  exact h

theorem Queue.leaveMarker_nest (x : Queue) (qid : Word32) : (x.leaveMarker qid).tag.nest = 0 := by
  obtain ⟨i, k, e⟩ := withInvs_eq (gapItem x.epN x.epLo x.epHi (BitVec.ofNat 4 x.pri) true 2 false qid 0 none) x.epInvs
  rw [Queue.leaveMarker, e]
  rfl

/-- A shedding queue with nothing pending drains with its leave marker in a reserve entry (R246, R248). -/
theorem Queue.drain_shedding {x : Queue} (hs : x.state = .shedding) (hr : x.ring = []) (hp : x.sampPend = []) (ht : x.tokens < 8)
    (qid : Word32) : x.drain qid =
      ({ x with state := .draining, sampC := 0, sampInvs := [], entries := x.entries ++ [⟨x.leaveMarker qid, false⟩] }, none) := by
  have hpend : x.pendLost qid 0 none = ({ x with sampC := 0, sampInvs := [] }, none) := by rw [Queue.pendLost, hp]
  rw [Queue.drain, hs]
  dsimp only
  rw [Queue.leave, hpend]
  dsimp only
  rw [Queue.place_reserve (q := { x with sampC := 0, sampInvs := [] }) hr ht]
  rfl

section
variable {s : State} {q : BitVec 3} (h : open_ s q) {n : BitVec 6}
include h

/-- A `qdrain` at an inlet that leaves the ring as it is, and raises no fault, puts its queue back. -/
theorem execQdrainInlet_drains {c : CellId} {k : BitVec 3} {x y : Queue} (hn : inAt s n c k) (hx : x = (s.cell c).queues[k.toNat])
    (hf : x.frozen = false) (hd : x.drain (cellWord c k) = (y, none)) (hr : x.ring = y.ring) :
    execQdrainInlet n q s = .next (jumped (s.modCell c (fun z => { z with queues := z.queues.set k.toNat y })) ((me s).pc + 4)) := by
  have hput : s.ringPut c.die (s.ctxOfCell c) x y = (.ok (), s) := by
    simp [State.ringPut, Queue.ringDirty, hr, State.ringMiss, State.ringWrite]
  rw [execQdrainInlet, onInlet_bound h hn, ← hx, if_neg (by simp [hf]), hd]
  dsimp only
  rw [hput]
  rfl

theorem execQdrainOutlet_drains {x y : Queue} (hn : outAt s n x) (hf : x.frozen = false)
    (hd : x.drain (Config.outletQid s.seqTurn.toNat n.toNat) = (y, none)) (hr : x.ring = y.ring) :
    execQdrainOutlet n q s = .next (jumped (s.setSeq s.seqTurn { me s with
      outPort := (me s).outPort.set n.toNat (some y) }) ((me s).pc + 4)) := by
  have hdirty : x.ringDirty y = [] := if_pos hr
  rw [execQdrainOutlet, onOutlet_bound h hn, if_neg (by simp [hf]), hd]
  dsimp only
  rw [hdirty, List.map_nil, State.ringMiss]
  dsimp only [Option.bind_none]
  split
  · next hnone => cases hnone
  · next hnone => cases hnone
  · refine (State.goOn_me _).trans ?_
    rw [me_setSeq]

theorem execQdrainInlet_busy (hc : canTrap s) {c : CellId} {k : BitVec 3} {x : Queue} (hn : inAt s n c k)
    (hx : x = (s.cell c).queues[k.toNat]) (hf : x.frozen = true) (hl : x.live = true) :
    execQdrainInlet n q s = .next (trapped s 16 (BitVec.ofNat 64 n.toNat)) := by
  rw [execQdrainInlet, onInlet_bound h hn, ← hx, if_pos ⟨hf, hl⟩, State.trap_canTrap hc, inVal_eq]
  rfl

theorem execQdrainOutlet_busy (hc : canTrap s) {x : Queue} (hn : outAt s n x) (hf : x.frozen = true) (hl : x.live = true) :
    execQdrainOutlet n q s = .next (trapped s 16 (BitVec.ofNat 64 (64 + n.toNat))) := by
  rw [execQdrainOutlet, onOutlet_bound h hn, if_pos ⟨hf, hl⟩, State.trap_canTrap hc, outVal_eq]
  rfl

end

/-! ### `qbind` (R252) -/

theorem regionOfSeq_of_running {s t : State} (h : t.running s.seqTurn = s.running s.seqTurn) :
    t.regionOfSeq s.seqTurn = s.regionOfSeq s.seqTurn := by
  have hreg : (t.seq s.seqTurn).region = (s.seq s.seqTurn).region := (congrArg (fun v => v.2.2.region) h :)
  rw [State.regionOfSeq, State.regionOfSeq, hreg]
  cases (s.seq s.seqTurn).region with
  | none => rfl
  | some i =>
    show t.region i = s.region i
    rw [State.region, State.regions_of_running h, State.region]

theorem bits_cellWord (c : CellId) (k : BitVec 3) :
    bits ((cellWord c k).setWidth 64) 0 32 = cellWord c k ∧ bits ((cellWord c k).setWidth 64) 32 32 = 0 := by
  have hlt := (cellWord c k).isLt
  refine ⟨BitVec.eq_of_toNat_eq ?_, (bits_eq_zero_iff _ 32 32).mpr ?_⟩
  · rw [bits_toNat, BitVec.toNat_setWidth]
    omega
  · rw [BitVec.toNat_setWidth]
    omega

/-- Double-word `i` of the binding block at `y`, as the sequencer reads it. -/
def bindDword (s : State) (q : BitVec 7) (y : Xlated) (i : Nat) : Word64 := BitVec.ofNat 64 (s.seqNum q y.key (y.pa + 8 * i) 8)

/-- The registers of a queue in a binding block. -/
def bindRegs (s : State) (q : BitVec 7) (y : Xlated) : QCfg := ⟨bindDword s q y 1, bindDword s q y 2, bindDword s q y 3⟩

/-- A binding block is sound for a queue that is not in use (R252). -/
structure BindsTo (s : State) (q : BitVec 7) (y : Xlated) (r : Region) (c : CellId) (k : BitVec 3) : Prop where
  cell : bindDword s q y 0 = (cellWord c k).setWidth 64
  has : r.hasCell c = true
  ok : (s.boundView r c k (bindRegs s q y)).queueOk c k.toNat = true
  store : (s.boundView r c k (bindRegs s q y)).queueStore c
    + (s.boundView r c k (bindRegs s q y)).functionStore c (s.cell c).fb.logn ≤ 65536
  kind : (bindDword s q y 4).toNat / 2 ^ 60 = 0
  rest : bindDword s q y 5 = 0 ∧ bindDword s q y 6 = 0 ∧ bindDword s q y 7 = 0
  open_ : (s.cell c).queues[k.toNat].frozen = false
  unbound : (s.cell c).queues[k.toNat].state = .unbound

theorem tagOfWord_kind {w : Word64} (h : w.toNat / 2 ^ 60 = 0) : (tagOfWord w).kind = 0 :=
  (bits_eq_zero_iff w 60 4).mpr (by rw [h, Nat.zero_mod])

theorem tagOfWord_seq (w : Word64) : (tagOfWord w).seq = w.setWidth 28 :=
  BitVec.eq_of_toNat_eq ((bits_toNat w 0 28).trans (by simp))

theorem jumped_seq {s t : State} (h : t.seqTurn = s.seqTurn) (pc : Word64) :
    (jumped t pc).seq s.seqTurn = { t.seq s.seqTurn with pc := pc } := by
  rw [← h]
  exact State.setSeq_seq_self _ _ _

theorem State.goOn_seq {s t : State} (h : t.seqTurn = s.seqTurn) :
    t.goOn (t.seq s.seqTurn) = .next (jumped t ((t.seq s.seqTurn).pc + 4)) := by
  rw [← h]
  rfl

/-- The sequencer whose port is bound: no other port of it stays bound to the queue (R252). -/
def Seq.bound (z : Seq) (n : BitVec 6) (c : CellId) (k : BitVec 3) (t : Tag) : Seq := { z with
  inPort := (z.inPort.map (fun p => if p = some (c, k) then none else p)).set n.toNat (some (c, k)),
  tmpl := z.tmpl.set n.toNat { t with seq := 0 }, putSeq := z.putSeq.set n.toNat t.seq, backoff := z.backoff.set n.toNat 0 }

section
variable (z : Seq) (n : BitVec 6) (c : CellId) (k : BitVec 3) (t : Tag)

theorem Seq.bound_inPort : (z.bound n c k t).inPort[n.toNat] = some (c, k) := Vector.getElem_set_self _
theorem Seq.bound_tmpl : (z.bound n c k t).tmpl[n.toNat] = { t with seq := 0 } := Vector.getElem_set_self _
theorem Seq.bound_putSeq : (z.bound n c k t).putSeq[n.toNat] = t.seq := Vector.getElem_set_self _

end

theorem State.bindTo_seq (s : State) (q : BitVec 7) (n : BitVec 6) (c : CellId) (k : BitVec 3) (f : QCfg) (kv circ : Bool) (t : Tag) :
    (s.bindTo q n c k f kv circ t).seq q = (s.seq q).bound n c k t := State.setSeq_seq_self _ _ _

theorem State.bindTo_queue (s : State) (q : BitVec 7) (n : BitVec 6) (c : CellId) (k : BitVec 3) (f : QCfg) (kv circ : Bool) (t : Tag) :
    ((s.bindTo q n c k f kv circ t).cell c).queues[k.toNat] = Queue.bind { (s.cell c).queues[k.toNat] with kv := kv, circ := circ } f := by
  simp [State.bindTo]

/-- A `qbind` that meets a sound block is the binding, and goes on. -/
theorem execQbind_binds {s s1 : State} {a : BitVec 5} {n : BitVec 6} {q : BitVec 3} {y : Xlated} {r : Region} {c : CellId} {k : BitVec 3}
    (h : open_ s q) (hi : mayIssue s) (hr : s.regionOfSeq s.seqTurn = some r) (hf : r.cfg.state ≠ .flipping)
    (hx : reaches s s1 .r 64 (reg s a) y) (hb : BindsTo s1 s.seqTurn y r c k) :
    let v := s1.boundView r c k (bindRegs s1 s.seqTurn y)
    execQbind a n q s = .next (jumped (s1.bindTo s.seqTurn n c k (bindRegs s1 s.seqTurn y) (v.kvQueue c k) (v.circQueue c k)
      (tagOfWord (bindDword s1 s.seqTurn y 4))) ((me s).pc + 4)) := by
  intro v
  have hrun := running_of_reaches hx
  have hturn := State.seqTurn_of_running hrun
  obtain ⟨hcell, hhas, hok, hstore, hkind, ⟨h5, h6, h7⟩, hopen, hunb⟩ := hb
  have hcfg : s.cfgOf = r.cfg := by rw [State.cfgOf, hr]
  have htpl : templateOk (tagOfWord (bindDword s1 s.seqTurn y 4)) = true := by
    simp [templateOk, tagOfWord_kind hkind, kData]
  have hfold : ∀ i, BitVec.ofNat 64 (s1.seqNum s.seqTurn y.key (y.pa + 8 * i) 8) = bindDword s1 s.seqTurn y i := fun _ => rfl
  have hregs : (⟨bindDword s1 s.seqTurn y 1, bindDword s1 s.seqTurn y 2, bindDword s1 s.seqTurn y 3⟩ : QCfg) = bindRegs s1 s.seqTurn y := rfl
  obtain ⟨hlow, hhigh⟩ := bits_cellWord c k
  rw [execQbind, regionGuarded_open h]
  dsimp only
  rw [show (me s).readG a = reg s a from rfl, if_neg (not_not.mpr hx.1), hcfg, if_neg hf, mayAccess_of_mayIssue hi, if_neg (by decide),
    accessAll_of_reaches hx, hturn, regionOfSeq_of_running hrun, hr]
  simp only [hfold, hregs, -Nat.reduceMul]
  rw [hcell, hlow, cellOfWord_cellWord]
  dsimp only
  rw [if_neg (by simp [hhigh, hhas, htpl, h5, h6, h7, hok, hstore]), if_neg (by simp [hopen, hunb])]
  refine (State.goOn_seq (s := s) (t := s1.bindTo ..) hturn).trans ?_
  rw [State.bindTo_seq]
  exact congrArg (fun pc => Host.Outcome.next (jumped _ (pc + 4))) (State.pc_of_running hrun)

/-- Settles O24: reads and drains are the queue's own; the traps are those of an unbound port and of a frozen queue; a sound block binds. -/
theorem queueInstructions : Obligations.QueueInstructions := by
  refine ⟨?reads, ?traps, ?drains, ?leaves, ?binds⟩
  case reads => exact fun s d n q h => ⟨fun c k hn => inlet_reads h d hn, fun x hn => outlet_reads h d hn⟩
  case traps =>
    intro s a n q m h hc inN outN
    refine ⟨fun hn => ?_, fun hn => ?_⟩
    · exact ⟨(exec_put ..).trans (onInlet_traps h hc hn _), (exec_peekInlet ..).trans (onInlet_traps h hc hn _),
        (exec_qstatInlet ..).trans (onInlet_traps h hc hn _), (exec_qgapInlet ..).trans (onInlet_traps h hc hn _),
        (exec_qdrainInlet ..).trans (onInlet_traps h hc hn _)⟩
    · exact ⟨(exec_get ..).trans (onOutlet_traps h hc hn _), (exec_peekOutlet ..).trans (onOutlet_traps h hc hn _),
        (exec_qstatOutlet ..).trans (onOutlet_traps h hc hn _), (exec_qgapOutlet ..).trans (onOutlet_traps h hc hn _),
        (exec_qdrainOutlet ..).trans (onOutlet_traps h hc hn _)⟩
  case drains =>
    intro s n q h
    refine ⟨?_, fun x hn hf hs => ?_⟩
    · intro c k hn x hf hs
      exact (exec_qdrainInlet ..).trans (execQdrainInlet_drains h hn rfl hf (Queue.drain_eq hs _) rfl)
    · exact (exec_qdrainOutlet ..).trans (execQdrainOutlet_drains h hn hf (Queue.drain_eq hs _) rfl)
  case leaves =>
    intro s n q x h left
    refine ⟨fun hf hs1 hs2 hc => ?_, fun hf hs hr hp ht => ⟨fun c k hn hx => ?_, fun hn => ?_⟩⟩
    · have hl : x.live = true := by simp [Queue.live, hs1, hs2]
      exact ⟨fun ⟨c, k, hn, hx⟩ => (exec_qdrainInlet ..).trans (execQdrainInlet_busy h hc hn hx hf hl),
        fun hn => (exec_qdrainOutlet ..).trans (execQdrainOutlet_busy h hc hn hf hl)⟩
    · exact ⟨_, ⟨_, rfl, x.leaveMarker_isMarker _, x.leaveMarker_nest _⟩,
        (exec_qdrainInlet ..).trans (execQdrainInlet_drains h hn hx hf (Queue.drain_shedding hs hr hp ht _) rfl)⟩
    · exact ⟨_, ⟨_, rfl, x.leaveMarker_isMarker _, x.leaveMarker_nest _⟩,
        (exec_qdrainOutlet ..).trans (execQdrainOutlet_drains h hn hf (Queue.drain_shedding hs hr hp ht _) rfl)⟩
  case binds =>
    intro s s1 a n q y r c k h hi hr hf hx dw f v h0 hhas hok hst h4 h5 h6 h7 hopen hunb
    have hrun := running_of_reaches hx
    have hturn : s1.seqTurn = s.seqTurn := State.seqTurn_of_running hrun
    have hcell := cell_of_reaches hx c
    have hb : BindsTo s1 s.seqTurn y r c k := ⟨h0, hhas, hok, hst, h4, ⟨h5, h6, h7⟩, by rw [hcell]; exact hopen, by rw [hcell]; exact hunb⟩
    refine ⟨_, (exec_qbind ..).trans (execQbind_binds h hi hr hf hx hb), ?_, ?_⟩
    · have hq := State.bindTo_queue s1 s.seqTurn n c k (bindRegs s1 s.seqTurn y) (v.kvQueue c k) (v.circQueue c k) (tagOfWord (dw 4))
      rw [hcell] at hq
      intro x
      have hx : x = _ := hq
      rw [hx]
      exact ⟨rfl, rfl, rfl, rfl, rfl, rfl, rfl, rfl⟩
    · intro z
      have hz : z = _ := (jumped_seq (s := s) (t := s1.bindTo ..) hturn _).trans
        (by rw [State.bindTo_seq])
      have hseq : ({ s1.seq s.seqTurn with tlb := [] } : Seq) = { s.seq s.seqTurn with tlb := [] } := congrArg (fun v => v.2.2) hrun
      rw [hz]
      exact ⟨Seq.bound_inPort _ _ c k (tagOfWord (dw 4)), (Seq.bound_putSeq _ _ c k _).trans (tagOfWord_seq _),
        (congrArg Tag.kind (Seq.bound_tmpl _ _ c k _)).trans (tagOfWord_kind (w := bindDword s1 s.seqTurn y 4) h4),
        (congrArg Seq.g hseq :), (congrArg Seq.p hseq :), rfl⟩

end Sys2Proof.Machine
end

section
open Sys2Proof.Cert
namespace Sys2Proof.Machine

/-! ### Lanes of a record (R157) -/

theorem mapLanes_getElem (ls : Vector Word64 16) (n : Nat) (f : Nat → Word64 → Word64 × Bool) (j : Fin 16) :
    (mapLanes ls n f).1[j] = if j.val < n then (f j.val ls[j]).1 else ls[j] := by
  simp only [mapLanes, Fin.getElem_fin, Vector.getElem_map, Vector.getElem_mapIdx]
  split <;> rfl

/-- A lane saturates at 64 bits. -/
theorem satLane_fst (x : Word64) (y : Int) : (satLane x y).1 = BitVec.ofInt 64 (if x.toInt + y < -2 ^ 63 then -2 ^ 63
    else if 2 ^ 63 ≤ x.toInt + y then 2 ^ 63 - 1 else x.toInt + y) := by
  have hmin : intMin 64 = -2 ^ 63 := rfl
  have hmax : intMax 64 = 2 ^ 63 - 1 := rfl
  rw [satLane, clampInt, hmin, hmax]
  by_cases h1 : x.toInt + y < -2 ^ 63
  · rw [if_pos h1, if_pos h1]
  · rw [if_neg h1, if_neg h1]
    by_cases h2 : 2 ^ 63 ≤ x.toInt + y
    · rw [if_pos h2, if_pos (by omega)]
    · rw [if_neg h2, if_neg (by omega)]

theorem ofNat_toNat_setWidth (e : Word32) : BitVec.ofNat 64 e.toNat = e.setWidth 64 := BitVec.eq_of_toNat_eq (by simp)

theorem bits_low_eq_setWidth (x : Word64) : bits x 0 32 = x.setWidth 32 := BitVec.eq_of_toNat_eq (by simp [bits_toNat])

theorem ofInt_max (x : Word64) (e : Int) : (if x.toInt < e then BitVec.ofInt 64 e else x) = BitVec.ofInt 64 (max x.toInt e) := by
  by_cases h : x.toInt < e
  · rw [if_pos h, max_eq_right h.le]
  · rw [if_neg h, max_eq_left (not_lt.mp h), BitVec.ofInt_toInt]

theorem ofInt_min (x : Word64) (e : Int) : (if e < x.toInt then BitVec.ofInt 64 e else x) = BitVec.ofInt 64 (min x.toInt e) := by
  by_cases h : e < x.toInt
  · rw [if_pos h, min_eq_right h.le]
  · rw [if_neg h, min_eq_left (not_lt.mp h), BitVec.ofInt_toInt]

/-- The greater of a lane and a record's lane (R157). -/
theorem extF32Lane_max (x : Word64) (e : Word32) : extF32Lane true x e.toNat =
    if (FloatFmt.f32.read e.toNat).isNan then x
    else if (FloatFmt.f32.read (x.setWidth 32).toNat).isNan ∨
      (FloatFmt.f32.read (x.setWidth 32).toNat).below (FloatFmt.f32.read e.toNat) then e.setWidth 64
    else (x.setWidth 32).setWidth 64 := by
  rw [extF32Lane, ofNat_toNat_setWidth, bits_low_eq_setWidth]
  cases (FloatFmt.f32.read (x.setWidth 32).toNat).isNan <;> simp

/-- The less of them. -/
theorem extF32Lane_min (x : Word64) (e : Word32) : extF32Lane false x e.toNat =
    if (FloatFmt.f32.read e.toNat).isNan then x
    else if (FloatFmt.f32.read (x.setWidth 32).toNat).isNan ∨
      (FloatFmt.f32.read e.toNat).below (FloatFmt.f32.read (x.setWidth 32).toNat) then e.setWidth 64
    else (x.setWidth 32).setWidth 64 := by
  rw [extF32Lane, ofNat_toNat_setWidth, bits_low_eq_setWidth]
  cases (FloatFmt.f32.read (x.setWidth 32).toNat).isNan <;> simp

theorem bits_key_toNat (p : Payload) : (bits p 0 4).toNat = p.toNat % 16 := by
  rw [bits_toNat, Nat.pow_zero, Nat.div_one]
  rfl

/-- A keyed sum reaches its lane alone. -/
theorem keyedLane (i n : Nat) (x : Word64) (y : Int) : (if i = n then satLane x y else (x, false)).1 =
    if i = n then BitVec.ofInt 64 (if x.toInt + y < -2 ^ 63 then -2 ^ 63
      else if 2 ^ 63 ≤ x.toInt + y then 2 ^ 63 - 1 else x.toInt + y) else x := by
  split
  · exact satLane_fst x y
  · rfl

/-- Each lane of a record is added as its command says. -/
theorem accRecord_lane {cmd : Nat} (h0 : cmd ≠ 0) (h16 : cmd < 16) (t : Tag) (p : Payload) (ls : Vector Word64 16) (j : Fin 16) :
    (accRecord cmd t p ls).1[j] = accLane cmd t p j.val ls[j] := by
  have hj := j.isLt
  obtain rfl | rfl | rfl | rfl | rfl | rfl | rfl | rfl | rfl | rfl | rfl | rfl | rfl | rfl | rfl : cmd = 1 ∨ cmd = 2 ∨ cmd = 3 ∨ cmd = 4 ∨
      cmd = 5 ∨ cmd = 6 ∨ cmd = 7 ∨ cmd = 8 ∨ cmd = 9 ∨ cmd = 10 ∨ cmd = 11 ∨ cmd = 12 ∨ cmd = 13 ∨ cmd = 14 ∨ cmd = 15 := by omega
  · rw [accRecord, mapLanes_getElem, if_pos hj, satLane_fst]
    rfl
  · rw [accRecord, mapLanes_getElem, satLane_fst]
    rfl
  · rw [accRecord, mapLanes_getElem, if_pos hj]
    rfl
  · rw [accRecord, mapLanes_getElem, if_pos hj, satLane_fst]
    rfl
  · rw [accRecord, mapLanes_getElem, if_pos hj]
    rfl
  · rw [accRecord, mapLanes_getElem, if_pos hj]
    exact ofInt_max _ _
  · rw [accRecord, mapLanes_getElem, if_pos hj]
    exact ofInt_min _ _
  · rw [accRecord, mapLanes_getElem, if_pos hj]
    exact extF32Lane_max _ _
  · rw [accRecord, mapLanes_getElem, if_pos hj]
    exact extF32Lane_min _ _
  · rw [accRecord, mapLanes_getElem]
    fin_cases j <;> rfl
  · rw [accRecord, mapLanes_getElem, if_pos hj, bits_key_toNat]
    exact keyedLane _ _ _ _
  · rw [accRecord, mapLanes_getElem, if_pos hj, bits_key_toNat]
    exact keyedLane _ _ _ _
  · rw [accRecord, mapLanes_getElem]
    rfl
  · rw [accRecord, mapLanes_getElem]
    rfl
  · rw [accRecord, mapLanes_getElem]
    rfl

/-! ### A record that an accumulator takes (R157) -/

/-- A sequencer with a queue behind one of its outlets. -/
def Seq.setOut (z : Seq) (o : BitVec 6) (x : Queue) : Seq := { z with outPort := z.outPort.set o.toNat (some x) }

/-- A sequencer with the lanes of an accumulator, and the status bits. -/
def Seq.setLanes (z : Seq) (i : Fin 16) (ls : Vector Word64 16) (sat pois : BitVec 16) : Seq := { z with
  accs := z.accs.set i { z.accs[i] with lanes := ls }, accSat := sat, accPois := pois }

theorem Seq.setLanes_acc (z : Seq) (i : Fin 16) (ls : Vector Word64 16) (sat pois : BitVec 16) :
    (z.setLanes i ls sat pois).accs[i] = { z.accs[i] with lanes := ls } := Vector.getElem_set_self _

theorem Seq.setLanes_other (z : Seq) {i j : Fin 16} (hj : j ≠ i) (ls : Vector Word64 16) (sat pois : BitVec 16) :
    (z.setLanes i ls sat pois).accs[j] = z.accs[j] := Vector.getElem_set_ne i.isLt j.isLt fun e => hj (Fin.ext e.symm)

/-- An accumulator that takes one record changes its lanes and the status bits alone. -/
theorem Seq.accTake_record (z : Seq) (i : Fin 16) (cmd : BitVec 4) {u : Item} (hd : u.isData = true) (hv : u.v1 = none) : ∃ sat pois,
    z.accTake i cmd u = z.setLanes i (accRecord cmd.toNat u.tag u.v0 z.accs[i].lanes).1 sat pois := by
  rw [Seq.accTake, if_pos hd, hv]
  exact ⟨_, _, rfl⟩

theorem exec_accumulatorTake (q : BitVec 7) (n : BitVec 4) (s : State) : exec (.accumulatorTake q n) s = execAccumulatorTake q n s := rfl

/-- A step of an attached accumulator pops the head behind its outlet (R157). -/
theorem execAccumulatorTake_takes {s : State} {n : BitVec 4} {i : Fin 16} (hi : i = ⟨n.toNat, n.isLt⟩) {o : BitVec 6} {cmd : BitVec 4} {x : Queue}
    {u : Item} (ha : (me s).accs[i].attach = some (o, cmd)) (hn : outAt s o x) (hf : x.frozen = false) (hh : x.head = some u) :
    execAccumulatorTake s.seqTurn n s = .next ((s.setSeq s.seqTurn (((me s).setOut o x.pop).accTake i cmd u)).tookOut s.seqTurn u) := by
  subst hi
  have ha : (s.seq s.seqTurn).accs[(⟨n.toNat, n.isLt⟩ : Fin 16)].attach = some (o, cmd) := ha
  have hn : (s.seq s.seqTurn).outPort[o.toNat] = some x := hn
  have hopen : (!!((some x).map Queue.frozen).getD false) = false := by simp [hf]
  have hstep : s.accStep s.seqTurn ⟨n.toNat, n.isLt⟩ =
      (s.setSeq s.seqTurn (((me s).setOut o x.pop).accTake ⟨n.toNat, n.isLt⟩ cmd u)).tookOut s.seqTurn u := by
    simp only [State.accStep, ha, hn, hh]
    rfl
  simp only [execAccumulatorTake, ha, hn, hopen, hstep]
  rfl

section
variable {s : State} {n : BitVec 4} {i : Fin 16} (hi : i = ⟨n.toNat, n.isLt⟩) {o : BitVec 6} {cmd : BitVec 4} {x : Queue} {u : Item}
  (hc : cmd ≠ 0) (ha : (me s).accs[i].attach = some (o, cmd)) (hn : outAt s o x) (hf : x.frozen = false) (hh : x.head = some u)
  (hd : u.isData = true) (hv : u.v1 = none)
include hi hc ha hn hf hh hd hv

/-- A record of one payload is popped, and each lane is as the command says (R157). -/
theorem accumulatorTake_record : ∃ t, exec (.accumulatorTake s.seqTurn n) s = .next t ∧
    (t.seq s.seqTurn).outPort[o.toNat] = some { x with entries := x.entries.tail } ∧
    (t.seq s.seqTurn).accs[i].attach = some (o, cmd) ∧
    (∀ j : Fin 16, (t.seq s.seqTurn).accs[i].lanes[j] = accLane cmd.toNat u.tag u.v0 j.val (me s).accs[i].lanes[j]) ∧
    ∀ j : Fin 16, j ≠ i → (t.seq s.seqTurn).accs[j] = (me s).accs[j] := by
  have hc0 : cmd.toNat ≠ 0 := fun e => hc (BitVec.eq_of_toNat_eq e)
  obtain ⟨sat, pois, htake⟩ := ((me s).setOut o x.pop).accTake_record i cmd hd hv
  have hseq := State.tookOut_seq (s.setSeq s.seqTurn (((me s).setOut o x.pop).accTake i cmd u)) s.seqTurn s.seqTurn u
  rw [State.setSeq_seq_self, htake] at hseq
  refine ⟨_, (exec_accumulatorTake ..).trans (execAccumulatorTake_takes hi ha hn hf hh), ?_⟩
  rw [htake, hseq, Seq.setLanes_acc]
  exact ⟨Vector.getElem_set_self _, ha, fun j => accRecord_lane hc0 cmd.isLt _ _ _ j, fun j hj => Seq.setLanes_other _ hj _ _ _⟩

end

/-! ### The accumulator instructions (R156, R157) -/

theorem accVal_eq (n : BitVec 4) : accVal n = BitVec.ofNat 64 (128 + n.toNat) := by
  apply BitVec.eq_of_toNat_eq
  have := n.isLt
  simp [accVal, BitVec.toNat_add]

/-- A status field without one accumulator's bit. -/
def clearAcc (n : BitVec 4) (v : BitVec 16) : BitVec 16 := v &&& ~~~BitVec.ofNat 16 (2 ^ n.toNat)

theorem clearAcc_getLsbD (n : BitVec 4) (v : BitVec 16) {j : Nat} (hj : j < 16) :
    (clearAcc n v).getLsbD j = (v.getLsbD j && j != n.toNat) := by
  rw [clearAcc, BitVec.getLsbD_and, BitVec.getLsbD_not, BitVec.getLsbD_ofNat, Nat.testBit_two_pow]
  by_cases he : n.toNat = j
  · simp [hj, he]
  · simp [hj, he, Ne.symm he]

/-- A sequencer with its accumulator and status bits cleared. -/
def Seq.clearAcc (z : Seq) (n : BitVec 4) : Seq := { z with
  accs := z.accs.set n.toNat { z.accs[n.toNat] with lanes := Vector.replicate 16 0 },
  accSat := Machine.clearAcc n z.accSat, accPois := Machine.clearAcc n z.accPois }

section
variable (s : State) (d a : BitVec 5) (n m : BitVec 4) (q : BitVec 3)

theorem exec_accz : exec (.accz n q) s = execAccz n q s := rfl
theorem exec_accr : exec (.accr d n q m) s = execAccr d n q m s := rfl
theorem exec_accrComplete (x : BitVec 7) : exec (.accrComplete x) s = execAccrComplete x s := rfl
theorem exec_scmdStop : exec (.scmdStop a n q) s = execScmdStop a n q s := rfl

end

/-- What an `scmd` with a sound operand `v` does at outlet `o` (R157): a busy accumulator or outlet and an unbound outlet trap; else the
accumulator is attached and takes the units already there. -/
def State.attach (s : State) (cmd n : BitVec 4) (v : Word64) (o : BitVec 6) : Result :=
  if (me s).accs[n.toNat].attach.isSome then s.trap tPortBusy (accVal n)
  else match (me s).outPort[o.toNat] with
    | none => s.trap tPortUnbound (outVal o)
    | some x =>
      if ((me s).accOn o).isSome then s.trap tPortBusy (outVal o)
      else
        let s1 := State.accAll s.seqTurn ⟨n.toNat, n.isLt⟩ x.entries.length (s.setSeq s.seqTurn { me s with
          accs := (me s).accs.set n.toNat ⟨if v.getLsbD 8 then Vector.replicate 16 (accIdentity cmd.toNat)
            else (me s).accs[n.toNat].lanes, some (o, cmd)⟩ })
        s1.goOn (s1.seq s.seqTurn)

theorem accOn_isSome {s : State} {n : BitVec 6} (h : ¬ unattached s n) : ((me s).accOn n).isSome = true := by
  simp only [unattached, not_forall, not_not] at h
  obtain ⟨i, c, ha⟩ := h
  rw [Seq.accOn, List.findSome?_isSome_iff]
  have ha : (me s).accs[i.val].attach = some (n, c) := ha
  exact ⟨i, List.mem_finRange i, by simp [ha]⟩

/-- Every command but STOP attaches, with its identity. -/
theorem exec_scmds {a : BitVec 5} {n : BitVec 4} {q : BitVec 3} (s : State) {k : BitVec 4 × Word64 × Instr} (hk : k ∈ scmds a n q) :
    exec k.2.2 s = attachAcc k.1 a n q s ∧ accIdentity k.1.toNat = k.2.1 := by
  revert k
  simp only [scmds, List.forall_mem_cons]
  exact ⟨⟨rfl, rfl⟩, ⟨rfl, rfl⟩, ⟨rfl, rfl⟩, ⟨rfl, rfl⟩, ⟨rfl, rfl⟩, ⟨rfl, rfl⟩, ⟨rfl, rfl⟩, ⟨rfl, rfl⟩, ⟨rfl, rfl⟩, ⟨rfl, rfl⟩, ⟨rfl, rfl⟩,
    ⟨rfl, rfl⟩, ⟨rfl, rfl⟩, ⟨rfl, rfl⟩, ⟨rfl, rfl⟩, fun _ h => by cases h⟩

section
variable {s : State} {q : BitVec 3} (h : open_ s q) {d a : BitVec 5} {n m : BitVec 4}
include h

theorem execAccz_clears (ha : (me s).accs[n.toNat].attach = none) : execAccz n q s = s.goOn ((me s).clearAcc n) := by
  rw [execAccz, regionGuarded_open h]
  exact if_neg (by simp [ha])

theorem execAccr_reads (ha : (me s).accs[n.toNat].attach = none) :
    execAccr d n q m s = .next (s.setSeq s.seqTurn ((me s).accRead d n m)) := by
  rw [execAccr, regionGuarded_open h]
  exact if_neg (by simp [ha])

theorem execAccr_waits (ha : (me s).accs[n.toNat].attach ≠ none) :
    execAccr d n q m s = .next (s.setSeq s.seqTurn { me s with wait := .accr d n m }) := by
  rw [execAccr, regionGuarded_open h]
  exact if_pos (Option.isSome_iff_ne_none.mpr ha)

theorem execAccz_busy (hc : canTrap s) (ha : (me s).accs[n.toNat].attach ≠ none) :
    execAccz n q s = .next (trapped s 10 (BitVec.ofNat 64 (128 + n.toNat))) := by
  rw [execAccz, regionGuarded_open h, ← accVal_eq, ← State.trap_canTrap hc]
  exact if_pos (Option.isSome_iff_ne_none.mpr ha)

/-- `scmd` STOP detaches. -/
theorem execScmdStop_detaches : execScmdStop a n q s = .next (jumped (s.setSeq s.seqTurn
    { me s with accs := (me s).accs.set n.toNat { (me s).accs[n.toNat] with attach := none } }) ((me s).pc + 4)) := by
  rw [execScmdStop, regionGuarded_open h, jumped, me_setSeq, State.setSeq_seqTurn, State.setSeq_setSeq]
  rfl

/-- An `scmd` whose operand `v` has no reserved bit set attaches to the outlet `o` that it names (R157). -/
theorem attachAcc_open (cmd : BitVec 4) (h6 : (reg s a).toNat / 2 ^ 6 % 4 = 0) (h9 : (reg s a).toNat / 2 ^ 9 = 0) :
    attachAcc cmd a n q s = s.attach cmd n (reg s a) (BitVec.ofNat 6 (reg s a).toNat) := by
  have hlow : bits (reg s a) 0 6 = BitVec.ofNat 6 (reg s a).toNat := by rw [bits_eq_ofNat, Nat.pow_zero, Nat.div_one]
  have hres : ¬ (bits (reg s a) 6 2 ≠ 0 ∨ bits (reg s a) 9 55 ≠ 0) := by
    rw [not_or, not_not, not_not, bits_eq_zero_iff, bits_eq_zero_iff, h9]
    exact ⟨h6, rfl⟩
  rw [attachAcc, regionGuarded_open h]
  exact (if_neg hres).trans (congrArg (s.attach cmd n (reg s a)) hlow)

end

section
variable {s : State} {n : BitVec 4} (cmd : BitVec 4) (v : Word64) {o : BitVec 6}

theorem State.attach_busy (hc : canTrap s) (ha : (me s).accs[n.toNat].attach ≠ none) :
    s.attach cmd n v o = .next (trapped s 10 (BitVec.ofNat 64 (128 + n.toNat))) := by
  rw [State.attach, if_pos (Option.isSome_iff_ne_none.mpr ha), accVal_eq, State.trap_canTrap hc]
  rfl

variable (ha : (me s).accs[n.toNat].attach = none)
include ha

theorem State.attach_unbound (hc : canTrap s) (hn : (me s).outPort[o.toNat] = none) :
    s.attach cmd n v o = .next (trapped s 9 (BitVec.ofNat 64 (64 + o.toNat))) := by
  rw [State.attach, if_neg (by simp [ha]), hn, outVal_eq]
  exact State.trap_canTrap hc ..

theorem State.attach_taken (hc : canTrap s) {x : Queue} (hn : outAt s o x) (hu : ¬ unattached s o) :
    s.attach cmd n v o = .next (trapped s 10 (BitVec.ofNat 64 (64 + o.toNat))) := by
  rw [State.attach, if_neg (by simp [ha]), show (me s).outPort[o.toNat] = some x from hn, outVal_eq]
  exact (if_pos (accOn_isSome hu)).trans (State.trap_canTrap hc ..)

/-- An accumulator attaches to an outlet with nothing behind it, and takes nothing yet (R157). -/
theorem State.attach_attaches {x : Queue} (hn : outAt s o x) (hu : unattached s o) (hx : x.entries = []) :
    s.attach cmd n v o = .next (jumped (s.setSeq s.seqTurn { me s with
      accs := (me s).accs.set n.toNat ⟨if v.getLsbD 8 then Vector.replicate 16 (accIdentity cmd.toNat)
        else (me s).accs[n.toNat].lanes, some (o, cmd)⟩ }) ((me s).pc + 4)) := by
  rw [State.attach, if_neg (by simp [ha]), show (me s).outPort[o.toNat] = some x from hn]
  dsimp only
  rw [accOn_eq_none hu, if_neg (by simp), hx, List.length_nil, State.accAll]
  exact (State.goOn_me _).trans (by rw [me_setSeq])

end

theorem execAccrComplete_reads {s : State} {d : BitVec 5} {n m : BitVec 4} (hw : (me s).wait = .accr d n m) (hr : (me s).run = .running)
    (ha : (me s).accs[n.toNat].attach = none) :
    execAccrComplete s.seqTurn s = .next (s.setSeq s.seqTurn ((me s).accRead d n m)) := by
  have hw : (s.seq s.seqTurn).wait = .accr d n m := hw
  have hr : (s.seq s.seqTurn).run = .running := hr
  rw [execAccrComplete, hw, hr]
  exact if_neg (by simp [show (s.seq s.seqTurn).accs[n.toNat].attach = none from ha])

theorem Seq.accRead_keeps (z : Seq) (d : BitVec 5) (n m : BitVec 4) :
    (z.accRead d n m).pc = z.pc + 4 ∧ (z.accRead d n m).wait = .none ∧ (z.accRead d n m).p = z.p ∧ (z.accRead d n m).accs = z.accs := by
  rw [Seq.accRead, Seq.writeList_eq]
  exact ⟨rfl, rfl, rfl, rfl⟩

/-- Lanes in consecutive registers (R156). -/
theorem Seq.accRead_g (z : Seq) (d r : BitVec 5) (n m : BitVec 4) (hr : r ≠ 0) (hd : d.toNat + m.toNat ≤ 31) :
    (z.accRead d n m).g[r.toNat] = if h : d.toNat ≤ r.toNat ∧ r.toNat ≤ d.toNat + m.toNat then
      z.accs[n.toNat].lanes[r.toNat - d.toNat]'(by have := m.isLt; omega) else z.g[r.toNat] := by
  have hm := m.isLt
  have hl : (z.accs[n.toNat].lanes.toList.take (m.toNat + 1)).length = m.toNat + 1 := by simp; omega
  rw [Seq.accRead]
  refine (Seq.writeList_g _ _ d r hr (Nat.le_trans (Nat.add_le_add_left hl.le _) (by omega))).trans ?_
  by_cases hin : d.toNat ≤ r.toNat ∧ r.toNat ≤ d.toNat + m.toNat
  · rw [dif_pos hin, if_pos (by omega), List.getD_eq_getElem?_getD, List.getElem?_eq_getElem (by omega), Option.getD_some,
      List.getElem_take, Vector.getElem_toList]
  · rw [dif_neg hin, if_neg (by omega)]

/-- Settles O25: each instruction by its state of the accumulator and the outlet, and a record by its command's lanes. -/
theorem accumulatorInstructions : Obligations.AccumulatorInstructions := by
  refine ⟨?_, fun s n o cmd x u => accumulatorTake_record rfl⟩
  intro s d a n m q hd i z read
  have reads : read (s.setSeq s.seqTurn (z.accRead d n m)) := by
    obtain ⟨hpc, hwait, hp, haccs⟩ := z.accRead_keeps d n m
    dsimp only [read]
    rw [State.setSeq_seq_self]
    exact ⟨hpc, hwait, hp, haccs, fun r hr => z.accRead_g d r n m hr hd⟩
  refine ⟨fun h ha => ⟨?_, _, (exec_accr ..).trans (execAccr_reads h ha), reads⟩, fun h ha => (exec_accr ..).trans (execAccr_waits h ha),
    fun hw hr ha => ⟨_, (exec_accrComplete ..).trans (execAccrComplete_reads hw hr ha), reads⟩,
    fun h => (exec_scmdStop ..).trans (execScmdStop_detaches h), ?_, fun h hc => ⟨fun ha => (exec_accz ..).trans (execAccz_busy h hc ha), ?_⟩⟩
  · refine ⟨_, (exec_accz ..).trans (execAccz_clears h ha), ?_⟩
    intro y
    have hy : y = ((me s).clearAcc n).advance := State.setSeq_seq_self _ _ _
    rw [hy]
    refine ⟨rfl, rfl, rfl, ?_, fun j hj => ⟨clearAcc_getLsbD n _ hj, clearAcc_getLsbD n _ hj⟩⟩
    exact congrArg (fun o => (me s).accs.set n.toNat ⟨Vector.replicate 16 0, o⟩) ha
  · intro h ha h6 h9 o hu x hn hx k hk lanes
    obtain ⟨hexec, hid⟩ := exec_scmds s hk
    rw [hexec, attachAcc_open h k.1 h6 h9]
    refine (State.attach_attaches (n := n) k.1 (reg s a) ha hn hu hx).trans ?_
    rw [hid]
    rfl
  · intro h6 h9 k hk o
    rw [(exec_scmds s hk).1, attachAcc_open h k.1 h6 h9]
    exact ⟨fun ha => State.attach_busy k.1 _ hc ha, fun ha hn => State.attach_unbound k.1 _ ha hc hn,
      fun ha x hn hu => State.attach_taken k.1 _ ha hc hn hu⟩

end Sys2Proof.Machine
end

section
open Sys2Proof.Cert
namespace Sys2Proof.Machine

/-! ### The turn of a node over DATA (R21, R24, R162) -/

theorem mem_usedPos {base : List Nat} {m : BitVec 2} {p : Nat} :
    p ∈ usedPos base m ↔ p < 4 ∧ (p ∈ base ∨ p = 2 ∧ m.getLsbD 0 = true ∨ p = 3 ∧ m.getLsbD 1 = true) := by
  have h4 : p ∈ [posA, posB, posP, posC] ↔ p < 4 := by simp [posA, posB, posP, posC]; omega
  rw [usedPos, List.mem_filter, h4]
  simp [posP, posC, or_assoc]

/-- The low bits of a word (R111). -/
theorem bits_low_toNat {w : Nat} (x : BitVec w) (n : Nat) : (bits x 0 n).toNat = x.toNat % 2 ^ n := by
  rw [bits_toNat, Nat.pow_zero, Nat.div_one]

theorem badToken_data {u : Item} (h : u.tag.kind = 0) : badToken u = false := by simp [badToken, h, kOrder]

theorem isData_of_kind {u : Item} (h : u.tag.kind = 0) : u.isData = true := by simp [Item.isData, h, kData]

/-- DATA at every position that a node uses (R24). -/
theorem Cell.heads_data {x : Cell} {k : BitVec 3} {used : List Nat}
    (h : ∀ p ∈ used, ∃ u, x.valueAt k p = some u ∧ u.tag.kind = 0) : x.heads k used = .data := by
  have hv : ∀ v ∈ (used.filter (x.aligns k)).map (fun p => (p, x.valueAt k p)), ∃ u, v.2 = some u ∧ u.tag.kind = 0 := by
    rintro v hv
    obtain ⟨p, hp, rfl⟩ := List.mem_map.mp hv
    exact h p (List.mem_filter.mp hp).1
  have hheld : used.all (fun p => (x.valueAt k p).isSome || (p == posC && !(x.triggers k).isEmpty)) = true :=
    List.all_eq_true.mpr fun p hp => by
      obtain ⟨u, hu, -⟩ := h p hp
      simp [hu]
  unfold Cell.heads Cell.headsBut
  simp only [Bool.false_eq_true, if_false]
  split
  · next v hb =>
    obtain ⟨u, hu, hk⟩ := hv v (List.mem_of_find?_eq_some hb)
    exact absurd (List.find?_some hb) (by simp [hu, badToken_data hk])
  · split
    · next v hg =>
      obtain ⟨u, hu, hk⟩ := hv v (List.mem_of_find?_eq_some hg)
      exact absurd (List.find?_some hg) (by simp [hu, hk, kGap])
    · split
      · next t ts ht =>
        obtain ⟨hmem, hal⟩ := List.mem_filter.mp (ht ▸ List.mem_cons_self : t ∈ _)
        obtain ⟨v, hm, hvt⟩ := List.mem_filterMap.mp hmem
        obtain ⟨u, hu, hk⟩ := hv v hm
        rw [hu, Option.map_some, Option.some_inj, hk] at hvt
        exact absurd (hvt ▸ hal) (by decide)
      · exact if_pos hheld

section
variable {s : State} {used : List Nat} {a b : BitVec 6}

/-- A node that may act does what its function says. -/
theorem atNode_mayAct (h : mayAct s) (act : CellId → BitVec 3 → Cell → State) :
    s.atNode act = act s.nodeTurn.1 s.nodeTurn.2 (here s) := by
  obtain ⟨hr, hd⟩ := h
  obtain ⟨hn, -⟩ | ⟨-, -, he⟩ | ⟨-, hn, -⟩ := s.atNode_cases act
  · exact absurd hr (by simp [hn])
  · exact he
  · exact absurd hd hn

theorem targets_free (h : roomFor s used a b) : [a, b].all ((here s).targetFree s.nodeTurn.2 used) = true := by
  simp [h.1, h.2]

/-- A node with DATA at every position that it uses fires once its targets are free (R21, R24). -/
theorem nodeAct_data {ts : List (BitVec 6)} (hact : mayAct s) (hdata : ∀ p ∈ used, ∃ u, dataAt s p u)
    (hfree : ts.all ((here s).targetFree s.nodeTurn.2 used) = true) (fire : CellId → BitVec 3 → Operands → State → State) :
    s.nodeAct used ts fire = fire s.nodeTurn.1 s.nodeTurn.2 ((here s).operands s.nodeTurn.2 used) s :=
  State.nodeActWith_data fire _ hact.1 hact.2 (Cell.heads_data hdata) hfree

theorem nodeAct_ready (h : ready s used a b) (fire : CellId → BitVec 3 → Operands → State → State) :
    s.nodeAct used [a, b] fire = fire s.nodeTurn.1 s.nodeTurn.2 ((here s).operands s.nodeTurn.2 used) s := by
  obtain ⟨hact, hdata, hroom⟩ := h
  exact nodeAct_data hact hdata (targets_free hroom) fire

end

/-! ### The operands of a firing (R18, R19) -/

section
variable {s : State} {base : List Nat} {m : BitVec 2}

theorem mem_usedPos_base {p : Nat} (h4 : p < 4) (h : p ∈ base) : p ∈ usedPos base m := mem_usedPos.mpr ⟨h4, .inl h⟩

theorem operands_a (h : 0 ∈ base) : ((here s).operands s.nodeTurn.2 (usedPos base m)).a = at_ s 0 :=
  if_pos (mem_usedPos_base (by decide) h)

theorem operands_b (h : 1 ∈ base) : ((here s).operands s.nodeTurn.2 (usedPos base m)).b = at_ s 1 :=
  if_pos (mem_usedPos_base (by decide) h)

theorem operands_p (h : 2 ∈ base) : ((here s).operands s.nodeTurn.2 (usedPos base m)).p = at_ s 2 :=
  if_pos (mem_usedPos_base (by decide) h)

/-- A record at p that the mask class alone asks for. -/
theorem operands_p_masked (h : 2 ∉ base) :
    ((here s).operands s.nodeTurn.2 (usedPos base m)).p = if m.getLsbD 0 then at_ s 2 else none := by
  have hmem : posP ∈ usedPos base m ↔ m.getLsbD 0 = true := by
    rw [mem_usedPos]
    simp [posP, h]
  exact if_congr hmem rfl rfl

end

end Sys2Proof.Machine
end

section
open Sys2Proof.Cert
namespace Sys2Proof.Machine

/-! ### Lanes of a record (R65, R74) -/

theorem sgn_eq_toSigned {w x : Nat} (h : x < 2 ^ w) : sgn w x = toSigned w x := by
  rw [sgn, toSigned, Nat.mod_eq_of_lt h]
  push_cast
  split <;> split <;> omega

theorem intLane_eq_ofSigned (w : Nat) (wrap : Bool) (z : Int) : intLane w wrap z = ofSigned w (if wrap then z else (clampInt w z).1) := by
  unfold intLane ofSigned clampInt intMin intMax
  push_cast
  cases wrap
  · simp only [Bool.false_eq_true, if_false]
    split
    · rfl
    · split <;> rfl
  · rfl

theorem ofSigned_eq (w : Nat) (z : Int) : ofSigned w z = (z % 2 ^ w).toNat := by
  rw [ofSigned]
  push_cast
  rfl

theorem lane_lt (f : Fmt) (u : Item) (j : Nat) : lane f u j < 2 ^ f.laneBits := Nat.mod_lt _ (Nat.two_pow_pos _)

/-- The lanes of a record are those that it was packed from. -/
theorem lane_payloadOf {f : Fmt} {r : Item} {xs : List Nat} (hr : r.v0 = payloadOf f.laneBits xs) (hl : xs.length = f.recLanes) {j : Nat}
    (hj : j < xs.length) : lane f r j = xs[j] % 2 ^ f.laneBits := by
  have hbits : f.laneBits * xs.length ≤ 512 := by
    rw [hl, Fmt.recLanes]
    exact Nat.mul_div_le 512 f.laneBits
  have hlt : packLanes f.laneBits xs < 2 ^ 512 := (packLanes_lt _ xs).trans_le (Nat.pow_le_pow_right Nat.two_pos hbits)
  rw [lane, hr, payloadOf, BitVec.toNat_ofNat, Nat.mod_eq_of_lt hlt]
  exact laneAt_packLanes _ xs hj

end Sys2Proof.Machine
end

section
open Sys2Proof.Cert
namespace Sys2Proof.Machine

/-! ### The lane functions (R167, R168) -/

/-- A lane function of a node gives in the lanes of any format what a function of the statement gives, which leaves b aside where the node does
not use it. -/
def LaneGives (two : Bool) (fn : Cell → Fmt → Nat → Nat → Nat → LaneOut) (op : Fmt → (Nat → Word64) → Nat → Nat → Nat) : Prop :=
  ∀ (c : Cell) (f : Fmt) (j x y z : Nat), x < 2 ^ f.laneBits → y < 2 ^ f.laneBits → (two = true → z = y) →
    (fn c f j x y).code % 2 ^ f.laneBits = op f (fun i => (c.prm i).getD 0) x z % 2 ^ f.laneBits

/-- One of two operands, on which the two functions need to agree on lanes alone. -/
theorem laneGives_two {fn : Cell → Fmt → Nat → Nat → Nat → LaneOut} {op : Fmt → (Nat → Word64) → Nat → Nat → Nat}
    (h : ∀ (c : Cell) (f : Fmt) (j x y : Nat), x < 2 ^ f.laneBits → y < 2 ^ f.laneBits →
      (fn c f j x y).code % 2 ^ f.laneBits = op f (fun i => (c.prm i).getD 0) x y % 2 ^ f.laneBits) : LaneGives true fn op := by
  intro c f j x y z hx hy hz
  rw [hz rfl]
  exact h c f j x y hx hy

theorem putLane_code (f : Fmt) (r : BitVec 3) (v : BitVec 1) (x : RoundMode → FVal) (z : Int) :
    (putLane f (RoundMode.ofCode r.toNat) (v == 1) (x (RoundMode.ofCode r.toNat)) z).code = rounded f r v x z := by
  unfold putLane rounded
  split
  · rfl
  · rw [intLane_eq_ofSigned]
    split <;> rfl

section
variable (f : Fmt) (r : BitVec 3) (v : BitVec 1) {x y : Nat} (hx : x < 2 ^ f.laneBits) (hy : y < 2 ^ f.laneBits)
include hx

theorem laneSar_code : (laneSar f x y).code = (sgn f.laneBits x / 2 ^ (y % f.laneBits) % 2 ^ f.laneBits).toNat := by
  rw [sgn_eq_toSigned hx]
  exact ofSigned_eq _ _

include hy

theorem laneAdd_code : (laneAdd f (RoundMode.ofCode r.toNat) (v == 1) x y).code =
    rounded f r v (fun q => (f.read x).add q (f.read y)) (sgn f.laneBits x + sgn f.laneBits y) := by
  rw [sgn_eq_toSigned hx, sgn_eq_toSigned hy]
  exact putLane_code f r v (fun q => (f.read x).add q (f.read y)) _

theorem laneSub_code : (laneSub f (RoundMode.ofCode r.toNat) (v == 1) x y).code =
    rounded f r v (fun q => (f.read x).add q (f.read y).neg) (sgn f.laneBits x - sgn f.laneBits y) := by
  rw [sgn_eq_toSigned hx, sgn_eq_toSigned hy]
  exact putLane_code f r v (fun q => (f.read x).add q (f.read y).neg) _

theorem laneMul_code : (laneMul f (RoundMode.ofCode r.toNat) (v == 1) x y).code =
    rounded f r v (fun _ => (f.read x).mul (f.read y)) (sgn f.laneBits x * sgn f.laneBits y) := by
  rw [sgn_eq_toSigned hx, sgn_eq_toSigned hy]
  exact putLane_code f r v (fun _ => (f.read x).mul (f.read y)) _

theorem laneFma_code {z : Nat} (hz : z < 2 ^ f.laneBits) : (laneFma f (RoundMode.ofCode r.toNat) (v == 1) z x y).code =
    rounded f r v (fun q => ((f.read x).mul (f.read z)).add q (f.read y))
      (sgn f.laneBits x * sgn f.laneBits z + sgn f.laneBits y) := by
  rw [sgn_eq_toSigned hx, sgn_eq_toSigned hy, sgn_eq_toSigned hz]
  exact putLane_code f r v (fun q => ((f.read x).mul (f.read z)).add q (f.read y)) _

end

/-- An arith instruction of `laneOf` is a lane-wise firing of its function (R167). -/
theorem exec_laneOf {i : Instr} {a b : BitVec 6} {m : BitVec 2} {two : Bool} {op : Fmt → (Nat → Word64) → Nat → Nat → Nat}
    (h : laneOf i = some (a, b, m, two, op)) (s : State) :
    ∃ fn, exec i s = .next (arithLanes two (if two then [0, 1] else [0]) a b m fn s) ∧ LaneGives two fn op := by
  unfold laneOf at h
  split at h <;> cases h
  case h_1 r v p => exact ⟨_, rfl, laneGives_two fun c f j x y hx hy => congrArg (· % _) (laneAdd_code f r v hx hy)⟩
  case h_2 r v p => exact ⟨_, rfl, laneGives_two fun c f j x y hx hy => congrArg (· % _) (laneSub_code f r v hx hy)⟩
  case h_3 r v p => exact ⟨_, rfl, laneGives_two fun c f j x y hx hy => congrArg (· % _) (laneMul_code f r v hx hy)⟩
  case h_4 r v p =>
    exact ⟨_, rfl, laneGives_two fun c f j x y hx hy =>
      congrArg (· % _) (laneFma_code f r v hx hy (Nat.mod_lt _ (Nat.two_pow_pos _)))⟩
  case h_5 | h_6 =>
    refine ⟨_, rfl, laneGives_two fun c f j x y hx hy => ?_⟩
    simp only [laneMin, laneMax, sgn_eq_toSigned hx, sgn_eq_toSigned hy]
    rcases f.float with _ | g
    · rfl
    · exact congrArg (· % _) (apply_ite LaneOut.code ..)
  case h_7 | h_8 =>
    refine ⟨_, rfl, fun c f j x y z hx _ _ => ?_⟩
    simp only [laneAbs, laneNeg, sgn_eq_toSigned hx, intLane_eq_ofSigned]
    rcases f.float with _ | g
    · rfl
    · exact congrArg (· % _) (apply_ite LaneOut.code ..)
  case h_9 | h_10 | h_11 | h_13 => exact ⟨_, rfl, laneGives_two fun _ _ _ _ _ _ _ => rfl⟩
  case h_12 => exact ⟨_, rfl, laneGives_two fun _ _ _ _ _ _ _ => Nat.mod_mod _ _⟩
  case h_14 => exact ⟨_, rfl, laneGives_two fun c f j x y hx _ => congrArg (· % _) (laneSar_code f hx)⟩

/-! ### The records of the arith nodes (R161 to R163) -/

section
variable {s : State} {base : List Nat} {m : BitVec 2}

theorem maskBit_some (p : Item) (j : Nat) : maskBit (some p) j = (decide (64 ≤ j) || p.v0.getLsbD j) := by
  dsimp only [maskBit]
  by_cases hj : j < 64
  · simp [hj, Nat.not_le.mpr hj]
  · simp [hj, Nat.not_lt.mp hj]

/-- The lanes that the record at p selects (R18). -/
theorem maskBit_usedPos (h : 2 ∉ base) (j : Nat) : maskBit ((here s).operands s.nodeTurn.2 (usedPos base m)).p j = selects s m j := by
  rw [operands_p_masked h, selects]
  split
  · cases at_ s 2 with
    | none => rfl
    | some p => exact maskBit_some p j
  · rfl

/-- The tag of an arith result: KIND is DATA, NEST and SEQ are those of a (R163). -/
theorem arithTag_of_a (two : Bool) {ops : Operands} {u : Item} (h : ops.a = some u) (x : BitVec 8) :
    (arithTag two ops x).kind = 0 ∧ (arithTag two ops x).nest = u.tag.nest ∧ (arithTag two ops x).seq = u.tag.seq ∧
      (two = false → (arithTag two ops x).weight = u.tag.weight ∧ (arithTag two ops x).domain = u.tag.domain) := by
  unfold arithTag
  rw [h]
  cases ops.b <;> cases two <;> simp [tag1, tag2, kData]

end

theorem laneRecord_getElem (f : Fmt) (ops : Operands) (fn : Nat → Nat → Nat → LaneOut) {u : Item} (ha : ops.a = some u) {j : Nat}
    (h : j < ((laneRecord f ops fn).map LaneOut.code).length) :
    ((laneRecord f ops fn).map LaneOut.code)[j] =
      if maskBit ops.p j then (fn j (lane f u j) ((ops.b.map (fun w => lane f w j)).getD 0)).code else lane f u j := by
  have hb : laneAt f.laneBits ((ops.b.map Item.v0).getD 0).toNat j = (ops.b.map (fun w => lane f w j)).getD 0 := by
    cases ops.b with
    | none => simp [laneAt]
    | some w => rfl
  have hua : laneAt f.laneBits ((ops.a.map Item.v0).getD 0).toNat j = lane f u j := by rw [ha]; rfl
  simp only [laneRecord, List.getElem_map, List.getElem_range, hua, hb]
  split <;> rfl

theorem laneRecord_length (f : Fmt) (ops : Operands) (fn : Nat → Nat → Nat → LaneOut) :
    ((laneRecord f ops fn).map LaneOut.code).length = f.recLanes := by
  simp [laneRecord]

theorem lane_laneRecord {f : Fmt} {ops : Operands} {fn : Nat → Nat → Nat → LaneOut} {u r : Item} (ha : ops.a = some u)
    (hr : r.v0 = payloadOf f.laneBits ((laneRecord f ops fn).map LaneOut.code)) {j : Nat} (hj : j < f.recLanes) :
    lane f r j = if maskBit ops.p j then (fn j (lane f u j) ((ops.b.map (fun w => lane f w j)).getD 0)).code % 2 ^ f.laneBits
      else lane f u j := by
  have hl := laneRecord_length f ops fn
  rw [lane_payloadOf hr hl (hl ▸ hj), laneRecord_getElem f ops fn ha]
  split
  · rfl
  · exact Nat.mod_eq_of_lt (lane_lt f u j)

end Sys2Proof.Machine
end

section
open Sys2Proof.Cert
namespace Sys2Proof.Machine

/-! ### The arith nodes over DATA -/

theorem laneFmtOf_eq (s : State) : laneFmtOf s = laneFmt (s.elemFmt s.nodeTurn.1 s.nodeTurn.2) := by
  unfold laneFmtOf laneFmt
  cases s.elemFmt s.nodeTurn.1 s.nodeTurn.2 <;> rfl

theorem lane_getD_lt (f : Fmt) (w : Option Item) (j : Nat) : (w.map (fun w => lane f w j)).getD 0 < 2 ^ f.laneBits := by
  cases w with
  | none => exact Nat.two_pow_pos _
  | some w => exact lane_lt f w j

section
variable {s : State} {a b : BitVec 6} {m : BitVec 2} {u : Item} (hu : at_ s 0 = some u)
include hu

/-- A lane-wise firing gives the function's lane where p selects it, else that of a (R162, R163, R167). -/
theorem arithLanes_fires {two : Bool} {fn : Cell → Fmt → Nat → Nat → Nat → LaneOut}
    {op : Fmt → (Nat → Word64) → Nat → Nat → Nat} (hfn : LaneGives two fn op)
    (h : ready s (usedPos (if two then [0, 1] else [0]) m) a b) :
    ∃ r : Item, arithLanes two (if two then [0, 1] else [0]) a b m fn s =
        fired s (usedPos (if two then [0, 1] else [0]) m) [(a, r), (b, r)] ∧
      r.v1 = none ∧ r.tag.kind = 0 ∧ r.tag.nest = u.tag.nest ∧ r.tag.seq = u.tag.seq ∧
      (two = false → r.tag.weight = u.tag.weight ∧ r.tag.domain = u.tag.domain) ∧
      ∀ j, j < (laneFmtOf s).recLanes → lane (laneFmtOf s) r j =
        if selects s m j then op (laneFmtOf s) (par s) (lane (laneFmtOf s) u j)
          (((at_ s 1).map (fun w => lane (laneFmtOf s) w j)).getD 0) % 2 ^ (laneFmtOf s).laneBits
        else lane (laneFmtOf s) u j := by
  have h0 : 0 ∈ if two then [0, 1] else [0] := by cases two <;> simp
  have h2 : 2 ∉ if two then [0, 1] else [0] := by cases two <;> simp
  have ha : ((here s).operands s.nodeTurn.2 (usedPos (if two then [0, 1] else [0]) m)).a = some u := (operands_a h0).trans hu
  obtain ⟨hkind, hnest, hseq, hone⟩ := arithTag_of_a two ha
    (flagIf ((laneRecord (laneFmtOf s) ((here s).operands s.nodeTurn.2 (usedPos (if two then [0, 1] else [0]) m))
      (fn (here s) (laneFmtOf s))).any LaneOut.sat) fSat)
  rw [arithLanes, nodeAct_ready h, ← laneFmtOf_eq]
  refine ⟨_, rfl, rfl, hkind, hnest, hseq, hone, fun j hj => ?_⟩
  rw [lane_laneRecord ha rfl hj, maskBit_usedPos h2]
  refine if_congr Iff.rfl (hfn (here s) _ j _ _ _ (lane_lt _ u j) (lane_getD_lt _ _ j) fun htwo => ?_) rfl
  rw [operands_b (by simp [htwo])]

end

/-! ### Masks (R169) -/

theorem getLsbD_mask (n : Nat) (g : Nat → Bool) {j : Nat} (hj : j < 512) :
    (BitVec.ofNat 512 (packLanes 1 ((List.range n).map (fun i => if g i then 1 else 0)))).getLsbD j = (decide (j < n) && g j) := by
  rw [BitVec.getLsbD_ofNat]
  by_cases hn : j < n
  · have h := laneAt_packLanes 1 ((List.range n).map (fun i => if g i then 1 else 0)) (i := j) (by simpa using hn)
    rw [laneAt, Nat.one_mul, List.getElem_map, List.getElem_range] at h
    rw [Nat.testBit_eq_decide_div_mod_eq, show (2 : Nat) = 2 ^ 1 from rfl, ← Nat.pow_mul, Nat.one_mul, h]
    cases g j <;> simp [hj, hn]
  · have h := packLanes_lt 1 ((List.range n).map (fun i => if g i then 1 else 0))
    rw [List.length_map, List.length_range, Nat.one_mul] at h
    rw [Nat.testBit_lt_two_pow (h.trans_le (Nat.pow_le_pow_right Nat.two_pos (Nat.not_lt.mp hn)))]
    simp [hn]

/-- The condition of a comparison of R169. -/
theorem exec_cmpOf {i : Instr} {a b : BitVec 6} {m : BitVec 2} {op : Nat → Nat → Nat → Bool} (h : cmpOf i = some (a, b, m, op)) (s : State) :
    ∃ cond, exec i s = .next (arithCmp cond a b m s) ∧ ∀ (f : Fmt) (x y : Nat), f.float = none → x < 2 ^ f.laneBits → y < 2 ^ f.laneBits →
      laneCmp cond f x y = op f.laneBits x y := by
  unfold cmpOf at h
  split at h <;> cases h
  all_goals
    refine ⟨_, rfl, fun f x y hf hx hy => ?_⟩
    simp only [laneCmp, hf, sgn_eq_toSigned hx, sgn_eq_toSigned hy]

section
variable {s : State} {a b : BitVec 6} {m : BitVec 2} {u w : Item} (hu : at_ s 0 = some u) (hw : at_ s 1 = some w)
include hu hw

/-- A comparison of integers gives the mask of the lanes that satisfy it and that p selects (R169). -/
theorem arithCmp_fires {cond : CmpCond} {op : Nat → Nat → Nat → Bool}
    (hop : ∀ (x y : Nat), x < 2 ^ (laneFmtOf s).laneBits → y < 2 ^ (laneFmtOf s).laneBits →
      laneCmp cond (laneFmtOf s) x y = op (laneFmtOf s).laneBits x y)
    {x : Word32} (hx : (here s).word s.nodeTurn.2 = some x) (hmod : x.toNat % 8 < 6) (h : ready s (usedPos [0, 1] m) a b) :
    ∃ r : Item, arithCmp cond a b m s = fired s (usedPos [0, 1] m) [(a, r), (b, r)] ∧ r.v1 = none ∧ r.tag.kind = 0 ∧
      r.tag.nest = u.tag.nest ∧ r.tag.seq = u.tag.seq ∧
      ∀ j, j < 512 → r.v0.getLsbD j = (decide (j < (laneFmtOf s).recLanes) && selects s m j &&
        op (laneFmtOf s).laneBits (lane (laneFmtOf s) u j) (lane (laneFmtOf s) w j)) := by
  have ha : ((here s).operands s.nodeTurn.2 (usedPos [0, 1] m)).a = some u := (operands_a (by simp)).trans hu
  have hb : ((here s).operands s.nodeTurn.2 (usedPos [0, 1] m)).b = some w := (operands_b (by simp)).trans hw
  obtain ⟨hkind, hnest, hseq, -⟩ := arithTag_of_a true ha 0
  have hm : ¬ 6 ≤ (bits (((here s).word s.nodeTurn.2).getD 0) 0 3).toNat := by
    rw [hx, bits_toNat]
    simpa using hmod
  rw [arithCmp, show usedPos [posA, posB] m = usedPos [0, 1] m from rfl, nodeAct_ready h, ← laneFmtOf_eq]
  refine ⟨_, if_neg hm, rfl, hkind, hnest, hseq, fun j hj => ?_⟩
  rw [getLsbD_mask _ _ hj, maskBit_usedPos (by simp), ha, hb, Bool.and_assoc]
  exact congrArg (fun z => decide (j < (laneFmtOf s).recLanes) && (selects s m j && z)) (hop _ _ (lane_lt _ u j) (lane_lt _ w j))

/-- `sel` gives the lane of a where the p mask is 1, else that of b (R167). -/
theorem execArithSel_fires {p : Item} (o : BitVec 8) (hp : at_ s 2 = some p) (h : ready s (usedPos [0, 1, 2] m) a b) :
    ∃ r : Item, execArithSel a b m o s = .next (fired s (usedPos [0, 1, 2] m) [(a, r), (b, r)]) ∧ r.v1 = none ∧
      ∀ j, j < (laneFmtOf s).recLanes → lane (laneFmtOf s) r j =
        if decide (64 ≤ j) || p.v0.getLsbD j then lane (laneFmtOf s) u j else lane (laneFmtOf s) w j := by
  have ha : ((here s).operands s.nodeTurn.2 (usedPos [0, 1, 2] m)).a = some u := (operands_a (by simp)).trans hu
  have hb : ((here s).operands s.nodeTurn.2 (usedPos [0, 1, 2] m)).b = some w := (operands_b (by simp)).trans hw
  have hc : ((here s).operands s.nodeTurn.2 (usedPos [0, 1, 2] m)).p = some p := (operands_p (by simp)).trans hp
  rw [execArithSel, show usedPos [posA, posB, posP] m = usedPos [0, 1, 2] m from rfl, nodeAct_ready h, ← laneFmtOf_eq]
  refine ⟨_, rfl, rfl, fun j hj => ?_⟩
  rw [lane_payloadOf rfl (by simp) (by simpa using hj), List.getElem_map, List.getElem_range, ha, hb, hc, maskBit_some]
  split
  · exact Nat.mod_eq_of_lt (lane_lt _ u j)
  · exact Nat.mod_eq_of_lt (lane_lt _ w j)

end

/-! ### Bounds (R169) -/

/-- The bounds of `sat` on integers where they are in order. -/
theorem satBounds_int {f : Fmt} (hf : f.float = none) (x : Cell) {j lo hi : Nat}
    (h64 : f.laneBits = 64 → j < 15)
    (hlo : lo = if f.laneBits = 64 then ((x.prm j).getD 0).toNat else ((x.prm j).getD 0).toNat % 2 ^ f.laneBits)
    (hhi : hi = if f.laneBits = 64 then ((x.prm (j + 1)).getD 0).toNat else ((x.prm j).getD 0).toNat / 2 ^ f.laneBits % 2 ^ f.laneBits)
    (h : toSigned f.laneBits lo ≤ toSigned f.laneBits hi) : satBounds f x j = some (lo, hi) := by
  unfold satBounds
  by_cases hw : f.laneBits = 64
  · have hj := h64 hw
    have hprm : x.prm (j + 1) = some ((x.prm (j + 1)).getD 0) := by
      rw [Cell.prm, Vector.getElem?_eq_getElem (by omega), Option.getD_some]
    rw [if_pos hw] at hlo hhi
    dsimp only
    rw [if_pos hw, hprm, Option.map_some, ← hlo, ← hhi]
    simp only [hf]
    exact if_neg (Int.not_lt.mpr h)
  · rw [if_neg hw] at hlo hhi
    dsimp only
    rw [if_neg hw, ← hlo, ← hhi]
    simp only [hf]
    exact if_neg (Int.not_lt.mpr h)

theorem laneSat_code {f : Fmt} (hf : f.float = none) {lo hi x : Nat} (hlo : lo < 2 ^ f.laneBits) (hhi : hi < 2 ^ f.laneBits)
    (hx : x < 2 ^ f.laneBits) : (laneSat f lo hi x).code % 2 ^ f.laneBits =
      if sgn f.laneBits x < sgn f.laneBits lo then lo else if sgn f.laneBits hi < sgn f.laneBits x then hi else x := by
  rw [sgn_eq_toSigned hlo, sgn_eq_toSigned hhi, sgn_eq_toSigned hx, laneSat, hf]
  dsimp only
  by_cases h1 : toSigned f.laneBits x < toSigned f.laneBits lo
  · rw [if_pos h1, if_pos h1]
    exact Nat.mod_eq_of_lt hlo
  · rw [if_neg h1, if_neg h1]
    by_cases h2 : toSigned f.laneBits hi < toSigned f.laneBits x
    · rw [if_pos h2, if_pos h2]
      exact Nat.mod_eq_of_lt hhi
    · rw [if_neg h2, if_neg h2]
      exact Nat.mod_eq_of_lt hx

/-- `sat` of integers clamps a lane to the bounds of its register (R167, R169). -/
theorem arithClamp_fires {s : State} {a b : BitVec 6} {m : BitVec 2} {u : Item} (hu : at_ s 0 = some u) {o : BitVec 8}
    (hf : (laneFmtOf s).float = none) {lo hi : Nat} (hlo : lo < 2 ^ (laneFmtOf s).laneBits) (hhi : hi < 2 ^ (laneFmtOf s).laneBits)
    (hb : satBounds (laneFmtOf s) (here s) (bits o 0 4).toNat = some (lo, hi)) (h : ready s (usedPos [0] m) a b) :
    ∃ r : Item, exec (.arithSat a b m o) s = .next (fired s (usedPos [0] m) [(a, r), (b, r)]) ∧ r.v1 = none ∧
      ∀ j, j < (laneFmtOf s).recLanes → lane (laneFmtOf s) r j = if !selects s m j then lane (laneFmtOf s) u j
        else if sgn (laneFmtOf s).laneBits (lane (laneFmtOf s) u j) < sgn (laneFmtOf s).laneBits lo then lo
        else if sgn (laneFmtOf s).laneBits hi < sgn (laneFmtOf s).laneBits (lane (laneFmtOf s) u j) then hi
        else lane (laneFmtOf s) u j := by
  have ha : ((here s).operands s.nodeTurn.2 (usedPos [0] m)).a = some u := (operands_a (by simp)).trans hu
  have hb : satBounds (laneFmtOf s) (s.cell s.nodeTurn.1) (bits o 0 4).toNat = some (lo, hi) := hb
  rw [show exec (.arithSat a b m o) s = .next (arithClamp a b m o s) from rfl, arithClamp,
    show usedPos [posA] m = usedPos [0] m from rfl, nodeAct_ready h, ← laneFmtOf_eq]
  dsimp only
  rw [hb]
  refine ⟨_, rfl, rfl, fun j hj => ?_⟩
  rw [lane_laneRecord ha rfl hj, maskBit_usedPos (by simp)]
  cases selects s m j
  · rfl
  · exact laneSat_code hf hlo hhi (lane_lt _ u j)

/-- Settles O35: each node fires over DATA, and its record is packed from the lanes of its function. -/
theorem arithmeticNodes : Obligations.ArithmeticNodes := by
  intro s f
  refine ⟨?_, ?_, fun a b m o u w p h hu hw hp => execArithSel_fires hu hw o hp h, ?_⟩
  · intro i a b m two op u hop used h hu
    obtain ⟨fn, he, hfn⟩ := exec_laneOf hop s
    obtain ⟨r, hr, hlanes⟩ := arithLanes_fires hu hfn h
    exact ⟨r, he.trans (congrArg _ hr), hlanes⟩
  · rintro i a b m op u w hop hf ⟨x, hx, hmod⟩ h hu hw
    obtain ⟨cond, he, hcond⟩ := exec_cmpOf hop s
    obtain ⟨r, hr, hmask⟩ := arithCmp_fires hu hw (fun x y => hcond f x y hf) hx hmod h
    exact ⟨r, he.trans (congrArg _ hr), hmask⟩
  · intro a b m o u hf h hu w j0 lo hi h64 hle
    have hlt (v : Word64) (n : Nat) : (if w = 64 then v.toNat else n % 2 ^ w) < 2 ^ w := by
      split
      · next h64 => rw [h64]; exact v.isLt
      · exact Nat.mod_lt _ (Nat.two_pow_pos w)
    have hlo : lo < 2 ^ w := hlt _ _
    have hhi : hi < 2 ^ w := hlt _ _
    refine arithClamp_fires hu hf hlo hhi ?_ h
    rw [bits_low_toNat]
    refine satBounds_int hf (here s) h64 rfl rfl ?_
    rwa [← sgn_eq_toSigned hlo, ← sgn_eq_toSigned hhi]

end Sys2Proof.Machine
end

section
open Sys2Proof.Cert
namespace Sys2Proof.Machine

/-! ### Positions without tokens (R23, R25) -/

section
variable {s : State}

theorem plain_badToken {p : Nat} (h : plainAt s p) : ((at_ s p).map badToken).getD false = false := by
  cases hu : at_ s p with
  | none => rfl
  | some u => exact badToken_data (h u hu)

theorem plain_gap {p : Nat} (h : plainAt s p) : ((at_ s p).map (fun u => u.tag.kind == kGap)).getD false = false := by
  cases hu : at_ s p with
  | none => rfl
  | some u => simp [h u hu, kGap]

theorem plain_isAligned {p : Nat} (h : plainAt s p) : isAligned (at_ s p) = false := by
  cases hu : at_ s p with
  | none => rfl
  | some u => simp [isAligned, h u hu, alignedKind, kEod, kEot, kEoi, kRetune, kOrder]

end

/-! ### Copies and the carry gate (R170, R171) -/

theorem bits_low_eq_ofNat {w : Nat} (x : BitVec w) (n : Nat) : bits x 0 n = BitVec.ofNat n x.toNat := by
  rw [bits_eq_ofNat, Nat.pow_zero, Nat.div_one]

section
variable {s : State} {a b : BitVec 6} (m : BitVec 2) (o : BitVec 8) {u v w : Item}

theorem execCopy_fires (h : ready s (usedPos [0] m) a b) (hu : at_ s 0 = some u) :
    exec (.copy a b m o) s =
      .next (fired s (usedPos [0] m) (both a b [if o.getLsbD 4 then nested u (BitVec.ofNat 4 o.toNat) else u])) := by
  have ha : ((here s).operands s.nodeTurn.2 (usedPos [0] m)).a = some u := (operands_a (by simp)).trans hu
  rw [show exec (.copy a b m o) s = execCopy a b m o s from rfl, execCopy, show usedPos [posA] m = usedPos [0] m from rfl,
    nodeAct_ready h, ha, bits_low_eq_ofNat]
  rfl

theorem gateBit_value (hw : at_ s 3 = some w) : gateBit s (here s) s.nodeTurn.2 = (some (w.v0.getLsbD 0), s) := by
  unfold gateBit
  rw [show (here s).valueAt s.nodeTurn.2 posC = some w from hw]

/-- A gate over DATA: FIRST passes a, and CARRY passes b or drops its decision (R171). -/
theorem execGate_fires (hact : mayAct s) (h0 : plainAt s 0) (h1 : plainAt s 1) (h3 : plainAt s 3) :
    (held s ≠ .carry → at_ s 0 = some u → roomFor s [0] a b →
      exec (.gate a b m o) s = .next ((fired s [0] (both a b [nested u (BitVec.ofNat 4 o.toNat)])).setNode s.nodeTurn.1 s.nodeTurn.2 .carry)) ∧
    (held s = .carry → at_ s 3 = some w → w.v0.getLsbD 0 = true → at_ s 1 = some v → roomFor s [1, 3] a b →
      exec (.gate a b m o) s = .next (fired s [3, 1] (both a b [nested v (BitVec.ofNat 4 o.toNat)]))) ∧
    (held s = .carry → at_ s 3 = some w → w.v0.getLsbD 0 = false → roomFor s [3] a b →
      exec (.gate a b m o) s = .next ((s.consume s.nodeTurn.1 s.nodeTurn.2 [3]).setNode s.nodeTurn.1 s.nodeTurn.2 .idle)) := by
  have hbad : [(0, at_ s 0), (1, at_ s 1), (3, at_ s 3)].find? (fun v => (v.2.map badToken).getD false) = none := by
    simp [List.find?, plain_badToken h0, plain_badToken h1, plain_badToken h3]
  have hgap : [(0, at_ s 0), (1, at_ s 1), (3, at_ s 3)].find? (fun v => (v.2.map (fun u => u.tag.kind == kGap)).getD false) = none := by
    simp [List.find?, plain_gap h0, plain_gap h1, plain_gap h3]
  have hal : (isAligned (at_ s 1) || isAligned (at_ s 3)) = false := by simp [plain_isAligned h1, plain_isAligned h3]
  have hv (p : Nat) : (here s).valueAt s.nodeTurn.2 p = at_ s p := rfl
  rw [show exec (.gate a b m o) s = execGate a b m o s from rfl, execGate, atNode_mayAct hact, bits_low_eq_ofNat]
  have hst : (here s).nst[s.nodeTurn.2.toNat] = held s := rfl
  simp only [posA, posB, posC, hv, hbad, hgap, hal, hst, Bool.false_eq_true, if_false]
  refine ⟨fun hn hu hr => ?_, fun hc hw hbit hv hr => ?_, fun hc hw hbit hr => ?_⟩
  · simp only [hn, hu, targets_free hr, isData_of_kind (h0 _ hu), Bool.not_true, Bool.false_eq_true, if_false, if_true]
    rfl
  · simp only [hc, gateBit_value hw, hbit, hv, targets_free hr, if_true]
    rfl
  · simp only [hc, gateBit_value hw, hbit, targets_free hr, if_true]

/-! ### Bounds that ascend (R173) -/

theorem ascends_of_lt : ∀ l : List Nat, (∀ i (h : i + 1 < l.length), l[i] < l[i + 1]) → ascends l = true
  | [], _ => rfl
  | [_], _ => rfl
  | x :: y :: rest, h => by
    have hxy : x < y := h 0 (by simp)
    have hrest : ascends (y :: rest) = true := ascends_of_lt (y :: rest) fun i hi => h (i + 1) (by simpa using hi)
    rw [ascends, hrest, Bool.and_true]
    exact decide_eq_true hxy

/-- Of the numbers below `k`, those up to `i` are `i + 1`. -/
theorem length_filter_range_le {p : Nat → Bool} {i k : Nat} (hi : i < k) (hp : ∀ n, n < k → (p n = true ↔ n ≤ i)) :
    ((List.range k).filter p).length = i + 1 := by
  obtain ⟨d, rfl⟩ := Nat.exists_eq_add_of_le (Nat.succ_le_of_lt hi)
  have hlow : (List.range (i + 1)).filter p = List.range (i + 1) :=
    List.filter_eq_self.mpr fun n hn => (hp n (by have := List.mem_range.mp hn; omega)).mpr (Nat.lt_succ_iff.mp (List.mem_range.mp hn))
  have hhigh : ((List.range d).map (i + 1 + ·)).filter p = [] :=
    List.filter_eq_nil_iff.mpr fun n hn => by
      obtain ⟨e, he, rfl⟩ := List.mem_map.mp hn
      rw [hp _ (by have := List.mem_range.mp he; omega)]
      omega
  rw [Nat.succ_eq_add_one, List.range_add, List.filter_append, hlow, hhigh, List.append_nil, List.length_range]

section
variable {g : Nat → Nat} {k key : Nat} (hasc : ∀ i, i + 1 < k → g i < g (i + 1))
include hasc

theorem bounds_mono {i n : Nat} (h : i ≤ n) (hn : n < k) : g i ≤ g n := by
  induction n, h using Nat.le_induction with
  | base => exact Nat.le_refl _
  | succ n _ ih => exact (ih (by omega)).trans (hasc n hn).le

theorem length_reached {i : Nat} (hi : i < k) (hle : g i ≤ key) (hlt : i + 1 < k → key < g (i + 1)) :
    (((List.range k).map g).filter (fun y => decide (y ≤ key))).length = i + 1 := by
  rw [List.filter_map, List.length_map]
  refine length_filter_range_le hi fun n hn => ?_
  rw [Function.comp_apply, decide_eq_true_iff]
  constructor
  · intro h
    by_contra hin
    have := hlt (by omega)
    have hmono : g (i + 1) ≤ g n := bounds_mono hasc (Nat.lt_of_not_le hin) hn
    omega
  · exact fun h => (bounds_mono hasc h hi).trans hle

theorem length_reached_none (hlt : key < g 0) : (((List.range k).map g).filter (fun y => decide (y ≤ key))).length = 0 := by
  rw [List.length_eq_zero_iff, List.filter_eq_nil_iff]
  intro y hy
  obtain ⟨n, hn, rfl⟩ := List.mem_map.mp hy
  have := bounds_mono hasc (Nat.zero_le n) (List.mem_range.mp hn)
  rw [decide_eq_true_iff]
  omega

end

/-! ### Steers (R172, R173) -/

theorem targetFree_outletTarget (x : Cell) (k : BitVec 3) (used : List Nat) (n : Nat) : x.targetFree k used (outletTarget n) = true := by
  have hbit : (outletTarget n).getLsbD 5 = true := by
    rw [outletTarget, BitVec.getLsbD_ofNat, show (32 : Nat) = 2 ^ 5 from rfl, Nat.testBit_two_pow_add_eq,
      Nat.testBit_lt_two_pow (Nat.mod_lt n (Nat.two_pow_pos 5))]
    rfl
  unfold Cell.targetFree targetOf
  rw [hbit, if_pos rfl]
  split
  · next h => split at h <;> cases h
  · rfl

theorem bits_eq_setWidth {w : Nat} (x : BitVec w) (n : Nat) : bits x 0 n = x.setWidth n :=
  BitVec.eq_of_toNat_eq (by rw [bits_low_toNat, BitVec.toNat_setWidth])

/-- The firing of a steer: its record to the outlet of the class, or to target B where it has none or the p mask turns it away (R172, R173). -/
def steered (s : State) (a b : BitVec 6) (m : BitVec 2) (u : Item) (cl : Option Nat) : State :=
  fired s (usedPos [0] m) [(if turnedAway s m then b else (cl.map (outletOf a)).getD b, u)]

theorem outletTarget_eq (a : BitVec 6) (n : Nat) : outletTarget ((bits a 0 5).toNat + n) = outletOf a n := by
  rw [outletTarget, outletOf, bits_low_toNat]
  rfl

theorem decide_turnedAway (s : State) (m : BitVec 2) : (decide (posP ∈ usedPos [0] m) &&
    (((here s).operands s.nodeTurn.2 (usedPos [0] m)).p.map (fun p => bits p.v0 0 64 == 0)).getD false) = turnedAway s m := by
  have hp : decide (posP ∈ usedPos [0] m) = m.getLsbD 0 := by simp [mem_usedPos, posP]
  rw [operands_p_masked (by simp), hp, turnedAway]
  simp only [bits_eq_setWidth]
  cases m.getLsbD 0 <;> rfl

section
variable {j k : Nat} (hk : steerRange s a j k)
include hk

theorem steerK_range : steerK (here s) a j = some k := by
  obtain ⟨hpar, h1, h31⟩ := hk
  have hn : (bits (((here s).prm j).getD 0) 0 5).toNat = k := by
    rw [bits_low_toNat]
    exact hpar.symm
  have ha : (bits a 0 5).toNat = a.toNat % 32 := bits_low_toNat a 5
  unfold steerK
  dsimp only
  rw [hn, ha, if_neg (by omega)]

theorem steerClass_fires (h : ready s (usedPos [0] m) b b) (hu : at_ s 0 = some u)
    (hj : (bits o 0 4).toNat = j) {choose : Cell → Nat → Nat → Item → Option (Option Nat)} {cl : Option Nat}
    (hc : choose (here s) j k u = some cl) :
    steerClass a b m o choose s = steered s a b m u cl := by
  obtain ⟨hact, hdata, hroom⟩ := h
  have hK := steerK_range hk
  have ha : ((here s).operands s.nodeTurn.2 (usedPos [0] m)).a = some u := (operands_a (by simp)).trans hu
  have hts : ((List.range k).map (fun i => outletTarget ((bits a 0 5).toNat + i)) ++ [b]).all
      ((here s).targetFree s.nodeTurn.2 (usedPos [0] m)) = true := by
    refine List.all_eq_true.mpr fun t ht => ?_
    obtain ht | ht := List.mem_append.mp ht
    · obtain ⟨i, -, rfl⟩ := List.mem_map.mp ht
      exact targetFree_outletTarget ..
    · rw [List.mem_singleton.mp ht]
      exact hroom.1
  have hsteer : steerTargets (here s) a b j = some ((List.range k).map (fun i => outletTarget ((bits a 0 5).toNat + i)) ++ [b]) := by
    rw [steerTargets, hK]
    rfl
  rw [steerClass, show usedPos [posA] m = usedPos [0] m from rfl, State.steerAct, atNode_mayAct hact]
  dsimp only
  rw [hj, hsteer]
  dsimp only
  rw [nodeAct_data hact hdata hts, ha]
  dsimp only
  rw [decide_turnedAway, show steerK (s.cell s.nodeTurn.1) a j = some k from hK, Option.getD_some,
    show choose (s.cell s.nodeTurn.1) j k u = some cl from hc]
  cases cl with
  | none => rfl
  | some i => simp only [outletTarget_eq]; rfl

end

theorem prm_eq_some (s : State) {j : Nat} (h : j < 16) : (here s).prm j = some (par s j) := by
  rw [par, Cell.prm, Vector.getElem?_eq_getElem h, Option.getD_some]

section
variable {j k : Nat} (hk : steerRange s a j k) (h : ready s (usedPos [0] m) b b) (hu : at_ s 0 = some u) (hj : (bits o 0 4).toNat = j)
include hk h hu hj

theorem execSth_fires (hj15 : j ≠ 15) :
    exec (.sth a b m o) s = .next (steered s a b m u (some (kh64 (steerKey u) (par s (j + 1)).toNat / 2 ^ 32 * k / 2 ^ 32))) := by
  have hlt := (bits o 0 4).isLt
  refine congrArg Host.Outcome.next (steerClass_fires m o hk h hu hj ?_)
  rw [prm_eq_some s (by omega)]
  rfl

theorem execStt_fires (hj15 : j ≠ 15) {e cl : Nat} (he : e = steerKey u % (16 * (15 - j)))
    (hcl : cl = (par s (j + 1 + e / 16)).toNat / 2 ^ (4 * (e % 16)) % 16) :
    exec (.stt a b m o) s = .next (steered s a b m u (if cl < k then some cl else none)) := by
  refine congrArg Host.Outcome.next (steerClass_fires m o hk h hu hj ?_)
  rw [if_neg hj15, hcl, he]
  refine congrArg some ?_
  split
  · next hle => exact (if_neg (Nat.not_lt.mpr hle)).symm
  · next hle => exact (if_pos (Nat.not_le.mp hle)).symm

/-- The class by bounds is one below the number of bounds that the key reaches (R173). -/
theorem execStk_fires (hk15 : j + k ≤ 15) (hasc : ∀ i, i + 1 < k → (par s (j + 1 + i)).toNat < (par s (j + 1 + (i + 1))).toNat) {n : Nat}
    (hn : (((List.range k).map (fun i => (par s (j + 1 + i)).toNat)).filter (fun y => decide (y ≤ steerKey u))).length = n) :
    exec (.stk a b m o) s = .next (steered s a b m u (if n = 0 then none else some (n - 1))) := by
  refine congrArg Host.Outcome.next (steerClass_fires m o hk h hu hj ?_)
  have hup : ascends ((List.range k).map (fun i => (par s (j + 1 + i)).toNat)) = true :=
    ascends_of_lt _ fun i hi => by
      simp only [List.getElem_map, List.getElem_range]
      exact hasc i (by simpa using hi)
  subst hn
  refine (if_neg ?_).trans rfl
  refine not_or.mpr ⟨Nat.not_lt.mpr hk15, ?_⟩
  show ¬ (!ascends ((List.range k).map (fun i => (par s (j + 1 + i)).toNat))) = true
  rw [hup]
  decide

end

end

end Sys2Proof.Machine
end

section
open Sys2Proof.Cert
namespace Sys2Proof.Machine

/-- A bit of p chooses the target (R173). -/
theorem execStp_fires {s : State} {a b : BitVec 6} {m : BitVec 2} (o : BitVec 8) {u w : Item} (h : ready s (usedPos [0, 2] m) a b)
    (hu : at_ s 0 = some u) (hw : at_ s 2 = some w) :
    exec (.stp a b m o) s = .next (fired s (usedPos [0, 2] m) [(if w.v0.getLsbD (o.toNat % 64) then a else b, u)]) := by
  have ha : ((here s).operands s.nodeTurn.2 (usedPos [0, 2] m)).a = some u := (operands_a (by simp)).trans hu
  have hp : ((here s).operands s.nodeTurn.2 (usedPos [0, 2] m)).p = some w := (operands_p (by simp)).trans hw
  have hbit : maskBit (some w) (bits o 0 6).toNat = w.v0.getLsbD (o.toNat % 64) := by
    rw [bits_low_toNat, maskBit_some, decide_eq_false (by omega)]
    rfl
  rw [show exec (.stp a b m o) s = execStp a b m o s from rfl, execStp, show usedPos [posA, posP] m = usedPos [0, 2] m from rfl,
    State.steerAct, atNode_mayAct h.1]
  dsimp only
  rw [nodeAct_ready h, ha, hp]
  dsimp only
  rw [hbit]
  rfl

/-! ### Sorted joins (R174 to R177) -/

/-- The actions of a table under a relation. -/
def JTable.act (t : JTable) : Rel → JAct
  | .lt => t.lt
  | .eq => t.eq
  | .gt => t.gt

/-- What a firing emits under a relation (R175, R176). -/
def JTable.out (t : JTable) (u v : Item) : Rel → Item
  | .lt => u
  | .eq => combine t.emode t.isInt u v
  | .gt => v

/-- Actions as a row of the statement. -/
def JAct.row (t : JAct) : JoinRow := ⟨t.popA, t.b == .pop, t.emit⟩

/-- The positions that a row pops. -/
def rowPops (r : JoinRow) : List Nat := (if r.a then [0] else []) ++ (if r.b then [1] else [])

/-- The state of a join that holds nothing. -/
def JState.empty : JState := ⟨[], 0, false, none, none⟩

/-- The state of a join that holds nothing, behind the mark of its table. -/
theorem mark_empty (r : Rel) (marks : Bool) (v : Item) :
    (if r = .eq ∧ marks = true then JState.empty.setMark v else JState.empty) = JState.empty ∨
    (if r = .eq ∧ marks = true then JState.empty.setMark v else JState.empty) = { JState.empty with mark := true } ∧ r = .eq := by
  split
  · next h => exact .inr ⟨rfl, h.1⟩
  · exact .inl rfl

section
variable {s : State} {a b : BitVec 6} {tab : JTable} {u v : Item} (hu : u.isData = true) (hv : v.isData = true)
include hu hv

/-- A join that holds nothing takes from the queues what its row says, and emits what its relation says (R174 to R177). -/
theorem joinStep_empty {row : JoinRow} (hrow : (tab.act (relOf u v)).row = row) (hroom : roomFor s (rowPops row) a b)
    (hpop : row.a = true ∨ row.b = true) :
    ∃ x, joinStep s s.nodeTurn.1 s.nodeTurn.2 [a, b] tab .empty u v =
      firedWith s (rowPops row) x (both a b (if row.emit then [tab.out u v (relOf u v)] else [])) := by
  unfold joinStep
  extract_lets x r act j1 popsA popsB resets fromQ popped out
  have hact : act = tab.act r := by
    dsimp only [act]
    cases r <;> rfl
  have hj1 : j1 = JState.empty ∨ j1 = { JState.empty with mark := true } ∧ r = .eq := mark_empty r tab.marks v
  have hA : popsA = row.a := by
    rw [← hrow, show popsA = (act.popA && u.isData) from rfl, hu, hact, Bool.and_true]
    rfl
  have hB : popsB = row.b := by
    rw [← hrow, show popsB = (act.b == .pop && v.isData) from rfl, hv, hact, Bool.and_true]
    rfl
  have hresets : resets = false := by
    have hpos : j1.pos = 0 := by obtain h | ⟨h, -⟩ := hj1 <;> rw [h] <;> rfl
    rw [show resets = (act.b == .reset && j1.mark && decide (0 < j1.pos)) from rfl, hpos]
    exact Bool.and_false _
  have hpopped : ∃ j2, popped = some (j2, popsB) := by
    by_cases hb : popsB = true
    · have hp : popped = j1.popB v (decide (r = .gt) && j1.mark) := if_pos hb
      rw [hp, hb]
      obtain h | ⟨h, hr⟩ := hj1
      · rw [h]
        exact ⟨_, rfl⟩
      · rw [h, hr]
        exact ⟨_, rfl⟩
    · rw [show popped = if act.b = .reset ∧ j1.mark = true then some ({ j1 with pos := 0 }, false) else some (j1, false) from if_neg hb,
        Bool.eq_false_iff.mpr hb]
      split
      · exact ⟨_, rfl⟩
      · exact ⟨_, rfl⟩
  have hout : out = if row.emit then [tab.out u v r] else [] := by
    rw [← hrow, show (tab.act (relOf u v)).row.emit = act.emit by rw [hact]; rfl]
    dsimp only [out]
    cases act.emit <;> cases r <;> rfl
  obtain ⟨j2, hj2⟩ := hpopped
  clear_value act j1 popsA popsB resets popped out
  have hq : (row.b && fromQ) = row.b := Bool.and_true _
  rw [hA, hB, hresets, hq, hj2, hB, hout]
  have hfree : [a, b].all (x.targetFree s.nodeTurn.2 ((if row.a = true then [posA] else []) ++ if row.b = true then [posB] else [])) = true :=
    targets_free hroom
  have hsome : ¬ (!row.a && !row.b && !false) = true := by
    obtain h | h := hpop <;> simp [h]
  rw [hfree, if_neg (by decide), if_neg (by simp [outOfOrder, JState.empty])]
  dsimp only
  rw [if_neg hsome]
  exact ⟨_, rfl⟩

end

/-! #### The nodes of sorted joins -/

section
variable {s : State} {a b : BitVec 6} {u v : Item}

theorem joinHeads_data (hu : dataAt s 0 u) (hv : dataAt s 1 v) (ts : List (BitVec 6)) (clear : NodeState) (body : Item → Item → State) :
    joinHeads s s.nodeTurn.1 s.nodeTurn.2 ts (here s) (some u) (some v) clear body = body u v := by
  obtain ⟨-, hku⟩ := hu
  obtain ⟨hb, hkv⟩ := hv
  have hb : (here s).valueAt s.nodeTurn.2 posB = some v := hb
  simp [joinHeads, hb, badToken_data hku, badToken_data hkv, isData_of_kind hku, isData_of_kind hkv, hku, hkv, kGap]

theorem joinAct_data (hact : mayAct s) (hu : dataAt s 0 u) (hv : dataAt s 1 v) (hidle : held s = .idle) {o : BitVec 8}
    {table : Word64 → Option JTable} {tab : JTable} (htab : table (par s (bits o 0 4).toNat) = some tab) :
    joinAct a b o table s = joinStep s s.nodeTurn.1 s.nodeTurn.2 [a, b] tab .empty u v := by
  have hst : (here s).nst[s.nodeTurn.2.toNat] = .idle := hidle
  have ha : (here s).valueAt s.nodeTurn.2 posA = some u := hu.1
  have hb : (here s).valueAt s.nodeTurn.2 posB = some v := hv.1
  rw [joinAct, atNode_mayAct hact]
  dsimp only
  rw [hst, ha, if_neg (by decide), hb, joinHeads_data hu hv,
    show table (((here s).prm (bits o 0 4).toNat).getD 0) = some tab from htab]
  rfl

/-- What a join does under each relation of its heads. -/
def relRow (lt eq gt : JoinRow) : Rel → JoinRow
  | .lt => lt
  | .eq => eq
  | .gt => gt

/-- A join reads the table that the statement's rows are of (R175 to R177). -/
structure ReadsTable (s : State) (j : Nat) (lt eq gt : JoinRow) (table : Word64 → Option JTable) (tab : JTable) : Prop where
  reads : table (par s j) = some tab
  rows  : ∀ r, (tab.act r).row = relRow lt eq gt r
  emode : tab.emode = (par s j).toNat / 2 ^ 12 % 8
  isInt : tab.isInt = (par s j).getLsbD 15

theorem joinRow_ext {r t : JoinRow} (ha : r.a = t.a) (hb : r.b = t.b) (he : r.emit = t.emit) : r = t := by
  cases r
  cases t
  simp_all

theorem bactOf_ne_three {c : BitVec 2} (h : c.toNat ≠ 3) : ∃ t, bactOf c = some t ∧ (t == .pop) = (c.toNat == 1) := by
  revert c
  decide

theorem fixedTable_reads {j : Nat} (hem : (par s j).toNat / 2 ^ 12 % 8 < 5) (lt eq gt : JAct) :
    ∃ tab, ReadsTable s j lt.row eq.row gt.row (fixedTable lt eq gt) tab := by
  have hb := bits_toNat (par s j) 12 3
  refine ⟨_, if_neg (by rw [hb]; exact Nat.not_le.mpr hem), fun r => ?_, hb, rfl⟩
  cases r <;> rfl

theorem jcmpTable_reads {j : Nat} (hem : (par s j).toNat / 2 ^ 12 % 8 < 5) (h1 : (par s j).toNat / 2 % 4 ≠ 3)
    (h5 : (par s j).toNat / 2 ^ 5 % 4 ≠ 3) (h9 : (par s j).toNat / 2 ^ 9 % 4 ≠ 3) {row : Nat → JoinRow}
    (hrow : row = fun n => ⟨(par s j).toNat / 2 ^ n % 2 == 1, (par s j).toNat / 2 ^ (n + 1) % 4 == 1,
      (par s j).toNat / 2 ^ (n + 3) % 2 == 1⟩) :
    ∃ tab, ReadsTable s j (row 0) (row 4) (row 8) jcmpTable tab := by
  have hb := bits_toNat (par s j)
  obtain ⟨l, hl, hlp⟩ := bactOf_ne_three (c := bits (par s j) 1 2) (by rw [hb]; exact h1)
  obtain ⟨e, he, hep⟩ := bactOf_ne_three (c := bits (par s j) 5 2) (by rw [hb]; exact h5)
  obtain ⟨g, hg, hgp⟩ := bactOf_ne_three (c := bits (par s j) 9 2) (by rw [hb]; exact h9)
  have hbit (n : Nat) : (par s j).getLsbD n = ((par s j).toNat / 2 ^ n % 2 == 1) := by
    rw [BitVec.getLsbD, Nat.testBit_eq_decide_div_mod_eq, Bool.beq_eq_decide_eq]
  rw [hb] at hlp hep hgp
  have htab : jcmpTable (par s j) = some
      { lt := ⟨(par s j).getLsbD 0, l, (par s j).getLsbD 3⟩, eq := ⟨(par s j).getLsbD 4, e, (par s j).getLsbD 7⟩,
        gt := ⟨(par s j).getLsbD 8, g, (par s j).getLsbD 11⟩, emode := (bits (par s j) 12 3).toNat, isInt := (par s j).getLsbD 15,
        marks := true } := by
    rw [jcmpTable, hl, he, hg]
    exact if_neg (by rw [hb]; exact Nat.not_le.mpr hem)
  refine ⟨_, htab, fun r => ?_, hb 12 3, rfl⟩
  subst hrow
  simp only [hbit]
  cases r with
  | lt => exact joinRow_ext rfl hlp rfl
  | eq => exact joinRow_ext rfl hep rfl
  | gt => exact joinRow_ext rfl hgp rfl

/-- A sorted join is a join of the table of its rows (R175, R177). -/
theorem exec_joinRows {i : Instr} {j : Nat} {lt eq gt : JoinRow} (h : joinRows s i = some (a, b, j, lt, eq, gt))
    (hem : (par s j).toNat / 2 ^ 12 % 8 < 5) : ∃ o table tab, exec i s = .next (joinAct a b o table s) ∧ (bits o 0 4).toNat = j ∧
      ReadsTable s j lt eq gt table tab := by
  unfold joinRows at h
  split at h
  case h_1 m o =>
    cases h
    obtain ⟨tab, htab⟩ := fixedTable_reads hem ⟨true, .reuse, false⟩ ⟨true, .pop, true⟩ ⟨false, .pop, false⟩
    exact ⟨o, _, tab, rfl, bits_low_toNat o 4, htab⟩
  case h_2 m o =>
    cases h
    obtain ⟨tab, htab⟩ := fixedTable_reads hem ⟨true, .reuse, true⟩ ⟨true, .pop, true⟩ ⟨false, .pop, true⟩
    exact ⟨o, _, tab, rfl, bits_low_toNat o 4, htab⟩
  case h_3 m o =>
    cases h
    obtain ⟨tab, htab⟩ := fixedTable_reads hem ⟨true, .reuse, true⟩ ⟨true, .pop, false⟩ ⟨false, .pop, false⟩
    exact ⟨o, _, tab, rfl, bits_low_toNat o 4, htab⟩
  case h_4 m o =>
    dsimp only at h
    split at h
    · cases h
    · next hn =>
      cases h
      rw [not_or, not_or] at hn
      obtain ⟨h1, h5, h9⟩ := hn
      obtain ⟨tab, htab⟩ := jcmpTable_reads hem h1 h5 h9 rfl
      exact ⟨o, _, tab, rfl, bits_low_toNat o 4, htab⟩
  case h_5 => cases h

theorem relOf_data (hu : u.tag.kind = 0) (hv : v.tag.kind = 0) :
    relOf u v = if u.key < v.key then .lt else if u.key = v.key then .eq else .gt := by
  rw [relOf, isData_of_kind hu, isData_of_kind hv]
  rfl

/-- The first comparison of a sorted join over DATA (R174 to R177). -/
theorem joinRows_fires {i : Instr} {j : Nat} {lt eq gt : JoinRow} (h : joinRows s i = some (a, b, j, lt, eq, gt))
    (hact : mayAct s) (hu : dataAt s 0 u) (hv : dataAt s 1 v) (hidle : held s = .idle) (hem : (par s j).toNat / 2 ^ 12 % 8 < 5)
    {r : JoinRow} (hr : r = if u.key < v.key then lt else if u.key = v.key then eq else gt) {out : Item}
    (hout : out = if u.key < v.key then u else if u.key = v.key then
      combine ((par s j).toNat / 2 ^ 12 % 8) ((par s j).getLsbD 15) u v else v)
    (hpop : r.a = true ∨ r.b = true) (hroom : roomFor s (rowPops r) a b) :
    ∃ x, exec i s = .next (firedWith s (rowPops r) x (both a b (if r.emit then [out] else []))) := by
  obtain ⟨o, table, tab, he, rfl, htab⟩ := exec_joinRows h hem
  have hrel := relOf_data hu.2 hv.2
  have hrow : (tab.act (relOf u v)).row = r := by
    rw [htab.rows, hrel, hr, apply_ite (relRow lt eq gt), apply_ite (relRow lt eq gt)]
    rfl
  have hemit : tab.out u v (relOf u v) = out := by
    rw [hrel, hout, ← htab.emode, ← htab.isInt, apply_ite (tab.out u v), apply_ite (tab.out u v)]
    rfl
  obtain ⟨x, hx⟩ := joinStep_empty (isData_of_kind hu.2) (isData_of_kind hv.2) hrow hroom hpop
  exact ⟨x, by rw [he, joinAct_data hact hu hv hidle htab.reads, hx, hemit]⟩

end

/-! ### Joins of windows (R178) -/

section
variable {s : State} {a b : BitVec 6} {m : BitVec 2} {o : BitVec 8} {u v : Item}

/-- A record of b's window is read into the buffer (R178). -/
theorem execJwin_reads (hact : mayAct s) (h0 : plainAt s 0) (hv : dataAt s 1 v) (hidle : held s = .idle) :
    exec (.jwin a b m o) s = .next (firedWith s [1] (.jwin [v] false none) []) := by
  have hst : (here s).nst[s.nodeTurn.2.toNat] = .idle := hidle
  have ha : (here s).valueAt s.nodeTurn.2 posA = at_ s 0 := rfl
  have hb : (here s).valueAt s.nodeTurn.2 posB = some v := hv.1
  rw [show exec (.jwin a b m o) s = execJwin a b m o s from rfl, execJwin, atNode_mayAct hact]
  simp only [hst, ha, hb, plain_badToken h0, plain_gap h0, plain_isAligned h0, Option.map_some, Option.getD_some, badToken_data hv.2,
    isData_of_kind hv.2, hv.2]
  rfl

/-- A record of a is joined with the records of b's window that have its key (R178). -/
theorem execJwin_joins (hact : mayAct s) (hroom : roomFor s [0] a b) (hu : dataAt s 0 u) (hv : at_ s 1 = some v)
    (hkind : v.tag.kind = 2 ∨ v.tag.kind = 3 ∨ v.tag.kind = 4) (hem : (par s (o.toNat % 16)).toNat / 2 ^ 12 % 8 < 5)
    {buf : List Item} {closed : Bool} {dropped : Option GapSum} (hheld : held s = .jwin buf closed dropped) :
    exec (.jwin a b m o) s = .next (firedWith s [0] (.jwin buf true dropped) (both a b ((buf.filter (fun x => x.key == u.key)).map
      (combine ((par s (o.toNat % 16)).toNat / 2 ^ 12 % 8) ((par s (o.toNat % 16)).getLsbD 15) u)))) := by
  have hst : (here s).nst[s.nodeTurn.2.toNat] = .jwin buf closed dropped := hheld
  have ha : (here s).valueAt s.nodeTurn.2 posA = some u := hu.1
  have hb : (here s).valueAt s.nodeTurn.2 posB = some v := hv
  obtain ⟨tab, htab⟩ := fixedTable_reads hem ⟨false, .reuse, false⟩ ⟨false, .reuse, false⟩ ⟨false, .reuse, false⟩
  have hprm : ((here s).prm (bits o 0 4).toNat).getD 0 = par s (o.toNat % 16) := by
    rw [bits_low_toNat]
    rfl
  have hend : badToken v = false ∧ (v.tag.kind == kGap) = false ∧ v.isData = false ∧ endKind v.tag.kind = true := by
    obtain h | h | h := hkind <;> simp [badToken, Item.isData, h, kGap, kOrder, kData, endKind, kEod, kEot, kEoi]
  obtain ⟨hbad, hgap, hdata, hendk⟩ := hend
  have hg : (u.tag.kind == kGap) = false := by simp [hu.2, kGap]
  have hfree : [a, b].all ((here s).targetFree s.nodeTurn.2 [posA]) = true := targets_free hroom
  rw [show exec (.jwin a b m o) s = execJwin a b m o s from rfl, execJwin, atNode_mayAct hact, ← htab.emode, ← htab.isInt]
  simp only [hst, ha, hb, Option.map_some, Option.getD_some, badToken_data hu.2, hbad, hgap, hg, hdata, hendk, isData_of_kind hu.2,
    Bool.false_eq_true, if_false, if_true, Bool.and_true, hprm, hfree, Bool.not_true, htab.reads]
  rfl

end

/-! ### Control tokens at a node (R23) -/

theorem decodeNode_copy {w : Nat} {a b : BitVec 6} {m : BitVec 2} {o : BitVec 8} (h : decodeNode w = .ok (.copy a b m o)) :
    fld w 28 4 = 1 := by
  unfold decodeNode at h
  dsimp only at h
  split at h
  · next found =>
    cases h
    split at found
    case h_2 hk => exact hk
    all_goals
      simp only [decodeArith, decodeJoin, decodeSteer, decodeReorder, decodeAccum, decodeMemport, decodeAddrgen, decodeWindow, decodeMatrix,
        decodeOnline, decodeConvert, reduceCtorEq] at found
      repeat' split at found
      all_goals cases found
  · split at h <;> cases h

section
variable {s : State} {a b : BitVec 6} {o : BitVec 8} {u : Item}

/-- A node with one operand and a token of level EOD at it (R24). -/
theorem heads_eod {x : Cell} {k : BitVec 3} (hu : x.valueAt k posA = some u) (hk : u.tag.kind = kEod) :
    x.heads k [posA] = .token kEod := by
  have hal : [posA].filter (x.aligns k) = [posA] := rfl
  have hbad : badToken u = false := by simp [badToken, hk, kEod, kOrder]
  have hgap : kEod ≠ kGap := by decide
  unfold Cell.heads Cell.headsBut
  simp [hal, hu, hbad, hgap, hk, alignedKind]

/-- A copy node forwards an EOD to both targets (R23, R170). -/
theorem execCopy_eod (hact : mayAct s) (hu : at_ s 0 = some u) (hk : u.tag.kind = 2) (hroom : roomFor s [0] a b) :
    execCopy a b 0 o s = .next (fired s [0] (both a b [u])) := by
  have ha : (here s).valueAt s.nodeTurn.2 posA = some u := hu
  have hal : [posA].filter ((here s).aligns s.nodeTurn.2) = [posA] := rfl
  have hfree : [a, b].all ((here s).targetFree s.nodeTurn.2 [posA]) = true := targets_free hroom
  have hmerge : mergeTokens kEod [u] = some (u.withInvs ([u].flatMap Item.invs)) := rfl
  rw [execCopy, show usedPos [posA] 0 = [posA] from rfl, State.nodeAct, State.nodeActWith, atNode_mayAct hact, heads_eod ha hk]
  dsimp only
  rw [hal, hfree, if_pos rfl, State.forwardToken, State.forwardTokenAfter]
  rw [show [posA].filter ((s.cell s.nodeTurn.1).aligns s.nodeTurn.2) = [posA] from rfl]
  have ha : (s.cell s.nodeTurn.1).valueAt s.nodeTurn.2 posA = some u := ha
  have hinvs : (s.cell s.nodeTurn.1).invsAt s.nodeTurn.2 [0] = [u].flatMap Item.invs := by
    rw [Cell.invsAt, List.flatMap_singleton, List.flatMap_singleton, show (s.cell s.nodeTurn.1).valueAt s.nodeTurn.2 0 = some u from ha]
    rfl
  rw [show [posA].filterMap ((s.cell s.nodeTurn.1).valueAt s.nodeTurn.2) = [u] by simp [ha], hmerge, fired, State.fireWith, hinvs]
  rfl

/-- The turn of a token at a copy node that the search of R22 picks (R23). -/
theorem execTokenForward_copy {c : CellId} {k : BitVec 3} {x : Word32} (hw : (s.cell c).word k = some x)
    (hdec : decodeNode x.toNat = .ok (.copy a b 0 o)) (hact : mayAct { s with nodeTurn := (c, k) })
    (hu : at_ { s with nodeTurn := (c, k) } 0 = some u) (hk : u.tag.kind = 2) (hroom : roomFor { s with nodeTurn := (c, k) } [0] a b)
    (hslot : s.issueSlot c = some k) :
    exec (.tokenForward c k) s = .next (fired { s with nodeTurn := (c, k) } [0] (both a b [u])) := by
  have hkind : (bits x 28 4).toNat = 1 := (bits_toNat x 28 4).trans (decodeNode_copy hdec)
  have hmem : posA ∈ wordUses x := by
    unfold wordUses
    rw [hkind]
    refine mem_usedPos_base (by decide) ?_
    show posA ∈ if (bits x 22 6).toNat = 1 then [posA, posB, posC] else [posA]
    split
    · exact List.mem_cons_self
    · exact List.mem_cons_self
  have hheads : (s.cell c).tokenHeads k = true := by
    unfold Cell.tokenHeads
    rw [hw]
    refine List.any_eq_true.mpr ⟨posA, hmem, ?_⟩
    rw [show (s.cell c).valueAt k posA = some u from hu]
    simp [Item.isData, hk, kData]
  rw [show exec (.tokenForward c k) s = execTokenForward c k s from rfl, execTokenForward, if_pos ⟨hheads, hslot⟩, State.nodeTurnOf, hw]
  dsimp only
  rw [hdec]
  exact execCopy_eod hact hu hk hroom

end

/-- Settles O36: each node by what it does over its heads; a steer by the class of its record, and a sorted join by the row of its relation. -/
theorem flowAndJoinNodes : Obligations.FlowAndJoinNodes := by
  intro s a b m o u v w j n
  have hj : (bits o 0 4).toNat = j := bits_low_toNat o 4
  refine ⟨execCopy_fires m o, execGate_fires m o, execStp_fires o, ?_, ?_, ?_, ?_, ?_⟩
  · intro k hk h hu key go
    have hgo (cl : Option Nat) : steered s a b m u cl = go cl := by cases cl <;> rfl
    refine ⟨fun hk15 hasc => ?_, fun hj15 => ?_, fun hj15 => ?_⟩
    · have hasc' (i : Nat) (hi : i + 1 < k) : (par s (j + 1 + i)).toNat < (par s (j + 1 + (i + 1))).toNat := by
        rw [show j + 1 + (i + 1) = j + 2 + i by omega]
        exact hasc i hi
      refine ⟨fun i hi hle hlt => ?_, fun hlt => ?_⟩
      · have hlt' (hi : i + 1 < k) : key < (par s (j + 1 + (i + 1))).toNat := by
          rw [show j + 1 + (i + 1) = j + 2 + i by omega]
          exact hlt hi
        exact (execStk_fires m o hk h hu hj hk15 hasc' (length_reached hasc' hi hle hlt')).trans (congrArg Host.Outcome.next (hgo _))
      · exact (execStk_fires m o hk h hu hj hk15 hasc' (length_reached_none hasc' hlt)).trans (congrArg Host.Outcome.next (hgo _))
    · exact (execSth_fires m o hk h hu hj hj15).trans (congrArg Host.Outcome.next (hgo _))
    · intro e cl
      exact (execStt_fires m o hk h hu hj hj15 rfl rfl).trans (congrArg Host.Outcome.next (hgo _))
  · intro i j' lt eq gt hrows hact hu hv hidle hem r pops out hpop hroom
    exact joinRows_fires hrows hact hu hv hidle hem rfl rfl hpop hroom
  · intro hact h0 hv hk hidle
    exact execJwin_reads hact h0 ⟨hv, hk⟩ hidle
  · intro hact hroom hu hv hkind hem buf closed dropped hheld
    exact execJwin_joins hact hroom hu hv hkind hem hheld
  · intro c k x s1 hw hdec hact hu hk hroom hslot
    exact execTokenForward_copy hw hdec hact hu hk hroom hslot

end Sys2Proof.Machine
end

section
open Sys2Proof.Cert
namespace Sys2Proof.Machine

/-! ### The reorder cells over DATA (R179, R180) -/

section
variable (c : CellId) {w : Nat} {next : BitVec 28} {u : Item} (hk : u.tag.kind = 0)
include hk

theorem placeSeq_data : placeSeq u = u.tag.seq := by simp [placeSeq, hk, kGap]

/-- Nothing is forced for a record within the window. -/
theorem force_within {r : Reorder} (hd : (u.tag.seq - r.next).toNat < w) (n : Nat) : r.force c w u n = r := by
  cases n with
  | zero => rfl
  | succ n => exact if_pos (.inl (placeSeq_data hk ▸ hd))

/-- A record within the window of an empty buffer is put into it, and leaves again where it is in order (R179). -/
theorem take_within (hw : w ≤ 2 ^ 9) (hd : (u.tag.seq - next).toNat < w) :
    Reorder.take ⟨next, [], none, []⟩ c w u = Reorder.run c (w + 1) ⟨next, [u], none, []⟩ := by
  have hb : ¬ behind (seqDist next u.tag.seq) = true := by
    rw [behind, seqDist, decide_eq_true_iff]
    omega
  unfold Reorder.take
  dsimp only
  rw [placeSeq_data hk, if_neg hb, List.any_nil, if_neg Bool.false_ne_true, force_within c hk hd]
  exact if_neg hb

/-- A record in order leaves at once, and NEXT moves on (R179). -/
theorem take_inOrder (hw : w ≤ 2 ^ 9) (h0 : 0 < w) (hd : (u.tag.seq - next).toNat = 0) :
    Reorder.take ⟨next, [], none, []⟩ c w u = ⟨next + 1, [], none, [u]⟩ := by
  have hseq : u.tag.seq = next := sub_eq_zero.mp (BitVec.eq_of_toNat_eq hd)
  have hnext : Reorder.atNext ⟨next, [u], none, []⟩ = some u := by simp [Reorder.atNext, placeSeq_data hk, hseq]
  have hrel : Reorder.release ⟨next, [u], none, []⟩ c u = ⟨next + 1, [], none, [u]⟩ := by
    simp [Reorder.release, Reorder.flushGap, nextAfter, hk, kGap]
  rw [take_within c hk hw (hd ▸ h0), Reorder.run, hnext]
  dsimp only
  rw [hrel]
  cases w <;> rfl

/-- A record ahead of NEXT is held (R179). -/
theorem take_ahead (hw : w ≤ 2 ^ 9) (h0 : 0 < (u.tag.seq - next).toNat) (hd : (u.tag.seq - next).toNat < w) :
    Reorder.take ⟨next, [], none, []⟩ c w u = ⟨next, [u], none, []⟩ := by
  have hseq : u.tag.seq ≠ next := by
    rintro rfl
    simp at h0
  have hnext : Reorder.atNext ⟨next, [u], none, []⟩ = none := by simp [Reorder.atNext, placeSeq_data hk, hseq]
  rw [take_within c hk hw hd, Reorder.run, hnext]

/-- A record behind NEXT leaves with LATE (R179). -/
theorem take_behind (hd : 2 ^ 27 ≤ (u.tag.seq - next).toNat) : Reorder.take ⟨next, [], none, []⟩ c w u =
    ⟨next, [], none, [{ u with tag := { u.tag with flags := u.tag.flags ||| 4 } }]⟩ := by
  have hb : behind (seqDist next u.tag.seq) = true := decide_eq_true hd
  unfold Reorder.take
  dsimp only
  rw [placeSeq_data hk, if_pos hb, lateItem, if_pos (isData_of_kind hk)]
  rfl

end

section
variable {s : State} {a b : BitVec 6} {m : BitVec 2} {o : BitVec 8} {u : Item}

theorem reorderW_eq (s : State) (o : BitVec 8) : reorderW (here s) (bits o 0 4).toNat = (par s (o.toNat % 16)).toNat % 16 := by
  rw [reorderW, bits_low_toNat, bits_low_toNat]
  rfl

theorem reorderOf_eq {next : BitVec 28} (hheld : held s = .reorder next [] none ∨
    (held s = .idle ∧ next = BitVec.ofNat 28 ((par s (o.toNat % 16)).toNat / 2 ^ 16))) :
    reorderOf (here s) s.nodeTurn.2 (bits o 0 4).toNat = ⟨next, [], none, []⟩ := by
  unfold reorderOf
  obtain h | ⟨h, rfl⟩ := hheld
  · rw [show (here s).nst[s.nodeTurn.2.toNat] = .reorder next [] none from h]
  · rw [show (here s).nst[s.nodeTurn.2.toNat] = .idle from h, bits_low_toNat, ← bits_eq_ofNat]
    rfl

/-- A reorder node takes a record in (R179, R180). -/
theorem exec_reorder {i : Instr} (hi : i ∈ [Instr.rord a b m o, Instr.rrel a b m o]) (hact : mayAct s) (hu : dataAt s 0 u)
    (h3 : plainAt s 3) (hroom : roomFor s [0] a b) (hw : (par s (o.toNat % 16)).toNat % 16 ≤ 9) :
    exec i s = .next (reorderPut s s.nodeTurn.1 s.nodeTurn.2 [a, b] [0]
      ((reorderOf (here s) s.nodeTurn.2 (bits o 0 4).toNat).take s.nodeTurn.1 (2 ^ ((par s (o.toNat % 16)).toNat % 16)) u)) := by
  have ha : (here s).valueAt s.nodeTurn.2 posA = some u := hu.1
  have hc : (here s).valueAt s.nodeTurn.2 posC = at_ s 3 := rfl
  have hfree : [a, b].all ((here s).targetFree s.nodeTurn.2 [posA]) = true := targets_free hroom
  have hw' : ¬ 9 < (par s (o.toNat % 16)).toNat % 16 := Nat.not_lt.mpr hw
  obtain rfl | rfl : i = .rord a b m o ∨ i = .rrel a b m o := by simpa using hi
  · rw [show exec (.rord a b m o) s = execRord a b m o s from rfl, execRord, atNode_mayAct hact]
    simp only [ha, badToken_data hu.2, hfree, reorderW_eq, hw', isData_of_kind hu.2, Bool.not_true, Bool.true_or, Bool.false_eq_true,
      if_false, if_true]
    rfl
  · rw [show exec (.rrel a b m o) s = execRrel a b m o s from rfl, execRrel, atNode_mayAct hact]
    simp only [ha, hc, plain_badToken h3, plain_gap h3, Option.map_some, Option.getD_some, badToken_data hu.2, hfree, reorderW_eq, hw',
      isData_of_kind hu.2, Bool.true_or, Bool.false_eq_true, if_false, if_true]
    rfl

end

end Sys2Proof.Machine
end

section
open Sys2Proof.Cert
namespace Sys2Proof.Machine

/-! ### A cell's table while a node consumes and delivers (R216) -/

/-- What a change keeps of every cell but one, whichever that is, it keeps of all. -/
theorem own_of_beside_all {s t : State} (h : ∀ b, t.beside b = s.beside b) (c : CellId) : (t.cell c).own = (s.cell c).own := by
  have hne : c ≠ { c with n := c.n + 1 } := by
    intro he
    have hn : c.n = c.n + 1 := congrArg CellId.n he
    bv_omega
  exact State.own_of_beside (h _) hne

theorem fb_of_own {x y : Cell} (h : x.own = y.own) : x.fb = y.fb := congrArg (fun z => z.2.2.2.1) h

section
variable (s : State) (c : CellId)

theorem State.modCell_fb (f : Cell → Cell) (h : ∀ x, (f x).fb = x.fb) : ((s.modCell c f).cell c).fb = (s.cell c).fb := by
  rw [State.modCell_cell_self]
  exact h _

@[simp] theorem State.popQ_fb (q : BitVec 3) : ((s.popQ c q).cell c).fb = (s.cell c).fb := by
  unfold State.popQ
  dsimp only
  rw [fb_of_own (own_of_beside_all (fun b => State.newHead_beside _ b c q none) c)]
  have hpulse (t : State) : ((t.sendPulse c q 2).cell c).fb = (t.cell c).fb := rfl
  split
  · rw [hpulse]
    exact s.modCell_fb c _ fun _ => rfl
  · exact s.modCell_fb c _ fun _ => rfl

@[simp] theorem State.takeTrigger_fb (k : BitVec 3) (p : Nat) : ((s.takeTrigger c k p).cell c).fb = (s.cell c).fb := by
  unfold State.takeTrigger
  split
  · rfl
  · refine s.modCell_fb c _ fun x => ?_
    split <;> rfl

@[simp] theorem State.take_fb (k : BitVec 3) (p : Nat) : ((s.take c k p).cell c).fb = (s.cell c).fb := by
  unfold State.take
  dsimp only
  split
  · split <;> simp
  · split
    · exact s.modCell_fb c _ fun _ => rfl
    · exact s.takeTrigger_fb c k p

@[simp] theorem State.consume_fb (k : BitVec 3) (used : List Nat) : ((s.consume c k used).cell c).fb = (s.cell c).fb := by
  unfold State.consume
  dsimp only
  rw [State.modCell_cell_self]
  exact foldl_keeps (fun s => (s.cell c).fb) (fun s p => s.take_fb c k p) used s

@[simp] theorem State.emitOutlet_fb (so : BitVec 5) (u : Item) : ((s.emitOutlet c so u).cell c).fb = (s.cell c).fb := by
  unfold State.emitOutlet
  split
  · exact fb_of_own (own_of_beside_all (fun b => s.leaveBy_beside b c so u) c)
  · next w _ =>
    split
    · exact s.modCell_fb c _ fun _ => rfl
    · exact fb_of_own (own_of_beside_all (fun b => s.leavePath_beside b c w u) c)

@[simp] theorem State.deliver_fb (t : BitVec 6) (u : Item) : ((s.deliver c t u).cell c).fb = (s.cell c).fb := by
  unfold State.deliver
  split
  · rfl
  · exact s.modCell_fb c _ fun _ => rfl
  · exact s.emitOutlet_fb c _ u

@[simp] theorem State.deliverAll_fb (k : BitVec 3) (l : List (BitVec 6 × Item)) : ((s.deliverAll c k l).cell c).fb = (s.cell c).fb := by
  induction l generalizing s with
  | nil => rfl
  | cons p l ih =>
    obtain ⟨t, u⟩ := p
    unfold State.deliverAll
    split
    · exact (ih _).trans (s.deliver_fb c t u)
    · exact s.modCell_fb c _ fun _ => rfl

@[simp] theorem State.modFb_fb (f : Fretboard → Fretboard) : ((s.modFb c f).cell c).fb = f (s.cell c).fb := by
  rw [State.modFb, State.modCell_cell_self]

end

theorem State.mem_of_store {s t : State} (h : t.store = s.store) : t.mem = s.mem := congrArg Prod.fst h

/-! ### Updates of a table (R219 to R221) -/

theorem Fretboard.write_at (f : Fretboard) (i k : Nat) (e : FbEntry) : (f.write i e).at k = if k = i then some e else f.at k :=
  aget_aset f.entries i k e

theorem probe_hit_key {f : Fretboard} {g : Geo} {key : Word64} {n : Nat} {e : FbEntry} (h : f.probe g key = .hit n e) : e.key = key := by
  unfold Fretboard.probe at h
  dsimp only at h
  split at h
  · next i e' hf =>
    cases h
    obtain ⟨i, -, hi⟩ := List.exists_of_findSome?_eq_some hf
    split at hi
    · split at hi
      · next hk => cases hi; exact hk
      · cases hi
    · cases hi
  · split at h <;> cases h

theorem ofSigned_lt (w : Nat) (z : Int) : ofSigned w z < 2 ^ w := by
  have h := Int.emod_lt_of_pos z (show (0 : Int) < (2 ^ w : Nat) by exact_mod_cast Nat.two_pow_pos w)
  have h0 := Int.emod_nonneg z (show ((2 ^ w : Nat) : Int) ≠ 0 by exact_mod_cast (Nat.two_pow_pos w).ne')
  rw [ofSigned]
  omega

section
variable (e : FbEntry) (u : Item)

/-- An entry after a hit of an integer table (R219). -/
theorem updEntry_hit (fn : UpdFn) {v : Nat} (hv : (updHit fn true e.value.toNat u.value.toNat).1 = v) (hlt : v < 2 ^ 32) :
    (updEntry fn true false (some e) u).key = e.key ∧ (updEntry fn true false (some e) u).value.toNat = v ∧
      (updEntry fn true false (some e) u).wsum.toNat = min (e.wsum.toNat + u.tag.weight.toNat) 0xFFFFFF := by
  have hw : min (e.wsum.toNat + u.tag.weight.toNat) 0xFFFFFF < 2 ^ 24 := by omega
  refine ⟨rfl, ?_, ?_⟩
  · rw [← hv] at hlt ⊢
    exact (BitVec.toNat_ofNat ..).trans (Nat.mod_eq_of_lt hlt)
  · exact (BitVec.toNat_ofNat ..).trans (Nat.mod_eq_of_lt hw)

/-- A new entry of an integer table (R219). -/
theorem updEntry_free (fn : UpdFn) : (updEntry fn true false none u).key = u.key ∧
    (updEntry fn true false none u).value.toNat = u.value.toNat ∧
      (updEntry fn true false none u).wsum.toNat = min u.tag.weight.toNat 0xFFFFFF := by
  have hw : min (0 + u.tag.weight.toNat) 0xFFFFFF < 2 ^ 24 := by omega
  refine ⟨rfl, ?_, ?_⟩
  · exact (BitVec.toNat_ofNat ..).trans (Nat.mod_eq_of_lt u.value.isLt)
  · rw [← Nat.zero_add u.tag.weight.toNat]
    exact (BitVec.toNat_ofNat ..).trans (Nat.mod_eq_of_lt hw)

theorem updHit_add (x y : Word32) : (updHit .add true x.toNat y.toNat).1 = intLane 32 false (sgn 32 x.toNat + sgn 32 y.toNat) := by
  rw [intLane_eq_ofSigned, sgn_eq_toSigned x.isLt, sgn_eq_toSigned y.isLt]
  rfl

theorem updHit_max (x y : Word32) : (updHit .max true x.toNat y.toNat).1 = if sgn 32 x.toNat < sgn 32 y.toNat then y.toNat else x.toNat := by
  rw [sgn_eq_toSigned x.isLt, sgn_eq_toSigned y.isLt]
  rfl

theorem updHit_min (x y : Word32) : (updHit .min true x.toNat y.toNat).1 = if sgn 32 y.toNat < sgn 32 x.toNat then y.toNat else x.toNat := by
  rw [sgn_eq_toSigned x.isLt, sgn_eq_toSigned y.isLt]
  rfl

end

/-! ### The update nodes over DATA (R219 to R221) -/

/-- What a probe finds, as the entry that an update replaces. -/
inductive Finds (f : Fretboard) (g : Geo) (key : Word64) (n : Nat) : Option FbEntry → Prop where
  | free (h : f.probe g key = .free n) : Finds f g key n none
  | hit {e : FbEntry} (h : f.probe g key = .hit n e) : Finds f g key n (some e)

/-- The table as an update node sets it up (R217). -/
def Fretboard.setUp (f : Fretboard) (g : Geo) : Fretboard := { f with present := true, logn := g.logn, vt := g.isInt }

section
variable {s : State} {a b : BitVec 6} {o : BitVec 8} {u : Item} {g : Geo}

/-- An update writes the entry that it found, or a free slot (R219). -/
theorem updateAct_writes (fn : UpdFn) (hgeo : (here s).geo = some g) (hact : mayAct s) (hu : dataAt s 0 u) (hroom : roomFor s [0] a b)
    {n : Nat} {old : Option FbEntry} (hold : Finds ((here s).fb.setUp g) g u.key n old) :
    updateAct fn a b o s = (s.consume s.nodeTurn.1 s.nodeTurn.2 [0]).modFb s.nodeTurn.1
      (fun _ => ((here s).fb.setUp g).write n (updEntry fn g.isInt (o.getLsbD 4) old u)) := by
  have ha : (here s).valueAt s.nodeTurn.2 posA = some u := hu.1
  have hfree : [a, b].all ((here s).targetFree s.nodeTurn.2 [posA]) = true := targets_free hroom
  have hgap : ¬ u.tag.kind = kGap := by rw [hu.2]; decide
  rw [updateAct, atNode_mayAct hact]
  simp only [ha, badToken_data hu.2, hfree, hgap, isData_of_kind hu.2, hgeo, Bool.not_true, Bool.false_eq_true, if_false]
  cases hold with
  | free h => rw [show Fretboard.probe { (here s).fb with present := true, logn := g.logn, vt := g.isInt } g u.key = .free n from h]; rfl
  | hit h => rw [show Fretboard.probe { (here s).fb with present := true, logn := g.logn, vt := g.isInt } g u.key = .hit n _ from h]; rfl

/-- What an update leaves: the entry in its slot, every other slot, and memory (R219). -/
theorem updateAct_leaves (fn : UpdFn) (hgeo : (here s).geo = some g) (hact : mayAct s) (hu : dataAt s 0 u) (hroom : roomFor s [0] a b)
    {n : Nat} {old : Option FbEntry} (hold : Finds ((here s).fb.setUp g) g u.key n old) :
    ((updateAct fn a b o s).cell s.nodeTurn.1).fb.at n = some (updEntry fn g.isInt (o.getLsbD 4) old u) ∧
      (∀ k, k ≠ n → ((updateAct fn a b o s).cell s.nodeTurn.1).fb.at k = (here s).fb.at k) ∧ (updateAct fn a b o s).mem = s.mem := by
  rw [updateAct_writes fn hgeo hact hu hroom hold, State.modFb_fb]
  refine ⟨?_, fun k hk => ?_, ?_⟩
  · rw [Fretboard.write_at, if_pos rfl]
  · rw [Fretboard.write_at, if_neg hk]
    rfl
  · exact State.mem_of_store ((State.modCell_store ..).trans (State.consume_store ..))

end

end Sys2Proof.Machine
end

section
open Sys2Proof.Cert
namespace Sys2Proof.Machine

/-! ### Lookups (R222) -/

theorem kvPayload_eq (key : Word64) (value : Word32) (wsum : BitVec 24) : kvPayload key.toNat value.toNat wsum.toNat =
    BitVec.ofNat 512 (key.toNat + value.toNat * 2 ^ 64 + wsum.toNat * 2 ^ 96) := by
  have hw : wsum.toNat < 2 ^ 32 := wsum.isLt.trans (by decide)
  rw [kvPayload, Nat.mod_eq_of_lt key.isLt, Nat.mod_eq_of_lt value.isLt, Nat.mod_eq_of_lt hw]

section
variable {s : State} {a b : BitVec 6} {m : BitVec 2} {o : BitVec 8} {u : Item} {g : Geo} (hgeo : (here s).geo = some g)
include hgeo

/-- A lookup gives a hit's value and weight sum to target A, and passes its record to target B where it hits nothing (R222). -/
theorem execAlook_looks (h : ready s (usedPos [0] m) a b) (hu : at_ s 0 = some u) :
    (∀ n e, (here s).fb.probe g u.key = .hit n e → exec (.alook a b m o) s = .next (fired s (usedPos [0] m) [(a,
      { u with v0 := BitVec.ofNat 512 (u.key.toNat + e.value.toNat * 2 ^ 64 + e.wsum.toNat * 2 ^ 96) })])) ∧
    ((∀ n e, (here s).fb.probe g u.key ≠ .hit n e) → exec (.alook a b m o) s = .next (fired s (usedPos [0] m) [(b, u)])) := by
  have ha : ((here s).operands s.nodeTurn.2 (usedPos [0] m)).a = some u := (operands_a (by simp)).trans hu
  have hgeo : (s.cell s.nodeTurn.1).geo = some g := hgeo
  have hfb : (s.cell s.nodeTurn.1).fb = (here s).fb := rfl
  rw [show exec (.alook a b m o) s = execAlook a b m o s from rfl, execAlook, show usedPos [posA] m = usedPos [0] m from rfl,
    nodeAct_ready h, ha]
  dsimp only
  rw [hgeo]
  dsimp only
  rw [hfb]
  refine ⟨fun n e he => ?_, fun hn => ?_⟩
  · rw [he, ← kvPayload_eq]
    rfl
  · cases hp : (here s).fb.probe g u.key with
    | hit n e => exact absurd hp (hn n e)
    | free n => rfl
    | full => rfl

end

/-! ### Drains, spills and clears (R223, R224) -/

/-- The state with another next serial number. -/
def State.withFresh (s : State) (n : Nat) : State := { s with fresh := n }

@[simp] theorem State.withFresh_cell (s : State) (n : Nat) (c : CellId) : (s.withFresh n).cell c = s.cell c := rfl
@[simp] theorem State.withFresh_store (s : State) (n : Nat) : (s.withFresh n).store = s.store := rfl

section
variable {s : State} {a b : BitVec 6} {m : BitVec 2} {o : BitVec 8} {u : Item}

/-- A DATA trigger at a node that it drives (R223, R224). -/
theorem triggerAct_data (hact : mayAct s) (hu : dataAt s 3 u) (hroom : roomFor s [3] a b) (hgeo : (here s).geo.isSome = true)
    {fires : BitVec 4 → Bool} (hfires : fires 0 = true) (act : CellId → Cell → Option Item → State → List (BitVec 6 × Item) × State) :
    triggerAct a b fires act s =
      (act s.nodeTurn.1 (here s) (some u) (s.consume s.nodeTurn.1 s.nodeTurn.2 [3])).2.deliverAll s.nodeTurn.1 s.nodeTurn.2
        (act s.nodeTurn.1 (here s) (some u) (s.consume s.nodeTurn.1 s.nodeTurn.2 [3])).1 := by
  have hc : (here s).cHead s.nodeTurn.2 = .unit u := by
    unfold Cell.cHead
    rw [show (here s).valueAt s.nodeTurn.2 posC = some u from hu.1]
  have hfree : [a, b].all ((here s).targetFree s.nodeTurn.2 [posC]) = true := targets_free hroom
  have hnone : (here s).geo.isNone = false := by simpa using hgeo
  rw [triggerAct, atNode_mayAct hact]
  simp only [hc, hfree, badToken_data hu.2, hu.2, hfires, hnone, isData_of_kind hu.2, Bool.not_true, Bool.false_eq_true, if_false, if_true]
  rfl

variable (hact : mayAct s) (hu : dataAt s 3 u) (hroom : roomFor s [3] a b) (hgeo : (here s).geo.isSome = true)
include hact hu hroom hgeo

/-- A clear empties the table and its loss count (R224). -/
theorem execAclr_clears : ∃ t, exec (.aclr a b m o) s = .next t ∧ (t.cell s.nodeTurn.1).fb.entries = [] ∧
    (t.cell s.nodeTurn.1).fb.loss = 0 ∧ t.mem = s.mem := by
  refine ⟨_, congrArg Host.Outcome.next (triggerAct_data hact hu hroom hgeo rfl _), ?_, ?_, ?_⟩
  · rw [State.deliverAll_fb, State.modFb_fb]
    rfl
  · rw [State.deliverAll_fb, State.modFb_fb]
    rfl
  · exact State.mem_of_store ((State.deliverAll_store ..).trans ((State.modCell_store ..).trans (State.consume_store ..)))

/-- A spill sends out its records, which take new serial numbers, and empties the table (R224). -/
theorem execAspill_eq : ∃ n l, exec (.aspill a b m o) s = .next ((((s.consume s.nodeTurn.1 s.nodeTurn.2 [3]).withFresh n).modFb s.nodeTurn.1
    (fun f => { f with entries := [] })).deliverAll s.nodeTurn.1 s.nodeTurn.2 l) :=
  ⟨_, _, congrArg Host.Outcome.next (triggerAct_data hact hu hroom hgeo rfl _)⟩

theorem execAspill_spills : ∃ t, exec (.aspill a b m o) s = .next t ∧ (t.cell s.nodeTurn.1).fb.entries = [] ∧
    (t.cell s.nodeTurn.1).fb.loss = (here s).fb.loss ∧ t.mem = s.mem := by
  obtain ⟨n, l, he⟩ := execAspill_eq (m := m) (o := o) hact hu hroom hgeo
  refine ⟨_, he, ?_, ?_, ?_⟩
  · rw [State.deliverAll_fb, State.modFb_fb]
  · rw [State.deliverAll_fb, State.modFb_fb, State.withFresh_cell, State.consume_fb]
    rfl
  · refine State.mem_of_store ?_
    rw [State.deliverAll_store, State.modFb, State.modCell_store, State.withFresh_store, State.consume_store]

/-- A drain emits the table, and clears it unless its word keeps it (R223). -/
theorem execAdrain_drains (hdata : o.getLsbD 0 = true) : ∃ t, exec (.adrain a b m o) s = .next t ∧ t.mem = s.mem ∧
    (t.cell s.nodeTurn.1).fb.entries = (if o.getLsbD 4 then (here s).fb.entries else []) ∧
    t = ((if o.getLsbD 4 then s.consume s.nodeTurn.1 s.nodeTurn.2 [3]
      else (s.consume s.nodeTurn.1 s.nodeTurn.2 [3]).modFb s.nodeTurn.1 Fretboard.clear).deliverAll s.nodeTurn.1 s.nodeTurn.2
        (both a b (drainOut (here s).fb s.nodeTurn.1 u.tag.nest u.inv))) := by
  have hfires : drainSelects o 0 = true := by simp [drainSelects, hdata, kData]
  refine ⟨_, congrArg Host.Outcome.next (triggerAct_data hact hu hroom hgeo hfires _), ?_, ?_, rfl⟩
  · refine State.mem_of_store ((State.deliverAll_store ..).trans ?_)
    dsimp only
    split
    · exact State.consume_store ..
    · exact (State.modCell_store ..).trans (State.consume_store ..)
  · rw [State.deliverAll_fb]
    dsimp only
    split
    · exact congrArg Fretboard.entries (s.consume_fb ..)
    · rw [State.modFb_fb]
      rfl

end

/-! ### Windows (R181 to R183) -/

section
variable {s : State} {a b : BitVec 6} {o : BitVec 8} {u : Item} {p : WinPar}

/-- A window node takes a record into its line and emits what closes (R182, R183). -/
theorem windowAct_takes (flush : Bool) (hp : winPar (s.elemFmt s.nodeTurn.1 s.nodeTurn.2) (par s (o.toNat % 16)) = some p)
    (hact : mayAct s) (hu : dataAt s 0 u) (hroom : roomFor s [0] a b)
    (hvec : u.v1.isSome = true → vectorBad (s.elemFmt s.nodeTurn.1 s.nodeTurn.2) u = false) {x : List Item × WinSt}
    (hx : x = (WinSt.of (held s)).push (s.elemFmt s.nodeTurn.1 s.nodeTurn.2) p s.nodeTurn.1 u) :
    windowAct flush a b o s = firedWith s [0] (.window x.2.line x.2.base x.2.marks) (both a b x.1) := by
  have ha : (here s).valueAt s.nodeTurn.2 posA = some u := hu.1
  have hfree : [a, b].all ((here s).targetFree s.nodeTurn.2 [posA]) = true := targets_free hroom
  have hprm : ((here s).prm (bits o 0 4).toNat).getD 0 = par s (o.toNat % 16) := by
    rw [bits_low_toNat]
    rfl
  have hok : (u.v1.isSome && vectorBad (s.elemFmt s.nodeTurn.1 s.nodeTurn.2) u) = false := by
    cases hv : u.v1.isSome
    · rfl
    · exact hvec hv
  rw [windowAct, atNode_mayAct hact, hx]
  simp only [ha, badToken_data hu.2, hfree, hprm, hp, isData_of_kind hu.2, hok, Bool.true_and, Bool.not_true, Bool.false_eq_true, if_false,
    if_true]
  rfl

theorem push_line_length (w : WinSt) (f : Fmt) (p : WinPar) (c : CellId) (u : Item) : (w.push f p c u).2.line.length ≤ p.span := by
  have hline : (w.push f p c u).2.line = (w.line ++ [u]).drop ((w.line ++ [u]).length - p.span) := by
    unfold WinSt.push
    dsimp only
    split <;> rfl
  rw [hline, List.length_drop]
  omega

/-- A window of one record that lists its members emits the record and its EOD (R182, R320). -/
theorem push_single {p : WinPar} (hh : p.h = 1) (hop : p.op = 4) (f : Fmt) (c : CellId) (u : Item) :
    (WinSt.push ⟨[], 0, []⟩ f p c u).1 = [u, eodItem 0 u.inv] := by
  have hspan : p.span = 1 := by rw [WinPar.span, hh, Nat.sub_self, Nat.zero_mul]
  have hmem : WinSt.members ⟨[u], 0, []⟩ p 0 = [u] := by simp [WinSt.members, hh, WinSt.at, List.range_succ]
  have hpush : WinSt.push ⟨[], 0, []⟩ f p c u = WinSt.close ⟨[u], 0, []⟩ f p c 0 := by
    simp [WinSt.push, WinSt.count, hspan, hh]
  rw [hpush, WinSt.close, hmem]
  simp [windowOut, hop, sumMarks]

end

/-- Settles O37: a reorder cell by its record's distance from NEXT, an update by what its probe finds, a trigger by what it leaves of the table,
and a window by its line. -/
theorem recordNodes : Obligations.RecordNodes := by
  intro s a b m o u j c
  refine ⟨?_, ?_, ?_, ?_, ?_⟩
  · intro i hi next hact hu h3 hroom hw hheld d
    have he := exec_reorder hi hact hu h3 hroom hw
    have hW : 2 ^ ((par s j).toNat % 16) ≤ 2 ^ 9 := Nat.pow_le_pow_right Nat.two_pos hw
    rw [reorderOf_eq hheld] at he
    refine ⟨fun hd => ?_, fun h0 hd => ?_, fun hd => ?_⟩
    · rw [he, take_inOrder c hu.2 hW (Nat.two_pow_pos _) hd]
      rfl
    · rw [he, take_ahead c hu.2 hW h0 hd]
      rfl
    · rw [he, take_behind c hu.2 hd]
      rfl
  · intro g hgeo hact hu hroom hint hmul f0 did
    have hf0 : f0 = (here s).fb.setUp g := by rw [Fretboard.setUp, hint]
    have hdid (i : Instr) (fn : UpdFn) (hi : exec i s = .next (updateAct fn a b o s)) {n : Nat} {old : Option FbEntry}
        (hold : Finds f0 g u.key n old) {val wsum : Nat} (hkey : (updEntry fn true false old u).key = u.key)
        (hval : (updEntry fn true false old u).value.toNat = val)
        (hwsum : (updEntry fn true false old u).wsum.toNat = min wsum 0xFFFFFF) : did i n val wsum := by
      obtain ⟨hat, hother, hmem⟩ := updateAct_leaves fn hgeo hact hu hroom (hf0 ▸ hold)
      rw [hint, hmul] at hat
      exact ⟨_, hi, ⟨_, hat, hkey, hval, hwsum⟩, hother, hmem⟩
    refine ⟨fun n hn => ?_, ?_⟩
    · have hfree (i : Instr) (fn : UpdFn) (hi : exec i s = .next (updateAct fn a b o s)) :
          did i n u.value.toNat u.tag.weight.toNat := by
        obtain ⟨hkey, hval, hwsum⟩ := updEntry_free u fn
        exact hdid i fn hi (.free hn) hkey hval hwsum
      exact ⟨hfree _ .add rfl, hfree _ .max rfl, hfree _ .min rfl⟩
    · intro n e hn x y w
      have hhit (i : Instr) (fn : UpdFn) (hi : exec i s = .next (updateAct fn a b o s)) {v : Nat}
          (hv : (updHit fn true e.value.toNat u.value.toNat).1 = v) (hlt : v < 2 ^ 32) : did i n v w := by
        obtain ⟨hkey, hval, hwsum⟩ := updEntry_hit e u fn hv hlt
        exact hdid i fn hi (.hit hn) (hkey.trans (probe_hit_key hn)) hval hwsum
      refine ⟨hhit _ .add rfl (updHit_add ..) ?_, hhit _ .max rfl (updHit_max ..) ?_, hhit _ .min rfl (updHit_min ..) ?_⟩
      · rw [intLane_eq_ofSigned]
        exact ofSigned_lt 32 _
      · split
        · exact u.value.isLt
        · exact e.value.isLt
      · split
        · exact u.value.isLt
        · exact e.value.isLt
  · intro g hgeo h hu
    exact execAlook_looks hgeo h hu
  · intro hact hu hroom hgeo
    exact ⟨execAclr_clears hact hu hroom hgeo, execAspill_spills hact hu hroom hgeo, execAdrain_drains hact hu hroom hgeo⟩
  · intro p hp hact hu hroom hvec x did
    refine ⟨congrArg Host.Outcome.next (windowAct_takes false hp hact hu hroom hvec rfl),
      congrArg Host.Outcome.next (windowAct_takes true hp hact hu hroom hvec rfl), fun hh hop hidle => ?_, push_line_length ..⟩
    rw [show x = (WinSt.of (held s)).push (s.elemFmt c s.nodeTurn.2) p c u from rfl, hidle]
    exact push_single hh hop _ c u

end Sys2Proof.Machine
end

section
namespace Sys2Proof.Machine

/-! ### Requests in flight and the gear of cells, while nodes take in and give out values -/

/-- What values taken in, results given out and faults leave of a cell: its configuration, address generators and memport. -/
def Cell.gear (x : Cell) := (x.active, x.ag, x.mp)

/-- What they leave of a state: memory, the requests in flight, and the gear of every cell. -/
def State.gear (s : State) := (s.store, s.pend, fun b => (s.cell b).gear)

theorem State.gear_eq {s t : State} (hst : t.store = s.store) (hp : t.pend = s.pend) (hc : ∀ b, (t.cell b).gear = (s.cell b).gear) :
    t.gear = s.gear := by
  simp only [State.gear, hst, hp, hc]

section
variable {s t : State} (h : t.gear = s.gear)
include h

theorem State.mem_of_gear : t.mem = s.mem := State.mem_of_store (congrArg Prod.fst h)
theorem State.pend_of_gear : t.pend = s.pend := congrArg (fun z => z.2.1) h

theorem State.cell_of_gear (c : CellId) : (t.cell c).gear = (s.cell c).gear := congrFun (congrArg (fun z => z.2.2) h) c

theorem State.active_of_gear (c : CellId) : (t.cell c).active = (s.cell c).active := congrArg Prod.fst (State.cell_of_gear h c)
theorem State.ag_of_gear (c : CellId) : (t.cell c).ag = (s.cell c).ag := congrArg (fun z => z.2.1) (State.cell_of_gear h c)
theorem State.mp_of_gear (c : CellId) : (t.cell c).mp = (s.cell c).mp := congrArg (fun z => z.2.2) (State.cell_of_gear h c)

end

theorem State.gear_of_steady {s t : State} (h : t.steady = s.steady) (hp : t.pend = s.pend) : t.gear = s.gear :=
  State.gear_eq (congrArg Prod.fst h) hp
    fun b => show (t.cell b).steady.gear = (s.cell b).steady.gear by rw [State.cell_steady_of h b]

theorem State.setCell_gear {s : State} {c : CellId} {v : Cell} (h : v.gear = (s.cell c).gear) : (s.setCell c v).gear = s.gear := by
  refine State.gear_eq rfl rfl fun b => ?_
  rw [State.setCell_cell]
  split
  · next hb => rw [hb]; exact h
  · rfl

theorem State.modCell_gear (s : State) (c : CellId) {f : Cell → Cell} (h : ∀ x, (f x).gear = x.gear) : (s.modCell c f).gear = s.gear :=
  State.setCell_gear (h _)

@[simp] theorem State.setDie_gear (s : State) (d : BitVec 3) (v : Die) : (s.setDie d v).gear = s.gear := rfl
@[simp] theorem State.modDie_gear (s : State) (d : BitVec 3) (f : Die → Die) : (s.modDie d f).gear = s.gear := rfl
@[simp] theorem State.setSeq_gear (s : State) (q : BitVec 7) (v : Seq) : (s.setSeq q v).gear = s.gear := rfl
@[simp] theorem State.modRegion_gear (s : State) (n : Nat) (f : Region → Region) : (s.modRegion n f).gear = s.gear := rfl
@[simp] theorem State.freshNat_gear (s : State) : s.freshNat.2.gear = s.gear := rfl
@[simp] theorem State.sendPulse_gear (s : State) (c : CellId) (po : BitVec 3) (kind : BitVec 2) : (s.sendPulse c po kind).gear = s.gear := rfl

/-! #### Faults -/

@[simp] theorem State.demote_pend (s : State) (r : Region) : (s.demote r).pend = s.pend := by
  unfold State.demote
  split <;> rfl

@[simp] theorem State.event_pend (s : State) (d : BitVec 3) (typ : BitVec 8) (ctx : BitVec 9) (x y z : Word64) :
    (s.event d typ ctx x y z).pend = s.pend := rfl

@[simp] theorem State.moveCtx_pend (s : State) (d : BitVec 3) (n : BitVec 9) (f : Ctx → Ctx) : (s.moveCtx d n f).pend = s.pend := by
  unfold State.moveCtx
  dsimp only
  split <;> rfl

@[simp] theorem State.abandonCut_pend (s : State) (r : Region) : (s.abandonCut r).pend = s.pend := by
  unfold State.abandonCut
  split
  · rfl
  · dsimp only
    split <;> rfl

@[simp] theorem State.abandonPreempt_pend (s : State) (r : Region) : (s.abandonPreempt r).pend = s.pend := by
  unfold State.abandonPreempt
  split
  · exact foldl_keeps State.pend (fun s r => s.abandonCut_pend r) _ s
  · rfl

@[simp] theorem State.freezeIfStopped_pend (s : State) (n : Nat) : (s.freezeIfStopped n).pend = s.pend := by
  unfold State.freezeIfStopped
  split
  · rfl
  · split
    · simp only [State.event_pend, State.modDie_pend, State.moveCtx_pend, State.abandonPreempt_pend, State.setRegion_pend, State.modSeq_pend]
      split <;> rfl
    · rfl

/-- A fault stops cells and freezes queues (R389): it leaves the gear of every cell. -/
@[simp] theorem State.raiseFault_gear (s : State) (c : CellId) (f : FaultReg) : (s.raiseFault c f).gear = s.gear := by
  unfold State.raiseFault
  split
  · exact State.setCell_gear rfl
  · next r _ =>
    dsimp only
    have h0 (p : Bool) : (if p then s.demote r else s).gear = s.gear := by
      split
      · exact State.gear_of_steady (s.demote_steady r) (s.demote_pend r)
      · rfl
    generalize hp : (!(s.cell c).fault.valid && s.isPrimary r c) = p
    have h1 (v : Cell) (hv : v.gear = (s.cell c).gear) : ((if p then s.demote r else s).setCell c v).gear = s.gear :=
      (State.setCell_gear (hv.trans (State.cell_of_gear (h0 p) c).symm)).trans (h0 p)
    split
    · exact h1 _ (by split <;> rfl)
    · exact (State.gear_of_steady (State.freezeIfStopped_steady _ _) (State.freezeIfStopped_pend _ _)).trans (h1 _ (by split <;> rfl))

/-! #### Values taken in -/

@[simp] theorem State.newHead_gear (s : State) (c : CellId) (k : BitVec 3) (before : Option Item) : (s.newHead c k before).gear = s.gear := by
  unfold State.newHead
  split
  · split
    · exact s.raiseFault_gear c _
    · rfl
  · rfl

@[simp] theorem State.popQ_gear (s : State) (c : CellId) (k : BitVec 3) : (s.popQ c k).gear = s.gear := by
  unfold State.popQ
  dsimp only
  rw [State.newHead_gear]
  split
  · exact (State.sendPulse_gear ..).trans (s.modCell_gear c fun _ => rfl)
  · exact s.modCell_gear c fun _ => rfl

@[simp] theorem State.takeTrigger_gear (s : State) (c : CellId) (k : BitVec 3) (p : Nat) : (s.takeTrigger c k p).gear = s.gear := by
  unfold State.takeTrigger
  split
  · rfl
  · refine s.modCell_gear c fun x => ?_
    split <;> rfl

@[simp] theorem State.take_gear (s : State) (c : CellId) (k : BitVec 3) (p : Nat) : (s.take c k p).gear = s.gear := by
  unfold State.take
  dsimp only
  split
  · split <;> simp
  · split
    · exact s.modCell_gear c fun _ => rfl
    · exact s.takeTrigger_gear c k p

@[simp] theorem State.consume_gear (s : State) (c : CellId) (k : BitVec 3) (used : List Nat) : (s.consume c k used).gear = s.gear := by
  refine Eq.trans ?_ (foldl_keeps State.gear (fun s p => s.take_gear c k p) used s)
  exact State.modCell_gear _ c fun _ => rfl

@[simp] theorem State.consumeTokens_gear (s : State) (c : CellId) (k : BitVec 3) (used : List Nat) :
    (s.consumeTokens c k used).gear = s.gear := s.consume_gear c k _

/-! #### Results given out -/

@[simp] theorem State.onLink_gear (s : State) (c : CellId) (l : LinkEntry) (u : Item) : (s.onLink c l u).gear = s.gear := by
  unfold State.onLink
  dsimp only
  split <;> rfl

@[simp] theorem State.xlateEngine_gear (s : State) (d : BitVec 3) (ctx : BitVec 9) (right : Right) (va : Word64) :
    (s.xlateEngine d ctx right va).2.gear = s.gear := by
  unfold State.xlateEngine
  dsimp only
  split
  · rfl
  · split
    · rfl
    · split <;> rfl

theorem State.ringMiss_gear (l : List Nat) (s : State) (d : BitVec 3) (ctx : BitVec 9) (q : Queue) {f : XFault} {va : Word64} {t : State}
    (h : s.ringMiss d ctx q l = some (f, va, t)) : t.gear = s.gear := by
  induction l with
  | nil => exact nomatch h
  | cons i l ih =>
    unfold State.ringMiss at h
    split at h
    · cases h; rfl
    · cases h; rfl
    · next heq => cases h; rw [← s.xlateEngine_gear d ctx .rw (q.ringVa i), heq]
    · exact ih h

@[simp] theorem State.offerOut_gear (s : State) (q : BitVec 7) (p : BitVec 6) (u : Item) : (s.offerOut q p u).gear = s.gear := by
  unfold State.offerOut
  dsimp only
  split
  · rfl
  · split
    · rfl
    · split
      · rfl
      · next hm =>
        obtain ⟨⟨f, va, t⟩, hm, hf⟩ := Option.bind_eq_some_iff.mp hm
        obtain ⟨code, -, hc⟩ := Option.map_eq_some_iff.mp hf
        cases hc
        exact (State.raiseFault_gear _ _ _).trans ((State.ringMiss_gear _ _ _ _ _ hm).trans (State.setSeq_gear ..))
      · exact State.raiseFault_gear _ _ _
      · rfl

@[simp] theorem State.leaveBy_gear (s : State) (c : CellId) (so : BitVec 5) (u : Item) : (s.leaveBy c so u).gear = s.gear := by
  have h := foldl_keeps State.gear (fun s l => s.onLink_gear c l u) ((s.cell c).active.links.filter (fun l => l.so = so)) s
  unfold State.leaveBy
  dsimp only
  split
  · exact (State.offerOut_gear _ _ _ _).trans h
  · exact h

@[simp] theorem State.emitOutlet_gear (s : State) (c : CellId) (so : BitVec 5) (u : Item) : (s.emitOutlet c so u).gear = s.gear := by
  unfold State.emitOutlet
  split
  · exact s.leaveBy_gear c so u
  · split
    · exact s.modCell_gear c fun _ => rfl
    · exact foldl_keeps State.gear (fun s o => s.leaveBy_gear c o u) _ s

@[simp] theorem State.deliver_gear (s : State) (c : CellId) (t : BitVec 6) (u : Item) : (s.deliver c t u).gear = s.gear := by
  unfold State.deliver
  split
  · rfl
  · exact s.modCell_gear c fun _ => rfl
  · exact s.emitOutlet_gear c _ u

@[simp] theorem State.deliverAll_gear (l : List (BitVec 6 × Item)) (s : State) (c : CellId) (k : BitVec 3) :
    (s.deliverAll c k l).gear = s.gear := by
  induction l generalizing s with
  | nil => rfl
  | cons p l ih =>
    obtain ⟨t, u⟩ := p
    unfold State.deliverAll
    split
    · exact (ih _).trans (s.deliver_gear c t u)
    · exact s.modCell_gear c fun _ => rfl

@[simp] theorem State.passEot_gear (s : State) (c : CellId) (k : BitVec 3) (is : List Inv) : (s.passEot c k is).gear = s.gear := by
  refine foldl_keeps State.gear (fun s i => ?_) is (s.sendPulse c k 1)
  unfold State.passSink
  split <;> rfl

@[simp] theorem State.latchPins_gear (s : State) (c : CellId) : (s.latchPins c).gear = s.gear := State.setCell_gear rfl

end Sys2Proof.Machine
end

section
open Sys2Proof.Cert
namespace Sys2Proof.Machine

/-! ### What a memport's translation changes (R206, R327) -/

/-- A translation fills or drops cached translations of its die, and changes nothing else. -/
theorem State.xlateMp_fills (s : State) (c : CellId) (right : Right) (peerOk : Bool) (va : Word64) :
    ∃ f, (s.xlateMp c right peerOk va).2 = s.modDie c.die f := by
  have same (r : Except XFault Xlated) : ∃ f, (r, s).2 = s.modDie c.die f := ⟨id, by simp [State.modDie, State.setDie, State.die]⟩
  have fills (r : Except XFault Xlated) (f : Die → Die) : ∃ g, (r, s.modDie c.die f).2 = s.modDie c.die g := ⟨f, rfl⟩
  unfold State.xlateMp
  dsimp only
  split
  · exact same _
  · split
    · split
      · split
        · exact fills _ _
        · exact same _
      · exact fills _ _
    · split
      · exact same _
      · exact same _
      · split
        · exact fills _ _
        · split
          · split
            · exact fills _ _
            · exact fills _ _
          · exact fills _ _

@[simp] theorem State.countFlits_gear (s : State) (c : CellId) (n : Nat) : (s.countFlits c n).gear = s.gear := by
  unfold State.countFlits
  split
  · rfl
  · split <;> rfl

@[simp] theorem State.countFlits_cell (s : State) (c : CellId) (n : Nat) (b : CellId) : (s.countFlits c n).cell b = s.cell b := by
  unfold State.countFlits
  split
  · rfl
  · split <;> rfl

section
variable {s s1 : State} {c : CellId} {right : Right} {peerOk : Bool} {va : Word64}

theorem State.gear_of_xlateMp {r : Except XFault Xlated} (h : s.xlateMp c right peerOk va = (r, s1)) : s1.gear = s.gear := by
  obtain ⟨f, hf⟩ := s.xlateMp_fills c right peerOk va
  rw [h] at hf
  rw [show s1 = s.modDie c.die f from hf, State.modDie_gear]

theorem State.cell_of_xlateMp {r : Except XFault Xlated} (h : s.xlateMp c right peerOk va = (r, s1)) (b : CellId) :
    s1.cell b = s.cell b := by
  obtain ⟨f, hf⟩ := s.xlateMp_fills c right peerOk va
  rw [h] at hf
  rw [show s1 = s.modDie c.die f from hf, State.modDie_cell]

/-- A line lies in one page (R325). -/
theorem State.xlateSpan_line {x : Xlated} (hal : va.toNat % 64 = 0) (hx : s.xlateMp c right peerOk va = (.ok x, s1)) :
    s.xlateSpan c right peerOk va 64 = (.ok [(0, 64, x)], s1) := by
  have hfit : min 64 (4096 - va.toNat % 4096) = 64 := by omega
  unfold State.xlateSpan
  rw [hx]
  dsimp only
  rw [hfit, if_pos rfl]

end

/-! ### The turn of a memport node over DATA (R21, R24, R164) -/

section
variable {s : State} {a b : BitVec 6}

theorem mpFree_of_room {used : List Nat} (hroom : roomFor s used a b) (hnone : noneOwed s a b) :
    (here s).mpFree s.nodeTurn.2 used [a, b] = true := by
  refine List.all_eq_true.mpr fun t ht => Bool.and_eq_true_iff.mpr ⟨List.all_eq_true.mp (targets_free hroom) t ht, ?_⟩
  split
  · next k p hl => exact List.all_eq_true.mpr fun o ho => bne_iff_ne.mpr (hnone t ht k p hl o ho)
  · rfl

/-- A memport that is not full does not hide the head of position a. -/
theorem headsBut_of_free {x : Cell} {fn : MpFn} (hfree : x.mp.full fn = false) (k : BitVec 3) (used : List Nat) :
    x.headsBut k used (fun p => x.mp.full fn && p == posA) = x.heads k used := by
  rw [hfree]
  rfl

theorem mpAct_ready {fn : MpFn} {base : List Nat} {m : BitVec 2} (h : ready s (usedPos base m) a b) (hnone : noneOwed s a b)
    (hfree : (here s).mp.full fn = false) (fire : CellId → BitVec 3 → Cell → Operands → State → State) :
    s.mpAct fn base a b m fire =
      fire s.nodeTurn.1 s.nodeTurn.2 (here s) ((here s).operands s.nodeTurn.2 (usedPos base m)) s := by
  obtain ⟨hact, hdata, hroom⟩ := h
  rw [State.mpAct, atNode_mayAct hact, headsBut_of_free hfree, Cell.heads_data hdata]
  exact if_pos (mpFree_of_room hroom hnone)

end

/-! ### Reads (R201, R202) -/

/-- The result that a memport owes for a read of one line, with the held bytes that lie over it (R202). -/
def Memport.lineOut (m : Memport) (k : BitVec 3) (v : Item) (x : Xlated) (va ivec : Word64) (id : Nat) : MpOut :=
  { slot := k, item := v, token := false, form := .record, va := va, ivec := ivec, heldBytes := m.heldIn x.pa 64, parts := 1, got := [],
    poison := false, id := id }

/-- A read of one line takes its place among the results, and its request goes to the slice. -/
theorem State.mpRead_places (s : State) (c : CellId) (k : BitVec 3) (used : List Nat) (u : Item) (va ivec : Word64) (x : Xlated) :
    let t := s.mpRead c k used u .record va ivec [(0, 64, x)]
    let v := u.withInvs ((s.cell c).invsAt k used)
    t.mem = s.mem ∧ (t.cell c).mp.outs = (s.cell c).mp.outs ++ [(s.cell c).mp.lineOut k v x va ivec s.fresh] ∧
      ∃ req : SliceReq, t.pend = s.pend ++ [req] ∧ req.write = false ∧ req.pa = x.pa ∧ req.len = 64 ∧ req.key = x.key ∧
        req.src = .cell c ∧ req.id = s.fresh := by
  have hg : (s.freshNat.2.consume c k used).gear = s.gear := State.consume_gear ..
  refine ⟨(State.mem_of_gear (State.countFlits_gear ..)).trans ((State.modCell_mem ..).trans (State.mem_of_gear hg)), ?_, _,
    congrArg (· ++ _) (State.pend_of_gear hg), rfl, rfl, rfl, rfl, rfl, rfl⟩
  show ((State.countFlits _ c 1).cell c).mp.outs = _
  rw [State.countFlits_cell, State.modCell_cell_self, ← State.mp_of_gear hg c, Memport.lineOut, ← List.append_nil (Memport.heldIn _ _ _)]
  rfl

theorem bits_low64_eq_setWidth {w : Nat} (v : BitVec w) : bits v 0 64 = v.setWidth 64 :=
  BitVec.eq_of_toNat_eq (by rw [bits_toNat, BitVec.toNat_setWidth, Nat.pow_zero, Nat.div_one])

theorem State.mpTryRead_line {s s1 : State} {c : CellId} {va : Word64} {peerOk : Bool} {x : Xlated} (hal : va.toNat % 64 = 0)
    (hx : s.xlateMp c .r peerOk va = (.ok x, s1)) (k : BitVec 3) (used : List Nat) (u : Item) (form : ReadForm) (ivec : Word64) :
    s.mpTryRead c k used u form va ivec 64 64 peerOk = s1.mpRead c k used u form va ivec [(0, 64, x)] := by
  rw [State.mpTryRead, if_neg (not_not_intro hal), State.xlateSpan_line hal hx]

section
variable {s s1 : State} {a b : BitVec 6} {m : BitVec 2} (o : BitVec 8) {u : Item} {x : Xlated} (h : ready s (usedPos [0] m) a b)
  (hnone : noneOwed s a b) (hu : at_ s 0 = some u) (hunit : (port s).unit = 0) (hsp : (port s).sp24 = false)
  (hal : (u.v0.setWidth 64 : Word64).toNat % 64 = 0) (hreads : (here s).mp.reads < 64) (hacq : (here s).mp.acquires = [])
  (hsuits : suits (here s) [a, b] false = true)
include h hnone hu hunit hsp hal hreads hacq hsuits

theorem execMrd_reads (hx : s.xlateMp s.nodeTurn.1 .r true (u.v0.setWidth 64) = (.ok x, s1)) :
    exec (.mrd a b m o) s = .next (s1.mpRead s.nodeTurn.1 s.nodeTurn.2 (usedPos [0] m) u .record (u.v0.setWidth 64) (bits u.v0 64 64)
      [(0, 64, x)]) := by
  have ha : ((here s).operands s.nodeTurn.2 (usedPos [posA] m)).a = some u := (operands_a (by simp [posA])).trans hu
  have hmay : (here s).mp.mayRead = true := by simp [Memport.mayRead, hreads, hacq]
  have hport : (here s).mpPar s.nodeTurn.2 = port s := rfl
  rw [show exec (.mrd a b m o) s = execMrd a b m o s from rfl, execMrd,
    mpAct_ready (base := [posA]) h hnone (by simpa [Memport.full] using hreads), ha]
  simp only [hport, hmay, hunit, hsp]
  rw [bits_low64_eq_setWidth, State.mpTryRead_line hal hx]
  simp [hsuits, posA]

theorem execMgat_reads (hx : s.xlateMp s.nodeTurn.1 .r false (u.v0.setWidth 64) = (.ok x, s1)) :
    exec (.mgat a b m o) s = .next (s1.mpRead s.nodeTurn.1 s.nodeTurn.2 (usedPos [0] m) u .record (u.v0.setWidth 64) 0 [(0, 64, x)]) := by
  have ha : ((here s).operands s.nodeTurn.2 (usedPos [posA] m)).a = some u := (operands_a (by simp [posA])).trans hu
  have hmay : (here s).mp.mayRead = true := by simp [Memport.mayRead, hreads, hacq]
  have hport : (here s).mpPar s.nodeTurn.2 = port s := rfl
  rw [show exec (.mgat a b m o) s = execMgat a b m o s from rfl, execMgat,
    mpAct_ready (base := [posA]) h hnone (by simpa [Memport.full] using hreads), ha]
  simp only [hport, hmay, hunit, hsp]
  rw [Item.key, bits_low64_eq_setWidth, State.mpTryRead_line hal hx]
  simp [hsuits, posA]

end

end Sys2Proof.Machine
end

section
open Sys2Proof.Cert
namespace Sys2Proof.Machine

/-! ### Stores (R201, R203) -/

theorem addressed_ne_nil {bs : List Byte} (h : bs ≠ []) (pa : Nat) : addressed pa bs ≠ [] := by
  simpa [addressed] using h

theorem maskedBytes_unmasked (w n v : Nat) : maskedBytes w n (maskBit none) v = (natToBytes n v).map (fun y => (y, true)) := by
  have hlane (i : Nat) : (List.range ((8 * i + 7) / w - 8 * i / w + 1)).any (fun j => maskBit none (8 * i / w + j)) = true :=
    List.any_eq_true.mpr ⟨0, by simp, rfl⟩
  unfold maskedBytes
  simp only [hlane]
  exact List.ext_getElem (by simp) fun i h1 h2 => by simp

/-- The bytes of a store that no mask covers, with their addresses. -/
theorem written_unmasked (pa : Nat) (bs : List Byte) :
    ((bs.map (fun y => (y, true))).mapIdx (fun i z => (pa + i, z))).filterMap (fun z => if z.2.2 then some (z.1, z.2.1) else none) =
      addressed pa bs := by
  induction bs generalizing pa with
  | nil => rfl
  | cons b bs ih =>
    have hstep (i : Nat) (z : Byte × Bool) : (pa + (i + 1), z) = (pa + 1 + i, z) := by rw [Nat.add_assoc, Nat.add_comm 1]
    simp only [List.map_cons, List.mapIdx_cons, List.filterMap_cons, addressed, hstep, ih]
    simp [Nat.add_assoc, Nat.add_comm 1]

/-- A store put into a buffer that holds none (R203). -/
theorem Memport.hold_empty {m : Memport} {h : HeldStore} (he : m.held = []) (hb : h.bytes ≠ []) : m.hold h = { m with held := [h] } := by
  simp [Memport.hold, he, hb]

/-- What is left where a node has taken in its values and its memport has become `m`. -/
theorem consume_setMp {s s1 : State} (hg : s1.gear = s.gear) (c : CellId) (k : BitVec 3) (used : List Nat) (m : Memport) :
    let t := (s1.consume c k used).modCell c (fun z => { z with mp := m })
    t.mem = s.mem ∧ t.pend = s.pend ∧ (t.cell c).mp = m := by
  have hc := (s1.consume_gear c k used).trans hg
  exact ⟨(State.modCell_mem ..).trans (State.mem_of_gear hc), (State.modCell_pend ..).trans (State.pend_of_gear hc),
    congrArg Cell.mp (State.modCell_cell_self ..)⟩

section
variable {s s1 : State} {a b : BitVec 6} {m : BitVec 2} (o : BitVec 8) {u d : Item} {x : Xlated} (h : ready s (usedPos [0, 1] m) a b)
  (hnone : noneOwed s a b) (hu : at_ s 0 = some u) (hd : at_ s 1 = some d) (hunit : (port s).unit = 0) (hsp : (port s).sp24 = false)
  (hrec : d.v1 = none) (hal : (u.v0.setWidth 64 : Word64).toNat % 64 = 0) (hmask : m.getLsbD 0 = false) (hheld : (here s).mp.held = [])
  (hx : s.xlateMp s.nodeTurn.1 .w true (u.v0.setWidth 64) = (.ok x, s1))
include h hnone hu hd hunit hsp hrec hal hmask hheld hx

/-- A record stored under no mask is held, one byte for each of its 64 (R201, R203). -/
theorem execMwr_holds : ∃ t, exec (.mwr a b m o) s = .next t ∧ t.mem = s.mem ∧ t.pend = s.pend ∧
    ∃ h : HeldStore, (t.cell s.nodeTurn.1).mp.held = [h] ∧ h.key = x.key ∧ h.va = u.v0.setWidth 64 ∧
      h.bytes = addressed x.pa (natToBytes 64 d.v0.toNat) := by
  have ha : ((here s).operands s.nodeTurn.2 (usedPos [posA, posB] m)).a = some u := (operands_a (by simp [posA])).trans hu
  have hb : ((here s).operands s.nodeTurn.2 (usedPos [posA, posB] m)).b = some d := (operands_b (by simp [posB])).trans hd
  have hp : ((here s).operands s.nodeTurn.2 (usedPos [posA, posB] m)).p = none := by
    rw [operands_p_masked (by decide), hmask]
    rfl
  have hport : (here s).mpPar s.nodeTurn.2 = port s := rfl
  have hg := State.gear_of_xlateMp hx
  rw [show exec (.mwr a b m o) s = execMwr a b m o s from rfl, execMwr, mpAct_ready (base := [posA, posB]) h hnone rfl, ha, hb]
  simp only [hport, hunit, hsp, hp, hrec]
  rw [bits_low64_eq_setWidth, maskedBytes_unmasked, if_neg (by simp), if_neg (by simp)]
  have hlen := natToBytes_length 64 d.v0.toNat
  generalize natToBytes 64 d.v0.toNat = bs at hlen ⊢
  have hne : bs ≠ [] := List.ne_nil_of_length_pos (by omega)
  simp only [if_true]
  rw [if_neg (not_not_intro hal), List.length_map, hlen, State.xlateSpan_line hal (show s.xlateMp _ _ (0 == 0) _ = _ from hx)]
  dsimp only
  generalize hm : List.foldl _ _ [(0, 64, x)] = m1
  rw [List.foldl_cons, List.foldl_nil, List.drop_zero, List.take_of_length_le (by simp [hlen]), written_unmasked,
    State.cell_of_xlateMp hx, Memport.hold_empty (m := (s.cell s.nodeTurn.1).mp) hheld (addressed_ne_nil hne _)] at hm
  subst hm
  rw [if_neg (by simp [Memport.heldSize])]
  obtain ⟨hmem, hpend, hmp⟩ := consume_setMp hg s.nodeTurn.1 s.nodeTurn.2 (usedPos [posA, posB] m) _
  exact ⟨_, rfl, hmem, hpend, _, congrArg Memport.held hmp, rfl, BitVec.add_zero _, rfl⟩

end

end Sys2Proof.Machine
end

section
open Sys2Proof.Cert
namespace Sys2Proof.Machine

/-! ### Atomics (R200, R204, R205) -/

/-- An update of no invocation needs no journal. -/
theorem journalStep_none (js : List Journal) (va : Word64) : journalStep js none va = .go false 0 js := rfl

/-- A write is counted in the current phase. -/
theorem Memport.countWrite_issued {m m0 : Memport} (hph : m.ph = m0.ph) (hi : m.issued = m0.issued) (n : Nat) :
    (m.countWrite n).issued[m0.ph.toNat] = m0.issued[m0.ph.toNat] + n := by
  simp [Memport.countWrite, hph, hi]

section
variable {s s1 : State} {c : CellId} {k : BitVec 3} {used : List Nat} {u : Item} {p : MpPar} {fetches : Bool} (ret : Bool)
  {va : Word64} (ivec operand : Word64) {y : Xlated}

/-- An atomic of no invocation, where its memport has none in flight, is put in flight and counted in its phase (R204, R306). -/
theorem State.mpAtomic_issues (hunit : p.unit = 0) (hsp : p.sp24 = false) (hop : p.op.toNat ≤ 8 ∨ (p.op.toNat = 9 ∧ p.w64 = false))
    (hatoms : (s.cell c).mp.atoms = []) (hopen : (s.cell c).mp.isOpen[(s.cell c).mp.ph.toNat] = true)
    (hacq : fetches = true → (s.cell c).mp.acquires = []) (hal : va.toNat % (if p.w64 then 8 else 4) = 0) (hinv : u.inv = none)
    (hinvs : (s.cell c).invsAt k used = []) (hx : s.xlateMp c .rw false va = (.ok y, s1)) :
    let t := s.mpAtomic c k used u p fetches ret va ivec operand
    t.mem = s.mem ∧ (t.cell c).mp.issued[(s.cell c).mp.ph.toNat] = (s.cell c).mp.issued[(s.cell c).mp.ph.toNat] + 1 ∧
      ∃ w : AtomReq, (t.cell c).mp.atoms = [w] ∧ w.pa = y.pa ∧ w.key = y.key ∧ w.op = p.op ∧ w.w64 = p.w64 ∧ w.operand = operand ∧
        w.skip = false ∧ w.ph = (s.cell c).mp.ph := by
  have hpar : ¬ (p.unit ≠ 0 ∨ 9 < p.op.toNat ∨ (p.op.toNat = 9 ∧ p.w64 = true) ∨ p.sp24 = true) := by
    rintro (h | h | ⟨h, h64⟩ | h)
    · exact h hunit
    · omega
    · obtain h8 | ⟨-, h32⟩ := hop
      · omega
      · exact absurd h64 (by simp [h32])
    · exact absurd h (by simp [hsp])
  have hwait : (decide (32 ≤ (s.cell c).mp.atoms.length) || !(s.cell c).mp.mayWrite || (fetches && !(s.cell c).mp.acquires.isEmpty)) = false := by
    cases hf : fetches with
    | false => simp [hatoms, Memport.mayWrite, hopen]
    | true => simp [hatoms, Memport.mayWrite, hopen, hacq hf]
  have hg : ((s1.freshNat.2).consume c k used).gear = s.gear :=
    (State.consume_gear ..).trans ((State.freshNat_gear s1).trans (State.gear_of_xlateMp hx))
  intro t
  have ht : s.mpAtomic c k used u p fetches ret va ivec operand = t := rfl
  clear_value t
  rw [State.mpAtomic, hinvs, hx] at ht
  dsimp only at ht
  rw [if_neg hpar, if_neg (by simpa using hwait), if_neg (not_not_intro hal), show u.withInvs [] = u from rfl, hinv, hatoms,
    journalStep_none] at ht
  simp only [List.any_nil, Bool.false_and, Bool.false_eq_true, if_false] at ht
  subst ht
  have hmp (n : Nat) : ((((s1.freshNat.2).consume c k used).countFlits c n).cell c).mp = (s.cell c).mp :=
    State.mp_of_gear ((State.countFlits_gear ..).trans hg) c
  refine ⟨(State.modCell_mem ..).trans (State.mem_of_gear ((State.countFlits_gear ..).trans hg)), ?_, _,
    (congrArg (fun z => z.mp.atoms) (State.modCell_cell_self _ c _)).trans
      (congrArg (· ++ [_]) ((congrArg Memport.atoms (hmp _)).trans hatoms)), rfl, rfl, rfl, rfl, rfl, rfl, rfl⟩
  rw [State.modCell_cell_self]
  exact Memport.countWrite_issued (congrArg Memport.ph (hmp 1)) (congrArg Memport.issued (hmp 1)) 1

end

/-- What both nodes of atomics ask of their parameters, their memport and their record at a (R200, R204). -/
structure AtomReady (s s1 : State) (a b : BitVec 6) (u : Item) (x : Xlated) : Prop where
  unit : (port s).unit = 0
  sp24 : (port s).sp24 = false
  op : (port s).op.toNat ≤ 8 ∨ ((port s).op.toNat = 9 ∧ (port s).w64 = false)
  atoms : (here s).mp.atoms = []
  isOpen : (here s).mp.isOpen[(here s).mp.ph.toNat] = true
  aligned : (u.v0.setWidth 64 : Word64).toNat % (if (port s).w64 then 8 else 4) = 0
  noInv : u.inv = none
  xlate : s.xlateMp s.nodeTurn.1 .rw false (u.v0.setWidth 64) = (.ok x, s1)
  head : at_ s 0 = some u
  noneOwed : noneOwed s a b

/-- An atomic in flight at its word, counted in its phase. -/
def atomIssued (s t : State) (x : Xlated) (operand : Word64) : Prop :=
  t.mem = s.mem ∧ (t.cell s.nodeTurn.1).mp.issued[(here s).mp.ph.toNat] = (here s).mp.issued[(here s).mp.ph.toNat] + 1 ∧
    ∃ w : AtomReq, (t.cell s.nodeTurn.1).mp.atoms = [w] ∧ w.pa = x.pa ∧ w.key = x.key ∧ w.op = (port s).op ∧ w.w64 = (port s).w64 ∧
      w.operand = operand ∧ w.skip = false ∧ w.ph = (here s).mp.ph

theorem second_append_value (u : Item) : u.second ++ u.value = u.v0.extractLsb' 64 64 :=
  BitVec.extractLsb'_append_extractLsb'_eq_extractLsb' rfl

section
variable {s s1 : State} {a b : BitVec 6} {m : BitVec 2} (o : BitVec 8) {u d : Item} {x : Xlated} (hw : AtomReady s s1 a b u x)
include hw

theorem full_of_noAtoms {fn : MpFn} (hfn : fn = .mamo ∨ fn = .msct) : (here s).mp.full fn = false := by
  obtain rfl | rfl := hfn <;> simp [Memport.full, hw.atoms]

/-- The operand of a `mamo` is lane 0 of b (R201, R204). -/
theorem execMamo_issues (h : ready s (usedPos [0, 1] m) a b) (hd : at_ s 1 = some d) (hinvs : (here s).invsAt s.nodeTurn.2 (usedPos [0, 1] m) = [])
    (hacq : (here s).mp.acquires = []) : ∃ t, exec (.mamo a b m o) s = .next t ∧ atomIssued s t x (d.v0.setWidth 64) := by
  have ha : ((here s).operands s.nodeTurn.2 (usedPos [posA, posB] m)).a = some u := (operands_a (by simp [posA])).trans hw.head
  have hb : ((here s).operands s.nodeTurn.2 (usedPos [posA, posB] m)).b = some d := (operands_b (by simp [posB])).trans hd
  refine ⟨_, ?_, State.mpAtomic_issues (port s).ret (bits u.v0 64 64) _ hw.unit hw.sp24 hw.op hw.atoms hw.isOpen (fetches := true)
    (fun _ => hacq) hw.aligned hw.noInv hinvs hw.xlate⟩
  rw [show exec (.mamo a b m o) s = execMamo a b m o s from rfl, execMamo,
    mpAct_ready (base := [posA, posB]) h hw.noneOwed (full_of_noAtoms hw (.inl rfl)), ha, hb]
  dsimp only
  rw [bits_low64_eq_setWidth, bits_low64_eq_setWidth]
  rfl

/-- The operand of a `msct` is its record's second and value (R201, R204). -/
theorem execMsct_issues (h : ready s (usedPos [0] m) a b) (hinvs : (here s).invsAt s.nodeTurn.2 (usedPos [0] m) = []) :
    ∃ t, exec (.msct a b m o) s = .next t ∧ atomIssued s t x (u.v0.extractLsb' 64 64) := by
  have ha : ((here s).operands s.nodeTurn.2 (usedPos [posA] m)).a = some u := (operands_a (by simp [posA])).trans hw.head
  refine ⟨_, ?_, State.mpAtomic_issues false 0 _ hw.unit hw.sp24 hw.op hw.atoms hw.isOpen (fetches := false) (fun h => nomatch h)
    hw.aligned hw.noInv hinvs hw.xlate⟩
  rw [show exec (.msct a b m o) s = execMsct a b m o s from rfl, execMsct,
    mpAct_ready (base := [posA]) h hw.noneOwed (full_of_noAtoms hw (.inr rfl)), ha]
  dsimp only
  rw [Item.key, bits_low64_eq_setWidth, show u.second ++ u.value = u.v0.extractLsb' 64 64 from second_append_value u]
  rfl

end

end Sys2Proof.Machine
end

section
open Sys2Proof.Cert
namespace Sys2Proof.Machine

/-! ### Address generators (R194 to R199) -/

@[simp] theorem State.setCell_setCell (s : State) (c : CellId) (v w : Cell) : (s.setCell c v).setCell c w = s.setCell c w := by
  have h (l : List (CellId × Cell)) : aset (aset l c v) c w = aset l c w := by
    induction l with
    | nil => simp [aset]
    | cons p l ih =>
      simp only [aset]
      split
      · next hp => simp [aset, hp]
      · next hp => simp [aset, hp, ih]
  simp [State.setCell, h]

theorem State.modCell_modCell (s : State) (c : CellId) (f g : Cell → Cell) : (s.modCell c f).modCell c g = s.modCell c (g ∘ f) := by
  simp [State.modCell]

/-- A node that takes in nothing is marked as the last issued. -/
theorem consume_nil (s : State) (c : CellId) (k : BitVec 3) : s.consume c k [] = s.modCell c (fun x => { x with last := k }) := by
  have hcur (x : Cell) : (if x.cur[k.toNat].isNone then x.cur.set k.toNat none else x.cur) = x.cur := by
    split
    · next h =>
      rw [← Option.isNone_iff_eq_none.mp h]
      exact Vector.set_getElem_self ..
    · rfl
  simp only [State.consume, List.findSome?_nil, List.foldl_nil, hcur]

theorem State.modCell_setAg_self (s : State) (c : CellId) (k : BitVec 3) (g : AgenSt) :
    ((s.modCell c (fun y => y.setAg k g)).cell c).ag[k.toNat] = g := by
  simp [Cell.setAg]

/-- The first record of a tile that goes on and closes no level (R194 to R196). -/
theorem agenEmit_first {s : State} {c : CellId} {k : BitVec 3} {n : Nest} {g : AgenSt} {i : Inv} {prm : Vector Word64 16}
    (hg : (s.cell c).ag[k.toNat] = g) (hprm : g.par = some prm) (hpos : g.pos = 0) (hbegun : g.begun = []) (hmore : 1 < n.records)
    (hends : n.ends 0 = []) (a b : BitVec 6) :
    agenEmit s c k [a, b] n i = (s.modCell c (fun y => { y with
      ag := y.ag.set k.toNat { g with
        seq := g.seq + BitVec.ofNat 28 n.records, outer := advance (n.counts.drop n.tile) g.outer,
        begun := [⟨i, g.seq, g.outer, prm⟩], pos := 1 },
      last := k })).deliverAll c k (both a b [n.record g.seq g.outer 0 i]) := by
  have hbegin : g.begin n i = (⟨i, g.seq, g.outer, prm⟩, { g with
      seq := g.seq + BitVec.ofNat 28 n.records, outer := advance (n.counts.drop n.tile) g.outer,
      begun := [⟨i, g.seq, g.outer, prm⟩] }) := by
    simp [AgenSt.begin, hbegun, hprm]
  have hend : decide (n.records ≤ 0 + 1) = false := by simp; omega
  rw [agenEmit, hg, hbegin]
  simp only [hpos, hend, hends]
  rfl

section
variable {s : State} {a b : BitVec 6} (o : BitVec 8) {n : Nest} {i : Inv} {rest : List Inv} {g : AgenSt} (hact : mayAct s)
  (hroom : roomFor s [] a b) (hmute : s.mutingAt s.nodeTurn.1 = false) (hg : (here s).ag[s.nodeTurn.2.toNat] = g) (hdue : g.due = i :: rest)
  (hpar : g.par = none) (hrelatch : g.relatch = false) (hpos : g.pos = 0) (hbegun : g.begun = [])
  (hnest : nestOf (here s).active.prm (o.toNat % 16) = some n) (hmore : 1 < n.records) (hends : n.ends 0 = [])
include hact hroom hmute hg hdue hpar hrelatch hpos hbegun hnest hmore hends

/-- A tile that is due begins, and its first record leaves (R194 to R196, R199). -/
theorem execAgen_begins : exec (.agen a b 0 o) s = .next ((s.modCell s.nodeTurn.1 (fun y => { y with
    ag := y.ag.set s.nodeTurn.2.toNat { g with
      par := some (here s).active.prm, seq := g.seq + BitVec.ofNat 28 n.records, outer := advance (n.counts.drop n.tile) g.outer,
      begun := [⟨i, g.seq, g.outer, (here s).active.prm⟩], pos := 1 },
    last := s.nodeTurn.2 })).deliverAll s.nodeTurn.1 s.nodeTurn.2 (both a b [n.record g.seq g.outer 0 i])) := by
  have hheads : (here s).heads s.nodeTurn.2 [] = .data := Cell.heads_data (by simp)
  have hfree := targets_free hroom
  have hparOf : g.parOf i (here s).active.prm = (here s).active.prm := by simp [AgenSt.parOf, hbegun]
  rw [show exec (.agen a b 0 o) s = execAgen a b 0 o s from rfl, execAgen, atNode_mayAct hact]
  simp only [show usedPos [] 0 = [] from rfl, hheads, hmute, hg, hdue, hpar, hrelatch, hpos, hbegun, hparOf]
  rw [if_neg (by simp), if_neg (by simp), if_neg (by simp [hfree]), show (bits o 0 4).toNat = o.toNat % 16 from bits_low_toNat o 4, hnest]
  dsimp only
  rw [if_neg (by simp), agenEmit_first (State.modCell_setAg_self ..) rfl rfl rfl hmore hends, consume_nil, State.modCell_modCell,
    State.modCell_modCell]
  simp [Function.comp_def, Cell.setAg]

end

section
variable {s : State} {a b : BitVec 6} {m : BitVec 2} (o : BitVec 8) {u : Item}

theorem nodeActWith_ready {used : List Nat} (h : ready s used a b) (fire : CellId → BitVec 3 → Operands → State → State)
    (post : CellId → BitVec 3 → BitVec 4 → State → State) :
    s.nodeActWith used [a, b] fire post = fire s.nodeTurn.1 s.nodeTurn.2 ((here s).operands s.nodeTurn.2 used) s := by
  obtain ⟨hact, hdata, hroom⟩ := h
  exact State.nodeActWith_data fire post hact.1 hact.2 (Cell.heads_data hdata) (targets_free hroom)

theorem writeBase_prm (s : State) (c : CellId) (j : Nat) (v : Word64) :
    ((s.writeBase c j v).cell c).active.prm = (s.cell c).active.prm.setIfInBounds j v := by
  unfold State.writeBase
  dsimp only
  split
  · rw [State.setCell_cell_self]
  · rw [State.active_of_gear (State.latchPins_gear ..), State.setCell_cell_self]

/-- `agbase` writes its parameter register (R199). -/
theorem execAgbase_writes (h : ready s (usedPos [0] m) a b) (hu : at_ s 0 = some u) : ∃ t, exec (.agbase a b m o) s = .next t ∧
    t.mem = s.mem ∧ (t.cell s.nodeTurn.1).active.prm = (here s).active.prm.setIfInBounds (o.toNat % 16) (u.v0.setWidth 64) := by
  have ha : ((here s).operands s.nodeTurn.2 (usedPos [posA] m)).a = some u := (operands_a (by simp [posA])).trans hu
  have he : exec (.agbase a b m o) s = .next ((s.consume s.nodeTurn.1 s.nodeTurn.2 (usedPos [0] m)).writeBase s.nodeTurn.1
      (o.toNat % 16) (u.v0.setWidth 64)) := by
    rw [show exec (.agbase a b m o) s = execAgbase a b m o s from rfl, execAgbase, nodeActWith_ready (used := usedPos [posA] m) h, ha,
      ← bits_low64_eq_setWidth, show o.toNat % 16 = (bits o 0 4).toNat from (bits_low_toNat o 4).symm]
    rfl
  refine ⟨_, he, (State.store_of_beside (State.writeBase_beside ..)).1.trans (State.mem_of_gear (State.consume_gear ..)), ?_⟩
  rw [writeBase_prm, State.active_of_gear (State.consume_gear ..)]
  rfl

/-- `agre` latches the pins of its cell anew (R199). -/
theorem execAgre_latches (h : ready s (usedPos [3] m) a b) :
    exec (.agre a b m o) s = .next ((s.consume s.nodeTurn.1 s.nodeTurn.2 (usedPos [3] m)).latchPins s.nodeTurn.1) :=
  congrArg Host.Outcome.next (nodeActWith_ready h ..)

end

end Sys2Proof.Machine
end

section
open Sys2Proof.Cert
namespace Sys2Proof.Machine

/-! ### Memory nodes over DATA -/

/-- What is left where a read of one line was placed after a translation. -/
theorem read_placed {s s1 : State} {c : CellId} {right : Right} {peerOk : Bool} {va : Word64} {x : Xlated}
    (hx : s.xlateMp c right peerOk va = (.ok x, s1)) (k : BitVec 3) (used : List Nat) (u : Item) (ivec : Word64) :
    let t := s1.mpRead c k used u .record va ivec [(0, 64, x)]
    t.mem = s.mem ∧ t.pend.length = s.pend.length + 1 ∧ ∃ (req : SliceReq) (w : MpOut), t.pend = s.pend ++ [req] ∧
      (t.cell c).mp.outs = (s.cell c).mp.outs ++ [w] ∧ req.write = false ∧ req.pa = x.pa ∧ req.len = 64 ∧ req.key = x.key ∧
      req.src = .cell c ∧ req.id = w.id ∧ w.slot = k ∧ w.item = u.withInvs ((s.cell c).invsAt k used) ∧ w.token = false ∧
      w.form = .record ∧ w.val = none := by
  obtain ⟨hmem, houts, req, hpend, hw, hpa, hlen, hkey, hsrc, hid⟩ := s1.mpRead_places c k used u va ivec x
  have hg := State.gear_of_xlateMp hx
  have hpend' := hpend.trans (congrArg (· ++ [req]) (State.pend_of_gear hg))
  rw [State.cell_of_xlateMp hx] at houts
  exact ⟨hmem.trans (State.mem_of_gear hg), by rw [hpend']; simp, req, _, hpend', houts, hw, hpa, hlen, hkey, hsrc, hid, rfl, rfl, rfl,
    rfl, rfl⟩

/-- Settles O39: each node follows from the equation of its instruction where it fires. -/
theorem memoryNodes : Obligations.MemoryNodes := by
  intro s s1 a b m o u d x c k pt mp va
  refine ⟨fun h hnone hu hunit hsp hal hreads hacq hsuits => ?reads, fun h hnone hu hd hunit hsp hrec hal hmask hheld hx =>
    execMwr_holds o h hnone hu hd hunit hsp hrec hal hmask hheld hx, fun hunit hsp hop hatoms hopen hal hinv hx hu hnone => ?atomics, ?agen,
    fun h hu => execAgbase_writes o h hu, fun h => ⟨_, execAgre_latches o h, rfl, ?agre⟩⟩
  case reads =>
    exact ⟨fun hx => ⟨_, execMrd_reads o h hnone hu hunit hsp hal hreads hacq hsuits hx, read_placed hx ..⟩,
      fun hx => ⟨_, execMgat_reads o h hnone hu hunit hsp hal hreads hacq hsuits hx, read_placed hx ..⟩⟩
  case atomics =>
    have hw : AtomReady s s1 a b u x := ⟨hunit, hsp, hop, hatoms, hopen, hal, hinv, hx, hu, hnone⟩
    exact ⟨fun h hd hinvs hacq => execMamo_issues o hw h hd hinvs hacq, fun h hinvs => execMsct_issues o hw h hinvs⟩
  case agen =>
    intro n i rest hact hroom hmute g hdue hpar hrelatch hpos hbegun hnest hmore hends
    refine ⟨_, execAgen_begins o hact hroom hmute rfl hdue hpar hrelatch hpos hbegun hnest hmore hends,
      (State.mem_of_gear (State.deliverAll_gear ..)).trans (State.modCell_mem ..), ?_, ?_, rfl, BitVec.add_zero _, rfl⟩
    · rw [State.ag_of_gear (State.deliverAll_gear ..), State.modCell_cell_self]
      exact congrArg AgenSt.pos (Vector.getElem_set_self ..)
    · rw [State.ag_of_gear (State.deliverAll_gear ..), State.modCell_cell_self]
      exact (congrArg AgenSt.due (Vector.getElem_set_self ..)).trans hdue
  case agre => exact (State.mem_of_gear (State.latchPins_gear ..)).trans (State.mem_of_gear (State.consume_gear ..))

end Sys2Proof.Machine
end

section
open Sys2Proof.Cert
namespace Sys2Proof.Machine

/-! ### Requests at their slices (R305, R403) -/

section
variable {s : State} {n : Nat} {r : SliceReq} (hr : s.pend[n]? = some r) (hpeer : inPeer r.pa = false)
  (hup : s.pathTo r.src.die r.pa = .up) (horder : s.inOrder n r = true)
include hr hpeer hup horder

theorem execSliceAccess_write (hw : r.write = true) :
    exec (.sliceAccess (n, none)) s = .next ((({ s with pend := s.pend.eraseIdx n } : State).settle r.src.agent).performWrite r) := by
  rw [show exec (.sliceAccess (n, none)) s = execSliceAccess (n, none) s from rfl, execSliceAccess]
  simp only [State.eccFound, hr, hpeer, hup, horder, hw]
  rfl

theorem execSliceAccess_read (hw : r.write = false) {c : CellId} (hsrc : r.src = .cell c) :
    let s1 := ({ s with pend := s.pend.eraseIdx n } : State).settle r.src.agent
    exec (.sliceAccess (n, none)) s = .next (s1.modCell c (fun x => { x with mp := { x.mp with
      outs := x.mp.outs.map (fun o => o.answer r (s1.bytesAt r.key r.pa r.len) (s1.poisonIn r.pa r.len).isSome) } })) := by
  intro s1
  rw [show exec (.sliceAccess (n, none)) s = execSliceAccess (n, none) s from rfl, execSliceAccess]
  simp only [State.eccFound, hr, hpeer, hup, horder, hw]
  rw [show ({ s with pend := s.pend.eraseIdx n } : State).settle r.src.agent = s1 from rfl, hsrc]
  rfl

end

/-- Settling changes no cell. -/
theorem State.settle_cell (s : State) (a : Agent) (c : CellId) : (s.settle a).cell c = s.cell c :=
  State.cell_of_bare (s.settle_bare a) c

/-- A request taken out of those issued, where none is ordered ahead, is all that settling finds (R148). -/
theorem State.settle_eraseIdx {s : State} (h : noneOrdered s) (n : Nat) (a : Agent) :
    ({ s with pend := s.pend.eraseIdx n } : State).settle a = { s with pend := s.pend.eraseIdx n } :=
  State.settle_unordered _ a fun r hr => h r (List.mem_of_mem_eraseIdx hr)

theorem answer_eq (o : MpOut) (r : SliceReq) (bs : List Byte) (poison : Bool) :
    o.answer r bs poison = if o.id = r.id ∧ o.token = false then { o with
      got := o.got ++ [(r.off, bs.mapIdx (fun i y => (aget o.heldBytes (r.pa + i)).getD y))], poison := o.poison || poison } else o := by
  simp only [MpOut.answer, overlay, Bool.not_eq_true']

/-! ### A memport's write performed (R305, R306, R348) -/

/-- A memport without its counts of returned writes. -/
def Memport.unacked (m : Memport) : Memport := { m with acked := Vector.replicate 4 0 }

/-- A cell with a count that a slice has returned to it. -/
def Cell.returned (x : Cell) (k : SliceCount) : Cell :=
  { x with mp := { x.mp with acked := x.mp.acked.set k.ph.toNat (x.mp.acked[k.ph.toNat] + k.n) } }

theorem State.returnCount_cells (s : State) (k : SliceCount) :
    (s.returnCount k).cells = s.cells.map (fun p => if p.1 = k.src then (p.1, p.2.returned k) else p) := rfl

theorem State.returnCount_cell_src {s : State} {k : SliceCount} (h : (aget s.cells k.src).isSome = true) :
    (s.returnCount k).cell k.src = (s.cell k.src).returned k := by
  obtain ⟨x, hx⟩ := Option.isSome_iff_exists.mp h
  rw [State.cell, State.cell, State.returnCount_cells, aget_map _ (fun p => by split <;> rfl), hx]
  simp

theorem State.returnCount_unacked (s : State) (k : SliceCount) (b : CellId) :
    ((s.returnCount k).cell b).mp.unacked = (s.cell b).mp.unacked := by
  obtain h | h := s.cell_mapCells (fun p => if p.1 = k.src then (p.1, p.2.returned k) else p) (fun p => by split <;> rfl) b
  · exact congrArg (fun x => x.mp.unacked) h
  · refine (congrArg (fun x => x.mp.unacked) h).trans ?_
    dsimp only
    split <;> rfl

theorem State.countWrite_unacked (s : State) (slice : BitVec 7) (c : CellId) (ph : BitVec 2) (b : CellId) :
    ((s.countWrite slice c ph).cell b).mp.unacked = (s.cell b).mp.unacked := by
  unfold State.countWrite
  split
  · dsimp only
    split
    · exact State.returnCount_unacked _ _ b
    · rfl
  · dsimp only
    split
    · rfl
    · split
      · exact State.returnCount_unacked _ _ b
      · rfl

theorem State.countWrite_slices (s : State) (slice : BitVec 7) (c : CellId) (ph : BitVec 2) : (s.countWrite slice c ph).slices = s.slices := by
  unfold State.countWrite
  split
  · dsimp only
    split <;> rfl
  · dsimp only
    split
    · rfl
    · split <;> rfl

/-- A memport's write of one run of bytes: the bytes, and the count at the slice. -/
theorem State.performWrite_run (s : State) {r : SliceReq} {c : CellId} {pa : Nat} {bs : List Byte} (hsrc : r.src = .cell c)
    (hbytes : r.bytes = addressed pa bs) (hne : bs ≠ []) (hp : r.poison = false) :
    s.performWrite r = (s.putBytes r.key pa bs).countWrite (sliceOf r.pa) c r.ph := by
  unfold State.performWrite
  rw [hsrc, hbytes, runsOf_addressed hne, hp]
  rfl

/-! ### Atomics performed (R204, R205) -/

/-- The request by which an atomic writes its word. -/
def AtomReq.request (w : AtomReq) (c : CellId) (old : Nat) : SliceReq :=
  { src := .cell c, ph := w.ph, write := true, va := w.va, pa := w.pa, bytes := addressed w.pa (natToBytes w.width (w.apply old)),
    len := w.width, key := w.key, poison := false, id := 0, off := 0, inv := w.inv, served := none }

/-- A result with the old value of its atomic. -/
def AtomReq.fill (w : AtomReq) (old : Nat) (o : MpOut) : MpOut :=
  if o.id = w.id ∧ !o.token then { o with got := [(0, natToBytes w.width old)] } else o

theorem AtomReq.width_pos (w : AtomReq) : 0 < w.width := by
  unfold AtomReq.width
  split <;> decide

theorem AtomReq.width_le (w : AtomReq) : w.width ≤ 8 := by
  unfold AtomReq.width
  split <;> decide

theorem execAtomicPerform_ready {s : State} {c : CellId} {n : Nat} {w : AtomReq} (hw : (s.cell c).mp.atoms[n]? = some w)
    (hup : s.pathTo c.die w.pa = .up) (horder : s.atomInOrder c n w = true) :
    exec (.atomicPerform c n) s = .next ((s.settle (.cell c)).performAtom c n w) := by
  rw [show exec (.atomicPerform c n) s = execAtomicPerform c n s from rfl, execAtomicPerform]
  simp only [hw, hup, horder]
  rfl

theorem State.performAtom_written {s : State} {w : AtomReq} (hskip : w.skip = false) (hpoison : s.poisonIn w.pa w.width = none)
    (c : CellId) (n : Nat) :
    let old := s.numAt w.key w.pa w.width
    s.performAtom c n w = ((s.dropAtom c n (fun q => q.applied w)).performWrite (w.request c old)).modCell c
      (fun x => { x with mp := { x.mp with outs := x.mp.outs.map (w.fill old) } }) := by
  rw [State.performAtom, hpoison, hskip]
  rfl

/-- An atomic's word after its write, and every byte beside it. -/
theorem State.performWrite_atom {s : State} (c : CellId) {w : AtomReq} (old : Nat) (hok : MemOk s)
    (hpa : inStack w.pa = true ∨ inHost w.pa = true) :
    let t := s.performWrite (w.request c old)
    t.numAt w.key w.pa w.width = w.apply old % 2 ^ (8 * w.width) ∧
      (∀ a, (a < w.pa ∨ w.pa + w.width ≤ a) → t.byteAt w.key a = s.byteAt w.key a) ∧
      ∀ b, (t.cell b).mp.unacked = (s.cell b).mp.unacked := by
  intro t
  have hlen := natToBytes_length w.width (w.apply old)
  have hne : natToBytes w.width (w.apply old) ≠ [] := List.ne_nil_of_length_pos (by rw [hlen]; exact w.width_pos)
  have hmgmt (b : Nat) (h1 : w.pa ≤ b) (h2 : b < w.pa + (natToBytes w.width (w.apply old)).length) : inMgmt b = false := by
    have hle := w.width_le
    rw [hlen] at h2
    simp only [inStack, inHost, decide_eq_true_eq] at hpa
    simp only [inMgmt, decide_eq_false_iff_not]
    omega
  have ht : t = (s.putBytes w.key w.pa (natToBytes w.width (w.apply old))).countWrite (sliceOf w.pa) c w.ph :=
    State.performWrite_run s rfl rfl hne rfl
  have hbyte (a : Nat) : t.byteAt w.key a =
      if w.pa ≤ a ∧ a < w.pa + w.width then (natToBytes w.width (w.apply old)).getD (a - w.pa) 0 else s.byteAt w.key a := by
    rw [ht, State.byteAt_of_slices (State.countWrite_slices ..), State.putBytes_byteAt _ _ _ a hok hmgmt, hlen]
  have hbytes : t.bytesAt w.key w.pa w.width = natToBytes w.width (w.apply old) := by
    refine List.ext_getElem (by simp) fun i h1 h2 => ?_
    have hi : i < w.width := by simpa using h1
    simp [State.bytesAt, hbyte, hi]
  refine ⟨?_, fun a ha => ?_, fun b => ?_⟩
  · rw [State.numAt, hbytes, bytesToNat_natToBytes, pow_256]
  · rw [hbyte, if_neg (by omega)]
  · rw [ht, State.countWrite_unacked]
    exact congrArg (fun x => x.mp.unacked) (State.cell_of_bare (State.putBytes_bare ..) b)

/-- What an atomic leaves once it has performed at its slice. -/
theorem State.performAtom_does {s : State} {w : AtomReq} (hskip : w.skip = false) (hpoison : s.poisonIn w.pa w.width = none)
    (hok : MemOk s) (hpa : inStack w.pa = true ∨ inHost w.pa = true) (c : CellId) (n : Nat) :
    let old := s.numAt w.key w.pa w.width
    let t := s.performAtom c n w
    (t.cell c).mp.atoms = (s.cell c).mp.atoms.eraseIdx n ∧ t.numAt w.key w.pa w.width = w.apply old % 2 ^ (8 * w.width) ∧
      (∀ a, (a < w.pa ∨ w.pa + w.width ≤ a) → t.byteAt w.key a = s.byteAt w.key a) ∧
      (t.cell c).mp.outs = (s.cell c).mp.outs.map (w.fill old) := by
  intro old t
  have hdrop : ((s.dropAtom c n (fun q => q.applied w)).cell c).mp = ({ (s.cell c).mp with
      atoms := (s.cell c).mp.atoms.eraseIdx n } : Memport).applied w := by
    rw [State.dropAtom, State.modCell_cell_self]
  obtain ⟨hnum, hbyte, hmp⟩ := State.performWrite_atom (s := s.dropAtom c n (fun q => q.applied w)) c old hok hpa
  have hmp := hmp c
  rw [hdrop] at hmp
  have ht : t = _ := State.performAtom_written hskip hpoison c n
  have hc := (congrArg (fun t => (t.cell c).mp) ht).trans (congrArg Cell.mp (State.modCell_cell_self ..))
  exact ⟨(congrArg Memport.atoms hc).trans (congrArg Memport.atoms hmp), ht ▸ hnum, ht ▸ hbyte,
    (congrArg Memport.outs hc).trans (congrArg (fun m => m.outs.map (w.fill old)) hmp)⟩

end Sys2Proof.Machine
end

section
open Sys2Proof.Cert
namespace Sys2Proof.Machine

/-! ### Results, phases and LAST pulses of a memport (R202, R208, R308, R348) -/

theorem readUnit_record {o : MpOut} (hform : o.form = .record) (hpoison : o.poison = false) (bs : List Byte) :
    readUnit o bs = some { o.item with v0 := BitVec.ofNat 512 (bytesToNat bs), v1 := none } := by
  simp [readUnit, hform, hpoison, flagIf]

theorem State.mpDrain_none {s : State} {c : CellId} (h : (s.cell c).mp.outs = []) (n : Nat) : State.mpDrain c n s = s := by
  cases n with
  | zero => rfl
  | succ n => rw [State.mpDrain, h]

/-- The only result of a memport leaves with its bytes (R202). -/
theorem State.mpEmit_record {s : State} {c : CellId} {o : MpOut} {bs : List Byte} (houts : (s.cell c).mp.outs = [o])
    (htoken : o.token = false) (hval : o.val = some bs) (hform : o.form = .record) (hpoison : o.poison = false)
    (hdue : (s.cell c).due[o.slot.toNat] = []) (hroom : ∀ t ∈ (s.cell c).targets o.slot, (s.cell c).targetFree o.slot [] t = true) :
    s.mpEmit c = (s.setCell c { s.cell c with mp := { (s.cell c).mp with outs := [] } }).deliverAll c o.slot
      (((s.cell c).targets o.slot).map (fun t => (t, { o.item with v0 := BitVec.ofNat 512 (bytesToNat bs), v1 := none }))) := by
  have hfree : ((s.cell c).targets o.slot).all ((s.cell c).targetFree o.slot []) = true := List.all_eq_true.mpr hroom
  rw [State.mpEmit, houts]
  dsimp only
  rw [if_neg (by simp [hdue, hfree]), htoken, hval, if_neg Bool.false_ne_true]
  dsimp only
  rw [readUnit_record hform hpoison]

theorem execMemportReadReturn_record {s : State} {c : CellId} {o : MpOut} {bs : List Byte} (houts : (s.cell c).mp.outs = [o])
    (htoken : o.token = false) (hval : o.val = some bs) (hform : o.form = .record) (hpoison : o.poison = false)
    (hdue : (s.cell c).due[o.slot.toNat] = []) (hroom : ∀ t ∈ (s.cell c).targets o.slot, (s.cell c).targetFree o.slot [] t = true) :
    exec (.memportReadReturn c) s = .next ((s.setCell c { s.cell c with mp := { (s.cell c).mp with outs := [] } }).deliverAll c o.slot
      (((s.cell c).targets o.slot).map (fun t => (t, { o.item with v0 := BitVec.ofNat 512 (bytesToNat bs), v1 := none })))) := by
  have hnone (l : List (BitVec 6 × Item)) :
      (((s.setCell c { s.cell c with mp := { (s.cell c).mp with outs := [] } }).deliverAll c o.slot l).cell c).mp.outs = [] := by
    rw [State.mp_of_gear (State.deliverAll_gear ..), State.setCell_cell_self]
  rw [show exec (.memportReadReturn c) s = execMemportReadReturn c s from rfl, execMemportReadReturn,
    State.mpEmit_record houts htoken hval hform hpoison hdue hroom]
  exact congrArg Host.Outcome.next (State.mpDrain_none (hnone _) _)

/-- A phase that is closed and complete opens anew (R308, R348). -/
theorem execPhaseOpen_opens {s : State} {c : CellId} (hopen : (s.cell c).mp.isOpen[(s.cell c).mp.ph.toNat] = false)
    (hdone : (s.cell c).mp.closed[(s.cell c).mp.ph.toNat] ≤ (s.cell c).mp.acked[(s.cell c).mp.ph.toNat]) :
    ∃ t, exec (.phaseOpen c) s = .next t ∧ t.mem = s.mem ∧ (t.cell c).mp.isOpen[(s.cell c).mp.ph.toNat] = true ∧
      (t.cell c).mp.issued[(s.cell c).mp.ph.toNat] = 0 ∧ (t.cell c).mp.acked[(s.cell c).mp.ph.toNat] = 0 := by
  have hcond : (!(s.cell c).mp.isOpen[(s.cell c).mp.ph.toNat] &&
      decide ((s.cell c).mp.closed[(s.cell c).mp.ph.toNat] ≤ (s.cell c).mp.acked[(s.cell c).mp.ph.toNat])) = true := by
    rw [hopen, decide_eq_true hdone]
    rfl
  refine ⟨_, if_pos hcond, State.modCell_mem .., ?_⟩
  rw [State.modCell_cell_self]
  exact ⟨Vector.getElem_set_self .., Vector.getElem_set_self .., Vector.getElem_set_self ..⟩

/-- The oldest LAST pulse leaves, where a writing node's stores and atomics of the invocation have performed (R208). -/
theorem execLastPulse_oldest {s : State} {c : CellId} {i : Option Inv} {po : BitVec 3} {writes : Bool}
    {rest : List (Option Inv × BitVec 3 × Bool)} (hdue : (s.cell c).mp.lastDue = (i, po, writes) :: rest)
    (hdone : writes = true → (∀ r ∈ s.pend, r.src = .cell c → r.write = true → r.inv ≠ i) ∧ (∀ w ∈ (s.cell c).mp.atoms, w.inv ≠ i) ∧
      ∀ h ∈ (s.cell c).mp.held, h.inv ≠ i) :
    exec (.lastPulse c) s = .next ((s.setCell c { s.cell c with mp := { (s.cell c).mp with lastDue := rest } }).sendPulse c po 3) := by
  have hready : s.lastReady c (i, po, writes) = true := by
    cases hwrites : writes with
    | false => rfl
    | true =>
      obtain ⟨hpend, hatoms, hheld⟩ := hdone hwrites
      have hof : ∀ r ∈ s.writesOf c, r.inv ≠ i := fun r hr => by
        obtain ⟨hr, hcond⟩ := List.mem_filter.mp hr
        obtain ⟨hsrc, hwrite⟩ := of_decide_eq_true hcond
        exact hpend r hr hsrc hwrite
      simpa [State.lastReady] using ⟨⟨hof, hatoms⟩, hheld⟩
  rw [show exec (.lastPulse c) s = execLastPulse c s from rfl, execLastPulse, hdue, List.find?_cons_of_pos hready]
  dsimp only
  rw [List.erase_cons_head]
  rfl

/-! ### Counts that slices return (R306, R348) -/

theorem execSliceCountReturn_counts {s : State} {c : CellId} {slice : BitVec 7} {ph : BitVec 2} {e : SliceCount}
    (hfind : s.counts.find? (fun x => x.slice = slice ∧ x.src = c ∧ x.ph = ph) = some e) (hcell : (aget s.cells c).isSome = true) :
    ∃ t, exec (.sliceCountReturn ⟨slice, c⟩ ph) s = .next t ∧ t.mem = s.mem ∧
      (t.cell c).mp.acked[ph.toNat] = (s.cell c).mp.acked[ph.toNat] + e.n ∧ t.counts = s.counts.erase e := by
  have hpred := List.find?_some hfind
  obtain ⟨-, hsrc, hph⟩ := of_decide_eq_true hpred
  subst hsrc hph
  refine ⟨s.returnCount e, ?_, rfl, ?_, rfl⟩
  · rw [show exec (.sliceCountReturn ⟨slice, e.src⟩ e.ph) s = execSliceCountReturn ⟨slice, e.src⟩ e.ph s from rfl, execSliceCountReturn, hfind]
  · rw [State.returnCount_cell_src hcell]
    exact Vector.getElem_set_self ..

/-! ### Queries (R349) -/

theorem execOrderQuery_sends {s : State} {w : Acquirer} {n : Nat} {e : OrderEntry} (he : (s.acquiring w)[n]? = some e)
    (hnew : ∀ q ∈ s.queries, ¬ (q.who = w ∧ q.entry = e)) (hpath : s.pathDies (acquirerDie w) e.src.die ≠ .broken) :
    ∃ (t : State) (q : Query), exec (.orderQuery w n) s = .next t ∧ t.queries = s.queries ++ [q] ∧ q.who = w ∧ q.entry = e ∧
      q.slack = s.slackOfAcquirer w ∧ q.late = false ∧ t.mem = s.mem ∧ t.cells = s.cells ∧ t.seqs = s.seqs := by
  have hnone : s.queries.any (fun q => q.who == w && q.entry == e) = false := by
    simpa using hnew
  have hflits (c : CellId) : (s.countFlits c 1).mem = s.mem ∧ (s.countFlits c 1).cells = s.cells ∧ (s.countFlits c 1).seqs = s.seqs := by
    unfold State.countFlits
    split
    · exact ⟨rfl, rfl, rfl⟩
    · split <;> exact ⟨rfl, rfl, rfl⟩
  rw [show exec (.orderQuery w n) s = execOrderQuery w n s from rfl, execOrderQuery.eq_def, he]
  dsimp only
  rw [hnone, if_neg Bool.false_ne_true, if_neg hpath]
  cases w with
  | cell c =>
    obtain ⟨hmem, hcells, hseqs⟩ := hflits c
    exact ⟨_, _, rfl, rfl, rfl, rfl, rfl, rfl, hmem, hcells, hseqs⟩
  | seq q => exact ⟨_, _, rfl, rfl, rfl, rfl, rfl, rfl, rfl, rfl, rfl⟩

theorem execOrderQueryAnswer_answers {s : State} {n : Nat} {x : Query} (hx : s.queries[n]? = some x) (hdone : s.releaseDone x = true)
    (hpath : s.pathDies (acquirerDie x.who) x.entry.src.die = .up) :
    ∃ t, exec (.orderQueryAnswer n) s = .next t ∧ t.mem = s.mem ∧ t.queries = s.queries.eraseIdx n ∧
      t.acquiring x.who = (s.acquiring x.who).erase x.entry := by
  rw [show exec (.orderQueryAnswer n) s = execOrderQueryAnswer n s from rfl, execOrderQueryAnswer, hx]
  dsimp only
  rw [hpath, hdone, if_neg (by decide), if_neg (by decide)]
  cases x.who with
  | cell c => exact ⟨_, rfl, rfl, rfl, congrArg (fun y => y.mp.acquires) (State.modCell_cell_self ..)⟩
  | seq q => exact ⟨_, rfl, rfl, rfl, congrArg Seq.acq (State.modSeq_seq_self ..)⟩

end Sys2Proof.Machine
end

section
open Sys2Proof.Cert
namespace Sys2Proof.Machine

/-! ### What the results that leave a memport change of it (R202, R208) -/

/-- A memport without its results and the LAST pulses that it owes. -/
def Memport.lasting (m : Memport) : Memport := { m with outs := [], lastDue := [] }

/-- What results that leave keep of a state: memory, the requests in flight, and the rest of every memport. -/
def State.lasting (s : State) := (s.store, s.pend, fun b => (s.cell b).mp.lasting)

theorem State.lasting_of_gear {s t : State} (h : t.gear = s.gear) : t.lasting = s.lasting :=
  congrArg (fun z : _ × _ × (CellId → _ × _ × Memport) => (z.1, z.2.1, fun b => (z.2.2 b).2.2.lasting)) h

theorem State.setCell_lasting {s : State} {c : CellId} {v : Cell} (h : v.mp.lasting = (s.cell c).mp.lasting) :
    (s.setCell c v).lasting = s.lasting := by
  have hcell (b : CellId) : ((s.setCell c v).cell b).mp.lasting = (s.cell b).mp.lasting := by
    rw [State.setCell_cell]
    split
    · next hb => rw [hb]; exact h
    · rfl
  simp only [State.lasting, hcell]
  rfl

theorem State.modCell_lasting (s : State) (c : CellId) {f : Cell → Cell} (h : ∀ x, (f x).mp.lasting = x.mp.lasting) :
    (s.modCell c f).lasting = s.lasting := State.setCell_lasting (h _)

section
variable {s t : State} (h : t.lasting = s.lasting)
include h

theorem State.mem_of_lasting : t.mem = s.mem := State.mem_of_store (congrArg Prod.fst h)
theorem State.pend_of_lasting : t.pend = s.pend := congrArg (fun z => z.2.1) h
theorem State.mp_of_lasting (c : CellId) : (t.cell c).mp.lasting = (s.cell c).mp.lasting := congrFun (congrArg (fun z => z.2.2) h) c

theorem State.held_of_lasting (c : CellId) : (t.cell c).mp.held = (s.cell c).mp.held :=
  show (t.cell c).mp.lasting.held = (s.cell c).mp.lasting.held by rw [State.mp_of_lasting h]

theorem State.ph_of_lasting (c : CellId) : (t.cell c).mp.ph = (s.cell c).mp.ph :=
  show (t.cell c).mp.lasting.ph = (s.cell c).mp.lasting.ph by rw [State.mp_of_lasting h]

theorem State.isOpen_of_lasting (c : CellId) : (t.cell c).mp.isOpen = (s.cell c).mp.isOpen :=
  show (t.cell c).mp.lasting.isOpen = (s.cell c).mp.lasting.isOpen by rw [State.mp_of_lasting h]

theorem State.closed_of_lasting (c : CellId) : (t.cell c).mp.closed = (s.cell c).mp.closed :=
  show (t.cell c).mp.lasting.closed = (s.cell c).mp.lasting.closed by rw [State.mp_of_lasting h]

end

@[simp] theorem State.mpEmit_lasting (s : State) (c : CellId) : (s.mpEmit c).lasting = s.lasting := by
  unfold State.mpEmit
  dsimp only
  split
  · rfl
  · next o rest _ =>
    have h1 : (s.setCell c { s.cell c with mp := { (s.cell c).mp with outs := rest } }).lasting = s.lasting := State.setCell_lasting rfl
    have hgive (l : List (BitVec 6 × Item)) : ((s.setCell c { s.cell c with mp := { (s.cell c).mp with outs := rest } }).deliverAll c
        o.slot l).lasting = s.lasting := (State.lasting_of_gear (State.deliverAll_gear ..)).trans h1
    split
    · rfl
    · split
      · split
        · have h2 := (State.lasting_of_gear (State.passEot_gear _ c o.slot o.item.invs)).trans
            (hgive (((s.cell c).targets o.slot).map (fun t => (t, o.item))))
          split
          · refine (State.modCell_lasting _ c ?_).trans h2
            exact fun _ => rfl
          · exact h2
        · exact hgive _
      · split
        · rfl
        · split
          · exact hgive _
          · exact (State.lasting_of_gear (State.raiseFault_gear ..)).trans h1

@[simp] theorem State.mpDrain_lasting (c : CellId) (n : Nat) (s : State) : (State.mpDrain c n s).lasting = s.lasting := by
  induction n generalizing s with
  | zero => rfl
  | succ n ih =>
    unfold State.mpDrain
    split
    · split
      · dsimp only
        split
        · exact (ih _).trans (s.mpEmit_lasting c)
        · exact s.mpEmit_lasting c
      · rfl
    · rfl

@[simp] theorem State.mpToken_lasting (s : State) (c : CellId) (k : BitVec 3) (us : List Item) : (s.mpToken c k us).lasting = s.lasting :=
  (State.mpDrain_lasting ..).trans (s.modCell_lasting c fun _ => rfl)

/-! ### The turn of a memport node over tokens (R21 to R23) -/

/-- The positions that a memport function uses, beside those of its mask (R201). -/
def MpFn.base : MpFn → List Nat
  | .mwr | .mamo => [posA, posB]
  | .mrd | .msct | .mgat => [posA]

/-- A node that decodes to a memport's runs as one over the positions of its function. -/
theorem decodeMemport_runs {w : Word32} {i : Instr} {fn : MpFn} {used : List Nat} {a b : BitVec 6}
    (hdec : decodeMemport w.toNat = some i) (hmp : memportOf i = some (fn, used, a, b)) :
    used = usedPos fn.base (bits w 8 2) ∧ ∃ fire, ∀ s, runNode i s = .next (s.mpAct fn fn.base a b (bits w 8 2) fire) := by
  rw [bits_eq_ofNat w 8 2]
  unfold decodeMemport at hdec
  split at hdec <;> cases hdec
  all_goals
    cases hmp
    exact ⟨rfl, _, fun s => rfl⟩

theorem decodeNode_memport {w : Word32} {i : Instr} {fn : MpFn} (hdec : decodeNode w.toNat = .ok i) (hfn : mpFnOf w = some fn) :
    decodeMemport w.toNat = some i := by
  have hkind : bits w 28 4 = 6 := by
    unfold mpFnOf at hfn
    split at hfn
    · exact nomatch hfn
    · next h => exact not_not.mp h
  have hfld : fld w.toNat 28 4 = 6 := (bits_toNat w 28 4).symm.trans (congrArg BitVec.toNat hkind)
  unfold decodeNode at hdec
  simp only [hfld] at hdec
  cases hfound : decodeMemport w.toNat with
  | none => rw [hfound] at hdec; exact nomatch hdec
  | some j => rw [hfound] at hdec; cases hdec; rfl

section
variable {s : State} {c : CellId} {k : BitVec 3} {kind : BitVec 4} {fn : MpFn}

theorem Cell.mpHolds_token {x : Cell} {w : Word32} {pick : MpFn → Bool} (hw : x.word k = some w) (hfn : mpFnOf w = some fn)
    (hpick : pick fn = true) (hheads : x.heads k (usedPos fn.base (bits w 8 2)) = .token kind) : x.mpHolds k kind pick = true := by
  unfold Cell.mpHolds
  rw [hw]
  dsimp only
  rw [hfn]
  cases fn <;> exact Bool.and_eq_true_iff.mpr ⟨hpick, beq_iff_eq.mpr hheads⟩

/-- A memport node that is not full does what its function does of a token that heads its positions. -/
theorem mpAct_token {a b : BitVec 6} {base : List Nat} {m : BitVec 2} (hact : mayAct s) (hfree : (here s).mp.full fn = false)
    (hheads : (here s).heads s.nodeTurn.2 (usedPos base m) = .token kind)
    (hroom : (here s).mpFree s.nodeTurn.2 ((usedPos base m).filter ((here s).aligns s.nodeTurn.2)) [a, b] = true)
    (fire : CellId → BitVec 3 → Cell → Operands → State → State) :
    s.mpAct fn base a b m fire = mpOnToken s s.nodeTurn.1 s.nodeTurn.2 (here s) fn (usedPos base m) [a, b] kind := by
  rw [State.mpAct, atNode_mayAct hact, headsBut_of_free hfree, hheads]
  exact if_pos hroom

theorem memportToken_turn {toks : List Item} {pick : MpFn → Bool} (h : tokenTurn s c k kind fn toks) (hpick : pick fn = true) :
    ∃ (used : List Nat) (ts : List (BitVec 6)), toks = (used.filter ((s.cell c).aligns k)).filterMap ((s.cell c).valueAt k) ∧
      s.memportToken c kind pick = .next (mpOnToken { s with nodeTurn := (c, k) } c k (s.cell c) fn used ts kind) := by
  obtain ⟨w, i, used, a, b, hw, hdec, hmp, hfn, hslot, hruns, hdue, hfull, hheads, hroom, htoks⟩ := h
  obtain ⟨rfl, fire, hrun⟩ := decodeMemport_runs (decodeNode_memport hdec hfn) hmp
  refine ⟨_, [a, b], htoks, ?_⟩
  rw [State.memportToken, hslot]
  dsimp only
  rw [if_pos (Cell.mpHolds_token hw hfn hpick hheads), State.nodeTurnOf, hw]
  dsimp only
  rw [hdec]
  dsimp only
  rw [hrun, mpAct_token (s := { s with nodeTurn := (c, k) }) ⟨hruns, hdue⟩ hfull hheads hroom]
  rfl

end

/-! ### EOT and ORDER at a memport node (R203, R308) -/

/-- The held stores that an EOT releases become requests of the current phase. -/
theorem State.releaseHeld_does (s : State) (c : CellId) (k : BitVec 3) (is : List Inv) :
    let t := s.releaseHeld c k is
    let m := (s.cell c).mp
    t.mem = s.mem ∧ (t.cell c).mp.held = m.held.filter (fun h => !h.endsWith k is) ∧
      ∃ reqs : List SliceReq, t.pend = s.pend ++ reqs ∧ reqs.length = (m.held.filter (fun h => h.endsWith k is)).length ∧
        ∀ r ∈ reqs, r.write = true ∧ r.ph = m.ph ∧ r.src = .cell c := by
  intro t m
  refine ⟨?_, ?_, _, rfl, List.length_map .., fun r hr => ?_⟩
  · show (State.countFlits _ c _).mem = _
    exact (State.mem_of_gear (State.countFlits_gear ..)).trans (State.modCell_mem ..)
  · show ((State.countFlits _ c _).cell c).mp.held = _
    rw [State.countFlits_cell, State.modCell_cell_self]
  · obtain ⟨h, -, rfl⟩ := List.mem_map.mp hr
    exact ⟨rfl, rfl, rfl⟩

section
variable {s : State} {c : CellId} {x : Cell} {fn : MpFn} (k : BitVec 3) {used : List Nat} (ts : List (BitVec 6)) {u : Item} {us : List Item}
  (htoks : u :: us = (used.filter (x.aligns k)).filterMap (x.valueAt k))
include htoks

/-- An EOT at a writing node releases its held stores; where it has a target, it closes the phase (R203, R308). -/
theorem mpOnToken_eot (hwrites : fn.writes = true) (hopen : x.mp.mayWrite = true) :
    let s1 := (s.consumeTokens c k used).releaseHeld c k (u.withInvs ((u :: us).flatMap Item.invs)).invs
    ∃ l, mpOnToken s c k x fn used ts kEot = s1.mpToken c k l ∨
      mpOnToken s c k x fn used ts kEot = (s1.modCell c (fun y => { y with mp := (s1.cell c).mp.closePhase })).mpToken c k l := by
  unfold mpOnToken
  rw [← htoks]
  dsimp only
  rw [if_neg (by decide), if_neg (by decide), if_pos ⟨rfl, hwrites⟩, hopen, if_neg (by decide)]
  split
  · exact ⟨_, .inl rfl⟩
  · exact ⟨_, .inr rfl⟩

/-- It keeps the others, and what it releases becomes requests of the phase (R203, R308). -/
theorem mpOnToken_eot_does (hx : x.mp = (s.cell c).mp) (hwrites : fn.writes = true) (hopen : x.mp.mayWrite = true) :
    let is := (u.withInvs ((u :: us).flatMap Item.invs)).invs
    let t := mpOnToken s c k x fn used ts kEot
    t.mem = s.mem ∧ (t.cell c).mp.held = x.mp.held.filter (fun h => !h.endsWith k is) ∧
      ∃ reqs : List SliceReq, t.pend = s.pend ++ reqs ∧ reqs.length = (x.mp.held.filter (fun h => h.endsWith k is)).length ∧
        ∀ r ∈ reqs, r.write = true ∧ r.ph = x.mp.ph ∧ r.src = .cell c := by
  intro is t
  have hg := s.consumeTokens_gear c k used
  obtain ⟨hmem, hheld, reqs, hpend, hlen, hreqs⟩ := (s.consumeTokens c k used).releaseHeld_does c k is
  rw [State.mp_of_gear hg, ← hx] at hheld hlen hreqs
  obtain ⟨l, ht⟩ := mpOnToken_eot (s := s) (c := c) k ts htoks hwrites hopen
  generalize (s.consumeTokens c k used).releaseHeld c k is = s1 at ht hmem hheld hpend
  have hlast : t.mem = s1.mem ∧ (t.cell c).mp.held = (s1.cell c).mp.held ∧ t.pend = s1.pend := by
    obtain ht | ht := ht
    · have h : t.lasting = _ := (congrArg State.lasting ht).trans (State.mpToken_lasting ..)
      exact ⟨State.mem_of_lasting h, State.held_of_lasting h c, State.pend_of_lasting h⟩
    · have h : t.lasting = _ := (congrArg State.lasting ht).trans (State.mpToken_lasting ..)
      exact ⟨(State.mem_of_lasting h).trans (State.modCell_mem ..),
        (State.held_of_lasting h c).trans (congrArg (fun y => y.mp.held) (State.modCell_cell_self ..)),
        (State.pend_of_lasting h).trans (State.modCell_pend ..)⟩
  obtain ⟨hm, hh, hp⟩ := hlast
  exact ⟨hm.trans (hmem.trans (State.mem_of_gear hg)), hh.trans hheld, reqs,
    hp.trans (hpend.trans (congrArg (· ++ reqs) (State.pend_of_gear hg))), hlen, hreqs⟩

/-- An ORDER at a memport node closes a phase that has writes (R308). -/
theorem mpOnToken_order (hlen : (mergeEntries (u :: us)).length < 7) (hissued : 0 < x.mp.issued[x.mp.ph.toNat])
    (hopen : x.mp.isOpen[x.mp.ph.toNat] = true) :
    ∃ acquires ordered l, mpOnToken s c k x fn used ts kOrder = ((s.consumeTokens c k used).modCell c (fun y => { y with
      mp := { x.mp.closePhase with acquires := acquires, ordered := ordered } })).mpToken c k l := by
  have hown : (decide (0 < x.mp.issued[x.mp.ph.toNat]) && x.mp.isOpen[x.mp.ph.toNat]) = true := by
    rw [decide_eq_true hissued, hopen]
    rfl
  unfold mpOnToken
  rw [← htoks]
  dsimp only
  rw [if_neg (by decide), if_pos rfl, hown, if_neg (by simp; omega)]
  exact ⟨_, _, _, rfl⟩

theorem mpOnToken_order_closes (hlen : (mergeEntries (u :: us)).length < 7) (hissued : 0 < x.mp.issued[x.mp.ph.toNat])
    (hopen : x.mp.isOpen[x.mp.ph.toNat] = true) :
    let t := mpOnToken s c k x fn used ts kOrder
    t.mem = s.mem ∧ (t.cell c).mp.ph = x.mp.ph + 1 ∧ (t.cell c).mp.isOpen[x.mp.ph.toNat] = false ∧
      (t.cell c).mp.closed[x.mp.ph.toNat] = x.mp.issued[x.mp.ph.toNat] := by
  intro t
  obtain ⟨acquires, ordered, l, ht⟩ := mpOnToken_order (s := s) (c := c) (fn := fn) k ts htoks hlen hissued hopen
  have h : t.lasting = _ := (congrArg State.lasting ht).trans (State.mpToken_lasting ..)
  refine ⟨(State.mem_of_lasting h).trans ((State.modCell_mem ..).trans (State.mem_of_gear (State.consumeTokens_gear ..))), ?_, ?_, ?_⟩
  · rw [State.ph_of_lasting h, State.modCell_cell_self]
    rfl
  · simp only [State.isOpen_of_lasting h, State.modCell_cell_self]
    exact Vector.getElem_set_self ..
  · simp only [State.closed_of_lasting h, State.modCell_cell_self]
    exact Vector.getElem_set_self ..

end

end Sys2Proof.Machine
end

section
open Sys2Proof.Cert
namespace Sys2Proof.Machine

/-! ### The events of memports -/

/-- Settles O40: each event by what it does where its guard holds; a token at a node by the turn that the search of its cell comes to. -/
theorem memportEvents : Obligations.MemportEvents := by
  intro s c n mp
  refine ⟨fun r hr hpeer hup horder => ⟨fun hord => State.settle_eraseIdx hord n _, fun hw => execSliceAccess_write hr hpeer hup horder hw,
      fun hw hsrc => ⟨_, execSliceAccess_read hr hpeer hup horder hw hsrc, rfl, rfl, ?read⟩⟩,
    fun line hline => ⟨?poison, ?corrected⟩, ?atomic,
    fun w bs x houts htoken hval hform hpoison hdue _ hroom =>
      execMemportReadReturn_record houts htoken hval hform hpoison hdue hroom,
    execPhaseOpen_opens, fun i po writes rest => execLastPulse_oldest, fun slice ph e => execSliceCountReturn_counts,
    fun w e => execOrderQuery_sends, fun x hx hdone hcell hseq => execOrderQueryAnswer_answers hx hdone ?path,
    fun k fn u us => ⟨?eot, ?order⟩⟩
  case read =>
    rw [State.modCell_cell_self, State.settle_cell]
    exact List.map_congr_left fun o _ => answer_eq ..
  case poison => exact congrArg (execSliceAccess (n, none)) (if_pos hline)
  case corrected => exact congrArg (execSliceAccess (n, none)) (if_pos hline)
  case atomic =>
    intro w hw hup horder hskip b s1 hpoison hok hpa
    obtain ⟨hatoms, hnum, hbyte, houts⟩ := State.performAtom_does hskip hpoison (State.settle_memOk s _ hok) hpa c n
    rw [State.settle_cell] at hatoms houts
    refine ⟨State.settle_unordered s _, _, execAtomicPerform_ready hw hup horder, hatoms, hnum, hbyte, fun i y hy hid htoken => ?_⟩
    rw [houts, List.getElem?_map, hy]
    simp only [Option.map_some, AtomReq.fill, hid, htoken]
    rfl
  case path =>
    cases hwho : x.who with
    | cell e => exact hcell e hwho
    | seq q => exact hseq q hwho
  case eot =>
    intro hturn hwrites hopen is
    obtain ⟨used, ts, htoks, hrun⟩ := memportToken_turn hturn hwrites
    obtain ⟨hmem, hheld, reqs, hpend, hlen, hreqs⟩ :=
      mpOnToken_eot_does (s := { s with nodeTurn := (c, k) }) (c := c) k ts htoks rfl hwrites hopen
    refine ⟨_, hrun, hmem, hheld, ?_, ?_⟩
    · rw [show (3 : BitVec 4) = kEot from rfl, hpend, List.length_append, hlen]
    · rw [show (3 : BitVec 4) = kEot from rfl, hpend, List.drop_left]
      exact hreqs
  case order =>
    intro hturn hlen hissued hopen
    obtain ⟨used, ts, htoks, hrun⟩ := memportToken_turn (pick := fun _ => true) hturn rfl
    exact ⟨_, hrun, mpOnToken_order_closes (s := { s with nodeTurn := (c, k) }) (c := c) k ts htoks hlen hissued hopen⟩

end Sys2Proof.Machine
end

section
open Sys2Proof.Cert
namespace Sys2Proof.Machine

/-! ### A freeze at which a retune begins (R206, R315, R336, R389, R391) -/

/-- A region of one block that is freezing, with a retune that was asked of it since and waits for the freeze (R336). -/
def retunedRegion : Region := { Region.forLaunch 1 0 ⟨0, 0, 1⟩
  { desc := .phys 0, ctx := 5, part := 0, prio := 0, cmode := true, slack := 0, image := 0, args := 0, chans := 0, stat := 0, tag := 0,
    width := 1, height := 1, reloc := false, leadLx := 0, leadLy := 0, age := 0 } 0 0 with
  kstate := .active, freezing := true, retunes := [{ byToken := false, started := false, inval := none }] }

/-- An arith cell that has stopped at the region's primary fault, a parameter fault (R165). -/
def faultedCell : Cell := { Cell.reset with stopped := true, fault := { FaultReg.ofCode 0x03 with valid := true, primary := true } }

/-- A memport cell without a fault that holds a store of one byte, to a page that its context no longer maps (R203). -/
def holdingCell : Cell := { Cell.reset with
  mp := { Cell.reset.mp with held := [
    { bytes := [(0x1000, 0)], key := .made 0, poison := false, places := 0, va := 0x1000, inv := none,
      served := { slot := 0, item := bareToken 0 0 none, ivec := 0 } }] } }

/-- The machine in which the freeze line has still to come to the memport cell, c0 of the block; the arith cell is c1. -/
def retunedState : State :=
  { (State.reset.setCell ⟨0, 0, 0, 1⟩ faultedCell).setCell ⟨0, 0, 0, 0⟩ holdingCell with regions := [retunedRegion] }

/-- The summary before the last cell stops: one cell has recorded a fault. -/
theorem retunedState_summary : retunedState.faultSummary retunedRegion = some 0x1183 := by decide +kernel

/-- The state in which the freeze line leaves the last cell, as far as the region's summary. The region is FROZEN, so the retune begins in place and
translates the held store anew (R336); its page faults (R206), and the summary takes the second fault in (R391): bit 6 is set. -/
theorem retunedState_frozen : ∃ t, exec (.freezeLineArrival ⟨0, 0, 0, 0⟩ 0) retunedState = .next t ∧
    (t.region 1).map Region.summary = some (some 0x11C3) := ⟨_, rfl, by decide +kernel⟩

/-- Every cell of the region but the memport cell has stopped. -/
theorem retunedState_stopped : ∀ b ∈ retunedState.cellsOf retunedRegion, b ≠ ⟨0, 0, 0, 0⟩ → (retunedState.cell b).stopped = true := by
  decide +kernel

/-- Refutes O54, in its clause about the last cell that the freeze line stops: the summary of the FROZEN region need not be that of before. Where a
retune waited for the freeze, it begins at once, and a held store whose page faults then is a further fault, which the summary takes in. -/
theorem not_loadFreezeAndSave : ¬ Obligations.LoadFreezeAndSave := by
  unfold Obligations.LoadFreezeAndSave
  rintro ⟨-, hfreeze, -⟩
  obtain ⟨t, ht, hsummary⟩ := retunedState_frozen
  obtain ⟨-, hlast⟩ := hfreeze retunedState ⟨0, 0, 0, 0⟩ 0 retunedRegion rfl rfl (by decide) rfl rfl
  obtain ⟨u, hu, -, -, hall⟩ := hlast rfl
  obtain rfl : t = u := Host.Outcome.next.inj (ht.symm.trans hu)
  obtain ⟨-, hregion, -⟩ := hall retunedState_stopped rfl rfl
    (fun y hy hne => absurd (congrArg Region.serial (List.mem_singleton.mp hy)) hne) _ retunedState_summary (by decide)
  obtain ⟨y, hy, hsum⟩ := Option.map_eq_some_iff.mp hsummary
  obtain ⟨-, -, hbefore, -⟩ := hregion y hy
  exact absurd (hbefore.symm.trans hsum) (by decide)

end Sys2Proof.Machine
end

section
open Sys2Proof.Cert
namespace Sys2Proof.Machine

/-! ### What units, faults and retunes leave of a configuration (R268 to R272) -/

/-- What a region lists of its configuration. -/
def Region.configured (r : Region) := (r.serial, r.cfg, r.map, r.named)

/-- What a flip sets of a cell (R22, R270): its configurations, its epoch, the node issued last, and the pulses at its inputs. -/
def Cell.atFlip (x : Cell) := (x.active, x.shadow, x.epoch, x.last, x.pin)

/-- The turn of the sequencers, and what the regions list of their configurations. -/
def State.listed (s : State) := (s.seqTurn, fun n => (s.region n).map Region.configured)

/-- The configuration of a state: what the regions list, what a flip sets of every cell, and the registers of the sequencers. -/
def State.configured (s : State) := (s.listed, (fun q => (s.seq q).fixed), fun b => (s.cell b).atFlip)

theorem State.configured_eq {s t : State} (hl : t.listed = s.listed) (hq : ∀ q, (t.seq q).fixed = (s.seq q).fixed)
    (hc : ∀ b, (t.cell b).atFlip = (s.cell b).atFlip) : t.configured = s.configured := by
  simp only [State.configured, hl, hq, hc]

section
variable {s t : State} (h : t.configured = s.configured)
include h

theorem State.listed_of_configured : t.listed = s.listed := congrArg Prod.fst h
theorem State.seqTurn_of_configured : t.seqTurn = s.seqTurn := congrArg Prod.fst (State.listed_of_configured h)

theorem State.region_of_configured (n : Nat) : (t.region n).map Region.configured = (s.region n).map Region.configured :=
  congrFun (congrArg Prod.snd (State.listed_of_configured h)) n

theorem State.seq_of_configured (q : BitVec 7) : (t.seq q).fixed = (s.seq q).fixed := congrFun (congrArg (fun z => z.2.1) h) q
theorem State.cell_of_configured (b : CellId) : (t.cell b).atFlip = (s.cell b).atFlip := congrFun (congrArg (fun z => z.2.2) h) b

end

theorem State.configured_of_steady {s t : State} (h : t.steady = s.steady) (hl : t.listed = s.listed) : t.configured = s.configured :=
  State.configured_eq hl (congrFun (congrArg (fun z => z.2.1) h))
    fun b => show (t.cell b).steady.atFlip = (s.cell b).steady.atFlip by rw [State.cell_steady_of h b]

theorem State.configured_of_bare {s t : State} (h : t.bare = s.bare) : t.configured = s.configured :=
  show t.bare.configured = s.bare.configured by rw [h]

@[simp] theorem State.modDie_configured (s : State) (d : BitVec 3) (f : Die → Die) : (s.modDie d f).configured = s.configured := rfl
@[simp] theorem State.freshNat_configured (s : State) : s.freshNat.2.configured = s.configured := rfl
@[simp] theorem State.sendPulse_configured (s : State) (c : CellId) (po : BitVec 3) (kind : BitVec 2) :
    (s.sendPulse c po kind).configured = s.configured := rfl

theorem State.setSeq_configured (s : State) {q : BitVec 7} {v : Seq} (h : v.fixed = (s.seq q).fixed) :
    (s.setSeq q v).configured = s.configured := by
  refine State.configured_eq rfl (fun k => ?_) fun _ => rfl
  rw [State.setSeq_seq]
  split
  · next hk => rw [hk]; exact h
  · rfl

theorem State.modSeq_configured (s : State) (q : BitVec 7) {f : Seq → Seq} (h : ∀ x, (f x).fixed = x.fixed) :
    (s.modSeq q f).configured = s.configured := s.setSeq_configured (h _)

theorem State.setCell_configured (s : State) {c : CellId} {v : Cell} (h : v.atFlip = (s.cell c).atFlip) :
    (s.setCell c v).configured = s.configured := by
  refine State.configured_eq rfl (fun _ => rfl) fun b => ?_
  rw [State.setCell_cell]
  split
  · next hb => rw [hb]; exact h
  · rfl

theorem State.modCell_configured (s : State) (c : CellId) {f : Cell → Cell} (h : ∀ x, (f x).atFlip = x.atFlip) :
    (s.modCell c f).configured = s.configured := s.setCell_configured (h _)

theorem State.modRegion_listed (s : State) (n : Nat) {f : Region → Region} (h : ∀ r, (f r).configured = r.configured) :
    (s.modRegion n f).listed = s.listed := by
  refine congrArg (Prod.mk s.seqTurn) (funext fun i => ?_)
  rw [State.modRegion_region _ _ _ _ fun r => congrArg Prod.fst (h r), Option.map_map]
  refine congrArg (Option.map · (s.region i)) (funext fun r => ?_)
  show Region.configured (if _ then _ else _) = _
  split
  · exact h r
  · rfl

theorem State.modRegion_configured (s : State) (n : Nat) {f : Region → Region} (h : ∀ r, (f r).configured = r.configured) :
    (s.modRegion n f).configured = s.configured := State.configured_eq (s.modRegion_listed n h) (fun _ => rfl) fun _ => rfl

/-- The first region of a number put in the place of every region of it. -/
theorem State.setRegion_listed {s : State} {r y : Region} (hr : s.region y.serial = some r) (h : y.configured = r.configured) :
    (s.setRegion y).listed = s.listed := by
  refine congrArg (Prod.mk s.seqTurn) (funext fun i => ?_)
  have hfind : (s.setRegion y).region i = (s.region i).map (fun x => if x.serial = y.serial then y else x) := by
    unfold State.region State.setRegion
    rw [List.find?_map]
    congr 2
    funext x
    show decide ((if _ then _ else _ : Region).serial = i) = _
    split
    · next e => rw [e]
    · rfl
  rw [hfind]
  cases hi : s.region i with
  | none => rfl
  | some x =>
    refine congrArg some ?_
    show Region.configured (if _ then _ else _) = _
    split
    · next e =>
      rw [← State.region_serial hi, e, hr] at hi
      rw [← Option.some.inj hi, h]
    · rfl

/-! #### Faults -/

@[simp] theorem State.modDie_listed (s : State) (d : BitVec 3) (f : Die → Die) : (s.modDie d f).listed = s.listed := rfl
@[simp] theorem State.event_listed (s : State) (d : BitVec 3) (typ : BitVec 8) (ctx : BitVec 9) (x y z : Word64) :
    (s.event d typ ctx x y z).listed = s.listed := rfl

@[simp] theorem State.moveCtx_listed (s : State) (d : BitVec 3) (n : BitVec 9) (f : Ctx → Ctx) : (s.moveCtx d n f).listed = s.listed := by
  unfold State.moveCtx
  dsimp only
  split <;> rfl

@[simp] theorem State.abandonCut_listed (s : State) (r : Region) : (s.abandonCut r).listed = s.listed := by
  have h := s.modRegion_listed r.serial (f := fun r => { r with cut := .none }) fun _ => rfl
  unfold State.abandonCut
  split
  · rfl
  · dsimp only
    split <;> exact h

@[simp] theorem State.abandonPreempt_listed (s : State) (r : Region) : (s.abandonPreempt r).listed = s.listed := by
  unfold State.abandonPreempt
  split
  · exact foldl_keeps State.listed (fun s r => s.abandonCut_listed r) _ s
  · rfl

@[simp] theorem State.freezeIfStopped_listed (s : State) (n : Nat) : (s.freezeIfStopped n).listed = s.listed := by
  unfold State.freezeIfStopped
  split
  · rfl
  · next r hr =>
    split
    · simp only [State.event_listed, State.modDie_listed, State.moveCtx_listed, State.abandonPreempt_listed]
      rw [State.setRegion_listed (r := r) ?_ ?_]
      · split <;> rfl
      · rw [← State.region_serial hr] at hr
        split <;> exact hr
      · rfl
    · rfl

theorem State.freezeIfStopped_configured (s : State) (n : Nat) : (s.freezeIfStopped n).configured = s.configured :=
  State.configured_of_steady (s.freezeIfStopped_steady n) (s.freezeIfStopped_listed n)

theorem State.demote_configured (s : State) (r : Region) : (s.demote r).configured = s.configured :=
  State.configured_of_steady (s.demote_steady r) (by unfold State.demote; split <;> rfl)

/-- A fault stops cells and freezes queues (R389): it leaves the configuration. -/
@[simp] theorem State.raiseFault_configured (s : State) (c : CellId) (f : FaultReg) : (s.raiseFault c f).configured = s.configured := by
  unfold State.raiseFault
  split
  · exact s.setCell_configured rfl
  · next r _ =>
    dsimp only
    have h0 (p : Bool) : (if p then s.demote r else s).configured = s.configured := by
      split
      · exact s.demote_configured r
      · rfl
    generalize hp : (!(s.cell c).fault.valid && s.isPrimary r c) = p
    have h1 (v : Cell) (hv : v.atFlip = (s.cell c).atFlip) : ((if p then s.demote r else s).setCell c v).configured = s.configured :=
      (State.setCell_configured _ (hv.trans (State.cell_of_configured (h0 p) c).symm)).trans (h0 p)
    split
    · rw [State.modRegion_configured _ _ ?_]
      · exact h1 _ (by split <;> rfl)
      · exact fun _ => rfl
    · rw [State.freezeIfStopped_configured, State.modRegion_configured _ _ ?_]
      · exact h1 _ (by split <;> rfl)
      · exact fun _ => rfl

/-! #### Units that come to queues, and that leave cells -/

@[simp] theorem State.newHead_configured (s : State) (c : CellId) (k : BitVec 3) (before : Option Item) :
    (s.newHead c k before).configured = s.configured := by
  unfold State.newHead
  split
  · split
    · exact s.raiseFault_configured c _
    · rfl
  · rfl

@[simp] theorem State.checkHeads_configured (s : State) (c : CellId) (before : Vector Queue 8) :
    (s.checkHeads c before).configured = s.configured := foldl_keeps State.configured (fun s _ => s.newHead_configured c _ _) _ s

@[simp] theorem State.sendFrees_configured (s : State) (c : CellId) (k : BitVec 3) (n : Nat) :
    (s.sendFrees c k n).configured = s.configured := by
  induction n generalizing s with
  | zero => rfl
  | succ n ih => exact (ih _).trans (s.sendPulse_configured c k 2)

@[simp] theorem State.xlateEngine_configured (s : State) (d : BitVec 3) (ctx : BitVec 9) (right : Right) (va : Word64) :
    (s.xlateEngine d ctx right va).2.configured = s.configured := by
  unfold State.xlateEngine
  dsimp only
  split
  · rfl
  · split
    · rfl
    · split <;> rfl

theorem State.ringMiss_configured (l : List Nat) (s : State) (d : BitVec 3) (ctx : BitVec 9) (q : Queue) {f : XFault} {va : Word64} {t : State}
    (h : s.ringMiss d ctx q l = some (f, va, t)) : t.configured = s.configured := by
  induction l with
  | nil => exact nomatch h
  | cons i l ih =>
    unfold State.ringMiss at h
    split at h
    · cases h; rfl
    · cases h; rfl
    · next heq => cases h; rw [← s.xlateEngine_configured d ctx .rw (q.ringVa i), heq]
    · exact ih h

theorem State.ringWrite_configured (l : List (Nat × List Byte)) (s : State) (d : BitVec 3) (ctx : BitVec 9) (q : Queue) :
    (s.ringWrite d ctx q l).configured = s.configured := by
  induction l generalizing s with
  | nil => rfl
  | cons p l ih =>
    have hx := s.xlateEngine_configured d ctx .rw (q.ringVa p.1)
    unfold State.ringWrite
    refine (ih _).trans ?_
    split
    · next e =>
      rw [e] at hx
      exact (State.configured_of_bare (State.putBytes_bare ..)).trans hx
    · next e =>
      rw [e] at hx
      exact hx

@[simp] theorem State.offerQ_configured (s : State) (d : BitVec 3) (ctx : BitVec 9) (qid : Word32) (q : Queue) (u : Item) :
    (s.offerQ d ctx qid q u).2.2.configured = s.configured := by
  unfold State.offerQ State.ringPut
  dsimp only
  cases hm : s.ringMiss d ctx q ((q.ringDirty (q.offer qid u).q).map Prod.fst) with
  | none => exact s.ringWrite_configured _ d ctx q
  | some m => exact s.ringMiss_configured _ d ctx q hm

/-- An offer to a queue leaves the configuration (R238). -/
@[simp] theorem State.offerCell_configured (s : State) (c : CellId) (k : BitVec 3) (u : Item) :
    (s.offerCell c k u).1.configured = s.configured := by
  have put (x : Queue) : ((s.offerQ c.die (s.ctxOfCell c) (cellWord c k) (s.cell c).queues[k.toNat] u).2.2.modCell c
      (fun y => { y with queues := y.queues.set k.toNat x })).configured = s.configured := by
    rw [State.modCell_configured _ _ ?_]
    · exact s.offerQ_configured ..
    · exact fun _ => rfl
  unfold State.offerCell
  dsimp only
  split
  · exact (State.newHead_configured ..).trans ((State.sendFrees_configured ..).trans (put _))
  · exact (State.raiseFault_configured ..).trans ((State.newHead_configured ..).trans ((State.sendFrees_configured ..).trans (put _)))

theorem State.onLink_configured (s : State) (c : CellId) (l : LinkEntry) (u : Item) : (s.onLink c l u).configured = s.configured := by
  unfold State.onLink
  dsimp only
  split <;> rfl

@[simp] theorem State.offerOut_configured (s : State) (q : BitVec 7) (p : BitVec 6) (u : Item) :
    (s.offerOut q p u).configured = s.configured := by
  have put (x : Queue) : (s.setSeq q { s.seq q with outPort := (s.seq q).outPort.set p.toNat (some x) }).configured = s.configured :=
    s.setSeq_configured rfl
  unfold State.offerOut
  dsimp only
  split
  · rfl
  · split
    · rfl
    · split
      · exact put _
      · next hm =>
        obtain ⟨⟨f, va, t⟩, hm, hf⟩ := Option.bind_eq_some_iff.mp hm
        obtain ⟨code, -, hc⟩ := Option.map_eq_some_iff.mp hf
        cases hc
        exact (State.raiseFault_configured _ _ _).trans ((State.ringMiss_configured _ _ _ _ _ hm).trans (put _))
      · exact (State.raiseFault_configured _ _ _).trans (put _)
      · exact put _

@[simp] theorem State.leaveBy_configured (s : State) (c : CellId) (so : BitVec 5) (u : Item) :
    (s.leaveBy c so u).configured = s.configured := by
  have h := foldl_keeps State.configured (fun s l => s.onLink_configured c l u) ((s.cell c).active.links.filter (fun l => l.so = so)) s
  unfold State.leaveBy
  dsimp only
  split
  · exact (State.offerOut_configured _ _ _ _).trans h
  · exact h

@[simp] theorem State.emitAll_configured (s : State) (c : CellId) (u : Item) : (s.emitAll c u).configured = s.configured :=
  foldl_keeps State.configured (fun s o => s.leaveBy_configured c o u) _ s

/-- The capo and the mute enter at the ports of the lead sequencer. -/
theorem State.portsOffer_configured (l : List (Option (CellId × BitVec 3))) (s : State) (u : Item) :
    (l.foldl (fun s p => match p with
      | some (c, q) => (s.offerCell c q u).1
      | none => s) s).configured = s.configured := by
  refine foldl_keeps State.configured (fun s p => ?_) l s
  cases p with
  | none => rfl
  | some p => exact s.offerCell_configured p.1 p.2 u

@[simp] theorem State.sendCapo_configured (s : State) (r : Region) : (s.sendCapo r).configured = s.configured := by
  refine Eq.trans ?_ (State.portsOffer_configured (s.seq r.lead).inPort.toList s capoItem)
  refine foldl_keeps State.configured (fun s c => foldl_keeps State.configured (fun s i => ?_) _ s) _ _
  split
  · exact s.offerCell_configured c _ capoItem
  · rfl

@[simp] theorem State.enterMute_configured (s : State) (r : Region) : (s.enterMute r).configured = s.configured :=
  State.portsOffer_configured _ s muteItem

end Sys2Proof.Machine
end

section
open Sys2Proof.Cert
namespace Sys2Proof.Machine

/-! ### The configuration status (R273) -/

theorem cfgNum_eq (c : CfgStatus) : cfgNum c = c.state.code.toNat + 8 * c.epoch.toNat + 16 * c.sigFail.toNat + 2 ^ 8 * c.issued.toNat
    + 2 ^ 17 * c.loaded.toNat + 2 ^ 32 * c.fbx.toNat + 2 ^ 36 * c.fby.toNat + 2 ^ 40 * c.cause.toNat + 2 ^ 48 * c.fcell.toNat
    + 2 ^ 54 * c.fnode.toNat := by
  obtain ⟨state, _⟩ := c
  cases state <;> rfl

/-- The status word is the number of its fields. -/
theorem CfgStatus.word_eq (c : CfgStatus) : c.word = BitVec.ofNat 64 (cfgNum c) := by
  apply BitVec.eq_of_toNat_eq
  have he := c.epoch.toNat_lt
  have hg := c.sigFail.toNat_lt
  rw [cfgNum_eq, CfgStatus.word]
  simp only [toNat_append_eq_add, BitVec.toNat_ofBool, BitVec.ofNat_eq_ofNat, BitVec.toNat_ofNat]
  omega

theorem failed_iff (c : CfgStatus) : failed c ↔ c.state.failed = true := by
  unfold failed
  cases c.state <;> decide

/-! ### The configuration instructions (R273 to R277) -/

theorem exec_cfgld (a : BitVec 5) (q : BitVec 3) (s : State) : exec (.cfgld a q) s = execCfgld a q s := rfl
theorem exec_cfgchk (d : BitVec 5) (q : BitVec 3) (s : State) : exec (.cfgchk d q) s = execCfgchk d q s := rfl
theorem exec_cfgflip (q : BitVec 3) (s : State) : exec (.cfgflip q) s = execCfgflip q s := rfl
theorem exec_cfgabort (q : BitVec 3) (s : State) : exec (.cfgabort q) s = execCfgabort q s := rfl

/-- Writing a register behind a wait is going on with the register written. -/
theorem wroteOn_eq (s : State) (d : BitVec 5) (v : Word64) :
    wroteOn s d v = s.setSeq s.seqTurn { (me s).writeG d v with pc := (me s).pc + 4, wait := .none } := by
  unfold wroteOn Seq.writeG
  split <;> rfl

theorem State.goOn_turn {s t : State} (h : t.seqTurn = s.seqTurn) (x : Seq) : t.goOn x = .next (t.setSeq s.seqTurn x.advance) := by
  rw [State.goOn, h]

section
variable {s : State} {r : Region} (hr : s.regionOfSeq s.seqTurn = some r)
include hr

theorem State.cfgOf_region : s.cfgOf = r.cfg := by rw [State.cfgOf, hr]
theorem State.fetching_region : s.fetching s.seqTurn = !r.fetches.isEmpty := by rw [State.fetching, hr]

theorem State.finishCfgchk_region (d : BitVec 5) :
    s.finishCfgchk s.seqTurn d = wroteOn s d (BitVec.ofNat 64 (cfgNum r.cfg)) := by
  rw [State.finishCfgchk, hr, wroteOn_eq, ← CfgStatus.word_eq]
  rfl

end

section
variable {s : State} (hr : s.regionOfSeq s.seqTurn = none)
include hr

theorem State.cfgOf_none : s.cfgOf = CfgStatus.reset := by rw [State.cfgOf, hr]
theorem State.fetching_none : s.fetching s.seqTurn = false := by rw [State.fetching, hr]

theorem State.finishCfgchk_none (d : BitVec 5) :
    s.finishCfgchk s.seqTurn d = wroteOn s d (BitVec.ofNat 64 (cfgNum CfgStatus.reset)) := by
  rw [State.finishCfgchk, hr, wroteOn_eq, ← CfgStatus.word_eq]
  rfl

end

/-! #### `cfgld` (R274) -/

section
variable {s : State} {a : BitVec 5} {q : BitVec 3} (ho : open_ s q)
include ho

theorem execCfgld_misaligned (hc : canTrap s) (hal : (reg s a).toNat % 64 ≠ 0) :
    exec (.cfgld a q) s = .next (trapped s 5 (reg s a)) := by
  rw [exec_cfgld, execCfgld, regionGuarded_open ho]
  exact (if_pos hal).trans (State.trap_canTrap hc _ _)

/-- A region with one more fetch outstanding, issued at a cycle: its configuration is LOADING. -/
def Region.issueFetch (r : Region) (va : Word64) (cyc : Nat) : Region :=
  { r with
    fetches := r.fetches ++ [{ addr := va, born := cyc }],
    cfg := { r.cfg with state := .loading, issued := if r.cfg.issued < 256 then r.cfg.issued + 1 else r.cfg.issued } }

/-- An aligned `cfgld` traps by the state of the configuration, or loads. -/
theorem execCfgld_aligned (hal : (reg s a).toNat % 64 = 0) : exec (.cfgld a q) s =
    if s.cfgOf.state.failed then s.trap tConfigFailed s.cfgOf.word
    else if s.cfgOf.state = .flipping then s.trap tConfigBusy (reg s a)
    else match s.regionOfSeq s.seqTurn with
      | none => s.goOn (me s)
      | some r =>
        if 16 ≤ r.fetches.length then s.waitOn .cfgld
        else if !s.storesCross s.seqTurn then s.waitOn .memory
        else ((s.flush s.seqTurn).modRegion r.serial (·.issueFetch (reg s a) s.cyc)).goOn (me s) := by
  rw [exec_cfgld, execCfgld, regionGuarded_open ho]
  exact if_neg (not_not.mpr hal)

theorem execCfgld_none (hr : s.regionOfSeq s.seqTurn = none) (hal : (reg s a).toNat % 64 = 0) :
    exec (.cfgld a q) s = .next (jumped s ((me s).pc + 4)) := by
  rw [execCfgld_aligned ho hal, State.cfgOf_none hr, hr]
  rfl

section
variable {r : Region} (hr : s.regionOfSeq s.seqTurn = some r) (hal : (reg s a).toNat % 64 = 0)
include hr hal

theorem execCfgld_failed (hc : canTrap s) (hf : failed r.cfg) :
    exec (.cfgld a q) s = .next (trapped s 19 (BitVec.ofNat 64 (cfgNum r.cfg))) := by
  rw [execCfgld_aligned ho hal, State.cfgOf_region hr, if_pos ((failed_iff _).mp hf), CfgStatus.word_eq]
  exact State.trap_canTrap hc _ _

theorem execCfgld_flipping (hc : canTrap s) (hf : r.cfg.state = .flipping) : exec (.cfgld a q) s = .next (trapped s 18 (reg s a)) := by
  rw [execCfgld_aligned ho hal, State.cfgOf_region hr, hf]
  exact State.trap_canTrap hc _ _

variable (hf : ¬ failed r.cfg) (hn : r.cfg.state ≠ .flipping)
include hf hn

theorem execCfgld_full (hl : 16 ≤ r.fetches.length) : exec (.cfgld a q) s = .next (s.setSeq s.seqTurn { me s with wait := .cfgld }) := by
  rw [execCfgld_aligned ho hal, State.cfgOf_region hr, if_neg (mt (failed_iff _).mpr hf), if_neg hn, hr]
  exact if_pos hl

theorem execCfgld_fetches (hl : r.fetches.length < 16) (hs : storesPass s) : exec (.cfgld a q) s = .next (past s { s.flush s.seqTurn with
    regions := (s.flush s.seqTurn).regions.map (fun y => if y.serial = r.serial then { y with
      fetches := y.fetches ++ [{ addr := reg s a, born := s.cyc }],
      cfg := { y.cfg with state := .loading, issued := if y.cfg.issued < 256 then y.cfg.issued + 1 else y.cfg.issued } } else y) }) := by
  have hturn : (s.flush s.seqTurn).seqTurn = s.seqTurn := State.seqTurn_of_running (s.flush_running s.seqTurn s.seqTurn)
  rw [execCfgld_aligned ho hal, State.cfgOf_region hr, if_neg (mt (failed_iff _).mpr hf), if_neg hn, hr]
  dsimp only
  rw [if_neg (Nat.not_le.mpr hl), storesCross_of_storesPass hs, if_neg (by decide)]
  exact State.goOn_turn (t := (s.flush s.seqTurn).modRegion r.serial (·.issueFetch (reg s a) s.cyc)) hturn (me s)

end

/-! #### `cfgchk` (R275) -/

theorem execCfgchk_none (hr : s.regionOfSeq s.seqTurn = none) (d : BitVec 5) :
    exec (.cfgchk d q) s = .next (wroteOn s d (BitVec.ofNat 64 (cfgNum CfgStatus.reset))) := by
  rw [exec_cfgchk, execCfgchk, regionGuarded_open ho, State.fetching_none hr, State.finishCfgchk_none hr]
  rfl

theorem execCfgchk_reads {r : Region} (hr : s.regionOfSeq s.seqTurn = some r) (hl : r.fetches = []) (d : BitVec 5) :
    exec (.cfgchk d q) s = .next (wroteOn s d (BitVec.ofNat 64 (cfgNum r.cfg))) := by
  rw [exec_cfgchk, execCfgchk, regionGuarded_open ho, State.fetching_region hr, State.finishCfgchk_region hr, hl]
  rfl

theorem execCfgchk_waits {r : Region} (hr : s.regionOfSeq s.seqTurn = some r) (hl : r.fetches ≠ []) (d : BitVec 5) :
    exec (.cfgchk d q) s = .next (s.setSeq s.seqTurn { me s with wait := .cfgchk d }) := by
  rw [exec_cfgchk, execCfgchk, regionGuarded_open ho, State.fetching_region hr]
  exact if_pos (by simpa using hl)

/-! #### `cfgflip` (R276) -/

/-- A region whose flip is under way. -/
def Region.flipping (r : Region) : Region := { r with cfg := { r.cfg with state := .flipping } }

theorem execCfgflip_none (hr : s.regionOfSeq s.seqTurn = none) (hc : canTrap s) :
    exec (.cfgflip q) s = .next (trapped s 17 (BitVec.ofNat 64 (cfgNum CfgStatus.reset))) := by
  rw [exec_cfgflip, execCfgflip, regionGuarded_open ho, State.cfgOf_none hr, hr, ← CfgStatus.word_eq]
  exact State.trap_canTrap hc _ _

section
variable {r : Region} (hr : s.regionOfSeq s.seqTurn = some r)
include hr

/-- The traps of `cfgflip` where nothing is STAGED, by the state of the configuration. -/
theorem execCfgflip_traps (hc : canTrap s) : let st := BitVec.ofNat 64 (cfgNum r.cfg)
    (r.cfg.state = .empty → exec (.cfgflip q) s = .next (trapped s 17 st)) ∧
    (r.cfg.state = .loading ∨ r.cfg.state = .flipping → exec (.cfgflip q) s = .next (trapped s 18 st)) ∧
    (failed r.cfg → exec (.cfgflip q) s = .next (trapped s 19 st)) := by
  rw [exec_cfgflip, execCfgflip, regionGuarded_open ho, State.cfgOf_region hr, hr, ← CfgStatus.word_eq]
  dsimp only
  refine ⟨fun h => ?_, fun h => ?_, fun h => ?_⟩
  · rw [h]
    exact State.trap_canTrap hc _ _
  · obtain h | h := h <;> rw [h] <;> exact State.trap_canTrap hc _ _
  · obtain h | h | h := h <;> rw [h] <;> exact State.trap_canTrap hc _ _

/-- A STAGED configuration that may flip does: the status is FLIPPING, and the capo enters (R276). -/
theorem execCfgflip_flips (hst : r.cfg.state = .staged) (harm : ∀ x ∈ r.sections, x.left = 0) (hcyc : (s.stagedView r).ungatedCycle = false)
    (hrej : s.stagedReject r = none) (hpulse : (s.stagedView r).badPulse = none) (hcirc : (s.stagedView r).badCircuit = none) :
    let t := (s.modRegion r.serial Region.flipping).sendCapo r
    exec (.cfgflip q) s = t.goOn (t.seq s.seqTurn) := by
  have hfind : r.sections.findIdx? (fun x => decide (0 < x.left)) = none := by
    rw [List.findIdx?_eq_none_iff]
    exact fun x hx => by simp [harm x hx]
  rw [exec_cfgflip, execCfgflip, regionGuarded_open ho, State.cfgOf_region hr, hr]
  dsimp only
  rw [hst]
  dsimp only
  rw [hfind, hrej, hpulse, hcirc, hcyc]
  rfl

end

/-! #### `cfgabort` (R277) -/

theorem execCfgabort_none (hr : s.regionOfSeq s.seqTurn = none) : exec (.cfgabort q) s = .next (jumped s ((me s).pc + 4)) := by
  rw [exec_cfgabort, execCfgabort, regionGuarded_open ho, State.cfgOf_none hr, State.fetching_none hr, hr]
  rfl

section
variable {r : Region} (hr : s.regionOfSeq s.seqTurn = some r)
include hr

theorem execCfgabort_flipping (hc : canTrap s) (hf : r.cfg.state = .flipping) :
    exec (.cfgabort q) s = .next (trapped s 18 (BitVec.ofNat 64 (cfgNum r.cfg))) := by
  rw [exec_cfgabort, execCfgabort, regionGuarded_open ho, State.cfgOf_region hr, ← CfgStatus.word_eq]
  exact (if_pos hf).trans (State.trap_canTrap hc _ _)

variable (hf : r.cfg.state ≠ .flipping)
include hf

theorem execCfgabort_waits (hl : r.fetches ≠ []) : exec (.cfgabort q) s = .next (s.setSeq s.seqTurn { me s with wait := .cfgabort }) := by
  rw [exec_cfgabort, execCfgabort, regionGuarded_open ho, State.cfgOf_region hr, State.fetching_region hr]
  exact (if_neg hf).trans (if_pos (by simpa using hl))

/-- A region whose configuration is EMPTY again (R277). -/
def Region.aborted (r : Region) : Region :=
  { r with cfg := { CfgStatus.reset with epoch := r.cfg.epoch }, named := [], tried := [], lostLoad := false }

/-- `cfgabort` with no fetch outstanding: nothing where the configuration is EMPTY, else the shadows go. -/
theorem execCfgabort_ready (hl : r.fetches = []) : exec (.cfgabort q) s =
    if r.cfg.state = .empty then s.goOn (me s)
    else ((s.dropShadows r).modRegion r.serial Region.aborted).goOn (me s) := by
  rw [exec_cfgabort, execCfgabort, regionGuarded_open ho, State.cfgOf_region hr, State.fetching_region hr, hr, hl]
  exact if_neg hf

end
end

/-! #### What `cfgflip` and `cfgabort` leave -/

/-- A region whose status, map and records are those of another satisfies of them what that one does. -/
theorem regionIs_of_configured {t : State} {n : Nat} {y : Region} (h : (t.region n).map Region.configured = some y.configured)
    (p : Nat × CfgStatus × List Placed × List Placed → Prop) (hp : p y.configured) : regionIs t n (fun x => p x.configured) := by
  intro x hx
  rw [hx, Option.map_some, Option.some.injEq] at h
  rwa [h]

/-- A region in which a flip has begun, and the sequencer that began it, behind the capo (R276). -/
theorem State.sendCapo_flipping {s : State} {r : Region} (hr : s.region r.serial = some r) :
    let t := (s.modRegion r.serial Region.flipping).sendCapo r
    regionIs t r.serial (fun y => y.cfg.state = .flipping ∧ y.map = r.map ∧ y.named = r.named) ∧ t.seqTurn = s.seqTurn ∧
      (t.seq s.seqTurn).fixed = (me s).fixed := by
  have h := State.sendCapo_configured (s.modRegion r.serial Region.flipping) r
  refine ⟨?_, (State.seqTurn_of_configured h :), (State.seq_of_configured h s.seqTurn :)⟩
  refine regionIs_of_configured (y := r.flipping) ?_
    (fun z => z.2.1.state = .flipping ∧ z.2.2.1 = r.map ∧ z.2.2.2 = r.named) ⟨rfl, rfl, rfl⟩
  rw [State.region_of_configured h, State.modRegion_region _ _ _ Region.flipping (fun _ => rfl), hr]
  simp

theorem State.dropShadows_cell (s : State) (r : Region) (c : CellId) : (s.dropShadows r).cell c =
    if c ∈ s.cellsOf r then { s.cell c with shadow := none } else s.cell c := by
  unfold State.dropShadows
  generalize s.cellsOf r = l
  induction l generalizing s with
  | nil => rfl
  | cons b l ih =>
    rw [List.foldl_cons, ih, State.modCell_cell]
    by_cases hcb : c = b
    · subst hcb
      simp
    · simp [hcb]

/-- The discard changes cells alone. -/
theorem State.dropShadows_others (s : State) (r : Region) :
    (s.dropShadows r).seqs = s.seqs ∧ (s.dropShadows r).regions = s.regions ∧ (s.dropShadows r).seqTurn = s.seqTurn := by
  have h : ((s.dropShadows r).seqs, (s.dropShadows r).regions, (s.dropShadows r).seqTurn) = (s.seqs, s.regions, s.seqTurn) := by
    refine foldl_keeps (fun s : State => (s.seqs, s.regions, s.seqTurn)) (fun s c => ?_) _ s
    rfl
  simpa only [Prod.mk.injEq] using h

/-- The shadows discarded (R277): the region is EMPTY with its map and its epoch, and its cells keep their active configurations. -/
theorem execCfgabort_discards {s : State} {q : BitVec 3} {r : Region} (ho : open_ s q) (hr : s.regionOfSeq s.seqTurn = some r)
    (hf : r.cfg.state ≠ .flipping) (he : r.cfg.state ≠ .empty) (hl : r.fetches = []) (hreg : s.region r.serial = some r) :
    ∃ t, exec (.cfgabort q) s = .next t ∧
      regionIs t r.serial (fun y => y.cfg = { CfgStatus.reset with epoch := r.cfg.epoch } ∧ y.named = [] ∧ y.map = r.map) ∧
      (∀ c ∈ s.cellsOf r, (t.cell c).shadow = none ∧ (t.cell c).active = (s.cell c).active) ∧
      t.seq s.seqTurn = { me s with pc := (me s).pc + 4 } := by
  obtain ⟨-, hregions, hturn⟩ := s.dropShadows_others r
  refine ⟨_, (execCfgabort_ready ho hr hf hl).trans (if_neg he), ?_, fun c hc => ?_, ?_⟩
  · refine State.modRegion_regionIs (fun _ => rfl) (s := s.dropShadows r) (r := r) ?_ ⟨rfl, rfl, rfl⟩
    rw [State.region, hregions]
    exact hreg
  · rw [State.setSeq_cell, State.modRegion_cell, State.dropShadows_cell, if_pos hc]
    exact ⟨rfl, rfl⟩
  · rw [State.modRegion_seqTurn, hturn, State.setSeq_seq_self]
    rfl

/-- Settles O29: each instruction by the state of its region's configuration; the capo of a flip leaves the status, the map and the registers. -/
theorem configurationInstructions : Obligations.ConfigurationInstructions := by
  unfold Obligations.ConfigurationInstructions
  refine ⟨fun s a q r hr ho => ?_, fun s a q hr ho =>
    ⟨execCfgld_none ho hr, execCfgchk_none ho hr a, execCfgflip_none ho hr, execCfgabort_none ho hr⟩⟩
  refine ⟨execCfgld_full ho hr, execCfgld_fetches ho hr, (execCfgchk_reads ho hr · a), (execCfgchk_waits ho hr · a), ?flips, ?traps,
    execCfgabort_discards ho hr, execCfgabort_waits ho hr, ?empty⟩
  case flips =>
    intro hst harm hcyc hrej hpulse hcirc hreg
    obtain ⟨hregion, hturn, hseq⟩ := State.sendCapo_flipping hreg
    refine ⟨_, (execCfgflip_flips ho hr hst harm hcyc hrej hpulse hcirc).trans (State.goOn_seq hturn), hregion, ?_, ?_⟩
    · rw [jumped_seq hturn]
      exact (congrArg (fun x => x.pc + 4) hseq :)
    · rw [jumped_seq hturn]
      exact (congrArg Seq.g hseq :)
  case traps =>
    intro hc
    obtain ⟨hempty, hbusy, hfailed⟩ := execCfgflip_traps ho hr hc
    exact ⟨hempty, hbusy, hfailed, execCfgabort_flipping ho hr hc, (execCfgld_failed ho hr · hc), (execCfgld_flipping ho hr · hc),
      execCfgld_misaligned ho hc⟩
  case empty =>
    intro he hl
    exact (execCfgabort_ready ho hr (by rw [he]; decide) hl).trans (if_pos he)

end Sys2Proof.Machine
end

section
open Sys2Proof.Cert
namespace Sys2Proof.Machine

/-! ### What a retune leaves of a configuration (R315, R334 to R336) -/

@[simp] theorem State.latchPins_configured (s : State) (c : CellId) : (s.latchPins c).configured = s.configured :=
  s.setCell_configured rfl

@[simp] theorem State.latchRegion_configured (s : State) (r : Region) : (s.latchRegion r).configured = s.configured :=
  foldl_keeps State.configured State.latchPins_configured _ s

@[simp] theorem State.xlateMp_configured (s : State) (c : CellId) (right : Right) (peerOk : Bool) (va : Word64) :
    (s.xlateMp c right peerOk va).2.configured = s.configured := by
  obtain ⟨f, hf⟩ := s.xlateMp_fills c right peerOk va
  rw [hf, State.modDie_configured]

@[simp] theorem State.xlateSpan_configured (s : State) (c : CellId) (right : Right) (peerOk : Bool) (va : Word64) (n : Nat) :
    (s.xlateSpan c right peerOk va n).2.configured = s.configured := by
  have h := s.xlateMp_configured c right peerOk va
  unfold State.xlateSpan
  dsimp only
  split
  · next e =>
    rw [e] at h
    exact h
  · next s1 e =>
    rw [e] at h
    split
    · exact h
    · have h2 := s1.xlateMp_configured c right peerOk (va + BitVec.ofNat 64 (min n (4096 - va.toNat % 4096)))
      split
      · next e2 =>
        rw [e2] at h2
        exact h2.trans h
      · next e2 =>
        rw [e2] at h2
        exact h2.trans h

theorem State.retuneStore_configured (s : State) (c : CellId) (h : HeldStore) : (s.retuneStore c h).2.configured = s.configured := by
  have hx := s.xlateSpan_configured c .w (h.places == 1) h.va
    ((h.bytes.map (fun b => (BitVec.ofNat 12 b.1 - bits h.va 0 12).toNat + 1)).foldl max 1)
  unfold State.retuneStore
  dsimp only
  split
  · next e =>
    rw [e] at hx
    exact hx
  · next e =>
    rw [e] at hx
    exact hx

theorem State.retuneHeld_configured (l : List HeldStore) (s : State) (c : CellId) : (s.retuneHeld c l).configured = s.configured := by
  induction l generalizing s with
  | nil => rfl
  | cons h l ih =>
    have hx := s.retuneStore_configured c h
    unfold State.retuneHeld
    split
    · next e =>
      rw [e] at hx
      rw [ih, State.modCell_configured _ _ ?_]
      · exact hx
      · exact fun _ => rfl
    · next e =>
      rw [e] at hx
      rw [ih, State.raiseFault_configured]
      exact hx

@[simp] theorem State.retuneStores_configured (s : State) (r : Region) : (s.retuneStores r).configured = s.configured := by
  refine foldl_keeps State.configured (fun s c => ?_) _ s
  dsimp only
  split
  · rfl
  · rw [State.retuneHeld_configured, State.modCell_configured _ _ ?_]
    exact fun _ => rfl

/-- A retune that begins marks the region, its sources or its sequencer, and leaves the configuration. -/
@[simp] theorem State.startRetune_configured (s : State) (n : Nat) : (s.startRetune n).configured = s.configured := by
  have begins (s : State) (l : List Retune) : (s.modRegion n (fun r => { r with retunes := l })).configured = s.configured := by
    rw [State.modRegion_configured _ _ ?_]
    exact fun _ => rfl
  unfold State.startRetune
  split
  · rfl
  · next r _ =>
    split
    · rfl
    · next t rest _ =>
      split
      · rfl
      · split
        · rw [State.modRegion_configured _ _ ?_]
          exact fun _ => rfl
        · split
          · rfl
          · dsimp only
            split
            · exact (State.retuneStores_configured ..).trans ((State.latchRegion_configured ..).trans
                ((begins s.freshNat.2 _).trans s.freshNat_configured))
            · split
              · refine (foldl_keeps State.configured (fun s p => ?_) _ _).trans (begins s _)
                rw [State.modCell_configured _ _ ?_]
                exact fun _ => rfl
              · rw [State.modSeq_configured _ _ ?_, State.enterMute_configured]
                · exact begins s _
                · exact fun _ => rfl

/-! ### The records of a configuration (R268, R269, R274) -/

theorem exec_cfgchkComplete (q : BitVec 7) (s : State) : exec (.cfgchkComplete q) s = execCfgchkComplete q s := rfl
theorem exec_configFetchComplete (n k : Nat) (s : State) : exec (.configFetchComplete n k) s = execConfigFetchComplete n k s := rfl
theorem exec_cellFlip (c : CellId) (s : State) : exec (.cellFlip c) s = execCellFlip c s := rfl

theorem execCfgchkComplete_reads {s : State} {d : BitVec 5} {r : Region} (hr : s.regionOfSeq s.seqTurn = some r)
    (hw : (me s).wait = .cfgchk d) (hrun : (me s).run = .running) (hl : r.fetches = []) :
    exec (.cfgchkComplete s.seqTurn) s = .next (wroteOn s d (BitVec.ofNat 64 (cfgNum r.cfg))) := by
  rw [exec_cfgchkComplete, execCfgchkComplete, show (s.seq s.seqTurn).wait = .cfgchk d from hw]
  dsimp only
  rw [State.fetching_region hr, hl, show (s.seq s.seqTurn).run = .running from hrun, State.finishCfgchk_region hr]
  rfl

/-- A region whose `k`-th fetch, of the record at an address, has ended (R274). -/
def Region.fetched (r : Region) (s : State) (k : Nat) (va : Word64) : Region :=
  { r with fetches := r.fetches.eraseIdx k, tried := r.tried ++ s.namesBlock r va }

/-- A region with one more record loaded, which names a block (R268, R274). -/
def Region.recordLoaded (r : Region) (p : Placed) : Region :=
  { r with
    named := r.named ++ [p],
    cfg := { r.cfg with
      loaded := r.cfg.loaded + 1,
      state := if r.cfg.loaded + 1 = r.cfg.issued ∧ r.cfg.state.failed = false then .staged else r.cfg.state } }

/-- Placing shadows changes cells alone. -/
theorem State.placeShadows_others (s : State) (r : Region) (b : BlockRec) :
    (s.placeShadows r b).mem = s.mem ∧ (s.placeShadows r b).regions = s.regions := by
  have h : ((s.placeShadows r b).mem, (s.placeShadows r b).regions) = (s.mem, s.regions) := by
    refine foldl_keeps (fun s : State => (s.mem, s.regions)) (fun s n => ?_) _ s
    rfl
  exact Prod.mk.inj h

/-- The shadow of one cell of a record's block placed. -/
def State.placeShadow (s : State) (r : Region) (b : BlockRec) (n : Nat) : State :=
  s.modCell (r.cellAt b.head.pbx b.head.pby (BitVec.ofNat 6 n)) (fun x => { x with
    shadow := some (b.config (BitVec.ofNat 6 n)),
    epoch := if r.map.any (fun p => p.px == b.head.pbx && p.py == b.head.pby) then x.epoch else r.cfg.epoch })

theorem State.placeShadows_eq (s : State) (r : Region) (b : BlockRec) :
    s.placeShadows r b = (List.range 64).foldl (fun s n => s.placeShadow r b n) s := rfl

/-- A shadow that is placed, or that was there and is the record's, stays as further shadows are placed. -/
theorem State.placeShadow_foldl (r : Region) (b : BlockRec) (i : BitVec 6) (l : List Nat) (s : State)
    (hi : i.toNat ∈ l ∨ (s.cell (r.cellAt b.head.pbx b.head.pby i)).shadow = some (b.config i)) :
    ((l.foldl (fun s n => s.placeShadow r b n) s).cell (r.cellAt b.head.pbx b.head.pby i)).shadow = some (b.config i) := by
  induction l generalizing s with
  | nil => simpa using hi
  | cons n l ih =>
    refine ih _ ?_
    simp only [State.placeShadow, State.modCell_cell]
    split
    · next e => exact .inr (congrArg (fun j => some (b.config j)) (congrArg CellId.n e).symm)
    · next e =>
      refine hi.imp_left fun hm => (List.mem_cons.mp hm).resolve_left fun hn => e ?_
      rw [← hn, BitVec.ofNat_toNat, BitVec.setWidth_eq]

/-- Every cell of the record's block takes its configuration as its shadow (R269). -/
theorem State.placeShadows_shadow (s : State) (r : Region) (b : BlockRec) (i : BitVec 6) :
    ((s.placeShadows r b).cell (r.cellAt b.head.pbx b.head.pby i)).shadow = some (b.config i) := by
  rw [State.placeShadows_eq]
  exact State.placeShadow_foldl r b i _ s (.inl (List.mem_range.mpr i.isLt))

section
variable {s : State} {n k : Nat} {r : Region} {f : Fetch} {b : BlockRec} (hr : s.region n = some r) (hf : r.fetches[k]? = some f)
  (hlost : r.lostLoad = false) (hway : s.engineWay r.die r.launch.ctx f.addr = .up)
  (hb : (s.settleDie r.die).fetchBlock r f.addr none (fun x y => decide ((x, y) ∈ r.tried)) = .ok b)
include hr hf hlost hway hb

/-- A fetch ends with a record that passes its checks: its shadows are placed, and the region names its block (R274). -/
theorem execConfigFetchComplete_loads : exec (.configFetchComplete n k) s = .next
    ((((s.settleDie r.die).modRegion n (·.fetched (s.settleDie r.die) k f.addr)).placeShadows r b).modRegion n
      (·.recordLoaded ⟨b.head.lbx, b.head.lby, b.head.pbx, b.head.pby⟩)) := by
  rw [exec_configFetchComplete, execConfigFetchComplete, hr]
  dsimp only
  rw [hf]
  dsimp only
  rw [hway]
  dsimp only
  rw [hlost, if_neg (by decide), hb]
  rfl

theorem execConfigFetchComplete_does (hst : r.cfg.state = .loading) :
    ∃ t, exec (.configFetchComplete n k) s = .next t ∧ t.mem = (s.settleDie r.die).mem ∧
      regionIs t n (fun y => y.fetches = r.fetches.eraseIdx k ∧ y.cfg.loaded = r.cfg.loaded + 1 ∧ y.cfg.issued = r.cfg.issued ∧
        y.cfg.state = (if r.cfg.loaded + 1 = r.cfg.issued then .staged else .loading) ∧
        y.named = r.named ++ [⟨b.head.lbx, b.head.lby, b.head.pbx, b.head.pby⟩] ∧
        y.tried = r.tried ++ (s.settleDie r.die).namesBlock r f.addr) ∧
      ∀ i : BitVec 6, (t.cell (r.cellAt b.head.pbx b.head.pby i)).shadow = some (b.config i) := by
  obtain ⟨hmem, hregions⟩ := ((s.settleDie r.die).modRegion n (·.fetched (s.settleDie r.die) k f.addr)).placeShadows_others r b
  refine ⟨_, execConfigFetchComplete_loads hr hf hlost hway hb, ?mem, ?region, fun i => ?shadow⟩
  case mem => rw [State.modRegion_mem, hmem, State.modRegion_mem]
  case shadow =>
    rw [State.modRegion_cell]
    exact State.placeShadows_shadow _ r b i
  have hreg : (s.settleDie r.die).region n = some r := by
    rw [← hr]
    exact congrArg (fun l => List.find? _ l) (congrArg State.regions (s.settle_bare (.die r.die)) :)
  refine State.modRegion_regionIs (fun _ => rfl) (r := r.fetched (s.settleDie r.die) k f.addr) ?_ ⟨rfl, rfl, rfl, ?_, rfl, rfl⟩
  · rw [State.region, hregions]
    refine (State.modRegion_region _ n n (·.fetched (s.settleDie r.die) k f.addr) fun _ => rfl).trans ?_
    rw [hreg, Option.map_some, if_pos (State.region_serial hr)]
  · simp [Region.recordLoaded, Region.fetched, hst, CfgState.failed]

end

/-! ### A cell that flips (R22, R270) -/

/-- A cell that has sent the capo on and has taken it off its inlet queues. -/
def State.pastCapo (s : State) (c : CellId) : State := (s.emitAll c capoItem).modCell c (fun x => { x with
  queues := x.queues.map (fun q => if (q.head.map (fun u => u.tag.kind == 5)).getD false then q.pop else q) })

theorem State.pastCapo_configured (s : State) (c : CellId) : (s.pastCapo c).configured = s.configured := by
  rw [State.pastCapo, State.modCell_configured _ _ ?_, State.emitAll_configured]
  exact fun _ => rfl

theorem State.bindPorts_cell (s : State) (r : Region) (v : View) (c b : CellId) : (s.bindPorts r v c).cell b = s.cell b := by
  unfold State.bindPorts
  dsimp only
  split
  · rfl
  · refine foldl_keeps (fun s : State => s.cell b) (fun s k => ?_) _ s
    exact s.modSeq_cell ..

theorem Cell.withTable_atFlip (x : Cell) : x.withTable.atFlip = x.atFlip := by
  unfold Cell.withTable
  split <;> rfl

/-- A cell that takes over its shadow keeps its epoch; the shadow is its configuration, and it has none any more (R270). -/
theorem State.applyShadow_cell {s t : State} {r : Region} {v : View} {c : CellId} (h : s.applyShadow r v c = some t) :
    (t.cell c).epoch = (s.cell c).epoch ∧ ∀ f, (s.cell c).shadow = some f → (t.cell c).active = f ∧ (t.cell c).shadow = none := by
  unfold State.applyShadow at h
  dsimp only at h
  split at h
  · next hn =>
    obtain rfl := Option.some.inj h
    rw [State.bindPorts_cell]
    exact ⟨rfl, fun f hf => nomatch hn.symm.trans hf⟩
  · next sh hs =>
    split at h
    · exact nomatch h
    · obtain rfl := Option.some.inj h
      have hcell (x : Cell) : ((((s.setCell c x.withTable).bindPorts r v c).latchPins c).cell c).atFlip = x.atFlip := by
        rw [State.cell_of_configured (State.latchPins_configured ..), State.bindPorts_cell, State.setCell_cell_self, Cell.withTable_atFlip]
      simp only [Cell.atFlip, Prod.mk.injEq] at hcell
      obtain ⟨hactive, hshadow, hepoch, -⟩ := hcell _
      exact ⟨hepoch, fun f hf => ⟨hactive.trans (Option.some.inj (hs.symm.trans hf)), hshadow⟩⟩

/-- The end of a region's flip leaves what its cells' flips have set (R272). -/
theorem State.completeFlip_cell (s : State) (n : Nat) (b : CellId) : ((s.completeFlip n).cell b).atFlip = (s.cell b).atFlip := by
  unfold State.completeFlip
  split
  · rfl
  · split
    · refine (State.cell_of_configured (State.startRetune_configured _ n) b).trans ?_
      refine foldl_keeps (fun s : State => (s.cell b).atFlip) (fun s c => ?_) _ s
      exact State.cell_of_configured (s.modCell_configured c (f := fun x => { x with flipped := false }) fun _ => rfl) b
    · rfl

/-- A cell past the capo that holds nothing flips (R270). -/
theorem execCellFlip_flips {s t : State} {c : CellId} {r : Region} (hr : s.regionOf c = some r) (hf : r.cfg.state = .flipping)
    (hc : s.cellRuns c = true) (hm : s.mayFlip c = true) (hh : (s.cell c).holdsState = false)
    (ht : (s.pastCapo c).applyShadow r ((s.pastCapo c).stagedView r) c = some t) :
    exec (.cellFlip c) s = .next (((t.modCell c Cell.afterFlip).checkHeads c (s.cell c).queues).completeFlip r.serial) := by
  rw [exec_cellFlip, execCellFlip, hr]
  dsimp only
  rw [if_neg (by simp [hf, hc, hm]), hh, if_neg (by decide)]
  unfold State.pastCapo at ht
  rw [show kCapo = (5 : BitVec 4) from rfl, ht]

theorem execCellFlip_does {s : State} {c : CellId} {r : Region} (hr : s.regionOf c = some r) (hf : r.cfg.state = .flipping)
    (hc : s.cellRuns c = true) (hm : s.mayFlip c = true) (hh : (s.cell c).holdsState = false)
    (ht : ((s.pastCapo c).applyShadow r ((s.pastCapo c).stagedView r) c).isSome = true) :
    ∃ t, exec (.cellFlip c) s = .next t ∧ (t.cell c).epoch = !(s.cell c).epoch ∧ (t.cell c).last = 7 ∧
      (t.cell c).pin = Vector.replicate 8 [] ∧
      ∀ f, (s.cell c).shadow = some f → (t.cell c).active = f ∧ (t.cell c).shadow = none := by
  obtain ⟨t, ht⟩ := Option.isSome_iff_exists.mp ht
  refine ⟨_, execCellFlip_flips hr hf hc hm hh ht, ?_⟩
  have hpast := State.cell_of_configured (s.pastCapo_configured c) c
  have hcell := ((t.modCell c Cell.afterFlip).checkHeads c (s.cell c).queues).completeFlip_cell r.serial c
  rw [State.cell_of_configured (State.checkHeads_configured ..), State.modCell_cell_self] at hcell
  simp only [Cell.atFlip, Cell.afterFlip, Prod.mk.injEq] at hpast hcell
  obtain ⟨-, hshadow, hepoch, -⟩ := hpast
  obtain ⟨hactive', hshadow', hepoch', hlast', hpin'⟩ := hcell
  obtain ⟨htepoch, htshadow⟩ := State.applyShadow_cell ht
  rw [hepoch', hlast', hpin', hactive', hshadow', htepoch, hepoch]
  exact ⟨rfl, rfl, rfl, fun f hf => htshadow f (hshadow.trans hf)⟩

/-- Settles O30: a wait ends with the status, a fetch with its record's shadows placed, and a flip with what it sets of the cell, which the faults and
the retune behind it leave. -/
theorem configurationCompletes : Obligations.ConfigurationCompletes := by
  unfold Obligations.ConfigurationCompletes
  exact ⟨fun s d r => execCfgchkComplete_reads, fun s n k r f b hr hf hst hlost hway hb => execConfigFetchComplete_does hr hf hlost hway hb hst,
    fun s c r => execCellFlip_does⟩

end Sys2Proof.Machine
end

section
open Sys2Proof.Cert
namespace Sys2Proof.Machine

theorem exec_bari (a : BitVec 5) (g c : BitVec 3) (s : State) : exec (.bari a g c) s = execBari a g c s := rfl
theorem exec_bara (a : BitVec 5) (g c : BitVec 3) (s : State) : exec (.bara a g c) s = execBara a g c s := rfl
theorem exec_barw (a : BitVec 5) (g c : BitVec 3) (s : State) : exec (.barw a g c) s = execBarw a g c s := rfl
theorem exec_bart (a : BitVec 5) (k g c : BitVec 3) (s : State) : exec (.bart a k g c) s = execBart a k g c s := rfl
theorem exec_barwComplete (q : BitVec 7) (s : State) : exec (.barwComplete q) s = execBarwComplete q s := rfl

/-! ### The number that holds a barrier (R295, R296) -/

theorem barOpen_iff (b : Nat) : barOpen b = true ↔ b / 2 ^ 96 % 4 = 1 := beq_iff_eq

theorem barPhase_toNat (b : Nat) : (barPhase b).toNat = b / 2 ^ 64 % 2 ^ 32 := BitVec.toNat_ofNat ..

section
variable (b arrived expect : Nat) (phase : Word32) (state : Nat)

/-- The fields leave the reserved bits as they are. -/
theorem barWith_div : barWith b arrived expect phase state / 2 ^ 98 = b / 2 ^ 98 := by
  have hphase := phase.isLt
  unfold barWith
  omega

theorem barWith_mod : barWith b arrived expect phase state % 2 ^ 98 =
    arrived % 2 ^ 32 + expect % 2 ^ 32 * 2 ^ 32 + phase.toNat * 2 ^ 64 + state % 4 * 2 ^ 96 := by
  have hphase := phase.isLt
  unfold barWith
  omega

theorem barWith_lt {b : Nat} (hb : b < 256 ^ 16) : barWith b arrived expect phase state < 256 ^ 16 := by
  have hdiv := barWith_div b arrived expect phase state
  omega

end

theorem barInit_fields (b : Nat) {e : Nat} (he : e < 2 ^ 32) :
    barInit b e % 2 ^ 98 = e * 2 ^ 32 + 2 ^ 96 ∧ barInit b e / 2 ^ 98 = b / 2 ^ 98 := by
  refine ⟨(barWith_mod ..).trans ?_, barWith_div ..⟩
  rw [Nat.mod_eq_of_lt he, show (0 : Word32).toNat = 0 from rfl]
  omega

theorem barArrive_lt {b : Nat} (hb : b < 256 ^ 16) : barArrive b < 256 ^ 16 := by
  unfold barArrive
  split
  · exact barWith_lt _ _ _ _ hb
  · exact barWith_lt _ _ _ _ hb

section
variable {b : Nat} (ho : b / 2 ^ 96 % 4 = 1)
include ho

/-- An arrival before the last of its phase counts, and changes no other bit. -/
theorem barArrive_counts (h : b % 2 ^ 32 + 1 < b / 2 ^ 32 % 2 ^ 32) : barArrive b = b + 1 := by
  rw [barArrive, barArrived, barExpect, if_pos h, barWith, barPhase_toNat]
  omega

/-- The last arrival of a phase begins the next. -/
theorem barArrive_completes (h : b / 2 ^ 32 % 2 ^ 32 ≤ b % 2 ^ 32 + 1) :
    barArrive b % 2 ^ 32 = 0 ∧ barArrive b / 2 ^ 32 % 2 ^ 32 = b / 2 ^ 32 % 2 ^ 32 ∧
      barArrive b / 2 ^ 64 % 2 ^ 32 = (b / 2 ^ 64 + 1) % 2 ^ 32 ∧ barArrive b / 2 ^ 96 = b / 2 ^ 96 := by
  have hphase : (barPhase b + 1).toNat = (b / 2 ^ 64 + 1) % 2 ^ 32 := by
    rw [BitVec.toNat_add, barPhase_toNat]
    exact (Nat.add_mod ..).symm
  rw [barArrive, barArrived, barExpect, if_neg (Nat.not_lt.mpr h), barWith, hphase]
  omega

end

/-! ### The access to a barrier (R142, R147, R298) -/

section
variable {s s0 : State} {right : Right} {va : Word64} {f : Except XFault Xlated} (hx : s.xlate s.seqTurn right va = (f, s0))
include hx

/-- What is ordered before an access is performed for the sequencer whose address was translated. -/
theorem settled_of_xlate : settled s0 = s0.settle (.seq s.seqTurn) := by
  have h0 := s.xlate_running s.seqTurn right va
  rw [hx] at h0
  rw [settled, State.seqTurn_of_running h0]

theorem settled_running_of_xlate : (settled s0).running s.seqTurn = s.running s.seqTurn := by
  have h0 := s.xlate_running s.seqTurn right va
  rw [hx] at h0
  exact (s0.settle_running ..).trans h0

end

theorem mayRelease_zero (s : State) (o : BitVec 2) : mayRelease s o 0 := fun _ h => absurd h (by decide)

theorem barGuarded_on {s : State} {g c : BitVec 3} (h : guardOn s g 0) (hi : mayIssue s) (hr : mayRelease s 3 c) (body : Seq → State) :
    barGuarded s g c body = .next (body (me s)) := by
  rw [barGuarded, guarded_on h, mayAccess_of_mayIssue hi, mayOrder_of_mayRelease hr]
  rfl

/-- A trap of the running sequencer, in a state with that sequencer but for its cached translations (R383). -/
theorem State.takeTrap_of_running {s t : State} (h : t.running s.seqTurn = s.running s.seqTurn) (hc : canTrap s) (cause : Nat) (val : Word64) :
    t.takeTrap s.seqTurn cause val = trapped t cause val := by
  rw [← State.seqTurn_of_running h]
  exact Host.Outcome.next.inj (State.trap_canTrap (canTrap_of_running h hc) cause val)

theorem State.pass_me (s : State) (f : Seq → Seq) :
    s.pass s.seqTurn f = s.setSeq s.seqTurn (f { me s with wait := .none, pc := (me s).pc + 4 }) := rfl

@[simp] theorem State.pass_byteAt (s : State) (q : BitVec 7) (f : Seq → Seq) (key : Key) (pa : Nat) :
    (s.pass q f).byteAt key pa = s.byteAt key pa := rfl
@[simp] theorem State.pass_numAt (s : State) (q : BitVec 7) (f : Seq → Seq) (key : Key) (pa n : Nat) :
    (s.pass q f).numAt key pa n = s.numAt key pa n := rfl

section
variable {s s1 : State} {right : Right} {va : Word64} {x : Xlated} (h : barReaches s s1 right va x)
include h

theorem running_of_barReaches : s1.running s.seqTurn = s.running s.seqTurn := by
  obtain ⟨s0, -, hx, -, rfl, -⟩ := h
  exact (State.running_of_bare _ (State.flushOver_bare ..)).trans (settled_running_of_xlate hx)

theorem memOk_of_barReaches (hok : MemOk s) : MemOk s1 := by
  obtain ⟨s0, -, hx, -, rfl, -⟩ := h
  have h0 := s.xlate_store s.seqTurn right va
  rw [hx] at h0
  exact State.flushOver_memOk _ _ _ _ (s0.settle_memOk _ (MemOk.of_store h0 hok))

theorem State.atBarrier_of_barReaches (body : State → Xlated → State) : s.atBarrier s.seqTurn right va body = body s1 x := by
  obtain ⟨s0, hal, hx, hpath, hs1, hpoison⟩ := h
  have hfound : (s0.settle (.seq s.seqTurn)).flushOver s.seqTurn x.pa 16 = s1 := by
    rw [hs1, atBar, State.seqTurn_of_running (settled_running_of_xlate hx), settled_of_xlate hx]
  rw [State.atBarrier, if_neg (not_not_intro hal), hx]
  dsimp only
  rw [hpath]
  dsimp only
  rw [hfound, hpoison]

end

/-! ### `bari` and `bara` (R296, R298) -/

/-- A sequencer that has changed a barrier behind its release goes on, with the barrier's new number there and no other byte changed. -/
theorem barrierLeft_pass {s s1 s2 : State} {right : Right} {va : Word64} {x : Xlated} {n : Nat} {p : Nat → Prop} {f : Seq → Seq}
    {arv : Option (Word64 × Word32)} (hx : barReaches s s1 right va x) (hb : s2.bare = s1.bare) (hok : MemOk s2)
    (hplace : inStack x.pa = true ∨ inHost x.pa = true) (hn : n < 256 ^ 16) (hp : p n)
    (hf : ∀ z : Seq, z.arv = (me s).arv → f z = { z with arv := arv }) :
    barrierLeft s s1 s2 ((s2.putNum x.key x.pa 16 n).pass s.seqTurn f) x p arv := by
  have hrun := running_of_barReaches hx
  have hmgmt : ∀ b, x.pa ≤ b → b < x.pa + 16 → inMgmt b = false := record_not_inMgmt (off := 0) hplace (by omega)
  have hseq : (s2.putNum x.key x.pa 16 n).seq s.seqTurn = me s1 := by
    rw [me, State.seqTurn_of_running hrun]
    exact State.seq_of_bare ((s2.putNum_bare ..).trans hb) _
  have harv : (me s1).arv = (me s).arv := by
    rw [me, State.seqTurn_of_running hrun]
    exact congrArg (fun v => v.2.2.arv) hrun
  refine ⟨?_, ?_, fun a ha => ?_⟩
  · rw [State.pass, State.modSeq_seq_self, hseq, me_pc_of_running hrun]
    exact hf _ harv
  · rw [State.pass_numAt, State.putNum_numAt_self hok hmgmt hn]
    exact hp
  · rw [State.pass_byteAt, State.putNum_byteAt hok hmgmt, if_neg (by omega)]

section
variable {s s1 : State} {a : BitVec 5} {g c : BitVec 3} {x : Xlated} (hg : guardOn s g 0) (hi : mayIssue s) (hr : mayRelease s 3 c)
  (hx : barReaches s s1 .rw (reg s a) x)
include hg hi hr hx

theorem execBari_puts (h0 : 0 < (reg s (a + 1)).toNat) (h32 : (reg s (a + 1)).toNat < 2 ^ 32) : execBari a g c s =
    .next (((released s1 3 c).putNum x.key x.pa 16 (barInit (barrier (released s1 3 c) x) (reg s (a + 1)).toNat)).pass s.seqTurn id) := by
  have hne : reg s (a + 1) ≠ 0 := fun e => by rw [e] at h0; exact absurd h0 (by decide)
  have hhigh : bits (reg s (a + 1)) 32 32 = 0 := (bits_eq_zero_iff ..).mpr (by rw [Nat.div_eq_of_lt h32]; rfl)
  rw [execBari, barGuarded_on hg hi hr, released_eq]
  exact congrArg Host.Outcome.next ((if_neg (not_or.mpr ⟨hne, not_not_intro hhigh⟩)).trans (State.atBarrier_of_barReaches hx _))

theorem execBara_arrives (ho : barrier (released s1 3 c) x / 2 ^ 96 % 4 = 1) : execBara a g c s =
    .next (((released s1 3 c).putNum x.key x.pa 16 (barArrive (barrier (released s1 3 c) x))).pass s.seqTurn
      (fun y => { y with arv := some (reg s a, barPhase (barrier (released s1 3 c) x)) })) := by
  rw [execBara, barGuarded_on hg hi hr]
  refine congrArg Host.Outcome.next ((State.atBarrier_of_barReaches hx _).trans ?_)
  dsimp only
  rw [← released_eq, ← barrier, (barOpen_iff _).mpr ho]
  rfl

/-- An arrival at a barrier that is not OPEN traps with BarrierUnset. -/
theorem execBara_unset (ho : ¬ barrier (released s1 3 c) x / 2 ^ 96 % 4 = 1) (hc : canTrap s) :
    execBara a g c s = .next (trapped (released s1 3 c) 20 (reg s a)) := by
  have hrun : (released s1 3 c).running s.seqTurn = s.running s.seqTurn := (released_running ..).trans (running_of_barReaches hx)
  rw [execBara, barGuarded_on hg hi hr]
  refine congrArg Host.Outcome.next ((State.atBarrier_of_barReaches hx _).trans ?_)
  dsimp only
  rw [← released_eq, ← barrier, Bool.eq_false_iff.mpr (mt (barOpen_iff _).mp ho)]
  exact State.takeTrap_of_running hrun hc _ _

end

/-! ### `barw` and `bart` (R297, R298) -/

section
variable {s s1 : State} {va : Word64} {x : Xlated} {ph : Word32} (body : State → Bool → State)

/-- At an OPEN barrier that the sequencer has arrived at, the phase is compared with the recorded one. -/
theorem State.testBarrier_open (hx : barReaches s s1 .r va x) (harv : (me s).arv = some (va, ph)) (ho : barrier s1 x / 2 ^ 96 % 4 = 1) :
    s.testBarrier s.seqTurn va body = body s1 (decide (barPhase (barrier s1 x) ≠ ph)) := by
  rw [State.testBarrier, show (s.seq s.seqTurn).arv = some (va, ph) from harv]
  refine (if_neg (not_not_intro rfl)).trans ((State.atBarrier_of_barReaches hx _).trans ?_)
  dsimp only
  rw [← barrier, (barOpen_iff _).mpr ho, decide_not]
  rfl

theorem State.testBarrier_unset (hx : barReaches s s1 .r va x) (harv : (me s).arv = some (va, ph)) (ho : ¬ barrier s1 x / 2 ^ 96 % 4 = 1)
    (hc : canTrap s) : s.testBarrier s.seqTurn va body = trapped s1 20 va := by
  rw [State.testBarrier, show (s.seq s.seqTurn).arv = some (va, ph) from harv]
  refine (if_neg (not_not_intro rfl)).trans ((State.atBarrier_of_barReaches hx _).trans ?_)
  dsimp only
  rw [← barrier, Bool.eq_false_iff.mpr (mt (barOpen_iff _).mp ho)]
  exact State.takeTrap_of_running (running_of_barReaches hx) hc _ _

/-- Without an arrival at that address recorded, the barrier is not accessed. -/
theorem State.testBarrier_noArrival (harv : ∀ p, (me s).arv ≠ some (va, p)) (hc : canTrap s) :
    s.testBarrier s.seqTurn va body = trapped s 21 va := by
  have htrap := State.takeTrap_of_running (s := s) rfl hc 21 va
  unfold State.testBarrier
  split
  · exact htrap
  · next at_ p hsome =>
    have hne : at_ ≠ va := fun e => harv p (e ▸ hsome)
    exact (if_pos hne).trans htrap

end

section
variable {s : State} {a : BitVec 5} {k g c : BitVec 3} (hg : guardOn s g 0) (hi : mayIssue s)
include hg hi

theorem execBarw_tests : execBarw a g c s = .next (s.testBarrier s.seqTurn (reg s a) (fun s1 done =>
    if done then s1.pass s.seqTurn id else s1.modSeq s.seqTurn (fun y => { y with wait := .barw (reg s a) c }))) := by
  rw [execBarw, barGuarded_on hg hi (mayRelease_zero s 3)]
  rfl

theorem execBart_tests : execBart a k g c s = .next (s.testBarrier s.seqTurn (reg s a) (fun s1 done =>
    s1.pass s.seqTurn (fun y => y.writeP k done))) := by
  rw [execBart, barGuarded_on hg hi (mayRelease_zero s 3)]
  rfl

end

theorem execBarwComplete_tests {s : State} {va : Word64} {c : BitVec 3} (hw : (me s).wait = .barw va c) (hrun : (me s).run = .running) :
    execBarwComplete s.seqTurn s =
      .next (s.testBarrier s.seqTurn va (fun s1 done => if done then s1.pass s.seqTurn id else s1)) := by
  rw [execBarwComplete, show (s.seq s.seqTurn).wait = .barw va c from hw]
  exact if_pos (.inl hrun)

/-- A sequencer that has gone on with a predicate written. -/
theorem State.pass_writeP (s : State) (k : BitVec 3) (v : Bool) : s.pass s.seqTurn (fun y => y.writeP k v) =
    (wroteP s k v).setSeq s.seqTurn { me (wroteP s k v) with wait := .none } := by
  have hme : me (wroteP s k v) = ((me s).writeP k v).advance := by
    rw [wroteP_eq]
    exact State.setSeq_seq_self ..
  rw [hme, wroteP_eq, State.pass_me]
  simp only [State.setSeq, Vector.set_set, Seq.writeP, Seq.advance]
  split <;> rfl

/-- Settles O27: `bari` and `bara` put the barrier's new number behind their release; the others compare its phase with the recorded one. -/
theorem barrierInstructions : Obligations.BarrierInstructions := by
  intro s s1 a k g c x ph va s2 b b1 isOpen hok hplace
  simp only [exec_bari, exec_bara, exec_barw, exec_bart, exec_barwComplete]
  refine ⟨fun hg hi hr hx => ?_, fun hg hi hx => ⟨fun harv ho => ?_, fun harv ho hc => ?_⟩, fun hg hi harv hc => ?_,
    fun hw hrun hx harv ho hph => ?_⟩
  · have left {n : Nat} {p : Nat → Prop} {f : Seq → Seq} {arv : Option (Word64 × Word32)} :=
      barrierLeft_pass (s2 := s2) (n := n) (p := p) (f := f) (arv := arv) hx (released_bare ..)
        (released_memOk (memOk_of_barReaches hx hok) ..) hplace
    have hb : b < 256 ^ 16 := s2.numAt_lt ..
    refine ⟨fun _ h0 h32 => ?_, fun ho hlt => ?_, fun ho hle => ?_, fun ho hc => execBara_unset hg hi hr hx ho hc⟩
    · exact ⟨_, execBari_puts hg hi hr hx h0 h32, left (barWith_lt _ _ _ _ hb) (barInit_fields b h32) fun z hz => by rw [← hz]; rfl⟩
    · exact ⟨_, execBara_arrives hg hi hr hx ho, left (barArrive_lt hb) (barArrive_counts ho hlt) fun _ _ => rfl⟩
    · exact ⟨_, execBara_arrives hg hi hr hx ho, left (barArrive_lt hb) (barArrive_completes ho hle) fun _ _ => rfl⟩
  · have hturn := State.seqTurn_of_running (running_of_barReaches hx)
    rw [execBarw_tests hg hi, execBart_tests hg hi, State.testBarrier_open _ hx harv ho, State.testBarrier_open _ hx harv ho]
    refine ⟨fun hne => ?_, fun heq => ?_, ?_⟩
    · rw [← hturn]
      exact congrArg Host.Outcome.next (if_pos (decide_eq_true hne))
    · rw [← hturn]
      exact congrArg Host.Outcome.next (if_neg (not_not_intro heq ∘ of_decide_eq_true))
    · rw [← hturn, State.pass_writeP]
      rfl
  · rw [execBarw_tests hg hi, execBart_tests hg hi, State.testBarrier_unset _ hx harv ho hc, State.testBarrier_unset _ hx harv ho hc]
    exact ⟨rfl, rfl⟩
  · rw [execBarw_tests hg hi, execBart_tests hg hi, State.testBarrier_noArrival _ harv hc, State.testBarrier_noArrival _ harv hc]
    exact ⟨rfl, rfl⟩
  · rw [execBarwComplete_tests hw hrun, State.testBarrier_open _ hx harv ho, ← State.seqTurn_of_running (running_of_barReaches hx)]
    exact congrArg Host.Outcome.next (if_pos (decide_eq_true hph))

end Sys2Proof.Machine
end

section
open Sys2Proof.Cert
namespace Sys2Proof.Machine

theorem exec_send (a : BitVec 5) (c : BitVec 6) (q : BitVec 3) (n : BitVec 4) (s : State) : exec (.send a c q n) s = execSend a c q n s := rfl
theorem exec_recv (a : BitVec 5) (c : BitVec 6) (q : BitVec 3) (n : BitVec 4) (s : State) : exec (.recv a c q n) s = execRecv a c q n s := rfl
theorem exec_recvComplete (q : BitVec 7) (s : State) : exec (.recvComplete q) s = execRecvComplete q s := rfl
theorem exec_backOffEnd (q : BitVec 7) (s : State) : exec (.backOffEnd q) s = execBackOffEnd q s := rfl

/-! ### Software queues (R302) -/

section
variable (s : State) (ctx : BitVec 9) (va : Word64) (pa : Nat) (f : SoftDesc)

/-- What a slice holds of a queue is held for its context, at the physical address of its descriptor. -/
theorem State.softOf_place : (s.softOf ctx va pa f).ctx = ctx ∧ (s.softOf ctx va pa f).pa = pa := by
  unfold State.softOf
  dsimp only
  split
  · exact ⟨rfl, rfl⟩
  · split
    · next hy =>
      have hfound := List.find?_some hy
      exact of_decide_eq_true hfound
    · next hy =>
      have hfound := List.find?_some hy
      exact ⟨(of_decide_eq_true hfound).1, rfl⟩
    · exact ⟨rfl, rfl⟩

end

/-- An engine's translation changes cached translations of its die alone (R327). -/
theorem State.xlateEngine_running (s : State) (d : BitVec 3) (ctx : BitVec 9) (right : Right) (va : Word64) (q : BitVec 7) :
    (s.xlateEngine d ctx right va).2.running q = s.running q := by
  unfold State.xlateEngine
  dsimp only
  split
  · rfl
  · split
    · rfl
    · split <;> rfl

theorem State.slotWrite_running (d : BitVec 3) (ctx : BitVec 9) (f : SoftDesc) (cur : Nat) (q : BitVec 7) (l : List (Nat × List Byte)) (s : State) :
    (s.slotWrite d ctx f cur l).running q = s.running q := by
  induction l generalizing s with
  | nil => rfl
  | cons p l ih =>
    rw [State.slotWrite]
    refine (ih _).trans ?_
    have hx := s.xlateEngine_running d ctx .rw (f.slotVa cur p.1) q
    split
    · next y s1 e =>
      rw [e] at hx
      exact (State.running_of_bare q (s1.putBytes_bare ..)).trans hx
    · next e =>
      rw [e] at hx
      exact hx

section
variable (s : State) (d : BitVec 3) (x : Xlated) (f : SoftDesc) (dirty : List (Nat × List Byte)) (y : SoftQ)

/-- The write-back of a queue leaves the sequencers as they are. -/
theorem State.softPut_running (q : BitVec 7) : (s.softPut d x f dirty y).running q = s.running q := by
  have put (t : State) (pa v : Nat) : (t.putNum x.key pa 8 v).running q = t.running q := State.running_of_bare q (t.putNum_bare ..)
  have held (t : State) (n : Nat) (l : List SoftQ) : ({ t with fresh := n, softqs := l } : State).running q = t.running q := rfl
  unfold State.softPut
  dsimp only
  rw [held, put, put, put, put, State.slotWrite_running]
  rfl

theorem State.softPut_softAt {ctx : BitVec 9} {pa : Nat} (h : y.ctx = ctx ∧ y.pa = pa) : softAt (s.softPut d x f dirty y) ctx pa = some y :=
  List.find?_cons_of_pos (decide_eq_true h)

@[simp] theorem State.pass_softAt (q : BitVec 7) (g : Seq → Seq) (ctx : BitVec 9) (pa : Nat) :
    softAt (s.pass q g) ctx pa = softAt s ctx pa := rfl

end

/-- A flowing queue that does not spill takes a unit that leaves it under HIGH: it is put back with that unit behind its others (R238, R303). -/
theorem State.softOffer_flowing {s : State} {d : BitVec 3} {ctx : BitVec 9} {va : Word64} {x : Xlated} {u : Item} {f : SoftDesc}
    (hf : softDescOf (fun i => s.dwordAt x.key (x.pa + 8 * i)) = some f) {y y1 : SoftQ} (hy : s.softOf ctx va x.pa f = y)
    (hy1 : { y with q := y.q.enqueue u } = y1) (hd : u.isData = true) (hs : y.q.state = .flowing)
    (hroom : u.slots ≤ y.q.free) (hhigh : y.q.occ + u.slots < y.q.high) (hp : y.q.spills = false)
    (hslots : s.slotFault d ctx f y.cur ((y.dirty y1).map Prod.fst) = none) :
    s.softOffer d ctx va x u = (.done .kept none, s.softPut d x f (y.dirty y1) y1) := by
  have hoffer := Queue.offer_flowing hd hs hp hroom hhigh f.qid
  have hput : ({ y with q := y.q.enqueue u, head := y.head + BitVec.ofNat 32 0 } : SoftQ) = y1 := by
    rw [← hy1]
    simp
  rw [State.softOffer, hf]
  dsimp only
  rw [hy, State.offerQ_of_ring (by rw [hoffer]; rfl), hoffer]
  dsimp only
  rw [hput, hslots]

/-! ### What a sequencer finds at its channel (R301, R303) -/

theorem Seq.channel_of_chanAt {s : State} {c : BitVec 6} {va : Word64} (h : chanAt s c va) : (me s).channel c = some va := by
  obtain ⟨hmap, hne, hal⟩ := h
  rw [Seq.channel, hmap]
  exact if_neg (not_or.mpr ⟨hne, not_not_intro hal⟩)

theorem running_of_chanReaches {s s1 : State} {va : Word64} {x : Xlated} (h : chanReaches s s1 va x) :
    s1.running s.seqTurn = s.running s.seqTurn := by
  obtain ⟨s0, hx, rfl, -⟩ := h
  exact settled_running_of_xlate hx

/-- A sequencer in two states that differ in its cached translations. -/
theorem State.seq_of_running {s t : State} {q : BitVec 7} (h : t.running q = s.running q) :
    t.seq q = { s.seq q with tlb := (t.seq q).tlb } :=
  congrArg (fun v => { v.2.2 with tlb := (t.seq q).tlb }) h

/-- A sequencer that goes on in a state that has it as it was but for cached translations. -/
theorem State.pass_seq_of_running {s t : State} (h : t.running s.seqTurn = s.running s.seqTurn) (g : Seq → Seq) :
    ∃ l, (t.pass s.seqTurn g).seq s.seqTurn = g { me s with tlb := l, wait := .none, pc := (me s).pc + 4 } := by
  refine ⟨(t.seq s.seqTurn).tlb, ?_⟩
  rw [State.pass, State.modSeq_seq_self, State.seq_of_running h]
  rfl

/-! ### `send` (R303) -/

/-- A sequencer whose unit was kept counts it in the channel's SEQ and sets `p7`. -/
def Seq.sent (z : Seq) (c : BitVec 6) : Seq :=
  { z with sendSeq := z.sendSeq.set c.toNat (z.sendSeq[c.toNat] + 1), p := z.p.set 7 true }

/-- The unit that `send` makes of its registers. -/
def sentUnit (s : State) (a : BitVec 5) (c : BitVec 6) (n : BitVec 4) : Item :=
  unitOf (sendTag (me s).sendSeq[c.toNat]) ((me s).readList a n.toNat)

theorem sentUnit_isData (s : State) (a : BitVec 5) (c : BitVec 6) (n : BitVec 4) : (sentUnit s a c n).isData = true := by
  rw [Item.isData, sentUnit, unitOf_tag]
  rfl

section
variable {s s1 : State} {a : BitVec 5} {c : BitVec 6} {q : BitVec 3} {n : BitVec 4} {va : Word64} {x : Xlated}
  (hchan : chanAt s c va) (hx : chanReaches s s1 va x)
include hchan hx

/-- An offer that its queue keeps completes the `send`. -/
theorem execSend_kept (hg : guardOn s q 0) (hi : mayIssue s) (hp : storesPass s) (hback : ¬ (me s).cycle < (me s).chBack[c.toNat]) {t : State}
    (ho : (s1.flush s.seqTurn).softOffer (seqDie s.seqTurn) (me s).ctx va x (sentUnit s a c n) = (.done .kept none, t)) :
    execSend a c q n s = .next (t.pass s.seqTurn (fun z => z.sent c)) := by
  obtain ⟨s0, hxl, rfl, hpath⟩ := hx
  rw [settled_of_xlate hxl, sentUnit] at ho
  rw [execSend, guarded_on hg, Seq.channel_of_chanAt hchan]
  dsimp only
  rw [if_neg hback, mayAccess_of_mayIssue hi, storesCross_of_storesPass hp, hxl]
  dsimp only
  rw [hpath]
  dsimp only
  rw [ho]
  rfl

/-! ### `recv` (R303) -/

section
variable {f : SoftDesc} (hf : softDescOf (fun i => BitVec.ofNat 64 (s1.seqNum s.seqTurn x.key (x.pa + 8 * i) 8)) = some f)
  {y : SoftQ} (hy : s1.softOf (me s).ctx va x.pa f = y)
include hf hy

/-- Where the queue holds no unit there is none to take. -/
theorem State.tryRecv_empty (hu : y.q.head = none) : s.tryRecv s.seqTurn a c n = none := by
  obtain ⟨s0, hxl, rfl, hpath⟩ := hx
  rw [settled_of_xlate hxl] at hf hy
  have hme : s.seq s.seqTurn = me s := rfl
  simp only [State.tryRecv, hme, Seq.channel_of_chanAt hchan, hxl, hpath, hf, hy, hu]

/-- The oldest unit is taken, and its tag and double-words are written. -/
theorem State.tryRecv_takes {u : Item} (hu : y.q.head = some u)
    (hslots : s1.slotFault (seqDie s.seqTurn) (me s).ctx f y.cur (List.range u.slots) = none) :
    s.tryRecv s.seqTurn a c n = some ((s1.softPut (seqDie s.seqTurn) x f []
      { y with q := y.q.pop, head := y.head + 1, cur := (y.cur + u.slots) % (y.q.depth + 8) }).pass s.seqTurn
        (fun z => ({ z with ptag := u.tag.word } : Seq).writeList a (unitDwords u (n.toNat + 1)))) := by
  obtain ⟨s0, hxl, rfl, hpath⟩ := hx
  rw [settled_of_xlate hxl] at hf hy hslots ⊢
  have hme : s.seq s.seqTurn = me s := rfl
  simp only [State.tryRecv, hme, Seq.channel_of_chanAt hchan, hxl, hpath, hf, hy, hu, hslots]

end

end

/-- What a kept offer leaves: the queue with the unit behind its others, the channel's SEQ counted, and `p7` true. -/
theorem execSend_does {s s1 : State} {a : BitVec 5} {c : BitVec 6} {q : BitVec 3} {n : BitVec 4} {va : Word64} {x : Xlated} {f : SoftDesc}
    {y : SoftQ} {u : Item} (hchan : chanAt s c va) (hx : chanReaches s s1 va x) (hg : guardOn s q 0) (hi : mayIssue s) (hp : storesPass s)
    (hback : ¬ (me s).cycle < (me s).chBack[c.toNat]) (hu : sentUnit s a c n = u)
    (hf : softDescOf (fun i => (s1.flush s.seqTurn).dwordAt x.key (x.pa + 8 * i)) = some f)
    (hy : (s1.flush s.seqTurn).softOf (me s).ctx va x.pa f = y) (hflow : y.q.state = .flowing) (hroom : u.slots ≤ y.q.free)
    (hhigh : y.q.occ + u.slots < y.q.high) (hspill : y.q.spills = false) (hkv : y.q.kv = false)
    (hslots : (s1.flush s.seqTurn).slotFault (seqDie s.seqTurn) (me s).ctx f y.cur
      ((y.dirty { y with q := y.q.enqueue u }).map Prod.fst) = none) :
    ∃ t, execSend a c q n s = .next t ∧
      (∃ z, softAt t (me s).ctx x.pa = some z ∧ z.q.entries = y.q.entries ++ [⟨u, true⟩] ∧ z.head = y.head ∧ z.cur = y.cur) ∧
      (t.seq s.seqTurn).sendSeq[c.toNat] = (me s).sendSeq[c.toNat] + 1 ∧ (t.seq s.seqTurn).p = (me s).p.set 7 true ∧
      (t.seq s.seqTurn).g = (me s).g ∧ (t.seq s.seqTurn).pc = (me s).pc + 4 ∧ (t.seq s.seqTurn).wait = .none ∧
      (t.seq s.seqTurn).chBack = (me s).chBack := by
  subst hu
  have hd := sentUnit_isData s a c n
  have hplace : y.ctx = (me s).ctx ∧ y.pa = x.pa := hy ▸ State.softOf_place ..
  have hoffer := State.softOffer_flowing hf hy rfl hd hflow hroom hhigh hspill hslots
  have hentries := congrArg Queue.entries (Queue.enqueue_whole hd hkv)
  refine ⟨_, execSend_kept hchan hx hg hi hp hback hoffer,
    ⟨_, (State.pass_softAt ..).trans (State.softPut_softAt _ _ _ _ _ _ hplace), hentries, rfl, rfl⟩, ?_⟩
  obtain ⟨l, hseq⟩ := State.pass_seq_of_running
    ((State.softPut_running ..).trans ((s1.flush_running ..).trans (running_of_chanReaches hx))) (fun z => z.sent c)
  rw [hseq]
  exact ⟨Vector.getElem_set_self _, rfl, rfl, rfl, rfl, rfl⟩

/-- What taking the oldest unit leaves: the queue without it, its tag in PTAG, its double-words in the registers of the list (R154). -/
theorem State.tryRecv_does {s s1 : State} {a : BitVec 5} {c : BitVec 6} {n : BitVec 4} {va : Word64} {x : Xlated} {f : SoftDesc} {y : SoftQ}
    {u : Item} (hchan : chanAt s c va) (hx : chanReaches s s1 va x) (han : a.toNat + n.toNat ≤ 31)
    (hf : softDescOf (fun i => BitVec.ofNat 64 (s1.seqNum s.seqTurn x.key (x.pa + 8 * i) 8)) = some f)
    (hy : s1.softOf (me s).ctx va x.pa f = y) (hu : y.q.head = some u)
    (hslots : s1.slotFault (seqDie s.seqTurn) (me s).ctx f y.cur (List.range u.slots) = none) :
    ∃ t, s.tryRecv s.seqTurn a c n = some t ∧
      (∃ z, softAt t (me s).ctx x.pa = some z ∧ z.q.entries = y.q.entries.tail ∧ z.head = y.head + 1) ∧
      (t.seq s.seqTurn).ptag = u.tag.word ∧ (t.seq s.seqTurn).pc = (me s).pc + 4 ∧ (t.seq s.seqTurn).wait = .none ∧
      (t.seq s.seqTurn).p = (me s).p ∧ ∀ r : BitVec 5, r ≠ 0 → (t.seq s.seqTurn).g[r.toNat] =
        if a.toNat ≤ r.toNat ∧ r.toNat ≤ a.toNat + n.toNat then u.dword (r.toNat - a.toNat) else (me s).g[r.toNat] := by
  have hplace : y.ctx = (me s).ctx ∧ y.pa = x.pa := hy ▸ s1.softOf_place ..
  have hlen : (unitDwords u (n.toNat + 1)).length = n.toNat + 1 := by simp [unitDwords]
  refine ⟨_, State.tryRecv_takes hchan hx hf hy hu hslots,
    ⟨_, (State.pass_softAt ..).trans (State.softPut_softAt _ _ _ _ _ _ hplace), rfl, rfl⟩, ?_⟩
  obtain ⟨l, hseq⟩ := State.pass_seq_of_running ((State.softPut_running ..).trans (running_of_chanReaches hx))
    (fun z => ({ z with ptag := u.tag.word } : Seq).writeList a (unitDwords u (n.toNat + 1)))
  rw [hseq]
  refine ⟨by rw [Seq.writeList_eq], by rw [Seq.writeList_eq], by rw [Seq.writeList_eq], by rw [Seq.writeList_eq], fun r hr => ?_⟩
  rw [Seq.writeList_g _ _ _ _ hr (by omega), hlen]
  by_cases hin : a.toNat ≤ r.toNat ∧ r.toNat ≤ a.toNat + n.toNat
  · rw [if_pos hin, if_pos (by omega), unitDwords, List.getD_eq_getElem?_getD, List.getElem?_map,
      List.getElem?_range (by omega : r.toNat - a.toNat < n.toNat + 1)]
    rfl
  · rw [if_neg hin, if_neg (by omega)]

section
variable {s t : State} {a : BitVec 5} {c : BitVec 6} {q : BitVec 3} {n : BitVec 4}

theorem execRecv_next (hg : guardOn s q 0) (hi : mayIssue s) (h : s.tryRecv s.seqTurn a c n = some t) : execRecv a c q n s = .next t := by
  rw [execRecv, guarded_on hg, mayAccess_of_mayIssue hi, h]
  rfl

theorem execRecv_waits (hg : guardOn s q 0) (hi : mayIssue s) (h : s.tryRecv s.seqTurn a c n = none) :
    execRecv a c q n s = .next (s.setSeq s.seqTurn { me s with wait := .recv a c n }) := by
  rw [execRecv, guarded_on hg, mayAccess_of_mayIssue hi, h]
  rfl

theorem execRecvComplete_next (hw : (me s).wait = .recv a c n) (hrun : (me s).run = .running) (h : s.tryRecv s.seqTurn a c n = some t) :
    execRecvComplete s.seqTurn s = .next t := by
  rw [execRecvComplete, show (s.seq s.seqTurn).wait = .recv a c n from hw]
  dsimp only
  rw [h]
  exact if_pos (.inl hrun)

/-! ### The end of a back-off (R153, R303) -/

theorem execBackOffEnd_send (hw : (me s).wait = .send c) (hdue : (me s).chBack[c.toNat] ≤ (me s).cycle) :
    execBackOffEnd s.seqTurn s = .next (s.setSeq s.seqTurn { me s with wait := .none }) := by
  rw [execBackOffEnd, show (s.seq s.seqTurn).wait = .send c from hw]
  exact if_pos hdue

theorem execBackOffEnd_put (hw : (me s).wait = .put c) (hdue : (me s).backoff[c.toNat] ≤ (me s).cycle) :
    execBackOffEnd s.seqTurn s = .next (s.setSeq s.seqTurn { me s with wait := .none }) := by
  rw [execBackOffEnd, show (s.seq s.seqTurn).wait = .put c from hw]
  exact if_pos hdue

end

/-- Settles O28: a kept offer is put back with its unit, a `recv` writes the oldest unit and takes it, and a back-off ends when it is due. -/
theorem channelInstructions : Obligations.ChannelInstructions := by
  intro s s1 a c q n va x f han hchan hx
  simp only [exec_send, exec_recv, exec_recvComplete, exec_backOffEnd]
  refine ⟨fun hg hi hp hback hf hflow hroom hhigh hspill hkv hslots => ?_, fun hf => ⟨fun hg hi => ⟨fun u hu hslots => ?_, fun hu => ?_⟩,
    fun hw hrun u hu hslots => ?_⟩, execBackOffEnd_send, execBackOffEnd_put⟩
  · exact execSend_does hchan hx hg hi hp hback rfl hf rfl hflow hroom hhigh hspill hkv hslots
  · obtain ⟨t, ht, hleft⟩ := State.tryRecv_does hchan hx han hf rfl hu hslots
    exact ⟨t, execRecv_next hg hi ht, hleft⟩
  · exact execRecv_waits hg hi (State.tryRecv_empty hchan hx hf rfl hu)
  · obtain ⟨t, ht, hleft⟩ := State.tryRecv_does hchan hx han hf rfl hu hslots
    exact ⟨t, execRecvComplete_next hw hrun ht, hleft⟩

end Sys2Proof.Machine
end
